-- ==== Sys2Proof/Word.lean ====
section
/-! DEFINITION. The word types and the shape of a sparse table; no rule of the machine stands here. -/

namespace Sys2Proof

abbrev Byte := BitVec 8
abbrev W16 := BitVec 16
abbrev W32 := BitVec 32
abbrev W64 := BitVec 64

/-- One bit for each of the 64 lanes of a troupe, lane l at bit l. -/
abbrev LaneMask := BitVec 64

/-- A table with keys in strictly rising order. A key that is not listed reads as a default
that the reader of the table names. -/
abbrev Sparse (V : Type) := List (Nat × V)

/-- A set of keys in strictly rising order. -/
abbrev KeySet := List Nat

end Sys2Proof
end

