-- ==== Sys2Proof/Config.lean ====
section
/-! DEFINITION. The free values: what the spec leaves open. None of them has a body, so no proof can
see a value; a statement that mentions one holds for every value. Log entries 3 to 6 name each. -/

namespace Sys2Proof.Config

/-- The approximate functions of R122 and R123. -/
inductive Approx where
  | frcp | frsq | fex2 | flg2 | fsin | fcos | ftanh | fsigm
  deriving DecidableEq, Repr

/-- The result an approximate function returns for an input word (R20: one fixed function of the input bits).
The machine takes it only where it lies within the bound of R122 and R123. UNVERIFIED values; log entry 4. -/
opaque approx : Approx → W32 → W32

/-- R43: whether a fetched word whose cached copy differs from memory is the new word. Applied to a counter of
the state. Log entry 5. -/
opaque fetchNew : Nat → Bool

/-- R343: whether a translation between a change of a valid entry and its tlbinv uses the new entry. Applied to
a counter of the state. Log entry 5. -/
opaque walkNew : Nat → Bool

/-- R387: word i of the control area of a context frame, whose layout belongs to the core. Applied to a counter of
the state. Log entry 20. -/
opaque controlWord : (n i : Nat) → W64

/-- R314: the line, by its virtual address divided by 64, that a core predicts at a tick for a stalled load of a troupe, if
it predicts one. Log entry 39. -/
opaque guess : (tick troupe : Nat) → Option Nat

/-- R299: what amomaxu.d on a COUNTER page leaves in rd. Applied to a counter of the state. Log entry 24. -/
opaque amomaxOld : Nat → W64

/-- R302: the hart, interrupt file (0 S, 1 to 7 guest, 8 M) and EIID that an APLIC sends the MSI of a source to, which the
kernel sets up in registers the spec does not give; EIID 0 sends none. Applied to a counter of the state. Log entry 118. -/
opaque aplicTarget : (n slice source : Nat) → Nat × Nat × Nat

/-- R410: a partition's power over a calendar period, in W, as measured. Applied to a counter of the state. Log entry
22. -/
opaque power : Nat → W16

/-- R378: the bytes that one packet brings into the network. Applied to a counter of the state. Log entry 25. -/
opaque packetBytes : Nat → Nat

/-- R307: the unit-specific syndrome of an error record. Applied to a counter of the state. Log entry 26. -/
opaque syndrome : Nat → W32

/-- R407, R427: where the GRC puts a page of its own (0 the map, 1 its version, 2 the boot block) in a partition's memory.
Log entry 27. -/
opaque bootPage : (part which : Nat) → Nat

/-- R405, R406: keys are named by the digest that is fused in the GRC, or that the running firmware enrols for the owner.
Log entry 6. -/
opaque fusedKey : BitVec 512
opaque ownerKey : (firmware : BitVec 512) → BitVec 512

/-- R405, R406: whether the signature that comes with a body of the given digest verifies under a key. Cryptography is
not computed; log entry 6. -/
opaque signatureOk : (key digest : BitVec 512) → Bool

/-- R405, R408: the 512-bit digest of a body of bytes. Log entry 6. -/
opaque digest : List Byte → BitVec 512

/-- R408: the 4,096-bit signature of a report by the device identity key. Log entry 6. -/
opaque reportSignature : List Byte → BitVec 4096

/-- R408: the module serial number. Log entry 6. -/
opaque serial : W64

end Sys2Proof.Config
end

