-- ==== Sys2Proof/Syntax.lean ====
section
/-! DEFINITION. The instructions and events: one constructor for each row of spec/opcode_table.json.
Register numbers and codes are typed here; the machine never sees an encoded field. -/

namespace Sys2Proof

/-- A register named by an 8-bit field: v0 to v191 or s0 to s63 (R44). -/
inductive Reg where
  | v (n : Fin 192)
  | s (n : Fin 64)
  deriving DecidableEq, Repr

abbrev SReg := Fin 64
abbrev Pred := Fin 8
abbrev BReg := Fin 16
abbrev Slot := Fin 16

/-- A source register with its full/empty mode bit (R47): true raises EMPTY_REGISTER, false waits. -/
structure Src where
  reg : Reg
  trapEmpty : Bool
  deriving DecidableEq, Repr

/-- R48: an enabled guard. -/
structure Guard where
  inv : Bool
  p : Pred
  deriving DecidableEq, Repr

/-- R13: the type codes 0 to 7 of an integer instruction. -/
inductive IntTy where
  | ui32 | i32 | ui64 | i64 | ui16x2 | i16x2 | ui8x4 | i8x4
  deriving DecidableEq, Repr

/-- R117: the codes of a converted integer type. -/
inductive ConvTy where
  | ui32 | i32 | ui64 | i64 | ui16 | i16 | ui8 | i8
  deriving DecidableEq, Repr

/-- R25. -/
inductive Rounding where
  | rne | rtz | rdn | rup | rna | sr
  deriving DecidableEq, Repr

/-- R131: the formats of cvtf, cvtfi and cvtif. -/
inductive FFmt where
  | f32 | f64 | f16 | bf16
  deriving DecidableEq, Repr

/-- R133: the wide formats of cvt8. -/
inductive WideFmt where
  | f32 | f16 | bf16
  deriving DecidableEq, Repr

/-- R135: the element formats of cvtmx. -/
inductive MxFmt where
  | e2m1 | e3m2 | e2m3
  deriving DecidableEq, Repr

/-- R223: the formats of mmacvt. -/
inductive TileFmt where
  | e4m3 | e5m2 | bf16 | f16
  deriving DecidableEq, Repr

/-- R108. -/
inductive ICond where
  | eq | ne | lt | le | gt | ge
  deriving DecidableEq, Repr

/-- R127. -/
inductive FCond where
  | eq | ne | lt | le | gt | ge | ord | uno | equ | neu | ltu | leu | gtu | geu
  deriving DecidableEq, Repr

/-- R146. -/
inductive ShflMode where
  | idx | up | down | xor
  deriving DecidableEq, Repr

/-- R147. -/
inductive VoteMode where
  | any | all | ballot | eq
  deriving DecidableEq, Repr

/-- R149. -/
inductive RedOp where
  | add | min | max | and | or | xor
  deriving DecidableEq, Repr

/-- R150. -/
inductive FRedOp where
  | add | min | max
  deriving DecidableEq, Repr

/-- R80: the special registers by selector. -/
inductive Special where
  | lane | troupe | blockX | blockY | blockZ | gridX | gridY | gridZ | coreX | coreY | slice | vf | tick | clock
  | trapcause | trapinfo | trapaddr | trapinst | trapmask | trapresume
  deriving DecidableEq, Repr

/-- R51: access widths. -/
inductive Width where
  | b8 | b16 | b32 | b64 | b128
  deriving DecidableEq, Repr

/-- R166. -/
inductive AtomOp where
  | add | umin | smin | umax | smax | and | or | xor | xchg | inc | dec | fadd | fmin | fmax
  deriving DecidableEq, Repr

/-- R159. -/
inductive BField where
  | base | extent0 | extent1 | extent2 | stride1 | stride2 | adv
  deriving DecidableEq, Repr

/-- R211: the group size of mmaq. -/
inductive GroupSize where
  | g32 | g64 | g128
  deriving DecidableEq, Repr

/-- R222: element bits of sxpose. -/
inductive XposeBits where
  | w4 | w8 | w16 | w32
  deriving DecidableEq, Repr

/-- R394. -/
inductive QstatWhat where
  | ci | state | units
  deriving DecidableEq, Repr

/-- R353. -/
inductive TlbKind where
  | s1all | s1asid | s1range | s2range | s2all | kspace | all
  deriving DecidableEq, Repr

/-- R354. -/
inductive RdcKind where
  | range | astag | all
  deriving DecidableEq, Repr

/-- One destination and one source. -/
structure R1 where
  d : Reg
  a : Src
  deriving DecidableEq, Repr

/-- One destination and two sources. -/
structure R2 where
  d : Reg
  a : Src
  b : Src
  deriving DecidableEq, Repr

/-- One destination and three sources. -/
structure R3 where
  d : Reg
  a : Src
  b : Src
  c : Src
  deriving DecidableEq, Repr

/-- Two sources of an instruction that writes a predicate. -/
structure P2 where
  a : Src
  b : Src
  deriving DecidableEq, Repr

/-- The I format with a destination and a source (R50). -/
structure I1 where
  d : Reg
  a : Src
  imm : W32
  deriving DecidableEq, Repr

/-- The floating-point modifier layout of R54. -/
structure FMod where
  negB : Bool
  absB : Bool
  negA : Bool
  absA : Bool
  ftz : Bool
  rm : Rounding
  deriving DecidableEq, Repr

/-- The address part of an M-format word (R51). -/
structure MAddr where
  buf : BReg
  idx : Src
  off : BitVec 13
  w : Width
  scope : Fin 8
  lease : Fin 4
  hint : Fin 4
  deriving DecidableEq, Repr

/-- The register and slot fields of a product instruction (R211); k and c are s registers or absent. -/
structure MmaOps where
  d : Reg
  k : Option SReg
  sa : Slot
  sb : Slot
  z : Bool
  deriving DecidableEq, Repr

/-- The X area of a product instruction. -/
structure XArea where
  sx : Slot
  hi : Bool
  deriving DecidableEq, Repr

/-- The turnstile named by a turnstile instruction (R232, R233). -/
structure TsRef where
  scope : Fin 8
  record : Option BReg
  sa : SReg
  deriving DecidableEq, Repr

/-- The amount of tadd and tfetch (R232). -/
inductive TsAmt where
  | imm (n : W16)
  | reg (s : SReg)
  deriving DecidableEq, Repr

/-- The timeout of wait (R235). -/
inductive WaitLimit where
  | ticks (n : BitVec 22)
  | reg (s : SReg)
  deriving DecidableEq, Repr

/-- Mask and six thresholds of waitout, in the order LD, ST, CP, MX, NI, AT (R240). -/
structure Limits where
  mask : BitVec 6
  ld : BitVec 4
  st : BitVec 4
  cp : BitVec 4
  mx : BitVec 4
  ni : BitVec 4
  atc : BitVec 4
  deriving DecidableEq, Repr

/-- Where an uncorrectable error is met (R201, R255, R305). -/
inductive ErrorAt where
  | register (core slot reg : Nat) (lanes : LaneMask)
  | scratchWord (core word : Nat)
  | slotWord (core word : Nat)
  | l1Line (core line : Nat)
  | l2Line (line : Nat) (channelBad : Bool)
  /-- tag: its integrity tag does not match (R303). -/
  | memLine (line : Nat) (tag : Bool)
  /-- A word of an access on a crossbar. -/
  | xbarWord (op word : Nat)
  | rdcLine (slice line : Nat)
  | hostLine (hart line : Nat)
  | leaseTable (line : Nat)
  | turnstile (dpa : Nat)
  deriving DecidableEq, Repr

/-- R307: the units of error records, by their code. -/
abbrev UnitCode := Fin 9

/-- R414: what a lasting fault retires. -/
inductive Retired where
  | none | row | spares | bankWay (bank : Nat) | core (i : Nat) | hart (k : Nat) | lane (link : Nat) | slice
  deriving DecidableEq, Repr

/-- R406: the manifest's entry of one partition; image holds the bytes that its URL gives. -/
structure PartEntry where
  num : Nat
  smask : BitVec 16
  bands : List (W64 × W64)
  slots : KeySet
  pshare : Nat
  image : List Byte
  digest : BitVec 512
  deriving DecidableEq, Repr

/-- R406: a manifest as received. -/
structure Manifest where
  version : Nat
  emicro : Nat
  ecoefA : W64
  ecoefB : W64
  modcap : Nat
  bodyDigest : BitVec 512
  parts : List PartEntry
  deriving DecidableEq, Repr

/-- One value of a request to another module: its byte address in the export space, its value and compare value. -/
structure PeerAcc where
  off : Nat
  val : Nat
  cmp : Nat
  poison : Bool
  deriving DecidableEq, Repr

/-- R444, R447: what a request to another module asks for; msg: a message, with its sender's core and VF, ring, sequence
number, payload and the poisoned bytes of it. -/
inductive PeerAsk where
  | read (w : Width) (xs : List PeerAcc)
  | write (w : Width) (xs : List PeerAcc)
  | atom (op : AtomOp) (w : Width) (xs : List PeerAcc)
  | cas (w : Width) (xs : List PeerAcc)
  | reduce (fmt : Nat) (w : Width) (xs : List PeerAcc)
  | add (off : Nat) (amt : W64)
  | fetch (off : Nat) (amt : W64)
  | tmax (off : Nat) (v : W64)
  | tread (off : Nat)
  | msg (score svf ring seqno : Nat) (bytes : List Byte) (bad : KeySet)
  deriving DecidableEq, Repr

/-- A request between modules (R444, R445): the slice whose NI it is at, the stamp of its source, its flow, number and
epoch, and what it asks. -/
structure PeerMsg where
  slice : Nat
  smod : Nat
  spart : Nat
  flow : Nat
  seq : Nat
  epoch : Nat
  ask : PeerAsk
  deriving DecidableEq, Repr

/-- A received Ethernet frame (R450): whole, or on the device port a message of a peer's NI. -/
structure EthFrame where
  slice : Nat
  device : Option PeerMsg
  bytes : List Byte
  deriving DecidableEq, Repr

/-- R449: what training finds at a Delurxia link. -/
structure PeerLink where
  module : Nat
  slice : Nat
  link : Nat
  deriving DecidableEq, Repr

/-- One constructor for each row of spec/opcode_table.json, in the table's order. Constructors of instruction
words carry their typed operands; those of events carry which unit, operation or line they are about. -/
inductive Instr where
  -- integer and logic (R95 to R119)
  | iadd (t : IntTy) (o : R2)
  | iaddI (o : I1)
  | isub (t : IntTy) (o : R2)
  | imul (t : IntTy) (hi : Bool) (o : R2)
  | imulI (o : I1)
  | imad (t : IntTy) (o : R3)
  | imadI (o : I1)
  | imuls (t : IntTy) (o : R2)
  | idiv (t : IntTy) (nt : Bool) (o : R2)
  | irem (t : IntTy) (nt : Bool) (o : R2)
  | imin (t : IntTy) (o : R2)
  | imax (t : IntTy) (o : R2)
  | iclamp (t : IntTy) (o : R3)
  | iabs (t : IntTy) (sat : Bool) (o : R1)
  | ineg (t : IntTy) (sat : Bool) (o : R1)
  | iadds (t : IntTy) (o : R2)
  | isubs (t : IntTy) (o : R2)
  | iaddc (t : IntTy) (ci : Bool) (c : Pred) (o : R2)
  | isubb (t : IntTy) (ci : Bool) (c : Pred) (o : R2)
  | idp4 (t : IntTy) (sa sb sat : Bool) (o : R3)
  | idp2 (t : IntTy) (sa sb sat : Bool) (o : R3)
  | isad (t : IntTy) (o : R3)
  | iscadd (t : IntTy) (n : BitVec 6) (o : R2)
  | and (t : IntTy) (o : R2)
  | andI (o : I1)
  | or (t : IntTy) (o : R2)
  | orI (o : I1)
  | xor (t : IntTy) (o : R2)
  | xorI (o : I1)
  | andn (t : IntTy) (o : R2)
  | lmux (t : IntTy) (f0 f1 : BitVec 4) (o : R3)
  | shl (t : IntTy) (o : R2)
  | shlI (o : I1)
  | shr (t : IntTy) (o : R2)
  | shrI (o : I1)
  | sra (t : IntTy) (o : R2)
  | sraI (o : I1)
  | rot (t : IntTy) (right : Bool) (o : R2)
  | fsh (left : Bool) (o : R3)
  | popc (t : IntTy) (o : R1)
  | clz (t : IntTy) (o : R1)
  | ctz (t : IntTy) (o : R1)
  | brev (t : IntTy) (o : R1)
  | bfe (t : IntTy) (o : R3)
  | bfi (t : IntTy) (o : R3)
  | bperm (o : R3)
  | sext (t : IntTy) (o : R2)
  | imsk (t : IntTy) (o : R2)
  | icmp (t : IntTy) (o : R2)
  | icmpI (o : I1)
  | iset (t : IntTy) (c : ICond) (pd : Pred) (o : P2)
  | isetI (c : ICond) (u : Bool) (pd : Pred) (a : Src) (imm : BitVec 25)
  | sel (g : Option Guard) (w64 inv : Bool) (q : Pred) (o : R2)
  | plop (pd pa pb : Pred) (lut : BitVec 4)
  | pmovToReg (d : Reg)
  | pmovToPred (a : Src) (mask : BitVec 8)
  | mov (w64 : Bool) (o : R1)
  | movi (d : Reg) (imm : W32)
  | movhi (d : Reg) (imm : W32)
  | rdlane (d : Reg) (a : Src) (b : SReg)
  | wrlane (d : Reg) (a b : SReg)
  | cvti (td ts : ConvTy) (o : R1)
  | ipack (t : IntTy) (o : R2)
  | iunpack (t : IntTy) (hi : Bool) (o : R1)
  -- floating point and conversion (R120 to R136)
  | fadd (m : FMod) (o : R2)
  | faddI (o : I1)
  | fsub (m : FMod) (o : R2)
  | fmul (m : FMod) (o : R2)
  | fmulI (o : I1)
  | ffma (m : FMod) (nc : Bool) (o : R3)
  | ffmaI (o : I1)
  | fmin (m : FMod) (o : R2)
  | fmax (m : FMod) (o : R2)
  | fclamp (m : FMod) (o : R3)
  | fcmp (m : FMod) (o : R2)
  | fcmpI (o : I1)
  | fset (m : FMod) (c : FCond) (pd : Pred) (o : P2)
  | frcp (m : FMod) (o : R1)
  | frsq (m : FMod) (o : R1)
  | fsqrt (m : FMod) (o : R1)
  | fdiv (m : FMod) (o : R2)
  | fex2 (m : FMod) (o : R1)
  | flg2 (m : FMod) (o : R1)
  | fsin (m : FMod) (o : R1)
  | fcos (m : FMod) (o : R1)
  | ftanh (m : FMod) (o : R1)
  | fsigm (m : FMod) (o : R1)
  | fsilu (m : FMod) (o : R1)
  | ffrc (m : FMod) (o : R1)
  | frnd (m : FMod) (o : R1)
  | fldexp (m : FMod) (o : R2)
  | fmant (m : FMod) (o : R1)
  | fexpo (m : FMod) (o : R1)
  | dadd (m : FMod) (o : R2)
  | dmul (m : FMod) (o : R2)
  | dfma (m : FMod) (nc : Bool) (o : R3)
  | dcmp (m : FMod) (o : R2)
  | ddiv (m : FMod) (o : R2)
  | dsqrt (m : FMod) (o : R1)
  | hadd2 (m : FMod) (bf : Bool) (o : R2)
  | hmul2 (m : FMod) (bf : Bool) (o : R2)
  | hfma2 (m : FMod) (bf nc : Bool) (o : R3)
  | hmin2 (m : FMod) (bf : Bool) (o : R2)
  | hmax2 (m : FMod) (bf : Bool) (o : R2)
  | hcmp2 (m : FMod) (bf : Bool) (o : R2)
  | fdot2 (m : FMod) (bf : Bool) (o : R3)
  | cvtf (fs fd : FFmt) (neg abs ftz : Bool) (rm : Rounding) (o : R1)
  | cvtfi (fs : FFmt) (td : ConvTy) (ftz : Bool) (rm : Rounding) (o : R1)
  | cvtif (ts : ConvTy) (fd : FFmt) (rm : Rounding) (o : R1)
  | cvt8Encode (sat e5m2 : Bool) (wf : WideFmt) (hi : Bool) (ftz : Bool) (rm : Rounding) (seed : SReg) (o : R2)
  | cvt8Decode (e5m2 : Bool) (wf : WideFmt) (pos : Fin 4) (ftz : Bool) (o : R1)
  | cvtmxEncode (ef : MxFmt) (ftz : Bool) (rm : Rounding) (seed : SReg) (o : R1)
  | cvtmxDecode (ef : MxFmt) (ftz : Bool) (rm : Rounding) (o : R1)
  | cvt4Pack (o : R1)
  | cvt4Deq (o : R3)
  -- control and cross-lane (R137 to R153)
  | bra (g : Option Guard) (off : BitVec 48)
  | brx (g : Option Guard) (r : Reg)
  | call (off : BitVec 48)
  | callx (r : Reg)
  | ret (r : Reg)
  | exit
  | trap (imm : W32)
  | tret
  | bkpt (imm : W32)
  | yield
  | nop
  | sleep (ticks : W32)
  | shfl (mode : ShflMode) (seg : Fin 7) (w64 : Bool) (o : R2)
  | vote (mode : VoteMode) (inv : Bool) (q : Pred) (d : Reg)
  | matchLanes (w64 : Bool) (o : R1)
  | redux (op : RedOp) (t : IntTy) (o : R1)
  | fredux (f64 : Bool) (op : FRedOp) (neg abs ftz : Bool) (rm : Rounding) (o : R1)
  | scan (op : RedOp) (t : IntTy) (excl : Bool) (o : R1)
  | movsRead (sel : Special) (d : Reg)
  | movsWrite (a : SReg)
  | amask (live : Bool) (d : Reg)
  -- buffer records and memory (R157 to R170, R258 to R260)
  | brec (sp : Bool) (b : BReg) (sa : SReg)
  | brmk (b : BReg) (sa : SReg)
  | brset (f : BField) (b : BReg) (sa : SReg)
  | ld (d : Reg) (m : MAddr)
  | ldc (d : Reg) (m : MAddr)
  | st (g : Option Guard) (data : Src) (m : MAddr)
  | ldu (d : Reg) (m : MAddr)
  | stu (g : Option Guard) (data : Src) (m : MAddr)
  | atom (g : Option Guard) (op : AtomOp) (d : Src) (m : MAddr)
  | atomcas (g : Option Guard) (d : Src) (m : MAddr)
  | red (g : Option Guard) (op : AtomOp) (data : Src) (m : MAddr)
  | prefetch (m : MAddr)
  | ldx (d : Reg) (m : MAddr)
  | stx (data : Src) (m : MAddr)
  | atomx (op : AtomOp) (d : Src) (m : MAddr)
  -- cache operations and anchors (R283 to R294)
  | cwb (range : Option (SReg × SReg))
  | cinv (range : Option (SReg × SReg))
  | icinv (range : Option (SReg × SReg))
  | fetchbar
  | pin (d sa sb : SReg)
  | unpin (d sa sb : SReg)
  | pinq (d sa : SReg)
  -- matrix and operand slots (R203 to R224)
  | mmaE4m3 (o : MmaOps)
  | mmaE5m2 (o : MmaOps)
  | mmaBf16 (o : MmaOps)
  | mmaF16 (o : MmaOps)
  | mmaF32 (o : MmaOps)
  | mmaI8 (ua ub : Bool) (o : MmaOps)
  | mmaI4 (ua ub : Bool) (o : MmaOps)
  | mmaMxf6 (a23 b23 : Bool) (x : XArea) (c : SReg) (o : MmaOps)
  | mmaMxf4 (x : XArea) (c : SReg) (o : MmaOps)
  | mmaq (g : GroupSize) (x : XArea) (c : SReg) (o : MmaOps)
  | mmaspE4m3 (x : XArea) (o : MmaOps)
  | mmaspBf16 (x : XArea) (o : MmaOps)
  | sclaim (d : SReg) (mask : W16 ⊕ SReg)
  | srel (mask : W16 ⊕ SReg)
  | sfill (slot : Slot) (cnt : Fin 16) (off : Option SReg) (a : Src)
  | sdrain (slot : Slot) (cnt : Fin 16) (off : Option SReg) (d : Reg)
  | sxpose (dst src : Slot) (es : XposeBits) (rc : Fin 5)
  | mmacvt (slot : Slot) (fmt : TileFmt) (sat t ftz : Bool) (rm : Rounding) (off : Option SReg) (seed : SReg) (a : Src)
  -- copy, turnstiles and waiting (R232 to R252)
  | copy (d sa : SReg)
  | cbload (n : Fin 4) (d sa : SReg)
  | cpstat (d sa : SReg)
  | cpabort (chain : Option SReg)
  | tadd (t : TsRef) (amt : TsAmt)
  | tfetch (d : SReg) (t : TsRef) (amt : TsAmt)
  | tmax (t : TsRef) (sb : SReg)
  | tread (d : SReg) (t : TsRef)
  | treset (d : SReg) (t : TsRef) (sb : SReg)
  | wait (d sa : SReg) (n : Fin 4) (all : Bool) (limit : WaitLimit)
  | waitout (l : Limits)
  | fence (scope : Fin 8)
  -- launch, messages and system (R352 to R355, R393, R394, R438 to R441)
  | launch (d sa : SReg)
  | qstat (d sa : SReg) (what : QstatWhat)
  | msend (nw : Fin 4) (gtd t eth : Bool) (vreg : Fin 192) (len : BitVec 13) (d sa sb : SReg)
  | msendSp (nw : Fin 4) (gtd t eth : Bool) (len : BitVec 13) (d sa sb sc : SReg)
  | mroute (nw : Fin 4) (d sa : SReg)
  | ecall (call : W16) (n : Fin 7) (d sa : SReg)
  | sysrd (reg : BitVec 12) (d sa : SReg)
  | syswr (reg : BitVec 12) (d sa sb : SReg)
  | tlbinv (kind : TlbKind) (vf : Fin 32) (d sa sb sc : SReg)
  | rdcinv (kind : RdcKind) (d sa sb : SReg)
  -- host cores (R297 to R299, R343); registers are RISC-V x registers
  | hartFence (h : Nat)
  | hartFenceI (h : Nat)
  | cboClean (h : Nat) (rs1 : Fin 32)
  | cboFlush (h : Nat) (rs1 : Fin 32)
  | cboInval (h : Nat) (rs1 : Fin 32)
  | hartStore (h : Nat) (w : Width) (rs1 rs2 : Fin 32) (off : BitVec 12)
  | hartCounterLoad (h : Nat) (rd rs1 : Fin 32) (off : BitVec 12)
  | hartAmoaddD (h : Nat) (rd rs1 rs2 : Fin 32)
  | hartAmomaxuD (h : Nat) (rd rs1 rs2 : Fin 32)
  | hartLr (h : Nat) (w64 : Bool) (rd rs1 : Fin 32)
  | hartSc (h : Nat) (w64 : Bool) (rd rs1 rs2 : Fin 32)
  | hartAmo (h : Nat) (op : AtomOp) (w64 : Bool) (rd rs1 rs2 : Fin 32)
  | hartSfenceVma (h : Nat)
  | hartHfenceVvma (h : Nat)
  | hartHfenceGvma (h : Nat)
  -- events of a core and its troupes
  | clauseIssue (core slot : Nat)
  | pipeGrant (core : Nat)
  | stallRelease (core slot : Nat)
  | loadDataReturn (op line : Nat)
  | gwctReceive (op line : Nat)
  | troupeEnd (core slot : Nat)
  | sleepWake (core slot : Nat)
  | blockArrival (block : Nat)
  | unitZero (core : Nat)
  | blockStart (block : Nat)
  | blockEnd (block : Nat)
  | pinRegistration (op line : Nat)
  | pinnedForcedWriteback (core line : Nat)
  | retry (op line : Nat)
  | reclaim (block : Nat)
  | spill (block : Nat)
  | refill (block : Nat)
  | cquotaWrite (slice core vf : Nat) (val : W64) (req : Nat)
  | turnstilePoll (waiter : Nat)
  | matrixPeriodStart (core : Nat)
  | matrixWriteback (core : Nat)
  | slotPortStart (core : Nat)
  | turnstileOpArrival (op : Nat)
  | deferredOpApply (op : Nat)
  | wakeReceive (waiter : Nat)
  | waitTimeout (core slot : Nat)
  | heldReleaseSend (op : Nat)
  | fenceComplete (core slot : Nat)
  | waitoutComplete (core slot : Nat)
  | chainStart (core : Nat)
  | recordRead (chain : Nat)
  | recordMoveEnd (chain : Nat)
  | completionAdd (chain : Nat)
  | chainEnd (chain : Nat)
  | cbloadEnd (load : Nat)
  | reduceContribution (contrib : Nat)
  | heldContributionTimeout (line : Nat)
  | xbarRequest (op : Nat)
  | xbarSpillRetry (op : Nat)
  | redirectedAccess (op line : Nat)
  | residentGangStart (ticket : Nat)
  -- events of homes, caches and channels
  | homeWrite (op line : Nat)
  | homeRead (op line : Nat)
  | recall (slice line : Nat)
  | recallAck (line : Nat)
  | channelTransfer (slice channel : Nat)
  | l2pinqWrite (slice vf : Nat) (val : W64) (req : Nat)
  | sltokWrite (slice vf : Nat) (val : W64) (req : Nat)
  | hartStoreDrain (h : Nat) (line : Nat)
  | portCtlWrite (h port : Nat) (val : W64)
  | portCancelWrite (h port : Nat)
  | portWaitEnd (h port : Nat)
  | uncorrectableError (at_ : ErrorAt) (vf : Option Nat)
  | unitSelfTest (slice : Nat) (unit : UnitCode) (index : Nat) (lasting : Bool) (retired : Retired)
  -- events of translation, partitions and tenancy
  | contextSave (core slot : Nat)
  | ringEntryDelivery (slice : Nat)
  | troupeRestore (saved : Nat)
  | vfcfgWrite (slice vf : Nat) (val : W64) (req : Nat)
  | vfReset (slice vf : Nat) (val : W64) (req : Nat)
  | vfResetComplete (part vf : Nat)
  | migStart (slice chan : Nat) (val : W64) (req : Nat)
  | migEnd (slice chan : Nat) (req : Nat)
  | migAbort (slice chan : Nat) (req : Nat)
  | migrationPass (slice chan : Nat)
  | addslice (part : Nat)
  | remslice (part : Nat)
  | setband (part : Nat)
  | clrband (part : Nat)
  | attest (part : Nat)
  | tlbinvComplete (req : Nat)
  -- events of the ringmaster and the calendar
  | qcmdEnable (slice : Nat) (val : W64) (req : Nat)
  | qcmdDisable (slice : Nat) (val : W64) (req : Nat)
  | calendarLoad (slice : Nat) (req : Nat)
  | ticketFetch (part queue : Nat)
  | ticketReady (ticket : Nat)
  | placement (slice : Nat)
  | ticketComplete (ticket : Nat)
  | calendarSlotStart
  | calendarPeriodStart
  | roundStart (part : Nat)
  | wholeBlockSave (block : Nat)
  | snapshotStart (slice : Nat) (val : W64) (req : Nat)
  | snapshotAbort (slice : Nat) (req : Nat)
  | snapshotCut (part : Nat)
  | snapshotComplete (part : Nat)
  | sliceLoss (slice : Nat)
  -- events of the platform
  | powerOn
  | manifestReceive (m : Manifest)
  | powerLoss
  | thermalTrip (slice sensor : Nat)
  | pwrcapWrite (slice : Nat) (val : W64) (req : Nat)
  | monitorUpdate (slice : Nat) (temps : List Nat) (vcore vmem pcode : Nat)
  -- events of the fabric
  | nirtLoad (slice : Nat) (val : W64) (req : Nat)
  | xptblLoad (slice : Nat) (val : W64) (req : Nat)
  | peerrtLoad (slice : Nat) (val : W64) (req : Nat)
  | switchForward (packet : Nat)
  | transitCheck (slice : Nat) (words : List W64) (cur : Nat) (eth : Bool) (pkt : Nat)
  | messageDelivery (packet : Nat)
  | messageStatusReply (msg : Nat)
  | sequenceSkip (seq : Nat)
  | linkTransferFail (link : Nat) (again : Bool)
  | linkLaneTest (link : Nat) (lowerGood upperGood : Bool)
  | niMaskRefresh (part : Nat)
  | packetReturn (packet : Nat)
  | flowResendTimeout (flow seq : Nat)
  | flowAck (flow seq : Nat) (data : List Byte) (poison : Bool)
  | flowReset (smod flow epoch : Nat)
  | flowResetAck (flow : Nat)
  | peerRequest (m : PeerMsg)
  | ethFrameReceive (f : EthFrame)
  | linkTraining (slice link : Nat) (peer : Option PeerLink)
  | systemRegisterWrite (slice unit reg : Nat) (val : W64) (req : Nat)
  | correctableError (slice : Nat) (unit : UnitCode) (index : Nat)
  | slotPortEnd (core : Nat)
  | turnstileAcknowledgement (op : Nat)
  | rdcinvComplete (req : Nat)
  | pinComplete (req : Nat)
  | peerStopsAnswering (slice link : Nat)
  | sstcTimer (h : Nat) (virt : Bool)
  deriving DecidableEq, Repr

end Sys2Proof
end

