-- ==== Sys2Proof/WellFormed.lean ====
section
/-! DEFINITION. Which typed instructions are legal: the register rules of R45 to R48 and the field rules that
each instruction's own rule gives. Events carry no encoding and are always well formed. -/

namespace Sys2Proof

/-- A register operand: the first register, how many consecutive 32-bit v registers it covers, its alignment
and its mode bit. An s register always holds the whole operand (R12). -/
structure Opnd where
  reg : Reg
  n : Nat
  align : Nat
  trapEmpty : Bool
  deriving DecidableEq, Repr

def Reg.isS : Reg → Bool
  | .v _ => false
  | .s _ => true

def Reg.opnd (r : Reg) (n : Nat) : Opnd := ⟨r, n, n, false⟩
def Reg.opnd1 (r : Reg) (n align : Nat) : Opnd := ⟨r, n, align, false⟩
def Src.opnd (a : Src) (n : Nat) : Opnd := ⟨a.reg, n, n, a.trapEmpty⟩
def Src.opndA (a : Src) (n align : Nat) : Opnd := ⟨a.reg, n, align, a.trapEmpty⟩

/-- R88: v registers of one operand of an integer type. -/
def IntTy.regs : IntTy → Nat
  | .ui64 | .i64 => 2
  | _ => 1

def ConvTy.regs : ConvTy → Nat
  | .ui64 | .i64 => 2
  | _ => 1

def FFmt.regs : FFmt → Nat
  | .f64 => 2
  | _ => 1

def Special.regs : Special → Nat
  | .tick | .clock | .trapinfo | .trapaddr | .trapinst | .trapmask => 2
  | _ => 1

/-- R160: v registers that hold the data of an access. -/
def Width.regs : Width → Nat
  | .b8 | .b16 | .b32 => 1
  | .b64 => 2
  | .b128 => 4

/-- R135: registers of a packed MX block without its scale. -/
def MxFmt.regs : MxFmt → Nat
  | .e2m1 => 4
  | _ => 6

/-- The registers an instruction names as destinations. -/
def Instr.dests : Instr → List Opnd
  | .iadd t o | .isub t o | .imul t _ o | .imuls t o | .idiv t _ o | .irem t _ o | .imin t o | .imax t o
  | .iadds t o | .isubs t o | .iaddc t _ _ o | .isubb t _ _ o | .iscadd t _ o | .and t o | .or t o | .xor t o
  | .andn t o | .shl t o | .shr t o | .sra t o | .rot t _ o | .sext t o | .imsk t o | .icmp t o => [o.d.opnd t.regs]
  | .imad t o | .iclamp t o | .lmux t _ _ o | .bfe t o | .bfi t o => [o.d.opnd t.regs]
  | .iabs t _ o | .ineg t _ o | .brev t o | .redux _ t o | .scan _ t _ o => [o.d.opnd t.regs]
  | .iaddI o | .imulI o | .imadI o | .andI o | .orI o | .xorI o | .shlI o | .shrI o | .sraI o | .icmpI o
  | .faddI o | .fmulI o | .ffmaI o | .fcmpI o => [o.d.opnd 1]
  | .idp4 _ _ _ _ o | .idp2 _ _ _ _ o | .isad _ o | .fsh _ o | .bperm o => [o.d.opnd 1]
  | .popc _ o | .clz _ o | .ctz _ o => [o.d.opnd 1]
  | .sel _ w _ _ o => [o.d.opnd (if w then 2 else 1)]
  | .pmovToReg d | .movi d _ => [d.opnd 1]
  | .mov w o => [o.d.opnd (if w then 2 else 1)]
  | .movhi d _ => [d.opnd 2]
  | .rdlane d _ _ => [d.opnd 1]
  | .wrlane d _ _ => [d.opnd 1]
  | .cvti td _ o => [o.d.opnd td.regs]
  | .ipack _ o => [o.d.opnd 1]
  | .iunpack _ _ o => [o.d.opnd 1]
  | .fadd _ o | .fsub _ o | .fmul _ o | .fmin _ o | .fmax _ o | .fcmp _ o | .fdiv _ o | .fldexp _ o
  | .hadd2 _ _ o | .hmul2 _ _ o | .hmin2 _ _ o | .hmax2 _ _ o | .hcmp2 _ _ o | .dcmp _ o => [o.d.opnd 1]
  | .ffma _ _ o | .fclamp _ o | .hfma2 _ _ _ o | .fdot2 _ _ o => [o.d.opnd 1]
  | .frcp _ o | .frsq _ o | .fsqrt _ o | .fex2 _ o | .flg2 _ o | .fsin _ o | .fcos _ o | .ftanh _ o | .fsigm _ o
  | .fsilu _ o | .ffrc _ o | .frnd _ o | .fmant _ o | .fexpo _ o => [o.d.opnd 1]
  | .dadd _ o | .dmul _ o | .ddiv _ o => [o.d.opnd 2]
  | .dfma _ _ o => [o.d.opnd 2]
  | .dsqrt _ o => [o.d.opnd 2]
  | .cvtf _ fd _ _ _ _ o => [o.d.opnd fd.regs]
  | .cvtfi _ td _ _ o => [o.d.opnd td.regs]
  | .cvtif _ fd _ o => [o.d.opnd fd.regs]
  | .cvt8Encode _ _ _ _ _ _ _ o => [o.d.opnd 1]
  | .cvt8Decode _ _ _ _ o => [o.d.opnd 1]
  | .cvtmxEncode ef _ _ _ o => [o.d.opnd1 (ef.regs + 1) 1]
  | .cvtmxDecode _ _ _ o => [o.d.opnd1 32 1]
  | .cvt4Pack o => [o.d.opnd 1]
  | .cvt4Deq o => [o.d.opnd1 4 1]
  | .call _ => [(Reg.v 188).opnd 2]
  | .callx _ => [(Reg.v 188).opnd 2]
  | .shfl _ _ w o => [o.d.opnd (if w then 2 else 1)]
  | .vote m _ _ d => [d.opnd (if m = .ballot then 2 else 1)]
  | .matchLanes _ o => [o.d.opnd 2]
  | .fredux f64 _ _ _ _ _ o => [o.d.opnd (if f64 then 2 else 1)]
  | .movsRead sr d => [d.opnd sr.regs]
  | .amask _ d => [d.opnd 2]
  | .ld d m | .ldc d m | .ldu d m | .ldx d m => [d.opnd m.w.regs]
  | .atom _ _ d m | .atomx _ d m => [d.reg.opnd m.w.regs]
  | .atomcas _ d m => [d.reg.opnd (2 * m.w.regs)]
  | .mmaE4m3 o | .mmaE5m2 o | .mmaBf16 o | .mmaF16 o | .mmaF32 o | .mmaI8 _ _ o | .mmaI4 _ _ o
  | .mmaMxf6 _ _ _ _ o | .mmaMxf4 _ _ o | .mmaq _ _ _ o | .mmaspE4m3 _ o | .mmaspBf16 _ o => [o.d.opnd1 64 16]
  | .sdrain _ cnt _ d => [d.opnd1 (cnt.val + 1) 1]
  | .sclaim d _ | .pin d _ _ | .unpin d _ _ | .pinq d _ | .copy d _ | .cbload _ d _ | .cpstat d _ | .tfetch d _ _
  | .tread d _ | .treset d _ _ | .wait d _ _ _ _ | .launch d _ | .qstat d _ _ | .msend _ _ _ _ _ _ d _ _
  | .msendSp _ _ _ _ _ d _ _ _ | .mroute _ d _ | .ecall _ _ d _ | .sysrd _ d _ | .syswr _ d _ _
  | .tlbinv _ _ d _ _ _ | .rdcinv _ d _ _ => [(Reg.s d).opnd 1]
  | _ => []

/-- n s registers from one on, and s registers as sources. -/
def sRun (a : SReg) (n : Nat) : List SReg := (List.range n).map fun i => Fin.ofNat 64 (a.val + i)
def sOpnds (rs : List SReg) : List Opnd := rs.map fun r => (Reg.s r).opnd 1

/-- R88, R136: n registers from one on that each hold a 32-bit value: one operand of v registers, or n s registers. -/
def Src.run32 (a : Src) (n : Nat) : List Opnd := match a.reg with
  | .v _ => [⟨a.reg, n, 1, a.trapEmpty⟩]
  | .s r => (sRun r n).map fun x => ⟨.s x, 1, 1, a.trapEmpty⟩

/-- The registers an instruction names as sources, in the order A, B, C, then those it reads implicitly
(R91: tested as mode 0). -/
def Instr.srcs : Instr → List Opnd
  | .iadd t o | .isub t o | .imul t _ o | .imuls t o | .idiv t _ o | .irem t _ o | .imin t o | .imax t o
  | .iadds t o | .isubs t o | .iaddc t _ _ o | .isubb t _ _ o | .iscadd t _ o | .and t o | .or t o | .xor t o
  | .andn t o | .icmp t o => [o.a.opnd t.regs, o.b.opnd t.regs]
  | .shl t o | .shr t o | .sra t o | .rot t _ o | .sext t o => [o.a.opnd t.regs, o.b.opnd 1]
  | .imsk _ o => [o.a.opnd 1, o.b.opnd 1]
  | .imad t o | .iclamp t o | .lmux t _ _ o => [o.a.opnd t.regs, o.b.opnd t.regs, o.c.opnd t.regs]
  | .bfe t o => [o.a.opnd t.regs, o.b.opnd 1, o.c.opnd 1]
  | .bfi t o => [o.a.opnd t.regs, o.b.opnd t.regs, o.c.opnd 1]
  | .iabs t _ o | .ineg t _ o | .brev t o | .redux _ t o | .scan _ t _ o => [o.a.opnd t.regs]
  | .popc t o | .clz t o | .ctz t o => [o.a.opnd t.regs]
  | .iaddI o | .imulI o | .andI o | .orI o | .xorI o | .shlI o | .shrI o | .sraI o | .icmpI o
  | .faddI o | .fmulI o | .fcmpI o => [o.a.opnd 1]
  | .imadI o | .ffmaI o => [o.a.opnd 1, o.d.opnd 1]
  | .idp4 _ _ _ _ o | .idp2 _ _ _ _ o | .isad _ o | .fsh _ o | .bperm o => [o.a.opnd 1, o.b.opnd 1, o.c.opnd 1]
  | .iset t _ _ o => [o.a.opnd t.regs, o.b.opnd t.regs]
  | .isetI _ _ _ a _ => [a.opnd 1]
  | .sel _ w _ _ o => [o.a.opnd (if w then 2 else 1), o.b.opnd (if w then 2 else 1)]
  | .pmovToPred a _ => [a.opnd 1]
  | .mov w o => [o.a.opnd (if w then 2 else 1)]
  | .movhi d _ => [d.opnd1 1 2]
  | .rdlane _ a b => [a.opnd 1, (Reg.s b).opnd 1]
  | .wrlane _ a b => [(Reg.s a).opnd 1, (Reg.s b).opnd 1]
  | .cvti _ ts o => [o.a.opnd ts.regs]
  | .ipack _ o => [o.a.opnd 1, o.b.opnd 1]
  | .iunpack _ _ o => [o.a.opnd 1]
  | .fadd _ o | .fsub _ o | .fmul _ o | .fmin _ o | .fmax _ o | .fcmp _ o | .fdiv _ o | .fldexp _ o
  | .hadd2 _ _ o | .hmul2 _ _ o | .hmin2 _ _ o | .hmax2 _ _ o | .hcmp2 _ _ o => [o.a.opnd 1, o.b.opnd 1]
  | .ffma _ _ o | .fclamp _ o | .hfma2 _ _ _ o | .fdot2 _ _ o => [o.a.opnd 1, o.b.opnd 1, o.c.opnd 1]
  | .fset _ _ _ o => [o.a.opnd 1, o.b.opnd 1]
  | .frcp _ o | .frsq _ o | .fsqrt _ o | .fex2 _ o | .flg2 _ o | .fsin _ o | .fcos _ o | .ftanh _ o | .fsigm _ o
  | .fsilu _ o | .ffrc _ o | .frnd _ o | .fmant _ o | .fexpo _ o => [o.a.opnd 1]
  | .dadd _ o | .dmul _ o | .ddiv _ o | .dcmp _ o => [o.a.opnd 2, o.b.opnd 2]
  | .dfma _ _ o => [o.a.opnd 2, o.b.opnd 2, o.c.opnd 2]
  | .dsqrt _ o => [o.a.opnd 2]
  | .cvtf fs _ _ _ _ _ o => [o.a.opnd fs.regs]
  | .cvtfi fs _ _ _ o => [o.a.opnd fs.regs]
  | .cvtif ts _ _ o => [o.a.opnd ts.regs]
  | .cvt8Encode _ _ _ _ _ rm seed o =>
      [o.a.opnd 1, o.b.opnd 1] ++ (if rm = .sr then [(Reg.s seed).opnd 1] else []) ++ [o.d.opnd 1]
  | .cvt8Decode _ _ _ _ o => [o.a.opnd 1]
  | .cvtmxEncode _ _ rm seed o => [o.a.opndA 32 1] ++ (if rm = .sr then [(Reg.s seed).opnd 1] else [])
  | .cvtmxDecode ef _ _ o => [o.a.opndA (ef.regs + 1) 1]
  | .cvt4Pack o => o.a.run32 8
  | .cvt4Deq o => [o.a.opnd 1, o.b.opnd 1, o.c.opnd 1]
  | .brx _ r => [r.opnd 2]
  | .callx r => [r.opnd 2]
  | .ret r => [r.opnd 2]
  | .shfl _ _ w o => [o.a.opnd (if w then 2 else 1), o.b.opnd 1]
  | .matchLanes w o => [o.a.opnd (if w then 2 else 1)]
  | .fredux f64 _ _ _ _ _ o => [o.a.opnd (if f64 then 2 else 1)]
  | .movsWrite a => [(Reg.s a).opnd 1]
  | .brec _ _ sa => [(Reg.s sa).opnd 1]
  | .brmk _ sa => [(Reg.s sa).opnd 1]
  | .brset _ _ sa => [(Reg.s sa).opnd 1]
  | .ld _ m | .ldc _ m | .ldu _ m | .ldx _ m | .prefetch m => [m.idx.opnd 1]
  | .st _ d m | .stu _ d m | .red _ _ d m | .stx d m => [m.idx.opnd 1, d.opnd m.w.regs]
  | .atom _ _ d m | .atomx _ d m => [m.idx.opnd 1, d.opnd m.w.regs]
  | .atomcas _ d m => [m.idx.opnd 1, d.opnd (2 * m.w.regs)]
  | .mmaE4m3 o | .mmaE5m2 o | .mmaBf16 o | .mmaF16 o | .mmaF32 o | .mmaI8 _ _ o | .mmaI4 _ _ o
  | .mmaspE4m3 _ o | .mmaspBf16 _ o => if o.z then [] else [o.d.opnd1 64 16]
  | .mmaMxf6 _ _ _ _ o | .mmaMxf4 _ _ o | .mmaq _ _ _ o => if o.z then [] else [o.d.opnd1 64 16]
  | .sfill _ cnt _ a => [a.opndA (cnt.val + 1) 1]
  | .mmacvt _ _ _ _ _ _ _ _ a => [a.opndA 64 16]
  | .msend nw _ _ _ vreg _ _ sa sb => (Reg.v vreg).opnd 1 :: sOpnds (sRun sa (nw.val + 1) ++ [sb])
  | .msendSp nw _ _ _ _ _ sa sb sc => sOpnds (sRun sa (nw.val + 1) ++ [sb, sc])
  | .mroute nw _ sa => sOpnds (sRun sa (nw.val + 1))
  | .cwb r | .cinv r | .icinv r => match r with
      | some (a, b) => sOpnds [a, b]
      | none => []
  | .pinq _ a | .copy _ a | .cbload _ _ a | .cpstat _ a | .launch _ a | .qstat _ a _ | .sysrd _ _ a => sOpnds [a]
  | .pin _ a b | .unpin _ a b | .syswr _ _ a b => sOpnds [a, b]
  | .cpabort r => match r with
      | some a => sOpnds [a]
      | none => []
  | .tadd t m | .tfetch _ t m => match m with
      | .reg r => sOpnds [t.sa, r]
      | .imm _ => sOpnds [t.sa]
  | .tmax t b | .treset _ t b => sOpnds [t.sa, b]
  | .tread _ t => sOpnds [t.sa]
  | .wait _ sa n _ l => match l with
      | .reg r => sOpnds (sRun sa (2 * (n.val + 1)) ++ [r])
      | .ticks _ => sOpnds (sRun sa (2 * (n.val + 1)))
  | .ecall _ n _ sa => sOpnds (sRun sa n.val)
  | .tlbinv k _ _ sa sb sc => match k with
      | .s1all | .s2all | .all => []
      | .s1asid => sOpnds [sa]
      | .s1range => sOpnds [sa, sb, sc]
      | .s2range | .kspace => sOpnds [sa, sb]
  | .rdcinv k _ sa sb => match k with
      | .range => sOpnds [sa, sb]
      | .astag => sOpnds [sa]
      | .all => []
  | _ => []

/-- R45, R47: an operand lies in the v file, is aligned, and sets its mode bit only on a v register. -/
def Opnd.ok (o : Opnd) : Bool :=
  match o.reg with
  | .v r => decide (r.val % o.align = 0) && decide (r.val + o.n ≤ 192)
  | .s _ => !o.trapEmpty

/-- R45: every v register of the operand lies below the troupe's allocated count. -/
def Opnd.within (o : Opnd) (alloc : Nat) : Bool :=
  match o.reg with
  | .v r => decide (r.val + o.n ≤ alloc)
  | .s _ => true

/-- R46: the instructions that may read v registers or lane state while writing an s register. -/
def Instr.mixesRegisters : Instr → Bool
  | .rdlane .. | .redux .. | .vote .. | .fredux .. | .scan .. | .amask .. | .movsRead .. | .msend .. => true
  | _ => false

/-- R46: an s destination asks for s sources. -/
def Instr.uniformOk (i : Instr) : Bool :=
  i.mixesRegisters || !(i.dests.any fun o => o.reg.isS) || (i.srcs.all fun o => o.reg.isS)

/-- R46, R93, R145 to R148: the instructions that must not name an s register as destination. -/
def Instr.needsVDest : Instr → Bool
  | .ld .. | .ldc .. | .atom .. | .atomcas .. | .ldx .. | .atomx .. | .sel .. | .pmovToReg .. | .wrlane ..
  | .cvtmxEncode .. | .cvtmxDecode .. | .cvt4Pack .. | .cvt4Deq .. | .shfl .. | .matchLanes ..
  | .mmaE4m3 .. | .mmaE5m2 .. | .mmaBf16 .. | .mmaF16 .. | .mmaF32 .. | .mmaI8 .. | .mmaI4 .. | .mmaMxf6 ..
  | .mmaMxf4 .. | .mmaq .. | .mmaspE4m3 .. | .mmaspBf16 .. | .sdrain .. => true
  | _ => false

def IntTy.scalar (t : IntTy) : Bool := t = .ui32 || t = .i32 || t = .ui64 || t = .i64
def IntTy.packed (t : IntTy) : Bool := !t.scalar
def IntTy.signed (t : IntTy) : Bool := t = .i32 || t = .i64 || t = .i16x2 || t = .i8x4

/-- R120: neg/abs bits of B are zero where B is no floating-point source. -/
def FMod.bZero (m : FMod) : Bool := !m.negB && !m.absB
/-- R120: a rounding mode of 0 to 4. -/
def FMod.rounds (m : FMod) : Bool := m.rm ≠ .sr
/-- R54: an instruction that does not round holds mode 0. -/
def FMod.noRound (m : FMod) : Bool := m.rm = .rne

/-- R160, R165, R258: the access widths and unused fields of the M-format opcodes. -/
def MAddr.noScope (m : MAddr) : Bool := m.scope = 0
def MAddr.plain (m : MAddr) : Bool := m.scope = 0 && m.lease = 0 && m.hint = 0
def Width.atomic (w : Width) : Bool := w = .b32 || w = .b64
def Width.uniform (w : Width) : Bool := w ≠ .b128

/-- R166: fadd, fmin and fmax act on FP32 or FP64 by width, so every atomic operation takes both widths. -/
def srcV (a : Src) : Bool := !a.reg.isS

/-- R45: a run of n registers from an operand on ends within the s file. -/
def sRunOk (a : Src) (n : Nat) : Bool := match a.reg with
  | .v _ => true
  | .s r => decide (r.val + n ≤ 64)

/-- What the rule of each instruction asks of its fields. R211, R213: s operands may be any s register. pmov's A may be
an s register, since R113 names none that is illegal (DESIGN CHOICE, log entry 105). -/
def Instr.fieldsOk : Instr → Bool
  | .iabs t _ _ | .ineg t _ _ => t.signed
  | .idiv t _ _ | .irem t _ _ | .and t _ | .or t _ | .xor t _ | .andn t _ | .lmux t _ _ _ | .rot t _ _
  | .popc t _ | .clz t _ | .ctz t _ | .brev t _ | .bfe t _ | .bfi t _ | .iset t _ _ _ | .redux _ t _ => t.scalar
  | .iscadd t n _ => t.scalar && decide (n.toNat < (if t.regs = 2 then 64 else 32))
  | .iaddc t _ _ _ | .isubb t _ _ _ | .imsk t _ => t = .ui32 || t = .ui64
  | .idp4 t _ _ _ _ | .idp2 t _ _ _ _ => t = .ui32 || t = .i32
  | .isad t _ => t ≠ .ui64 && t ≠ .i64
  | .sext t _ => t = .i32 || t = .i64
  | .ipack t _ | .iunpack t _ _ => t.packed
  | .pmovToPred _ _ => true
  | .rdlane _ a _ => !a.reg.isS
  | .fadd m _ | .fsub m _ | .fmul m _ | .ffma m _ _ | .fdiv m _ | .dadd m _ | .dmul m _ | .dfma m _ _ | .ddiv m _
  | .hadd2 m _ _ | .hmul2 m _ _ | .hfma2 m _ _ _ | .fdot2 m _ _ => m.rounds
  | .fmin m _ | .fmax m _ | .fclamp m _ | .fcmp m _ | .fset m _ _ _ | .dcmp m _ | .hmin2 m _ _ | .hmax2 m _ _
  | .hcmp2 m _ _ => m.noRound
  | .frcp m _ | .frsq m _ | .fex2 m _ | .flg2 m _ | .fsin m _ | .fcos m _ | .ftanh m _ | .fsigm m _ | .fsilu m _
  | .fmant m _ | .fexpo m _ => m.noRound && m.bZero
  | .fsqrt m _ | .ffrc m _ | .frnd m _ | .dsqrt m _ => m.rounds && m.bZero
  | .fldexp m _ => m.rounds && m.bZero
  | .cvtf _ _ _ _ _ rm _ | .cvtfi _ _ _ rm _ | .cvtif _ _ rm _ => rm ≠ .sr
  | .cvt8Encode _ _ _ _ _ rm seed _ => rm = .sr || seed = 0
  | .cvtmxEncode _ _ rm seed o => srcV o.a && (rm = .sr || seed = 0)
  | .cvtmxDecode _ _ rm o => srcV o.a && rm ≠ .sr
  | .cvt4Pack o => sRunOk o.a 8
  | .shfl _ _ _ o => srcV o.a
  | .fredux _ op _ _ _ rm _ => if op = .add then rm ≠ .sr else rm = .rne
  | .scan _ t excl o => t.scalar && !(excl && o.d.isS)
  | .movsRead sr d => !(sr = .lane && d.isS)
  | .brmk _ sa => decide (sa.val ≤ 60)
  | .st _ d m => !(d.reg.isS && m.w = .b128)
  | .ldu d m => d.isS && m.idx.reg.isS && m.w.uniform
  | .stu _ d m => d.reg.isS && m.idx.reg.isS && m.w.uniform
  | .atom _ _ d m => srcV d && m.w.atomic && m.plain
  | .atomcas _ d m => srcV d && m.w.atomic && m.plain
  | .red _ _ _ m => m.w.atomic && m.plain
  | .prefetch m => m.noScope
  | .ldx _ m => m.plain
  | .stx d m => m.plain && !(d.reg.isS && m.w = .b128)
  | .atomx _ d m => srcV d && m.w.atomic && m.plain
  | .mmaspE4m3 _ o | .mmaspBf16 _ o => decide (o.sb.val ≠ 15)
  | .sfill _ _ _ a => srcV a
  | .sxpose dst src es rc =>
      decide (dst ≠ src) &&
      decide (64 * 2 ^ rc.val * 64 * (match es with | .w4 => 4 | .w8 => 8 | .w16 => 16 | .w32 => 32) / 8 ≤ 32768)
  | .mmacvt _ fmt sat _ _ rm _ seed a =>
      srcV a && (rm = .sr || seed = 0) && !(sat && (fmt = .bf16 || fmt = .f16))
  | .wait _ sa n _ _ => decide (sa.val + 2 * (n.val + 1) - 1 ≤ 63)
  | .waitout l =>
      (l.mask.getLsbD 0 || l.ld = 0) && (l.mask.getLsbD 1 || l.st = 0) && (l.mask.getLsbD 2 || l.cp = 0) &&
      (l.mask.getLsbD 3 || l.mx = 0) && (l.mask.getLsbD 4 || l.ni = 0) && (l.mask.getLsbD 5 || l.atc = 0)
  | .fence scope => scope ≠ 0
  | .tread _ t => t.scope = 0
  | .treset _ t _ => t.scope = 0
  | .msend nw _ _ _ _ len _ sa _ =>
      decide (sa.val + nw.val ≤ 63) && decide (4 ≤ len.toNat ∧ len.toNat ≤ 256 ∧ len.toNat % 4 = 0)
  | .msendSp nw _ _ _ len _ sa _ _ =>
      decide (sa.val + nw.val ≤ 63) && decide (8 ≤ len.toNat ∧ len.toNat ≤ 4096 ∧ len.toNat % 8 = 0)
  | .mroute nw _ sa => decide (sa.val + nw.val ≤ 63)
  | .ecall _ n _ sa => if n = 0 then sa = 0 else decide (sa.val + n.val - 1 ≤ 63)
  | .sysrd reg _ _ | .syswr reg _ _ _ => decide (reg.toNat < 0x210)
  | .tlbinv k _ _ sa sb sc =>
      match k with
      | .s1all | .s2all | .all => sa = 0 && sb = 0 && sc = 0
      | .s1asid => sb = 0 && sc = 0
      | .s1range => true
      | .s2range | .kspace => sc = 0
  | .rdcinv k _ sa sb =>
      match k with
      | .range => true
      | .astag => sb = 0
      | .all => sa = 0 && sb = 0
  | _ => true

/-- Legal under R45 to R57 for a troupe with all 192 registers allocated. -/
def Instr.wf (i : Instr) : Bool :=
  (i.dests.all Opnd.ok) && (i.srcs.all Opnd.ok) && i.uniformOk &&
  (!i.needsVDest || (i.dests.all fun o => !o.reg.isS)) && i.fieldsOk

/-- R45: no register lies at or above the troupe's allocation. -/
def Instr.fits (i : Instr) (alloc : Nat) : Bool :=
  (i.dests.all fun o => o.within alloc) && (i.srcs.all fun o => o.within alloc)

end Sys2Proof
end

