-- ==== Sys2Proof/Decode.lean ====
section
/-! DEFINITION. The decoder of instruction words (R44 to R57 and the encoding paragraph of each instruction's rule),
total on every word and rejecting by name, and after it the encoder. Rows of the table that are events of a unit
or operations of a host core have no word of this encoding. -/

namespace Sys2Proof

/-- Why a word is no legal instruction; each is ILLEGAL_INSTRUCTION at step 5 of R42 (R57). -/
inductive Illegal where
  /-- Bits [63:62] are 0b11: a header in an instruction position. -/
  | headerWord
  /-- A zero field, an unused register field or an undefined modifier bit is not zero. -/
  | reservedBits
  /-- A type, rounding, width, condition, operation or format code outside the permitted set. -/
  | reservedCode
  /-- A guard field with enable 0 and other bits set (R48). -/
  | guardField
  /-- A C-format kind the opcode does not accept (R53). -/
  | wrongKind
  /-- A field that must name an s register, or the wrong D form of the X format (R52). -/
  | notUniform
  /-- A rule of R45 to R47 or a field rule of the instruction is broken (Instr.wf). -/
  | illFormed
  deriving DecidableEq, Repr

abbrev Parse (α : Type) := Except Illegal α

/-- The field of len bits of a word whose lowest bit is lo. -/
def fld (w : W64) (lo len : Nat) : BitVec len := w.extractLsb' lo len

/-- R57: the field must be zero. -/
def zeroField (w : W64) (lo len : Nat) : Parse Unit :=
  if fld w lo len = 0 then .ok () else .error .reservedBits

/-- R57: the code must be one of the permitted set. -/
def permitted {α : Type} : Option α → Parse α
  | some a => .ok a
  | none => .error .reservedCode

/-! Codes. -/

def IntTy.ofCode : Nat → Option IntTy
  | 0 => some .ui32 | 1 => some .i32 | 2 => some .ui64 | 3 => some .i64
  | 4 => some .ui16x2 | 5 => some .i16x2 | 6 => some .ui8x4 | 7 => some .i8x4
  | _ => none

def IntTy.code : IntTy → BitVec 4
  | .ui32 => 0 | .i32 => 1 | .ui64 => 2 | .i64 => 3 | .ui16x2 => 4 | .i16x2 => 5 | .ui8x4 => 6 | .i8x4 => 7

def ConvTy.ofCode : Nat → Option ConvTy
  | 0 => some .ui32 | 1 => some .i32 | 2 => some .ui64 | 3 => some .i64
  | 8 => some .ui16 | 9 => some .i16 | 10 => some .ui8 | 11 => some .i8
  | _ => none

def ConvTy.code : ConvTy → BitVec 4
  | .ui32 => 0 | .i32 => 1 | .ui64 => 2 | .i64 => 3 | .ui16 => 8 | .i16 => 9 | .ui8 => 10 | .i8 => 11

def Rounding.ofCode : Nat → Option Rounding
  | 0 => some .rne | 1 => some .rtz | 2 => some .rdn | 3 => some .rup | 4 => some .rna | 5 => some .sr
  | _ => none

def Rounding.code : Rounding → BitVec 3
  | .rne => 0 | .rtz => 1 | .rdn => 2 | .rup => 3 | .rna => 4 | .sr => 5

def FFmt.ofCode : Nat → Option FFmt
  | 0 => some .f32 | 1 => some .f64 | 2 => some .f16 | 3 => some .bf16
  | _ => none

def FFmt.code : FFmt → BitVec 4
  | .f32 => 0 | .f64 => 1 | .f16 => 2 | .bf16 => 3

def WideFmt.ofCode : Nat → Option WideFmt
  | 0 => some .f32 | 1 => some .f16 | 2 => some .bf16
  | _ => none

def WideFmt.code : WideFmt → BitVec 2
  | .f32 => 0 | .f16 => 1 | .bf16 => 2

def MxFmt.ofCode : Nat → Option MxFmt
  | 0 => some .e2m1 | 1 => some .e3m2 | 2 => some .e2m3
  | _ => none

def MxFmt.code : MxFmt → BitVec 2
  | .e2m1 => 0 | .e3m2 => 1 | .e2m3 => 2

def TileFmt.ofCode : Nat → Option TileFmt
  | 0 => some .e4m3 | 1 => some .e5m2 | 2 => some .bf16 | 3 => some .f16
  | _ => none

def TileFmt.code : TileFmt → BitVec 2
  | .e4m3 => 0 | .e5m2 => 1 | .bf16 => 2 | .f16 => 3

def ICond.ofCode : Nat → Option ICond
  | 0 => some .eq | 1 => some .ne | 2 => some .lt | 3 => some .le | 4 => some .gt | 5 => some .ge
  | _ => none

def ICond.code : ICond → BitVec 3
  | .eq => 0 | .ne => 1 | .lt => 2 | .le => 3 | .gt => 4 | .ge => 5

def FCond.ofCode : Nat → Option FCond
  | 0 => some .eq | 1 => some .ne | 2 => some .lt | 3 => some .le | 4 => some .gt | 5 => some .ge
  | 6 => some .ord | 7 => some .uno | 8 => some .equ | 9 => some .neu | 10 => some .ltu | 11 => some .leu
  | 12 => some .gtu | 13 => some .geu
  | _ => none

def FCond.code : FCond → BitVec 4
  | .eq => 0 | .ne => 1 | .lt => 2 | .le => 3 | .gt => 4 | .ge => 5 | .ord => 6 | .uno => 7 | .equ => 8
  | .neu => 9 | .ltu => 10 | .leu => 11 | .gtu => 12 | .geu => 13

def ShflMode.ofCode : Nat → Option ShflMode
  | 0 => some .idx | 1 => some .up | 2 => some .down | 3 => some .xor
  | _ => none

def ShflMode.code : ShflMode → BitVec 2
  | .idx => 0 | .up => 1 | .down => 2 | .xor => 3

def VoteMode.ofCode : Nat → Option VoteMode
  | 0 => some .any | 1 => some .all | 2 => some .ballot | 3 => some .eq
  | _ => none

def VoteMode.code : VoteMode → BitVec 2
  | .any => 0 | .all => 1 | .ballot => 2 | .eq => 3

def RedOp.ofCode : Nat → Option RedOp
  | 0 => some .add | 1 => some .min | 2 => some .max | 3 => some .and | 4 => some .or | 5 => some .xor
  | _ => none

def RedOp.code : RedOp → BitVec 3
  | .add => 0 | .min => 1 | .max => 2 | .and => 3 | .or => 4 | .xor => 5

def FRedOp.ofCode : Nat → Option FRedOp
  | 0 => some .add | 1 => some .min | 2 => some .max
  | _ => none

def FRedOp.code : FRedOp → BitVec 2
  | .add => 0 | .min => 1 | .max => 2

def Special.ofCode : Nat → Option Special
  | 0x00 => some .lane | 0x01 => some .troupe | 0x02 => some .blockX | 0x03 => some .blockY | 0x04 => some .blockZ
  | 0x05 => some .gridX | 0x06 => some .gridY | 0x07 => some .gridZ | 0x08 => some .coreX | 0x09 => some .coreY
  | 0x0A => some .slice | 0x0B => some .vf | 0x0C => some .tick | 0x0D => some .clock
  | 0x10 => some .trapcause | 0x11 => some .trapinfo | 0x12 => some .trapaddr | 0x13 => some .trapinst
  | 0x14 => some .trapmask | 0x15 => some .trapresume
  | _ => none

def Special.code : Special → BitVec 8
  | .lane => 0x00 | .troupe => 0x01 | .blockX => 0x02 | .blockY => 0x03 | .blockZ => 0x04
  | .gridX => 0x05 | .gridY => 0x06 | .gridZ => 0x07 | .coreX => 0x08 | .coreY => 0x09
  | .slice => 0x0A | .vf => 0x0B | .tick => 0x0C | .clock => 0x0D
  | .trapcause => 0x10 | .trapinfo => 0x11 | .trapaddr => 0x12 | .trapinst => 0x13
  | .trapmask => 0x14 | .trapresume => 0x15

def Width.ofCode : Nat → Option Width
  | 0 => some .b8 | 1 => some .b16 | 2 => some .b32 | 3 => some .b64 | 4 => some .b128
  | _ => none

def Width.code : Width → BitVec 3
  | .b8 => 0 | .b16 => 1 | .b32 => 2 | .b64 => 3 | .b128 => 4

def AtomOp.ofCode : Nat → Option AtomOp
  | 0x00 => some .add | 0x01 => some .umin | 0x02 => some .smin | 0x03 => some .umax | 0x04 => some .smax
  | 0x05 => some .and | 0x06 => some .or | 0x07 => some .xor | 0x08 => some .xchg | 0x09 => some .inc
  | 0x0A => some .dec | 0x0B => some .fadd | 0x0C => some .fmin | 0x0D => some .fmax
  | _ => none

def AtomOp.code : AtomOp → BitVec 6
  | .add => 0x00 | .umin => 0x01 | .smin => 0x02 | .umax => 0x03 | .smax => 0x04 | .and => 0x05 | .or => 0x06
  | .xor => 0x07 | .xchg => 0x08 | .inc => 0x09 | .dec => 0x0A | .fadd => 0x0B | .fmin => 0x0C | .fmax => 0x0D

def BField.ofCode : Nat → Option BField
  | 0 => some .base | 1 => some .extent0 | 2 => some .extent1 | 3 => some .extent2 | 4 => some .stride1
  | 5 => some .stride2 | 6 => some .adv
  | _ => none

def BField.code : BField → BitVec 4
  | .base => 0 | .extent0 => 1 | .extent1 => 2 | .extent2 => 3 | .stride1 => 4 | .stride2 => 5 | .adv => 6

def GroupSize.ofCode : Nat → Option GroupSize
  | 0 => some .g32 | 1 => some .g64 | 2 => some .g128
  | _ => none

def GroupSize.code : GroupSize → BitVec 2
  | .g32 => 0 | .g64 => 1 | .g128 => 2

def XposeBits.ofCode : Nat → Option XposeBits
  | 0 => some .w4 | 1 => some .w8 | 2 => some .w16 | 3 => some .w32
  | _ => none

def XposeBits.code : XposeBits → BitVec 2
  | .w4 => 0 | .w8 => 1 | .w16 => 2 | .w32 => 3

def QstatWhat.ofCode : Nat → Option QstatWhat
  | 0 => some .ci | 1 => some .state | 2 => some .units
  | _ => none

def QstatWhat.code : QstatWhat → BitVec 2
  | .ci => 0 | .state => 1 | .units => 2

def TlbKind.ofCode : Nat → Option TlbKind
  | 0 => some .s1all | 1 => some .s1asid | 2 => some .s1range | 3 => some .s2range | 4 => some .s2all
  | 5 => some .kspace | 6 => some .all
  | _ => none

def TlbKind.code : TlbKind → BitVec 4
  | .s1all => 0 | .s1asid => 1 | .s1range => 2 | .s2range => 3 | .s2all => 4 | .kspace => 5 | .all => 6

def RdcKind.ofCode : Nat → Option RdcKind
  | 0 => some .range | 1 => some .astag | 2 => some .all
  | _ => none

def RdcKind.code : RdcKind → BitVec 2
  | .range => 0 | .astag => 1 | .all => 2

def fin5 (n : Nat) : Option (Fin 5) := if h : n < 5 then some ⟨n, h⟩ else none
def fin7 (n : Nat) : Option (Fin 7) := if h : n < 7 then some ⟨n, h⟩ else none
def fin192 (n : Nat) : Option (Fin 192) := if h : n < 192 then some ⟨n, h⟩ else none

/-! Registers (R44). -/

def Reg.ofCode (b : BitVec 8) : Reg :=
  if h : b.toNat < 192 then .v ⟨b.toNat, h⟩ else .s ⟨b.toNat - 192, by omega⟩

def Reg.code : Reg → BitVec 8
  | .v n => BitVec.ofNat 8 n.val
  | .s n => BitVec.ofNat 8 (192 + n.val)

/-- An 8-bit field that must name an s register. -/
def SReg.ofCode (b : BitVec 8) : Parse SReg :=
  match Reg.ofCode b with
  | .s n => .ok n
  | .v _ => .error .notUniform

/-- R211: 0x00, or an s register. -/
def optSReg (b : BitVec 8) : Parse (Option SReg) :=
  if b = 0 then .ok none else do return some (← SReg.ofCode b)

def optSReg.code : Option SReg → BitVec 8
  | none => 0
  | some s => (Reg.s s).code

/-- R48. -/
def Guard.ofCode (g : BitVec 5) : Parse (Option Guard) :=
  if g.getLsbD 4 then .ok (some ⟨g.getLsbD 3, (g.extractLsb' 0 3).toFin⟩)
  else if g = 0 then .ok none else .error .guardField

def Guard.code : Option Guard → BitVec 5
  | none => 0
  | some g => 1#1 ++ BitVec.ofBool g.inv ++ (BitVec.ofFin g.p : BitVec 3)

/-! Operand parsers of the formats. -/

def rD (w : W64) : Reg := Reg.ofCode (fld w 48 8)
def rA (w : W64) : Src := ⟨Reg.ofCode (fld w 40 8), w.getLsbD 23⟩
def rB (w : W64) : Src := ⟨Reg.ofCode (fld w 32 8), w.getLsbD 22⟩
def rC (w : W64) : Src := ⟨Reg.ofCode (fld w 24 8), w.getLsbD 21⟩

/-- R49 with D and A: B, C, their modes and the guard are zero. -/
def parseR1 (w : W64) : Parse R1 := do
  zeroField w 24 16
  zeroField w 16 7
  return ⟨rD w, rA w⟩

/-- R49 with D, A and B. -/
def parseR2 (w : W64) : Parse R2 := do
  zeroField w 24 8
  zeroField w 16 6
  return ⟨rD w, rA w, rB w⟩

/-- R49 with D, A, B and C. -/
def parseR3 (w : W64) : Parse R3 := do
  zeroField w 16 5
  return ⟨rD w, rA w, rB w, rC w⟩

/-- R93: A and B, with D zero. -/
def parseP2 (w : W64) : Parse P2 := do
  zeroField w 48 8
  zeroField w 24 8
  zeroField w 16 6
  return ⟨rA w, rB w⟩

/-- R50 with D and A. -/
def parseI1 (w : W64) : Parse I1 := do
  zeroField w 32 7
  return ⟨rD w, ⟨Reg.ofCode (fld w 40 8), w.getLsbD 39⟩, fld w 0 32⟩

def parseTy (w : W64) : Parse IntTy := permitted (IntTy.ofCode (fld w 0 4).toNat)
def parseRm (w : W64) : Parse Rounding := permitted (Rounding.ofCode (fld w 0 3).toNat)

/-- R54: the floating-point layout. -/
def parseFMod (w : W64) : Parse FMod := do
  return ⟨w.getLsbD 7, w.getLsbD 6, w.getLsbD 5, w.getLsbD 4, w.getLsbD 3, ← parseRm w⟩

/-- R52: D names an s register. -/
def xD (w : W64) : Parse SReg := SReg.ofCode (fld w 48 8)
def xSA (w : W64) : SReg := (fld w 42 6).toFin
def xSB (w : W64) : SReg := (fld w 36 6).toFin
def xSC (w : W64) : SReg := (fld w 30 6).toFin

/-- R51: the address part and the modifier without the operation field. -/
def parseMAddr (w : W64) : Parse MAddr := do
  return ⟨(fld w 36 4).toFin, ⟨Reg.ofCode (fld w 40 8), w.getLsbD 35⟩, fld w 16 13,
    ← permitted (Width.ofCode (fld w 13 3).toNat), (fld w 10 3).toFin, (fld w 8 2).toFin, (fld w 6 2).toFin⟩

def mD (w : W64) : Src := ⟨rD w, w.getLsbD 34⟩

/-- An integer instruction that uses only the type of its modifier. -/
def tyR1 (w : W64) (f : IntTy → R1 → Instr) : Parse Instr := do
  zeroField w 4 12
  return f (← parseTy w) (← parseR1 w)

def tyR2 (w : W64) (f : IntTy → R2 → Instr) : Parse Instr := do
  zeroField w 4 12
  return f (← parseTy w) (← parseR2 w)

def tyR3 (w : W64) (f : IntTy → R3 → Instr) : Parse Instr := do
  zeroField w 4 12
  return f (← parseTy w) (← parseR3 w)

/-- The type and one further bit, modifier[8]. -/
def tyBitR1 (w : W64) (f : IntTy → Bool → R1 → Instr) : Parse Instr := do
  zeroField w 4 4
  zeroField w 9 7
  return f (← parseTy w) (w.getLsbD 8) (← parseR1 w)

def tyBitR2 (w : W64) (f : IntTy → Bool → R2 → Instr) : Parse Instr := do
  zeroField w 4 4
  zeroField w 9 7
  return f (← parseTy w) (w.getLsbD 8) (← parseR2 w)

def i1 (w : W64) (f : I1 → Instr) : Parse Instr := do return f (← parseI1 w)

def fR1 (w : W64) (f : FMod → R1 → Instr) : Parse Instr := do
  zeroField w 8 8
  return f (← parseFMod w) (← parseR1 w)

def fR2 (w : W64) (f : FMod → R2 → Instr) : Parse Instr := do
  zeroField w 8 8
  return f (← parseFMod w) (← parseR2 w)

def fR3 (w : W64) (f : FMod → R3 → Instr) : Parse Instr := do
  zeroField w 8 8
  return f (← parseFMod w) (← parseR3 w)

/-- The floating-point layout with one further bit, modifier[8]. -/
def fBitR2 (w : W64) (f : FMod → Bool → R2 → Instr) : Parse Instr := do
  zeroField w 9 7
  return f (← parseFMod w) (w.getLsbD 8) (← parseR2 w)

def fBitR3 (w : W64) (f : FMod → Bool → R3 → Instr) : Parse Instr := do
  zeroField w 9 7
  return f (← parseFMod w) (w.getLsbD 8) (← parseR3 w)

/-- R97: the carry predicate and CI. -/
def carryR2 (w : W64) (f : IntTy → Bool → Pred → R2 → Instr) : Parse Instr := do
  zeroField w 4 4
  zeroField w 12 4
  return f (← parseTy w) (w.getLsbD 11) (fld w 8 3).toFin (← parseR2 w)

/-- R98. -/
def dotR3 (w : W64) (f : IntTy → Bool → Bool → Bool → R3 → Instr) : Parse Instr := do
  zeroField w 4 4
  zeroField w 11 5
  return f (← parseTy w) (w.getLsbD 8) (w.getLsbD 9) (w.getLsbD 10) (← parseR3 w)

/-- R53: the kind field must be the one the opcode accepts. -/
def kindIs (w : W64) (k : BitVec 3) : Parse Unit :=
  if fld w 48 3 = k then .ok () else .error .wrongKind

/-- A C-format word without operands. -/
def cNone (w : W64) (i : Instr) : Parse Instr := do
  kindIs w 2
  zeroField w 51 5
  zeroField w 0 48
  return i

/-- A C-format word with an immediate. -/
def cImm (w : W64) (f : W32 → Instr) : Parse Instr := do
  kindIs w 3
  zeroField w 51 5
  zeroField w 32 16
  return f (fld w 0 32)

/-- A C-format word with a register target and no guard. -/
def cReg (w : W64) (f : Reg → Instr) : Parse Instr := do
  kindIs w 1
  zeroField w 51 5
  zeroField w 0 40
  return f (Reg.ofCode (fld w 40 8))

/-- The seed of a stochastic rounding: C names an s register for SR and is zero otherwise (R134). -/
def parseSeed (w : W64) (rm : Rounding) : Parse SReg :=
  if rm = .sr then SReg.ofCode (fld w 24 8)
  else do zeroField w 24 8; return 0

def seedCode (rm : Rounding) (seed : SReg) : BitVec 8 := if rm = .sr then (Reg.s seed).code else 0

/-- R160: an M-format load. -/
def mLoad (w : W64) (f : Reg → MAddr → Instr) : Parse Instr := do
  zeroField w 34 1
  zeroField w 29 5
  zeroField w 0 6
  return f (rD w) (← parseMAddr w)

/-- R160: a guarded M-format instruction that reads D. -/
def mGuarded (w : W64) (f : Option Guard → Src → MAddr → Instr) : Parse Instr := do
  zeroField w 0 6
  return f (← Guard.ofCode (fld w 29 5)) (mD w) (← parseMAddr w)

/-- R166: the operation field. -/
def parseAtomOp (w : W64) : Parse AtomOp := permitted (AtomOp.ofCode (fld w 0 6).toNat)

/-- R290: a range of two s registers, or ALL. -/
def cacheRange (w : W64) (f : Option (SReg × SReg) → Instr) : Parse Instr := do
  zeroField w 48 8
  zeroField w 30 6
  zeroField w 1 29
  if w.getLsbD 0 then do
    zeroField w 36 12
    return f none
  else return f (some (xSA w, xSB w))

/-- R211: the fields every product instruction has. -/
def parseMma (w : W64) : Parse MmaOps := do
  zeroField w 40 8
  zeroField w 16 8
  return ⟨rD w, ← optSReg (fld w 32 8), (fld w 12 4).toFin, (fld w 8 4).toFin, w.getLsbD 2⟩

def xArea (w : W64) : XArea := ⟨(fld w 4 4).toFin, w.getLsbD 3⟩

/-- R211: a form without X area, scale count or option. -/
def mmaPlain (w : W64) (f : MmaOps → Instr) : Parse Instr := do
  zeroField w 24 8
  zeroField w 3 5
  zeroField w 0 2
  return f (← parseMma w)

/-- R211: a form with UA and UB. -/
def mmaInt (w : W64) (f : Bool → Bool → MmaOps → Instr) : Parse Instr := do
  zeroField w 24 8
  zeroField w 3 5
  return f (w.getLsbD 1) (w.getLsbD 0) (← parseMma w)

/-- R211: a sparse form. -/
def mmaSparse (w : W64) (f : XArea → MmaOps → Instr) : Parse Instr := do
  zeroField w 24 8
  zeroField w 0 2
  return f (xArea w) (← parseMma w)

/-- R203: the slot mask, an immediate or an s register. -/
def slotMask (w : W64) : Parse (W16 ⊕ SReg) := do
  zeroField w 17 25
  if w.getLsbD 16 then do
    zeroField w 0 16
    return .inr (xSA w)
  else do
    zeroField w 42 6
    return .inl (fld w 0 16)

/-- R232: the designator form and the scope. -/
def parseTs (w : W64) : Parse TsRef := do
  zeroField w 30 6
  zeroField w 16 5
  if w.getLsbD 26 then return ⟨(fld w 27 3).toFin, some (fld w 22 4).toFin, xSA w⟩
  else do
    zeroField w 22 4
    return ⟨(fld w 27 3).toFin, none, xSA w⟩

/-- R232: the amount. -/
def parseAmt (w : W64) : Parse TsAmt :=
  if w.getLsbD 21 then do
    zeroField w 36 6
    return .imm (fld w 0 16)
  else do
    zeroField w 0 16
    return .reg (xSB w)

/-- R232: no immediate amount. -/
def noImm (w : W64) : Parse Unit := do
  zeroField w 21 1
  zeroField w 0 16

/-- R235: the timeout. -/
def parseLimit (w : W64) : Parse WaitLimit :=
  if w.getLsbD 3 then do
    zeroField w 36 6
    return .ticks (fld w 8 22)
  else do
    zeroField w 8 22
    return .reg (xSB w)

/-! The opcode map (R55), by the high half of the opcode. -/

def decode0 (w : W64) : Nat → Parse Instr
  | 0x0 => tyR2 w .iadd
  | 0x1 => i1 w .iaddI
  | 0x2 => tyR2 w .isub
  | 0x3 => tyBitR2 w .imul
  | 0x4 => i1 w .imulI
  | 0x5 => tyR3 w .imad
  | 0x6 => i1 w .imadI
  | 0x7 => tyR2 w .imuls
  | 0x8 => tyBitR2 w .idiv
  | 0x9 => tyBitR2 w .irem
  | 0xA => tyR2 w .imin
  | 0xB => tyR2 w .imax
  | 0xC => tyR3 w .iclamp
  | 0xD => tyBitR1 w .iabs
  | 0xE => tyBitR1 w .ineg
  | _ => tyR2 w .iadds

def decode1 (w : W64) : Nat → Parse Instr
  | 0x0 => tyR2 w .isubs
  | 0x1 => carryR2 w .iaddc
  | 0x2 => carryR2 w .isubb
  | 0x3 => dotR3 w .idp4
  | 0x4 => dotR3 w .idp2
  | 0x5 => tyR3 w .isad
  | 0x6 => do
      zeroField w 4 4
      zeroField w 14 2
      return .iscadd (← parseTy w) (fld w 8 6) (← parseR2 w)
  | 0x7 => tyR2 w .and
  | 0x8 => i1 w .andI
  | 0x9 => tyR2 w .or
  | 0xA => i1 w .orI
  | 0xB => tyR2 w .xor
  | 0xC => i1 w .xorI
  | 0xD => tyR2 w .andn
  | 0xE => do
      zeroField w 4 4
      return .lmux (← parseTy w) (fld w 8 4) (fld w 12 4) (← parseR3 w)
  | _ => tyR2 w .shl

def decode2 (w : W64) : Nat → Parse Instr
  | 0x0 => i1 w .shlI
  | 0x1 => tyR2 w .shr
  | 0x2 => i1 w .shrI
  | 0x3 => tyR2 w .sra
  | 0x4 => i1 w .sraI
  | 0x5 => tyBitR2 w .rot
  | 0x6 => do
      zeroField w 0 8
      zeroField w 9 7
      return .fsh (w.getLsbD 8) (← parseR3 w)
  | 0x7 => tyR1 w .popc
  | 0x8 => tyR1 w .clz
  | 0x9 => tyR1 w .ctz
  | 0xA => tyR1 w .brev
  | 0xB => tyR3 w .bfe
  | 0xC => tyR3 w .bfi
  | 0xD => do
      zeroField w 0 16
      return .bperm (← parseR3 w)
  | 0xE => tyR2 w .sext
  | _ => tyR2 w .imsk

def decode3 (w : W64) : Nat → Parse Instr
  | 0x0 => tyR2 w .icmp
  | 0x1 => i1 w .icmpI
  | 0x2 => do
      zeroField w 7 1
      zeroField w 11 5
      return .iset (← parseTy w) (← permitted (ICond.ofCode (fld w 4 3).toNat)) (fld w 8 3).toFin (← parseP2 w)
  | 0x3 => do
      zeroField w 48 8
      zeroField w 32 7
      return .isetI (← permitted (ICond.ofCode (fld w 29 3).toNat)) (w.getLsbD 28) (fld w 25 3).toFin
        ⟨Reg.ofCode (fld w 40 8), w.getLsbD 39⟩ (fld w 0 25)
  | 0x4 => do
      zeroField w 24 8
      zeroField w 21 1
      zeroField w 13 3
      zeroField w 0 8
      return .sel (← Guard.ofCode (fld w 16 5)) (w.getLsbD 12) (w.getLsbD 11) (fld w 8 3).toFin
        ⟨rD w, rA w, rB w⟩
  | 0x5 => do
      zeroField w 15 41
      zeroField w 4 2
      return .plop (fld w 12 3).toFin (fld w 9 3).toFin (fld w 6 3).toFin (fld w 0 4)
  | 0x6 =>
      if w.getLsbD 0 then do
        zeroField w 48 8
        zeroField w 24 16
        zeroField w 16 7
        zeroField w 1 7
        return .pmovToPred (rA w) (fld w 8 8)
      else do
        zeroField w 0 48
        return .pmovToReg (rD w)
  | 0x7 => do
      zeroField w 1 15
      return .mov (w.getLsbD 0) (← parseR1 w)
  | 0x8 => do
      zeroField w 32 16
      return .movi (rD w) (fld w 0 32)
  | 0x9 => do
      zeroField w 32 16
      return .movhi (rD w) (fld w 0 32)
  | 0xA => do
      zeroField w 24 8
      zeroField w 0 23
      return .rdlane (rD w) (rA w) (← SReg.ofCode (fld w 32 8))
  | 0xB => do
      zeroField w 0 32
      return .wrlane (rD w) (← SReg.ofCode (fld w 40 8)) (← SReg.ofCode (fld w 32 8))
  | 0xC => do
      zeroField w 8 8
      return .cvti (← permitted (ConvTy.ofCode (fld w 4 4).toNat)) (← permitted (ConvTy.ofCode (fld w 0 4).toNat))
        (← parseR1 w)
  | 0xD => tyR2 w .ipack
  | 0xE => tyBitR1 w .iunpack
  | _ => fR2 w .fadd

def decode4 (w : W64) : Nat → Parse Instr
  | 0x0 => i1 w .faddI
  | 0x1 => fR2 w .fsub
  | 0x2 => fR2 w .fmul
  | 0x3 => i1 w .fmulI
  | 0x4 => fBitR3 w .ffma
  | 0x5 => i1 w .ffmaI
  | 0x6 => fR2 w .fmin
  | 0x7 => fR2 w .fmax
  | 0x8 => fR3 w .fclamp
  | 0x9 => fR2 w .fcmp
  | 0xA => i1 w .fcmpI
  | 0xB => do
      zeroField w 15 1
      return .fset (← parseFMod w) (← permitted (FCond.ofCode (fld w 8 4).toNat)) (fld w 12 3).toFin (← parseP2 w)
  | 0xC => fR1 w .frcp
  | 0xD => fR1 w .frsq
  | 0xE => fR1 w .fsqrt
  | _ => fR2 w .fdiv

def decode5 (w : W64) : Nat → Parse Instr
  | 0x0 => fR1 w .fex2
  | 0x1 => fR1 w .flg2
  | 0x2 => fR1 w .fsin
  | 0x3 => fR1 w .fcos
  | 0x4 => fR1 w .ftanh
  | 0x5 => fR1 w .fsigm
  | 0x6 => fR1 w .fsilu
  | 0x7 => fR1 w .ffrc
  | 0x8 => fR1 w .frnd
  | 0x9 => fR2 w .fldexp
  | 0xA => fR1 w .fmant
  | 0xB => fR1 w .fexpo
  | 0xC => fR2 w .dadd
  | 0xD => fR2 w .dmul
  | 0xE => fBitR3 w .dfma
  | _ => fR2 w .dcmp

def decodeCvt8 (w : W64) : Parse Instr := do
  zeroField w 15 1
  zeroField w 4 4
  let wf ← permitted (WideFmt.ofCode (fld w 11 2).toNat)
  if w.getLsbD 10 then do
    zeroField w 14 1
    zeroField w 0 3
    return .cvt8Decode (w.getLsbD 13) wf (fld w 8 2).toFin (w.getLsbD 3) (← parseR1 w)
  else do
    zeroField w 16 6
    if w.getLsbD 9 then .error .reservedCode
    else do
      let rm ← parseRm w
      return .cvt8Encode (w.getLsbD 14) (w.getLsbD 13) wf (w.getLsbD 8) (w.getLsbD 3) rm (← parseSeed w rm)
        ⟨rD w, rA w, rB w⟩

def decodeCvtmx (w : W64) : Parse Instr := do
  zeroField w 14 2
  zeroField w 11 1
  zeroField w 4 6
  zeroField w 32 8
  zeroField w 16 7
  let ef ← permitted (MxFmt.ofCode (fld w 12 2).toNat)
  let rm ← parseRm w
  if w.getLsbD 10 then do
    zeroField w 24 8
    return .cvtmxDecode ef (w.getLsbD 3) rm ⟨rD w, rA w⟩
  else return .cvtmxEncode ef (w.getLsbD 3) rm (← parseSeed w rm) ⟨rD w, rA w⟩

def decode6 (w : W64) : Nat → Parse Instr
  | 0x0 => fR2 w .ddiv
  | 0x1 => fR1 w .dsqrt
  | 0x2 => fBitR2 w .hadd2
  | 0x3 => fBitR2 w .hmul2
  | 0x4 => do
      zeroField w 10 6
      return .hfma2 (← parseFMod w) (w.getLsbD 8) (w.getLsbD 9) (← parseR3 w)
  | 0x5 => fBitR2 w .hmin2
  | 0x6 => fBitR2 w .hmax2
  | 0x7 => fBitR2 w .hcmp2
  | 0x8 => fBitR3 w .fdot2
  | 0x9 => do
      zeroField w 6 2
      return .cvtf (← permitted (FFmt.ofCode (fld w 12 4).toNat)) (← permitted (FFmt.ofCode (fld w 8 4).toNat))
        (w.getLsbD 5) (w.getLsbD 4) (w.getLsbD 3) (← parseRm w) (← parseR1 w)
  | 0xA => do
      zeroField w 4 4
      return .cvtfi (← permitted (FFmt.ofCode (fld w 12 4).toNat)) (← permitted (ConvTy.ofCode (fld w 8 4).toNat))
        (w.getLsbD 3) (← parseRm w) (← parseR1 w)
  | 0xB => do
      zeroField w 3 5
      return .cvtif (← permitted (ConvTy.ofCode (fld w 12 4).toNat)) (← permitted (FFmt.ofCode (fld w 8 4).toNat))
        (← parseRm w) (← parseR1 w)
  | 0xC => decodeCvt8 w
  | 0xD => decodeCvtmx w
  | 0xE => do
      zeroField w 11 5
      zeroField w 0 10
      if w.getLsbD 10 then return .cvt4Deq (← parseR3 w) else return .cvt4Pack (← parseR1 w)
  | _ => do
      kindIs w 0
      return .bra (← Guard.ofCode (fld w 51 5)) (fld w 0 48)

def decode7 (w : W64) : Nat → Parse Instr
  | 0x0 => do
      kindIs w 1
      zeroField w 0 40
      return .brx (← Guard.ofCode (fld w 51 5)) (Reg.ofCode (fld w 40 8))
  | 0x1 => do
      kindIs w 0
      zeroField w 51 5
      return .call (fld w 0 48)
  | 0x2 => cReg w .callx
  | 0x3 => cReg w .ret
  | 0x4 => cNone w .exit
  | 0x5 => cImm w .trap
  | 0x6 => cNone w .tret
  | 0x7 => cImm w .bkpt
  | 0x8 => cNone w .yield
  | 0x9 => cNone w .nop
  | 0xA => cImm w .sleep
  | 0xB => do
      zeroField w 12 4
      zeroField w 2 6
      return .shfl (← permitted (ShflMode.ofCode (fld w 0 2).toNat)) (← permitted (fin7 (fld w 8 3).toNat))
        (w.getLsbD 11) (← parseR2 w)
  | 0xC => do
      zeroField w 12 36
      zeroField w 2 6
      return .vote (← permitted (VoteMode.ofCode (fld w 0 2).toNat)) (w.getLsbD 11) (fld w 8 3).toFin (rD w)
  | 0xD => do
      zeroField w 9 7
      zeroField w 0 8
      return .matchLanes (w.getLsbD 8) (← parseR1 w)
  | 0xE => do
      zeroField w 11 5
      zeroField w 4 4
      return .redux (← permitted (RedOp.ofCode (fld w 8 3).toNat)) (← parseTy w) (← parseR1 w)
  | _ => do
      zeroField w 11 5
      zeroField w 6 2
      return .fredux (w.getLsbD 10) (← permitted (FRedOp.ofCode (fld w 8 2).toNat)) (w.getLsbD 5) (w.getLsbD 4)
        (w.getLsbD 3) (← parseRm w) (← parseR1 w)

def decode8 (w : W64) : Nat → Parse Instr
  | 0x0 => do
      zeroField w 12 4
      zeroField w 4 4
      return .scan (← permitted (RedOp.ofCode (fld w 8 3).toNat)) (← parseTy w) (w.getLsbD 11) (← parseR1 w)
  | 0x1 => do
      zeroField w 9 7
      if w.getLsbD 8 then do
        zeroField w 48 8
        zeroField w 16 24
        if fld w 0 8 = 0x15 then return .movsWrite (← SReg.ofCode (fld w 40 8)) else .error .reservedCode
      else do
        zeroField w 16 32
        return .movsRead (← permitted (Special.ofCode (fld w 0 8).toNat)) (rD w)
  | 0x2 => do
      zeroField w 1 47
      return .amask (w.getLsbD 0) (rD w)
  | 0x3 => do
      zeroField w 48 8
      zeroField w 30 12
      zeroField w 5 25
      return .brec (w.getLsbD 4) (fld w 0 4).toFin (xSA w)
  | 0x4 => do
      zeroField w 48 8
      zeroField w 4 38
      return .brmk (fld w 0 4).toFin (xSA w)
  | 0x5 => do
      zeroField w 48 8
      zeroField w 8 34
      return .brset (← permitted (BField.ofCode (fld w 4 4).toNat)) (fld w 0 4).toFin (xSA w)
  | 0x6 => mLoad w .ld
  | 0x7 => mLoad w .ldc
  | 0x8 => mGuarded w .st
  | 0x9 => mLoad w .ldu
  | 0xA => mGuarded w .stu
  | 0xB => do
      return .atom (← Guard.ofCode (fld w 29 5)) (← parseAtomOp w) (mD w) (← parseMAddr w)
  | 0xC => mGuarded w .atomcas
  | 0xD => do
      return .red (← Guard.ofCode (fld w 29 5)) (← parseAtomOp w) (mD w) (← parseMAddr w)
  | 0xE => do
      zeroField w 48 8
      zeroField w 34 1
      zeroField w 29 5
      zeroField w 0 6
      return .prefetch (← parseMAddr w)
  | _ => mLoad w .ldx

def decode9 (w : W64) : Nat → Parse Instr
  | 0x0 => do
      zeroField w 29 5
      zeroField w 0 6
      return .stx (mD w) (← parseMAddr w)
  | 0x1 => do
      zeroField w 29 5
      return .atomx (← parseAtomOp w) (mD w) (← parseMAddr w)
  | 0x2 => cacheRange w .cwb
  | 0x3 => cacheRange w .cinv
  | 0x4 => cacheRange w .icinv
  | 0x5 => do
      zeroField w 0 56
      return .fetchbar
  | 0x6 => do
      zeroField w 0 36
      return .pin (← xD w) (xSA w) (xSB w)
  | 0x7 => do
      zeroField w 0 36
      return .unpin (← xD w) (xSA w) (xSB w)
  | 0x8 => do
      zeroField w 0 42
      return .pinq (← xD w) (xSA w)
  | 0x9 => mmaPlain w .mmaE4m3
  | 0xA => mmaPlain w .mmaE5m2
  | 0xB => mmaPlain w .mmaBf16
  | 0xC => mmaPlain w .mmaF16
  | 0xD => mmaPlain w .mmaF32
  | 0xE => mmaInt w .mmaI8
  | _ => mmaInt w .mmaI4

def decodeA (w : W64) : Nat → Parse Instr
  | 0x0 => do
      return .mmaMxf6 (w.getLsbD 1) (w.getLsbD 0) (xArea w) (← SReg.ofCode (fld w 24 8)) (← parseMma w)
  | 0x1 => do
      zeroField w 0 2
      return .mmaMxf4 (xArea w) (← SReg.ofCode (fld w 24 8)) (← parseMma w)
  | 0x2 => do
      return .mmaq (← permitted (GroupSize.ofCode (fld w 0 2).toNat)) (xArea w) (← SReg.ofCode (fld w 24 8))
        (← parseMma w)
  | 0x3 => mmaSparse w .mmaspE4m3
  | 0x4 => mmaSparse w .mmaspBf16
  | 0x5 => do return .sclaim (← xD w) (← slotMask w)
  | 0x6 => do
      zeroField w 48 8
      return .srel (← slotMask w)
  | 0x7 => do
      zeroField w 48 8
      zeroField w 24 8
      zeroField w 16 7
      zeroField w 0 8
      return .sfill (fld w 12 4).toFin (fld w 8 4).toFin (← optSReg (fld w 32 8)) (rA w)
  | 0x8 => do
      zeroField w 40 8
      zeroField w 16 16
      zeroField w 0 8
      return .sdrain (fld w 12 4).toFin (fld w 8 4).toFin (← optSReg (fld w 32 8)) (rD w)
  | 0x9 => do
      zeroField w 16 40
      zeroField w 0 3
      return .sxpose (fld w 12 4).toFin (fld w 8 4).toFin (← permitted (XposeBits.ofCode (fld w 6 2).toNat))
        (← permitted (fin5 (fld w 3 3).toNat))
  | 0xA => do
      zeroField w 48 8
      zeroField w 16 7
      zeroField w 4 4
      let rm ← parseRm w
      return .mmacvt (fld w 12 4).toFin (← permitted (TileFmt.ofCode (fld w 10 2).toNat)) (w.getLsbD 9) (w.getLsbD 8)
        (w.getLsbD 3) rm (← optSReg (fld w 32 8)) (← parseSeed w rm) (rA w)
  | 0xB => do
      zeroField w 0 42
      return .copy (← xD w) (xSA w)
  | 0xC => do
      zeroField w 2 40
      return .cbload (fld w 0 2).toFin (← xD w) (xSA w)
  | 0xD => do
      zeroField w 0 42
      return .cpstat (← xD w) (xSA w)
  | 0xE => do
      zeroField w 48 8
      zeroField w 1 41
      if w.getLsbD 0 then do
        zeroField w 42 6
        return .cpabort none
      else return .cpabort (some (xSA w))
  | _ => do
      zeroField w 48 8
      return .tadd (← parseTs w) (← parseAmt w)

def decodeB (w : W64) : Nat → Parse Instr
  | 0x0 => do return .tfetch (← xD w) (← parseTs w) (← parseAmt w)
  | 0x1 => do
      zeroField w 48 8
      noImm w
      return .tmax (← parseTs w) (xSB w)
  | 0x2 => do
      zeroField w 36 6
      noImm w
      return .tread (← xD w) (← parseTs w)
  | 0x3 => do
      noImm w
      return .treset (← xD w) (← parseTs w) (xSB w)
  | 0x4 => do
      zeroField w 30 6
      zeroField w 4 4
      return .wait (← xD w) (xSA w) (fld w 0 2).toFin (w.getLsbD 2) (← parseLimit w)
  | 0x5 => do
      zeroField w 30 26
      return .waitout ⟨fld w 0 6, fld w 6 4, fld w 10 4, fld w 14 4, fld w 18 4, fld w 22 4, fld w 26 4⟩
  | 0x6 => do
      zeroField w 3 53
      return .fence (fld w 0 3).toFin
  | 0x7 => do
      zeroField w 0 42
      return .launch (← xD w) (xSA w)
  | 0x8 => do
      zeroField w 2 40
      return .qstat (← xD w) (xSA w) (← permitted (QstatWhat.ofCode (fld w 0 2).toNat))
  | 0x9 => do
      zeroField w 0 3
      if w.getLsbD 27 then do
        zeroField w 18 8
        return .msendSp (fld w 28 2).toFin (w.getLsbD 26) (w.getLsbD 4) (w.getLsbD 3) (fld w 5 13)
          (← xD w) (xSA w) (xSB w) (xSC w)
      else do
        zeroField w 30 6
        return .msend (fld w 28 2).toFin (w.getLsbD 26) (w.getLsbD 4) (w.getLsbD 3)
          (← permitted (fin192 (fld w 18 8).toNat)) (fld w 5 13) (← xD w) (xSA w) (xSB w)
  | 0xA => do
      zeroField w 30 12
      zeroField w 0 28
      return .mroute (fld w 28 2).toFin (← xD w) (xSA w)
  | 0xB => do
      zeroField w 19 23
      return .ecall (fld w 0 16) (← permitted (fin7 (fld w 16 3).toNat)) (← xD w) (xSA w)
  | 0xC => do
      zeroField w 12 30
      return .sysrd (fld w 0 12) (← xD w) (xSA w)
  | 0xD => do
      zeroField w 12 24
      return .syswr (fld w 0 12) (← xD w) (xSA w) (xSB w)
  | 0xE => do
      zeroField w 9 21
      return .tlbinv (← permitted (TlbKind.ofCode (fld w 0 4).toNat)) (fld w 4 5).toFin (← xD w)
        (xSA w) (xSB w) (xSC w)
  | _ => do
      zeroField w 2 34
      return .rdcinv (← permitted (RdcKind.ofCode (fld w 0 2).toNat)) (← xD w) (xSA w) (xSB w)

/-- The fields of a word, by its opcode. -/
def parse (w : W64) : Parse Instr :=
  let lo := (fld w 56 4).toNat
  match (fld w 60 4).toNat with
  | 0x0 => decode0 w lo
  | 0x1 => decode1 w lo
  | 0x2 => decode2 w lo
  | 0x3 => decode3 w lo
  | 0x4 => decode4 w lo
  | 0x5 => decode5 w lo
  | 0x6 => decode6 w lo
  | 0x7 => decode7 w lo
  | 0x8 => decode8 w lo
  | 0x9 => decode9 w lo
  | 0xA => decodeA w lo
  | 0xB => decodeB w lo
  | _ => .error .headerWord

/-- R57: the instruction a word encodes for a troupe with all 192 registers, or why it is illegal. -/
def decode (w : W64) : Parse Instr :=
  match parse w with
  | .ok i => if i.wf then .ok i else .error .illFormed
  | .error e => .error e

/-! The encoder. -/

/-- R49. -/
def encR (op d a b c : BitVec 8) (fea feb fec : Bool) (g : BitVec 5) (m : BitVec 16) : W64 :=
  op ++ d ++ a ++ b ++ c ++ BitVec.ofBool fea ++ BitVec.ofBool feb ++ BitVec.ofBool fec ++ g ++ m

/-- R50. -/
def encI (op d a : BitVec 8) (fea : Bool) (imm : W32) : W64 :=
  op ++ d ++ a ++ BitVec.ofBool fea ++ 0#7 ++ imm

/-- R51. -/
def encM (op d : BitVec 8) (fed : Bool) (g : BitVec 5) (m : MAddr) (aop : BitVec 6) : W64 :=
  op ++ d ++ m.idx.reg.code ++ (BitVec.ofFin m.buf : BitVec 4) ++ BitVec.ofBool m.idx.trapEmpty ++ BitVec.ofBool fed ++ g ++
    m.off ++ m.w.code ++ (BitVec.ofFin m.scope : BitVec 3) ++ (BitVec.ofFin m.lease : BitVec 2) ++
    (BitVec.ofFin m.hint : BitVec 2) ++ aop

/-- R52. -/
def encX (op d : BitVec 8) (sa sb sc : SReg) (m : BitVec 30) : W64 :=
  op ++ d ++ (BitVec.ofFin sa : BitVec 6) ++ (BitVec.ofFin sb : BitVec 6) ++ (BitVec.ofFin sc : BitVec 6) ++ m

/-- R53. -/
def encC (op : BitVec 8) (g : BitVec 5) (kind : BitVec 3) (target : BitVec 48) : W64 := op ++ g ++ kind ++ target

def eR1 (op : BitVec 8) (o : R1) (m : BitVec 16) : W64 :=
  encR op o.d.code o.a.reg.code 0 0 o.a.trapEmpty false false 0 m

def eR2 (op : BitVec 8) (o : R2) (m : BitVec 16) : W64 :=
  encR op o.d.code o.a.reg.code o.b.reg.code 0 o.a.trapEmpty o.b.trapEmpty false 0 m

def eR3 (op : BitVec 8) (o : R3) (m : BitVec 16) : W64 :=
  encR op o.d.code o.a.reg.code o.b.reg.code o.c.reg.code o.a.trapEmpty o.b.trapEmpty o.c.trapEmpty 0 m

def eP2 (op : BitVec 8) (o : P2) (m : BitVec 16) : W64 :=
  encR op 0 o.a.reg.code o.b.reg.code 0 o.a.trapEmpty o.b.trapEmpty false 0 m

def eI1 (op : BitVec 8) (o : I1) : W64 := encI op o.d.code o.a.reg.code o.a.trapEmpty o.imm

/-- Type, with the bits above it. -/
def mTy (t : IntTy) (hi : BitVec 12) : BitVec 16 := hi ++ t.code
/-- Type and modifier[8]. -/
def mTyBit (t : IntTy) (b : Bool) : BitVec 16 := 0#7 ++ BitVec.ofBool b ++ 0#4 ++ t.code
/-- R54, with the eight bits above it. -/
def mF (m : FMod) (hi : BitVec 8) : BitVec 16 :=
  hi ++ BitVec.ofBool m.negB ++ BitVec.ofBool m.absB ++ BitVec.ofBool m.negA ++ BitVec.ofBool m.absA ++
    BitVec.ofBool m.ftz ++ m.rm.code

def mBit (b : Bool) : BitVec 8 := 0#7 ++ BitVec.ofBool b
def mCarry (t : IntTy) (ci : Bool) (c : Pred) : BitVec 16 :=
  0#4 ++ BitVec.ofBool ci ++ (BitVec.ofFin c : BitVec 3) ++ 0#4 ++ t.code
def mDot (t : IntTy) (sa sb sat : Bool) : BitVec 16 :=
  0#5 ++ BitVec.ofBool sat ++ BitVec.ofBool sb ++ BitVec.ofBool sa ++ 0#4 ++ t.code

def sr (s : SReg) : BitVec 8 := (Reg.s s).code

def eRange (op : BitVec 8) : Option (SReg × SReg) → W64
  | none => encX op 0 0 0 0 1
  | some (a, b) => encX op 0 a b 0 0

/-- R211: the modifier of a product instruction. -/
def mMma (o : MmaOps) (x : XArea) (opt : BitVec 2) : BitVec 16 :=
  (BitVec.ofFin o.sa : BitVec 4) ++ (BitVec.ofFin o.sb : BitVec 4) ++ (BitVec.ofFin x.sx : BitVec 4) ++
    BitVec.ofBool x.hi ++ BitVec.ofBool o.z ++ opt

def eMma (op : BitVec 8) (o : MmaOps) (c : BitVec 8) (x : XArea) (opt : BitVec 2) : W64 :=
  encR op o.d.code 0 (optSReg.code o.k) c false false false 0 (mMma o x opt)

def noX : XArea := ⟨0, false⟩

def eSlots (op d : BitVec 8) : W16 ⊕ SReg → W64
  | .inl m => encX op d 0 0 0 (0#14 ++ m)
  | .inr s => encX op d s 0 0 (0#13 ++ 1#1 ++ 0#16)

/-- R232: the turnstile modifier. -/
def mTs (t : TsRef) (imm : Option W16) : BitVec 30 :=
  (BitVec.ofFin t.scope : BitVec 3) ++ BitVec.ofBool t.record.isSome ++ (BitVec.ofFin (t.record.getD 0) : BitVec 4) ++
    BitVec.ofBool imm.isSome ++ 0#5 ++ imm.getD 0

def eTsAmt (op d : BitVec 8) (t : TsRef) : TsAmt → W64
  | .imm n => encX op d t.sa 0 0 (mTs t (some n))
  | .reg s => encX op d t.sa s 0 (mTs t none)

def mSlotCnt (slot : Slot) (cnt : Fin 16) : BitVec 16 :=
  (BitVec.ofFin slot : BitVec 4) ++ (BitVec.ofFin cnt : BitVec 4) ++ 0#8

/-- R438: the modifier of msend. -/
def mMsend (nw : Fin 4) (src gtd t eth : Bool) (vreg : BitVec 8) (len : BitVec 13) : BitVec 30 :=
  (BitVec.ofFin nw : BitVec 2) ++ BitVec.ofBool src ++ BitVec.ofBool gtd ++ vreg ++ len ++ BitVec.ofBool t ++
    BitVec.ofBool eth ++ 0#3

/-- The word of an instruction; none for an event or a host-core operation. -/
def encode : Instr → Option W64
  | .iadd t o => some (eR2 0x00 o (mTy t 0))
  | .iaddI o => some (eI1 0x01 o)
  | .isub t o => some (eR2 0x02 o (mTy t 0))
  | .imul t hi o => some (eR2 0x03 o (mTyBit t hi))
  | .imulI o => some (eI1 0x04 o)
  | .imad t o => some (eR3 0x05 o (mTy t 0))
  | .imadI o => some (eI1 0x06 o)
  | .imuls t o => some (eR2 0x07 o (mTy t 0))
  | .idiv t nt o => some (eR2 0x08 o (mTyBit t nt))
  | .irem t nt o => some (eR2 0x09 o (mTyBit t nt))
  | .imin t o => some (eR2 0x0A o (mTy t 0))
  | .imax t o => some (eR2 0x0B o (mTy t 0))
  | .iclamp t o => some (eR3 0x0C o (mTy t 0))
  | .iabs t sat o => some (eR1 0x0D o (mTyBit t sat))
  | .ineg t sat o => some (eR1 0x0E o (mTyBit t sat))
  | .iadds t o => some (eR2 0x0F o (mTy t 0))
  | .isubs t o => some (eR2 0x10 o (mTy t 0))
  | .iaddc t ci c o => some (eR2 0x11 o (mCarry t ci c))
  | .isubb t ci c o => some (eR2 0x12 o (mCarry t ci c))
  | .idp4 t sa sb sat o => some (eR3 0x13 o (mDot t sa sb sat))
  | .idp2 t sa sb sat o => some (eR3 0x14 o (mDot t sa sb sat))
  | .isad t o => some (eR3 0x15 o (mTy t 0))
  | .iscadd t n o => some (eR2 0x16 o (0#2 ++ n ++ 0#4 ++ t.code))
  | .and t o => some (eR2 0x17 o (mTy t 0))
  | .andI o => some (eI1 0x18 o)
  | .or t o => some (eR2 0x19 o (mTy t 0))
  | .orI o => some (eI1 0x1A o)
  | .xor t o => some (eR2 0x1B o (mTy t 0))
  | .xorI o => some (eI1 0x1C o)
  | .andn t o => some (eR2 0x1D o (mTy t 0))
  | .lmux t f0 f1 o => some (eR3 0x1E o (f1 ++ f0 ++ 0#4 ++ t.code))
  | .shl t o => some (eR2 0x1F o (mTy t 0))
  | .shlI o => some (eI1 0x20 o)
  | .shr t o => some (eR2 0x21 o (mTy t 0))
  | .shrI o => some (eI1 0x22 o)
  | .sra t o => some (eR2 0x23 o (mTy t 0))
  | .sraI o => some (eI1 0x24 o)
  | .rot t right o => some (eR2 0x25 o (mTyBit t right))
  | .fsh left o => some (eR3 0x26 o (0#7 ++ BitVec.ofBool left ++ 0#8))
  | .popc t o => some (eR1 0x27 o (mTy t 0))
  | .clz t o => some (eR1 0x28 o (mTy t 0))
  | .ctz t o => some (eR1 0x29 o (mTy t 0))
  | .brev t o => some (eR1 0x2A o (mTy t 0))
  | .bfe t o => some (eR3 0x2B o (mTy t 0))
  | .bfi t o => some (eR3 0x2C o (mTy t 0))
  | .bperm o => some (eR3 0x2D o 0)
  | .sext t o => some (eR2 0x2E o (mTy t 0))
  | .imsk t o => some (eR2 0x2F o (mTy t 0))
  | .icmp t o => some (eR2 0x30 o (mTy t 0))
  | .icmpI o => some (eI1 0x31 o)
  | .iset t c pd o => some (eP2 0x32 o (0#5 ++ (BitVec.ofFin pd : BitVec 3) ++ 0#1 ++ c.code ++ t.code))
  | .isetI c u pd a imm =>
      some (encI 0x33 0 a.reg.code a.trapEmpty (c.code ++ BitVec.ofBool u ++ (BitVec.ofFin pd : BitVec 3) ++ imm))
  | .sel g w64 inv q o =>
      some (encR 0x34 o.d.code o.a.reg.code o.b.reg.code 0 o.a.trapEmpty o.b.trapEmpty false (Guard.code g)
        (0#3 ++ BitVec.ofBool w64 ++ BitVec.ofBool inv ++ (BitVec.ofFin q : BitVec 3) ++ 0#8))
  | .plop pd pa pb lut =>
      some (encR 0x35 0 0 0 0 false false false 0
        (0#1 ++ (BitVec.ofFin pd : BitVec 3) ++ (BitVec.ofFin pa : BitVec 3) ++ (BitVec.ofFin pb : BitVec 3) ++ 0#2 ++ lut))
  | .pmovToReg d => some (encR 0x36 d.code 0 0 0 false false false 0 0)
  | .pmovToPred a mask => some (encR 0x36 0 a.reg.code 0 0 a.trapEmpty false false 0 (mask ++ 1#8))
  | .mov w64 o => some (eR1 0x37 o (0#15 ++ BitVec.ofBool w64))
  | .movi d imm => some (encI 0x38 d.code 0 false imm)
  | .movhi d imm => some (encI 0x39 d.code 0 false imm)
  | .rdlane d a b => some (encR 0x3A d.code a.reg.code (sr b) 0 a.trapEmpty false false 0 0)
  | .wrlane d a b => some (encR 0x3B d.code (sr a) (sr b) 0 false false false 0 0)
  | .cvti td ts o => some (eR1 0x3C o (0#8 ++ td.code ++ ts.code))
  | .ipack t o => some (eR2 0x3D o (mTy t 0))
  | .iunpack t hi o => some (eR1 0x3E o (mTyBit t hi))
  | .fadd m o => some (eR2 0x3F o (mF m 0))
  | .faddI o => some (eI1 0x40 o)
  | .fsub m o => some (eR2 0x41 o (mF m 0))
  | .fmul m o => some (eR2 0x42 o (mF m 0))
  | .fmulI o => some (eI1 0x43 o)
  | .ffma m nc o => some (eR3 0x44 o (mF m (mBit nc)))
  | .ffmaI o => some (eI1 0x45 o)
  | .fmin m o => some (eR2 0x46 o (mF m 0))
  | .fmax m o => some (eR2 0x47 o (mF m 0))
  | .fclamp m o => some (eR3 0x48 o (mF m 0))
  | .fcmp m o => some (eR2 0x49 o (mF m 0))
  | .fcmpI o => some (eI1 0x4A o)
  | .fset m c pd o => some (eP2 0x4B o (mF m (0#1 ++ (BitVec.ofFin pd : BitVec 3) ++ c.code)))
  | .frcp m o => some (eR1 0x4C o (mF m 0))
  | .frsq m o => some (eR1 0x4D o (mF m 0))
  | .fsqrt m o => some (eR1 0x4E o (mF m 0))
  | .fdiv m o => some (eR2 0x4F o (mF m 0))
  | .fex2 m o => some (eR1 0x50 o (mF m 0))
  | .flg2 m o => some (eR1 0x51 o (mF m 0))
  | .fsin m o => some (eR1 0x52 o (mF m 0))
  | .fcos m o => some (eR1 0x53 o (mF m 0))
  | .ftanh m o => some (eR1 0x54 o (mF m 0))
  | .fsigm m o => some (eR1 0x55 o (mF m 0))
  | .fsilu m o => some (eR1 0x56 o (mF m 0))
  | .ffrc m o => some (eR1 0x57 o (mF m 0))
  | .frnd m o => some (eR1 0x58 o (mF m 0))
  | .fldexp m o => some (eR2 0x59 o (mF m 0))
  | .fmant m o => some (eR1 0x5A o (mF m 0))
  | .fexpo m o => some (eR1 0x5B o (mF m 0))
  | .dadd m o => some (eR2 0x5C o (mF m 0))
  | .dmul m o => some (eR2 0x5D o (mF m 0))
  | .dfma m nc o => some (eR3 0x5E o (mF m (mBit nc)))
  | .dcmp m o => some (eR2 0x5F o (mF m 0))
  | .ddiv m o => some (eR2 0x60 o (mF m 0))
  | .dsqrt m o => some (eR1 0x61 o (mF m 0))
  | .hadd2 m bf o => some (eR2 0x62 o (mF m (mBit bf)))
  | .hmul2 m bf o => some (eR2 0x63 o (mF m (mBit bf)))
  | .hfma2 m bf nc o => some (eR3 0x64 o (mF m (0#6 ++ BitVec.ofBool nc ++ BitVec.ofBool bf)))
  | .hmin2 m bf o => some (eR2 0x65 o (mF m (mBit bf)))
  | .hmax2 m bf o => some (eR2 0x66 o (mF m (mBit bf)))
  | .hcmp2 m bf o => some (eR2 0x67 o (mF m (mBit bf)))
  | .fdot2 m bf o => some (eR3 0x68 o (mF m (mBit bf)))
  | .cvtf fs fd neg abs ftz rm o =>
      some (eR1 0x69 o (fs.code ++ fd.code ++ 0#2 ++ BitVec.ofBool neg ++ BitVec.ofBool abs ++ BitVec.ofBool ftz ++ rm.code))
  | .cvtfi fs td ftz rm o => some (eR1 0x6A o (fs.code ++ td.code ++ 0#4 ++ BitVec.ofBool ftz ++ rm.code))
  | .cvtif ts fd rm o => some (eR1 0x6B o (ts.code ++ fd.code ++ 0#5 ++ rm.code))
  | .cvt8Encode sat e5m2 wf hi ftz rm seed o =>
      some (encR 0x6C o.d.code o.a.reg.code o.b.reg.code (seedCode rm seed) o.a.trapEmpty o.b.trapEmpty false 0
        (0#1 ++ BitVec.ofBool sat ++ BitVec.ofBool e5m2 ++ wf.code ++ 0#2 ++ BitVec.ofBool hi ++ 0#4 ++
          BitVec.ofBool ftz ++ rm.code))
  | .cvt8Decode e5m2 wf pos ftz o =>
      some (eR1 0x6C o (0#2 ++ BitVec.ofBool e5m2 ++ wf.code ++ 1#1 ++ (BitVec.ofFin pos : BitVec 2) ++ 0#4 ++
        BitVec.ofBool ftz ++ 0#3))
  | .cvtmxEncode ef ftz rm seed o =>
      some (encR 0x6D o.d.code o.a.reg.code 0 (seedCode rm seed) o.a.trapEmpty false false 0
        (0#2 ++ ef.code ++ 0#8 ++ BitVec.ofBool ftz ++ rm.code))
  | .cvtmxDecode ef ftz rm o => some (eR1 0x6D o (0#2 ++ ef.code ++ 0#1 ++ 1#1 ++ 0#6 ++ BitVec.ofBool ftz ++ rm.code))
  | .cvt4Pack o => some (eR1 0x6E o 0)
  | .cvt4Deq o => some (eR3 0x6E o 0x0400)
  | .bra g off => some (encC 0x6F (Guard.code g) 0 off)
  | .brx g r => some (encC 0x70 (Guard.code g) 1 (r.code ++ 0#40))
  | .call off => some (encC 0x71 0 0 off)
  | .callx r => some (encC 0x72 0 1 (r.code ++ 0#40))
  | .ret r => some (encC 0x73 0 1 (r.code ++ 0#40))
  | .exit => some (encC 0x74 0 2 0)
  | .trap imm => some (encC 0x75 0 3 (0#16 ++ imm))
  | .tret => some (encC 0x76 0 2 0)
  | .bkpt imm => some (encC 0x77 0 3 (0#16 ++ imm))
  | .yield => some (encC 0x78 0 2 0)
  | .nop => some (encC 0x79 0 2 0)
  | .sleep ticks => some (encC 0x7A 0 3 (0#16 ++ ticks))
  | .shfl mode seg w64 o =>
      some (eR2 0x7B o (0#4 ++ BitVec.ofBool w64 ++ BitVec.ofNat 3 seg.val ++ 0#6 ++ mode.code))
  | .vote mode inv q d =>
      some (encR 0x7C d.code 0 0 0 false false false 0
        (0#4 ++ BitVec.ofBool inv ++ (BitVec.ofFin q : BitVec 3) ++ 0#6 ++ mode.code))
  | .matchLanes w64 o => some (eR1 0x7D o (0#7 ++ BitVec.ofBool w64 ++ 0#8))
  | .redux op t o => some (eR1 0x7E o (0#5 ++ op.code ++ 0#4 ++ t.code))
  | .fredux f64 op neg abs ftz rm o =>
      some (eR1 0x7F o (0#5 ++ BitVec.ofBool f64 ++ op.code ++ 0#2 ++ BitVec.ofBool neg ++ BitVec.ofBool abs ++
        BitVec.ofBool ftz ++ rm.code))
  | .scan op t excl o => some (eR1 0x80 o (0#4 ++ BitVec.ofBool excl ++ op.code ++ 0#4 ++ t.code))
  | .movsRead s d => some (encR 0x81 d.code 0 0 0 false false false 0 (0#8 ++ s.code))
  | .movsWrite a => some (encR 0x81 0 (sr a) 0 0 false false false 0 0x0115)
  | .amask live d => some (encR 0x82 d.code 0 0 0 false false false 0 (0#15 ++ BitVec.ofBool live))
  | .brec sp b sa => some (encX 0x83 0 sa 0 0 (0#25 ++ BitVec.ofBool sp ++ (BitVec.ofFin b : BitVec 4)))
  | .brmk b sa => some (encX 0x84 0 sa 0 0 (0#26 ++ (BitVec.ofFin b : BitVec 4)))
  | .brset f b sa => some (encX 0x85 0 sa 0 0 (0#22 ++ f.code ++ (BitVec.ofFin b : BitVec 4)))
  | .ld d m => some (encM 0x86 d.code false 0 m 0)
  | .ldc d m => some (encM 0x87 d.code false 0 m 0)
  | .st g d m => some (encM 0x88 d.reg.code d.trapEmpty (Guard.code g) m 0)
  | .ldu d m => some (encM 0x89 d.code false 0 m 0)
  | .stu g d m => some (encM 0x8A d.reg.code d.trapEmpty (Guard.code g) m 0)
  | .atom g op d m => some (encM 0x8B d.reg.code d.trapEmpty (Guard.code g) m op.code)
  | .atomcas g d m => some (encM 0x8C d.reg.code d.trapEmpty (Guard.code g) m 0)
  | .red g op d m => some (encM 0x8D d.reg.code d.trapEmpty (Guard.code g) m op.code)
  | .prefetch m => some (encM 0x8E 0 false 0 m 0)
  | .ldx d m => some (encM 0x8F d.code false 0 m 0)
  | .stx d m => some (encM 0x90 d.reg.code d.trapEmpty 0 m 0)
  | .atomx op d m => some (encM 0x91 d.reg.code d.trapEmpty 0 m op.code)
  | .cwb r => some (eRange 0x92 r)
  | .cinv r => some (eRange 0x93 r)
  | .icinv r => some (eRange 0x94 r)
  | .fetchbar => some (encX 0x95 0 0 0 0 0)
  | .pin d sa sb => some (encX 0x96 (sr d) sa sb 0 0)
  | .unpin d sa sb => some (encX 0x97 (sr d) sa sb 0 0)
  | .pinq d sa => some (encX 0x98 (sr d) sa 0 0 0)
  | .mmaE4m3 o => some (eMma 0x99 o 0 noX 0)
  | .mmaE5m2 o => some (eMma 0x9A o 0 noX 0)
  | .mmaBf16 o => some (eMma 0x9B o 0 noX 0)
  | .mmaF16 o => some (eMma 0x9C o 0 noX 0)
  | .mmaF32 o => some (eMma 0x9D o 0 noX 0)
  | .mmaI8 ua ub o => some (eMma 0x9E o 0 noX (BitVec.ofBool ua ++ BitVec.ofBool ub))
  | .mmaI4 ua ub o => some (eMma 0x9F o 0 noX (BitVec.ofBool ua ++ BitVec.ofBool ub))
  | .mmaMxf6 a23 b23 x c o => some (eMma 0xA0 o (sr c) x (BitVec.ofBool a23 ++ BitVec.ofBool b23))
  | .mmaMxf4 x c o => some (eMma 0xA1 o (sr c) x 0)
  | .mmaq g x c o => some (eMma 0xA2 o (sr c) x g.code)
  | .mmaspE4m3 x o => some (eMma 0xA3 o 0 x 0)
  | .mmaspBf16 x o => some (eMma 0xA4 o 0 x 0)
  | .sclaim d mask => some (eSlots 0xA5 (sr d) mask)
  | .srel mask => some (eSlots 0xA6 0 mask)
  | .sfill slot cnt off a =>
      some (encR 0xA7 0 a.reg.code (optSReg.code off) 0 a.trapEmpty false false 0 (mSlotCnt slot cnt))
  | .sdrain slot cnt off d => some (encR 0xA8 d.code 0 (optSReg.code off) 0 false false false 0 (mSlotCnt slot cnt))
  | .sxpose dst src es rc =>
      some (encX 0xA9 0 0 0 0 (0#14 ++ (BitVec.ofFin dst : BitVec 4) ++ (BitVec.ofFin src : BitVec 4) ++ es.code ++
        BitVec.ofNat 3 rc.val ++ 0#3))
  | .mmacvt slot fmt sat t ftz rm off seed a =>
      some (encR 0xAA 0 a.reg.code (optSReg.code off) (seedCode rm seed) a.trapEmpty false false 0
        ((BitVec.ofFin slot : BitVec 4) ++ fmt.code ++ BitVec.ofBool sat ++ BitVec.ofBool t ++ 0#4 ++
          BitVec.ofBool ftz ++ rm.code))
  | .copy d sa => some (encX 0xAB (sr d) sa 0 0 0)
  | .cbload n d sa => some (encX 0xAC (sr d) sa 0 0 (0#28 ++ (BitVec.ofFin n : BitVec 2)))
  | .cpstat d sa => some (encX 0xAD (sr d) sa 0 0 0)
  | .cpabort none => some (encX 0xAE 0 0 0 0 1)
  | .cpabort (some s) => some (encX 0xAE 0 s 0 0 0)
  | .tadd t amt => some (eTsAmt 0xAF 0 t amt)
  | .tfetch d t amt => some (eTsAmt 0xB0 (sr d) t amt)
  | .tmax t sb => some (encX 0xB1 0 t.sa sb 0 (mTs t none))
  | .tread d t => some (encX 0xB2 (sr d) t.sa 0 0 (mTs t none))
  | .treset d t sb => some (encX 0xB3 (sr d) t.sa sb 0 (mTs t none))
  | .wait d sa n all (.ticks k) =>
      some (encX 0xB4 (sr d) sa 0 0 (k ++ 0#4 ++ 1#1 ++ BitVec.ofBool all ++ (BitVec.ofFin n : BitVec 2)))
  | .wait d sa n all (.reg s) =>
      some (encX 0xB4 (sr d) sa s 0 (0#22 ++ 0#4 ++ 0#1 ++ BitVec.ofBool all ++ (BitVec.ofFin n : BitVec 2)))
  | .waitout l => some (encX 0xB5 0 0 0 0 (l.atc ++ l.ni ++ l.mx ++ l.cp ++ l.st ++ l.ld ++ l.mask))
  | .fence scope => some (encX 0xB6 0 0 0 0 (0#27 ++ (BitVec.ofFin scope : BitVec 3)))
  | .launch d sa => some (encX 0xB7 (sr d) sa 0 0 0)
  | .qstat d sa what => some (encX 0xB8 (sr d) sa 0 0 (0#28 ++ what.code))
  | .msend nw gtd t eth vreg len d sa sb =>
      some (encX 0xB9 (sr d) sa sb 0 (mMsend nw false gtd t eth (BitVec.ofNat 8 vreg.val) len))
  | .msendSp nw gtd t eth len d sa sb sc => some (encX 0xB9 (sr d) sa sb sc (mMsend nw true gtd t eth 0 len))
  | .mroute nw d sa => some (encX 0xBA (sr d) sa 0 0 ((BitVec.ofFin nw : BitVec 2) ++ 0#28))
  | .ecall call n d sa => some (encX 0xBB (sr d) sa 0 0 (0#11 ++ BitVec.ofNat 3 n.val ++ call))
  | .sysrd reg d sa => some (encX 0xBC (sr d) sa 0 0 (0#18 ++ reg))
  | .syswr reg d sa sb => some (encX 0xBD (sr d) sa sb 0 (0#18 ++ reg))
  | .tlbinv kind vf d sa sb sc => some (encX 0xBE (sr d) sa sb sc (0#21 ++ (BitVec.ofFin vf : BitVec 5) ++ kind.code))
  | .rdcinv kind d sa sb => some (encX 0xBF (sr d) sa sb 0 (0#28 ++ kind.code))
  | .hartFence .. | .hartFenceI .. | .cboClean .. | .cboFlush .. | .cboInval .. | .hartCounterLoad ..
  | .hartAmoaddD .. | .hartAmomaxuD .. | .hartLr .. | .hartSc .. | .hartAmo .. | .hartSfenceVma ..
  | .hartHfenceVvma .. | .hartHfenceGvma .. | .clauseIssue .. | .pipeGrant .. | .stallRelease ..
  | .loadDataReturn .. | .gwctReceive .. | .troupeEnd .. | .sleepWake .. | .blockArrival .. | .unitZero ..
  | .blockStart .. | .blockEnd .. | .pinRegistration .. | .pinnedForcedWriteback .. | .retry .. | .reclaim ..
  | .spill .. | .refill .. | .cquotaWrite .. | .turnstilePoll .. | .matrixPeriodStart .. | .matrixWriteback ..
  | .slotPortStart .. | .turnstileOpArrival .. | .deferredOpApply .. | .wakeReceive .. | .waitTimeout ..
  | .heldReleaseSend .. | .fenceComplete .. | .waitoutComplete .. | .chainStart .. | .recordRead ..
  | .recordMoveEnd .. | .completionAdd .. | .chainEnd .. | .cbloadEnd .. | .reduceContribution ..
  | .heldContributionTimeout .. | .xbarRequest .. | .xbarSpillRetry .. | .redirectedAccess ..
  | .residentGangStart .. | .homeWrite .. | .homeRead .. | .recall .. | .recallAck .. | .channelTransfer ..
  | .l2pinqWrite .. | .sltokWrite .. | .hartStoreDrain .. | .portCtlWrite .. | .portCancelWrite ..
  | .portWaitEnd .. | .uncorrectableError .. | .unitSelfTest .. | .contextSave .. | .ringEntryDelivery ..
  | .troupeRestore .. | .vfcfgWrite .. | .vfReset .. | .vfResetComplete .. | .migStart .. | .migEnd ..
  | .migAbort .. | .migrationPass .. | .addslice .. | .remslice .. | .setband .. | .clrband .. | .attest ..
  | .tlbinvComplete .. | .qcmdEnable .. | .qcmdDisable .. | .calendarLoad .. | .ticketFetch .. | .ticketReady ..
  | .placement .. | .ticketComplete .. | .calendarSlotStart .. | .calendarPeriodStart .. | .roundStart ..
  | .wholeBlockSave .. | .snapshotStart .. | .snapshotAbort .. | .snapshotCut .. | .snapshotComplete ..
  | .sliceLoss .. | .powerOn .. | .manifestReceive .. | .powerLoss .. | .thermalTrip .. | .pwrcapWrite ..
  | .monitorUpdate .. | .nirtLoad .. | .xptblLoad .. | .peerrtLoad .. | .switchForward .. | .transitCheck ..
  | .messageDelivery .. | .messageStatusReply .. | .sequenceSkip .. | .linkTransferFail .. | .linkLaneTest ..
  | .niMaskRefresh .. | .packetReturn .. | .flowResendTimeout .. | .flowAck .. | .flowReset .. | .flowResetAck ..
  | .peerRequest .. | .ethFrameReceive .. | .linkTraining .. | .systemRegisterWrite .. | .correctableError ..
  | .slotPortEnd .. | .turnstileAcknowledgement .. | .rdcinvComplete .. | .pinComplete .. | .peerStopsAnswering ..
  | .hartStore .. | .sstcTimer .. => none

/-- The word of a host's table row: bits above nbits are zero; the decoder reads one 64-bit word. -/
def decodeTableWord (_nbits w : Nat) : Option Instr := (decode (BitVec.ofNat 64 w)).toOption

end Sys2Proof
end

