-- ==== Sys2Proof/Machine/Bits.lean ====
section
/-! DEFINITION. Sparse tables, key sets, lane masks and the little-endian byte helpers (R11) that the machine uses. -/

namespace Sys2Proof.Machine

/-! Tables in rising key order. What a table reads after a write does not rest on the order. -/

def sfind {V : Type} (k : Nat) : Sparse V → Option V
  | [] => none
  | (j, v) :: t => if j = k then some v else sfind k t

def sset {V : Type} (k : Nat) (v : V) : Sparse V → Sparse V
  | [] => [(k, v)]
  | (j, w) :: t => if k < j then (k, v) :: (j, w) :: t else if j = k then (k, v) :: t else (j, w) :: sset k v t

def sdel {V : Type} (k : Nat) (l : Sparse V) : Sparse V := l.filter fun e => decide (e.1 ≠ k)

/-- The value at a key, d where the key is not listed. -/
def sget {V : Type} (d : V) (k : Nat) (l : Sparse V) : V := (sfind k l).getD d

/-- Writes a value; writing the value an unlisted key reads as removes the entry. -/
def sput {V : Type} [DecidableEq V] (d : V) (k : Nat) (v : V) (l : Sparse V) : Sparse V :=
  if v = d then sdel k l else sset k v l

def skeys {V : Type} (l : Sparse V) : List Nat := l.map (·.1)

/-- Strictly rising keys. -/
def sorted {V : Type} : Sparse V → Bool
  | [] => true
  | [_] => true
  | (j, _) :: (k, w) :: t => decide (j < k) && sorted ((k, w) :: t)

/-- The canonical form: rising keys and no entry equal to the unlisted value. -/
def canonical {V : Type} [DecidableEq V] (d : V) (l : Sparse V) : Bool := sorted l && l.all fun e => e.2 ≠ d

/-! Key sets in rising order. -/

def kmem (k : Nat) (s : KeySet) : Bool := s.contains k

def kadd (k : Nat) : KeySet → KeySet
  | [] => [k]
  | j :: t => if k < j then k :: j :: t else if j = k then j :: t else j :: kadd k t

def kdel (k : Nat) (s : KeySet) : KeySet := s.filter (· ≠ k)

def kset (k : Nat) (b : Bool) (s : KeySet) : KeySet := if b then kadd k s else kdel k s

/-! Lane masks. -/

def laneList : List Nat := List.range 64
def lanes (m : LaneMask) : List Nat := laneList.filter fun l => m.getLsbD l
def bitM (n l : Nat) : BitVec n := BitVec.ofNat n (2 ^ l)
def setLane (m : LaneMask) (l : Nat) (b : Bool) : LaneMask := if b then m ||| bitM 64 l else m &&& ~~~(bitM 64 l)
def maskOf (ls : List Nat) : LaneMask := ls.foldl (fun m l => m ||| bitM 64 l) 0

/-! Numbers. -/

/-- The two's complement value of the low w bits of x. -/
def sval (w x : Nat) : Int :=
  let y := x % 2 ^ w
  if 2 * y < 2 ^ w then (y : Int) else (y : Int) - (2 ^ w : Nat)

def uval (w x : Nat) : Nat := x % 2 ^ w

/-- The w-bit pattern of an integer, modulo 2^w. -/
def wrap (w : Nat) (z : Int) : Nat := (z % ((2 ^ w : Nat) : Int)).toNat

/-- Bits [lo + len - 1 : lo]. -/
def bitsOf (x lo len : Nat) : Nat := x / 2 ^ lo % 2 ^ len

/-- Replaces bits [lo + len - 1 : lo] of x. -/
def putBits (x lo len v : Nat) : Nat :=
  x - bitsOf x lo len * 2 ^ lo + v % 2 ^ len * 2 ^ lo

def bitN (x i : Nat) : Bool := x / 2 ^ i % 2 = 1

def clampI (lo hi z : Int) : Int := if z < lo then lo else if z > hi then hi else z

def log2N (n : Nat) : Nat := Nat.log2 n

def ceilDiv (a b : Nat) : Nat := if b = 0 then 0 else (a + b - 1) / b

def popcount (n x : Nat) : Nat := ((List.range n).filter fun i => bitN x i).length

/-- R11: bytes of a value, least significant first. -/
def leBytes (n v : Nat) : List Byte := (List.range n).map fun i => BitVec.ofNat 8 (v / 256 ^ i)

def leVal : List Byte → Nat
  | [] => 0
  | b :: t => b.toNat + 256 * leVal t

/-- The 64-bit words of a byte list. -/
def words64 (n : Nat) (bs : List Byte) : List W64 :=
  (List.range n).map fun i => BitVec.ofNat 64 (leVal ((bs.drop (8 * i)).take 8))

def dword (ws : List W64) (i : Nat) : Nat := (ws.getD i 0).toNat

/-- Bits of a record given as 64-bit words, word 0 lowest. -/
def recBits (ws : List W64) (lo len : Nat) : Nat :=
  bitsOf ((ws.zipIdx).foldl (fun acc e => acc + e.1.toNat * 2 ^ (64 * e.2)) 0) lo len

def minNat : List Nat → Option Nat
  | [] => none
  | a :: t => match minNat t with
    | none => some a
    | some b => some (Nat.min a b)

def maxList (l : List Nat) : Nat := l.foldl Nat.max 0
def sumInt (l : List Int) : Int := l.foldl (· + ·) 0
def sumNat (l : List Nat) : Nat := l.foldl (· + ·) 0

/-- The distinct members, rising. -/
def toKeys (l : List Nat) : KeySet := l.foldl (fun s k => kadd k s) []

def replaceAt {A : Type} (i : Nat) (a : A) : List A → List A
  | [] => []
  | x :: t => match i with
    | 0 => a :: t
    | j + 1 => x :: replaceAt j a t

end Sys2Proof.Machine
end

