-- ==== Sys2Proof/Machine/State.lean ====
section
/-! DEFINITION. The state of the module (INVENTORY.md, State), its faults and refusals, and reset. Plain data
throughout. Tables are lists of key and value pairs in rising key order (Sparse); what an unlisted key reads as is
said with each table. -/

namespace Sys2Proof.Machine

abbrev VAddr := BitVec 57

/-- The one stop of the machine. -/
inductive Fault where
  /-- Raised by the meaning of an instruction word when no troupe is at issue to run it; no step of the machine
  runs a word without one, so only a direct call of exec meets it. Safe: the spec gives a word no meaning
  without an issuing troupe (R71). -/
  | noIssuer
  deriving DecidableEq, Repr

/-- Refusals. -/
inductive Refusal where
  /-- Raised by the dispatch for an instruction without a meaning yet. Safe. -/
  | notModelled (mnemonic : String)
  deriving DecidableEq, Repr

/-- R74: an entry of the frontier. -/
structure Path where
  prio : Nat
  addr : VAddr
  idx : Nat
  mask : LaneMask
  deriving DecidableEq, Repr

/-- R64: lane registers. v is keyed by 256 * lane + register and reads 0 where unlisted. empty, taint and poison
are lane masks by register, pred and predPoison by predicate; they read 0 where unlisted. -/
structure LaneRegs where
  v : Sparse W32
  empty : Sparse LaneMask
  taint : Sparse LaneMask
  poison : Sparse LaneMask
  pred : Sparse LaneMask
  predPoison : Sparse LaneMask
  deriving DecidableEq, Repr

/-- R71: s registers (unlisted reads 0) with their poison and pending bits, and buffer records (unlisted reads 0). -/
structure UniRegs where
  s : Sparse W64
  sPoison : BitVec 64
  sPending : BitVec 64
  b : Sparse (BitVec 256)
  deriving DecidableEq, Repr

/-- R72. -/
structure Counters where
  ld : Nat
  st : Nat
  cp : Nat
  mx : Nat
  ni : Nat
  atc : Nat
  deriving DecidableEq, Repr

/-- R83, R85: where the trapping path of the shadow frontier resumes. -/
inductive ResumeAt where
  /-- SOFTWARE and BREAKPOINT: the path's successor, already entered. -/
  | successor
  /-- The trapping instruction, of a clause of so many words; %trapresume decides. -/
  | instruction (clause : VAddr) (words : Nat)
  /-- A clause that failed its checks, from its header. -/
  | clauseStart (clause : VAddr)
  deriving DecidableEq, Repr

/-- R80, R83: trap fields, the in-handler flag and the shadow frontier. -/
structure TrapState where
  cause : BitVec 8
  info : W64
  addr : W64
  inst : W64
  mask : W64
  resume : Bool
  inHandler : Bool
  shadow : List Path
  resumeAt : ResumeAt
  deriving DecidableEq, Repr

/-- A turnstile (R226, R228, R447): in a block's counter region, in a home's memory, or in a peer module. -/
inductive TsLoc where
  | block (id idx : Nat)
  | home (dpa : Nat)
  | peer (ppa : Nat)
  deriving DecidableEq, Repr

/-- The privilege of a queue (R336); g: addresses of a guest, under stage 2 alone, as a VF's rings name them (R347). -/
inductive Priv where
  | u | s | h | g
  deriving DecidableEq, Repr

/-- R336: the regime of a translation; an access of a hart in M mode has priv h, one in HS or VS s, and VF 32 outside a
guest. -/
structure Regime where
  part : Nat
  vf : Nat
  priv : Priv
  space : W64
  deriving DecidableEq, Repr

/-- How a turnstile of memory was named: an address in a regime, and the ASTAG of its translation (R331, R360). -/
structure TsName where
  regime : Regime
  va : Nat
  tag : Nat
  deriving DecidableEq, Repr

/-- One condition of a wait: its turnstile, how it was named, and the value last read, with its poison. -/
structure Cond where
  loc : TsLoc
  name : Option TsName
  threshold : W64
  sat : Bool
  val : Option (W64 × Bool)
  deriving DecidableEq, Repr

/-- R236: a wait in progress. -/
structure WaitState where
  conds : List Cond
  all : Bool
  /-- The first test is still to come. -/
  first : Bool
  deadline : Option Nat
  d : SReg
  poison : Bool
  deriving DecidableEq, Repr

/-- Why a troupe is descheduled. -/
inductive Suspend where
  | none
  | sleep (wake : Nat)
  | wait (w : WaitState)
  | waitout (l : Limits)
  /-- R241: drain, then the write-backs numbered below, then the tick G. -/
  | fence (scope : Nat) (released : Option Nat)
  /-- R355: until the service entry of this request is written. -/
  | ecall (req : Nat)
  /-- R350: waiting to be saved, with the fault record of R172 and the ring it goes to. -/
  | pageFault (record : BitVec 256) (toVf : Bool)
  /-- R84: halted in place with both causes and the second trap's fields. -/
  | doubleTrap (first second : BitVec 8) (inst addr mask : W64)
  deriving DecidableEq, Repr

/-- R42: the clause in issue, in its decode buffer. -/
structure Issue where
  addr : VAddr
  header : W64
  words : List W64
  idx : Nat
  mask : LaneMask
  prio : Nat
  deriving DecidableEq, Repr

/-- R314: a line that the core read for a stalled load at an address, ahead of its index. -/
structure Guess where
  troupe : Nat
  addr : VAddr
  idx : Nat
  line : Nat
  tag : Nat
  bytes : List Byte
  poison : Bool
  deriving DecidableEq, Repr

/-- A troupe (R71). -/
structure Troupe where
  /-- The block it belongs to and its index within it. -/
  block : Nat
  index : Nat
  nregs : Nat
  groups : List Nat
  lane : LaneRegs
  exited : LaneMask
  uni : UniRegs
  frontier : List Path
  cnt : Counters
  trap : TrapState
  tvec : VAddr
  issue : Option Issue
  susp : Suspend
  halted : Bool
  stalled : Bool
  gwct : Nat
  /-- R40: consecutive Y = 0 boundaries; R144: the next boundary acts as Y = 1. -/
  yRun : Nat
  yielded : Bool
  lastGrant : Nat
  chainNo : BitVec 16
  deriving DecidableEq, Repr

/-- R186: the holder of a PINNED line. -/
inductive Holder where
  | block (id : Nat)
  | cluster
  deriving DecidableEq, Repr

inductive L1State where
  /-- A clean copy; none is an INF lease. It holds no data of its own: R312 makes it equal to its home. -/
  | valid (expiry : Option Nat)
  | pinned (h : Holder) (since : Nat) (astag : Nat) (vf : Nat)
  deriving DecidableEq, Repr

/-- R183, R186: a line of the L1, keyed by 512 * way + set. Pinned bytes stand in the unified array. rank is the hint it
was filled under (R51): 0 evict first, 1 normal, 2 evict last. -/
structure L1Line where
  line : Nat
  state : L1State
  poison : Bool
  firstRefusal : Option Nat
  used : Nat
  rank : Nat
  deriving DecidableEq, Repr

/-- R189. -/
structure SbEntry where
  block : Nat
  operand : Bool
  first : Nat
  last : Nat
  dest : Bool
  chain : Nat
  deriving DecidableEq, Repr

/-- What an accepted instruction of the matrix unit does (R215 to R224). -/
inductive MxWork where
  | product (i : Instr) (k : Nat) (kPoison : Bool)
  | xpose (dst src : Slot) (es : XposeBits) (rc : Fin 5)
  | fill (slot : Slot) (cnt off : Nat) (a : Reg) (vals : List (Nat × W32 × Bool))
  | drain (slot : Slot) (cnt off : Nat) (d : Reg)
  | convert (i : Instr) (off : Nat) (seed : W32) (vals : List (Nat × W32 × Bool))
  deriving DecidableEq, Repr

/-- R217, R218: an accepted instruction, in acceptance order. result holds a product's rows once its period ran. -/
structure MxOp where
  troupe : Nat
  work : MxWork
  started : Bool
  result : List (Nat × W32 × Bool × Bool)
  deriving DecidableEq, Repr

/-- R251: a codebook store; poison by entry. -/
structure Book where
  block : Nat
  num : Nat
  bytes : Sparse Byte
  poison : KeySet
  loading : Bool
  ok : Bool
  deriving DecidableEq, Repr

/-- A unit of a core's resources (R173). -/
inductive CoreUnit where
  | slot (i : Nat)
  | group (i : Nat)
  | granule (i : Nat)
  | opslot (i : Nat)
  deriving DecidableEq, Repr

/-- R195 to R198: a reclaim in progress for an arriving block. -/
structure Reclaim where
  arriving : Nat
  chosen : List CoreUnit
  victims : List Nat
  deriving DecidableEq, Repr

/-- R400: an L1 way that becomes a scratchpad unit for a block: the clock, in 64ths, at which its walk ends, the operation of
its write-backs, and whether it waits for its turn to be zeroed. -/
structure WayWalk where
  block : Nat
  unit : Nat
  ends : Nat
  op : Option Nat
  queued : Bool
  deriving DecidableEq, Repr

/-- R181: a block that has ended, whose units are being zeroed before its ticket hears of it. -/
structure EndedBlock where
  ticket : Nat
  gwct : Nat
  units : List CoreUnit
  deriving DecidableEq, Repr

/-- A core (R173). ua and opm are the unified array and operand memory by byte; unlisted bytes read 0. zeroing has the
units to be zeroed in their order, and zeroDue by kind (0 slots, 1 groups, 2 granules, 3 operand slots) the clock, in 64ths,
at which the first of them is. -/
structure Core where
  ua : Sparse Byte
  uaPoison : KeySet
  opm : Sparse Byte
  opmPoison : KeySet
  zeroing : List CoreUnit
  zeroDue : Sparse Nat
  walks : List WayWalk
  ended : List EndedBlock
  l1 : Sparse L1Line
  ic : Sparse W64
  sb : List SbEntry
  mx : List MxOp
  pipes : Sparse Nat
  books : Sparse Book
  reclaims : List Reclaim
  deriving DecidableEq, Repr

/-- reserving: a share of units of a RESIDENT block that is not whole yet (R383); arriving: its units are given, and a
reclaim may still be taking them; clearing: its L1 ways are; gathered: it waits for the start of its launch; refilling: its
spilled units are given again (R198). -/
inductive BlockState where
  | reserving | arriving | gathered | clearing | running | halted | refilling | saved | ending
  deriving DecidableEq, Repr

/-- A block on a core, or one saved from it (R177, R256, R269). ways are the write-backs of cleared ways and the frame
writes that it awaits. -/
structure Block where
  ticket : Nat
  regime : Regime
  queue : Nat
  linear : Nat
  bx : Nat
  by_ : Nat
  bz : Nat
  core : Nat
  slots : List Nat
  groups : List Nat
  borrowed : List CoreUnit
  g0 : Nat
  grans : Nat
  d : Nat
  c : Nat
  opslots : List Nat
  /-- R188: the troupe index that holds each slot of the block's view. -/
  claims : Sparse Nat
  state : BlockState
  arrived : Nat
  ways : List Nat
  haltedAt : Nat
  spill : List CoreUnit
  frames : List Nat
  gwct : Nat
  lost : Bool
  deriving DecidableEq, Repr

/-- One lane's part of a memory access: lane, byte address (device-physical, or scratchpad byte of a core), first
register, value and compare value, and whether the value is poisoned. -/
structure LaneAcc where
  lane : Nat
  addr : Nat
  val : Nat
  cmp : Nat
  poison : Bool
  deriving DecidableEq, Repr

inductive MemKind where
  | load (taint : Bool)
  | store
  | atomic (op : AtomOp)
  | cas
  | red (op : AtomOp)
  /-- A write-back of an L1 line; keep: a VALID copy stays (R291). -/
  | writeBack (keep : Bool)
  | prefetch
  /-- Bytes that their owner takes itself: a buffer record (R157), what an engine reads (R246, R251). -/
  | record
  /-- R248: REDUCE_ADD with its format. -/
  | reduce (fmt : Nat)
  /-- R297: LR and SC of a hart. -/
  | lr
  | sc
  deriving DecidableEq, Repr

/-- Who gets the reply of an operation. -/
inductive Owner where
  | troupe (key : Nat)
  | chain (id : Nat)
  | core (i : Nat)
  | hart (h : Nat)
  /-- A request of another module (R444), by its number. -/
  | peer (id : Nat)
  /-- The ringmaster, the GRC, an NI or another engine of a slice, that waits for nothing. -/
  | engine (slice : Nat)
  deriving DecidableEq, Repr

/-- How far the accesses to one line have come: on their way; given their tick P; read; or done. -/
inductive PartState where
  | sent
  | fixed (p : Nat) (acked performed : Bool)
  | sampled
  | done
  deriving DecidableEq, Repr

/-- The accesses of one operation to one 64-byte line, with its virtual line address where it was translated and the
ASTAG they carry. fill is the copy a read may install: its expiry, none for an INF lease. writable: the page's own
translation would permit a write, so an INF lease becomes LONG (R155). -/
structure Part where
  line : Nat
  va : Option Nat
  tag : Nat
  accs : List LaneAcc
  state : PartState
  out : List LaneAcc
  fill : Option (Option Nat)
  writable : Bool
  deriving DecidableEq, Repr

/-- An accepted memory operation, in flight (R162). block is the issuing block, lease the class asked for (0 SHORT to 3
INF), hint that of R51, target the block whose scratchpad it reaches, over the crossbar or as its own; a part of such an
operation has the swizzle code for its line. -/
structure MemOp where
  owner : Owner
  kind : MemKind
  width : Width
  dst : Option Reg
  core : Nat
  block : Nat
  regime : Regime
  scope : Nat
  lease : Nat
  hint : Nat
  target : Option Nat
  parts : List Part
  counted : Bool
  deriving DecidableEq, Repr

inductive TsKind where
  | add | fetch | max | read | set
  deriving DecidableEq, Repr

/-- R230, R231: held for earlier accesses, then for write-backs; on its way; refused with RETRY, to be sent
again (R162); deferred at its home; applied. -/
inductive TsStage where
  | held | releasing | sent | refused | deferred | applied
  deriving DecidableEq, Repr

/-- A turnstile operation (R230 to R234). -/
structure TsOp where
  owner : Owner
  kind : TsKind
  loc : TsLoc
  name : Option TsName
  amt : W64
  scope : Nat
  dst : Option SReg
  stage : TsStage
  nb : Nat
  /-- The memory operations that must complete before a held release is sent. -/
  after : List Nat
  acked : Bool
  reply : Option (W64 × Bool)
  vf : Nat
  part : Nat
  deriving DecidableEq, Repr

/-- The rings of a slice (R347, R351). -/
inductive Ring where
  | vfFault (vf : Nat)
  | kFault
  | vfService (vf : Nat)
  | kService
  deriving DecidableEq, Repr

/-- Work that a release holds back until its conditions hold (R231), other than a turnstile operation. -/
inductive HeldWork where
  | sysWrite (slice unit reg : Nat) (val : W64)
  | launch (addr : Nat)
  | ecall (slice : Nat) (ring : Ring) (words : List W64)
  /-- R353: every access accepted before this number under a dropped entry; R354. -/
  | tlbinv (kind : TlbKind) (part vf : Nat)
  | rdcinv
  /-- R283: the lines to anchor for a VF, and what each slice reserved. -/
  | pin (vf : Nat) (lines : List Nat) (room : List (Nat × Nat))
  /-- R352: a register read on its way to its target. -/
  | sysRead (part slice unit reg : Nat) (priv : Priv)
  /-- R252, R285, R394: what an engine, a home or the ringmaster is asked, and answers from what it then keeps. -/
  | cpstat (sel : W64)
  | pinq (slice : Nat)
  | qstat (queue : Nat) (what : QstatWhat)
  /-- R284: lines whose anchor of a VF goes as the request reaches their slices. -/
  | unpin (vf : Nat) (lines : List Nat)
  /-- An answer on its way, and one of the network interface, with which NI falls (R439, R441). -/
  | answer (val : W64)
  | niAnswer (val : W64)
  /-- The payload is copied and NI falls (R439); sclaim and srel are done and MX falls (R204). -/
  | niEnd
  | mxEnd
  deriving DecidableEq, Repr

/-- A reply that a troupe waits for in an s register. -/
structure Request where
  troupe : Nat
  d : SReg
  poison : Bool
  work : Option HeldWork
  stage : TsStage
  nb : Nat
  after : List Nat
  status : W64
  deriving DecidableEq, Repr

inductive ChainState where
  | queued | active | ended
  deriving DecidableEq, Repr

/-- How far the walk of a chain is with its record (R246). -/
inductive ChainPhase where
  /-- To be read; its read, its completion turnstile to be named, its predicate's read, by their operations; to be
  checked. -/
  | fetch
  | record (op : Nat)
  | named
  | predicate (op : Nat)
  | begin
  /-- Its elements are on their way from the source; from the next one on to the destination; written; its status; its
  completion add; over. -/
  | move (op : Option Nat)
  | moving (op : Option Nat) (next : Nat)
  | write
  | status
  | add
  | over
  deriving DecidableEq, Repr

/-- R242 to R252: a copy chain. status is that of the record in hand, fixed its completion turnstile where R227 passed,
last the record last read, startNo the number of the model that divides what was accepted before the record began. -/
structure Chain where
  troupe : Nat
  block : Nat
  core : Nat
  num : BitVec 16
  regime : Regime
  addr : Nat
  last : Nat
  state : ChainState
  phase : ChainPhase
  words : List W64
  status : BitVec 8
  done : Option (TsLoc × Option TsName)
  endCode : BitVec 8
  aborting : Bool
  stopAfter : Bool
  gwct : Nat
  adds : List Nat
  ops : List Nat
  startNo : Nat
  served : Nat
  counted : Bool
  deriving DecidableEq, Repr

/-- A codebook load (R251), with its read once it has begun. -/
structure BookLoad where
  troupe : Nat
  core : Nat
  block : Nat
  store : Nat
  addr : Nat
  d : SReg
  poison : Bool
  op : Option Nat
  deriving DecidableEq, Repr

/-- R249: a contribution of an ORDERED REDUCE_ADD to one line. -/
structure Contrib where
  chain : Nat
  part : Part
  fmt : Nat
  width : Width
  key : Nat
  count : Nat
  since : Nat
  deriving DecidableEq, Repr

/-- R249: ordering state of a line. -/
structure Ordering where
  next : Nat
  applied : Nat
  held : List Nat
  deriving DecidableEq, Repr

/-- Who waits at a turnstile. -/
inductive WaiterOf where
  | troupe (key cond : Nat)
  | port (hart page cond : Nat)
  | join (ticket : Nat)
  | producer (part queue : Nat)
  | resume (saved : Nat)
  deriving DecidableEq, Repr

/-- R237: a condition waited for: listed at its home, with its place in the listing order, or polled. reports are values
on their way back, with the tick of arrival and poison. woken: the entry of a halted troupe, which it keeps until it
resumes (R192). -/
structure Waiter where
  who : WaiterOf
  loc : TsLoc
  name : Option TsName
  vf : Nat
  part : Nat
  threshold : W64
  listed : Option Nat
  polled : Bool
  woken : Bool
  reports : List (Nat × W64 × Bool)
  deriving DecidableEq, Repr

/-- R276: a write whose P has been fixed and lies ahead. -/
structure WaitingWrite where
  op : Nat
  line : Nat
  p : Nat
  deriving DecidableEq, Repr

/-- R289: a request waiting at a channel; ts: a COUNTER line for the turnstile unit. -/
structure ChanReq where
  vf : Option Nat
  line : Nat
  write : Bool
  ts : Bool
  deriving DecidableEq, Repr

/-- R289: a memory channel. -/
structure Channel where
  queue : List ChanReq
  last : List Bool
  lastVf : Nat
  deriving DecidableEq, Repr

/-- R273: an L2 line, by its line number; its data is the memory's. -/
structure L2Line where
  vf : Nat
  dirty : Bool
  used : Nat
  deriving DecidableEq, Repr

/-- R186, R265: where a pinned line stands, and the regime and virtual line address it was pinned by. -/
structure PinAt where
  core : Nat
  holder : Holder
  regime : Regime
  va : Option Nat
  deriving DecidableEq, Repr

/-- R306: a unit under test: when its error was found, in which line, and the VF whose request met it; whether it was a
repeated correctable error, and whether another error was found during the test. -/
structure UnitTest where
  found : Nat
  line : Option Nat
  vf : Option Nat
  corrected : Bool
  again : Bool
  deriving DecidableEq, Repr

/-- R279: a copy in the RDC of a slice: its expiry, none for an INF lease, and its last use. -/
structure RdcLine where
  expiry : Option Nat
  used : Nat
  deriving DecidableEq, Repr

/-- Memory and what the homes keep. Tables by line use the line number, device-physical address / 64. -/
structure Homes where
  /-- Memory by device-physical address; an unlisted byte reads 0 (the zero state of R331). -/
  mem : List Host.Cell
  linePoison : KeySet
  /-- The ASTAG a line was last written under; an unlisted line is in the zero state. -/
  astag : Sparse Nat
  lease : Sparse Nat
  floor : Sparse Nat
  prevP : Sparse Nat
  waiting : List WaitingWrite
  inf : Sparse (BitVec 16)
  recalls : Sparse (BitVec 16)
  /-- R325: the lines under which INF copies of a migrated line may still be held. -/
  was : Sparse KeySet
  /-- R278: writes that arrived and wait for the RECALLs of their line, by operation and line, in order of arrival. -/
  held : List (Nat × Nat)
  pins : Sparse PinAt
  anchors : Sparse (BitVec 32)
  ordering : Sparse Ordering
  l2 : Sparse L2Line
  channels : Sparse Channel
  tsPoison : KeySet
  tsLines : Sparse Nat
  rdc : Sparse RdcLine
  testing : Sparse UnitTest
  deriving DecidableEq, Repr

/-- A 4 KiB translation kept by the SIMT cores, the ringmaster or an engine (R343). -/
structure TlbEntry where
  regime : Regime
  asid : Nat
  page : Nat
  gpage : Nat
  ppage : Nat
  astag : Nat
  r : Bool
  w : Bool
  x : Bool
  counter : Bool
  c1 : Bool
  r2 : Bool
  w2 : Bool
  x2 : Bool
  u : Bool
  deriving DecidableEq, Repr

inductive HartMode where
  | m | hs | u | vs | vu
  deriving DecidableEq, Repr

/-- R297: a store buffer entry, with its line's virtual address and the regime its stores were made in. -/
structure SbufEntry where
  line : Nat
  bytes : Sparse Byte
  astag : Nat
  va : Nat
  regime : Regime
  deriving DecidableEq, Repr

/-- R300, R301: a waiter port page; vf is that of its last CTL store, 32 outside a guest. -/
structure Port where
  desig : Sparse W64
  thresh : Sparse W64
  ctl : W64
  stat : W64
  wait : Option WaitState
  vf : Nat
  deriving DecidableEq, Repr

/-- A hart (R296). x, f and csr read 0 where unlisted; x0 always reads 0. icache holds the bytes of the lines fetched (R280,
R297); half: the instruction in hand is one of two bytes. -/
structure Hart where
  x : Sparse W64
  f : Sparse W64
  csr : Sparse W64
  pc : W64
  mode : HartMode
  started : Bool
  sbuf : List SbufEntry
  gwct : Nat
  reservation : Option Nat
  icache : Sparse (BitVec 512)
  dcache : Sparse Nat
  tlb : List TlbEntry
  imsic : Sparse KeySet
  ports : Sparse Port
  outstanding : List Nat
  half : Bool
  deriving DecidableEq, Repr

inductive QState where
  | off | active | error
  deriving DecidableEq, Repr

/-- R365, R367: a registered queue. -/
structure Queue where
  entry : List W64
  state : QState
  reason : Nat
  ci : W64
  busy : Bool
  deriving DecidableEq, Repr

inductive TicketState where
  | waiting | ready | placing | running | complete
  deriving DecidableEq, Repr

/-- R370 to R374: a fetched or launched ticket. -/
structure Ticket where
  part : Nat
  queue : Nat
  addr : Nat
  words : List W64
  state : TicketState
  placed : Nat
  live : Nat
  status : BitVec 8
  readyAt : Nat
  order : Nat
  startTick : Option Nat
  gwct : Nat
  joined : Bool
  deriving DecidableEq, Repr

/-- What is saved off its core (R350, R390): a troupe saved for a page fault, with the cause the handler may deliver and
its clause's lanes, or halted in its slot for want of a frame; a troupe halted after DOUBLE_TRAP, in its slot; a troupe
whose slot a reclaim took (R197); a troupe of a block saved whole. -/
inductive SavedKind where
  | fault (cause : BitVec 8) (inPlace : Bool)
  | doubleTrap
  | spilled
  | whole
  deriving DecidableEq, Repr

/-- A saved troupe or block awaiting its resume (R349, R389). -/
structure Saved where
  kind : SavedKind
  part : Nat
  queue : Nat
  block : Nat
  key : Nat
  troupe : Troupe
  frame : Nat
  frameIdx : Option Nat
  /-- The resume turnstile, and the action word by the address that the ring names it by (R347). -/
  loc : Option (TsLoc × Option TsName)
  threshold : W64
  action : Nat
  ring : Option Ring
  actionAddr : Nat
  delivered : Bool
  ready : Bool
  placed : Bool
  slice : Nat
  /-- The writes of its frame that are on their way. -/
  ops : List Nat
  deriving DecidableEq, Repr

/-- R348: an undelivered ring entry, oldest first in its list. -/
structure RingEntry where
  id : Nat
  slice : Nat
  part : Nat
  ring : Ring
  words : List W64
  saved : Option Nat
  caller : Option Nat
  deriving DecidableEq, Repr

inductive SnapState where
  | idle | arming | copying
  deriving DecidableEq, Repr

/-- R395, R396. -/
structure Snapshot where
  state : SnapState
  cut : Nat
  /-- Source lines already copied; every other line of the source band is marked while COPYING. -/
  copied : KeySet
  gwct : Nat
  deriving DecidableEq, Repr

/-- freezing reads as COPY: the source refuses accesses, and writes it admitted before are still to be performed. -/
inductive MigState where
  | idle | copy | freezing | frozen
  deriving DecidableEq, Repr

/-- R358, R359: a migration channel. -/
structure Migration where
  state : MigState
  /-- First device-physical byte of source and destination, and the bytes. -/
  src : Nat
  dst : Nat
  size : Nat
  marked : KeySet
  passes : Nat
  part : Nat
  deriving DecidableEq, Repr

/-- A partition and its ringmaster (R327, R364). -/
structure Partition where
  smask : BitVec 16
  calSlots : KeySet
  running : Bool
  imageDigest : BitVec 512
  pshare : Nat
  calendar : Sparse Byte
  calNext : Option (Sparse Byte)
  tu : Sparse Int
  eu : Sparse Int
  events : Sparse Nat
  pass : Sparse (BitVec 32)
  hadCand : KeySet
  lastVf : Sparse Nat
  lastq : Sparse Nat
  framesUsed : Sparse KeySet
  gathering : Option Nat
  /-- R417: the command in progress with its index, and what the GRC writes for it. -/
  mailbox : Option (Nat × Nat)
  mailOps : List Nat
  snap : Snapshot
  exports : Sparse W64
  health : Sparse Byte
  /-- The version of the map in force, the advances still to come, and the slices that were lost (R398, R428). -/
  tmapV : Nat
  tmapTodo : Nat
  dead : BitVec 16
  round : Nat
  sched : Sparse W64
  /-- R367: a command of QCMD is in progress. -/
  qcmd : Bool
  deriving DecidableEq, Repr

inductive PClass where
  | req | rsp | recall | msg | gtd
  deriving DecidableEq, Repr

/-- Where a packet stands: at a place of the fabric (leaf, edge, middle, top), numbered as R421. -/
inductive Place where
  | leaf (i : Nat)
  | edge (i : Nat)
  | middle (i : Nat)
  | top (i : Nat)
  | outside (slice link : Nat)
  deriving DecidableEq, Repr

/-- A message (R437, R439). module is where it goes, or, for one of another module's, 2,048 and the number of that module;
eth names the entry of the Ethernet peer table. -/
structure Message where
  troupe : Nat
  d : SReg
  poison : Bool
  module : Nat
  core : Nat
  vf : Nat
  kernel : Bool
  part : Nat
  ring : Nat
  dstSlice : Nat
  route : List W64
  seq : Nat
  bytes : List Byte
  bytePoison : KeySet
  status : Option W64
  gtd : Bool
  eth : Option Nat
  sent : Bool
  deriving DecidableEq, Repr

/-- The events the machine raises itself, by the names of their constructors of Instr (log entry 2). -/
inductive Ev where
  | clauseIssue (core slot : Nat)
  | pipeGrant (core : Nat)
  | stallRelease (core slot : Nat)
  | loadDataReturn (op line : Nat)
  | gwctReceive (op line : Nat)
  | troupeEnd (core slot : Nat)
  | sleepWake (core slot : Nat)
  | blockArrival (block : Nat)
  | unitZero (core : Nat)
  | blockStart (block : Nat)
  | blockEnd (block : Nat)
  | pinRegistration (op line : Nat)
  | pinnedForcedWriteback (core line : Nat)
  | retry (op line : Nat)
  | reclaim (block : Nat)
  | spill (block : Nat)
  | refill (block : Nat)
  | cquotaWrite (slice core vf : Nat) (val : W64) (req : Nat)
  | turnstilePoll (waiter : Nat)
  | matrixPeriodStart (core : Nat)
  | matrixWriteback (core : Nat)
  | slotPortStart (core : Nat)
  | slotPortEnd (core : Nat)
  | turnstileOpArrival (op : Nat)
  | deferredOpApply (op : Nat)
  | turnstileAcknowledgement (op : Nat)
  | wakeReceive (waiter : Nat)
  | waitTimeout (core slot : Nat)
  | heldReleaseSend (op : Nat)
  | fenceComplete (core slot : Nat)
  | waitoutComplete (core slot : Nat)
  | chainStart (core : Nat)
  | recordRead (chain : Nat)
  | recordMoveEnd (chain : Nat)
  | completionAdd (chain : Nat)
  | chainEnd (chain : Nat)
  | cbloadEnd (load : Nat)
  | reduceContribution (contrib : Nat)
  | heldContributionTimeout (line : Nat)
  | xbarRequest (op : Nat)
  | xbarSpillRetry (op : Nat)
  | redirectedAccess (op line : Nat)
  | residentGangStart (ticket : Nat)
  | homeWrite (op line : Nat)
  | homeRead (op line : Nat)
  | recall (slice line : Nat)
  | recallAck (line : Nat)
  | channelTransfer (slice channel : Nat)
  | l2pinqWrite (slice vf : Nat) (val : W64) (req : Nat)
  | sltokWrite (slice vf : Nat) (val : W64) (req : Nat)
  | hartStoreDrain (h : Nat) (line : Nat)
  | portCtlWrite (h port : Nat) (val : W64)
  | portCancelWrite (h port : Nat)
  | portWaitEnd (h port : Nat)
  | contextSave (core slot : Nat)
  | ringEntryDelivery (slice : Nat)
  | troupeRestore (saved : Nat)
  | vfcfgWrite (slice vf : Nat) (val : W64) (req : Nat)
  | vfReset (slice vf : Nat) (val : W64) (req : Nat)
  | vfResetComplete (part vf : Nat)
  | migStart (slice chan : Nat) (val : W64) (req : Nat)
  | migEnd (slice chan : Nat) (req : Nat)
  | migAbort (slice chan : Nat) (req : Nat)
  | migrationPass (slice chan : Nat)
  | addslice (part : Nat)
  | remslice (part : Nat)
  | setband (part : Nat)
  | clrband (part : Nat)
  | attest (part : Nat)
  | tlbinvComplete (req : Nat)
  | rdcinvComplete (req : Nat)
  | pinComplete (req : Nat)
  /-- Lines that a walk or an instruction fetch read at their homes for a VF of a partition, 32 for none, and for a walk
  whether each was poisoned (R273, R280, R288, R341). -/
  | homeReads (part vf : Nat) (lines : List (Nat × Bool))
  /-- R324: a receiver acknowledges a message of a cache bank. -/
  | bankAck (pair : Nat)
  /-- R283, R284: a pin's reservation, or an unpin, reaches a slice. -/
  | pinArrive (req slice : Nat)
  | qcmdEnable (slice : Nat) (val : W64) (req : Nat)
  | qcmdDisable (slice : Nat) (val : W64) (req : Nat)
  | calendarLoad (slice : Nat) (req : Nat)
  | ticketFetch (part queue : Nat)
  | ticketReady (ticket : Nat)
  | placement (slice : Nat)
  | ticketComplete (ticket : Nat)
  | calendarSlotStart
  | calendarPeriodStart
  | roundStart (part : Nat)
  | wholeBlockSave (block : Nat)
  | snapshotStart (slice : Nat) (val : W64) (req : Nat)
  | snapshotAbort (slice : Nat) (req : Nat)
  | snapshotCut (part : Nat)
  | snapshotComplete (part : Nat)
  | sliceLoss (slice : Nat)
  | powerOn
  /-- R405: steps 4 to 6 of boot, once the self-tests of step 3 have ended. -/
  | bootBuild
  | pwrcapWrite (slice : Nat) (val : W64) (req : Nat)
  | nirtLoad (slice : Nat) (val : W64) (req : Nat)
  | xptblLoad (slice : Nat) (val : W64) (req : Nat)
  | peerrtLoad (slice : Nat) (val : W64) (req : Nat)
  | switchForward (packet : Nat)
  | messageDelivery (packet : Nat)
  | messageStatusReply (msg : Nat)
  | sequenceSkip (seq : Nat)
  | niMaskRefresh (part : Nat)
  | packetReturn (packet : Nat)
  | flowResendTimeout (flow seq : Nat)
  | systemRegisterWrite (slice unit reg : Nat) (val : W64) (req : Nat)
  | sstcTimer (h : Nat) (virt : Bool)
  /-- A hart's next instruction, or the interrupt that it takes instead (R296, R302). -/
  | hartRun (h : Nat)
  deriving DecidableEq, Repr

/-- What a packet carries: a message, an access to a line or a turnstile of another module, a poll of one, or a
packet in transit between modules; event: a memory packet held because of its route (R426), and what its arrival is. -/
inductive Load where
  | event (e : Ev) (word : W64)
  | msg (id : Nat)
  | mem (op line : Nat)
  | ts (op : Nat)
  | poll (waiter : Nat)
  | transit (pkt : Nat)
  deriving DecidableEq, Repr

/-- A packet in the fabric (R422, R424). slotNo is one more than the number of the slot it was injected in, and flow and
num its place in a flow; 0 before. -/
structure Packet where
  cls : PClass
  base : PClass
  words : List W64
  cur : Nat
  hop : Nat
  trail : List W64
  place : Place
  slotNo : Nat
  load : Load
  srcLeaf : Nat
  dstLeaf : Nat
  part : Nat
  vf : Nat
  flow : Nat
  num : Nat
  returning : Bool
  held : Bool
  deriving DecidableEq, Repr

/-- R453: a sequence of messages, at its source and at its receiver; waiting has each early message's number, tick of
arrival and packet. -/
structure Sequence where
  core : Nat
  module : Nat
  dstSlice : Nat
  ring : Nat
  nextNo : Nat
  unanswered : Nat
  expected : Nat
  waiting : List (Nat × Nat × Nat)
  deriving DecidableEq, Repr

/-- R445: a packet kept until it is acknowledged, how often it was sent, and when it is sent again. -/
structure FlowCopy where
  pkt : Packet
  sends : Nat
  due : Nat
  deriving DecidableEq, Repr

/-- R445, R446: a flow to another module, with its copies by number; a kernel flow has VF 32. -/
structure Flow where
  slice : Nat
  module : Nat
  vf : Nat
  epoch : Nat
  nextNo : Nat
  copies : Sparse FlowCopy
  resetSent : Bool
  deriving DecidableEq, Repr

/-- R445: the receive side of a flow. -/
structure RxFlow where
  slice : Nat
  smod : Nat
  flow : Nat
  epoch : Nat
  expected : Nat
  window : KeySet
  deriving DecidableEq, Repr

/-- What leaves the module: a request on a Delurxia link or, in device transport, by Ethernet; a packet that passes through;
a frame; a reply; a packet turned round; FLOW_RESET and its acknowledgement. -/
inductive Outgoing where
  | request (slice link : Nat) (words : List W64) (m : PeerMsg)
  | eth (slice peer : Nat) (m : PeerMsg)
  | through (slice link pkt : Nat)
  | frame (slice : Nat) (bytes : List Byte)
  | reply (m : PeerMsg) (data : List Byte) (poison : Bool)
  | turned (pkt : Nat)
  | resetAck (smod flow epoch : Nat)
  | flowReset (module flow epoch : Nat)
  deriving DecidableEq, Repr

/-- R324: what a cache bank keeps for a receiver: the number of its next message, those not acknowledged, and those that
wait for the window, in order, each with its leaves, its class and the event of its arrival. -/
structure BankPair where
  next : Nat
  out : Nat
  waiting : List (Nat × Nat × PClass × Ev)
  deriving DecidableEq, Repr

/-- R434: replay bookkeeping of a link. -/
structure LinkErr where
  fails : Nat
  replays : List Nat
  testing : Bool
  deriving DecidableEq, Repr

/-- The fabric (R420 to R453). health reads as R427 gives where unlisted: 0 inside the package, 3 outside. outbox is what
has left the module, in order; pending are the requests of other modules at work here. -/
structure Fabric where
  health : Sparse Byte
  links : Sparse LinkErr
  peers : Sparse W64
  routes : Sparse W64
  peerRoutes : Sparse W64
  packets : Sparse Packet
  messages : Sparse Message
  seqs : List Sequence
  flows : Sparse Flow
  rxFlows : List RxFlow
  outbox : List Outgoing
  pending : Sparse PeerMsg
  niUsed : Sparse Nat
  pairs : Sparse BankPair
  deriving DecidableEq, Repr

/-- R307, R412: the GRC's log: the record of a lasting fault with its device-physical address, and a thermal trip. -/
inductive LogEntry where
  | fault (slice : Nat) (record : BitVec 256) (dpa : Nat)
  | trip (slice sensor tick : Nat)
  deriving DecidableEq, Repr

/-- R405: a firmware image, by its digest and version. -/
structure Firmware where
  digest : BitVec 512
  version : Nat
  deriving DecidableEq, Repr

/-- R404: what the GRC's flash keeps. -/
structure Flash where
  image0 : Firmware
  image1 : Firmware
  antiRollback : Nat
  manifest : Option Manifest
  retired : List (Nat × Retired)
  log : List LogEntry
  deriving DecidableEq, Repr

/-- Board and GRC (R404 to R418). -/
structure Platform where
  power : Bool
  inReset : Bool
  bootFail : List Nat
  flash : Flash
  /-- The digest of the firmware that runs. -/
  firmware : BitVec 512
  module : Nat
  powerLevel : Sparse Nat
  thermalLevel : Sparse Nat
  /-- R80: by slice, the tick of the last change of its clock and its clocks, in 64ths, by then. -/
  clockBase : Sparse (Nat × Nat)
  temps : Sparse Nat
  aplic : Sparse KeySet
  /-- R328: requests that a firewall refused. -/
  refusals : Nat
  /-- R345: FIREWALL causes. -/
  causes : Nat
  dropped : Nat
  lost : BitVec 16
  errors : Sparse (Nat × Nat)
  deriving DecidableEq, Repr

/-- What a troupe at issue is: its core and slot. -/
structure TKey where
  core : Nat
  slot : Nat
  deriving DecidableEq, Repr

/-- What the outside brings next (log entry 2): an event, or the passing of a tick. -/
inductive Act where
  | event (i : Instr)
  | tick
  deriving DecidableEq, Repr

/-- Everything in flight, by number. -/
structure Flight where
  nextId : Nat
  mem : Sparse MemOp
  ts : Sparse TsOp
  reqs : Sparse Request
  chains : Sparse Chain
  books : Sparse BookLoad
  contribs : Sparse Contrib
  waiters : Sparse Waiter
  guesses : List Guess
  deriving DecidableEq, Repr

/-- Partitions, queues and what they have in hand. -/
structure Package where
  parts : Sparse Partition
  queues : Sparse Queue
  tickets : Sparse Ticket
  saved : Sparse Saved
  ring : List RingEntry
  delivered : KeySet
  tlb : List TlbEntry
  migs : Sparse Migration
  deriving DecidableEq, Repr

/-- The module. tick is the one tick of every slice: R3 lets the slices' ticks differ by up to 2, and the model keeps no
skew between them (DESIGN CHOICE, log entry 11). -/
structure State where
  /-- Reference ticks since module reset (R8, R80). -/
  tick : Nat
  /-- The model's own: agenda, work in progress, the troupe at issue, the counter of free values, order of events. -/
  agenda : List Act
  todo : List Ev
  /-- Events that come at a later tick, with that tick. -/
  timers : List (Nat × Ev)
  current : Option TKey
  fresh : Nat
  seq : Nat
  /-- Troupes in their slots by 32 * core + slot; blocks by number; cores 0 to 127, as Core.empty where unlisted. -/
  troupes : Sparse Troupe
  blocks : Sparse Block
  cores : Sparse Core
  flight : Flight
  homes : Homes
  /-- System registers by slice, unit and number; unlisted ones read their reset value (R351, R366, R410, R413). -/
  regs : Sparse W64
  harts : Sparse Hart
  pkg : Package
  fab : Fabric
  plat : Platform
  deriving DecidableEq, Repr

/-! Reset. -/

def LaneRegs.zero : LaneRegs := ⟨[], [], [], [], [], []⟩
def UniRegs.zero : UniRegs := ⟨[], 0, 0, []⟩
def Counters.zero : Counters := ⟨0, 0, 0, 0, 0, 0⟩
def TrapState.zero : TrapState := ⟨0, 0, 0, 0, 0, false, false, [], .successor⟩
def Core.empty : Core := ⟨[], [], [], [], [], [], [], [], [], [], [], [], [], [], []⟩
/-- R300: STAT is IDLE. -/
def Port.idle : Port := ⟨[], [], 0, 8, none, 32⟩
/-- Registers the spec gives no reset value read 0 (log entry 15). -/
def Hart.reset : Hart := ⟨[], [], [], 0, .m, false, [], 0, none, [], [], [], [], [], [], false⟩
def Flight.none : Flight := ⟨1, [], [], [], [], [], [], [], []⟩
/-- Memory in the zero state; the homes hold nothing (R331, R405; log entry 14). -/
def Homes.reset : Homes := ⟨[], [], [], [], [], [], [], [], [], [], [], [], [], [], [], [], [], [], [], []⟩
def Package.none : Package := ⟨[], [], [], [], [], [], [], []⟩
def BankPair.idle : BankPair := ⟨0, 0, []⟩
def Fabric.reset : Fabric := ⟨[], [], [], [], [], [], [], [], [], [], [], [], [], []⟩
/-- Flash as delivered holds no manifest and no retired unit (log entry 17). -/
def Flash.empty : Flash := ⟨⟨0, 0⟩, ⟨0, 0⟩, 0, none, [], []⟩
def Platform.reset : Platform := ⟨true, true, [], Flash.empty, 0, 0, [], [], [], [], [], 0, 0, 0, 0, []⟩

/-- The module right after reset: power is on, every slice is held in reset (R404, R405 step 1), and the boot
steps stand first among the events to come (log entry 2). -/
def State.reset : State :=
  ⟨0, [], [.powerOn], [], none, 0, 0, [], [], [], Flight.none, Homes.reset, [], [], Package.none, Fabric.reset,
    Platform.reset⟩

end Sys2Proof.Machine
end

