-- ==== Sys2Proof/Machine/Memory.lean ====
section
/-! DEFINITION. Memory by device-physical address with its poison and ASTAG rules, the maps from partition-physical
to device-physical addresses, system registers, and translation (R331 to R344). -/

namespace Sys2Proof.Machine

/-! Memory bytes. An unlisted byte reads 0 (R331). -/

def memDefault : Byte := 0

def Memory.wf (m : List Host.Cell) : Bool := canonical memDefault m

def memByte (m : List Host.Cell) (a : Nat) : Byte := sget memDefault a m

def setByte (m : List Host.Cell) (a : Nat) (b : Byte) : List Host.Cell := sput memDefault a b m

def memBytes (m : List Host.Cell) (a n : Nat) : List Byte := (List.range n).map fun i => memByte m (a + i)

def setBytes (m : List Host.Cell) (a : Nat) : List Byte → List Host.Cell
  | [] => m
  | b :: t => setBytes (setByte m a b) (a + 1) t

def memVal (m : List Host.Cell) (a n : Nat) : Nat := leVal (memBytes m a n)

def lineOf (a : Nat) : Nat := a / 64

/-- R331: whether a read of a line under an ASTAG returns poison. -/
def Homes.badRead (h : Homes) (line astag : Nat) : Bool :=
  kmem line h.linePoison ||
  (match sfind line h.astag with
   | none => false
   | some t => decide (t ≠ astag))

/-- R303, R331: bytes written to one line as one write, with the writer's ASTAG and poison. A narrower write under
another ASTAG poisons the line; a clean write of all 64 bytes clears poison and takes the tag. full: the write is of a
kind that can replace a line; a store of a hart or an atomic never is. -/
def Homes.writeLine (h : Homes) (line astag : Nat) (bs : List (Nat × Byte)) (poison full : Bool) : Homes :=
  let whole := full && decide (64 ≤ (toKeys (bs.map (·.1))).length)
  let old := sfind line h.astag
  let tagOk := match old with | none => true | some t => decide (t = astag)
  let m := bs.foldl (fun m e => setByte m e.1 e.2) h.mem
  let lp :=
    if poison then true
    else if whole then false
    else kmem line h.linePoison || !tagOk
  let tag := if tagOk || (whole && !poison) then astag else old.getD astag
  { h with mem := m, linePoison := kset line lp h.linePoison, astag := sset line tag h.astag }

/-! System registers. -/

def regKey (slice unit reg : Nat) : Nat := slice * 2 ^ 20 + unit * 2 ^ 12 + reg

/-- R366, R413: the registers whose reset value is not 0. -/
def regReset (unit reg : Nat) : W64 :=
  if unit = 0 ∧ reg = 0xC8 then 1
  else if unit = 0 ∧ reg = 0x73 then BitVec.ofNat 64 (90 * 2 ^ 56 + 700 * 2 ^ 40 + 800 * 2 ^ 24)
  else 0

def State.reg (s : State) (slice unit reg : Nat) : W64 := sget (regReset unit reg) (regKey slice unit reg) s.regs

def State.setReg (s : State) (slice unit reg : Nat) (v : W64) : State :=
  { s with regs := sput (regReset unit reg) (regKey slice unit reg) v s.regs }

def bitSet16 (m : BitVec 16) : List Nat := (List.range 16).filter fun i => m.getLsbD i

/-- The partition that holds a slice (R327). -/
def State.partOf (s : State) (slice : Nat) : Option Nat :=
  ((s.pkg.parts.find? fun e => e.2.smask.getLsbD slice).map (·.1))

def State.smask (s : State) (part : Nat) : BitVec 16 :=
  match sfind part s.pkg.parts with
  | some p => p.smask
  | none => 0

/-- A register of R366, R410, R417 or R429 that reads alike in every slice of the partition. -/
def State.setPartReg (s : State) (part reg : Nat) (v : W64) : State :=
  (bitSet16 (s.smask part)).foldl (fun s sl => s.setReg sl 0 reg v) s

/-- The lowest slice of a partition, where a register that reads alike everywhere is read. -/
def State.firstSlice (s : State) (part : Nat) : Nat := (bitSet16 (s.smask part)).headD 0

/-- Slice of a core (R335, R254), core numbers x + 16y. -/
def coreSlice (core : Nat) : Nat := core % 16 / 4 + 4 * (core % 128 / 32)
def coreUnit (core : Nat) : Nat := 1 + core % 16 % 4 + 4 * (core / 16 % 2)
def coreAt (slice unit : Nat) : Nat :=
  (4 * (slice % 4) + (unit - 1) % 4) + 16 * (2 * (slice / 4) + (unit - 1) / 4)
/-- R254: cluster of a core and its selector within it. -/
def cluster (core : Nat) : Nat := core % 16 / 2 + 8 * (core % 128 / 32)
def csel (core : Nat) : Nat := core % 2 + 2 * (core / 16 % 2)
def clusterCore (cl sel : Nat) : Nat := 2 * (cl % 8) + sel % 2 + 16 * (2 * (cl / 8) + sel / 2)

/-! Partition-physical to device-physical (R333 to R335, R442). -/

/-- Where a partition-physical address leads. -/
inductive PhysTo where
  | mem (dpa : Nat)
  | register (slice unit reg : Nat)
  | port (hart page off : Nat)
  | peer
  | none
  deriving DecidableEq, Repr

structure Band where
  smask : BitVec 16
  pbase : Nat
  size : Nat
  lbase : Nat
  deriving DecidableEq, Repr

def bandOf (a b : W64) : Option Band :=
  if a.getLsbD 0 then
    some ⟨a.extractLsb' 48 16, (a.extractLsb' 30 18).toNat, (a.extractLsb' 12 18).toNat, (b.extractLsb' 0 15).toNat⟩
  else none

def State.bands (s : State) (part : Nat) : List Band :=
  (List.range 16).filterMap fun i =>
    bandOf (s.reg (s.firstSlice part) 0 (0x50 + 2 * i)) (s.reg (s.firstSlice part) 0 (0x51 + 2 * i))

/-- R334, for an address below the windows and peers. -/
def bandMap (bs : List Band) (a : Nat) : Option Nat :=
  match bs.find? fun b => decide (b.pbase * 2 ^ 30 ≤ a ∧ a < (b.pbase + b.size) * 2 ^ 30) with
  | none => none
  | some b =>
      let list := bitSet16 b.smask
      let k := list.length
      let g := (a - b.pbase * 2 ^ 30) / 65536
      some (list.getD (g % k) 0 * 2 ^ 48 + b.lbase * 2 ^ 30 + g / k * 65536 + a % 65536)

/-- The partition-physical offset in a band of a device-physical address, the inverse of bandMap. -/
def bandInv (b : Band) (d : Nat) : Option Nat :=
  let list := bitSet16 b.smask
  let k := list.length
  let o := d % 2 ^ 48
  match (list.zipIdx).find? fun e => decide (e.1 = d / 2 ^ 48) with
  | none => none
  | some (_, i) =>
    if o < b.lbase * 2 ^ 30 then none
    else
      let r := o - b.lbase * 2 ^ 30
      let a := (r / 65536 * k + i) * 65536 + r % 65536
      if a < b.size * 2 ^ 30 then some a else none

def inCounterAlias (a : Nat) : Bool := decide (a / 2 ^ 48 = 1)

/-- R335. -/
def windowTo (s : State) (part a : Nat) : PhysTo :=
  let o := a % 2 ^ 51
  let sl := o / 2 ^ 32
  let r := o % 2 ^ 32
  if 16 ≤ sl ∨ !(s.smask part).getLsbD sl then .none
  else if r < 2 ^ 28 then
    let u := r / 2 ^ 16
    let g := r % 2 ^ 16 / 8
    if u ≤ 8 ∧ g < 0x210 then .register sl u g else .none
  else
    let r' := r - 2 ^ 28
    if r' < 8 * 2 ^ 15 then .port (8 * sl + r' / 2 ^ 15) (r' / 2 ^ 12 % 8) (r' % 4096) else .none

def State.ppaTo (s : State) (part a : Nat) : PhysTo :=
  if a / 2 ^ 51 % 2 = 1 then windowTo s part a
  else if a / 2 ^ 50 = 1 then .peer
  else
    match bandMap (s.bands part) (if inCounterAlias a then a - 2 ^ 48 else a) with
    | some d => if inCounterAlias a || decide (a < 2 ^ 48) then .mem d else .none
    | none => .none

/-- A partition-physical address that must be memory. -/
def State.ppaMem (s : State) (part a : Nat) : Option Nat :=
  match s.ppaTo part a with
  | .mem d => some d
  | _ => none

/-- R272: the home agent of a line of memory, 0 to 47, and its slice. -/
def homeAgent (dpa : Nat) : Nat :=
  let b := (dpa / 64 % 16) ^^^ (dpa / 1024 % 16)
  48 * (dpa / 2 ^ 48) + (3 * b + dpa / 2 ^ 14 % 3)

def dpaSlice (dpa : Nat) : Nat := dpa / 2 ^ 48

/-- R359: a line of a migration source that is frozen. -/
def State.isFrozen (s : State) (line : Nat) : Bool :=
  s.pkg.migs.any fun e =>
    decide (e.2.state = .freezing ∨ e.2.state = .frozen) && decide (e.2.src ≤ 64 * line ∧ 64 * line < e.2.src + e.2.size)

/-! Translation. -/

/-- No cause of the spec: the home answers RETRY to the read of a table entry, whose line number stands for the
guest-physical address, and the access is tried again (R187, R359). -/
def causeAgain : BitVec 8 := 0x00
def causePageS1 : BitVec 8 := 0x07
def causePageS2 : BitVec 8 := 0x08
def causePermission : BitVec 8 := 0x09
def causeFirewall : BitVec 8 := 0x0A

/-- R345: the GRC counts FIREWALL causes. -/
def State.countCause (s : State) (k : BitVec 8) : State :=
  if k = causeFirewall then { s with plat := { s.plat with causes := s.plat.causes + 1 } } else s

/-- A translation fault (R345): its cause, whether it goes to the VF's ring, and the guest-physical address. -/
structure XFault where
  cause : BitVec 8
  toVf : Bool
  gpa : Nat
  deriving DecidableEq, Repr

/-- What an access needs (R342); counter: a turnstile designator, which needs a COUNTER page. -/
structure Need where
  r : Bool
  w : Bool
  x : Bool
  counter : Bool
  deriving DecidableEq, Repr

def needR : Need := ⟨true, false, false, false⟩
def needW : Need := ⟨false, true, false, false⟩
def needRW : Need := ⟨true, true, false, false⟩
def needX : Need := ⟨false, false, true, false⟩
def needC : Need := ⟨false, false, false, true⟩

/-- The leaf a walk ends at. -/
structure Leaf where
  out : Nat
  r : Bool
  w : Bool
  x : Bool
  u : Bool
  c : Bool
  sh : Bool
  deriving DecidableEq, Repr

/-- The stage of a table (R336). -/
inductive Stage where
  | one | two | kspace
  deriving DecidableEq, Repr

/-- R338: whether an entry is malformed for its stage and level. -/
def malformed (stage : Stage) (level : Nat) (e : Nat) : Bool :=
  let kind := bitsOf e 62 2
  let addr := bitsOf e 4 48
  decide (bitsOf e 0 4 ≠ 0) || decide (bitsOf e 52 4 ≠ 0) ||
  (decide (stage ≠ .one) && bitN e 58) || (decide (stage ≠ .two) && bitN e 56) || (bitN e 60 && !bitN e 61) ||
  (match kind with
   | 1 => decide (bitsOf e 56 6 ≠ 0) || decide (addr % 256 ≠ 0) || decide (level = 0)
   | 2 => decide (level = 3) || decide (addr * 16 % 2 ^ (12 + 9 * level) ≠ 0)
   | 3 => decide (level = 0) || decide (level = 3)
   | _ => false)

/-- R340. -/
def slabOut (desc o : Nat) : Option Nat :=
  let stride := bitsOf desc 102 24
  let rows := bitsOf desc 83 19
  let ppr := bitsOf desc 64 19
  let base := bitsOf desc 12 40 * 4096
  if bitsOf desc 126 2 ≠ 0 ∨ bitsOf desc 52 12 ≠ 0 ∨ bitsOf desc 0 12 ≠ 0 ∨ ppr = 0 ∨ rows = 0 ∨
      (1 < rows ∧ stride < ppr) then none
  else
    let q := o / 4096
    if rows ≤ q / ppr then none else some (base + (q / ppr * stride + q % ppr) * 4096 + o % 4096)

/-- What a walk finds, with the lines it read at their homes, in order, and which of them were poisoned. -/
structure Walked (A : Type) where
  out : Except XFault A
  lines : List (Nat × Bool)

/-- One read of a table; none for poison. -/
abbrev TableRead := Walked (Option Nat)

/-- A further part of a walk, after the lines already read. -/
def Walked.after {A B : Type} (r : Walked A) (w : Walked B) : Walked B := ⟨w.out, r.lines ++ w.lines⟩

/-- R341, by level: rd reads n bytes of the stage's table space; bad is the stage's page fault. -/
def walkLevel (rd : Nat → Nat → TableRead) (bad : XFault) (stage : Stage) (n x : Nat) : Nat → Nat → Walked Leaf
  | level, t =>
    let idx := if level = 3 then x / 2 ^ 39 % 2 ^ n else x / 2 ^ (12 + 9 * level) % 512
    let r := rd (t + 8 * idx) 8
    match r.out with
    | .error f => ⟨.error f, r.lines⟩
    | .ok none => ⟨.error bad, r.lines⟩
    | .ok (some e) =>
      if malformed stage level e then ⟨.error bad, r.lines⟩
      else
        let size := 2 ^ (12 + 9 * level)
        let leaf := fun out => Leaf.mk out (bitN e 61) (bitN e 60) (bitN e 59) (bitN e 58) (bitN e 57) (bitN e 56)
        match bitsOf e 62 2 with
        | 1 => match level with
          | 0 => ⟨.error bad, r.lines⟩
          | l + 1 => r.after (walkLevel rd bad stage n x l (bitsOf e 12 40 * 4096))
        | 2 => ⟨.ok (leaf (bitsOf e 4 48 * 16 + x % size)), r.lines⟩
        | 3 =>
          let q := rd (bitsOf e 4 48 * 16) 16
          r.after (match q.out with
          | .error f => ⟨.error f, q.lines⟩
          | .ok none => ⟨.error bad, q.lines⟩
          | .ok (some d) =>
            match slabOut d (x % size) with
            | some o => ⟨.ok (leaf o), q.lines⟩
            | none => ⟨.error bad, q.lines⟩)
        | _ => ⟨.error bad, r.lines⟩

def walk (rd : Nat → Nat → TableRead) (bad : XFault) (stage : Stage) (root rootsz x : Nat) : Walked Leaf :=
  let n := 9 + rootsz
  if 2 ^ (39 + n) ≤ x then ⟨.error bad, []⟩ else walkLevel rd bad stage n x 3 root

/-- A table read at its home under an ASTAG; none where the line is poisoned (R341). A PINNED or a frozen line is refused
with RETRY (R187, R359). -/
def State.readPhys (s : State) (part astag a n : Nat) : TableRead :=
  match s.ppaMem part a with
  | none => ⟨.error ⟨causeFirewall, false, 0⟩, []⟩
  | some d =>
    if (sfind (lineOf d) s.homes.pins).isSome || s.isFrozen (lineOf d) then ⟨.error ⟨causeAgain, false, lineOf d⟩, []⟩
    else
      let bad := s.homes.badRead (lineOf d) astag
      ⟨.ok (if bad then none else some (memVal s.homes.mem d n)), [(lineOf d, bad)]⟩

/-! VFCFGv of a partition (R356). What a write leaves stands under hidden numbers until the next tick. -/

def regVfcfg (vf : Nat) : Nat := 0x80 + vf
def vfNextReg (vf : Nat) : Nat := 0xE60 + vf
def vfWhenReg (vf : Nat) : Nat := 0xE80 + vf

def State.vfcfg (s : State) (part vf : Nat) : W64 :=
  let sl := s.firstSlice part
  let t := (s.reg sl 0 (vfWhenReg vf)).toNat
  if t ≠ 0 ∧ t ≤ s.tick then s.reg sl 0 (vfNextReg vf) else s.reg sl 0 (regVfcfg vf)

/-- The value in force from now on, and the one from a later tick on. -/
def State.setVfcfg (s : State) (part vf : Nat) (now next : W64) (when_ : Nat) : State :=
  ((s.setPartReg part (regVfcfg vf) now).setPartReg part (vfNextReg vf) next).setPartReg part (vfWhenReg vf) (BitVec.ofNat 64 when_)

def State.vfAstag (s : State) (part vf : Nat) : Nat := ((s.vfcfg part vf).extractLsb' 52 12).toNat

/-- The ASTAG of a stage-2 leaf (R331). -/
def State.leafTag (s : State) (part vf : Nat) (l : Leaf) : Nat := if l.sh then 0 else s.vfAstag part vf

/-- A fault met on the way to a guest-physical address (R172); the line of a RETRY stays. -/
def XFault.atGpa (f : XFault) (gpa : Nat) : XFault := if f.cause = causeAgain then f else { f with gpa := gpa }

def Walked.atGpa {A : Type} (w : Walked A) (gpa : Nat) : Walked A :=
  match w.out with
  | .error f => ⟨.error (f.atGpa gpa), w.lines⟩
  | .ok _ => w

/-- Stage 2 of VF v (R337, R341). -/
def State.walk2 (s : State) (part vf gpa : Nat) : Walked Leaf :=
  let cfg := s.vfcfg part vf
  (walk (fun a n => s.readPhys part 0 a n) ⟨causePageS2, false, gpa⟩ .two ((cfg.extractLsb' 12 40).toNat * 4096)
    (cfg.extractLsb' 8 4).toNat gpa).atGpa gpa

/-- R342: stage-1 table entries are read at guest-physical addresses, and need R and no COUNTER page there. -/
def State.readGuest (s : State) (part vf a n : Nat) : TableRead :=
  let w := s.walk2 part vf a
  match w.out with
  | .error f => ⟨.error f, w.lines⟩
  | .ok l =>
    if !l.r || l.c || inCounterAlias l.out then ⟨.error ⟨causePermission, false, a⟩, w.lines⟩
    else w.after ((s.readPhys part (s.leafTag part vf l) l.out n).atGpa a)

def denies (n : Need) (r w x c : Bool) : Bool :=
  if n.counter then false else (n.r && !r) || (n.w && !w) || (n.x && !x) || c

/-- The walk of the page of an address in its regime, with the stage-1 permission check before stage 2 (R341, R342). -/
def State.pageWalk (s : State) (slice : Nat) (rg : Regime) (va : Nat) (need : Need) : Walked TlbEntry :=
  let page := va / 4096
  match rg.priv with
  | .g =>
    let w := s.walk2 rg.part rg.vf va
    match w.out with
    | .error f => ⟨.error f, w.lines⟩
    | .ok l =>
      ⟨.ok ⟨rg, 0, page, page, l.out / 4096, s.leafTag rg.part rg.vf l, true, true, true, l.c || inCounterAlias l.out,
        false, l.r, l.w, l.x, true⟩, w.lines⟩
  | .h =>
    let sp := s.reg slice 0 0x4B
    let w := walk (fun a n => s.readPhys rg.part 0 a n) ⟨causePageS1, false, 0⟩ .kspace
        ((sp.extractLsb' 8 40).toNat * 4096) (sp.extractLsb' 4 4).toNat va
    match w.out with
    | .error f => ⟨.error f, w.lines⟩
    | .ok l =>
      ⟨.ok ⟨rg, 0, page, 0, l.out / 4096, 0, l.r, l.w, l.x, l.c || inCounterAlias l.out, l.c || inCounterAlias l.out,
        true, true, true, true⟩, w.lines⟩
  | _ =>
    let sp := rg.space
    let w := walk (fun a n => s.readGuest rg.part rg.vf a n) ⟨causePageS1, true, 0⟩ .one
        ((sp.extractLsb' 8 40).toNat * 4096) (sp.extractLsb' 4 4).toNat va
    match w.out with
    | .error f => ⟨.error f, w.lines⟩
    | .ok l1 =>
      if denies need l1.r l1.w l1.x l1.c || (rg.priv = .u && !l1.u) then ⟨.error ⟨causePermission, true, 0⟩, w.lines⟩
      else
        let w2 := s.walk2 rg.part rg.vf l1.out
        w.after (match w2.out with
        | .error f => ⟨.error f, w2.lines⟩
        | .ok l2 =>
          ⟨.ok ⟨rg, (sp.extractLsb' 48 16).toNat, page, l1.out / 4096, l2.out / 4096, s.leafTag rg.part rg.vf l2,
            l1.r, l1.w, l1.x, l1.c || l2.c || inCounterAlias l2.out, l1.c, l2.r, l2.w, l2.x, l1.u⟩, w2.lines⟩)

/-- What a walk or a fetch read at its homes is an event of its own (R273, R280, R288, R341). -/
def State.walked (s : State) (part vf : Nat) (lines : List (Nat × Bool)) : State :=
  if lines = [] then s else { s with todo := s.todo ++ [.homeReads part vf lines] }

/-- The VF that a translation is charged to, 32 for none. -/
def Regime.chargeVf (rg : Regime) : Nat := if rg.priv = .h then 32 else rg.vf

/-- The permission check of a translated page (R342), then R334 and R335. -/
inductive XTo where
  | mem (dpa astag : Nat)
  | peer (ppa : Nat)
  deriving DecidableEq, Repr

/-- H code has no guest-physical address, and its records hold 0 there (DESIGN CHOICE, log entry 108). -/
def State.leafCheck (s : State) (rg : Regime) (e : TlbEntry) (va : Nat) (need : Need) : Except XFault XTo :=
  let gpa := if rg.priv = .h then 0 else e.gpage * 4096 + va % 4096
  let guest := rg.priv ≠ .h
  if denies need e.r e.w e.x e.c1 || (rg.priv = .u && !e.u) then .error ⟨causePermission, guest, 0⟩
  else if denies need e.r2 e.w2 e.x2 e.counter then .error ⟨causePermission, false, gpa⟩
  else
    let a := e.ppage * 4096 + va % 4096
    match s.ppaTo rg.part a with
    | .mem d => if need.counter && !e.counter then .error ⟨causePermission, false, gpa⟩ else .ok (.mem d e.astag)
    | .peer => if need.counter && !e.counter then .error ⟨causePermission, false, gpa⟩ else .ok (.peer a)
    | .none => .error ⟨causeFirewall, false, gpa⟩
    | _ => .error ⟨causePermission, false, gpa⟩

def sameTag (rg : Regime) (asid page : Nat) (e : TlbEntry) : Bool :=
  decide (e.page = page) && decide (e.regime.part = rg.part) &&
  (if rg.priv = .h then decide (e.regime.priv = .h)
   else if rg.priv = .g then decide (e.regime.priv = .g) && decide (e.regime.vf = rg.vf)
   else decide (e.regime.priv ≠ .h) && decide (e.regime.priv ≠ .g) && decide (e.regime.vf = rg.vf) && decide (e.asid = asid))

/-- R343: a translation uses the walk as it stands, or, where a cached entry differs from it, either of the two
(a free choice, log entry 5). Gives the outcome and the state with the translation cached. -/
def State.xlate (s : State) (slice : Nat) (rg : Regime) (va : Nat) (need : Need) : Except XFault XTo × State :=
  if 2 ^ 57 ≤ va then (.error ⟨causePageS1, decide (rg.priv ≠ .h), 0⟩, s)
  else
    let asid := if rg.priv = .h then 0 else (rg.space.extractLsb' 48 16).toNat
    let w := s.pageWalk slice rg va need
    match s.pkg.tlb.find? (sameTag rg asid (va / 4096)) with
    | none =>
      let s0 := s.walked rg.part rg.chargeVf w.lines
      match w.out with
      | .error f => (.error f, s0)
      | .ok e => (s.leafCheck rg e va need, { s0 with pkg := { s0.pkg with tlb := s0.pkg.tlb ++ [e] } })
    | some old =>
      let s' := { s with fresh := s.fresh + 1 }
      let s'' := s'.walked rg.part rg.chargeVf w.lines
      match w.out with
      | .ok e =>
        if decide ({ e with regime := rg } = { old with regime := rg }) then (s.leafCheck rg old va need, s)
        else if Config.walkNew s.fresh then
          (s'.leafCheck rg e va need,
            { s'' with pkg := { s''.pkg with tlb := (s''.pkg.tlb.filter fun x => !sameTag rg asid (va / 4096) x) ++ [e] } })
        else (s'.leafCheck rg old va need, s')
      | .error f => if f.cause ≠ causeAgain && Config.walkNew s.fresh then (.error f, s'') else (s'.leafCheck rg old va need, s')

/-- A translation whose caching does not matter to the caller. -/
def State.xlateOf (s : State) (slice : Nat) (rg : Regime) (va : Nat) (need : Need) : Except XFault XTo :=
  (s.xlate slice rg va need).1

end Sys2Proof.Machine
end

