-- ==== Sys2Proof/Machine/Ops.lean ====
section
/-! DEFINITION. The named operations over troupes, registers, paths and events, and taking a trap (R64 to R86). -/

namespace Sys2Proof.Machine

abbrev Out := Host.Outcome State Fault Refusal

/-! Places. -/

def TKey.num (k : TKey) : Nat := 32 * k.core + k.slot
def keyOf (n : Nat) : TKey := ⟨n / 32, n % 32⟩

def State.core (s : State) (c : Nat) : Core := sget Core.empty c s.cores
def State.setCore (s : State) (c : Nat) (x : Core) : State := { s with cores := sset c x s.cores }

/-- The number that stands for a troupe that has ended: no troupe has it. -/
def noTroupe : Nat := 2 ^ 19

/-- The number of a troupe while it is saved: that of its saved state, beside that of its slot. -/
def parkNum (saved num : Nat) : Nat := 2 ^ 20 * saved + num % 2 ^ 12

def State.troupe? (s : State) (k : TKey) : Option Troupe :=
  if 2 ^ 20 ≤ k.num then (sfind (k.num / 2 ^ 20) s.pkg.saved).map (·.troupe) else sfind k.num s.troupes

def State.setTroupe (s : State) (k : TKey) (t : Troupe) : State :=
  if 2 ^ 20 ≤ k.num then
    match sfind (k.num / 2 ^ 20) s.pkg.saved with
    | some x => { s with pkg := { s.pkg with saved := sset (k.num / 2 ^ 20) { x with troupe := t } s.pkg.saved } }
    | none => s
  else { s with troupes := sset k.num t s.troupes }
def State.modTroupe (s : State) (k : TKey) (f : Troupe → Troupe) : State :=
  match s.troupe? k with
  | some t => s.setTroupe k (f t)
  | none => s
def State.block? (s : State) (b : Nat) : Option Block := sfind b s.blocks
def State.setBlock (s : State) (b : Nat) (x : Block) : State := { s with blocks := sset b x s.blocks }
def State.modBlock (s : State) (b : Nat) (f : Block → Block) : State :=
  match s.block? b with
  | some x => s.setBlock b (f x)
  | none => s
def State.setHomes (s : State) (h : Homes) : State := { s with homes := h }
def State.setFlight (s : State) (f : Flight) : State := { s with flight := f }
def State.setPkg (s : State) (p : Package) : State := { s with pkg := p }
def State.setFab (s : State) (f : Fabric) : State := { s with fab := f }
def State.setPlat (s : State) (p : Platform) : State := { s with plat := p }
def State.part? (s : State) (p : Nat) : Option Partition := sfind p s.pkg.parts
def State.setPart (s : State) (p : Nat) (x : Partition) : State := s.setPkg { s.pkg with parts := sset p x s.pkg.parts }
def State.modPart (s : State) (p : Nat) (f : Partition → Partition) : State :=
  match s.part? p with
  | some x => s.setPart p (f x)
  | none => s
def State.hart (s : State) (h : Nat) : Hart := sget Hart.reset h s.harts
def State.setHart (s : State) (h : Nat) (x : Hart) : State := { s with harts := sset h x s.harts }

/-- An event of work in progress (log entry 2). -/
def State.post (s : State) (i : Ev) : State := { s with todo := s.todo ++ [i] }
def State.postOnce (s : State) (i : Ev) : State := if s.todo.contains i then s else s.post i
def State.posts (s : State) (is : List Ev) : State := is.foldl State.post s
/-- An event that comes at a given tick, at once where that tick has passed. -/
def State.at (s : State) (tick : Nat) (i : Ev) : State :=
  if tick ≤ s.tick then s.post i else { s with timers := s.timers ++ [(tick, i)] }
/-- An event whose condition does not hold yet is tried again a tick later. -/
def State.later (s : State) (i : Ev) : State := s.at (s.tick + 1) i
def State.laterOnce (s : State) (i : Ev) : State :=
  if s.timers.any fun e => decide (e = (s.tick + 1, i)) then s else s.later i
def State.bump (s : State) : State := { s with seq := s.seq + 1 }

/-- The next number of something in flight. -/
def State.newId (s : State) : Nat × State :=
  (s.flight.nextId, s.setFlight { s.flight with nextId := s.flight.nextId + 1 })

/-! Energy (R378, R379). -/

/-- What is counted: matrix periods, vector issue slots, charged channel lines, bytes injected, slots held. -/
inductive EnergyEvent where
  | matrix | vector | channel | network | slot
  deriving DecidableEq, Repr

def EnergyEvent.num : EnergyEvent → Nat
  | .matrix => 0
  | .vector => 1
  | .channel => 2
  | .network => 3
  | .slot => 4

/-- n events of a VF in the current period. -/
def State.countEnergy (s : State) (part vf : Nat) (e : EnergyEvent) (n : Nat) : State :=
  s.modPart part fun p => { p with events := sput 0 (8 * vf + e.num) (sget 0 (8 * vf + e.num) p.events + n) p.events }

/-! Registers of a troupe. -/

def vKey (lane reg : Nat) : Nat := 256 * lane + reg

def LaneRegs.get (r : LaneRegs) (lane reg : Nat) : W32 := sget 0 (vKey lane reg) r.v
def laneBit (m : Sparse LaneMask) (reg lane : Nat) : Bool := (sget 0 reg m).getLsbD lane
def setLaneBit (m : Sparse LaneMask) (reg lane : Nat) (b : Bool) : Sparse LaneMask :=
  sput 0 reg (setLane (sget 0 reg m) lane b) m

/-- R66, R67, R68: a write fills the register and sets its taint and poison. -/
def LaneRegs.put (r : LaneRegs) (lane reg : Nat) (x : W32) (taint poison : Bool) : LaneRegs :=
  { r with
    v := sput 0 (vKey lane reg) x r.v
    empty := setLaneBit r.empty reg lane false
    taint := setLaneBit r.taint reg lane taint
    poison := setLaneBit r.poison reg lane poison }

def LaneRegs.setPred (r : LaneRegs) (lane : Nat) (p : Pred) (x poison : Bool) : LaneRegs :=
  { r with
    pred := setLaneBit r.pred p.val lane x
    predPoison := setLaneBit r.predPoison p.val lane poison }

def LaneRegs.empties (r : LaneRegs) (reg : Nat) (m : LaneMask) : LaneRegs :=
  { r with empty := sput 0 reg (sget 0 reg r.empty ||| m) r.empty }

def UniRegs.get (u : UniRegs) (n : SReg) : W64 := sget 0 n.val u.s
def UniRegs.bad (u : UniRegs) (n : SReg) : Bool := u.sPoison.getLsbD n.val
/-- R73: writing a destination clears its pending bit. -/
def UniRegs.put (u : UniRegs) (n : SReg) (x : W64) (poison : Bool) : UniRegs :=
  { u with
    s := sput 0 n.val x u.s
    sPoison := setLane u.sPoison n.val poison
    sPending := setLane u.sPending n.val false }
def UniRegs.pend (u : UniRegs) (n : SReg) : UniRegs := { u with sPending := setLane u.sPending n.val true }
def UniRegs.bufRec (u : UniRegs) (b : BReg) : BitVec 256 := sget 0 b.val u.b
def UniRegs.setRec (u : UniRegs) (b : BReg) (x : BitVec 256) : UniRegs := { u with b := sput 0 b.val x u.b }

def Troupe.s (t : Troupe) (n : SReg) : W64 := t.uni.get n
def Troupe.sBad (t : Troupe) (n : SReg) : Bool := t.uni.bad n
def Troupe.putS (t : Troupe) (n : SReg) (x : W64) (poison : Bool) : Troupe := { t with uni := t.uni.put n x poison }
def Troupe.pendS (t : Troupe) (n : SReg) : Troupe := { t with uni := t.uni.pend n }
def Troupe.live (t : Troupe) : LaneMask := ~~~t.exited
def Troupe.pred (t : Troupe) (p : Pred) (lane : Nat) : Bool := laneBit t.lane.pred p.val lane
def Troupe.predBad (t : Troupe) (p : Pred) (lane : Nat) : Bool := laneBit t.lane.predPoison p.val lane
def Troupe.count (t : Troupe) (f : Counters → Counters) : Troupe := { t with cnt := f t.cnt }

/-- A register of a lane as the cross-lane instructions read it (R76): an exited lane reads zero. -/
def Troupe.laneV (t : Troupe) (l reg : Nat) : W32 := if t.exited.getLsbD l then 0 else t.lane.get l reg

/-! The instruction at issue. -/

structure Ctx where
  key : TKey
  t : Troupe
  iss : Issue
  blk : Block

def Ctx.mask (c : Ctx) : LaneMask := c.iss.mask
def Ctx.slice (c : Ctx) : Nat := coreSlice c.key.core
def Ctx.wordAddr (c : Ctx) : VAddr := c.iss.addr + BitVec.ofNat 57 (8 * (c.iss.idx + 1))
/-- R35: the address after the clause's last word. -/
def Ctx.fallThrough (c : Ctx) : VAddr := c.iss.addr + BitVec.ofNat 57 (8 * (c.iss.words.length + 1))

def State.ctx? (s : State) : Option Ctx :=
  match s.current with
  | none => none
  | some k =>
    -- a saved troupe is never at issue
    if 2 ^ 20 ≤ k.num then none
    else match sfind k.num s.troupes with
      | none => none
      | some t => match t.issue with
        | none => none
        | some iss => match s.block? t.block with
          | none => none
          | some b => some ⟨k, t, iss, b⟩

/-- The meaning of an instruction word acts on the troupe at issue. -/
def onTroupe (s : State) (f : Ctx → State) : Out :=
  match s.ctx? with
  | some c => .next (f c)
  | none => .fault .noIssuer

/-! Instruction fetch (R43, R280). -/

def poisonCause : BitVec 8 := 0x0B

/-- The outcome of fetching a word; again: its line is PINNED or frozen, and the fetch is repeated (R280). -/
inductive Fetch where
  | word (w : W64)
  | poison
  | again (line : Nat)
  | fault (f : XFault)
  deriving DecidableEq, Repr

/-- R279: a copy of a line in the RDC of a slice, at this tick. -/
def rdcKey (slice line : Nat) : Nat := slice * 2 ^ 48 + line
def State.rdcCopy (s : State) (slice line : Nat) : Option RdcLine :=
  match sfind (rdcKey slice line) s.homes.rdc with
  | some r => (match r.expiry with
    | none => some r
    | some e => if s.tick < e then some r else none)
  | none => none

/-- R280: a word of memory enters the instruction cache, from the RDC or from its home. -/
def State.fetchHome (s : State) (core : Nat) (rg : Regime) (d tag : Nat) : Fetch × State :=
  if (sfind (lineOf d) s.homes.pins).isSome || s.isFrozen (lineOf d) then (.again (lineOf d), s)
  else
    let s1 := if (s.rdcCopy (coreSlice core) (lineOf d)).isSome then s else s.walked rg.part rg.chargeVf [(lineOf d, false)]
    if s.homes.badRead (lineOf d) tag then (.poison, s1)
    else
      let now := BitVec.ofNat 64 (memVal s.homes.mem d 8)
      (.word now, s1.setCore core { s1.core core with ic := sset (d / 8) now (s1.core core).ic })

/-- A fetched word, with the cache filled. A cached copy that differs from memory gives either word (R43). -/
def State.fetchWord (s : State) (core : Nat) (rg : Regime) (va : VAddr) : Fetch × State :=
  match s.xlate (coreSlice core) rg va.toNat needX with
  | (.error f, s1) => (if f.cause = causeAgain then .again f.gpa else .fault f, s1)
  | (.ok (.peer _), s1) => (.fault ⟨causePermission, false, 0⟩, s1)
  | (.ok (.mem d tag), s1) =>
    match sfind (d / 8) (s1.core core).ic with
    | some old =>
      if !s1.homes.badRead (lineOf d) tag && decide (old = BitVec.ofNat 64 (memVal s1.homes.mem d 8)) then (.word old, s1)
      else
        let s2 := { s1 with fresh := s1.fresh + 1 }
        if Config.fetchNew s1.fresh then s2.fetchHome core rg d tag else (.word old, s2)
    | none => s1.fetchHome core rg d tag

/-- The word at an address as the issue logic reads its header ahead of the fetch (R39, R75), none where it cannot be
fetched. Where a cached word differs from memory this is the cached one, though the fetch that follows may give the
other (R43); the priority, class, wait mask and Y bit are then those of the cached word (DESIGN CHOICE, log entry 5). -/
def State.peekWord (s : State) (core : Nat) (rg : Regime) (va : VAddr) : Option W64 :=
  match s.xlateOf (coreSlice core) rg va.toNat needX with
  | .ok (.mem d tag) =>
    match sfind (d / 8) (s.core core).ic with
    | some w => some w
    | none =>
      if s.homes.badRead (lineOf d) tag then none else some (BitVec.ofNat 64 (memVal s.homes.mem d 8))
  | _ => none

def isHeader (w : W64) : Bool := decide (w.extractLsb' 62 2 = 3)

/-- R75: the priority of the header at an address, 255 where it cannot be fetched or is none. -/
def State.headerPrio (s : State) (core : Nat) (rg : Regime) (va : VAddr) : Nat :=
  match s.peekWord core rg va with
  | some w => if isHeader w then (w.extractLsb' 46 8).toNat else 255
  | none => 255

/-! Paths (R74, R75). -/

/-- R75: lanes that continue at an address, merged into the entry there or inserted with the header's priority. -/
def State.enter (s : State) (core : Nat) (rg : Regime) (ps : List Path) (a : VAddr) (m : LaneMask) : List Path :=
  if m = 0 then ps
  else if ps.any (fun p => p.addr = a) then ps.map fun p => if p.addr = a then { p with mask := p.mask ||| m } else p
  else ps ++ [⟨s.headerPrio core rg a, a, 0, m⟩]

def State.enterAll (s : State) (core : Nat) (rg : Regime) (ps : List Path) (next : List (VAddr × LaneMask)) :
    List Path :=
  next.foldl (fun ps e => s.enter core rg ps e.1 e.2) ps

/-- R75: the entry with the highest priority, among equals the lowest address. -/
def topPath : List Path → Option Path
  | [] => none
  | p :: t => match topPath t with
    | none => some p
    | some q => some (if p.prio > q.prio ∨ (p.prio = q.prio ∧ p.addr.toNat ≤ q.addr.toNat) then p else q)

/-! Pipes (R39, R40, R175). -/

/-- R39: every masked counter is at or below its threshold. Fields of the header, counter by counter. -/
def waitMaskOk (h : W64) (c : Counters) : Bool :=
  let at_ := fun (bit lo n : Nat) => !h.getLsbD bit || decide (n ≤ (h.extractLsb' lo 3).toNat)
  at_ 40 22 c.ld && at_ 41 25 c.st && at_ 42 28 c.cp && at_ 43 31 c.mx && at_ 44 34 c.ni && at_ 45 37 c.atc

def headerClass (h : W64) : Nat := (h.extractLsb' 58 4).toNat

/-- R175: whether a pipe accepts a clause class. -/
def pipeTakes (pipe cls : Nat) : Bool :=
  decide (cls = 0 ∨ cls = 5) || (decide (pipe ≤ 1) && decide (cls = 1)) || (decide (pipe = 2) && decide (cls = 2)) ||
  (decide (pipe = 3) && decide (cls = 3 ∨ cls = 4))

def State.pipeOf (s : State) (k : TKey) : Option Nat :=
  ((s.core k.core).pipes.find? fun e => decide (e.2 = k.slot)).map (·.1)

/-- The troupe leaves the pipe; its next clause competes for one. -/
def State.leavePipe (s : State) (k : TKey) : State :=
  let c := s.core k.core
  s.setCore k.core { c with pipes := c.pipes.filter fun e => e.2 ≠ k.slot }

def State.offPipe (s : State) (k : TKey) : State := { s.leavePipe k with current := none }

def State.reGrant (s : State) (k : TKey) : State := s.postOnce (.pipeGrant k.core)

/-- R40: the next clause has Y = 0 and can begin at once on the same pipe, so no other troupe comes between. The
troupe holds the pipe across at most eight such boundaries. A clause that the instruction cache does not hold, or whose
line is PINNED, keeps the pipe too and counts among the eight (DESIGN CHOICE, log entry 109). -/
def State.keepsPipe (s : State) (k : TKey) (rg : Regime) (t : Troupe) : Bool :=
  match s.block? t.block, topPath t.frontier, s.pipeOf k with
  | some b, some p, some pipe =>
    match s.peekWord k.core rg p.addr with
    | some h => isHeader h && !h.getLsbD 15 && pipeTakes pipe (headerClass h) && waitMaskOk h t.cnt &&
        decide (t.yRun < 8) && !t.yielded && decide (t.susp = .none) && decide (b.state = .running)
    | none => false
  | _, _, _ => false

/-- A clause boundary: the troupe keeps its pipe for its next clause, or leaves it and competes again. The next clause of
the troupe begins a tick later, so that no loop holds time still (log entry 11). -/
def State.boundary (s : State) (k : TKey) (rg : Regime) (t : Troupe) : State :=
  if s.keepsPipe k rg t then (s.setTroupe k { t with yRun := t.yRun + 1 }).later (.clauseIssue k.core k.slot)
  else ((s.setTroupe k { t with yRun := 0, yielded := false }).leavePipe k).laterOnce (.pipeGrant k.core)

/-- The end of a clause (R75): the lanes of the path continue as given. -/
def State.endClause (s : State) (c : Ctx) (t : Troupe) (next : List (VAddr × LaneMask)) : State :=
  let t1 := { t with issue := none, frontier := s.enterAll c.key.core c.blk.regime t.frontier next }
  if t1.live = 0 then ((s.setTroupe c.key t1).offPipe c.key).post (.troupeEnd c.key.core c.key.slot)
  else { s.boundary c.key c.blk.regime t1 with current := none }

/-- An instruction that is done: the next one of its clause, or the clause's fall-through. -/
def State.advance (s : State) (c : Ctx) (t : Troupe) : State :=
  if c.iss.idx + 1 < c.iss.words.length then
    s.setTroupe c.key { t with issue := some { c.iss with idx := c.iss.idx + 1 } }
  else s.endClause c t [(c.fallThrough, c.mask)]

/-- R66, R73, R190, R219: a stalled instruction stays in place and changes nothing. -/
def State.stall (s : State) (c : Ctx) : State :=
  let s1 := s.setTroupe c.key { c.t with stalled := true }
  ({ s1 with current := none }).later (.stallRelease c.key.core c.key.slot)

/-! Rings (R348). -/

def State.queueRing (s : State) (slice part : Nat) (ring : Ring) (words : List W64) (saved caller : Option Nat) :
    Nat × State :=
  let (id, s1) := s.newId
  let e : RingEntry := ⟨id, slice, part, ring, words, saved, caller⟩
  (id, (s1.setPkg { s1.pkg with ring := s1.pkg.ring ++ [e] }).postOnce (.ringEntryDelivery slice))

/-! Traps (R81 to R84). -/

def causeIllegalInstruction : BitVec 8 := 0x01
def causeIllegalClause : BitVec 8 := 0x02
def causeConvergence : BitVec 8 := 0x03
def causeEmpty : BitVec 8 := 0x04
def causeBounds : BitVec 8 := 0x05
def causeAlign : BitVec 8 := 0x06
def causePoison : BitVec 8 := 0x0B
def causeShape : BitVec 8 := 0x0C
def causeScaleCount : BitVec 8 := 0x0D
def causeSlot : BitVec 8 := 0x0E
def causeRoute : BitVec 8 := 0x0F
def causePrivilege : BitVec 8 := 0x11
def causeArith : BitVec 8 := 0x12
def causeSoftware : BitVec 8 := 0x14
def causeBreakpoint : BitVec 8 := 0x15

/-- What a trap is raised with (R82). -/
structure TrapInfo where
  cause : BitVec 8
  info : W64
  addr : W64
  inst : W64
  mask : LaneMask
  resumeAt : ResumeAt

/-- R392: the record of a troupe halted in place. The saved entry lets the resume add find the troupe. -/
def State.haltDouble (s : State) (c : Ctx) (t : Troupe) (first second : BitVec 8) (inst addr mask : W64) : State :=
  let (sid, s1) := s.newId
  let t1 := { t with issue := none, susp := .doubleTrap first second inst addr mask }
  let w0 := second.toNat * 65536 + first.toNat * 256 + 0x13 + c.key.slot * 2 ^ 24 + c.blk.regime.vf * 2 ^ 29 +
    c.key.core * 2 ^ 34
  let words := [BitVec.ofNat 64 w0, inst, addr, mask, 0, 0, 0, 0]
  let sv : Saved := ⟨.doubleTrap, c.blk.regime.part, c.blk.queue, t.block, c.key.num, t1, 0, none, none, 0, 0, none, 0,
    false, false, false, c.slice, []⟩
  let s2 := (s1.setTroupe c.key t1).offPipe c.key
  let s3 := s2.setPkg { s2.pkg with saved := sset sid sv s2.pkg.saved }
  let ring := if c.blk.regime.priv = .h then Ring.kFault else Ring.vfFault c.blk.regime.vf
  (s3.queueRing c.slice c.blk.regime.part ring words (some sid) none).2

/-- R83: the shadow frontier of a trap; after SOFTWARE and BREAKPOINT the path stands at its successor. -/
def State.shadowOf (s : State) (c : Ctx) (ti : TrapInfo) (clause : VAddr) (idx : Nat) : List Path :=
  match ti.resumeAt with
  | .successor => s.enter c.key.core c.blk.regime c.t.frontier c.fallThrough c.mask
  | _ => c.t.frontier ++ [⟨c.iss.prio, clause, idx, c.mask⟩]

/-- Taking a trap (R81 to R84): under the in-handler flag it becomes DOUBLE_TRAP; with TVEC 0 the fields and the
shadow frontier are written and the troupe halts; otherwise the handler starts at TVEC with every live lane. -/
def State.takeTrap (s : State) (c : Ctx) (ti : TrapInfo) : State :=
  if c.t.trap.inHandler then
    s.haltDouble c c.t c.t.trap.cause ti.cause ti.inst ti.addr ti.mask
  else
    let idx := match ti.resumeAt with | .clauseStart _ => 0 | _ => c.iss.idx
    let tr : TrapState := ⟨ti.cause, ti.info, ti.addr, ti.inst, ti.mask, false, decide (c.t.tvec ≠ 0),
      s.shadowOf c ti c.iss.addr idx, ti.resumeAt⟩
    if c.t.tvec = 0 then
      s.haltDouble c { c.t with trap := tr } ti.cause ti.cause ti.inst ti.addr ti.mask
    else
      let h : Path := ⟨s.headerPrio c.key.core c.blk.regime c.t.tvec, c.t.tvec, 0, c.t.live⟩
      let t1 := { c.t with trap := tr, frontier := [h], issue := none }
      ((s.setTroupe c.key t1).offPipe c.key).laterOnce (.pipeGrant c.key.core)

/-- A trap of the instruction at issue. -/
def State.raise (s : State) (c : Ctx) (cause : BitVec 8) (info addr : W64) (mask : LaneMask) : State :=
  s.takeTrap c ⟨cause, info, addr, c.wordAddr.setWidth 64, mask,
    .instruction c.iss.addr c.iss.words.length⟩

/-- R172: the record of a translation fault. -/
def faultRecord (lanes : LaneMask) (slot buffer vf : Nat) (write : Bool) (width kind : Nat) (cause : BitVec 8)
    (gpa va : Nat) : BitVec 256 :=
  BitVec.ofNat 256 (va % 2 ^ 57 + gpa % 2 ^ 57 * 2 ^ 64 + cause.toNat * 2 ^ 128 + kind * 2 ^ 136 + width * 2 ^ 140 +
    (if write then 1 else 0) * 2 ^ 143 + vf * 2 ^ 144 + buffer * 2 ^ 149 + slot * 2 ^ 153 + lanes.toNat * 2 ^ 192)

/-- A translation fault (R81, R350): under the in-handler flag it is DOUBLE_TRAP; otherwise the troupe stops
selecting, its path stands at the instruction (or at the clause, for a fetch), and it waits to be saved. -/
def State.raiseFault (s : State) (c : Ctx) (f : XFault) (inst : VAddr) (va : Nat) (lanes : LaneMask) (buffer : Nat)
    (write : Bool) (width kind : Nat) : State :=
  if c.t.trap.inHandler then
    s.haltDouble c c.t c.t.trap.cause f.cause (inst.setWidth 64) (BitVec.ofNat 64 va) lanes
  else
    let gpa := if f.cause = causePageS2 ∨ f.cause = causeFirewall then f.gpa else 0
    let r := faultRecord lanes c.key.slot buffer c.blk.regime.vf write width kind f.cause gpa va
    let idx := if kind = 9 then 0 else c.iss.idx
    let t1 := { c.t with
      issue := none
      frontier := c.t.frontier ++ [⟨c.iss.prio, c.iss.addr, idx, c.mask⟩]
      susp := .pageFault r f.toVf }
    (((s.setTroupe c.key t1).offPipe c.key).post (.contextSave c.key.core c.key.slot)).countCause f.cause

/-- R85: return from the handler. Lanes that exited leave every mask; a skipped instruction is the last of its clause
or not, and the path stands accordingly. -/
def State.restoreShadow (s : State) (core : Nat) (rg : Regime) (t : Troupe) (resume : Bool) : List Path :=
  let keep := fun (p : Path) => { p with mask := p.mask &&& t.live }
  let ps := (t.trap.shadow.map keep).filter fun p => p.mask ≠ 0
  match t.trap.resumeAt with
  | .instruction a n =>
    if resume then
      match ps.find? fun p => p.addr = a with
      | none => ps
      | some p =>
        if p.idx + 1 < n then ps.map fun q => if q.addr = a then { q with idx := q.idx + 1 } else q
        else s.enter core rg (ps.filter fun q => q.addr ≠ a) (a + BitVec.ofNat 57 (8 * (n + 1))) p.mask
    else ps
  | _ => ps

end Sys2Proof.Machine
end

