-- ==== Sys2Proof/Machine/Operands.lean ====
section
/-! DEFINITION. Operand forms (R12, R47, R66 to R68, R73, R88, R91): reading sources, the full, empty, pending and
scoreboard tests before an instruction, and writing destinations. -/

namespace Sys2Proof.Machine

/-! Sources. -/

/-- The v registers of an operand. -/
def vRegs (o : Opnd) : List Nat :=
  match o.reg with
  | .v r => (List.range o.n).map fun i => r.val + i
  | .s _ => []

def Troupe.words (t : Troupe) (lane : Nat) (rs : List Nat) : Nat :=
  (rs.zipIdx).foldl (fun acc e => acc + (t.lane.get lane e.1).toNat * 2 ^ (32 * e.2)) 0

/-- R12: the value of an operand in a lane, the first register lowest; an s register gives all of itself. -/
def Troupe.value (t : Troupe) (lane : Nat) (o : Opnd) : Nat :=
  match o.reg with
  | .v _ => t.words lane (vRegs o)
  | .s n => (t.s n).toNat

def Troupe.poisoned (t : Troupe) (lane : Nat) (o : Opnd) : Bool :=
  match o.reg with
  | .v _ => (vRegs o).any fun r => laneBit t.lane.poison r lane
  | .s n => t.sBad n

/-- R67: s registers carry no taint. -/
def Troupe.tainted (t : Troupe) (lane : Nat) (o : Opnd) : Bool := (vRegs o).any fun r => laneBit t.lane.taint r lane

/-- The lanes in which some register of an operand is empty. -/
def Troupe.emptyLanes (t : Troupe) (o : Opnd) : LaneMask :=
  (vRegs o).foldl (fun m r => m ||| sget 0 r t.lane.empty) 0

def pendingS (t : Troupe) (o : Opnd) : Bool :=
  match o.reg with
  | .v _ => false
  | .s n => t.uni.sPending.getLsbD n.val

def regField : Reg → Nat
  | .v r => r.val
  | .s n => 0xC0 + n.val

/-! The tests before an instruction. -/

/-- R219: the first accumulator register of a product in flight. -/
def MxWork.acc? : MxWork → Option Nat
  | .product i _ _ => match i.dests with
    | [⟨.v r, _, _, _⟩] => some r.val
    | _ => none
  | _ => none

def State.accs (s : State) (k : TKey) : List Nat :=
  (s.core k.core).mx.filterMap fun op => if op.troupe = k.num then op.work.acc? else none

def overlaps (a n b m : Nat) : Bool := decide (a < b + m ∧ b < a + n)

/-- R219: a register of the operand is an accumulator in flight. -/
def State.inFlight (s : State) (k : TKey) (o : Opnd) : Bool :=
  match o.reg with
  | .v r => (s.accs k).any fun a => overlaps a 64 r.val o.n
  | .s _ => false

inductive Ready where
  | empty (reg : Nat) (m : LaneMask)
  | wait
  | go
  deriving DecidableEq, Repr

/-- Whether an instruction can run in lanes m: EMPTY_REGISTER for an empty source in mode 1, otherwise a stall while
a source or destination is empty, pending or in flight in the matrix unit (R47, R66, R73, R219). -/
def State.ready (s : State) (c : Ctx) (srcs dests : List Opnd) (m : LaneMask) : Ready :=
  match srcs.find? fun o => o.trapEmpty && decide (c.t.emptyLanes o &&& m ≠ 0) with
  | some o =>
    .empty (regField o.reg)
      (srcs.foldl (fun acc o => if o.trapEmpty then acc ||| (c.t.emptyLanes o &&& m) else acc) 0)
  | none =>
    if (srcs ++ dests).any fun o => decide (c.t.emptyLanes o &&& m ≠ 0) || pendingS c.t o || s.inFlight c.key o
    then .wait else .go

/-- Runs k once the instruction's registers are ready. -/
def State.whenReady (s : State) (c : Ctx) (i : Instr) (m : LaneMask) (k : State) : State :=
  match s.ready c i.srcs i.dests m with
  | .empty r l => s.raise c causeEmpty (BitVec.ofNat 64 r) 0 l
  | .wait => s.stall c
  | .go => k

/-! Guards (R48). -/

def Ctx.guardMask (c : Ctx) (g : Option Guard) : LaneMask :=
  match g with
  | none => c.mask
  | some g => maskOf ((lanes c.mask).filter fun l => c.t.pred g.p l ≠ g.inv)

/-- R68: the lanes whose guard predicate is poisoned. -/
def Ctx.guardBad (c : Ctx) (g : Option Guard) : LaneMask :=
  match g with
  | none => 0
  | some g => maskOf ((lanes c.mask).filter fun l => c.t.predBad g.p l)

/-! Results. -/

/-- R67, R68: the meta bits a lane's result takes from its sources. -/
def Troupe.srcPoison (t : Troupe) (lane : Nat) (srcs : List Opnd) : Bool := srcs.any fun o => t.poisoned lane o
def Troupe.srcTaint (t : Troupe) (lane : Nat) (srcs : List Opnd) : Bool := srcs.any fun o => t.tainted lane o

/-- Writes the v registers of an operand in a lane. -/
def LaneRegs.putWords (r : LaneRegs) (lane : Nat) (regs : List Nat) (x : Nat) (taint poison : Bool) : LaneRegs :=
  (regs.zipIdx).foldl
    (fun r e => r.put lane e.1 (BitVec.ofNat 32 (x / 2 ^ (32 * e.2))) taint poison) r

/-- R88: a 32-bit result in an s register, sign-extended where sx holds. -/
def sExtend (sx : Bool) (x : Nat) : W64 := if sx then BitVec.ofNat 64 (wrap 64 (sval 32 x)) else BitVec.ofNat 64 x

def firstLane (m : LaneMask) : Nat := (lanes m).headD 0

/-- Writes a destination in the lanes of m, or once where it is an s register. f gives a lane's result, taint and
poison. -/
def Troupe.write (t : Troupe) (m : LaneMask) (d : Opnd) (sx : Bool) (f : Nat → Nat × Bool × Bool) : Troupe :=
  match d.reg with
  | .s n => let r := f (firstLane m); t.putS n (sExtend sx r.1) r.2.2
  | .v _ =>
    { t with
      lane := (lanes m).foldl (fun r l => let x := f l; r.putWords l (vRegs d) x.1 x.2.1 x.2.2) t.lane }

/-- A lane's result computed from its sources. -/
def Troupe.compute (t : Troupe) (m : LaneMask) (srcs : List Opnd) (d : Opnd) (sx : Bool)
    (f : Nat → List Nat → Nat) : Troupe :=
  t.write m d sx fun l => (f l (srcs.map fun o => t.value l o), t.srcTaint l srcs, t.srcPoison l srcs)

/-- The common shape of opcodes 0x00 to 0x6E: each participating lane's destination is a function of its sources. -/
def laneOp (s : State) (i : Instr) (sx : Bool) (f : Nat → List Nat → Nat) : Out :=
  onTroupe s fun c =>
    s.whenReady c i c.mask
      (match i.dests with
       | [d] => s.advance c (c.t.compute c.mask i.srcs d sx f)
       | _ => s.advance c c.t)

/-- Writes a predicate in the lanes of m. -/
def Troupe.writePred (t : Troupe) (m : LaneMask) (p : Pred) (f : Nat → Bool × Bool) : Troupe :=
  { t with lane := (lanes m).foldl (fun r l => let x := f l; r.setPred l p x.1 x.2) t.lane }

/-- R91: each participating lane's predicate is a function of its sources, with their poison. -/
def predOp (s : State) (i : Instr) (pd : Pred) (f : List Nat → Bool) : Out :=
  onTroupe s fun c =>
    s.whenReady c i c.mask
      (s.advance c (c.t.writePred c.mask pd fun l =>
        (f (i.srcs.map fun o => c.t.value l o), c.t.srcPoison l i.srcs)))

/-! Functions of one, two and three sources. -/

def fn1 (f : Nat → Nat) (_ : Nat) : List Nat → Nat
  | a :: _ => f a
  | _ => 0
def fn2 (f : Nat → Nat → Nat) (_ : Nat) : List Nat → Nat
  | a :: b :: _ => f a b
  | _ => 0
def fn3 (f : Nat → Nat → Nat → Nat) (_ : Nat) : List Nat → Nat
  | a :: b :: c :: _ => f a b c
  | _ => 0

/-! Element-wise operation on the integer types (R13, R14, R88). -/

/-- The integer a w-bit element stands for. -/
def elemVal (sg : Bool) (w x : Nat) : Int := if sg then sval w x else (uval w x : Int)

/-- R14: the range of an element, and clamping to it. -/
def satI (sg : Bool) (w : Nat) (z : Int) : Int :=
  if sg then clampI (-(2 ^ (w - 1) : Nat)) ((2 ^ (w - 1) : Nat) - 1) z else clampI 0 ((2 ^ w : Nat) - 1) z

/-- The elements of a register value, and the value that holds the given elements. -/
def elems (n w x : Nat) : List Nat := (List.range n).map fun i => bitsOf x (w * i) w
def joinElems (w : Nat) (xs : List Nat) : Nat := (xs.zipIdx).foldl (fun acc e => acc + e.1 % 2 ^ w * 2 ^ (w * e.2)) 0

end Sys2Proof.Machine

namespace Sys2Proof

open Sys2Proof.Machine

def IntTy.ew : IntTy → Nat
  | .ui32 | .i32 => 32
  | .ui64 | .i64 => 64
  | .ui16x2 | .i16x2 => 16
  | .ui8x4 | .i8x4 => 8

def IntTy.count : IntTy → Nat
  | .ui16x2 | .i16x2 => 2
  | .ui8x4 | .i8x4 => 4
  | _ => 1

/-- Applies f to the element values of each type, and wraps (R14). -/
def IntTy.map1 (t : IntTy) (f : Int → Int) (a : Nat) : Nat :=
  joinElems t.ew ((elems t.count t.ew a).map fun x => wrap t.ew (f (elemVal t.signed t.ew x)))
def IntTy.map2 (t : IntTy) (f : Int → Int → Int) (a b : Nat) : Nat :=
  joinElems t.ew (((elems t.count t.ew a).zip (elems t.count t.ew b)).map fun x =>
    wrap t.ew (f (elemVal t.signed t.ew x.1) (elemVal t.signed t.ew x.2)))
def IntTy.map3 (t : IntTy) (f : Int → Int → Int → Int) (a b c : Nat) : Nat :=
  joinElems t.ew (((elems t.count t.ew a).zip ((elems t.count t.ew b).zip (elems t.count t.ew c))).map fun x =>
    wrap t.ew (f (elemVal t.signed t.ew x.1) (elemVal t.signed t.ew x.2.1) (elemVal t.signed t.ew x.2.2)))

def IntTy.sat (t : IntTy) (z : Int) : Int := satI t.signed t.ew z

/-- R88: a result of type i32 is sign-extended in an s register. -/
def IntTy.sx (t : IntTy) : Bool := t = .i32

end Sys2Proof

namespace Sys2Proof.Machine

/-- R89: the width an I-format integer instruction operates on. -/
def immWidth (d : Reg) : Nat := if d.isS then 64 else 32

/-- R89: imm32 sign-extended. -/
def immVal (imm : W32) : Int := imm.toInt

end Sys2Proof.Machine
end

