-- ==== Sys2Proof/Machine/Flags.lean ====
section
/-! DEFINITION. Conditions, three-way codes, predicate tables and carries (R97, R108, R109, R112, R126, R127). -/

namespace Sys2Proof.Machine

/-- R108. -/
def condInt (c : ICond) (a b : Int) : Bool :=
  match c with
  | .eq => decide (a = b)
  | .ne => decide (a ≠ b)
  | .lt => decide (a < b)
  | .le => decide (a ≤ b)
  | .gt => decide (a > b)
  | .ge => decide (a ≥ b)

/-- R109: the three-way code. -/
def threeWay (a b : Int) : Int := if a < b then -1 else if a = b then 0 else 1

/-- R126: how two floating-point operands relate. -/
inductive Rel where
  | lt | eq | gt | un
  deriving DecidableEq, Repr

/-- R126: the signed code of a relation. -/
def relCode : Rel → Int
  | .lt => -1
  | .eq => 0
  | .gt => 1
  | .un => 2

/-- R127. -/
def condFloat (c : FCond) (r : Rel) : Bool :=
  match c with
  | .eq => decide (r = .eq)
  | .ne => decide (r = .lt ∨ r = .gt)
  | .lt => decide (r = .lt)
  | .le => decide (r = .lt ∨ r = .eq)
  | .gt => decide (r = .gt)
  | .ge => decide (r = .gt ∨ r = .eq)
  | .ord => decide (r ≠ .un)
  | .uno => decide (r = .un)
  | .equ => decide (r = .un ∨ r = .eq)
  | .neu => decide (r ≠ .eq)
  | .ltu => decide (r = .un ∨ r = .lt)
  | .leu => decide (r ≠ .gt)
  | .gtu => decide (r = .un ∨ r = .gt)
  | .geu => decide (r ≠ .lt)

/-- R112: bit 2a + b of a two-input table. -/
def lutBit (lut : BitVec 4) (a b : Bool) : Bool := lut.getLsbD (2 * a.toNat + b.toNat)

/-- R97: result and carry of an addition. -/
def addCarry (w a b : Nat) (cin : Bool) : Nat × Bool :=
  let t := uval w a + uval w b + cin.toNat
  (t % 2 ^ w, decide (2 ^ w ≤ t))

/-- R97: result and borrow of a subtraction. -/
def subBorrow (w a b : Nat) (cin : Bool) : Nat × Bool :=
  let t : Int := (uval w a : Int) - (uval w b : Int) - cin.toNat
  (wrap w t, decide (t < 0))

end Sys2Proof.Machine
end

