-- ==== Sys2Proof/Machine/Num.lean ====
section
/-! DEFINITION. Floating-point values as exact numbers: the formats of R16 and R17, one rounding for all of them
(R20, R24 to R27), and the exact operations that feed it. -/

namespace Sys2Proof.Machine

/-- A value: (-1)^neg * m * 2^e, an infinity, or NaN. A zero has m = 0 and keeps its sign. -/
inductive FVal where
  | nan
  | inf (neg : Bool)
  | fin (neg : Bool) (m : Nat) (e : Int)
  deriving DecidableEq, Repr

/-- R17: which special encodings a format has. -/
inductive Specials where
  | ieee | e4m3 | none
  deriving DecidableEq, Repr

structure Fmt where
  eb : Nat
  mb : Nat
  bias : Nat
  sp : Specials
  /-- R24: FTZ acts on this format. -/
  flush : Bool
  deriving DecidableEq, Repr

def fp64 : Fmt := ⟨11, 52, 1023, .ieee, true⟩
def fp32 : Fmt := ⟨8, 23, 127, .ieee, true⟩
def fp16 : Fmt := ⟨5, 10, 15, .ieee, true⟩
def bf16 : Fmt := ⟨8, 7, 127, .ieee, true⟩
def fpE4m3 : Fmt := ⟨4, 3, 7, .e4m3, false⟩
def fpE5m2 : Fmt := ⟨5, 2, 15, .ieee, false⟩
def fpE3m2 : Fmt := ⟨3, 2, 3, .none, false⟩
def fpE2m3 : Fmt := ⟨2, 3, 1, .none, false⟩
def fpE2m1 : Fmt := ⟨2, 1, 1, .none, false⟩

def Fmt.width (f : Fmt) : Nat := 1 + f.eb + f.mb
/-- The exponent of the format's subnormal quantum. -/
def Fmt.qmin (f : Fmt) : Int := 1 - (f.bias : Int) - f.mb
/-- R17: the canonical NaN; formats without one never produce it. -/
def Fmt.nanBits (f : Fmt) : Nat :=
  match f.sp with
  | .ieee => (2 ^ f.eb - 1) * 2 ^ f.mb + 2 ^ (f.mb - 1)
  | .e4m3 => 0x7F
  | .none => 0
def Fmt.signBit (f : Fmt) (neg : Bool) : Nat := if neg then 2 ^ (f.eb + f.mb) else 0
def Fmt.infBits (f : Fmt) (neg : Bool) : Nat := f.signBit neg + (2 ^ f.eb - 1) * 2 ^ f.mb
/-- The maximum finite magnitude. -/
def Fmt.maxBits (f : Fmt) : Nat :=
  match f.sp with
  | .ieee => (2 ^ f.eb - 1) * 2 ^ f.mb - 1
  | .e4m3 => 0x7E
  | .none => 2 ^ (f.eb + f.mb) - 1

/-- The value of a bit pattern (R16, R17). -/
def Fmt.decode (f : Fmt) (x : Nat) : FVal :=
  let neg := bitN x (f.eb + f.mb)
  let ex := bitsOf x f.mb f.eb
  let ma := bitsOf x 0 f.mb
  let top := decide (ex = 2 ^ f.eb - 1)
  match f.sp, top with
  | .ieee, true => if ma = 0 then .inf neg else .nan
  | .e4m3, true => if ma = 2 ^ f.mb - 1 then .nan else .fin neg (2 ^ f.mb + ma) ((ex : Int) - f.bias - f.mb)
  | _, _ =>
    if ex = 0 then .fin neg ma f.qmin else .fin neg (2 ^ f.mb + ma) ((ex : Int) - f.bias - f.mb)

/-- R24: a subnormal input of a flushed format becomes a zero of its sign. -/
def Fmt.flushIn (f : Fmt) (ftz : Bool) (v : FVal) : FVal :=
  match v with
  | .fin neg m e => if ftz && f.flush && decide (m < 2 ^ f.mb) && decide (e = f.qmin) then .fin neg 0 0 else v
  | _ => v

def Fmt.read (f : Fmt) (ftz : Bool) (x : Nat) : FVal := f.flushIn ftz (f.decode (uval f.width x))

/-- R26. -/
def mix32 (x : Nat) : Nat :=
  let x := uval 32 x
  let x := uval 32 ((x ^^^ x / 2 ^ 16) * 0x85EBCA6B)
  let x := uval 32 ((x ^^^ x / 2 ^ 13) * 0xC2B2AE35)
  x ^^^ x / 2 ^ 16

def srRandom (seed e lane : Nat) : Nat := mix32 (seed + 0x9E3779B9 * (64 * e + lane))

/-- Whether the magnitude a * 2^d + lo, lo of d discarded bits, rounds up to a + 1 (R25, R26). -/
def roundsUp (rm : Rounding) (u : Nat) (neg : Bool) (a lo d : Nat) : Bool :=
  match rm with
  | .rne => decide (2 ^ d < 2 * lo) || (decide (2 * lo = 2 ^ d) && decide (a % 2 = 1))
  | .rtz => false
  | .rdn => neg && decide (lo ≠ 0)
  | .rup => !neg && decide (lo ≠ 0)
  | .rna => decide (2 ^ d ≤ 2 * lo) && decide (lo ≠ 0)
  | .sr => decide (lo ≠ 0) && decide (u < lo * 2 ^ 32 / 2 ^ d)

/-- The overflow result (R25, R27). -/
def Fmt.overflow (f : Fmt) (rm : Rounding) (sat neg up : Bool) : Nat :=
  let toInf := match rm with
    | .rne => true
    | .rna => true
    | .rtz => false
    | .rdn => neg
    | .rup => !neg
    | .sr => up
  let max := f.signBit neg + f.maxBits
  if !toInf || sat then max
  else match f.sp with
    | .ieee => f.infBits neg
    | .e4m3 => f.signBit neg + 0x7F
    | .none => max

/-- The bit pattern of n * 2^q, n at most 2^(mb+1), q at least the subnormal quantum. -/
def Fmt.pack (f : Fmt) (neg : Bool) (n : Nat) (q : Int) : Nat :=
  if n = 0 then f.signBit neg
  else
    let l := Nat.log2 n
    let ex := (l : Int) + q
    if ex < 1 - (f.bias : Int) then f.signBit neg + n
    else
      let ma := if l ≤ f.mb then n * 2 ^ (f.mb - l) else n / 2 ^ (l - f.mb)
      f.signBit neg + (ex + f.bias).toNat * 2 ^ f.mb + (ma - 2 ^ f.mb)

/-- Whether n * 2^q exceeds the maximum finite value. -/
def Fmt.beyond (f : Fmt) (n : Nat) (q : Int) : Bool :=
  match f.decode f.maxBits with
  | .fin _ m e => if q ≤ e then decide (m * 2 ^ (e - q).toNat < n) else decide (m < n * 2 ^ (q - e).toNat)
  | _ => false

/-- R20, R24 to R27: one rounding of an exact value into a format. u is the number of R26 for SR. -/
def Fmt.round (f : Fmt) (rm : Rounding) (ftz sat : Bool) (u : Nat) (v : FVal) : Nat :=
  match v with
  | .nan => f.nanBits
  | .inf neg =>
    match f.sp with
    | .ieee => if sat then f.signBit neg + f.maxBits else f.infBits neg
    | .e4m3 => if sat then f.signBit neg + f.maxBits else 0x7F
    | .none => f.signBit neg + f.maxBits
  | .fin neg m e =>
    if m = 0 then f.signBit neg
    else
      let ex := (Nat.log2 m : Int) + e
      let q : Int := if ex - f.mb < f.qmin then f.qmin else ex - f.mb
      let d := (q - e).toNat
      let a := if q ≤ e then m * 2 ^ (e - q).toNat else m / 2 ^ d
      let lo := if q ≤ e then 0 else m % 2 ^ d
      let up := decide (lo ≠ 0) && roundsUp rm u neg a lo d
      let n := if up then a + 1 else a
      if f.beyond n q then f.overflow rm sat neg up
      else if ftz && f.flush && decide ((Nat.log2 n : Int) + q < 1 - (f.bias : Int)) then f.signBit neg
      else f.pack neg n q

/-! Exact operations. -/

def FVal.neg? : FVal → Bool
  | .nan => false
  | .inf n => n
  | .fin n _ _ => n

def FVal.isNan (v : FVal) : Bool := v = .nan
def FVal.isZero : FVal → Bool
  | .fin _ m _ => decide (m = 0)
  | _ => false
def FVal.negate : FVal → FVal
  | .nan => .nan
  | .inf n => .inf (!n)
  | .fin n m e => .fin (!n) m e
def FVal.abs : FVal → FVal
  | .nan => .nan
  | .inf _ => .inf false
  | .fin _ m e => .fin false m e

/-- R23: absolute value first, then negation. -/
def FVal.mods (v : FVal) (neg ab : Bool) : FVal :=
  let x := if ab then v.abs else v
  if neg then x.negate else x

/-- The signed significand of a finite value over 2^e0, e0 at most its exponent. -/
def scaled (neg : Bool) (m : Nat) (e e0 : Int) : Int :=
  let x : Int := (m * 2 ^ (e - e0).toNat : Nat)
  if neg then -x else x

def ofInt (zeroNeg : Bool) (z : Int) (e : Int) : FVal :=
  if z = 0 then .fin zeroNeg 0 0 else .fin (decide (z < 0)) z.natAbs e

/-- R120: an exact zero sum is +0, but -0 under RDN; two zeros of one sign keep it. -/
def FVal.add (rm : Rounding) (a b : FVal) : FVal :=
  match a, b with
  | .nan, _ => .nan
  | _, .nan => .nan
  | .inf x, .inf y => if x = y then .inf x else .nan
  | .inf x, _ => .inf x
  | _, .inf y => .inf y
  | .fin na ma ea, .fin nb mb eb =>
    let e0 := if ma = 0 then eb else if mb = 0 then ea else if ea ≤ eb then ea else eb
    let zn := if ma = 0 ∧ mb = 0 ∧ na = nb then na else decide (rm = .rdn)
    ofInt zn ((if ma = 0 then 0 else scaled na ma ea e0) + (if mb = 0 then 0 else scaled nb mb eb e0)) e0

def FVal.mul (a b : FVal) : FVal :=
  match a, b with
  | .nan, _ => .nan
  | _, .nan => .nan
  | .inf x, .inf y => .inf (x != y)
  | .inf x, .fin y m _ => if m = 0 then .nan else .inf (x != y)
  | .fin x m _, .inf y => if m = 0 then .nan else .inf (x != y)
  | .fin x m e, .fin y m' e' => .fin (x != y) (m * m') (e + e')

/-- A quotient to p bits with a sticky last bit. -/
def quotient (p m m' : Nat) : Nat × Nat :=
  let k := p + Nat.log2 m' + 1 - Nat.log2 m
  let q := m * 2 ^ k / m'
  let r := m * 2 ^ k % m'
  (2 * q + (if r = 0 then 0 else 1), k + 1)

/-- R122. The quotient holds more bits than any format and a sticky bit, so its rounding is that of the exact one. -/
def FVal.div (a b : FVal) : FVal :=
  match a, b with
  | .nan, _ => .nan
  | _, .nan => .nan
  | .inf _, .inf _ => .nan
  | .inf x, .fin y _ _ => .inf (x != y)
  | .fin x _ _, .inf y => .fin (x != y) 0 0
  | .fin x m e, .fin y m' e' =>
    if m' = 0 then (if m = 0 then .nan else .inf (x != y))
    else if m = 0 then .fin (x != y) 0 0
    else
      let (q, k) := quotient 64 m m'
      .fin (x != y) q (e - e' - k)

/-- The integer square root, by bits from the top. -/
def isqrtBits (n : Nat) : Nat → Nat → Nat
  | 0, r => r
  | k + 1, r => let t := r + 2 ^ k; isqrtBits n k (if t * t ≤ n then t else r)

def isqrt (n : Nat) : Nat := isqrtBits n (Nat.log2 n / 2 + 1) 0

/-- R122: the root of a number below zero is NaN, of -0 is -0. -/
def FVal.sqrt : FVal → FVal
  | .nan => .nan
  | .inf n => if n then .nan else .inf false
  | .fin n m e =>
    if m = 0 then .fin n 0 0
    else if n then .nan
    else
      -- an even exponent and at least 128 bits of radicand
      let k : Nat := 128 + (if e % 2 = 0 then 0 else 1)
      let x := m * 2 ^ k
      let r := isqrt x
      .fin false (2 * r + (if r * r = x then 0 else 1)) ((e - k) / 2 - 1)

/-- How two values relate; zeros are equal (R126). -/
def FVal.rel (a b : FVal) : Rel :=
  match a, b with
  | .nan, _ => .un
  | _, .nan => .un
  | .inf x, .inf y => if x = y then .eq else if x then .lt else .gt
  | .inf x, _ => if x then .lt else .gt
  | _, .inf y => if y then .gt else .lt
  | .fin na ma ea, .fin nb mb eb =>
    let e0 := if ea ≤ eb then ea else eb
    let x := scaled na ma ea e0
    let y := scaled nb mb eb e0
    if x < y then .lt else if x = y then .eq else .gt

/-- R121: whether the first operand is returned by fmin (less) or fmax; -0 is below +0. -/
def FVal.before (a b : FVal) : Bool :=
  match a.rel b with
  | .lt => true
  | .eq => a.neg? && !b.neg?
  | _ => false

/-- R121, on values: NaN gives the other operand. -/
def FVal.minmax (max : Bool) (a b : FVal) : FVal :=
  if a.isNan then b
  else if b.isNan then a
  else if max then (if a.before b then b else a)
  else if b.before a then b else a

/-- The exact sum of terms (R31, R32, R130): NaN for a NaN or infinities of both signs. A zero sum of zeros of one
sign keeps it; another zero sum is +0, but -0 under RDN. -/
def exactSum (rm : Rounding) (ts : List FVal) : FVal :=
  if ts.any fun t => t.isNan then .nan
  else
    let pos := ts.any fun t => decide (t = .inf false)
    let neg := ts.any fun t => decide (t = .inf true)
    if pos && neg then .nan
    else if pos then .inf false
    else if neg then .inf true
    else
      let e0 := ts.foldl (fun (acc : Int) t => match t with
        | .fin _ m e => if m = 0 then acc else if e < acc then e else acc
        | _ => acc) 0
      let z := sumInt (ts.map fun t => match t with
        | .fin n m e => if m = 0 then 0 else scaled n m e e0
        | _ => 0)
      ofInt ((ts.all fun t => t.isZero && t.neg?) ||
        (decide (rm = .rdn) && !(ts.all fun t => t.isZero && !t.neg?))) z e0

/-- Rounds to an integral value; the sign of a zero result is the value's. -/
def FVal.integral (rm : Rounding) (v : FVal) : FVal :=
  match v with
  | .fin n m e =>
    if 0 ≤ e ∨ m = 0 then v
    else
      let d := (-e).toNat
      let a := m / 2 ^ d
      let lo := m % 2 ^ d
      .fin n (if lo ≠ 0 ∧ roundsUp rm 0 n a lo d then a + 1 else a) 0
  | _ => v

/-- The largest integer at most the value. -/
def floorInt (n : Bool) (m : Nat) (e : Int) : Int :=
  if 0 ≤ e then scaled n m e 0 else scaled n m 0 0 / (2 ^ (-e).toNat : Nat)

/-- R28: to an integer, clamped; NaN gives 0. -/
def FVal.toInt (rm : Rounding) (sg : Bool) (w : Nat) (v : FVal) : Int :=
  match v with
  | .nan => 0
  | .inf n => satI sg w (if n then -(2 ^ 200 : Nat) else (2 ^ 200 : Nat))
  | .fin n m e =>
    if m = 0 then 0
    else if 200 < (Nat.log2 m : Int) + e then satI sg w (if n then -(2 ^ 200 : Nat) else (2 ^ 200 : Nat))
    else match (FVal.fin n m e).integral rm with
      | .fin n m e => satI sg w (scaled n m e 0)
      | _ => 0

/-- R29: an integer as an exact value; zero is +0. -/
def FVal.ofInteger (z : Int) : FVal := ofInt false z 0

end Sys2Proof.Machine
end

