-- ==== Sys2Proof/Machine/Approx.lean ====
section
/-! DEFINITION. The approximate functions (R122, R123). Each result is a free value, Config.approx, taken only where it
lies within the instruction's stated bound of the exact value; otherwise the exact value rounded is the result (log
entry 4). For frcp and frsq the bound is decided exactly; the exact value of the others is computed with 256 fractional
bits, and the bound is not widened. -/

namespace Sys2Proof.Machine

/-! Fixed point with 256 fractional bits. -/

def fxOne : Int := (2 ^ 256 : Nat)
def fxMul (a b : Int) : Int := a * b / fxOne
/-- pi with 512 fractional bits, ln 2 and log2 e with 256. -/
def pi512 : Nat :=
  0x3243F6A8885A308D313198A2E03707344A4093822299F31D0082EFA98EC4E6C89452821E638D01377BE5466CF34E90C6CC0AC29B7C97C50DD3F84D5B5B5470917
def fxLn2 : Int := 0xB17217F7D1CF79ABC9E3B39803F2F6AF40F343267298B62D8A0D175B8BAAFA2B
def fxLog2e : Int := 0x171547652B82FE1777D0FFDA0D23A7D11D6AEF551BAD2B4B1164A2CD9A342648F

/-- 1 + t/j * (1 + t/(j+1) * ...), n terms. -/
def expHorner (t : Int) : Nat → Nat → Int
  | 0, _ => fxOne
  | n + 1, j => fxOne + fxMul t (expHorner t n (j + 1)) / j

/-- 2^f for a fraction f in [0, 1). -/
def fxExp2 (f : Int) : Int := expHorner (fxMul f fxLn2) 64 1

/-- e^a for a in [0, 64], as a fixed-point number. -/
def fxExp (a : Int) : Int :=
  let y := fxMul a fxLog2e
  fxExp2 (y % fxOne) * (2 ^ (y / fxOne).toNat : Nat)

/-- 1 - u/(j(j+1)) * (1 - u/((j+2)(j+3)) * ...), for cos (j = 1) and sin / r (j = 2). -/
def trigHorner (u : Int) : Nat → Nat → Int
  | 0, _ => fxOne
  | n + 1, j => fxOne - fxMul u (trigHorner u n (j + 2)) / (j * (j + 1) : Nat)

/-- z + z^3/3 + z^5/5 + ... divided by z. -/
def atanhHorner (z2 : Int) : Nat → Nat → Int
  | 0, j => fxOne / j
  | n + 1, j => fxOne / j + fxMul z2 (atanhHorner z2 n (j + 2))

/-- sin (or cos) of m * 2^e, e at least -192, with the argument reduced against pi. -/
def fxTrig (cos neg : Bool) (m : Nat) (e : Int) : Int :=
  let a := m * 2 ^ (e + 512).toNat
  let k := 2 * a / pi512
  let r : Int := ((2 * a - k * pi512) / 2 / 2 ^ 256 : Nat)
  let u := fxMul r r
  let q := (k + (if cos then 1 else 0)) % 4
  -- sin at quadrant q, with cos x = sin (x + pi/2)
  let v := if q % 2 = 0 then fxMul r (trigHorner u 40 2) else trigHorner u 40 1
  let w := if 2 ≤ q then -v else v
  if neg && !cos then -w else w

/-- log2 of m * 2^e, m > 0. -/
def fxLog2 (m : Nat) (e : Int) : Int :=
  let l := Nat.log2 m
  let f : Int := (m * 2 ^ 256 / 2 ^ l : Nat)
  let z := (f - fxOne) * fxOne / (f + fxOne)
  ((l : Int) + e) * fxOne + 2 * (fxMul (fxMul z (atanhHorner (fxMul z z) 90 1)) fxLog2e)

/-- A finite value as a fixed-point number, truncated; used for magnitudes below 2^64. -/
def fxOf (neg : Bool) (m : Nat) (e : Int) : Int :=
  let a : Nat := if 0 ≤ e + 256 then m * 2 ^ (e + 256).toNat else m / 2 ^ (-(e + 256)).toNat
  if neg then -(a : Int) else a

/-! The exact value of each function and its bound. -/

/-- The exact value as z * 2^e (rounded towards zero), and the bound as k * 2^b. -/
structure Enc where
  z : Int
  e : Int
  k : Nat
  b : Int

/-- k ulps at z * 2^e (R123: the FP32 spacing at the exact result). -/
def ulps (k : Nat) (z e : Int) : Enc :=
  let ex := (Nat.log2 z.natAbs : Int) + e
  ⟨z, e, k, if ex - 23 < -149 then -149 else ex - 23⟩

def absBound (b : Int) (z : Int) : Enc := ⟨z, -256, 1, b⟩

/-- For a finite nonzero operand in the function's domain. -/
def encOf (f : Config.Approx) (neg : Bool) (m : Nat) (e : Int) : Enc :=
  let big := decide (6 ≤ (Nat.log2 m : Int) + e)
  match f with
  | .frcp =>
    let (q, k) := quotient 64 1 m
    ulps 1 (if neg then -(q : Int) else q) (-e - k)
  | .frsq =>
    let k : Nat := 512 + 2 * Nat.log2 m + (if e % 2 = 0 then 0 else 1)
    ulps 1 (isqrt (2 ^ k / m)) ((-e - k) / 2)
  | .fex2 =>
    -- a positive value far below every FP32 number
    if decide (9 ≤ (Nat.log2 m : Int) + e) then ⟨1, -600, 2, -149⟩
    else
      let x := fxOf neg m e
      ulps 2 (fxExp2 (x % fxOne)) (x / fxOne - 256)
  | .flg2 =>
    let y := fxLog2 m e
    let ex := (Nat.log2 m : Int) + e
    let one := decide (m = 2 ^ Nat.log2 m)
    if ex = -1 ∨ ex = 0 ∨ (ex = 1 ∧ one) then absBound (-22) y else ulps 2 y (-256)
  | .fsin => absBound (-21) (fxTrig false neg m e)
  | .fcos => absBound (-21) (fxTrig true neg m e)
  | .ftanh =>
    let y := if big then fxOne else fxOne - 2 * fxOne * fxOne / (fxExp (2 * fxOf false m e) + fxOne)
    absBound (-22) (if neg then -y else y)
  | .fsigm =>
    let x := if big then fxOne * (2 ^ 64 : Nat) else fxExp (fxOf false m e)
    absBound (-22) (if neg then fxOne * fxOne / (fxOne + x) else fxOne * x / (fxOne + x))

def oneF : FVal := .fin false 1 0

def FVal.atMost (a b : FVal) : Bool := a.rel b = .lt || a.rel b = .eq

def FVal.plus (a b : FVal) : FVal := FVal.add .rne a b

/-- R122, R123: whether a finite value c lies within the bound of the function of x. |c - 1/x| <= B is |cx - 1| <= B|x|,
and c - B <= 1/sqrt x <= c + B is a comparison of squares. -/
def Enc.holds (n : Enc) (f : Config.Approx) (x c : FVal) : Bool :=
  let bound : FVal := .fin false n.k n.b
  match c, f with
  | .fin .., .frcp => ((c.mul x).plus oneF.negate).abs.atMost (bound.mul x.abs)
  | .fin .., .frsq =>
    let lo := c.plus bound.negate
    let hi := c.plus bound
    (lo.atMost (.fin false 0 0) || ((lo.mul lo).mul x).atMost oneF) &&
      (decide (hi.rel (.fin false 0 0) = .gt) && oneF.atMost ((hi.mul hi).mul x))
  | .fin .., _ => (c.plus (ofInt false n.z n.e).negate).abs.atMost bound
  | _, _ => false

/-- R123: |tanh| is at most 1 and the sigmoid lies in [0, 1]. -/
def rangeOk (f : Config.Approx) (v : FVal) : Bool :=
  match f with
  | .ftanh => v.abs.rel (.fin false 1 0) ≠ .gt
  | .fsigm => v.rel (.fin false 1 0) ≠ .gt && v.rel (.fin false 0 0) ≠ .lt
  | _ => true

def halfF : FVal := .fin false 1 (-1)
def zeroF (neg : Bool) : FVal := .fin neg 0 0

/-- The values that the table of R123 fixes, none where the bound governs. -/
def approxFixed (f : Config.Approx) (v : FVal) : Option FVal :=
  match v with
  | .nan => some .nan
  | .inf n => match f with
    | .frcp => some (zeroF n)
    | .frsq => some (if n then .nan else zeroF false)
    | .fex2 => some (if n then zeroF false else .inf false)
    | .flg2 => some (if n then .nan else .inf false)
    | .fsin => some .nan
    | .fcos => some .nan
    | .ftanh => some (.fin n 1 0)
    | .fsigm => some (if n then zeroF false else oneF)
  | .fin n m e =>
    if m = 0 then
      match f with
      | .frcp => some (.inf n)
      | .frsq => some (.inf n)
      | .fex2 => some oneF
      | .flg2 => some (.inf true)
      | .fsin => some (zeroF n)
      | .fcos => some oneF
      | .ftanh => some (zeroF n)
      | .fsigm => some halfF
    else
      match f with
      | .frcp => if !n && decide (v.rel oneF = .eq) then some oneF
        else if (encOf f n m e).z.natAbs = 0 then none
        else if fp32.decode (fp32.round .rne false false 0 (ofInt false (encOf f n m e).z (encOf f n m e).e)) = .inf n
        then some (.inf n) else none
      | .frsq => if n then some .nan else if v.rel oneF = .eq then some oneF else none
      | .fex2 =>
        if !n && decide (v.rel (.fin false 128 0) ≠ .lt) then some (.inf false)
        else if (v.integral .rtz).rel v = .eq ∧ v.rel (.fin true 149 0) ≠ .lt then
          some (.fin false 1 (v.toInt .rtz true 64))
        else none
      | .flg2 => if n then some .nan else if v.rel oneF = .eq then some (zeroF false) else none
      | _ => none

/-- R20, R122, R123: the result of an approximate function of a value, as FP32 bits. -/
def approxFn (f : Config.Approx) (v : FVal) : Nat :=
  match approxFixed f v with
  | some r => fp32.round .rne false false 0 r
  | none =>
    match v with
    | .fin n m e =>
      let enc := encOf f n m e
      let bits := BitVec.ofNat 32 (fp32.round .rne false false 0 v)
      let c := Config.approx f bits
      let cv := fp32.decode c.toNat
      if enc.holds f v cv && rangeOk f cv then c.toNat
      else fp32.round .rne false false 0 (ofInt false enc.z enc.e)
    | _ => fp32.nanBits

/-- R24: a subnormal FP32 result under FTZ. -/
def flushBits (f : Fmt) (ftz : Bool) (x : Nat) : Nat :=
  if ftz && f.flush && decide (bitsOf x f.mb f.eb = 0) then f.signBit (bitN x (f.eb + f.mb)) else x

end Sys2Proof.Machine
end

