-- ==== Sys2Proof/Machine/Floating.lean ====
section
/-! DEFINITION. Opcodes 0x3F to 0x68: FP32, FP64 and packed 16-bit arithmetic (R120 to R130). -/

namespace Sys2Proof.Machine

/-! Operands under the modifier layout of R54 (R23, R24). -/

def rdA (f : Fmt) (m : FMod) (x : Nat) : FVal := (f.read m.ftz x).mods m.negA m.absA
def rdB (f : Fmt) (m : FMod) (x : Nat) : FVal := (f.read m.ftz x).mods m.negB m.absB
def rdC (f : Fmt) (m : FMod) (neg : Bool) (x : Nat) : FVal := (f.read m.ftz x).mods neg false

/-- One rounding by the instruction's mode. -/
def fin1 (f : Fmt) (m : FMod) (v : FVal) : Nat := f.round m.rm m.ftz false 0 v

def fop1 (f : Fmt) (m : FMod) (g : FVal → FVal) : Nat → List Nat → Nat := fn1 fun a => fin1 f m (g (rdA f m a))
def fop2 (f : Fmt) (m : FMod) (g : FVal → FVal → FVal) : Nat → List Nat → Nat :=
  fn2 fun a b => fin1 f m (g (rdA f m a) (rdB f m b))
def fop3 (f : Fmt) (m : FMod) (nc : Bool) (g : FVal → FVal → FVal → FVal) : Nat → List Nat → Nat :=
  fn3 fun a b c => fin1 f m (g (rdA f m a) (rdB f m b) (rdC f m nc c))

def fmaV (rm : Rounding) (a b c : FVal) : FVal := (a.mul b).add rm c

/-- R50: the I forms round by RNE with FTZ off. -/
def immF (imm : W32) : FVal := fp32.decode imm.toNat
def rne32 (v : FVal) : Nat := fp32.round .rne false false 0 v
def plain32 (x : Nat) : FVal := fp32.read false x

/-! FP32 (R120, R121). -/

def execFadd (m : FMod) (o : R2) (s : State) : Out := laneOp s (.fadd m o) false (fop2 fp32 m fun a b => a.add m.rm b)
def execFaddI (o : I1) (s : State) : Out :=
  laneOp s (.faddI o) false (fn1 fun a => rne32 ((plain32 a).add .rne (immF o.imm)))
def execFsub (m : FMod) (o : R2) (s : State) : Out :=
  laneOp s (.fsub m o) false (fop2 fp32 m fun a b => a.add m.rm b.negate)
def execFmul (m : FMod) (o : R2) (s : State) : Out := laneOp s (.fmul m o) false (fop2 fp32 m FVal.mul)
def execFmulI (o : I1) (s : State) : Out :=
  laneOp s (.fmulI o) false (fn1 fun a => rne32 ((plain32 a).mul (immF o.imm)))
def execFfma (m : FMod) (nc : Bool) (o : R3) (s : State) : Out :=
  laneOp s (.ffma m nc o) false (fop3 fp32 m nc (fmaV m.rm))
def execFfmaI (o : I1) (s : State) : Out :=
  laneOp s (.ffmaI o) false (fn2 fun a d => rne32 (fmaV .rne (plain32 a) (immF o.imm) (plain32 d)))
def execFmin (m : FMod) (o : R2) (s : State) : Out := laneOp s (.fmin m o) false (fop2 fp32 m (FVal.minmax false))
def execFmax (m : FMod) (o : R2) (s : State) : Out := laneOp s (.fmax m o) false (fop2 fp32 m (FVal.minmax true))
def execFclamp (m : FMod) (o : R3) (s : State) : Out :=
  laneOp s (.fclamp m o) false (fop3 fp32 m false fun a b c => (a.minmax true b).minmax false c)

/-- R126: the three-way code as a 32-bit pattern. -/
def relBits (w : Nat) (r : Rel) : Nat := wrap w (relCode r)

def execFcmp (m : FMod) (o : R2) (s : State) : Out :=
  laneOp s (.fcmp m o) true (fn2 fun a b => relBits 32 ((rdA fp32 m a).rel (rdB fp32 m b)))
def execFcmpI (o : I1) (s : State) : Out :=
  laneOp s (.fcmpI o) true (fn1 fun a => relBits 32 ((plain32 a).rel (immF o.imm)))
def execFset (m : FMod) (cc : FCond) (pd : Pred) (o : P2) (s : State) : Out :=
  predOp s (.fset m cc pd o) pd fun vs =>
    condFloat cc ((rdA fp32 m (vs.getD 0 0)).rel (rdB fp32 m (vs.getD 1 0)))

/-! Approximate and correctly rounded functions (R122, R123). -/

def approxOp (s : State) (i : Instr) (m : FMod) (f : Config.Approx) : Out :=
  laneOp s i false (fn1 fun a => flushBits fp32 m.ftz (approxFn f (rdA fp32 m a)))

def execFrcp (m : FMod) (o : R1) (s : State) : Out := approxOp s (.frcp m o) m .frcp
def execFrsq (m : FMod) (o : R1) (s : State) : Out := approxOp s (.frsq m o) m .frsq
def execFsqrt (m : FMod) (o : R1) (s : State) : Out := laneOp s (.fsqrt m o) false (fop1 fp32 m FVal.sqrt)
def execFdiv (m : FMod) (o : R2) (s : State) : Out := laneOp s (.fdiv m o) false (fop2 fp32 m FVal.div)
def execFex2 (m : FMod) (o : R1) (s : State) : Out := approxOp s (.fex2 m o) m .fex2
def execFlg2 (m : FMod) (o : R1) (s : State) : Out := approxOp s (.flg2 m o) m .flg2
def execFsin (m : FMod) (o : R1) (s : State) : Out := approxOp s (.fsin m o) m .fsin
def execFcos (m : FMod) (o : R1) (s : State) : Out := approxOp s (.fcos m o) m .fcos
def execFtanh (m : FMod) (o : R1) (s : State) : Out := approxOp s (.ftanh m o) m .ftanh
def execFsigm (m : FMod) (o : R1) (s : State) : Out := approxOp s (.fsigm m o) m .fsigm

/-- R123: x times fsigm(x), rounded by RNE; the limits -0 and +infinity are given. -/
def siluV (v : FVal) : Nat :=
  match v with
  | .inf true => fp32.signBit true
  | .inf false => fp32.infBits false
  | _ => rne32 (v.mul (fp32.decode (approxFn .fsigm v)))

def execFsilu (m : FMod) (o : R1) (s : State) : Out :=
  laneOp s (.fsilu m o) false (fn1 fun a => flushBits fp32 m.ftz (siluV (rdA fp32 m a)))

/-! Rounding and scale (R124, R125). -/

/-- A - floor(A) exactly; an exact zero is +0. -/
def fracV : FVal → FVal
  | .fin n m e => if 0 ≤ e then .fin false 0 0 else ofInt false (scaled n m 0 0 % (2 ^ (-e).toNat : Nat)) e
  | _ => .nan

def execFfrc (m : FMod) (o : R1) (s : State) : Out := laneOp s (.ffrc m o) false (fop1 fp32 m fracV)
def execFrnd (m : FMod) (o : R1) (s : State) : Out := laneOp s (.frnd m o) false (fop1 fp32 m (FVal.integral m.rm))

/-- Scaling by 2^n; beyond 2^±1000 the rounded result no longer depends on n. -/
def scaleV (v : FVal) (n : Int) : FVal :=
  match v with
  | .fin s m e => .fin s m (e + clampI (-1000) 1000 n)
  | _ => v

def execFldexp (m : FMod) (o : R2) (s : State) : Out :=
  laneOp s (.fldexp m o) false (fn2 fun a b => fin1 fp32 m (scaleV (rdA fp32 m a) (sval 32 b)))

def mantV : FVal → FVal
  | .fin n m e => if m = 0 then .fin n m e else .fin n m (-(Nat.log2 m : Int))
  | v => v

def execFmant (m : FMod) (o : R1) (s : State) : Out := laneOp s (.fmant m o) false (fop1 fp32 m mantV)

def expoV : FVal → Int
  | .fin _ m e => if m = 0 then -(2 ^ 31 : Nat) else (Nat.log2 m : Int) + e
  | _ => (2 ^ 31 : Nat) - 1

def execFexpo (m : FMod) (o : R1) (s : State) : Out :=
  laneOp s (.fexpo m o) true (fn1 fun a => wrap 32 (expoV (rdA fp32 m a)))

/-! FP64 (R128). -/

def execDadd (m : FMod) (o : R2) (s : State) : Out := laneOp s (.dadd m o) false (fop2 fp64 m fun a b => a.add m.rm b)
def execDmul (m : FMod) (o : R2) (s : State) : Out := laneOp s (.dmul m o) false (fop2 fp64 m FVal.mul)
def execDfma (m : FMod) (nc : Bool) (o : R3) (s : State) : Out :=
  laneOp s (.dfma m nc o) false (fop3 fp64 m nc (fmaV m.rm))
def execDcmp (m : FMod) (o : R2) (s : State) : Out :=
  laneOp s (.dcmp m o) true (fn2 fun a b => relBits 32 ((rdA fp64 m a).rel (rdB fp64 m b)))
def execDdiv (m : FMod) (o : R2) (s : State) : Out := laneOp s (.ddiv m o) false (fop2 fp64 m FVal.div)
def execDsqrt (m : FMod) (o : R1) (s : State) : Out := laneOp s (.dsqrt m o) false (fop1 fp64 m FVal.sqrt)

/-! Packed 16-bit (R129). -/

def hfmt (bf : Bool) : Fmt := if bf then bf16 else fp16

def half2 (f : Nat → Nat → Nat) (a b : Nat) : Nat :=
  joinElems 16 (((elems 2 16 a).zip (elems 2 16 b)).map fun x => f x.1 x.2)

def hop2 (m : FMod) (bf : Bool) (g : FVal → FVal → FVal) : Nat → List Nat → Nat :=
  fn2 (half2 fun a b => fin1 (hfmt bf) m (g (rdA (hfmt bf) m a) (rdB (hfmt bf) m b)))

def execHadd2 (m : FMod) (bf : Bool) (o : R2) (s : State) : Out :=
  laneOp s (.hadd2 m bf o) false (hop2 m bf fun a b => a.add m.rm b)
def execHmul2 (m : FMod) (bf : Bool) (o : R2) (s : State) : Out := laneOp s (.hmul2 m bf o) false (hop2 m bf FVal.mul)
def execHfma2 (m : FMod) (bf nc : Bool) (o : R3) (s : State) : Out :=
  let f := hfmt bf
  laneOp s (.hfma2 m bf nc o) false (fn3 fun a b c =>
    joinElems 16 (((elems 2 16 a).zip ((elems 2 16 b).zip (elems 2 16 c))).map fun x =>
      fin1 f m (fmaV m.rm (rdA f m x.1) (rdB f m x.2.1) (rdC f m nc x.2.2))))
def execHmin2 (m : FMod) (bf : Bool) (o : R2) (s : State) : Out :=
  laneOp s (.hmin2 m bf o) false (hop2 m bf (FVal.minmax false))
def execHmax2 (m : FMod) (bf : Bool) (o : R2) (s : State) : Out :=
  laneOp s (.hmax2 m bf o) false (hop2 m bf (FVal.minmax true))
def execHcmp2 (m : FMod) (bf : Bool) (o : R2) (s : State) : Out :=
  laneOp s (.hcmp2 m bf o) false (fn2 (half2 fun a b =>
    relBits 16 ((rdA (hfmt bf) m a).rel (rdB (hfmt bf) m b))))

/-- R130: one rounding of C and both products. -/
def execFdot2 (m : FMod) (bf : Bool) (o : R3) (s : State) : Out :=
  laneOp s (.fdot2 m bf o) false (fn3 fun a b c =>
    let p := ((elems 2 16 a).zip (elems 2 16 b)).map fun x => (rdA (hfmt bf) m x.1).mul (rdB (hfmt bf) m x.2)
    fin1 fp32 m (exactSum m.rm (rdC fp32 m false c :: p)))

end Sys2Proof.Machine
end

