-- ==== Sys2Proof/Machine/Integer.lean ====
section
/-! DEFINITION. Opcodes 0x00 to 0x3E: integer, logic, compare, select, predicate, move and packing (R95 to R119).
Every effect is computed from a lane's own sources by the shapes of Operands. -/

namespace Sys2Proof.Machine

/-! Integer arithmetic (R95). -/

def execIadd (t : IntTy) (o : R2) (s : State) : Out := laneOp s (.iadd t o) t.sx (fn2 (t.map2 fun a b => a + b))
def execIsub (t : IntTy) (o : R2) (s : State) : Out := laneOp s (.isub t o) t.sx (fn2 (t.map2 fun a b => a - b))

/-- The low or high half of the exact product. -/
def mulHalf (hi : Bool) (w : Nat) (a b : Int) : Int := if hi then a * b / (2 ^ w : Nat) else a * b

def execImul (t : IntTy) (hi : Bool) (o : R2) (s : State) : Out :=
  laneOp s (.imul t hi o) t.sx (fn2 (t.map2 (mulHalf hi t.ew)))
def execImad (t : IntTy) (o : R3) (s : State) : Out :=
  laneOp s (.imad t o) t.sx (fn3 (t.map3 fun a b c => a * b + c))
def execImuls (t : IntTy) (o : R2) (s : State) : Out :=
  laneOp s (.imuls t o) t.sx (fn2 (t.map2 fun a b => t.sat (a * b)))
def execImin (t : IntTy) (o : R2) (s : State) : Out :=
  laneOp s (.imin t o) t.sx (fn2 (t.map2 fun a b => if a < b then a else b))
def execImax (t : IntTy) (o : R2) (s : State) : Out :=
  laneOp s (.imax t o) t.sx (fn2 (t.map2 fun a b => if a > b then a else b))
def execIclamp (t : IntTy) (o : R3) (s : State) : Out :=
  laneOp s (.iclamp t o) t.sx (fn3 (t.map3 fun a b c => let m := if a > b then a else b; if m < c then m else c))

/-- The minimum value gives itself, or the maximum where sat holds. -/
def absNeg (t : IntTy) (sat : Bool) (z : Int) : Int := if sat then t.sat z else z

def execIabs (t : IntTy) (sat : Bool) (o : R1) (s : State) : Out :=
  laneOp s (.iabs t sat o) t.sx (fn1 (t.map1 fun a => absNeg t sat (if a < 0 then -a else a)))
def execIneg (t : IntTy) (sat : Bool) (o : R1) (s : State) : Out :=
  laneOp s (.ineg t sat o) t.sx (fn1 (t.map1 fun a => absNeg t sat (-a)))
def execIadds (t : IntTy) (o : R2) (s : State) : Out :=
  laneOp s (.iadds t o) t.sx (fn2 (t.map2 fun a b => t.sat (a + b)))
def execIsubs (t : IntTy) (o : R2) (s : State) : Out :=
  laneOp s (.isubs t o) t.sx (fn2 (t.map2 fun a b => t.sat (a - b)))
def execIscadd (t : IntTy) (n : BitVec 6) (o : R2) (s : State) : Out :=
  laneOp s (.iscadd t n o) t.sx (fn2 (t.map2 fun a b => a * (2 ^ n.toNat : Nat) + b))

/-! I forms of arithmetic (R89). -/

/-- An I form: the source as a signed number of the operating width, and the immediate. -/
def immOp (s : State) (i : Instr) (o : I1) (f : Int → Int → Int) : Out :=
  let w := immWidth o.d
  laneOp s i false (fn1 fun a => wrap w (f (sval w a) (immVal o.imm)))

def execIaddI (o : I1) (s : State) : Out := immOp s (.iaddI o) o fun a b => a + b
def execImulI (o : I1) (s : State) : Out := immOp s (.imulI o) o fun a b => a * b
def execImadI (o : I1) (s : State) : Out :=
  let w := immWidth o.d
  laneOp s (.imadI o) false (fn2 fun a d => wrap w (sval w a * immVal o.imm + sval w d))

/-! Division (R96). -/

/-- Quotient and remainder under the NT rule; a signed overflow gives the dividend and 0. -/
def divRem (sg : Bool) (w a b : Nat) : Nat × Nat :=
  let x := elemVal sg w a
  let y := elemVal sg w b
  if y = 0 then (0, wrap w x)
  else (wrap w (x.tdiv y), wrap w (x.tmod y))

/-- R96: a zero divisor with NT = 0 raises ARITH in the lanes whose divisor is not poisoned. -/
def divOp (s : State) (i : Instr) (t : IntTy) (nt : Bool) (o : R2) (pick : Nat × Nat → Nat) : Out :=
  onTroupe s fun c =>
    let b := o.b.opnd t.regs
    let marked := maskOf ((lanes c.mask).filter fun l =>
      decide (uval t.ew (c.t.value l b) = 0) && !nt && !c.t.poisoned l b)
    s.whenReady c i c.mask
      (if marked ≠ 0 then s.raise c causeArith 0 0 marked
       else s.advance c (c.t.compute c.mask i.srcs (o.d.opnd t.regs) t.sx
         (fn2 fun x y => pick (divRem t.signed t.ew x y))))

def execIdiv (t : IntTy) (nt : Bool) (o : R2) (s : State) : Out := divOp s (.idiv t nt o) t nt o (·.1)
def execIrem (t : IntTy) (nt : Bool) (o : R2) (s : State) : Out := divOp s (.irem t nt o) t nt o (·.2)

/-! Carries (R97). -/

def carryOp (s : State) (i : Instr) (t : IntTy) (ci : Bool) (p : Pred) (o : R2)
    (f : Nat → Nat → Nat → Bool → Nat × Bool) : Out :=
  onTroupe s fun c =>
    let a := o.a.opnd t.regs
    let b := o.b.opnd t.regs
    let res := fun l => f t.ew (c.t.value l a) (c.t.value l b) (ci && c.t.pred p l)
    let bad := fun l => c.t.srcPoison l [a, b] || (ci && c.t.predBad p l)
    -- a uniform form computes once, with the carry in of the lowest participating lane
    let from_ := fun l => if o.d.isS then firstLane c.mask else l
    let t1 := c.t.write c.mask (o.d.opnd t.regs) t.sx fun l => ((res l).1, c.t.srcTaint l [a, b], bad l)
    s.whenReady c i c.mask (s.advance c (t1.writePred c.mask p fun l => ((res (from_ l)).2, bad l)))

def execIaddc (t : IntTy) (ci : Bool) (p : Pred) (o : R2) (s : State) : Out :=
  carryOp s (.iaddc t ci p o) t ci p o addCarry
def execIsubb (t : IntTy) (ci : Bool) (p : Pred) (o : R2) (s : State) : Out :=
  carryOp s (.isubb t ci p o) t ci p o subBorrow

/-! Dot products and differences (R98, R99). -/

def dotInt (n w : Nat) (sa sb : Bool) (a b : Nat) : Int :=
  sumInt (((elems n w a).zip (elems n w b)).map fun x => elemVal sa w x.1 * elemVal sb w x.2)

def dotOp (n w : Nat) (t : IntTy) (sa sb sat : Bool) (a b c : Nat) : Nat :=
  let z := elemVal t.signed 32 c + dotInt n w sa sb a b
  wrap 32 (if sat then t.sat z else z)

def execIdp4 (t : IntTy) (sa sb sat : Bool) (o : R3) (s : State) : Out :=
  laneOp s (.idp4 t sa sb sat o) t.sx (fn3 (dotOp 4 8 t sa sb sat))
def execIdp2 (t : IntTy) (sa sb sat : Bool) (o : R3) (s : State) : Out :=
  laneOp s (.idp2 t sa sb sat o) t.sx (fn3 (dotOp 2 16 t sa sb sat))

def execIsad (t : IntTy) (o : R3) (s : State) : Out :=
  laneOp s (.isad t o) false (fn3 fun a b c =>
    wrap 32 ((uval 32 c : Int) + sumInt (((elems t.count t.ew a).zip (elems t.count t.ew b)).map fun x =>
      ((elemVal t.signed t.ew x.1 - elemVal t.signed t.ew x.2).natAbs : Int))))

/-! Logic (R100). -/

def notN (w a : Nat) : Nat := 2 ^ w - 1 - uval w a

/-- R100, R88: a result of type i32 in an s register is sign-extended (DESIGN CHOICE, log entry 105). -/
def logicOp (s : State) (i : Instr) (t : IntTy) (f : Nat → Nat → Nat) : Out :=
  laneOp s i t.sx (fn2 fun a b => f (uval t.ew a) (uval t.ew b))

def execAnd (t : IntTy) (o : R2) (s : State) : Out := logicOp s (.and t o) t fun a b => a &&& b
def execOr (t : IntTy) (o : R2) (s : State) : Out := logicOp s (.or t o) t fun a b => a ||| b
def execXor (t : IntTy) (o : R2) (s : State) : Out := logicOp s (.xor t o) t fun a b => a ^^^ b
def execAndn (t : IntTy) (o : R2) (s : State) : Out := logicOp s (.andn t o) t fun a b => a &&& notN t.ew b

def logicImm (s : State) (i : Instr) (o : I1) (f : Nat → Nat → Nat) : Out :=
  let w := immWidth o.d
  laneOp s i false (fn1 fun a => f (uval w a) (wrap w (immVal o.imm)))

def execAndI (o : I1) (s : State) : Out := logicImm s (.andI o) o fun a b => a &&& b
def execOrI (o : I1) (s : State) : Out := logicImm s (.orI o) o fun a b => a ||| b
def execXorI (o : I1) (s : State) : Out := logicImm s (.xorI o) o fun a b => a ^^^ b

/-- A two-input table applied bit by bit. -/
def lutBits (w : Nat) (f : BitVec 4) (a b : Nat) : Nat :=
  let pick := fun (i : Nat) (x : Nat) => if f.getLsbD i then x else 0
  pick 0 (notN w a &&& notN w b) ||| pick 1 (notN w a &&& b) ||| pick 2 (a &&& notN w b) ||| pick 3 (a &&& b)

def execLmux (t : IntTy) (f0 f1 : BitVec 4) (o : R3) (s : State) : Out :=
  laneOp s (.lmux t f0 f1 o) t.sx (fn3 fun a b c =>
    let a := uval t.ew a
    let b := uval t.ew b
    let c := uval t.ew c
    (lutBits t.ew f1 a b &&& c) ||| (lutBits t.ew f0 a b &&& notN t.ew c))

/-! Shifts (R101 to R103). -/

def shlW (w x n : Nat) : Nat := if w ≤ n then 0 else x * 2 ^ n % 2 ^ w
def shrW (w x n : Nat) : Nat := if w ≤ n then 0 else uval w x / 2 ^ n
def sraW (w x n : Nat) : Nat := wrap w (sval w x / (2 ^ (Nat.min n w) : Nat))

/-- The amount is a control operand for a scalar type and packed like A for a packed one. -/
def shiftBy (t : IntTy) (f : Nat → Nat → Nat → Nat) (a b : Nat) : Nat :=
  if t.scalar then f t.ew (uval t.ew a) (uval 32 b)
  else joinElems t.ew (((elems t.count t.ew a).zip (elems t.count t.ew b)).map fun x => f t.ew x.1 x.2)

def execShl (t : IntTy) (o : R2) (s : State) : Out := laneOp s (.shl t o) t.sx (fn2 (shiftBy t shlW))
def execShr (t : IntTy) (o : R2) (s : State) : Out := laneOp s (.shr t o) t.sx (fn2 (shiftBy t shrW))
def execSra (t : IntTy) (o : R2) (s : State) : Out := laneOp s (.sra t o) t.sx (fn2 (shiftBy t sraW))

def shiftImm (s : State) (i : Instr) (o : I1) (f : Nat → Nat → Nat → Nat) : Out :=
  laneOp s i false (fn1 fun a => f (immWidth o.d) (uval (immWidth o.d) a) o.imm.toNat)

def execShlI (o : I1) (s : State) : Out := shiftImm s (.shlI o) o shlW
def execShrI (o : I1) (s : State) : Out := shiftImm s (.shrI o) o shrW
def execSraI (o : I1) (s : State) : Out := shiftImm s (.sraI o) o sraW

/-- Rotation left by n < w. -/
def rotL (w x n : Nat) : Nat := uval w (x * 2 ^ n) ||| uval w x / 2 ^ (w - n)

def execRot (t : IntTy) (right : Bool) (o : R2) (s : State) : Out :=
  laneOp s (.rot t right o) t.sx (fn2 fun a b =>
    let n := uval 32 b % t.ew
    rotL t.ew (uval t.ew a) (if right then (t.ew - n) % t.ew else n))

def execFsh (left : Bool) (o : R3) (s : State) : Out :=
  laneOp s (.fsh left o) false (fn3 fun a b c =>
    let x := uval 32 b * 2 ^ 32 + uval 32 a
    let n := c % 64
    if left then bitsOf (uval 64 (x * 2 ^ n)) 32 32 else bitsOf x n 32)

/-! Counting and bit fields (R104 to R107). -/

/-- The bits of x above its highest one bit, of w. -/
def clzW (w x : Nat) : Nat := if uval w x = 0 then w else w - 1 - Nat.log2 (uval w x)
def ctzW (w x : Nat) : Nat := ((List.range w).find? fun i => bitN x i).getD w
def revBits (w x : Nat) : Nat :=
  (List.range w).foldl (fun acc i => acc + (if bitN x i then 2 ^ (w - 1 - i) else 0)) 0

def execPopc (t : IntTy) (o : R1) (s : State) : Out := laneOp s (.popc t o) false (fn1 (popcount t.ew))
def execClz (t : IntTy) (o : R1) (s : State) : Out := laneOp s (.clz t o) false (fn1 (clzW t.ew))
def execCtz (t : IntTy) (o : R1) (s : State) : Out := laneOp s (.ctz t o) false (fn1 (ctzW t.ew))
def execBrev (t : IntTy) (o : R1) (s : State) : Out := laneOp s (.brev t o) t.sx (fn1 (revBits t.ew))

def bfeW (sg : Bool) (w a b c : Nat) : Nat :=
  let len := Nat.min (c % 256) w
  let f := bitsOf (uval w a) (b % 256) len
  if sg ∧ 0 < len then wrap w (sval len f) else f

def bfiW (w a b c : Nat) : Nat :=
  let m := (2 ^ (Nat.min (bitsOf c 8 8) w) - 1) * 2 ^ (c % 256) % 2 ^ w
  (uval w b &&& notN w m) ||| (uval w (a * 2 ^ (c % 256)) &&& m)

def execBfe (t : IntTy) (o : R3) (s : State) : Out := laneOp s (.bfe t o) t.sx (fn3 (bfeW t.signed t.ew))
def execBfi (t : IntTy) (o : R3) (s : State) : Out := laneOp s (.bfi t o) t.sx (fn3 (bfiW t.ew))

def bpermW (a b c : Nat) : Nat :=
  joinElems 8 ((List.range 4).map fun i =>
    let sl := bitsOf c (4 * i) 4
    let y := bitsOf (uval 32 b * 2 ^ 32 + uval 32 a) (8 * (sl % 8)) 8
    if 8 ≤ sl then (if 128 ≤ y then 255 else 0) else y)

def execBperm (o : R3) (s : State) : Out := laneOp s (.bperm o) false (fn3 bpermW)

def execSext (t : IntTy) (o : R2) (s : State) : Out :=
  laneOp s (.sext t o) t.sx (fn2 fun a b =>
    let n := b % 64
    if t.ew ≤ n + 1 then uval t.ew a else wrap t.ew (sval (n + 1) a))

def execImsk (t : IntTy) (o : R2) (s : State) : Out :=
  laneOp s (.imsk t o) t.sx (fn2 fun a b =>
    shlW t.ew (2 ^ (Nat.min (uval 32 b) t.ew) - 1) (uval 32 a))

/-! Compare, select and predicates (R109 to R113). -/

/-- A scalar code is sign-extended in an s register. -/
def execIcmp (t : IntTy) (o : R2) (s : State) : Out := laneOp s (.icmp t o) t.scalar (fn2 (t.map2 threeWay))

/-- R109: bit 31 of the immediate is U; the rest is sign-extended. -/
def execIcmpI (o : I1) (s : State) : Out :=
  let w := immWidth o.d
  let sg := !o.imm.getLsbD 31
  let b := wrap w (sval 31 o.imm.toNat)
  laneOp s (.icmpI o) false (fn1 fun a => wrap w (threeWay (elemVal sg w a) (elemVal sg w b)))

def execIset (t : IntTy) (cc : ICond) (pd : Pred) (o : P2) (s : State) : Out :=
  predOp s (.iset t cc pd o) pd fun vs =>
    condInt cc (elemVal t.signed t.ew (vs.getD 0 0)) (elemVal t.signed t.ew (vs.getD 1 0))

def execIsetI (cc : ICond) (u : Bool) (pd : Pred) (a : Src) (imm : BitVec 25) (s : State) : Out :=
  predOp s (.isetI cc u pd a imm) pd fun vs =>
    condInt cc (elemVal (!u) 32 (vs.getD 0 0)) (elemVal (!u) 32 (wrap 32 imm.toInt))

/-- R111: the guard selects the lanes; a poisoned guard raises POISON, a poisoned select predicate does not. -/
def execSel (g : Option Guard) (w64 inv : Bool) (q : Pred) (o : R2) (s : State) : Out :=
  onTroupe s fun c =>
    let n := if w64 then 2 else 1
    let m := c.guardMask g
    let a := o.a.opnd n
    let b := o.b.opnd n
    let pick := fun l => if c.t.pred q l ≠ inv then a else b
    s.whenReady c (.sel g w64 inv q o) m
      (if c.guardBad g ≠ 0 then s.raise c causePoison 0 0 (c.guardBad g)
       else s.advance c (c.t.write m (o.d.opnd n) false fun l =>
        (c.t.value l (pick l), c.t.srcTaint l [a, b], c.t.poisoned l (pick l) || c.t.predBad q l)))

def execPlop (pd pa pb : Pred) (lut : BitVec 4) (s : State) : Out :=
  onTroupe s fun c =>
    s.advance c (c.t.writePred c.mask pd fun l =>
      (lutBit lut (c.t.pred pa l) (c.t.pred pb l), c.t.predBad pa l || c.t.predBad pb l))

def allPreds : List Pred := [0, 1, 2, 3, 4, 5, 6, 7]

def execPmovToReg (d : Reg) (s : State) : Out :=
  onTroupe s fun c =>
    s.whenReady c (.pmovToReg d) c.mask
      (s.advance c (c.t.write c.mask (d.opnd 1) false fun l =>
        (sumNat (allPreds.map fun p => if c.t.pred p l then 2 ^ p.val else 0), false,
          allPreds.any fun p => c.t.predBad p l)))

def execPmovToPred (a : Src) (mask : BitVec 8) (s : State) : Out :=
  onTroupe s fun c =>
    let x := a.opnd 1
    let put := fun (t : Troupe) (p : Pred) =>
      if mask.getLsbD p.val then
        t.writePred c.mask p fun l => (bitN (c.t.value l x) p.val, c.t.poisoned l x)
      else t
    s.whenReady c (.pmovToPred a mask) c.mask (s.advance c (allPreds.foldl put c.t))

/-! Moves and lanes (R114 to R116). -/

/-- R114: a 32-bit value moved to an s register is zero-extended (DESIGN CHOICE, log entry 105). -/
def execMov (w64 : Bool) (o : R1) (s : State) : Out :=
  laneOp s (.mov w64 o) false (fn1 fun a => if w64 then a else uval 32 a)

def execMovi (d : Reg) (imm : W32) (s : State) : Out :=
  laneOp s (.movi d imm) true fun _ _ => imm.toNat

/-- R114: the high half is replaced; in v registers the low register keeps its value and bits. -/
def execMovhi (d : Reg) (imm : W32) (s : State) : Out :=
  onTroupe s fun c =>
    let src := d.opnd1 1 2
    let t1 : Troupe := match d with
      | .s n => c.t.putS n (BitVec.ofNat 64 (imm.toNat * 2 ^ 32 + uval 32 (c.t.s n).toNat)) (c.t.sBad n)
      | .v n =>
        { c.t with
          lane := (lanes c.mask).foldl
            (fun r l => r.put l (n.val + 1) imm (c.t.tainted l src) (c.t.poisoned l src)) c.t.lane }
    s.whenReady c (.movhi d imm) c.mask (s.advance c t1)

/-- The value, taint and poison of one v register of any lane (R76). -/
def Troupe.laneRead (t : Troupe) (l reg : Nat) : Nat × Bool × Bool :=
  if t.exited.getLsbD l then (0, false, false)
  else ((t.lane.get l reg).toNat, laneBit t.lane.taint reg l, laneBit t.lane.poison reg l)

/-- R66, R115: the full/empty test is that of the lane read. The register read is as it stands, with what the clause wrote
before (R91), though R76 speaks of its issue (DESIGN CHOICE, log entry 106). -/
def execRdlane (d : Reg) (a : Src) (b : SReg) (s : State) : Out :=
  onTroupe s fun c =>
    let n := (c.t.s b).toNat % 64
    let reg := regField a.reg
    let src := a.opnd 1
    let isEmpty := !c.t.exited.getLsbD n && (c.t.emptyLanes src).getLsbD n
    let r := c.t.laneRead n reg
    match s.ready c [(Reg.s b).opnd 1] [d.opnd 1] c.mask with
    | .empty _ _ => s.stall c
    | .wait => if pendingS c.t ((Reg.s b).opnd 1) || !(isEmpty && a.trapEmpty) then s.stall c
        else s.raise c causeEmpty (BitVec.ofNat 64 reg) 0 c.mask
    | .go =>
      if isEmpty then
        if a.trapEmpty then s.raise c causeEmpty (BitVec.ofNat 64 reg) 0 c.mask else s.stall c
      else if s.inFlight c.key src then s.stall c
      else s.advance c (c.t.write c.mask (d.opnd 1) false fun _ => (r.1, r.2.1, r.2.2 || c.t.sBad b))

/-- R116: one lane is written, if it has not exited. -/
def execWrlane (d : Reg) (a b : SReg) (s : State) : Out :=
  onTroupe s fun c =>
    let n := (c.t.s b).toNat % 64
    let m : LaneMask := if c.t.exited.getLsbD n then 0 else bitM 64 n
    s.whenReady c (.wrlane d a b) m
      (s.advance c (c.t.write m (d.opnd 1) false fun _ =>
        (uval 32 (c.t.s a).toNat, false, c.t.sBad a || c.t.sBad b)))

/-! Conversion and packing (R117 to R119). -/

end Sys2Proof.Machine

namespace Sys2Proof

open Sys2Proof.Machine

def ConvTy.ew : ConvTy → Nat
  | .ui32 | .i32 => 32
  | .ui64 | .i64 => 64
  | .ui16 | .i16 => 16
  | .ui8 | .i8 => 8

def ConvTy.signed : ConvTy → Bool
  | .i32 | .i64 | .i16 | .i8 => true
  | _ => false

/-- An 8- or 16-bit result is extended to the register by its own signedness; sx says so for an s register. -/
def ConvTy.sx (t : ConvTy) : Bool := t.signed && t.ew ≠ 64

/-- The register value of a result of the type. -/
def ConvTy.put (t : ConvTy) (z : Int) : Nat := if t.ew = 64 then wrap 64 z else wrap 32 z

end Sys2Proof

namespace Sys2Proof.Machine

/-- R15: widening extends, everything else saturates. -/
def convInt (td ts : ConvTy) (a : Nat) : Nat :=
  let x := elemVal ts.signed ts.ew a
  if ts.ew < td.ew then wrap td.ew x |> fun y => td.put (elemVal td.signed td.ew y)
  else td.put (satI td.signed td.ew x)

def execCvti (td ts : ConvTy) (o : R1) (s : State) : Out := laneOp s (.cvti td ts o) td.sx (fn1 (convInt td ts))

/-- R118. -/
def packInt (t : IntTy) (a b : Nat) : Nat :=
  let sat := fun (w : Nat) (x : Nat) => wrap t.ew (t.sat (elemVal t.signed w x))
  if t.ew = 16 then joinElems 16 [sat 32 a, sat 32 b]
  else joinElems 8 ((elems 2 16 a ++ elems 2 16 b).map (sat 16))

def execIpack (t : IntTy) (o : R2) (s : State) : Out := laneOp s (.ipack t o) false (fn2 (packInt t))

/-- R119. -/
def unpackInt (t : IntTy) (hi : Bool) (a : Nat) : Nat :=
  let e := fun (w i : Nat) => wrap w (elemVal t.signed t.ew (bitsOf a (t.ew * i) t.ew))
  if t.ew = 16 then e 32 hi.toNat else joinElems 16 [e 16 (2 * hi.toNat), e 16 (2 * hi.toNat + 1)]

def execIunpack (t : IntTy) (hi : Bool) (o : R1) (s : State) : Out :=
  laneOp s (.iunpack t hi o) false (fn1 (unpackInt t hi))

end Sys2Proof.Machine
end

