-- ==== Sys2Proof/Machine/Control.lean ====
section
/-! DEFINITION. Opcodes 0x6F to 0x82: transfers of control, traps and returns, and cross-lane operations (R85, R137 to
R153). -/

namespace Sys2Proof.Machine

/-! Causes found lane by lane. -/

/-- A lane's cause, with the data address it concerns. -/
structure LaneCause where
  lane : Nat
  cause : BitVec 8
  addr : Nat

/-- R81: the lowest cause, the lanes that raised it and their lowest address. -/
def lowestCause (cs : List LaneCause) : Option (BitVec 8 × LaneMask × Nat) :=
  match minNat (cs.map fun x => x.cause.toNat) with
  | none => none
  | some k =>
    let hit := cs.filter fun x => decide (x.cause.toNat = k)
    some (BitVec.ofNat 8 k, maskOf (hit.map (·.lane)), (minNat (hit.map (·.addr))).getD 0)

/-! Transfers (R138 to R142). -/

/-- R138: an offset counts 8-byte units from the branch word. -/
def Ctx.relTarget (c : Ctx) (off : BitVec 48) : VAddr := c.wordAddr + BitVec.ofInt 57 (8 * off.toInt)

/-- R68: a poisoned guard stops the instruction before any lane moves. -/
def State.branch (s : State) (c : Ctx) (g : Option Guard) (target : VAddr) : State :=
  if c.guardBad g ≠ 0 then s.raise c causePoison 0 0 (c.guardBad g)
  else
    let m := c.guardMask g
    s.endClause c c.t [(target, m), (c.fallThrough, c.mask &&& ~~~m)]

def execBra (g : Option Guard) (off : BitVec 48) (s : State) : Out :=
  onTroupe s fun c => s.branch c g (c.relTarget off)

/-- R139: what the lanes of a register target raise. -/
def Ctx.targetCauses (c : Ctx) (r : Reg) (m : LaneMask) : List LaneCause :=
  (lanes m).filterMap fun l =>
    let o := r.opnd 2
    let x := c.t.value l o
    if c.t.poisoned l o then some ⟨l, causePoison, 0⟩
    else if x % 8 ≠ 0 ∨ 2 ^ 57 ≤ x then some ⟨l, causeAlign, x⟩
    else none

/-- Each lane of m goes to its own target; t is the troupe as the instruction leaves it. -/
def State.goto (s : State) (c : Ctx) (t : Troupe) (r : Reg) (m : LaneMask) (guardBad : LaneMask) : State :=
  let cs := (lanes guardBad).map (fun l => LaneCause.mk l causePoison 0) ++ c.targetCauses r (m &&& ~~~guardBad)
  match lowestCause cs with
  | some (k, ls, a) => s.raise c k 0 (if k = causeAlign then BitVec.ofNat 64 a else 0) ls
  | none =>
    s.endClause c t
      (((lanes m).map fun l => (BitVec.ofNat 57 (c.t.value l (r.opnd 2)), bitM 64 l)) ++
        [(c.fallThrough, c.mask &&& ~~~m)])

def execBrx (g : Option Guard) (r : Reg) (s : State) : Out :=
  onTroupe s fun c =>
    s.whenReady c (.brx g r) (c.guardMask g) (s.goto c c.t r (c.guardMask g) (c.guardBad g))

/-- R140: the link address in v188:v189, full, untainted and unpoisoned. -/
def Ctx.linked (c : Ctx) : Troupe :=
  c.t.write c.mask ((Reg.v 188).opnd 2) false fun _ => (c.fallThrough.toNat, false, false)

def execCall (off : BitVec 48) (s : State) : Out :=
  onTroupe s fun c =>
    s.whenReady c (.call off) c.mask (s.endClause c c.linked [(c.relTarget off, c.mask)])

def execCallx (r : Reg) (s : State) : Out :=
  onTroupe s fun c => s.whenReady c (.callx r) c.mask (s.goto c c.linked r c.mask 0)

def execRet (r : Reg) (s : State) : Out :=
  onTroupe s fun c => s.whenReady c (.ret r) c.mask (s.goto c c.t r c.mask 0)

def execExit (s : State) : Out :=
  onTroupe s fun c => s.endClause c { c.t with exited := c.t.exited ||| c.mask } []

/-! Traps, returns and pauses (R85, R143, R144). -/

def State.softTrap (s : State) (c : Ctx) (cause : BitVec 8) (imm : W32) : State :=
  s.takeTrap c ⟨cause, imm.setWidth 64, 0, c.wordAddr.setWidth 64, c.mask, .successor⟩

def execTrap (imm : W32) (s : State) : Out := onTroupe s fun c => s.softTrap c causeSoftware imm
def execBkpt (imm : W32) (s : State) : Out := onTroupe s fun c => s.softTrap c causeBreakpoint imm

/-- R85: under the in-handler flag both failures become DOUBLE_TRAP, as every trap does. -/
def execTret (s : State) : Out :=
  onTroupe s fun c =>
    if !c.t.trap.inHandler then s.raise c causeIllegalInstruction 0 0 c.mask
    else if c.t.frontier ≠ [] then
      s.raise c causeConvergence (BitVec.ofNat 64 (c.t.frontier.length + 1)) 0 c.mask
    else
      let ps := s.restoreShadow c.key.core c.blk.regime c.t c.t.trap.resume
      let tr := { c.t.trap with inHandler := false, shadow := [], resume := false }
      s.endClause c { c.t with frontier := ps, trap := tr } []

/-- R176: the troupe goes behind every other ready one. -/
def execYield (s : State) : Out :=
  onTroupe s fun c =>
    s.bump.endClause c { c.t with yielded := true, lastGrant := s.seq } [(c.fallThrough, c.mask)]

def execNop (s : State) : Out := onTroupe s fun c => s.advance c c.t

/-- R144: sleep of 0 ticks acts as yield. -/
def execSleep (ticks : W32) (s : State) : Out :=
  onTroupe s fun c =>
    let t := { c.t with yielded := true, lastGrant := s.seq }
    if ticks = 0 then s.bump.endClause c t [(c.fallThrough, c.mask)]
    else
      let wake := s.tick + ticks.toNat
      (s.endClause c { c.t with susp := .sleep wake } [(c.fallThrough, c.mask)]).at wake
        (.sleepWake c.key.core c.key.slot)

/-! Cross-lane reads (R145 to R152). -/

/-- R146: the lane that lane l reads. -/
def shflLane (mode : ShflMode) (seg : Fin 7) (l n : Nat) : Nat :=
  let w := 2 ^ seg.val
  let i := l % w
  let j := match mode with
    | .idx => n % w
    | .up => if n ≤ i then i - n else i
    | .down => if i + n < w then i + n else i
    | .xor => (i ^^^ n) % w
  l - i + j

/-- The value, taint and poison of an operand of any lane; an exited lane reads zero (R76). -/
def Troupe.laneOpnd (t : Troupe) (l : Nat) (o : Opnd) : Nat × Bool × Bool :=
  if t.exited.getLsbD l then (0, false, false) else (t.value l o, t.tainted l o, t.poisoned l o)

/-- R146: the lanes are read as they stand, with what the clause wrote before (DESIGN CHOICE, log entry 106). -/
def execShfl (mode : ShflMode) (seg : Fin 7) (w64 : Bool) (o : R2) (s : State) : Out :=
  onTroupe s fun c =>
    let n := if w64 then 2 else 1
    let a := o.a.opnd n
    let b := o.b.opnd 1
    let from_ := fun l => shflLane mode seg l (uval 32 (c.t.value l b))
    match s.ready c [b] [o.d.opnd n] c.mask with
    | .empty r m => s.raise c causeEmpty (BitVec.ofNat 64 r) 0 m
    | .wait => s.stall c
    | .go =>
      let missing := maskOf ((lanes c.mask).filter fun l =>
        !c.t.exited.getLsbD (from_ l) && (c.t.emptyLanes a).getLsbD (from_ l))
      if missing ≠ 0 then
        if a.trapEmpty then s.raise c causeEmpty (BitVec.ofNat 64 (regField a.reg)) 0 missing else s.stall c
      else if s.inFlight c.key a then s.stall c
      else s.advance c (c.t.write c.mask (o.d.opnd n) false fun l =>
        let x := c.t.laneOpnd (from_ l) a
        (x.1, x.2.1 || c.t.tainted l b, x.2.2 || c.t.poisoned l b))

/-- R147. -/
def voteValue (mode : VoteMode) (n : Nat) (yes : LaneMask) : Nat :=
  let k := (lanes yes).length
  match mode with
  | .any => (decide (0 < k)).toNat
  | .all => (decide (k = n)).toNat
  | .eq => (decide (k = 0 ∨ k = n)).toNat
  | .ballot => yes.toNat

def execVote (mode : VoteMode) (inv : Bool) (q : Pred) (d : Reg) (s : State) : Out :=
  onTroupe s fun c =>
    let ls := lanes c.mask
    let yes := maskOf (ls.filter fun l => c.t.pred q l ≠ inv)
    let bad := ls.any fun l => c.t.predBad q l
    s.whenReady c (.vote mode inv q d) c.mask
      (s.advance c (c.t.write c.mask (d.opnd (if mode = .ballot then 2 else 1)) false fun _ =>
        (voteValue mode ls.length yes, false, bad)))

/-- The OR of an operand's bits over the participating lanes. -/
def Ctx.anyPoison (c : Ctx) (o : Opnd) : Bool := (lanes c.mask).any fun l => c.t.poisoned l o
def Ctx.anyTaint (c : Ctx) (o : Opnd) : Bool := (lanes c.mask).any fun l => c.t.tainted l o

def execMatchLanes (w64 : Bool) (o : R1) (s : State) : Out :=
  onTroupe s fun c =>
    let a := o.a.opnd (if w64 then 2 else 1)
    let val := fun l => if w64 then c.t.value l a else uval 32 (c.t.value l a)
    s.whenReady c (.matchLanes w64 o) c.mask
      (s.advance c (c.t.write c.mask (o.d.opnd 2) false fun l =>
        ((maskOf ((lanes c.mask).filter fun m => decide (val m = val l))).toNat, c.anyTaint a, c.anyPoison a)))

/-- R149. -/
def redOp (op : RedOp) (t : IntTy) (a b : Nat) : Nat :=
  let less := decide (elemVal t.signed t.ew a < elemVal t.signed t.ew b)
  match op with
  | .add => (a + b) % 2 ^ t.ew
  | .min => if less then a else b
  | .max => if less then b else a
  | .and => a &&& b
  | .or => a ||| b
  | .xor => a ^^^ b

/-- R151: the identity of an operation. -/
def redIdentity (op : RedOp) (t : IntTy) : Nat :=
  match op with
  | .add | .or | .xor => 0
  | .and => 2 ^ t.ew - 1
  | .min => if t.signed then 2 ^ (t.ew - 1) - 1 else 2 ^ t.ew - 1
  | .max => if t.signed then 2 ^ (t.ew - 1) else 0

def reduceList (op : RedOp) (t : IntTy) (xs : List Nat) : Nat := xs.foldl (redOp op t) (redIdentity op t)

def execRedux (op : RedOp) (t : IntTy) (o : R1) (s : State) : Out :=
  onTroupe s fun c =>
    let a := o.a.opnd t.regs
    let r := reduceList op t ((lanes c.mask).map fun l => uval t.ew (c.t.value l a))
    s.whenReady c (.redux op t o) c.mask
      (s.advance c (c.t.write c.mask (o.d.opnd t.regs) t.sx fun _ => (r, c.anyTaint a, c.anyPoison a)))

/-- R150: abs, neg and FTZ on the bits of a level-0 value. -/
def levelZero (f : Fmt) (neg ab ftz : Bool) (x : Nat) : Nat :=
  let top := 2 ^ (f.width - 1)
  let y := if ab then uval (f.width - 1) x else uval f.width x
  let z := if neg then y ^^^ top else y
  flushBits f ftz z

/-- R33: one level of the tree; an absent node drops out. -/
def pairUp (op : Nat → Nat → Nat) : List (Option Nat) → List (Option Nat)
  | a :: b :: t =>
    (match a, b with
     | some x, some y => some (op x y)
     | some x, none => some x
     | none, y => y) :: pairUp op t
  | l => l

def treeReduce (op : Nat → Nat → Nat) : Nat → List (Option Nat) → Option Nat
  | 0, l => l.headD none
  | n + 1, l => treeReduce op n (pairUp op l)

/-- R150: one node of the tree. -/
def fredNode (f : Fmt) (op : FRedOp) (rm : Rounding) (ftz : Bool) (a b : Nat) : Nat :=
  let x := f.decode a
  let y := f.decode b
  match op with
  | .add => f.round rm ftz false 0 (x.add rm y)
  | .min => f.round .rne ftz false 0 (x.minmax false y)
  | .max => f.round .rne ftz false 0 (x.minmax true y)

def execFredux (f64 : Bool) (op : FRedOp) (neg ab ftz : Bool) (rm : Rounding) (o : R1) (s : State) : Out :=
  onTroupe s fun c =>
    let n := if f64 then 2 else 1
    let f := if f64 then fp64 else fp32
    let a := o.a.opnd n
    let leaves := laneList.map fun l =>
      if c.mask.getLsbD l then some (levelZero f neg ab ftz (c.t.value l a)) else none
    let r := (treeReduce (fredNode f op rm ftz) 6 leaves).getD 0
    s.whenReady c (.fredux f64 op neg ab ftz rm o) c.mask
      (s.advance c (c.t.write c.mask (o.d.opnd n) false fun _ => (r, c.anyTaint a, c.anyPoison a)))

/-- R151: an s destination receives the total. -/
def execScan (op : RedOp) (t : IntTy) (excl : Bool) (o : R1) (s : State) : Out :=
  onTroupe s fun c =>
    let a := o.a.opnd t.regs
    let used := fun l =>
      (lanes c.mask).filter fun m => o.d.isS || decide (m < l) || (!excl && decide (m = l))
    s.whenReady c (.scan op t excl o) c.mask
      (s.advance c (c.t.write c.mask (o.d.opnd t.regs) t.sx fun l =>
        (reduceList op t ((used l).map fun m => uval t.ew (c.t.value m a)),
          (used l).any (fun m => c.t.tainted m a), (used l).any (fun m => c.t.poisoned m a))))

def execAmask (live : Bool) (d : Reg) (s : State) : Out :=
  onTroupe s fun c =>
    let m := if live then c.t.live else c.mask
    s.whenReady c (.amask live d) c.mask
      (s.advance c (c.t.write c.mask (d.opnd 2) false fun _ => (m.toNat, false, false)))

/-! Special registers (R80, R153). -/

/-- Word 6 of the ticket: the grid's extents. -/
def State.gridOf (s : State) (b : Block) (lo len : Nat) : Nat :=
  match sfind b.ticket s.pkg.tickets with
  | some t => bitsOf (dword t.words 6) lo len
  | none => 0

def State.level (s : State) (slice : Nat) : Nat :=
  Nat.max (sget 0 slice s.plat.powerLevel) (sget 0 slice s.plat.thermalLevel)

/-- R80, R416: the arithmetic clocks of a slice in 64ths; level n runs at (16 - n)/16 of 1.25 a tick. -/
def State.clocks64 (s : State) (slice : Nat) : Nat :=
  let b := sget (0, 0) slice s.plat.clockBase
  b.2 + (s.tick - b.1) * 5 * (16 - s.level slice)

def State.special (s : State) (c : Ctx) (sr : Special) (lane : Nat) : Nat :=
  match sr with
  | .lane => lane
  | .troupe => c.t.index
  | .blockX => c.blk.bx
  | .blockY => c.blk.by_
  | .blockZ => c.blk.bz
  | .gridX => s.gridOf c.blk 0 32
  | .gridY => s.gridOf c.blk 32 16
  | .gridZ => s.gridOf c.blk 48 16
  | .coreX => c.key.core % 16
  | .coreY => c.key.core / 16
  | .slice => c.slice
  | .vf => c.blk.regime.vf
  | .tick => s.tick
  | .clock => s.clocks64 c.slice / 64
  | .trapcause => c.t.trap.cause.toNat
  | .trapinfo => c.t.trap.info.toNat
  | .trapaddr => c.t.trap.addr.toNat
  | .trapinst => c.t.trap.inst.toNat
  | .trapmask => c.t.trap.mask.toNat
  | .trapresume => (c.t.trap.inHandler && c.t.trap.resume).toNat

def execMovsRead (sr : Special) (d : Reg) (s : State) : Out :=
  onTroupe s fun c =>
    s.whenReady c (.movsRead sr d) c.mask
      (s.advance c (c.t.write c.mask (d.opnd sr.regs) false fun l => (s.special c sr l, false, false)))

/-- R80: %trapresume takes bit 0, and only under the in-handler flag. -/
def execMovsWrite (a : SReg) (s : State) : Out :=
  onTroupe s fun c =>
    let t := if c.t.trap.inHandler then
        { c.t with trap := { c.t.trap with resume := (c.t.s a).getLsbD 0 } } else c.t
    s.whenReady c (.movsWrite a) c.mask (s.advance c t)

end Sys2Proof.Machine
end

