-- ==== Sys2Proof/Machine/Routes.lean ====
section
/-! DEFINITION. The wiring of the fabric, route words and their checks (R420 to R426), and what one slice sends to
another. -/

namespace Sys2Proof.Machine

/-! Wiring (R420, R421). -/

def quad (s : Nat) : Nat := s % 4 / 2 + 2 * (s / 4 / 2)
def inQuad (s : Nat) : Nat := s % 4 % 2 + 2 * (s / 4 % 2)
def quadSlice (q k : Nat) : Nat := q % 2 * 2 + k % 2 + 4 * (q / 2 * 2 + k / 2)

/-- The place and the link (R427) that an up port leads to. Edges and middles are numbered 2s + their index. -/
def upPort (p : Place) (j : Nat) : Option (Place × Nat) :=
  match p with
  | .leaf i => if j < 2 then some (.edge (2 * (i / 8) + j), 2 * i + j) else none
  | .edge i => if j < 8 then some (.middle (2 * quadSlice (quad (i / 2)) (j / 2) + j % 2), 256 + 8 * i + j) else none
  | .middle i => if j < 8 then some (.top (8 * (i % 2) + j), 512 + 8 * i + j) else none
  | _ => none

def downPort (p : Place) (d : Nat) : Option (Place × Nat) :=
  match p with
  | .edge i => if d < 8 then some (.leaf (8 * (i / 2) + d), 2 * (8 * (i / 2) + d) + i % 2) else none
  | .middle i =>
    if d < 8 then
      let e := 2 * quadSlice (quad (i / 2)) (d / 2) + d % 2
      some (.edge e, 256 + 8 * e + 2 * inQuad (i / 2) + i % 2)
    else none
  | .top t =>
    if d < 16 then
      let m := 2 * quadSlice (d / 4) (d % 4) + t / 8
      some (.middle m, 512 + 8 * m + t % 8)
    else none
  | _ => none

/-! Health (R427, R431). -/

def healthDefault (x : Nat) : Byte := if x < 768 then 0 else 3
def Fabric.linkHealth (f : Fabric) (x : Nat) : Byte := sget (healthDefault x) x f.health
/-- UP or HALF. -/
def linkOk (b : Byte) : Bool := decide (b.toNat % 4 < 2)

def linkSlice (x : Nat) : Nat := if x < 256 then x / 16 else if x < 512 then (x - 256) / 16 else if x < 768 then (x - 512) / 16 else (x - 768) / 4

/-- R427: a health byte as a partition with these slices is shown it. -/
def partView (f : Fabric) (smask : BitVec 16) (x : Nat) : Byte :=
  if (512 ≤ x ∧ x < 768) ∨ smask.getLsbD (linkSlice x) then f.linkHealth x else 3

/-- The copy of the mask that a partition's NIs hold. -/
def State.niHealth (s : State) (part x : Nat) : Byte :=
  match sfind part s.pkg.parts with
  | some p => sget (healthDefault x) x p.health
  | none => healthDefault x

/-! Route words (R422, R423). -/

def hopCount (w : W64) : Nat := w.toNat / 2 ^ 60
def selector (w : W64) (h : Nat) : Nat := bitsOf w.toNat (5 * h) 5

/-- Whether a route passes, to a leaf or out of the module, or the word and hop that is refused. -/
inductive RouteCheck where
  | leaf (i : Nat)
  | off
  | bad (word hop : Nat)
  deriving DecidableEq, Repr

/-- R423, Format, from hop h on, n hops left; none where the word passes. -/
def formatHops (w : W64) (k nw n0 : Nat) (eth : Bool) : Nat → Nat → Bool → Option (Nat × Nat)
  | 0, _, _ => none
  | n + 1, h, down =>
    let x := selector w h
    if h + 1 = n0 ∧ k + 1 < nw then (if 3 < x then some (k, h) else formatHops w k nw n0 eth n (h + 1) down)
    else if h + 1 = n0 ∧ eth = true then (if x ≠ 4 then some (k, h) else formatHops w k nw n0 eth n (h + 1) down)
    else if 24 ≤ x ∧ x ≤ 30 then some (k, h)
    else if h = 0 ∧ x ≠ 16 ∧ x ≠ 17 ∧ x ≠ 31 then some (k, 0)
    else if 16 ≤ x then (if down then some (k, h) else formatHops w k nw n0 eth n (h + 1) down)
    else formatHops w k nw n0 eth n (h + 1) true

def routeFormat (w : W64) (k nw : Nat) (eth : Bool) : Option (Nat × Nat) :=
  let n := hopCount w
  if n = 0 ∨ 12 < n ∨ bitsOf w.toNat (5 * n) (60 - 5 * n) ≠ 0 then some (k, 0)
  else formatHops w k nw n eth n 0 false

/-- Every member of a set of places moves by f; none where one of them cannot. -/
def moveAll (f : Place → Option (Place × Nat)) (ok : Nat → Bool) (ps : List Place) : Option (List Place) :=
  let next := ps.map f
  if next.all fun e => match e with
    | some (_, x) => ok x
    | none => false
  then some (next.filterMap fun e => e.map (·.1)).eraseDups else none

/-- The present up ports whose link is usable. -/
def anyUp (ok : Nat → Bool) (p : Place) : List Place :=
  (List.range 8).filterMap fun j => match upPort p j with
    | some (q, x) => if ok x then some q else none
    | none => none

/-- R423, Path, from hop h on, n hops left. -/
def pathHops (ok : Nat → Bool) (w : W64) (k nw n0 : Nat) (eth : Bool) : Nat → Nat → List Place → RouteCheck
  | 0, _, ps =>
    if k + 1 = nw ∧ eth = false then
      (match ps with
       | [.leaf i] => .leaf i
       | _ => .bad k (n0 - 1))
    else .off
  | n + 1, h, ps =>
    let x := selector w h
    if h + 1 = n0 ∧ (k + 1 < nw ∨ eth = true) then
      (match ps with
       | [.leaf i] => if i % 8 = 7 ∧ (3 < x ∨ ok (768 + 4 * (i / 8) + x) = true) then .off else .bad k h
       | _ => .bad k h)
    else
      let next :=
        if x = 31 then
          (let qs := (ps.flatMap (anyUp ok)).eraseDups
           if qs.isEmpty then none else some qs)
        else if 16 ≤ x then moveAll (fun p => upPort p (x - 16)) ok ps
        else moveAll (fun p => downPort p x) ok ps
      match next with
      | none => .bad k h
      | some qs => pathHops ok w k nw n0 eth n (h + 1) qs

def routePath (ok : Nat → Bool) (w : W64) (k nw : Nat) (eth : Bool) (start : Nat) : RouteCheck :=
  pathHops ok w k nw (hopCount w) eth (hopCount w) 0 [.leaf start]

/-- R423, CheckRoute. -/
def checkRoute (ok : Nat → Bool) (ws : List W64) (src : Nat) (eth : Bool) : RouteCheck :=
  let nw := ws.length
  if nw < 1 ∨ 4 < nw then .bad 0 0
  else match (ws.zipIdx).findSome? fun e => routeFormat e.1 e.2 nw eth with
    | some (k, h) => .bad k h
    | none => routePath ok (ws.headD 0) 0 nw eth src

/-! What slices send each other (R310, R425, R426). -/

/-- R310: a message takes a tick within a slice and 4 ticks between slices. -/
def latency (a b : Nat) : Nat := if a = b then 1 else 4

def routeKey (slice leaf : Nat) : Nat := 128 * slice + leaf

/-- Whether the route of a slice to a leaf passes R423. -/
def State.routeOk (s : State) (part slice leaf : Nat) : Bool :=
  match checkRoute (fun x => linkOk (s.niHealth part x)) [sget 0 (routeKey slice leaf) s.fab.routes] (8 * slice) false with
  | .leaf i => (s.smask part).getLsbD (i / 8)
  | _ => false

def classCode : PClass → Nat
  | .req => 0
  | .rsp => 1
  | .recall => 2
  | .msg => 3
  | .gtd => 4

/-- R426: the record of a memory packet refused at injection; peer gives the module of another module's address. -/
def routeRecord (dst slice : Nat) (cls : PClass) (peer : Option Nat) (word : W64) : List W64 :=
  let p := match peer with
    | some m => 2 ^ 22 + m * 2 ^ 23
    | none => 0
  [BitVec.ofNat 64 (0x0F + dst * 2 ^ 8 + slice * 2 ^ 15 + classCode cls * 2 ^ 19 + p), word, 0, 0, 0, 0, 0, 0]

def State.newPacket (s : State) (p : Packet) : Nat × State :=
  let (id, s1) := s.newId
  (id, s1.setFab { s1.fab with packets := sset id p s1.fab.packets })

/-- R429: an injection refused with ROUTE. -/
def State.countRoute (s : State) (slice : Nat) : State :=
  let v := (s.reg slice 0 0xD2).toNat
  s.setReg slice 0 0xD2 (BitVec.ofNat 64 (putBits v 0 32 (bitsOf v 0 32 + 1)))

/-- R429: a packet of the calendar that was demoted. -/
def State.countDemoted (s : State) (slice : Nat) : State :=
  let v := (s.reg slice 0 0xD2).toNat
  s.setReg slice 0 0xD2 (BitVec.ofNat 64 (putBits v 32 32 (bitsOf v 32 32 + 1)))

/-- R378: a packet of a VF enters the network; what it brings in bytes is open (log entry 25). -/
def State.countPacket (s : State) (part vf : Nat) : State :=
  if vf < 32 then
    let s1 := { s with fresh := s.fresh + 1 }
    s1.countEnergy part vf .network (Config.packetBytes s.fresh)
  else s

/-- R426: a memory packet refused at injection is held at its NI, and the kernel of its slice is told. -/
def State.holdPacket (s : State) (part srcLeaf dstLeaf : Nat) (cls : PClass) (e : Ev) : State :=
  let slice := srcLeaf / 8
  let w : W64 := sget 0 (routeKey slice dstLeaf) s.fab.routes
  let p : Packet := ⟨cls, cls, [w], 0, 0, [], .leaf srcLeaf, 0, .event e w, srcLeaf, dstLeaf, part, 0, 0, 0, false, true⟩
  (((s.countRoute slice).newPacket p).2.queueRing slice part .kFault (routeRecord dstLeaf slice cls none w) none none).2

/-- The number of a line of another module, set apart from every line of this one. -/
def peerBase : Nat := 2 ^ 60

/-- R445: a flow belongs to a VF or to the kernel, here number 32. -/
def Regime.flowVf (rg : Regime) : Nat := if rg.priv = .h then 32 else rg.vf

/-- A request to another module goes to its NI, which takes its route from the peer route table (R443). -/
def State.sendPeer (s : State) (slice ppa part vf : Nat) (l : Load) : State :=
  let leaf := 8 * slice
  let p : Packet := ⟨.req, .req, [], 0, 0, [], .leaf leaf, 0, l, leaf, ppa / 2 ^ 40 % 1024, part, vf, 0, 0, false, false⟩
  let (id, s1) := s.newPacket p
  s1.later (.switchForward id)

/-- The VF that a packet travels for. -/
def State.evVf (s : State) (e : Ev) : Nat :=
  match e with
  | .homeRead op _ | .homeWrite op _ | .pinRegistration op _ | .loadDataReturn op _ | .gwctReceive op _ =>
    match sfind op s.flight.mem with
    | some o => o.regime.flowVf
    | none => 32
  | .turnstileOpArrival op | .turnstileAcknowledgement op =>
    match sfind op s.flight.ts with
    | some o => o.vf
    | none => 32
  | .turnstilePoll w | .wakeReceive w =>
    match sfind w s.flight.waiters with
    | some x => x.vf
    | none => 32
  | _ => 32

/-- Packets held at one leaf for another, which leave in order (R426). -/
def State.heldBefore (s : State) (srcLeaf dstLeaf : Nat) : Bool :=
  s.fab.packets.any fun e => e.2.held && decide (e.2.srcLeaf = srcLeaf) && decide (e.2.dstLeaf = dstLeaf) &&
    (match e.2.load with
     | .event .. => true
     | _ => false)

/-- A request, reply or recall goes from one leaf to another: the event of its arrival comes a tick later within a slice
and 4 ticks later between slices (R310), where its route passes (R425). -/
def State.send (s : State) (from_ dstLeaf : Nat) (cls : PClass) (e : Ev) : State :=
  if from_ = dstLeaf then s.later e
  else
    let t := s.tick + latency (from_ / 8) (dstLeaf / 8)
    match s.partOf (from_ / 8) with
    | some p =>
      if s.routeOk p (from_ / 8) dstLeaf && !s.heldBefore from_ dstLeaf then (s.countPacket p (s.evVf e)).at t e
      else s.holdPacket p from_ dstLeaf cls e
    | none => s.at t e

/-- R324: the pair of a line's cache bank and a receiver. -/
def pairKey (line recv : Nat) : Nat := homeAgent (64 * line) / 3 * 1024 + recv

/-- Numbers of the receivers: the L1s, the caches of the harts, and the RDCs. -/
def recvL1 (core : Nat) : Nat := core
def recvHart (h : Nat) : Nat := 128 + h
def recvRdc (slice : Nat) : Nat := 256 + slice

def State.setPair (s : State) (key : Nat) (p : BankPair) : State :=
  s.setFab { s.fab with pairs := sset key p s.fab.pairs }

/-- A message takes the next number, and is acknowledged when it has arrived (DEDUCED, log entry 126). -/
def State.pairSend (s : State) (key : Nat) (p : BankPair) (m : Nat × Nat × PClass × Ev) : State :=
  ((s.setPair key { p with next := (p.next + 1) % 256, out := p.out + 1 }).send m.1 m.2.1 m.2.2.1 m.2.2.2).at
    (s.tick + 2 * latency (m.1 / 8) (m.2.1 / 8)) (.bankAck key)

/-- R324: a message of a cache bank to a receiver: with 16 outstanding it waits in the bank, behind those that wait
already. -/
def State.bankSend (s : State) (line recv from_ dst : Nat) (cls : PClass) (e : Ev) : State :=
  let key := pairKey line recv
  let p := sget BankPair.idle key s.fab.pairs
  if p.out < 16 ∧ p.waiting = [] then s.pairSend key p (from_, dst, cls, e)
  else s.setPair key { p with waiting := p.waiting ++ [(from_, dst, cls, e)] }

def State.bankAck (s : State) (key : Nat) : State :=
  let p := sget BankPair.idle key s.fab.pairs
  match p.waiting with
  | m :: t => s.pairSend key { p with out := p.out - 1, waiting := t } m
  | [] => s.setPair key { p with out := p.out - 1 }

/-- R420, R272: the leaf of a line's home, of a core's cluster, and of the harts of a slice. -/
def homeLeaf (line : Nat) : Nat := 8 * dpaSlice (64 * line) + 3 + homeAgent (64 * line) % 48 / 3 / 4
def coreLeaf (core : Nat) : Nat := 8 * coreSlice core + core % 4 / 2
def hartLeaf (h : Nat) : Nat := 8 * (h / 8) + 2
/-- The leaf at which the engines of a slice stand, that of its NI (log entry 115). -/
def engineLeaf (slice : Nat) : Nat := 8 * slice + 7

end Sys2Proof.Machine
end

