-- ==== Sys2Proof/Machine/HartXlate.lean ====
section
/-! DEFINITION. Harts: control and status registers, exceptions, and translation (R296, R299, R304, R334, R335, R342 to
R344). What the spec takes over from the RISC-V architecture follows that architecture (log entry 23). -/

namespace Sys2Proof.Machine

/-! Control and status registers, by their RISC-V numbers. -/

def csrVsstatus : Nat := 0x200
def csrSatp : Nat := 0x180
def csrVsatp : Nat := 0x280
def csrHgatp : Nat := 0x680
def csrMstatus : Nat := 0x300
def csrMedeleg : Nat := 0x302
def csrHstatus : Nat := 0x600
def csrHedeleg : Nat := 0x602
def csrMip : Nat := 0x344
def csrStimecmp : Nat := 0x14D
def csrVstimecmp : Nat := 0x24D
def csrHtimedelta : Nat := 0x605
def csrSenvcfg : Nat := 0x10A
def csrMenvcfg : Nat := 0x30A
def csrHenvcfg : Nat := 0x60A
def csrHtval : Nat := 0x643
def csrMtval2 : Nat := 0x34B
def csrMinstret : Nat := 0xB02

def Hart.csr? (h : Hart) (n : Nat) : Nat := (sget 0 n h.csr).toNat
def Hart.setCsr (h : Hart) (n v : Nat) : Hart := { h with csr := sput 0 n (BitVec.ofNat 64 v) h.csr }
def Hart.reg (h : Hart) (r : Fin 32) : W64 := if r = 0 then 0 else sget 0 r.val h.x
/-- x0 discards what is written to it. -/
def Hart.setReg (h : Hart) (r : Nat) (v : W64) : Hart := if r = 0 then h else { h with x := sput 0 r v h.x }

/-- What is written to an f register makes the floating-point state dirty, of the guest too (RISC-V). -/
def Hart.dirtyF (h : Hart) (guest : Bool) : Hart :=
  let h1 := h.setCsr csrMstatus (putBits (h.csr? csrMstatus) 13 2 3)
  if guest then h1.setCsr csrVsstatus (putBits (h1.csr? csrVsstatus) 13 2 3) else h1

def HartMode.guest : HartMode → Bool
  | .vs | .vu => true
  | _ => false
def HartMode.user : HartMode → Bool
  | .u | .vu => true
  | _ => false

/-- A destination: 0 to 31 names an x register, 32 to 63 an f register. -/
def Hart.putReg (h : Hart) (r : Nat) (v : W64) : Hart :=
  if r < 32 then h.setReg r v else { h with f := sput 0 (r - 32) v h.f }.dirtyF h.mode.guest

/-! Exceptions. -/

/-- An exception: its code, xtval, and the guest-physical address of a guest page fault. -/
structure HExc where
  code : Nat
  tval : Nat
  gpa : Nat
  deriving DecidableEq, Repr

def hwError : Nat := 19

/-- No exception of RISC-V: the home refused a table word with RETRY, and the instruction is tried again (R187, R359). -/
def hartAgain : Nat := 64

/-- The mode that takes an exception under medeleg and hedeleg. Guest page faults, 20 to 23, are not delegated to VS. -/
def Hart.taker (h : Hart) (code : Nat) : HartMode :=
  if h.mode = .m || !bitN (h.csr? csrMedeleg) code then .m
  else if h.mode.guest && bitN (h.csr? csrHedeleg) code && !(decide (20 ≤ code ∧ code ≤ 23)) then .vs
  else .hs

/-- The status register on entry: the interrupt enable at ie moves to pie, and the former mode is kept at pp. -/
def trapStatus (st ie pie pp len mode : Nat) : Nat :=
  putBits (putBits (putBits st pie 1 (bitsOf st ie 1)) ie 1 0) pp len mode

def Hart.level (h : Hart) : Nat := if h.mode = .m then 3 else if h.mode.user then 0 else 1

/-- The cause of an interrupt. -/
def irqBit : Nat := 2 ^ 63

/-- epc, cause and tval at the registers from a base number, and the pc at the handler's address, which under MODE 1 of
tvec goes on by the interrupt's number. -/
def Hart.enterAt (h : Hart) (base : Nat) (e : HExc) (md : HartMode) : Hart :=
  let h1 := ((h.setCsr (base + 0x41) h.pc.toNat).setCsr (base + 0x42) e.code).setCsr (base + 0x43) e.tval
  let tvec := h.csr? (base + 0x05)
  let by_ := if irqBit ≤ e.code ∧ tvec % 4 = 1 then 4 * (e.code - irqBit) else 0
  { h1 with pc := BitVec.ofNat 64 (tvec / 4 * 4 + by_), mode := md, half := false }

/-- Exceptions whose tval is the address of an access or of an instruction. -/
def addressCauses : List Nat := [0, 1, 3, 4, 5, 6, 7, 12, 13, 15, 19, 20, 21, 23]

/-- Taking an exception or an interrupt in a mode (RISC-V, R304). -/
def Hart.trapTo (h : Hart) (md : HartMode) (e : HExc) : Hart :=
  let v := if h.mode.guest then 1 else 0
  let gva := if h.mode.guest && addressCauses.contains e.code then 1 else 0
  match md with
  | .m =>
    let st := putBits (putBits (trapStatus (h.csr? csrMstatus) 3 7 11 2 h.level) 39 1 v) 38 1 gva
    ((h.setCsr csrMstatus st).setCsr csrMtval2 (e.gpa / 4)).enterAt 0x300 e .m
  | .vs => (h.setCsr csrVsstatus (trapStatus (h.csr? csrVsstatus) 1 5 8 1 h.level)).enterAt 0x200 e .vs
  | _ =>
    let hs := h.csr? csrHstatus
    let hs1 := putBits (putBits (if h.mode.guest then putBits hs 8 1 h.level else hs) 7 1 v) 6 1 gva
    (((h.setCsr csrMstatus (trapStatus (h.csr? csrMstatus) 1 5 8 1 h.level)).setCsr csrHstatus hs1).setCsr csrHtval
      (e.gpa / 4)).enterAt 0x100 e .hs

def Hart.trap (h : Hart) (e : HExc) : Hart := h.trapTo (h.taker e.code) e

def State.hartTrap (s : State) (h : Nat) (e : HExc) : State :=
  s.setHart h { (s.hart h).trap e with outstanding := [] }

/-- The instruction of a hart is done and counted, and the hart goes on at an address. -/
def Hart.goTo (h : Hart) (pc : W64) : Hart :=
  { h.setCsr csrMinstret ((h.csr? csrMinstret + 1) % 2 ^ 64) with pc := pc, outstanding := [], half := false }
/-- The address behind the instruction in hand. -/
def Hart.after (h : Hart) : W64 := h.pc + (if h.half then 2 else 4)
def Hart.next (h : Hart) : Hart := h.goTo h.after
def State.hartNext (s : State) (h : Nat) : State := s.setHart h (s.hart h).next

/-! Walks (R341, R344). -/

/-- The accesses of a hart; name: a designator of a waiter port, which asks no right but the translation (R301); fetchLoad: a
load that asks the right to execute (RISC-V hlvx). -/
inductive HAcc where
  | load | store | amo | fetch | name | fetchLoad
  deriving DecidableEq, Repr

/-- The code of an access fault; a page fault and a guest page fault follow by 8 and 16, by 11 and 19 for a fetch. -/
def HAcc.codes : HAcc → Nat × Nat × Nat
  | .load | .name | .fetchLoad => (5, 13, 21)
  | .store | .amo => (7, 15, 23)
  | .fetch => (1, 12, 20)

def HAcc.exc (a : HAcc) (va : Nat) (f : XFault) : HExc :=
  let c := a.codes
  if f.cause = causePageS2 then ⟨c.2.2, va, f.gpa⟩
  else if f.cause = causePageS1 then ⟨c.2.1, va, 0⟩
  else if f.cause = poisonCause then ⟨hwError, va, 0⟩
  else if f.cause = causeAgain then ⟨hartAgain, f.gpa, 0⟩
  else ⟨c.1, va, 0⟩

/-- A table word of a hart's walk; a poisoned one is a hardware error (R304). -/
def State.hartRead (s : State) (part tag a n : Nat) : TableRead :=
  let r := s.readPhys part tag a n
  match r.out with
  | .ok none => ⟨.error ⟨poisonCause, false, 0⟩, r.lines⟩
  | _ => r

/-- RISC-V page tables, from the level given: the entry's bits are V, R, W, X, U, G, A, D; an entry without A, or a
store through one without D, faults. top is the highest level, whose index has two bits more with x4. -/
def svWalk (rd : Nat → Nat → TableRead) (bad : XFault) (top : Nat) (x4 : Bool) (x : Nat) : Nat → Nat → Walked Leaf
  | 0, _ => ⟨.error bad, []⟩
  | l + 1, t =>
    let idx := x / 2 ^ (12 + 9 * l) % 2 ^ (if x4 && decide (l + 1 = top) then 11 else 9)
    let r := rd (t + 8 * idx) 8
    r.after (match r.out with
    | .error f => ⟨.error f, []⟩
    | .ok none => ⟨.error bad, []⟩
    | .ok (some e) =>
      let ppn := bitsOf e 10 44
      if !bitN e 0 || (bitN e 2 && !bitN e 1) || decide (e / 2 ^ 54 ≠ 0) then ⟨.error bad, []⟩
      else if !bitN e 1 && !bitN e 3 then svWalk rd bad top x4 x l (ppn * 4096)
      else
        let size := 2 ^ (12 + 9 * l)
        if ppn * 4096 % size ≠ 0 ∨ bitN e 6 = false then ⟨.error bad, []⟩
        else ⟨.ok ⟨ppn * 4096 + x % size, bitN e 1, bitN e 2 && bitN e 7, bitN e 3, bitN e 4, false, false⟩, []⟩)

/-- One stage under a register with MODE, PPN and tag; none where it is Bare. -/
def hartStage (rd : Nat → Nat → TableRead) (bad : XFault) (stage1 : Bool) (atp x : Nat) : Option (Walked Leaf) :=
  let root := bitsOf atp 0 44 * 4096
  match bitsOf atp 60 4 with
  | 14 => some (walk rd bad (if stage1 then .one else .two) root (if stage1 then 9 else 4) x)
  | 8 | 9 | 10 =>
    let l := bitsOf atp 60 4 - 5
    let bits := 12 + 9 * l + (if stage1 then 0 else 2)
    let low := x % 2 ^ bits
    let canon := if stage1 then decide (wrap 64 (sval bits low) = x) else decide (low = x)
    some (if canon then svWalk rd bad l (!stage1) low l root else ⟨.error bad, []⟩)
  | _ => none

/-- The VF of a guest hart (R288). -/
def Hart.vf (h : Hart) : Nat := bitsOf (h.csr? csrHgatp) 44 5

def State.hartPart (s : State) (h : Nat) : Nat := (s.partOf (h / 8)).getD 16

/-- Stage 2 of a hart; with it Bare an address carries ASTAG 0 (R331). -/
def State.hartG (s : State) (h gpa : Nat) : Walked Leaf :=
  let x := s.hart h
  let bad : XFault := ⟨causePageS2, false, gpa⟩
  match hartStage (fun a n => s.hartRead (s.hartPart h) 0 a n) bad false (x.csr? csrHgatp) gpa with
  | none => ⟨.ok ⟨gpa, true, true, true, true, false, true⟩, []⟩
  | some w => match w.out with
    | .error _ => w
    | .ok l => if decide (bitsOf (x.csr? csrHgatp) 60 4 ≠ 14) && !l.u then ⟨.error bad, w.lines⟩ else w

def State.hartTag (s : State) (h : Nat) (l : Leaf) : Nat := s.leafTag (s.hartPart h) (s.hart h).vf l

/-- A stage-1 table word of a guest (R342). -/
def State.hartGuestRead (s : State) (h a n : Nat) : TableRead :=
  let w := s.hartG h a
  w.after (match w.out with
  | .error f => ⟨.error f, []⟩
  | .ok l =>
    if !l.r || l.c || inCounterAlias l.out then ⟨.error ⟨causePageS2, false, a⟩, []⟩
    else s.hartRead (s.hartPart h) (s.hartTag h l) l.out n)

/-- The mode whose translation an access uses: mstatus.MPRV lets M mode use another's for data. -/
def Hart.effective (h : Hart) (a : HAcc) : HartMode :=
  let st := h.csr? csrMstatus
  if h.mode = .m && decide (a ≠ .fetch) && bitN st 17 then
    match bitsOf st 11 2, bitN st 39 with
    | 0, false => .u
    | 0, true => .vu
    | 1, false => .hs
    | 1, true => .vs
    | _, _ => .m
  else h.mode

def Hart.stage1 (h : Hart) (md : HartMode) : Nat := if md.guest then h.csr? csrVsatp else h.csr? csrSatp

/-- Translation is off: M mode, or a regime that is Bare. -/
def Hart.bare (h : Hart) (md : HartMode) : Bool :=
  decide (md = .m) || (decide (bitsOf (h.stage1 md) 60 4 = 0) && (!md.guest || decide (bitsOf (h.csr? csrHgatp) 60 4 = 0)))

/-- The walk of a page. -/
def State.hartWalk (s : State) (h : Nat) (md : HartMode) (va : Nat) : Walked TlbEntry :=
  let x := s.hart h
  let part := s.hartPart h
  let atp := x.stage1 md
  let page := va
  let rg : Regime := ⟨part, if md.guest then x.vf else 32, if md.guest then .s else .h, BitVec.ofNat 64 atp⟩
  let bad : XFault := ⟨causePageS1, false, 0⟩
  let rd := fun a n => if md.guest then s.hartGuestRead h a n else s.hartRead part 0 a n
  let one : Walked Leaf := match hartStage rd bad true atp page with
    | none => ⟨if 2 ^ 52 ≤ page then .error bad else .ok ⟨page, true, true, true, true, false, false⟩, []⟩
    | some r => r
  one.after (match one.out with
  | .error f => ⟨.error f, []⟩
  | .ok l1 =>
    let two : Walked Leaf := if md.guest then s.hartG h l1.out else ⟨.ok ⟨l1.out, true, true, true, true, false, true⟩, []⟩
    match two.out with
    | .error f => ⟨.error f, two.lines⟩
    | .ok l2 =>
      ⟨.ok ⟨rg, bitsOf atp 44 16, va / 4096, l1.out / 4096, l2.out / 4096, s.hartTag h l2, l1.r, l1.w, l1.x,
        l1.c || l2.c || inCounterAlias l2.out, l1.c, l2.r, l2.w, l2.x, l1.u⟩, two.lines⟩)

/-- Whether stage 1 lets the access pass. Under MODE 14 the bits of R338 alone decide. -/
def Hart.allows (h : Hart) (md : HartMode) (a : HAcc) (e : TlbEntry) : Bool :=
  let fmt := bitsOf (h.stage1 md) 60 4
  let st := h.csr? (if md.guest then csrVsstatus else csrMstatus)
  let level :=
    if fmt = 0 then true
    else if md.user then e.u
    else if fmt = 14 then true
    else !e.u || (decide (a ≠ .fetch) && bitN st 18)
  let right := match a with
    | .load => e.r || (decide (fmt ≠ 14) && bitN st 19 && e.x)
    | .store => e.w
    | .amo => e.r && e.w
    | .fetch | .fetchLoad => e.x
    | .name => true
  level && right

def HAcc.allowed2 (a : HAcc) (e : TlbEntry) : Bool := match a with
  | .load => e.r2
  | .store => e.w2
  | .amo => e.r2 && e.w2
  | .fetch | .fetchLoad => e.x2
  | .name => true

/-- Where a hart's access leads; counter: a COUNTER access. -/
inductive HTo where
  | mem (dpa tag : Nat) (counter : Bool)
  | register (slice unit reg : Nat)
  | port (hart page off : Nat)
  | peer (ppa : Nat) (counter : Bool)
  deriving DecidableEq, Repr

/-- R334, R335: a physical address with its tag, for an access of n bytes. -/
def State.hartTo (s : State) (h : Nat) (a : HAcc) (va ppa tag n : Nat) (counter off : Bool) : Except HExc HTo :=
  let part := s.hartPart h
  let x := s.hart h
  let deny : Except HExc HTo := .error ⟨a.codes.1, va, 0⟩
  let word := decide (n = 8 ∧ ppa % 8 = 0)
  match s.ppaTo part ppa with
  | .mem d => .ok (.mem d tag (counter || (off && inCounterAlias ppa)))
  | .register sl u r =>
    let md := x.effective a
    if word && (decide (md = .m) || decide (md = .hs)) then .ok (.register sl u r) else deny
  | .port k p o => if word then .ok (.port k p o) else deny
  | .peer => .ok (.peer ppa counter)
  | .none => deny

def hartKey (rg : Regime) (asid page : Nat) (e : TlbEntry) : Bool :=
  decide (e.page = page) && decide (e.asid = asid) && decide (e.regime.priv = rg.priv) && decide (e.regime.vf = rg.vf)

/-- The regime that a hart's access is made in; it names the mode (R288, R360). -/
def State.hartRegime (s : State) (h : Nat) (md : HartMode) : Regime :=
  let vf := if md.guest then (s.hart h).vf else 32
  ⟨s.hartPart h, vf, if md = .m then .h else if md.user then .u else .s, 0⟩

def Regime.hartMode (rg : Regime) : HartMode :=
  match rg.priv, decide (rg.vf < 32) with
  | .u, true => .vu
  | .u, false => .u
  | .s, true => .vs
  | .s, false => .hs
  | _, _ => .m

/-- R343: as for a SIMT core, a cached entry that differs from the walk leaves a free choice (log entry 5). -/
def State.hartXlate (s : State) (h : Nat) (a : HAcc) (va n : Nat) : Except HExc HTo × State :=
  let x := s.hart h
  let md := x.effective a
  if x.bare md then
    if 2 ^ 52 ≤ va then (.error ⟨a.codes.1, va, 0⟩, s) else (s.hartTo h a va va 0 n false true, s)
  else
    let use := fun (s : State) (e : TlbEntry) =>
      let gpa := e.gpage * 4096 + va % 4096
      if !x.allows md a e then .error ⟨a.codes.2.1, va, 0⟩
      else if !a.allowed2 e then .error ⟨a.codes.2.2, va, gpa⟩
      else s.hartTo h a va (e.ppage * 4096 + va % 4096) e.astag n e.counter false
    let rg : Regime := ⟨0, if md.guest then x.vf else 32, if md.guest then .s else .h, 0⟩
    let key := hartKey rg (bitsOf (x.stage1 md) 44 16) (va / 4096)
    let put := fun (s : State) (e : TlbEntry) =>
      s.setHart h { s.hart h with tlb := (s.hart h).tlb.filter (fun y => !key y) ++ [e] }
    let w := s.hartWalk h md va
    let walked := fun (s : State) => s.walked (s.hartPart h) (if md.guest then x.vf else 32) w.lines
    match w.out, x.tlb.find? key with
    | .error f, none => (.error (a.exc va f), walked s)
    | .ok e, none => (use s e, put (walked s) e)
    | new, some old =>
      let s1 := { s with fresh := s.fresh + 1 }
      match new with
      | .ok e =>
        if e = old then (use s e, s)
        else if Config.walkNew s.fresh then (use s1 e, put (walked s1) e) else (use s1 old, s1)
      | .error f =>
        if f.cause ≠ causeAgain && Config.walkNew s.fresh then (.error (a.exc va f), walked s1) else (use s1 old, s1)

/-- The translation of an access that a hart made in some mode, as it stands now (R162, R360). -/
def State.hartXlateAs (s : State) (h : Nat) (rg : Regime) (a : HAcc) (va n : Nat) : Except HExc HTo × State :=
  let x := s.hart h
  let x1 := x.setCsr csrMstatus (putBits (x.csr? csrMstatus) 17 1 0)
  (s.setHart h { x1 with mode := rg.hartMode }).hartXlate h a va n

end Sys2Proof.Machine
end

