-- ==== Sys2Proof/Machine/Lines.lean ====
section
/-! DEFINITION. Lines: the L1 of a core, leases, pins and writes at a home, and scratchpad bytes (R174, R182 to R187,
R272 to R281, R303, R331). -/

namespace Sys2Proof.Machine

/-! Units of the unified array (R174). -/

def granUnit (g : Nat) : Nat := g / 8

/-- The granules that blocks hold on a core, spilled ones left out. -/
def State.heldGranules (s : State) (core : Nat) : List Nat :=
  s.blocks.flatMap fun e =>
    if e.2.core = core ∧ e.2.state ≠ .saved then
      ((List.range e.2.grans).map fun i => e.2.g0 + i).filter fun g =>
        decide (e.2.state = .refilling) || !e.2.spill.contains (.granule g)
    else []

/-- A unit of which a granule is allocated, or still being zeroed, is a scratchpad unit; the rest are L1 ways. -/
def State.l1Ways (s : State) (core : Nat) : List Nat :=
  let held := s.heldGranules core ++ (s.core core).zeroing.filterMap fun u => match u with
    | .granule g => some g
    | _ => none
  (List.range 24).filter fun u =>
    decide (20 ≤ u) || !(held.any (fun g => decide (granUnit g = u)) || (s.core core).walks.any fun w => decide (w.unit = u))

def l1Set (line : Nat) : Nat := line % 512
def l1Key (way set : Nat) : Nat := 512 * way + set
/-- The array byte of an L1 line. -/
def l1Addr (key : Nat) : Nat := key / 512 * 32768 + key % 512 * 64

def Core.l1Find (c : Core) (line : Nat) : Option (Nat × L1Line) :=
  match ((List.range 24).filterMap fun w =>
    match sfind (l1Key w (l1Set line)) c.l1 with
    | some x => if x.line = line then some (l1Key w (l1Set line), x) else none
    | none => none) with
  | x :: _ => some x
  | [] => none

def Core.byte (c : Core) (a : Nat) : Byte := sget 0 a c.ua
def Core.setByte (c : Core) (a : Nat) (b : Byte) : Core := { c with ua := sput 0 a b c.ua }
def Core.bytes (c : Core) (a n : Nat) : List Byte := (List.range n).map fun i => c.byte (a + i)
def Core.setBytes (c : Core) (a : Nat) : List Byte → Core
  | [] => c
  | b :: t => (c.setByte a b).setBytes (a + 1) t

def L1Line.isPinned (l : L1Line) : Bool := match l.state with
  | .pinned .. => true
  | .valid _ => false

/-- R186: a VALID copy hits before its expiry. -/
def L1Line.hits (l : L1Line) (tick : Nat) : Bool := match l.state with
  | .pinned .. => true
  | .valid none => true
  | .valid (some e) => decide (tick < e)

def Core.pinned (c : Core) : List (Nat × L1Line) := c.l1.filter fun e => e.2.isPinned

def L1Line.since (l : L1Line) : Nat := match l.state with
  | .pinned _ t _ _ => t
  | .valid _ => 0

/-- The entry with the least measure, the first among equals. -/
def leastBy {A : Type} (f : A → Nat) : List A → Option A
  | [] => none
  | a :: t => match leastBy f t with
    | none => some a
    | some b => some (if f a ≤ f b then a else b)

/-! Migration and snapshot (R359, R396). -/

def inRange (line base size : Nat) : Bool := decide (base ≤ 64 * line ∧ 64 * line < base + size)

/-- A line with its bytes, poison and tag placed over another. -/
def Homes.copyLine (h : Homes) (from_ dest : Nat) : Homes :=
  { h with
    mem := setBytes h.mem (64 * dest) (memBytes h.mem (64 * from_) 64)
    tsPoison := (List.range 8).foldl (fun k i => kset (64 * dest + 8 * i) (kmem (64 * from_ + 8 * i) h.tsPoison) k) h.tsPoison
    linePoison := kset dest (kmem from_ h.linePoison) h.linePoison
    astag := match sfind from_ h.astag with
      | some t => sset dest t h.astag
      | none => sdel dest h.astag }

/-- SNAPCTL's source and destination bands of a partition. -/
def State.snapBands (s : State) (p : Nat) : Nat × Nat :=
  let v := (s.reg (s.firstSlice p) 0 0xC4).toNat
  (bitsOf v 0 4, bitsOf v 4 4)

def State.bandAt (s : State) (p i : Nat) : Option Band :=
  bandOf (s.reg (s.firstSlice p) 0 (0x50 + 2 * i)) (s.reg (s.firstSlice p) 0 (0x51 + 2 * i))

/-- Where the snapshot of a partition keeps its copy of a line, if the line lies in the source band. -/
def State.snapTo (s : State) (p line : Nat) : Option Nat :=
  match s.bandAt p (s.snapBands p).1, s.bandAt p (s.snapBands p).2 with
  | some b, some b' =>
    match bandInv b (64 * line) with
    | some o => (bandMap [b'] (b'.pbase * 2 ^ 30 + o)).map (· / 64)
    | none => none
  | _, _ => none

def State.copyOnWrite (s : State) (line : Nat) (e : Nat × Partition) : State :=
  if e.2.snap.state = .copying ∧ !kmem line e.2.snap.copied then
    match s.snapTo e.1 line with
    | some dest =>
      (s.setHomes (s.homes.copyLine line dest)).modPart e.1 fun p =>
        { p with snap := { p.snap with copied := kadd line p.snap.copied, gwct := s.tick } }
    | none => s
  else s

/-- R359: a write performed at a source home marks its line again. -/
def markMig (line : Nat) (m : Migration) : Migration :=
  if (m.state = .copy ∨ m.state = .freezing) ∧ inRange line m.src m.size then { m with marked := kadd line m.marked } else m

/-- R297: a write to a line ends the reservations of it. -/
def State.breakReservations (s : State) (line : Nat) : State :=
  { s with harts := s.harts.map fun (e : Nat × Hart) =>
    if e.2.reservation = some line then (e.1, { e.2 with reservation := none }) else e }

/-- What a home does before it performs a write to a line. -/
def State.beforeWrite (s : State) (line : Nat) : State :=
  let s1 := (s.pkg.parts.foldl (fun s e => s.copyOnWrite line e) s).breakReservations line
  s1.setPkg { s1.pkg with migs := s1.pkg.migs.map fun e => (e.1, markMig line e.2) }

/-! Leases (R274 to R278). -/

def leaseTicks (code : Nat) : Nat := match code with
  | 0 => 64
  | 1 => 512
  | _ => 8192

def agentOf (line : Nat) : Nat := homeAgent (64 * line)

/-- R275: a line without an entry has X at the agent's floor. -/
def Homes.leaseX (h : Homes) (line : Nat) : Nat :=
  match sfind line h.lease with
  | some x => x
  | none => sget 0 (agentOf line) h.floor

/-- R275: the entry of a line takes a later expiry; a full table reuses its earliest entry and raises the floor. -/
def Homes.record (h : Homes) (tick line x : Nat) : Homes :=
  let old := h.leaseX line
  let t := h.lease.filter fun e => decide (agentOf e.1 ≠ agentOf line) || decide (tick ≤ e.2)
  let mine := t.filter fun e => decide (agentOf e.1 = agentOf line)
  let (t, f) :=
    if (sfind line t).isNone && decide (8192 ≤ mine.length) then
      match leastBy (·.2) mine with
      | some e => (sdel e.1 t, sput 0 (agentOf line) (Nat.max (sget 0 (agentOf line) h.floor) e.2) h.floor)
      | none => (t, h.floor)
    else (t, h.floor)
  { h with lease := sset line (Nat.max old x) t, floor := f }

def infLines (h : Homes) (agent : Nat) : Nat := (h.inf.filter fun e => decide (agentOf e.1 = agent)).length

/-- The earliest P of a write waiting at a line. -/
def Homes.earliest (h : Homes) (line : Nat) : Option Nat :=
  minNat ((h.waiting.filter fun w => decide (w.line = line)).map (·.p))

/-- R274, R277, R278: the lease granted to a read at tick T for a slice: the copy's expiry (none: INF), or no copy. An
INF request that meets the RECALLs of its line is granted LONG (DESIGN CHOICE, log entry 110). -/
def State.grant (s : State) (line slice code : Nat) : Option (Option Nat) × State :=
  let h := s.homes
  let room := (sfind line h.inf).isSome || decide (infLines h (agentOf line) < 1024)
  match h.earliest line with
  | none =>
    if code = 3 ∧ room = true ∧ (sfind line h.recalls).isNone then
      (some none, s.setHomes { h with inf := sset line (sget 0 line h.inf ||| bitM 16 slice) h.inf })
    else
      let e := s.tick + leaseTicks code
      (some (some e), s.setHomes (h.record s.tick line (e + 2)))
  | some p =>
    let e := Nat.min (s.tick + leaseTicks code) (p - 2)
    if e ≤ s.tick then (none, s) else (some (some e), s.setHomes (h.record s.tick line (e + 2)))

/-- R279: the sets of the RDC of a slice, of 16 ways; a fill takes the least recently used way of a full one
(PRESUMED, log entry 111). -/
def rdcSet (line : Nat) : Nat := line % 16384
def State.rdcFill (s : State) (slice line : Nat) (expiry : Option Nat) : State :=
  let mates := s.homes.rdc.filter fun e =>
    decide (e.1 / 2 ^ 48 = slice) && decide (rdcSet (e.1 % 2 ^ 48) = rdcSet line) && decide (e.1 ≠ rdcKey slice line)
  let t := if 16 ≤ mates.length then
      (match leastBy (fun e => e.2.used) mates with
       | some e => sdel e.1 s.homes.rdc
       | none => s.homes.rdc)
    else s.homes.rdc
  (s.setHomes { s.homes with rdc := sset (rdcKey slice line) ⟨expiry, s.seq⟩ t }).bump

/-! Units under test and retired units (R306, R307, R414, R415). -/

def unitDram : Nat := 0
def unitL2 : Nat := 1
def unitRdc : Nat := 2
def unitTable : Nat := 3
def unitHost : Nat := 4
def unitXbar : Nat := 5
def unitCore : Nat := 6
def unitTag : Nat := 8

def unitKey (slice unit index : Nat) : Nat := (slice * 16 + unit) * 256 + index

def State.underTest (s : State) (slice unit index : Nat) : Bool := (sfind (unitKey slice unit index) s.homes.testing).isSome

/-- Number of a line's home agent within its slice, and of its bank. -/
def agentIndex (line : Nat) : Nat := agentOf line % 48

/-- Whether an access to a line at its home meets a unit under test; of a DRAM row the line of the error is known. -/
def State.homeTested (s : State) (line : Nat) : Bool :=
  let sl := dpaSlice (64 * line)
  let row := fun (u : Nat) => match sfind (unitKey sl u (agentIndex line)) s.homes.testing with
    | some t => decide (t.line = some line)
    | none => false
  s.underTest sl unitL2 (agentIndex line / 3) || s.underTest sl unitTable (agentIndex line) || row unitDram || row unitTag

def regRetire : Nat := 0x4D
def State.coreRetired (s : State) (core : Nat) : Bool :=
  (s.reg (coreSlice core) 0 regRetire).getLsbD (coreUnit core - 1)
def State.hartRetired (s : State) (h : Nat) : Bool := (s.reg (h / 8) 0 regRetire).getLsbD (8 + h % 8)

/-- The ways that a line's bank still fills. -/
def State.l2WayCount (s : State) (line : Nat) : Nat :=
  16 - (s.plat.flash.retired.filter fun e => decide (e = (dpaSlice (64 * line), Retired.bankWay (agentIndex line / 3)))).length

/-! The L2 and its channels (R273, R288, R289). -/

def l2Set (line : Nat) : Nat := line / 16 % 4096
/-- Lines of one bank set. -/
def sameL2Set (a b : Nat) : Bool :=
  decide (l2Set a = l2Set b) && decide (agentOf a / 3 = agentOf b / 3)

def chanKey (line : Nat) : Nat := agentOf line
def Channel.idle : Channel := ⟨[], [], 0⟩

def State.chanReq (s : State) (r : ChanReq) : State :=
  let k := chanKey r.line
  let c := sget Channel.idle k s.homes.channels
  if c.queue.contains r then s
  else (s.setHomes { s.homes with channels := sset k { c with queue := c.queue ++ [r] } s.homes.channels }).postOnce
    (.channelTransfer (k / 48) (k % 48))

/-- R288: requests of no VF are uncharged; they carry number 32. -/
def chargeVf (vf : Nat) : Option Nat := if vf < 32 then some vf else none

def State.chanAsk (s : State) (vf : Option Nat) (line : Nat) (write : Bool) : State := s.chanReq ⟨vf, line, write, false⟩

/-- R273: a COUNTER line enters its turnstile unit of 2,048; the least recently used one without a listed waiter or a
deferred operation goes back to its channel. -/
def State.tsFill (s : State) (line : Nat) : State :=
  let h := s.homes
  let busy := fun (l : Nat) =>
    (s.flight.waiters.any fun e => e.2.listed.isSome && (match e.2.loc with | .home d => decide (d / 64 = l) | _ => false)) ||
    (s.flight.ts.any fun e => decide (e.2.stage = .deferred) && (match e.2.loc with | .home d => decide (d / 64 = l) | _ => false))
  let mates := h.tsLines.filter fun e => decide (agentOf e.1 = agentOf line)
  let s1 :=
    if 2048 ≤ mates.length then
      match leastBy (fun (e : Nat × Nat) => e.2) (mates.filter fun e => !busy e.1) with
      | some e => (s.setHomes { h with tsLines := sdel e.1 h.tsLines }).chanAsk none e.1 true
      | none => s
    else s
  (s1.setHomes { s1.homes with tsLines := sset line s1.seq s1.homes.tsLines }).bump

/-- A line enters the L2; the least recently used line of its set that is not anchored leaves, written to its channel
if dirty. -/
def State.l2Fill (s : State) (line vf : Nat) : State :=
  let h := s.homes
  let mates := h.l2.filter fun e => sameL2Set e.1 line
  let s1 :=
    if s.l2WayCount line ≤ mates.length then
      match leastBy (fun e => e.2.used) (mates.filter fun e => (sget 0 e.1 h.anchors) = (0 : BitVec 32)) with
      | some e =>
        let s2 := s.setHomes { h with l2 := sdel e.1 h.l2 }
        if e.2.dirty then s2.chanAsk (chargeVf e.2.vf) e.1 true else s2
      | none => s
    else s
  (s1.setHomes { s1.homes with l2 := sset line ⟨vf, false, s1.seq⟩ s1.homes.l2 }).bump

/-- A write at the home updates the L2 line and its tag. -/
def State.l2Write (s : State) (line vf : Nat) : State :=
  let s1 := if (sfind line s.homes.l2).isSome then s else (s.chanAsk (chargeVf vf) line false).l2Fill line vf
  (s1.setHomes { s1.homes with l2 := sset line ⟨vf, true, s1.seq⟩ s1.homes.l2 }).bump

/-! Values under a read or a write. -/

/-- How a line of memory reads to a request: one value and the poison. -/
def State.lineRead (s : State) (line astag a n : Nat) : Nat × Bool :=
  (memVal s.homes.mem a n, s.homes.badRead line astag)

/-- R166: the new value of an atomic operation of w bits. -/
def atomNew (op : AtomOp) (w m v : Nat) : Nat :=
  let f := if w = 64 then fp64 else fp32
  match op with
  | .add => (m + v) % 2 ^ w
  | .umin => if m < v then m else v
  | .smin => if sval w m < sval w v then m else v
  | .umax => if v < m then m else v
  | .smax => if sval w v < sval w m then m else v
  | .and => m &&& v
  | .or => m ||| v
  | .xor => m ^^^ v
  | .xchg => v
  | .inc => if v ≤ m then 0 else m + 1
  | .dec => if m = 0 ∨ v < m then v else m - 1
  | .fadd => f.round .rne false false 0 ((f.decode m).add .rne (f.decode v))
  | .fmin => f.round .rne false false 0 ((f.decode m).minmax false (f.decode v))
  | .fmax => f.round .rne false false 0 ((f.decode m).minmax true (f.decode v))

def widthBytes : Width → Nat
  | .b8 => 1
  | .b16 => 2
  | .b32 => 4
  | .b64 => 8
  | .b128 => 16

/-- R248: the formats of REDUCE_ADD, and the sum rounded once. -/
def reduceFmt : Nat → Option Fmt
  | 0 => some fp32
  | 1 => some bf16
  | 2 => some fp16
  | 3 => some fp64
  | _ => none

def reduceNew (fmt m v : Nat) : Nat :=
  match reduceFmt fmt with
  | some f => f.round .rne false false 0 ((f.decode m).add .rne (f.decode v))
  | none => (m + v) % 2 ^ (if fmt = 4 then 32 else 64)

/-- Whether what is written depends on what stood there, so that its poison goes on (R167, R248). -/
def MemKind.usesOld : MemKind → Bool
  | .atomic _ | .cas | .red _ | .reduce _ => true
  | _ => false

/-- R167: what one lane's operation leaves in the bytes it reaches, none where it leaves them. -/
def MemKind.newVal (k : MemKind) (w old : Nat) (a : LaneAcc) : Option Nat :=
  match k with
  | .store | .writeBack .. => some (uval w a.val)
  | .atomic op | .red op => some (atomNew op w old (uval w a.val))
  | .cas => if old = uval w a.cmp then some (uval w a.val) else none
  | .reduce fmt => some (reduceNew fmt old (uval w a.val))
  | .sc => some (uval w a.val)
  | .load _ | .prefetch | .record | .lr => none

def MemKind.reads : MemKind → Bool
  | .load _ | .atomic _ | .cas | .prefetch | .record | .lr | .sc => true
  | _ => false
def MemKind.writes : MemKind → Bool
  | .load _ | .prefetch | .record | .lr => false
  | _ => true

/-! Scratchpad (R184, R185). -/

/-- R184: the array byte of a scratchpad offset, z the swizzle code. -/
def spAddr (g0 z o : Nat) : Nat :=
  let bank := if z = 6 then o / 8 % 32 else (o / 8 % 32) ^^^ (o / 2 ^ (z + 4) % 32)
  4096 * g0 + o / 256 * 256 + bank * 8 + o % 8

/-- A 128-bit access of a scratchpad is carried as two of 8 bytes (R184, R185). -/
def bankBytes : Width → Nat
  | .b128 => 8
  | w => widthBytes w

/-- The array bytes of an access, its 8-byte words mapped one by one. -/
def spBytes (g0 z o n : Nat) : List Nat := (List.range n).map fun i => spAddr g0 z (o + i)

def Core.val (c : Core) (as : List Nat) : Nat := leVal (as.map c.byte)
def Core.badAt (c : Core) (as : List Nat) : Bool := as.any fun a => kmem (a / 8) c.uaPoison

def Core.store (c : Core) (as : List Nat) (v : Nat) : Core :=
  ((as.zip (leBytes as.length v))).foldl (fun c e => c.setByte e.1 e.2) c

/-- R185: the word poison after one store of bytes, each piece with the poison of its register: a poisoned register
poisons the words it is written to, and eight clean bytes clear a word. -/
def poisonWords (ps : KeySet) (xs : List (List Nat × Bool)) : KeySet :=
  let bytes := xs.flatMap (·.1)
  let bad := xs.flatMap fun e => if e.2 then e.1.map (· / 8) else []
  (toKeys (bytes.map (· / 8))).foldl (fun ps w =>
    if bad.contains w then kadd w ps
    else if (toKeys (bytes.filter fun a => decide (a / 8 = w))).length = 8 then kdel w ps
    else ps) ps

/-- One lane's access at the banks: what it reads, and the core after it. -/
def Core.access (c : Core) (k : MemKind) (w : Nat) (as : List Nat) (a : LaneAcc) : LaneAcc × Core :=
  let old := c.val as
  let bad := c.badAt as
  let r := { a with val := old, poison := bad }
  match k.newVal (8 * w) old a with
  | none => (r, c)
  | some v =>
    let c1 := c.store as v
    match k with
    | .store => (r, c1)
    | _ => (r, { c1 with uaPoison := poisonWords c1.uaPoison [(as, a.poison || bad)] })

/-- R164, R168: the lanes of one instruction in ascending order; equal addresses are thereby resolved in passes. -/
def Core.accesses (c : Core) (k : MemKind) (w : Nat) (xs : List (List Nat × LaneAcc)) : List LaneAcc × Core :=
  let r := xs.foldl (fun acc x => let r := acc.2.access k w x.1 x.2; (acc.1 ++ [r.1], r.2)) ([], c)
  match k with
  | .store => (r.1, { r.2 with uaPoison := poisonWords r.2.uaPoison (xs.map fun x => (x.1, x.2.poison)) })
  | _ => r

/-! Accesses of one operation to one line at its home or in an L1. -/

/-- Byte i of an access. An element of a REDUCE_ADD can straddle two lines; cmp is then where the second one lies. -/
def LaneAcc.byteAt (k : MemKind) (a : LaneAcc) (i : Nat) : Nat :=
  match k with
  | .reduce _ => if a.cmp ≠ 0 ∧ 64 ≤ a.addr % 64 + i then a.cmp + (a.addr % 64 + i - 64) else a.addr + i
  | _ => a.addr + i

/-- The bytes of a line under a list of lane accesses: what each lane reads, the bytes written, and whether poison is
written among them (R167: a poisoned line makes what an atomic leaves poisoned). -/
def lineAccess (k : MemKind) (w : Nat) (rd : Nat → Byte) (bad : Bool) (xs : List LaneAcc) :
    List LaneAcc × List (Nat × Byte) × Bool :=
  xs.foldl (fun acc a =>
    let at_ := fun i => (acc.2.1.foldl (fun (b : Byte) e => if e.1 = a.byteAt k i then e.2 else b) (rd (a.byteAt k i)))
    let old := leVal ((List.range w).map at_)
    let r := { a with val := old, poison := bad || acc.2.2 }
    match k.newVal (8 * w) old a with
    | none => (acc.1 ++ [r], acc.2)
    | some v =>
      (acc.1 ++ [r], acc.2.1 ++ ((leBytes w v).zipIdx.map fun e => (a.byteAt k e.2, e.1)),
        acc.2.2 || a.poison || (bad && k.usesOld))) ([], [], false)

/-- R303: whether an operation can replace a whole line: a store of a troupe, an engine's write or a write-back, and no
store of a hart nor atomic. -/
def MemOp.full (o : MemOp) : Bool :=
  (match o.owner with | .hart _ => false | _ => true) && (match o.kind with
    | .store | .writeBack _ => true
    | _ => false)

end Sys2Proof.Machine
end

