-- ==== Sys2Proof/Machine/HomeEvents.lean ====
section
/-! DEFINITION. Accesses on their way: reads and writes at a home, pins, retries, recalls, channels, and what returns to
the requester (R162, R183, R186, R187, R265, R273 to R289, R311 to R313). -/

namespace Sys2Proof.Machine

/-! Operations in flight. -/

def State.op? (s : State) (id : Nat) : Option MemOp := sfind id s.flight.mem
def State.setOp (s : State) (id : Nat) (o : MemOp) : State := s.setFlight { s.flight with mem := sset id o s.flight.mem }
def State.delOp (s : State) (id : Nat) : State := s.setFlight { s.flight with mem := sdel id s.flight.mem }
def MemOp.part? (o : MemOp) (line : Nat) : Option Part := o.parts.find? fun p => decide (p.line = line)
def MemOp.setPart (o : MemOp) (line : Nat) (f : Part → Part) : MemOp :=
  { o with parts := o.parts.map fun p => if p.line = line then f p else p }
def State.modPart? (s : State) (id line : Nat) (f : Part → Part) : State :=
  match s.op? id with
  | some o => s.setOp id (o.setPart line f)
  | none => s

def lineSlice (line : Nat) : Nat := dpaSlice (64 * line)

/-- R342: what an access needs of its page; an atomic needs R and W. -/
def MemKind.need : MemKind → Need
  | .atomic _ | .cas | .red _ => needRW
  | .store | .writeBack _ | .reduce _ => needW
  | .sc => needW
  | .load _ | .prefetch | .record | .lr => needR

def MemKind.hartAcc : MemKind → HAcc
  | .load _ | .prefetch | .record | .lr => .load
  | .atomic _ | .cas | .red _ => .amo
  | _ => .store

def MemOp.slice (o : MemOp) : Nat := match o.owner with
  | .hart h => h / 8
  | .engine sl => sl
  | _ => coreSlice o.core

def MemOp.leaf (o : MemOp) : Nat := match o.owner with
  | .hart h => hartLeaf h
  | .engine sl => engineLeaf sl
  | _ => coreLeaf o.core

/-- The way to the home of a line, and back. -/
def State.toHome (s : State) (o : MemOp) (line : Nat) (e : Ev) : State := s.send o.leaf (homeLeaf line) .req e
def State.fromHome (s : State) (o : MemOp) (line : Nat) (e : Ev) : State :=
  let recv := match o.owner with
    | .hart h => recvHart h
    | .engine sl => recvRdc sl
    | .peer _ => recvRdc o.slice
    | _ => recvL1 o.core
  s.bankSend line recv (homeLeaf line) o.leaf .rsp e

def Part.acked (p : Part) : Bool := match p.state with
  | .fixed _ a _ => a
  | .done => true
  | _ => false

def Part.finished (p : Part) : Bool := match p.state with
  | .fixed _ a f => a && f
  | .done => true
  | _ => false

/-- Whether the access has taken effect at its tick. -/
def Part.performed (p : Part) : Bool := match p.state with
  | .sent => false
  | .fixed _ _ f => f
  | _ => true

/-- R51: how soon a line that an operation fills is to leave the L1. -/
def MemOp.rank (o : MemOp) : Nat := match o.hint with
  | 1 => 0
  | 2 => 2
  | _ => 1

/-- R72: complete for its counter: every GWCT received, or every value written. -/
def MemOp.complete (o : MemOp) : Bool := o.parts.all fun p => if o.kind.reads then decide (p.state = .done) else p.acked

def State.opDone (s : State) (id : Nat) : Bool := match s.op? id with
  | none => true
  | some o => o.complete

/-- R313: an earlier operation of the same owner still has an access to the line to perform. -/
def State.blocked (s : State) (id line : Nat) (o : MemOp) : Bool :=
  s.flight.mem.any fun e =>
    decide (e.1 < id) && decide (e.2.owner = o.owner) && decide (e.2.kind ≠ .prefetch) && e.2.parts.any fun p => decide (p.line = line) && !p.performed

/-- R445: a request of another module is done, and its NI answers. -/
def State.peerReply (s : State) (id : Nat) (data : List Byte) (poison : Bool) : State :=
  match sfind id s.fab.pending with
  | some m => s.setFab { s.fab with outbox := s.fab.outbox ++ [.reply m data poison], pending := sdel id s.fab.pending }
  | none => s

/-- What an operation read, in the order of its accesses. -/
def MemOp.readData (o : MemOp) : List Byte :=
  if o.kind.reads then o.parts.flatMap fun p => p.out.flatMap fun a => leBytes (widthBytes o.width) a.val else []

/-- What the end of an operation tells its owner. -/
def State.tellOwner (s : State) (o : MemOp) : State :=
  match o.owner with
  | .peer r => s.peerReply r o.readData (o.kind.reads && o.parts.any fun p => p.out.any (·.poison))
  | _ => s

/-- R72: the counter of the owner falls when the operation completes; the operation goes when nothing is left of it. -/
def State.settleOp (s : State) (id : Nat) : State :=
  match s.op? id with
  | none => s
  | some o =>
    let s1 :=
      if o.counted && o.complete then
        match o.owner with
        | .troupe k =>
          (s.modTroupe (keyOf k) fun t => t.count fun c =>
            if o.kind.reads then { c with ld := c.ld - 1 } else { c with st := c.st - 1 }).setOp id { o with counted := false }
        | _ => s.setOp id { o with counted := false }
      else s
    -- brec takes its record itself
    if o.complete && o.parts.all Part.finished && decide (o.kind ≠ .record) then (s1.tellOwner o).delOp id else s1

/-! Where an access goes (R186, R187, R265). -/

inductive Route where
  | home
  | here (key : Nat)
  | across (core : Nat)
  | wait
  | refused
  deriving DecidableEq, Repr

def MemOp.isWriteBack (o : MemOp) : Bool := match o.kind with
  | .writeBack _ => true
  | _ => false

/-- R187, R265: only the troupes of the block or of the cluster that holds a PINNED line are within its holder; an engine,
a hart and another module are agents outside it. -/
def State.route (s : State) (o : MemOp) (line : Nat) : Route :=
  match sfind line s.homes.pins with
  | none => .home
  | some p =>
    if o.isWriteBack then .home
    else
      let isTroupe := match o.owner with | .troupe _ => true | _ => false
      let mine := match p.holder with
        | .block b => decide (p.core = o.core) && decide (b = o.block)
        | .cluster => decide (cluster p.core = cluster o.core)
      if !isTroupe || !mine then .refused
      else
        match (s.core p.core).l1Find line with
        | some (k, l) => if l.isPinned then (if p.core = o.core then .here k else .across p.core) else .wait
        | none => .wait

/-- A frozen home refuses what reaches it; the holder of a PINNED line does not need its home. -/
def State.frozenFor (s : State) (o : MemOp) (line : Nat) : Bool :=
  s.isFrozen line && (match s.route o line with
    | .here _ | .across _ => false
    | _ => true)

/-- R187: a line's first refusal starts the 65,536 ticks. -/
def State.noteRefusal (s : State) (line : Nat) : State :=
  match sfind line s.homes.pins with
  | some p =>
    match (s.core p.core).l1Find line with
    | some (k, l) =>
      if l.firstRefusal.isNone then
        (s.setCore p.core
          { s.core p.core with l1 := sset k { l with firstRefusal := some s.tick } (s.core p.core).l1 }).at
          (s.tick + 65536) (.pinnedForcedWriteback p.core line)
      else s
    | none => s
  | none => s

/-- R187, R310: a refused access is repeated once the RETRY has come back from the home. -/
def State.refuse (s : State) (id line : Nat) : State :=
  let s1 := s.noteRefusal line
  match s1.op? id with
  | some o => s1.fromHome o line (.retry id line)
  | none => s1

/-! L1 lines. -/

/-- R182: the 64 bytes of a pinned line as one write. -/
def Core.backPart (c : Core) (key : Nat) : Option (Part × Nat) :=
  match sfind key c.l1 with
  | none => none
  | some l => match l.state with
    | .valid _ => none
    | .pinned _ _ astag vf =>
      some (⟨l.line, none, astag, (List.range 8).map fun i =>
        LaneAcc.mk i (64 * l.line + 8 * i) (leVal (c.bytes (l1Addr key + 8 * i) 8)) 0 l.poison, .sent, [], none, false⟩, vf)

/-- R279: the RDC of a slice no longer holds a line. -/
def State.dropRdc (s : State) (slice line : Nat) : State :=
  s.setHomes { s.homes with rdc := sdel (rdcKey slice line) s.homes.rdc }

/-- R279: a write goes on its way to its home, and the RDC of its slice drops the line. -/
def State.sendWrite (s : State) (o : MemOp) (id line : Nat) : State :=
  (s.dropRdc o.slice line).toHome o line (.homeWrite id line)

/-- R182, R291: pinned lines leave the L1 and go to their homes, as one operation. -/
def State.writeBacks (s : State) (core : Nat) (keys : List Nat) (owner : Owner) (keep counted : Bool) : Nat × State :=
  let c := s.core core
  let ps := keys.filterMap fun k => c.backPart k
  match ps with
  | [] => (0, s)
  | p :: _ =>
    let (id, s1) := s.newId
    let rg : Regime := ⟨((s.partOf (coreSlice core)).getD 0), p.2, .s, 0⟩
    let o : MemOp := ⟨owner, .writeBack keep, .b64, none, core, 0, rg, 6, 1, 0, none, ps.map (·.1), counted⟩
    let s2 := (s1.setCore core { c with l1 := keys.foldl (fun l k => sdel k l) c.l1 }).setOp id o
    (id, ps.foldl (fun s q => s.sendWrite o id q.1.line) s2)

def State.writeBack (s : State) (core key : Nat) (owner : Owner) (keep : Bool) : Nat × State :=
  s.writeBacks core [key] owner keep false

/-- R183, R51: the line that leaves a full set: among those filled under the lowest hint, the least recently used. -/
def evictee (held : List (Nat × L1Line)) : Option (Nat × L1Line) :=
  match leastBy (fun e => e.2.rank) held with
  | some r => leastBy (fun e => e.2.used) (held.filter fun e => decide (e.2.rank = r.2.rank))
  | none => none

/-- R183: the way a miss fills: the lowest way whose line is INVALID, else the least recently used that is not PINNED;
with every way PINNED, the least recently pinned line is written back first, of several pinned in one tick the one in the
lowest way (DESIGN CHOICE, log entry 112). R187: as is a 1,025th pin. -/
def State.l1Place (s : State) (core line : Nat) : Option Nat × State :=
  let c := s.core core
  let ways := s.l1Ways core
  let keys := ways.map fun w => l1Key w (l1Set line)
  match keys.find? fun k => (sfind k c.l1).isNone with
  | some k => (some k, s)
  | none =>
    let held := keys.filterMap fun k => (sfind k c.l1).map fun l => (k, l)
    match evictee (held.filter fun e => !e.2.isPinned) with
    | some e => (some e.1, s.setCore core { c with l1 := sdel e.1 c.l1 })
    | none =>
      match leastBy (fun e => e.2.since) held with
      | some e => (some e.1, (s.writeBack core e.1 (.core core) false).2)
      | none => (none, s)

/-- R186: a VALID copy is installed where a read brought one. -/
def State.l1Fill (s : State) (core line rank : Nat) (expiry : Option Nat) : State :=
  match (s.core core).l1Find line with
  | some (k, l) =>
    if l.isPinned then s
    else
      let l1 : L1Line := { l with state := .valid expiry, used := s.seq, rank := rank }
      (s.setCore core { s.core core with l1 := sset k l1 (s.core core).l1 }).bump
  | none =>
    match s.l1Place core line with
    | (some k, s1) =>
      (s1.setCore core
        { s1.core core with l1 := sset k ⟨line, .valid expiry, false, none, s1.seq, rank⟩ (s1.core core).l1 }).bump
    | (none, s1) => s1

/-- R187: a 1,025th pin; of several lines pinned in one tick the one in the lowest way, then set, is the least recently
pinned (DESIGN CHOICE, log entry 112). -/
def State.overflowPin (s : State) (core : Nat) : State :=
  let ps := (s.core core).pinned
  if 1024 ≤ ps.length then
    match leastBy (fun e => e.2.since) ps with
    | some e => (s.writeBack core e.1 (.core core) false).2
    | none => s
  else s

/-- Accesses performed in a PINNED line of a core: what each lane reads, and the state with the line written. -/
def State.pinnedAccess (s : State) (core key : Nat) (o : MemOp) (accs : List LaneAcc) : List LaneAcc × State :=
  let c := s.core core
  match sfind key c.l1 with
  | none => (accs, s)
  | some l =>
    let base := l1Addr key
    let r := lineAccess o.kind (widthBytes o.width) (fun a => c.byte (base + a % 64)) l.poison accs
    let c1 := r.2.1.foldl (fun c e => c.setByte (base + e.1 % 64) e.2) c
    let whole := o.full && decide (64 ≤ (toKeys (r.2.1.map (·.1))).length)
    (r.1, (s.setCore core
      { c1 with l1 := sset key { l with poison := (l.poison && !whole) || r.2.2, used := s.seq } c1.l1 }).bump)

/-! Performing at a home. -/

/-- R276: the writer receives the GWCT. -/
def State.takeGwct (s : State) (o : MemOp) (p : Nat) : State :=
  match o.owner with
  | .troupe k => s.modTroupe (keyOf k) fun t => { t with gwct := Nat.max t.gwct p }
  | .hart h => s.setHart h { s.hart h with gwct := Nat.max (s.hart h).gwct p }
  | .chain c =>
    match sfind c s.flight.chains with
    | some x => s.setFlight { s.flight with chains := sset c { x with gwct := Nat.max x.gwct p } s.flight.chains }
    | none => s
  | .peer _ | .core _ | .engine _ => s

/-- R297: an SC fails if any write to the line was performed after the LR's read. -/
def State.scFails (s : State) (o : MemOp) (line : Nat) : Bool :=
  match o.kind, o.owner with
  | .sc, .hart h => decide ((s.hart h).reservation ≠ some line)
  | .sc, _ => true
  | _, _ => false

def scOut (fails : Bool) (a : LaneAcc) : LaneAcc := { a with val := if fails then 1 else 0, poison := false }

/-- R276: the write of one operation to one line takes effect. -/
def State.performWrite (s : State) (id line : Nat) : State :=
  match s.op? id with
  | none => s
  | some o =>
    match o.part? line with
    | none => s
    | some p =>
      match p.state with
      | .fixed pt acked false =>
        let fails := s.scFails o line
        let s1 := if fails then s else s.beforeWrite line
        let r0 := lineAccess o.kind (widthBytes o.width) (memByte s1.homes.mem) (s1.homes.badRead line p.tag) p.accs
        let r := if o.kind = .sc then (p.accs.map (scOut fails), r0.2) else r0
        let h := if fails then s1.homes else s1.homes.writeLine line p.tag r.2.1 r.2.2 o.full
        let h1 := { h with waiting := h.waiting.filter fun w => !(decide (w.op = id) && decide (w.line = line)) }
        let s2 := (s1.setHomes h1).modPart? id line fun p =>
          { p with out := r.1, state := if o.kind.reads then .sampled else .fixed pt acked true }
        let s3 := match o.kind with
          | .writeBack keep =>
            let s4 := s2.setHomes { s2.homes with pins := sdel line s2.homes.pins }
            if keep then
              (s4.setHomes (s4.homes.record s4.tick line (pt + 514))).l1Fill o.core line 1 (some (pt + 512))
            else s4
          | _ => s2
        -- the GWCT of an atomic comes with its value
        if o.kind.reads then (s3.takeGwct o pt).fromHome o line (.loadDataReturn id line) else s3.settleOp id
      | _ => s

/-- Writes to a line whose tick has come take effect before it is read (R312). -/
def State.settle (s : State) (line : Nat) : State :=
  (s.homes.waiting.filter fun w => decide (w.line = line) && decide (w.p ≤ s.tick)).foldl
    (fun s w => s.performWrite w.op line) s

/-- R278: a slice acknowledges a RECALL. -/
def State.ackRecall (s : State) (line sl : Nat) : State :=
  let from_ := 8 * sl + homeLeaf line % 8
  if s.partOf sl = s.partOf (homeLeaf line / 8) then s.send from_ (homeLeaf line) .rsp (.recallAck line)
  else s.at (s.tick + latency sl (homeLeaf line / 8)) (.recallAck line)

/-- A RECALL; R305 sends one to every slice, of which those of no or another partition hold no copy and use no route of
this one. -/
def State.sendRecall (s : State) (line sl from_ dst : Nat) (cls : PClass) (e : Ev) : State :=
  if s.partOf (from_ / 8) = s.partOf (dst / 8) then s.bankSend line (recvRdc sl) from_ dst cls e
  else s.at (s.tick + latency (from_ / 8) (dst / 8)) e

/-- R278: RECALLs to the slices that hold an INF copy. -/
def State.sendRecalls (s : State) (line : Nat) (m : BitVec 16) : State :=
  let s1 := s.setHomes { s.homes with recalls := sset line m s.homes.recalls }
  (bitSet16 m).foldl (fun s sl => s.sendRecall line sl (homeLeaf line) (8 * sl + homeLeaf line % 8) .recall (.recall sl line)) s1

/-- R276: the tick at which a write arriving now is performed. -/
def State.writeTick (s : State) (line : Nat) : Nat :=
  let prev := match sfind line s.homes.prevP with
    | some p => p + 1
    | none => 0
  Nat.max s.tick (Nat.max (s.homes.leaseX line) prev)

/-- A write that the home admits: its P is fixed and returned as the GWCT, and it is performed at P. -/
def State.fixWrite (s : State) (id line : Nat) (o : MemOp) : State :=
  let p := s.writeTick line
  let h := s.homes
  let s1 := s.setHomes { h with prevP := sset line p h.prevP, waiting := h.waiting ++ [⟨id, line, p⟩] }
  let s2 := (s1.l2Write line o.regime.vf).modPart? id line fun x => { x with state := .fixed p false false }
  let s3 := s2.fromHome o line (.gwctReceive id line)
  if p ≤ s.tick then s3.performWrite id line else s3.at p (.homeWrite id line)

/-- R278: a home admits a write that nothing refuses; while INF copies of the line stand, once they are recalled. -/
def State.admitWrite (s : State) (id line : Nat) (o : MemOp) : State :=
  let held := s.homes.held ++ [(id, line)]
  if (sfind line s.homes.recalls).isSome then s.setHomes { s.homes with held := held }
  else match sfind line s.homes.inf with
    | some m => (s.setHomes { s.homes with held := held }).sendRecalls line m
    | none => s.fixWrite id line o

/-- An access that the holder performs in its PINNED line. -/
def State.performHere (s : State) (id line core key : Nat) (o : MemOp) (accs : List LaneAcc) : State :=
  let (out, s1) := s.pinnedAccess core key o accs
  let s2 := s1.modPart? id line fun x =>
    { x with out := out, state := if o.kind.reads then .sampled else .fixed s.tick true true }
  if o.kind.reads then s2.later (.loadDataReturn id line) else s2.settleOp id

/-- R328: whether the firewall of a line's slice refuses a request of a partition. -/
def State.refusesPart (s : State) (part line : Nat) : Bool := !(s.smask part).getLsbD (lineSlice line)

/-- R328: the same, of an operation: the unit it comes from stands in a slice of the partition too. -/
def State.refusesOp (s : State) (o : MemOp) (line : Nat) : Bool :=
  s.refusesPart o.regime.part line || !(s.smask o.regime.part).getLsbD o.slice

def State.countRefusal (s : State) : State := s.setPlat { s.plat with refusals := s.plat.refusals + 1 }

def poisonedAcc (a : LaneAcc) : LaneAcc := { a with val := 0, poison := true }

/-- R328: a refused read receives poison, and a refused write is dropped. -/
def State.dropAccess (s : State) (id line : Nat) (o : MemOp) : State :=
  let s1 := s.countRefusal
  let s2 := if o.isWriteBack then s1.setHomes { s1.homes with pins := sdel line s1.homes.pins } else s1
  let s3 := s2.modPart? id line fun p =>
    { p with out := p.accs.map poisonedAcc, fill := none, state := if o.kind.reads then .sampled else .fixed s.tick false true }
  s3.fromHome o line (if o.kind.reads then .loadDataReturn id line else .gwctReceive id line)

/-- Whether a line of an L1 is held by a block. -/
def Core.blockHeld (c : Core) (key : Nat) : Bool :=
  match sfind key c.l1 with
  | some l => (match l.state with
    | .pinned (.block _) .. => true
    | _ => false)
  | none => false

/-- A write reaches its home, or its tick P. A wide store or an atomic of the holding block is performed at the home
(R167, R276, R311): the block's PINNED line is written back first (DEDUCED, log entry 113). In a line that a cluster
holds it is performed in the L1 (R265). -/
def State.homeWrite (s : State) (op line : Nat) : State :=
  match s.op? op with
  | none => s
  | some o => match o.part? line with
    | none => s
    | some p => match p.state with
      | .fixed pt _ false => if pt ≤ s.tick then s.performWrite op line else s.at pt (.homeWrite op line)
      | .sent =>
        if s.refusesOp o line then s.dropAccess op line o
        else if s.homeTested line then s.fromHome o line (.retry op line)
        else if s.blocked op line o then s.later (.homeWrite op line)
        else if s.isFrozen line then s.refuse op line
        else match s.route o line with
          | .refused => s.refuse op line
          | .wait => s.later (.homeWrite op line)
          | .across _ => s.fromHome o line (.redirectedAccess op line)
          | .here k =>
            if (s.core o.core).blockHeld k then
              (s.writeBack o.core k (.core o.core) false).2.later (.homeWrite op line)
            else s.performHere op line o.core k o p.accs
          | .home => s.admitWrite op line o
      | _ => s

def execHomeWrite (op line : Nat) (s : State) : Out := .next (s.homeWrite op line)

/-- The class of a read without a lease (R246). -/
def noLease : Nat := 4

/-- R274: the reads whose lines the RDC keeps: those of troupes and harts. -/
def MemOp.keepsRdc (o : MemOp) : Bool := match o.owner with
  | .troupe _ | .hart _ => true
  | _ => false

/-- R274, R277, R312: a read answered by its home with the line as it stands, and the copy it may install. -/
def State.answerRead (s : State) (id line : Nat) (o : MemOp) (p : Part) : State :=
  let remote := decide (o.slice ≠ lineSlice line)
  let cls := if o.lease = 3 ∧ p.writable = true then 2 else o.lease
  let (fill, s1) := if o.lease = noLease then (none, s) else s.grant line o.slice cls
  let r := lineAccess o.kind (widthBytes o.width) (memByte s1.homes.mem) (s1.homes.badRead line p.tag) p.accs
  let s2 := match fill with
    | some e => if remote && o.keepsRdc then s1.rdcFill o.slice line e else s1
    | none => s1
  let s3 := s2.modPart? id line fun x =>
    { x with out := r.1, state := .sampled, fill := if o.hint = 3 then none else fill }
  let s4 := match o.kind, o.owner with
    | .lr, .hart h => s3.setHart h { s3.hart h with reservation := some line }
    | _, _ => s3
  s4.fromHome o line (.loadDataReturn id line)

def execHomeRead (op line : Nat) (s0 : State) : Out :=
  .next <|
  let s := s0.settle line
  match s.op? op with
  | none => s
  | some o => match o.part? line with
    | none => s
    | some p =>
      if p.state ≠ .sent then s
      else if s.refusesOp o line then s.dropAccess op line o
      else if s.homeTested line then s.fromHome o line (.retry op line)
      else if s.blocked op line o then s.later (.homeRead op line)
      else if s.frozenFor o line then s.refuse op line
      else match s.route o line with
        | .refused => s.refuse op line
        | .wait => s.later (.homeRead op line)
        | .across _ => s.fromHome o line (.redirectedAccess op line)
        | .here k => s.performHere op line o.core k o p.accs
        | .home =>
          match sfind line s.homes.l2 with
          | some l => (s.setHomes { s.homes with l2 := sset line { l with used := s.seq } s.homes.l2 }).bump.answerRead
              op line o p
          -- an L2 miss waits for its channel (R289)
          | none => (s.chanAsk (chargeVf o.regime.vf) line false).later (.homeRead op line)

/-- R265: an access to a cluster-held line, performed in the holding core's L1; if the line has left, it is repeated. -/
def execRedirectedAccess (op line : Nat) (s : State) : Out :=
  .next <|
  match s.op? op with
  | none => s
  | some o => match o.part? line with
    | none => s
    | some p =>
      if p.state ≠ .sent then s
      else match s.route o line with
        | .across c =>
          match (s.core c).l1Find line with
          | some (k, _) => s.performHere op line c k o p.accs
          | none => s.later (.retry op line)
        | _ => s.later (.retry op line)

/-! Narrow-scope stores (R186). -/

/-- R186: the pin is registered, and the home's 64 bytes come with it. -/
def State.registerPin (s : State) (o : MemOp) (line tag : Nat) (va : Option Nat) : State :=
  let h : Holder := if o.scope = 4 then .cluster else .block o.block
  let s1 := s.overflowPin o.core
  let s2 := match (s1.core o.core).l1Find line with
    | some (k, _) => s1.setCore o.core { s1.core o.core with l1 := sdel k (s1.core o.core).l1 }
    | none => s1
  match s2.l1Place o.core line with
  | (some k, s3) =>
    let c := (s3.core o.core).setBytes (l1Addr k) (memBytes s3.homes.mem (64 * line) 64)
    let l : L1Line := ⟨line, .pinned h s3.tick tag o.regime.vf, s3.homes.badRead line tag, none, s3.seq, o.rank⟩
    let s4 := (s3.setCore o.core { c with l1 := sset k l c.l1 }).bump
    s4.setHomes { s4.homes with pins := sset line ⟨o.core, h, o.regime, va⟩ s4.homes.pins }
  | (none, s3) => s3

/-- A cluster-scope store into a line its block holds makes the cluster the holder. -/
def State.widenHolder (s : State) (o : MemOp) (line key : Nat) : State :=
  if o.scope = 4 then
    let c := s.core o.core
    match sfind key c.l1 with
    | some l => match l.state with
      | .pinned _ t a v =>
        let s1 := s.setCore o.core { c with l1 := sset key { l with state := .pinned .cluster t a v } c.l1 }
        s1.setHomes { s1.homes with pins := s1.homes.pins.map fun (e : Nat × PinAt) =>
          if e.1 = line then (e.1, { e.2 with holder := .cluster }) else e }
      | _ => s
    | none => s
  else s

def execPinRegistration (op line : Nat) (s0 : State) : Out :=
  .next <|
  let s := s0.settle line
  match s.op? op with
  | none => s
  | some o => match o.part? line with
    | none => s
    | some p =>
      if p.state ≠ .sent then s
      else if s.refusesOp o line then s.dropAccess op line o
      else if s.homeTested line then s.fromHome o line (.retry op line)
      else if s.blocked op line o then s.later (.pinRegistration op line)
      else if s.frozenFor o line then s.refuse op line
      else match s.route o line with
        | .refused => s.refuse op line
        | .wait => s.later (.pinRegistration op line)
        | .across _ => s.fromHome o line (.redirectedAccess op line)
        | .here k => (s.widenHolder o line k).performHere op line o.core k o p.accs
        | .home =>
          -- the line's bytes are its latest only when no write waits
          if (s.homes.earliest line).isSome || (sfind line s.homes.recalls).isSome then s.later (.pinRegistration op line)
          else
            let s1 := s.registerPin o line p.tag p.va
            match s1.route o line with
            | .here k => s1.performHere op line o.core k o p.accs
            | _ => s1.later (.pinRegistration op line)

/-- R187: the forced write-back of a line that has refused accesses for 65,536 ticks. -/
def execPinnedForcedWriteback (core line : Nat) (s : State) : Out :=
  .next <|
  match (s.core core).l1Find line with
  | some (k, l) =>
    match l.firstRefusal with
    | some t =>
      if l.isPinned && decide (t + 65536 ≤ s.tick) then (s.writeBack core k (.core core) false).2 else s
    | none => s
  | none => s

/-! Sending and repeating (R162). -/

/-- Whether a store stays in the L1 (R186, R316). -/
def MemOp.narrow (o : MemOp) : Bool := decide (o.kind = .store) && decide (1 ≤ o.scope ∧ o.scope ≤ 4)

/-- R186, R187, R265: a read by a troupe of the core or cluster that holds a line goes to the PINNED line, or is refused
there; no other copy serves it. -/
def State.pinnedNear (s : State) (o : MemOp) (line : Nat) : Bool :=
  match sfind line s.homes.pins with
  | none => false
  | some p => match p.holder with
    | .block _ => decide (p.core = o.core)
    | .cluster => decide (cluster p.core = cluster o.core)

/-- R311: a copy in the L1 or the RDC that serves a read at this tick. -/
def State.copyHit (s : State) (o : MemOp) (line : Nat) : Bool :=
  let isTroupe := match o.owner with | .troupe _ => true | _ => false
  let inL1 := isTroupe && match (s.core o.core).l1Find line with
    | some (_, l) => !l.isPinned && l.hits s.tick
    | none => false
  let inHart := match o.owner with
    | .hart h => (match sfind line (s.hart h).dcache with
      | some e => decide (s.tick < e)
      | none => false)
    | _ => false
  let inRdc := (s.rdcCopy o.slice line).isSome
  let pureRead := match o.kind with
    | .load _ | .prefetch | .record => true
    | _ => false
  pureRead && decide (o.lease ≠ noLease) && !(isTroupe && s.pinnedNear o line) && (inL1 || inHart || inRdc)

/-- R274: the copy that the RDC gives an L1 or a hart on a miss ends no later than its own; of an INF copy the hart keeps
one of the DEFAULT class. -/
def State.rdcGives (s : State) (o : MemOp) (line : Nat) : Option (Option Nat) :=
  match s.rdcCopy o.slice line, o.owner with
  | some r, .troupe _ =>
    (match (s.core o.core).l1Find line with
     | some (_, l) => if l.hits s.tick || decide (o.hint = 3) then none else some r.expiry
     | none => if o.hint = 3 then none else some r.expiry)
  | some r, .hart _ => some (some (r.expiry.getD (s.tick + 512)))
  | _, _ => none

/-- A read served by a copy returns the line as its home has it (R312). -/
def State.serveCopy (s0 : State) (id line : Nat) (o : MemOp) (p : Part) : State :=
  let s := s0.settle line
  let r := lineAccess o.kind (widthBytes o.width) (memByte s.homes.mem) (s.homes.badRead line p.tag) p.accs
  let isTroupe := match o.owner with | .troupe _ => true | _ => false
  let s1 := match isTroupe, (s.core o.core).l1Find line with
    | true, some (k, l) => s.setCore o.core { s.core o.core with l1 := sset k { l with used := s.seq } (s.core o.core).l1 }
    | _, _ => s
  let s2 := match sfind (rdcKey o.slice line) s1.homes.rdc with
    | some x => s1.setHomes { s1.homes with rdc := sset (rdcKey o.slice line) { x with used := s1.seq } s1.homes.rdc }
    | none => s1
  (s2.bump.modPart? id line fun x => { x with out := r.1, state := .sampled, fill := s.rdcGives o line }).later
    (.loadDataReturn id line)

/-- R414: whether the caches that an access goes through are under test. -/
def State.wayTested (s : State) (o : MemOp) (line : Nat) : Bool :=
  (match o.owner with
   | .hart h => s.underTest (h / 8) unitHost (h % 8)
   | .troupe _ | .chain _ | .core _ => s.underTest (coreSlice o.core) unitCore (coreUnit o.core - 1)
   | _ => false) ||
  (!o.kind.writes && decide (o.slice ≠ lineSlice line) && s.underTest o.slice unitRdc 0)

/-- Sends the access to one line on its way. -/
def State.sendPart (s : State) (id line : Nat) : State :=
  match s.op? id with
  | none => s
  | some o => match o.part? line with
    | none => s
    | some p =>
      if peerBase ≤ line then
        s.sendPeer o.slice ((line - peerBase) * 64) o.regime.part (o.regime.flowVf) (.mem id line)
      else if s.wayTested o line then s.later (.retry id line)
      else if o.narrow then s.toHome o line (.pinRegistration id line)
      else if o.kind.writes then s.sendWrite o id line
      else if s.copyHit o line && !s.blocked id line o then s.serveCopy id line o p
      else s.toHome o line (.homeRead id line)

/-- R162, R326: a write-back is repeated through the translation its line was pinned by. -/
def State.retranslateBack (s : State) (id line : Nat) (o : MemOp) : Nat × State :=
  match sfind line s.homes.pins with
  | none => (line, s)
  | some x => match x.va with
    | none => (line, s)
    | some va => match s.xlateOf (coreSlice x.core) x.regime va needW with
      | .ok (.mem d tag) =>
        let new := d / 64
        let move := fun (a : LaneAcc) => { a with addr := 64 * new + a.addr % 64 }
        let s1 := if new = line then s else s.setHomes { s.homes with pins := sdel line s.homes.pins }
        (new, s1.setOp id (o.setPart line fun p => { p with line := new, tag := tag, accs := p.accs.map move }))
      | _ => (line, s)

/-- R162, R360: the repeat goes through the translation as it stands. -/
def State.retranslate (s : State) (id line : Nat) : Nat × State :=
  match s.op? id with
  | none => (line, s)
  | some o => match o.part? line with
    | none => (line, s)
    | some p => match p.va with
      | none => (line, s)
      | some va =>
        let dest := match o.owner with
          | .hart h => (match (s.hartXlateAs h o.regime o.kind.hartAcc va 1).1 with
            | .ok (.mem d tag false) => some (d, tag)
            | _ => none)
          | _ => (match s.xlateOf o.slice o.regime va o.kind.need with
            | .ok (.mem d tag) => some (d, tag)
            | _ => none)
        match dest with
        | some (d, tag) =>
          let new := d / 64
          let move := fun (a : LaneAcc) => { a with addr := 64 * new + a.addr % 64 }
          (new, s.setOp id (o.setPart line fun p => { p with line := new, tag := tag, accs := p.accs.map move }))
        | _ => (line, s)

def execRetry (op line : Nat) (s : State) : Out :=
  .next <|
  match s.op? op with
  | none => s
  | some o => match o.part? line with
    | none => s
    | some p =>
      if p.state ≠ .sent then s
      else
        let (l, s1) := if o.isWriteBack then s.retranslateBack op line o else s.retranslate op line
        s1.sendPart op l

/-! What returns (R162, R163, R183). -/

/-- R163: the value of a loaded access, and the registers it fills. -/
def loadRegs (w : Width) (v : Nat) : Nat := uval (8 * widthBytes w) v

/-- One lane's loaded value enters its registers; an s destination receives it once. -/
def Troupe.deliver (t : Troupe) (d : Reg) (w : Width) (taint : Bool) (a : LaneAcc) : Troupe :=
  match d with
  | .s n => t.putS n (BitVec.ofNat 64 (loadRegs w a.val)) a.poison
  | .v r =>
    { t with lane := t.lane.putWords a.lane ((List.range w.regs).map fun i => r.val + i) (loadRegs w a.val) taint a.poison }

/-- A value as a register of a hart takes it (RISC-V): sign-extended, or zero-extended by an unsigned load; an f register
takes a word with ones above it. -/
def hartValue (fReg zext : Bool) (w : Width) (v : Nat) : W64 :=
  let n := 8 * widthBytes w
  if fReg then BitVec.ofNat 64 (if n < 64 then 2 ^ 64 - 2 ^ n + v % 2 ^ n else v)
  else if zext then BitVec.ofNat 64 (v % 2 ^ n)
  else BitVec.ofNat 64 (wrap 64 (sval n v))

/-- R304: what a hart waited for comes; poison is a hardware error, and no register is written. -/
def State.hartReturn (s : State) (h rd va : Nat) (v : W64) (poison : Bool) : State :=
  if poison then s.hartTrap h ⟨hwError, va, 0⟩ else s.setHart h ((s.hart h).putReg rd v).next

/-- R297: a line enters the data cache of a hart, 1,024 lines at most; the one whose lease ends first makes room (log
entry 120). -/
def Hart.fillData (x : Hart) (line e : Nat) : Hart :=
  let kept := if (sfind line x.dcache).isSome || decide (x.dcache.length < 1024) then x.dcache
    else match leastBy (fun (y : Nat × Nat) => y.2) x.dcache with
      | some v => sdel v.1 x.dcache
      | none => []
  { x with dcache := sset line e kept }

def MemKind.taints : MemKind → Bool
  | .load t => t
  | _ => false

/-- What an operation brought enters its registers; of a scratchpad each 8-byte word of a 128-bit access fills two of the
four (R163, R185). -/
def Troupe.deliverOp (t : Troupe) (o : MemOp) (d : Reg) (a : LaneAcc) : Troupe :=
  match o.target, o.width, d with
  | some _, .b128, .v r =>
    let first := r.val + 2 * (a.addr / 8 % 2)
    { t with lane := t.lane.putWords a.lane [first, first + 1] (uval 64 a.val) o.kind.taints a.poison }
  | _, _, _ => t.deliver d o.width o.kind.taints a

def execLoadDataReturn (op line : Nat) (s : State) : Out :=
  .next <|
  match s.op? op with
  | none => s
  | some o => match o.part? line with
    | none => s
    | some p =>
      if p.state ≠ .sampled then s
      else
        let s1 := match o.owner, o.dst with
          | .troupe k, some d => s.modTroupe (keyOf k) fun t =>
              p.out.foldl (fun t a => t.deliverOp o d a) t
          | .hart h, some (.s n) =>
              match p.out with
              | a :: _ => s.hartReturn h n.val (p.va.getD 0 + a.addr % 64) (hartValue (decide (32 ≤ n.val)) o.kind.taints o.width a.val) a.poison
              | [] => s
          | _, _ => s
        let s2 := match p.fill, o.owner with
          | some e, .troupe _ => s1.l1Fill o.core line o.rank e
          | some (some e), .hart h => s1.setHart h ((s1.hart h).fillData line e)
          | _, _ => s1
        (s2.modPart? op line fun x => { x with state := .done }).settleOp op

def execGwctReceive (op line : Nat) (s : State) : Out :=
  .next <|
  match s.op? op with
  | none => s
  | some o => match o.part? line with
    | none => s
    | some p => match p.state with
      | .fixed pt false f =>
        ((s.takeGwct o pt).modPart? op line fun x => { x with state := .fixed pt true f }).settleOp op
      | _ => s

/-! Recalls (R278, R279). -/

/-- The RDC, the L1s and the host data caches of the slice drop the line, under every number that it had before a migration
too (R325), and acknowledge. -/
def execRecall (slice line : Nat) (s : State) : Out :=
  .next <|
  let ls := line :: sget [] line s.homes.was
  let drop := fun (c : Core) (l : Nat) => match c.l1Find l with
    | some (k, x) => if x.isPinned then c else { c with l1 := sdel k c.l1 }
    | none => c
  let dropAll := fun (e : Nat × Core) => if coreSlice e.1 = slice then (e.1, ls.foldl drop e.2) else e
  let s1 := { s with cores := s.cores.map dropAll }
  let s2 := { s1 with harts := s1.harts.map fun (e : Nat × Hart) =>
    if e.1 / 8 = slice then (e.1, { e.2 with dcache := ls.foldl (fun m l => sdel l m) e.2.dcache }) else e }
  let s3 := ls.foldl (fun (s : State) l => s.dropRdc slice l) s2
  -- a fill in flight serves its access only
  let bare := fun (p : Part) => if ls.contains p.line then { p with fill := none } else p
  let nofill := fun (o : MemOp) => if o.slice = slice then { o with parts := o.parts.map bare } else o
  let s4 := s3.setFlight { s3.flight with mem := s3.flight.mem.map fun (e : Nat × MemOp) => (e.1, nofill e.2) }
  match sfind line s4.homes.recalls with
  | none => s4
  | some m =>
    let m' := m &&& ~~~(bitM 16 slice)
    let s5 := s4.setHomes { s4.homes with recalls := sset line m' s4.homes.recalls }
    if m' = 0 then s5.ackRecall line slice else s5

/-- Every holder has acknowledged: the bits clear, and the writes that wait at the home are admitted in the order in which
they arrived. -/
def execRecallAck (line : Nat) (s : State) : Out :=
  .next <|
  match sfind line s.homes.recalls with
  | some m =>
    if m ≠ 0 then s
    else
      let h := s.homes
      let s1 := s.setHomes { h with
        recalls := sdel line h.recalls
        inf := sdel line h.inf
        was := sdel line h.was
        held := h.held.filter fun e => decide (e.2 ≠ line) }
      (h.held.filter fun e => decide (e.2 = line)).foldl (fun s e => s.homeWrite e.1 line) s1
  | none => s

/-! Channels (R287 to R289). SLTOKv: [63:46] rate, [45:28] depth, [27] UNM, [26:9] level. The bucket's fraction of
a token, in 1/1024, stands under a number that no instruction reaches. -/

def sltokReg (vf : Nat) : Nat := vf
def fracReg (vf : Nat) : Nat := 0xE00 + vf

def State.bucket (s : State) (slice vf : Nat) : Nat :=
  bitsOf (s.reg slice 0 (sltokReg vf)).toNat 9 18 * 1024 + (s.reg slice 0 (fracReg vf)).toNat

def State.setBucket (s : State) (slice vf units : Nat) : State :=
  let v := (s.reg slice 0 (sltokReg vf)).toNat
  (s.setReg slice 0 (sltokReg vf) (BitVec.ofNat 64 (putBits v 9 18 (units / 1024)))).setReg slice 0 (fracReg vf)
    (BitVec.ofNat 64 (units % 1024))

def State.unmetered (s : State) (slice vf : Nat) : Bool := (s.reg slice 0 (sltokReg vf)).getLsbD 27
def State.hasToken (s : State) (slice vf : Nat) : Bool := s.unmetered slice vf || decide (1024 ≤ s.bucket slice vf)

/-- The owner of a calendar slot (R375). -/
inductive SlotOwner where
  | open_
  | vf (v : Nat)
  | kernel
  | foreign
  deriving DecidableEq, Repr

def ownerOf (b : Byte) : SlotOwner :=
  match b.toNat / 64 with
  | 0 => .open_
  | 1 => .vf (b.toNat % 32)
  | 2 => .kernel
  | _ => .foreign

/-- The owner of the current slot. -/
def State.slotOwner (s : State) (part : Nat) : SlotOwner :=
  match sfind part s.pkg.parts with
  | some p => ownerOf (sget 0 (s.tick / 4 % 1024) p.calendar)
  | none => .foreign

/-- Round robin: the first VF of a list after the last one served. -/
def roundRobin (last : Nat) (vs : List Nat) : Option Nat :=
  match minNat (vs.filter fun v => decide (last < v)) with
  | some v => some v
  | none => minNat vs

/-- R289: the request a channel serves next. -/
def State.pickRequest (s : State) (slice : Nat) (owner : Option Nat) (c : Channel) : Option ChanReq :=
  let unch := c.queue.find? fun r => r.vf.isNone
  let vfs := toKeys (c.queue.filterMap fun r => r.vf)
  let of_ := fun v => c.queue.find? fun r => decide (r.vf = some v)
  let few := decide ((c.last.filter id).length < 1)
  match (if few then unch else none) with
  | some r => some r
  | none =>
    let own := match owner with
      | some v => if vfs.contains v && s.hasToken slice v then of_ v else none
      | none => none
    match own with
    | some r => some r
    | none =>
      match roundRobin c.lastVf (vfs.filter fun v => s.hasToken slice v) with
      | some v => of_ v
      | none =>
        match unch with
        | some r => some r
        | none => match roundRobin c.lastVf vfs with
          | some v => of_ v
          | none => none

/-- R288: a transfer costs its VF one token; the bucket does not fall below zero. -/
def State.charge (s : State) (slice : Nat) (r : ChanReq) : State :=
  match r.vf with
  | some v => if s.unmetered slice v then s else s.setBucket slice v (s.bucket slice v - 1024)
  | none => s

end Sys2Proof.Machine
end

