-- ==== Sys2Proof/Machine/Issue.lean ====
section
/-! DEFINITION. Issue: pipes and clauses, the check of a clause before it issues, stalls and waits of a troupe (R36 to
R43, R74, R75, R175, R176). -/

namespace Sys2Proof.Machine

/-! Clauses (R36, R37). -/

/-- R36: class, reserved bits, and thresholds only for masked counters. -/
def headerOk (h : W64) : Bool :=
  decide (headerClass h ≤ 5) && decide (h.extractLsb' 16 6 = 0) && decide (h.extractLsb' 0 15 = 0) &&
  ([(40, 22), (41, 25), (42, 28), (43, 31), (44, 34), (45, 37)].all fun e =>
    h.getLsbD e.1 || decide (h.extractLsb' e.2 3 = 0))

def headerCount (h : W64) : Nat := (h.extractLsb' 54 4).toNat + 1

def opcodeOf (w : W64) : Nat := (w.extractLsb' 56 8).toNat

/-- R37. -/
def endsClause (op : Nat) : Bool :=
  decide (0x6F ≤ op ∧ op ≤ 0x78) || decide (op = 0x7A) || decide (0xB4 ≤ op ∧ op ≤ 0xB6) || decide (op = 0xBB)

/-- R37: nop is admitted by every class, and a clause-ending instruction in last place too. -/
def classAdmits (cls op : Nat) : Bool :=
  decide (op = 0x79) || endsClause op ||
  (match cls with
   | 0 => decide (op ≤ 0x82)
   | 1 => decide (0x83 ≤ op ∧ op ≤ 0x98)
   | 2 => decide (0x99 ≤ op ∧ op ≤ 0xAA)
   | 3 => decide (0xAB ≤ op ∧ op ≤ 0xB6)
   | 4 => decide (0xB7 ≤ op ∧ op ≤ 0xBF)
   | _ => true)

/-- R42 step 5: the word decodes, its class admits it, and its registers lie within the allocation. -/
def wordLegal (cls nregs : Nat) (w : W64) : Bool :=
  match decode w with
  | .ok i => classAdmits cls (opcodeOf w) && i.fits nregs
  | .error _ => false

/-- What checking a clause finds: its header and words, or the first failure with the address of its word. -/
inductive Checked where
  | good (header : W64) (words : List W64)
  | trap (cause : BitVec 8) (addr : VAddr)
  | fault (f : XFault) (addr : VAddr)
  | again (line : Nat)

/-- R42 steps 3 to 5 over the words from an address on, n still to check. -/
def State.checkWords (s : State) (core : Nat) (rg : Regime) (cls nregs : Nat) (header : W64) :
    Nat → VAddr → List W64 → Checked × State
  | 0, _, ws => (.good header ws, s)
  | n + 1, a, ws =>
    match s.fetchWord core rg a with
    | (.fault f, s1) => (.fault f a, s1)
    | (.again l, s1) => (.again l, s1)
    | (.poison, s1) => (.trap causePoison a, s1)
    | (.word w, s1) =>
      if n ≠ 0 ∧ endsClause (opcodeOf w) then (.trap causeIllegalClause a, s1)
      else if wordLegal cls nregs w then s1.checkWords core rg cls nregs header n (a + 8) (ws ++ [w])
      else (.trap causeIllegalInstruction a, s1)

/-- R42: the whole clause at an address. -/
def State.checkClause (s : State) (core : Nat) (rg : Regime) (nregs : Nat) (a : VAddr) : Checked × State :=
  match s.fetchWord core rg a with
  | (.fault f, s1) => (.fault f a, s1)
  | (.again l, s1) => (.again l, s1)
  | (.poison, s1) => (.trap causePoison a, s1)
  | (.word h, s1) =>
    if !isHeader h || !headerOk h then (.trap causeIllegalClause a, s1)
    else s1.checkWords core rg (headerClass h) nregs h (headerCount h) (a + 8) []

/-! Quotas (R193, R194). -/

structure Quota where
  sbase : Nat
  scount : Nat
  rbase : Nat
  rcount : Nat
  pbase : Nat
  pcount : Nat
  obase : Nat
  ocount : Nat
  lend : Bool
  borrow : Bool

def Quota.of (v : Nat) : Quota :=
  ⟨bitsOf v 59 5, bitsOf v 53 6, bitsOf v 45 8, bitsOf v 36 9, bitsOf v 31 5, bitsOf v 26 5, bitsOf v 22 4, bitsOf v 17 5,
    bitN v 16, bitN v 15⟩

/-- What a write of CQUOTAv replaced, and a tick after that of its acceptance, under hidden numbers. -/
def quotaOldReg (vf : Nat) : Nat := 0x40 + vf
def quotaWhenReg (vf : Nat) : Nat := 0x60 + vf

/-- R194: the quota in force; what is decided in the tick of a write uses the old value. -/
def State.quota (s : State) (core vf : Nat) : Quota :=
  let r := fun (i : Nat) => s.reg (coreSlice core) (coreUnit core) i
  Quota.of (if (r (quotaWhenReg vf)).toNat = s.tick + 1 then r (quotaOldReg vf) else r vf).toNat

/-- The quota as the register holds it. -/
def State.quotaHeld (s : State) (core vf : Nat) : Quota := Quota.of (s.reg (coreSlice core) (coreUnit core) vf).toNat

def rangeOf (base n : Nat) : List Nat := (List.range n).map (base + ·)

def otherVfs (vf : Nat) : List Nat := (List.range 32).filter (· ≠ vf)

/-- Whether a unit lies in a range. -/
def Quota.has (q : Quota) (u : CoreUnit) : Bool :=
  match u with
  | .slot i => decide (q.sbase ≤ i ∧ i < q.sbase + q.scount)
  | .group i => decide (q.rbase ≤ i ∧ i < q.rbase + q.rcount)
  | .granule i => decide (8 * q.pbase ≤ i ∧ i < 8 * (q.pbase + q.pcount))
  | .opslot i => decide (q.obase ≤ i ∧ i < q.obase + q.ocount)

/-- R178, R194: a unit of a block counts as borrowed if it was lent to it, or lies in the range of another VF now. -/
def State.isBorrowed (s : State) (b : Block) (u : CoreUnit) : Bool :=
  b.borrowed.contains u || (otherVfs b.regime.vf).any fun w => (s.quota b.core w).has u

/-! Readiness and grants (R176). -/

/-- A troupe that could be selected: live, not suspended, not in a clause, its block running. -/
def State.selectable (s : State) (t : Troupe) : Bool :=
  decide (t.susp = .none) && !t.halted && t.issue.isNone && decide (t.live ≠ 0) &&
  (match s.block? t.block with
   | some b => decide (b.state = .running)
   | none => false)

/-- The class of the next clause where the troupe is ready; a clause that will fail its checks counts as ALU. -/
def State.readyClass (s : State) (k : TKey) (t : Troupe) : Option Nat :=
  if s.selectable t && (s.pipeOf k).isNone then
    match s.block? t.block, topPath t.frontier with
    | some b, some p =>
      match s.peekWord k.core b.regime p.addr with
      | some h =>
        if isHeader h && headerOk h then (if waitMaskOk h t.cnt then some (headerClass h) else none) else some 0
      | none => some 0
    | _, _ => none
  else none

/-- R176, R194: a slot that counts as borrowed. -/
def State.borrowedSlot (s : State) (t : Troupe) (slot : Nat) : Bool :=
  match s.block? t.block with
  | some b => s.isBorrowed b (.slot slot)
  | none => false

/-- R176: owned before borrowed slots, then the least recent grant, then the lowest slot. -/
def grantBefore (a b : Bool × Nat × Nat) : Bool :=
  if a.1 ≠ b.1 then !a.1
  else if a.2.1 ≠ b.2.1 then decide (a.2.1 < b.2.1)
  else decide (a.2.2 ≤ b.2.2)

def bestGrant : List (Bool × Nat × Nat) → Option Nat
  | [] => none
  | x :: t =>
    match bestGrant t with
    | none => some x.2.2
    | some sl => match t.find? fun y => decide (y.2.2 = sl) with
      | some y => if grantBefore x y then some x.2.2 else some sl
      | none => some x.2.2

/-- The slot that a free pipe takes. -/
def State.grantFor (s : State) (core pipe : Nat) : Option Nat :=
  bestGrant ((List.range 32).filterMap fun sl =>
    let k : TKey := ⟨core, sl⟩
    match s.troupe? k with
    | none => none
    | some t => match s.readyClass k t with
      | some cls => if pipeTakes pipe cls then some (s.borrowedSlot t sl, t.lastGrant, sl) else none
      | none => none)

def State.fillPipe (s : State) (core pipe : Nat) : State :=
  if (sfind pipe (s.core core).pipes).isSome then s
  else match s.grantFor core pipe with
    | none => s
    | some sl =>
      let k : TKey := ⟨core, sl⟩
      let s1 := s.setCore core { s.core core with pipes := sset pipe sl (s.core core).pipes }
      ((s1.modTroupe k fun t => { t with lastGrant := s.seq, yRun := 0, yielded := false }).bump).post (.clauseIssue core sl)

/-- R176: every free pipe takes the first ready troupe whose class it accepts. A troupe that is not ready yet is looked
at again a tick later. -/
def execPipeGrant (core : Nat) (s : State) : Out :=
  .next <|
  let s1 := (List.range 8).foldl (fun s p => s.fillPipe core p) s
  if (List.range 32).any fun sl =>
    match s1.troupe? ⟨core, sl⟩ with
    | some t => s1.selectable t && (s1.pipeOf ⟨core, sl⟩).isNone
    | none => false
  then s1.laterOnce (.pipeGrant core) else s1

/-! Issue of a clause (R42, R75). -/

def IntTy64 (t : IntTy) : Bool := decide (t = .ui64 ∨ t = .i64)

/-- R94, of an instruction that is not uniform. -/
def issueSlots (i : Instr) : Nat :=
  match i with
  | .imul t .. | .imad t .. | .imuls t .. | .idp4 t .. | .idp2 t .. => if IntTy64 t then 4 else 1
  | .dadd .. | .dmul .. | .dfma .. | .dcmp .. => 4
  | .frcp .. | .frsq .. | .fex2 .. | .flg2 .. | .fsin .. | .fcos .. | .ftanh .. | .fsigm .. | .fsilu .. => 4
  | .cvtf a b .. => if a = .f64 ∨ b = .f64 then 4 else 1
  | .fdiv .. | .fsqrt .. => 8
  | .idiv t .. | .irem t .. => if IntTy64 t then 16 else 8
  | .cvt4Pack .. | .cvt4Deq .. => 8
  | .ddiv .. | .dsqrt .. => 16
  | .cvtmxEncode .. | .cvtmxDecode .. => 32
  | _ => 1

/-- The vector issue slots of the arithmetic words of a clause, from an index on (R378); a word whose D is an s register
takes one (R94). -/
def clauseSlots (ws : List W64) (idx : Nat) : Nat :=
  sumNat ((ws.drop idx).map fun w =>
    if opcodeOf w < 0x6F then (match decode w with
      | .ok i => if 0xC0 ≤ (w >>> 48).toNat % 256 then 1 else issueSlots i
      | .error _ => 0) else 0)

/-- The selected path at issue, before its words are known. -/
def pathIssue (p : Path) : Issue := ⟨p.addr, 0, [], p.idx, p.mask, p.prio⟩

def State.issueFailed (s : State) (c : Ctx) (k : Checked) : State :=
  match k with
  | .good .. => s
  | .trap cause a => s.takeTrap c ⟨cause, 0, 0, a.setWidth 64, c.mask, .clauseStart c.iss.addr⟩
  | .fault f a => s.raiseFault c f a a.toNat c.mask 0 false 3 9
  | .again l => ((s.noteRefusal l).setTroupe c.key c.t).later (.clauseIssue c.key.core c.key.slot)

/-- R75: the entry selected leaves the frontier, and its clause issues from the entry's instruction index. -/
def State.issueClause (s : State) (k : TKey) (t : Troupe) (b : Block) (p : Path) : State :=
  match s.checkClause k.core b.regime t.nregs p.addr with
  | (.good h ws, s1) =>
    let rest := t.frontier.filter fun q => decide (q ≠ p)
    if !waitMaskOk h t.cnt then (s1.offPipe k).laterOnce (.pipeGrant k.core)
    else if p.idx < ws.length then
      { (s1.setTroupe k { t with frontier := rest, issue := some ⟨p.addr, h, ws, p.idx, p.mask, p.prio⟩ }).countEnergy
          b.regime.part b.regime.vf .vector (clauseSlots ws p.idx) with
        current := some k }
    else
      let c : Ctx := ⟨k, { t with frontier := rest }, ⟨p.addr, h, ws, p.idx, p.mask, p.prio⟩, b⟩
      s1.endClause c c.t [(c.fallThrough, c.mask)]
  | (.again l, s1) => s1.issueFailed ⟨k, t, pathIssue p, b⟩ (.again l)
  | (bad, s1) =>
    s1.issueFailed ⟨k, { t with frontier := t.frontier.filter fun q => decide (q ≠ p) }, pathIssue p, b⟩ bad

def execClauseIssue (core slot : Nat) (s : State) : Out :=
  let k : TKey := ⟨core, slot⟩
  .next <|
  if s.current.isSome then s.later (.clauseIssue core slot)
  else match s.troupe? k with
    | none => s
    | some t =>
      if s.selectable t && (s.pipeOf k).isSome then
        match s.block? t.block, topPath t.frontier with
        | some b, some p => s.issueClause k t b p
        | _, _ => s.offPipe k
      else if (s.pipeOf k).isSome && t.issue.isNone then s.offPipe k
      else s

/-- A stalled troupe tries its instruction again (R66, R73). -/
def execStallRelease (core slot : Nat) (s : State) : Out :=
  let k : TKey := ⟨core, slot⟩
  .next <|
  match s.troupe? k with
  | none => s
  | some t =>
    if t.stalled && t.issue.isSome && (match s.block? t.block with | some b => decide (b.state = .running) | none => false)
    then
      if s.current.isSome then s.later (.stallRelease core slot)
      else { s.setTroupe k { t with stalled := false } with current := some k }
    else s

/-- R144: the wake tick of a sleep. -/
def execSleepWake (core slot : Nat) (s : State) : Out :=
  let k : TKey := ⟨core, slot⟩
  .next <|
  match s.troupe? k with
  | none => s
  | some t => match t.susp with
    | .sleep w =>
      if w ≤ s.tick then (s.setTroupe k { t with susp := .none }).reGrant k else s.at w (.sleepWake core slot)
    | _ => s

/-- A counter-raising instruction stalls while its counter is at 63 (R39). -/
def fullCounter (n : Nat) : Bool := decide (63 ≤ n)

end Sys2Proof.Machine
end

