-- ==== Sys2Proof/Machine/MemoryAccess.lean ====
section
/-! DEFINITION. Opcodes 0x83 to 0x91: buffer records and memory accesses (R154 to R172, R256 to R263). -/

namespace Sys2Proof.Machine

/-! Buffer records (R154, R155). -/

structure BufRec where
  base : Nat
  esize : Nat
  space : Nat
  csel : Nat
  extent0 : Nat
  extent1 : Nat
  extent2 : Nat
  swizzle : Nat
  lease : Nat
  oobZero : Bool
  rw : Bool
  scope : Nat
  ndims : Nat
  reserved : Nat
  stride1 : Nat
  stride2 : Nat

def BufRec.ofBits (x : Nat) : BufRec :=
  ⟨bitsOf x 0 57, bitsOf x 57 3, bitsOf x 60 2, bitsOf x 62 2, bitsOf x 64 32, bitsOf x 96 32, bitsOf x 128 32,
    bitsOf x 160 3, bitsOf x 163 2, bitN x 165, bitN x 166, bitsOf x 167 3, bitsOf x 170 2, bitsOf x 172 20,
    bitsOf x 192 32, bitsOf x 224 32⟩

/-- R155: whether a record breaks a rule; spaces are those the opcode admits. -/
def BufRec.bad (r : BufRec) (spaces : List Nat) (writes : Bool) : Bool :=
  decide (r.reserved ≠ 0) || decide (5 ≤ r.esize) || decide (r.ndims = 0) || decide (r.scope = 0) ||
  decide (r.swizzle = 7) || (decide (r.swizzle ≠ 6) && !(decide (r.space = 1) || decide (r.space = 2))) ||
  (decide (r.csel ≠ 0) && decide (r.space ≠ 2)) ||
  (decide (r.ndims ≤ 1) && (decide (r.extent1 ≠ 0) || decide (r.stride1 ≠ 0))) ||
  (decide (r.ndims ≤ 2) && (decide (r.extent2 ≠ 0) || decide (r.stride2 ≠ 0))) ||
  decide (r.base % 2 ^ r.esize ≠ 0) || (decide (r.lease = 3) && r.rw) || (writes && !r.rw) || !spaces.contains r.space

/-- R156: where a lane's access lies. -/
inductive Addr where
  | out
  | bad
  | to (a : Nat)
  deriving DecidableEq, Repr

def BufRec.indexes (r : BufRec) (x : Nat) : Option (Nat × Nat × Nat) :=
  match r.ndims with
  | 1 => if r.extent0 ≤ x then none else some (x, 0, 0)
  | 2 => if r.extent0 * r.extent1 ≤ x then none else some (x % r.extent0, x / r.extent0, 0)
  | _ => if r.extent0 * r.extent1 * r.extent2 ≤ x then none
      else some (x % r.extent0, x / r.extent0 % r.extent1, x / (r.extent0 * r.extent1))

/-- R156, R257: limit is the data bytes of the block whose scratchpad is reached. -/
def BufRec.addressOf (r : BufRec) (idx : Nat) (off : Int) (wb limit : Nat) : Addr :=
  let x := (uval 32 idx : Int) + off
  if x < 0 ∨ (2 ^ 32 : Nat) ≤ x then .out
  else match r.indexes x.toNat with
    | none => .out
    | some (i0, i1, i2) =>
      let es := 2 ^ r.esize
      if r.extent0 * es < i0 * es + wb then .out
      else
        let a := r.base + i0 * es + i1 * r.stride1 + i2 * r.stride2
        if r.space = 0 then (if 2 ^ 57 < a + wb then .bad else .to a)
        else if limit < a + wb then .bad else .to a

/-! One memory instruction. -/

/-- What a memory instruction does, apart from its addresses. code is the access kind of R172. -/
structure MemReq where
  i : Instr
  m : MAddr
  kind : MemKind
  code : Nat
  guard : Option Guard
  data : Option Opnd
  dst : Option Reg
  uniform : Bool
  spaces : List Nat

def MemReq.need (r : MemReq) : Need := r.kind.need

def Ctx.record (c : Ctx) (b : BReg) : BufRec := BufRec.ofBits (c.t.uni.bufRec b).toNat

/-- The lanes that take part: for a uniform access the lowest lane stands for the troupe. -/
def MemReq.lanesOf (r : MemReq) (c : Ctx) : List Nat :=
  if r.uniform then
    (match r.guard with
     | none => [firstLane c.mask]
     | some g => if c.t.pred g.p (firstLane c.mask) ≠ g.inv then [firstLane c.mask] else [])
  else lanes (c.guardMask r.guard)

def MemReq.poisonedGuard (r : MemReq) (c : Ctx) : LaneMask :=
  if r.uniform then
    (match r.guard with
     | none => 0
     | some g => if c.t.predBad g.p (firstLane c.mask) then c.mask else 0)
  else c.guardBad r.guard

/-- %trapmask: the path for a uniform access (R165). -/
def MemReq.trapLanes (r : MemReq) (c : Ctx) (m : LaneMask) : LaneMask := if r.uniform then c.mask else m

/-- One lane's address or cause, before translation (R161, R259). -/
def laneAddr (r : MemReq) (c : Ctx) (b : BufRec) (limit l : Nat) : Nat × (Option (BitVec 8) × Addr) :=
  let o := r.m.idx.opnd 1
  if c.t.poisoned l o then (l, some causePoison, .out)
  else
    let wb := widthBytes r.m.w
    match b.addressOf (c.t.value l o) r.m.off.toInt wb limit with
    | .bad => (l, some causeBounds, .bad)
    | .out => if b.oobZero then (l, none, .out) else (l, some causeBounds, .out)
    | .to a => if a % wb ≠ 0 then (l, some causeAlign, .to a) else (l, none, .to a)

def laneCausesOf (xs : List (Nat × (Option (BitVec 8) × Addr))) : List LaneCause :=
  xs.filterMap fun x => match x.2.1 with
    | some k => some ⟨x.1, k, match x.2.2 with | .to a => if k = causeAlign then a else 0 | _ => 0⟩
    | none => none

def liveAddrs (xs : List (Nat × (Option (BitVec 8) × Addr))) : List (Nat × Nat) :=
  xs.filterMap fun x => match x.2 with
    | (none, .to a) => some (x.1, a)
    | _ => none

def droppedLanes (xs : List (Nat × (Option (BitVec 8) × Addr))) : List Nat :=
  xs.filterMap fun x => match x.2 with
    | (none, .out) => some x.1
    | _ => none

/-! Translation of the pages touched (R162). -/

/-- R155: the pages whose own translation, the one the access uses, would permit a write. -/
def State.writablePages (s : State) (slice : Nat) (rg : Regime) (need : Need) : List Nat → List Nat
  | [] => []
  | p :: t =>
    let rest := (s.xlate slice rg (p * 4096) need).2.writablePages slice rg need t
    match s.xlateOf slice rg (p * 4096) needW with
    | .ok _ => p :: rest
    | .error _ => rest

/-- The fault of an address under the translation that its page met in a list of pages. -/
def State.faultAt (s : State) (slice : Nat) (rg : Regime) (need : Need) (a : Nat) : List Nat → Option XFault
  | [] => none
  | p :: t =>
    if p = a / 4096 then (match s.xlateOf slice rg a need with
      | .error f => some f
      | .ok _ => none)
    else (s.xlate slice rg (p * 4096) need).2.faultAt slice rg need a t

def State.xlatePages (s : State) (slice : Nat) (rg : Regime) (need : Need) (pages : List Nat) :
    List (Nat × Except XFault XTo) × State :=
  pages.foldl (fun acc p =>
    let r := acc.2.xlate slice rg (p * 4096) need
    (acc.1 ++ [(p, r.1)], r.2)) ([], s)

def pageResult (ps : List (Nat × Except XFault XTo)) (a : Nat) : Except XFault XTo :=
  match ps.find? fun e => decide (e.1 = a / 4096) with
  | some (_, r) => r
  | none => .error ⟨causePageS1, true, 0⟩

/-- The byte address `a` under the translation of its page (or, with offset 0, of the address itself): a device-physical one,
or a peer's, with the ASTAG. -/
def xAddr (r : Except XFault XTo) (a : Nat) : Option (Nat × Nat) :=
  match r with
  | .ok (.mem d tag) => some (d + a % 4096, tag)
  | .ok (.peer p) => some (peerBase * 64 + p + a % 4096, 0)
  | .error _ => none

/-! The range scoreboard (R190). -/

/-- Whether array bytes of a block's scratchpad meet an entry the access waits for. -/
def State.sbHolds (s : State) (c : Ctx) (writes : Bool) (operand : Bool) (bytes : List Nat) : Bool :=
  (s.core c.key.core).sb.any fun e =>
    decide (e.block = c.t.block) && decide (e.operand = operand) && (e.dest || writes) &&
    bytes.any fun a => decide (e.first ≤ a ∧ a ≤ e.last)

/-! Acceptance. -/

def accOf (r : MemReq) (c : Ctx) (l a : Nat) : LaneAcc :=
  match r.data with
  | none => ⟨l, a, 0, 0, false⟩
  | some o =>
    let v := c.t.value l o
    let w := 8 * widthBytes r.m.w
    match r.kind with
    | .cas => ⟨l, a, bitsOf v w w, bitsOf v 0 w, c.t.poisoned l o⟩
    | _ => ⟨l, a, v, 0, c.t.poisoned l o⟩

/-- R66, R73: destinations become empty, or pending, in the accepted lanes. -/
def Troupe.emptyDst (t : Troupe) (d : Option Reg) (n : Nat) (m : LaneMask) : Troupe :=
  match d with
  | none => t
  | some (.s k) => t.pendS k
  | some (.v r) =>
    { t with lane := ((List.range n).map fun i => r.val + i).foldl (fun x g => x.empties g m) t.lane }

/-- Dropped lanes of a load or atomic receive 0 (R163, R167). -/
def Troupe.zeroDst (t : Troupe) (d : Option Reg) (w : Width) (taint : Bool) (ls : List Nat) : Troupe :=
  match d with
  | none => t
  | some r => ls.foldl (fun t l => t.deliver r w taint ⟨l, 0, 0, 0, false⟩) t

/-- R72. -/
def Troupe.countMem (t : Troupe) (k : MemKind) : Troupe :=
  t.count fun n => if k.reads then { n with ld := n.ld + 1 } else { n with st := n.st + 1 }

def Troupe.memFull (t : Troupe) (k : MemKind) : Bool :=
  match k with
  | .prefetch => false
  | _ => if k.reads then fullCounter t.cnt.ld else fullCounter t.cnt.st

/-- R51, R154: the scope and lease asked for. -/
def scopeOf (m : MAddr) (b : BufRec) : Nat := if m.scope = 0 then b.scope else m.scope.val
def leaseOf (m : MAddr) (b : BufRec) : Nat :=
  match m.lease.val with
  | 0 => b.lease
  | n => n - 1

/-- A lane's access with the virtual address and the ASTAG of its page. -/
structure TaggedAcc where
  va : Nat
  tag : Nat
  acc : LaneAcc

/-- The lines that the home refused to a walk with RETRY (R187, R359): the access waits, and is translated again. -/
def xAgain (pages : List (Nat × Except XFault XTo)) : List Nat :=
  pages.filterMap fun e => match e.2 with
    | .error f => if f.cause = causeAgain then some f.gpa else none
    | .ok _ => none

/-- The parts of an operation: one for each line touched, its accesses in lane order. -/
def partsOf (accs : List TaggedAcc) : List Part :=
  (toKeys (accs.map fun e => e.acc.addr / 64)).map fun line =>
    let mine := accs.filter fun e => decide (e.acc.addr / 64 = line)
    let e := mine.head?
    ⟨line, e.map fun e => e.va / 64 * 64, (e.map (·.tag)).getD 0, mine.map (·.acc), .sent, [], none, false⟩

/-- R155: the parts in pages that may be written are marked. -/
def markWritable (pages : List Nat) (ps : List Part) : List Part :=
  ps.map fun p => { p with writable := match p.va with
    | some va => pages.contains (va / 4096)
    | none => false }

/-! Prediction (R314). -/

/-- The address of a load of GLOBAL memory. -/
def loadAddr (i : Instr) : Option MAddr := match i with
  | .ld _ m => some m
  | .ldc _ m => some m
  | _ => none

/-- R314: the core may read a line that it predicts for a stalled load whose index is still empty; the line and the tick
are free (log entry 39). No read goes ahead of an earlier access of the troupe to the line (R313), or to a line that its
home would refuse. -/
def State.guess (s : State) (num : Nat) (t : Troupe) : Option Guess :=
  match t.issue, s.block? t.block with
  | some i, some b =>
    match (i.words[i.idx]?).bind fun w => (decode w).toOption.bind loadAddr with
    | none => none
    | some m =>
      let r := BufRec.ofBits (t.uni.bufRec m.buf).toNat
      let o := m.idx.opnd 1
      if !t.stalled || o.trapEmpty || r.bad [0] false || decide (t.emptyLanes o &&& i.mask = 0) then none
      else match Config.guess s.tick num with
        | none => none
        | some vl =>
          match s.xlateOf (coreSlice (keyOf num).core) b.regime (64 * vl) needR with
          | .ok (.mem d tag) =>
            let line := d / 64
            let waits := s.flight.mem.any fun e => decide (e.2.owner = .troupe num) &&
              e.2.parts.any fun p => decide (p.line = line) && !p.performed
            if waits || (sfind line s.homes.pins).isSome || s.isFrozen line || s.homeTested line ||
                s.refusesPart b.regime.part line then none
            else
              let h := (s.settle line).homes
              some ⟨num, i.addr, i.idx, line, tag, memBytes h.mem (64 * line) 64, h.badRead line tag⟩
          | _ => none
  | _, _ => none

/-- Whether a guess is of the instruction at which its troupe stands stalled. -/
def State.guessStands (s : State) (g : Guess) : Bool := match s.troupe? (keyOf g.troupe) with
  | some t => t.stalled && (match t.issue with
    | some i => decide (i.addr = g.addr ∧ i.idx = g.idx)
    | none => false)
  | none => false

/-- The guesses of a tick. -/
def State.guessAll (s : State) : List Guess :=
  s.flight.guesses.filter s.guessStands ++ s.troupes.filterMap fun e => if e.2.stalled then s.guess e.1 e.2 else none

/-- R314, R315: the read that an accepted load takes for a line: one kept from ahead of its index, where no lane's index is
tainted. -/
def State.guessFor (s : State) (c : Ctx) (r : MemReq) (p : Part) : Option Guess :=
  if r.kind.reads && decide (r.kind ≠ .prefetch) && !(p.accs.any fun a => c.t.tainted a.lane (r.m.idx.opnd 1)) then
    s.flight.guesses.find? fun g => decide (g.troupe = c.key.num ∧ g.addr = c.iss.addr ∧ g.idx = c.iss.idx) &&
      decide (g.line = p.line ∧ g.tag = p.tag)
  else none

/-- A line of an accepted access goes on its way, or was read already. -/
def State.sendOrTake (s : State) (c : Ctx) (r : MemReq) (id : Nat) (p : Part) : State :=
  match s.guessFor c r p with
  | some g =>
    let x := lineAccess r.kind (widthBytes r.m.w) (fun a => g.bytes.getD (a % 64) 0) g.poison p.accs
    (s.modPart? id p.line fun q => { q with out := x.1, state := .sampled }).later (.loadDataReturn id p.line)
  | none => s.sendPart id p.line

/-- A GLOBAL access is accepted: its lines go on their way (R162). -/
def State.acceptGlobal (s : State) (c : Ctx) (r : MemReq) (b : BufRec) (live : List (Nat × Nat)) (dropped : List Nat)
    (pages : List (Nat × Except XFault XTo)) (writable : List Nat) : State :=
  let accs := live.filterMap fun e =>
    (xAddr (pageResult pages e.2) e.2).map fun x => TaggedAcc.mk e.2 x.2 (accOf r c e.1 x.1)
  let t1 := c.t.zeroDst r.dst r.m.w r.kind.taints dropped
  if accs.isEmpty then s.advance c t1
  else
    let m := maskOf (live.map (·.1))
    let counted := decide (r.kind ≠ .prefetch)
    let t2 := (if counted then t1.countMem r.kind else t1).emptyDst r.dst r.m.w.regs m
    let (id, s1) := s.newId
    let o : MemOp := ⟨.troupe c.key.num, r.kind, r.m.w, r.dst, c.key.core, c.t.block, c.blk.regime, scopeOf r.m b,
      leaseOf r.m b, r.m.hint.val, none, markWritable writable (partsOf accs), counted⟩
    let s2 := (s1.setOp id o).advance c t2
    o.parts.foldl (fun s p => s.sendOrTake c r id p) s2

/-- R185: a lane's access to a scratchpad, each 8-byte word of a 128-bit store with the poison of its own two registers. -/
def bankAccs (r : MemReq) (c : Ctx) (l a : Nat) : List LaneAcc :=
  let x := accOf r c l a
  match r.m.w with
  | .b128 =>
    let bad := fun (i : Nat) => match r.data with
      | some o => ((vRegs o).drop (2 * i)).take 2 |>.any fun v => laneBit c.t.lane.poison v l
      | none => false
    [{ x with val := bitsOf x.val 0 64, poison := bad 0 },
      { x with addr := a + 8, val := bitsOf x.val 64 64, poison := bad 1 }]
  | _ => [x]

/-- A lane's access with the array bytes it reaches in a block's scratchpad. -/
def withBytes (g0 z : Nat) (w : Width) (x : LaneAcc) : List Nat × LaneAcc := (spBytes g0 z x.addr (bankBytes w), x)

/-- The array bytes that an operation of a block's scratchpad reaches. -/
def MemOp.bankBytes (o : MemOp) (g0 : Nat) : List Nat :=
  o.parts.flatMap fun p => (p.accs ++ p.out).flatMap fun a => spBytes g0 p.line a.addr (Machine.bankBytes o.width)

/-- R262, R313: whether an earlier access of the same troupe to bytes of a block's scratchpad is still on its way over the
crossbar. -/
def State.bytesPending (s : State) (k : TKey) (tb g0 : Nat) (bytes : List Nat) : Bool :=
  s.flight.mem.any fun e =>
    decide (e.2.owner = .troupe k.num) && decide (e.2.target = some tb) && e.2.parts.any (fun p => decide (p.state = .sent)) &&
    (e.2.bankBytes g0).any bytes.contains

/-- R312: whether bytes of a block's scratchpad were read by an access whose value has not come back yet; a write to them
is served in a later tick. -/
def State.bytesRead (s : State) (tb g0 : Nat) (bytes : List Nat) : Bool :=
  s.flight.mem.any fun e =>
    decide (e.2.target = some tb) && e.2.kind.reads && e.2.parts.any (fun p => decide (p.state = .sampled)) &&
    (e.2.bankBytes g0).any bytes.contains

/-- A SCRATCH access is performed as its banks serve it, in the tick of acceptance, and all passes of an atomic in one
(R168 lets other agents' accesses fall between them; DESIGN CHOICE, log entry 55); a load's values return after. -/
def State.acceptScratch (s : State) (c : Ctx) (r : MemReq) (b : BufRec) (live : List (Nat × Nat)) (dropped : List Nat) :
    State :=
  let xs := live.flatMap fun e => (bankAccs r c e.1 e.2).map (withBytes c.blk.g0 b.swizzle r.m.w)
  let (out, co) := (s.core c.key.core).accesses r.kind (bankBytes r.m.w) xs
  let t1 := c.t.zeroDst r.dst r.m.w r.kind.taints dropped
  let s1 := match r.kind with
    | .prefetch => s
    | _ => s.setCore c.key.core co
  if live = [] ∨ !r.kind.reads ∨ r.kind = .prefetch then s1.advance c t1
  else
    let t2 := (t1.countMem r.kind).emptyDst r.dst r.m.w.regs (maskOf (live.map (·.1)))
    let (id, s2) := s1.newId
    let p : Part := ⟨b.swizzle, none, 0, [], .sampled, out, none, false⟩
    let o : MemOp := ⟨.troupe c.key.num, r.kind, r.m.w, r.dst, c.key.core, c.t.block, c.blk.regime, 0, 0, 0,
      some c.t.block, [p], true⟩
    ((s2.setOp id o).advance c t2).later (.loadDataReturn id b.swizzle)

/-- The write bit and width of R172. -/
def MemReq.writes (r : MemReq) : Bool := r.kind.writes
def widthCode : Width → Nat
  | .b8 => 0
  | .b16 => 1
  | .b32 => 2
  | .b64 => 3
  | .b128 => 4

/-- R161: the translation causes of the lanes, and what is raised for the lowest. -/
def xCauses (live : List (Nat × Nat)) (pages : List (Nat × Except XFault XTo)) : List LaneCause :=
  live.filterMap fun e => match pageResult pages e.2 with
    | .error f => some ⟨e.1, f.cause, e.2⟩
    | .ok _ => none

def isXCause (k : BitVec 8) : Bool :=
  k = causePageS1 || k = causePageS2 || k = causePermission || k = causeFirewall

/-- R81, R161: the trap or translation fault of the lowest cause, with its fault where it is one. -/
def State.raiseLowest (s : State) (c : Ctx) (r : MemReq) (k : BitVec 8) (m : LaneMask) (a : Nat) (fault : Option XFault) :
    State :=
  if isXCause k then
    let f : XFault := fault.getD ⟨k, true, 0⟩
    s.raiseFault c f c.wordAddr a (r.trapLanes c m) r.m.buf.val r.writes (widthCode r.m.w) r.code
  else s.raise c k 0 (BitVec.ofNat 64 a) (r.trapLanes c m)

/-- R190, R262, R312, R313: whether an access to bytes of the block's scratchpad waits. -/
def State.scratchHeld (s : State) (c : Ctx) (writes : Bool) (bytes : List Nat) : Bool :=
  s.sbHolds c writes false bytes || s.bytesPending c.key c.t.block c.blk.g0 bytes ||
  (writes && s.bytesRead c.t.block c.blk.g0 bytes)

def State.scratchWaits (s : State) (c : Ctx) (b : BufRec) (w : Width) (writes : Bool) (live : List (Nat × Nat)) : Bool :=
  s.scratchHeld c writes (live.flatMap fun e => spBytes c.blk.g0 b.swizzle e.2 (widthBytes w))

/-- A memory instruction whose registers are ready: the checks of R161, then acceptance. -/
def State.memChecked (s : State) (c : Ctx) (r : MemReq) : State :=
  let b := c.record r.m.buf
  if c.t.memFull r.kind then s.stall c
  else if r.poisonedGuard c ≠ 0 then s.raise c causePoison 0 0 (r.poisonedGuard c)
  else if b.bad r.spaces r.kind.writes then s.raise c causeShape 0 0 c.mask
  else
    let xs := (r.lanesOf c).map fun l => laneAddr r c b c.blk.d l
    let live := liveAddrs xs
    let touched := toKeys (live.map fun e => e.2 / 4096)
    let (pages, s1) := if b.space = 0 then s.xlatePages c.slice c.blk.regime r.need touched else ([], s)
    let cs := laneCausesOf xs ++ (if b.space = 0 then xCauses live pages else [])
    if xAgain pages ≠ [] then ((xAgain pages).foldl State.noteRefusal s1).stall c
    else match lowestCause cs with
    | some (k, m, a) => s1.raiseLowest c r k m a (s.faultAt c.slice c.blk.regime r.need a touched)
    | none =>
      if b.space = 0 then
        s1.acceptGlobal c r b live (droppedLanes xs) pages (s.writablePages c.slice c.blk.regime r.need touched)
      else if s1.scratchWaits c b r.m.w r.kind.writes live then s1.stall c
      else s1.acceptScratch c r b live (droppedLanes xs)

/-- R165: a stu with its guard false in the lowest lane does nothing, whatever its other operands hold. -/
def MemReq.skips (r : MemReq) (c : Ctx) : Bool := r.uniform && (r.lanesOf c).isEmpty && decide (r.poisonedGuard c = 0)

def memOp (s : State) (r : MemReq) : Out :=
  onTroupe s fun c =>
    if r.skips c then s.advance c c.t else s.whenReady c r.i (maskOf (r.lanesOf c)) (s.memChecked c r)

/-! Loads and stores (R163 to R167). -/

def plainSpaces : List Nat := [0, 1]

def execLd (d : Reg) (m : MAddr) (s : State) : Out :=
  memOp s ⟨.ld d m, m, .load false, 0, none, none, some d, false, plainSpaces⟩
def execLdc (d : Reg) (m : MAddr) (s : State) : Out :=
  memOp s ⟨.ldc d m, m, .load true, 1, none, none, some d, false, plainSpaces⟩
def execSt (g : Option Guard) (data : Src) (m : MAddr) (s : State) : Out :=
  memOp s ⟨.st g data m, m, .store, 2, g, some (data.opnd m.w.regs), none, false, plainSpaces⟩
def execLdu (d : Reg) (m : MAddr) (s : State) : Out :=
  memOp s ⟨.ldu d m, m, .load false, 3, none, none, some d, true, plainSpaces⟩
def execStu (g : Option Guard) (data : Src) (m : MAddr) (s : State) : Out :=
  memOp s ⟨.stu g data m, m, .store, 4, g, some (data.opnd m.w.regs), none, true, plainSpaces⟩
def execAtom (g : Option Guard) (op : AtomOp) (d : Src) (m : MAddr) (s : State) : Out :=
  memOp s ⟨.atom g op d m, m, .atomic op, 5, g, some (d.opnd m.w.regs), some d.reg, false, plainSpaces⟩
def execAtomcas (g : Option Guard) (d : Src) (m : MAddr) (s : State) : Out :=
  memOp s ⟨.atomcas g d m, m, .cas, 6, g, some (d.opnd (2 * m.w.regs)), some d.reg, false, plainSpaces⟩
def execRed (g : Option Guard) (op : AtomOp) (data : Src) (m : MAddr) (s : State) : Out :=
  memOp s ⟨.red g op data m, m, .red op, 7, g, some (data.opnd m.w.regs), none, false, plainSpaces⟩

/-- R169: every lane that would raise a cause is dropped. -/
def State.prefetchLanes (s : State) (c : Ctx) (r : MemReq) : State :=
  let b := c.record r.m.buf
  let o := r.m.idx.opnd 1
  let use := (lanes c.mask).filter fun l => !(r.m.idx.trapEmpty && (c.t.emptyLanes o).getLsbD l)
  let live := liveAddrs (use.map fun l => laneAddr r c b c.blk.d l)
  if b.bad r.spaces false then s.advance c c.t
  -- R190: a SCRATCH prefetch waits as a read does, and brings nothing nearer
  else if b.space ≠ 0 then (if s.scratchWaits c b r.m.w false live then s.stall c else s.advance c c.t)
  else
    let touched := toKeys (live.map fun e => e.2 / 4096)
    let (pages, s1) := s.xlatePages c.slice c.blk.regime needR touched
    let good := live.filter fun e => match pageResult pages e.2 with | .ok (.mem _ _) => true | _ => false
    if xAgain pages ≠ [] then ((xAgain pages).foldl State.noteRefusal s1).stall c
    else s1.acceptGlobal c r b good [] pages (s.writablePages c.slice c.blk.regime needR touched)

def execPrefetch (m : MAddr) (s : State) : Out :=
  onTroupe s fun c =>
    let o := m.idx.opnd 1
    let waits := !m.idx.trapEmpty && decide (c.t.emptyLanes o &&& c.mask ≠ 0)
    if waits || pendingS c.t o || s.inFlight c.key o then s.stall c
    else s.prefetchLanes c ⟨.prefetch m, m, .prefetch, 0, none, none, none, false, plainSpaces⟩

/-! Cluster accesses (R256 to R263). -/

/-- R256: the target block of a core selector, for a block. -/
def State.targetOf (s : State) (bid : Nat) (b : Block) (sel : Nat) : Option (Nat × Block) :=
  let core := clusterCore (cluster b.core) sel
  if core = b.core then some (bid, b)
  else leastBy (fun e => e.2.linear) (s.blocks.filter fun e =>
    decide (e.2.core = core) && decide (e.2.ticket = b.ticket) && decide (e.2.state ≠ .saved) &&
    (match e.2.state with
     | .reserving | .arriving | .gathered => false
     | _ => true) && !e.2.lost)

def State.targetBlock (s : State) (c : Ctx) (sel : Nat) : Option (Nat × Block) :=
  s.targetOf c.t.block { c.blk with core := c.key.core } sel

/-- A cluster access is accepted: the request leaves for the target's core (R255, R259). -/
def State.acceptCluster (s : State) (c : Ctx) (r : MemReq) (b : BufRec) (tb : Nat × Block) (live : List (Nat × Nat))
    (dropped : List Nat) : State :=
  let t1 := c.t.zeroDst r.dst r.m.w false dropped
  if live = [] then s.advance c t1
  else
    let t2 := (t1.countMem r.kind).emptyDst r.dst r.m.w.regs (maskOf (live.map (·.1)))
    let (id, s1) := s.newId
    let p : Part := ⟨b.swizzle, none, 0, live.flatMap fun e => bankAccs r c e.1 e.2, .sent, [], none, false⟩
    let o : MemOp := ⟨.troupe c.key.num, r.kind, r.m.w, r.dst, c.key.core, c.t.block, c.blk.regime, 0, 0, 0,
      some tb.1, [p], true⟩
    ((s1.setOp id o).advance c t2).at (s1.tick + 5) (.xbarRequest id)

def State.clusterChecked (s : State) (c : Ctx) (r : MemReq) : State :=
  let b := c.record r.m.buf
  if c.t.memFull r.kind then s.stall c
  else if b.bad [2] r.kind.writes then s.raise c causeShape 0 0 c.mask
  else match s.targetBlock c b.csel with
    | none => s.raise c causeBounds 0 0 c.mask
    | some tb =>
      let xs := (lanes c.mask).map fun l => laneAddr r c b tb.2.d l
      match lowestCause (laneCausesOf xs) with
      | some (k, m, a) => s.raise c k 0 (BitVec.ofNat 64 a) m
      | none => s.acceptCluster c r b tb (liveAddrs xs) (droppedLanes xs)

def clusterOp (s : State) (r : MemReq) : Out :=
  onTroupe s fun c => s.whenReady c r.i c.mask (s.clusterChecked c r)

def execLdx (d : Reg) (m : MAddr) (s : State) : Out :=
  clusterOp s ⟨.ldx d m, m, .load false, 10, none, none, some d, false, [2]⟩
def execStx (data : Src) (m : MAddr) (s : State) : Out :=
  clusterOp s ⟨.stx data m, m, .store, 11, none, some (data.opnd m.w.regs), none, false, [2]⟩
def execAtomx (op : AtomOp) (d : Src) (m : MAddr) (s : State) : Out :=
  clusterOp s ⟨.atomx op d m, m, .atomic op, 12, none, some (d.opnd m.w.regs), some d.reg, false, [2]⟩

/-- R262: an earlier crossbar access of the same troupe to the same target is still on its way; or, for a write, the tick
has seen a read of its bytes (R312). -/
def State.xbarBlocked (s : State) (id : Nat) (o : MemOp) : Bool :=
  s.flight.mem.any fun e =>
    decide (e.1 < id) && decide (e.2.owner = o.owner) && decide (e.2.target = o.target) &&
    e.2.parts.any fun p => !p.performed

/-- The granules that an access's bytes lie in. -/
def granulesOf (bytes : List Nat) : List Nat := toKeys (bytes.map (· / 4096))

/-- R255, R260, R263: the target's banks serve a request, or refuse it while a granule it needs is spilled. -/
def State.serveXbar (s : State) (id : Nat) (again : Ev) : State :=
  match s.op? id with
  | none => s
  | some o => match o.parts, o.target with
    | [p], some tb =>
      if p.state ≠ .sent then s
      else match s.block? tb with
        | none => s
        | some b =>
          let w := bankBytes o.width
          let xs := p.accs.map (withBytes b.g0 p.line o.width)
          let bytes := xs.flatMap (·.1)
          let spilled := (granulesOf bytes).any fun g => b.spill.contains (.granule g)
          if s.xbarBlocked id o || (o.kind.writes && s.bytesRead tb b.g0 bytes) || s.underTest (coreSlice b.core) unitXbar (cluster b.core % 2) then s.later again
          else if spilled || decide (b.state = .saved) then s.at (s.tick + 64) (.xbarSpillRetry id)
          else
            let (out, co) := (s.core b.core).accesses o.kind w xs
            let s1 := s.setCore b.core co
            if o.kind.reads then
              (s1.modPart? id p.line fun x => { x with out := out, state := .sampled }).at (s.tick + 5)
                (.loadDataReturn id p.line)
            else
              (s1.modPart? id p.line fun x => { x with state := .fixed s.tick false true }).at (s.tick + 5)
                (.gwctReceive id p.line)
    | _, _ => s

def execXbarRequest (op : Nat) (s : State) : Out := .next (s.serveXbar op (.xbarRequest op))
def execXbarSpillRetry (op : Nat) (s : State) : Out := .next (s.serveXbar op (.xbarSpillRetry op))

/-! Buffer record instructions (R157 to R159). -/

/-- R68: a poisoned loaded word raises POISON and leaves bN unchanged. -/
def State.setRecord (s : State) (c : Ctx) (b : BReg) (v : Nat) (bad : Bool) : State :=
  if bad then s.raise c causePoison 0 0 c.mask
  else s.advance c { c.t with uni := c.t.uni.setRec b (BitVec.ofNat 256 v) }

/-- The read of a record that the troupe's brec waits for. -/
def State.recordRead? (s : State) (c : Ctx) : Option (Nat × MemOp) :=
  s.flight.mem.find? fun e => decide (e.2.kind = .record) && decide (e.2.owner = .troupe c.key.num)

/-- R157: the read is sent once, and issue stalls until it is back. -/
def State.brecGlobal (s : State) (c : Ctx) (b : BReg) (a : Nat) : State :=
  match s.recordRead? c with
  | some (id, o) =>
    if o.complete then
      let out := o.parts.flatMap (·.out)
      (s.delOp id).setRecord c b (leVal (out.flatMap fun x => leBytes 8 x.val)) (out.any (·.poison))
    else s.stall c
  | none =>
    if a % 32 ≠ 0 then s.raise c causeAlign 0 (BitVec.ofNat 64 a) c.mask
    else
      let (x, s1) := s.xlate c.slice c.blk.regime a needR
      match x, xAddr x 0 with
      | .error f, _ =>
        if f.cause = causeAgain then (s1.noteRefusal f.gpa).stall c
        else s1.raiseFault c f c.wordAddr a c.mask b.val false 5 8
      | .ok _, some (d, tag) =>
        let accs := (List.range 4).map fun i => TaggedAcc.mk a tag ⟨i, d + 8 * i, 0, 0, false⟩
        let (id, s2) := s1.newId
        let o : MemOp := ⟨.troupe c.key.num, .record, .b64, none, c.key.core, c.t.block, c.blk.regime, 6, 1, 0, none,
          partsOf accs, false⟩
        ((o.parts.foldl (fun s p => s.sendPart id p.line) (s2.setOp id o))).stall c
      | .ok _, none => s1.stall c

def State.brecScratch (s : State) (c : Ctx) (b : BReg) (o : Nat) : State :=
  if c.blk.d < o + 32 then s.raise c causeBounds 0 0 c.mask
  else if o % 32 ≠ 0 then s.raise c causeAlign 0 (BitVec.ofNat 64 o) c.mask
  else
    let as := spBytes c.blk.g0 6 o 32
    let co := s.core c.key.core
    if s.scratchHeld c false as then s.stall c else s.setRecord c b (co.val as) (co.badAt as)

def execBrec (sp : Bool) (b : BReg) (sa : SReg) (s : State) : Out :=
  onTroupe s fun c =>
    let a := (c.t.s sa).toNat
    s.whenReady c (.brec sp b sa) c.mask
      (if c.t.sBad sa then s.raise c causePoison 0 0 c.mask
       else if sp then s.brecScratch c b a else s.brecGlobal c b a)

/-- The four s registers from n on. -/
def fourFrom (n : SReg) : List SReg := (List.range 4).map fun i => Fin.ofNat 64 (n.val + i)

def execBrmk (b : BReg) (sa : SReg) (s : State) : Out :=
  onTroupe s fun c =>
    let rs := fourFrom sa
    if rs.any fun r => c.t.uni.sPending.getLsbD r.val then s.stall c
    else if rs.any fun r => c.t.sBad r then s.raise c causePoison 0 0 c.mask
    else
      let v := (rs.zipIdx).foldl (fun acc e => acc + (c.t.s e.1).toNat * 2 ^ (64 * e.2)) 0
      s.advance c { c.t with uni := c.t.uni.setRec b (BitVec.ofNat 256 v) }

/-- R159. -/
def setField (f : BField) (x v : Nat) : Nat :=
  match f with
  | .base => putBits x 0 57 v
  | .extent0 => putBits x 64 32 v
  | .extent1 => putBits x 96 32 v
  | .extent2 => putBits x 128 32 v
  | .stride1 => putBits x 192 32 v
  | .stride2 => putBits x 224 32 v
  | .adv => putBits x 0 57 (bitsOf x 0 57 + v)

def execBrset (f : BField) (b : BReg) (sa : SReg) (s : State) : Out :=
  onTroupe s fun c =>
    s.whenReady c (.brset f b sa) c.mask
      (if c.t.sBad sa then s.raise c causePoison 0 0 c.mask
       else s.advance c
        { c.t with uni := c.t.uni.setRec b (BitVec.ofNat 256 (setField f (c.t.uni.bufRec b).toNat (c.t.s sa).toNat)) })

end Sys2Proof.Machine
end

