-- ==== Sys2Proof/Machine/Replies.lean ====
section
/-! DEFINITION. Replies to s registers (R73) and lines of a virtual range (R290). -/

namespace Sys2Proof.Machine

def State.req? (s : State) (id : Nat) : Option Request := sfind id s.flight.reqs
def State.setReq (s : State) (id : Nat) (r : Request) : State :=
  s.setFlight { s.flight with reqs := sset id r s.flight.reqs }
def State.delReq (s : State) (id : Nat) : State := s.setFlight { s.flight with reqs := sdel id s.flight.reqs }

/-- The reply a troupe waits for is written to its sD, which is pending no longer. -/
def State.reply (s : State) (id : Nat) (v : W64) : State :=
  match s.req? id with
  | none => s
  | some r => (s.modTroupe (keyOf r.troupe) fun t => t.putS r.d v r.poison).delReq id

def State.newReq (s : State) (troupe : Nat) (d : SReg) (poison : Bool) (work : Option HeldWork) (after : List Nat) :
    Nat × State :=
  let (id, s1) := s.newId
  (id, s1.setReq id ⟨troupe, d, poison, work, .held, 0, after, 0⟩)

/-- A request that waits for no release is on its way, and reaches who answers it after some ticks. -/
def State.sendReq (s : State) (troupe : Nat) (d : SReg) (poison : Bool) (work : HeldWork) (delay : Nat) : Nat × State :=
  let (id, s1) := s.newId
  (id, (s1.setReq id ⟨troupe, d, poison, some work, .sent, 0, [], 0⟩).at (s.tick + delay) (.heldReleaseSend id))

/-- R73: an instruction whose result comes from elsewhere: its destination is pending until the reply. -/
def State.ask (s : State) (c : Ctx) (d : SReg) (poison : Bool) (work : HeldWork) (delay : Nat) : State :=
  (s.sendReq c.key.num d poison work delay).2.advance c (c.t.pendS d)

/-- The end of a range cut at 2^57. -/
def rangeEnd (a n : Nat) : Nat := Nat.min (a + n) (2 ^ 57)

def rangePages (a n : Nat) : List Nat :=
  if n = 0 ∨ 2 ^ 57 ≤ a then []
  else (List.range ((rangeEnd a n - 1) / 4096 - a / 4096 + 1)).map fun i => a / 4096 + i

/-- The virtual line addresses of a page that overlap a range. -/
def pageLines (a n page : Nat) : List Nat :=
  (List.range 64).filter fun i =>
    decide (page * 4096 + 64 * i < rangeEnd a n) && decide (a < page * 4096 + 64 * i + 64)

/-- The lines of a range that a need can reach, with their virtual order; none for a page that fails translation. -/
def State.pageTo (s : State) (slice : Nat) (rg : Regime) (need : Need) (a n page : Nat) : Option (List Nat) :=
  match s.xlateOf slice rg (page * 4096) need with
  | .ok (.mem d _) => some ((pageLines a n page).map fun i => d / 64 + i)
  | _ => none

/-- R290: no right but the translation is asked, and COUNTER pages have no lines in a cache. -/
def needNone : Need := ⟨false, false, false, false⟩

def State.rangeLines (s : State) (slice : Nat) (rg : Regime) (need : Need) (a n : Nat) : List Nat :=
  (rangePages a n).flatMap fun p => (s.pageTo slice rg need a n p).getD []

/-- R352: what a syswr replies. -/
def replyOk : W64 := 0
def replyRefused : W64 := 1
def replyBusy : W64 := 2

/-- A register takes its value and the writer learns that it did, or it keeps its value. -/
def State.writeReg (s : State) (slice unit reg : Nat) (v : W64) (req : Nat) : State :=
  (s.setReg slice unit reg v).reply req replyOk

end Sys2Proof.Machine
end

