-- ==== Sys2Proof/Machine/Cache.lean ====
section
/-! DEFINITION. Opcodes 0x92 to 0x98 and the events of channels and anchors (R273, R281 to R295). -/

namespace Sys2Proof.Machine

/-! Write-back and invalidation (R290 to R295). -/

/-- R290: the lines named, none where every line is concerned. -/
def State.named (s : State) (c : Ctx) (range : Option (SReg × SReg)) : Option (List Nat) :=
  range.map fun r => s.rangeLines c.slice c.blk.regime needNone (c.t.s r.1).toNat (c.t.s r.2).toNat

def inNamed (ls : Option (List Nat)) (line : Nat) : Bool :=
  match ls with
  | none => true
  | some l => l.contains line

/-- R291: a line held by the issuing block or by its cluster. -/
def L1Line.heldBy (l : L1Line) (block : Nat) : Bool := match l.state with
  | .pinned (.block b) _ _ _ => decide (b = block)
  | .pinned .cluster _ _ _ => true
  | .valid _ => false

def Core.heldKeys (c : Core) (block : Nat) (ls : Option (List Nat)) : List Nat :=
  (c.l1.filter fun e => e.2.heldBy block && inNamed ls e.2.line).map (·.1)

/-- A store at a narrow scope into a named line that is accepted and not yet in the L1. -/
def State.narrowComing (s : State) (c : Ctx) (ls : Option (List Nat)) : Bool :=
  s.flight.mem.any fun e =>
    e.2.narrow && decide (e.2.core = c.key.core) && (decide (e.2.block = c.t.block) || decide (e.2.scope = 4)) &&
    e.2.parts.any fun p => !p.performed && inNamed ls p.line

/-- R291, R292: the held lines go home; ST counts the instruction until every GWCT is back. -/
def State.walkBack (s : State) (c : Ctx) (ls : Option (List Nat)) (keep : Bool) : State :=
  let keys := (s.core c.key.core).heldKeys c.t.block ls
  if keys.isEmpty then s.advance c c.t
  else
    ((s.writeBacks c.key.core keys (.troupe c.key.num) keep true).2).advance c
      (c.t.count fun n => { n with st := n.st + 1 })

def State.dropValid (s : State) (core : Nat) (ls : Option (List Nat)) : State :=
  let c := s.core core
  s.setCore core { c with l1 := c.l1.filter fun e => e.2.isPinned || !inNamed ls e.2.line }

def execCwb (range : Option (SReg × SReg)) (s : State) : Out :=
  onTroupe s fun c =>
    let ls := s.named c range
    s.whenReady c (.cwb range) c.mask
      (if fullCounter c.t.cnt.st || s.narrowComing c ls then s.stall c else s.walkBack c ls true)

def execCinv (range : Option (SReg × SReg)) (s : State) : Out :=
  onTroupe s fun c =>
    let ls := s.named c range
    s.whenReady c (.cinv range) c.mask
      (if fullCounter c.t.cnt.st || s.narrowComing c ls then s.stall c
       else (s.dropValid c.key.core ls).walkBack c ls false)

/-- R293. The cache holds words, eight to a line. -/
def execIcinv (range : Option (SReg × SReg)) (s : State) : Out :=
  onTroupe s fun c =>
    let ls := s.named c range
    let co := s.core c.key.core
    s.whenReady c (.icinv range) c.mask
      (if c.t.cnt.st ≠ 0 ∨ s.tick < c.t.gwct then s.stall c
       else (s.setCore c.key.core { co with ic := co.ic.filter fun e => !inNamed ls (e.1 / 8) }).advance c c.t)

/-- R294: an icinv ends in its own step, and a clause is fetched as it begins, so nothing fetched waits. -/
def execFetchbar (s : State) : Out := onTroupe s fun c => s.advance c c.t

/-! Anchors (R281 to R286). L2PINQv: [63:44] quota, [43:24] used. -/

def l2pinqReg (vf : Nat) : Nat := 0x20 + vf
def State.pinQuota (s : State) (slice vf : Nat) : Nat := bitsOf (s.reg slice 0 (l2pinqReg vf)).toNat 44 20
def State.pinUsed (s : State) (slice vf : Nat) : Nat := bitsOf (s.reg slice 0 (l2pinqReg vf)).toNat 24 20
def State.setUsed (s : State) (slice vf n : Nat) : State :=
  s.setReg slice 0 (l2pinqReg vf) (BitVec.ofNat 64 (putBits (s.reg slice 0 (l2pinqReg vf)).toNat 24 20 n))

def Homes.anchored (h : Homes) (line : Nat) : Bool := (sfind line h.anchors).isSome
def Homes.anchoredBy (h : Homes) (line vf : Nat) : Bool := (sget (0 : BitVec 32) line h.anchors).getLsbD vf

def State.anchor (s : State) (line vf : Nat) : State :=
  let h := s.homes
  s.setHomes { h with anchors := sset line (sget (0 : BitVec 32) line h.anchors ||| bitM 32 vf) h.anchors }

/-- R284: one anchor less, and its use returned. -/
def State.unanchor (s : State) (line vf : Nat) : State :=
  let h := s.homes
  if h.anchoredBy line vf then
    let sl := lineSlice line
    (s.setHomes { h with anchors := sput 0 line (sget (0 : BitVec 32) line h.anchors &&& ~~~(bitM 32 vf)) h.anchors }).setUsed
      sl vf (s.pinUsed sl vf - 1)
  else s

/-- Reservations of pins in progress: by VF, lines and slices. -/
def State.reserved (s : State) : List (Nat × List Nat × List (Nat × Nat)) :=
  s.flight.reqs.filterMap fun e => match e.2.work with
    | some (.pin vf ls room) => some (vf, ls.filter (fun l => room.any fun r => decide (r.1 = lineSlice l)), room)
    | _ => none

def State.roomReserved (s : State) (slice vf : Nat) : Nat :=
  sumNat (s.reserved.flatMap fun e => if e.1 = vf then (e.2.2.filter fun r => decide (r.1 = slice)).map (·.2) else [])

/-- R281: ways of a line's set that are anchored, or reserved by a pin, the given new lines among them. -/
def State.setWays (s : State) (line : Nat) (new : List Nat) : Nat :=
  (toKeys ((s.homes.anchors.map (·.1) ++ s.reserved.flatMap (fun e => e.2.1) ++ new).filter fun l =>
    sameL2Set l line)).length

/-- R283: what a slice answers to a reservation: its refusal code, 0 where it reserves, and the need. -/
def State.reserveAt (s : State) (vf : Nat) (lines : List Nat) (slice : Nat) : Nat × Nat :=
  let mine := lines.filter fun l => decide (lineSlice l = slice) && !s.homes.anchoredBy l vf
  let new := mine.filter fun l => !s.homes.anchored l
  if s.pinQuota slice vf < s.pinUsed slice vf + s.roomReserved slice vf + mine.length then (1, 0)
  else if new.any fun l => decide (8 < s.setWays l new) then (2, 0)
  else (0, mine.length)

/-- R283: pages that must all translate, and their lines. -/
def State.pinLines (s : State) (c : Ctx) (a n : Nat) : Option KeySet :=
  let ps := (rangePages a n).map fun p => s.pageTo c.slice c.blk.regime needR a n p
  if ps.all Option.isSome then some (toKeys (ps.flatMap fun p => p.getD [])) else none

def pinRangeBad (a n : Nat) : Bool := decide (n = 0) || decide (2 ^ 30 < n) || decide (2 ^ 57 < a + n)

/-- Sends a request to the slices of some lines; it is answered once all of them have. -/
def State.askSlices (s : State) (c : Ctx) (d : SReg) (poison : Bool) (lines : KeySet) (work : HeldWork) (done : Nat → Ev) :
    State :=
  let slices := toKeys (lines.map lineSlice)
  let (id, s1) := s.newId
  let s2 := slices.foldl (fun s sl => s.at (s.tick + latency c.slice sl) (.pinArrive id sl))
    (s1.setReq id ⟨c.key.num, d, poison, some work, .sent, 0, [], 0⟩)
  (s2.at (s2.tick + Nat.max 1 (2 * maxList (slices.map fun sl => latency c.slice sl))) (done id)).advance c (c.t.pendS d)

/-- R283, R309: a reservation is decided as it arrives. status: the code and slice of the lowest refusing slice. -/
def State.reserveArrive (s : State) (req slice : Nat) (r : Request) (vf : Nat) (lines : List Nat) (room : List (Nat × Nat)) :
    State :=
  let a := s.reserveAt vf lines slice
  let st := r.status.toNat
  if a.1 = 0 then s.setReq req { r with work := some (.pin vf lines (room ++ [(slice, a.2)])) }
  else if st = 0 ∨ slice < st / 256 then s.setReq req { r with status := BitVec.ofNat 64 (a.1 + 256 * slice) }
  else s

/-- R309: an unpin that reaches a home after a pin of the same VF has reserved there takes the line from it. -/
def HeldWork.forget (vf line : Nat) : HeldWork → HeldWork
  | .pin v ls room =>
    if v = vf ∧ ls.contains line = true ∧ (room.any fun r => decide (r.1 = lineSlice line)) = true then
      .pin v (ls.filter (· ≠ line)) room
    else .pin v ls room
  | w => w

def State.unpinLine (s : State) (vf line : Nat) : State :=
  let s1 := s.unanchor line vf
  s1.setFlight { s1.flight with
    reqs := s1.flight.reqs.map fun (e : Nat × Request) => (e.1, { e.2 with work := e.2.work.map (HeldWork.forget vf line) }) }

def execPinArrive (req slice : Nat) (s : State) : State :=
  match s.req? req with
  | none => s
  | some r => match r.work with
    | some (.pin vf lines room) => s.reserveArrive req slice r vf lines room
    | some (.unpin vf lines) =>
      (lines.filter fun l => decide (lineSlice l = slice)).foldl (fun s l => s.unpinLine vf l) s
    | _ => s

/-- R283: reservations go to every slice at once; the status is known when all have answered. -/
def State.startPin (s : State) (c : Ctx) (d : SReg) (poison : Bool) (lines : KeySet) : State :=
  s.askSlices c d poison lines (.pin c.blk.regime.vf lines []) .pinComplete

def execPin (d sa sb : SReg) (s : State) : Out :=
  onTroupe s fun c =>
    let a := (c.t.s sa).toNat
    let n := (c.t.s sb).toNat
    let bad := c.t.sBad sa || c.t.sBad sb
    s.whenReady c (.pin d sa sb) c.mask
      (if pinRangeBad a n then s.ask c d bad (.answer 4) 1
       else match s.pinLines c a n with
        | none => s.ask c d bad (.answer 3) 1
        | some lines => s.startPin c d bad lines)

/-- R283: the lines are fetched and anchored where every slice reserved; otherwise the reservations go. -/
def execPinComplete (req : Nat) (s : State) : Out :=
  .next <|
  match s.req? req with
  | none => s
  | some r => match r.work with
    | some (.pin vf lines _) =>
      if r.status = 0 then
        let s1 := lines.foldl (fun s l =>
          let s1 := if (sfind l s.homes.l2).isSome then s else (s.chanAsk (some vf) l false).l2Fill l vf
          if s1.homes.anchoredBy l vf then s1
          else (s1.anchor l vf).setUsed (lineSlice l) vf (s1.pinUsed (lineSlice l) vf + 1)) s
        s1.reply req 0
      else s.reply req r.status
    | _ => s

/-- R284: no right but the translation is asked. -/
def execUnpin (d sa sb : SReg) (s : State) : Out :=
  onTroupe s fun c =>
    let a := (c.t.s sa).toNat
    let n := (c.t.s sb).toNat
    let bad := c.t.sBad sa || c.t.sBad sb
    s.whenReady c (.unpin d sa sb) c.mask
      (if pinRangeBad a n then s.ask c d bad (.answer 4) 1
       else
        let lines := toKeys (s.rangeLines c.slice c.blk.regime needNone a n)
        s.askSlices c d bad lines (.unpin c.blk.regime.vf lines) .heldReleaseSend)

/-- R285: what a slice answers to pinq. -/
def State.pinAnswer (s : State) (rg : Regime) (slice : Nat) : W64 :=
  if (s.smask rg.part).getLsbD slice then BitVec.ofNat 64 (s.pinQuota slice rg.vf * 2 ^ 32 + s.pinUsed slice rg.vf) else 0

def execPinq (d sa : SReg) (s : State) : Out :=
  onTroupe s fun c =>
    let sl := (c.t.s sa).toNat % 16
    s.whenReady c (.pinq d sa) c.mask (s.ask c d (c.t.sBad sa) (.pinq sl) (latency c.slice sl))

/-- R281: the checks of a write to L2PINQv; used keeps its value. -/
def execL2pinqWrite (slice vf : Nat) (val : W64) (req : Nat) (s : State) : Out :=
  .next <|
  let v := val.toNat
  let sum := sumNat ((List.range 32).map fun w => if w = vf then bitsOf v 44 20 else s.pinQuota slice w)
  if bitsOf v 0 24 ≠ 0 ∨ 524288 < sum then s.reply req replyRefused
  else s.writeReg slice 0 (l2pinqReg vf) (BitVec.ofNat 64 (putBits v 24 20 (s.pinUsed slice vf))) req

/-! Channels and their tokens (R287 to R289). A write to SLTOKv waits for the next slot under hidden numbers. -/

def tokNextReg (vf : Nat) : Nat := 0xE20 + vf
def tokWaitReg (vf : Nat) : Nat := 0xE40 + vf

/-- SLTOKv as it will stand after the next slot. -/
def State.tokNext (s : State) (slice vf : Nat) : W64 :=
  if s.reg slice 0 (tokWaitReg vf) = 1 then s.reg slice 0 (tokNextReg vf) else s.reg slice 0 (sltokReg vf)

def execSltokWrite (slice vf : Nat) (val : W64) (req : Nat) (s : State) : Out :=
  .next <|
  let rate := fun (w : Nat) =>
    let x := if w = vf then val else s.tokNext slice w
    if x.getLsbD 27 then 0 else bitsOf x.toNat 46 18
  if bitsOf val.toNat 0 9 ≠ 0 ∨ 192000 < sumNat ((List.range 32).map rate) then s.reply req replyRefused
  else ((s.setReg slice 0 (tokNextReg vf) val).setReg slice 0 (tokWaitReg vf) 1).reply req replyOk

/-- R287: at a slot a waiting write takes effect, the level clamped to its depth, and the bucket gains its rate. -/
def State.refill (s : State) (slice vf : Nat) : State :=
  let s1 :=
    if s.reg slice 0 (tokWaitReg vf) = 1 then
      let x := (s.reg slice 0 (tokNextReg vf)).toNat
      let u := s.bucket slice vf
      (((s.setReg slice 0 (sltokReg vf) (BitVec.ofNat 64 (putBits x 9 18 0))).setReg slice 0 (tokWaitReg vf) 0).setReg
        slice 0 (tokNextReg vf) 0).setBucket slice vf (Nat.min u (bitsOf x 28 18 * 1024))
    else s
  let v := (s1.reg slice 0 (sltokReg vf)).toNat
  s1.setBucket slice vf (Nat.min (s1.bucket slice vf + bitsOf v 46 18) (bitsOf v 28 18 * 1024))

/-- R289: one transfer of a channel. A line read from it enters the L2. -/
def execChannelTransfer (slice channel : Nat) (s : State) : Out :=
  .next <|
  let k := 48 * slice + channel
  match sfind k s.homes.channels with
  | none => s
  | some c =>
    let owner := match s.partOf slice with
      | some p => (match s.slotOwner p with
        | .vf v => some v
        | _ => none)
      | none => none
    match s.pickRequest slice owner c with
    | none => s
    | some r =>
      let rest := c.queue.erase r
      let c1 : Channel := ⟨rest, (c.last ++ [r.vf.isNone]).drop ((c.last.length + 1) - 16), r.vf.getD c.lastVf⟩
      let s0 := (s.setHomes { s.homes with channels := sset k c1 s.homes.channels }).charge slice r
      let s1 := match r.vf, s.partOf slice with
        | some v, some p => s0.countEnergy p v .channel 1
        | _, _ => s0
      let s2 :=
        if r.ts then s1.tsFill r.line
        else if r.write || (sfind r.line s1.homes.l2).isSome then s1 else s1.l2Fill r.line (r.vf.getD 0)
      if rest.isEmpty then s2 else s2.laterOnce (.channelTransfer slice channel)

end Sys2Proof.Machine
end

