-- ==== Sys2Proof/Machine/Convert.lean ====
section
/-! DEFINITION. Opcodes 0x69 to 0x6E: conversions (R131 to R136), and the block encodings of R18, R19 and R30 that
the matrix and copy engines share. -/

namespace Sys2Proof.Machine

end Sys2Proof.Machine

namespace Sys2Proof

open Sys2Proof.Machine

def FFmt.fmt : FFmt → Fmt
  | .f32 => fp32
  | .f64 => fp64
  | .f16 => fp16
  | .bf16 => Machine.bf16

def WideFmt.fmt : WideFmt → Fmt
  | .f32 => fp32
  | .f16 => fp16
  | .bf16 => Machine.bf16

def MxFmt.fmt : MxFmt → Fmt
  | .e2m1 => fpE2m1
  | .e3m2 => fpE3m2
  | .e2m3 => fpE2m3

/-- R30: emax. -/
def MxFmt.emax : MxFmt → Int
  | .e2m1 => 2
  | .e3m2 => 4
  | .e2m3 => 2

end Sys2Proof

namespace Sys2Proof.Machine

def fp8 (e5m2 : Bool) : Fmt := if e5m2 then fpE5m2 else fpE4m3

def execCvtf (fs fd : FFmt) (neg ab ftz : Bool) (rm : Rounding) (o : R1) (s : State) : Out :=
  laneOp s (.cvtf fs fd neg ab ftz rm o) false (fn1 fun a =>
    fd.fmt.round rm ftz false 0 ((fs.fmt.read ftz a).mods neg ab))

def execCvtfi (fs : FFmt) (td : ConvTy) (ftz : Bool) (rm : Rounding) (o : R1) (s : State) : Out :=
  laneOp s (.cvtfi fs td ftz rm o) td.sx (fn1 fun a =>
    td.put ((fs.fmt.read ftz a).toInt rm td.signed td.ew))

def execCvtif (ts : ConvTy) (fd : FFmt) (rm : Rounding) (o : R1) (s : State) : Out :=
  laneOp s (.cvtif ts fd rm o) false (fn1 fun a =>
    fd.fmt.round rm false false 0 (FVal.ofInteger (elemVal ts.signed ts.ew a)))

/-- R134: the two converted bytes replace two bytes of the old D. -/
def execCvt8Encode (sat e5m2 : Bool) (wf : WideFmt) (hi ftz : Bool) (rm : Rounding) (seed : SReg) (o : R2)
    (s : State) : Out :=
  laneOp s (.cvt8Encode sat e5m2 wf hi ftz rm seed o) false fun l vs =>
    let lane := if o.d.isS then 0 else l
    let sd := if rm = .sr then vs.getD 2 0 else 0
    let old := vs.getLastD 0
    let y := fun (j x : Nat) =>
      (fp8 e5m2).round rm false sat (srRandom (uval 32 sd) (2 * hi.toNat + j) lane) (wf.fmt.read ftz x)
    putBits old (16 * hi.toNat) 16 (y 0 (vs.getD 0 0) + 256 * y 1 (vs.getD 1 0))

def execCvt8Decode (e5m2 : Bool) (wf : WideFmt) (pos : Fin 4) (ftz : Bool) (o : R1) (s : State) : Out :=
  laneOp s (.cvt8Decode e5m2 wf pos ftz o) false (fn1 fun a =>
    wf.fmt.round .rne ftz false 0 ((fp8 e5m2).decode (bitsOf a (8 * pos.val) 8)))

/-! MX blocks (R18, R30). -/

/-- The largest magnitude's floor(log2), none where every value is zero. -/
def maxLog (vs : List FVal) : Option Int :=
  vs.foldl (fun (acc : Option Int) v => match v with
    | .fin _ m e => if m = 0 then acc else
        let l := (Nat.log2 m : Int) + e
        match acc with
        | none => some l
        | some x => some (if x < l then l else x)
    | _ => acc) none

/-- The elements and scale of one block. u gives the random number of each element for SR. -/
def mxEncode (ef : MxFmt) (rm : Rounding) (u : Nat → Nat) (vs : List FVal) : List Nat × Nat :=
  if vs.any fun v => match v with | .fin .. => false | _ => true then (vs.map fun _ => 0, 0xFF)
  else match maxLog vs with
    | none => (vs.map fun v => ef.fmt.signBit v.neg?, 0x7F)
    | some l =>
      let e0 := if l - ef.emax < -127 then -127 else l - ef.emax
      ((vs.zipIdx).map fun x => ef.fmt.round rm false true (u x.2) (match x.1 with
        | .fin n m e => .fin n m (e - e0)
        | v => v), (e0 + 127).toNat)

/-- R18: an element times its E8M0 scale; scale 0xFF is NaN. -/
def mxValue (f : Fmt) (x scale : Nat) : FVal :=
  if scale = 0xFF then .nan
  else match f.decode x with
    | .fin n m e => .fin n m (e + ((scale : Int) - 127))
    | v => v

def MxW (ef : MxFmt) : Nat := ef.fmt.width

/-- R135: 32 FP32 values in consecutive registers to a packed block and its scale. -/
def execCvtmxEncode (ef : MxFmt) (ftz : Bool) (rm : Rounding) (seed : SReg) (o : R1) (s : State) : Out :=
  laneOp s (.cvtmxEncode ef ftz rm seed o) false fun l vs =>
    let x := vs.getD 0 0
    let sd := uval 32 (vs.getD 1 0)
    let (es, sc) := mxEncode ef rm (fun e => srRandom sd e l)
      ((List.range 32).map fun i => fp32.read ftz (bitsOf x (32 * i) 32))
    joinElems (MxW ef) es + sc * 2 ^ (32 * ef.regs)

def execCvtmxDecode (ef : MxFmt) (ftz : Bool) (rm : Rounding) (o : R1) (s : State) : Out :=
  laneOp s (.cvtmxDecode ef ftz rm o) false (fn1 fun x =>
    let sc := bitsOf x (32 * ef.regs) 8
    joinElems 32 ((List.range 32).map fun i =>
      fp32.round rm ftz false 0 (mxValue ef.fmt (bitsOf x (MxW ef * i) (MxW ef)) sc)))

/-! INT4 (R19, R136). -/

/-- R19: the weight of q with zero point z and BF16 scale s, as BF16 bits. -/
def int4Weight (q z sc : Nat) : Nat :=
  bf16.round .rne false false 0 ((FVal.ofInteger (sval 4 q - sval 4 z)).mul (bf16.decode sc))

/-- R88, R136: the eight integers, from one operand of v registers or from eight s registers. -/
def packSources : List Nat → List Nat
  | [x] => elems 8 32 x
  | xs => xs.map (uval 32)

def execCvt4Pack (o : R1) (s : State) : Out :=
  laneOp s (.cvt4Pack o) false fun _ vs =>
    joinElems 4 ((packSources vs).map fun v => wrap 4 (clampI (-8) 7 (sval 32 v)))

def execCvt4Deq (o : R3) (s : State) : Out :=
  laneOp s (.cvt4Deq o) false (fn3 fun a b c =>
    joinElems 16 ((elems 8 4 a).map fun q => int4Weight q (bitsOf c 0 4) (bitsOf b 0 16)))

end Sys2Proof.Machine
end

