-- ==== Sys2Proof/Machine/Matrix.lean ====
section
/-! DEFINITION. Opcodes 0x99 to 0xAA and the events of the matrix unit (R202 to R225). A period, and the clocks of the
slot port, last one tick here (log entry 19); the order of R217 to R219 is kept. -/

namespace Sys2Proof.Machine

/-! Operand memory (R207, R216). -/

def opAddr (b : Block) (slot off : Nat) : Nat := b.opslots.getD slot 16 * 32768 + off
def Core.opByte (c : Core) (a : Nat) : Byte := sget 0 a c.opm
def Core.opVal (c : Core) (a n : Nat) : Nat := leVal ((List.range n).map fun i => c.opByte (a + i))

/-- One write into operand memory: pieces of bytes, each with its poison. -/
def Core.opStore (c : Core) (xs : List (Nat × List Byte × Bool)) : Core :=
  { c with
    opm := xs.foldl (fun m x => (x.2.1.zipIdx).foldl (fun m e => sput 0 (x.1 + e.2) e.1 m) m) c.opm
    opmPoison := poisonWords c.opmPoison (xs.map fun x => ((List.range x.2.1.length).map fun i => x.1 + i, x.2.2)) }

/-- A field of a slot: its slot, first bit and bits. -/
structure Ref where
  slot : Nat
  bit : Nat
  len : Nat

def Core.readRef (c : Core) (b : Block) (r : Ref) : Nat :=
  bitsOf (c.opVal (opAddr b r.slot (r.bit / 8)) 5) (r.bit % 8) r.len

def Core.refBad (c : Core) (b : Block) (r : Ref) : Bool :=
  kmem (opAddr b r.slot (r.bit / 8) / 8) c.opmPoison ||
  kmem (opAddr b r.slot ((r.bit + r.len - 1) / 8) / 8) c.opmPoison

/-! Claims (R188, R203 to R205). -/

def Ctx.holds (c : Ctx) (slot : Nat) : Bool :=
  decide (slot < c.blk.opslots.length) && decide (sfind slot c.blk.claims = some c.t.index)

/-- R79: whether the frontier holds another entry. -/
def Ctx.split (c : Ctx) : Bool := decide (c.t.frontier ≠ [])

def State.raiseSplit (s : State) (c : Ctx) : State :=
  s.raise c causeConvergence (BitVec.ofNat 64 (c.t.frontier.length + 1)) 0 c.mask

def State.raiseSlot (s : State) (c : Ctx) (slot : Nat) : State := s.raise c causeSlot (BitVec.ofNat 64 slot) 0 c.mask

def slotList (m : Nat) : List Nat := (List.range 16).filter fun i => bitN m i

def Ctx.maskOperand (c : Ctx) (m : W16 ⊕ SReg) : Nat × Bool × Bool :=
  match m with
  | .inl x => (x.toNat, false, false)
  | .inr r => (uval 16 (c.t.s r).toNat, c.t.sBad r, c.t.uni.sPending.getLsbD r.val)

/-- R204: sclaim and srel count in MX, which falls after their acceptance. -/
def State.claimed (s : State) (c : Ctx) (t : Troupe) : State :=
  (s.sendReq c.key.num 0 false .mxEnd 1).2.advance c (t.count fun n => { n with mx := n.mx + 1 })

def execSclaim (d : SReg) (mask : W16 ⊕ SReg) (s : State) : Out :=
  onTroupe s fun c =>
    let (m, bad, wait) := c.maskOperand mask
    let ls := slotList m
    s.whenReady c (.sclaim d mask) c.mask
      (if wait || fullCounter c.t.cnt.mx then s.stall c
       else if c.split then s.raiseSplit c
       else match ls.find? fun i => decide (c.blk.opslots.length ≤ i) with
        | some i => s.raiseSlot c i
        | none =>
          let held := ls.filter fun i => match sfind i c.blk.claims with
            | some k => decide (k ≠ c.t.index)
            | none => false
          if held.isEmpty then
            (s.setBlock c.t.block { c.blk with claims := ls.foldl (fun m i => sset i c.t.index m) c.blk.claims }).claimed c
              (c.t.putS d 0 bad)
          else s.claimed c (c.t.putS d (BitVec.ofNat 64 (1 + 65536 * sumNat (held.map fun i => 2 ^ i))) bad))

def execSrel (mask : W16 ⊕ SReg) (s : State) : Out :=
  onTroupe s fun c =>
    let (m, _, wait) := c.maskOperand mask
    let ls := slotList m
    s.whenReady c (.srel mask) c.mask
      (if wait || fullCounter c.t.cnt.mx then s.stall c
       else if c.split then s.raiseSplit c
       else match ls.find? fun i => !c.holds i with
        | some i => s.raiseSlot c i
        | none =>
          (s.setBlock c.t.block { c.blk with claims := ls.foldl (fun m i => sdel i m) c.blk.claims }).claimed c c.t)

/-! The product instructions (R206 to R216). -/

/-- What a product instruction multiplies. refs gives the products of an output at a position, each by the fields it
reads; rd reads a field. scaled is the positions for which one scale is counted, 0 for none. -/
structure MmaForm where
  ops : MmaOps
  kMax : Nat
  chunk : Nat
  scaled : Nat
  count : Option SReg
  sparse : Bool
  refs : (Ref → Nat) → Nat → Nat → Nat → List (List Ref)
  comb : List Nat → FVal
  /-- Slots with the first byte and the bytes of each role. -/
  roles : List (Nat × Nat × Nat)

def fpProduct (f : Fmt) : List Nat → FVal
  | [a, b] => (f.decode a).mul (f.decode b)
  | _ => .fin false 0 0

def intProduct (ua ub : Bool) (w : Nat) : List Nat → FVal
  | [a, b] => .ofInteger (elemVal (!ua) w a * elemVal (!ub) w b)
  | _ => .fin false 0 0

def denseForm (o : MmaOps) (kMax chunk row ew : Nat) (comb : List Nat → FVal) : MmaForm :=
  ⟨o, kMax, chunk, 0, none, false,
    fun _ i j q => [[⟨o.sa.val, 8 * row * i + ew * q, ew⟩, ⟨o.sb.val, 8 * row * j + ew * q, ew⟩]], comb,
    [(o.sa.val, 0, 64 * row), (o.sb.val, 0, 64 * row)]⟩

def xFirst (x : XArea) : Nat := if x.hi then 16384 else 0

/-- R208. -/
def mxForm (o : MmaOps) (kMax chunk row ew : Nat) (fa fb : Fmt) (x : XArea) (c : SReg) : MmaForm :=
  let nb := kMax / 32
  let sc := fun (r q : Nat) => Ref.mk x.sx.val (8 * (xFirst x + r * nb + q / 32)) 8
  ⟨o, kMax, chunk, 32, some c, false,
    fun _ i j q =>
      [[⟨o.sa.val, 8 * row * i + ew * q, ew⟩, sc i q, ⟨o.sb.val, 8 * row * j + ew * q, ew⟩, sc (64 + j) q]],
    fun vs => match vs with
      | [a, xa, b, xb] => (mxValue fa a xa).mul (mxValue fb b xb)
      | _ => .fin false 0 0,
    [(o.sa.val, 0, 64 * row), (o.sb.val, 0, 64 * row), (x.sx.val, xFirst x, 128 * nb)]⟩

def groupLen : GroupSize → Nat
  | .g32 => 32
  | .g64 => 64
  | .g128 => 128

/-- R209. -/
def mmaqForm (g : GroupSize) (o : MmaOps) (x : XArea) (c : SReg) : MmaForm :=
  ⟨o, 256, 16, groupLen g, some c, false,
    fun _ i j q =>
      let n := q / groupLen g
      [[⟨o.sa.val, 8 * 512 * i + 16 * q, 16⟩, ⟨o.sb.val, 8 * 128 * j + 4 * q, 4⟩,
        ⟨x.sx.val, 8 * (xFirst x + 16 * j + 2 * n), 16⟩, ⟨x.sx.val, 8 * (xFirst x + 1024 + 4 * j + n / 2) + 4 * (n % 2), 4⟩]],
    fun vs => match vs with
      | [a, w, sc, z] => (bf16.decode a).mul (bf16.decode (int4Weight w z sc))
      | _ => .fin false 0 0,
    [(o.sa.val, 0, 32768), (o.sb.val, 0, 8192), (x.sx.val, xFirst x, 1280)]⟩

/-- R210. A position without a value has the product 0; the metadata decides. -/
def sparseForm (f : Fmt) (kMax chunk : Nat) (o : MmaOps) (x : XArea) : MmaForm :=
  let ew := f.width
  ⟨o, kMax, chunk, 0, none, true,
    fun rd i j q =>
      let g := q / 4
      let m : Ref := ⟨x.sx.val, 8 * (xFirst x + i * (kMax / 8) + g / 2) + 4 * (g % 2), 4⟩
      let hs := [0, 1].filter fun h => decide (bitsOf (rd m) (2 * h) 2 = q % 4)
      if hs.isEmpty then [[m]]
      else hs.map fun h => [m, ⟨o.sa.val, 8 * 512 * i + ew * (2 * g + h), ew⟩,
        ⟨o.sb.val + j / 32, 8 * 1024 * (j % 32) + ew * q, ew⟩],
    fun vs => match vs with
      | [_, a, b] => (f.decode a).mul (f.decode b)
      | _ => .fin false 0 0,
    [(o.sa.val, 0, 32768), (o.sb.val, 0, 32768), (o.sb.val + 1, 0, 32768), (x.sx.val, xFirst x, 8 * kMax)]⟩

def mxf6 (e2m3 : Bool) : Fmt := if e2m3 then fpE2m3 else fpE3m2

/-- R206. -/
def mmaForm : Instr → Option MmaForm
  | .mmaE4m3 o => some (denseForm o 512 32 512 8 (fpProduct fpE4m3))
  | .mmaE5m2 o => some (denseForm o 512 32 512 8 (fpProduct fpE5m2))
  | .mmaBf16 o => some (denseForm o 256 16 512 16 (fpProduct bf16))
  | .mmaF16 o => some (denseForm o 256 16 512 16 (fpProduct fp16))
  | .mmaF32 o => some (denseForm o 64 8 256 32 (fpProduct fp32))
  | .mmaI8 ua ub o => some (denseForm o 512 32 512 8 (intProduct ua ub 8))
  | .mmaI4 ua ub o => some (denseForm o 1024 32 512 4 (intProduct ua ub 4))
  | .mmaMxf6 a23 b23 x c o => some (mxForm o 512 32 384 6 (mxf6 a23) (mxf6 b23) x c)
  | .mmaMxf4 x c o => some (mxForm o 1024 64 512 4 fpE2m1 fpE2m1 x c)
  | .mmaq g x c o => some (mmaqForm g o x c)
  | .mmaspE4m3 x o => some (sparseForm fpE4m3 1024 32 o x)
  | .mmaspBf16 x o => some (sparseForm bf16 512 16 o x)
  | _ => none

/-- R31, R215: one output, from its starting accumulator. -/
def MmaForm.output (f : MmaForm) (rd : Ref → Nat) (i j k acc : Nat) : Nat :=
  (List.range (ceilDiv k f.chunk)).foldl (fun acc n =>
    let qs := (List.range f.chunk).filterMap fun x => if f.chunk * n + x < k then some (f.chunk * n + x) else none
    let ps := qs.flatMap fun q => (f.refs rd i j q).map fun rs => f.comb (rs.map rd)
    fp32.round .rne false false 0 ((fp32.decode acc).add .rne (exactSum .rne ps))) acc

/-- R216: whether a used field is poisoned. -/
def MmaForm.anyBad (f : MmaForm) (rd : Ref → Nat) (bad : Ref → Bool) (i j k : Nat) : Bool :=
  (List.range k).any fun q => (f.refs rd i j q).any fun rs => rs.any bad

/-- R215, R216: what a product leaves in D to D + 63 of each live lane. -/
def MmaForm.result (f : MmaForm) (c : Core) (b : Block) (t : Troupe) (k : Nat) (kBad : Bool) :
    List (Nat × W32 × Bool × Bool) :=
  match f.ops.d with
  | .s _ => []
  | .v d =>
    (lanes t.live).flatMap fun i => (List.range 64).map fun j =>
      let r := d.val + j
      let acc := if f.ops.z then 0 else (t.lane.get i r).toNat
      (vKey i r, BitVec.ofNat 32 (f.output (c.readRef b) i j k acc),
        !f.ops.z && laneBit t.lane.taint r i,
        kBad || (!f.ops.z && laneBit t.lane.poison r i) || f.anyBad (c.readRef b) (c.refBad b) i j k)

/-! Acceptance. -/

def MxWork.isArray : MxWork → Bool
  | .product .. | .xpose .. => true
  | _ => false

/-- R173: the periods an array operation takes. -/
def MxWork.periods : MxWork → Nat
  | .product (.mmaF32 _) _ _ => 2
  | _ => 1

def MxWork.slots : MxWork → List Nat
  | .product i _ _ => match mmaForm i with
    | some f => f.roles.map (·.1)
    | none => []
  | .xpose d s _ _ => [d.val, s.val]
  | .fill s .. => [s.val]
  | .drain s .. => [s.val]
  | .convert i .. => match i with
    | .mmacvt s .. => [s.val]
    | _ => []

/-- R218: an accepted instruction joins the queue; MX rises. -/
def State.mxAccept (s : State) (c : Ctx) (t : Troupe) (w : MxWork) : State :=
  let co := s.core c.key.core
  let s1 := s.setCore c.key.core { co with mx := co.mx ++ [⟨c.key.num, w, false, []⟩] }
  (s1.advance c (t.count fun n => { n with mx := n.mx + 1 })).laterOnce
    (if w.isArray then .matrixPeriodStart c.key.core else .slotPortStart c.key.core)

/-- R218: eight accepted instructions wait at most. -/
def State.mxFull (s : State) (c : Ctx) : Bool :=
  decide (8 ≤ ((s.core c.key.core).mx.filter fun o => !o.started).length) || fullCounter c.t.cnt.mx

/-- R190: ranges of slots that a copy still writes, or for a write also still reads. -/
def State.slotsHeld (s : State) (c : Ctx) (writes : Bool) (roles : List (Nat × Nat × Nat)) : Bool :=
  (s.core c.key.core).sb.any fun e =>
    decide (e.block = c.t.block) && e.operand && (e.dest || writes) &&
    roles.any fun r => decide (r.1 < c.blk.opslots.length) &&
      overlaps (opAddr c.blk r.1 r.2.1) r.2.2 e.first (e.last + 1 - e.first)

def Ctx.optVal (c : Ctx) (r : Option SReg) (d : Nat) : Nat := match r with
  | some n => (c.t.s n).toNat
  | none => d
def Ctx.optBad (c : Ctx) (r : Option SReg) : Bool := match r with
  | some n => c.t.sBad n
  | none => false
def Ctx.optPending (c : Ctx) (r : Option SReg) : Bool := match r with
  | some n => c.t.uni.sPending.getLsbD n.val
  | none => false

/-- R219: an in-flight range that overlaps the accumulator without being it, or a register not full. -/
def State.accWaits (s : State) (c : Ctx) (d : Reg) : Bool :=
  match d with
  | .s _ => false
  | .v r => decide (c.t.emptyLanes (d.opnd1 64 16) &&& c.t.live ≠ 0) ||
    (s.accs c.key).any fun a => decide (a ≠ r.val) && overlaps a 64 r.val 64

def Ctx.lowestUnheld (c : Ctx) (slots : List Nat) : Option Nat :=
  minNat (slots.filter fun i => !c.holds i)

/-- R214: the checks of a product instruction, then acceptance. -/
def State.product (s : State) (c : Ctx) (i : Instr) (f : MmaForm) : State :=
  let k := uval 11 (c.optVal f.ops.k f.kMax)
  let cnt := c.optVal f.count 0
  if s.mxFull c || s.accWaits c f.ops.d || c.optPending f.ops.k || c.optPending f.count || s.slotsHeld c false f.roles
  then s.stall c
  else if c.split then s.raiseSplit c
  else if f.kMax < k ∨ (f.sparse = true ∧ k % 4 ≠ 0) then s.raise c causeShape 0 0 c.mask
  else if f.scaled ≠ 0 ∧ cnt < ceilDiv k f.scaled then s.raise c causeScaleCount 0 0 c.mask
  else match c.lowestUnheld (f.roles.map (·.1)) with
    | some sl => s.raiseSlot c sl
    | none => s.mxAccept c c.t (.product i k (c.optBad f.ops.k || c.optBad f.count))

def productOp (s : State) (i : Instr) : Out :=
  onTroupe s fun c => match mmaForm i with
    | some f => s.product c i f
    | none => s.advance c c.t

def execMmaE4m3 (o : MmaOps) (s : State) : Out := productOp s (.mmaE4m3 o)
def execMmaE5m2 (o : MmaOps) (s : State) : Out := productOp s (.mmaE5m2 o)
def execMmaBf16 (o : MmaOps) (s : State) : Out := productOp s (.mmaBf16 o)
def execMmaF16 (o : MmaOps) (s : State) : Out := productOp s (.mmaF16 o)
def execMmaF32 (o : MmaOps) (s : State) : Out := productOp s (.mmaF32 o)
def execMmaI8 (ua ub : Bool) (o : MmaOps) (s : State) : Out := productOp s (.mmaI8 ua ub o)
def execMmaI4 (ua ub : Bool) (o : MmaOps) (s : State) : Out := productOp s (.mmaI4 ua ub o)
def execMmaMxf6 (a23 b23 : Bool) (x : XArea) (c : SReg) (o : MmaOps) (s : State) : Out :=
  productOp s (.mmaMxf6 a23 b23 x c o)
def execMmaMxf4 (x : XArea) (c : SReg) (o : MmaOps) (s : State) : Out := productOp s (.mmaMxf4 x c o)
def execMmaq (g : GroupSize) (x : XArea) (c : SReg) (o : MmaOps) (s : State) : Out := productOp s (.mmaq g x c o)
def execMmaspE4m3 (x : XArea) (o : MmaOps) (s : State) : Out := productOp s (.mmaspE4m3 x o)
def execMmaspBf16 (x : XArea) (o : MmaOps) (s : State) : Out := productOp s (.mmaspBf16 x o)

/-! Between lanes and slots (R220 to R224). -/

/-- The common checks of the instructions that name slots: stalls, convergence, shape, then the slots. -/
def State.slotOp (s : State) (c : Ctx) (off : Option SReg) (writes shapeBad : Bool) (roles : List (Nat × Nat × Nat))
    (k : State) : State :=
  if s.mxFull c || c.optPending off || s.slotsHeld c writes roles then s.stall c
  else if c.split then s.raiseSplit c
  else if shapeBad then s.raise c causeShape 0 0 c.mask
  else match c.lowestUnheld (roles.map (·.1)) with
    | some sl => s.raiseSlot c sl
    | none => k

/-- A register of every lane as sfill and mmacvt take it: an exited lane gives 0. -/
def Ctx.fillWord (c : Ctx) (l r : Nat) : W32 × Bool :=
  if c.t.live.getLsbD l then (c.t.lane.get l r, laneBit c.t.lane.poison r l) else (0, false)

def regNum : Reg → Nat
  | .v r => r.val
  | .s n => n.val

/-- R221: the slot bytes and value of each register of each lane. -/
def Ctx.fillVals (c : Ctx) (n off a : Nat) : List (Nat × W32 × Bool) :=
  laneList.flatMap fun l => (List.range n).map fun r =>
    let x := c.fillWord l (a + r)
    (off + 4 * n * l + 4 * r, x.1, x.2)

/-- R79: a collective on a split path raises ILLEGAL_CONVERGENCE before a register that is empty raises its trap (DESIGN
CHOICE, log entry 107). -/
def State.whenWhole (s : State) (c : Ctx) (i : Instr) (k : State) : State :=
  match s.ready c i.srcs i.dests c.mask with
  | .empty r l => if c.split then s.raiseSplit c else s.raise c causeEmpty (BitVec.ofNat 64 r) 0 l
  | .wait => s.stall c
  | .go => k

def execSfill (slot : Slot) (cnt : Fin 16) (off : Option SReg) (a : Src) (s : State) : Out :=
  onTroupe s fun c =>
    let n := cnt.val + 1
    let o := c.optVal off 0
    s.whenWhole c (.sfill slot cnt off a)
      (s.slotOp c off true (decide (o % 8 ≠ 0 ∨ 32768 < o + 256 * n)) [(slot.val, o, 256 * n)]
        (s.mxAccept c c.t (.fill slot n o a.reg (c.fillVals n o (regNum a.reg)))))

def execSdrain (slot : Slot) (cnt : Fin 16) (off : Option SReg) (d : Reg) (s : State) : Out :=
  onTroupe s fun c =>
    let n := cnt.val + 1
    let o := c.optVal off 0
    s.whenReady c (.sdrain slot cnt off d) c.mask
      (s.slotOp c off false (decide (o % 8 ≠ 0 ∨ 32768 < o + 256 * n)) [(slot.val, o, 256 * n)]
        (s.mxAccept c (c.t.emptyDst (some d) n c.t.live) (.drain slot n o d)))

def xposeBits : XposeBits → Nat
  | .w4 => 4
  | .w8 => 8
  | .w16 => 16
  | .w32 => 32

/-- Bytes of the tile of sxpose. -/
def xposeBytes (es : XposeBits) (rc : Fin 5) : Nat := 64 * 2 ^ rc.val * 64 * xposeBits es / 8

def execSxpose (dst src : Slot) (es : XposeBits) (rc : Fin 5) (s : State) : Out :=
  onTroupe s fun c =>
    let n := xposeBytes es rc
    s.whenReady c (.sxpose dst src es rc) c.mask
      (if s.slotsHeld c true [(dst.val, 0, n)] then s.stall c
       else s.slotOp c none false false [(src.val, 0, n), (dst.val, 0, 0)] (s.mxAccept c c.t (.xpose dst src es rc)))

def tileFmt : TileFmt → Fmt
  | .e4m3 => fpE4m3
  | .e5m2 => fpE5m2
  | .bf16 => bf16
  | .f16 => fp16

def execMmacvt (slot : Slot) (fmt : TileFmt) (sat t ftz : Bool) (rm : Rounding) (off : Option SReg) (seed : SReg)
    (a : Src) (s : State) : Out :=
  onTroupe s fun c =>
    let es := (tileFmt fmt).width / 8
    let o := c.optVal off 0
    let vals := laneList.flatMap fun l => (List.range 64).map fun j =>
      let x := c.fillWord l (regNum a.reg + j)
      (64 * l + j, x.1, x.2)
    let i := Instr.mmacvt slot fmt sat t ftz rm off seed a
    let seedWait := decide (rm = .sr) && c.t.uni.sPending.getLsbD seed.val
    s.whenWhole c i
      (if seedWait then s.stall c
       else s.slotOp c off true (decide (o % 256 ≠ 0 ∨ 32768 < o + 4096 * es)) [(slot.val, o, 4096 * es)]
        (s.mxAccept c c.t (.convert i o ((c.t.s seed).setWidth 32) vals)))

/-! The events of the matrix unit (R217, R218). -/

/-- The physical slots an operation touches. -/
def State.mxPhys (s : State) (o : MxOp) : List Nat :=
  match s.troupe? (keyOf o.troupe) with
  | none => []
  | some t => match s.block? t.block with
    | none => []
    | some b => o.work.slots.map fun i => b.opslots.getD i 16

/-- R218: the first waiting operation of a resource, where the resource is free and no earlier operation of the other one
touches its slots. -/
def State.mxNext (s : State) (core : Nat) (array : Bool) : Option (Nat × MxOp) :=
  let ops := (s.core core).mx.zipIdx
  if ops.any fun e => decide (e.1.work.isArray = array) && e.1.started then none
  else match ops.find? fun e => decide (e.1.work.isArray = array) with
    | none => none
    | some e =>
      let ps := s.mxPhys e.1
      if ops.any fun x => decide (x.2 < e.2) && decide (x.1.work.isArray ≠ array) && (s.mxPhys x.1).any fun p => ps.contains p
      then none else some (e.2, e.1)

def State.setMx (s : State) (core i : Nat) (o : MxOp) : State :=
  s.setCore core { s.core core with mx := replaceAt i o (s.core core).mx }

/-- The troupe and block of an operation. -/
def State.mxOwner (s : State) (o : MxOp) : Option (Troupe × Block) :=
  match s.troupe? (keyOf o.troupe) with
  | none => none
  | some t => (s.block? t.block).map fun b => (t, b)

/-- R222: the source byte, or two nibbles, that a destination byte is made of. -/
def xposeSrc (w rows i : Nat) : Nat := (i % rows * 64 + i / rows) * w

def Core.xpose (c : Core) (b : Block) (dst src : Nat) (es : XposeBits) (rc : Fin 5) : Core :=
  let w := xposeBits es
  let rows := 64 * 2 ^ rc.val
  let rd := fun (i : Nat) => Ref.mk src (xposeSrc w rows i) w
  let byte := fun (n : Nat) =>
    if w = 4 then
      let r := [rd (2 * n), rd (2 * n + 1)]
      (joinElems 4 (r.map (c.readRef b)), r.any (c.refBad b))
    else
      let r := rd (n / (w / 8))
      (bitsOf (c.readRef b r) (8 * (n % (w / 8))) 8, c.refBad b r)
  c.opStore ((List.range (xposeBytes es rc)).map fun n =>
    let x := byte n
    (opAddr b dst n, [BitVec.ofNat 8 x.1], x.2))

/-- An array operation begins: a product is formed, a transposition made. -/
def execMatrixPeriodStart (core : Nat) (s : State) : Out :=
  .next <|
  match s.mxNext core true with
  | none => s
  | some (n, o) =>
    let s1 := match s.mxOwner o, o.work with
      | some (t, b), .product i k kBad =>
        let r := match mmaForm i with
          | some f => f.result (s.core core) b t k kBad
          | none => []
        s.setMx core n { o with started := true, result := r }
      | some (_, b), .xpose d sr es rc =>
        (s.setCore core ((s.core core).xpose b d.val sr.val es rc)).setMx core n { o with started := true }
      | _, _ => s.setMx core n { o with started := true }
    let s2 := match s.mxOwner o with
      | some (_, b) => s1.countEnergy b.regime.part b.regime.vf .matrix o.work.periods
      | none => s1
    s2.later (.matrixWriteback core)

def Troupe.putResult (t : Troupe) (rs : List (Nat × W32 × Bool × Bool)) : Troupe :=
  { t with lane := rs.foldl (fun r e => r.put (e.1 / 256) (e.1 % 256) e.2.1 e.2.2.1 e.2.2.2) t.lane }

/-- The operation of a resource that has begun ends: its registers are written and MX falls. -/
def State.mxEnd (s : State) (core : Nat) (array : Bool) : State :=
  match ((s.core core).mx.zipIdx).find? fun e => decide (e.1.work.isArray = array) && e.1.started with
  | none => s
  | some (o, n) =>
    let s1 := s.modTroupe (keyOf o.troupe) fun t => (t.putResult o.result).count fun c => { c with mx := c.mx - 1 }
    let c := s1.core core
    ((s1.setCore core { c with mx := c.mx.eraseIdx n }).postOnce (.matrixPeriodStart core)).postOnce (.slotPortStart core)

def execMatrixWriteback (core : Nat) (s : State) : Out := .next (s.mxEnd core true)

/-- R224: the bytes of a converted tile. -/
def convertVals (fmt : TileFmt) (sat t ftz : Bool) (rm : Rounding) (seed : W32) (vals : List (Nat × W32 × Bool)) :
    List (Nat × List Byte × Bool) :=
  let f := tileFmt fmt
  let es := f.width / 8
  vals.map fun v =>
    let l := v.1 / 64
    let j := v.1 % 64
    let y := f.round rm ftz sat (srRandom seed.toNat j l) (fp32.read ftz v.2.1.toNat)
    (es * (if t then 64 * j + l else 64 * l + j), leBytes es y, v.2.2)

/-- R221: the registers that sdrain writes, in the lanes where acceptance emptied them. -/
def Core.drained (c : Core) (b : Block) (taken : LaneMask) (slot n off : Nat) (d : Reg) : List (Nat × W32 × Bool × Bool) :=
  (lanes taken).flatMap fun l => (List.range n).map fun r =>
    let a := opAddr b slot (off + 4 * n * l + 4 * r)
    (vKey l (regNum d + r), BitVec.ofNat 32 (c.opVal a 4), false, kmem (a / 8) c.opmPoison)

/-- A slot-port operation begins. -/
def execSlotPortStart (core : Nat) (s : State) : Out :=
  .next <|
  match s.mxNext core false with
  | none => s
  | some (n, o) =>
    let c := s.core core
    let s1 := match s.mxOwner o, o.work with
      | some (_, b), .fill slot _ _ _ vals =>
        (s.setCore core (c.opStore (vals.map fun (v : Nat × W32 × Bool) => (opAddr b slot.val v.1, leBytes 4 v.2.1.toNat, v.2.2)))).setMx core n
          { o with started := true }
      | some (t, b), .drain slot k off d =>
        s.setMx core n { o with started := true, result := c.drained b (sget 0 (regNum d) t.lane.empty) slot.val k off d }
      | some (_, b), .convert (.mmacvt slot fmt sat tr ftz rm _ _ _) off seed vals =>
        (s.setCore core (c.opStore ((convertVals fmt sat tr ftz rm seed vals).map fun (x : Nat × List Byte × Bool) =>
          (opAddr b slot.val (off + x.1), x.2)))).setMx core n { o with started := true }
      | _, _ => s.setMx core n { o with started := true }
    s1.later (.slotPortEnd core)

def execSlotPortEnd (core : Nat) (s : State) : Out := .next (s.mxEnd core false)

end Sys2Proof.Machine
end

