-- ==== Sys2Proof/Machine/Turnstiles.lean ====
section
/-! DEFINITION. Turnstiles (R191, R192, R226 to R241, R264, R273, R305, R447): naming, operations at their homes,
releases, and what a troupe waits for. -/

namespace Sys2Proof.Machine

/-! Naming (R226, R227, R233). -/

/-- What a designator leads to: a turnstile with the name it has in memory, or the first failing check; again: the home
refuses a table entry of its translation with RETRY. -/
inductive Named where
  | to (loc : TsLoc) (name : Option TsName)
  | bad (cause : BitVec 8) (addr : Nat)
  | again (line : Nat)
  deriving DecidableEq, Repr

/-- R227 from check 3, for a virtual address. -/
def State.nameGlobal (s : State) (slice : Nat) (rg : Regime) (a : Nat) : Named :=
  if a % 8 ≠ 0 then .bad causeAlign a
  else match s.xlateOf slice rg a needC with
    | .ok (.mem d tag) => .to (.home d) (some ⟨rg, a, tag⟩)
    | .ok (.peer p) => .to (.peer p) (some ⟨rg, a, 0⟩)
    | .error f => if f.cause = causeAgain then .again f.gpa else .bad causeBounds a

/-- R227, checks 2 to 4, for a block. -/
def State.name (s : State) (bid : Nat) (b : Block) (d : W64) : Named :=
  let x := d.toNat
  let kind := bitsOf x 62 2
  if kind = 3 ∨ bitsOf x 57 5 ≠ 0 ∨ (kind = 1 ∧ bitsOf x 9 48 ≠ 0) ∨ (kind = 2 ∧ bitsOf x 11 46 ≠ 0) then
    .bad causeShape 0
  else if kind = 0 then s.nameGlobal (coreSlice b.core) b.regime (bitsOf x 0 57)
  else
    let i := bitsOf x 0 9
    match (if kind = 1 then some (bid, b) else s.targetOf bid b (bitsOf x 9 2)) with
    | some (tb, blk) => if blk.c / 8 ≤ i then .bad causeBounds 0 else .to (.block tb i) none
    | none => .bad causeBounds 0

/-- R233: whether a record can name turnstiles. -/
def BufRec.counts (r : BufRec) : Bool := !r.bad [3] false && decide (r.esize = 3) && decide (r.ndims = 1)

def State.nameRecord (s : State) (c : Ctx) (b : BReg) (x : Nat) : Named :=
  let r := c.record b
  if !r.counts then .bad causeShape 0
  else if r.extent0 ≤ x then .bad causeBounds 0
  else s.nameGlobal c.slice c.blk.regime (r.base + 8 * x)

def State.nameRef (s : State) (c : Ctx) (t : TsRef) : Named :=
  match t.record with
  | some b => s.nameRecord c b (c.t.s t.sa).toNat
  | none => s.name c.t.block c.blk (c.t.s t.sa)

/-- R232: scope 0 goes by the designator's kind. -/
def Ctx.tsScope (c : Ctx) (t : TsRef) : Nat :=
  if t.scope ≠ 0 then t.scope.val
  else if t.record.isSome then 6
  else match bitsOf (c.t.s t.sa).toNat 62 2 with
    | 1 => 3
    | 2 => 4
    | _ => 6

/-! Values at the home (R191, R228, R305). -/

/-- The array byte of turnstile i of a block's counter region. -/
def counterByte (b : Block) (i : Nat) : Nat := 4096 * (b.g0 + b.grans) - b.c + 8 * i

def State.tsVal (s : State) (loc : TsLoc) : W64 :=
  match loc with
  | .block id i => match s.block? id with
    | some b => BitVec.ofNat 64 (leVal ((s.core b.core).bytes (counterByte b i) 8))
    | none => 0
  | .home d => BitVec.ofNat 64 (memVal s.homes.mem d 8)
  | .peer _ => 0

/-- R305, R331: whether a turnstile reads as poisoned: its mark, or its line under the ASTAG it is reached by. -/
def State.tsBad (s : State) (loc : TsLoc) (tag : Nat) : Bool :=
  match loc with
  | .block id i => match s.block? id with
    | some b => kmem (counterByte b i / 8) (s.core b.core).uaPoison
    | none => false
  | .home d => kmem d s.homes.tsPoison || s.homes.badRead (d / 64) tag
  | .peer _ => false

/-- The address that named a turnstile. -/
def vaOf (n : Option TsName) : Nat := match n with
  | some x => x.va
  | none => 0

/-- R331: the ASTAG that a turnstile is reached by. -/
def tagOf (n : Option TsName) : Nat := match n with
  | some x => x.tag
  | none => 0

/-- A new value at the home, written under an ASTAG, with or without the mark of R305. -/
def State.tsPut (s : State) (loc : TsLoc) (tag : Nat) (v : W64) (bad : Bool) : State :=
  match loc with
  | .block id i => match s.block? id with
    | some b =>
      let c := (s.core b.core).setBytes (counterByte b i) (leBytes 8 v.toNat)
      s.setCore b.core { c with uaPoison := kset (counterByte b i / 8) bad c.uaPoison }
    | none => s
  | .home d =>
    let s1 := s.beforeWrite (d / 64)
    let bs := (leBytes 8 v.toNat).zipIdx.map fun e => (d + e.2, e.1)
    s1.setHomes { s1.homes.writeLine (d / 64) tag bs false false with tsPoison := kset d bad s1.homes.tsPoison }
  | .peer _ => s

/-- The unit that keeps a turnstile: a home agent, or the unit of a core. -/
def State.tsUnit (s : State) (loc : TsLoc) : Nat :=
  match loc with
  | .block id _ => 2 ^ 20 + (match s.block? id with | some b => b.core | none => 0)
  | .home d => agentOf (d / 64)
  | .peer _ => 2 ^ 21

def coreUnitOf (loc : TsLoc) : Bool := match loc with
  | .block .. => true
  | _ => false

/-- R229. -/
def satisfied (v h : W64) : Bool := decide (0 ≤ (v - h).toInt)
def outOfRange (v h : W64) : Bool := decide (2 ^ 62 < (v - h).toInt.natAbs)

/-! Where operations come from, and how they travel. -/

def State.ts? (s : State) (id : Nat) : Option TsOp := sfind id s.flight.ts
def State.setTs (s : State) (id : Nat) (o : TsOp) : State := s.setFlight { s.flight with ts := sset id o s.flight.ts }
def State.delTs (s : State) (id : Nat) : State := s.setFlight { s.flight with ts := sdel id s.flight.ts }
def State.chain? (s : State) (id : Nat) : Option Chain := sfind id s.flight.chains
def State.setChain (s : State) (id : Nat) (x : Chain) : State :=
  s.setFlight { s.flight with chains := sset id x s.flight.chains }
def State.modChain (s : State) (id : Nat) (f : Chain → Chain) : State :=
  match s.chain? id with
  | some x => s.setChain id (f x)
  | none => s

/-- The core and block of a troupe or a chain. -/
def State.ownerAt (s : State) (o : Owner) : Option (Nat × Nat) :=
  match o with
  | .troupe k => (s.troupe? (keyOf k)).map fun t => ((keyOf k).core, t.block)
  | .chain i => (s.chain? i).map fun x => (x.core, x.block)
  | _ => none

def State.ownerRegime (s : State) (o : Owner) : Option Regime :=
  match o with
  | .chain i => (s.chain? i).map (·.regime)
  | _ => match s.ownerAt o with
    | some (_, b) => (s.block? b).map (·.regime)
    | none => none

/-- The leaf of an owner. -/
def State.ownerLeaf (s : State) (o : Owner) (home : Nat) : Nat :=
  match o with
  | .hart h => hartLeaf h
  | .core c => coreLeaf c
  | .engine sl => engineLeaf sl
  | _ => match s.ownerAt o with
    | some (c, _) => coreLeaf c
    | none => home

def State.ownerGwct (s : State) (o : Owner) : Nat :=
  match o with
  | .troupe k => match s.troupe? (keyOf k) with
    | some t => t.gwct
    | none => 0
  | .chain i => match s.chain? i with
    | some x => x.gwct
    | none => 0
  | .hart h => (s.hart h).gwct
  | _ => 0

/-- R255: an access over the crossbar, or within the core. -/
def State.toUnit (s : State) (from_ : Option Nat) (id : Nat) (e : Ev) : State :=
  match s.block? id with
  | some b => if from_ = some b.core then s.later e else s.at (s.tick + 5) e
  | none => s.later e

/-- An operation goes to its home. -/
def State.sendTs (s : State) (id : Nat) (o : TsOp) : State :=
  match o.loc with
  | .block b _ => s.toUnit ((s.ownerAt o.owner).map (·.1)) b (.turnstileOpArrival id)
  | .home d =>
    let leaf := homeLeaf (d / 64)
    s.send (s.ownerLeaf o.owner leaf) leaf .req (.turnstileOpArrival id)
  | .peer p => s.sendPeer (s.ownerLeaf o.owner 0 / 8) p o.part o.vf (.ts id)

/-- The way back from the unit of a turnstile. -/
def State.backTs (s : State) (_id : Nat) (o : TsOp) (e : Ev) : State :=
  match o.loc with
  | .block b _ => s.toUnit ((s.ownerAt o.owner).map (·.1)) b e
  | .home d =>
    let leaf := homeLeaf (d / 64)
    let recv := match o.owner, s.ownerAt o.owner with
      | .hart h, _ => recvHart h
      | _, some (c, _) => recvL1 c
      | _, none => recvRdc (s.ownerLeaf o.owner leaf / 8)
    s.bankSend (d / 64) recv leaf (s.ownerLeaf o.owner leaf) .rsp e
  | .peer _ => s.later e

/-- What the home answers. -/
def State.answerTs (s : State) (id : Nat) (o : TsOp) : State := s.backTs id o (.turnstileAcknowledgement id)

def Owner.isHart : Owner → Bool
  | .hart _ => true
  | _ => false

def Owner.isEngine : Owner → Bool
  | .engine _ => true
  | _ => false

/-- An operation of an engine of a slice, with its amount and not-before tick (R250, R308, R348, R428, R437). -/
def State.engineAdd (s : State) (slice part vf : Nat) (loc : TsLoc) (name : Option TsName) (amt : Nat) (nb : Nat) : State :=
  let (id, s1) := s.newId
  let o : TsOp := ⟨.engine slice, .add, loc, name, BitVec.ofNat 64 amt, 6, none, .sent, nb, [], false, none, vf, part⟩
  (s1.setTs id o).sendTs id o

/-! Application at the home (R230, R234, R237). -/

def State.setWaiter (s : State) (id : Nat) (w : Waiter) : State :=
  s.setFlight { s.flight with waiters := sset id w s.flight.waiters }
def State.waiter? (s : State) (id : Nat) : Option Waiter := sfind id s.flight.waiters

def State.listedAt (s : State) (loc : TsLoc) : List (Nat × Waiter) :=
  s.flight.waiters.filter fun e => decide (e.2.loc = loc) && e.2.listed.isSome

/-- The core that waits, if it is one. -/
def WaiterOf.core? : WaiterOf → Option Nat
  | .troupe k _ => some (keyOf k).core
  | _ => none

def State.waiterLeaf (s : State) (w : Waiter) : Nat :=
  match w.who with
  | .troupe k _ => coreLeaf (keyOf k).core
  | .port h _ _ => hartLeaf h
  | .join _ | .producer .. | .resume _ => engineLeaf (s.firstSlice w.part)

/-- R324: the receiver that a waiter's wakes go to. -/
def State.waiterRecv (s : State) (w : Waiter) : Nat := match w.who with
  | .troupe k _ => recvL1 (keyOf k).core
  | .port h _ _ => recvHart h
  | _ => recvRdc (s.firstSlice w.part)

/-- A value goes back to the waiter. -/
def State.report (s : State) (id : Nat) (w : Waiter) (v : W64) (bad : Bool) : State :=
  let leaf := s.waiterLeaf w
  let t := match w.loc with
    | .block b _ => match s.block? b with
      | some x => if w.who.core? = some x.core then s.tick + 1 else s.tick + 5
      | none => s.tick + 1
    | .home d => s.tick + latency (homeLeaf (d / 64) / 8) (leaf / 8)
    | .peer _ => s.tick + 1
  let s1 := s.setWaiter id { w with reports := w.reports ++ [(t, v, bad)] }
  match w.loc with
  | .home d => s1.bankSend (d / 64) (s.waiterRecv w) (homeLeaf (d / 64)) leaf .rsp (.wakeReceive id)
  | _ => s1.at t (.wakeReceive id)

/-- The order in which a unit wakes: a home by listing (R234), a core's unit by slot, as R192 says of that unit (DEDUCED,
log entry 114). -/
def wakeOrder (core : Bool) (w : Waiter) : Nat :=
  let l := w.listed.getD 0
  match core, w.who with
  | true, .troupe k _ => (keyOf k).slot * 2 ^ 64 + l
  | _, _ => l

/-- The waiters to wake, in order, n of them at most. -/
def pickOrder (core : Bool) : Nat → List (Nat × Waiter) → List (Nat × Waiter)
  | 0, _ => []
  | n + 1, ws => match leastBy (fun (e : Nat × Waiter) => wakeOrder core e.2) ws with
    | some e => e :: pickOrder core n (ws.filter fun x => decide (x.1 ≠ e.1))
    | none => []

def State.runningBlock (s : State) (t : Troupe) : Bool :=
  match s.block? t.block with
  | some b => decide (b.state = .running)
  | none => false

/-- R192: a troupe halted for a reclaim. -/
def State.haltedWaiter (s : State) (w : Waiter) : Bool :=
  match w.who with
  | .troupe k _ => match s.troupe? (keyOf k) with
    | some t => !s.runningBlock t
    | none => false
  | _ => false

/-- R237: each satisfied entry is woken once and freed; that of a halted troupe is freed when it resumes (R192). -/
def State.wake (s : State) (loc : TsLoc) : State :=
  let v := s.tsVal loc
  let hit := (s.listedAt loc).filter fun e => !e.2.woken && satisfied v e.2.threshold
  (pickOrder (coreUnitOf loc) hit.length hit).foldl
    (fun s e =>
      let w := if s.haltedWaiter e.2 then { e.2 with woken := true } else { e.2 with listed := none }
      s.report e.1 w v (s.tsBad loc (tagOf e.2.name))) s

/-- The value an operation leaves, if it writes one. -/
def TsKind.newVal (k : TsKind) (v amt : W64) : Option W64 :=
  match k with
  | .add | .fetch => some (v + amt)
  | .max => if 0 < (amt - v).toInt then some amt else none
  | .read => none
  | .set => some amt

/-- R234: an operation is applied, and answers. -/
def State.applyTs (s : State) (id : Nat) (o : TsOp) : State :=
  let v := s.tsVal o.loc
  let bad := s.tsBad o.loc (tagOf o.name)
  let busy := decide (o.kind = TsKind.set) && !(s.listedAt o.loc).isEmpty
  let s1 := match (if busy then none else o.kind.newVal v o.amt) with
    | some x => s.tsPut o.loc (tagOf o.name) x (bad && decide (o.kind ≠ TsKind.set))
    | none => s
  let s2 := match o.kind with
    | .add | .fetch | .max => s1.wake o.loc
    | _ => s1
  let r : Option (W64 × Bool) := match o.kind with
    | .fetch | .read => some (v, bad)
    | .set => some (if busy then 1 else 0, false)
    | _ => none
  let o1 := { o with stage := .applied, reply := r }
  (s2.setTs id o1).answerTs id o1

def State.deferredAt (s : State) (unit : Nat) : Nat :=
  (s.flight.ts.filter fun e => decide (e.2.stage = .deferred) && decide (s.tsUnit e.2.loc = unit)).length

/-- R263: the granule of a block's counters stands in its save area. -/
def State.countersAway (s : State) (loc : TsLoc) : Bool :=
  match loc with
  | .block id i => match s.block? id with
    | some b => b.spill.contains (.granule (counterByte b i / 4096)) || decide (b.state = .saved)
    | none => false
  | _ => false

/-- R273: whether an operation at a home must wait for its line. -/
def State.tsMisses (s : State) (loc : TsLoc) : Option Nat :=
  match loc with
  | .home d => if (sfind (d / 64) s.homes.tsLines).isSome then none else some (d / 64)
  | _ => none

/-- R273: the line of a turnstile was used. -/
def State.tsTouch (s : State) (loc : TsLoc) : State :=
  match loc with
  | .home d => (s.setHomes { s.homes with tsLines := sset (d / 64) s.seq s.homes.tsLines }).bump
  | _ => s

/-- A turnstile that a frozen home refuses, as the translation of its name stands now (R239, R360). -/
def State.movedTo (s : State) (o : Owner) (slice : Nat) (loc : TsLoc) (name : Option TsName) : TsLoc × Option TsName :=
  match name, o with
  | some n, .hart h => (match (s.hartXlateAs h n.regime .load n.va 8).1 with
    | .ok (.mem d tag true) => (.home d, some { n with tag := tag })
    | .ok (.peer p true) => (.peer p, some n)
    | _ => (loc, name))
  | some n, _ => (match s.nameGlobal slice n.regime n.va with
    | .to l m => (l, m)
    | _ => (loc, name))
  | none, _ => (loc, name)

def State.frozenTs (s : State) (loc : TsLoc) : Bool :=
  match loc with
  | .home d => s.isFrozen (d / 64)
  | _ => false

/-- R328: whether the firewall refuses an operation on a turnstile. -/
def State.refusesTs (s : State) (part : Nat) (loc : TsLoc) : Bool :=
  match loc with
  | .home d => s.refusesPart part (d / 64)
  | _ => false

/-- R328: the same, of an operation: the unit it comes from stands in a slice of the partition too. -/
def State.refusesTsOp (s : State) (o : TsOp) : Bool :=
  s.refusesTs o.part o.loc || (match o.loc with
    | .home d => !(s.smask o.part).getLsbD (s.ownerLeaf o.owner (homeLeaf (d / 64)) / 8)
    | _ => false)

/-- R328: a refused add is dropped, and a refused read receives poison. -/
def State.dropTs (s : State) (id : Nat) (o : TsOp) : State :=
  let r : Option (W64 × Bool) := match o.kind with
    | .add | .max => none
    | _ => some (0, true)
  let o1 := { o with stage := .applied, reply := r }
  (s.countRefusal.setTs id o1).answerTs id o1

def State.tsTested (s : State) (loc : TsLoc) : Bool := match loc with
  | .home d => s.homeTested (d / 64)
  | _ => false

def execTurnstileOpArrival (op : Nat) (s : State) : Out :=
  .next <|
  match s.ts? op with
  | none => s
  | some o =>
    if o.stage ≠ .sent then s
    else if s.refusesTsOp o then s.dropTs op o
    else if s.frozenTs o.loc then
      let o1 := { o with stage := .refused }
      (s.setTs op o1).backTs op o1 (.heldReleaseSend op)
    else if s.countersAway o.loc || s.tsTested o.loc then s.later (.turnstileOpArrival op)
    else match s.tsMisses o.loc with
      | some line => (s.chanReq ⟨chargeVf o.vf, line, false, true⟩).later (.turnstileOpArrival op)
      | none =>
        let s1 := s.tsTouch o.loc
        if o.nb ≤ s.tick then s1.applyTs op o
        else if (if coreUnitOf o.loc then 64 else 256) ≤ s.deferredAt (s.tsUnit o.loc) then
          s1.at o.nb (.turnstileOpArrival op)
        else
          let o1 := { o with stage := .deferred }
          ((s1.setTs op o1).answerTs op o1).at o.nb (.deferredOpApply op)

def execDeferredOpApply (op : Nat) (s : State) : Out :=
  .next <|
  match s.ts? op with
  | none => s
  | some o =>
    if o.stage ≠ .deferred then s
    else if s.refusesTsOp o then s.dropTs op o
    else if s.tick < o.nb then s.at o.nb (.deferredOpApply op)
    else if s.countersAway o.loc || s.frozenTs o.loc then s.later (.deferredOpApply op)
    else s.applyTs op o

/-- R230: the first answer lowers AT; the value of an applied operation goes to its register. -/
def execTurnstileAcknowledgement (op : Nat) (s : State) : Out :=
  .next <|
  match s.ts? op with
  | none => s
  | some o =>
    let done := decide (o.stage = .applied)
    let s1 := if o.acked then s else match o.owner with
      | .troupe k => s.modTroupe (keyOf k) fun t => t.count fun c => { c with atc := c.atc - 1 }
      | .chain i => s.post (.completionAdd i)
      | .peer r => if done then s.peerReply r (match o.reply with
          | some v => leBytes 8 v.1.toNat
          | none => []) (match o.reply with
          | some v => v.2
          | none => false) else s
      | _ => s
    let s2 := match done, o.owner, o.dst, o.reply with
      | true, .troupe k, some d, some r => s1.modTroupe (keyOf k) fun t => t.putS d r.1 r.2
      | true, .hart h, some d, some r => s1.hartReturn h d.val (vaOf o.name) r.1 r.2
      | true, .hart h, some d, none =>
        let s2 := { s1 with fresh := s1.fresh + 1 }
        s2.hartReturn h d.val (vaOf o.name) (Config.amomaxOld s1.fresh) false
      | _, _, _, _ => s1
    if done then s2.delTs op else s2.setTs op { o with acked := true }

/-! What a release writes back (R231, R241, R265, R316). -/

def clusterCores (core : Nat) : List Nat := (List.range 4).map fun i => clusterCore (cluster core) i

def L1Line.heldIn (l : L1Line) (block : Option Nat) : Bool := match l.state with
  | .pinned (.block b) _ _ _ => decide (some b = block)
  | .pinned .cluster _ _ _ => true
  | .valid _ => false

/-- R265: the lines of a block pass to its cluster. -/
def State.passToCluster (s : State) (core block : Nat) : State :=
  let pass := fun (e : Nat × L1Line) => match e.2.state with
    | .pinned (.block b) t a v => if b = block then (e.1, { e.2 with state := .pinned .cluster t a v }) else e
    | _ => e
  let c := s.core core
  let s1 := s.setCore core { c with l1 := c.l1.map pass }
  s1.setHomes { s1.homes with pins := s1.homes.pins.map fun (e : Nat × PinAt) =>
    if e.2.core = core ∧ e.2.holder = .block block then (e.1, { e.2 with holder := .cluster }) else e }

/-- The write-backs of a release at slice scope or wider, each core's as one operation. -/
def State.wideRelease (s : State) (owner : Owner) (core block : Nat) : State :=
  (clusterCores core).foldl (fun s k =>
    let keys := ((s.core k).l1.filter fun e => e.2.heldIn (if k = core then some block else none)).map (·.1)
    (s.writeBacks k keys owner false false).2) s

/-- The write-backs of a cluster's cores that are still on their way. -/
def State.clusterBacks (s : State) (core : Nat) : List Nat :=
  (s.flight.mem.filter fun e => e.2.isWriteBack && (clusterCores core).contains e.2.core).map (·.1)

/-- A release at a scope, and the write-backs whose GWCTs it awaits. -/
def State.release (s : State) (owner : Owner) (core block scope : Nat) : List Nat × State :=
  if scope = 4 then ([], s.passToCluster core block)
  else if scope < 4 then ([], s)
  else
    let s1 := s.wideRelease owner core block
    (s1.clusterBacks core, s1)

/-- The latest tick fixed for the writes of some operations. -/
def State.latestP (s : State) (ids : List Nat) : Nat :=
  maxList (ids.flatMap fun id => match s.op? id with
    | some o => o.parts.map fun p => match p.state with
      | .fixed t _ _ => t
      | _ => 0
    | none => [])

/-! The instructions (R232 to R234). -/

/-- R231: a release with nothing to wait for is sent at once, and any other is held; R323: other modules do not share
%tick. -/
def State.sendRelease (s : State) (c : Ctx) (id : Nat) (o : TsOp) : State :=
  if o.after.isEmpty then
    let (backs, s1) := s.release o.owner c.key.core c.t.block o.scope
    let abroad := decide (o.scope = 7) || (match o.loc with
      | .peer _ => true
      | _ => false)
    if backs.isEmpty && !abroad then
      let o1 := { o with stage := .sent, nb := c.t.gwct }
      (s1.setTs id o1).sendTs id o1
    else (s1.setTs id { o with stage := .releasing, after := backs }).post (.heldReleaseSend id)
  else s.post (.heldReleaseSend id)

/-- The operation of a troupe starts on its way; a release is held first (R231). -/
def State.startTs (s : State) (c : Ctx) (k : TsKind) (loc : TsLoc) (name : Option TsName) (amt : W64) (scope : Nat)
    (d : Option SReg) : State :=
  let after := (s.flight.mem.filter fun e =>
    decide (e.2.owner = .troupe c.key.num) && decide (e.2.kind ≠ .prefetch) && !e.2.complete).map (·.1)
  let held := match k with
    | .add | .fetch | .max => true
    | _ => false
  let (id, s1) := s.newId
  let o : TsOp := ⟨.troupe c.key.num, k, loc, name, amt, scope, d, if held then .held else .sent, 0, after, false, none,
    c.blk.regime.flowVf, c.blk.regime.part⟩
  let t1 := c.t.count fun n => { n with atc := n.atc + 1 }
  let t2 := match d with
    | some r => t1.pendS r
    | none => t1
  let s2 := (s1.setTs id o).advance c t2
  if held then s2.sendRelease c id o else s2.sendTs id o

def Ctx.amount (c : Ctx) (a : TsAmt) : W64 × Bool :=
  match a with
  | .imm n => (n.setWidth 64, false)
  | .reg r => (c.t.s r, c.t.sBad r)

/-- R234, for one operation: amt is the amount or operand with its poison; small: it must lie below 2^32. -/
def State.tsInstr (s : State) (c : Ctx) (k : TsKind) (t : TsRef) (amt : W64 × Bool) (small : Bool) (d : Option SReg) :
    State :=
  if fullCounter c.t.cnt.atc then s.stall c
  else if c.t.sBad t.sa || amt.2 then s.raise c causePoison 0 0 c.mask
  else match s.nameRef c t with
    | .bad cause a => s.raise c cause 0 (BitVec.ofNat 64 a) c.mask
    | .again line => (s.noteRefusal line).stall c
    | .to loc name =>
      if small && decide (2 ^ 32 ≤ amt.1.toNat) then s.raise c causeArith 0 0 c.mask
      else match k, loc with
        | .set, .peer _ => s.raise c causeBounds 0 (BitVec.ofNat 64 (vaOf name)) c.mask
        | _, _ => s.startTs c k loc name amt.1 (c.tsScope t) d

def execTadd (t : TsRef) (amt : TsAmt) (s : State) : Out :=
  onTroupe s fun c => s.whenReady c (.tadd t amt) c.mask (s.tsInstr c .add t (c.amount amt) true none)

def execTfetch (d : SReg) (t : TsRef) (amt : TsAmt) (s : State) : Out :=
  onTroupe s fun c => s.whenReady c (.tfetch d t amt) c.mask (s.tsInstr c .fetch t (c.amount amt) true (some d))

def execTmax (t : TsRef) (sb : SReg) (s : State) : Out :=
  onTroupe s fun c => s.whenReady c (.tmax t sb) c.mask (s.tsInstr c .max t (c.t.s sb, c.t.sBad sb) false none)

def execTread (d : SReg) (t : TsRef) (s : State) : Out :=
  onTroupe s fun c => s.whenReady c (.tread d t) c.mask (s.tsInstr c .read t (0, false) false (some d))

def execTreset (d : SReg) (t : TsRef) (sb : SReg) (s : State) : Out :=
  onTroupe s fun c =>
    s.whenReady c (.treset d t sb) c.mask
      (if c.blk.regime.priv ≠ .h then s.raise c causePrivilege 0 0 c.mask
       else s.tsInstr c .set t (c.t.s sb, c.t.sBad sb) false (some d))

/-! wait (R235 to R239). -/

def State.startPoll (s : State) (id : Nat) (w : Waiter) : State :=
  match w.loc with
  | .block b _ => s.toUnit w.who.core? b (.turnstilePoll id)
  | .home d => s.send (s.waiterLeaf w) (homeLeaf (d / 64)) .req (.turnstilePoll id)
  -- R237: read again every 256 ticks from issue
  | .peer p => (s.sendPeer (s.waiterLeaf w / 8) p w.part w.vf (.poll id)).at (s.tick + 256) (.turnstilePoll id)

def State.addWaiter (s : State) (who : WaiterOf) (loc : TsLoc) (name : Option TsName) (vf part : Nat) (h : W64) : State :=
  let (id, s1) := s.newId
  let w : Waiter := ⟨who, loc, name, vf, part, h, none, false, false, []⟩
  (s1.setWaiter id w).startPoll id w

/-- The conditions of a wait that are not in sat are read, and listed or polled. -/
def State.startConds (s : State) (who : Nat → WaiterOf) (w : WaitState) (vf part : Nat) : State :=
  (w.conds.zipIdx).foldl
    (fun s e => if e.1.sat then s else s.addWaiter (who e.2) e.1.loc e.1.name vf part e.1.threshold) s

/-- How one pass of the loop of R236 ends. -/
inductive WaitEnd where
  | ends (status index : Nat) (poisoned : Bool)
  | goesOn (w : WaitState)
  deriving DecidableEq, Repr

def stOk : Nat := 0
def stTimeout : Nat := 2
def stRange : Nat := 3
def stReset : Nat := 4
def stPoisoned : Nat := 5

def Cond.isBad (c : Cond) : Bool := !c.sat && (match c.val with | some (_, b) => b | none => false)
def Cond.isOut (c : Cond) : Bool := !c.sat && (match c.val with | some (v, _) => outOfRange v c.threshold | none => false)
def Cond.test (c : Cond) : Cond :=
  { c with sat := c.sat || (match c.val with | some (v, _) => satisfied v c.threshold | none => false) }

def findCond (f : Cond → Bool) (cs : List Cond) : Option Nat := ((cs.zipIdx).find? fun e => f e.1).map (·.2)

/-- R236: the tests of one pass at a tick. -/
def WaitState.pass (w : WaitState) (tick : Nat) : WaitEnd :=
  match findCond Cond.isBad w.conds with
  | some i => .ends stPoisoned i true
  | none => match findCond Cond.isOut w.conds with
    | some i => .ends stRange i false
    | none =>
      let cs := w.conds.map Cond.test
      match (if w.all then none else findCond Cond.sat cs) with
      | some i => .ends stOk i false
      | none =>
        if w.all && cs.all Cond.sat then .ends stOk 0 false
        else if (match w.deadline with | some d => decide (d ≤ tick) | none => false) then .ends stTimeout 0xFF false
        else .goesOn { w with conds := cs, first := false }

/-- The values that have reached the waiting side; once the first test is over, a value that comes at the deadline or
after it is discarded (R239). -/
def takeReports (tick : Nat) (w : WaitState) (rs : List (Nat × W64 × Bool)) (v : Option (W64 × Bool)) :
    Option (W64 × Bool) :=
  rs.foldl (fun v r =>
    let late := !w.first && (match w.deadline with | some d => decide (d ≤ r.1) | none => false)
    if r.1 ≤ tick ∧ late = false then some r.2 else v) v

/-- The waiters of a wait, by condition. -/
def State.waitersOf (s : State) (mine : WaiterOf → Option Nat) : List (Nat × Nat × Waiter) :=
  s.flight.waiters.filterMap fun e => (mine e.2.who).map fun i => (e.1, i, e.2)

/-- A wait with every value that has arrived. -/
def State.gather (s : State) (mine : WaiterOf → Option Nat) (w : WaitState) : WaitState :=
  let ws := s.waitersOf mine
  { w with conds := (w.conds.zipIdx).map fun e =>
      { e.1 with val := ws.foldl (fun v x => if x.2.1 = e.2 then takeReports s.tick w x.2.2.reports v else v) e.1.val } }

/-- Values taken are no longer on their way, and the entries that a halted troupe kept are free. -/
def State.dropReports (s : State) (mine : WaiterOf → Option Nat) : State :=
  let f := fun (e : Nat × Waiter) => if (mine e.2.who).isSome then
      (e.1, { e.2 with
        reports := e.2.reports.filter fun r => decide (s.tick < r.1)
        listed := if e.2.woken then none else e.2.listed
        woken := false }) else e
  s.setFlight { s.flight with waiters := s.flight.waiters.map f }

/-- R236: the entries of a wait are withdrawn. -/
def State.withdraw (s : State) (mine : WaiterOf → Option Nat) : State :=
  s.setFlight { s.flight with waiters := s.flight.waiters.filter fun e => (mine e.2.who).isNone }

def ofTroupe (k : Nat) : WaiterOf → Option Nat
  | .troupe j i => if j = k then some i else none
  | _ => none

def waitWord (status index : Nat) : W64 := BitVec.ofNat 64 (status + 256 * index)

/-- R236: the wait of a troupe ends with a status. One that ends at its first test did not give up its pipe. -/
def State.endWait (s : State) (k : TKey) (t : Troupe) (w : WaitState) (status index : Nat) (poisoned : Bool) : State :=
  let t1 := { t with susp := .none }.putS w.d (waitWord status index) (w.poison || poisoned)
  let s1 := s.withdraw (ofTroupe k.num)
  match s.block? t.block with
  | some b => if (s.pipeOf k).isSome then s1.boundary k b.regime t1 else (s1.setTroupe k t1).reGrant k
  | none => (s1.setTroupe k t1).reGrant k

/-- The wait of a troupe goes through its tests; a halted block's wait stands until it resumes (R192). -/
def State.waitStep (s : State) (k : TKey) : State :=
  match s.troupe? k with
  | none => s
  | some t => match t.susp with
    | .wait w =>
      let w1 := s.gather (ofTroupe k.num) w
      if w1.first && w1.conds.any (fun c => !c.sat && c.val.isNone) then s
      else match w1.pass s.tick with
        | .ends st i p => s.endWait k t w1 st i p
        | .goesOn w2 =>
          (((s.dropReports (ofTroupe k.num)).setTroupe k { t with susp := .wait w2, yRun := 0 }).leavePipe k).reGrant k
    | _ => s

def execWakeReceive (waiter : Nat) (s : State) : Out :=
  .next <|
  match s.waiter? waiter with
  | none => s
  | some w => match w.who with
    | .troupe k _ => match s.troupe? (keyOf k) with
      | some t => if s.runningBlock t then s.waitStep (keyOf k) else s.later (.wakeReceive waiter)
      | none => s
    | .port h p _ => s.post (.portWaitEnd h p)
    | .join t => s.post (.ticketReady t)
    | .producer p q => s.post (.ticketFetch p q)
    | .resume x => s.post (.troupeRestore x)

def execWaitTimeout (core slot : Nat) (s : State) : Out :=
  let k : TKey := ⟨core, slot⟩
  .next <|
  match s.troupe? k with
  | none => s
  | some t => match t.susp with
    | .wait w =>
      if (match w.deadline with | some d => decide (d ≤ s.tick) | none => false) then
        (if s.runningBlock t then s.waitStep k else s.later (.waitTimeout core slot))
      else s
    | _ => s

/-- The capacity of a unit's waiter list. -/
def State.listRoom (s : State) (loc : TsLoc) : Bool :=
  let u := s.tsUnit loc
  decide ((s.flight.waiters.filter fun e => e.2.listed.isSome && decide (s.tsUnit e.2.loc = u)).length <
    (if coreUnitOf loc then 64 else 1024))

/-- R236, R237: a condition is read at its home: its first reading is always answered, and it is listed, or polled
every 256 ticks where the list is full. -/
def State.readCond (s : State) (id : Nat) (w : Waiter) : State :=
  let v := s.tsVal w.loc
  let bad := s.tsBad w.loc (tagOf w.name)
  let ends := bad || outOfRange v w.threshold || satisfied v w.threshold
  if w.polled then
    (s.report id w v bad).at (s.tick + 256) (.turnstilePoll id)
  else if ends then s.report id w v bad
  else if s.listRoom w.loc then s.bump.report id { w with listed := some s.seq } v bad
  else (s.report id { w with polled := true } v bad).at (s.tick + 256) (.turnstilePoll id)

/-- Whose translation names the turnstile of a waiter again. -/
def WaiterOf.owner : WaiterOf → Owner
  | .troupe k _ => .troupe k
  | .port h _ _ => .hart h
  | _ => .engine 0

def execTurnstilePoll (waiter : Nat) (s : State) : Out :=
  .next <|
  match s.waiter? waiter with
  | none => s
  | some w =>
    if w.listed.isSome then s
    else match w.loc with
      | .peer p => (s.sendPeer (s.waiterLeaf w / 8) p w.part w.vf (.poll waiter)).at (s.tick + 256) (.turnstilePoll waiter)
      | _ =>
        if s.refusesTs w.part w.loc then s.countRefusal.report waiter w 0 true
        else if s.frozenTs w.loc then
          let m := s.movedTo w.who.owner (s.waiterLeaf w / 8) w.loc w.name
          let w1 := { w with loc := m.1, name := m.2 }
          (s.setWaiter waiter w1).later (.turnstilePoll waiter)
        else if s.countersAway w.loc || s.tsTested w.loc then s.later (.turnstilePoll waiter)
        else match s.tsMisses w.loc with
          | some line => (s.chanReq ⟨chargeVf w.vf, line, false, true⟩).later (.turnstilePoll waiter)
          | none => (s.tsTouch w.loc).readCond waiter w

/-- The designators and thresholds of a wait, or the first trap. -/
def State.nameConds (s : State) (c : Ctx) (sa n : Nat) : List (Except (BitVec 8 × Nat) Cond) :=
  (List.range n).map fun i =>
    let d : SReg := Fin.ofNat 64 (sa + 2 * i)
    let h : SReg := Fin.ofNat 64 (sa + 2 * i + 1)
    if c.t.sBad d then .error (causePoison, 0)
    else match s.name c.t.block c.blk (c.t.s d) with
      | .bad k a => .error (k, a)
      | .again line => .error (causeAgain, line)
      | .to loc name => .ok ⟨loc, name, c.t.s h, false, none⟩

/-- The timeout in ticks, none for ever, and its poison. -/
def Ctx.timeout (c : Ctx) (l : WaitLimit) : Option Nat × Bool :=
  match l with
  | .ticks n => (if n = BitVec.allOnes 22 then none else some n.toNat, false)
  | .reg r => (if c.t.s r = BitVec.allOnes 64 then none else some (c.t.s r).toNat, c.t.sBad r)

/-- R236: the wait keeps its pipe until the first test (R77). -/
def State.startWait (s : State) (c : Ctx) (w : WaitState) : State :=
  let t1 := { c.t with
    issue := none
    susp := .wait w
    frontier := s.enter c.key.core c.blk.regime c.t.frontier c.fallThrough c.mask }
  let s1 := { s.setTroupe c.key t1 with current := none }
  let s2 := s1.startConds (fun i => .troupe c.key.num i) w c.blk.regime.flowVf c.blk.regime.part
  match w.deadline with
  | some d => s2.at d (.waitTimeout c.key.core c.key.slot)
  | none => s2

def execWait (d sa : SReg) (n : Fin 4) (all : Bool) (limit : WaitLimit) (s : State) : Out :=
  onTroupe s fun c =>
    let k := n.val + 1
    s.whenReady c (.wait d sa n all limit) c.mask
      (let cs := s.nameConds c sa.val k
       match cs.findSome? fun e => match e with | .error x => some x | .ok _ => none with
       | some (cause, a) =>
         if cause = causeAgain then (s.noteRefusal a).stall c else s.raise c cause 0 (BitVec.ofNat 64 a) c.mask
       | none =>
         let (t, bad) := c.timeout limit
         let hBad := (List.range k).any fun i => c.t.sBad (Fin.ofNat 64 (sa.val + 2 * i + 1))
         s.startWait c ⟨cs.filterMap Except.toOption, all, true, t.map (s.tick + ·), d, bad || hBad⟩)

/-! waitout and fence (R240, R241). -/

def limitsMet (l : Limits) (c : Counters) : Bool :=
  let ok := fun (i : Nat) (n : Nat) (h : BitVec 4) => !l.mask.getLsbD i || decide (n ≤ h.toNat)
  ok 0 c.ld l.ld && ok 1 c.st l.st && ok 2 c.cp l.cp && ok 3 c.mx l.mx && ok 4 c.ni l.ni && ok 5 c.atc l.atc

/-- R240: a mask of zero acts as yield. -/
def execWaitout (l : Limits) (s : State) : Out :=
  onTroupe s fun c =>
    if l.mask = 0 then
      s.bump.endClause c { c.t with yielded := true, lastGrant := s.seq } [(c.fallThrough, c.mask)]
    else
      (s.endClause c { c.t with susp := .waitout l } [(c.fallThrough, c.mask)]).post
        (.waitoutComplete c.key.core c.key.slot)

def execWaitoutComplete (core slot : Nat) (s : State) : Out :=
  let k : TKey := ⟨core, slot⟩
  .next <|
  match s.troupe? k with
  | none => s
  | some t => match t.susp with
    | .waitout l =>
      if limitsMet l t.cnt then (s.setTroupe k { t with susp := .none }).reGrant k else s.later (.waitoutComplete core slot)
    | _ => s

def execFence (scope : Fin 8) (s : State) : Out :=
  onTroupe s fun c =>
    (s.endClause c { c.t with susp := .fence scope.val none } [(c.fallThrough, c.mask)]).post
      (.fenceComplete c.key.core c.key.slot)

/-- R241: drained, the release's write-backs answered, and the tick G reached. -/
def execFenceComplete (core slot : Nat) (s : State) : Out :=
  let k : TKey := ⟨core, slot⟩
  let again := Ev.fenceComplete core slot
  .next <|
  match s.troupe? k with
  | none => s
  | some t => match t.susp with
    | .fence scope none =>
      if t.cnt.ld ≠ 0 ∨ t.cnt.st ≠ 0 then s.later again
      else
        let s1 := (s.release (.troupe k.num) core t.block scope).2
        (s1.modTroupe k fun t => { t with susp := .fence scope (some s1.flight.nextId) }).post again
    | .fence scope (some n) =>
      let backs := if 5 ≤ scope then (s.clusterBacks core).filter fun i => decide (i < n) else []
      if backs.any fun i => !s.opDone i then s.later again
      else
        let g := Nat.max t.gwct (s.latestP backs)
        if s.tick < g then (s.setTroupe k { t with gwct := g }).at g again
        else (s.setTroupe k { t with susp := .none }).reGrant k
    | _ => s

end Sys2Proof.Machine
end

