-- ==== Sys2Proof/Machine/Copy.lean ====
section
/-! DEFINITION. Opcodes 0xAB to 0xAE and the events of the copy engine (R189, R242 to R253). The elements of a record are
read together from memory, and written a few lines a tick. -/

namespace Sys2Proof.Machine

/-! Transfer records (R243, R245, R248). -/

structure XRec where
  bits : Nat

def XRec.of (ws : List W64) : XRec := ⟨recBits ws 0 1024⟩
def XRec.f (r : XRec) (lo len : Nat) : Nat := bitsOf r.bits lo len
def XRec.tparam (r : XRec) : Nat := r.f 992 32
def XRec.amount (r : XRec) : Nat := r.f 960 32
def XRec.done (r : XRec) : W64 := BitVec.ofNat 64 (r.f 896 64)
def XRec.key (r : XRec) : Nat := r.f 864 32
def XRec.count (r : XRec) : Nat := r.f 832 32
def XRec.dst (r : XRec) : Nat := r.f 640 64
def XRec.dstride (r : XRec) (m : Nat) : Nat := r.f (672 + 32 * m) 32
def XRec.sstride (r : XRec) (m : Nat) : Nat := r.f (384 + 64 * m) 48
def XRec.extent (r : XRec) (m : Nat) : Nat := r.f (320 + 32 * m) 32
def XRec.sswz (r : XRec) : Nat := r.f 317 3
def XRec.ssp (r : XRec) : Bool := bitN r.bits 316
def XRec.esize (r : XRec) : Nat := r.f 313 3
def XRec.src (r : XRec) : Nat := r.f 256 57
def XRec.pmask (r : XRec) : Nat := r.f 192 64
def XRec.paddr (r : XRec) : Nat := r.f 128 57
def XRec.next (r : XRec) : Nat := r.f 64 57
def XRec.engine (r : XRec) : Bool := bitN r.bits 63
def XRec.xform (r : XRec) : Nat := r.f 44 4
def XRec.dkind (r : XRec) : Nat := r.f 42 2
def XRec.skip (r : XRec) : Bool := bitN r.bits 41
def XRec.ordered (r : XRec) : Bool := bitN r.bits 40
def XRec.scope (r : XRec) : Nat := r.f 37 3

/-- The first byte of the destination within its kind, its swizzle and its slot. -/
def XRec.dstAt (r : XRec) : Nat := if r.dkind = 0 then r.f 640 20 else if r.dkind = 1 then r.f 640 15 else r.f 640 57
def XRec.dswz (r : XRec) : Nat := r.f 660 3
def XRec.slot (r : XRec) : Nat := r.f 655 4

def XRec.ebytes (r : XRec) : Nat := 2 ^ r.esize
/-- The destination element size. -/
def XRec.de (r : XRec) : Nat := if r.xform = 1 then 32 else if r.xform = 2 then 1 else r.ebytes
def XRec.empty (r : XRec) : Bool := (List.range 4).any fun m => decide (r.extent m = 0)

/-- R245, first row: a field that must be zero is not. -/
def XRec.zeroBad (r : XRec) : Bool :=
  ([(800, 32), (624, 16), (560, 16), (496, 16), (185, 7), (121, 7), (56, 7), (0, 37)].any fun e =>
    decide (r.f e.1 e.2 ≠ 0)) ||
  (!r.ordered && (decide (r.key ≠ 0) || decide (r.count ≠ 0))) || (!r.skip && decide (r.paddr ≠ 0)) ||
  (!r.ssp && decide (r.sswz ≠ 0)) ||
  (match r.xform with
   | 0 => decide (r.tparam ≠ 0)
   | 1 => decide (r.tparam / 4 ≠ 0)
   | 2 => decide (r.tparam / 128 ≠ 0)
   | _ => decide (r.tparam / 8 ≠ 0)) ||
  (match r.dkind with
   | 0 => decide (r.f 663 41 ≠ 0)
   | 1 => decide (r.f 659 45 ≠ 0)
   | _ => decide (r.f 697 7 ≠ 0))

/-- R248: the conditions of a transform. -/
def XRec.formBad (r : XRec) : Bool :=
  match r.xform with
  | 0 => false
  | 1 => decide (r.esize ≠ 0)
  | 2 => decide (r.tparam % 4 = 3) || decide (4 < bitsOf r.tparam 4 3) ||
      decide (r.esize ≠ (if r.tparam % 4 = 0 then 2 else 1))
  | 3 => decide (r.dkind ≠ 2) || decide (5 < r.tparam % 8) || decide (r.esize ≠ [2, 1, 1, 3, 2, 3].getD (r.tparam % 8) 0)
  | _ => true

/-- R245: the rows that give SHAPE. -/
def XRec.shapeBad (r : XRec) : Bool :=
  r.zeroBad || decide (4 < r.esize) || decide (r.dkind = 3) || (r.ordered && decide (r.xform ≠ 3)) ||
  (r.ordered && (decide (r.count = 0) || decide (r.count ≤ r.key))) || r.formBad ||
  decide (r.sswz = 7) || (decide (r.dkind = 0) && decide (r.dswz = 7)) ||
  decide (r.src % r.ebytes ≠ 0) || decide (r.dstAt % r.de ≠ 0) ||
  ([1, 2, 3].any fun m => decide (1 < r.extent m) &&
    decide (r.dstride m < r.extent (m - 1) * (if m = 1 then r.de else r.dstride (m - 1))))

/-- The end of the bytes from a base, given the element size and the strides. -/
def XRec.span (r : XRec) (e : Nat) (stride : Nat → Nat) : Nat :=
  r.extent 0 * e + sumNat ([1, 2, 3].map fun m => (r.extent m - 1) * stride m)

/-- The offsets of every element at source and destination, dimension 0 innermost. -/
def XRec.elems (r : XRec) : List (Nat × Nat) :=
  (List.range (r.extent 3)).flatMap fun i3 => (List.range (r.extent 2)).flatMap fun i2 =>
    (List.range (r.extent 1)).flatMap fun i1 => (List.range (r.extent 0)).map fun i0 =>
      (i0 * r.ebytes + i1 * r.sstride 1 + i2 * r.sstride 2 + i3 * r.sstride 3,
        i0 * r.de + i1 * r.dstride 1 + i2 * r.dstride 2 + i3 * r.dstride 3)

def XRec.srcPages (r : XRec) : KeySet :=
  if r.ssp then [] else toKeys (r.elems.flatMap fun e => [(r.src + e.1) / 4096, (r.src + e.1 + r.ebytes - 1) / 4096])
def XRec.dstPages (r : XRec) : KeySet :=
  if r.dkind ≠ 2 then [] else toKeys (r.elems.flatMap fun e => [(r.dstAt + e.2) / 4096, (r.dstAt + e.2 + r.de - 1) / 4096])

def XRec.boundsBad (r : XRec) (b : Block) : Bool :=
  !r.empty && ((r.ssp && decide (b.d < r.src + r.span r.ebytes r.sstride)) ||
    (decide (r.dkind = 0) && decide (b.d < r.dstAt + r.span r.de r.dstride)) ||
    (decide (r.dkind = 1) && decide (32768 < r.dstAt + r.span r.de r.dstride)))

/-- R245: the rows before translation, with the cause that done has met under R227; 0 where they pass. -/
def XRec.check (r : XRec) (b : Block) (done : Option (BitVec 8)) : BitVec 8 :=
  if r.shapeBad then causeShape
  else match done with
    | some k => k
    | none =>
      if r.boundsBad b then causeBounds
      else if r.dkind = 1 ∧ b.opslots.length ≤ r.slot then causeSlot
      else 0

def Named.cause? : Named → Option (BitVec 8)
  | .bad k _ => some k
  | _ => none

/-- R227: what done fails of the checks that need no translation. -/
def State.doneFails (s : State) (bid : Nat) (b : Block) (d : W64) : Option (BitVec 8) :=
  if bitsOf d.toNat 57 7 = 0 then (if d.toNat % 8 ≠ 0 then some causeAlign else none) else (s.name bid b d).cause?

/-- R252: where the elements moved together from one on end: at the end of a 64-byte line of the destination, after 256
bytes or a little more (R242). An ORDERED record contributes to each of its lines once, so it moves whole. -/
def XRec.chunkEnd (r : XRec) (next : Nat) : Nat :=
  let es := r.elems
  let line := fun (e : Nat × Nat) => (r.dstAt + e.2) / 64
  let ends := ((es.zip (es.drop 1)).zipIdx).find? fun e =>
    decide (next + 256 / r.de ≤ e.2 + 1) && decide (line e.1.1 ≠ line e.1.2)
  if r.ordered then es.length else match ends with
    | some e => e.2 + 1
    | none => es.length

/-! Chains (R242, R246, R251, R252). -/

def stDone : BitVec 8 := 0x80
def stSkipped : BitVec 8 := 0x81
def stAborted : BitVec 8 := 0x82
def stNobook : BitVec 8 := 0x83

/-- The chains of a troupe, oldest first. -/
def State.chainsOf (s : State) (k : Nat) : List (Nat × Chain) := s.flight.chains.filter fun e => decide (e.2.troupe = k)

/-- R252: the last 64 chains of a troupe. -/
def lastChains (l : List (Nat × Chain)) : List (Nat × Chain) := l.drop (l.length - 64)

/-- States that are no longer kept. -/
def State.pruneChains (s : State) (k : Nat) : State :=
  let kept := (lastChains (s.chainsOf k)).map fun (e : Nat × Chain) => e.1
  let cs := s.flight.chains.filter fun e => decide (e.2.troupe ≠ k) || e.2.counted || kept.contains e.1
  s.setFlight { s.flight with chains := cs }

def newChain (c : Ctx) (a : Nat) (bad : Bool) : Chain :=
  ⟨c.key.num, c.t.block, c.key.core, c.t.chainNo, c.blk.regime, a, 0, if bad then .ended else .queued,
    if bad then .over else .fetch, [], 0, none, if bad then causePoison else 0, false, false, 0, [], [], 0, 0, true⟩

def State.startCopy (s : State) (c : Ctx) (d : SReg) (a : Nat) (bad : Bool) : State :=
  let (id, s1) := ((s.sendReq c.key.num d bad (.answer (c.t.chainNo.setWidth 64)) 1).2).newId
  let s2 := (s1.setChain id (newChain c a bad)).pruneChains c.key.num
  let t1 := { c.t.pendS d with chainNo := c.t.chainNo + 1 }
  let s3 := s2.advance c (t1.count fun n => { n with cp := n.cp + 1 })
  if bad then s3.later (.chainEnd id) else s3.laterOnce (.chainStart c.key.core)

def execCopy (d sa : SReg) (s : State) : Out :=
  onTroupe s fun c =>
    let a := (c.t.s sa).toNat
    s.whenReady c (.copy d sa) c.mask
      (if c.split then s.raiseSplit c
       else if fullCounter c.t.cnt.cp then s.stall c
       else if c.t.sBad sa then s.startCopy c d 0 true
       else if a % 128 ≠ 0 ∨ 2 ^ 57 ≤ a then s.raise c causeAlign 0 (BitVec.ofNat 64 a) c.mask
       else s.startCopy c d a false)

/-- R252: what cpstat reads. -/
def chainWord (x : Chain) : Nat :=
  match x.state with
  | .queued => 1 * 2 ^ 58
  | .active => 2 * 2 ^ 58 + bitsOf x.addr 7 50
  | .ended => 3 * 2 ^ 58 + x.endCode.toNat * 2 ^ 50 + bitsOf x.last 7 50

def State.findChain (s : State) (k : Nat) (num : W64) : Option (Nat × Chain) :=
  (lastChains (s.chainsOf k)).find? fun e => decide (e.2.num = num.setWidth 16)

def execCpstat (d sa : SReg) (s : State) : Out :=
  onTroupe s fun c =>
    s.whenReady c (.cpstat d sa) c.mask (s.ask c d (c.t.sBad sa) (.cpstat (c.t.s sa)) 1)

/-- R252: what the engine answers to cpstat. -/
def State.chainAnswer (s : State) (troupe : Nat) (sel : W64) : W64 :=
  match s.findChain troupe sel with
  | some (_, x) => BitVec.ofNat 64 (chainWord x)
  | none => 0

def State.abortChain (s : State) (id : Nat) : State :=
  s.modChain id fun x => if x.state = .ended then x else { x with aborting := true }

def execCpabort (chain : Option SReg) (s : State) : Out :=
  onTroupe s fun c =>
    let ids := match chain with
      | none => (s.chainsOf c.key.num).map fun (e : Nat × Chain) => e.1
      | some r => ((s.findChain c.key.num (c.t.s r)).map fun (e : Nat × Chain) => e.1).toList
    s.whenReady c (.cpabort chain) c.mask ((ids.foldl State.abortChain s).advance c c.t)

/-- R242: a free channel takes the oldest queued chain of the troupe that comes first by R176. -/
def State.nextChain (s : State) (core : Nat) : Option (Nat × Chain) :=
  let mine := s.flight.chains.filter fun (e : Nat × Chain) => decide (e.2.core = core)
  let queued := mine.filter fun (e : Nat × Chain) => decide (e.2.state = .queued) && (match s.block? e.2.block with
    | some b => decide (b.state = .running)
    | none => false)
  let slots := toKeys (queued.map fun (e : Nat × Chain) => e.2.troupe % 32)
  let best := bestGrant (slots.map fun sl =>
    let k : TKey := ⟨core, sl⟩
    let served := maxList ((mine.filter fun (e : Nat × Chain) => decide (e.2.troupe = k.num)).map fun e => e.2.served)
    ((match s.troupe? k with | some t => s.borrowedSlot t sl | none => false), served, sl))
  match best with
  | some sl => queued.find? fun e => decide (e.2.troupe = 32 * core + sl)
  | none => none

def execChainStart (core : Nat) (s : State) : Out :=
  .next <|
  let busy := (s.flight.chains.filter fun e => decide (e.2.core = core) && decide (e.2.state = .active)).length
  if 4 ≤ busy then s
  else match s.nextChain core with
    | some (id, x) =>
      ((s.setChain id { x with state := .active, served := s.seq }).bump.post (.recordRead id)).postOnce (.chainStart core)
    | none =>
      if s.flight.chains.any fun e => decide (e.2.core = core) && decide (e.2.state = .queued) then
        s.laterOnce (.chainStart core)
      else s

/-! What the engine reads and writes. -/

def engineOp (id : Nat) (x : Chain) (k : MemKind) (w : Width) (lease : Nat) (accs : List TaggedAcc) : MemOp :=
  ⟨.chain id, k, w, none, x.core, x.block, x.regime, 6, lease, 3, none, partsOf accs, false⟩

def State.engineSend (s : State) (o : MemOp) : Nat × State :=
  let (id, s1) := s.newId
  (id, o.parts.foldl (fun s p => s.sendPart id p.line) (s1.setOp id o))

/-- The words at an address, without a lease. -/
def State.engineRead (s : State) (id : Nat) (x : Chain) (va n : Nat) : Except XFault (Nat × State) :=
  match s.xlate (coreSlice x.core) x.regime va needR with
  | (.error f, _) => .error f
  | (r, s1) => match xAddr r 0 with
    | none => .error ⟨causePageS1, false, 0⟩
    | some (d, tag) =>
      .ok (s1.engineSend (engineOp id x .record .b64 noLease
        ((List.range n).map fun i => ⟨va + 8 * i, tag, ⟨i, d + 8 * i, 0, 0, false⟩⟩)))

/-- R187, R359: a home refused a table entry of a translation with RETRY; what needed it is done again. -/
def State.tryAgain (s : State) (lines : List Nat) (e : Ev) : State := (lines.foldl State.noteRefusal s).later e

/-- What a read that failed does: it is tried again, or ends as f says. -/
def State.readFailed (s : State) (k : XFault) (again : Ev) (f : State → BitVec 8 → State) : State :=
  if k.cause = causeAgain then s.tryAgain [k.gpa] again else f s k.cause

/-- The values of a read that is back, by their order in it. -/
def State.takeRead (s : State) (op : Nat) : Option (List LaneAcc × State) :=
  match s.op? op with
  | none => some ([], s)
  | some o => if o.complete then some (o.parts.flatMap (·.out), s.delOp op) else none

/-! The walk (R246). -/

/-- The walk is over. -/
def State.stopChain (s : State) (id : Nat) (x : Chain) (code : BitVec 8) : State :=
  ((s.setChain id { x with state := .ended, phase := .over, endCode := code }).post (.chainEnd id)).postOnce
    (.chainStart x.core)

/-- The record's status is fixed, and is to be stored. -/
def State.toStatus (s : State) (id : Nat) (x : Chain) (st : BitVec 8) : State :=
  ((s.setChain id { x with phase := .write, status := st }).post (.recordMoveEnd id)).countCause st

/-- The next record. -/
def State.nextRecord (s : State) (id : Nat) (x : Chain) : State :=
  let a := (XRec.of x.words).next
  if x.stopAfter || decide (a = 0) then s.stopChain id x x.endCode
  else (s.setChain id { x with phase := .fetch, addr := a, ops := [], status := 0 }).post (.recordRead id)

/-- R189: entries of the scoreboard for a record. -/
def XRec.entries (r : XRec) (b : Block) (bid chain : Nat) : List SbEntry :=
  if r.empty then []
  else
    let range := fun (as : List Nat) => ((minNat as).getD 0, maxList as)
    let src := range ((r.elems.flatMap fun e => spBytes b.g0 r.sswz (r.src + e.1) r.ebytes))
    let dst := range ((r.elems.flatMap fun e => spBytes b.g0 r.dswz (r.dstAt + e.2) r.de))
    let slot := opAddr b r.slot r.dstAt
    (if r.ssp then [⟨bid, false, src.1, src.2, false, chain⟩] else []) ++
    (if r.dkind = 0 then [⟨bid, false, dst.1, dst.2, true, chain⟩]
     else if r.dkind = 1 then [⟨bid, true, slot, slot + r.span r.de r.dstride - 1, true, chain⟩] else [])

def State.freeEntries (s : State) (core chain : Nat) (dest : Bool) : State :=
  let c := s.core core
  s.setCore core { c with sb := c.sb.filter fun e => decide (e.chain ≠ chain) || decide (e.dest ≠ dest) }

/-- R189: accesses of the block that were accepted before the record and are not done: over the crossbar, or in the
matrix unit at the slot. -/
def State.earlierAccess (s : State) (x : Chain) (r : XRec) : Bool :=
  (s.flight.mem.any fun e => decide (e.1 < x.startNo) && decide (e.2.block = x.block) && e.2.target.isSome &&
    e.2.parts.any fun p => !p.performed) ||
  (decide (r.dkind = 1) && (s.core x.core).mx.any fun o =>
    (match s.troupe? (keyOf o.troupe) with | some t => decide (t.block = x.block) | none => false) &&
    o.work.slots.contains r.slot)

/-- R251: a load of the record's book that was accepted before it. -/
def State.bookLoading (s : State) (x : Chain) (r : XRec) : Bool :=
  decide (r.xform = 1) && s.flight.books.any fun e => decide (e.1 < x.startNo) && decide (e.2.block = x.block) &&
    (match sfind e.2.store (s.core x.core).books with
     | some k => decide (k.num = r.tparam % 4)
     | none => false)

def State.bookOf (s : State) (x : Chain) (r : XRec) : Option Book :=
  ((s.core x.core).books.find? fun e => decide (e.2.block = x.block) && decide (e.2.num = r.tparam % 4) && e.2.ok).map
    (·.2)

/-- R249: the lines that the destination shape touches and whose pages translate, with their virtual addresses. -/
def XRec.dstLines (r : XRec) (pages : List (Nat × Except XFault XTo)) : List (Nat × Nat) :=
  let ends := r.elems.flatMap fun e => [r.dstAt + e.2, r.dstAt + e.2 + r.de - 1]
  let xs := ends.filterMap fun a => (xAddr (pageResult pages a) a).map fun x => (x.1 / 64, a / 64 * 64)
  (toKeys (xs.map (·.1))).filterMap fun l => xs.find? fun (e : Nat × Nat) => decide (e.1 = l)

def State.contribute (s : State) (id : Nat) (x : Chain) (r : XRec) (p : Part) : State :=
  let (k, s1) := s.newId
  let w : Width := if r.ebytes = 2 then .b16 else if r.ebytes = 4 then .b32 else .b64
  let c : Contrib := ⟨id, p, r.tparam % 8, w, r.key, r.count, 0⟩
  (s1.setFlight { s1.flight with contribs := sset k c s1.flight.contribs }).send (coreLeaf x.core) (homeLeaf p.line) .req
    (.reduceContribution k)

/-- R249: an ORDERED record that moves nothing sends its empty contributions; where a table entry is refused with RETRY,
the event comes again. -/
def State.emptyContribs (s : State) (id : Nat) (x : Chain) (r : XRec) (again : Ev) (k : State → State) : State :=
  match s.block? x.block with
  | none => k s
  | some b =>
    if !r.ordered || decide (r.check b (s.doneFails x.block b r.done) ≠ 0) then k s
    else
      let (pages, s1) := s.xlatePages (coreSlice x.core) x.regime needW r.dstPages
      if xAgain pages ≠ [] then s1.tryAgain (xAgain pages) again
      else k ((r.dstLines pages).foldl
        (fun s l => s.contribute id x r ⟨l.1, some l.2, 0, [], .sent, [], none, false⟩) s1)

/-- A record that moves nothing takes its status. -/
def State.recordFails (s : State) (id : Nat) (x : Chain) (st : BitVec 8) : State :=
  s.toStatus id x st

/-- R245: the checks of a record, then its elements start on their way. -/
def State.beginRecord (s : State) (id : Nat) (x : Chain) : State :=
  let r := XRec.of x.words
  match s.block? x.block with
  | none => s.stopChain id x x.endCode
  | some b =>
    let done := s.name x.block b r.done
    let k := r.check b done.cause?
    if k ≠ 0 then s.recordFails id x k
    else
      let (sp, s1) := s.xlatePages (coreSlice x.core) x.regime needR r.srcPages
      let (dp, s2) := s1.xlatePages (coreSlice x.core) x.regime needW r.dstPages
      let bad := (sp ++ dp).findSome? fun e => match e.2 with
        | .error f => some f.cause
        | .ok _ => none
      if xAgain (sp ++ dp) ≠ [] then s2.tryAgain (xAgain (sp ++ dp)) (.recordRead id)
      else match bad with
      | some k => s2.recordFails id x k
      | none =>
        let es := r.entries b x.block id
        let co := s2.core x.core
        if 32 < co.sb.length + es.length then s2.later (.recordRead id)
        else
          let s3 := s2.setCore x.core { co with sb := co.sb ++ es }
          let x1 := { x with startNo := s3.flight.nextId }
          if r.ssp || r.empty then (s3.setChain id { x1 with phase := .move none }).post (.recordMoveEnd id)
          else
            let accs := (r.elems.zipIdx).flatMap fun e => (List.range r.ebytes).filterMap fun j =>
              (xAddr (pageResult sp (r.src + e.1.1 + j)) (r.src + e.1.1 + j)).map fun y =>
                TaggedAcc.mk (r.src + e.1.1 + j) y.2 ⟨e.2 * r.ebytes + j, y.1, 0, 0, false⟩
            let (op, s4) := s3.engineSend (engineOp id x1 .record .b8 1 accs)
            (s4.setChain id { x1 with phase := .move (some op) }).post (.recordMoveEnd id)

/-- R253: a chain starts no further record while its block is halted or its troupe waits to be saved. -/
def State.parks (s : State) (x : Chain) : Bool :=
  (match s.block? x.block with
   | some b => decide (b.state ≠ .running) && decide (b.state ≠ .ending)
   | none => false) ||
  (match s.troupe? (keyOf x.troupe) with
   | some t => (match t.susp with | .pageFault .. => true | _ => false)
   | none => false)

/-- The record in hand is read: to whom it belongs. -/
def State.recordIn (s : State) (id : Nat) (x : Chain) (out : List LaneAcc) : State :=
  let ws := out.map fun a => BitVec.ofNat 64 a.val
  let r := XRec.of ws
  let x1 := { x with words := ws, last := x.addr }
  if out.any (·.poison) then s.stopChain id x causePoison
  else if !r.engine then s.stopChain id x1 x.endCode
  else (s.setChain id { x1 with phase := .named }).post (.recordRead id)

/-- The record is the engine's: its completion turnstile, whether it is walked in aborting mode, and its predicate. -/
def State.recordNamed (s : State) (id : Nat) (x : Chain) : State :=
  let r := XRec.of x.words
  match (s.block? x.block).map fun b => s.name x.block b r.done with
  | some (.again line) => s.tryAgain [line] (.recordRead id)
  | named =>
    let x1 := { x with done := match named with
      | some (.to l n) => some (l, n)
      | _ => none }
    if x.aborting then s.emptyContribs id x1 r (.recordRead id) fun s => s.recordFails id x1 stAborted
    else if !r.skip then (s.setChain id { x1 with phase := .begin }).post (.recordRead id)
    else if r.paddr % 8 ≠ 0 then s.recordFails id x1 causeAlign
    else match s.engineRead id x r.paddr 1 with
      | .error k => s.readFailed k (.recordRead id) fun s k => s.recordFails id x1 k
      | .ok (op, s1) => (s1.setChain id { x1 with phase := .predicate op }).later (.recordRead id)

def State.predicateIn (s : State) (id : Nat) (x : Chain) (out : List LaneAcc) : State :=
  let r := XRec.of x.words
  let v := match out with
    | a :: _ => a.val
    | [] => 0
  if out.any (·.poison) then s.recordFails id x causePoison
  else if v &&& r.pmask = 0 then s.recordFails id x stSkipped
  else (s.setChain id { x with phase := .begin }).post (.recordRead id)

def execRecordRead (chain : Nat) (s : State) : Out :=
  .next <|
  match s.chain? chain with
  | none => s
  | some x => match x.phase with
    | .fetch =>
      if s.parks x then s.later (.recordRead chain)
      else if x.addr % 128 ≠ 0 then s.stopChain chain x causeAlign
      else match s.engineRead chain x x.addr 16 with
        | .error k => s.readFailed k (.recordRead chain) fun s k => (s.countCause k).stopChain chain x k
        | .ok (op, s1) => (s1.setChain chain { x with phase := .record op }).later (.recordRead chain)
    | .record op => match s.takeRead op with
      | some (out, s1) => s1.recordIn chain x out
      | none => s.later (.recordRead chain)
    | .named => s.recordNamed chain x
    | .predicate op => match s.takeRead op with
      | some (out, s1) => s1.predicateIn chain x out
      | none => s.later (.recordRead chain)
    | .begin => s.beginRecord chain x
    | _ => s

/-! Moving (R246 to R249). -/

/-- One destination element: its offset, its bytes and their poison. -/
structure Piece where
  off : Nat
  bytes : List Byte
  poison : Bool

/-- R248: the value an element becomes. -/
def XRec.convert (r : XRec) (book : Option Book) (v : Nat) (bad : Bool) : List Byte × Bool :=
  match r.xform with
  | 1 => match book with
    | some k => ((List.range 32).map fun i => sget 0 (32 * v + i) k.bytes, bad || kmem v k.poison)
    | none => ([], bad)
  | 2 =>
    let f := [fp32, fp16, bf16].getD (r.tparam % 4) fp32
    let rm := [Rounding.rne, .rtz, .rdn, .rup, .rna].getD (bitsOf r.tparam 4 3) .rne
    (leBytes 1 ((fp8 (bitN r.tparam 2)).round rm false (bitN r.tparam 3) 0 (f.decode v)), bad)
  | _ => (leBytes r.ebytes v, bad)

/-- The source elements of a record in the scratchpad. -/
def State.scratchElems (s : State) (x : Chain) (r : XRec) (b : Block) : List (Nat × Nat × Bool) :=
  let co := s.core x.core
  r.elems.map fun e =>
    let as := spBytes b.g0 r.sswz (r.src + e.1) r.ebytes
    (e.2, co.val as, co.badAt as)

/-- The source elements of a read that came back byte by byte. -/
def globalElems (r : XRec) (out : List LaneAcc) : List (Nat × Nat × Bool) :=
  (r.elems.zipIdx).map fun e =>
    let mine := (List.range r.ebytes).filterMap fun j => out.find? fun a => decide (a.lane = e.2 * r.ebytes + j)
    (e.1.2, leVal (mine.map fun a => BitVec.ofNat 8 a.val), mine.any (·.poison))

/-- The pages of the destination that some pieces lie in. -/
def XRec.piecePages (r : XRec) (ps : List Piece) : KeySet :=
  if r.dkind ≠ 2 then []
  else toKeys (ps.flatMap fun p => [(r.dstAt + p.off) / 4096, (r.dstAt + p.off + p.bytes.length - 1) / 4096])

/-- An element of a REDUCE_ADD, which can straddle two lines. -/
def XRec.addAcc (r : XRec) (at_ : Nat → Option (Nat × Nat)) (i : Nat) (p : Piece) : Option TaggedAcc :=
  let a := r.dstAt + p.off
  let second := if 64 < a % 64 + r.de then ((at_ (a / 64 * 64 + 64)).map (·.1)).getD 0 else 0
  (at_ a).map fun y => TaggedAcc.mk a y.2 ⟨i, y.1, leVal p.bytes, second, p.poison⟩

/-- The destination is written: bytes of the core at once, lines as stores or contributions. -/
def State.writePieces (s1 : State) (id : Nat) (x : Chain) (r : XRec) (b : Block) (pages : List (Nat × Except XFault XTo))
    (ps : List Piece) : State :=
  let s := s1
  let co := s.core x.core
  match r.dkind with
  | 0 =>
    let xs := ps.map fun p => (spBytes b.g0 r.dswz (r.dstAt + p.off) p.bytes.length, p)
    let c1 := xs.foldl (fun c e => c.store e.1 (leVal e.2.bytes)) co
    s.setCore x.core { c1 with uaPoison := poisonWords co.uaPoison (xs.map fun e => (e.1, e.2.poison)) }
  | 1 => s.setCore x.core (co.opStore (ps.map fun p => (opAddr b r.slot (r.dstAt + p.off), p.bytes, p.poison)))
  | _ =>
    let at_ := fun a => xAddr (pageResult pages a) a
    if r.xform = 3 then
      let accs := (ps.zipIdx).filterMap fun e => r.addAcc at_ e.2 e.1
      let own := partsOf accs
      if r.ordered then
        -- a line that holds only the end of an element gets its key with nothing to add
        let rest := (r.dstLines pages).filter fun l => own.all fun p => decide (p.line ≠ l.1)
        (own ++ rest.map fun l => Part.mk l.1 (some l.2) 0 [] .sent [] none false).foldl
          (fun s p => s.contribute id x r p) s1
      else
        let w : Width := if r.ebytes = 2 then .b16 else if r.ebytes = 4 then .b32 else .b64
        let (op, s2) := s1.engineSend (engineOp id x (.reduce (r.tparam % 8)) w 1 accs)
        s2.modChain id fun y => { y with ops := y.ops ++ [op] }
    else
      let accs := ps.flatMap fun p => (p.bytes.zipIdx).filterMap fun e => (at_ (r.dstAt + p.off + e.2)).map fun y =>
        TaggedAcc.mk (r.dstAt + p.off + e.2) y.2 ⟨p.off + e.2, y.1, e.1.toNat, 0, p.poison⟩
      let (op, s2) := s1.engineSend (engineOp id x .store .b8 1 accs)
      s2.modChain id fun y => { y with ops := y.ops ++ [op] }

/-- The source of a record is done with: its read goes, and its entry of the scoreboard. -/
def State.endMove (s : State) (id : Nat) (x : Chain) (op : Option Nat) (st : BitVec 8) : State :=
  let s1 := match op with
    | some o => s.delOp o
    | none => s
  (s1.freeEntries x.core id false).toStatus id x st

/-- Some elements are at the engine: they are transformed and written, and the next ones follow a tick later. -/
def State.moveChunk (s : State) (id : Nat) (x : Chain) (r : XRec) (b : Block) (op : Option Nat) (next : Nat)
    (es : List (Nat × Nat × Bool)) : State :=
  let again := Ev.recordMoveEnd id
  let last := r.chunkEnd next
  let ps := ((es.take last).drop next).map fun e => let y := r.convert (s.bookOf x r) e.2.1 e.2.2; Piece.mk e.1 y.1 y.2
  let (pages, s1) := s.xlatePages (coreSlice x.core) x.regime needW (r.piecePages ps)
  if xAgain pages ≠ [] then s1.tryAgain (xAgain pages) again
  else
    let s2 := if ps.isEmpty then s1 else s1.writePieces id x r b pages ps
    match s2.chain? id with
    | none => s2
    | some y =>
      if es.length ≤ last then s2.endMove id y op stDone
      else (s2.setChain id { y with phase := .moving op last }).later again

/-- R252: a record that moves; one that is aborted stops where it is, and the bytes already written remain. -/
def State.moveOn (s : State) (id : Nat) (x : Chain) (r : XRec) (op : Option Nat) (next : Nat) : State :=
  match s.block? x.block with
  | none => s.stopChain id x x.endCode
  | some b =>
    if x.aborting then
      if next = 0 then s.emptyContribs id x r (.recordMoveEnd id) fun s => s.endMove id x op stAborted
      else s.endMove id x op stAborted
    else if r.xform = 1 && (s.bookOf x r).isNone then s.endMove id x op stNobook
    else if r.empty then s.endMove id x op stDone
    else match op with
      | none => s.moveChunk id x r b op next (s.scratchElems x r b)
      | some o => s.moveChunk id x r b op next (globalElems r (((s.op? o).map fun o => o.parts.flatMap (·.out)).getD []))

/-- R247: everything a record wrote has been acknowledged. -/
def State.written (s : State) (id : Nat) (x : Chain) : Bool :=
  x.ops.all (fun o => s.opDone o) && !(s.flight.contribs.any fun e => decide (e.2.chain = id))

/-- A cause code of R81, or NOBOOK: the walk goes on in aborting mode. -/
def failing (st : BitVec 8) : Bool := decide (st ≠ 0 ∧ st.toNat < 0x80) || decide (st = stNobook)

/-- R244: the status store; where it fails the walk stops after this record. -/
def State.storeStatus (s : State) (id : Nat) (x : Chain) : State :=
  let st := if x.aborting && decide (x.status = stDone) then stAborted else x.status
  let x1 := { x with
    phase := .status
    status := st
    ops := []
    aborting := x.aborting || failing st
    endCode := if failing st && decide (x.endCode = 0) then st else x.endCode }
  let w := BitVec.ofNat 64 (putBits (dword x.words 0 % 2 ^ 63) 48 8 st.toNat)
  let fail := fun (s : State) (k : BitVec 8) =>
    (s.setChain id { x1 with stopAfter := true, endCode := if x1.endCode = 0 then k else x1.endCode }).post (.recordMoveEnd id)
  match s.xlate (coreSlice x.core) x.regime x.addr needW with
  | (.error f, s1) => s1.readFailed f (.recordMoveEnd id) fail
  | (r, s1) => match xAddr r 0 with
    | none => fail s1 causePageS1
    | some (d, tag) =>
      let (op, s2) := s1.engineSend (engineOp id x .store .b64 1 [⟨x.addr, tag, ⟨0, d, w.toNat, 0, false⟩⟩])
      (s2.setChain id { x1 with ops := [op] }).later (.recordMoveEnd id)

def execRecordMoveEnd (chain : Nat) (s : State) : Out :=
  .next <|
  match s.chain? chain with
  | none => s
  | some x =>
    let r := XRec.of x.words
    match x.phase with
    | .move op =>
      if s.earlierAccess x r || s.bookLoading x r || !(op.all s.opDone) then s.later (.recordMoveEnd chain)
      else s.moveOn chain x r op 0
    | .moving op next => s.moveOn chain x r op next
    | .write =>
      if s.written chain x then (s.freeEntries x.core chain true).storeStatus chain x else s.later (.recordMoveEnd chain)
    | .status =>
      if !s.written chain x then s.later (.recordMoveEnd chain)
      else if x.status = stSkipped ∨ x.done = none then s.nextRecord chain x
      else (s.setChain chain { x with phase := .add }).post (.completionAdd chain)
    | _ => s

/-- The scope of a completion add (R232, R243). -/
def XRec.addScope (r : XRec) : Nat :=
  if r.scope ≠ 0 then r.scope else match r.done.toNat / 2 ^ 62 with
    | 1 => 3
    | 2 => 4
    | _ => 6

/-- R250: an acknowledged add lets the next one go; the walk goes on. -/
def execCompletionAdd (chain : Nat) (s : State) : Out :=
  .next <|
  match s.chain? chain with
  | none => s
  | some x =>
    let left := x.adds.filter fun a => match s.ts? a with
      | some o => !o.acked
      | none => false
    let x1 := { x with adds := left }
    match x.phase, x.done with
    | .add, some (loc, va) =>
      if !left.isEmpty then s.setChain chain x1
      else
        let r := XRec.of x.words
        let (id, s1) := s.newId
        let o : TsOp := ⟨.chain chain, .add, loc, va, BitVec.ofNat 64 r.amount, r.addScope, none, .held, 0, [], false, none,
          x.regime.flowVf, x.regime.part⟩
        let x2 := { x1 with adds := [id] }
        ((s1.setTs id o).nextRecord chain x2).post (.heldReleaseSend id)
    | .over, _ => (s.setChain chain x1).post (.chainEnd chain)
    | _, _ => s.setChain chain x1

/-- R251: CP falls when the walk has ended and every add is acknowledged. -/
def execChainEnd (chain : Nat) (s : State) : Out :=
  .next <|
  match s.chain? chain with
  | none => s
  | some x =>
    if x.phase = .over ∧ x.adds = [] ∧ x.counted = true then
      (s.setChain chain { x with counted := false }).modTroupe (keyOf x.troupe) fun t =>
        t.count fun c => { c with cp := c.cp - 1 }
    else s

/-! Ordered reductions (R249). -/

def Ordering.none : Ordering := ⟨0, 0, []⟩
def State.ordering (s : State) (line : Nat) : Ordering := sget Ordering.none line s.homes.ordering
def State.setOrdering (s : State) (line : Nat) (o : Ordering) : State :=
  s.setHomes { s.homes with ordering := sput Ordering.none line o s.homes.ordering }

/-- A contribution is applied: its elements are one write of the line, which the home admits in this order (R34). -/
def State.applyContrib (s : State) (id : Nat) (c : Contrib) : State :=
  let s1 := s.setFlight { s.flight with contribs := sdel id s.flight.contribs }
  match s1.chain? c.chain with
  | none => s1
  | some x =>
    if c.part.accs.isEmpty then s1
    else
      let (op, s2) := s1.newId
      let o : MemOp := { engineOp c.chain x (.reduce c.fmt) c.width 1 [] with parts := [c.part] }
      ((s2.setOp op o).setChain c.chain { x with ops := x.ops ++ [op] }).admitWrite op c.part.line o

def State.contrib? (s : State) (id : Nat) : Option Contrib := sfind id s.flight.contribs

/-- Held contributions whose key has come, n of them at most. -/
def State.applyHeld (s : State) (line : Nat) : Nat → State
  | 0 => s
  | n + 1 =>
    let o := s.ordering line
    match o.held.find? fun h => match s.contrib? h with
      | some c => decide (c.key = o.next)
      | none => false
    with
    | some h => match s.contrib? h with
      | some c =>
        ((s.applyContrib h c).setOrdering line ⟨o.next + 1, o.applied + 1, o.held.filter (· ≠ h)⟩).applyHeld line n
      | none => s
    | none => s

/-- R249, R310: a refused contribution is sent again once the RETRY is back. -/
def State.contribAgain (s : State) (id : Nat) (c : Contrib) : State :=
  let src := match s.chain? c.chain with
    | some x => coreSlice x.core
    | none => lineSlice c.part.line
  s.at (s.tick + 2 * latency src (lineSlice c.part.line)) (.reduceContribution id)

/-- R249: one contribution at its home. -/
def State.takeContrib (s : State) (id : Nat) (c : Contrib) : State :=
  let line := c.part.line
  let o := s.ordering line
  if c.key ≤ o.next then
    let s1 := (s.applyContrib id c).setOrdering line
      ⟨if c.key = o.next then o.next + 1 else o.next, o.applied + 1, o.held⟩
    let s2 := s1.applyHeld line o.held.length
    let o2 := s2.ordering line
    if o2.applied = c.count then s2.setOrdering line ⟨0, 0, o2.held⟩ else s2
  else
    let lines := (s.homes.ordering.filter fun e => decide (e.2.held ≠ []) && decide (agentOf e.1 = agentOf line)).length
    if o.held = [] ∧ 256 ≤ lines then s.contribAgain id c
    else
      ((s.setFlight { s.flight with contribs := sset id { c with since := s.tick } s.flight.contribs }).setOrdering line
        { o with held := o.held ++ [id] }).at (s.tick + 65536) (.heldContributionTimeout line)

/-- A frozen or PINNED line refuses a contribution, which is repeated through the translation as it stands. -/
def State.redirectContrib (s : State) (id : Nat) (c : Contrib) : State :=
  let p := match s.chain? c.chain, c.part.va with
    | some x, some va => match s.xlateOf (coreSlice x.core) x.regime va needW with
      | .ok (.mem d tag) =>
        let move := fun (a : LaneAcc) => { a with addr := d / 64 * 64 + a.addr % 64 }
        { c.part with line := d / 64, tag := tag, accs := c.part.accs.map move }
      | _ => c.part
    | _, _ => c.part
  (s.setFlight { s.flight with contribs := sset id { c with part := p } s.flight.contribs }).contribAgain id c

/-- R328: whether the firewall of the line's slice drops a contribution. -/
def State.refusesContrib (s : State) (c : Contrib) : Bool :=
  match s.chain? c.chain with
  | some x => s.refusesOp (engineOp c.chain x (.reduce c.fmt) c.width 1 []) c.part.line
  | none => false

def execReduceContribution (contrib : Nat) (s : State) : Out :=
  .next <|
  match s.contrib? contrib with
  | none => s
  | some c =>
    if (s.ordering c.part.line).held.contains contrib then s
    else if s.refusesContrib c then s.countRefusal.setFlight { s.flight with contribs := sdel contrib s.flight.contribs }
    else if s.homeTested c.part.line then s.contribAgain contrib c
    else if s.isFrozen c.part.line then s.redirectContrib contrib c
    else if (sfind c.part.line s.homes.pins).isSome then (s.noteRefusal c.part.line).redirectContrib contrib c
    else s.takeContrib contrib c

/-- The held contributions of a line in ascending key order, n of them at most. -/
def State.applyAll (s : State) (line : Nat) : Nat → State
  | 0 => s
  | n + 1 =>
    let o := s.ordering line
    match leastBy (fun (e : Nat × Contrib) => e.2.key) (o.held.filterMap fun h => (s.contrib? h).map fun c => (h, c)) with
    | some (h, c) => ((s.applyContrib h c).setOrdering line { o with held := o.held.filter (· ≠ h) }).applyAll line n
    | none => s

def execHeldContributionTimeout (line : Nat) (s : State) : Out :=
  .next <|
  let o := s.ordering line
  let late := o.held.any fun h => match s.contrib? h with
    | some c => decide (c.since + 65536 ≤ s.tick)
    | none => false
  if !late then s
  else if s.isFrozen line || s.homeTested line || (sfind line s.homes.pins).isSome then
    s.later (.heldContributionTimeout line)
  else (s.applyAll line o.held.length).setOrdering line Ordering.none

/-! Codebooks (R251). -/

/-- The store a cbload takes: the one of this block and number, or a free one. -/
def State.bookStore (s : State) (core block num : Nat) : Option Nat :=
  let bs := (s.core core).books
  match bs.find? fun e => decide (e.2.block = block) && decide (e.2.num = num) with
  | some e => some e.1
  | none => (List.range 4).find? fun i => (sfind i bs).isNone

def State.setBook (s : State) (core i : Nat) (b : Book) : State :=
  s.setCore core { s.core core with books := sset i b (s.core core).books }

def execCbload (n : Fin 4) (d sa : SReg) (s : State) : Out :=
  onTroupe s fun c =>
    let a := (c.t.s sa).toNat
    s.whenReady c (.cbload n d sa) c.mask
      (if c.split then s.raiseSplit c
       else if a % 64 ≠ 0 then s.raise c causeAlign 0 (BitVec.ofNat 64 a) c.mask
       else match s.bookStore c.key.core c.t.block n.val with
        | none => s.ask c d (c.t.sBad sa) (.answer 1) 1
        | some i =>
          if fullCounter c.t.cnt.cp then s.stall c
          else
            let (id, s1) := s.newId
            let old := sget ⟨c.t.block, n.val, [], [], true, false⟩ i (s.core c.key.core).books
            let l : BookLoad := ⟨c.key.num, c.key.core, c.t.block, i, a, d, c.t.sBad sa, none⟩
            let s2 := (s1.setBook c.key.core i { old with loading := true }).setFlight
              { s1.flight with books := sset id l s1.flight.books }
            (s2.advance c ((c.t.pendS d).count fun k => { k with cp := k.cp + 1 })).later (.cbloadEnd id))

/-- A load ends: sD := 0 or the cause, and CP falls. -/
def State.endBook (s : State) (id : Nat) (l : BookLoad) (book : Book) (cause : BitVec 8) : State :=
  let s1 := (s.setBook l.core l.store book).setFlight { s.flight with books := sdel id s.flight.books }
  s1.modTroupe (keyOf l.troupe) fun t =>
    (t.putS l.d (cause.setWidth 64) l.poison).count fun c => { c with cp := c.cp - 1 }

/-- A CODEBOOK record that reads the book and started before the load. -/
def State.bookInUse (s : State) (id : Nat) (l : BookLoad) (num : Nat) : Bool :=
  s.flight.chains.any fun e => decide (e.2.block = l.block) && decide (e.2.startNo ≤ id) &&
    (match e.2.phase with | .move _ | .moving .. | .write => true | _ => false) &&
    decide ((XRec.of e.2.words).xform = 1) && decide ((XRec.of e.2.words).tparam % 4 = num)

def execCbloadEnd (load : Nat) (s : State) : Out :=
  .next <|
  match sfind load s.flight.books with
  | none => s
  | some l =>
    let book := sget ⟨l.block, 0, [], [], true, false⟩ l.store (s.core l.core).books
    match l.op with
    | none =>
      if s.bookInUse load l book.num then s.later (.cbloadEnd load)
      else
        let rg := match s.block? l.block with
          | some b => b.regime
          | none => ⟨0, 0, .u, 0⟩
        let (ps, s1) := s.xlatePages (coreSlice l.core) rg needR (toKeys ((List.range 3).map fun i =>
          (Nat.min (l.addr + 4096 * i) (l.addr + 8191)) / 4096))
        if xAgain ps ≠ [] then s1.tryAgain (xAgain ps) (.cbloadEnd load)
        else match ps.findSome? fun e => match e.2 with | .error f => some f.cause | .ok _ => none with
        | some k => s1.endBook load l { book with loading := false, ok := false } k
        | none =>
          let accs := (List.range 1024).filterMap fun i =>
            (xAddr (pageResult ps (l.addr + 8 * i)) (l.addr + 8 * i)).map fun y =>
              TaggedAcc.mk (l.addr + 8 * i) y.2 ⟨i, y.1, 0, 0, false⟩
          let o : MemOp := ⟨.core l.core, .record, .b64, none, l.core, l.block, rg, 6, 1, 3, none, partsOf accs, false⟩
          let (op, s2) := s1.engineSend o
          (s2.setFlight { s2.flight with books := sset load { l with op := some op } s2.flight.books }).later
            (.cbloadEnd load)
    | some op => match s.takeRead op with
      | none => s.later (.cbloadEnd load)
      | some (out, s1) =>
        let bytes := out.foldl (fun (m : Sparse Byte) a =>
          ((leBytes 8 a.val).zipIdx).foldl (fun m e => sput 0 (8 * a.lane + e.2) e.1 m) m) []
        let bad := toKeys ((out.filter (·.poison)).map fun a => a.lane / 4)
        s1.endBook load l { book with bytes := bytes, poison := bad, loading := false, ok := true } 0

end Sys2Proof.Machine
end

