-- ==== Sys2Proof/Machine/System.lean ====
section
/-! DEFINITION. Opcodes 0xB7, 0xB8, 0xBB to 0xBF: launch, qstat, ecall, system registers and invalidation, and the
write of a system register (R351 to R355, R393, R394). -/

namespace Sys2Proof.Machine

/-! System registers (R193, R200, R281, R287, R308, R347, R351, R356 to R358, R366, R378, R395, R410, R413, R415, R417,
R429). -/

/-- What S-level code may do with a register: nothing, read it, or read or use that of its own VF. -/
inductive SRight where
  | none
  | read
  | ownRead (v : Nat)
  | ownWrite (v : Nat)
  deriving DecidableEq, Repr

/-- Whether H code may write a register, and the right of S code; none where the unit lacks it. -/
def sliceReg (r : Nat) : Option (Bool × SRight) :=
  if r < 0x20 then some (true, .ownRead r)
  else if r < 0x40 then some (true, .ownRead (r - 0x20))
  else if r < 0x43 then some (true, .none)
  else if r = 0x43 then some (false, .none)
  else if r < 0x4C then some (true, .none)
  else if r = 0x4C then some (false, .read)
  else if r = 0x4D then some (false, .none)
  else if r < 0x50 then none
  else if r < 0x70 then some (false, .none)
  else if r = 0x70 then some (true, .none)
  else if r = 0x71 then some (false, .read)
  else if r = 0x72 then some (false, .none)
  else if r < 0x78 then some (true, .none)
  else if r < 0x80 then none
  else if r < 0xA0 then some (true, .ownRead (r - 0x80))
  else if r < 0xC0 then some (true, .none)
  else if r < 0xC6 then some (true, .none)
  else if r < 0xC8 then some (false, .read)
  else if r = 0xC8 then some (true, .none)
  else if r < 0xCC then some (false, .none)
  else if r < 0xD2 then some (true, .none)
  else if r = 0xD2 then some (false, .none)
  else if r < 0xE0 then none
  else if r < 0x100 then some (true, .ownRead (r - 0xE0))
  else if r < 0x180 then some (true, .ownWrite ((r - 0x100) / 4))
  else if r < 0x200 then (if r % 4 = 3 then none else some (true, .ownWrite ((r - 0x180) / 4)))
  else if r < 0x210 then some (true, .none)
  else none

def coreReg (r : Nat) : Option (Bool × SRight) :=
  if r < 0x20 then some (true, .ownRead r) else if r = 0x20 then some (false, .none) else none

def unitReg (unit r : Nat) : Option (Bool × SRight) :=
  if unit = 0 then sliceReg r else if unit ≤ 8 then coreReg r else none

/-- R352: whether the Access column admits a privilege and VF. -/
def admits (a : Bool × SRight) (p : Priv) (vf : Nat) (write : Bool) : Bool :=
  match p with
  | .h => !write || a.1
  | .u | .g => false
  | .s => match a.2 with
    | .none => false
    | .read => !write
    | .ownRead v => !write && decide (v = vf)
    | .ownWrite v => decide (v = vf)

/-- R366: a register that reads alike in every slice of the partition. -/
def perPart (r : Nat) : Bool :=
  decide (r = 0x70 ∨ r = 0x71 ∨ (0x74 ≤ r ∧ r ≤ 0x77)) || decide (0xC0 ≤ r ∧ r ≤ 0xCB) || decide (r = 0xCD ∨ r = 0xCE) ||
  decide (r = 0xD1) || decide (0xE0 ≤ r ∧ r < 0x100)

/-- The units of a block. -/
def Block.units (b : Block) : List CoreUnit :=
  b.slots.map CoreUnit.slot ++ b.groups.map CoreUnit.group ++
  ((List.range b.grans).map fun i => CoreUnit.granule (b.g0 + i)) ++ b.opslots.map CoreUnit.opslot

/-- Those it holds now: not the spilled ones, and none where it is saved. -/
def Block.unitsHeld (b : Block) : List CoreUnit :=
  match b.state with
  | .saved => []
  | .refilling => b.units
  | _ => b.units.filter fun u => !b.spill.contains u

/-- R173, R178: the units of a core that are held, or not yet zeroed. -/
def State.heldUnits (s : State) (core : Nat) : List CoreUnit :=
  (s.core core).zeroing ++
  ((s.core core).walks.flatMap fun w => (List.range 8).map fun i => CoreUnit.granule (8 * w.unit + i)) ++
  s.blocks.flatMap fun e => if e.2.core = core then e.2.unitsHeld else []

/-- R200. -/
def State.cres (s : State) (core : Nat) : Nat :=
  let held := s.heldUnits core
  let free := fun (n : Nat) (f : Nat → CoreUnit) => ((List.range n).filter fun i => !held.contains (f i)).length
  let ways := s.l1Ways core
  (s.core core).pinned.length * 2 ^ 53 + free 32 .slot * 2 ^ 47 + free 256 .group * 2 ^ 38 + free 16 .opslot * 2 ^ 33 +
    sumNat ((List.range 20).map fun u => if ways.contains u then 0 else 2 ^ u)

def migKey (slice chan : Nat) : Nat := 4 * slice + chan

def migCode : MigState → Nat
  | .idle => 0
  | .copy | .freezing => 1
  | .frozen => 2

def Migration.idle : Migration := ⟨.idle, 0, 0, 0, [], 0, 0⟩
def State.mig (s : State) (slice chan : Nat) : Migration := sget Migration.idle (migKey slice chan) s.pkg.migs

def snapCode : SnapState → Nat
  | .idle => 0
  | .arming => 1
  | .copying => 2

/-- R351: a register as it reads. -/
def State.readReg (s : State) (part slice unit r : Nat) (p : Priv) : Nat :=
  let v := (s.reg slice unit r).toNat
  if unit ≠ 0 then (if r = 0x20 then s.cres (coreAt slice unit) else v)
  else if r = 0x4C then (s.smask part).toNat * 2 ^ 48 + part * 256 + slice
  else if 0x80 ≤ r ∧ r < 0xA0 then
    let w := (s.vfcfg part (r - 0x80)).toNat
    if p = .s then w % 8 / 2 * 2 else w
  else if 0x200 ≤ r ∧ r % 4 = 3 then putBits v 4 2 (migCode (s.mig slice (r / 4 - 0x80)).state)
  else if r = 0xC4 then match s.part? part with
    | some x => putBits v 16 2 (snapCode x.snap.state)
    | none => v
  else v

/-- R352: the slice, unit and rights of a target, or the trap. -/
def State.target (s : State) (c : Ctx) (a : W64) (reg : Nat) (bad write : Bool) : Except (BitVec 8) (Nat × Nat) :=
  let slice := a.toNat % 16
  let unit := a.toNat / 16 % 16
  if c.blk.regime.priv = .u then .error causePrivilege
  else if bad then .error causePoison
  else if !(s.smask c.blk.regime.part).getLsbD slice then .error causeBounds
  else match unitReg unit reg with
    | none => .error causeBounds
    | some r => if admits r c.blk.regime.priv c.blk.regime.vf write then .ok (slice, unit) else .error causePrivilege

/-- A read of a register goes to its target (R352, R73). -/
def State.readRequest (s : State) (c : Ctx) (d : SReg) (slice unit reg : Nat) : State :=
  s.ask c d false (.sysRead c.blk.regime.part slice unit reg c.blk.regime.priv) (latency c.slice slice)

def execSysrd (reg : BitVec 12) (d sa : SReg) (s : State) : Out :=
  onTroupe s fun c =>
    s.whenReady c (.sysrd reg d sa) c.mask
      (match s.target c (c.t.s sa) reg.toNat (c.t.sBad sa) false with
       | .error k => s.raise c k 0 0 c.mask
       | .ok (sl, u) => s.readRequest c d sl u reg.toNat)

/-- The accesses that a release of the troupe waits for (R231). -/
def State.earlierOps (s : State) (key : Nat) : List Nat :=
  (s.flight.mem.filter fun e =>
    decide (e.2.owner = .troupe key) && decide (e.2.kind ≠ .prefetch) && !e.2.complete).map (·.1)

/-- A request that is sent once its release may be. -/
def State.holdRequest (s : State) (c : Ctx) (d : SReg) (poison : Bool) (w : HeldWork) : Nat × State :=
  let (id, s1) := s.newReq c.key.num d poison (some w) (s.earlierOps c.key.num)
  (id, s1.post (.heldReleaseSend id))

def execSyswr (reg : BitVec 12) (d sa sb : SReg) (s : State) : Out :=
  onTroupe s fun c =>
    s.whenReady c (.syswr reg d sa sb) c.mask
      (match s.target c (c.t.s sa) reg.toNat (c.t.sBad sa || c.t.sBad sb) true with
       | .error k => s.raise c k 0 0 c.mask
       | .ok (sl, u) =>
          (s.holdRequest c d false (.sysWrite sl u reg.toNat (c.t.s sb))).2.advance c (c.t.pendS d))

/-! Writes at the target. -/

/-- Bits a plain register may hold, none for a register with checks of its own. -/
def plainMask (r : Nat) : Option Nat :=
  let pa := fun (lo : Nat) => 2 ^ 52 - 2 ^ lo
  let ringQ := 2 ^ 64 - 2 ^ 8 + 1
  if r = 0x40 ∨ r = 0x44 ∨ r = 0x48 then some ringQ
  else if 0x41 ≤ r ∧ r ≤ 0x4A then some (pa 3)
  else if r = 0x73 then some (2 ^ 64 - 2 ^ 24 + 1)
  else if r = 0x75 ∨ r = 0x76 then some (2 ^ 64 - 1)
  else if r = 0x77 then some (pa 3)
  else if r = 0xC0 ∨ r = 0xCD then some (pa 18)
  else if r = 0xC2 then some (pa 10)
  else if r = 0xC5 then some (pa 3)
  else if r = 0xD0 then some (2 ^ 64 - 2 ^ 36 + 1)
  else if r = 0xD1 then some (pa 13)
  else if 0xE0 ≤ r ∧ r < 0x100 then some (2 ^ 64 - 2 ^ 24)
  else if 0x100 ≤ r ∧ r < 0x200 then some (if r % 4 = 0 then ringQ else pa 3)
  else if 0x200 ≤ r ∧ r % 4 < 2 then some (pa 12)
  else if 0x200 ≤ r ∧ r % 4 = 2 then some (pa 3)
  else none

/-- A value takes its place in one slice or, for a partition-wide register, in all. -/
def State.putReg (s : State) (slice r : Nat) (v : W64) : State :=
  if perPart r then match s.partOf slice with
    | some p => s.setPartReg p r v
    | none => s
  else s.setReg slice 0 r v

/-- R379: a hidden mark that VFSCHEDv has been written. -/
def schedMark (vf : Nat) : Nat := 0xEA0 + vf

def State.markSched (s : State) (slice r : Nat) : State :=
  if 0xE0 ≤ r ∧ r < 0x100 then match s.partOf slice with
    | some p => s.setPartReg p (schedMark (r - 0xE0)) 1
    | none => s
  else s

/-- R337: a space word's root and zero fields. -/
def spaceOk (v : Nat) (maxRoot : Nat) : Bool :=
  let sz := bitsOf v 4 4
  decide (bitsOf v 0 4 = 0) && decide (sz ≤ maxRoot) && decide (bitsOf v 8 40 % 2 ^ sz = 0)

/-- R418: a write of the mailbox of the same tick, to a lower-numbered slice of the partition. -/
def State.lowerMailbox (s : State) (part slice : Nat) : Bool := s.todo.any fun e => match e with
  | .systemRegisterWrite sl 0 0x74 _ _ => decide (sl < slice ∧ s.partOf sl = some part)
  | _ => false

/-- R417: a mailbox command is taken, or answered at once. -/
def State.mailboxWrite (s : State) (slice : Nat) (val : W64) (req : Nat) : State :=
  let v := val.toNat
  let cmd := v % 256
  match s.partOf slice with
  | none => s.reply req replyRefused
  | some p => match s.part? p with
    | none => s.reply req replyRefused
    | some x =>
      if v / 2 ^ 16 ≠ 0 ∨ cmd = 0 ∨ 5 < cmd then s.reply req replyRefused
      else if s.lowerMailbox p slice then s.post (.systemRegisterWrite slice 0 0x74 val req)
      else if x.mailbox.isSome then s.reply req replyBusy
      else
        let idx := bitsOf v 8 4
        let s1 := ((s.setPart p { x with mailbox := some (cmd, idx) }).setPartReg p 0x74 (BitVec.ofNat 64 (idx * 256))).reply
          req replyOk
        s1.later (match cmd with
          | 1 => .addslice p
          | 2 => .remslice p
          | 3 => .setband p
          | 4 => .clrband p
          | _ => .attest p)

/-- The partition of a slice. -/
def State.partAt (s : State) (slice : Nat) : Option Partition :=
  match s.partOf slice with
  | some p => s.part? p
  | none => none

/-- R366, R367: QCMD names its queue; a command is in progress until the ringmaster has read and written the entry, 8
ticks later (log entry 116). -/
def State.qcmdWrite (s : State) (slice : Nat) (val : W64) (req : Nat) : State :=
  let start := fun (e : Ev) => match s.partOf slice with
    | some p => (s.modPart p fun x => { x with qcmd := true }).at (s.tick + 8) e
    | none => s.reply req replyRefused
  if (match s.partAt slice with | some x => x.qcmd | none => false) then s.reply req replyBusy
  else match val.toNat / 2 ^ 12 with
    | 1 => start (.qcmdEnable slice val req)
    | 2 => start (.qcmdDisable slice val req)
    | _ => s.reply req replyRefused

/-- R375: CALCTL; it is busy while an accepted LOAD waits for its period. -/
def State.calWrite (s : State) (slice : Nat) (val : W64) (req : Nat) : State :=
  let busy : Bool := match s.partAt slice with
    | some p => p.calNext.isSome
    | none => false
  if busy then s.reply req replyBusy
  else match val.toNat with
    | 0 => s.reply req replyOk
    | 1 => s.post (.calendarLoad slice req)
    | _ => s.reply req replyRefused

/-- R395: a command of SNAPCTL, or its fields alone. While a snapshot runs, all but ABORT is BUSY. -/
def State.snapWrite (s : State) (slice : Nat) (val : W64) (req : Nat) : State :=
  let v := val.toNat
  let idle : Bool := match s.partAt slice with
    | some x => decide (x.snap.state = .idle)
    | none => true
  let bad := decide (v / 2 ^ 18 ≠ 0 ∨ bitsOf v 14 2 ≠ 0 ∨ bitsOf v 9 3 ≠ 0)
  let cmd := bitsOf v 12 2
  if !idle && (bad || decide (cmd ≠ 2)) then s.reply req replyBusy
  else if bad || decide (cmd = 3) then s.reply req replyRefused
  else match cmd with
    | 1 => s.post (.snapshotStart slice val req)
    | 2 => s.post (.snapshotAbort slice req)
    | _ => (s.putReg slice 0xC4 (BitVec.ofNat 64 (v % 2 ^ 9))).reply req replyOk

/-- R358: a command of MIGCTLc, or its field alone. -/
def State.migWrite (s : State) (slice chan : Nat) (val : W64) (req : Nat) : State :=
  let v := val.toNat
  if v / 2 ^ 12 ≠ 0 ∨ bitsOf v 6 2 ≠ 0 ∨ bitsOf v 2 2 ≠ 0 then
    s.reply req (if (s.mig slice chan).state = .idle then replyRefused else replyBusy)
  else match v % 4 with
    | 1 => s.post (.migStart slice chan val req)
    | 2 => s.post (.migEnd slice chan req)
    | 3 => s.post (.migAbort slice chan req)
    | _ =>
      let old := (s.reg slice 0 (0x203 + 4 * chan)).toNat
      s.writeReg slice 0 (0x203 + 4 * chan) (BitVec.ofNat 64 (putBits old 8 4 (bitsOf v 8 4))) req

/-- A base with a LOAD bit (R425, R429). -/
def State.baseWrite (s : State) (slice r lo : Nat) (val : W64) (req : Nat) (load : Ev) : State :=
  let v := val.toNat
  if v / 2 ^ 52 ≠ 0 ∨ v % 2 ^ lo / 2 ≠ 0 then s.reply req replyRefused
  else
    let s1 := s.putReg slice r (BitVec.ofNat 64 (v / 2 * 2))
    if v % 2 = 1 then s1.post load else s1.reply req replyOk

/-- R328: a request of a troupe reaches a slice that has left its partition. -/
def State.leftSlice (s : State) (req slice : Nat) : Bool :=
  match s.req? req with
  | some r => (match s.ownerRegime (.troupe r.troupe) with
    | some rg => !(s.smask rg.part).getLsbD slice
    | none => false)
  | none => false

/-- A write that a firewall drops (R328) answers REFUSED (DESIGN CHOICE, log entry 117). -/
def execSystemRegisterWrite (slice unit reg : Nat) (val : W64) (req : Nat) (s : State) : Out :=
  let v := val.toNat
  .next <|
  if s.leftSlice req slice then s.countRefusal.reply req replyRefused
  else if unit ≠ 0 then s.post (.cquotaWrite slice (coreAt slice unit) reg val req)
  else if reg < 0x20 then s.post (.sltokWrite slice reg val req)
  else if reg < 0x40 then s.post (.l2pinqWrite slice (reg - 0x20) val req)
  else if reg = 0x4B then
    if bitsOf v 48 16 = 0 && spaceOk v 9 then s.writeReg slice 0 reg val req else s.reply req replyRefused
  else if reg = 0x70 then s.post (.pwrcapWrite slice val req)
  else if reg = 0x74 then s.mailboxWrite slice val req
  else if 0x80 ≤ reg ∧ reg < 0xA0 then s.post (.vfcfgWrite slice (reg - 0x80) val req)
  else if 0xA0 ≤ reg ∧ reg < 0xC0 then s.post (.vfReset slice (reg - 0xA0) val req)
  else if reg = 0xC1 then s.qcmdWrite slice val req
  else if reg = 0xC3 then s.calWrite slice val req
  else if reg = 0xC4 then s.snapWrite slice val req
  else if reg = 0xC8 then
    if 2 ^ 16 ≤ v ∨ v % 256 = 0 then s.reply req replyRefused else (s.putReg slice reg val).reply req replyOk
  else if reg = 0xCC then s.baseWrite slice reg 10 val req (.nirtLoad slice val req)
  else if reg = 0xCE then s.baseWrite slice reg 10 val req (.xptblLoad slice val req)
  else if reg = 0xCF then s.baseWrite slice reg 15 val req (.peerrtLoad slice val req)
  else if 0x200 ≤ reg ∧ reg % 4 = 3 then s.migWrite slice ((reg - 0x200) / 4) val req
  else match plainMask reg with
    | some m =>
      if v &&& m = v then ((s.putReg slice reg val).markSched slice reg).reply req replyOk else s.reply req replyRefused
    | none => s.reply req replyRefused

/-! Invalidation (R353, R354). -/

def overlapsRange (first len a n : Nat) : Bool := decide (n ≠ 0 ∧ first < rangeEnd a n ∧ a < first + len)

/-- R353: whether a kept translation is dropped. -/
def tlbDrops (k : TlbKind) (part vf a n asid : Nat) (e : TlbEntry) : Bool :=
  let mine := decide (e.regime.part = part)
  let guest := mine && decide (e.regime.priv ≠ .h) && decide (e.regime.vf = vf)
  match k with
  | .s1all => guest
  | .s1asid => guest && decide (e.asid = a % 2 ^ 16)
  | .s1range => guest && decide (e.asid = asid % 2 ^ 16) && overlapsRange (e.page * 4096) 4096 a n
  | .s2range => guest && overlapsRange (e.gpage * 4096) 4096 a n
  | .s2all => guest
  | .kspace => mine && decide (e.regime.priv = .h) && overlapsRange (e.page * 4096) 4096 a n
  | .all => mine

def tlbForS : TlbKind → Bool
  | .s1all | .s1asid | .s1range => true
  | _ => false

/-- Accesses of the regimes that a kind concerns. -/
def tlbConcerns (k : TlbKind) (part vf : Nat) (rg : Regime) : Bool :=
  decide (rg.part = part) &&
  (match k with
   | .all => true
   | .kspace => decide (rg.priv = .h)
   | _ => decide (rg.priv ≠ .h) && decide (rg.vf = vf))

def execTlbinv (kind : TlbKind) (vf : Fin 32) (d sa sb sc : SReg) (s : State) : Out :=
  onTroupe s fun c =>
    let rg := c.blk.regime
    let v := if rg.priv = .h then vf.val else rg.vf
    let n := match kind with
      | .s1all | .s2all | .all => 0
      | .s1asid => 1
      | .s1range => 3
      | _ => 2
    let bad := ([sa, sb, sc].take n).any c.t.sBad
    s.whenReady c (.tlbinv kind vf d sa sb sc) c.mask
      (if rg.priv = .u || (decide (rg.priv = .s) && (!tlbForS kind || decide (vf ≠ 0))) then
        s.raise c causePrivilege 0 0 c.mask
       else if bad then s.raise c causePoison 0 0 c.mask
       else
        let keep := s.pkg.tlb.filter fun e =>
          !tlbDrops kind rg.part v (c.t.s sa).toNat (c.t.s sb).toNat (c.t.s sc).toNat e
        let (id, s1) := (s.setPkg { s.pkg with tlb := keep }).newReq c.key.num d false (some (.tlbinv kind rg.part v)) []
        (s1.advance c (c.t.pendS d)).at (s1.tick + 8) (.tlbinvComplete id))

/-- R353: an access accepted before the request under a dropped entry is still on its way. -/
def State.tlbWaits (s : State) (req : Nat) (k : TlbKind) (part vf : Nat) : Bool :=
  (s.flight.mem.any fun e => decide (e.1 < req) && decide (e.2.kind ≠ .prefetch) && !e.2.isWriteBack &&
    decide (e.2.target = none) && !e.2.owner.isHart && tlbConcerns k part vf e.2.regime && !e.2.complete) ||
  (s.flight.ts.any fun e => decide (e.1 < req) && !e.2.acked && !e.2.owner.isHart && (match e.2.name with
    | some n => tlbConcerns k part vf n.regime
    | none => false)) ||
  s.flight.chains.any fun e => decide (e.2.startNo < req) && tlbConcerns k part vf e.2.regime &&
    (match e.2.phase with | .move _ | .moving .. | .write | .status => true | _ => false)

def execTlbinvComplete (req : Nat) (s : State) : Out :=
  .next <|
  match s.req? req with
  | none => s
  | some r => match r.work with
    | some (.tlbinv k p v) => if s.tlbWaits req k p v then s.later (.tlbinvComplete req) else s.reply req 0
    | _ => s

/-- R354: whether a line is concerned. -/
def State.rdcMatches (s : State) (part : Nat) (k : RdcKind) (a n line : Nat) : Bool :=
  match k with
  | .all => true
  | .astag => decide (sfind line s.homes.astag = some (a % 2 ^ 12))
  | .range => (s.bands part).any fun b => match bandInv b (64 * line) with
    | some o => overlapsRange (b.pbase * 2 ^ 30 + o) 64 a n
    | none => false

/-- R354: the clean copies in the slices of a partition go, with the holder bits of their lines. -/
def State.dropCopies (s : State) (part : Nat) (hit : Nat → Bool) : State :=
  let mine := fun (sl : Nat) => (s.smask part).getLsbD sl
  let l1 := fun (e : Nat × Core) =>
    if mine (coreSlice e.1) then (e.1, { e.2 with l1 := e.2.l1.filter fun x => x.2.isPinned || !hit x.2.line }) else e
  let hc := fun (e : Nat × Hart) =>
    if mine (e.1 / 8) then (e.1, { e.2 with dcache := e.2.dcache.filter fun x => !hit x.1 }) else e
  let inf := fun (e : Nat × BitVec 16) => if hit e.1 then (e.1, e.2 &&& ~~~(s.smask part)) else e
  let s1 := { s with cores := s.cores.map l1, harts := s.harts.map hc }
  s1.setHomes { s1.homes with
    rdc := s1.homes.rdc.filter fun e => !(mine (e.1 / 2 ^ 48) && hit (e.1 % 2 ^ 48))
    inf := (s1.homes.inf.map inf).filter fun e => decide (e.2 ≠ 0) }

def execRdcinv (kind : RdcKind) (d sa sb : SReg) (s : State) : Out :=
  onTroupe s fun c =>
    let rg := c.blk.regime
    s.whenReady c (.rdcinv kind d sa sb) c.mask
      (if rg.priv ≠ .h then s.raise c causePrivilege 0 0 c.mask
       else
        let bad := c.t.sBad sa || (decide (kind = .range) && c.t.sBad sb)
        let s0 := s.dropCopies rg.part (s.rdcMatches rg.part kind (c.t.s sa).toNat (c.t.s sb).toNat)
        let (id, s1) := s0.newReq c.key.num d bad (some .rdcinv) []
        (s1.advance c (c.t.pendS d)).at (s1.tick + 8) (.rdcinvComplete id))

def execRdcinvComplete (req : Nat) (s : State) : Out :=
  .next <|
  match s.req? req with
  | some r => if r.work = some .rdcinv then s.reply req 0 else s
  | none => s

/-! Calls (R355). -/

def privCode : Priv → Nat
  | .u | .g => 0
  | .s => 1
  | .h => 2

def execEcall (call : W16) (n : Fin 7) (d sa : SReg) (s : State) : Out :=
  onTroupe s fun c =>
    let rg := c.blk.regime
    let args := (List.range n.val).map fun i => (Fin.ofNat 64 (sa.val + i) : SReg)
    s.whenReady c (.ecall call n d sa) c.mask
      (if args.any c.t.sBad then s.raise c causePoison 0 0 c.mask
       else
        let w0 := call.toNat + rg.vf * 2 ^ 16 + privCode rg.priv * 2 ^ 21 + c.key.core * 2 ^ 23 + c.key.slot * 2 ^ 30
        let words := [BitVec.ofNat 64 w0, 0] ++ args.map c.t.s ++ List.replicate (6 - n.val) 0
        let ring := if rg.priv = .u then Ring.vfService rg.vf else Ring.kService
        let (id, s1) := s.holdRequest c d false (.ecall c.slice ring words)
        s1.endClause c { c.t with susp := .ecall id } [(c.fallThrough, c.mask)])

/-! launch and qstat (R393, R394). -/

def execLaunch (d sa : SReg) (s : State) : Out :=
  onTroupe s fun c =>
    let a := (c.t.s sa).toNat
    s.whenReady c (.launch d sa) c.mask
      (if c.t.sBad sa then s.advance c (c.t.putS d 2 true)
       else if a % 128 ≠ 0 ∨ 2 ^ 57 ≤ a then s.raise c causeAlign 0 (BitVec.ofNat 64 a) c.mask
       else (s.holdRequest c d false (.launch a)).2.advance c (c.t.pendS d))

def queueKey (part q : Nat) : Nat := 4096 * part + q
def State.queue? (s : State) (part q : Nat) : Option Queue := sfind (queueKey part q) s.pkg.queues

/-- R365: fields of a queue's entry. -/
def Queue.f (x : Queue) (d lo len : Nat) : Nat := bitsOf (dword x.entry d) lo len
def Queue.vf (x : Queue) : Nat := x.f 4 0 5
def Queue.priv (x : Queue) : Priv := match x.f 4 5 2 with
  | 0 => .u
  | 1 => .s
  | _ => .h

def qstateCode : QState → Nat
  | .off => 0
  | .active => 1
  | .error => 2

def State.ticketsOf (s : State) (part q : Nat) : List (Nat × Ticket) :=
  s.pkg.tickets.filter fun e => decide (e.2.part = part) && decide (e.2.queue = q)

/-- R385: fetched tickets whose placement is unfinished. -/
def Ticket.pending (t : Ticket) : Bool := match t.state with
  | .waiting | .ready | .placing => true
  | _ => false

def State.framesUsed (s : State) (part q : Nat) : KeySet :=
  match s.part? part with
  | some p => sget [] q p.framesUsed
  | none => []

/-- Whether a saved troupe has left its core (R389, R390). -/
def SavedKind.off : SavedKind → Bool
  | .fault _ inPlace => !inPlace
  | .whole => true
  | .doubleTrap | .spilled => false

/-- R394: the state word of a queue. -/
def State.queueWord (s : State) (part q : Nat) (x : Queue) : Nat :=
  let sat := fun (n w : Nat) => Nat.min n (2 ^ w - 1)
  let ts := s.ticketsOf part q
  let pending := (ts.filter fun e => e.2.pending).length
  let placed := (s.blocks.filter fun e => decide (e.2.queue = q) && decide (e.2.regime.part = part) &&
    decide (e.2.state = .running)).length
  let saved := (s.pkg.saved.filter fun e => decide (e.2.part = part) && decide (e.2.queue = q) && e.2.kind.off).length
  qstateCode x.state + x.reason * 16 + sat pending 7 * 2 ^ 8 + sat placed 16 * 2 ^ 16 + sat saved 16 * 2 ^ 32 +
    sat (x.f 7 0 16 - (s.framesUsed part q).length) 16 * 2 ^ 48

def State.unitsWord (s : State) (part vf : Nat) : Nat :=
  match s.part? part with
  | some p => wrap 32 (sget 0 vf p.tu) * 2 ^ 32 + wrap 32 (sget 0 vf p.eu)
  | none => 0

/-- R394: U and S code reads 0 of a queue that is not its VF's, or is H's. -/
def State.queueAnswer (s : State) (rg : Regime) (q : Nat) (what : QstatWhat) : W64 :=
  let x := (s.queue? rg.part q).getD ⟨[], .off, 0, 0, false⟩
  let hidden := decide (rg.priv ≠ .h) && (decide (x.vf ≠ rg.vf) || decide (x.priv = .h))
  if hidden then 0 else BitVec.ofNat 64 (match what with
    | .ci => x.ci.toNat
    | .state => s.queueWord rg.part q x
    | .units => s.unitsWord rg.part x.vf)

/-- R394: the ringmaster answers, within 64 ticks. -/
def execQstat (d sa : SReg) (what : QstatWhat) (s : State) : Out :=
  onTroupe s fun c =>
    s.whenReady c (.qstat d sa what) c.mask
      (s.ask c d (c.t.sBad sa) (.qstat ((c.t.s sa).toNat % 4096) what) 1)

end Sys2Proof.Machine
end

