-- ==== Sys2Proof/Machine/Harts.lean ====
section
/-! DEFINITION. Harts: stores, atomics, turnstiles, fences, cache blocks, waiter ports and timers (R296 to R302, R320,
R322, R335). A hart runs one instruction at a time; one that must wait is tried again a tick later (log entry 23). -/

namespace Sys2Proof.Machine

/-! Running an instruction. -/

/-- The hart that an instruction of the agenda belongs to. -/
def hartOf : Instr → Option Nat
  | .hartFence h | .hartFenceI h | .cboClean h _ | .cboFlush h _ | .cboInval h _ | .hartStore h .. | .hartCounterLoad h ..
  | .hartAmoaddD h .. | .hartAmomaxuD h .. | .hartLr h .. | .hartSc h .. | .hartAmo h .. | .hartSfenceVma h
  | .hartHfenceVvma h | .hartHfenceGvma h => some h
  | _ => none

/-- The agenda with an instruction of a hart after the next tick, or before a later instruction of that hart. -/
def afterTick (i : Instr) (h : Nat) : List Act → List Act
  | [] => [.tick, .event i]
  | .tick :: t => .tick :: .event i :: t
  | .event j :: t => if hartOf j = some h then .tick :: .event i :: .event j :: t else .event j :: afterTick i h t

/-- The instruction of a hart is tried again after a tick; what other agents bring in this one does not wait for it. One
that the hart fetched is none of the agenda, and is fetched again (State.hartRun). -/
def State.retryHart (s : State) (h : Nat) (i : Option Instr) : State := match i with
  | some i => { s with agenda := afterTick i h s.agenda }
  | none => s

/-- A hart that has left reset and awaits no value runs its instruction. -/
def onHart (h : Nat) (i : Option Instr) (s : State) (f : Hart → State) : Out :=
  .next <|
  let x := s.hart h
  if !x.started then s
  else if x.outstanding.isEmpty then f x
  else s.retryHart h i

def illegalInstruction : Nat := 2
def virtualInstruction : Nat := 22

/-- An operation of a hart on bytes of one line. -/
def State.hartOp (s : State) (h : Nat) (rg : Regime) (k : MemKind) (w : Width) (dst : Option SReg) (lease line : Nat)
    (va tag : Nat) (accs : List LaneAcc) : Nat × State :=
  let (id, s1) := s.newId
  let o : MemOp := ⟨.hart h, k, w, dst.map Reg.s, 0, 0, rg, 6, lease, 0,
    none, [⟨line, some va, tag, accs, .sent, [], none, true⟩], false⟩
  (id, (s1.setOp id o).sendPart id line)

/-- The regime of an access of a hart. -/
def State.regimeOf (s : State) (h : Nat) (a : HAcc) : Regime := s.hartRegime h ((s.hart h).effective a)

/-- An exception is taken; where the home refused a table word, the instruction is tried again (R187, R359). -/
def State.hartFault (s : State) (h : Nat) (i : Option Instr) (e : HExc) : State :=
  if e.code = hartAgain then (s.noteRefusal e.tval).retryHart h i else s.hartTrap h e

/-- An operation whose value the hart awaits. -/
def State.hartAwait (s : State) (h : Nat) (r : Nat × State) : State :=
  r.2.setHart h { r.2.hart h with outstanding := [r.1] }

/-! The store buffer (R297). -/

def Hart.entry? (x : Hart) (line : Nat) : Option SbufEntry := x.sbuf.find? fun e => decide (e.line = line)

/-- An entry leaves whole, as one write. -/
def State.drainLine (s : State) (h line : Nat) : State :=
  match (s.hart h).entry? line with
  | none => s
  | some e =>
    let s1 := s.setHart h { s.hart h with sbuf := (s.hart h).sbuf.filter fun y => decide (y.line ≠ line) }
    let accs := (e.bytes.zipIdx).map fun b => LaneAcc.mk b.2 (64 * line + b.1.1) b.1.2.toNat 0 false
    (s1.hartOp h e.regime .store .b8 none noLease line e.va e.astag accs).2

def State.drainAll (s : State) (h : Nat) : State := (s.hart h).sbuf.foldl (fun s e => s.drainLine h e.line) s

/-- Operations of a hart that its fences and releases wait for. -/
def State.hartBusy (s : State) (h : Nat) : Bool := s.flight.mem.any fun e => decide (e.2.owner = .hart h) && !e.2.complete

def State.hartOps (s : State) (h line : Nat) : Bool :=
  s.flight.mem.any fun e => decide (e.2.owner = .hart h) && e.2.parts.any fun p => decide (p.line = line) && !p.acked

def execHartStoreDrain (h line : Nat) (s : State) : Out :=
  .next <|
  match (s.hart h).entry? line with
  | none => s
  | some _ => if s.hartOps h line then s.later (.hartStoreDrain h line) else s.drainLine h line

/-- A store joins the entry of its line that was made in the same regime under the same ASTAG, or takes a new one, after
the entry of its line; with 32 entries held the oldest leaves first. -/
def State.bufferStore (s : State) (h : Nat) (rg : Regime) (line va tag : Nat) (bs : List (Nat × Byte)) : State :=
  let put := fun (m : Sparse Byte) => bs.foldl (fun m e => sset e.1 e.2 m) m
  let fresh := fun (s : State) =>
    let s1 := match (s.hart h).sbuf with
      | e :: _ => if 32 ≤ (s.hart h).sbuf.length then s.drainLine h e.line else s
      | [] => s
    (s1.setHart h { s1.hart h with sbuf := (s1.hart h).sbuf ++ [⟨line, put [], tag, va, rg⟩] }).later (.hartStoreDrain h line)
  match (s.hart h).entry? line with
  | some e =>
    if e.astag = tag ∧ e.regime = rg then
      s.setHart h { s.hart h with sbuf := (s.hart h).sbuf.map fun (e : SbufEntry) =>
        if e.line = line then { e with bytes := put e.bytes } else e }
    else fresh (s.drainLine h line)
  | none => fresh s

/-! Waiter ports (R300 to R302). -/

def ofPort (h page : Nat) : WaiterOf → Option Nat
  | .port j p i => if j = h ∧ p = page then some i else none
  | _ => none

def Hart.port (x : Hart) (page : Nat) : Port := sget Port.idle page x.ports
def State.setPort (s : State) (h page : Nat) (p : Port) : State :=
  s.setHart h { s.hart h with ports := sset page p (s.hart h).ports }

def statReset : Nat := 4
def statBadDesig : Nat := 6
def statArmed : Nat := 7
def statIdle : Nat := 8

/-- R302, R329: an MSI to an interrupt file of a hart: 0 the S file, 1 to 7 the guest files, 8 the M file. -/
def State.msi (s : State) (source h file eiid : Nat) : State :=
  if eiid = 0 then s
  else match s.partOf source, s.partOf (h / 8) with
    | some p, some q =>
      if p = q then
        s.setHart h { s.hart h with imsic := sset file (kadd eiid (sget [] file (s.hart h).imsic)) (s.hart h).imsic }
      else s.setPlat { s.plat with dropped := s.plat.dropped + 1 }
    | _, _ => s.setPlat { s.plat with dropped := s.plat.dropped + 1 }

/-- STAT is written, and then the MSI goes out. -/
def State.endPort (s : State) (h page status index : Nat) : State :=
  let p := (s.hart h).port page
  ((s.withdraw (ofPort h page)).setPort h page { p with stat := BitVec.ofNat 64 (status + 256 * index), wait := none }).msi
    (h / 8) h page (bitsOf p.ctl.toNat 24 8)

/-- R301: a designator through the regime in force. -/
def State.namePort (s : State) (h : Nat) (d : W64) : Named :=
  let a := d.toNat
  if a / 2 ^ 57 ≠ 0 ∨ a % 8 ≠ 0 then .bad causeBounds a
  else match (s.hartXlate h .name a 8).1 with
    | .ok (.mem m tag true) => .to (.home m) (some ⟨s.regimeOf h .name, a, tag⟩)
    | .ok (.peer p true) => .to (.peer p) (some ⟨s.regimeOf h .name, a, 0⟩)
    | .error e => if e.code = hartAgain then .again e.tval else .bad causeBounds a
    | _ => .bad causeBounds a

def State.portNames (s : State) (h : Nat) (p : Port) (n : Nat) : List Named :=
  (List.range n).map fun i => s.namePort h (sget 0 i p.desig)

/-- The line of a table word that the home refuses while a CTL store names its turnstiles. -/
def State.portAgain (s : State) (h page : Nat) (val : W64) : Option Nat :=
  (s.portNames h ((s.hart h).port page) (val.toNat % 4 + 1)).findSome? fun n => match n with
    | .again line => some line
    | _ => none

def portCond (p : Port) (e : Named × Nat) : Option Cond :=
  match e.1 with
  | .to l name => some ⟨l, name, sget 0 e.2 p.thresh, false, none⟩
  | _ => none

/-- A write to CTL. -/
def State.portCtl (s : State) (h page : Nat) (val : W64) : State :=
  let v := val.toNat
  let s1 := s.withdraw (ofPort h page)
  let ctl := BitVec.ofNat 64 (bitsOf v 24 40 * 2 ^ 24 + v % 8)
  let n := v % 4 + 1
  let vf := (s.regimeOf h .store).flowVf
  let p : Port := { (s1.hart h).port page with ctl := ctl, stat := BitVec.ofNat 64 statArmed, wait := none, vf := vf }
  let s2 := s1.setPort h page p
  let cs := ((s1.portNames h p n).zipIdx).map (portCond p)
  match (cs.zipIdx).find? fun e => e.1.isNone with
  | some e => s2.endPort h page statBadDesig e.2
  | none =>
    let limit := bitsOf v 32 32
    let w : WaitState := ⟨cs.filterMap id, bitN v 2, true, if limit = 2 ^ 32 - 1 then none else some (s.tick + limit), 0, false⟩
    let s3 := (s2.setPort h page { p with wait := some w }).startConds (fun i => .port h page i) w vf (s2.hartPart h)
    match w.deadline with
    | some d => s3.at d (.portWaitEnd h page)
    | none => s3

def execPortCtlWrite (h port : Nat) (val : W64) (s : State) : Out :=
  .next <|
  match s.portAgain h port val with
  | some line => (s.noteRefusal line).later (.portCtlWrite h port val)
  | none => s.portCtl h port val

def State.portCancel (s : State) (h page : Nat) : State :=
  let p := (s.hart h).port page
  (s.withdraw (ofPort h page)).setPort h page { p with stat := BitVec.ofNat 64 statIdle, wait := none }

def execPortCancelWrite (h port : Nat) (s : State) : Out := .next (s.portCancel h port)

/-- One pass of the loop of R236 for a port. -/
def execPortWaitEnd (h port : Nat) (s : State) : Out :=
  .next <|
  let p := (s.hart h).port port
  match p.wait with
  | none => s
  | some w =>
    let w1 := s.gather (ofPort h port) w
    if w1.first && w1.conds.any (fun c => !c.sat && c.val.isNone) then s
    else match w1.pass s.tick with
      | .ends st i _ => s.endPort h port st i
      | .goesOn w2 => (s.dropReports (ofPort h port)).setPort h port { p with wait := some w2 }

/-- A register of a port page as it reads. -/
def Port.read (p : Port) (off : Nat) : W64 :=
  if off < 0x40 then (if off % 16 = 0 then sget 0 (off / 16) p.desig else sget 0 (off / 16) p.thresh)
  else if off = 0x40 then p.ctl
  else if off = 0x48 then p.stat
  else 0

def State.portWrite (s : State) (h page off : Nat) (v : W64) : State :=
  let p := (s.hart h).port page
  if off < 0x40 then
    s.setPort h page (if off % 16 = 0 then { p with desig := sput 0 (off / 16) v p.desig }
      else { p with thresh := sput 0 (off / 16) v p.thresh })
  else if off = 0x40 then s.portCtl h page v
  else if off = 0x50 then s.portCancel h page
  else s

/-! Stores (R297, R299, R335). -/

def hartAddr (x : Hart) (r : Fin 32) (off : BitVec 12) : Nat := (x.reg r + off.signExtend 64).toNat

/-- The bytes of a store in their line. -/
def lineBytes (a n v : Nat) : List (Nat × Byte) := ((leBytes n v).zipIdx).map fun e => (a % 64 + e.2, e.1)

/-- Of memory, only an aligned access that is not a COUNTER access: another raises address-misaligned after its
translation, and every access to a COUNTER page its access fault (R299). -/
def hartStoreTo (h : Nat) (i : Option Instr) (rg : Regime) (n va v : Nat) (s : State) (dest : HTo) : State :=
  match dest with
  | .mem _ _ true | .peer _ true => s.hartTrap h ⟨7, va, 0⟩
  | .mem d tag false =>
    if va % n ≠ 0 then s.hartTrap h ⟨6, va, 0⟩
    else (s.bufferStore h rg (d / 64) (va / 64 * 64) tag (lineBytes d n v)).hartNext h
  | .peer p false =>
    if va % n ≠ 0 then s.hartTrap h ⟨6, va, 0⟩
    else (s.bufferStore h rg (peerBase + p / 64) (va / 64 * 64) 0 (lineBytes p n v)).hartNext h
  | .port k page off =>
    match (if off = 0x40 then s.portAgain k page (BitVec.ofNat 64 v) else none) with
    | some line => (s.noteRefusal line).retryHart h i
    | none => (s.portWrite k page off (BitVec.ofNat 64 v)).hartNext h
  | .register sl u r =>
    match unitReg u r with
    | some (true, _) => (s.hartNext h).post (.systemRegisterWrite sl u r (BitVec.ofNat 64 v) 0)
    | _ => s.hartNext h

/-- A store of n bytes of a value. -/
def State.hartStoreAt (s : State) (h : Nat) (i : Option Instr) (n va v : Nat) : State :=
  match s.hartXlate h .store va n with
  | (.error e, s1) => s1.hartFault h i e
  | (.ok dest, s1) => hartStoreTo h i (s1.regimeOf h .store) n va (v % 2 ^ (8 * n)) s1 dest

def execHartStore (h : Nat) (w : Width) (rs1 rs2 : Fin 32) (off : BitVec 12) (s : State) : Out :=
  onHart h (some (.hartStore h w rs1 rs2 off)) s fun x =>
    if 8 < widthBytes w then s.hartTrap h ⟨illegalInstruction, 0, 0⟩
    else s.hartStoreAt h (some (.hartStore h w rs1 rs2 off)) (widthBytes w) (hartAddr x rs1 off) (x.reg rs2).toNat

/-! Loads, LR, SC and AMOs (R297, R299, R320). -/

/-- R299: an operation of a hart on a turnstile; a release is held for earlier stores. -/
def State.hartTsIn (s : State) (h : Nat) (rg : Regime) (k : TsKind) (loc : TsLoc) (va tag : Nat) (amt : W64) (rd : Fin 32)
    (held : Bool) : State :=
  let (id, s1) := s.newId
  let o : TsOp := ⟨.hart h, k, loc, some ⟨rg, va, tag⟩, amt, 6, some (Fin.ofNat 64 rd.val), if held then .held else .sent, 0,
    [], false, none, rg.flowVf, rg.part⟩
  let s2 := (s1.setTs id o).setHart h { s1.hart h with outstanding := [id] }
  if held then s2.post (.heldReleaseSend id) else s2.sendTs id o

def State.hartTs (s : State) (h : Nat) (k : TsKind) (loc : TsLoc) (va tag : Nat) (amt : W64) (rd : Fin 32) (held : Bool) :
    State :=
  s.hartTsIn h (s.regimeOf h .load) k loc va tag amt rd held

def sregOf (rd : Fin 32) : SReg := Fin.ofNat 64 rd.val

/-- DEFAULT lease of R274. -/
def leaseDefault : Nat := 1

/-- What a load is: its width, whether it zero-extends, and its destination as of Hart.putReg. -/
structure HLoad where
  w : Width
  zext : Bool
  d : Nat
  deriving DecidableEq, Repr

def HLoad.bytes (k : HLoad) : Nat := widthBytes k.w

/-- A load from memory; that it zero-extends stands where a load of a troupe has its taint. -/
def State.hartLoad (s : State) (h : Nat) (rg : Regime) (k : HLoad) (va line tag addr : Nat) : State :=
  let s1 := s.drainLine h line
  s1.hartAwait h (s1.hartOp h rg (.load k.zext) k.w (some (Fin.ofNat 64 k.d)) leaseDefault line (va / 64 * 64) tag
    [⟨0, addr, 0, 0, false⟩])

/-- A load where its address leads: an ld of a COUNTER page is a tread, and any other access there faults; a window and a
port page read their registers. -/
def State.hartLoadTo (s : State) (h : Nat) (rg : Regime) (k : HLoad) (va : Nat) (dest : HTo) : State :=
  let ts := fun (loc : TsLoc) (tag : Nat) =>
    if k.bytes ≠ 8 ∨ 32 ≤ k.d ∨ va % 8 ≠ 0 then s.hartTrap h ⟨5, va, 0⟩
    else s.hartTsIn h rg .read loc va tag 0 (Fin.ofNat 32 k.d) false
  let ld := fun (line tag a : Nat) =>
    if va % k.bytes ≠ 0 then s.hartTrap h ⟨4, va, 0⟩ else s.hartLoad h rg k va line tag a
  let put := fun (v : W64) => s.setHart h ((s.hart h).putReg k.d v).next
  match dest with
  | .mem d tag true => ts (.home d) tag
  | .peer p true => ts (.peer p) 0
  | .mem d tag false => ld (d / 64) tag d
  | .peer p false => ld (peerBase + p / 64) 0 (64 * peerBase + p)
  | .port j page o => put (((s.hart j).port page).read o)
  | .register sl u r => put (BitVec.ofNat 64 (if (unitReg u r).isSome then s.readReg (s.hartPart h) sl u r .h else 0))

def State.hartLoadAt (s : State) (h : Nat) (i : Option Instr) (k : HLoad) (va : Nat) : State :=
  match s.hartXlate h .load va k.bytes with
  | (.error e, s1) => s1.hartFault h i e
  | (.ok dest, s1) => s1.hartLoadTo h (s1.regimeOf h .load) k va dest

/-- An aligned ld. -/
def execHartCounterLoad (h : Nat) (rd rs1 : Fin 32) (off : BitVec 12) (s : State) : Out :=
  onHart h (some (.hartCounterLoad h rd rs1 off)) s fun x =>
    s.hartLoadAt h (some (.hartCounterLoad h rd rs1 off)) ⟨.b64, false, rd.val⟩ (hartAddr x rs1 off)

def amoOps : List AtomOp := [.add, .umin, .smin, .umax, .smax, .and, .or, .xor, .xchg]

/-- An AMO: of a COUNTER page amoadd.d and amomaxu.d are releases, and every other access faults. -/
def hartAmoOp (h : Nat) (i : Option Instr) (op : AtomOp) (w64 : Bool) (rd rs1 rs2 : Fin 32) (s : State) : Out :=
  onHart h i s fun x =>
    let va := (x.reg rs1).toNat
    let v := x.reg rs2
    let n := if w64 then 8 else 4
    let w := if w64 then Width.b64 else Width.b32
    let ts := fun (s : State) (loc : TsLoc) (tag : Nat) =>
      if !w64 || decide (va % 8 ≠ 0) then s.hartTrap h ⟨7, va, 0⟩
      else if op = .add then
        (if 2 ^ 32 ≤ v.toNat then s.hartTrap h ⟨7, va, 0⟩ else s.hartTs h .fetch loc va tag v rd true)
      else if op = .umax then s.hartTs h .max loc va tag v rd true
      else s.hartTrap h ⟨7, va, 0⟩
    let amo := fun (s : State) (line tag a : Nat) =>
      let s1 := s.drainLine h line
      if va % n ≠ 0 then s.hartTrap h ⟨6, va, 0⟩
      else s1.hartAwait h (s1.hartOp h (s1.regimeOf h .amo) (.atomic op) w (some (sregOf rd)) noLease line (va / 64 * 64) tag
        [⟨0, a, v.toNat % 2 ^ (8 * n), 0, false⟩])
    if !amoOps.contains op then s.hartTrap h ⟨illegalInstruction, 0, 0⟩
    else match s.hartXlate h .amo va n with
      | (.error e, s1) => s1.hartFault h i e
      | (.ok (.mem d tag true), s1) => ts s1 (.home d) tag
      | (.ok (.peer p true), s1) => ts s1 (.peer p) 0
      | (.ok (.mem d tag false), s1) => amo s1 (d / 64) tag d
      | (.ok (.peer p false), s1) => amo s1 (peerBase + p / 64) 0 (64 * peerBase + p)
      | (.ok _, s1) => s1.hartTrap h ⟨7, va, 0⟩

def execHartAmoaddD (h : Nat) (rd rs1 rs2 : Fin 32) (s : State) : Out :=
  hartAmoOp h (some (.hartAmoaddD h rd rs1 rs2)) .add true rd rs1 rs2 s

def execHartAmomaxuD (h : Nat) (rd rs1 rs2 : Fin 32) (s : State) : Out :=
  hartAmoOp h (some (.hartAmomaxuD h rd rs1 rs2)) .umax true rd rs1 rs2 s

def execHartAmo (h : Nat) (op : AtomOp) (w64 : Bool) (rd rs1 rs2 : Fin 32) (s : State) : Out :=
  hartAmoOp h (some (.hartAmo h op w64 rd rs1 rs2)) op w64 rd rs1 rs2 s

/-- LR and SC, on ordinary memory of this module. -/
def hartReserve (h : Nat) (i : Option Instr) (k : MemKind) (acc : HAcc) (w64 : Bool) (rd rs1 : Fin 32) (v : Hart → W64)
    (s : State) : Out :=
  onHart h i s fun x =>
    let va := (x.reg rs1).toNat
    let n := if w64 then 8 else 4
    match s.hartXlate h acc va n with
      | (.error e, s1) => s1.hartFault h i e
      | (.ok (.mem d tag false), s1) =>
        let s2 := s1.drainLine h (d / 64)
        if va % n ≠ 0 then s1.hartTrap h ⟨acc.codes.1 - 1, va, 0⟩
        else s2.hartAwait h (s2.hartOp h (s2.regimeOf h acc) k (if w64 then .b64 else .b32) (some (sregOf rd)) noLease (d / 64) (va / 64 * 64) tag
          [⟨0, d, (v x).toNat % 2 ^ (8 * n), 0, false⟩])
      | (.ok _, s1) => s1.hartTrap h ⟨acc.codes.1, va, 0⟩

def execHartLr (h : Nat) (w64 : Bool) (rd rs1 : Fin 32) (s : State) : Out :=
  hartReserve h (some (.hartLr h w64 rd rs1)) .lr .load w64 rd rs1 (fun _ => 0) s

def execHartSc (h : Nat) (w64 : Bool) (rd rs1 rs2 : Fin 32) (s : State) : Out :=
  hartReserve h (some (.hartSc h w64 rd rs1 rs2)) .sc .store w64 rd rs1 (fun x => x.reg rs2) s

/-! Fences and cache blocks (R298). -/

/-- The buffer is empty, every GWCT is here, and the latest has passed. -/
def State.hartDrained (s : State) (h : Nat) : Bool :=
  (s.hart h).sbuf.isEmpty && !s.hartBusy h && decide ((s.hart h).gwct ≤ s.tick)

def hartFenceThen (h : Nat) (i : Option Instr) (f : Hart → Hart) (s : State) : Out :=
  onHart h i s fun x => if s.hartDrained h then s.setHart h (f x).next else (s.drainAll h).retryHart h i

def execHartFence (h : Nat) (s : State) : Out := hartFenceThen h (some (.hartFence h)) id s

def Hart.noFetched (x : Hart) : Hart := { x with icache := [] }
def execHartFenceI (h : Nat) (s : State) : Out := hartFenceThen h (some (.hartFenceI h)) Hart.noFetched s

/-- The exception that the environment registers raise for a cache-block instruction, at bits lo of each (RISC-V). -/
def Hart.cboFault (x : Hart) (lo n : Nat) : Option Nat :=
  let off := fun (c : Nat) => decide (bitsOf (x.csr? c) lo n = 0)
  match x.mode with
  | .m => none
  | .hs => if off csrMenvcfg then some illegalInstruction else none
  | .u => if off csrMenvcfg || off csrSenvcfg then some illegalInstruction else none
  | .vs => if off csrMenvcfg then some illegalInstruction else if off csrHenvcfg then some virtualInstruction else none
  | .vu => if off csrMenvcfg then some illegalInstruction
    else if off csrHenvcfg || off csrSenvcfg then some virtualInstruction else none

/-- A cache-block instruction waits until the buffer holds no store to the block. -/
def hartBlockOp (h : Nat) (i : Option Instr) (rs1 : Fin 32) (inval drop : Bool) (s : State) : Out :=
  onHart h i s fun x =>
    let va := (x.reg rs1).toNat
    match (if inval then x.cboFault 4 2 else x.cboFault 6 1) with
    | some c => s.hartTrap h ⟨c, 0, 0⟩
    | none => match s.hartXlate h .store va 1 with
      | (.error e, s1) => s1.hartFault h i e
      | (.ok (.mem _ _ true), s1) => s1.hartTrap h ⟨7, va, 0⟩
      | (.ok dest, s1) =>
        let line := match dest with
          | .mem d _ _ => d / 64
          | .peer p _ => peerBase + p / 64
          | _ => 0
        if ((s1.hart h).entry? line).isSome then (s1.drainLine h line).retryHart h i
        else s1.setHart h { (s1.hart h).next with
          dcache := if drop then sdel line (s1.hart h).dcache else (s1.hart h).dcache }

def execCboClean (h : Nat) (rs1 : Fin 32) (s : State) : Out := hartBlockOp h (some (.cboClean h rs1)) rs1 false false s
def execCboFlush (h : Nat) (rs1 : Fin 32) (s : State) : Out := hartBlockOp h (some (.cboFlush h rs1)) rs1 false true s
def execCboInval (h : Nat) (rs1 : Fin 32) (s : State) : Out := hartBlockOp h (some (.cboInval h rs1)) rs1 true true s

/-! Translation fences (R343). -/

/-- RISC-V: whether the mode may run the fence. -/
def Hart.fenceFault (x : Hart) (hyper tvm : Bool) : Option Nat :=
  match x.mode with
  | .m => none
  | .hs => if tvm && bitN (x.csr? csrMstatus) 20 then some illegalInstruction else none
  | .u => some illegalInstruction
  | .vs => if hyper || bitN (x.csr? csrHstatus) 20 then some virtualInstruction else none
  | .vu => some virtualInstruction

def hartTlbFence (h : Nat) (i : Option Instr) (hyper tvm : Bool) (drops : Hart → TlbEntry → Bool) (s : State) : Out :=
  onHart h i s fun x => match x.fenceFault hyper tvm with
    | some c => s.hartTrap h ⟨c, 0, 0⟩
    | none => s.setHart h { x.next with tlb := x.tlb.filter fun e => !drops x e }

def guestEntry (e : TlbEntry) : Bool := decide (e.regime.priv ≠ .h)

/-- SFENCE.VMA concerns the translations of the virtual machine it runs in, or those of no virtual machine. -/
def dropsVma (x : Hart) (e : TlbEntry) : Bool :=
  if x.mode.guest then guestEntry e && decide (e.regime.vf = x.vf) else !guestEntry e
def dropsVvma (x : Hart) (e : TlbEntry) : Bool := guestEntry e && decide (e.regime.vf = x.vf)
def dropsGvma (_ : Hart) (e : TlbEntry) : Bool := guestEntry e

def execHartSfenceVma (h : Nat) (s : State) : Out :=
  hartTlbFence h (some (.hartSfenceVma h)) false true dropsVma s

def execHartHfenceVvma (h : Nat) (s : State) : Out :=
  hartTlbFence h (some (.hartHfenceVvma h)) true false dropsVvma s

def execHartHfenceGvma (h : Nat) (s : State) : Out :=
  hartTlbFence h (some (.hartHfenceGvma h)) true true dropsGvma s

/-! Timers (R296): time reads %tick. -/

def mipStip : Nat := 5
def mipVstip : Nat := 6

/-- The comparator's pending bit follows the comparison. -/
def execSstcTimer (h : Nat) (virt : Bool) (s : State) : Out :=
  .next <|
  let x := s.hart h
  let time := if virt then (s.tick + x.csr? csrHtimedelta) % 2 ^ 64 else s.tick
  let fires := decide (x.csr? (if virt then csrVstimecmp else csrStimecmp) ≤ time)
  s.setHart h (x.setCsr csrMip (putBits (x.csr? csrMip) (if virt then mipVstip else mipStip) 1 (if fires then 1 else 0)))

end Sys2Proof.Machine
end

