-- ==== Sys2Proof/Machine/Resources.lean ====
section
/-! DEFINITION. Units of a core: quotas, what a block is given, its arrival, start and end, and what is discarded (R142,
R173 to R182, R193 to R199, R253, R269, R357, R400). -/

namespace Sys2Proof.Machine

/-! Quotas (R193, R194). -/

def rangesMeet (a m b n : Nat) : Bool := decide (m ≠ 0 ∧ n ≠ 0 ∧ a < b + n ∧ b < a + m)

def Quota.meets (q r : Quota) : Bool :=
  rangesMeet q.sbase q.scount r.sbase r.scount || rangesMeet q.rbase q.rcount r.rbase r.rcount ||
  rangesMeet q.pbase q.pcount r.pbase r.pcount || rangesMeet q.obase q.ocount r.obase r.ocount

/-- R194. -/
def State.quotaOk (s : State) (core vf : Nat) (val : W64) : Bool :=
  let q := Quota.of val.toNat
  decide (val.toNat % 2 ^ 15 = 0) && decide (q.sbase + q.scount ≤ 32) && decide (q.rbase + q.rcount ≤ 256) &&
  decide (q.pbase + q.pcount ≤ 20) && decide (q.obase + q.ocount ≤ 16) &&
  (otherVfs vf).all fun u => !q.meets (s.quotaHeld core u)

/-- The value before this tick stays in force until the next. -/
def State.latchQuota (s : State) (slice core vf : Nat) : State :=
  let u := coreUnit core
  if (s.reg slice u (quotaWhenReg vf)).toNat = s.tick + 1 then s
  else (s.setReg slice u (quotaOldReg vf) (s.reg slice u vf)).setReg slice u (quotaWhenReg vf) (BitVec.ofNat 64 (s.tick + 1))

def execCquotaWrite (slice core vf : Nat) (val : W64) (req : Nat) (s : State) : Out :=
  .next (if s.quotaOk core vf val then (s.latchQuota slice core vf).writeReg slice (coreUnit core) vf val req
    else s.reply req replyRefused)

/-! What a block asks for, and where it fits (R177 to R179, R195). -/

/-- Slots, register groups, granules and operand slots. -/
structure Ask where
  t : Nat
  r : Nat
  g : Nat
  n : Nat
  deriving DecidableEq, Repr

/-- The units given, those that were borrowed among them. -/
structure Fit where
  slots : List Nat
  groups : List Nat
  g0 : Nat
  opslots : List Nat
  borrowed : List CoreUnit
  deriving DecidableEq, Repr

/-- The units of a kind a VF owns, and those of its lenders in order. -/
def State.lenders (s : State) (core vf : Nat) : List Quota :=
  ((otherVfs vf).map (s.quota core)).filter (·.lend)

/-- n free units, own ones first, ascending, and those that were borrowed. -/
def takeFree (free : Nat → Bool) (own : List Nat) (lent : List Nat) (n : Nat) : Option (List Nat × List Nat) :=
  let o := (own.filter free).take n
  let b := (lent.filter free).take (n - o.length)
  if o.length + b.length = n then some (o ++ b, b) else none

/-- The lowest run of g granules within the units of a range. -/
def runIn (free : Nat → Bool) (pbase pcount g : Nat) : Option Nat :=
  (rangeOf (8 * pbase) (8 * pcount + 1 - g)).find? fun a => (rangeOf a g).all free

def granUnits (a g : Nat) : List CoreUnit := (rangeOf a g).map CoreUnit.granule

/-- R178. -/
def State.fit (s : State) (core vf : Nat) (a : Ask) (borrow : Bool) : Option Fit :=
  let q := s.quota core vf
  let held := s.heldUnits core
  let free := fun (f : Nat → CoreUnit) (i : Nat) => !held.contains (f i)
  let ls := if borrow && q.borrow then s.lenders core vf else []
  match takeFree (free .slot) (rangeOf q.sbase q.scount) (ls.flatMap fun l => rangeOf l.sbase l.scount) a.t,
      takeFree (free .group) (rangeOf q.rbase q.rcount) (ls.flatMap fun l => rangeOf l.rbase l.rcount) a.r,
      takeFree (free .opslot) (rangeOf q.obase q.ocount) (ls.flatMap fun l => rangeOf l.obase l.ocount) a.n with
  | some (ss, sb), some (gs, gb), some (os, ob) =>
    let b := sb.map CoreUnit.slot ++ gb.map CoreUnit.group ++ ob.map CoreUnit.opslot
    if a.g = 0 then some ⟨ss, gs, 0, os, b⟩
    else match runIn (free .granule) q.pbase q.pcount a.g with
      | some g0 => some ⟨ss, gs, g0, os, b⟩
      | none => match ls.findSome? fun l => runIn (free .granule) l.pbase l.pcount a.g with
        | some g0 => some ⟨ss, gs, g0, os, b ++ granUnits g0 a.g⟩
        | none => none
  | _, _, _ => none

/-- R179. -/
def State.neverFits (s : State) (core vf : Nat) (a : Ask) : Bool :=
  let q := s.quota core vf
  let ls := if q.borrow then s.lenders core vf else []
  s.coreRetired core || decide (160 < a.g) || decide (16 < a.n) || decide (q.scount + sumNat (ls.map (·.scount)) < a.t) ||
  decide (q.rcount + sumNat (ls.map (·.rcount)) < a.r) || decide (q.ocount + sumNat (ls.map (·.ocount)) < a.n) ||
  (decide (8 * q.pcount < a.g) && ls.all fun l => decide (8 * l.pcount < a.g))

def unitRank : CoreUnit → Nat
  | .slot i => i
  | .group i => 2 ^ 10 + i
  | .granule i => 2 ^ 11 + i
  | .opslot i => 2 ^ 12 + i

/-- R195, R197: slots, groups, granules, operand slots, each kind ascending. -/
def spillOrder : Nat → List CoreUnit → List CoreUnit
  | 0, us => us
  | n + 1, us => match leastBy unitRank us with
    | some u => u :: spillOrder n (us.filter fun x => decide (x ≠ u))
    | none => []

def ascending (us : List CoreUnit) : List CoreUnit := spillOrder us.length us

/-- The units of the blocks of other VFs that a reclaim may take, those of the latest arrival first, ascending. -/
def State.borrowed (s : State) (core vf : Nat) : List (CoreUnit × Nat) :=
  let rs := (s.core core).reclaims
  let away := rs.flatMap (·.chosen)
  let bs := s.blocks.filter fun e => decide (e.2.core = core) && decide (e.2.regime.vf ≠ vf) &&
    !(rs.any fun r => decide (r.arriving = e.1)) &&
    (match e.2.state with
     | .saved | .ending | .reserving | .arriving => false
     | _ => true)
  let order := bs.foldl (fun acc e =>
    acc.takeWhile (fun (x : Nat × Block) => decide (e.2.arrived < x.2.arrived)) ++ e ::
      acc.dropWhile fun (x : Nat × Block) => decide (e.2.arrived < x.2.arrived)) []
  order.flatMap fun e => (ascending (e.2.unitsHeld.filter fun u => !away.contains u)).map fun u => (u, e.1)

/-- Units of one kind by R195: free ones of the range, then borrowed ones in the order given. -/
def takeBack (own : List Nat) (free : Nat → Bool) (lent : List Nat) (n : Nat) : Option (List Nat × List Nat) :=
  takeFree free own (lent.filter fun i => own.contains i && !free i) n

/-- R195: where a block fits by reclaim: its units, those taken from borrowers, and the victims. -/
def State.reclaimFit (s : State) (core vf : Nat) (a : Ask) : Option (Fit × List CoreUnit × List Nat) :=
  let q := s.quota core vf
  let held := s.heldUnits core
  let lent := s.borrowed core vf
  let free := fun (f : Nat → CoreUnit) (i : Nat) => !held.contains (f i)
  let slots := lent.filterMap fun e => match e.1 with | .slot i => some i | _ => none
  let groups := lent.filterMap fun e => match e.1 with | .group i => some i | _ => none
  let ops := lent.filterMap fun e => match e.1 with | .opslot i => some i | _ => none
  let grans := lent.filterMap fun e => match e.1 with | .granule i => some i | _ => none
  match takeBack (rangeOf q.sbase q.scount) (free .slot) slots a.t,
      takeBack (rangeOf q.rbase q.rcount) (free .group) groups a.r,
      takeBack (rangeOf q.obase q.ocount) (free .opslot) ops a.n,
      (if a.g = 0 then some 0
       else runIn (fun g => free .granule g || grans.contains g) q.pbase q.pcount a.g) with
  | some (ss, sb), some (gs, gb), some (os, ob), some g0 =>
    let chosen := sb.map CoreUnit.slot ++ gb.map CoreUnit.group ++
      (granUnits g0 a.g).filter (fun u => held.contains u) ++ ob.map CoreUnit.opslot
    some (⟨ss, gs, g0, os, []⟩, chosen, toKeys ((lent.filter fun e => chosen.contains e.1).map (·.2)))
  | _, _, _, _ => none

/-! Zeroing (R180, R400). -/

/-- The bytes of a unit are zero again. -/
def Core.zeroUnit (c : Core) (u : CoreUnit) : Core :=
  match u with
  | .granule g =>
    { c with
      ua := c.ua.filter fun e => decide (e.1 / 4096 ≠ g)
      uaPoison := c.uaPoison.filter fun w => decide (w / 512 ≠ g) }
  | .opslot i =>
    { c with
      opm := c.opm.filter fun e => decide (e.1 / 32768 ≠ i)
      opmPoison := c.opmPoison.filter fun w => decide (w / 4096 ≠ i) }
  | _ => c

def State.release? (s : State) (core : Nat) (us : List CoreUnit) : State :=
  if us.isEmpty then s
  else (s.setCore core { s.core core with zeroing := (s.core core).zeroing ++ us }).postOnce (.unitZero core)

/-- The halted blocks of a core that a change of its units may let resume (R198). -/
def State.tryRefills (s : State) (core : Nat) : State :=
  (s.blocks.filter fun e => decide (e.2.core = core) && decide (e.2.state = .halted)).foldl
    (fun s e => s.postOnce (.refill e.1)) s

/-- Kinds of units, each zeroed at 1 KiB a clock (R180), and the clocks of a unit in 64ths: 2 KiB of a slot's control state,
4 KiB of a group or granule, 32 KiB of an operand slot. -/
def CoreUnit.kind : CoreUnit → Nat
  | .slot _ => 0
  | .group _ => 1
  | .granule _ => 2
  | .opslot _ => 3

def zeroClocks (kind : Nat) : Nat := if kind = 0 then 128 else if kind = 3 then 2048 else 256

/-- The units of one kind whose turn has come by a clock are zero, n of them at most; they follow one another. -/
def Core.zeroKind (now kind : Nat) : Nat → Core → Core
  | 0, c => c
  | n + 1, c =>
    match c.zeroing.find? fun u => decide (u.kind = kind) with
    | none => { c with zeroDue := sdel kind c.zeroDue }
    | some u => match sfind kind c.zeroDue with
      | none => { c with zeroDue := sset kind (now + zeroClocks kind) c.zeroDue }
      | some d =>
        if now < d then c
        else
          let c1 := { (c.zeroUnit u) with zeroing := c.zeroing.erase u, zeroDue := sset kind (d + zeroClocks kind) c.zeroDue }
          Core.zeroKind now kind n c1

def walkUnits (w : WayWalk) : List CoreUnit := granUnits (8 * w.unit) 8

/-- R400: ways whose walk is over and whose write-backs are done wait for their turn to be zeroed, in this order. -/
def State.queueWalks (s : State) (core now : Nat) : State :=
  let c := s.core core
  let ready := fun (w : WayWalk) => !w.queued && decide (w.ends ≤ now) && w.op.all s.opDone
  s.setCore core { c with
    zeroing := c.zeroing ++ (c.walks.filter ready).flatMap walkUnits
    walks := c.walks.map fun (w : WayWalk) => if ready w then { w with queued := true } else w }

/-- A block's end as its ticket sees it. -/
def State.blockDone (s : State) (ticket gwct : Nat) : State :=
  match sfind ticket s.pkg.tickets with
  | none => s
  | some t =>
    (s.setPkg { s.pkg with
      tickets := sset ticket { t with live := t.live - 1, gwct := Nat.max t.gwct gwct } s.pkg.tickets }).post
      (.ticketComplete ticket)

/-- R181: blocks that ended are reported once their units are zero. -/
def State.reportEnded (s : State) (core : Nat) : State :=
  let c := s.core core
  let done := fun (e : EndedBlock) => !(e.units.any fun u => c.zeroing.contains u)
  (c.ended.filter done).foldl (fun s e => s.blockDone e.ticket e.gwct)
    (s.setCore core { c with ended := c.ended.filter fun e => !done e })

def execUnitZero (core : Nat) (s : State) : Out :=
  .next <|
  let now := s.clocks64 (coreSlice core)
  let s1 := s.queueWalks core now
  let c1 := s1.core core
  let c2 := (List.range 4).foldl (fun c k => c.zeroKind now k (c1.zeroing.length + 1)) c1
  let zeroed := fun (w : WayWalk) => w.queued && !((walkUnits w).any fun u => c2.zeroing.contains u)
  let s2 := (s1.setCore core { c2 with walks := c2.walks.filter fun w => !zeroed w }).reportEnded core
  let s3 := if c2.zeroing.length < c1.zeroing.length then s2.tryRefills core else s2
  let c3 := s3.core core
  if c3.zeroing.isEmpty && c3.walks.isEmpty && c3.ended.isEmpty then s3 else s3.laterOnce (.unitZero core)

/-! Troupes that change their number. -/

def Owner.rekey (old new : Nat) : Owner → Owner
  | .troupe k => .troupe (if k = old then new else k)
  | o => o

def WaiterOf.rekey (old new : Nat) : WaiterOf → WaiterOf
  | .troupe k i => .troupe (if k = old then new else k) i
  | w => w

/-- What is in flight for one troupe is in flight for another number. -/
def State.rekey (s : State) (old new : Nat) : State :=
  let n := fun (k : Nat) => if k = old then new else k
  let f := s.flight
  let f1 : Flight := { f with
    mem := f.mem.map fun (e : Nat × MemOp) => (e.1, { e.2 with owner := e.2.owner.rekey old new })
    ts := f.ts.map fun (e : Nat × TsOp) => (e.1, { e.2 with owner := e.2.owner.rekey old new })
    reqs := f.reqs.map fun (e : Nat × Request) => (e.1, { e.2 with troupe := n e.2.troupe })
    chains := f.chains.map fun (e : Nat × Chain) => (e.1, { e.2 with troupe := n e.2.troupe })
    books := f.books.map fun (e : Nat × BookLoad) => (e.1, { e.2 with troupe := n e.2.troupe })
    waiters := f.waiters.map fun (e : Nat × Waiter) => (e.1, { e.2 with who := e.2.who.rekey old new }) }
  (s.setFlight f1).setFab { s.fab with
    messages := s.fab.messages.map fun (e : Nat × Message) => (e.1, { e.2 with troupe := n e.2.troupe }) }

/-- The troupes of a block in their slots, and those out of them, by number. -/
def State.troupesOf (s : State) (bid : Nat) : List (Nat × Troupe) := s.troupes.filter fun e => decide (e.2.block = bid)

def State.savedOf (s : State) (bid : Nat) : List (Nat × Saved) := s.pkg.saved.filter fun e => decide (e.2.block = bid)

/-- The troupe is no longer in its slot. -/
def State.dropTroupe (s : State) (num : Nat) : State :=
  let core := num / 32
  let c := s.core core
  let s1 := s.setCore core { c with pipes := c.pipes.filter fun e => decide (e.2 ≠ num % 32) }
  { s1 with
    troupes := sdel num s1.troupes
    current := if s1.current = some (keyOf num) then none else s1.current }

/-- A troupe that stands in its slot takes up what it waits for. -/
def State.rearm (s : State) (k : TKey) : State :=
  match s.troupe? k with
  | none => s
  | some t =>
    let s1 := match t.susp with
      | .sleep w => s.at w (.sleepWake k.core k.slot)
      | .wait w =>
        let s2 := match w.deadline with
          | some d => s.at d (.waitTimeout k.core k.slot)
          | none => s
        let ws := s2.waitersOf (ofTroupe k.num)
        if w.first && ws.isEmpty then
          match s2.ownerRegime (.troupe k.num) with
          | some rg => s2.startConds (fun i => .troupe k.num i) w rg.flowVf rg.part
          | none => s2
        else ws.foldl (fun s (e : Nat × Nat × Waiter) => s.post (.wakeReceive e.1)) s2
      | .waitout _ => s.post (.waitoutComplete k.core k.slot)
      | .fence .. => s.post (.fenceComplete k.core k.slot)
      | .pageFault .. => s.post (.contextSave k.core k.slot)
      | _ => s
    s1.reGrant k

/-! Arrival (R177, R178, R182, R269, R400). -/

/-- Fields of a ticket (R370). -/
def Ticket.f (t : Ticket) (d lo len : Nat) : Nat := bitsOf (dword t.words d) lo len
def Ticket.tpb (t : Ticket) : Nat := t.f 7 0 5
def Ticket.rg (t : Ticket) : Nat := t.f 7 8 4
def Ticket.d (t : Ticket) : Nat := t.f 7 12 20
def Ticket.c (t : Ticket) : Nat := 64 * t.f 7 32 7
def Ticket.nslot (t : Ticket) : Nat := t.f 7 40 5
def Ticket.gx (t : Ticket) : Nat := t.f 6 0 32
def Ticket.gy (t : Ticket) : Nat := t.f 6 32 16
def Ticket.gz (t : Ticket) : Nat := t.f 6 48 16
def Ticket.blocks (t : Ticket) : Nat := t.gx * t.gy * t.gz
def Ticket.resident (t : Ticket) : Bool := bitN (dword t.words 8) 24
def Ticket.ordered (t : Ticket) : Bool := bitN (dword t.words 8) 25

def Ticket.ask (t : Ticket) : Ask := ⟨t.tpb, t.tpb * t.rg, ceilDiv (t.d + t.c) 4096, t.nslot⟩

def State.ticket? (s : State) (id : Nat) : Option Ticket := sfind id s.pkg.tickets
def State.setTicket (s : State) (id : Nat) (t : Ticket) : State := s.setPkg { s.pkg with tickets := sset id t s.pkg.tickets }
def State.modTicket (s : State) (id : Nat) (f : Ticket → Ticket) : State :=
  match s.ticket? id with
  | some t => s.setTicket id (f t)
  | none => s

def Queue.tvec (q : Queue) : VAddr := BitVec.ofNat 57 (q.f 3 0 57)
def Queue.space (q : Queue) : W64 := q.entry.getD 1 0

def Queue.regime (q : Queue) (part : Nat) : Regime := ⟨part, q.vf, q.priv, q.space⟩

def noQueue : Queue := ⟨[], .off, 0, 0, false⟩

/-- R65, R373: troupe k of a block, with its start values. -/
def State.startTroupe (s : State) (bid : Nat) (b : Block) (t : Ticket) (k : Nat) : Troupe :=
  let q := (s.queue? t.part t.queue).getD noQueue
  let code := BitVec.ofNat 57 (t.f 0 0 57)
  let per := t.rg
  let uni := ((UniRegs.zero.put 0 (BitVec.ofNat 64 (t.f 1 0 57)) false).put 1 (BitVec.ofNat 64 t.addr) false).put 2
    (BitVec.ofNat 64 b.linear) false
  ⟨bid, k, 16 * per, (b.groups.drop (per * k)).take per, LaneRegs.zero, 0, uni,
    [⟨s.headerPrio b.core b.regime code, code, 0, BitVec.allOnes 64⟩], Counters.zero, TrapState.zero, q.tvec, none, .none,
    false, false, 0, 0, false, 0, 0⟩

/-- The units of the array that are L1 ways and of which some granules are given to a block: no other granule of theirs
is held, but by a block whose own arrival is still to come, and none is being zeroed. -/
def State.newUnits (s : State) (bid : Nat) (b : Block) (gs : List Nat) : List Nat :=
  let held := fun (e : Nat × Block) =>
    let all := rangeOf e.2.g0 e.2.grans
    if e.1 = bid then all.filter fun g => !gs.contains g
    else match e.2.state with
      | .saved | .reserving | .arriving => []
      | .refilling => all
      | _ => all.filter fun g => !e.2.spill.contains (.granule g)
  let others := (s.blocks.filter fun e => decide (e.2.core = b.core)).flatMap held
  let c := s.core b.core
  let zeroing := c.zeroing.filterMap fun u => match u with
    | .granule g => some g
    | _ => none
  let used := (others ++ zeroing).map granUnit ++ c.walks.map (·.unit)
  (toKeys (gs.map granUnit)).filter fun u => !used.contains u

/-- The tick in which a clock of a slice falls. -/
def State.clockTick (s : State) (slice c64 : Nat) : Nat :=
  let rate := Nat.max 1 (5 * (16 - s.level slice))
  s.tick + ceilDiv (c64 - s.clocks64 slice) rate

/-- R182, R400: the PINNED lines of a way leave the L1, and each goes to its home when the walk comes to its set. -/
def State.walkBacks (s : State) (core unit start : Nat) : Option Nat × State :=
  let c := s.core core
  let keys := ((c.l1.filter fun e => decide (e.1 / 512 = unit)).filter fun e => e.2.isPinned).map (·.1)
  let ps := keys.filterMap fun k => (c.backPart k).map fun p => (k, p)
  match ps with
  | [] => (none, s)
  | p :: _ =>
    let (id, s1) := s.newId
    let rg : Regime := ⟨((s.partOf (coreSlice core)).getD 0), p.2.2, .s, 0⟩
    let o : MemOp := ⟨.core core, .writeBack false, .b64, none, core, 0, rg, 6, 1, 0, none, ps.map (·.2.1), false⟩
    (some id, ps.foldl (fun s q =>
      s.at (s.clockTick (coreSlice core) (start + 64 * (q.1 % 512 / 8))) (.retry id q.2.1.line)) (s1.setOp id o))

/-- R182, R400: one way that becomes scratchpad is walked, after those before it. -/
def State.walkWay (s : State) (core block unit : Nat) : State :=
  let start := maxList (s.clocks64 (coreSlice core) :: (s.core core).walks.map (·.ends))
  let (op, s1) := s.walkBacks core unit start
  let c := s1.core core
  s1.setCore core { c with
    l1 := c.l1.filter fun e => decide (e.1 / 512 ≠ unit)
    walks := c.walks ++ [⟨block, unit, start + 64 * 64, op, false⟩] }

def State.clearWays (s : State) (core block : Nat) (units : List Nat) : State :=
  if units.isEmpty then s else (units.foldl (fun s u => s.walkWay core block u) s).postOnce (.unitZero core)

/-- A reclaim is taking units for the block. -/
def State.reclaiming (s : State) (bid : Nat) (b : Block) : Bool :=
  (s.core b.core).reclaims.any fun r => decide (r.arriving = bid)

/-- The block has every unit: its ways are cleared and its troupes stand in their slots. -/
def execBlockArrival (block : Nat) (s : State) : Out :=
  .next <|
  match s.block? block with
  | none => s
  | some b =>
    if b.state ≠ .arriving || s.reclaiming block b then s
    else
      match s.ticket? b.ticket with
      | none => s
      | some t =>
        let s1 := s.clearWays b.core block (s.newUnits block b (rangeOf b.g0 b.grans))
        let s2 := if (s.savedOf block).isEmpty then
          (b.slots.zipIdx).foldl (fun s e => s.setTroupe ⟨b.core, e.1⟩ (s.startTroupe block b t e.2)) s1 else s1
        (s2.modBlock block fun b => { b with state := .clearing }).post (.blockStart block)

/-- R182, R400: what keeps a block from starting: writes it awaits, units of its own that are being zeroed, and L1 ways of
which it has granules. -/
def State.notReady (s : State) (b : Block) : Bool :=
  let c := s.core b.core
  b.ways.any (fun o => !s.opDone o) || (c.zeroing.any fun u => b.units.contains u) ||
  c.walks.any fun w => (walkUnits w).any fun u => b.units.contains u

/-- Its troupes can be selected from now on. -/
def State.runBlock (s : State) (block : Nat) : State :=
  let s1 := s.modBlock block fun b => { b with state := .running }
  (s1.troupesOf block).foldl (fun s e => s.rearm (keyOf e.1)) s1

/-- The blocks of a ticket; shares of units that are not whole yet are none (R383). -/
def State.blocksOf (s : State) (ticket : Nat) : List (Nat × Block) :=
  s.blocks.filter fun e => decide (e.2.ticket = ticket) && decide (e.2.state ≠ .reserving)

/-- A snapshot with Q keeps the blocks of its partition halted until C (R396). -/
def State.quiesced (s : State) (part : Nat) : Bool :=
  match s.part? part with
  | some p => decide (p.snap.state = .arming) && bitN (s.reg (s.firstSlice part) 0 0xC4).toNat 8
  | none => false

/-- R269, R390: every block of a launch that has not ended holds its resources. -/
def State.allGathered (s : State) (ticket : Nat) (t : Ticket) : Bool :=
  let bs := (s.blocksOf ticket).filter fun e => decide (e.2.state ≠ .ending)
  decide (t.placed = t.blocks) && !bs.isEmpty && bs.all fun e => decide (e.2.state = .gathered)

/-- R269: the start tick is named once every block holds its resources. -/
def State.gangCheck (s : State) (ticket : Nat) : State :=
  match s.ticket? ticket with
  | none => s
  | some t =>
    if s.allGathered ticket t then
      (s.setTicket ticket { t with startTick := some (s.tick + 16) }).at (s.tick + 16) (.residentGangStart ticket)
    else s

def execResidentGangStart (ticket : Nat) (s : State) : Out :=
  .next <|
  match s.ticket? ticket with
  | none => s
  | some t => match t.startTick with
    | none => s
    | some x =>
      if s.tick < x then s
      else if s.quiesced t.part then s.later (.residentGangStart ticket)
      else if s.allGathered ticket t then
        let s1 := s.modPart t.part fun p => if p.gathering = some ticket then { p with gathering := none } else p
        ((s1.blocksOf ticket).filter fun e => decide (e.2.state = .gathered)).foldl (fun s e => s.runBlock e.1) s1
      else s.setTicket ticket { t with startTick := none }

/-! The end of a troupe and of a block (R142, R181, R263). -/

def Counters.none (c : Counters) : Bool := decide (c = Counters.zero)

/-- R86, R142: no register of the troupe is empty or pending. -/
def Troupe.written (t : Troupe) : Bool := t.lane.empty.isEmpty && decide (t.uni.sPending = 0)

/-- The slot and groups of a troupe go; its claims too (R188). -/
def State.releaseTroupe (s : State) (num : Nat) (t : Troupe) (claims : Bool) : State :=
  let core := num / 32
  let slot := num % 32
  let s1 := (s.dropTroupe num).modBlock t.block fun b =>
    { b with
      slots := b.slots.filter (· ≠ slot)
      groups := b.groups.filter fun g => !t.groups.contains g
      gwct := Nat.max b.gwct t.gwct
      claims := if claims then b.claims.filter fun e => decide (e.2 ≠ t.index) else b.claims }
  s1.release? core (CoreUnit.slot slot :: t.groups.map CoreUnit.group)

def execTroupeEnd (core slot : Nat) (s : State) : Out :=
  let k : TKey := ⟨core, slot⟩
  .next <|
  match s.troupe? k with
  | none => s
  | some t =>
    if t.live ≠ 0 then s
    else if !t.cnt.none || !t.written then s.later (.troupeEnd core slot)
    else
      let g := maxList (t.gwct :: (s.chainsOf k.num).map fun (e : Nat × Chain) => e.2.gwct)
      let s1 := (s.releaseTroupe k.num { t with gwct := g } true).withdraw (ofTroupe k.num)
      let fl := { s1.flight with chains := s1.flight.chains.filter fun e => decide (e.2.troupe ≠ k.num) }
      let s2 := (s1.setFlight fl).rekey k.num noTroupe
      if (s2.troupesOf t.block).isEmpty && (s2.savedOf t.block).isEmpty then
        s2.post (.blockEnd t.block)
      else s2

/-- The lines a block pinned go back to their homes; the operations that take them there. -/
def State.backPins (s : State) (bid : Nat) (b : Block) : List Nat × State :=
  let keys := ((s.core b.core).l1.filter fun e => match e.2.state with
    | .pinned (.block x) _ _ _ => decide (x = bid)
    | _ => false).map (·.1)
  let (op, s1) := s.writeBacks b.core keys (.core b.core) false false
  (if keys.isEmpty then [] else [op], s1)

def State.freeFrames (s : State) (part queue : Nat) (fs : List Nat) : State :=
  s.modPart part fun p =>
    { p with framesUsed := sput [] queue ((sget [] queue p.framesUsed).filter fun i => !fs.contains i) p.framesUsed }

/-- A reclaim for a block that is gone is over, and its victims resume; a victim that is gone is no longer awaited. -/
def State.fixReclaims (s : State) (core bid : Nat) : State :=
  let c := s.core core
  let rs := (c.reclaims.filter fun r => decide (r.arriving ≠ bid)).map fun (r : Reclaim) =>
    { r with victims := r.victims.filter (· ≠ bid) }
  let unneeded := rs.filter fun r => r.victims.isEmpty
  let s1 := s.setCore core { c with reclaims := rs.filter fun r => !r.victims.isEmpty }
  let s2 := unneeded.foldl (fun s r => s.post (.blockArrival r.arriving)) s1
  match rs.find? fun r => !r.victims.isEmpty with
  | some r => (s2.postOnce (.reclaim r.arriving)).tryRefills core
  | none => s2.tryRefills core

/-- The block is no more: its units, frames, codebooks and scoreboard entries go. -/
def State.removeBlock (s : State) (bid : Nat) (b : Block) : State :=
  let c := s.core b.core
  let s1 := s.setCore b.core { c with
    books := c.books.filter fun e => decide (e.2.block ≠ bid)
    sb := c.sb.filter fun e => decide (e.block ≠ bid) }
  -- units that a victim has not given up yet stay with it
  let pending := (c.reclaims.filter fun r => decide (r.arriving = bid)).flatMap (·.chosen)
  let us := b.unitsHeld.filter fun u => !pending.contains u
  let s2 := { s1 with blocks := sdel bid s1.blocks }
  ((s2.freeFrames b.regime.part b.queue b.frames).release? b.core us).fixReclaims b.core bid

/-- R181, R263: what must be over before the units of a block go. -/
def State.blockBusy (s : State) (bid : Nat) (b : Block) : Bool :=
  b.ways.any (fun o => !s.opDone o) ||
  (s.flight.mem.any fun e => decide (e.2.target = some bid) && e.2.parts.any fun p => !p.performed) ||
  (s.flight.chains.any fun e => decide (e.2.block = bid) && e.2.counted)

def execBlockEnd (block : Nat) (s : State) : Out :=
  .next <|
  match s.block? block with
  | none => s
  | some b =>
    if b.state ≠ .ending then
      let (ops, s1) := s.backPins block b
      (s1.modBlock block fun b => { b with state := .ending, ways := ops }).post (.blockEnd block)
    else if s.blockBusy block b then s.later (.blockEnd block)
    else
      -- the end is reported once its units are zero, those of its troupes that ended before among them
      let g := Nat.max b.gwct (s.latestP b.ways)
      let s1 := s.removeBlock block b
      let c := s1.core b.core
      let own := c.zeroing.filter fun u => b.units.contains u || decide (u.kind < 2)
      (s1.setCore b.core { c with ended := c.ended ++ [⟨b.ticket, g, own⟩] }).postOnce (.unitZero b.core)

/-! What a reset, a lost slice or a frame that cannot be written discards (R199, R253, R326, R357, R388, R398). -/

def Owner.isTroupe (k : Nat) : Owner → Bool
  | .troupe j => decide (j = k)
  | _ => false

/-- What a discarded troupe had in flight: releases that are held go; what is on its way is performed. -/
def State.discardWork (s : State) (num : Nat) : State :=
  let f := s.flight
  let cs := (f.chains.filter fun e => decide (e.2.troupe = num)).map (·.1)
  let mine := fun (o : Owner) => o.isTroupe num || (match o with | .chain i => cs.contains i | _ => false)
  let gone := fun (o : TsStage) => decide (o = .held ∨ o = .releasing)
  let reads := (f.books.filter fun e => decide (e.2.troupe = num)).filterMap (·.2.op)
  let dropped := fun (e : Nat × MemOp) =>
    (mine e.2.owner && (e.2.target.isSome || decide (e.2.kind = .record))) || reads.contains e.1
  let f1 : Flight := { f with
    mem := f.mem.filter fun e => !dropped e
    ts := f.ts.filter fun e => !(mine e.2.owner && gone e.2.stage)
    reqs := f.reqs.filter fun e => !(decide (e.2.troupe = num) && gone e.2.stage)
    chains := f.chains.filter fun e => decide (e.2.troupe ≠ num)
    books := f.books.filter fun e => decide (e.2.troupe ≠ num)
    contribs := f.contribs.filter fun e => !cs.contains e.2.chain
    waiters := f.waiters.filter fun e => (ofTroupe num e.2.who).isNone }
  let c := s.core (num % 2 ^ 12 / 32)
  let core := num % 2 ^ 12 / 32
  let s1 := (s.setFlight f1).setCore core { c with mx := c.mx.filter fun o => decide (o.troupe ≠ num) }
  -- R218: an operation that waited behind one of the troupe's begins
  let s2 := if c.mx.any fun o => decide (o.troupe = num) then
    (s1.postOnce (.matrixPeriodStart core)).postOnce (.slotPortStart core) else s1
  s2.rekey num noTroupe

/-- A saved troupe, or one that waits in its slot, is forgotten: its ring entry and its listing go. -/
def State.dropSaved (s : State) (sid : Nat) : State :=
  let p := s.pkg
  let ws := s.flight.waiters.filter fun e => decide (e.2.who ≠ .resume sid)
  match sfind sid p.saved with
  | none => s
  | some x =>
    let s1 := (s.setPkg { p with
      saved := sdel sid p.saved
      ring := p.ring.filter fun e => decide (e.saved ≠ some sid) }).setFlight { s.flight with waiters := ws }
    match x.frameIdx with
    | some i => s1.freeFrames x.part x.queue [i]
    | none => s1

/-- A block is discarded with everything of it. -/
def State.discardBlock (s : State) (bid : Nat) : State :=
  match s.block? bid with
  | none => s
  | some b =>
    let s1 := (s.savedOf bid).foldl (fun s e => (s.discardWork (parkNum e.1 e.2.key)).dropSaved e.1) s
    let s2 := (s1.troupesOf bid).foldl (fun s e => (s.discardWork e.1).dropTroupe e.1) s1
    let s3 := (s2.backPins bid b).2
    s3.removeBlock bid b

/-- R388: a block whose frames cannot be written is discarded, and its ticket ends FAULTED. -/
def State.faultBlock (s : State) (bid : Nat) : State :=
  match s.block? bid with
  | none => s
  | some b => ((s.discardBlock bid).modTicket b.ticket fun t => { t with status := 0x84 }).blockDone b.ticket b.gwct

end Sys2Proof.Machine
end

