-- ==== Sys2Proof/Machine/Frames.lean ====
section
/-! DEFINITION. Frames (R387, R388), and a reclaim: halt, spill and refill (R195 to R199). A frame's control area is
written with free values; what it stands for is kept in the saved entry (log entry 20). -/

namespace Sys2Proof.Machine

/-! The pool of a queue (R387, R388). -/

def Queue.pool (q : Queue) : Nat := q.f 6 0 57
def Queue.frames (q : Queue) : Nat := q.f 7 0 16

/-- Whether every page of a frame translates with write permission. -/
def State.frameOk (s : State) (slice : Nat) (rg : Regime) (va : Nat) : Bool × State :=
  let r := s.xlatePages slice rg needW ((List.range 16).map fun j => va / 4096 + j)
  (r.1.all fun e => match e.2 with
    | .ok _ => true
    | .error _ => false, r.2)

/-- The lowest free frames from i on whose pages translate, n at most; fuel bounds the frames looked at. -/
def State.findFrames (s : State) (slice : Nat) (rg : Regime) (pool : Nat) (used : KeySet) :
    Nat → Nat → Nat → List Nat × State
  | 0, _, _ => ([], s)
  | fuel + 1, i, n =>
    if n = 0 then ([], s)
    else if kmem i used then s.findFrames slice rg pool used fuel (i + 1) n
    else
      let r := s.frameOk slice rg (pool + 65536 * i)
      if r.1 then
        let x := r.2.findFrames slice rg pool used fuel (i + 1) (n - 1)
        (i :: x.1, x.2)
      else r.2.findFrames slice rg pool used fuel (i + 1) n

/-- n frames of a queue's pool are taken, or none. -/
def State.takeFrames (s : State) (slice part queue : Nat) (n : Nat) : Option (List Nat) × State :=
  match s.queue? part queue with
  | none => (none, s)
  | some q =>
    let r := s.findFrames slice (q.regime part) q.pool (s.framesUsed part queue) q.frames 0 n
    if r.1.length = n then
      (some r.1, r.2.modPart part fun p =>
        { p with framesUsed := sset queue (r.1.foldl (fun u i => kadd i u) (sget [] queue p.framesUsed)) p.framesUsed })
    else (none, r.2)

def Ask.frames (a : Ask) : Nat := a.t + ceilDiv a.g 14 + a.n

/-! Words of a frame (R387). -/

abbrev FrameWords := List (Nat × W64)

def State.controlWords (s : State) (va : Nat) : FrameWords × State :=
  ((List.range 256).map fun i => (va + 8 * i, Config.controlWord s.fresh i), { s with fresh := s.fresh + 1 })

def rowBase (va j : Nat) : Nat := va + 2048 + 4608 * j

/-- Group j of a troupe. A set full/empty bit is a full register (log entry 20). -/
def groupWords (r : LaneRegs) (va j : Nat) : FrameWords :=
  let base := rowBase va j
  let reg := fun (i : Nat) => 16 * j + i
  ((List.range 16).flatMap fun i => (List.range 32).map fun k =>
    (base + 256 * i + 8 * k, (r.get (2 * k + 1) (reg i) ++ r.get (2 * k) (reg i) : W64))) ++
  ((List.range 16).map fun i => (base + 4096 + 8 * i, ~~~(sget 0 (reg i) r.empty))) ++
  ((List.range 16).map fun i => (base + 4224 + 8 * i, sget 0 (reg i) r.taint)) ++
  ((List.range 16).map fun i => (base + 4352 + 8 * i, sget 0 (reg i) r.poison)) ++
  (List.range 16).map fun i => (base + 4480 + 8 * i, 0)

/-- The registers of group j as a frame holds them; a poisoned word poisons its two registers. -/
def readGroup (rd : Nat → W64 × Bool) (r : LaneRegs) (va j : Nat) : LaneRegs :=
  let base := rowBase va j
  (List.range 16).foldl (fun r i =>
    let n := 16 * j + i
    let full := (rd (base + 4096 + 8 * i)).1
    let taint := (rd (base + 4224 + 8 * i)).1
    let poison := (rd (base + 4352 + 8 * i)).1
    let r1 := laneList.foldl (fun r l =>
      let w := rd (base + 256 * i + 8 * (l / 2))
      r.put l n (w.1.extractLsb' (32 * (l % 2)) 32) (taint.getLsbD l) (poison.getLsbD l || w.2)) r
    { r1 with empty := sput 0 n (~~~full) r1.empty }) r

/-- R86, R387: what of the lane registers is no register of a group; the control area keeps it. -/
def LaneRegs.preds (r : LaneRegs) : LaneRegs := { LaneRegs.zero with pred := r.pred, predPoison := r.predPoison }

/-- The registers of group j are gone from the row file. -/
def LaneRegs.dropGroup (r : LaneRegs) (j : Nat) : LaneRegs :=
  let out := fun (n : Nat) => decide (n / 16 ≠ j)
  { r with
    v := r.v.filter fun e => out (e.1 % 256)
    empty := r.empty.filter fun e => out e.1
    taint := r.taint.filter fun e => out e.1
    poison := r.poison.filter fun e => out e.1 }

/-- 64 poison bits of 8-byte words from word w on, word w lowest. -/
def poisonBits (ps : KeySet) (w : Nat) : W64 := BitVec.ofNat 64 (sumNat ((List.range 64).map fun i => if kmem (w + i) ps then 2 ^ i else 0))

/-- Granule g of a core at place j of a data frame. -/
def granuleWords (c : Core) (g va j : Nat) : FrameWords :=
  ((List.range 512).map fun i => (va + 4096 * j + 8 * i, BitVec.ofNat 64 (leVal (c.bytes (4096 * g + 8 * i) 8)))) ++
  (List.range 8).map fun i => (va + 57344 + 64 * j + 8 * i, poisonBits c.uaPoison (512 * g + 64 * i))

def opslotWords (c : Core) (i va : Nat) : FrameWords :=
  ((List.range 4096).map fun k => (va + 8 * k, BitVec.ofNat 64 (c.opVal (32768 * i + 8 * k) 8))) ++
  (List.range 64).map fun k => (va + 57344 + 8 * k, poisonBits c.opmPoison (4096 * i + 64 * k))

def readGranule (rd : Nat → W64 × Bool) (c : Core) (g va j : Nat) : Core :=
  (List.range 512).foldl (fun c i =>
    let w := rd (va + 4096 * j + 8 * i)
    let bits := (rd (va + 57344 + 64 * j + 8 * (i / 64))).1
    let c1 := c.setBytes (4096 * g + 8 * i) (leBytes 8 w.1.toNat)
    { c1 with uaPoison := kset (512 * g + i) (bits.getLsbD (i % 64) || w.2) c1.uaPoison }) c

def readOpslot (rd : Nat → W64 × Bool) (c : Core) (i va : Nat) : Core :=
  (List.range 4096).foldl (fun c k =>
    let w := rd (va + 8 * k)
    let bits := (rd (va + 57344 + 8 * (k / 64))).1
    let m := ((leBytes 8 w.1.toNat).zipIdx).foldl (fun m e => sput 0 (32768 * i + 8 * k + e.2) e.1 m) c.opm
    { c with opm := m, opmPoison := kset (4096 * i + k) (bits.getLsbD (k % 64) || w.2) c.opmPoison }) c

/-! Writing and reading frames. -/

/-- Words are written by the ringmaster as one operation; none where a page does not translate. -/
def State.frameStore (s : State) (core : Nat) (rg : Regime) (ws : FrameWords) : Option (List Nat × State) :=
  if ws.isEmpty then some ([], s)
  else
    let r := s.xlatePages (coreSlice core) rg needW (toKeys (ws.map fun e => e.1 / 4096))
    let accs := (ws.zipIdx).filterMap fun e => (xAddr (pageResult r.1 e.1.1) e.1.1).map fun y =>
      TaggedAcc.mk e.1.1 y.2 ⟨e.2, y.1, e.1.2.toNat, 0, false⟩
    if accs.length < ws.length then none
    else
      let o : MemOp := ⟨.engine (coreSlice core), .store, .b64, none, core, 0, rg, 6, 1, 3, none, partsOf accs, false⟩
      let x := r.2.engineSend o
      some ([x.1], x.2)

/-- The lines that refuse a table entry to the pages of some words with RETRY: the frame is written later. -/
def State.frameAgain (s : State) (core : Nat) (rg : Regime) (ws : FrameWords) : List Nat :=
  xAgain (s.xlatePages (coreSlice core) rg needW (toKeys (ws.map fun e => e.1 / 4096))).1

/-- Whether a home refuses a line to an engine with RETRY (R187, R359). -/
def State.refusesLine (s : State) (line : Nat) : Bool := (sfind line s.homes.pins).isSome || s.isFrozen line || s.homeTested line

/-- A word of a frame, none where its page does not translate or its line is refused. -/
def State.frameWord (s : State) (slice : Nat) (rg : Regime) (va : Nat) : Option (W64 × Bool) :=
  match s.xlateOf slice rg va needR with
  | .ok (.mem d tag) =>
    if s.refusesLine (lineOf d) then none
    else let r := s.lineRead (lineOf d) tag d 8; some (BitVec.ofNat 64 r.1, r.2)
  | _ => none

/-- The lines of frames that are refused, noted as R187 has it. -/
def State.noteFrames (s : State) (slice : Nat) (rg : Regime) (vas : List Nat) : State :=
  (vas.flatMap fun va => (List.range 1024).filterMap fun i => match s.xlateOf slice rg (va + 64 * i) needR with
    | .ok (.mem d _) => if (sfind (lineOf d) s.homes.pins).isSome then some (lineOf d) else none
    | .error f => if f.cause = causeAgain then some f.gpa else none
    | _ => none).foldl State.noteRefusal s

def State.reader (s : State) (slice : Nat) (rg : Regime) (va : Nat) : W64 × Bool := (s.frameWord slice rg va).getD (0, false)

/-- Whether every line of a list of frames can be read. -/
def State.framesRead (s : State) (slice : Nat) (rg : Regime) (vas : List Nat) : Bool :=
  vas.all fun va => (List.range 1024).all fun j => (s.frameWord slice rg (va + 64 * j)).isSome

/-! The frames of a block (R387, R388): troupes by index, granules 14 to a frame, slots. -/

/-- The first of its granule frames. -/
def Block.granFrame (b : Block) : Nat := b.frames.length - ceilDiv b.grans 14 - b.opslots.length

def Block.frameVa (b : Block) (pool i : Nat) : Nat := pool + 65536 * b.frames.getD i 0

/-- The troupes of a block wherever they stand, by number. -/
def State.blockTroupes (s : State) (bid : Nat) : List (Nat × Troupe) :=
  s.troupesOf bid ++ ((s.savedOf bid).filter fun e => decide (e.2.kind = .spilled ∨ e.2.kind = .whole)).map fun e =>
    (parkNum e.1 e.2.key, e.2.troupe)

/-- What a unit of a block holds, as words of its frames. -/
def State.unitWords (s : State) (bid : Nat) (b : Block) (pool : Nat) (u : CoreUnit) : FrameWords × State :=
  let c := s.core b.core
  match u with
  | .slot i => match sfind (32 * b.core + i) s.troupes with
    | some t => s.controlWords (b.frameVa pool t.index)
    | none => ([], s)
  | .group g => match (s.blockTroupes bid).find? fun e => e.2.groups.contains g with
    | some e => (groupWords e.2.lane (b.frameVa pool e.2.index) (e.2.groups.idxOf g), s)
    | none => ([], s)
  | .granule g =>
    let j := g - b.g0
    (granuleWords c g (b.frameVa pool (b.granFrame + j / 14)) (j % 14), s)
  | .opslot i =>
    (opslotWords c i (b.frameVa pool (b.granFrame + ceilDiv b.grans 14 + b.opslots.idxOf i)), s)

def State.unitsWords (s : State) (bid : Nat) (b : Block) (pool : Nat) (us : List CoreUnit) : FrameWords × State :=
  us.foldl (fun acc u => let r := acc.2.unitWords bid b pool u; (acc.1 ++ r.1, r.2)) ([], s)

/-- The block has its frames: those it reserved, or as many taken now. -/
def State.blockFrames (s : State) (bid : Nat) (b : Block) (a : Ask) : Option Block × State :=
  if !b.frames.isEmpty || decide (a.frames = 0) then (some b, s)
  else match s.takeFrames (coreSlice b.core) b.regime.part b.queue a.frames with
    | (some fs, s1) => (some { b with frames := fs }, s1.setBlock bid { b with frames := fs })
    | (none, s1) => (none, s1)

def State.poolOf (s : State) (b : Block) : Nat :=
  match s.queue? b.regime.part b.queue with
  | some q => q.pool
  | none => 0

def State.askOf (s : State) (b : Block) : Ask :=
  match s.ticket? b.ticket with
  | some t => t.ask
  | none => ⟨b.slots.length, b.groups.length, b.grans, b.opslots.length⟩

/-! Halting (R196). -/

/-- A stalled troupe halts at its instruction, which its path records. -/
def Troupe.haltStalled (t : Troupe) : Troupe :=
  match t.issue with
  | some i => if t.stalled then
      { t with issue := none, stalled := false, frontier := t.frontier ++ [⟨i.prio, i.addr, i.idx, i.mask⟩] }
    else t
  | none => t

def State.haltTroupes (s : State) (bid : Nat) : State :=
  (s.troupesOf bid).foldl (fun s e =>
    if e.2.stalled && e.2.issue.isSome then
      let c := s.core (e.1 / 32)
      (s.setTroupe (keyOf e.1) e.2.haltStalled).setCore (e.1 / 32)
        { c with pipes := c.pipes.filter fun x => decide (x.2 ≠ e.1 % 32) }
    else s) s

def State.haltBlock (s : State) (bid : Nat) : State :=
  (s.modBlock bid fun b => match b.state with
    | .running | .clearing | .gathered => { b with state := .halted, haltedAt := s.tick }
    | _ => b).haltTroupes bid

/-- R196: every troupe stands at a clause boundary or an instruction, its registers are written, and its chains parked. -/
def State.quiet (s : State) (bid : Nat) : Bool :=
  ((s.troupesOf bid).all fun e => e.2.issue.isNone && e.2.written && decide (e.2.cnt.mx = 0) &&
    (match e.2.susp with
     | .pageFault .. => e.2.halted
     | .wait _ => (s.pipeOf (keyOf e.1)).isNone
     | _ => true)) &&
  !(s.flight.chains.any fun e => decide (e.2.block = bid) &&
    (match e.2.phase with
     | .fetch | .over => false
     | _ => true))

/-! Reclaim (R195, R199). -/

/-- The slices whose units may place what is ready. -/
def State.placeAgain (s : State) (part : Nat) : State :=
  (bitSet16 (s.smask part)).foldl (fun s sl => s.laterOnce (.placement sl)) s

/-- R199, R399: a block that was gathered but not started gives its units up without spill; it is gathered again (R383). -/
def State.ungather (s : State) (bid : Nat) (b : Block) : State :=
  ((s.removeBlock bid b).modTicket b.ticket fun t =>
    { t with placed := t.placed - 1, live := t.live - 1, startTick := none, state := .placing }).placeAgain b.regime.part

/-- A block saved whole that has units again but is not read back yet gives them up. -/
def State.unplace (s : State) (bid : Nat) (b : Block) : State :=
  let pending := ((s.core b.core).reclaims.filter fun r => decide (r.arriving = bid)).flatMap (·.chosen)
  (((s.setBlock bid { b with state := .saved }).release? b.core (b.unitsHeld.filter fun u => !pending.contains u)).fixReclaims
    b.core bid).placeAgain b.regime.part

/-- A block that is being refilled gives up the units it spilled before. -/
def State.unrefill (s : State) (bid : Nat) (b : Block) : State :=
  (s.setBlock bid { b with state := .halted }).release? b.core b.spill

def State.residentBlock (s : State) (b : Block) : Bool := match s.ticket? b.ticket with
  | some t => t.resident
  | none => false

/-- R196, R199: a victim halts; where it has not started, it gives up what it holds. A block that was halted once has
contents (haltedAt). -/
def State.makeVictim (s : State) (v : Nat) (b : Block) : State :=
  let halt := (s.haltBlock v).postOnce (.spill v)
  match b.state with
  | .gathered => if b.haltedAt = 0 then s.ungather v b else halt
  | .clearing =>
    if (s.savedOf v).any fun e => decide (e.2.kind = .whole) then s.unplace v b
    else if s.residentBlock b && decide (b.haltedAt = 0) then s.ungather v b
    else halt
  | .refilling => (s.unrefill v b).postOnce (.spill v)
  | _ => halt

def execReclaim (block : Nat) (s : State) : Out :=
  .next <|
  match s.block? block with
  | none => s
  | some a =>
    match (s.core a.core).reclaims with
    | [] => s
    | r :: _ =>
      if r.arriving ≠ block then s
      else r.victims.foldl (fun s v => match s.block? v with
        | none => s
        | some b => s.makeVictim v b) s

/-! Spill (R197). -/

/-- A troupe whose slot is taken is kept apart from it. -/
def State.park (s : State) (kind : SavedKind) (num : Nat) (t : Troupe) (b : Block) : State :=
  let (sid, s1) := s.newId
  let x : Saved := ⟨kind, b.regime.part, b.queue, t.block, num, t, b.frameVa (s.poolOf b) t.index, none, none, 0, 0, none, 0,
    false, false, false, coreSlice b.core, []⟩
  ((s1.dropTroupe num).setPkg { (s1.dropTroupe num).pkg with saved := sset sid x s1.pkg.saved }).rekey num (parkNum sid num)

/-- The chosen units of a victim leave it: its troupes, their registers, and the bytes that will be zeroed. -/
def State.giveUp (s : State) (bid : Nat) (b : Block) (us : List CoreUnit) : State :=
  let s1 := us.foldl (fun s u => match u with
    | .slot i => match sfind (32 * b.core + i) s.troupes with
      | some t => s.park .spilled (32 * b.core + i) t b
      | none => s
    | .group g => match (s.blockTroupes bid).find? fun e => e.2.groups.contains g with
      | some e => s.setTroupe (keyOf e.1) { e.2 with lane := e.2.lane.dropGroup (e.2.groups.idxOf g) }
      | none => s
    | _ => s) s
  s1.release? b.core us

def State.spillBlock (s : State) (bid : Nat) (b : Block) (r : Reclaim) : State :=
  match s.blockFrames bid b (s.askOf b) with
  | (none, s1) => s1.faultBlock bid
  | (some b1, s1) =>
    let us := b1.units.filter fun u => r.chosen.contains u && !b1.spill.contains u
    let us := ascending us
    let w := s1.unitsWords bid b1 (s1.poolOf b1) us
    let refused := w.2.frameAgain b1.core b1.regime w.1
    if refused ≠ [] then s1.tryAgain refused (.spill bid)
    else match w.2.frameStore b1.core b1.regime w.1 with
    | none => s1.faultBlock bid
    | some (ops, s2) =>
      let s3 := (s2.giveUp bid b1 us).setBlock bid { b1 with spill := b1.spill ++ us, ways := b1.ways ++ ops }
      let c := s3.core b1.core
      let drop := fun (x : Reclaim) =>
        if x.arriving = r.arriving then { x with victims := x.victims.filter (· ≠ bid) } else x
      let rs := c.reclaims.map drop
      let s4 := s3.setCore b1.core { c with reclaims := rs.filter fun x => !x.victims.isEmpty }
      let s5 := (rs.filter fun x => x.victims.isEmpty).foldl (fun s x => s.post (.blockArrival x.arriving)) s4
      match rs.find? fun x => !x.victims.isEmpty with
      | some x => s5.postOnce (.reclaim x.arriving)
      | none => s5

def execSpill (block : Nat) (s : State) : Out :=
  .next <|
  match s.block? block with
  | none => s
  | some b => match (s.core b.core).reclaims with
    | [] => s
    | r :: _ =>
      if b.state ≠ .halted || !r.victims.contains block then s
      else
        let s1 := s.haltTroupes block
        if s1.quiet block && !s1.notReady b then s1.spillBlock block b r else s1.laterOnce (.spill block)

/-! Refill (R198). -/

/-- What a block holds in units is read back from its frames. -/
def State.readUnits (s : State) (bid : Nat) (b : Block) (us : List CoreUnit) : State :=
  let pool := s.poolOf b
  let rd := s.reader (coreSlice b.core) b.regime
  us.foldl (fun s u => match u with
    | .slot _ => s
    | .group g => match (s.blockTroupes bid).find? fun e => e.2.groups.contains g with
      | some e =>
        s.setTroupe (keyOf e.1)
          { e.2 with lane := readGroup rd e.2.lane (b.frameVa pool e.2.index) (e.2.groups.idxOf g) }
      | none => s
    | .granule g =>
      let j := g - b.g0
      s.setCore b.core (readGranule rd (s.core b.core) g (b.frameVa pool (b.granFrame + j / 14)) (j % 14))
    | .opslot i =>
      s.setCore b.core (readOpslot rd (s.core b.core) i
        (b.frameVa pool (b.granFrame + ceilDiv b.grans 14 + b.opslots.idxOf i)))) s

/-- A troupe kept apart stands in a slot again. -/
def State.unpark (s : State) (sid : Nat) (x : Saved) (num : Nat) (t : Troupe) : State :=
  let s1 := s.setPkg { s.pkg with saved := sdel sid s.pkg.saved }
  ({ s1 with troupes := sset num t s1.troupes }).rekey (parkNum sid x.key) num

/-- R387: frames that were taken and not reserved are free once what they held is read back. -/
def State.framesBack (s : State) (bid : Nat) (b : Block) : State :=
  if b.borrowed.isEmpty then
    (s.freeFrames b.regime.part b.queue b.frames).modBlock bid fun x => { x with frames := [] }
  else s

/-- A block of a RESIDENT launch whose other blocks wait for a new start tick waits with them (R269, R390). -/
def State.resumeBlock (s : State) (bid : Nat) (b : Block) : State :=
  let waits := (s.blocksOf b.ticket).any fun e => decide (e.1 ≠ bid) && (match e.2.state with
    | .saved | .arriving | .clearing | .gathered => true
    | _ => false)
  if s.residentBlock b && waits then (s.modBlock bid fun x => { x with state := .gathered }).gangCheck b.ticket
  else s.runBlock bid

def State.refillBlock (s : State) (bid : Nat) (b : Block) : State :=
  let back := (s.savedOf bid).filter fun e => decide (e.2.kind = .spilled)
  let s1 := back.foldl (fun s e => s.unpark e.1 e.2 e.2.key e.2.troupe) s
  let s2 := (s1.readUnits bid b b.spill).modBlock bid fun x => { x with spill := [], ways := [] }
  (s2.framesBack bid b).resumeBlock bid b

def State.anySaved (s : State) (ticket : Nat) : Bool := (s.blocksOf ticket).any fun e => decide (e.2.state = .saved)

def execRefill (block : Nat) (s : State) : Out :=
  .next <|
  match s.block? block with
  | none => s
  | some b =>
    let held := s.heldUnits b.core
    let again := s.laterOnce (.refill block)
    match b.state with
    | .halted =>
      if (s.core b.core).reclaims.any (fun r => r.victims.contains block) ||
          s.quiesced b.regime.part || s.anySaved b.ticket || b.spill.any (fun u => held.contains u) then s
      else if b.ways.any (fun o => !s.opDone o) then again
      else
        -- its units are its own again, and L1 ways among them are cleared first
        let gs := b.spill.filterMap fun u => match u with
          | .granule g => some g
          | _ => none
        ((s.clearWays b.core block (s.newUnits block b gs)).setBlock block { b with state := .refilling }).post (.refill block)
    | .refilling =>
      let vas := b.frames.map fun i => s.poolOf b + 65536 * i
      if s.quiesced b.regime.part || s.notReady b then again
      else if !b.spill.isEmpty && !s.framesRead (coreSlice b.core) b.regime vas then
        (s.noteFrames (coreSlice b.core) b.regime vas).laterOnce (.refill block)
      else s.refillBlock block b
    | _ => s

/-! Saving a block whole (R390, R391). -/

/-- R239: a wait that is saved starts again with a new first test. -/
def Suspend.restart : Suspend → Suspend
  | .wait w => .wait { w with first := true, conds := w.conds.map fun c => { c with val := Option.none } }
  | x => x

/-- Nothing of the block is left in flight that a frame could not hold (R326). -/
def State.savable (s : State) (bid : Nat) : Bool :=
  s.quiet bid && !((s.savedOf bid).any fun e => e.2.kind.off && e.2.ready && e.2.placed) &&
  (s.blockTroupes bid).all fun e =>
    decide (e.2.cnt.ld = 0 ∧ e.2.cnt.st = 0 ∧ e.2.cnt.ni = 0 ∧ e.2.cnt.atc = 0) &&
    (match e.2.susp with
     | .pageFault .. => e.2.halted
     | _ => true)

/-- The block's units are written to its frames and released; none where it has no frames for them. -/
def State.saveBlock (s : State) (bid : Nat) (b : Block) : Option State :=
  match s.blockFrames bid b (s.askOf b) with
  | (none, _) => none
  | (some b1, s1) =>
    let us := b1.units.filter fun u => !b1.spill.contains u
    let w := s1.unitsWords bid b1 (s1.poolOf b1) us
    let refused := w.2.frameAgain b1.core b1.regime w.1
    if refused ≠ [] then some (s1.tryAgain refused (.wholeBlockSave bid))
    else match w.2.frameStore b1.core b1.regime w.1 with
    | none => some (s1.faultBlock bid)
    | some (ops, s2) =>
      let s3 := (s2.troupesOf bid).foldl (fun s e =>
        let t := { e.2 with susp := e.2.susp.restart, lane := e.2.lane.preds }
        ((s.setTroupe (keyOf e.1) t).withdraw (ofTroupe e.1)).park .whole e.1 t b1) s2
      let whole := fun (e : Nat × Saved) => if e.2.block = bid ∧ e.2.kind = .spilled then
          (e.1, { e.2 with
            kind := .whole
            troupe := { e.2.troupe with susp := e.2.troupe.susp.restart, lane := e.2.troupe.lane.preds } })
        else e
      let s3 := (s3.savedOf bid).foldl (fun s e => s.withdraw (ofTroupe (parkNum e.1 e.2.key))) s3
      let s4 := s3.setPkg { s3.pkg with saved := s3.pkg.saved.map whole }
      let s5 := s4.setBlock bid { b1 with state := .saved, spill := [], ways := b1.ways ++ ops }
      some (((s5.release? b1.core us).fixReclaims b1.core bid).placeAgain b1.regime.part)

/-- A block that has run and is not saved: there is something of it to save. -/
def Block.hasContents (b : Block) : Bool := match b.state with
  | .running | .halted | .refilling => true
  | .gathered => decide (b.haltedAt ≠ 0)
  | _ => false

/-- It halts where it stands, with the units it still has. -/
def State.stopBlock (s : State) (bid : Nat) (b : Block) : State := match b.state with
  | .refilling => s.unrefill bid b
  | .halted => s
  | _ => s.haltBlock bid

def execWholeBlockSave (block : Nat) (s : State) : Out :=
  .next <|
  match s.block? block with
  | none => s
  | some b =>
    if !b.hasContents then s
    else
      -- every block of a RESIDENT launch is saved with it
      let s0 := if s.residentBlock b then ((s.blocksOf b.ticket).filter fun e => e.2.hasContents).foldl (fun s e =>
        (s.stopBlock e.1 e.2).postOnce (.wholeBlockSave e.1)) s else s
      let s1 := s0.stopBlock block b
      if !s1.savable block then s1.laterOnce (.wholeBlockSave block)
      else match s1.block? block with
        | some b1 => (s1.saveBlock block b1).getD s1
        | none => s1

/-- A block saved whole has units again: its frames are read, and its troupes stand in their new slots. -/
def State.restoreBlock (s : State) (bid : Nat) (b : Block) : State :=
  let back := (s.savedOf bid).filter fun e => decide (e.2.kind = .whole)
  let per := (back.head?.map fun e => e.2.troupe.groups.length).getD 0
  let s1 := (back.zipIdx).foldl (fun s e =>
    let num := 32 * b.core + b.slots.getD e.2 0
    s.unpark e.1.1 e.1.2 num { e.1.2.troupe with groups := (b.groups.drop (per * e.2)).take per }) s
  (s1.readUnits bid b (b.groups.map CoreUnit.group ++ granUnits b.g0 b.grans ++ b.opslots.map CoreUnit.opslot)).framesBack
    bid b

/-! Start (R182, R198, R269, R400). -/

def execBlockStart (block : Nat) (s : State) : Out :=
  .next <|
  match s.block? block with
  | none => s
  | some b =>
    if b.state ≠ .clearing then s
    else if s.notReady b || s.quiesced b.regime.part then s.laterOnce (.blockStart block)
    else
      let back := (s.savedOf block).any fun e => decide (e.2.kind = .whole)
      let vas := b.frames.map fun i => s.poolOf b + 65536 * i
      if back && !s.framesRead (coreSlice b.core) b.regime vas then
        (s.noteFrames (coreSlice b.core) b.regime vas).laterOnce (.blockStart block)
      else
        let s1 := if back then s.restoreBlock block b else s
        let s2 := s1.modBlock block fun b => { b with ways := [] }
        match s2.ticket? b.ticket with
        | some t =>
          if t.resident then (s2.modBlock block fun b => { b with state := .gathered }).gangCheck b.ticket
          else s2.runBlock block
        | none => s2.runBlock block

end Sys2Proof.Machine
end

