-- ==== Sys2Proof/Machine/Saves.lean ====
section
/-! DEFINITION. A page fault's context save, the rings, and what a saved troupe resumes to (R345 to R350, R389, R392,
R402, R403). -/

namespace Sys2Proof.Machine

/-! Context save (R350, R385, R402). -/

/-- R345: where a frame lies for the reader of its ring: a GPA for a VF, a PPA for the kernel. -/
def State.frameAddr (s : State) (slice : Nat) (rg : Regime) (toVf : Bool) (va : Nat) : Nat :=
  match (s.pageWalk slice rg va needW).out with
  | .ok e => (if toVf && decide (rg.priv ≠ .h) then e.gpage else e.ppage) * 4096 + va % 4096
  | .error _ => 0

def faultKind (r : BitVec 256) : Nat := bitsOf r.toNat 136 4
def faultCause (r : BitVec 256) : BitVec 8 := r.extractLsb' 128 8

def faultRing (rg : Regime) (toVf : Bool) : Ring := if toVf && decide (rg.priv ≠ .h) then .vfFault rg.vf else .kFault

/-- R346: the entry, its resume fields to be filled at delivery. -/
def faultEntry (r : BitVec 256) (frame : Nat) : List W64 :=
  ((List.range 4).map fun i => r.extractLsb' (64 * i) 64) ++ [0, 0, BitVec.ofNat 64 frame, 0]

/-- The entry of a troupe that is being saved from its slot. -/
def State.saving (s : State) (num block : Nat) : Option (Nat × Saved) :=
  (s.savedOf block).find? fun e => decide (e.2.key = num) && e.2.placed && (match e.2.kind with
    | .fault .. => !e.2.delivered && !e.2.ready
    | _ => false)

/-- R350, R402: when the save may begin. -/
def State.mayBegin (s : State) (num : Nat) (t : Troupe) : Bool :=
  t.written && decide (t.cnt.mx = 0 ∧ t.cnt.st = 0 ∧ t.cnt.atc = 0 ∧ t.cnt.ni = 0) &&
  !((s.chainsOf num).any fun (e : Nat × Chain) => match e.2.phase with
    | .fetch | .over => false
    | _ => true)

/-- The frame of the save: the block's own, or the lowest of the pool that can be written. -/
def State.saveFrame (s : State) (b : Block) (t : Troupe) : Option (Nat × Option Nat) × State :=
  let slice := coreSlice b.core
  let pool := s.poolOf b
  -- R388: its own are those it reserved
  let own := match (if b.borrowed.isEmpty then none else b.frames[t.index]?) with
    | some i => let r := s.frameOk slice b.regime (pool + 65536 * i); if r.1 then some (pool + 65536 * i, r.2) else none
    | none => none
  match own with
  | some (va, s1) => (some (va, none), s1)
  | none => match s.takeFrames slice b.regime.part b.queue 1 with
    | (some [i], s1) => (some (pool + 65536 * i, some i), s1)
    | (_, s1) => (none, s1)

def State.putSaved (s : State) (sid : Nat) (x : Saved) : State := s.setPkg { s.pkg with saved := sset sid x s.pkg.saved }

/-- R385: no frame: the troupe halts in its slot, and the entry has frame address 0. -/
def State.saveInPlace (s : State) (num : Nat) (t : Troupe) (b : Block) (r : BitVec 256) (toVf : Bool) : State :=
  let (sid, s1) := s.newId
  let x : Saved := ⟨.fault (faultCause r) true, b.regime.part, b.queue, t.block, num, t, 0, none, none, 0, 0, none, 0, false,
    false, true, coreSlice b.core, []⟩
  (((s1.putSaved sid x).setTroupe (keyOf num) { t with halted := true }).queueRing (coreSlice b.core) b.regime.part
    (faultRing b.regime toVf) (faultEntry r 0) (some sid) none).2

def State.startSave (s : State) (num : Nat) (t : Troupe) (b : Block) (r : BitVec 256) (toVf : Bool) : State :=
  match s.saveFrame b t with
  | (none, s1) => s1.saveInPlace num t b r toVf
  | (some (va, idx), s1) =>
    let c := s1.controlWords va
    let ws := c.1 ++ (List.range t.groups.length).flatMap fun j => groupWords t.lane va j
    let refused := c.2.frameAgain b.core b.regime ws
    if refused ≠ [] then s.tryAgain refused (.contextSave (num / 32) (num % 32))
    else match c.2.frameStore b.core b.regime ws with
    | none => s1.saveInPlace num t b r toVf
    | some (ops, s2) =>
      let (sid, s3) := s2.newId
      let x : Saved := ⟨.fault (faultCause r) false, b.regime.part, b.queue, t.block, num, t, va, idx, none, 0, 0, none, 0, false,
        false, true, coreSlice b.core, ops⟩
      (s3.putSaved sid x).later (.contextSave (num / 32) (num % 32))

/-- R270: a troupe of a RESIDENT block keeps its slot. -/
def State.isResident (s : State) (b : Block) : Bool := s.residentBlock b

/-- The frame is written: the slot and rows go, and the entry waits for its ring. -/
def State.endSave (s : State) (num : Nat) (t : Troupe) (b : Block) (sid : Nat) (x : Saved) (r : BitVec 256) (toVf : Bool) :
    State :=
  let s1 := if s.isResident b then
      ((s.dropTroupe num).modBlock t.block fun b =>
        { b with groups := b.groups.filter fun g => !t.groups.contains g }).release? b.core (t.groups.map CoreUnit.group)
    else s.releaseTroupe num t false
  let x1 := { x with troupe := { t with lane := t.lane.preds }, placed := false, ops := [] }
  let s2 := ((s1.withdraw (ofTroupe num)).putSaved sid x1).rekey num (parkNum sid num)
  (s2.queueRing (coreSlice b.core) b.regime.part (faultRing b.regime toVf)
    (faultEntry r (s2.frameAddr (coreSlice b.core) b.regime toVf x.frame)) (some sid) none).2

def execContextSave (core slot : Nat) (s : State) : Out :=
  let k : TKey := ⟨core, slot⟩
  .next <|
  match s.troupe? k with
  | none => s
  | some t => match t.susp with
    | .pageFault r toVf =>
      match s.block? t.block with
      | none => s
      | some b =>
        if t.halted then s
        else match s.saving k.num t.block with
          | some (sid, x) =>
            if x.ops.any (fun o => !s.opDone o) then s.later (.contextSave core slot)
            else s.endSave k.num t b sid x r toVf
          | none => if s.mayBegin k.num t then s.startSave k.num t b r toVf else s.later (.contextSave core slot)
    | _ => s

/-! Rings (R347, R348, R376, R403). -/

/-- The first of a ring's registers, and its VF where its addresses are GPAs. -/
def Ring.firstReg : Ring → Nat
  | .vfFault v => 0x100 + 4 * v
  | .kFault => 0x44
  | .vfService v => 0x180 + 4 * v
  | .kService => 0x48

def Ring.guest : Ring → Option Nat
  | .vfFault v | .vfService v => some v
  | _ => none

/-- Where an address of a ring leads now: of a VF's, a GPA through its stage 2 at each use (R347); of the kernel's, a PPA.
The turnstiles of a ring lie in COUNTER pages, its entries in others. -/
def State.ringTo (s : State) (slice part : Nat) (ring : Ring) (need : Need) (a : Nat) : Named :=
  match ring.guest with
  | none => match s.ppaMem part a with
    | some d => .to (.home d) none
    | none => .bad causePermission a
  | some v =>
    let rg : Regime := ⟨part, v, .g, 0⟩
    match s.xlateOf slice rg a need with
    | .ok (.mem d tag) => .to (.home d) (some ⟨rg, a, tag⟩)
    | .ok (.peer _) => .bad causePermission a
    | .error f => if f.cause = causeAgain then .again f.gpa else .bad f.cause a

/-- The byte of memory that a ring's address leads to, with its name. -/
def Named.memory : Named → Option (Nat × Option TsName)
  | .to (.home d) n => some (d, n)
  | _ => none

/-- A ring that can take an entry: where it goes, by the ring's own address too; its index, the tail, and the resume
turnstile. -/
structure RingView where
  addr : Nat
  entry : Nat × Option TsName
  k : Nat
  tail : Nat × Option TsName
  resume : Option (Nat × Nat × Option TsName)

/-- The adds of an engine to a turnstile that are not applied yet, with the operations they wait for. -/
def State.engineAdds (s : State) (loc : TsLoc) : List (Nat × TsOp) :=
  s.flight.ts.filter fun x => x.2.owner.isEngine && decide (x.2.kind = .add) && decide (x.2.loc = loc) &&
    decide (x.2.stage ≠ .applied)

/-- The value a ring's tail has once the entries already written are counted. -/
def State.tailValue (s : State) (d : Nat) : W64 :=
  s.tsVal (.home d) + (s.engineAdds (.home d)).foldl (fun v x => v + x.2.amt) 0

def State.ringView (s : State) (e : RingEntry) : Option RingView :=
  let reg : Nat → Nat := fun i => (s.reg e.slice 0 (e.ring.firstReg + i)).toNat
  let q := reg 0
  let n : Nat := 2 ^ (bitsOf q 8 4 + 7)
  let at_ := fun need a => (s.ringTo e.slice e.part e.ring need a).memory
  if q % 2 = 0 then none
  else match at_ needC (reg 1), at_ needC (reg 2) with
    | some t, some h =>
      let k := s.tailValue t.1
      let used := (k - s.tsVal (.home h.1)).toInt
      let a := q / 4096 * 4096 + 64 * (k.toNat % n)
      if s.refusesLine (lineOf t.1) || s.refusesLine (lineOf h.1) || decide ((n : Int) ≤ used) then none
      else match at_ needW a with
        | none => none
        | some d =>
          if e.saved.isNone then some ⟨a, d, k.toNat, t, none⟩
          else
            let name := reg 3 + 8 * (k.toNat % n)
            match at_ needC name with
            | some r => if s.refusesLine (lineOf r.1) then none else some ⟨a, d, k.toNat, t, some (name, r)⟩
            | none => none
    | _, _ => none

/-- The lines that keep a ring from being looked at, whose homes refuse its table entries with RETRY. -/
def State.ringRefused (s : State) (e : RingEntry) : List Nat :=
  let reg : Nat → Nat := fun i => (s.reg e.slice 0 (e.ring.firstReg + i)).toNat
  if reg 0 % 2 = 0 then []
  else [(needC, reg 1), (needC, reg 2), (needW, reg 0 / 4096 * 4096), (needC, reg 3)].filterMap fun x =>
    match s.ringTo e.slice e.part e.ring x.1 x.2 with
    | .again line => some line
    | _ => none

/-- A store of the ringmaster or a slice, as one operation, with the virtual address it is repeated through. -/
def State.agentStore (s : State) (slice : Nat) (rg : Regime) (va : Option Nat) (dpa tag : Nat) (ws : List W64) : Nat × State :=
  let accs := (ws.zipIdx).map fun e => LaneAcc.mk e.2 (dpa + 8 * e.2) e.1.toNat 0 false
  let o : MemOp := ⟨.engine slice, .store, .b64, none, coreAt slice 1, 0, rg, 6, 1, 3, none,
    [⟨lineOf dpa, va.map fun a => a / 64 * 64, tag, accs, .sent, [], none, false⟩], false⟩
  s.engineSend o

/-- The regime of what an engine does for a partition, and no VF of it. -/
def kernelRegime (part : Nat) : Regime := ⟨part, 32, .h, 0⟩

/-- A store by the name that a ring gives its memory. -/
def State.ringStore (s : State) (slice part : Nat) (to_ : Nat × Option TsName) (ws : List W64) : Nat × State :=
  match to_.2 with
  | some n => s.agentStore slice n.regime (some n.va) to_.1 n.tag ws
  | none => s.agentStore slice (kernelRegime part) none to_.1 0 ws

/-- An add that covers the writes of some operations, not before a tick (R250, R348, R374). -/
def State.addAfter (s : State) (slice part vf : Nat) (loc : TsLoc) (name : Option TsName) (amt nb : Nat) (ops : List Nat) :
    State :=
  let (id, s1) := s.newId
  let o : TsOp := ⟨.engine slice, .add, loc, name, BitVec.ofNat 64 amt, 6, none, .releasing, nb, ops, false, none, vf, part⟩
  (s1.setTs id o).post (.heldReleaseSend id)

/-- R348: the entry is written, and the tail advances after it, and after the entries before it. -/
def State.writeEntry (s : State) (e : RingEntry) (v : RingView) : State :=
  let th := match v.resume with
    | some (_, r) => s.tsVal (.home r.1) + 1
    | none => (0 : W64)
  let ws := match v.resume, e.caller with
    | some (name, _), _ => (e.words.set 4 (BitVec.ofNat 64 name)).set 5 th
    | none, some _ => e.words.set 1 (BitVec.ofNat 64 v.k)
    | none, none => e.words
  let vf := e.ring.guest.getD 32
  let before := (s.engineAdds (.home v.tail.1)).flatMap fun x => x.2.after
  let (op, s1) := s.ringStore e.slice e.part v.entry ws
  let s2 := s1.setPkg { s1.pkg with ring := s1.pkg.ring.filter fun x => decide (x.id ≠ e.id) }
  let s3 := s2.addAfter e.slice e.part vf (.home v.tail.1) v.tail.2 1 0 (before ++ [op])
  let s4 := match e.saved, v.resume with
    | some sid, some (_, r) => match sfind sid s3.pkg.saved with
      | some x =>
        let x1 := { x with
          loc := some (.home r.1, r.2)
          threshold := th
          ring := some e.ring
          actionAddr := v.addr + 56
          delivered := true }
        (s3.putSaved sid x1).addWaiter (.resume sid) (.home r.1) r.2 vf e.part th
      | none => s3
    | _, _ => s3
  match e.caller with
  | some req => match s4.req? req with
    | some r =>
      let k := keyOf r.troupe
      ((s4.reply req (BitVec.ofNat 64 v.k)).modTroupe k fun t =>
        if t.susp = .ecall req then { t with susp := .none } else t).reGrant k
    | none => s4
  | none => s4

/-- R376: whether an entry belongs to a slot's owner. -/
def RingEntry.owned (e : RingEntry) (o : SlotOwner) : Bool :=
  match o with
  | .vf v => decide (e.ring.guest = some v)
  | .kernel => e.ring.guest.isNone
  | _ => false

/-- The entries of a slice and its partition that come first in their rings, oldest first. -/
def State.firstEntries (s : State) (slice : Nat) : List RingEntry :=
  let mine := s.pkg.ring.filter fun e => decide (e.slice = slice) && decide (s.partOf slice = some e.part)
  mine.filter fun e => match mine.find? fun x => decide (x.ring = e.ring) with
    | some x => decide (x.id = e.id)
    | none => false

/-- The entry that a slice delivers in the current slot. -/
def State.nextEntry (s : State) (slice : Nat) : Option RingEntry :=
  let es := (s.firstEntries slice).filter fun e => (s.ringView e).isSome
  match s.partOf slice with
  | none => none
  | some p =>
    let o := s.slotOwner p
    if o = .foreign then none
    else match es.find? fun e => e.owned o with
      | some e => some e
      | none => es.head?

def execRingEntryDelivery (slice : Nat) (s : State) : Out :=
  .next <|
  if kmem slice s.pkg.delivered then s
  else match s.nextEntry slice with
    | none => ((s.firstEntries slice).flatMap s.ringRefused).foldl State.noteRefusal s
    | some e => match s.ringView e with
      | none => s
      | some v => let s1 := s.writeEntry e v; s1.setPkg { s1.pkg with delivered := kadd slice s1.pkg.delivered }

/-! Resume (R349, R389, R392). -/

/-- R85: the handler is left as by tret with %trapresume 0. -/
def State.restartTrap (s : State) (num : Nat) (t : Troupe) (b : Block) : State :=
  let k := keyOf num
  let t1 := { t with
    susp := .none
    frontier := s.restoreShadow k.core b.regime t false
    trap := { t.trap with inHandler := false, shadow := [] } }
  (s.setTroupe k t1).rearm k

/-- R392: every lane has exited, and the ticket ends FAULTED. -/
def State.terminate (s : State) (num : Nat) (t : Troupe) (b : Block) : State :=
  let k := keyOf num
  ((s.setTroupe k { t with susp := .none, exited := BitVec.allOnes 64, frontier := [] }).modTicket b.ticket fun x =>
    { x with status := 0x84 }).post (.troupeEnd k.core k.slot)

/-- R349: the cause of the entry is raised in the troupe's own handler. -/
def State.deliverFault (s : State) (num : Nat) (t : Troupe) (b : Block) (r : BitVec 256) : State :=
  let k := keyOf num
  match t.frontier.getLast? with
  | none => s
  | some p =>
    let n := match s.peekWord k.core b.regime p.addr with
      | some h => headerCount h
      | none => 1
    let va := BitVec.ofNat 64 (bitsOf r.toNat 0 57)
    let fetch := decide (faultKind r = 9)
    let t1 := { t with susp := .none, halted := false, frontier := t.frontier.dropLast }
    let c : Ctx := ⟨k, t1, ⟨p.addr, 0, List.replicate n 0, p.idx, p.mask, p.prio⟩, b⟩
    let at_ : ResumeAt := if fetch then .clauseStart p.addr else .instruction p.addr n
    let inst := if fetch then va else c.wordAddr.setWidth 64
    s.takeTrap c ⟨faultCause r, 0, if fetch then 0 else va, inst, BitVec.ofNat 64 (bitsOf r.toNat 192 64), at_⟩

/-- The action of a resumed page fault. -/
def State.resumeFault (s : State) (num : Nat) (t : Troupe) (b : Block) (action : Nat) : State :=
  let k := keyOf num
  match t.susp with
  | .pageFault r _ =>
    if action = 1 then s.deliverFault num t b r
    else (s.setTroupe k { t with susp := .none, halted := false }).rearm k
  | _ => s

/-- The troupe of a block that a saved entry names, in its slot. -/
def State.inSlot (s : State) (x : Saved) : Option (Nat × Troupe) :=
  (s.troupesOf x.block).find? fun e => decide (e.2.index = x.troupe.index)

/-- R349: the resume turnstile as it was last read: reached, not yet, or not to be used. -/
def State.resumeTest (s : State) (sid : Nat) (x : Saved) : Option Bool :=
  let v := s.flight.waiters.foldl (fun (v : Option (W64 × Bool)) e =>
    if e.2.who = .resume sid then
      e.2.reports.foldl (fun v r => if r.1 ≤ s.tick then some r.2 else v) v
    else v) none
  match v with
  | none => some false
  | some (w, bad) => if bad || outOfRange w x.threshold then none else some (satisfied w x.threshold)

def State.withdrawResume (s : State) (sid : Nat) : State :=
  s.setFlight { s.flight with waiters := s.flight.waiters.filter fun e => decide (e.2.who ≠ .resume sid) }

/-- A troupe that never left its slot acts on its action word. -/
def State.resumeHere (s : State) (sid : Nat) (x : Saved) (b : Block) : State :=
  match s.inSlot x with
  | none => s.later (.troupeRestore sid)
  | some (num, t) =>
    let s1 := s.setPkg { s.pkg with saved := sdel sid s.pkg.saved }
    match x.kind with
    | .doubleTrap => if x.action = 1 then s1.restartTrap num t b else s1.terminate num t b
    | _ => s1.resumeFault num t b x.action

/-- R389: a saved troupe that was given a slot and groups is read back from its frame. -/
def State.restoreTroupe (s : State) (sid : Nat) (x : Saved) (b : Block) : State :=
  let slice := coreSlice b.core
  let c := s.core b.core
  let mine := CoreUnit.slot (x.key % 32) :: x.troupe.groups.map CoreUnit.group
  let coming := (c.zeroing.any fun u => mine.contains u) || c.reclaims.any fun r => decide (r.arriving = x.block)
  if coming || x.ops.any (fun o => !s.opDone o) then s.later (.troupeRestore sid)
  else if !s.framesRead slice b.regime [x.frame] then (s.noteFrames slice b.regime [x.frame]).later (.troupeRestore sid)
  else
    let lane := (List.range x.troupe.groups.length).foldl (fun r j => readGroup (s.reader slice b.regime) r x.frame j)
      x.troupe.lane
    let s1 := s.unpark sid x x.key { x.troupe with lane := lane }
    let s2 := match x.frameIdx with
      | some i => s1.freeFrames x.part x.queue [i]
      | none => s1
    match sfind x.key s2.troupes with
    | some t => s2.resumeFault x.key t b x.action
    | none => s2

/-- The action word, as it is read: its bits [1:0]; refused with RETRY; or not to be read, and read again each calendar
period (DESIGN CHOICE, log entry 122). -/
inductive ActionRead where
  | action (a : Nat)
  | wait (lines : List Nat)
  | fails

/-- R347, R349: the action word, by the address that its ring gives it now. -/
def State.actionWord (s : State) (x : Saved) : ActionRead :=
  match x.ring with
  | none => .fails
  | some ring => match s.ringTo x.slice x.part ring needR x.actionAddr with
    | .again line => .wait [line]
    | .to (.home d) n =>
      if s.refusesLine (lineOf d) then .wait [lineOf d]
      else if s.homes.badRead (lineOf d) (tagOf n) then .fails
      else .action (memVal s.homes.mem d 8 % 4)
    | _ => .fails

def execTroupeRestore (saved : Nat) (s : State) : Out :=
  .next <|
  match sfind saved s.pkg.saved with
  | none => s
  | some x => match s.block? x.block with
    | none => s
    | some b =>
      let off := match x.kind with
        | .fault _ false => true
        | _ => false
      if x.ready then (if off then (if x.placed then s.restoreTroupe saved x b else s) else s.resumeHere saved x b)
      else if !x.delivered then s
      else match s.resumeTest saved x with
        -- polled again each period
        | none => s.withdrawResume saved
        | some false => s
        | some true =>
          match s.actionWord x with
          | .wait lines => s.tryAgain lines (.troupeRestore saved)
          | .fails => s.withdrawResume saved
          | .action a =>
            let x1 := { x with action := a, ready := true }
            let s1 := (s.withdrawResume saved).putSaved saved x1
            if off then s1.placeAgain x.part else s1.resumeHere saved x1 b

end Sys2Proof.Machine
end

