-- ==== Sys2Proof/Machine/Queues.lean ====
section
/-! DEFINITION. Queues and tickets: ENABLE and DISABLE, fetching, the check of a ticket, its join, its completion, and
launch (R267, R365 to R374, R385, R393, R399). -/

namespace Sys2Proof.Machine

/-! The queue table (R365, R366). -/

/-- Where dword d of a queue's entry lies. -/
def State.entryAt (s : State) (part q d : Nat) : Option Nat :=
  s.ppaMem part ((s.reg (s.firstSlice part) 0 0xC0).toNat + 64 * q + 8 * d)

def State.readEntry (s : State) (part q : Nat) : Option (List W64) :=
  (s.entryAt part q 0).map fun d => words64 8 (memBytes s.homes.mem d 64)

def State.setQueue (s : State) (part q : Nat) (x : Queue) : State :=
  s.setPkg { s.pkg with queues := sset (queueKey part q) x s.pkg.queues }

/-- A dword that the ringmaster writes into an entry. -/
def State.writeEntryWord (s : State) (part q d : Nat) (v : W64) : State :=
  match s.entryAt part q d with
  | some a => (s.agentStore (s.firstSlice part) (kernelRegime part) none a 0 [v]).2
  | none => s

/-- Dword 4 with its state and reason. -/
def Queue.word4 (x : Queue) : W64 :=
  BitVec.ofNat 64 (putBits (putBits (dword x.entry 4) 18 2 (qstateCode x.state)) 20 4 x.reason)

def State.writeState (s : State) (part q : Nat) (x : Queue) : State :=
  (s.setQueue part q { x with entry := x.entry.set 4 x.word4 }).writeEntryWord part q 4 x.word4

/-- R367: what refuses ENABLE in an entry itself. -/
def Queue.bad (x : Queue) : Bool :=
  decide (x.f 0 57 7 ≠ 0 ∨ x.f 3 57 7 ≠ 0 ∨ x.f 4 40 24 ≠ 0 ∨ x.f 4 17 1 ≠ 0 ∨ x.f 4 11 1 ≠ 0 ∨ x.f 4 7 1 ≠ 0 ∨
    x.f 6 57 7 ≠ 0 ∨ x.f 7 16 48 ≠ 0) ||
  decide (20 < x.f 4 12 5) || decide (x.f 4 32 8 = 0) || decide (x.f 4 5 2 = 3) || decide (x.f 0 0 57 % 128 ≠ 0) ||
  decide (x.pool % 65536 ≠ 0) ||
  (if x.priv = .h then decide (x.space ≠ 0) else !spaceOk x.space.toNat 9)

def State.vfState (s : State) (part vf : Nat) : Nat := bitsOf (s.vfcfg part vf).toNat 1 2

def Queue.base (x : Queue) : Nat := x.f 0 0 57
def Queue.lsz (x : Queue) : Nat := x.f 4 12 5
def Queue.qprio (x : Queue) : Nat := x.f 4 8 3
def Queue.proc (x : Queue) : Nat := x.f 4 24 8
def Queue.weight (x : Queue) : Nat := x.f 4 32 8

/-- R367: a command is over, and the next one can come. -/
def State.qcmdOver (s : State) (part : Nat) : State := s.modPart part fun p => { p with qcmd := false }

/-- R187, R359: the home of a queue's entry refuses it with RETRY. -/
def State.entryRefused (s : State) (part q : Nat) : List Nat := match s.entryAt part q 0 with
  | some d => if s.refusesLine (lineOf d) then [lineOf d] else []
  | none => []

def execQcmdEnable (slice : Nat) (val : W64) (req : Nat) (s0 : State) : Out :=
  .next <|
  let v := val.toNat
  let q := v % 4096
  match s0.partOf slice with
  | none => s0.reply req replyRefused
  | some p =>
  if s0.entryRefused p q ≠ [] then s0.tryAgain (s0.entryRefused p q) (.qcmdEnable slice val req)
  else
  let s := s0.qcmdOver p
  match s.readEntry p q with
    | none => s.reply req replyRefused
    | some ws =>
      let x : Queue := ⟨ws, .active, 0, ws.getD 5 0, false⟩
      let active := match s.queue? p q with
        | some y => decide (y.state = .active)
        | none => false
      if 2 ^ 14 ≤ v ∨ active = true ∨ x.bad = true ∨ (x.priv ≠ .h ∧ s.vfState p x.vf ≠ 1) then s.reply req replyRefused
      else ((s.writeState p q x).reply req replyOk).post (.ticketFetch p q)

/-! Waits of the ringmaster. -/

/-- What a listing of the ringmaster last read: none before its first reading comes. -/
def State.lastReport (s : State) (who : WaiterOf) : Option (W64 × Bool) :=
  s.flight.waiters.foldl (fun (v : Option (W64 × Bool)) e =>
    if e.2.who = who then e.2.reports.foldl (fun v r => if r.1 ≤ s.tick then some r.2 else v) v else v) none

def State.unlist (s : State) (who : WaiterOf) : State :=
  s.setFlight { s.flight with waiters := s.flight.waiters.filter fun e => decide (e.2.who ≠ who) }

def State.isListed (s : State) (who : WaiterOf) : Bool := s.flight.waiters.any fun e => decide (e.2.who = who)

/-- R226, R227: a GLOBAL designator in a queue's regime. -/
def State.nameIn (s : State) (slice : Nat) (rg : Regime) (d : W64) : Named :=
  if bitsOf d.toNat 57 7 ≠ 0 then .bad causeShape 0 else s.nameGlobal slice rg (bitsOf d.toNat 0 57)

/-! Fetching (R368, R369, R385). -/

def qSpace : Nat := 1
def qOverrun : Nat := 2
def qPoison : Nat := 3
def qDesig : Nat := 4

/-- R369: the queue is in ERROR, and its record goes to the ring of the slice that homes its entry. -/
def State.queueError (s : State) (part q : Nat) (x : Queue) (reason p : Nat) : State :=
  let y := { x with state := .error, reason := reason }
  let w0 := 0x10 + reason * 2 ^ 8 + q * 2 ^ 12 + x.vf * 2 ^ 24
  let slice := match s.entryAt part q 0 with
    | some d => dpaSlice d
    | none => s.firstSlice part
  let ring := if x.priv = .h then Ring.kFault else Ring.vfFault x.vf
  let s1 := (s.unlist (.producer part q)).writeState part q y
  (s1.queueRing slice part ring [BitVec.ofNat 64 w0, BitVec.ofNat 64 p, x.ci, x.entry.getD 0 0, 0, 0, 0, 0] none none).2

def State.pendingIn (s : State) (part q : Nat) : Nat := ((s.ticketsOf part q).filter fun e => e.2.pending).length

def State.pendingAll (s : State) (part : Nat) : Nat :=
  (s.pkg.tickets.filter fun e => decide (e.2.part = part) && e.2.pending).length

/-- R385. -/
def State.ticketRoom (s : State) (part q : Nat) : Bool :=
  decide (s.pendingIn part q < 64) && decide (s.pendingAll part < 1024)

/-- What the ringmaster reads: words, with their poison; refused with RETRY; or nothing where the address does not
translate. -/
inductive Got where
  | words (ws : List W64) (bad : Bool)
  | again (lines : List Nat)
  | none
  deriving DecidableEq, Repr

/-- R364: 128 bytes at their home, under DEFAULT leases. -/
def State.read128 (s0 : State) (slice : Nat) (rg : Regime) (va : Nat) : Got × State :=
  match s0.xlate slice rg va needR with
  | (.ok (.mem d tag), s) =>
    let l := lineOf d
    let refused := [l, l + 1].filter s.refusesLine
    if refused ≠ [] then (.again refused, s)
    else
      let s1 := (s.settle l).settle (l + 1)
      let bad := s1.homes.badRead l tag || s1.homes.badRead (l + 1) tag
      let s2 := ((s1.grant l slice 1).2.grant (l + 1) slice 1).2
      (.words (words64 16 (memBytes s2.homes.mem d 128)) bad,
        s2.walked rg.part rg.chargeVf [(l, false), (l + 1, false)])
  | (.error f, s) => (if f.cause = causeAgain then .again [f.gpa] else .none, s)
  | (_, s) => (.none, s)

/-! The check of a ticket (R267, R372). -/

def tkDone : BitVec 8 := 0x80
def tkTooLarge : BitVec 8 := 0x81
def tkShape : BitVec 8 := 0x82
def tkPrivilege : BitVec 8 := 0x83
def tkFaulted : BitVec 8 := 0x84
def tkCancelled : BitVec 8 := 0x85
def tkLost : BitVec 8 := 0x86
def tkRange : BitVec 8 := 0x87
def tkPoisoned : BitVec 8 := 0x88

/-- The core rectangle: x0, y0, w, h. -/
def Ticket.rect (t : Ticket) : Nat × Nat × Nat × Nat := (t.f 8 0 4, t.f 8 4 4, t.f 8 8 5, t.f 8 16 4)

/-- R266. -/
def isTeam (x0 y0 w h : Nat) : Bool :=
  [1, 2, 4, 8, 16].contains w && [1, 2, 4, 8].contains h && decide (x0 % w = 0) && decide (y0 % h = 0) &&
  decide (x0 + w ≤ 16) && decide (y0 + h ≤ 8)

def Ticket.team (t : Ticket) : Bool := let (x, y, w, h) := t.rect; isTeam x y w h

/-- The cores of the rectangle, ascending. -/
def Ticket.cores (t : Ticket) : List Nat :=
  let (x, y, w, h) := t.rect
  (List.range h).flatMap fun j => (List.range w).map fun i => x + i + 16 * (y + j)

/-- R268: the core of a block of a RESIDENT launch. -/
def Ticket.coreOf (t : Ticket) (linear : Nat) : Nat :=
  let (x, y, w, _) := t.rect
  x + linear % w + 16 * (y + linear / w)

def notGlobal (d : Nat) : Bool := decide (d ≠ 0 ∧ d / 2 ^ 62 ≠ 0)

/-- R372, order 1. -/
def Ticket.shapeBad (t : Ticket) : Bool :=
  let (_, _, w, h) := t.rect
  decide (t.f 0 57 7 ≠ 0 ∨ t.f 1 57 7 ≠ 0 ∨ t.f 5 32 32 ≠ 0 ∨ t.f 7 5 3 ≠ 0 ∨ t.f 7 39 1 ≠ 0 ∨ t.f 7 45 19 ≠ 0 ∨
    t.f 8 13 3 ≠ 0 ∨ t.f 8 20 4 ≠ 0 ∨ t.f 8 28 36 ≠ 0) ||
  decide (t.tpb = 0 ∨ 16 < t.tpb ∨ t.rg = 0 ∨ 12 < t.rg ∨ 64 < t.f 7 32 7 ∨ t.f 8 26 2 = 3 ∨ t.f 0 0 3 ≠ 0) ||
  notGlobal (dword t.words 2) || notGlobal (dword t.words 4) || !t.team ||
  (t.resident && decide (t.gx ≠ w ∨ t.gy ≠ h ∨ t.gz ≠ 1))

def Priv.code : Priv → Nat := privCode

/-- R372: the outcome of a check, 0 where the ticket waits to become ready. -/
def State.checkTicket (s : State) (t : Ticket) (q : Queue) : BitVec 8 :=
  if t.shapeBad then tkShape
  else if t.f 8 26 2 ≠ q.priv.code then tkPrivilege
  else if t.blocks = 0 then tkDone
  else if decide (655360 < t.d + t.c) || decide (16 < t.nslot) ||
      t.cores.any s.coreRetired || t.cores.any (fun c => !(s.smask t.part).getLsbD (coreSlice c)) ||
      (if t.resident then t.cores.any fun c => s.neverFits c q.vf t.ask
       else t.cores.all fun c => s.neverFits c q.vf t.ask) then tkTooLarge
  else 0

/-- A fetched or launched ticket is checked at once. -/
def State.newTicket (s : State) (part q addr : Nat) (ws : List W64) : State :=
  let x := (s.queue? part q).getD noQueue
  let t : Ticket := ⟨part, q, addr, ws, .waiting, 0, 0, 0, 0, s.seq, none, 0, false⟩
  let t1 := { t with status := s.checkTicket t x }
  let (id, s1) := s.bump.newId
  (s1.setTicket id t1).post (if t1.status = 0 then .ticketReady id else .ticketComplete id)

def execTicketFetch (part queue : Nat) (s : State) : Out :=
  .next <|
  match s.queue? part queue with
  | none => s
  | some x =>
    let slice := s.firstSlice part
    let rg := x.regime part
    if x.state ≠ .active then s
    else if !s.isListed (.producer part queue) then
      match s.nameIn slice rg (x.entry.getD 2 0) with
      | .bad .. => s.queueError part queue x qDesig 0
      | .again line => s.tryAgain [line] (.ticketFetch part queue)
      | .to loc va => s.addWaiter (.producer part queue) loc va rg.flowVf part (x.ci + 1)
    else match s.lastReport (.producer part queue) with
      | none => s
      | some (p, bad) =>
        let ahead := (p - x.ci).toInt
        if bad then s.queueError part queue x qPoison p.toNat
        else if ((2 ^ x.lsz : Nat) : Int) < ahead ∨ ahead < -((2 ^ 62 : Nat) : Int) then
          s.queueError part queue x qOverrun p.toNat
        else if ahead ≤ 0 ∨ s.ticketRoom part queue = false then s
        else
          let a := x.base + 128 * (x.ci.toNat % 2 ^ x.lsz)
          if 2 ^ 57 < x.base + 128 * 2 ^ x.lsz then s.queueError part queue x qSpace p.toNat
          else match s.read128 slice rg a with
            | (.none, s1) => s1.queueError part queue x qSpace p.toNat
            | (.again ls, s1) => s1.tryAgain ls (.ticketFetch part queue)
            | (.words _ true, s1) => s1.queueError part queue x qPoison p.toNat
            | (.words ws false, s1) =>
              let y := { x with ci := x.ci + 1, entry := x.entry.set 5 (x.ci + 1) }
              (((s1.unlist (.producer part queue)).setQueue part queue y).writeEntryWord part queue 5 y.ci).newTicket part
                queue a ws |>.post (.ticketFetch part queue)

/-- A ticket has left the pending ones: fetching may go on. -/
def State.kickQueues (s : State) (part : Nat) : State :=
  s.pkg.queues.foldl (fun s e =>
    if e.1 / 4096 = part ∧ e.2.state = .active then s.postOnce (.ticketFetch part (e.1 % 4096)) else s) s

/-! Joins (R372). -/

/-- Every earlier ticket of the queue has completed. -/
def State.inOrder (s : State) (t : Ticket) : Bool :=
  !t.ordered || !((s.ticketsOf t.part t.queue).any fun e => decide (e.2.order < t.order))

def State.endTicket (s : State) (id : Nat) (t : Ticket) (code : BitVec 8) : State :=
  ((s.unlist (.join id)).setTicket id { t with status := code }).post (.ticketComplete id)

def State.joined (s : State) (id : Nat) (t : Ticket) : State :=
  let t1 := { t with joined := true }
  let s1 := (s.unlist (.join id)).setTicket id t1
  if s1.inOrder t1 then
    ((s1.setTicket id { t1 with state := .ready, readyAt := s1.seq }).bump).placeAgain t.part
  else s1

def execTicketReady (ticket : Nat) (s : State) : Out :=
  .next <|
  match s.ticket? ticket with
  | none => s
  | some t =>
    let x := (s.queue? t.part t.queue).getD noQueue
    let rg := x.regime t.part
    let jth := t.words.getD 3 0
    if t.state ≠ .waiting ∨ t.status ≠ 0 then s
    else if t.joined || decide (dword t.words 2 = 0) then s.joined ticket t
    else if !s.isListed (.join ticket) then
      match s.nameIn (s.firstSlice t.part) rg (t.words.getD 2 0) with
      | .bad .. => s.endTicket ticket t tkShape
      | .again line => s.tryAgain [line] (.ticketReady ticket)
      | .to loc va => s.addWaiter (.join ticket) loc va rg.flowVf t.part jth
    else match s.lastReport (.join ticket) with
      | none => s
      | some (v, bad) =>
        if bad then s.endTicket ticket t tkPoisoned
        else if outOfRange v jth then s.endTicket ticket t tkRange
        else if satisfied v jth then s.joined ticket t
        else s

/-! Completion (R374). -/

/-- Whether nothing more of the ticket will run. -/
def Ticket.over (t : Ticket) : Bool :=
  decide (t.live = 0) && (decide (t.placed = t.blocks) || (decide (t.status ≠ 0) && decide (t.status ≠ tkFaulted)))

/-- The lines that refuse a table entry to the ticket's status word or to its completion turnstile with RETRY. -/
def State.finishAgain (s : State) (t : Ticket) : List Nat :=
  let rg := ((s.queue? t.part t.queue).getD noQueue).regime t.part
  let slice := s.firstSlice t.part
  (match s.xlateOf slice rg (t.addr + 120) needW with
   | .error f => if f.cause = causeAgain then [f.gpa] else []
   | .ok _ => []) ++
  (match s.nameIn slice rg (t.words.getD 4 0) with
   | .again line => [line]
   | _ => [])

/-- The status word is stored, and the completion turnstile advances after it. -/
def State.finish (s : State) (id : Nat) (t : Ticket) : State :=
  let x := (s.queue? t.part t.queue).getD noQueue
  let rg := x.regime t.part
  let slice := s.firstSlice t.part
  let code := if t.status = 0 then tkDone else t.status
  let w := BitVec.ofNat 64 (s.tick % 2 ^ 48 * 2 ^ 16 + code.toNat)
  let (ops, s1) := match s.xlate slice rg (t.addr + 120) needW with
    | (.ok (.mem d tag), s1) => let (op, s2) := s1.agentStore slice rg (some (t.addr + 120)) d tag [w]; ([op], s2)
    | (_, s1) => ([], s1)
  let done := t.words.getD 4 0
  let s2 := if done = 0 then s1 else match s1.nameIn slice rg done with
    | .to loc name => s1.addAfter slice t.part rg.flowVf loc name (t.f 5 0 32) t.gwct ops
    | _ => s1
  let s3 := s2.setPkg { s2.pkg with tickets := sdel id s2.pkg.tickets }
  let s4 := s3.modPart t.part fun p => if p.gathering = some id then { p with gathering := none } else p
  ((s4.ticketsOf t.part t.queue).foldl (fun s e =>
    if e.2.state = .waiting && e.2.joined then s.postOnce (.ticketReady e.1) else s) s4).kickQueues t.part

def execTicketComplete (ticket : Nat) (s : State) : Out :=
  .next <|
  match s.ticket? ticket with
  | none => s
  | some t =>
    if !t.over then s
    else if s.finishAgain t ≠ [] then s.tryAgain (s.finishAgain t) (.ticketComplete ticket)
    else s.finish ticket t

/-! DISABLE (R367, R399). -/

def execQcmdDisable (slice : Nat) (val : W64) (req : Nat) (s0 : State) : Out :=
  .next <|
  let v := val.toNat
  let q := v % 4096
  match s0.partOf slice with
  | none => s0.reply req replyRefused
  | some p =>
    let s := s0.qcmdOver p
    if 2 ^ 14 ≤ v then s.reply req replyRefused
    else if s0.entryRefused p q ≠ [] then s0.tryAgain (s0.entryRefused p q) (.qcmdDisable slice val req)
    else
      let s1 := match s.queue? p q, s.readEntry p q with
        | some x, _ => (s.unlist (.producer p q)).writeState p q { x with state := .off }
        | none, some ws => s.writeState p q ⟨ws, .off, bitsOf (dword ws 4) 20 4, ws.getD 5 0, false⟩
        | none, none => s
      ((s1.ticketsOf p q).foldl (fun s e =>
        if e.2.placed = 0 ∧ e.2.status = 0 then s.endTicket e.1 e.2 tkCancelled else s) s1).reply req replyOk

/-! launch (R393). -/

/-- The ringmaster's part of launch, once its release is done. -/
def State.launch (s : State) (req : Nat) (addr : Nat) : State :=
  match s.req? req with
  | none => s
  | some r => match (match s.troupe? (keyOf r.troupe) with
      | some t => s.block? t.block
      | none => none) with
    | none => s
    | some b => match s.read128 (coreSlice b.core) b.regime addr with
      | (.again ls, s1) =>
        (s1.setReq req { r with work := some (.launch addr) }).tryAgain ls (.heldReleaseSend req)
      | (.words ws false, s1) =>
        if s1.ticketRoom b.regime.part b.queue then (s1.reply req 0).newTicket b.regime.part b.queue addr ws
        else s1.reply req 1
      | (_, s1) => s1.reply req 2

end Sys2Proof.Machine
end

