-- ==== Sys2Proof/Machine/Releases.lean ====
section
/-! DEFINITION. Releases that are held until what they cover has gone home (R231, R250, R299, R323, R352, R355, R393). -/

namespace Sys2Proof.Machine

/-- Whether the accesses that a release covers are complete: for a hart, every store it made. -/
def State.covered (s : State) (o : Owner) (after : List Nat) : Bool :=
  match o with
  | .hart h => (s.hart h).sbuf.isEmpty && !s.hartBusy h
  | _ => after.all s.opDone

/-- A hart's buffered stores are on their way while it holds a release. -/
def State.pushStores (s : State) (o : Owner) : State := match o with
  | .hart h => s.drainAll h
  | _ => s

/-- The write-backs of a release at a scope. -/
def State.releaseOf (s : State) (o : Owner) (scope : Nat) : List Nat × State :=
  match s.ownerAt o with
  | some (core, block) => s.release o core block scope
  | none => ([], s)

/-- R231: not before the GWCTs of the writes it covers. -/
def State.notBefore (s : State) (o : Owner) (nb : Nat) (after : List Nat) : Nat :=
  Nat.max nb (Nat.max (s.ownerGwct o) (s.latestP after))

def isPeer (l : TsLoc) : Bool := match l with
  | .peer _ => true
  | _ => false

def State.stepTs (s : State) (id : Nat) (o : TsOp) : State :=
  let again := Ev.heldReleaseSend id
  match o.stage with
  | .held =>
    if s.covered o.owner o.after then
      let (backs, s1) := s.releaseOf o.owner o.scope
      (s1.setTs id { o with stage := .releasing, after := backs }).post again
    else (s.pushStores o.owner).later again
  | .releasing =>
    if o.after.all s.opDone then
      let nb := s.notBefore o.owner o.nb o.after
      -- R323: other modules do not share %tick
      let abroad := decide (o.scope = 7) || isPeer o.loc
      if abroad && decide (s.tick < nb) then s.at nb again
      else
        let o1 := { o with stage := .sent, nb := if abroad then 0 else nb }
        (s.setTs id o1).sendTs id o1
    else s.later again
  | .refused =>
    -- R162, R360: the repeat goes through the translation as it stands
    let m := s.movedTo o.owner (s.ownerLeaf o.owner 0 / 8) o.loc o.name
    let o1 := { o with stage := .sent, loc := m.1, name := m.2 }
    (s.setTs id o1).sendTs id o1
  | _ => s

/-- R352: a write of the same unit that the troupe issued before the read of a request, and that has arrived in this very
tick. The read is of the register as it then stands (DESIGN CHOICE, log entry 102); for a write that arrives later it does
not wait, since no rule orders the two words. -/
def State.writesBefore (s : State) (id troupe slice unit : Nat) : Bool :=
  s.todo.any fun e => match e with
    | .systemRegisterWrite a b _ _ i => decide (a = slice ∧ b = unit ∧ i < id) && (match s.req? i with
      | some r => decide (r.troupe = troupe)
      | none => false)
    | _ => false

/-- What a request does once its release is done. -/
def State.runRequest (s : State) (id : Nat) (r : Request) : State :=
  match r.work with
  | some (.sysWrite sl u reg v) =>
    let core := (keyOf r.troupe).core
    (s.setReq id { r with work := none }).at (Nat.max r.nb (s.tick + latency (coreSlice core) sl))
      (.systemRegisterWrite sl u reg v id)
  | some (.launch a) =>
    if s.tick < r.nb then s.at r.nb (.heldReleaseSend id) else (s.setReq id { r with work := none }).launch id a
  | some (.ecall sl ring ws) =>
    if s.tick < r.nb then s.at r.nb (.heldReleaseSend id)
    else
      let part := match s.ownerRegime (.troupe r.troupe) with
        | some g => g.part
        | none => 0
      ((s.setReq id { r with work := none }).queueRing sl part ring ws none (some id)).2
  | some (.sysRead part sl u reg p) =>
    if s.writesBefore id r.troupe sl u then s.post (.heldReleaseSend id)
    else if s.leftSlice id sl then (s.countRefusal.setReq id { r with poison := true }).reply id 0
    else s.reply id (BitVec.ofNat 64 (s.readReg part sl u reg p))
  | some (.cpstat sel) => s.reply id (s.chainAnswer r.troupe sel)
  | some (.qstat q what) => s.reply id (match s.ownerRegime (.troupe r.troupe) with
    | some rg => s.queueAnswer rg q what
    | none => 0)
  | some (.pinq sl) => s.reply id (match s.ownerRegime (.troupe r.troupe) with
    | some rg => s.pinAnswer rg sl
    | none => 0)
  | some (.unpin ..) => s.reply id 0
  | some (.answer v) => s.reply id v
  | some (.niAnswer v) => (s.reply id v).modTroupe (keyOf r.troupe) fun t => t.count fun n => { n with ni := n.ni - 1 }
  | some .niEnd => (s.delReq id).modTroupe (keyOf r.troupe) fun t => t.count fun n => { n with ni := n.ni - 1 }
  | some .mxEnd => (s.delReq id).modTroupe (keyOf r.troupe) fun t => t.count fun n => { n with mx := n.mx - 1 }
  | _ => s

def State.stepReq (s : State) (id : Nat) (r : Request) : State :=
  let again := Ev.heldReleaseSend id
  let o := Owner.troupe r.troupe
  match r.stage with
  | .held =>
    if r.after.all s.opDone then
      let (backs, s1) := s.releaseOf o 6
      (s1.setReq id { r with stage := .releasing, after := backs }).post again
    else s.later again
  | .releasing =>
    if r.after.all s.opDone then
      let r1 := { r with stage := .sent, nb := s.notBefore o r.nb r.after }
      (s.setReq id r1).runRequest id r1
    else s.later again
  | .sent => s.runRequest id r
  | _ => s

def execHeldReleaseSend (op : Nat) (s : State) : Out :=
  .next <|
  match s.ts? op, s.req? op with
  | some o, _ => s.stepTs op o
  | none, some r => s.stepReq op r
  | none, none => s

end Sys2Proof.Machine
end

