-- ==== Sys2Proof/Machine/Ringmaster.lean ====
section
/-! DEFINITION. Arbitration and placement (R380 to R384, R388 to R390). A class 3 placement of a VF with eu > 0 may borrow
where its frames are reserved, as the trace of spec/13 has it (log entry 21). -/

namespace Sys2Proof.Machine

/-! Candidates (R380, R389, R390). -/

inductive CandOf where
  | ticket (id : Nat)
  | saved (id : Nat)
  | block (id : Nat)
  deriving DecidableEq, Repr

/-- How a candidate's next block would be placed: on a core, for a linear index, in these units; the units a reclaim
takes with its victims, and whether units are borrowed. -/
structure Option_ where
  core : Nat
  linear : Nat
  fit : Fit
  chosen : List CoreUnit
  victims : List Nat
  count : Nat
  deriving DecidableEq, Repr

/-- A candidate with its class and the placement it would get. -/
structure Cand where
  who : CandOf
  vf : Nat
  proc : Nat
  weight : Nat
  queue : Nat
  qprio : Nat
  cls : Nat
  order : Nat
  opt : Option_
  deriving DecidableEq, Repr

/-- R365: the weight of a process is that of its lowest-numbered ACTIVE queue. -/
def State.procWeight (s : State) (part vf proc : Nat) (own : Queue) : Nat :=
  match s.pkg.queues.find? fun e => decide (e.1 / 4096 = part) && decide (e.2.state = .active) &&
    decide (e.2.vf = vf) && decide (e.2.proc = proc) with
  | some e => e.2.weight
  | none => Nat.max own.weight 1

/-- R382: fewest victims for a reclaim, fewest blocks of the ticket for free units; then the lowest x + 16y. -/
def Option_.before (a b : Option_) : Bool :=
  if a.victims.length ≠ b.victims.length then decide (a.victims.length < b.victims.length)
  else if a.victims.isEmpty && decide (a.count ≠ b.count) then decide (a.count < b.count)
  else decide (a.core ≤ b.core)

def bestOption : List Option_ → Option Option_
  | [] => none
  | o :: t => match bestOption t with
    | none => some o
    | some p => some (if o.before p then o else p)

/-- Placements from free units, from own ones only or with borrowing. -/
def State.freeOptions (s : State) (vf : Nat) (a : Ask) (borrow : Bool) (places : List (Nat × Nat × Nat)) : List Option_ :=
  places.filterMap fun p => (s.fit p.1 vf a borrow).map fun f => ⟨p.1, p.2.1, f, [], [], p.2.2⟩

def State.reclaimOptions (s : State) (vf : Nat) (a : Ask) (places : List (Nat × Nat × Nat)) : List Option_ :=
  places.filterMap fun p => (s.reclaimFit p.1 vf a).map fun r => ⟨p.1, p.2.1, r.1, r.2.1, r.2.2, p.2.2⟩

/-- The balances of a VF. -/
def State.timeLeft (s : State) (part vf : Nat) : Int := match s.part? part with
  | some p => sget 0 vf p.tu
  | none => 0

def State.energyLeft (s : State) (part vf : Nat) : Int := match s.part? part with
  | some p => sget 0 vf p.eu
  | none => 0

/-- R381: the class of a candidate and its placement, if it can be placed now. has: it holds its frames already. -/
def State.classify (s : State) (part queue vf : Nat) (a : Ask) (frames : Nat) (has : Bool) (places : List (Nat × Nat × Nat))
    (owner : SlotOwner) : Option (Nat × Option_) :=
  let eu := decide (0 < s.energyLeft part vf)
  let tu := decide (0 < s.timeLeft part vf)
  let cls := if !eu then 3 else if owner = .vf vf then 0 else 1
  match bestOption (s.freeOptions vf a false places) with
  | some o => some (cls, o)
  | none => match (if eu then bestOption (s.reclaimOptions vf a places) else none) with
    | some o => some (cls, o)
    | none => match (if eu then bestOption (s.freeOptions vf a true places) else none) with
      | some o =>
        if has || (s.takeFrames (coreSlice o.core) part queue frames).1.isSome then some (if tu then 2 else 3, o)
        else none
      | none => none

/-- The places of the next block of a ticket in a slice, with the blocks of the ticket on each core (R268, R382). -/
def State.ticketPlaces (s : State) (slice id : Nat) (t : Ticket) : List (Nat × Nat × Nat) :=
  let bs := s.blocksOf id
  if t.resident then
    ((List.range t.blocks).filterMap fun l =>
      if coreSlice (t.coreOf l) = slice ∧ bs.all (fun e => decide (e.2.linear ≠ l)) = true then some (t.coreOf l, l, l)
      else none)
  else (t.cores.filter fun c => decide (coreSlice c = slice)).map fun c =>
    (c, t.placed, (bs.filter fun e => decide (e.2.core = c)).length)

/-- R383: one RESIDENT ticket is gathered at a time. -/
def State.mayGather (s : State) (id : Nat) (t : Ticket) : Bool :=
  !t.resident || (match s.part? t.part with
    | some p => decide (p.gathering = none ∨ p.gathering = some id)
    | none => false)

/-- R383: without the shares of units kept for a ticket, which serve nothing else. -/
def State.unreserved (s : State) (ticket : Nat) : State :=
  { s with blocks := s.blocks.filter fun e => !(decide (e.2.ticket = ticket) && decide (e.2.state = .reserving)) }

def State.ticketCand (s : State) (slice : Nat) (owner : SlotOwner) (id : Nat) (t : Ticket) : Option Cand :=
  let x := (s.queue? t.part t.queue).getD noQueue
  let open_ := decide (t.state = .ready ∨ t.state = .placing) && decide (t.status = 0 ∨ t.status = tkFaulted) &&
    decide (t.placed < t.blocks) && s.mayGather id t
  if !open_ then none
  else ((s.unreserved id).classify t.part t.queue x.vf t.ask t.ask.frames false (s.ticketPlaces slice id t) owner).map fun r =>
    ⟨.ticket id, x.vf, x.proc, s.procWeight t.part x.vf x.proc x, t.queue, x.qprio, r.1, t.readyAt, r.2⟩

/-- What a saved troupe asks for: one slot, kept where its block is RESIDENT, and its groups. -/
def State.savedAsk (s : State) (x : Saved) (b : Block) : Ask := ⟨if s.isResident b then 0 else 1, x.troupe.groups.length, 0, 0⟩

def State.savedCand (s : State) (slice : Nat) (owner : SlotOwner) (sid : Nat) (x : Saved) : Option Cand :=
  match x.kind, s.block? x.block with
  | .fault _ false, some b =>
    let q := (s.queue? x.part x.queue).getD noQueue
    if !x.ready || x.placed || decide (coreSlice b.core ≠ slice) || decide (b.state = .saved) then none
    else (s.classify x.part x.queue q.vf (s.savedAsk x b) (s.askOf b).frames (!b.frames.isEmpty) [(b.core, 0, 0)] owner).map
      fun r => ⟨.saved sid, q.vf, q.proc, s.procWeight x.part q.vf q.proc q, x.queue, q.qprio, r.1, sid, r.2⟩
  | _, _ => none

/-- What a block saved whole asks for. -/
def State.wholeAsk (s : State) (bid : Nat) (b : Block) : Ask :=
  let back := (s.savedOf bid).filter fun e => decide (e.2.kind = .whole)
  ⟨back.length, sumNat (back.map fun e => e.2.troupe.groups.length), b.grans, b.opslots.length⟩

def State.blockCand (s : State) (slice : Nat) (owner : SlotOwner) (bid : Nat) (b : Block) : Option Cand :=
  let q := (s.queue? b.regime.part b.queue).getD noQueue
  if b.state ≠ .saved || coreSlice b.core ≠ slice || b.ways.any (fun o => !s.opDone o) then none
  else (s.classify b.regime.part b.queue q.vf (s.wholeAsk bid b) 0 true [(b.core, b.linear, 0)] owner).map fun r =>
    ⟨.block bid, q.vf, q.proc, s.procWeight b.regime.part q.vf q.proc q, b.queue, q.qprio, r.1, bid, r.2⟩

def State.cands (s : State) (slice part : Nat) : List Cand :=
  let o := s.slotOwner part
  (s.pkg.saved.filterMap fun e => if e.2.part = part then s.savedCand slice o e.1 e.2 else none) ++
  (s.blocks.filterMap fun e => if e.2.regime.part = part then s.blockCand slice o e.1 e.2 else none) ++
  s.pkg.tickets.filterMap fun e => if e.2.part = part then s.ticketCand slice o e.1 e.2 else none

/-! Arbitration (R381). -/

def procKey (vf proc : Nat) : Nat := 256 * vf + proc
def lastKey (slice cls : Nat) : Nat := 4 * slice + cls
def lastqKey (vf proc prio : Nat) : Nat := 8 * procKey vf proc + prio

def lowerPass (a b : BitVec 32) : Bool := decide ((a - b).toInt < 0)

/-- The lowest pass of a list, compared as signed differences. -/
def lowestPass : List (BitVec 32) → Option (BitVec 32)
  | [] => none
  | a :: t => match lowestPass t with
    | none => some a
    | some b => some (if lowerPass b a then b else a)

/-- The first of a list at or after a number, wrapping. -/
def firstFrom (n : Nat) (l : List Nat) : Option Nat :=
  match minNat (l.filter fun v => decide (n ≤ v)) with
  | some v => some v
  | none => minNat l

/-- A process that gains a candidate after having none. -/
def Partition.gain (p : Partition) (slice : Nat) (now : List Nat) : Partition :=
  let had := p.hadCand.filterMap fun k => if k / 8192 = slice then some (k % 8192) else none
  let pass := (now.filter fun k => !had.contains k).foldl (fun ps k =>
    match lowestPass ((now.filter fun j => decide (j ≠ k ∧ j / 256 = k / 256)).map fun j => sget 0 j ps) with
    | some m => if lowerPass (sget 0 k ps) m then sput 0 k m ps else ps
    | none => ps) p.pass
  { p with
    pass := pass
    hadCand := (p.hadCand.filter fun k => decide (k / 8192 ≠ slice)) ++ now.map (8192 * slice + ·) }

def Partition.choose (p : Partition) (slice : Nat) (cs : List Cand) : Option Cand :=
  match minNat (cs.map (·.cls)) with
  | none => none
  | some k =>
    let cs := cs.filter fun c => decide (c.cls = k)
    match firstFrom (sget 31 (lastKey slice k) p.lastVf + 1) (cs.map (·.vf)) with
    | none => none
    | some v =>
      let cs := cs.filter fun c => decide (c.vf = v)
      let procs := toKeys (cs.map (·.proc))
      match lowestPass (procs.map fun j => sget 0 (procKey v j) p.pass) with
      | none => none
      | some m => match procs.find? fun j => decide (sget 0 (procKey v j) p.pass = m) with
        | none => none
        | some j =>
          let cs := cs.filter fun c => decide (c.proc = j)
          let prio := maxList (cs.map (·.qprio))
          let cs := cs.filter fun c => decide (c.qprio = prio)
          match firstFrom (sget 4095 (lastqKey v j prio) p.lastq + 1) (cs.map (·.queue)) with
          | none => none
          | some q =>
            let cs := cs.filter fun c => decide (c.queue = q)
            match cs.find? fun c => match c.who with | .ticket _ => false | _ => true with
            | some c => some c
            | none => leastBy (·.order) cs

def Partition.served (p : Partition) (slice : Nat) (c : Cand) : Partition :=
  { p with
    lastVf := sset (lastKey slice c.cls) c.vf p.lastVf
    lastq := sset (lastqKey c.vf c.proc c.qprio) c.queue p.lastq
    pass := sput 0 (procKey c.vf c.proc) (sget 0 (procKey c.vf c.proc) p.pass + BitVec.ofNat 32 (65536 / c.weight)) p.pass }

/-! Placement (R382, R383, R388, R389). -/

/-- A reclaim is directed, or the units are there already (R195, R199). -/
def State.directed (s : State) (bid : Nat) (o : Option_) : State :=
  if o.victims.isEmpty then s.post (.blockArrival bid)
  else
    let c := s.core o.core
    let s1 := s.setCore o.core { c with reclaims := c.reclaims ++ [⟨bid, o.chosen, o.victims⟩] }
    if c.reclaims.isEmpty then s1.post (.reclaim bid) else s1

/-- R388: a block on borrowed units holds frames. -/
def State.reserve (s : State) (bid : Nat) (n : Nat) : State :=
  match s.block? bid with
  | none => s
  | some b =>
    if b.borrowed.isEmpty || !b.frames.isEmpty then s
    else match s.takeFrames (coreSlice b.core) b.regime.part b.queue n with
      | (some fs, s1) => s1.setBlock bid { b with frames := fs }
      | (none, s1) => s1

/-- The number of the share that is kept on a core. -/
def shareNum (core : Nat) : Nat := 2 ^ 40 + core

def State.unreservedAt (s : State) (ticket core : Nat) : State :=
  { s with blocks := s.blocks.filter fun e =>
      !(decide (e.1 = shareNum core) && decide (e.2.ticket = ticket) && decide (e.2.state = .reserving)) }

/-- R383: the units of a VF's own ranges that a block of a RESIDENT launch can have already, as they become free (DESIGN
CHOICE, log entry 121: the lowest ones, and granules as a whole run). -/
def State.shareOf (s : State) (core : Nat) (b : Block) (a : Ask) : Block :=
  let q := s.quota core b.regime.vf
  let held := s.heldUnits core
  let free := fun (f : Nat → CoreUnit) (i : Nat) => !held.contains (f i)
  let run := if a.g = 0 then none else runIn (free .granule) q.pbase q.pcount a.g
  { b with
    slots := ((rangeOf q.sbase q.scount).filter (free .slot)).take a.t
    groups := ((rangeOf q.rbase q.rcount).filter (free .group)).take a.r
    g0 := run.getD 0
    grans := if run.isSome then a.g else 0
    opslots := ((rangeOf q.obase q.ocount).filter (free .opslot)).take a.n }

/-- R383: in a slice, the units kept for the launch that its partition gathers. -/
def State.keepShares (s : State) (slice part : Nat) : State :=
  let s0 : State := { s with blocks := s.blocks.filter fun (e : Nat × Block) =>
    !(decide (e.2.state = .reserving) && decide (coreSlice e.2.core = slice)) }
  match (s0.part? part).bind (·.gathering) with
  | none => s0
  | some id => match s0.ticket? id with
    | none => s0
    | some t =>
      if t.state ≠ .placing ∨ t.blocks ≤ t.placed then s0
      else
        let x := (s0.queue? t.part t.queue).getD noQueue
        (s0.ticketPlaces slice id t).foldl (fun s p =>
          let b : Block := ⟨id, x.regime t.part, t.queue, p.2.1, 0, 0, 0, p.1, [], [], [], 0, 0, t.d, t.c, [], [], .reserving,
            0, [], 0, [], [], 0, false⟩
          s.setBlock (shareNum p.1) (s.shareOf p.1 b t.ask)) s0

def State.placeTicket (s : State) (id : Nat) (t : Ticket) (o : Option_) : State :=
  let x := (s.queue? t.part t.queue).getD noQueue
  let (bid, s1) := s.newId
  let l := o.linear
  let f := o.fit
  let b : Block := ⟨id, x.regime t.part, t.queue, l, l % t.gx, l / t.gx % t.gy, l / t.gx / t.gy, o.core, f.slots, f.groups,
    f.borrowed, f.g0, t.ask.g, t.d, t.c, f.opslots, [], .arriving, s.seq, [], 0, [], [], 0, false⟩
  let all := decide (t.placed + 1 = t.blocks)
  let t1 := { t with placed := t.placed + 1, live := t.live + 1, state := if all then .running else .placing }
  let s2 := (((s1.unreservedAt id o.core).bump.setBlock bid b).setTicket id t1).reserve bid t.ask.frames
  let s3 := s2.modPart t.part fun p => if t.resident then { p with gathering := some id } else p
  let s4 := s3.directed bid o
  if all then s4.kickQueues t.part else s4

def State.placeSaved (s : State) (sid : Nat) (x : Saved) (o : Option_) : State :=
  match s.block? x.block with
  | none => s
  | some b =>
    let slot := o.fit.slots.headD (x.key % 32)
    let num := 32 * b.core + slot
    let b1 := { b with
      slots := if b.slots.contains slot then b.slots else b.slots ++ [slot]
      groups := b.groups ++ o.fit.groups
      borrowed := b.borrowed ++ o.fit.borrowed }
    let x1 := { x with key := num, placed := true, troupe := { x.troupe with groups := o.fit.groups } }
    -- what is in flight for it follows its new number
    let s1 := ((s.setBlock x.block b1).putSaved sid x1).rekey (parkNum sid x.key) (parkNum sid num)
    ((s1.reserve x.block (s.askOf b).frames).directed x.block o).later (.troupeRestore sid)

def State.placeBlock (s : State) (bid : Nat) (o : Option_) : State :=
  let f := o.fit
  (s.modBlock bid fun b => { b with
    slots := f.slots
    groups := f.groups
    borrowed := f.borrowed
    g0 := f.g0
    opslots := f.opslots
    state := .arriving
    arrived := s.seq }).bump.directed bid o

def State.place (s : State) (c : Cand) : State :=
  match c.who with
  | .ticket id => match s.ticket? id with
    | some t => s.placeTicket id t c.opt
    | none => s
  | .saved sid => match sfind sid s.pkg.saved with
    | some x => s.placeSaved sid x c.opt
    | none => s
  | .block bid => s.placeBlock bid c.opt

/-- Whether the slice's unit has something to look at again in the next tick. -/
def State.awaits (s : State) (slice part : Nat) : Bool :=
  (s.pkg.tickets.any fun e => decide (e.2.part = part) && decide (e.2.state = .ready ∨ e.2.state = .placing) &&
    e.2.cores.any fun c => decide (coreSlice c = slice)) ||
  (s.pkg.saved.any fun e => decide (e.2.part = part) && e.2.ready && !e.2.placed) ||
  s.blocks.any fun e => decide (e.2.regime.part = part) && decide (e.2.state = .saved ∨ e.2.state = .reserving)

def State.repeats (s : State) (slice part : Nat) : State :=
  if s.awaits slice part then s.laterOnce (.placement slice) else s

def execPlacement (slice : Nat) (s : State) : Out :=
  .next <|
  match s.partOf slice with
  | none => s
  | some part =>
    if s.quiesced part then s.repeats slice part
    else match s.part? part with
      | none => s
      | some p =>
        let s := s.keepShares slice part
        let cs := s.cands slice part
        let p1 := p.gain slice (toKeys (cs.map fun c => procKey c.vf c.proc))
        match p1.choose slice cs with
        | none => (s.repeats slice part).setPart part p1
        | some c => ((s.repeats slice part).setPart part (p1.served slice c)).place c

end Sys2Proof.Machine
end

