-- ==== Sys2Proof/Machine/Calendar.lean ====
section
/-! DEFINITION. The calendar, budgets and rounds, throttling, snapshots, and what a lost slice or unit discards (R287, R325,
R328, R349, R366, R375 to R379, R390, R395 to R398, R411). -/

namespace Sys2Proof.Machine

/-! The calendar (R375, R376). -/

/-- R375: whether a table suits the slots of a partition. -/
def calendarOk (slots : KeySet) (bs : List Byte) : Bool :=
  (bs.zipIdx).all fun e =>
    let b := e.1.toNat
    !bitN b 5 && decide (b / 64 = 1 ∨ b % 32 = 0) && (decide (b / 64 = 3) == !kmem e.2 slots)

def calendarOf (bs : List Byte) : Sparse Byte := (bs.zipIdx).foldl (fun m e => sput 0 e.2 e.1 m) []

def execCalendarLoad (slice req : Nat) (s : State) : Out :=
  .next <|
  match s.partOf slice with
  | none => s.reply req replyRefused
  | some p => match s.part? p with
    | none => s.reply req replyRefused
    | some x =>
      if x.calNext.isSome then s.reply req replyBusy
      else match s.ppaMem p (s.reg slice 0 0xC2).toNat with
        | none => s.reply req replyRefused
        | some d =>
          let bs := memBytes s.homes.mem d 1024
          let bad := (List.range 16).any fun i => s.homes.badRead (lineOf d + i) 0
          if bad || !calendarOk x.calSlots bs then s.reply req replyRefused
          else (s.setPart p { x with calNext := some (calendarOf bs) }).reply req replyOk

/-- The VFs of a slice with a bucket that a slot may change. -/
def State.metered (s : State) (slice : Nat) : List Nat :=
  (List.range 32).filter fun v => decide (s.reg slice 0 (sltokReg v) ≠ 0 ∨ s.reg slice 0 (tokWaitReg v) ≠ 0)

def nextMultiple (n t : Nat) : Nat := (t / n + 1) * n

/-- Messages of the GTD class that wait at their NIs for a slot of their owner (R433). -/
def State.gtdWaiting (s : State) : List Nat :=
  (s.fab.packets.filter fun e => decide (e.2.cls = .gtd) && decide (e.2.slotNo = 0) && !e.2.held).map (·.1)

/-- A slot begins: buckets gain their rate, the slices may deliver again, and GTD packets may leave. -/
def execCalendarSlotStart (s : State) : Out :=
  .next <|
  let next := (nextMultiple 4 s.tick, Ev.calendarSlotStart)
  if s.tick % 4 ≠ 0 ∨ s.timers.contains next then s
  else
    let slices := (List.range 16).filter fun sl => (s.partOf sl).isSome
    let s1 := slices.foldl (fun s sl => (s.metered sl).foldl (fun s v => s.refill sl v) s) s
    let s2 := s1.setPkg { s1.pkg with delivered := [] }
    let s3 := (toKeys (s2.pkg.ring.map (·.slice))).foldl (fun s sl => s.postOnce (.ringEntryDelivery sl)) s2
    let s4 := s3.gtdWaiting.foldl (fun s i => s.postOnce (.switchForward i)) s3
    s4.at next.1 next.2

/-! Budgets (R366, R378, R379). What is in force: VFSCHEDv under v, RMCFG under 32, the power cap under 33. -/

def sat32 (z : Int) : Int := clampI (-(2 ^ 31 : Nat)) ((2 ^ 31 : Nat) - 1) z

def schedRmcfg : Nat := 32
def schedCap : Nat := 33

def Partition.inForce (p : Partition) (k : Nat) : Nat := (sget (if k = schedRmcfg then 1 else 0) k p.sched).toNat

/-- R378: the energy of a VF's events, in 1/1,024 of a unit. slots are the troupe slots it holds. -/
def periodEnergy (a b : Nat) (count : Nat → Nat) (slots : Nat) : Nat :=
  bitsOf a 48 16 * count 0 + bitsOf a 32 16 * (count 1 / 64) + bitsOf a 16 16 * count 2 + bitsOf a 0 16 * (count 3 / 1024) +
    bitsOf b 0 16 * slots

def State.blocksOfVf (s : State) (part vf : Nat) : List Block :=
  (s.blocks.filter fun e => decide (e.2.regime.part = part) && decide (e.2.regime.vf = vf) && decide (e.2.state ≠ .saved)).map
    (·.2)

def Block.heldSlots (b : Block) : Nat := (b.slots.filter fun i => !b.spill.contains (.slot i)).length

/-- R379: a block that holds a borrowed unit now. -/
def State.borrows (s : State) (b : Block) : Bool := b.unitsHeld.any fun u => s.isBorrowed b u

/-- R379: whether a round has begun since VFSCHEDv was first written; the balances stay 0 until then. -/
def Partition.budgeted (p : Partition) (vf : Nat) : Bool := decide (sget 0 (64 + vf) p.sched ≠ 0)

def State.chargePeriod (s : State) (part : Nat) (p : Partition) : Partition :=
  let sl := s.firstSlice part
  let a := (s.reg sl 0 0xC6).toNat
  let b := (s.reg sl 0 0xC7).toNat
  let spend := fun (eu : Sparse Int) (v : Nat) =>
    let e := periodEnergy a b (fun k => sget 0 (8 * v + k) p.events) (sumNat ((s.blocksOfVf part v).map Block.heldSlots))
    if p.budgeted v then sput 0 v (sat32 (sget 0 v eu - (ceilDiv e 1024 : Nat))) eu else eu
  let use := fun (tu : Sparse Int) (v : Nat) =>
    if p.budgeted v then sput 0 v (sat32 (sget 0 v tu - (((s.blocksOfVf part v).filter s.borrows).length : Nat))) tu else tu
  { p with events := [], eu := (List.range 32).foldl spend p.eu, tu := (List.range 32).foldl use p.tu }

/-- R379: a debt carries over, and a surplus does not. -/
def renew (bal : Int) (share : Nat) : Int := sat32 (min bal 0 + (share : Int))

def execRoundStart (part : Nat) (s : State) : Out :=
  .next <|
  match s.part? part with
  | none => s
  | some p =>
    let sl := s.firstSlice part
    let sched := (List.range 32).foldl (fun m v =>
      sput 0 (64 + v) (s.reg sl 0 (schedMark v)) (sput 0 v (s.reg sl 0 (0xE0 + v)) m)) p.sched
    let cfg := s.reg sl 0 0xC8
    let share := fun (v lo len : Nat) => bitsOf (s.reg sl 0 (0xE0 + v)).toNat lo len
    s.setPart part { p with
      sched := sset schedRmcfg cfg sched
      round := cfg.toNat % 256
      tu := (List.range 32).foldl (fun m v => sput 0 v (renew (sget 0 v m) (share v 48 16)) m) p.tu
      eu := (List.range 32).foldl (fun m v => sput 0 v (renew (sget 0 v m) (share v 24 24)) m) p.eu }

/-! Throttling (R410, R411). -/

def stepLevel (level : Nat) (up down : Bool) : Nat := if up then Nat.min 7 (level + 1) else if down then level - 1 else level

/-- A slice's levels for the next period; a change of clock starts from the clocks reached so far. -/
def State.throttle (s : State) (slice power : Nat) (cap : Nat) : State :=
  let t := sget 0 slice s.plat.temps
  let pl := stepLevel (sget 0 slice s.plat.powerLevel) (decide (cap < power)) (decide (100 * power < 95 * cap))
  let tl := stepLevel (sget 0 slice s.plat.thermalLevel) (decide (95 ≤ t)) (decide (t < 90))
  let n := (s.reg slice 0 0x71).toNat % 2 ^ 32 + (if 0 < s.level slice then 1 else 0)
  let p := { s.plat with
    clockBase := sset slice (s.tick, s.clocks64 slice) s.plat.clockBase
    powerLevel := sput 0 slice pl s.plat.powerLevel
    thermalLevel := sput 0 slice tl s.plat.thermalLevel }
  (s.setPlat p).setReg slice 0 0x71 (BitVec.ofNat 64 (power * 2 ^ 48 + Nat.max pl tl * 2 ^ 45 + n % 2 ^ 32))

def State.throttlePart (s : State) (part : Nat) : State :=
  match s.part? part with
  | none => s
  | some p =>
    let w := (Config.power s.fresh).toNat
    let s1 := { s with fresh := s.fresh + 1 }
    let s2 := (bitSet16 p.smask).foldl (fun s sl => s.throttle sl w (p.inForce schedCap)) s1
    s2.setPart part { p with sched := sset schedCap (BitVec.ofNat 64 ((s2.reg (s2.firstSlice part) 0 0x70).toNat % 2 ^ 16)) p.sched }

/-! A period. -/

/-- R390: blocks that a reclaim has kept halted for maxhalt periods. -/
def State.overHalted (s : State) (part : Nat) (p : Partition) : List Nat :=
  let m := bitsOf (p.inForce schedRmcfg) 8 8
  (s.blocks.filter fun e => decide (e.2.regime.part = part) && decide (e.2.state = .halted) &&
    decide (m ≠ 0 ∧ e.2.haltedAt + 4096 * m ≤ s.tick)).map (·.1)

/-- R347: the resume turnstile of a saved troupe, by the address that its ring gives it now. -/
def State.resumeAt (s : State) (x : Saved) : Named :=
  match x.loc, x.ring with
  | some (_, some n), some ring => s.ringTo x.slice x.part ring needC n.va
  | some (l, n), _ => .to l n
  | none, _ => .bad causePermission 0

/-- R349: a resume turnstile that could not be used is read again each period. -/
def State.pollResumes (s : State) (part : Nat) : State :=
  s.pkg.saved.foldl (fun s e =>
    let x := e.2
    if decide (x.part = part) && x.delivered && !x.ready && !s.isListed (.resume e.1) then
      match s.resumeAt x with
      | .to l n => s.addWaiter (.resume e.1) l n ((x.ring.bind Ring.guest).getD 32) part x.threshold
      | .again line => s.noteRefusal line
      | .bad .. => s
    else s) s

def State.startPeriod (s : State) (part : Nat) : State :=
  match s.part? part with
  | none => s
  | some p =>
    let p1 := s.chargePeriod part { p with calendar := p.calNext.getD p.calendar, calNext := none }
    let s1 := (s.setPart part p1).throttlePart part
    let s2 := (s1.overHalted part p1).foldl (fun s b => s.postOnce (.wholeBlockSave b)) s1
    let s3 := s2.pollResumes part
    if s.tick / 4096 % p.round = 0 then s3.post (.roundStart part) else s3

def execCalendarPeriodStart (s : State) : Out :=
  .next <|
  let next := (nextMultiple 4096 s.tick, Ev.calendarPeriodStart)
  if s.tick % 4096 ≠ 0 ∨ s.timers.contains next then s
  else ((s.pkg.parts.map (·.1)).foldl State.startPeriod s).at next.1 next.2

/-! Snapshots (R395 to R397). -/

def snapDone : Nat := 0
def snapAborted : Nat := 1
def snapNoFrame : Nat := 2
def snapLost : Nat := 3

/-- The kernel's entry of a snapshot that ends; it goes to the ring of the partition's lowest slice. -/
def State.snapEntry (s : State) (part slice result lost c : Nat) : State :=
  (s.queueRing slice part .kFault [BitVec.ofNat 64 (0x17 + result * 256 + lost * 2 ^ 16), BitVec.ofNat 64 c, 0, 0, 0, 0, 0, 0]
    none none).2

/-- Blocks that a snapshot was halting go on, and saves for its sake end. -/
def State.unquiesce (s : State) (part : Nat) : State :=
  let mine := (s.blocks.filter fun e => decide (e.2.regime.part = part)).map (·.1)
  let keep := fun (e : Ev) => match e with
    | .wholeBlockSave b => !mine.contains b
    | _ => true
  let s1 := { s with todo := s.todo.filter keep, timers := s.timers.filter fun e => keep e.2 }
  let s2 := mine.foldl (fun s b => s.postOnce (.refill b)) s1
  (mine.foldl (fun s b => s.postOnce (.blockStart b)) s2).placeAgain part

def State.endSnapshot (s : State) (part result : Nat) : State :=
  match s.part? part with
  | none => s
  | some p =>
    let s1 := s.setPart part { p with snap := ⟨.idle, 0, [], 0⟩ }
    (s1.snapEntry part (s1.firstSlice part) result 0 p.snap.cut).unquiesce part

def snapQ (s : State) (part : Nat) : Bool := bitN (s.reg (s.firstSlice part) 0 0xC4).toNat 8

/-- Device-physical ranges that a band covers. -/
def Band.holds (b : Band) (d : Nat) : Bool := (bandInv b d).isSome

/-- R395: what START asks of the bands. -/
def State.snapOk (s : State) (part src dst : Nat) : Bool :=
  match s.bandAt part src, s.bandAt part dst with
  | some a, some b =>
    decide (src ≠ dst) && decide (a.size = b.size) && decide (a.smask &&& b.smask = 0) &&
    !(s.pkg.migs.any fun e =>
      decide (e.2.part = part) && decide (e.2.state ≠ .idle) && (a.holds e.2.src || a.holds e.2.dst))
  | _, _ => false

def execSnapshotStart (slice : Nat) (val : W64) (req : Nat) (s : State) : Out :=
  .next <|
  let v := val.toNat
  match s.partOf slice with
  | none => s.reply req replyRefused
  | some p => match s.part? p with
    | none => s.reply req replyRefused
    | some x =>
      if x.snap.state ≠ .idle then s.reply req replyBusy
      else if !s.snapOk p (bitsOf v 0 4) (bitsOf v 4 4) then s.reply req replyRefused
      else
        let s1 := (s.setPartReg p 0xC4 (BitVec.ofNat 64 (v % 2 ^ 9))).setPart p { x with snap := ⟨.arming, 0, [], 0⟩ }
        let bs := if bitN v 8 then (s1.blocks.filter fun e => decide (e.2.regime.part = p)).map (·.1) else []
        ((bs.foldl (fun s b => s.postOnce (.wholeBlockSave b)) s1).post (.snapshotCut p)).reply req replyOk

def execSnapshotAbort (slice req : Nat) (s : State) : Out :=
  .next <|
  match s.partOf slice with
  | none => s.reply req replyRefused
  | some p => match s.part? p with
    | none => s.reply req replyRefused
    | some x => if x.snap.state = .idle then s.reply req replyOk else (s.endSnapshot p snapAborted).reply req replyOk

/-- R396: every block that can run is saved, with its frames written. -/
def State.armed (s : State) (part : Nat) : Bool :=
  !snapQ s part || s.blocks.all fun e => decide (e.2.regime.part ≠ part) ||
    (match e.2.state with
     | .saved => e.2.ways.all s.opDone
     | .gathered => decide (e.2.haltedAt = 0)
     | .reserving | .arriving | .clearing => true
     | _ => false)

/-- A block that could be saved now has no frames. -/
def State.lacksFrames (s : State) (part : Nat) : Bool :=
  snapQ s part && s.blocks.any fun e => decide (e.2.regime.part = part) && decide (e.2.state = .halted) && s.savable e.1 &&
    (s.blockFrames e.1 e.2 (s.askOf e.2)).1.isNone

def Ev.isCut : Ev → Bool
  | .snapshotCut _ => true
  | _ => false

def execSnapshotCut (part : Nat) (s : State) : Out :=
  .next <|
  match s.part? part with
  | none => s
  | some p =>
    if p.snap.state ≠ .arming then s
    else if p.snap.cut = 0 then
      if s.lacksFrames part then s.endSnapshot part snapNoFrame
      else if s.armed part then
        let c := ceilDiv (s.tick + 64) 4096 * 4096
        (s.setPart part { p with snap := { p.snap with cut := c } }).at c (.snapshotCut part)
      else s.laterOnce (.snapshotCut part)
    else if s.tick < p.snap.cut then s
    -- R397: what is performed at tick C comes first
    else if s.todo.any (fun e => !e.isCut) then s.post (.snapshotCut part)
    else ((s.setPart part { p with snap := { p.snap with state := .copying } }).placeAgain part).later (.snapshotComplete part)

/-- The lines of memory that are not in the zero state. -/
def Homes.support (h : Homes) : KeySet :=
  toKeys (h.mem.map (fun c => c.1 / 64) ++ h.linePoison ++ skeys h.astag ++ h.tsPoison.map (· / 64))

/-- Offsets in a band of the lines of a set. -/
def bandOffsets (b : Band) (ls : List Nat) : List Nat := ls.filterMap fun l => bandInv b (64 * l)

def bandLine (b : Band) (o : Nat) : Option Nat := (bandMap [b] (b.pbase * 2 ^ 30 + o)).map (· / 64)

/-- R396: the engine copies a line that is still marked. -/
def State.snapLine (s : State) (part : Nat) (a b : Band) (o : Nat) : State :=
  match bandLine a o, bandLine b o, s.part? part with
  | some from_, some dest, some p =>
    if kmem from_ p.snap.copied then s
    else
      let t := s.writeTick dest
      (s.setHomes (s.homes.copyLine from_ dest)).setPart part
        { p with snap := { p.snap with copied := kadd from_ p.snap.copied, gwct := Nat.max p.snap.gwct t } }
  | _, _, _ => s

def execSnapshotComplete (part : Nat) (s : State) : Out :=
  .next <|
  match s.part? part with
  | none => s
  | some p =>
    if p.snap.state ≠ .copying then s
    else
      let (src, dst) := s.snapBands part
      let s1 := match s.bandAt part src, s.bandAt part dst with
        | some a, some b =>
          let ls := s.homes.support
          (toKeys (bandOffsets a ls ++ bandOffsets b ls)).foldl (fun (s : State) o => s.snapLine part a b o) s
        | _, _ => s
      let g := match s1.part? part with
        | some q => q.snap.gwct
        | none => 0
      let s2 := (s1.setPartReg part 0xC9 (BitVec.ofNat 64 p.snap.cut)).endSnapshot part snapDone
      match s2.ppaMem part (s2.reg (s2.firstSlice part) 0 0xC5).toNat with
      | some d => s2.addAfter (s2.firstSlice part) part 32 (.home d) none 1 g []
      | none => s2

/-! What ends with a turnstile's home, or with its VF (R239, R301, R357, R398). -/

/-- A wait ends with RESET. -/
def State.resetTroupeWait (s : State) (k : TKey) : State :=
  match s.troupe? k with
  | some t => match t.susp with
    | .wait w => s.endWait k t w statReset 0xFF false
    | _ => s
  | none => s

def State.resetWaiter (s : State) (id : Nat) (w : Waiter) : State :=
  match w.who with
  | .troupe k _ => s.resetTroupeWait (keyOf k)
  | .port h p _ => if ((s.hart h).port p).wait.isSome then s.endPort h p statReset 0xFF else s
  | _ => (s.setWaiter id { w with listed := none, polled := false, reports := w.reports ++ [(s.tick, 0, true)] }).post
      (.wakeReceive id)

/-- Every wait on some turnstiles ends. -/
def State.resetWaits (s : State) (hit : TsLoc → Bool) : State :=
  (s.flight.waiters.filter fun e => hit e.2.loc).foldl (fun s e =>
    if (s.waiter? e.1).isSome then s.resetWaiter e.1 e.2 else s) s

/-! Losing a slice or a core (R398, R414). -/

/-- A block is discarded, and its ticket completes with a code once its other blocks end. -/
def State.loseBlock (s : State) (bid : Nat) (code : BitVec 8) : State :=
  match s.block? bid with
  | none => s
  | some b =>
    let s1 := s.discardBlock bid
    match s1.ticket? b.ticket with
    | none => s1
    | some t =>
      let s2 := (s1.setTicket b.ticket { t with status := code }).blockDone b.ticket b.gwct
      if t.resident then (s2.blocksOf b.ticket).foldl (fun s e => (s.discardBlock e.1).blockDone b.ticket e.2.gwct) s2 else s2

/-- Whether a frame has a line in a slice. -/
def State.frameIn (s : State) (slice : Nat) (rg : Regime) (va : Nat) : Bool :=
  (List.range 16).any fun j => match s.xlateOf (s.firstSlice rg.part) rg (va + 4096 * j) needNone with
    | .ok (.mem d _) => decide (dpaSlice d = slice)
    | _ => false

/-- A troupe whose frame is lost. -/
def State.loseSaved (s : State) (sid : Nat) (x : Saved) : State :=
  match s.block? x.block with
  | none => s
  | some b =>
    if x.kind = .whole ∨ s.isResident b = true then s.loseBlock x.block tkLost
    else
      let s1 := ((s.discardWork (parkNum sid x.key)).dropSaved sid).modTicket b.ticket fun t => { t with status := tkLost }
      if (s1.troupesOf x.block).isEmpty && (s1.savedOf x.block).isEmpty then s1.post (.blockEnd x.block) else s1

def State.loseFrames (s : State) (slice : Nat) : State :=
  s.pkg.saved.foldl (fun s e =>
    match s.block? e.2.block with
    | some b => if e.2.kind.off && s.frameIn slice b.regime e.2.frame then s.loseSaved e.1 e.2 else s
    | none => s) s

/-- R398: a halted block with contents in a frame there could never be refilled. -/
def State.loseSpilled (s : State) (slice : Nat) : State :=
  s.blocks.foldl (fun s e =>
    let va := fun i => s.poolOf e.2 + 65536 * i
    if !e.2.spill.isEmpty && e.2.frames.any fun i => s.frameIn slice e.2.regime (va i) then s.loseBlock e.1 tkLost else s) s

/-- R181: blocks of a core that had ended already. -/
def State.endsOf (s : State) (slice : Nat) : State :=
  (s.cores.filter fun e => decide (coreSlice e.1 = slice)).foldl (fun s e =>
    e.2.ended.foldl (fun s x => s.blockDone x.ticket x.gwct) (s.setCore e.1 { s.core e.1 with ended := [] })) s

/-- Anchors of lines of a slice go, with their use. -/
def State.dropAnchors (s : State) (hit : Nat → Bool) : State :=
  let hits := (skeys s.homes.anchors).filter hit
  hits.foldl (fun s l => (List.range 32).foldl (fun s v => s.unanchor l v) s) s

/-- A snapshot whose bands name a slice ends LOST; the entry goes to every slice by R398. -/
def State.snapUses (s : State) (part slice : Nat) : Bool :=
  let (a, b) := s.snapBands part
  [s.bandAt part a, s.bandAt part b].any fun x => match x with
    | some y => y.smask.getLsbD slice
    | none => false

def State.queueHomedIn (s : State) (part q slice : Nat) : Bool :=
  match s.entryAt part q 0 with
  | some d => decide (dpaSlice d = slice)
  | none => false

/-- R398, at one tick. -/
def State.loseSlice (s : State) (slice : Nat) : State :=
  let s0 := s.setPlat { s.plat with lost := s.plat.lost ||| bitM 16 slice }
  match s0.partOf slice with
  | none => s0
  | some part => match s0.part? part with
    | none => s0
    | some p =>
      let s1 := (s0.blocks.filter fun e => decide (coreSlice e.2.core = slice)).foldl (fun s e => s.loseBlock e.1 tkLost) s0
      let s2 := ((s1.endsOf slice).loseFrames slice).loseSpilled slice
      let uses := decide (p.snap.state ≠ .idle) && s2.snapUses part slice
      let qs := (s2.pkg.queues.filter fun e => decide (e.1 / 4096 = part) && s2.queueHomedIn part (e.1 % 4096) slice).map
        fun e => e.1 % 4096
      let s3 := s2.modPart part fun p =>
        { p with
          smask := p.smask &&& ~~~(bitM 16 slice)
          dead := p.dead ||| bitM 16 slice
          snap := if uses then ⟨.idle, 0, [], 0⟩ else p.snap }
      let s4 := s3.resetWaits fun l => match l with
        | .home d => decide (dpaSlice d = slice)
        | _ => false
      let off := fun (s : State) (q : Nat) => match s.queue? part q with
        | some x => (s.unlist (.producer part q)).setQueue part q { x with state := .off }
        | none => s
      let s5 := (qs.foldl off s4).dropAnchors fun l => decide (lineSlice l = slice)
      let s6 := { s5 with harts := s5.harts.map fun (e : Nat × Hart) =>
        if e.1 / 8 = slice then (e.1, { e.2 with started := false }) else e }
      let s7 := if uses then s6.unquiesce part else s6
      (bitSet16 (s7.smask part)).foldl (fun s sl => s.snapEntry part sl snapLost slice s.tick) s7

end Sys2Proof.Machine
end

