-- ==== Sys2Proof/Machine/Messages.lean ====
section
/-! DEFINITION. Messages: msend and mroute, their sequences, delivery into rings, and what the sender learns (R437 to R441,
R453). -/

namespace Sys2Proof.Machine

/-! Routes of a message (R423, R439, R441). -/

/-- The word in which a check of a route is reported. -/
def RouteCheck.word : RouteCheck → W64
  | .leaf i => BitVec.ofNat 64 (i * 2 ^ 14)
  | .off => BitVec.ofNat 64 (2 ^ 21)
  | .bad w h => BitVec.ofNat 64 (w * 2 ^ 12 + h * 2 ^ 8 + 1)

/-- R423: the route of a message, whose last leaf in this module must be an NI of the partition. -/
def State.msgRoute (s : State) (c : Ctx) (ws : List W64) (eth : Bool) : RouteCheck :=
  match checkRoute (fun x => linkOk (s.niHealth c.blk.regime.part x)) ws (coreLeaf c.key.core) eth with
  | .leaf i => if (s.smask c.blk.regime.part).getLsbD (i / 8) && decide (i % 8 = 7) then .leaf i
      else .bad (ws.length - 1) (hopCount (ws.getLastD 0) - 1)
  | r => r

def Ctx.routeOf (c : Ctx) (sa : SReg) (nw : Nat) : List W64 := (sRun sa nw).map c.t.s
def Ctx.routeBad (c : Ctx) (sa : SReg) (nw : Nat) : Bool := (sRun sa nw).any c.t.sBad

/-- R72, R73, R441: NI counts the instruction and sD is pending until the network interface answers. -/
def State.askNi (s : State) (c : Ctx) (d : SReg) (poison : Bool) (v : W64) : State :=
  (s.sendReq c.key.num d poison (.niAnswer v) 1).2.advance c ((c.t.pendS d).count fun n => { n with ni := n.ni + 1 })

def execMroute (nw : Fin 4) (d sa : SReg) (s : State) : Out :=
  onTroupe s fun c =>
    s.whenReady c (.mroute nw d sa) c.mask
      (if fullCounter c.t.cnt.ni then s.stall c
       else s.askNi c d (c.routeBad sa (nw.val + 1)) (s.msgRoute c (c.routeOf sa (nw.val + 1)) false).word)

/-! Sequences (R453). -/

def Sequence.is (q : Sequence) (core module dstSlice ring : Nat) : Bool :=
  decide (q.core = core) && decide (q.module = module) && decide (q.dstSlice = dstSlice) && decide (q.ring = ring)

/-- The sequence of a sender core, destination and ring, made where there is none yet. -/
def State.seqOf (s : State) (core module dstSlice ring : Nat) : Nat × Sequence × State :=
  match (s.fab.seqs.zipIdx).find? fun e => e.1.is core module dstSlice ring with
  | some (q, i) => (i, q, s)
  | none =>
    let q : Sequence := ⟨core, module, dstSlice, ring, 0, 0, 0, []⟩
    (s.fab.seqs.length, q, s.setFab { s.fab with seqs := s.fab.seqs ++ [q] })

def State.putSeq (s : State) (i : Nat) (q : Sequence) : State := s.setFab { s.fab with seqs := replaceAt i q s.fab.seqs }

def State.msg? (s : State) (id : Nat) : Option Message := sfind id s.fab.messages
def State.setMsg (s : State) (id : Nat) (m : Message) : State := s.setFab { s.fab with messages := sset id m s.fab.messages }
def State.delMsg (s : State) (id : Nat) : State := s.setFab { s.fab with messages := sdel id s.fab.messages }

def Message.flowVf (m : Message) : Nat := if m.kernel then 32 else m.vf

/-- A message enters the network at its core's leaf. -/
def State.injectMsg (s : State) (id : Nat) (m : Message) : State :=
  let leaf := coreLeaf m.core
  let p : Packet := ⟨if m.gtd then .gtd else .msg, .msg, m.route, 0, 0, m.route.map fun _ => (0 : W64), .leaf leaf, 0, .msg id,
    leaf, 8 * m.dstSlice + 7, m.part, m.flowVf, 0, 0, false, false⟩
  let (k, s1) := s.newPacket p
  (s1.countPacket m.part m.flowVf).later (.switchForward k)

/-- A message takes its number and leaves, unless 16 of its sequence are unanswered. -/
def State.sendMsg (s : State) (id : Nat) : State :=
  match s.msg? id with
  | none => s
  | some m =>
    let (i, q, s1) := s.seqOf m.core m.module m.dstSlice m.ring
    if 16 ≤ q.unanswered then s1
    else
      let m1 := { m with seq := q.nextNo, sent := true }
      ((s1.putSeq i { q with nextNo := (q.nextNo + 1) % 2 ^ 16, unanswered := q.unanswered + 1 }).setMsg id m1).injectMsg id m1

/-! msend (R438 to R440). -/

def msOk : Nat := 0
def msFull : Nat := 2
def msReturned : Nat := 3
def msRefused : Nat := 4
def msTimeout : Nat := 5
def msReset : Nat := 6
def msNoslot : Nat := 7

/-- The slice of the NI at which the first word of a route leaves the module. -/
def exitNi (ws : List W64) (start : Nat) : Nat :=
  let w := ws.headD 0
  match pathHops (fun _ => true) w 0 1 (hopCount w) false (hopCount w - 1) 0 [.leaf start] with
  | .leaf i => i / 8
  | _ => 0

/-- Where a route of several words leads, as far as this module can know: the module of the peer that its first exit
reaches, and the slice its last word ends at there. A third module's number is not known here. -/
def State.farEnd (s : State) (ws : List W64) (start : Nat) : Nat × Nat :=
  let w := ws.headD 0
  let peer := (sget 0 (4 * exitNi ws start + selector w (hopCount w - 1)) s.fab.peers).toNat
  let m := bitsOf peer 53 10
  if ws.length = 2 then
    match routePath (fun _ => true) (ws.getD 1 0) 0 1 false (8 * bitsOf peer 49 4 + 7) with
    | .leaf i => (m, i / 8)
    | _ => (m, 0)
  else (1024 + m, 16)

/-- R450: an entry of the Ethernet peer table: the peer's module and slice. -/
def State.ethPeer (s : State) (part idx : Nat) : Option (Nat × Nat) :=
  match s.ppaMem part ((s.reg (s.firstSlice part) 0 0xD1).toNat + 32 * idx) with
  | none => none
  | some d =>
    if s.homes.badRead (lineOf d) 0 then none
    else let w := memVal s.homes.mem (d + 24) 8; some (bitsOf w 0 10, bitsOf w 10 4)

/-- Whether some slot of the calendar belongs to a sender. -/
def State.ownsSlot (s : State) (part vf : Nat) (kernel : Bool) : Bool :=
  match s.part? part with
  | some p => (List.range 1024).any fun i => decide (ownerOf (sget 0 i p.calendar) = if kernel then .kernel else .vf vf)
  | none => false

/-- The destination module and slice of a message. -/
def State.msgEnd (s : State) (part : Nat) (ws : List W64) (start : Nat) (eth : Option Nat) (r : RouteCheck) :
    Option (Nat × Nat) :=
  match eth, r with
  | some i, _ => s.ethPeer part i
  | none, .leaf i => some (s.plat.module, i / 8)
  | none, _ => some (s.farEnd ws start)

/-- What an msend sends. -/
structure SendReq where
  nw : Nat
  gtd : Bool
  t : Bool
  eth : Bool
  d : SReg
  sa : SReg
  sb : SReg
  bytes : List Byte
  bad : KeySet

/-- R450: an ordinary frame leaves the Ethernet port of the NI its route ends at, where the port is enabled. -/
def State.sendFrame (s : State) (slice : Nat) (bytes : List Byte) : Nat × State :=
  if (s.reg slice 0 0xD0).getLsbD 0 then (msOk, s.setFab { s.fab with outbox := s.fab.outbox ++ [.frame slice bytes] })
  else (msTimeout, s)

/-- R439, from the check of the route on. The payload is copied at issue, and NI falls after it. -/
def State.msend (s : State) (c : Ctx) (r : SendReq) : State :=
  let rg := c.blk.regime
  let ws := c.routeOf r.sa r.nw
  let bad := c.routeBad r.sa r.nw || c.t.sBad r.sb
  let done := fun (s : State) (v : Nat) => s.askNi c r.d bad (BitVec.ofNat 64 v)
  if fullCounter c.t.cnt.ni then s.stall c
  else match s.msgRoute c ws r.eth with
  | .bad w h =>
    let s1 := s.countRoute c.slice
    let v := (RouteCheck.bad w h).word
    if r.t then s1.raise c causeRoute v 0 c.mask else s1.askNi c r.d bad v
  | ok =>
    let ring := (c.t.s r.sb).toNat % 4096
    let kernel := decide (rg.priv = .h)
    let eth := if r.eth then some (bitsOf (c.t.s r.sb).toNat 20 8) else none
    if r.gtd && !s.ownsSlot rg.part rg.vf kernel then done s msNoslot
    else if r.eth && kernel && decide (ring = 0xFFF) then
      let (st, s1) := s.sendFrame (exitNi ws (coreLeaf c.key.core)) r.bytes
      done s1 st
    else match s.msgEnd rg.part ws (coreLeaf c.key.core) eth ok with
      | none => done s msRefused
      | some (m, sl) =>
        let (id, s1) := s.newId
        let x : Message := ⟨c.key.num, r.d, bad, m, c.key.core, rg.vf, kernel, rg.part, ring, sl, ws, 0, r.bytes, r.bad, none,
          r.gtd, eth, false⟩
        (((s1.setMsg id x).sendReq c.key.num 0 false .niEnd 1).2.advance c
          ((c.t.pendS r.d).count fun n => { n with ni := n.ni + 1 })).sendMsg id

/-- The payload in the lanes of a v register (R76, R439). -/
def Troupe.payload (t : Troupe) (vreg len : Nat) : List Byte :=
  (List.range (len / 4)).flatMap fun l => leBytes 4 (t.laneV l vreg).toNat

/-- The lanes whose payload register is poisoned. -/
def Troupe.payloadBad (t : Troupe) (vreg len : Nat) : LaneMask :=
  maskOf ((List.range (len / 4)).filter fun l => !t.exited.getLsbD l && laneBit t.lane.poison vreg l)

def execMsend (nw : Fin 4) (gtd t eth : Bool) (vreg : Fin 192) (len : BitVec 13) (d sa sb : SReg) (s : State) : Out :=
  onTroupe s fun c =>
    s.whenReady c (.msend nw gtd t eth vreg len d sa sb) c.mask
      (if c.t.payloadBad vreg.val len.toNat ≠ 0 then s.raise c causePoison 0 0 (c.t.payloadBad vreg.val len.toNat)
       else s.msend c ⟨nw.val + 1, gtd, t, eth, d, sa, sb, c.t.payload vreg.val len.toNat, []⟩)

def execMsendSp (nw : Fin 4) (gtd t eth : Bool) (len : BitVec 13) (d sa sb sc : SReg) (s : State) : Out :=
  onTroupe s fun c =>
    s.whenReady c (.msendSp nw gtd t eth len d sa sb sc) c.mask
      (let o := (c.t.s sc).toNat % 2 ^ 20
       let n := len.toNat
       if o % 8 ≠ 0 then s.raise c causeAlign 0 (BitVec.ofNat 64 o) c.mask
       else if c.blk.d < o + n then s.raise c causeBounds 0 0 c.mask
       else
        let as := spBytes c.blk.g0 6 o n
        let co := s.core c.key.core
        if s.scratchHeld c false as then s.stall c
        else
          s.msend c ⟨nw.val + 1, gtd, t, eth, d, sa, sb, as.map co.byte,
            (List.range n).filter fun i => kmem (as.getD i 0 / 8) co.uaPoison⟩)

/-! What the sender learns (R440). -/

/-- A message is answered: one of this module tells its troupe, one of another module's goes back over its flow. -/
def State.answerMsg (s : State) (id status : Nat) : State :=
  match s.msg? id with
  | none => s
  | some m =>
    if 2048 ≤ m.module then (s.peerReply id [BitVec.ofNat 8 status] false).delMsg id
    else
      let s1 := s.setMsg id { m with status := some (BitVec.ofNat 64 status) }
      s1.at (s1.tick + latency m.dstSlice (coreSlice m.core)) (.messageStatusReply id)

/-- The next message that waits for room in a sequence. -/
def State.nextUnsent (s : State) (q : Sequence) : Option Nat :=
  (s.fab.messages.find? fun e => !e.2.sent && q.is e.2.core e.2.module e.2.dstSlice e.2.ring).map (·.1)

def execMessageStatusReply (msg : Nat) (s : State) : Out :=
  .next <|
  match s.msg? msg with
  | none => s
  | some m => match m.status with
    | none => s
    | some v =>
      let s1 := (s.modTroupe (keyOf m.troupe) fun t => t.putS m.d v m.poison).delMsg msg
      let (i, q, s2) := s1.seqOf m.core m.module m.dstSlice m.ring
      let s3 := s2.putSeq i { q with unanswered := q.unanswered - 1 }
      match s3.nextUnsent q with
      | some n => s3.sendMsg n
      | none => s3

/-! Delivery (R437). -/

/-- The descriptor of a ring; none where its line reads poisoned or lies in no band. -/
def State.ringDesc (s : State) (part ring : Nat) : Option (List W64) :=
  match s.ppaMem part ((s.reg (s.firstSlice part) 0 0xCD).toNat + 64 * ring) with
  | none => none
  | some d => if s.homes.badRead (lineOf d) 0 then none else some (words64 8 (memBytes s.homes.mem d 64))

/-- The RESIDENT block of a VF on a core with the lowest troupe slot, that holds its units. -/
def State.msgTarget (s : State) (part vf core : Nat) : Option (Nat × Block) :=
  leastBy (fun e => (minNat e.2.slots).getD 32) (s.blocks.filter fun e =>
    decide (e.2.core = core) && decide (e.2.regime.part = part) && decide (e.2.regime.vf = vf) &&
    (match e.2.state with
     | .gathered | .running | .halted | .refilling => true
     | _ => false) &&
    (match s.ticket? e.2.ticket with
     | some t => t.resident
     | none => false))

/-- Where a message goes. -/
inductive RingAt where
  | global (ppa : Nat)
  | scratch (block : Nat) (b : Block) (off : Nat)

/-- What delivering a message comes to. -/
inductive Delivery where
  | answer (status : Nat)
  /-- An earlier tail add of the ring is still on its way, a granule of the target is spilled, or a home refuses these
  lines with RETRY. -/
  | again (lines : List Nat)
  | write (at_ : RingAt) (owner tail : Nat)

/-- The name of a turnstile that is reached by its partition-physical address, under an ASTAG. -/
def ppaName (part tag : Nat) : Option TsName := some ⟨kernelRegime part, 2 ^ 57, tag⟩

def State.refusedLines (s : State) (ls : List Nat) : List Nat := ls.filter s.refusesLine

def Message.smod (s : State) (m : Message) : Nat := if 2048 ≤ m.module then m.module - 2048 else s.plat.module

/-- The checks of R437, in order. -/
def State.deliver (s : State) (part : Nat) (m : Message) : Delivery :=
  let refused := match s.ppaMem part ((s.reg (s.firstSlice part) 0 0xCD).toNat + 64 * m.ring) with
    | some d => s.refusedLines [lineOf d]
    | none => []
  if refused ≠ [] then .again refused
  else match s.ringDesc part m.ring with
  | none => .answer msRefused
  | some ws =>
    let f := fun (d lo len : Nat) => bitsOf (dword ws d) lo len
    let lslot := f 0 58 4
    let lcount := f 0 52 6
    let slot := 2 ^ (lslot + 6)
    let size := 2 ^ (lcount + lslot + 6)
    let owner := f 3 36 5
    let base := f 0 0 52
    if f 3 63 1 = 0 ∨ 1 < f 0 62 2 ∨ m.smod s ≠ f 3 53 10 ∨ m.core ≠ f 3 46 7 ∨ m.vf ≠ f 3 41 5 ∨
        slot < m.bytes.length + 8 then .answer msRefused
    else
      match s.ppaMem part (f 1 0 52), s.ppaMem part (f 2 0 52) with
      | some td, some hd =>
        let target := if f 0 62 2 = 0 then none else s.msgTarget part owner (f 3 29 7)
        let bad := if f 0 62 2 = 0 then (s.ppaMem part base).isNone || (s.ppaMem part (base + size - 1)).isNone
          else match target with
            | none => true
            | some e => decide (e.2.d < base + size)
        if bad then .answer msRefused
        else if (s.vfcfg part owner).toNat % 8 / 2 = 2 then .answer msReset
        else if !(s.engineAdds (.home td)).isEmpty || s.refusedLines [lineOf td, lineOf hd] ≠ [] then
          .again (s.refusedLines [lineOf td, lineOf hd])
        else if s.tsBad (.home td) (s.vfAstag part owner) || s.tsBad (.home hd) (s.vfAstag part owner) then .answer msRefused
        else
          let t := s.tsVal (.home td)
          if (2 ^ lcount : Nat) ≤ (t - s.tsVal (.home hd)).toInt then .answer msFull
          else
            let off := base + t.toNat % 2 ^ lcount * slot
            match target with
            | none => .write (.global off) owner td
            | some e =>
              if (rangeOf off (m.bytes.length + 8)).any (fun o => e.2.spill.contains (.granule (spAddr e.2.g0 6 o / 4096))) then
                .again []
              else .write (.scratch e.1 e.2 off) owner td
      | _, _ => .answer msRefused

/-- The bytes a message leaves in its slot, with their poison: the header and the payload. -/
def Message.image (s : State) (m : Message) : List (Byte × Bool) :=
  let h := m.bytes.length + m.smod s * 2 ^ 16 + m.core * 2 ^ 26 + m.vf * 2 ^ 33
  (leBytes 8 h).map (fun b => (b, false)) ++ (m.bytes.zipIdx).map fun e => (e.1, kmem e.2 m.bytePoison)

/-- R437: the slot is written, and the tail advances after it. -/
def State.writeMsg (s : State) (slice part : Nat) (m : Message) (at_ : RingAt) (owner tail : Nat) : State :=
  let img := m.image s
  match at_ with
  | .global a =>
    let accs := (img.zipIdx).filterMap fun e => (s.ppaMem part (a + e.2)).map fun d =>
      TaggedAcc.mk 0 (s.vfAstag part owner) ⟨e.2, d, e.1.1.toNat, 0, e.1.2⟩
    let o : MemOp := ⟨.engine slice, .store, .b8, none, coreAt slice 1, 0, ⟨part, owner, .h, 0⟩, 6, 1, 3, none,
      (partsOf accs).map fun p => { p with va := none }, false⟩
    let x := s.engineSend o
    x.2.addAfter slice part owner (.home tail) (ppaName part (s.vfAstag part owner)) 1 0 [x.1]
  | .scratch _ b off =>
    let xs := (img.zipIdx).map fun e => ([spAddr b.g0 6 (off + e.2)], LaneAcc.mk e.2 0 e.1.1.toNat 0 e.1.2)
    let s1 := s.setCore b.core ((s.core b.core).accesses .store 1 xs).2
    s1.addAfter slice part owner (.home tail) (ppaName part (s.vfAstag part owner)) 1 s1.tick []

/-- A message in its turn is delivered; true where it has to be tried again. -/
def State.deliverMsg (s : State) (id slice : Nat) (m : Message) : Bool × State :=
  match s.partOf slice with
  | none => (false, s.answerMsg id msRefused)
  | some part => match s.deliver part m with
    | .answer st => (false, s.answerMsg id st)
    | .again lines => (true, lines.foldl State.noteRefusal s)
    | .write a owner tail => (false, (s.writeMsg slice part m a owner tail).answerMsg id msOk)

def State.delPacket (s : State) (id : Nat) : State := s.setFab { s.fab with packets := sdel id s.fab.packets }

/-- How far a number lies ahead of the one expected; from 2^15 on it lies behind. -/
def ahead (expected n : Nat) : Nat := (n + 2 ^ 16 - expected) % 2 ^ 16

/-- R453: messages are taken in number order; an early one waits, and a skipped one is returned. -/
def execMessageDelivery (packet : Nat) (s : State) : Out :=
  .next <|
  match sfind packet s.fab.packets with
  | none => s
  | some p => match p.load with
    | .msg id => match s.msg? id with
      | none => s.delPacket packet
      | some m =>
        if p.returning || decide (p.place ≠ .leaf p.dstLeaf) then s
        else
          let slice := p.dstLeaf / 8
          let (i, q, s1) := s.seqOf m.core m.module m.dstSlice m.ring
          let k := ahead q.expected m.seq
          if 2 ^ 15 ≤ k then (s1.delPacket packet).answerMsg id msReturned
          else if k ≠ 0 then
            if q.waiting.any fun w => decide (w.2.2 = packet) then s1
            else (s1.putSeq i { q with waiting := q.waiting ++ [(m.seq, s.tick, packet)] }).at (s.tick + 4096) (.sequenceSkip i)
          else
            let (again, s2) := s1.deliverMsg id slice m
            if again then s2.later (.messageDelivery packet)
            else
              let next := (q.expected + 1) % 2 ^ 16
              let s3 := (s2.delPacket packet).putSeq i
                { q with expected := next, waiting := q.waiting.filter fun w => decide (w.1 ≠ next ∧ w.2.2 ≠ packet) }
              match q.waiting.find? fun w => decide (w.1 = next) with
              | some w => s3.post (.messageDelivery w.2.2)
              | none => s3
    | _ => s

/-- The message of a number has arrived, and waits for its ring. -/
def State.arrived (s : State) (q : Sequence) (n : Nat) : Bool :=
  s.fab.packets.any fun e => match e.2.load with
    | .msg id => match s.msg? id with
      | some m => q.is m.core m.module m.dstSlice m.ring && decide (m.seq = n) && decide (e.2.place = .leaf e.2.dstLeaf)
      | none => false
    | _ => false

/-- R453: the numbers missing below a message that has waited 4,096 ticks are skipped. -/
def execSequenceSkip (seq : Nat) (s : State) : Out :=
  .next <|
  match s.fab.seqs[seq]? with
  | none => s
  | some q =>
    let due := q.waiting.any fun w => decide (w.2.1 + 4096 ≤ s.tick)
    if due && s.arrived q q.expected then s.later (.sequenceSkip seq)
    else match (if due then leastBy (fun w => ahead q.expected w.1) q.waiting else none) with
    | none => s
    | some w =>
      let s1 := (s.putSeq seq { q with expected := w.1, waiting := q.waiting.filter fun x => decide (x ≠ w) }).post
        (.messageDelivery w.2.2)
      if q.waiting.any fun x => decide (x ≠ w) && decide (x.2.1 + 4096 ≤ s.tick) then s1.later (.sequenceSkip seq) else s1

end Sys2Proof.Machine
end

