-- ==== Sys2Proof/Machine/Peers.lean ====
section
/-! DEFINITION. Other modules: requests that arrive from them, flows and their acknowledgements (R323, R436, R444 to R447,
R450). -/

namespace Sys2Proof.Machine

/-! Requests that arrive (R444, R445). -/

def State.out (s : State) (x : Outgoing) : State := s.setFab { s.fab with outbox := s.fab.outbox ++ [x] }

/-- R445: what the receive side of a flow makes of a number. -/
inductive Receipt where
  | perform (r : RxFlow)
  | duplicate
  | drop
  deriving DecidableEq, Repr

/-- The window moves past the numbers it holds; fuel bounds the moves. -/
def RxFlow.slide : Nat → RxFlow → RxFlow
  | 0, r => r
  | n + 1, r =>
    if kmem r.expected r.window then
      RxFlow.slide n { r with expected := (r.expected + 1) % 2 ^ 32, window := kdel r.expected r.window }
    else r

/-- R446: whether an 8-bit epoch is older than another. -/
def olderEpoch (a b : Nat) : Bool := decide (0 < (b + 256 - a) % 256 ∧ (b + 256 - a) % 256 < 128)

def RxFlow.receive (r : RxFlow) (epoch seq : Nat) : Receipt :=
  if olderEpoch epoch r.epoch then .drop
  else
    let r1 := if epoch = r.epoch then r else { r with epoch := epoch, expected := 0, window := [] }
    let k := (seq + 2 ^ 32 - r1.expected) % 2 ^ 32
    if 2 ^ 31 ≤ k ∨ kmem seq r1.window = true then .duplicate
    else if 1024 ≤ k then .drop
    else .perform (RxFlow.slide 1025 { r1 with window := kadd seq r1.window })

def RxFlow.is (r : RxFlow) (m : PeerMsg) : Bool :=
  decide (r.slice = m.slice) && decide (r.smod = m.smod) && decide (r.flow = m.flow)

def State.rxOf (s : State) (m : PeerMsg) : RxFlow :=
  (s.fab.rxFlows.find? fun r => r.is m).getD ⟨m.slice, m.smod, m.flow, m.epoch, 0, []⟩

def State.putRx (s : State) (m : PeerMsg) (r : RxFlow) : State :=
  s.setFab { s.fab with rxFlows := (s.fab.rxFlows.filter fun x => !x.is m) ++ [r] }

/-- R445: a duplicate is acknowledged again as it was, and not performed. -/
def State.reAck (s : State) (m : PeerMsg) : State :=
  match s.fab.outbox.find? fun x => match x with
    | .reply m' _ _ => decide (m' = m)
    | _ => false with
  | some x => s.out x
  | none => s

/-! Exports (R444). -/

structure Export where
  r : Bool
  w : Bool
  c : Bool
  off : Nat
  lbase : Nat

/-- Entry i where it is valid and admits the source and the offset. -/
def Partition.exportAt (p : Partition) (smod spart o i : Nat) : Option Export :=
  let hi := (sget 0 (2 * i + 1) p.exports).toNat
  let lo := (sget 0 (2 * i) p.exports).toNat
  if bitN hi 63 && (bitN hi 59 || (decide (bitsOf hi 49 10 = smod) && decide (bitsOf hi 45 4 = spart))) &&
      decide (bitsOf hi 20 20 ≤ o / 65536 ∧ o / 65536 < bitsOf hi 20 20 + bitsOf hi 0 20) then
    some ⟨bitN hi 62, bitN hi 61, bitN hi 60, bitsOf hi 20 20, bitsOf lo 16 31⟩
  else none

def Partition.export? (p : Partition) (smod spart o : Nat) : Option Export :=
  (List.range 64).findSome? fun i => p.exportAt smod spart o i

end Sys2Proof.Machine

namespace Sys2Proof

/-- The right a request needs, and the first offset it reaches. -/
def PeerAsk.right : PeerAsk → Machine.Export → Bool
  | .read .., e => e.r
  | .write .., e | .atom .., e | .cas .., e | .reduce .., e => e.w
  | .msg .., _ => true
  | _, e => e.c

def PeerAsk.accs : PeerAsk → List PeerAcc
  | .read _ xs | .write _ xs | .atom _ _ xs | .cas _ xs | .reduce _ _ xs => xs
  | _ => []

def PeerAsk.at_ (a : PeerAsk) : Nat :=
  match a with
  | .add o _ | .fetch o _ | .tmax o _ | .tread o => o
  | _ => match a.accs with
    | x :: _ => x.off
    | [] => 0

/-- The kind and width of an access. -/
def PeerAsk.kind : PeerAsk → Option (Machine.MemKind × Width)
  | .read w _ => some (.load false, w)
  | .write w _ => some (.store, w)
  | .atom op w _ => some (.atomic op, w)
  | .cas w _ => some (.cas, w)
  | .reduce f w _ => some (.reduce f, w)
  | _ => none

/-- The kind and operand of a turnstile operation. -/
def PeerAsk.ts : PeerAsk → Option (Machine.TsKind × W64)
  | .add _ v => some (.add, v)
  | .fetch _ v => some (.fetch, v)
  | .tmax _ v => some (.max, v)
  | .tread _ => some (.read, 0)
  | _ => none

/-- How many bytes of data a reply brings. -/
def PeerAsk.replyBytes : PeerAsk → Nat
  | .read w xs | .atom _ w xs | .cas w xs => xs.length * Machine.widthBytes w
  | .fetch .. | .tread _ => 8
  | _ => 0

end Sys2Proof

namespace Sys2Proof.Machine

/-- R328: a refused read receives poison, and a refused write or add is dropped. -/
def State.refusePeer (s : State) (m : PeerMsg) : State :=
  s.countRefusal.out (.reply m (List.replicate m.ask.replyBytes 0) (decide (m.ask.replyBytes ≠ 0)))

/-- The local address of an exported offset. -/
def State.exportTo (s : State) (part : Nat) (e : Export) (o : Nat) : Option Nat :=
  s.ppaMem part (e.lbase * 65536 + (o - e.off * 65536))

/-- R437, R453: a message of another module waits at the NI for its turn. -/
def State.peerMessage (s : State) (m : PeerMsg) (part score svf ring seqno : Nat) (bytes : List Byte) (bad : KeySet) : State :=
  let (id, s1) := s.newId
  let x : Message := ⟨noTroupe, 0, false, 2048 + m.smod, score, svf, false, part, ring, m.slice, [], seqno, bytes, bad, none,
    false, none, true⟩
  let leaf := 8 * m.slice + 7
  let p : Packet := ⟨.msg, .msg, [], 0, 0, [], .leaf leaf, 0, .msg id, leaf, leaf, part, 32, 0, 0, false, false⟩
  let (k, s2) := (s1.setMsg id x).newPacket p
  (s2.setFab { s2.fab with pending := sset id m s2.fab.pending }).post (.messageDelivery k)

/-- An admitted access or turnstile operation is performed at its home under ASTAG 0. -/
def State.performPeer (s : State) (m : PeerMsg) (part : Nat) (e : Export) : State :=
  let (id, s1) := s.newId
  let s2 := s1.setFab { s1.fab with pending := sset id m s1.fab.pending }
  match m.ask.kind, m.ask.ts with
  | some (k, w), _ =>
    let accs := (m.ask.accs.zipIdx).filterMap fun x => (s.exportTo part e x.1.off).map fun d =>
      TaggedAcc.mk 0 0 ⟨x.2, d, x.1.val, x.1.cmp, x.1.poison⟩
    if accs.length < m.ask.accs.length ∨ accs = [] then s.refusePeer m
    else
      let o : MemOp := ⟨.peer id, k, w, none, coreAt m.slice 1, 0, ⟨part, 32, .h, 0⟩, 6, noLease, 3, none,
        (partsOf accs).map fun p => { p with va := none }, false⟩
      (s2.engineSend o).2
  | none, some (k, v) =>
    match s.exportTo part e m.ask.at_ with
    | none => s.refusePeer m
    | some d =>
      let (t, s3) := s2.newId
      let o : TsOp := ⟨.peer id, k, .home d, none, v, 7, none, .sent, 0, [], false, none, 32, part⟩
      (s3.setTs t o).sendTs t o
  | none, none => s

def State.admitPeer (s : State) (m : PeerMsg) : State :=
  match s.partOf m.slice with
  | none => s.refusePeer m
  | some part => match m.ask with
    | .msg score svf ring seqno bytes bad => s.peerMessage m part score svf ring seqno bytes bad
    | _ => match s.part? part with
      | none => s.refusePeer m
      | some p => match p.export? m.smod m.spart m.ask.at_ with
        | none => s.refusePeer m
        | some e => if m.ask.right e then s.performPeer m part e else s.refusePeer m

/-- R445: each number of a flow is performed once. -/
def State.peerRequest (s : State) (m : PeerMsg) : State :=
  match (s.rxOf m).receive m.epoch m.seq with
  | .drop => s
  | .duplicate => s.reAck m
  | .perform r => (s.putRx m r).admitPeer m

def execPeerRequest (m : PeerMsg) (s : State) : Out := .next (s.peerRequest m)

/-- R446: the receive state of a flow goes, and its source is told. -/
def execFlowReset (smod flow epoch : Nat) (s : State) : Out :=
  .next <|
  let f := fun (r : RxFlow) =>
    if r.smod = smod ∧ r.flow = flow ∧ olderEpoch epoch r.epoch = false then { r with epoch := epoch, expected := 0, window := [] }
    else r
  (s.setFab { s.fab with rxFlows := s.fab.rxFlows.map f }).out (.resetAck smod flow epoch)

/-- R450: a message of a peer's NI, or a whole frame for the ring of ETHCFG. Memory traffic never crosses Ethernet. -/
def execEthFrameReceive (f : EthFrame) (s : State) : Out :=
  let cfg := (s.reg f.slice 0 0xD0).toNat
  .next <|
  if cfg % 2 = 0 then s
  else match f.device, s.partOf f.slice with
    | some m, _ => match m.ask with
      | .msg .. => s.peerRequest { m with slice := f.slice }
      | _ => s
    | none, some part =>
      let ring := bitsOf cfg 36 12
      let (i, q, s1) := s.seqOf 127 s.plat.module f.slice ring
      let (id, s2) := s1.newId
      let x : Message := ⟨noTroupe, 0, false, s.plat.module, 127, 0, false, part, ring, f.slice, [], q.nextNo, f.bytes, [], none,
        false, none, true⟩
      let leaf := 8 * f.slice + 7
      let p : Packet := ⟨.msg, .msg, [], 0, 0, [], .leaf leaf, 0, .msg id, leaf, leaf, part, 32, 0, 0, false, false⟩
      let (k, s3) := (s2.setMsg id x).newPacket p
      (s3.putSeq i { q with nextNo := (q.nextNo + 1) % 2 ^ 16, unanswered := q.unanswered + 1 }).post (.messageDelivery k)
    | none, none => s

/-! The source side of a flow (R445, R446). -/

def State.flow? (s : State) (id : Nat) : Option Flow := sfind id s.fab.flows
def State.setFlow (s : State) (id : Nat) (f : Flow) : State := s.setFab { s.fab with flows := sset id f s.fab.flows }

def State.copy? (s : State) (flow seq : Nat) : Option FlowCopy :=
  match s.flow? flow with
  | some f => sfind seq f.copies
  | none => none

/-- The copy of a packet goes, and what of it is still about. -/
def State.dropCopy (s : State) (flow seq : Nat) : State :=
  match s.flow? flow with
  | none => s
  | some f =>
    let s1 := s.setFlow flow { f with copies := sdel seq f.copies }
    s1.setFab { s1.fab with packets := s1.fab.packets.filter fun e => !(decide (e.2.flow = flow) && decide (e.2.num = seq)) }

/-- The flow of an NI to a module for a VF, made where there is none yet. -/
def State.flowTo (s : State) (slice module vf : Nat) : Nat × Flow × State :=
  match s.fab.flows.find? fun e => decide (e.2.slice = slice ∧ e.2.module = module ∧ e.2.vf = vf) with
  | some (i, f) => (i, f, s)
  | none =>
    let (i, s1) := s.newId
    let f : Flow := ⟨slice, module, vf, 0, 0, [], false⟩
    (i, f, s1.setFlow i f)

/-- 16 µs. -/
def resendTicks : Nat := 16000

/-- R445: a packet takes the next number of its flow, and a copy is kept. -/
def State.numberPacket (s : State) (p : Packet) (module : Nat) : Packet × State :=
  let (i, f, s1) := s.flowTo (p.srcLeaf / 8) module p.vf
  let p1 := { p with flow := i, num := f.nextNo }
  let s2 := s1.setFlow i { f with
    nextNo := (f.nextNo + 1) % 2 ^ 32
    copies := sset f.nextNo ⟨{ p1 with slotNo := 0 }, 1, s.tick + resendTicks⟩ f.copies }
  (p1, s2.at (s.tick + resendTicks) (.flowResendTimeout i f.nextNo))

/-- What a read of a line brought back, spread over its accesses. -/
def Part.fillOut (p : Part) (w : Nat) (data : List Byte) (poison : Bool) : List LaneAcc :=
  (p.accs.zipIdx).map fun e => { e.1 with val := leVal ((data.drop (w * e.2)).take w), poison := poison }

/-- R323: an access to another module ends: a read with its data, a write with the tick of its acknowledgement. -/
def State.endPeerMem (s : State) (op line : Nat) (data : List Byte) (poison : Bool) : State :=
  match s.op? op with
  | none => s
  | some o => match o.part? line with
    | none => s
    | some p =>
      if p.state ≠ .sent then s
      else if o.kind.reads then
        let s1 := s.modPart? op line fun x =>
          { x with out := p.fillOut (widthBytes o.width) data poison, fill := none, state := .sampled }
        (if o.kind.writes then s1.takeGwct o s.tick else s1).later (.loadDataReturn op line)
      else (s.modPart? op line fun x => { x with state := .fixed s.tick false true }).later (.gwctReceive op line)

/-- R447: an operation on a turnstile of another module ends. -/
def State.endPeerTs (s : State) (op : Nat) (v : W64) (poison : Bool) : State :=
  match s.ts? op with
  | none => s
  | some o =>
    let r : Option (W64 × Bool) := match o.kind with
      | .add | .max => none
      | _ => some (v, poison)
    let o1 := { o with stage := .applied, reply := r }
    (s.setTs op o1).answerTs op o1

/-- What a packet to another module comes to: its data, or poison. -/
def State.endLoad (s : State) (l : Load) (data : List Byte) (poison : Bool) (status : Nat) : State :=
  match l with
  | .msg id => s.answerMsg id status
  | .mem op line => s.endPeerMem op line data poison
  | .ts op => s.endPeerTs op (BitVec.ofNat 64 (leVal data)) poison
  | .poll w => match s.waiter? w with
    | some x => s.report w x (BitVec.ofNat 64 (leVal data)) poison
    | none => s
  | .event .. | .transit _ => s

def execFlowAck (flow seq : Nat) (data : List Byte) (poison : Bool) (s : State) : Out :=
  .next <|
  match s.copy? flow seq with
  | none => s
  | some c => (s.dropCopy flow seq).endLoad c.pkt.load data poison (data.headD 0).toNat

def execFlowResetAck (flow : Nat) (s : State) : Out :=
  .next <|
  match s.flow? flow with
  | some f => s.setFlow flow { f with resetSent := false }
  | none => s

/-- Whether losing a packet loses a write or an add. -/
def State.losesWrite (s : State) (l : Load) : Bool :=
  match l with
  | .mem op _ => match s.op? op with
    | some o => o.kind.writes
    | none => false
  | .ts op => match s.ts? op with
    | some o => decide (o.kind ≠ TsKind.read)
    | none => false
  | _ => false

/-- R426: a record for the kernel of a packet's source slice. -/
def State.recordRoute (s : State) (p : Packet) (peer : Option Nat) (word : W64) : State :=
  let dst := if peer.isSome then 0 else p.dstLeaf
  (s.queueRing (p.srcLeaf / 8) p.part .kFault (routeRecord dst (p.srcLeaf / 8) p.base peer word) none none).2

/-- The module that a packet of a flow goes to. -/
def State.packetPeer (s : State) (p : Packet) : Option Nat := (s.flow? p.flow).map (·.module)

/-- R445: sent again after 16 µs, eight times in all; a packet still on its way within the module is not doubled. -/
def execFlowResendTimeout (flow seq : Nat) (s : State) : Out :=
  .next <|
  match s.flow? flow, s.copy? flow seq with
  | some f, some c =>
    if s.tick < c.due then s
    else if 8 ≤ c.sends then
      let lost := s.losesWrite c.pkt.load
      let s1 := (s.dropCopy flow seq).endLoad c.pkt.load [] true msTimeout
      if lost then s1.recordRoute c.pkt (some f.module) (c.pkt.words.headD 0) else s1
    else
      let inside := s.fab.packets.any fun e => decide (e.2.flow = flow) && decide (e.2.num = seq) &&
        (match e.2.place with
         | .outside .. => false
         | _ => true)
      let due := s.tick + resendTicks
      let sends := if inside then c.sends else c.sends + 1
      let s1 := (s.setFlow flow { f with copies := sset seq { c with sends := sends, due := due } f.copies }).at due
        (.flowResendTimeout flow seq)
      if inside then s1
      else
        let (k, s2) := s1.newPacket c.pkt
        s2.later (.switchForward k)
  | _, _ => s

end Sys2Proof.Machine
end

