-- ==== Sys2Proof/Machine/Fabric.lean ====
section
/-! DEFINITION. Packets on their way, tables of routes, links and the topology map (R421 to R436, R443, R444, R448, R449). -/

namespace Sys2Proof.Machine

def State.packet? (s : State) (id : Nat) : Option Packet := sfind id s.fab.packets
def State.setPacket (s : State) (id : Nat) (p : Packet) : State := s.setFab { s.fab with packets := sset id p s.fab.packets }

/-! Injection of requests to other modules (R426, R443, R445). -/

def peerKey (slice module k : Nat) : Nat := (slice * 1024 + module) * 4 + k

/-- R443: the route words of an entry, up to the first zero word. -/
def State.peerRoute (s : State) (slice module : Nat) : List W64 :=
  ((List.range 4).map fun k => sget 0 (peerKey slice module k) s.fab.peerRoutes).takeWhile (· ≠ 0)

/-- The route, or the word that is refused. -/
def State.peerRouteOf (s : State) (part slice module : Nat) : Except W64 (List W64) :=
  let ws := s.peerRoute slice module
  match checkRoute (fun x => linkOk (s.niHealth part x)) ws (8 * slice) false with
  | .off => .ok ws
  | .leaf i => if (s.smask part).getLsbD (i / 8) then .ok ws else .error (ws.headD 0)
  | .bad k _ => .error (ws.getD k 0)

/-- Requests from one slice to one module that are held, and leave in order. -/
def State.peerHeld (s : State) (id : Nat) (p : Packet) : Bool :=
  s.fab.packets.any fun e => decide (e.1 < id) && e.2.held && e.2.words.isEmpty && decide (e.2.srcLeaf = p.srcLeaf) &&
    decide (e.2.dstLeaf = p.dstLeaf)

/-- R313: an earlier access of the same owner to the line is not yet performed. -/
def State.loadBlocked (s : State) (l : Load) : Bool :=
  match l with
  | .mem op line => match s.op? op with
    | some o => s.blocked op line o
    | none => false
  | _ => false

/-- A request to another module enters the network, or is held with a record. A packet without words has its module in
dstLeaf. -/
def State.injectPeer (s : State) (id : Nat) (p : Packet) : State :=
  if s.loadBlocked p.load then s.later (.switchForward id)
  else if s.peerHeld id p then s.setPacket id { p with held := true }
  else match s.peerRouteOf p.part (p.srcLeaf / 8) p.dstLeaf with
    | .error w => ((s.countRoute (p.srcLeaf / 8)).setPacket id { p with held := true }).recordRoute p (some p.dstLeaf) w
    | .ok ws =>
      let p1 := { p with words := ws, trail := ws.map fun _ => (0 : W64), held := false }
      let (p2, s1) := if p.flow = 0 then s.numberPacket p1 p.dstLeaf else (p1, s)
      ((s1.countPacket p.part p.vf).setPacket id p2).later (.switchForward id)

/-! One hop (R424, R432 to R436). -/

/-- The port by which a packet enters a place over a link: a down port, or 16 and more for an up port. -/
def enterPort (q : Place) (link : Nat) : Nat :=
  match (List.range 16).find? fun d => match downPort q d with
    | some (_, x) => decide (x = link)
    | none => false with
  | some d => d
  | none => match (List.range 8).find? fun j => match upPort q j with
    | some (_, x) => decide (x = link)
    | none => false with
    | some j => 16 + j
    | none => 0

/-- Replaces the selector of a hop. -/
def setHop (w : W64) (h x : Nat) : W64 := BitVec.ofNat 64 (putBits w.toNat (5 * h) 5 x)

def portTo (p : Place) (x : Nat) : Option (Place × Nat) := if 16 ≤ x then upPort p (x - 16) else downPort p x

def Fabric.testing (f : Fabric) (x : Nat) : Bool := (sget ⟨0, [], false⟩ x f.links).testing

/-- R424: ANY takes the lowest present up port whose link is not DOWN. -/
def Fabric.chooseUp (f : Fabric) (p : Place) : Option Nat :=
  (List.range 8).find? fun j => match upPort p j with
    | some (_, x) => linkOk (f.linkHealth x)
    | none => false

def Packet.word (p : Packet) : W64 := p.words.getD p.cur 0

/-- The slice of a switch. -/
def Place.slice : Place → Nat
  | .leaf i => i / 8
  | .edge i | .middle i => i / 2
  | .top t => t
  | .outside s _ => s

def Place.isLeaf : Place → Bool
  | .leaf _ => true
  | _ => false

/-- R436: a packet that meets a DOWN link goes back along its trail as its base class. -/
def State.turnRound (s : State) (id : Nat) (p : Packet) : State :=
  (s.setPacket id { p with returning := true, cls := p.base }).later (.switchForward id)

/-- The packet moves over a link to a place; its choice and its entry port are written down. -/
def State.hopTo (s : State) (id : Nat) (p : Packet) (x : Nat) (q : Place) (link : Nat) : State :=
  let w := setHop p.word p.hop x
  let tr := p.trail.set p.cur (setHop (p.trail.getD p.cur 0) (p.hop + 1) (enterPort q link))
  let p1 := { p with words := p.words.set p.cur w, trail := tr, hop := p.hop + 1, place := q }
  let s1 := s.setPacket id p1
  if p1.hop = hopCount w then
    match p.load with
    | .msg _ => s1.post (.messageDelivery id)
    | _ => s1.later (.switchForward id)
  else s1.later (.switchForward id)

/-- What a packet asks of another module. -/
def State.loadAsk (s : State) (l : Load) : Option PeerAsk :=
  match l with
  | .msg id => (s.msg? id).map fun m => .msg m.core m.vf m.ring m.seq m.bytes m.bytePoison
  | .mem op line => match s.op? op with
    | none => none
    | some o => match o.part? line with
      | none => none
      | some p =>
        let xs := p.accs.map fun a => PeerAcc.mk ((a.addr - peerBase * 64) % 2 ^ 36) a.val a.cmp a.poison
        match o.kind with
        | .load _ | .prefetch | .record | .lr => some (.read o.width xs)
        | .store | .writeBack _ | .sc => some (.write o.width xs)
        | .atomic op | .red op => some (.atom op o.width xs)
        | .cas => some (.cas o.width xs)
        | .reduce f => some (.reduce f o.width xs)
  | .ts op => match s.ts? op with
    | none => none
    | some o =>
      let off := match o.loc with
        | .peer p => p % 2 ^ 36
        | _ => 0
      match o.kind with
      | .add => some (.add off o.amt)
      | .fetch => some (.fetch off o.amt)
      | .max => some (.tmax off o.amt)
      | .read | .set => some (.tread off)
  | .poll w => match s.waiter? w with
    | none => none
    | some x => match x.loc with
      | .peer p => some (.tread (p % 2 ^ 36))
      | _ => none
  | .event .. | .transit _ => none

/-- The request as it leaves: stamped with this module and the packet's partition, in its flow. -/
def State.outgoing (s : State) (p : Packet) : Option PeerMsg :=
  match s.loadAsk p.load, s.copy? p.flow p.num, s.flow? p.flow with
  | some a, some _, some f => some ⟨p.srcLeaf / 8, s.plat.module, p.part, p.flow, p.num, f.epoch, a⟩
  | _, _, _ => none

/-- R448, R450: out of the module by an exit hop of an NI. A packet whose copy is gone is discarded. -/
def State.exitBy (s : State) (id : Nat) (p : Packet) (slice x : Nat) : State :=
  let away := s.setPacket id { p with place := .outside slice x, cls := p.base }
  match p.load with
  | .transit pkt => (s.delPacket id).out (.through slice x pkt)
  | _ => match s.outgoing p with
    | none => s.delPacket id
    | some m =>
      if x = 4 then
        let idx := match p.load with
          | .msg i => ((s.msg? i).bind fun m => m.eth).getD 0
          | _ => 0
        if (s.reg slice 0 0xD0).getLsbD 0 then away.out (.eth slice idx m) else away
      else away.out (.request slice x (p.words.drop (p.cur + 1)) m)

/-- A packet at its last leaf in this module: a request to an NI of this very module is performed here (R442). -/
def State.arriveLeaf (s : State) (id : Nat) (p : Packet) (leaf : Nat) : State :=
  match s.outgoing p with
  | some m => (s.setPacket id { p with place := .outside (leaf / 8) 0 }).peerRequest { m with slice := leaf / 8 }
  | none => s.delPacket id

/-- A hop of a packet within the module. A link under test is waited for. -/
def State.takeHop (s : State) (id : Nat) (p : Packet) (x : Nat) : State :=
  let port := if x = 31 then (s.fab.chooseUp p.place).map fun j => 16 + j else some x
  match port with
  | none => s.turnRound id p
  | some y => match portTo p.place y with
    | none => s.turnRound id p
    | some (q, link) =>
      if s.fab.testing link then s.later (.switchForward id)
      else if linkOk (s.fab.linkHealth link) then s.hopTo id p y q link
      else s.turnRound id p

/-- A packet goes on by its current selector. -/
def State.forward (s : State) (id : Nat) (p : Packet) : State :=
  let n := hopCount p.word
  let x := selector p.word p.hop
  if n ≤ p.hop then
    match p.place with
    | .leaf i => s.arriveLeaf id p i
    | _ => s
  else
    match p.place with
    | .leaf i =>
      if x < 16 then
        let link := 768 + 4 * (i / 8) + x
        if 3 < x then s.exitBy id p (i / 8) x
        else if s.fab.testing link then s.later (.switchForward id)
        else if linkOk (s.fab.linkHealth link) then s.exitBy id p (i / 8) x
        else s.turnRound id p
      else s.takeHop id p x
    | _ => s.takeHop id p x

/-- R433: outside its slot and the next one a packet of the calendar goes on in its base class. -/
def State.demote (s : State) (id : Nat) (p : Packet) : Packet × State :=
  let now := s.tick / 4
  if p.cls = .gtd ∧ p.place.isLeaf = false ∧ p.slotNo ≠ now + 1 ∧ p.slotNo ≠ now then
    let p1 := { p with cls := p.base }
    (p1, (s.countDemoted p.place.slice).setPacket id p1)
  else (p, s)

/-- R433: how many packets of the calendar an NI has injected in the current slot. -/
def State.niCount (s : State) (slice : Nat) : Nat :=
  let v := sget 0 slice s.fab.niUsed
  if v / 4 = s.tick / 4 + 1 then v % 4 else 0

/-- R433: whether a packet of the calendar may be injected now. -/
def State.gtdMay (s : State) (p : Packet) : Bool :=
  decide (s.slotOwner p.part = if p.vf < 32 then .vf p.vf else .kernel) && decide (s.niCount (p.srcLeaf / 8) < 2)

def State.gtdInject (s : State) (id : Nat) (p : Packet) : Packet × State :=
  let slice := p.srcLeaf / 8
  let p1 := { p with slotNo := s.tick / 4 + 1 }
  (p1, (s.setFab { s.fab with niUsed := sset slice (4 * (s.tick / 4 + 1) + s.niCount slice + 1) s.fab.niUsed }).setPacket id p1)

/-- R436: a packet whose return meets a second DOWN link is discarded. -/
def State.discardPacket (s : State) (id : Nat) (p : Packet) : State :=
  match p.load with
  | .transit _ => s.delPacket id
  | .event .. => s
  | l =>
    let s1 := (s.delPacket id).recordRoute p (s.packetPeer p) p.word
    (if p.flow = 0 then s1 else s1.dropCopy p.flow p.num).endLoad l [] true msReturned

/-- A returning packet goes back by the port it came in by. -/
def State.goBack (s : State) (id : Nat) (p : Packet) : State :=
  if p.hop = 0 then s.post (.packetReturn id)
  else
    match portTo p.place (selector (p.trail.getD p.cur 0) p.hop) with
    | none => s.discardPacket id p
    | some (q, link) =>
      if s.fab.testing link then s.later (.switchForward id)
      else if linkOk (s.fab.linkHealth link) then
        (s.setPacket id { p with hop := p.hop - 1, place := q }).later (.switchForward id)
      else s.discardPacket id p

/-- The module that a message leaves for, if it leaves. -/
def State.leavesFor (s : State) (p : Packet) : Option Nat :=
  match p.load with
  | .msg id => match s.msg? id with
    | some m => if m.eth.isSome || decide (1 < m.route.length) then some m.module else none
    | none => none
  | _ => none

/-- A message enters the network, and takes its place in a flow where it leaves the module. -/
def State.enterNet (s : State) (id : Nat) (p : Packet) : Packet × State :=
  match (if p.flow = 0 then s.leavesFor p else none) with
  | some m => let r := s.numberPacket p m; (r.1, r.2.setPacket id r.1)
  | none => (p, s)

def execSwitchForward (packet : Nat) (s : State) : Out :=
  .next <|
  match s.packet? packet with
  | none => s
  | some p =>
    match p.load, p.place with
    | .event .., _ => s
    | _, .outside .. => s
    | l, _ =>
      if p.held then s
      else if p.returning then s.goBack packet p
      else if p.words.isEmpty then s.injectPeer packet p
      else
        let fresh := decide (p.hop = 0) && decide (p.cur = 0) && (match l with
          | .msg _ => true
          | _ => false)
        -- a packet of the calendar waits for a slot of its owner
        if p.cls = .gtd ∧ p.slotNo = 0 ∧ s.gtdMay p = false then s
        else
          let (p1, s1) := if p.cls = .gtd ∧ p.slotNo = 0 then s.gtdInject packet p else (p, s)
          let (p2, s2) := if fresh then s1.enterNet packet p1 else s1.demote packet p1
          s2.forward packet p2

/-! Transit (R448). -/

def execTransitCheck (slice : Nat) (words : List W64) (cur : Nat) (eth : Bool) (pkt : Nat) (s : State) : Out :=
  .next <|
  if words.length ≤ cur then s
  else
    let leaf := 8 * slice + 7
    match routePath (fun x => linkOk (s.fab.linkHealth x)) (words.getD cur 0) cur words.length eth leaf with
    | .bad .. => s.out (.turned pkt)
    | _ =>
      let p : Packet := ⟨.req, .req, words, cur, 0, words.map fun _ => (0 : W64), .leaf leaf, 0, .transit pkt, leaf, leaf, 0, 32,
        0, 0, false, false⟩
      let (k, s1) := s.newPacket p
      s1.later (.switchForward k)

/-! Returned packets (R426, R436). -/

/-- R426: a held memory packet is checked again: it leaves, or is recorded again. -/
def State.recheckOne (s : State) (id : Nat) (p : Packet) : State :=
  match p.load with
  | .event e w =>
    let slice := p.srcLeaf / 8
    let before := s.fab.packets.any fun x => decide (x.1 < id) && x.2.held && decide (x.2.srcLeaf = p.srcLeaf) &&
      decide (x.2.dstLeaf = p.dstLeaf) && (match x.2.load with
        | .event .. => true
        | _ => false)
    if before then s
    else if s.routeOk p.part slice p.dstLeaf then
      ((s.delPacket id).countPacket p.part (s.evVf e)).at (s.tick + latency slice (p.dstLeaf / 8)) e
    else (s.countRoute slice).recordRoute p none w
  | _ => (s.setPacket id { p with held := false }).later (.switchForward id)

def State.recheck (s : State) (part : Nat) : State :=
  (s.fab.packets.filter fun e => e.2.held && decide (e.2.part = part)).foldl (fun s e => s.recheckOne e.1 e.2) s

/-- A packet is back at its source: a message is answered, and a request is injected again. -/
def execPacketReturn (packet : Nat) (s : State) : Out :=
  .next <|
  match s.packet? packet with
  | none => s
  | some p =>
    let back := (p.returning && decide (p.hop = 0)) || (match p.place with
      | .outside .. => true
      | _ => false)
    if !back then s
    else match p.load with
      | .msg id =>
        let s1 := s.delPacket packet
        (if p.flow = 0 then s1 else s1.dropCopy p.flow p.num).answerMsg id msReturned
      | .transit pkt => (s.delPacket packet).out (.turned pkt)
      | .event .. => s
      | _ =>
        let m := (s.packetPeer p).getD 0
        let p1 := { p with
          words := []
          trail := []
          cur := 0
          hop := 0
          place := .leaf p.srcLeaf
          dstLeaf := m
          returning := false }
        (s.setPacket packet p1).later (.switchForward packet)

/-! Tables (R425, R443, R444). -/

/-- The words of a table in partition memory; none where it lies in no band or a line of it is poisoned. -/
def State.tableWords (s : State) (part base n : Nat) : Option (List W64) :=
  match s.ppaMem part base with
  | none => none
  | some d =>
    if (List.range (8 * n / 64)).any fun i => s.homes.badRead (lineOf d + i) 0 then none
    else some (words64 n (memBytes s.homes.mem d (8 * n)))

/-- R425: entry D of a slice's route table. -/
def State.routeEntryOk (s : State) (part slice leaf : Nat) (w : W64) : Bool :=
  if (s.smask part).getLsbD (leaf / 8) then
    decide (checkRoute (fun x => linkOk (s.niHealth part x)) [w] (8 * slice) false = .leaf leaf)
  else decide (w = 0)

def putTable (t : Sparse W64) (key : Nat → Nat) (ws : List W64) : Sparse W64 :=
  (ws.zipIdx).foldl (fun t e => sput 0 (key e.2) e.1 t) t

def execNirtLoad (slice : Nat) (val : W64) (req : Nat) (s : State) : Out :=
  .next <|
  match s.partOf slice with
  | none => s.reply req replyRefused
  | some p => match s.tableWords p (val.toNat / 2 * 2) 128 with
    | none => s.reply req replyRefused
    | some ws =>
      if (ws.zipIdx).all fun e => s.routeEntryOk p slice e.2 e.1 then
        ((s.setFab { s.fab with routes := putTable s.fab.routes (routeKey slice) ws }).recheck p).reply req replyOk
      else s.reply req replyRefused

/-- R444: the fields of an export entry. -/
def exportOk (lo hi : Nat) : Bool :=
  !bitN hi 63 || (decide (bitsOf hi 40 5 = 0) && decide (bitsOf lo 47 17 = 0) && decide (bitsOf lo 0 16 = 0) &&
    decide (bitsOf hi 0 20 ≠ 0))

def execXptblLoad (slice : Nat) (val : W64) (req : Nat) (s : State) : Out :=
  .next <|
  match s.partOf slice with
  | none => s.reply req replyRefused
  | some p => match s.tableWords p (val.toNat / 2 * 2) 128 with
    | none => s.reply req replyRefused
    | some ws =>
      if (List.range 64).all fun i => exportOk (dword ws (2 * i)) (dword ws (2 * i + 1)) then
        (s.modPart p fun x => { x with exports := putTable [] id ws }).reply req replyOk
      else s.reply req replyRefused

/-- R443: an entry of the peer route table. -/
def State.peerEntryOk (s : State) (part slice : Nat) (ws : List W64) : Bool :=
  let r := ws.takeWhile (· ≠ 0)
  r.isEmpty || (match checkRoute (fun x => linkOk (s.niHealth part x)) r (8 * slice) false with
    | .bad .. => false
    | .leaf i => (s.smask part).getLsbD (i / 8)
    | .off => true)

def execPeerrtLoad (slice : Nat) (val : W64) (req : Nat) (s : State) : Out :=
  .next <|
  match s.partOf slice with
  | none => s.reply req replyRefused
  | some p => match s.tableWords p (val.toNat / 2 * 2) 4096 with
    | none => s.reply req replyRefused
    | some ws =>
      if (List.range 1024).all fun m => s.peerEntryOk p slice ((ws.drop (4 * m)).take 4) then
        ((s.setFab { s.fab with peerRoutes := putTable s.fab.peerRoutes (fun i => peerKey slice 0 i) ws }).recheck p).reply req
          replyOk
      else s.reply req replyRefused

/-! The topology map (R427, R428, R431). -/

/-- One copy of the map of a partition, as 64-bit words. -/
def State.tmapWords (s : State) (p : Partition) (version : Nat) : List W64 :=
  let health := (List.range 104).map fun i => BitVec.ofNat 64 (leVal ((List.range 8).map fun j => partView s.fab p.smask (8 * i + j)))
  let peers := (List.range 64).map fun k => if p.smask.getLsbD (k / 4) then sget 0 k s.fab.peers else (0 : W64)
  [BitVec.ofNat 64 (0x544D4150 + 2 ^ 32 + s.plat.module * 2 ^ 48), BitVec.ofNat 64 version, p.dead.setWidth 64, 0, 0, 0, 0, 0] ++
    health ++ peers ++ List.replicate 80 0

/-- Words written to partition memory by the GRC as one operation. -/
def State.grcWrite (s : State) (part dpa : Nat) (ws : List W64) : Nat × State :=
  let accs := (ws.zipIdx).map fun e => TaggedAcc.mk 0 0 ⟨e.2, dpa + 8 * e.2, e.1.toNat, 0, false⟩
  let o : MemOp := ⟨.engine (s.firstSlice part), .store, .b64, none, coreAt (s.firstSlice part) 1, 0, ⟨part, 32, .h, 0⟩, 6, 1, 3, none,
    (partsOf accs).map fun p => { p with va := none }, false⟩
  s.engineSend o

def State.addPending (s : State) (loc : TsLoc) : Bool :=
  (s.engineAdds loc).isEmpty = false

/-- The next advance begins once the last one's add is applied. -/
def State.tmapGo (s : State) (part : Nat) : State :=
  match s.part? part with
  | none => s
  | some p =>
    let sl := s.firstSlice part
    match s.ppaMem part (s.reg sl 0 0xCA).toNat, s.ppaMem part (s.reg sl 0 0xCB).toNat with
    | some page, some v =>
      if p.tmapTodo = 0 ∨ s.addPending (.home v) = true then s
      else
        let n := p.tmapV + 1
        let (op, s1) := s.grcWrite part (page + 2048 * (n % 2)) (s.tmapWords p n)
        ((s1.setPart part { p with tmapV := n, tmapTodo := p.tmapTodo - 1 }).addAfter sl part 32 (.home v) none 1 0 [op]).laterOnce
          (.niMaskRefresh part)
    | _, _ => s

/-- R428: a change that the copy of a partition shows is one advance of its map. -/
def State.tmapAdvance (s : State) (part : Nat) : State :=
  (s.modPart part fun p => { p with tmapTodo := p.tmapTodo + 1 }).tmapGo part

def State.viewOf (s : State) (p : Partition) : Sparse Byte :=
  (List.range 832).foldl (fun m x => sput (healthDefault x) x (partView s.fab p.smask x) m) []

/-- R431: after an add to V is applied, the NIs take the new mask, and held packets are checked again. -/
def execNiMaskRefresh (part : Nat) (s : State) : Out :=
  .next <|
  match s.part? part with
  | none => s
  | some p =>
    match s.ppaMem part (s.reg (s.firstSlice part) 0 0xCB).toNat with
    | none => s
    | some v =>
      if s.addPending (.home v) then s.laterOnce (.niMaskRefresh part)
      else ((s.setPart part { p with health := s.viewOf p }).recheck part).tmapGo part

/-! Links (R434, R435, R449). -/

/-- The partitions whose copies show a link. -/
def State.viewers (s : State) (x : Nat) : List Nat :=
  (s.pkg.parts.filter fun e => decide (512 ≤ x ∧ x < 768) || e.2.smask.getLsbD (linkSlice x)).map (·.1)

/-- The state of a link changes, and the maps that show it advance. -/
def State.setLink (s : State) (x : Nat) (b : Byte) : State :=
  if s.fab.linkHealth x = b then s
  else
    let s1 := s.setFab { s.fab with health := sput (healthDefault x) x b s.fab.health }
    (s1.viewers x).foldl State.tmapAdvance s1

def LinkErr.none : LinkErr := ⟨0, [], false⟩

/-- 100 µs. -/
def replayTicks : Nat := 100000

def execLinkTransferFail (link : Nat) (again : Bool) (s : State) : Out :=
  .next <|
  let e := sget LinkErr.none link s.fab.links
  if e.testing || !linkOk (s.fab.linkHealth link) || decide (832 ≤ link) then s
  else
    let fails := if again then e.fails + 1 else 1
    let replays := (e.replays.filter fun t => decide (s.tick < t + replayTicks)) ++ [s.tick]
    let persistent := decide (3 ≤ fails) || decide (16 ≤ replays.length)
    s.setFab { s.fab with links := sset link ⟨fails, replays, persistent⟩ s.fab.links }

/-- The self-test of a link's lanes ends. -/
def execLinkLaneTest (link : Nat) (lowerGood upperGood : Bool) (s : State) : Out :=
  .next <|
  let e := sget LinkErr.none link s.fab.links
  if !e.testing then s
  else
    let b : Byte := match lowerGood, upperGood with
      | true, true => s.fab.linkHealth link
      | true, false => 1
      | false, true => 5
      | false, false => 2
    (s.setFab { s.fab with links := sset link LinkErr.none s.fab.links }).setLink link b

def externalLink (slice link : Nat) : Nat := 768 + 4 * slice + link

/-- R449: training fills the peer record of a link, or finds none. -/
def execLinkTraining (slice link : Nat) (peer : Option PeerLink) (s : State) : Out :=
  .next <|
  if 16 ≤ slice ∨ 4 ≤ link then s
  else
    let k := 4 * slice + link
    let w : W64 := match peer with
      | some p => BitVec.ofNat 64 (2 ^ 63 + p.module % 1024 * 2 ^ 53 + p.slice % 16 * 2 ^ 49 + p.link % 4 * 2 ^ 47)
      | none => 0
    let old := sget 0 k s.fab.peers
    let b : Byte := if peer.isSome then 0 else 3
    let s1 := s.setFab { s.fab with peers := sput 0 k w s.fab.peers }
    if s.fab.linkHealth (externalLink slice link) = b then
      (if old = w then s1 else (s1.viewers (externalLink slice link)).foldl State.tmapAdvance s1)
    else s1.setLink (externalLink slice link) b

def execPeerStopsAnswering (slice link : Nat) (s : State) : Out :=
  .next <|
  if 16 ≤ slice ∨ 4 ≤ link ∨ s.fab.linkHealth (externalLink slice link) = 3 then s
  else s.setLink (externalLink slice link) 2

end Sys2Proof.Machine
end

