-- ==== Sys2Proof/Machine/Errors.lean ====
section
/-! DEFINITION. Errors, the tests of units, their records, and retirement (R68, R185, R201, R255, R303 to R309, R363, R398,
R414, R415, R428). -/

namespace Sys2Proof.Machine

/-! Error records (R307, R308). -/

/-- A partition-physical address of a line, 0 where no band holds it. -/
def State.ppaOf (s : State) (part line : Nat) : Nat :=
  ((s.bands part).findSome? fun b => (bandInv b (64 * line)).map fun o => b.pbase * 2 ^ 30 + o).getD 0

def errorRecord (addr tick unit index error test : Nat) (vf : Option Nat) (count : Nat) (syndrome : W32) : BitVec 256 :=
  BitVec.ofNat 256 (addr % 2 ^ 52 * 2 ^ 204 + tick % 2 ^ 64 * 2 ^ 140 + unit % 16 * 2 ^ 136 + index % 2 ^ 8 * 2 ^ 128 +
    error * 2 ^ 120 + test * 2 ^ 118 + (match vf with | some v => 2 ^ 117 + v % 32 * 2 ^ 112 | none => 0) +
    Nat.min count 65535 * 2 ^ 96 + syndrome.toNat * 2 ^ 64)

def recordWords (r : BitVec 256) : List W64 := (List.range 4).map fun i => r.extractLsb' (64 * i) 64

def regErrQ : Nat := 0x40
def regErrT : Nat := 0x41
def regErrH : Nat := 0x42
def regErrD : Nat := 0x43

/-- Where the next record of a slice goes, and its tail turnstile; none where the ring is off, full or not in memory. -/
def State.errorSlot (s : State) (part slice : Nat) : Option (Nat × Nat) :=
  let q := (s.reg slice 0 regErrQ).toNat
  let n := 2 ^ (bitsOf q 8 4 + 7)
  match s.ppaMem part (s.reg slice 0 regErrT).toNat, s.ppaMem part (s.reg slice 0 regErrH).toNat with
  | some t, some h =>
    let k := s.tailValue t
    if q % 2 = 0 ∨ n ≤ (k - s.tsVal (.home h)).toNat then none
    else (s.ppaMem part (q / 4096 * 4096 + 32 * (k.toNat % n))).map fun d => (d, t)
  | _, _ => none

/-- The slice writes a record, and adds 1 to the tail after it; it never waits for room. -/
def State.writeRecord (s : State) (part slice : Nat) (r : BitVec 256) : State :=
  match s.errorSlot part slice with
  | some (d, t) =>
    let before := (s.engineAdds (.home t)).flatMap fun x => x.2.after
    let (op, s1) := s.agentStore slice (kernelRegime part) none d 0 (recordWords r)
    s1.addAfter slice part 32 (.home t) none 1 0 (before ++ [op])
  | none => s.setReg slice 0 regErrD (BitVec.ofNat 64 ((s.reg slice 0 regErrD).toNat + 1) &&& 0xFFFFFFFF)

def transient : Nat := 1
def lastingRetired : Nat := 2
def notRun : Nat := 3

/-- R307: the record of an error, once its test has ended; that of a lasting fault goes to the GRC too, with its
device-physical address. -/
def State.reportError (s : State) (slice unit index : Nat) (t : UnitTest) (test : Nat) : State :=
  let key := unitKey slice unit index
  let e := sget (0, 0) key s.plat.errors
  let of_ := fun (addr : Nat) =>
    errorRecord addr t.found unit index (if t.corrected then 1 else 0) test t.vf e.1 (Config.syndrome s.fresh)
  let s1 := match s.partOf slice with
    | some p => s.writeRecord p slice (of_ (match t.line with | some l => s.ppaOf p l | none => 0))
    | none => s
  let dpa := match t.line with
    | some l => 64 * l
    | none => 0
  let fl := s1.plat.flash
  let fl1 := if test = lastingRetired then { fl with log := fl.log ++ [.fault slice (of_ dpa) dpa] } else fl
  { s1.setPlat { s1.plat with errors := sput (0, 0) key (0, e.2) s1.plat.errors, flash := fl1 } with fresh := s1.fresh + 1 }

/-! Table walks and fetches (R273, R280, R288, R341). -/

/-- A walk or a fetch read a line at its home: the L2 holds it, or fills it from its channel; a poisoned table entry
leaves a record (of which unit: DEDUCED, log entry 125). -/
def State.homeReads (s : State) (part vf : Nat) (lines : List (Nat × Bool)) : State :=
  lines.foldl (fun s e =>
    let line := e.1
    let s1 := match sfind line s.homes.l2 with
      | some l => (s.setHomes { s.homes with l2 := sset line { l with used := s.seq } s.homes.l2 }).bump
      | none => s.chanAsk (chargeVf vf) line false
    if e.2 && decide (s.partOf (lineSlice line) = some part) then
      s1.reportError (lineSlice line) unitDram (agentIndex line)
        ⟨s.tick, some line, chargeVf vf, false, false⟩ transient
    else s1) s

/-! Retirement (R398, R414, R415). -/

/-- A way of the RDC is listed as of bank 16. -/
def retiredOf (unit : Nat) : Retired → Retired
  | .bankWay b => .bankWay (if unit = unitL2 then b % 16 else 16)
  | r => r

/-- A unit goes into the flash list. -/
def State.noteRetired (s : State) (slice : Nat) (r : Retired) : State :=
  s.setPlat { s.plat with flash := { s.plat.flash with retired := s.plat.flash.retired ++ [(slice, r)] } }

/-- A field of RETIRE that counts, up to 255; and a bit of it. -/
def State.retireCount (s : State) (slice lo : Nat) : State :=
  let v := (s.reg slice 0 regRetire).toNat
  s.setReg slice 0 regRetire (BitVec.ofNat 64 (putBits v lo 8 (Nat.min 255 (bitsOf v lo 8 + 1))))

def State.retireBit (s : State) (slice i : Nat) : State :=
  s.setReg slice 0 regRetire (BitVec.ofNat 64 (putBits (s.reg slice 0 regRetire).toNat i 1 1))

/-- What RETIRE shows of a retired unit. -/
def State.showRetired (s : State) (slice : Nat) (r : Retired) : State :=
  match r with
  | .row | .spares => s.retireCount slice 32
  | .bankWay b => if b < 16 then s.retireBit slice (16 + b) else s
  | .core i => s.retireBit slice (i % 8)
  | .hart k => s.retireBit slice (8 + k % 8)
  | .lane _ => s.retireCount slice 40
  | .none | .slice => s

/-- The whole slice is retired; the maps that show it advance. -/
def State.retireSlice (s : State) (slice : Nat) : State :=
  let part := s.partOf slice
  let s1 := (s.noteRetired slice .slice).loseSlice slice
  match part with
  | some p => s1.tmapAdvance p
  | none => s1

def execSliceLoss (slice : Nat) (s : State) : Out :=
  .next (if slice < 16 ∧ s.plat.lost.getLsbD slice = false then s.retireSlice slice else s)

/-- The blocks of a core are discarded, and tickets that have none yet can no longer be placed. -/
def State.retireCore (s : State) (core : Nat) : State :=
  let s1 := (s.blocks.filter fun e => decide (e.2.core = core)).foldl (fun s e => s.loseBlock e.1 tkLost) s
  s1.pkg.tickets.foldl (fun s e =>
    if decide (e.2.placed = 0) && decide (e.2.status = 0) && e.2.cores.contains core then s.endTicket e.1 e.2 tkTooLarge else s) s1

def State.stopHart (s : State) (h : Nat) : State :=
  s.setHart h { s.hart h with started := false }

/-- A lasting fault retires its unit. -/
def State.retire (s : State) (slice : Nat) (r : Retired) (line : Option Nat) : State :=
  match r with
  | .none => s
  | .slice => if s.plat.lost.getLsbD slice then s else s.retireSlice slice
  | .spares => match line with
    -- a row that stays in place: the line that fails its test is poisoned
    | some l => s.setHomes { s.homes with linePoison := kadd l s.homes.linePoison }
    | none => s
  | _ =>
    let s1 := (s.noteRetired slice r).showRetired slice r
    match r with
    | .core i => s1.retireCore (coreAt slice (i % 8 + 1))
    | .hart k =>
      let s2 := s1.stopHart (8 * slice + k % 8)
      if (List.range 8).all (fun j => s2.hartRetired (8 * slice + j)) && !s2.plat.lost.getLsbD slice then s2.retireSlice slice
      else s2
    | .lane x => s1.setLink x (if (s1.fab.linkHealth x).toNat % 4 = 0 then 1 else 2)
    | _ => s1

/-- A unit that is retired already is not tested. -/
def State.unitRetired (s : State) (slice unit index : Nat) : Bool :=
  s.plat.lost.getLsbD slice || (decide (unit = unitCore) && s.coreRetired (coreAt slice (index % 8 + 1))) ||
  (decide (unit = unitHost) && s.hartRetired (8 * slice + index % 8))

/-! Tests (R306). -/

/-- A unit's test begins with an error; one that meets another error during its test has a lasting fault. -/
def State.startTest (s : State) (slice unit index : Nat) (line vf : Option Nat) (corrected : Bool) : State :=
  let key := unitKey slice unit index
  if s.unitRetired slice unit index then s.reportError slice unit index ⟨s.tick, line, vf, corrected, false⟩ notRun
  else match sfind key s.homes.testing with
    | some t => s.setHomes { s.homes with testing := sset key { t with again := true } s.homes.testing }
    | none => s.setHomes { s.homes with testing := sset key ⟨s.tick, line, vf, corrected, false⟩ s.homes.testing }

/-- The test ends: transient, or lasting and the unit retired. -/
def execUnitSelfTest (slice : Nat) (unit : UnitCode) (index : Nat) (lasting : Bool) (retired : Retired) (s : State) : Out :=
  .next <|
  let key := unitKey slice unit.val index
  match sfind key s.homes.testing with
  | none =>
    -- the tests of boot (R405, step 3)
    if lasting && decide (s.tick = 0) && !s.plat.inReset && decide (slice < 16) && !s.unitRetired slice unit.val index then
      (s.reportError slice unit.val index ⟨0, none, none, false, false⟩ lastingRetired).retire slice
        (retiredOf unit.val retired) none
    else s
  | some t =>
    let s1 := s.setHomes { s.homes with testing := sdel key s.homes.testing }
    if lasting || t.again then (s1.reportError slice unit.val index t lastingRetired).retire slice (retiredOf unit.val retired) t.line
    else s1.reportError slice unit.val index t transient

/-- 1 ms. -/
def repeatTicks : Nat := 1000000

/-- A correctable error is corrected and counted; a repeat in its unit starts the unit's test. -/
def execCorrectableError (slice : Nat) (unit : UnitCode) (index : Nat) (s : State) : Out :=
  .next <|
  if 16 ≤ slice ∨ 256 ≤ index then s
  else
    let key := unitKey slice unit.val index
    let old := sfind key s.plat.errors
    let e := old.getD (0, 0)
    let s1 := s.setPlat { s.plat with errors := sset key (e.1 + 1, s.tick) s.plat.errors }
    let again := old.isSome && decide (s.tick ≤ e.2 + repeatTicks)
    if again || (sfind key s.homes.testing).isSome then s1.startTest slice unit.val index none none true else s1

/-! Uncorrectable errors (R201, R255, R305). -/

/-- Whether a word lies in the counter region of a block, in a granule that the block still has. -/
def wordRegion (b : Block) (core word : Nat) : Bool :=
  decide (b.core = core) && decide (b.state ≠ .saved ∧ b.state ≠ .reserving ∧ b.state ≠ .arriving) &&
  !b.spill.contains (.granule (word / 512)) && decide (counterByte b 0 ≤ 8 * word ∧ 8 * word < 4096 * (b.g0 + b.grans))

/-- R305: a turnstile is marked, and every condition listed on it ends POISONED. -/
def State.markTurnstile (s : State) (loc : TsLoc) : State :=
  let v := s.tsVal loc
  let s1 := match loc with
    | .home d => s.setHomes { s.homes with tsPoison := kadd d s.homes.tsPoison }
    | .block id i => match s.block? id with
      | some b =>
        let c := s.core b.core
        s.setCore b.core { c with uaPoison := kadd (counterByte b i / 8) c.uaPoison }
      | none => s
    | .peer _ => s
  (s1.listedAt loc).foldl (fun s e => s.report e.1 { e.2 with listed := none } v true) s1

def State.scratchError (s : State) (core word : Nat) : State :=
  match s.blocks.find? fun e => wordRegion e.2 core word with
  | some e => s.markTurnstile (.block e.1 ((8 * word - counterByte e.2 0) / 8))
  | none =>
    let c := s.core core
    if (s.heldGranules core).contains (word / 512) then s.setCore core { c with uaPoison := kadd word c.uaPoison } else s

def State.l1Error (s : State) (core line : Nat) : State :=
  let c := s.core core
  match c.l1Find line with
  | some (k, l) =>
    if l.isPinned then ((s.setCore core { c with l1 := sset k { l with poison := true } c.l1 }).writeBack core k (.core core) false).2
    else s.setCore core { c with l1 := sdel k c.l1 }
  | none => s

def State.poisonLine (s : State) (line : Nat) : State :=
  s.setHomes { s.homes with linePoison := kadd line s.homes.linePoison }

/-- R288, R305: a clean line is read again, which is charged to no VF. -/
def State.l2Error (s : State) (line : Nat) (channelBad : Bool) : State :=
  match sfind line s.homes.l2 with
  | none => s
  | some l =>
    if l.dirty then s.poisonLine line
    else
      let s1 := s.setHomes { s.homes with l2 := sdel line s.homes.l2 }
      (if channelBad then s1.poisonLine line else s1).chanAsk none line false

/-- The lease of a line whose entry is lost runs until every copy must have expired, and INF copies are recalled. -/
def State.leaseError (s : State) (line : Nat) : State :=
  let h := s.homes
  let all := BitVec.allOnes 16
  (s.setHomes { h with lease := sset line (s.tick + 8192) h.lease, inf := sset line all h.inf }).sendRecalls line all

/-- R255: a word of an access over the crossbar: to another core's scratchpad, or to a line that another core holds. -/
def State.xbarOp (s : State) (id word : Nat) (o : MemOp) : State :=
  let bad := fun (a : LaneAcc) =>
    if a.addr / 8 ≤ word ∧ word ≤ (a.addr + widthBytes o.width - 1) / 8
    then { a with poison := true } else a
  let crosses := fun (p : Part) => o.target.isSome || (match s.route o p.line with
    | .across _ => true
    | _ => false)
  let mark := fun (p : Part) =>
    if crosses p then { p with accs := p.accs.map bad, out := p.out.map bad } else p
  s.setOp id { o with parts := o.parts.map mark }

/-- R255: the data word of an operation on a CLUSTER turnstile: the value on its way back, or the amount on its way there,
which leaves its turnstile poisoned (DEDUCED, log entry 123). -/
def State.xbarTs (s : State) (id : Nat) (o : TsOp) : State :=
  if !coreUnitOf o.loc then s
  else match o.reply with
    | some r => s.setTs id { o with reply := some (r.1, true) }
    | none => if decide (o.stage = .sent) && decide (o.kind ≠ .read) then s.markTurnstile o.loc else s

/-- R255: a value that a wake or a poll brings over the crossbar. -/
def State.xbarWake (s : State) (id : Nat) (w : Waiter) : State :=
  if coreUnitOf w.loc then s.setWaiter id { w with reports := w.reports.map fun r => (r.1, r.2.1, true) } else s

def State.xbarError (s : State) (op word : Nat) : State :=
  match s.op? op, s.ts? op, s.waiter? op with
  | some o, _, _ => s.xbarOp op word o
  | _, some o, _ => s.xbarTs op o
  | _, _, some w => s.xbarWake op w
  | _, _, _ => s

/-- The core that something on the crossbar comes from. -/
def State.xbarCore (s : State) (op : Nat) : Option Nat :=
  match s.op? op, s.ts? op, s.waiter? op with
  | some o, _, _ => some o.core
  | _, some o, _ => (s.ownerAt o.owner).map (·.1)
  | _, _, some w => w.who.core?
  | _, _, _ => none

def inModule (core : Nat) : Bool := decide (core < 128)

/-- What an error does to what it is found in. -/
def State.errorAt (s : State) (a : ErrorAt) : State :=
  match a with
  | .register core slot reg lanes =>
    s.modTroupe ⟨core, slot⟩ fun t =>
      { t with lane := { t.lane with poison := sput 0 reg (sget 0 reg t.lane.poison ||| lanes) t.lane.poison } }
  | .scratchWord core word => if inModule core then s.scratchError core word else s
  | .slotWord core word =>
    if inModule core then s.setCore core { s.core core with opmPoison := kadd word (s.core core).opmPoison } else s
  | .l1Line core line => s.l1Error core line
  | .l2Line line bad => s.l2Error line bad
  | .memLine line _ => s.poisonLine line
  | .xbarWord op word => s.xbarError op word
  | .rdcLine slice line => s.dropRdc slice line
  | .hostLine h line => s.setHart h { s.hart h with dcache := sdel line (s.hart h).dcache }
  | .leaseTable line => s.leaseError line
  | .turnstile d => s.markTurnstile (.home d)

/-- The unit an error lies in, and the line it concerns: its slice, code and index. -/
def State.errorUnit (s : State) (a : ErrorAt) : Nat × Nat × Nat × Option Nat :=
  let atHome := fun (line unit : Nat) =>
    (lineSlice line, unit, if unit = unitL2 then agentIndex line / 3 else agentIndex line, some line)
  let atCore := fun (core : Nat) => (if inModule core then coreSlice core else 16, unitCore, coreUnit core - 1, (none : Option Nat))
  match a with
  | .register core .. | .scratchWord core _ | .slotWord core _ => atCore core
  | .l1Line core line => (if inModule core then coreSlice core else 16, unitCore, coreUnit core - 1, some line)
  | .l2Line line _ => atHome line unitL2
  | .memLine line tag => atHome line (if tag then unitTag else unitDram)
  | .xbarWord op _ => match s.xbarCore op with
    | some k => (coreSlice k, unitXbar, cluster k % 2, none)
    | none => (16, unitXbar, 0, none)
  | .rdcLine slice line => (slice, unitRdc, 0, some line)
  | .hostLine h line => (h / 8, unitHost, h % 8, some line)
  | .leaseTable line => atHome line unitTable
  | .turnstile d => atHome (d / 64) unitTable

/-- R305, R306: the error takes effect, and its unit is tested. -/
def execUncorrectableError (at_ : ErrorAt) (vf : Option Nat) (s : State) : Out :=
  .next <|
  let (slice, unit, index, line) := s.errorUnit at_
  if 16 ≤ slice then s else (s.errorAt at_).startTest slice unit index line vf false

end Sys2Proof.Machine
end

