-- ==== Sys2Proof/Machine/HartCsr.lean ====
section
/-! DEFINITION. Harts: control and status registers as software reads and writes them, interrupt files, and interrupts
(R296, R302). All of it is what the spec takes over from RISC-V by name (log entry 23). -/

namespace Sys2Proof.Machine

/-! Interrupt files (R302): 0 the S file, 1 to 7 the guest files, 8 the M file, each with the EIIDs 1 to 255. -/

def fileM : Nat := 8

/-- Where a register of an interrupt file stands among the registers of its hart, past their 12-bit numbers. -/
def fileKey (file sel : Nat) : Nat := 4096 + 256 * file + sel

def selDelivery : Nat := 0x70
def selThreshold : Nat := 0x72

def Hart.pend (x : Hart) (file : Nat) : KeySet := sget [] file x.imsic
def Hart.setPend (x : Hart) (file : Nat) (ks : KeySet) : Hart := { x with imsic := sput [] file ks x.imsic }
def Hart.eiidOn (x : Hart) (file e : Nat) : Bool := bitN (x.csr? (fileKey file (0xC0 + 2 * (e / 64)))) (e % 64)

/-- The least EIID that is pending, enabled and below the threshold. -/
def Hart.topEiid (x : Hart) (file : Nat) : Option Nat :=
  let t := x.csr? (fileKey file selThreshold)
  (x.pend file).find? fun e => x.eiidOn file e && (decide (t = 0) || decide (e < t))

def Hart.fileRaises (x : Hart) (file : Nat) : Bool :=
  decide (x.csr? (fileKey file selDelivery) = 1) && (x.topEiid file).isSome

/-- A register of a file behind its select register, none where there is none: delivery, threshold, and even ones of
pending and enable bits, 64 EIIDs each. -/
def Hart.fileRead (x : Hart) (file sel : Nat) : Option Nat :=
  if sel = selDelivery ∨ sel = selThreshold then some (x.csr? (fileKey file sel))
  else if sel < 0x80 ∨ 0x100 ≤ sel ∨ sel % 2 = 1 then none
  else if sel < 0xC0 then some ((x.pend file).foldl (fun n e => if e / 64 = (sel - 0x80) / 2 then n + 2 ^ (e % 64) else n) 0)
  else some (x.csr? (fileKey file sel))

def Hart.fileWrite (x : Hart) (file sel v : Nat) : Hart :=
  let k := (sel - 0x80) / 2
  if sel = selDelivery then x.setCsr (fileKey file sel) (v % 2)
  else if sel = selThreshold then x.setCsr (fileKey file sel) (v % 256)
  else if 0x80 ≤ sel ∧ sel < 0x88 then
    x.setPend file ((List.range 64).foldl (fun ks b => if 64 * k + b = 0 then ks else kset (64 * k + b) (bitN v b) ks) (x.pend file))
  else if 0xC0 ≤ sel ∧ sel < 0xC8 then x.setCsr (fileKey file sel) (if sel = 0xC0 then v / 2 * 2 else v)
  else x

/-- The guest file in use; 0 is none. -/
def Hart.vgein (x : Hart) : Nat := bitsOf (x.csr? csrHstatus) 12 6

/-! Pending interrupts. -/

def csrMideleg : Nat := 0x303
def csrMie : Nat := 0x304
def csrHideleg : Nat := 0x603
def csrHgeie : Nat := 0x607
def csrHvictl : Nat := 0x609
def csrHvip : Nat := 0x645
def csrFcsr : Nat := 0x003

/-- The bits of interrupts of guests, and of those that HS takes itself. -/
def guestIrqs : Nat := 0x444
def superIrqs : Nat := 0x222

def Hart.stce (x : Hart) : Bool := bitN (x.csr? csrMenvcfg) 63
def Hart.vstce (x : Hart) : Bool := x.stce && bitN (x.csr? csrHenvcfg) 63

def Hart.hgeip (x : Hart) : Nat := (List.range 7).foldl (fun n g => if x.fileRaises (g + 1) then n + 2 ^ (g + 1) else n) 0

/-- A guest has them always delegated to it or to HS. -/
def Hart.mideleg (x : Hart) : Nat := (x.csr? csrMideleg &&& superIrqs) ||| 0x1444

/-- mip: software bits, comparators and the signals of the interrupt files. -/
def Hart.mip (x : Hart) : Nat :=
  let st := x.csr? csrMip
  let hv := x.csr? csrHvip
  let geip := x.hgeip
  let bit := fun (i : Nat) (b : Bool) => if b then 2 ^ i else 0
  bit 1 (bitN st 1) + bit 2 (bitN hv 2) + bit mipStip (bitN st mipStip) +
    bit mipVstip (bitN hv 6 || (x.vstce && bitN st mipVstip)) + bit 9 (bitN st 9 || x.fileRaises 0) +
    bit 10 (bitN hv 10 || (decide (x.vgein ≠ 0) && bitN geip x.vgein)) + bit 11 (x.fileRaises fileM) +
    bit 12 (decide (geip &&& x.csr? csrHgeie ≠ 0))

/-- The interrupts of M, HS and VS that are pending and enabled, those of VS under their numbers in HS. -/
def Hart.irqs (x : Hart) (md : HartMode) : Nat :=
  let p := x.mip &&& x.csr? csrMie
  let s := p &&& x.mideleg
  match md with
  | .m => p - s
  | .vs => s &&& x.csr? csrHideleg
  | _ => s - (s &&& x.csr? csrHideleg)

/-- The order of the architecture. -/
def irqOrder : List Nat := [11, 3, 7, 9, 1, 5, 12, 10, 2, 6]

def topIrq (bits : Nat) : Option Nat := irqOrder.find? fun i => bitN bits i

/-- The interrupt that VS would take, by its number there; hvictl may inject one. -/
def Hart.topVs (x : Hart) : Option Nat :=
  let ctl := x.csr? csrHvictl
  let iid := bitsOf ctl 16 12
  if bitN ctl 30 then
    (if bitN (x.irqs .vs) 10 then some 9 else if iid ≠ 0 ∧ iid ≠ 9 then some iid else none)
  else (topIrq (x.irqs .vs)).map fun i => i - 1

/-- The interrupt that is taken before the next instruction, and the mode that takes it. -/
def Hart.takes (x : Hart) : Option (HartMode × Nat) :=
  let st := x.csr? csrMstatus
  let m := if decide (x.mode ≠ .m) || bitN st 3 then topIrq (x.irqs .m) else none
  let hs := if x.mode.guest || decide (x.mode = .u) || (decide (x.mode = .hs) && bitN st 1) then topIrq (x.irqs .hs) else none
  let vs := if decide (x.mode = .vu) || (decide (x.mode = .vs) && bitN (x.csr? csrVsstatus) 1) then x.topVs else none
  match m, hs, vs with
  | some i, _, _ => some (.m, i)
  | none, some i, _ => some (.hs, i)
  | none, none, some i => some (.vs, i)
  | none, none, none => none

/-! Registers that hold what is written under a mask. -/

def all64 : Nat := 2 ^ 64 - 1

/-- medeleg and hedeleg: the exceptions there are, those that a guest's mode may take. -/
def medelegMask : Nat := 0xF8B7FF
def hedelegMask : Nat := 0x08B1FF
def envMask : Nat := 0x71

/-- Register and mask of what a write changes. -/
def heldCsrs : List (Nat × Nat) :=
  [(0x105, all64 - 2), (0x305, all64 - 2), (0x205, all64 - 2), (0x140, all64), (0x240, all64), (0x340, all64),
    (0x141, all64 - 1), (0x241, all64 - 1), (0x341, all64 - 1), (0x142, all64), (0x242, all64), (0x342, all64),
    (0x143, all64), (0x243, all64), (0x343, all64), (csrSenvcfg, envMask), (csrMenvcfg, envMask + 2 ^ 63),
    (0x106, 7), (0x306, 7), (0x606, 7), (csrStimecmp, all64), (csrVstimecmp, all64), (csrHtimedelta, all64)] ++
  [(csrHtval, all64), (csrMtval2, all64), (0x64A, all64), (0x34A, all64), (csrHgeie, 0xFE), (csrMedeleg, medelegMask),
    (csrHedeleg, hedelegMask), (0x150, all64), (0x250, all64), (0x350, all64), (csrMie, 0x1EEE),
    (csrHideleg, guestIrqs), (csrHvip, guestIrqs), (csrHvictl, 0x4FFF03FF), (0x646, all64), (0x647, all64)]

def heldMask (n : Nat) : Option Nat := (heldCsrs.find? fun e => decide (e.1 = n)).map (·.2)

/-- The bits of v under a mask, the others as they were. -/
def maskIn (old v mask : Nat) : Nat := (v &&& mask) ||| (old - (old &&& mask))

/-! Status registers. -/

/-- What a write of mstatus, sstatus or vsstatus, and hstatus changes. -/
def mstatusMask : Nat := 0xC0007E79AA
def sstatusMask : Nat := 0xC6122
def hstatusMask : Nat := 0x73F3C0

/-- Dirty floating-point state shows at bit 63; registers are 64 bits wide in every mode. -/
def statusRead (st : Nat) (widths : Nat) : Nat := st + widths + (if bitsOf st 13 2 = 3 then 2 ^ 63 else 0)

def uxl : Nat := 2 * 2 ^ 32
def sxl : Nat := 2 * 2 ^ 34

/-- misa: 64 bits wide, A, C, D, F, H, I, M, S, U. -/
def misaValue : Nat := 2 * 2 ^ 62 + 0x1411AD

/-! Reading. -/

/-- R296: 2.0 GHz, so two clocks a tick. -/
def Hart.cycles (x : Hart) (tick : Nat) : Nat := (2 * tick + x.csr? 0xB00) % 2 ^ 64

/-- R296: time reads %tick, to a guest with htimedelta added. -/
def Hart.time (x : Hart) (tick : Nat) : Nat := if x.mode.guest then (tick + x.csr? csrHtimedelta) % 2 ^ 64 else tick

/-- Interrupts that a register shows, those of VS under their numbers there. -/
def Hart.vsShow (x : Hart) (bits : Nat) : Nat := (bits &&& x.csr? csrHideleg &&& guestIrqs) / 2

def topiOf : Option Nat → Nat
  | some i => i * 2 ^ 16 + 1
  | none => 0

def topeiOf : Option Nat → Nat
  | some e => e * 2 ^ 16 + e
  | none => 0

/-- The file that an indirect or top register of a mode names. -/
def Hart.fileOf (x : Hart) (n : Nat) : Option Nat :=
  match n / 256 % 4 with
  | 3 => some fileM
  | 2 => if x.vgein = 0 then none else some x.vgein
  | _ => some 0

/-- Registers of performance counters and of memory protection, of which there are none: they read 0. -/
def zeroCsr (n : Nat) : Bool :=
  decide (0xB03 ≤ n ∧ n < 0xB20) || decide (0x323 ≤ n ∧ n < 0x340) || (decide (0x3A0 ≤ n ∧ n < 0x3B0) && decide (n % 2 = 0)) ||
  decide (0x3B0 ≤ n ∧ n < 0x3F0) || [0x320, 0xF11, 0xF12, 0xF13, 0xF15, 0x308, 0x608].contains n

/-- A register as it reads, none where there is none. -/
def Hart.csrRead (x : Hart) (tick hart n : Nat) : Option Nat :=
  let mie := x.csr? csrMie
  match n with
  | 0x001 => some (x.csr? csrFcsr % 32)
  | 0x002 => some (x.csr? csrFcsr / 32)
  | 0x003 => some (x.csr? csrFcsr)
  | 0x100 => some (statusRead (x.csr? csrMstatus &&& sstatusMask) uxl)
  | 0x104 => some (mie &&& x.mideleg &&& superIrqs)
  | 0x144 => some (x.mip &&& x.mideleg &&& superIrqs)
  | 0x151 | 0x251 | 0x351 =>
    let sel := x.csr? (n - 1)
    if n ≠ 0x251 ∧ 0x30 ≤ sel ∧ sel < 0x40 ∧ sel % 2 = 0 then some 0
    else (x.fileOf n).bind fun f => x.fileRead f sel
  | 0x15C | 0x25C | 0x35C => (x.fileOf n).map fun f => topeiOf (x.topEiid f)
  | 0xFB0 => some (topiOf (topIrq (x.irqs .m)))
  | 0xDB0 => some (topiOf (topIrq (x.irqs .hs)))
  | 0xEB0 => some (topiOf x.topVs)
  | 0x180 | 0x280 | 0x680 => some (x.csr? n)
  | 0x200 => some (statusRead (x.csr? csrVsstatus) uxl)
  | 0x204 => some (x.vsShow mie)
  | 0x244 => some (x.vsShow x.mip)
  | 0x300 => some (statusRead (x.csr? csrMstatus) (uxl + sxl))
  | 0x301 => some misaValue
  | 0x303 => some x.mideleg
  | 0x309 => some (x.csr? csrMip &&& superIrqs)
  | 0x344 => some x.mip
  | 0x600 => some (x.csr? csrHstatus + uxl)
  | 0x604 => some (mie &&& 0x1444)
  | 0x60A => some (x.csr? csrHenvcfg &&& (envMask + (if x.stce then 2 ^ 63 else 0)))
  | 0x644 => some (x.mip &&& 0x1444)
  | 0xB00 | 0xC00 => some (x.cycles tick)
  | 0xC01 => some (x.time tick)
  | 0xB02 | 0xC02 => some (x.csr? csrMinstret)
  | 0xE12 => some x.hgeip
  | 0xF14 => some hart
  | _ => if (heldMask n).isSome then some (x.csr? n) else if zeroCsr n then some 0 else none

/-! Writing. -/

/-- R296: satp and vsatp take Bare, Sv39, Sv48, Sv57 and MODE 14, hgatp the x4 formats; another MODE writes as Bare. -/
def atpModes : List Nat := [0, 8, 9, 10, 14]

def atpValue (hgatp : Bool) (v : Nat) : Nat :=
  let v1 := if atpModes.contains (bitsOf v 60 4) then v else putBits v 60 4 0
  -- VMIDLEN is 14, and the root of an x4 format is aligned to 16 KiB
  if !hgatp then v1
  else
    let v2 := putBits v1 58 2 0
    if bitsOf v2 60 4 = 14 then v2 else putBits v2 0 2 0

/-- A status register keeps the mode it holds where the one written is none. -/
def mstatusWrite (old v : Nat) : Nat :=
  let new := maskIn old v mstatusMask
  if bitsOf new 11 2 = 2 then putBits new 11 2 (bitsOf old 11 2) else new

/-- A write of a register, as it stands for another. -/
def Hart.setBits (x : Hart) (n mask v : Nat) : Hart := x.setCsr n (maskIn (x.csr? n) v mask)

/-- The bit of mip and mvip that software drives, STIP only where no comparator does. -/
def Hart.mipMask (x : Hart) : Nat := if x.stce then 0x202 else superIrqs

def Hart.csrWrite (x : Hart) (tick n v : Nat) : Hart :=
  let fcsr := fun (y : Nat) => (x.setCsr csrFcsr y).dirtyF x.mode.guest
  match n with
  | 0x001 => fcsr (x.csr? csrFcsr / 32 * 32 + v % 32)
  | 0x002 => fcsr (v % 8 * 32 + x.csr? csrFcsr % 32)
  | 0x003 => fcsr (v % 256)
  | 0x100 => x.setBits csrMstatus sstatusMask v
  | 0x104 => x.setBits csrMie (x.mideleg &&& superIrqs) v
  | 0x144 => x.setBits csrMip (x.mideleg &&& 2) v
  | 0x151 | 0x251 | 0x351 => match x.fileOf n with
    | some f => x.fileWrite f (x.csr? (n - 1)) v
    | none => x
  | 0x15C | 0x25C | 0x35C => match x.fileOf n with
    | some f => match x.topEiid f with
      | some e => x.setPend f (kdel e (x.pend f))
      | none => x
    | none => x
  | 0x180 | 0x280 => x.setCsr n (atpValue false v)
  | 0x680 => x.setCsr n (atpValue true v)
  | 0x200 => x.setBits csrVsstatus sstatusMask v
  | 0x204 => x.setBits csrMie (x.csr? csrHideleg &&& guestIrqs) (2 * v)
  | 0x244 => x.setBits csrHvip (x.csr? csrHideleg &&& 4) (2 * v)
  | 0x300 => x.setCsr csrMstatus (mstatusWrite (x.csr? csrMstatus) v)
  | 0x303 => x.setCsr csrMideleg (v &&& superIrqs)
  | 0x309 => x.setBits csrMip x.mipMask v
  | 0x344 => (x.setBits csrMip x.mipMask v).setBits csrHvip 4 v
  | 0x600 =>
    let y := maskIn (x.csr? csrHstatus) v hstatusMask
    x.setCsr csrHstatus (if 8 ≤ bitsOf y 12 6 then putBits y 12 6 x.vgein else y)
  | 0x604 => x.setBits csrMie 0x1444 v
  | 0x60A => x.setBits csrHenvcfg (envMask + (if x.stce then 2 ^ 63 else 0)) v
  | 0x644 => x.setBits csrHvip 4 v
  | 0xB00 => x.setCsr n ((v + 2 ^ 64 - 2 * tick % 2 ^ 64) % 2 ^ 64)
  | 0xB02 => x.setCsr n v
  | _ => match heldMask n with
    | some m => x.setBits n m v
    | none => x

/-! Access (RISC-V privileged architecture). -/

/-- The register that a supervisor's number names in VS. -/
def Hart.csrNumber (x : Hart) (n : Nat) : Nat :=
  if x.mode = .vs ∧
    [0x100, 0x104, 0x105, 0x140, 0x141, 0x142, 0x143, 0x144, 0x14D, 0x150, 0x151, 0x15C, 0x180, 0xDB0].contains n
  then n + 0x100 else n

/-- The first of the exceptions that hold. -/
def firstFault (l : List (Bool × Nat)) : Option Nat := (l.find? (·.1)).map (·.2)

/-- The exception that an access to a register raises before it reads or writes it. -/
def Hart.csrFault (x : Hart) (n : Nat) (write : Bool) : Option Nat :=
  let il := illegalInstruction
  let vi := virtualInstruction
  let level := n / 256 % 4
  let vs := decide (x.mode = .vs)
  let vu := decide (x.mode = .vu)
  let lower := decide (x.mode ≠ .m)
  let on := fun (r i : Nat) => bitN (x.csr? r) i
  let counter := decide (0xC00 ≤ n ∧ n ≤ 0xC02)
  let i := n % 4
  let cmp := decide (n = csrStimecmp ∨ n = csrVstimecmp)
  firstFault [
    (write && decide (n / 1024 = 3), il),
    (decide (level = 3) && lower, il),
    (decide (level = 2) && x.mode.guest, vi),
    (decide (level = 2) && decide (x.mode = .u), il),
    (decide (level = 1) && decide (x.mode = .u), il),
    (decide (level = 1) && vu, vi),
    (decide (1 ≤ n ∧ n ≤ 3) && (decide (bitsOf (x.csr? csrMstatus) 13 2 = 0) ||
      (x.mode.guest && decide (bitsOf (x.csr? csrVsstatus) 13 2 = 0))), il),
    (decide (n = csrSatp ∨ n = csrHgatp) && decide (x.mode = .hs) && on csrMstatus 20, il),
    (decide (n = csrSatp) && vs && on csrHstatus 20, vi),
    (counter && lower && !on 0x306 i, il),
    (counter && decide (x.mode = .u) && !on 0x106 i, il),
    (counter && x.mode.guest && !on 0x606 i, vi),
    (counter && vu && !on 0x106 i, vi),
    (cmp && lower && (!on 0x306 1 || !x.stce), il),
    (cmp && vs && (!on 0x606 1 || !x.vstce), vi),
    (decide (n = 0x104 ∨ n = 0x144) && vs && on csrHvictl 30, vi)]

/-- Registers whose writes move a comparator. -/
def timerCsrs : List Nat := [csrStimecmp, csrVstimecmp, csrHtimedelta, csrMenvcfg, csrHenvcfg]

/-- R296: the comparators are looked at now, and again when their time comes. -/
def State.armTimers (s : State) (h : Nat) : State :=
  let x := s.hart h
  let virt := (x.csr? csrVstimecmp + 2 ^ 64 - x.csr? csrHtimedelta % 2 ^ 64) % 2 ^ 64
  let s1 := ((s.post (.sstcTimer h false)).post (.sstcTimer h true))
  let due := fun (s : State) (t : Nat) (e : Ev) => if s.tick < t then s.at t e else s
  due (due s1 (x.csr? csrStimecmp) (.sstcTimer h false)) virt (.sstcTimer h true)

/-- A Zicsr instruction: f3 as encoded, 1 and 5 write, 2 and 6 set, 3 and 7 clear; src: the register or the immediate's
field; v: its value. -/
def State.csrOp (s : State) (h n f3 rd src v : Nat) : State :=
  let x := s.hart h
  let write := decide (f3 % 4 = 1 ∨ src ≠ 0)
  match x.csrFault n write with
  | some c => s.hartTrap h ⟨c, 0, 0⟩
  | none =>
    let m := x.csrNumber n
    match x.csrRead s.tick h m with
    | none => s.hartTrap h ⟨if x.mode.guest && decide (m ≠ n) then virtualInstruction else illegalInstruction, 0, 0⟩
    | some old =>
      -- SEIP as software left it, not the file's signal, is what bits are set in or cleared from
      let base := if m = 0x344 then x.csr? csrMip &&& 0x200 ||| (old - (old &&& 0x200)) else old
      let new := match f3 % 4 with
        | 2 => base ||| v
        | 3 => base - (base &&& v)
        | _ => v
      let x1 := if write then x.next.csrWrite s.tick m new else x.next
      let s1 := s.setHart h (x1.setReg rd (BitVec.ofNat 64 old))
      if write && timerCsrs.contains m then s1.armTimers h else s1

end Sys2Proof.Machine
end

