-- ==== Sys2Proof/Machine/HartFloat.lean ====
section
/-! DEFINITION. Harts: the F and D operations (R296). They follow RISC-V (log entry 23), over the exact values and the one
rounding of the module's other cores. -/

namespace Sys2Proof.Machine

/-! Formats and flags. -/

def flagNX : Nat := 1
def flagUF : Nat := 2
def flagOF : Nat := 4
def flagDZ : Nat := 8
def flagNV : Nat := 16

/-- The format with the same precision and an exponent without bounds that matter. -/
def Fmt.wide (f : Fmt) : Fmt := { f with eb := 16, bias := 2 ^ 15 - 1 }

def Fmt.quietBit (f : Fmt) : Nat := f.mb - 1

/-- A NaN that signals. -/
def Fmt.signals (f : Fmt) (x : Nat) : Bool := (f.decode x).isNan && !bitN x f.quietBit

/-- A rounded value, and the flags that its rounding raises; a result is tiny after rounding. -/
def Fmt.roundFlags (f : Fmt) (rm : Rounding) (v : FVal) : Nat × Nat :=
  let r := f.round rm false false 0 v
  match v with
  | .fin _ m _ =>
    if m = 0 then (r, 0)
    else
      let exact := decide ((f.decode r).rel v = .eq)
      let w := f.wide.decode (f.wide.round rm false false 0 v)
      let big := decide (w.abs.rel (f.decode f.maxBits) = .gt)
      let tiny := decide (w.abs.rel (.fin false 1 (1 - (f.bias : Int))) = .lt)
      (r, if big then flagOF + flagNX else if exact then 0 else if tiny then flagUF + flagNX else flagNX)
  | _ => (r, 0)

/-- A result that is NaN where no operand is one is of an invalid operation, as is one of a NaN that signals. -/
def Fmt.result (f : Fmt) (rm : Rounding) (xs : List Nat) (v : FVal) : Nat × Nat :=
  let r := f.roundFlags rm v
  let bad := xs.any f.signals || (v.isNan && !(xs.any fun x => (f.decode x).isNan))
  (r.1, if bad then flagNV else r.2)

/-- The rounding mode of an instruction, none where it is reserved. -/
def rvRound (rm frm : Nat) : Option Rounding :=
  match if rm = 7 then frm else rm with
  | 0 => some .rne
  | 1 => some .rtz
  | 2 => some .rdn
  | 3 => some .rup
  | 4 => some .rna
  | _ => none

/-! Registers. -/

def Hart.fbits (x : Hart) (r : Nat) : Nat := (sget 0 r x.f).toNat

/-- A value of a register: a word that is not boxed in ones reads as NaN. -/
def Hart.fread (x : Hart) (dbl : Bool) (r : Nat) : Nat :=
  let v := x.fbits r
  if dbl then v else if v / 2 ^ 32 = 2 ^ 32 - 1 then v % 2 ^ 32 else fp32.nanBits

def boxed (dbl : Bool) (v : Nat) : Nat := if dbl then v else (2 ^ 32 - 1) * 2 ^ 32 + v % 2 ^ 32

def Hart.raiseFlags (x : Hart) (fl : Nat) : Hart :=
  if fl = 0 then x else (x.setCsr csrFcsr (x.csr? csrFcsr ||| fl)).dirtyF x.mode.guest

def Hart.fput (x : Hart) (dbl : Bool) (r : Nat) (v : Nat × Nat) : Hart :=
  (x.putReg (32 + r) (BitVec.ofNat 64 (boxed dbl v.1))).raiseFlags v.2

/-- An x register takes a result of n bits, sign-extended. -/
def Hart.xput (x : Hart) (r n : Nat) (v : Nat × Nat) : Hart :=
  (x.setReg r (BitVec.ofNat 64 (wrap 64 (sval n v.1)))).raiseFlags v.2

def rvFmt (dbl : Bool) : Fmt := if dbl then fp64 else fp32

/-! Operations. -/

def FVal.isFinite : FVal → Bool
  | .fin _ _ _ => true
  | _ => false

/-- A division of a finite number other than 0 by 0. -/
def divZero (a b : FVal) : Bool := a.isFinite && !a.isZero && b.isZero

/-- add, sub, mul, div and sqrt, by the number in bits 31 to 27. -/
def rvArith (f : Fmt) (rm : Rounding) (k a b : Nat) : Option (Nat × Nat) :=
  let x := f.decode a
  let y := f.decode b
  match k with
  | 0 => some (f.result rm [a, b] (x.add rm y))
  | 1 => some (f.result rm [a, b] (x.add rm (if y.isNan then y else y.negate)))
  | 2 => some (f.result rm [a, b] (x.mul y))
  | 3 =>
    let r := f.result rm [a, b] (x.div y)
    some (if divZero x y then (r.1, flagDZ) else r)
  | 11 => some (f.result rm [a] x.sqrt)
  | _ => none

/-- Fused multiply and add: np and nc negate the product and the addend. An infinity times 0 is invalid beside any
addend. -/
def rvFma (f : Fmt) (rm : Rounding) (np nc : Bool) (a b c : Nat) : Nat × Nat :=
  let p := (f.decode a).mul (f.decode b)
  let z := f.decode c
  let r := f.result rm [a, b, c] ((if np then p.negate else p).add rm (if nc then z.negate else z))
  let inv := p.isNan && !(f.decode a).isNan && !(f.decode b).isNan
  if inv then (r.1, flagNV) else r

/-- fsgnj, fsgnjn and fsgnjx. -/
def rvSign (f : Fmt) (k a b : Nat) : Option Nat :=
  let sa := bitN a (f.width - 1)
  let sb := bitN b (f.width - 1)
  let put := fun (s : Bool) => some (a % 2 ^ (f.width - 1) + f.signBit s)
  match k with
  | 0 => put sb
  | 1 => put (!sb)
  | 2 => put (sa != sb)
  | _ => none

/-- fmin and fmax: of one NaN the other operand, of two the canonical one. -/
def rvMinMax (f : Fmt) (k a b : Nat) : Option (Nat × Nat) :=
  let x := f.decode a
  let y := f.decode b
  let fl := if f.signals a || f.signals b then flagNV else 0
  let pick := fun (lo : Bool) =>
    if x.isNan && y.isNan then f.nanBits else if x.isNan then b else if y.isNan then a
    else if (if lo then x.before y else y.before x) then a else b
  match k with
  | 0 => some (pick true, fl)
  | 1 => some (pick false, fl)
  | _ => none

/-- fle, flt and feq; only feq is quiet. -/
def rvCompare (f : Fmt) (k a b : Nat) : Option (Nat × Nat) :=
  let r := (f.decode a).rel (f.decode b)
  let nan := decide (r = .un)
  let bit := fun (t : Bool) => if t then 1 else 0
  let loud := if nan then flagNV else 0
  match k with
  | 0 => some (bit (decide (r = .lt) || decide (r = .eq)), loud)
  | 1 => some (bit (decide (r = .lt)), loud)
  | 2 => some (bit (decide (r = .eq)), if f.signals a || f.signals b then flagNV else 0)
  | _ => none

/-- fclass. -/
def rvClass (f : Fmt) (a : Nat) : Nat :=
  match f.decode a with
  | .nan => if f.signals a then 2 ^ 8 else 2 ^ 9
  | .inf n => if n then 1 else 2 ^ 7
  | .fin n m _ =>
    if m = 0 then (if n then 2 ^ 3 else 2 ^ 4)
    else if m < 2 ^ f.mb then (if n then 2 ^ 2 else 2 ^ 5)
    else if n then 2 else 2 ^ 6

/-- fcvt to an integer of n bits: NaN gives the greatest, and what does not fit the nearest. -/
def rvToInt (f : Fmt) (rm : Rounding) (sg : Bool) (n a : Nat) : Nat × Nat :=
  let v := f.decode a
  let top : Int := if sg then (2 ^ (n - 1) : Nat) - 1 else (2 ^ n : Nat) - 1
  let bottom : Int := if sg then -(2 ^ (n - 1) : Nat) else 0
  match v with
  | .nan => (wrap n top, flagNV)
  | .inf neg => (wrap n (if neg then bottom else top), flagNV)
  | .fin neg m e =>
    let big := decide (m ≠ 0) && decide (70 < (Nat.log2 m : Int) + e)
    let z : Int := match v.integral rm with
      | .fin s k q => if m = 0 then 0 else scaled s k q 0
      | _ => 0
    if big then (wrap n (if neg then bottom else top), flagNV)
    else if z < bottom then (wrap n bottom, flagNV)
    else if top < z then (wrap n top, flagNV)
    else (wrap n z, if v.rel (FVal.ofInteger z) = .eq then 0 else flagNX)

/-- An integer of n bits. -/
def rvInt (sg : Bool) (n v : Nat) : FVal := FVal.ofInteger (if sg then sval n v else (uval n v : Nat))

/-! The instructions of opcode 0x53 and of the four fused ones. -/

/-- Those of opcode 0x53, none for a reserved encoding: dbl is the format of the result, k bits 31 to 27. -/
def Hart.fop (x : Hart) (k fmt rs2 f3 rd rs1 : Nat) : Option Hart :=
  if 2 ≤ fmt then none
  else
    let dbl := decide (fmt = 1)
    let f := rvFmt dbl
    let a := x.fread dbl rs1
    let b := x.fread dbl rs2
    let rm := rvRound f3 (x.csr? csrFcsr / 32)
    let int := (x.reg (Fin.ofNat 32 rs1)).toNat
    let bits := if rs2 < 2 then 32 else 64
    let sg := decide (rs2 % 2 = 0)
    match k with
    | 0 | 1 | 2 | 3 => rm.bind fun r => (rvArith f r k a b).map fun v => x.fput dbl rd v
    | 11 => if rs2 = 0 then rm.bind fun r => (rvArith f r k a b).map fun v => x.fput dbl rd v else none
    | 4 => (rvSign f f3 a b).map fun v => x.fput dbl rd (v, 0)
    | 5 => (rvMinMax f f3 a b).map fun v => x.fput dbl rd v
    | 20 => (rvCompare f f3 a b).map fun v => x.xput rd 64 v
    | 8 =>
      -- a conversion between the formats; rs2 names the source's
      if rs2 = 1 - fmt then rm.map fun r =>
        let g := rvFmt (!dbl)
        let y := x.fread (!dbl) rs1
        let q := f.roundFlags r (g.decode y)
        x.fput dbl rd (q.1, if g.signals y then flagNV else q.2)
      else none
    | 24 => if rs2 < 4 then rm.map fun r => x.xput rd bits (rvToInt f r sg bits a) else none
    | 26 => if rs2 < 4 then rm.map fun r => x.fput dbl rd (f.roundFlags r (rvInt sg bits int)) else none
    | 28 =>
      if rs2 ≠ 0 then none
      else if f3 = 1 then some (x.xput rd 64 (rvClass f a, 0))
      else if f3 = 0 then some (x.xput rd f.width (x.fbits rs1 % 2 ^ f.width, 0))
      else none
    | 30 => if rs2 = 0 ∧ f3 = 0 then some (x.fput dbl rd (int % 2 ^ f.width, 0)) else none
    | _ => none

/-- fmadd, fmsub, fnmsub and fnmadd, by op 0 to 3. -/
def Hart.fma (x : Hart) (op fmt rm rd rs1 rs2 rs3 : Nat) : Option Hart :=
  if 2 ≤ fmt then none
  else
    let dbl := decide (fmt = 1)
    (rvRound rm (x.csr? csrFcsr / 32)).map fun r =>
      x.fput dbl rd (rvFma (rvFmt dbl) r (decide (2 ≤ op)) (decide (op = 1 ∨ op = 3)) (x.fread dbl rs1) (x.fread dbl rs2)
        (x.fread dbl rs3))

end Sys2Proof.Machine
end

