-- ==== Sys2Proof/Machine/HartIsa.lean ====
section
/-! DEFINITION. Harts: instruction fetch (R280, R297, R304), the instructions of RV64GC with H (R296), and how a hart runs
(R407). What an instruction does follows RISC-V, which the spec names (PRESUMED, log entry 127). -/

namespace Sys2Proof.Machine

/-! Fetch. -/

/-- R297: 64 KiB of lines; the lowest line held makes room (PRESUMED, log entry 120). -/
def Hart.fillCode (x : Hart) (line : Nat) (v : BitVec 512) : Hart :=
  let kept := if (sfind line x.icache).isSome || decide (x.icache.length < 1024) then x.icache else x.icache.drop 1
  { x with icache := sset line v kept }

/-- R280: a line of code from the RDC or from its home, which refuses it while it is PINNED or frozen. -/
def State.fillCode (s : State) (h va line tag : Nat) : Except HExc (BitVec 512) × State :=
  if (sfind line s.homes.pins).isSome || s.isFrozen line then (.error ⟨hartAgain, line, 0⟩, s)
  else
    let vf := (s.hartRegime h ((s.hart h).effective .fetch)).chargeVf
    let s1 := if (s.rdcCopy (h / 8) line).isSome then s else s.walked (s.hartPart h) vf [(line, false)]
    if s1.homes.badRead line tag then (.error ⟨hwError, va, 0⟩, s1)
    else
      let v := BitVec.ofNat 512 (memVal s1.homes.mem (64 * line) 64)
      (.ok v, s1.setHart h ((s1.hart h).fillCode line v))

/-- A line of code; where the line held differs from memory it is either (log entry 5), until a FENCE.I (R298). -/
def State.codeLine (s : State) (h va line tag : Nat) : Except HExc (BitVec 512) × State :=
  match sfind line (s.hart h).icache with
  | none => s.fillCode h va line tag
  | some v =>
    if v = BitVec.ofNat 512 (memVal s.homes.mem (64 * line) 64) && !s.homes.badRead line tag then (.ok v, s)
    else
      let s1 := { s with fresh := s.fresh + 1 }
      if Config.fetchNew s.fresh then s1.fillCode h va line tag else (.ok v, s1)

/-- Two bytes of code. -/
def State.parcel (s : State) (h va : Nat) : Except HExc Nat × State :=
  match s.hartXlate h .fetch va 2 with
  | (.error e, s1) => (.error e, s1)
  | (.ok (.mem d tag false), s1) => match s1.codeLine h va (d / 64) tag with
    | (.error e, s2) => (.error e, s2)
    | (.ok v, s2) => (.ok (bitsOf v.toNat (8 * (d % 64)) 16), s2)
  | (.ok _, s1) => (.error ⟨1, va, 0⟩, s1)

/-! Encodings. -/

/-- A field [hi : lo] of c, placed at a bit of an immediate. -/
def putField (c hi lo pos : Nat) : Nat := bitsOf c lo (hi - lo + 1) * 2 ^ pos

def wordI (op f3 rd rs1 imm : Nat) : Nat := op + 2 ^ 7 * rd + 2 ^ 12 * f3 + 2 ^ 15 * rs1 + 2 ^ 20 * (imm % 2 ^ 12)
def wordR (op f3 f7 rd rs1 rs2 : Nat) : Nat := op + 2 ^ 7 * rd + 2 ^ 12 * f3 + 2 ^ 15 * rs1 + 2 ^ 20 * rs2 + 2 ^ 25 * f7
def wordS (op f3 rs1 rs2 imm : Nat) : Nat :=
  op + 2 ^ 7 * (imm % 32) + 2 ^ 12 * f3 + 2 ^ 15 * rs1 + 2 ^ 20 * rs2 + 2 ^ 25 * (imm / 32 % 128)
def wordB (f3 rs1 imm : Nat) : Nat :=
  0x63 + 2 ^ 7 * bitsOf imm 11 1 + 2 ^ 8 * bitsOf imm 1 4 + 2 ^ 12 * f3 + 2 ^ 15 * rs1 + 2 ^ 25 * bitsOf imm 5 6 +
    2 ^ 31 * bitsOf imm 12 1
def wordJ (rd imm : Nat) : Nat :=
  0x6F + 2 ^ 7 * rd + 2 ^ 12 * bitsOf imm 12 8 + 2 ^ 20 * bitsOf imm 11 1 + 2 ^ 21 * bitsOf imm 1 10 + 2 ^ 31 * bitsOf imm 20 1

/-- The pattern of w bits of an immediate of n bits. -/
def sextTo (w n v : Nat) : Nat := wrap w (sval n v)

/-- Quadrant 0: loads and stores of the eight popular registers. -/
def expand0 (c : Nat) : Option Nat :=
  let rd := 8 + bitsOf c 2 3
  let rs1 := 8 + bitsOf c 7 3
  let u4 := putField c 12 10 3 + putField c 6 6 2 + putField c 5 5 6
  let u8 := putField c 12 10 3 + putField c 6 5 6
  let sp := putField c 12 11 4 + putField c 10 7 6 + putField c 6 6 2 + putField c 5 5 3
  match bitsOf c 13 3 with
  | 0 => if sp = 0 then none else some (wordI 0x13 0 rd 2 sp)
  | 1 => some (wordI 0x07 3 rd rs1 u8)
  | 2 => some (wordI 0x03 2 rd rs1 u4)
  | 3 => some (wordI 0x03 3 rd rs1 u8)
  | 5 => some (wordS 0x27 3 rs1 rd u8)
  | 6 => some (wordS 0x23 2 rs1 rd u4)
  | 7 => some (wordS 0x23 3 rs1 rd u8)
  | _ => none

/-- Quadrant 1: immediates, arithmetic of the popular registers, and branches. -/
def expand1 (c : Nat) : Option Nat :=
  let r := bitsOf c 7 5
  let p := 8 + bitsOf c 7 3
  let q := 8 + bitsOf c 2 3
  let u6 := putField c 12 12 5 + putField c 6 2 0
  let i6 := sextTo 12 6 u6
  let sp := putField c 12 12 9 + putField c 6 6 4 + putField c 5 5 6 + putField c 4 3 7 + putField c 2 2 5
  let j := putField c 12 12 11 + putField c 11 11 4 + putField c 10 9 8 + putField c 8 8 10 + putField c 7 7 6 +
    putField c 6 6 7 + putField c 5 3 1 + putField c 2 2 5
  let b := putField c 12 12 8 + putField c 11 10 3 + putField c 6 5 6 + putField c 4 3 1 + putField c 2 2 5
  match bitsOf c 13 3 with
  | 0 => some (wordI 0x13 0 r r i6)
  | 1 => if r = 0 then none else some (wordI 0x1B 0 r r i6)
  | 2 => some (wordI 0x13 0 r 0 i6)
  | 3 =>
    if u6 = 0 then none
    else if r = 2 then some (wordI 0x13 0 2 2 (sextTo 12 10 sp))
    else some (0x37 + 2 ^ 7 * r + 2 ^ 12 * sextTo 20 6 u6)
  | 4 => match bitsOf c 10 2, bitsOf c 12 1, bitsOf c 5 2 with
    | 0, _, _ => some (wordI 0x13 5 p p u6)
    | 1, _, _ => some (wordI 0x13 5 p p (0x400 + u6))
    | 2, _, _ => some (wordI 0x13 7 p p i6)
    | _, 0, 0 => some (wordR 0x33 0 0x20 p p q)
    | _, 0, 1 => some (wordR 0x33 4 0 p p q)
    | _, 0, 2 => some (wordR 0x33 6 0 p p q)
    | _, 0, _ => some (wordR 0x33 7 0 p p q)
    | _, _, 0 => some (wordR 0x3B 0 0x20 p p q)
    | _, _, 1 => some (wordR 0x3B 0 0 p p q)
    | _, _, _ => none
  | 5 => some (wordJ 0 (sextTo 21 12 j))
  | 6 => some (wordB 0 p (sextTo 13 9 b))
  | _ => some (wordB 1 p (sextTo 13 9 b))

/-- Quadrant 2: loads and stores by the stack pointer, moves and jumps. -/
def expand2 (c : Nat) : Option Nat :=
  let r := bitsOf c 7 5
  let q := bitsOf c 2 5
  let u6 := putField c 12 12 5 + putField c 6 2 0
  let l8 := putField c 12 12 5 + putField c 6 5 3 + putField c 4 2 6
  let l4 := putField c 12 12 5 + putField c 6 4 2 + putField c 3 2 6
  let s8 := putField c 12 10 3 + putField c 9 7 6
  let s4 := putField c 12 9 2 + putField c 8 7 6
  match bitsOf c 13 3 with
  | 0 => some (wordI 0x13 1 r r u6)
  | 1 => some (wordI 0x07 3 r 2 l8)
  | 2 => if r = 0 then none else some (wordI 0x03 2 r 2 l4)
  | 3 => if r = 0 then none else some (wordI 0x03 3 r 2 l8)
  | 4 =>
    let hi := decide (bitsOf c 12 1 = 1)
    if q ≠ 0 then some (wordR 0x33 0 0 r (if hi then r else 0) q)
    else if hi && decide (r = 0) then some 0x100073
    else if r = 0 then none
    else some (wordI 0x67 0 (if hi then 1 else 0) r 0)
  | 5 => some (wordS 0x27 3 2 q s8)
  | 6 => some (wordS 0x23 2 2 q s4)
  | _ => some (wordS 0x23 3 2 q s8)

/-- The instruction of four bytes that one of two stands for (C), none where it is reserved. -/
def rvExpand (c : Nat) : Option Nat :=
  match c % 4 with
  | 0 => expand0 c
  | 1 => expand1 c
  | _ => expand2 c

/-! Integer operations (I, M). -/

def sext32 (v : W64) : W64 := BitVec.ofNat 64 (wrap 64 (sval 32 v.toNat))

/-- The ten operations of f3, alt for sub and sra, on n bits. -/
def rvAlu (n f3 : Nat) (alt : Bool) (a b : Nat) : Nat :=
  let sh := b % n
  let x := uval n a
  match f3 with
  | 0 => if alt then x + (2 ^ n - uval n b) else x + b
  | 1 => x * 2 ^ sh
  | 2 => if sval n a < sval n b then 1 else 0
  | 3 => if uval n a < uval n b then 1 else 0
  | 4 => x ^^^ uval n b
  | 5 => if alt then wrap n (sval n a / (2 ^ sh : Nat)) else x / 2 ^ sh
  | 6 => x ||| uval n b
  | _ => x &&& uval n b

/-- mul, mulh, mulhsu, mulhu, div, divu, rem, remu; a division by 0 gives ones and the dividend. -/
def rvMul (n f3 a b : Nat) : Nat :=
  let sa := sval n a
  let sb := sval n b
  let ua := uval n a
  let ub := uval n b
  match f3 with
  | 0 => ua * ub
  | 1 => wrap n (sa * sb / (2 ^ n : Nat))
  | 2 => wrap n (sa * (ub : Int) / (2 ^ n : Nat))
  | 3 => ua * ub / 2 ^ n
  | 4 => if ub = 0 then 2 ^ n - 1 else wrap n (sa.tdiv sb)
  | 5 => if ub = 0 then 2 ^ n - 1 else ua / ub
  | 6 => if ub = 0 then ua else wrap n (sa.tmod sb)
  | _ => if ub = 0 then ua else ua % ub

def rvTaken (f3 : Nat) (a b : W64) : Option Bool :=
  match f3 with
  | 0 => some (a = b)
  | 1 => some (a ≠ b)
  | 4 => some (a.slt b)
  | 5 => some (!a.slt b)
  | 6 => some (a.ult b)
  | 7 => some (!a.ult b)
  | _ => none

/-- A hart with its instruction done and a value in rd. -/
def Hart.done (x : Hart) (rd : Nat) (v : W64) : Hart := (x.setReg rd v).next

/-- Register and immediate operations: 0x13, 0x1B, 0x33, 0x3B; none for a reserved encoding. -/
def Hart.rvInteger (x : Hart) (w : Nat) : Option Hart :=
  let op := bitsOf w 0 7
  let f3 := bitsOf w 12 3
  let f7 := bitsOf w 25 7
  let a := (x.reg (Fin.ofNat 32 (bitsOf w 15 5))).toNat
  let b := (x.reg (Fin.ofNat 32 (bitsOf w 20 5))).toNat
  let imm := sextTo 64 12 (bitsOf w 20 12)
  let n := if bitN op 3 then 32 else 64
  let put := fun (v : Nat) => some (x.done (bitsOf w 7 5) (BitVec.ofNat 64 (sextTo 64 n v)))
  let word := decide (n = 32)
  let narrow := !word || decide (f3 = 0 ∨ f3 = 1 ∨ f3 = 5)
  -- the bits above the amount of a shift by an immediate
  let top := if word then f7 else f7 / 2 * 2
  if !bitN op 5 then
    if !narrow then none
    else if f3 = 1 then (if top = 0 then put (rvAlu n 1 false a imm) else none)
    else if f3 = 5 then (if top = 0 ∨ top = 0x20 then put (rvAlu n 5 (decide (top = 0x20)) a imm) else none)
    else put (rvAlu n f3 false a imm)
  else if f7 = 0 then (if narrow then put (rvAlu n f3 false a b) else none)
  else if f7 = 0x20 then (if f3 = 0 ∨ f3 = 5 then put (rvAlu n f3 true a b) else none)
  else if f7 = 1 then (if word && decide (1 ≤ f3 ∧ f3 ≤ 3) then none else put (rvMul n f3 a b))
  else none

/-! Control (I). -/

/-- lui, auipc, jal, jalr and the branches; none for a reserved encoding. -/
def Hart.rvControl (x : Hart) (w : Nat) : Option Hart :=
  let rd := bitsOf w 7 5
  let rs1 := x.reg (Fin.ofNat 32 (bitsOf w 15 5))
  let rs2 := x.reg (Fin.ofNat 32 (bitsOf w 20 5))
  let upper := BitVec.ofNat 64 (sextTo 64 32 (bitsOf w 12 20 * 2 ^ 12))
  let j := bitsOf w 31 1 * 2 ^ 20 + bitsOf w 12 8 * 2 ^ 12 + bitsOf w 20 1 * 2 ^ 11 + bitsOf w 21 10 * 2
  let b := bitsOf w 31 1 * 2 ^ 12 + bitsOf w 7 1 * 2 ^ 11 + bitsOf w 25 6 * 2 ^ 5 + bitsOf w 8 4 * 2
  match bitsOf w 0 7 with
  | 0x37 => some (x.done rd upper)
  | 0x17 => some (x.done rd (x.pc + upper))
  | 0x6F => some ((x.setReg rd x.after).goTo (x.pc + BitVec.ofNat 64 (sextTo 64 21 j)))
  | 0x67 =>
    if bitsOf w 12 3 ≠ 0 then none
    else some ((x.setReg rd x.after).goTo (BitVec.ofNat 64
      ((rs1 + BitVec.ofNat 64 (sextTo 64 12 (bitsOf w 20 12))).toNat / 2 * 2)))
  | 0x63 => (rvTaken (bitsOf w 12 3) rs1 rs2).map fun t =>
    if t then x.goTo (x.pc + BitVec.ofNat 64 (sextTo 64 13 b)) else x.next
  | _ => none

/-! Memory (I, A, F, D, H, Zicbom). -/

def rvLoad (f3 : Nat) : Option (Width × Bool) :=
  match f3 with
  | 0 => some (.b8, false)
  | 1 => some (.b16, false)
  | 2 => some (.b32, false)
  | 3 => some (.b64, false)
  | 4 => some (.b8, true)
  | 5 => some (.b16, true)
  | 6 => some (.b32, true)
  | _ => none

def rvAmo (f5 : Nat) : Option AtomOp :=
  match f5 with
  | 0 => some .add
  | 1 => some .xchg
  | 4 => some .xor
  | 8 => some .or
  | 12 => some .and
  | 16 => some .smin
  | 20 => some .smax
  | 24 => some .umin
  | 28 => some .umax
  | _ => none

def State.illegal (s : State) (h : Nat) : State := s.hartTrap h ⟨illegalInstruction, 0, 0⟩

/-- A meaning that no stop ends. -/
def Out.state (s : State) : Out → State
  | .next t => t
  | _ => s

/-- Floating-point instructions need FS on, in a guest both. -/
def Hart.fpOff (x : Hart) : Bool :=
  decide (bitsOf (x.csr? csrMstatus) 13 2 = 0) || (x.mode.guest && decide (bitsOf (x.csr? csrVsstatus) 13 2 = 0))

def State.rvMemory (s : State) (h w : Nat) : State :=
  let x := s.hart h
  let rd := bitsOf w 7 5
  let f3 := bitsOf w 12 3
  let rs1 := Fin.ofNat 32 (bitsOf w 15 5)
  let rs2 := Fin.ofNat 32 (bitsOf w 20 5)
  let il := s.illegal h
  let lva := hartAddr x rs1 (BitVec.ofNat 12 (bitsOf w 20 12))
  let sva := hartAddr x rs1 (BitVec.ofNat 12 (bitsOf w 25 7 * 32 + rd))
  match bitsOf w 0 7 with
  | 0x03 => match rvLoad f3 with
    | some (n, z) => s.hartLoadAt h none ⟨n, z, rd⟩ lva
    | none => il
  | 0x07 => if x.fpOff || !decide (f3 = 2 ∨ f3 = 3) then il else match rvLoad f3 with
    | some (n, z) => s.hartLoadAt h none ⟨n, z, 32 + rd⟩ lva
    | none => il
  | 0x23 => if 3 < f3 then il else s.hartStoreAt h none (2 ^ f3) sva (x.reg rs2).toNat
  | 0x27 => if x.fpOff || !decide (f3 = 2 ∨ f3 = 3) then il else s.hartStoreAt h none (2 ^ f3) sva (x.fbits rs2.val)
  | 0x2F =>
    let w64 := decide (f3 = 3)
    let frd : Fin 32 := Fin.ofNat 32 rd
    let out : Out :=
      if !decide (f3 = 2 ∨ f3 = 3) then .next il
      else match bitsOf w 27 5 with
        | 2 => if rs2 = 0 then hartReserve h none .lr .load w64 frd rs1 (fun _ => 0) s else .next il
        | 3 => hartReserve h none .sc .store w64 frd rs1 (fun x => x.reg rs2) s
        | k => match rvAmo k with
          | some op => hartAmoOp h none op w64 frd rs1 rs2 s
          | none => .next il
    out.state s
  | _ =>
    -- 0x0F
    let out : Out := match f3 with
      | 0 => hartFenceThen h none id s
      | 1 => hartFenceThen h none Hart.noFetched s
      | 2 => (match bitsOf w 20 12, rd with
        | 0, 0 => hartBlockOp h none rs1 true true s
        | 1, 0 => hartBlockOp h none rs1 false false s
        | 2, 0 => hartBlockOp h none rs1 false true s
        | _, _ => .next il)
      | _ => .next il
    out.state s

/-! Accesses of a guest's memory (H). -/

/-- The mode that hlv, hlvx and hsv access memory in. -/
def Hart.guestMode (x : Hart) : HartMode := if bitN (x.csr? csrHstatus) 8 then .vs else .vu

/-- An exception whose tval is a guest's address though the hart is in none. -/
def Hart.markGva (x : Hart) (md : HartMode) (code : Nat) : Hart :=
  if md.guest && addressCauses.contains code then
    (if x.mode = .m then x.setCsr csrMstatus (putBits (x.csr? csrMstatus) 38 1 1)
      else x.setCsr csrHstatus (putBits (x.csr? csrHstatus) 6 1 1))
  else x

/-- A translation in a mode that is not the hart's. -/
def State.hartXlateIn (s : State) (h : Nat) (md : HartMode) (a : HAcc) (va n : Nat) : Except HExc HTo × State :=
  let x := s.hart h
  let x1 := x.setCsr csrMstatus (putBits (x.csr? csrMstatus) 17 1 0)
  let r := (s.setHart h { x1 with mode := md }).hartXlate h a va n
  (r.1, r.2.setHart h { r.2.hart h with mode := x.mode, csr := x.csr })

/-- hlv, hlvu, hlvx and hsv. -/
def State.rvGuest (s : State) (h w : Nat) : State :=
  let x := s.hart h
  let f7 := bitsOf w 25 7
  let rs2 := bitsOf w 20 5
  let rd := bitsOf w 7 5
  let va := (x.reg (Fin.ofNat 32 (bitsOf w 15 5))).toNat
  let md := x.guestMode
  let rg := s.hartRegime h md
  let size := (f7 - 0x30) / 2
  let go := fun (a : HAcc) (n : Nat) (f : State → HTo → State) =>
    match s.hartXlateIn h md a va n with
    | (.ok dest, s1) => f s1 dest
    | (.error e, s1) =>
      let s2 := s1.hartFault h none e
      if e.code = hartAgain then s2 else s2.setHart h ((s2.hart h).markGva md e.code)
  if x.mode.guest then s.hartTrap h ⟨virtualInstruction, 0, 0⟩
  else if x.mode = .u && !bitN (x.csr? csrHstatus) 9 then s.illegal h
  else if f7 < 0x30 ∨ 0x37 < f7 then s.illegal h
  else if bitN f7 0 then
    (if rd ≠ 0 then s.illegal h
      else go .store (2 ^ size) fun s1 dest => hartStoreTo h none rg (2 ^ size) va
        ((x.reg (Fin.ofNat 32 rs2)).toNat % 2 ^ (8 * 2 ^ size)) s1 dest)
  else match rs2, rvLoad (size + (if rs2 = 0 then 0 else 4)) with
    | 0, some (n, z) | 1, some (n, z) => go .load (2 ^ size) fun s1 dest => s1.hartLoadTo h rg ⟨n, z, rd⟩ va dest
    | 3, some (n, z) =>
      if size = 1 ∨ size = 2 then go .fetchLoad (2 ^ size) fun s1 dest => s1.hartLoadTo h rg ⟨n, z, rd⟩ va dest
      else s.illegal h
    | _, _ => s.illegal h

/-! The privileged instructions. -/

/-- mret: the mode and the enable that trap entry saved. -/
def Hart.mret (x : Hart) : Hart :=
  let st := x.csr? csrMstatus
  let md : HartMode := match bitsOf st 11 2, bitN st 39 with
    | 3, _ => .m
    | 0, false => .u
    | 0, true => .vu
    | _, false => .hs
    | _, true => .vs
  let st1 := putBits (putBits (putBits (putBits st 3 1 (bitsOf st 7 1)) 7 1 1) 11 2 0) 39 1 0
  let st2 := if md = .m then st1 else putBits st1 17 1 0
  { (x.setCsr csrMstatus st2).goTo (BitVec.ofNat 64 (x.csr? 0x341)) with mode := md }

/-- The status of a supervisor after sret. -/
def sretStatus (st : Nat) : Nat := putBits (putBits (putBits st 1 1 (bitsOf st 5 1)) 5 1 1) 8 1 0

def Hart.sret (x : Hart) : Hart :=
  if x.mode = .vs then
    let st := x.csr? csrVsstatus
    { (x.setCsr csrVsstatus (sretStatus st)).goTo (BitVec.ofNat 64 (x.csr? 0x241)) with
      mode := if bitN st 8 then .vs else .vu }
  else
    let st := x.csr? csrMstatus
    let hs := x.csr? csrHstatus
    let md : HartMode := match bitN st 8, bitN hs 7 with
      | false, false => .u
      | false, true => .vu
      | true, false => .hs
      | true, true => .vs
    { ((x.setCsr csrMstatus (putBits (sretStatus st) 17 1 0)).setCsr csrHstatus (putBits hs 7 1 0)).goTo
        (BitVec.ofNat 64 (x.csr? 0x141)) with mode := md }

def Hart.sretFault (x : Hart) : Option Nat :=
  match x.mode with
  | .m => none
  | .hs => if bitN (x.csr? csrMstatus) 22 then some illegalInstruction else none
  | .u => some illegalInstruction
  | .vs => if bitN (x.csr? csrHstatus) 22 then some virtualInstruction else none
  | .vu => some virtualInstruction

/-- wfi may end at once, and does; TW and VTW, and a user mode, forbid it. -/
def Hart.wfiFault (x : Hart) : Option Nat :=
  let tw := bitN (x.csr? csrMstatus) 21
  match x.mode with
  | .m => none
  | .hs => if tw then some illegalInstruction else none
  | .u => some illegalInstruction
  | .vs => if tw then some illegalInstruction else if bitN (x.csr? csrHstatus) 21 then some virtualInstruction else none
  | .vu => if tw then some illegalInstruction else some virtualInstruction

def HartMode.ecall : HartMode → Nat
  | .u | .vu => 8
  | .hs => 9
  | .vs => 10
  | .m => 11

def State.rvSystem (s : State) (h w : Nat) : State :=
  let x := s.hart h
  let rd := bitsOf w 7 5
  let f3 := bitsOf w 12 3
  let rs1 := bitsOf w 15 5
  let orTrap := fun (f : Option Nat) (y : Hart) => match f with
    | some c => s.hartTrap h ⟨c, 0, 0⟩
    | none => s.setHart h y
  if f3 = 4 then s.rvGuest h w
  else if f3 ≠ 0 then
    s.csrOp h (bitsOf w 20 12) f3 rd rs1 (if f3 < 4 then (x.reg (Fin.ofNat 32 rs1)).toNat else rs1)
  else if rd ≠ 0 then s.illegal h
  else match bitsOf w 25 7 with
    | 0x09 => (hartTlbFence h none false true dropsVma s).state s
    | 0x11 => (hartTlbFence h none true false dropsVvma s).state s
    | 0x31 => (hartTlbFence h none true true dropsGvma s).state s
    | _ =>
      if rs1 ≠ 0 then s.illegal h
      else match bitsOf w 20 12 with
        | 0x000 => s.hartTrap h ⟨x.mode.ecall, 0, 0⟩
        | 0x001 => s.hartTrap h ⟨3, x.pc.toNat, 0⟩
        | 0x102 => orTrap x.sretFault x.sret
        | 0x105 => orTrap x.wfiFault x.next
        | 0x302 => orTrap (if x.mode = .m then none else some illegalInstruction) x.mret
        | _ => s.illegal h

/-! Running. -/

/-- An instruction of four bytes. -/
def State.rvExec (s : State) (h w : Nat) : State :=
  let x := s.hart h
  let put := fun (y : Option Hart) => match y with
    | some y => s.setHart h y
    | none => s.illegal h
  let rd := bitsOf w 7 5
  let rs1 := bitsOf w 15 5
  let rs2 := bitsOf w 20 5
  let f3 := bitsOf w 12 3
  match bitsOf w 0 7 with
  | 0x13 | 0x1B | 0x33 | 0x3B => put (x.rvInteger w)
  | 0x37 | 0x17 | 0x6F | 0x67 | 0x63 => put (x.rvControl w)
  | 0x03 | 0x07 | 0x23 | 0x27 | 0x2F | 0x0F => s.rvMemory h w
  | 0x43 | 0x47 | 0x4B | 0x4F =>
    if x.fpOff then s.illegal h
    else put ((x.fma (bitsOf w 2 2) (bitsOf w 25 2) f3 rd rs1 rs2 (bitsOf w 27 5)).map Hart.next)
  | 0x53 =>
    if x.fpOff then s.illegal h else put ((x.fop (bitsOf w 27 5) (bitsOf w 25 2) rs2 f3 rd rs1).map Hart.next)
  | 0x73 => s.rvSystem h w
  | _ => s.illegal h

/-- The instruction at the pc: of two bytes, or of four, whose second two may lie in another page. -/
def State.hartStep (s : State) (h : Nat) : State :=
  let pc := (s.hart h).pc
  let fail := fun (s : State) (e : HExc) => s.hartFault h none e
  match s.parcel h pc.toNat with
  | (.error e, s1) => fail s1 e
  | (.ok lo, s1) =>
    if lo % 4 ≠ 3 then
      let s2 := s1.setHart h { s1.hart h with half := true }
      match rvExpand lo with
      | some w => s2.rvExec h w
      | none => s2.illegal h
    else
      match s1.parcel h (pc + 2).toNat with
      | (.error e, s2) => fail s2 e
      | (.ok hi, s2) => (s2.setHart h { s2.hart h with half := false }).rvExec h (lo + 2 ^ 16 * hi)

/-- A hart that has left reset runs one instruction a tick, unless it awaits a value or takes an interrupt. -/
def State.hartRun (s : State) (h : Nat) : State :=
  let x := s.hart h
  if !x.started then s
  else
    let s1 := s.later (.hartRun h)
    if !x.outstanding.isEmpty then s1
    else match x.takes with
      | some (md, i) => s1.setHart h (x.trapTo md ⟨irqBit + i, 0, 0⟩)
      | none => s1.hartStep h

end Sys2Proof.Machine
end

