-- ==== Sys2Proof/Machine/Partitions.lean ====
section
/-! DEFINITION. Virtual functions, migration, and what the GRC does to a partition (R239, R286, R325, R327, R331 to R334,
R356 to R362, R395, R405, R407, R408, R417, R418, R425, R446). -/

namespace Sys2Proof.Machine

/-! VFCFG (R356). -/

def vfOff : Nat := 0
def vfRun : Nat := 1
def vfResetting : Nat := 2

/-- A value of VFCFG with a state. -/
def vfValue (v state : Nat) : W64 := BitVec.ofNat 64 (v / 2 ^ 8 * 2 ^ 8 + state * 2 + v % 2)

def vfFieldsOk (v : Nat) : Bool :=
  decide (bitsOf v 3 5 = 0) && decide (bitsOf v 8 4 ≤ 4) && decide (bitsOf v 12 40 % 2 ^ bitsOf v 8 4 = 0)

/-- Whether no other VF that is not OFF has an ASTAG. -/
def State.astagFree (s : State) (part vf tag : Nat) : Bool :=
  (otherVfs vf).all fun w => decide (s.vfState part w = vfOff) || decide (s.vfAstag part w ≠ tag)

def execVfcfgWrite (slice vf : Nat) (val : W64) (req : Nat) (s : State) : Out :=
  let v := val.toNat
  .next <|
  match s.partOf slice with
  | none => s.reply req replyRefused
  | some p =>
    let cfg := s.vfcfg p vf
    let tag := bitsOf v 52 12
    let st := s.vfState p vf
    if st = vfResetting then s.reply req replyBusy
    else if st = vfRun then
      if vfFieldsOk v && decide (v % 2 = 1) && decide (tag = s.vfAstag p vf) then
        (s.setVfcfg p vf cfg (vfValue v vfRun) (s.tick + 1)).reply req replyOk
      else s.reply req replyRefused
    else if v % 2 = 0 then (s.setVfcfg p vf (vfValue v vfOff) 0 0).reply req replyOk
    else if vfFieldsOk v && decide (tag ≠ 0) && s.astagFree p vf tag then
      (s.setVfcfg p vf (vfValue v vfOff) (vfValue v vfRun) (s.tick + 1)).reply req replyOk
    else s.reply req replyRefused

/-! VF reset (R357). -/

def Regime.isOf (rg : Regime) (part vf : Nat) : Bool := decide (rg.part = part ∧ rg.vf = vf ∧ rg.priv ≠ .h)

/-- R338, R341: whether a table of stage 2 leads to a byte, by level. -/
def tableHits (rd : Nat → Option Nat) (n x : Nat) : Nat → Nat → Bool
  | level, t =>
    (List.range (if level = 3 then 2 ^ n else 512)).any fun i => match rd (t + 8 * i) with
      | none => false
      | some e =>
        if malformed .two level e then false
        else match bitsOf e 62 2 with
          | 1 => match level with
            | 0 => false
            | l + 1 => tableHits rd n x l (bitsOf e 12 40 * 4096)
          | 2 => decide (bitsOf e 4 48 * 16 ≤ x ∧ x < bitsOf e 4 48 * 16 + 2 ^ (12 + 9 * level))
          | 3 =>
            let a := bitsOf e 4 48 * 16
            match rd a, rd (a + 8) with
            | some lo, some hi =>
              let d := lo + hi * 2 ^ 64
              (List.range (bitsOf d 83 19)).any fun r =>
                let o := 4096 * (r * bitsOf d 64 19)
                decide (o < 2 ^ (12 + 9 * level)) && (match slabOut d o with
                  | some b => decide (b ≤ x ∧ x < b + 4096 * bitsOf d 64 19)
                  | none => false)
            | _, _ => false
          | _ => false

/-- Whether stage 2 of a VF maps a byte of memory, by its address or its counter alias. -/
def State.inVfPages (s : State) (part vf dpa : Nat) : Bool :=
  let cfg := (s.vfcfg part vf).toNat
  let rd := fun (a : Nat) => match (s.readPhys part 0 a 8).out with
    | .ok v => v
    | .error _ => none
  let hits := fun (x : Nat) => tableHits rd (9 + bitsOf cfg 8 4) x 3 (bitsOf cfg 12 40 * 4096)
  match (s.bands part).findSome? fun b => (bandInv b dpa).map fun o => b.pbase * 2 ^ 30 + o with
  | some x => hits x || hits (2 ^ 48 + x)
  | none => false

/-- Requests of the VF's troupes whose ring entry is not delivered, or whose pin is not decided. -/
def State.vfRequests (s : State) (part vf : Nat) : List Nat :=
  (s.flight.reqs.filter fun e =>
    (match s.ownerRegime (.troupe e.2.troupe) with
     | some rg => rg.isOf part vf
     | none => false) &&
    ((s.pkg.ring.any fun r => decide (r.caller = some e.1)) || (match e.2.work with
      | some (.pin ..) => true
      | _ => false))).map (·.1)

/-- A message of a discarded troupe goes; its sequence goes on. -/
def State.dropMsg (s : State) (id : Nat) (m : Message) : State :=
  let s1 := s.delMsg id
  if m.sent then
    let (i, q, s2) := s1.seqOf m.core m.module m.dstSlice m.ring
    let s3 := s2.putSeq i { q with unanswered := q.unanswered - 1 }
    match s3.nextUnsent q with
    | some n => s3.sendMsg n
    | none => s3
  else s1

/-- Steps 1 and 2, but for the state: the VF's queues are OFF, and its tickets, blocks, saved troupes, messages and what
they had in flight are gone. -/
def State.dropVf (s : State) (part vf : Nat) : State :=
  let reqs := s.vfRequests part vf
  let qs := s.pkg.queues.filter fun e => decide (e.1 / 4096 = part) && decide (e.2.vf = vf) && decide (e.2.priv ≠ .h)
  let isQ := fun (q : Nat) => qs.any fun e => decide (e.1 % 4096 = q)
  let bs := (s.blocks.filter fun e => e.2.regime.isOf part vf).map (·.1)
  let ts := (s.pkg.tickets.filter fun e => decide (e.2.part = part) && isQ e.2.queue).map (·.1)
  let s1 := qs.foldl (fun s e =>
    (s.unlist (.producer part (e.1 % 4096))).writeState part (e.1 % 4096) { e.2 with state := .off }) s
  let s2 := bs.foldl (fun s b => s.discardBlock b) s1
  let s3 := ts.foldl (fun s t => s.unlist (.join t)) s2
  let p := s3.pkg
  let s4 := s3.setPkg { p with
    tickets := p.tickets.filter fun e => !ts.contains e.1
    ring := p.ring.filter fun e => !(match e.caller with
      | some c => reqs.contains c
      | none => false) }
  let s5 := s4.setFlight { s4.flight with reqs := s4.flight.reqs.filter fun e => !reqs.contains e.1 }
  let s6 := s5.modPart part fun p => match p.gathering with
    | some t => if ts.contains t then { p with gathering := none } else p
    | none => p
  (s6.fab.messages.filter fun e =>
    decide (e.2.part = part) && decide (e.2.vf = vf) && !e.2.kernel && decide (e.2.module < 2048)).foldl
      (fun s e => s.dropMsg e.1 e.2) s6

/-- Step 3. -/
def State.dropVfTlb (s : State) (part vf : Nat) : State :=
  let hit := tlbDrops .s2all part vf 0 0 0
  let s1 := s.setPkg { s.pkg with tlb := s.pkg.tlb.filter fun e => !hit e }
  { s1 with harts := s1.harts.map fun (e : Nat × Hart) => (e.1, { e.2 with tlb := e.2.tlb.filter fun x => !hit x }) }

/-- R301: the port pages bound to the guest files of a VF: those whose CTL the VF wrote last, and that of the guest file
which VGEIN names on a hart whose hgatp names the VF (DEDUCED, log entry 119). -/
def State.guestPorts (s : State) (part vf : Nat) : List (Nat × Nat) :=
  s.harts.flatMap fun h =>
    if s.hartPart h.1 ≠ part then []
    else (h.2.ports.filter fun p => decide (p.1 ≠ 0) && (decide (p.2.vf = vf) ||
      (decide (bitsOf (h.2.csr? csrHstatus) 12 6 = p.1) && decide (h.2.vf = vf)))).map fun p => (h.1, p.1)

/-- Step 4. -/
def State.endVfWaits (s : State) (part vf : Nat) : State :=
  let s1 := s.resetWaits fun l => match l with
    | .home d => decide (s.partOf (dpaSlice d) = some part) && s.inVfPages part vf d
    | _ => false
  let s2 := (s1.guestPorts part vf).foldl (fun s e => s.portCancel e.1 e.2) s1
  ((skeys s2.homes.anchors).filter fun l => (s2.smask part).getLsbD (lineSlice l)).foldl (fun s l => s.unanchor l vf) s2

/-- Step 5: the VF's flows take a new epoch, and their peers are told. -/
def State.resetFlow (s : State) (id : Nat) (f : Flow) : State :=
  let f1 := { f with epoch := (f.epoch + 1) % 256, nextNo := 0, copies := [], resetSent := true }
  ((s.setFab { s.fab with packets := s.fab.packets.filter fun e => decide (e.2.flow ≠ id) }).setFlow id f1).out
    (.flowReset f.module id f1.epoch)

def State.resetFlows (s : State) (part vf : Nat) : State :=
  (s.fab.flows.filter fun e => decide (e.2.vf = vf) && (s.smask part).getLsbD e.2.slice).foldl
    (fun s e => s.resetFlow e.1 e.2) s

/-- What the VF still had on its way to other modules is discarded. -/
def State.dropAbroad (s : State) (part vf : Nat) : State :=
  let f := s.flight
  let away := fun (p : Part) => decide (peerBase ≤ p.line)
  let s1 := s.setFlight { f with
    mem := f.mem.filter fun e => !(e.2.regime.isOf part vf && e.2.parts.any away)
    ts := f.ts.filter fun e => !(decide (e.2.part = part) && decide (e.2.vf = vf) && isPeer e.2.loc) }
  s1.setFab { s1.fab with packets := s1.fab.packets.filter fun e =>
    !(decide (e.2.part = part) && decide (e.2.vf = vf) && (match e.2.load with
      | .msg id => (s1.msg? id).isNone
      | .mem .. | .ts _ | .poll _ => true
      | _ => false)) }

def regVfrst (vf : Nat) : Nat := 0xA0 + vf

def execVfReset (slice vf : Nat) (val : W64) (req : Nat) (s : State) : Out :=
  let v := val.toNat
  .next <|
  match s.partOf slice with
  | none => s.reply req replyRefused
  | some p =>
    let go := bitN v 63
    if bitsOf v 52 11 ≠ 0 ∨ v % 8 ≠ 0 then s.reply req replyRefused
    else if go && decide (s.vfState p vf = vfResetting) then s.reply req replyBusy
    else
      let s1 := (s.setPartReg p (regVfrst vf) (BitVec.ofNat 64 (v % 2 ^ 52))).reply req replyOk
      if go then
        let cfg := (s1.vfcfg p vf).toNat
        let s2 := (s1.setVfcfg p vf (vfValue cfg vfResetting) 0 0).dropVf p vf
        ((((s2.dropVfTlb p vf).endVfWaits p vf).resetFlows p vf).dropAbroad p vf).later (.vfResetComplete p vf)
      else s1

/-- Step 6: requests of the VF that are not yet performed, and peers that have not acknowledged. -/
def State.vfBusy (s : State) (part vf : Nat) : Bool :=
  (s.flight.mem.any fun e => e.2.regime.isOf part vf) ||
  (s.flight.ts.any fun e => decide (e.2.part = part) && decide (e.2.vf = vf)) ||
  s.fab.flows.any fun e => decide (e.2.vf = vf) && (s.smask part).getLsbD e.2.slice && e.2.resetSent

/-- Step 7. Every GWCT of the steps has passed. -/
def execVfResetComplete (part vf : Nat) (s : State) : Out :=
  .next <|
  if s.vfState part vf ≠ vfResetting then s
  else if s.vfBusy part vf then s.laterOnce (.vfResetComplete part vf)
  else
    let s1 := s.setVfcfg part vf (vfValue (s.vfcfg part vf).toNat vfOff) 0 0
    match s1.ppaMem part (s1.reg (s1.firstSlice part) 0 (regVfrst vf)).toNat with
    | some d => s1.addAfter (s1.firstSlice part) part 32 (.home d) none 1 s1.tick []
    | none => s1

/-! Migration (R358, R359). -/

def migReg (chan i : Nat) : Nat := 0x200 + 4 * chan + i

def State.setMig (s : State) (slice chan : Nat) (m : Migration) : State :=
  s.setPkg { s.pkg with migs := sset (migKey slice chan) m s.pkg.migs }

/-- Ranges of bytes that meet. -/
def meet (a m b n : Nat) : Bool := decide (a < b + n ∧ b < a + m)

/-- A range within one granule of a valid band. -/
def State.granuleTo (s : State) (part ppa size : Nat) : Option Nat :=
  if ppa / 65536 = (ppa + size - 1) / 65536 then s.ppaMem part ppa else none

def State.migBusyAt (s : State) (d size : Nat) : Bool :=
  s.pkg.migs.any fun e => decide (e.2.state ≠ .idle) && (meet d size e.2.src e.2.size || meet d size e.2.dst e.2.size)

/-- R395: a snapshot is copying the range. -/
def State.snapCopies (s : State) (part d : Nat) : Bool := match s.part? part with
  | some p => decide (p.snap.state = .copying) && (match s.bandAt part (s.snapBands part).1 with
    | some b => b.holds d
    | none => false)
  | none => false

def migLines (a size : Nat) : KeySet := (List.range (size / 64)).map fun i => a / 64 + i

def execMigStart (slice chan : Nat) (val : W64) (req : Nat) (s : State) : Out :=
  let v := val.toNat
  .next <|
  match s.partOf slice with
  | none => s.reply req replyRefused
  | some p =>
    let size := 4096 * (bitsOf v 8 4 + 1)
    let src := (s.reg slice 0 (migReg chan 0)).toNat
    let dst := (s.reg slice 0 (migReg chan 1)).toNat
    if (s.mig slice chan).state ≠ .idle then s.reply req replyBusy
    else match s.granuleTo p src size, s.granuleTo p dst size with
      | some a, some b =>
        if s.snapCopies p a || s.snapCopies p b then s.reply req replyBusy
        else if dpaSlice a ≠ slice ∨ meet a size b size = true ∨ s.migBusyAt a size = true ∨ s.migBusyAt b size = true then
          s.reply req replyRefused
        else
          let s1 := s.setReg slice 0 (migReg chan 3) (BitVec.ofNat 64 (bitsOf v 8 4 * 256))
          ((s1.setMig slice chan ⟨.copy, a, b, size, migLines a size, 0, p⟩).laterOnce (.migrationPass slice chan)).reply req replyOk
      | _, _ => s.reply req replyRefused

def execMigEnd (slice chan req : Nat) (s : State) : Out :=
  let m := s.mig slice chan
  .next <|
  match m.state with
  | .idle => s.reply req replyOk
  | .copy | .freezing => s.reply req replyBusy
  | .frozen => (s.setMig slice chan Migration.idle).reply req replyOk

def execMigAbort (slice chan req : Nat) (s : State) : Out :=
  let m := s.mig slice chan
  .next <|
  match m.state with
  | .idle => s.reply req replyOk
  | .copy | .freezing => (s.setMig slice chan Migration.idle).reply req replyOk
  | .frozen => s.reply req replyBusy

def Migration.to (m : Migration) (a : Nat) : Nat := a - m.src + m.dst
def Migration.toLine (m : Migration) (l : Nat) : Nat := m.to (64 * l) / 64

/-- One line with its poison and tag, as a write at the destination home. -/
def State.migLine (s : State) (m : Migration) (line : Nat) : State :=
  let s1 := s.beforeWrite (m.toLine line)
  s1.setHomes (s1.homes.copyLine line (m.toLine line))

/-- What the source home keeps for a line goes to the destination home. -/
def State.handLine (s : State) (m : Migration) (line : Nat) : State :=
  let dest := m.toLine line
  let h := s.homes
  let h1 := if s.tick ≤ h.leaseX line then h.record s.tick dest (h.leaseX line) else h
  let h2 := match sfind line h1.inf with
    | some b => { h1 with
        inf := sset dest (sget 0 dest h1.inf ||| b) (sdel line h1.inf)
        was := sset dest (kadd line (toKeys (sget [] dest h1.was ++ sget [] line h1.was))) (sdel line h1.was) }
    | none => h1
  let h3 := match sfind line h2.prevP with
    | some p => { h2 with prevP := sset dest (Nat.max p (sget 0 dest h2.prevP)) h2.prevP }
    | none => h2
  let h4 := match sfind line h3.ordering with
    | some o => { h3 with ordering := sset dest o (sdel line h3.ordering) }
    | none => h3
  let s1 := s.setHomes { h4 with tsLines := sdel line h4.tsLines }
  (List.range 32).foldl (fun s v => s.unanchor line v) s1

def Migration.loc (m : Migration) (l : TsLoc) : TsLoc := match l with
  | .home d => if m.src ≤ d ∧ d < m.src + m.size then .home (m.to d) else .home d
  | l => l

/-- R239: a listed entry takes a place in the new home's list, or is polled. -/
def State.handWaiter (s : State) (m : Migration) (id : Nat) (w : Waiter) : State :=
  let w1 := { w with loc := m.loc w.loc, listed := none }
  if s.listRoom w1.loc then (s.setWaiter id { w1 with listed := some s.seq }).bump
  else (s.setWaiter id { w1 with polled := true }).at (s.tick + 256) (.turnstilePoll id)

def handContrib (m : Migration) (c : Contrib) : Contrib :=
  if inRange c.part.line m.src m.size then
    { c with part := { c.part with
        line := m.toLine c.part.line
        accs := c.part.accs.map fun a => { a with addr := m.to a.addr } } }
  else c

/-- The entries listed in a range, in listing order, n of them at most. -/
def listedOrder : Nat → List (Nat × Waiter) → List (Nat × Waiter)
  | 0, _ => []
  | n + 1, ws => match leastBy (fun (e : Nat × Waiter) => e.2.listed.getD 0) ws with
    | some e => e :: listedOrder n (ws.filter fun x => decide (x.1 ≠ e.1))
    | none => []

def State.handOver (s : State) (m : Migration) : State :=
  let ws := s.flight.waiters.filter fun e => e.2.listed.isSome && decide (m.loc e.2.loc ≠ e.2.loc)
  let s1 := (listedOrder ws.length ws).foldl (fun s e => s.handWaiter m e.1 e.2) s
  let f := s1.flight
  let s2 := s1.setFlight { f with
    ts := f.ts.map fun (e : Nat × TsOp) =>
      if e.2.stage = .deferred then (e.1, { e.2 with loc := m.loc e.2.loc }) else e
    contribs := f.contribs.map fun (e : Nat × Contrib) => (e.1, handContrib m e.2) }
  (migLines m.src m.size).foldl (fun s l => s.handLine m l) s2

/-- Writes that the source home admitted, still to be performed. -/
def State.migWaits (s : State) (m : Migration) : Bool :=
  (s.homes.waiting.any fun w => inRange w.line m.src m.size) || s.homes.held.any fun e => inRange e.2 m.src m.size

/-- A pass, or the cutover. -/
def execMigrationPass (slice chan : Nat) (s : State) : Out :=
  let m := s.mig slice chan
  let again := Ev.migrationPass slice chan
  .next <|
  match m.state with
  | .copy =>
    if m.marked = [] ∨ 8 ≤ m.passes then (s.setMig slice chan { m with state := .freezing }).post again
    else
      let s1 := s.setMig slice chan { m with marked := [], passes := m.passes + 1 }
      (m.marked.foldl (fun s l => s.migLine m l) s1).later again
  | .freezing =>
    if s.migWaits m then s.later again
    else
      let s1 := m.marked.foldl (fun s l => s.migLine m l) s
      let s2 := (s1.handOver m).setMig slice chan { m with marked := [], state := .frozen }
      match s2.ppaMem m.part (s2.reg slice 0 (migReg chan 2)).toNat with
      | some d => s2.addAfter slice m.part 32 (.home d) none 1 s2.tick []
      | none => s2
  | _ => s

/-! The shape of a partition (R327, R333, R334). -/

def adjacent (a b : Nat) : Bool :=
  decide ((a % 4 = b % 4 ∧ (a / 4 = b / 4 + 1 ∨ b / 4 = a / 4 + 1)) ∨ (a / 4 = b / 4 ∧ (a % 4 = b % 4 + 1 ∨ b % 4 = a % 4 + 1)))

/-- The slices of a set that a set of them reaches in n moves. -/
def reach (m : BitVec 16) : Nat → List Nat → List Nat
  | 0, l => l
  | n + 1, l => reach m n ((bitSet16 m).filter fun x => l.contains x || l.any fun y => adjacent x y)

def connected (m : BitVec 16) : Bool :=
  decide (m ≠ 0) && decide ((reach m 16 ((bitSet16 m).take 1)).length = (bitSet16 m).length)

/-- R332: a local range in GiB lies wholly in the HBM or in the CXL region. -/
def localOk (a n : Nat) : Bool := decide (a + n ≤ 64 ∨ (16384 ≤ a ∧ a + n ≤ 17408))

/-- R334: whether a band may stand beside others. -/
def Band.ok (b : Band) (smask : BitVec 16) (others : List Band) : Bool :=
  let k := (bitSet16 b.smask).length
  let per := b.size / k
  decide (b.smask ≠ 0 ∧ b.smask &&& ~~~smask = 0 ∧ b.size ≠ 0 ∧ b.size % k = 0 ∧ b.pbase + b.size ≤ 131072) &&
  localOk b.lbase per &&
  others.all fun o =>
    !meet b.pbase b.size o.pbase o.size &&
    (decide (b.smask &&& o.smask = 0) || !meet b.lbase per o.lbase (o.size / (bitSet16 o.smask).length))

/-- The registers of a new band, with V set; none where a zero field is set or the band may not be. -/
def newBand (smask : BitVec 16) (others : List Band) (a b : W64) : Option (W64 × W64) :=
  let a1 := a ||| 1
  match bandOf a1 b with
  | some x => if bitsOf a.toNat 1 11 = 0 ∧ b.toNat < 2 ^ 15 ∧ x.ok smask others = true then some (a1, b) else none
  | none => none

/-! What the GRC does to a slice (R331, R361, R362, R405, R407, R425). -/

/-- R425: the route from a slice to a leaf that the GRC loads. -/
def defaultRoute (slice leaf : Nat) : W64 :=
  let t := leaf / 8
  let l := leaf % 8
  let word := fun (hops : List Nat) =>
    BitVec.ofNat 64 (hops.length * 2 ^ 60 + sumNat ((hops.zipIdx).map fun e => e.1 * 2 ^ (5 * e.2)))
  if t = slice then word [31, l]
  else if quad t = quad slice then word [31, 31, 2 * inQuad t + l % 2, l]
  else word [31, 31, 31, 4 * quad t + inQuad t, 2 * inQuad t + l % 2, l]

def State.defaultRoutes (s : State) (slice : Nat) : State :=
  s.setFab { s.fab with
    routes := (List.range 128).foldl (fun r d => sput 0 (routeKey slice d) (defaultRoute slice d) r) s.fab.routes }

/-- R331: the memory of a slice is in the zero state, and its homes keep nothing. -/
def Homes.clearSlice (h : Homes) (slice : Nat) : Homes :=
  let line := fun (l : Nat) => decide (lineSlice l ≠ slice)
  let byte := fun (a : Nat) => decide (dpaSlice a ≠ slice)
  { h with
    mem := h.mem.filter fun e => byte e.1
    linePoison := h.linePoison.filter line
    astag := h.astag.filter fun e => line e.1
    lease := h.lease.filter fun e => line e.1
    prevP := h.prevP.filter fun e => line e.1
    inf := h.inf.filter fun e => line e.1
    recalls := h.recalls.filter fun e => line e.1
    was := h.was.filter fun e => line e.1
    waiting := h.waiting.filter fun w => line w.line
    held := h.held.filter fun e => line e.2
    pins := h.pins.filter fun e => line e.1
    anchors := h.anchors.filter fun e => line e.1
    ordering := h.ordering.filter fun e => line e.1
    l2 := h.l2.filter fun e => line e.1
    tsPoison := h.tsPoison.filter byte
    tsLines := h.tsLines.filter fun e => line e.1
    rdc := h.rdc.filter fun e => decide (e.1 / 2 ^ 48 ≠ slice) && line (e.1 % 2 ^ 48) }

/-- The registers of a slice are at their reset values; RETIRE stays. -/
def State.clearRegs (s : State) (slice : Nat) : State :=
  { s with regs := s.regs.filter fun e => decide (e.1 / 2 ^ 20 ≠ slice ∨ e.1 = regKey slice 0 regRetire) }

def State.clearHarts (s : State) (slice : Nat) : State :=
  { s with harts := s.harts.filter fun e => decide (e.1 / 8 ≠ slice) }

/-- What stood at the homes of the slice ends: writes that had arrived are dropped, and listed conditions are polled from
now on, and meet its firewall (R328). -/
def State.endWaiting (s : State) (slice : Nat) : State :=
  let ws := (s.homes.waiting.map fun w => (w.op, w.line)) ++ s.homes.held
  let s1 := (ws.filter fun e => decide (lineSlice e.2 = slice)).foldl (fun (s : State) e => match s.op? e.1 with
    | some o => s.dropAccess e.1 e.2 o
    | none => s) s
  (s1.flight.waiters.filter fun e => e.2.listed.isSome && (match e.2.loc with
    | .home d => decide (dpaSlice d = slice)
    | _ => false)).foldl (fun (s : State) e =>
      (s.setWaiter e.1 { e.2 with listed := none, polled := true }).at (s.tick + 256) (.turnstilePoll e.1)) s1

/-- R2: the slice's routes, and what its cores and engines had for the rings of its partition, go. -/
def State.clearTables (s : State) (slice : Nat) : State :=
  let s1 := s.setFab { s.fab with
    routes := s.fab.routes.filter fun e => decide (e.1 / 128 ≠ slice)
    peerRoutes := s.fab.peerRoutes.filter fun e => decide (e.1 / 4096 ≠ slice) }
  s1.setPkg { s1.pkg with ring := s1.pkg.ring.filter fun e => decide (e.slice ≠ slice) }

/-- A slice with nothing in it. -/
def State.clearSlice (s : State) (slice : Nat) : State :=
  let s1 := ((((s.endWaiting slice).setHomes (s.homes.clearSlice slice)).clearRegs slice).clearHarts slice).clearTables slice
  { s1 with cores := s1.cores.filter fun e => decide (coreSlice e.1 ≠ slice) }

/-- Whether a register reads alike in every slice of a partition: those of R366, the bands, and the VFs' states. -/
def sharedReg (r : Nat) : Bool :=
  perPart r || decide (0x50 ≤ r ∧ r < 0x70) || decide (0x80 ≤ r ∧ r < 0xC0) || decide (0xE60 ≤ r ∧ r < 0xEA0)

/-- A slice that joins reads the partition's registers. -/
def State.shareRegs (s : State) (from_ slice : Nat) : State :=
  s.regs.foldl (fun s e =>
    if e.1 / 2 ^ 12 = from_ * 2 ^ 8 ∧ sharedReg (e.1 % 2 ^ 12) = true then s.setReg slice 0 (e.1 % 2 ^ 12) e.2 else s) s

/-- R407: the boot block, its items in the order in which they are given. -/
def State.bootBlock (s : State) (part slice : Nat) : List W64 :=
  let cal := match s.part? part with
    | some p => (List.range 1024).map fun i => sget 0 i p.calendar
    | none => []
  [BitVec.ofNat 64 part, BitVec.ofNat 64 (s.readReg part slice 0 0x4C .h)] ++
    ((List.range 32).map fun i => s.reg slice 0 (0x50 + i)) ++ words64 128 cal

/-- R362, R407: a hart starts in M mode. -/
def State.startHart (s : State) (h pc block : Nat) : State :=
  let none_ := fun (e : Ev) => decide (e ≠ .hartRun h)
  let s1 : State := { s with todo := s.todo.filter none_, timers := s.timers.filter (none_ ·.2) }
  (s1.setHart h { Hart.reset with
    started := true
    pc := BitVec.ofNat 64 pc
    x := sput 0 10 (BitVec.ofNat 64 h) (sput 0 11 (BitVec.ofNat 64 block) []) }).later (.hartRun h)

def State.startHarts (s : State) (slice pc block : Nat) : State :=
  (List.range 8).foldl (fun s k => if s.hartRetired (8 * slice + k) then s else s.startHart (8 * slice + k) pc block) s

/-! Commands of the mailbox (R361, R362, R408, R417). -/

def resOk : Nat := 1
def resRefused : Nat := 2

/-- A command ends: its result is read in every slice, and then the completion turnstile advances. -/
def State.mailDone (s : State) (part res : Nat) (ops : List Nat) (nb : Nat) : State :=
  let sl := s.firstSlice part
  let v := (s.reg sl 0 0x74).toNat
  let s1 := (s.modPart part fun p => { p with mailbox := none, mailOps := [] }).setPartReg part 0x74
    (BitVec.ofNat 64 (putBits v 12 4 res))
  match s1.ppaMem part (s1.reg sl 0 0x77).toNat with
  | some d => s1.addAfter sl part 32 (.home d) none 1 nb ops
  | none => s1

def State.mailRefuse (s : State) (part : Nat) : State := s.mailDone part resRefused [] 0

/-- The index of a command in progress, none where the code differs. -/
def State.mailIdx (s : State) (part cmd : Nat) : Option Nat := match s.part? part with
  | some p => match p.mailbox with
    | some (c, i) => if c = cmd then some i else none
    | none => none
  | none => none

def State.mailArg (s : State) (part i : Nat) : W64 := s.reg (s.firstSlice part) 0 (0x75 + i)

/-- R361: an address that lies in a valid band. -/
def State.inBand (s : State) (part a : Nat) : Bool := (bandMap (s.bands part) a).isSome

def State.mayAdd (s : State) (part sl : Nat) : Bool :=
  (s.partOf sl).isNone && !s.plat.lost.getLsbD sl && ((bitSet16 (s.smask part)).any fun x => adjacent x sl) &&
  decide ((s.mailArg part 0).toNat % 4 = 0 ∧ (s.mailArg part 1).toNat % 4096 = 0) &&
  s.inBand part (s.mailArg part 0).toNat && s.inBand part (s.mailArg part 1).toNat

/-- The slice joins; its harts start once the boot block is written. -/
def State.joinSlice (s : State) (part sl : Nat) : State :=
  let s1 := (s.clearSlice sl).shareRegs (s.firstSlice part) sl
  let s2 := (s1.modPart part fun p => { p with smask := p.smask ||| bitM 16 sl }).defaultRoutes sl
  let s3 := s2.tmapAdvance part
  match s3.ppaMem part (s3.mailArg part 1).toNat with
  | some d =>
    let (op, s4) := s3.grcWrite part d (s3.bootBlock part sl)
    (s4.modPart part fun p => { p with mailOps := [op] }).later (.addslice part)
  | none => s3.mailRefuse part

def execAddslice (part : Nat) (s : State) : Out :=
  .next <|
  match s.mailIdx part 1, s.part? part with
  | some sl, some p =>
    if p.mailOps = [] then (if s.mayAdd part sl then s.joinSlice part sl else s.mailRefuse part)
    else if p.mailOps.all s.opDone then
      (s.startHarts sl (s.mailArg part 0).toNat (s.mailArg part 1).toNat).mailDone part resOk p.mailOps
        (s.latestP p.mailOps)
    else s.later (.addslice part)
  | _, _ => s

/-- R418: a snapshot in progress uses a slice. -/
def State.snapNames (s : State) (part sl : Nat) : Bool := match s.part? part with
  | some p =>
    let has := fun (i : Nat) => ((s.reg (s.firstSlice part) 0 (0x50 + 2 * i)).extractLsb' 48 16).getLsbD sl
    decide (p.snap.state ≠ .idle) && (has (s.snapBands part).1 || has (s.snapBands part).2)
  | none => false

def State.mayRemove (s : State) (part sl : Nat) : Bool :=
  let rest := s.smask part &&& ~~~(bitM 16 sl)
  (s.smask part).getLsbD sl && ((s.bands part).all fun b => !b.smask.getLsbD sl) && connected rest &&
  (s.blocks.all fun e => decide (coreSlice e.2.core ≠ sl)) &&
  ((List.range 4).all fun c => decide ((s.mig sl c).state = .idle)) && !s.snapNames part sl

def execRemslice (part : Nat) (s : State) : Out :=
  .next <|
  match s.mailIdx part 2 with
  | none => s
  | some sl =>
    if s.mayRemove part sl then
      let s1 := s.modPart part fun p => { p with smask := p.smask &&& ~~~(bitM 16 sl) }
      ((s1.clearSlice sl).tmapAdvance part).mailDone part resOk [] s.tick
    else s.mailRefuse part

def execSetband (part : Nat) (s : State) : Out :=
  .next <|
  match s.mailIdx part 3 with
  | none => s
  | some i =>
    if (s.bandAt part i).isSome then s.mailRefuse part
    else match newBand (s.smask part) (s.bands part) (s.mailArg part 0) (s.mailArg part 1) with
      | some (a, b) =>
        ((s.setPartReg part (0x50 + 2 * i) a).setPartReg part (0x51 + 2 * i) b).mailDone part resOk [] s.tick
      | none => s.mailRefuse part

def execClrband (part : Nat) (s : State) : Out :=
  .next <|
  match s.mailIdx part 4 with
  | none => s
  | some i =>
    if (s.bandAt part i).isNone then s.mailRefuse part
    else
      let a := s.reg (s.firstSlice part) 0 (0x50 + 2 * i)
      (s.setPartReg part (0x50 + 2 * i) (a &&& ~~~1)).mailDone part resOk [] s.tick

/-! Attestation (R408). -/

def reportBody (s : State) (part : Nat) (p : Partition) (nonce : List Byte) : List Byte :=
  let w := fun (n : Nat) => leBytes 8 n
  let man := match s.plat.flash.manifest with
    | some m => m.bodyDigest
    | none => 0
  w (0x54524841 + 2 ^ 32) ++ w Config.serial.toNat ++ w (part + p.smask.toNat * 2 ^ 16) ++ w (s.tick % 2 ^ 64) ++
    leBytes 64 s.plat.firmware.toNat ++ leBytes 64 man.toNat ++ leBytes 64 p.imageDigest.toNat ++ nonce ++
    List.replicate 224 0

def execAttest (part : Nat) (s : State) : Out :=
  .next <|
  match s.mailIdx part 5, s.part? part with
  | some _, some p =>
    let a := (s.mailArg part 0).toNat
    match (if a % 1024 = 0 then s.ppaMem part a else none) with
    | none => s.mailRefuse part
    | some d =>
      let body := reportBody s part p (memBytes s.homes.mem d 64)
      let (op, s1) := s.grcWrite part d (words64 128 (body ++ leBytes 512 (Config.reportSignature body).toNat))
      s1.mailDone part resOk [op] 0
  | _, _ => s

end Sys2Proof.Machine
end

