-- ==== Sys2Proof/Machine/Platform.lean ====
section
/-! DEFINITION. Power, boot, the manifest and the monitors (R8, R302, R327, R334, R375, R404 to R413, R425, R427). -/

namespace Sys2Proof.Machine

/-! The manifest (R406). -/

/-- R334: the bands of an entry, each beside those before it, as registers. -/
def buildBands (smask : BitVec 16) : List Band → List (W64 × W64) → Option (List (W64 × W64))
  | _, [] => some []
  | bs, (a, b) :: t => match newBand smask bs a b with
    | none => none
    | some x => match bandOf x.1 x.2 with
      | none => none
      | some y => (buildBands smask (bs ++ [y]) t).map (x :: ·)

def entryOk (lost : BitVec 16) (e : PartEntry) : Bool :=
  decide (e.num < 16) && connected e.smask && decide (e.smask &&& lost = 0) && decide (e.bands.length ≤ 16) &&
  (buildBands e.smask [] e.bands).isSome && e.slots.all (· < 1024)

/-- No slice, number or calendar slot is given twice. -/
def entriesApart : List PartEntry → Bool
  | [] => true
  | e :: t => (t.all fun f => decide (e.num ≠ f.num) && decide (e.smask &&& f.smask = 0) &&
      e.slots.all fun i => !f.slots.contains i) && entriesApart t

def State.manifestOk (s : State) (m : Manifest) : Bool :=
  Config.signatureOk (Config.ownerKey s.plat.firmware) m.bodyDigest && decide (1600 ≤ m.modcap ∧ m.modcap ≤ 3200) &&
  !m.parts.isEmpty && m.parts.all (entryOk s.plat.lost) && entriesApart m.parts &&
  decide (sumNat (m.parts.map fun e => e.pshare) ≤ m.modcap)

/-! Building partitions, and their boot from the network (R375, R405 steps 5 and 6, R407, R427). -/

/-- The calendar of a new partition: its own slots OPEN, and every other FOREIGN (log entry 16). -/
def firstCalendar (slots : KeySet) : Sparse Byte :=
  (List.range 1024).foldl (fun m i => if kmem i slots then m else sput 0 i 0xC0 m) []

def newPartition (e : PartEntry) : Partition :=
  { smask := e.smask
    calSlots := e.slots
    running := false
    imageDigest := e.digest
    pshare := e.pshare
    calendar := firstCalendar e.slots
    calNext := none
    tu := []
    eu := []
    events := []
    pass := []
    hadCand := []
    lastVf := []
    lastq := []
    framesUsed := []
    gathering := none
    mailbox := none
    mailOps := []
    snap := ⟨.idle, 0, [], 0⟩
    exports := []
    health := []
    tmapV := 0
    tmapTodo := 0
    dead := 0
    round := 1
    sched := sput 0 33 (BitVec.ofNat 64 (e.pshare % 2 ^ 16)) []
    qcmd := false }

/-- Words written by the GRC into memory that nothing has read. -/
def State.bootWrite (s : State) (part ppa : Nat) (bs : List Byte) : State :=
  (bs.zipIdx).foldl (fun (s : State) e => match s.ppaMem part (ppa + e.2) with
    | some d => s.setHomes (s.homes.writeLine (lineOf d) 0 [(d, e.1)] false false)
    | none => s) s

/-- The page that the GRC reserves for a purpose of its own, within the first band. -/
def State.bootPage (s : State) (part which : Nat) : Nat := match s.bands part with
  | b :: _ => b.pbase * 2 ^ 30 + 4096 * (Config.bootPage part which % (b.size * 2 ^ 18))
  | [] => 0

def regTmapA : Nat := 0xCA
def regTmapV : Nat := 0xCB
def regPwrCap : Nat := 0x70
def regPwrStat : Nat := 0x71

def State.setBands (s : State) (part : Nat) (bs : List (W64 × W64)) : State :=
  (bs.zipIdx).foldl (fun s e => (s.setPartReg part (0x50 + 2 * e.2) e.1.1).setPartReg part (0x51 + 2 * e.2) e.1.2) s

/-- The registers, routes and map of a new partition. -/
def State.buildPart (s : State) (m : Manifest) (e : PartEntry) : State :=
  let n := e.num
  let s1 := s.setPart n (newPartition e)
  let s2 := (((s1.setBands n ((buildBands e.smask [] e.bands).getD [])).setPartReg n 0xC6 m.ecoefA).setPartReg n 0xC7
    (m.ecoefB &&& 0xFFFF)).setPartReg n regPwrCap (BitVec.ofNat 64 (e.pshare % 2 ^ 16 * 2 ^ 16 + e.pshare % 2 ^ 16))
  let page := s2.bootPage n 0
  let v := s2.bootPage n 1
  let s3 := (s2.setPartReg n regTmapA (BitVec.ofNat 64 page)).setPartReg n regTmapV (BitVec.ofNat 64 (2 ^ 48 + v))
  let s4 := (bitSet16 e.smask).foldl (fun (s : State) sl => s.defaultRoutes sl) s3
  match s4.part? n with
  | some p => (s4.bootWrite n page ((s4.tmapWords p 0).flatMap fun w => leBytes 8 w.toNat)).setPart n
      { p with health := s4.viewOf p }
  | none => s4

/-- R407: the image is checked, written at PPA 0 and started, or the partition stays halted. -/
def State.bootPart (s : State) (e : PartEntry) : State :=
  let n := e.num
  if Config.digest e.image = e.digest ∧ s.inBand n 0 = true then
    let s1 := (s.bootWrite n 0 e.image).modPart n fun p => { p with running := true }
    (bitSet16 e.smask).foldl (fun (s : State) sl =>
      let block := s.bootPage n (2 + sl)
      (s.bootWrite n block ((s.bootBlock n sl).flatMap fun w => leBytes 8 w.toNat)).startHarts sl 0 block) s1
  else s.setPlat { s.plat with bootFail := s.plat.bootFail ++ [n] }

/-- Steps 5 and 6, and the ticks of the calendar. -/
def State.build (s : State) (m : Manifest) : State :=
  let s1 := m.parts.foldl (fun s e => s.buildPart m e) s
  let s2 := m.parts.foldl (fun s e => s.bootPart e) s1
  (s2.at (nextMultiple 4 s.tick) .calendarSlotStart).at (nextMultiple 4096 s.tick) .calendarPeriodStart

/-- A manifest comes on the management port: it must be newer than the current one. Partitions that run go on; the
manifest that is current at the next boot counts for them. -/
def execManifestReceive (m : Manifest) (s : State) : Out :=
  .next <|
  if s.plat.inReset || !s.plat.power then s
  else
    let newer := match s.plat.flash.manifest with
      | some old => decide (old.version < m.version)
      | none => true
    if newer && s.manifestOk m then
      let s1 := s.setPlat { s.plat with flash := { s.plat.flash with manifest := some m } }
      if s1.pkg.parts.isEmpty then s1.build m else s1
    else s

/-! Power (R404, R405, R412). -/

/-- The number under which a module that stays in reset is reported. -/
def bootFailModule : Nat := 16

def Flash.accepts (f : Flash) (i : Firmware) : Bool :=
  Config.signatureOk Config.fusedKey i.digest && decide (f.antiRollback ≤ i.version)

/-- The units of the flash list are retired from the start. -/
def State.showAll (s : State) : State :=
  s.plat.flash.retired.foldl (fun (s : State) e =>
    let s1 := s.showRetired e.1 e.2
    match e.2 with
    | .slice => s1.setPlat { s1.plat with lost := s1.plat.lost ||| bitM 16 e.1 }
    | _ => s1) s

/-- Without power nothing is kept but the flash; the module is what it is. -/
def State.unpowered (s : State) : State :=
  { State.reset with
    agenda := s.agenda
    todo := []
    fresh := s.fresh
    plat := { Platform.reset with power := false, flash := s.plat.flash, module := s.plat.module } }

def execPowerLoss (s : State) : Out := .next s.unpowered

/-- Boot, from power that returns or from the state after reset: steps 1 to 3 of R405, whose self-tests the outside brings in
this tick (log entry 81). -/
def execPowerOn (s : State) : Out :=
  .next <|
  if s.plat.power && !s.plat.inReset then s
  else
    let s0 := if s.plat.power then s else s.unpowered
    let f := s0.plat.flash
    let image := if f.accepts f.image0 then some f.image0 else if f.accepts f.image1 then some f.image1 else none
    match image with
    | none => s0.setPlat { s0.plat with power := true, inReset := true, bootFail := [bootFailModule] }
    | some i =>
      (s0.setPlat { s0.plat with power := true, inReset := false, bootFail := [], firmware := i.digest }).showAll.later .bootBuild

/-- R405, steps 4 to 6: the units that the self-tests of step 3 retired are known. -/
def State.bootBuild (s : State) : State :=
  match s.plat.flash.manifest with
  | some m => if !s.plat.inReset && s.plat.power && s.pkg.parts.isEmpty && s.manifestOk m then s.build m else s
  | none => s

/-- R412: the log keeps the trip. -/
def State.trip (s : State) (slice sensor : Nat) : State :=
  let fl := s.plat.flash
  (s.setPlat { s.plat with flash := { fl with log := fl.log ++ [.trip slice sensor s.tick] } }).unpowered

def execThermalTrip (slice sensor : Nat) (s : State) : Out :=
  .next (if s.plat.power && decide (slice < 16 ∧ sensor < 16) then s.trip slice sensor else s)

/-! Power caps and monitors (R410, R413). -/

def execPwrcapWrite (slice : Nat) (val : W64) (req : Nat) (s : State) : Out :=
  let v := val.toNat
  .next <|
  match s.partOf slice with
  | none => s.reply req replyRefused
  | some p =>
    let share := bitsOf (s.reg slice 0 regPwrCap).toNat 16 16
    let cap := v % 2 ^ 16
    if 2 ^ 32 ≤ v ∨ share < cap ∨ cap < 120 * (bitSet16 (s.smask p)).length then s.reply req replyRefused
    else (s.setPartReg p regPwrCap (BitVec.ofNat 64 (share * 2 ^ 16 + cap))).reply req replyOk

def regMonStat : Nat := 0x72
def regMonThr : Nat := 0x73

/-- The hottest of the sensors, and the first that reads so. -/
def hottest (temps : List Nat) : Nat × Nat :=
  let t := maxList temps
  (t, ((temps.zipIdx).find? fun e => decide (e.1 = t)).elim 0 (·.2))

/-- Sources of the slice's APLIC. -/
def srcTemp : Nat := 1
def srcVolt : Nat := 2

def State.pendSource (s : State) (slice source : Nat) : State :=
  s.setPlat { s.plat with aplic := sset slice (kadd source (sget [] slice s.plat.aplic)) s.plat.aplic }

/-- R302, R329: the APLIC forwards a source as an MSI, through the interrupt routes; where it is set up to send none, the
source stays pending. -/
def State.raiseSource (s : State) (slice source : Nat) : State :=
  let t := Config.aplicTarget s.fresh slice source
  let s1 := { s with fresh := s.fresh + 1 }
  if t.2.2 % 256 = 0 then s1.pendSource slice source else s1.msi slice (t.1 % 128) (t.2.1 % 9) (t.2.2 % 256)

/-- Whether a reading has crossed a threshold. -/
def crosses (old new thr : Nat) : Bool := decide (thr ≤ old) != decide (thr ≤ new)

/-- A new set of readings. A sensor at 105 °C trips the module. -/
def execMonitorUpdate (slice : Nat) (temps : List Nat) (vcore vmem pcode : Nat) (s : State) : Out :=
  .next <|
  if 16 ≤ slice ∨ s.plat.power = false ∨ s.plat.inReset = true then s
  else
    let (t, i) := hottest (temps.take 16)
    let old := (s.reg slice 0 regMonStat).toNat
    let thr := (s.reg slice 0 regMonThr).toNat
    let v := t % 2 ^ 8 * 2 ^ 56 + i * 2 ^ 52 + vcore % 2 ^ 16 * 2 ^ 36 + vmem % 2 ^ 16 * 2 ^ 20 + pcode % 2 ^ 20
    let s1 := (s.setReg slice 0 regMonStat (BitVec.ofNat 64 v)).setPlat { s.plat with temps := sput 0 slice t s.plat.temps }
    if 105 ≤ t then s1.trip slice i
    else
      let en := bitN thr 0
      let s2 := if en && crosses (bitsOf old 56 8) (t % 2 ^ 8) (bitsOf thr 56 8) then s1.raiseSource slice srcTemp else s1
      let c0 := bitsOf old 36 16
      let c1 := vcore % 2 ^ 16
      if en && (crosses c0 c1 (bitsOf thr 40 16) || crosses c0 c1 (bitsOf thr 24 16)) then s2.raiseSource slice srcVolt else s2

end Sys2Proof.Machine
end

