-- ==== Sys2Proof/Machine/Agenda.lean ====
section
/-! DEFINITION. What comes next (log entry 2): what the outside brings, the instruction at issue, the machine's own
events, and the passing of a tick. -/

namespace Sys2Proof.Machine

/-- An event of the table, or an operation of a host core: anything that is no word of a troupe. -/
def isEvent (i : Instr) : Bool := (encode i).isNone

/-- The meaning of an event the machine raised itself. -/
def runEv (e : Ev) (s : State) : Out :=
  match e with
  | .clauseIssue core slot => execClauseIssue core slot s
  | .pipeGrant core => execPipeGrant core s
  | .stallRelease core slot => execStallRelease core slot s
  | .loadDataReturn op line => execLoadDataReturn op line s
  | .gwctReceive op line => execGwctReceive op line s
  | .troupeEnd core slot => execTroupeEnd core slot s
  | .sleepWake core slot => execSleepWake core slot s
  | .blockArrival block => execBlockArrival block s
  | .unitZero core => execUnitZero core s
  | .blockStart block => execBlockStart block s
  | .blockEnd block => execBlockEnd block s
  | .pinRegistration op line => execPinRegistration op line s
  | .pinnedForcedWriteback core line => execPinnedForcedWriteback core line s
  | .retry op line => execRetry op line s
  | .reclaim block => execReclaim block s
  | .spill block => execSpill block s
  | .refill block => execRefill block s
  | .cquotaWrite slice core vf val req => execCquotaWrite slice core vf val req s
  | .turnstilePoll waiter => execTurnstilePoll waiter s
  | .matrixPeriodStart core => execMatrixPeriodStart core s
  | .matrixWriteback core => execMatrixWriteback core s
  | .slotPortStart core => execSlotPortStart core s
  | .slotPortEnd core => execSlotPortEnd core s
  | .turnstileOpArrival op => execTurnstileOpArrival op s
  | .deferredOpApply op => execDeferredOpApply op s
  | .turnstileAcknowledgement op => execTurnstileAcknowledgement op s
  | .wakeReceive waiter => execWakeReceive waiter s
  | .waitTimeout core slot => execWaitTimeout core slot s
  | .heldReleaseSend op => execHeldReleaseSend op s
  | .fenceComplete core slot => execFenceComplete core slot s
  | .waitoutComplete core slot => execWaitoutComplete core slot s
  | .chainStart core => execChainStart core s
  | .recordRead chain => execRecordRead chain s
  | .recordMoveEnd chain => execRecordMoveEnd chain s
  | .completionAdd chain => execCompletionAdd chain s
  | .chainEnd chain => execChainEnd chain s
  | .cbloadEnd load => execCbloadEnd load s
  | .reduceContribution contrib => execReduceContribution contrib s
  | .heldContributionTimeout line => execHeldContributionTimeout line s
  | .xbarRequest op => execXbarRequest op s
  | .xbarSpillRetry op => execXbarSpillRetry op s
  | .redirectedAccess op line => execRedirectedAccess op line s
  | .residentGangStart ticket => execResidentGangStart ticket s
  | .homeWrite op line => execHomeWrite op line s
  | .homeRead op line => execHomeRead op line s
  | .recall slice line => execRecall slice line s
  | .recallAck line => execRecallAck line s
  | .channelTransfer slice channel => execChannelTransfer slice channel s
  | .l2pinqWrite slice vf val req => execL2pinqWrite slice vf val req s
  | .sltokWrite slice vf val req => execSltokWrite slice vf val req s
  | .hartStoreDrain h line => execHartStoreDrain h line s
  | .portCtlWrite h port val => execPortCtlWrite h port val s
  | .portCancelWrite h port => execPortCancelWrite h port s
  | .portWaitEnd h port => execPortWaitEnd h port s
  | .contextSave core slot => execContextSave core slot s
  | .ringEntryDelivery slice => execRingEntryDelivery slice s
  | .troupeRestore saved => execTroupeRestore saved s
  | .vfcfgWrite slice vf val req => execVfcfgWrite slice vf val req s
  | .vfReset slice vf val req => execVfReset slice vf val req s
  | .vfResetComplete part vf => execVfResetComplete part vf s
  | .migStart slice chan val req => execMigStart slice chan val req s
  | .migEnd slice chan req => execMigEnd slice chan req s
  | .migAbort slice chan req => execMigAbort slice chan req s
  | .migrationPass slice chan => execMigrationPass slice chan s
  | .addslice part => execAddslice part s
  | .remslice part => execRemslice part s
  | .setband part => execSetband part s
  | .clrband part => execClrband part s
  | .attest part => execAttest part s
  | .tlbinvComplete req => execTlbinvComplete req s
  | .rdcinvComplete req => execRdcinvComplete req s
  | .pinComplete req => execPinComplete req s
  | .bankAck pair => .next (s.bankAck pair)
  | .pinArrive req slice => .next (execPinArrive req slice s)
  | .homeReads part vf lines => .next (s.homeReads part vf lines)
  | .qcmdEnable slice val req => execQcmdEnable slice val req s
  | .qcmdDisable slice val req => execQcmdDisable slice val req s
  | .calendarLoad slice req => execCalendarLoad slice req s
  | .ticketFetch part queue => execTicketFetch part queue s
  | .ticketReady ticket => execTicketReady ticket s
  | .placement slice => execPlacement slice s
  | .ticketComplete ticket => execTicketComplete ticket s
  | .calendarSlotStart => execCalendarSlotStart s
  | .calendarPeriodStart => execCalendarPeriodStart s
  | .roundStart part => execRoundStart part s
  | .wholeBlockSave block => execWholeBlockSave block s
  | .snapshotStart slice val req => execSnapshotStart slice val req s
  | .snapshotAbort slice req => execSnapshotAbort slice req s
  | .snapshotCut part => execSnapshotCut part s
  | .snapshotComplete part => execSnapshotComplete part s
  | .sliceLoss slice => execSliceLoss slice s
  | .powerOn => execPowerOn s
  | .bootBuild => .next s.bootBuild
  | .pwrcapWrite slice val req => execPwrcapWrite slice val req s
  | .nirtLoad slice val req => execNirtLoad slice val req s
  | .xptblLoad slice val req => execXptblLoad slice val req s
  | .peerrtLoad slice val req => execPeerrtLoad slice val req s
  | .switchForward packet => execSwitchForward packet s
  | .messageDelivery packet => execMessageDelivery packet s
  | .messageStatusReply msg => execMessageStatusReply msg s
  | .sequenceSkip seq => execSequenceSkip seq s
  | .niMaskRefresh part => execNiMaskRefresh part s
  | .packetReturn packet => execPacketReturn packet s
  | .flowResendTimeout flow seq => execFlowResendTimeout flow seq s
  | .systemRegisterWrite slice unit reg val req => execSystemRegisterWrite slice unit reg val req s
  | .sstcTimer h virt => execSstcTimer h virt s
  | .hartRun h => .next (s.hartRun h)

/-- The word that the troupe at issue runs next. -/
def State.nextWord (s : State) : Option Instr :=
  match s.ctx? with
  | none => none
  | some c => match c.iss.words[c.iss.idx]? with
    | none => none
    | some w => (decode w).toOption

/-- The order of a tick: writes at the homes (R312); what was deferred to it, which arrived before anything of the tick
(R230); the rest. -/
def Ev.rank : Ev → Nat
  | .homeWrite .. | .recallAck _ => 0
  | .deferredOpApply _ => 1
  | _ => 2

/-- A tick passes (R8): the events whose tick has come are due. -/
def State.passTick (s : State) : State :=
  let now := s.tick + 1
  let due := (s.timers.filter fun e => decide (e.1 ≤ now)).map (·.2)
  { s with
    flight := { s.flight with guesses := s.guessAll }
    tick := now
    timers := s.timers.filter fun e => decide (now < e.1)
    todo := s.todo ++ (List.range 3).flatMap fun r => due.filter fun e => decide (e.rank = r) }

/-- The oldest event of work in progress, or a tick where nothing is left to do in this one. -/
def State.runTodo (s : State) : Out :=
  match s.todo with
  | e :: t => runEv e { s with todo := t }
  | [] => .next s.passTick

end Sys2Proof.Machine
end

