-- ==== Sys2Proof/Machine/Dispatch.lean ====
section
/-! DEFINITION. The dispatch: one arm for each constructor of Instr, each a direct call of its meaning. -/

namespace Sys2Proof.Machine

def exec (i : Instr) (s : State) : Host.Outcome State Fault Refusal :=
  match i with
  | .iadd t o => Sys2Proof.Machine.execIadd t o s
  | .iaddI o => Sys2Proof.Machine.execIaddI o s
  | .isub t o => Sys2Proof.Machine.execIsub t o s
  | .imul t hi o => Sys2Proof.Machine.execImul t hi o s
  | .imulI o => Sys2Proof.Machine.execImulI o s
  | .imad t o => Sys2Proof.Machine.execImad t o s
  | .imadI o => Sys2Proof.Machine.execImadI o s
  | .imuls t o => Sys2Proof.Machine.execImuls t o s
  | .idiv t nt o => Sys2Proof.Machine.execIdiv t nt o s
  | .irem t nt o => Sys2Proof.Machine.execIrem t nt o s
  | .imin t o => Sys2Proof.Machine.execImin t o s
  | .imax t o => Sys2Proof.Machine.execImax t o s
  | .iclamp t o => Sys2Proof.Machine.execIclamp t o s
  | .iabs t sat o => Sys2Proof.Machine.execIabs t sat o s
  | .ineg t sat o => Sys2Proof.Machine.execIneg t sat o s
  | .iadds t o => Sys2Proof.Machine.execIadds t o s
  | .isubs t o => Sys2Proof.Machine.execIsubs t o s
  | .iaddc t ci c o => Sys2Proof.Machine.execIaddc t ci c o s
  | .isubb t ci c o => Sys2Proof.Machine.execIsubb t ci c o s
  | .idp4 t sa sb sat o => Sys2Proof.Machine.execIdp4 t sa sb sat o s
  | .idp2 t sa sb sat o => Sys2Proof.Machine.execIdp2 t sa sb sat o s
  | .isad t o => Sys2Proof.Machine.execIsad t o s
  | .iscadd t n o => Sys2Proof.Machine.execIscadd t n o s
  | .and t o => Sys2Proof.Machine.execAnd t o s
  | .andI o => Sys2Proof.Machine.execAndI o s
  | .or t o => Sys2Proof.Machine.execOr t o s
  | .orI o => Sys2Proof.Machine.execOrI o s
  | .xor t o => Sys2Proof.Machine.execXor t o s
  | .xorI o => Sys2Proof.Machine.execXorI o s
  | .andn t o => Sys2Proof.Machine.execAndn t o s
  | .lmux t f0 f1 o => Sys2Proof.Machine.execLmux t f0 f1 o s
  | .shl t o => Sys2Proof.Machine.execShl t o s
  | .shlI o => Sys2Proof.Machine.execShlI o s
  | .shr t o => Sys2Proof.Machine.execShr t o s
  | .shrI o => Sys2Proof.Machine.execShrI o s
  | .sra t o => Sys2Proof.Machine.execSra t o s
  | .sraI o => Sys2Proof.Machine.execSraI o s
  | .rot t right o => Sys2Proof.Machine.execRot t right o s
  | .fsh left o => Sys2Proof.Machine.execFsh left o s
  | .popc t o => Sys2Proof.Machine.execPopc t o s
  | .clz t o => Sys2Proof.Machine.execClz t o s
  | .ctz t o => Sys2Proof.Machine.execCtz t o s
  | .brev t o => Sys2Proof.Machine.execBrev t o s
  | .bfe t o => Sys2Proof.Machine.execBfe t o s
  | .bfi t o => Sys2Proof.Machine.execBfi t o s
  | .bperm o => Sys2Proof.Machine.execBperm o s
  | .sext t o => Sys2Proof.Machine.execSext t o s
  | .imsk t o => Sys2Proof.Machine.execImsk t o s
  | .icmp t o => Sys2Proof.Machine.execIcmp t o s
  | .icmpI o => Sys2Proof.Machine.execIcmpI o s
  | .iset t c pd o => Sys2Proof.Machine.execIset t c pd o s
  | .isetI c u pd a imm => Sys2Proof.Machine.execIsetI c u pd a imm s
  | .sel g w64 inv q o => Sys2Proof.Machine.execSel g w64 inv q o s
  | .plop pd pa pb lut => Sys2Proof.Machine.execPlop pd pa pb lut s
  | .pmovToReg d => Sys2Proof.Machine.execPmovToReg d s
  | .pmovToPred a mask => Sys2Proof.Machine.execPmovToPred a mask s
  | .mov w64 o => Sys2Proof.Machine.execMov w64 o s
  | .movi d imm => Sys2Proof.Machine.execMovi d imm s
  | .movhi d imm => Sys2Proof.Machine.execMovhi d imm s
  | .rdlane d a b => Sys2Proof.Machine.execRdlane d a b s
  | .wrlane d a b => Sys2Proof.Machine.execWrlane d a b s
  | .cvti td ts o => Sys2Proof.Machine.execCvti td ts o s
  | .ipack t o => Sys2Proof.Machine.execIpack t o s
  | .iunpack t hi o => Sys2Proof.Machine.execIunpack t hi o s
  | .fadd m o => Sys2Proof.Machine.execFadd m o s
  | .faddI o => Sys2Proof.Machine.execFaddI o s
  | .fsub m o => Sys2Proof.Machine.execFsub m o s
  | .fmul m o => Sys2Proof.Machine.execFmul m o s
  | .fmulI o => Sys2Proof.Machine.execFmulI o s
  | .ffma m nc o => Sys2Proof.Machine.execFfma m nc o s
  | .ffmaI o => Sys2Proof.Machine.execFfmaI o s
  | .fmin m o => Sys2Proof.Machine.execFmin m o s
  | .fmax m o => Sys2Proof.Machine.execFmax m o s
  | .fclamp m o => Sys2Proof.Machine.execFclamp m o s
  | .fcmp m o => Sys2Proof.Machine.execFcmp m o s
  | .fcmpI o => Sys2Proof.Machine.execFcmpI o s
  | .fset m c pd o => Sys2Proof.Machine.execFset m c pd o s
  | .frcp m o => Sys2Proof.Machine.execFrcp m o s
  | .frsq m o => Sys2Proof.Machine.execFrsq m o s
  | .fsqrt m o => Sys2Proof.Machine.execFsqrt m o s
  | .fdiv m o => Sys2Proof.Machine.execFdiv m o s
  | .fex2 m o => Sys2Proof.Machine.execFex2 m o s
  | .flg2 m o => Sys2Proof.Machine.execFlg2 m o s
  | .fsin m o => Sys2Proof.Machine.execFsin m o s
  | .fcos m o => Sys2Proof.Machine.execFcos m o s
  | .ftanh m o => Sys2Proof.Machine.execFtanh m o s
  | .fsigm m o => Sys2Proof.Machine.execFsigm m o s
  | .fsilu m o => Sys2Proof.Machine.execFsilu m o s
  | .ffrc m o => Sys2Proof.Machine.execFfrc m o s
  | .frnd m o => Sys2Proof.Machine.execFrnd m o s
  | .fldexp m o => Sys2Proof.Machine.execFldexp m o s
  | .fmant m o => Sys2Proof.Machine.execFmant m o s
  | .fexpo m o => Sys2Proof.Machine.execFexpo m o s
  | .dadd m o => Sys2Proof.Machine.execDadd m o s
  | .dmul m o => Sys2Proof.Machine.execDmul m o s
  | .dfma m nc o => Sys2Proof.Machine.execDfma m nc o s
  | .dcmp m o => Sys2Proof.Machine.execDcmp m o s
  | .ddiv m o => Sys2Proof.Machine.execDdiv m o s
  | .dsqrt m o => Sys2Proof.Machine.execDsqrt m o s
  | .hadd2 m bf o => Sys2Proof.Machine.execHadd2 m bf o s
  | .hmul2 m bf o => Sys2Proof.Machine.execHmul2 m bf o s
  | .hfma2 m bf nc o => Sys2Proof.Machine.execHfma2 m bf nc o s
  | .hmin2 m bf o => Sys2Proof.Machine.execHmin2 m bf o s
  | .hmax2 m bf o => Sys2Proof.Machine.execHmax2 m bf o s
  | .hcmp2 m bf o => Sys2Proof.Machine.execHcmp2 m bf o s
  | .fdot2 m bf o => Sys2Proof.Machine.execFdot2 m bf o s
  | .cvtf fs fd neg abs ftz rm o => Sys2Proof.Machine.execCvtf fs fd neg abs ftz rm o s
  | .cvtfi fs td ftz rm o => Sys2Proof.Machine.execCvtfi fs td ftz rm o s
  | .cvtif ts fd rm o => Sys2Proof.Machine.execCvtif ts fd rm o s
  | .cvt8Encode sat e5m2 wf hi ftz rm seed o => Sys2Proof.Machine.execCvt8Encode sat e5m2 wf hi ftz rm seed o s
  | .cvt8Decode e5m2 wf pos ftz o => Sys2Proof.Machine.execCvt8Decode e5m2 wf pos ftz o s
  | .cvtmxEncode ef ftz rm seed o => Sys2Proof.Machine.execCvtmxEncode ef ftz rm seed o s
  | .cvtmxDecode ef ftz rm o => Sys2Proof.Machine.execCvtmxDecode ef ftz rm o s
  | .cvt4Pack o => Sys2Proof.Machine.execCvt4Pack o s
  | .cvt4Deq o => Sys2Proof.Machine.execCvt4Deq o s
  | .bra g off => Sys2Proof.Machine.execBra g off s
  | .brx g r => Sys2Proof.Machine.execBrx g r s
  | .call off => Sys2Proof.Machine.execCall off s
  | .callx r => Sys2Proof.Machine.execCallx r s
  | .ret r => Sys2Proof.Machine.execRet r s
  | .exit => Sys2Proof.Machine.execExit s
  | .trap imm => Sys2Proof.Machine.execTrap imm s
  | .tret => Sys2Proof.Machine.execTret s
  | .bkpt imm => Sys2Proof.Machine.execBkpt imm s
  | .yield => Sys2Proof.Machine.execYield s
  | .nop => Sys2Proof.Machine.execNop s
  | .sleep ticks => Sys2Proof.Machine.execSleep ticks s
  | .shfl mode seg w64 o => Sys2Proof.Machine.execShfl mode seg w64 o s
  | .vote mode inv q d => Sys2Proof.Machine.execVote mode inv q d s
  | .matchLanes w64 o => Sys2Proof.Machine.execMatchLanes w64 o s
  | .redux op t o => Sys2Proof.Machine.execRedux op t o s
  | .fredux f64 op neg abs ftz rm o => Sys2Proof.Machine.execFredux f64 op neg abs ftz rm o s
  | .scan op t excl o => Sys2Proof.Machine.execScan op t excl o s
  | .movsRead sel d => Sys2Proof.Machine.execMovsRead sel d s
  | .movsWrite a => Sys2Proof.Machine.execMovsWrite a s
  | .amask live d => Sys2Proof.Machine.execAmask live d s
  | .brec sp b sa => Sys2Proof.Machine.execBrec sp b sa s
  | .brmk b sa => Sys2Proof.Machine.execBrmk b sa s
  | .brset f b sa => Sys2Proof.Machine.execBrset f b sa s
  | .ld d m => Sys2Proof.Machine.execLd d m s
  | .ldc d m => Sys2Proof.Machine.execLdc d m s
  | .st g data m => Sys2Proof.Machine.execSt g data m s
  | .ldu d m => Sys2Proof.Machine.execLdu d m s
  | .stu g data m => Sys2Proof.Machine.execStu g data m s
  | .atom g op d m => Sys2Proof.Machine.execAtom g op d m s
  | .atomcas g d m => Sys2Proof.Machine.execAtomcas g d m s
  | .red g op data m => Sys2Proof.Machine.execRed g op data m s
  | .prefetch m => Sys2Proof.Machine.execPrefetch m s
  | .ldx d m => Sys2Proof.Machine.execLdx d m s
  | .stx data m => Sys2Proof.Machine.execStx data m s
  | .atomx op d m => Sys2Proof.Machine.execAtomx op d m s
  | .cwb range => Sys2Proof.Machine.execCwb range s
  | .cinv range => Sys2Proof.Machine.execCinv range s
  | .icinv range => Sys2Proof.Machine.execIcinv range s
  | .fetchbar => Sys2Proof.Machine.execFetchbar s
  | .pin d sa sb => Sys2Proof.Machine.execPin d sa sb s
  | .unpin d sa sb => Sys2Proof.Machine.execUnpin d sa sb s
  | .pinq d sa => Sys2Proof.Machine.execPinq d sa s
  | .mmaE4m3 o => Sys2Proof.Machine.execMmaE4m3 o s
  | .mmaE5m2 o => Sys2Proof.Machine.execMmaE5m2 o s
  | .mmaBf16 o => Sys2Proof.Machine.execMmaBf16 o s
  | .mmaF16 o => Sys2Proof.Machine.execMmaF16 o s
  | .mmaF32 o => Sys2Proof.Machine.execMmaF32 o s
  | .mmaI8 ua ub o => Sys2Proof.Machine.execMmaI8 ua ub o s
  | .mmaI4 ua ub o => Sys2Proof.Machine.execMmaI4 ua ub o s
  | .mmaMxf6 a23 b23 x c o => Sys2Proof.Machine.execMmaMxf6 a23 b23 x c o s
  | .mmaMxf4 x c o => Sys2Proof.Machine.execMmaMxf4 x c o s
  | .mmaq g x c o => Sys2Proof.Machine.execMmaq g x c o s
  | .mmaspE4m3 x o => Sys2Proof.Machine.execMmaspE4m3 x o s
  | .mmaspBf16 x o => Sys2Proof.Machine.execMmaspBf16 x o s
  | .sclaim d mask => Sys2Proof.Machine.execSclaim d mask s
  | .srel mask => Sys2Proof.Machine.execSrel mask s
  | .sfill slot cnt off a => Sys2Proof.Machine.execSfill slot cnt off a s
  | .sdrain slot cnt off d => Sys2Proof.Machine.execSdrain slot cnt off d s
  | .sxpose dst src es rc => Sys2Proof.Machine.execSxpose dst src es rc s
  | .mmacvt slot fmt sat t ftz rm off seed a => Sys2Proof.Machine.execMmacvt slot fmt sat t ftz rm off seed a s
  | .copy d sa => Sys2Proof.Machine.execCopy d sa s
  | .cbload n d sa => Sys2Proof.Machine.execCbload n d sa s
  | .cpstat d sa => Sys2Proof.Machine.execCpstat d sa s
  | .cpabort chain => Sys2Proof.Machine.execCpabort chain s
  | .tadd t amt => Sys2Proof.Machine.execTadd t amt s
  | .tfetch d t amt => Sys2Proof.Machine.execTfetch d t amt s
  | .tmax t sb => Sys2Proof.Machine.execTmax t sb s
  | .tread d t => Sys2Proof.Machine.execTread d t s
  | .treset d t sb => Sys2Proof.Machine.execTreset d t sb s
  | .wait d sa n all limit => Sys2Proof.Machine.execWait d sa n all limit s
  | .waitout l => Sys2Proof.Machine.execWaitout l s
  | .fence scope => Sys2Proof.Machine.execFence scope s
  | .launch d sa => Sys2Proof.Machine.execLaunch d sa s
  | .qstat d sa what => Sys2Proof.Machine.execQstat d sa what s
  | .msend nw gtd t eth vreg len d sa sb => Sys2Proof.Machine.execMsend nw gtd t eth vreg len d sa sb s
  | .msendSp nw gtd t eth len d sa sb sc => Sys2Proof.Machine.execMsendSp nw gtd t eth len d sa sb sc s
  | .mroute nw d sa => Sys2Proof.Machine.execMroute nw d sa s
  | .ecall call n d sa => Sys2Proof.Machine.execEcall call n d sa s
  | .sysrd reg d sa => Sys2Proof.Machine.execSysrd reg d sa s
  | .syswr reg d sa sb => Sys2Proof.Machine.execSyswr reg d sa sb s
  | .tlbinv kind vf d sa sb sc => Sys2Proof.Machine.execTlbinv kind vf d sa sb sc s
  | .rdcinv kind d sa sb => Sys2Proof.Machine.execRdcinv kind d sa sb s
  | .hartFence h => Sys2Proof.Machine.execHartFence h s
  | .hartFenceI h => Sys2Proof.Machine.execHartFenceI h s
  | .cboClean h rs1 => Sys2Proof.Machine.execCboClean h rs1 s
  | .cboFlush h rs1 => Sys2Proof.Machine.execCboFlush h rs1 s
  | .cboInval h rs1 => Sys2Proof.Machine.execCboInval h rs1 s
  | .hartCounterLoad h rd rs1 off => Sys2Proof.Machine.execHartCounterLoad h rd rs1 off s
  | .hartAmoaddD h rd rs1 rs2 => Sys2Proof.Machine.execHartAmoaddD h rd rs1 rs2 s
  | .hartAmomaxuD h rd rs1 rs2 => Sys2Proof.Machine.execHartAmomaxuD h rd rs1 rs2 s
  | .hartLr h w64 rd rs1 => Sys2Proof.Machine.execHartLr h w64 rd rs1 s
  | .hartSc h w64 rd rs1 rs2 => Sys2Proof.Machine.execHartSc h w64 rd rs1 rs2 s
  | .hartAmo h op w64 rd rs1 rs2 => Sys2Proof.Machine.execHartAmo h op w64 rd rs1 rs2 s
  | .hartSfenceVma h => Sys2Proof.Machine.execHartSfenceVma h s
  | .hartHfenceVvma h => Sys2Proof.Machine.execHartHfenceVvma h s
  | .hartHfenceGvma h => Sys2Proof.Machine.execHartHfenceGvma h s
  | .clauseIssue core slot => Sys2Proof.Machine.execClauseIssue core slot s
  | .pipeGrant core => Sys2Proof.Machine.execPipeGrant core s
  | .stallRelease core slot => Sys2Proof.Machine.execStallRelease core slot s
  | .loadDataReturn op line => Sys2Proof.Machine.execLoadDataReturn op line s
  | .gwctReceive op line => Sys2Proof.Machine.execGwctReceive op line s
  | .troupeEnd core slot => Sys2Proof.Machine.execTroupeEnd core slot s
  | .sleepWake core slot => Sys2Proof.Machine.execSleepWake core slot s
  | .blockArrival block => Sys2Proof.Machine.execBlockArrival block s
  | .unitZero core => Sys2Proof.Machine.execUnitZero core s
  | .blockStart block => Sys2Proof.Machine.execBlockStart block s
  | .blockEnd block => Sys2Proof.Machine.execBlockEnd block s
  | .pinRegistration op line => Sys2Proof.Machine.execPinRegistration op line s
  | .pinnedForcedWriteback core line => Sys2Proof.Machine.execPinnedForcedWriteback core line s
  | .retry op line => Sys2Proof.Machine.execRetry op line s
  | .reclaim block => Sys2Proof.Machine.execReclaim block s
  | .spill block => Sys2Proof.Machine.execSpill block s
  | .refill block => Sys2Proof.Machine.execRefill block s
  | .cquotaWrite slice core vf val req => Sys2Proof.Machine.execCquotaWrite slice core vf val req s
  | .turnstilePoll waiter => Sys2Proof.Machine.execTurnstilePoll waiter s
  | .matrixPeriodStart core => Sys2Proof.Machine.execMatrixPeriodStart core s
  | .matrixWriteback core => Sys2Proof.Machine.execMatrixWriteback core s
  | .slotPortStart core => Sys2Proof.Machine.execSlotPortStart core s
  | .turnstileOpArrival op => Sys2Proof.Machine.execTurnstileOpArrival op s
  | .deferredOpApply op => Sys2Proof.Machine.execDeferredOpApply op s
  | .wakeReceive waiter => Sys2Proof.Machine.execWakeReceive waiter s
  | .waitTimeout core slot => Sys2Proof.Machine.execWaitTimeout core slot s
  | .heldReleaseSend op => Sys2Proof.Machine.execHeldReleaseSend op s
  | .fenceComplete core slot => Sys2Proof.Machine.execFenceComplete core slot s
  | .waitoutComplete core slot => Sys2Proof.Machine.execWaitoutComplete core slot s
  | .chainStart core => Sys2Proof.Machine.execChainStart core s
  | .recordRead chain => Sys2Proof.Machine.execRecordRead chain s
  | .recordMoveEnd chain => Sys2Proof.Machine.execRecordMoveEnd chain s
  | .completionAdd chain => Sys2Proof.Machine.execCompletionAdd chain s
  | .chainEnd chain => Sys2Proof.Machine.execChainEnd chain s
  | .cbloadEnd load => Sys2Proof.Machine.execCbloadEnd load s
  | .reduceContribution contrib => Sys2Proof.Machine.execReduceContribution contrib s
  | .heldContributionTimeout line => Sys2Proof.Machine.execHeldContributionTimeout line s
  | .xbarRequest op => Sys2Proof.Machine.execXbarRequest op s
  | .xbarSpillRetry op => Sys2Proof.Machine.execXbarSpillRetry op s
  | .redirectedAccess op line => Sys2Proof.Machine.execRedirectedAccess op line s
  | .residentGangStart ticket => Sys2Proof.Machine.execResidentGangStart ticket s
  | .homeWrite op line => Sys2Proof.Machine.execHomeWrite op line s
  | .homeRead op line => Sys2Proof.Machine.execHomeRead op line s
  | .recall slice line => Sys2Proof.Machine.execRecall slice line s
  | .recallAck line => Sys2Proof.Machine.execRecallAck line s
  | .channelTransfer slice channel => Sys2Proof.Machine.execChannelTransfer slice channel s
  | .l2pinqWrite slice vf val req => Sys2Proof.Machine.execL2pinqWrite slice vf val req s
  | .sltokWrite slice vf val req => Sys2Proof.Machine.execSltokWrite slice vf val req s
  | .hartStoreDrain h line => Sys2Proof.Machine.execHartStoreDrain h line s
  | .portCtlWrite h port val => Sys2Proof.Machine.execPortCtlWrite h port val s
  | .portCancelWrite h port => Sys2Proof.Machine.execPortCancelWrite h port s
  | .portWaitEnd h port => Sys2Proof.Machine.execPortWaitEnd h port s
  | .uncorrectableError at_ vf => Sys2Proof.Machine.execUncorrectableError at_ vf s
  | .unitSelfTest slice unit index lasting retired => Sys2Proof.Machine.execUnitSelfTest slice unit index lasting retired s
  | .contextSave core slot => Sys2Proof.Machine.execContextSave core slot s
  | .ringEntryDelivery slice => Sys2Proof.Machine.execRingEntryDelivery slice s
  | .troupeRestore saved => Sys2Proof.Machine.execTroupeRestore saved s
  | .vfcfgWrite slice vf val req => Sys2Proof.Machine.execVfcfgWrite slice vf val req s
  | .vfReset slice vf val req => Sys2Proof.Machine.execVfReset slice vf val req s
  | .vfResetComplete part vf => Sys2Proof.Machine.execVfResetComplete part vf s
  | .migStart slice chan val req => Sys2Proof.Machine.execMigStart slice chan val req s
  | .migEnd slice chan req => Sys2Proof.Machine.execMigEnd slice chan req s
  | .migAbort slice chan req => Sys2Proof.Machine.execMigAbort slice chan req s
  | .migrationPass slice chan => Sys2Proof.Machine.execMigrationPass slice chan s
  | .addslice part => Sys2Proof.Machine.execAddslice part s
  | .remslice part => Sys2Proof.Machine.execRemslice part s
  | .setband part => Sys2Proof.Machine.execSetband part s
  | .clrband part => Sys2Proof.Machine.execClrband part s
  | .attest part => Sys2Proof.Machine.execAttest part s
  | .tlbinvComplete req => Sys2Proof.Machine.execTlbinvComplete req s
  | .qcmdEnable slice val req => Sys2Proof.Machine.execQcmdEnable slice val req s
  | .qcmdDisable slice val req => Sys2Proof.Machine.execQcmdDisable slice val req s
  | .calendarLoad slice req => Sys2Proof.Machine.execCalendarLoad slice req s
  | .ticketFetch part queue => Sys2Proof.Machine.execTicketFetch part queue s
  | .ticketReady ticket => Sys2Proof.Machine.execTicketReady ticket s
  | .placement slice => Sys2Proof.Machine.execPlacement slice s
  | .ticketComplete ticket => Sys2Proof.Machine.execTicketComplete ticket s
  | .calendarSlotStart => Sys2Proof.Machine.execCalendarSlotStart s
  | .calendarPeriodStart => Sys2Proof.Machine.execCalendarPeriodStart s
  | .roundStart part => Sys2Proof.Machine.execRoundStart part s
  | .wholeBlockSave block => Sys2Proof.Machine.execWholeBlockSave block s
  | .snapshotStart slice val req => Sys2Proof.Machine.execSnapshotStart slice val req s
  | .snapshotAbort slice req => Sys2Proof.Machine.execSnapshotAbort slice req s
  | .snapshotCut part => Sys2Proof.Machine.execSnapshotCut part s
  | .snapshotComplete part => Sys2Proof.Machine.execSnapshotComplete part s
  | .sliceLoss slice => Sys2Proof.Machine.execSliceLoss slice s
  | .powerOn => Sys2Proof.Machine.execPowerOn s
  | .manifestReceive m => Sys2Proof.Machine.execManifestReceive m s
  | .powerLoss => Sys2Proof.Machine.execPowerLoss s
  | .thermalTrip slice sensor => Sys2Proof.Machine.execThermalTrip slice sensor s
  | .pwrcapWrite slice val req => Sys2Proof.Machine.execPwrcapWrite slice val req s
  | .monitorUpdate slice temps vcore vmem pcode => Sys2Proof.Machine.execMonitorUpdate slice temps vcore vmem pcode s
  | .nirtLoad slice val req => Sys2Proof.Machine.execNirtLoad slice val req s
  | .xptblLoad slice val req => Sys2Proof.Machine.execXptblLoad slice val req s
  | .peerrtLoad slice val req => Sys2Proof.Machine.execPeerrtLoad slice val req s
  | .switchForward packet => Sys2Proof.Machine.execSwitchForward packet s
  | .transitCheck slice words cur eth pkt => Sys2Proof.Machine.execTransitCheck slice words cur eth pkt s
  | .messageDelivery packet => Sys2Proof.Machine.execMessageDelivery packet s
  | .messageStatusReply msg => Sys2Proof.Machine.execMessageStatusReply msg s
  | .sequenceSkip seq => Sys2Proof.Machine.execSequenceSkip seq s
  | .linkTransferFail link again => Sys2Proof.Machine.execLinkTransferFail link again s
  | .linkLaneTest link lowerGood upperGood => Sys2Proof.Machine.execLinkLaneTest link lowerGood upperGood s
  | .niMaskRefresh part => Sys2Proof.Machine.execNiMaskRefresh part s
  | .packetReturn packet => Sys2Proof.Machine.execPacketReturn packet s
  | .flowResendTimeout flow seq => Sys2Proof.Machine.execFlowResendTimeout flow seq s
  | .flowAck flow seq data poison => Sys2Proof.Machine.execFlowAck flow seq data poison s
  | .flowReset smod flow epoch => Sys2Proof.Machine.execFlowReset smod flow epoch s
  | .flowResetAck flow => Sys2Proof.Machine.execFlowResetAck flow s
  | .peerRequest m => Sys2Proof.Machine.execPeerRequest m s
  | .ethFrameReceive f => Sys2Proof.Machine.execEthFrameReceive f s
  | .linkTraining slice link peer => Sys2Proof.Machine.execLinkTraining slice link peer s
  | .systemRegisterWrite slice unit reg val req => Sys2Proof.Machine.execSystemRegisterWrite slice unit reg val req s
  | .correctableError slice unit index => Sys2Proof.Machine.execCorrectableError slice unit index s
  | .slotPortEnd core => Sys2Proof.Machine.execSlotPortEnd core s
  | .turnstileAcknowledgement op => Sys2Proof.Machine.execTurnstileAcknowledgement op s
  | .rdcinvComplete req => Sys2Proof.Machine.execRdcinvComplete req s
  | .pinComplete req => Sys2Proof.Machine.execPinComplete req s
  | .peerStopsAnswering slice link => Sys2Proof.Machine.execPeerStopsAnswering slice link s
  | .hartStore h w rs1 rs2 off => Sys2Proof.Machine.execHartStore h w rs1 rs2 off s
  | .sstcTimer h virt => Sys2Proof.Machine.execSstcTimer h virt s

end Sys2Proof.Machine
end

