-- ==== Sys2Proof/Machine/Step.lean ====
section
/-! DEFINITION. One step of the module, and the state in which the next step runs a given instruction. -/

namespace Sys2Proof.Machine

/-- What the machine does by itself: the instruction at issue; then the oldest event of work in progress; and where nothing
is left in this tick, the next tick. -/
def State.work (s : State) : Host.Outcome State Fault Refusal :=
  match s.nextWord with
  | some i => exec i s
  | none => s.runTodo

/-- One step: what the outside brings comes first, and a tick that it names passes when nothing is left to do in the one
before (log entry 2). -/
def step (s : State) : Host.Outcome State Fault Refusal :=
  match s.agenda with
  | .event i :: t => if isEvent i then exec i { s with agenda := t } else .next { s with agenda := t }
  | .tick :: t => if s.nextWord.isNone && s.todo.isEmpty then .next (State.passTick { s with agenda := t }) else s.work
  | [] => s.work

/-- A block of one troupe of VF 0 in partition 0 on core 0, with every register a word can name (log entry 2). -/
def launchedBlock : Block :=
  ⟨0, ⟨0, 0, .u, 0⟩, 0, 0, 0, 0, 0, 0, [0], [], [], 0, 0, 0, 0, [], [], .running, 0, [], 0, [], [], 0, false⟩

/-- R65: a troupe at its start, with a clause of the given words in its decode buffer. -/
def launchedTroupe (words : List W64) : Troupe :=
  ⟨0, 0, 192, [], LaneRegs.zero, 0, UniRegs.zero, [], Counters.zero, TrapState.zero, 0,
    some ⟨0, 0, words, 0, BitVec.allOnes 64, 0⟩, .none, false, false, 0, 0, false, 0, 0⟩

/-- The state with an instruction in the decode buffer of the troupe at issue, where step takes its next one; it stands
for the launch of a grid (log entry 2). The table's words are 64 bits. -/
def State.withFetchWord (s : State) (_nbits w : Nat) : State :=
  { s with
    agenda := []
    current := some ⟨0, 0⟩
    troupes := sset 0 (launchedTroupe [BitVec.ofNat 64 w]) s.troupes
    blocks := sset 0 launchedBlock s.blocks }

end Sys2Proof.Machine
end

