-- ==== Sys2Proof/Safety.lean ====
section
/-! DEFINITION. What counts as a safe run, and the terms in which statements about instructions are made: what an
instruction at issue is, what it writes, and what it leaves as it was. -/

namespace Sys2Proof.Machine

/-- R331: memory holds its canonical form, so that equal memories are equal data. -/
def State.memoryOk (s : State) : Prop := Memory.wf s.homes.mem = true

/-- A step that gives a next state; the machine has no step that stops while a troupe is at issue. -/
def runs (s : State) : Prop := ∃ t, step s = .next t

/-- c is what is at issue, and every register of i is ready in the lanes of m (R47, R66, R73, R219). -/
def AtIssue (s : State) (c : Ctx) (i : Instr) (m : LaneMask) : Prop :=
  s.ctx? = some c ∧ s.ready c i.srcs i.dests m = .go

/-- The instruction is done: its troupe is one with P, and goes on with the next instruction of its clause or after it. -/
def Completes (s : State) (c : Ctx) (i : Instr) (P : Troupe → Prop) : Prop :=
  ∃ t, exec i s = .next (s.advance c t) ∧ P t

/-- v registers reg to reg + n - 1 of the lanes of m hold x, full, with the given taint and poison; every other v
register of every lane, every predicate and everything else of the troupe is as it was. -/
structure VWritten (t t' : Troupe) (m : LaneMask) (reg n : Nat) (x : Nat → Nat) (taint poison : Nat → Bool) : Prop where
  value : ∀ l < 64, m.getLsbD l = true → ∀ j < n, t'.lane.get l (reg + j) = BitVec.ofNat 32 (x l / 2 ^ (32 * j))
  full : ∀ l < 64, m.getLsbD l = true → ∀ j < n, laneBit t'.lane.empty (reg + j) l = false
  taint : ∀ l < 64, m.getLsbD l = true → ∀ j < n, laneBit t'.lane.taint (reg + j) l = taint l
  poison : ∀ l < 64, m.getLsbD l = true → ∀ j < n, laneBit t'.lane.poison (reg + j) l = poison l
  others : ∀ l < 64, ∀ r < 256, (m.getLsbD l = false ∨ r < reg ∨ reg + n ≤ r) →
    t'.lane.get l r = t.lane.get l r ∧ laneBit t'.lane.empty r l = laneBit t.lane.empty r l ∧
    laneBit t'.lane.taint r l = laneBit t.lane.taint r l ∧ laneBit t'.lane.poison r l = laneBit t.lane.poison r l
  preds : t'.lane.pred = t.lane.pred ∧ t'.lane.predPoison = t.lane.predPoison
  rest : { t' with lane := t.lane } = t

/-- An s register holds x and its poison, and is not pending; every other s register, every buffer record and
everything else of the troupe is as it was. -/
structure SWritten (t t' : Troupe) (k : SReg) (x : W64) (poison : Bool) : Prop where
  value : t'.s k = x
  poison : t'.sBad k = poison
  settled : t'.uni.sPending.getLsbD k.val = false
  others : ∀ j : SReg, j ≠ k → t'.s j = t.s j ∧ t'.sBad j = t.sBad j ∧
    t'.uni.sPending.getLsbD j.val = t.uni.sPending.getLsbD j.val
  records : t'.uni.b = t.uni.b
  rest : { t' with uni := t.uni } = t

/-- A destination holds a result in each lane of m, or, where it is an s register, that of the lowest lane of m;
nothing else of the troupe is changed. -/
def RegWritten (t t' : Troupe) (m : LaneMask) (d : Opnd) (sx : Bool) (x : Nat → Nat) (taint poison : Nat → Bool) : Prop :=
  match d.reg with
  | .v r => VWritten t t' m r.val d.n x taint poison
  | .s k => SWritten t t' k (sExtend sx (x (firstLane m))) (poison (firstLane m))

/-- A predicate holds x with its poison in the lanes of m; every other predicate of every lane, every register and
everything else of the troupe is as it was. -/
structure PredWritten (t t' : Troupe) (m : LaneMask) (p : Pred) (x poison : Nat → Bool) : Prop where
  value : ∀ l < 64, m.getLsbD l = true → t'.pred p l = x l
  poison : ∀ l < 64, m.getLsbD l = true → t'.predBad p l = poison l
  others : ∀ l < 64, ∀ q : Pred, (m.getLsbD l = false ∨ q ≠ p) → t'.pred q l = t.pred q l ∧ t'.predBad q l = t.predBad q l
  regs : t'.lane.v = t.lane.v ∧ t'.lane.empty = t.lane.empty ∧ t'.lane.taint = t.lane.taint ∧ t'.lane.poison = t.lane.poison
  rest : { t' with lane := t.lane } = t

/-- The value of a source of n v registers (or of an s register) in a lane. -/
def Ctx.val (c : Ctx) (n : Nat) (a : Src) (l : Nat) : Nat := c.t.value l (a.opnd n)

/-- The number that element j of a value stands for under an integer type (R13, R88). -/
def elemAt (t : IntTy) (x j : Nat) : Int := elemVal t.signed t.ew (bitsOf x (t.ew * j) t.ew)

/-- An instruction whose registers are ready completes with its destination holding x in every participating lane,
with taint and poison where a source has them (R67, R68), and nothing else of the troupe changed. -/
def LaneDone (s : State) (c : Ctx) (i : Instr) (d : Opnd) (sx : Bool) (x : Nat → Nat) : Prop :=
  AtIssue s c i c.mask → Completes s c i fun t =>
    RegWritten c.t t c.mask d sx x (fun l => c.t.srcTaint l i.srcs) (fun l => c.t.srcPoison l i.srcs)

/-- The same, with every element of the destination the wrapped number that g gives for the lane and the element. -/
def ElemDone (s : State) (c : Ctx) (i : Instr) (t : IntTy) (d : Opnd) (sx : Bool) (g : Nat → Nat → Int) :
    Prop :=
  ∃ x : Nat → Nat, (∀ l, x l < 2 ^ (t.ew * t.count) ∧ ∀ j < t.count, bitsOf (x l) (t.ew * j) t.ew = wrap t.ew (g l j)) ∧
    LaneDone s c i d sx x

/-- A predicate of each participating lane is set to b, with poison where a source has it. -/
def PredDone (s : State) (c : Ctx) (i : Instr) (p : Pred) (b : Nat → Bool) : Prop :=
  AtIssue s c i c.mask → Completes s c i fun t => PredWritten c.t t c.mask p b (fun l => c.t.srcPoison l i.srcs)

/-- Everything that an instruction which acts on its own troupe alone leaves as it was: memory and homes, what is in
flight, system registers, host cores, partitions and queues, the fabric, the platform, time. -/
structure SameOutside (s s' : State) : Prop where
  homes : s'.homes = s.homes
  flight : s'.flight = s.flight
  regs : s'.regs = s.regs
  harts : s'.harts = s.harts
  pkg : s'.pkg = s.pkg
  fab : s'.fab = s.fab
  plat : s'.plat = s.plat
  blocks : s'.blocks = s.blocks
  tick : s'.tick = s.tick
  agenda : s'.agenda = s.agenda

/-- The lanes that a frontier holds at an address. -/
def lanesAt (ps : List Path) (a : VAddr) : LaneMask := ps.foldl (fun m p => if p.addr = a then m ||| p.mask else m) 0

/-- The clause at issue ends (R75): the troupe is one with P, except that each participating lane is at the address dest
gives for it, if any, merged with the lanes that were there; nothing outside the troupe and its core's pipes changes. -/
def Moves (s : State) (c : Ctx) (i : Instr) (P : Troupe → Prop) (dest : Nat → Option VAddr) : Prop :=
  ∃ s' t t', exec i s = .next s' ∧ P t ∧ s'.troupe? c.key = some t' ∧ t'.issue = none ∧ s'.current = none ∧
    (∀ a l, l < 64 → (lanesAt t'.frontier a).getLsbD l =
      ((lanesAt t.frontier a).getLsbD l || (c.mask.getLsbD l && decide (dest l = some a)))) ∧
    { t' with issue := t.issue, frontier := t.frontier, yRun := t.yRun, yielded := t.yielded } = t ∧
    SameOutside s s'

end Sys2Proof.Machine
end

