-- ==== Sys2Proof/Certificates/Slice0/Obligations.lean ====
section
/-! DEFINITION. The statements about the machine. -/

open Sys2Proof Sys2Proof.Machine

/-! Steps and encodings. -/

/-- O1 (R36, R42; log entry 2). A step runs the word that the troupe at issue comes to: where its words decode to an instruction, the
step is that instruction's; what the outside brings comes first, then the oldest event of work in progress, each by its
own meaning (that of the table's event, but for five inner events of the model's own), then a tick, which may be one that
the outside names. The word that a host places is what the next step runs. -/
def Obligations.StepRunsTheDecodedInstruction : Prop :=
  (∀ (s : State) (c : Ctx) (w : W64) (i : Instr), s.agenda = [] → s.ctx? = some c → c.iss.words[c.iss.idx]? = some w →
    decode w = .ok i → step s = exec i s) ∧
  (∀ (s : State) (i : Instr) (t : List Act), s.agenda = .event i :: t → encode i = none → step s = exec i { s with agenda := t }) ∧
  (∀ (s : State) (t : List Act), s.agenda = .tick :: t →
    (s.nextWord = none → s.todo = [] → step s = .next ({ s with agenda := t } : State).passTick) ∧
    (∀ i, s.nextWord = some i → step s = exec i s) ∧
    (s.nextWord = none → s.todo ≠ [] → step s = s.runTodo)) ∧
  (∀ e : Ev, (∀ (s : State) (t : List Ev), s.agenda = [] → s.nextWord = none → s.todo = e :: t →
      step s = runEv e { s with todo := t }) ∧
    ((∃ i, encode i = none ∧ ∀ s : State, runEv e s = exec i s) ∨ e = .bootBuild ∨ (∃ p, e = .bankAck p) ∨
      (∃ req sl, e = .pinArrive req sl) ∨ (∃ part vf lines, e = .homeReads part vf lines) ∨ ∃ h, e = .hartRun h)) ∧
  (∀ s : State, s.agenda = [] → s.nextWord = none → s.todo = [] →
    step s = .next s.passTick ∧ s.passTick.tick = s.tick + 1 ∧ s.passTick.homes = s.homes) ∧
  (∀ (s : State) (nbits w : Nat) (i : Instr), decodeTableWord nbits w = some i →
    step (s.withFetchWord nbits w) = exec i (s.withFetchWord nbits w))

/-- O2 (R44, R45, R48 to R53, R57). Words written out from the formats stand for the instructions that the opcode map gives
them, and words that R57 calls illegal stand for none. -/
def Obligations.WordsDecodeAsWritten : Prop :=
  decode 0x0002000100000001 = .ok (.iadd .i32 ⟨.v 2, ⟨.v 0, false⟩, ⟨.v 1, false⟩⟩) ∧
  decode 0x01030300FFFFFFFF = .ok (.iaddI ⟨.v 3, ⟨.v 3, false⟩, 0xFFFFFFFF⟩) ∧
  decode 0x3F02000100400020 = .ok (.fadd ⟨false, false, true, false, false, .rne⟩ ⟨.v 2, ⟨.v 0, false⟩, ⟨.v 1, true⟩⟩) ∧
  decode 0x6F00FFFFFFFFFFF8 = .ok (.bra none 0xFFFFFFFFFFF8) ∧
  decode 0x6FC8FFFFFFFFFFF8 = .ok (.bra (some ⟨true, 1⟩) 0xFFFFFFFFFFF8) ∧
  decode 0x7402000000000000 = .ok .exit ∧
  decode 0x860402101FFF4000 = .ok (.ld (.v 4) ⟨1, ⟨.v 2, false⟩, 0x1FFF, .b32, 0, 0, 0⟩) ∧
  decode 0x9B40000000001200 = .ok (.mmaBf16 ⟨.v 64, none, 1, 2, false⟩) ∧
  decode 0xABC4180000000000 = .ok (.copy 4 6) ∧
  decode 0xAF00080000200001 = .ok (.tadd ⟨0, none, 2⟩ (.imm 1)) ∧
  decode 0xBCC518000000004C = .ok (.sysrd 0x4C 5 6) ∧
  (decode 0x0002000100110001).toOption = none ∧ (decode 0x000200010000000B).toOption = none ∧
  (decode 0xC04A000000000000).toOption = none ∧ (decode 0x0002000101000001).toOption = none ∧
  (decode 0x860402101FFFA000).toOption = none

/-- O3 (R44 to R56). Decode and encode agree: every well-formed instruction that has a word is what its word decodes to, with
every operand at every value, and no other word stands for it. -/
def Obligations.DecodeAndEncodeAgree : Prop :=
  (∀ (i : Instr) (w : W64), i.wf = true → encode i = some w → decode w = .ok i) ∧
  (∀ (w : W64) (i : Instr), decode w = .ok i → i.wf = true ∧ encode i = some w)

/-- O4 (R331; log entry 14). Every step keeps memory's canonical form: addresses rise, and no byte is listed that reads as an
unlisted one does. -/
def Obligations.EveryStepKeepsMemory : Prop :=
  ∀ s s' : State, s.memoryOk → step s = .next s' → s'.memoryOk

/-- O5 (R8, R331, R366, R404, R405, R413). The module right after reset: tick 0, no memory listed, every slice held in reset
with power on, no partition, and every register at its reset value, which is 0 but for RMCFG and MONTHR; its memory has the
canonical form. Its first step boots. -/
def Obligations.ResetState : Prop :=
  State.reset.memoryOk ∧ State.reset.tick = 0 ∧ (∀ a, memByte State.reset.homes.mem a = 0) ∧ State.reset.plat.power = true ∧
  State.reset.plat.inReset = true ∧ State.reset.pkg = Package.none ∧ State.reset.troupes = [] ∧ State.reset.blocks = [] ∧
  (∀ slice, State.reset.reg slice 0 0xC8 = 1) ∧
  (∀ slice, State.reset.reg slice 0 0x73 = BitVec.ofNat 64 (90 * 2 ^ 56 + 700 * 2 ^ 40 + 800 * 2 ^ 24)) ∧
  (∀ slice unit reg, (unit, reg) ≠ (0, 0xC8) → (unit, reg) ≠ (0, 0x73) → State.reset.reg slice unit reg = 0) ∧
  step State.reset = exec .powerOn { State.reset with todo := [] } ∧ runs State.reset

/-- The words of the integer, floating-point and conversion groups, and those that gather from the lanes of the path: they
read and write registers of their own troupe alone (R55, R86 to R148). -/
def Sys2Proof.Machine.isRegisterWord (i : Instr) : Bool :=
  match i with
  | .iadd .. | .iaddI .. | .isub .. | .imul .. | .imulI .. | .imad .. | .imadI .. | .imuls .. | .idiv .. | .irem ..
  | .imin .. | .imax .. | .iclamp .. | .iabs .. | .ineg .. | .iadds .. | .isubs .. | .iaddc .. | .isubb .. | .idp4 ..
  | .idp2 .. | .isad .. | .iscadd .. | .and .. | .andI .. | .or .. | .orI .. | .xor .. | .xorI .. | .andn .. | .lmux ..
  | .shl .. | .shlI .. | .shr .. | .shrI .. | .sra .. | .sraI .. | .rot .. | .fsh .. | .popc .. | .clz .. | .ctz ..
  | .brev .. | .bfe .. | .bfi .. | .bperm .. | .sext .. | .imsk .. | .icmp .. | .icmpI .. | .iset .. | .isetI ..
  | .pmovToReg .. | .pmovToPred .. | .mov .. | .movi .. | .movhi .. | .cvti .. | .ipack .. | .iunpack ..
  | .fadd .. | .faddI .. | .fsub .. | .fmul .. | .fmulI .. | .ffma .. | .ffmaI .. | .fmin .. | .fmax .. | .fclamp ..
  | .fcmp .. | .fcmpI .. | .fset .. | .frcp .. | .frsq .. | .fsqrt .. | .fdiv .. | .fex2 .. | .flg2 .. | .fsin ..
  | .fcos .. | .ftanh .. | .fsigm .. | .fsilu .. | .ffrc .. | .frnd .. | .fldexp .. | .fmant .. | .fexpo ..
  | .dadd .. | .dmul .. | .dfma .. | .dcmp .. | .ddiv .. | .dsqrt .. | .hadd2 .. | .hmul2 .. | .hfma2 .. | .hmin2 ..
  | .hmax2 .. | .hcmp2 .. | .fdot2 .. | .cvtf .. | .cvtfi .. | .cvtif .. | .cvt8Encode .. | .cvt8Decode ..
  | .cvtmxEncode .. | .cvtmxDecode .. | .cvt4Pack .. | .cvt4Deq .. | .vote .. | .matchLanes .. | .redux ..
  | .fredux .. | .scan .. | .movsRead .. | .amask .. => true
  | _ => false

/-- O6 (R47, R66, R73, R86, R91). A register word leaves everything outside its troupe as it was: every byte of memory,
every other troupe, every system register. One whose register is on its way waits, and the wait changes nothing; a
source that asks for it raises EMPTY_REGISTER instead. -/
def Obligations.RegisterWordFrame : Prop :=
  ∀ (s : State) (c : Ctx) (i : Instr), s.ctx? = some c → Sys2Proof.Machine.isRegisterWord i = true →
  (∃ s' : State, exec i s = .next s' ∧
    (c.t.trap.inHandler = false → c.t.tvec ≠ 0 → SameOutside s s' ∧ (∀ a, memByte s'.homes.mem a = memByte s.homes.mem a) ∧
      ∀ k : TKey, k.num ≠ c.key.num → s'.troupe? k = s.troupe? k)) ∧
  (s.ready c i.srcs i.dests c.mask = .wait → exec i s = .next (s.stall c) ∧ SameOutside s (s.stall c) ∧
    (s.stall c).troupe? c.key = some { c.t with stalled := true }) ∧
  (∀ r l, s.ready c i.srcs i.dests c.mask = .empty r l → exec i s = .next (s.raise c 0x04 (BitVec.ofNat 64 r) 0 l))

/-- The reads of global lines, which may be served by a copy in the troupe's own slice (R311, R312). -/
def Sys2Proof.Machine.isGlobalRead (i : Instr) : Bool :=
  match i with
  | .ld .. | .ldc .. | .ldu .. | .prefetch .. | .brec .. => true
  | _ => false

/-- O7 (R276, R303, R312; log entry 2). No word changes memory in its own step: what a word writes reaches its home by
events. A global read served by a copy may find writes to the line whose tick has come, which take effect first; where no
write waits for its tick, it leaves memory too. -/
def Obligations.WordsLeaveMemory : Prop :=
  ∀ (s s' : State) (i : Instr), encode i ≠ none → exec i s = .next s' →
  (Sys2Proof.Machine.isGlobalRead i = false ∨ s.homes.waiting = []) → s'.homes.mem = s.homes.mem

/-! Integer, logic and float words: each is one of the common shapes, and its result is what its rule gives. -/

/-- (R95, R109). Element-wise integer arithmetic: in every participating lane each element of D is the exact
result, wrapped to the element's width or, in the saturating instructions, clamped to its range; and D is all that
changes. icmp gives the three-way code. -/
def Sys2Proof.Machine.IntegerElementResults : Prop :=
  ∀ (s : State) (c : Ctx) (t : IntTy) (o : R2) (o1 : R1) (o3 : R3),
  let n := t.regs
  let sat := satI t.signed t.ew
  let A := fun l j => elemAt t (c.val n o.a l) j
  let B := fun l j => elemAt t (c.val n o.b l) j
  let A1 := fun l j => elemAt t (c.val n o1.a l) j
  let A3 := fun l j => elemAt t (c.val n o3.a l) j
  let B3 := fun l j => elemAt t (c.val n o3.b l) j
  let C3 := fun l j => elemAt t (c.val n o3.c l) j
  ElemDone s c (.iadd t o) t (o.d.opnd n) t.sx (fun l j => A l j + B l j) ∧
  ElemDone s c (.isub t o) t (o.d.opnd n) t.sx (fun l j => A l j - B l j) ∧
  ElemDone s c (.imul t false o) t (o.d.opnd n) t.sx (fun l j => A l j * B l j) ∧
  ElemDone s c (.imul t true o) t (o.d.opnd n) t.sx (fun l j => A l j * B l j / (2 ^ t.ew : Nat)) ∧
  ElemDone s c (.imad t o3) t (o3.d.opnd n) t.sx (fun l j => A3 l j * B3 l j + C3 l j) ∧
  ElemDone s c (.imuls t o) t (o.d.opnd n) t.sx (fun l j => sat (A l j * B l j)) ∧
  ElemDone s c (.iadds t o) t (o.d.opnd n) t.sx (fun l j => sat (A l j + B l j)) ∧
  ElemDone s c (.isubs t o) t (o.d.opnd n) t.sx (fun l j => sat (A l j - B l j)) ∧
  ElemDone s c (.imin t o) t (o.d.opnd n) t.sx (fun l j => min (A l j) (B l j)) ∧
  ElemDone s c (.imax t o) t (o.d.opnd n) t.sx (fun l j => max (A l j) (B l j)) ∧
  ElemDone s c (.iclamp t o3) t (o3.d.opnd n) t.sx (fun l j => min (max (A3 l j) (B3 l j)) (C3 l j)) ∧
  ElemDone s c (.iabs t false o1) t (o1.d.opnd n) t.sx (fun l j => ((A1 l j).natAbs : Int)) ∧
  ElemDone s c (.iabs t true o1) t (o1.d.opnd n) t.sx (fun l j => sat ((A1 l j).natAbs : Int)) ∧
  ElemDone s c (.ineg t false o1) t (o1.d.opnd n) t.sx (fun l j => -A1 l j) ∧
  ElemDone s c (.ineg t true o1) t (o1.d.opnd n) t.sx (fun l j => sat (-A1 l j)) ∧
  (∀ k, ElemDone s c (.iscadd t k o) t (o.d.opnd n) t.sx (fun l j => A l j * (2 ^ k.toNat : Nat) + B l j)) ∧
  ElemDone s c (.icmp t o) t (o.d.opnd n) t.scalar
    (fun l j => if A l j < B l j then -1 else if A l j = B l j then 0 else 1)

/-- (R89, R109, R114). The I forms operate on 32 bits with a v destination and on 64 with an s destination; movi
writes its immediate, mov copies, movhi replaces the high half alone. -/
def Sys2Proof.Machine.ImmediateAndMoveResults : Prop :=
  ∀ (s : State) (c : Ctx) (o : I1) (o1 : R1) (d : Reg) (imm : W32),
  let w := immWidth o.d
  let a := fun l => c.val 1 o.a l
  let k : Int := o.imm.toInt
  let D := o.d.opnd 1
  LaneDone s c (.iaddI o) D false (fun l => wrap w (sval w (a l) + k)) ∧
  LaneDone s c (.imulI o) D false (fun l => wrap w (sval w (a l) * k)) ∧
  LaneDone s c (.imadI o) D false (fun l => wrap w (sval w (a l) * k + sval w (c.t.value l D))) ∧
  LaneDone s c (.andI o) D false (fun l => uval w (a l) &&& wrap w k) ∧
  LaneDone s c (.orI o) D false (fun l => uval w (a l) ||| wrap w k) ∧
  LaneDone s c (.xorI o) D false (fun l => uval w (a l) ^^^ wrap w k) ∧
  LaneDone s c (.shlI o) D false (fun l => if w ≤ o.imm.toNat then 0 else uval w (a l) * 2 ^ o.imm.toNat % 2 ^ w) ∧
  LaneDone s c (.shrI o) D false (fun l => if w ≤ o.imm.toNat then 0 else uval w (a l) / 2 ^ o.imm.toNat) ∧
  LaneDone s c (.sraI o) D false (fun l => wrap w (sval w (uval w (a l)) / (2 ^ min o.imm.toNat w : Nat))) ∧
  LaneDone s c (.icmpI o) D false (fun l =>
    let u := o.imm.getLsbD 31
    wrap w (threeWay (elemVal (!u) w (a l)) (elemVal (!u) w (wrap w (sval 31 o.imm.toNat))))) ∧
  LaneDone s c (.mov false o1) (o1.d.opnd 1) false (fun l => uval 32 (c.val 1 o1.a l)) ∧
  LaneDone s c (.mov true o1) (o1.d.opnd 2) false (fun l => c.val 2 o1.a l) ∧
  LaneDone s c (.movi d imm) (d.opnd 1) true (fun _ => imm.toNat) ∧
  (∀ k : SReg, AtIssue s c (.movhi (.s k) imm) c.mask → Completes s c (.movhi (.s k) imm) fun t =>
    SWritten c.t t k (BitVec.ofNat 64 (imm.toNat * 2 ^ 32 + uval 32 (c.t.s k).toNat)) (c.t.sBad k)) ∧
  (∀ r : Fin 192, AtIssue s c (.movhi (.v r) imm) c.mask → Completes s c (.movhi (.v r) imm) fun t =>
    VWritten c.t t c.mask (r.val + 1) 1 (fun _ => imm.toNat)
      (fun l => laneBit c.t.lane.taint r.val l) (fun l => laneBit c.t.lane.poison r.val l))

/-- O8 (R89, R95, R109, R114). Integer arithmetic, element by element, its forms with an immediate, and the moves: every
participating lane of D holds the result, and D is all that changes. -/
def Obligations.IntegerArithmeticResults : Prop :=
  Sys2Proof.Machine.IntegerElementResults ∧ Sys2Proof.Machine.ImmediateAndMoveResults

/-- The lanes in which a division has a zero divisor that is not poisoned. -/
def Sys2Proof.Machine.zeroDivisors (c : Ctx) (t : IntTy) (b : Src) : LaneMask :=
  maskOf ((lanes c.mask).filter fun l => decide (uval t.ew (c.val t.regs b l) = 0) && !c.t.poisoned l (b.opnd t.regs))

/-- O9 (R96). Division truncates; with the NT bit a zero divisor gives quotient 0 and the dividend as remainder;
without it ARITH is raised with the lanes of a zero divisor, and nothing is written. -/
def Obligations.DivisionResults : Prop :=
  ∀ (s : State) (c : Ctx) (t : IntTy) (nt : Bool) (o : R2),
  let x := fun l => elemVal t.signed t.ew (c.val t.regs o.a l)
  let y := fun l => elemVal t.signed t.ew (c.val t.regs o.b l)
  let zero := zeroDivisors c t o.b
  (∀ i ∈ [Instr.idiv t nt o, Instr.irem t nt o], (i.wf = true → t.count = 1) ∧
    ∀ w, encode i = some w → w.getLsbD 8 = nt ∧ (w >>> 56 = 0x08 ↔ i = .idiv t nt o)) ∧
  (nt = true ∨ zero = 0 →
    LaneDone s c (.idiv t nt o) (o.d.opnd t.regs) t.sx
      (fun l => if y l = 0 then 0 else wrap t.ew ((x l).tdiv (y l))) ∧
    LaneDone s c (.irem t nt o) (o.d.opnd t.regs) t.sx
      (fun l => if y l = 0 then wrap t.ew (x l) else wrap t.ew ((x l).tmod (y l)))) ∧
  (nt = false → zero ≠ 0 →
    (AtIssue s c (.idiv t nt o) c.mask → exec (.idiv t nt o) s = .next (s.raise c causeArith 0 0 zero)) ∧
    (AtIssue s c (.irem t nt o) c.mask → exec (.irem t nt o) s = .next (s.raise c causeArith 0 0 zero)))

/-- What iaddc and isubb leave: the result in D and the carry or borrow in the predicate (R97). With an s destination
one carry is computed, from the lowest participating lane. -/
def Sys2Proof.Machine.CarryDone (s : State) (c : Ctx) (i : Instr) (t : IntTy) (ci : Bool) (p : Pred) (o : R2)
    (f : Nat → Nat → Nat → Nat × Bool) : Prop :=
  AtIssue s c i c.mask → Completes s c i fun u => ∃ t1,
    let cin := fun l => if ci && c.t.pred p l then 1 else 0
    let res := fun l => f (uval t.ew (c.val t.regs o.a l)) (uval t.ew (c.val t.regs o.b l)) (cin l)
    let bad := fun l => c.t.srcPoison l i.srcs || (ci && c.t.predBad p l)
    RegWritten c.t t1 c.mask (o.d.opnd t.regs) t.sx (fun l => (res l).1) (fun l => c.t.srcTaint l i.srcs) bad ∧
    PredWritten t1 u c.mask p (fun l => (res (if o.d.isS then firstLane c.mask else l)).2) bad

/-- O10 (R97). iaddc and isubb: the sum with the carry in, its carry out of the element's width; the difference with
the borrow in, and whether it fell below zero. -/
def Obligations.CarryResults : Prop :=
  ∀ (s : State) (c : Ctx) (t : IntTy) (ci : Bool) (p : Pred) (o : R2),
  (∀ i ∈ [Instr.iaddc t ci p o, Instr.isubb t ci p o], (i.wf = true → t = .ui32 ∨ t = .ui64) ∧
    ∀ w, encode i = some w → w.getLsbD 11 = ci ∧ bitsOf w.toNat 8 3 = p.val ∧ (w >>> 56 = 0x11 ↔ i = .iaddc t ci p o)) ∧
  CarryDone s c (.iaddc t ci p o) t ci p o
    (fun a b k => ((a + b + k) % 2 ^ t.ew, decide (2 ^ t.ew ≤ a + b + k))) ∧
  CarryDone s c (.isubb t ci p o) t ci p o
    (fun a b k => (wrap t.ew ((a : Int) - b - k), decide ((a : Int) - b - k < 0)))

/-- O11 (R98, R99). Dot products of bytes and halves with a 32-bit addend, wrapped or clamped, and the sum of absolute
differences. -/
def Obligations.DotAndDifferenceResults : Prop :=
  ∀ (s : State) (c : Ctx) (t : IntTy) (sa sb : Bool) (o : R3),
  let D := o.d.opnd 1
  let a := fun l => c.val 1 o.a l
  let b := fun l => c.val 1 o.b l
  let C := fun l => elemVal t.signed 32 (c.val 1 o.c l)
  let p := fun w l j => elemVal sa w (bitsOf (a l) (w * j) w) * elemVal sb w (bitsOf (b l) (w * j) w)
  let dot4 := fun l => p 8 l 0 + p 8 l 1 + p 8 l 2 + p 8 l 3
  let dot2 := fun l => p 16 l 0 + p 16 l 1
  let diff := fun l j => ((elemAt t (a l) j - elemAt t (b l) j).natAbs : Int)
  (∀ sat, ∀ i ∈ [Instr.idp4 t sa sb sat o, Instr.idp2 t sa sb sat o], (i.wf = true → t = .ui32 ∨ t = .i32) ∧
    ∀ w, encode i = some w → w.getLsbD 8 = sa ∧ w.getLsbD 9 = sb ∧ w.getLsbD 10 = sat ∧ bitsOf w.toNat 11 5 = 0 ∧
      bitsOf w.toNat 4 4 = 0 ∧ (w >>> 56 = 0x13 ↔ i = .idp4 t sa sb sat o)) ∧
  ((Instr.isad t o).wf = true → t ≠ .ui64 ∧ t ≠ .i64) ∧
  LaneDone s c (.idp4 t sa sb false o) D t.sx (fun l => wrap 32 (C l + dot4 l)) ∧
  LaneDone s c (.idp4 t sa sb true o) D t.sx (fun l => wrap 32 (satI t.signed t.ew (C l + dot4 l))) ∧
  LaneDone s c (.idp2 t sa sb false o) D t.sx (fun l => wrap 32 (C l + dot2 l)) ∧
  LaneDone s c (.idp2 t sa sb true o) D t.sx (fun l => wrap 32 (satI t.signed t.ew (C l + dot2 l))) ∧
  LaneDone s c (.isad t o) D false
    (fun l => wrap 32 ((uval 32 (c.val 1 o.c l) : Int) + ((List.range t.count).map (diff l)).sum))

/-- (R100 to R103). Logic bit by bit, and shifts whose amount from the width on gives 0 or the sign. -/
def Sys2Proof.Machine.LogicAndShiftResults : Prop :=
  ∀ (s : State) (c : Ctx) (t : IntTy) (f0 f1 : BitVec 4) (o : R2) (o3 : R3),
  let D := o.d.opnd t.regs
  let w := t.ew
  let a := fun l => uval w (c.val t.regs o.a l)
  let b := fun l => uval w (c.val t.regs o.b l)
  let n := fun l => uval 32 (c.val 1 o.b l)
  (LaneDone s c (.and t o) D t.sx fun l => a l &&& b l) ∧
  (LaneDone s c (.or t o) D t.sx fun l => a l ||| b l) ∧
  (LaneDone s c (.xor t o) D t.sx fun l => a l ^^^ b l) ∧
  (LaneDone s c (.andn t o) D t.sx fun l => a l &&& (2 ^ w - 1 - b l)) ∧
  (LaneDone s c (.lmux t f0 f1 o3) (o3.d.opnd t.regs) t.sx fun l =>
    let a := uval w (c.val t.regs o3.a l)
    let b := uval w (c.val t.regs o3.b l)
    let sel := uval w (c.val t.regs o3.c l)
    (lutBits w f1 a b &&& sel) ||| (lutBits w f0 a b &&& (2 ^ w - 1 - sel))) ∧
  (t.scalar = true →
    (LaneDone s c (.shl t o) D t.sx fun l => if w ≤ n l then 0 else a l * 2 ^ n l % 2 ^ w) ∧
    (LaneDone s c (.shr t o) D t.sx fun l => if w ≤ n l then 0 else a l / 2 ^ n l) ∧
    (LaneDone s c (.sra t o) D t.sx fun l => wrap w (sval w (a l) / (2 ^ min (n l) w : Nat)))) ∧
  (t.scalar = false →
    let e := fun (x : Nat) => elems t.count w x
    (LaneDone s c (.shl t o) D t.sx fun l => joinElems w (((e (c.val 1 o.a l)).zip (e (c.val 1 o.b l))).map
      fun x => if w ≤ x.2 then 0 else x.1 * 2 ^ x.2 % 2 ^ w)) ∧
    (LaneDone s c (.shr t o) D t.sx fun l => joinElems w (((e (c.val 1 o.a l)).zip (e (c.val 1 o.b l))).map
      fun x => if w ≤ x.2 then 0 else uval w x.1 / 2 ^ x.2)) ∧
    (LaneDone s c (.sra t o) D t.sx fun l => joinElems w (((e (c.val 1 o.a l)).zip (e (c.val 1 o.b l))).map
      fun x => wrap w (sval w x.1 / (2 ^ min x.2 w : Nat))))) ∧
  (LaneDone s c (.rot t false o) D t.sx fun l => rotL w (a l) (n l % w)) ∧
  (LaneDone s c (.rot t true o) D t.sx fun l => rotL w (a l) ((w - n l % w) % w)) ∧
  (LaneDone s c (.fsh true o3) (o3.d.opnd 1) false fun l =>
    bitsOf ((uval 32 (c.val 1 o3.b l) * 2 ^ 32 + uval 32 (c.val 1 o3.a l)) * 2 ^ (c.val 1 o3.c l % 64) % 2 ^ 64) 32 32) ∧
  (LaneDone s c (.fsh false o3) (o3.d.opnd 1) false fun l =>
    bitsOf (uval 32 (c.val 1 o3.b l) * 2 ^ 32 + uval 32 (c.val 1 o3.a l)) (c.val 1 o3.c l % 64) 32)

/-- (R104 to R107). Counting, bit fields, byte permutation, sign extension and masks. -/
def Sys2Proof.Machine.BitFieldResults : Prop :=
  ∀ (s : State) (c : Ctx) (t : IntTy) (o1 : R1) (o : R2) (o3 : R3),
  let w := t.ew
  let D := o1.d.opnd 1
  let a := fun l => c.val t.regs o1.a l
  (LaneDone s c (.popc t o1) D false fun l => popcount w (a l)) ∧
  (LaneDone s c (.clz t o1) D false fun l => if uval w (a l) = 0 then w else w - 1 - Nat.log2 (uval w (a l))) ∧
  (LaneDone s c (.ctz t o1) D false fun l => ctzW w (a l)) ∧
  (LaneDone s c (.brev t o1) (o1.d.opnd t.regs) t.sx fun l => revBits w (a l)) ∧
  (LaneDone s c (.bfe t o3) (o3.d.opnd t.regs) t.sx fun l =>
    bfeW t.signed w (c.val t.regs o3.a l) (c.val 1 o3.b l) (c.val 1 o3.c l)) ∧
  (LaneDone s c (.bfi t o3) (o3.d.opnd t.regs) t.sx fun l =>
    bfiW w (c.val t.regs o3.a l) (c.val t.regs o3.b l) (c.val 1 o3.c l)) ∧
  (LaneDone s c (.bperm o3) (o3.d.opnd 1) false fun l =>
    bpermW (c.val 1 o3.a l) (c.val 1 o3.b l) (c.val 1 o3.c l)) ∧
  (LaneDone s c (.sext t o) (o.d.opnd t.regs) t.sx fun l =>
    let n := c.val 1 o.b l % 64
    if w ≤ n + 1 then uval w (c.val t.regs o.a l) else wrap w (sval (n + 1) (c.val t.regs o.a l))) ∧
  (LaneDone s c (.imsk t o) (o.d.opnd t.regs) t.sx fun l =>
    shlW w (2 ^ min (uval 32 (c.val 1 o.b l)) w - 1) (uval 32 (c.val 1 o.a l)))

/-- O12 (R100 to R107). Logic, shifts, counts, bit fields, byte permutation, sign extension and masks. -/
def Obligations.LogicAndFieldResults : Prop :=
  Sys2Proof.Machine.LogicAndShiftResults ∧ Sys2Proof.Machine.BitFieldResults

/-- O13 (R108, R110 to R113, R127). Comparisons set a predicate in each participating lane; sel chooses by a predicate
in the lanes of its guard; plop applies a table to two predicates; pmov moves the predicates and a register's bits. -/
def Obligations.PredicateResults : Prop :=
  ∀ (s : State) (c : Ctx) (t : IntTy) (cc : ICond) (u : Bool) (pd pa pb : Pred) (p : P2) (a : Src) (imm : BitVec 25)
    (m : FMod) (fc : FCond) (lut : BitVec 4) (d : Reg) (mask : BitVec 8),
  (PredDone s c (.iset t cc pd p) pd fun l =>
    condInt cc (elemVal t.signed t.ew (c.val t.regs p.a l)) (elemVal t.signed t.ew (c.val t.regs p.b l))) ∧
  (PredDone s c (.isetI cc u pd a imm) pd fun l =>
    condInt cc (elemVal (!u) 32 (c.val 1 a l)) (elemVal (!u) 32 (wrap 32 imm.toInt))) ∧
  (PredDone s c (.fset m fc pd p) pd fun l =>
    condFloat fc ((rdA fp32 m (c.val 1 p.a l)).rel (rdB fp32 m (c.val 1 p.b l)))) ∧
  (s.ctx? = some c → Completes s c (.plop pd pa pb lut) fun t => PredWritten c.t t c.mask pd
    (fun l => lut.getLsbD (2 * (c.t.pred pa l).toNat + (c.t.pred pb l).toNat))
    (fun l => c.t.predBad pa l || c.t.predBad pb l)) ∧
  (AtIssue s c (.pmovToReg d) c.mask → Completes s c (.pmovToReg d) fun t => RegWritten c.t t c.mask (d.opnd 1) false
    (fun l => (allPreds.map fun q => if c.t.pred q l then 2 ^ q.val else 0).sum) (fun _ => false)
    (fun l => allPreds.any fun q => c.t.predBad q l)) ∧
  (AtIssue s c (.pmovToPred a mask) c.mask → Completes s c (.pmovToPred a mask) fun t =>
    (∀ q : Pred, ∀ l < 64, c.mask.getLsbD l = true → mask.getLsbD q.val = true →
      t.pred q l = bitN (c.val 1 a l) q.val ∧ t.predBad q l = c.t.poisoned l (a.opnd 1)) ∧
    (∀ q : Pred, ∀ l < 64, (c.mask.getLsbD l = false ∨ mask.getLsbD q.val = false) →
      t.pred q l = c.t.pred q l ∧ t.predBad q l = c.t.predBad q l) ∧
    t.lane.v = c.t.lane.v ∧ t.lane.empty = c.t.lane.empty ∧ t.lane.taint = c.t.lane.taint ∧
    t.lane.poison = c.t.lane.poison ∧ { t with lane := c.t.lane } = c.t)

/-- (R48, R111). sel: the lanes of the guard take A where the select predicate holds and B where it does not; a
poisoned guard raises POISON, a poisoned select predicate only marks the result. -/
def Sys2Proof.Machine.SelectResults : Prop :=
  ∀ (s : State) (c : Ctx) (g : Option Guard) (w64 inv : Bool) (q : Pred) (o : R2),
  let n := if w64 then 2 else 1
  let i := Instr.sel g w64 inv q o
  let m := c.guardMask g
  let pick := fun l => if c.t.pred q l ≠ inv then o.a else o.b
  AtIssue s c i m →
  (c.guardBad g = 0 → Completes s c i fun t => RegWritten c.t t m (o.d.opnd n) false
    (fun l => c.val n (pick l) l) (fun l => c.t.srcTaint l i.srcs)
    (fun l => c.t.poisoned l ((pick l).opnd n) || c.t.predBad q l)) ∧
  (c.guardBad g ≠ 0 → exec i s = .next (s.raise c causePoison 0 0 (c.guardBad g)))

/-- (R115, R116). rdlane gives every participating lane the register of one lane, 0 from an exited one; wrlane
writes one lane that has not exited. -/
def Sys2Proof.Machine.LaneAccessResults : Prop :=
  ∀ (s : State) (c : Ctx) (d : Reg) (a : Src) (sa b : SReg),
  let n := (c.t.s b).toNat % 64
  let reg := regField a.reg
  (s.ctx? = some c → s.ready c [(Reg.s b).opnd 1] [d.opnd 1] c.mask = .go →
    (c.t.exited.getLsbD n = true ∨ (c.t.emptyLanes (a.opnd 1)).getLsbD n = false) → s.inFlight c.key (a.opnd 1) = false →
    Completes s c (.rdlane d a b) fun t => RegWritten c.t t c.mask (d.opnd 1) false
      (fun _ => if c.t.exited.getLsbD n then 0 else (c.t.lane.get n reg).toNat)
      (fun _ => !c.t.exited.getLsbD n && laneBit c.t.lane.taint reg n)
      (fun _ => (!c.t.exited.getLsbD n && laneBit c.t.lane.poison reg n) || c.t.sBad b)) ∧
  (let m : LaneMask := if c.t.exited.getLsbD n then 0 else bitM 64 n
   AtIssue s c (.wrlane d sa b) m → Completes s c (.wrlane d sa b) fun t => RegWritten c.t t m (d.opnd 1) false
     (fun _ => uval 32 (c.t.s sa).toNat) (fun _ => false) (fun _ => c.t.sBad sa || c.t.sBad b))

/-- O14 (R48, R111, R115, R116). sel chooses in the lanes of its guard; rdlane and wrlane reach one lane. -/
def Obligations.LaneAndSelectResults : Prop :=
  Sys2Proof.Machine.SelectResults ∧ Sys2Proof.Machine.LaneAccessResults

/-- O15 (R15, R117 to R119). Integer conversion extends when it widens and clamps to the destination's range otherwise,
and the result is extended to its register; packing clamps two words to halves or four halves to bytes; unpacking extends
one half or two bytes. Packing and unpacking have the packed types alone. -/
def Obligations.PackingResults : Prop :=
  ∀ (s : State) (c : Ctx) (td ts : ConvTy) (t : IntTy) (hi : Bool) (o1 : R1) (o : R2),
  let clamp := fun (lo up x : Int) => max lo (min up x)
  let a := fun l => c.val 1 o.a l
  let b := fun l => c.val 1 o.b l
  let x := fun l => c.val 1 o1.a l
  let half := fun (v i : Nat) => bitsOf v (16 * i) 16
  let byte := fun (v i : Nat) => bitsOf v (16 * hi.toNat + 8 * i) 8
  let sixteen := fun (v : Nat) => wrap 16 (clamp (-32768) 32767 (sval 32 v))
  let eight := fun (v i : Nat) => wrap 8 (clamp (-128) 127 (sval 16 (half v i)))
  let D := o.d.opnd 1
  let D1 := o1.d.opnd 1
  (LaneDone s c (.cvti td ts o1) (o1.d.opnd td.regs) td.sx fun l =>
    let v := elemVal ts.signed ts.ew (c.val ts.regs o1.a l)
    let low : Int := if td.signed then -(2 ^ (td.ew - 1) : Nat) else 0
    let high : Int := (2 ^ (if td.signed then td.ew - 1 else td.ew) : Nat) - 1
    wrap (if td.ew = 64 then 64 else 32)
      (if ts.ew < td.ew then elemVal td.signed td.ew (wrap td.ew v) else clamp low high v)) ∧
  ((Instr.ipack t o).wf = true ∨ (Instr.iunpack t hi o1).wf = true → t ∈ [.ui16x2, .i16x2, .ui8x4, .i8x4]) ∧
  (LaneDone s c (.ipack .ui16x2 o) D false fun l => min (uval 32 (a l)) 65535 + min (uval 32 (b l)) 65535 * 65536) ∧
  (LaneDone s c (.ipack .i16x2 o) D false fun l => sixteen (a l) + sixteen (b l) * 65536) ∧
  (LaneDone s c (.ipack .ui8x4 o) D false fun l =>
    min (half (a l) 0) 255 + min (half (a l) 1) 255 * 2 ^ 8 + min (half (b l) 0) 255 * 2 ^ 16 + min (half (b l) 1) 255 * 2 ^ 24) ∧
  (LaneDone s c (.ipack .i8x4 o) D false fun l =>
    eight (a l) 0 + eight (a l) 1 * 2 ^ 8 + eight (b l) 0 * 2 ^ 16 + eight (b l) 1 * 2 ^ 24) ∧
  (LaneDone s c (.iunpack .ui16x2 hi o1) D1 false fun l => half (x l) hi.toNat) ∧
  (LaneDone s c (.iunpack .i16x2 hi o1) D1 false fun l => wrap 32 (sval 16 (half (x l) hi.toNat))) ∧
  (LaneDone s c (.iunpack .ui8x4 hi o1) D1 false fun l => byte (x l) 0 + byte (x l) 1 * 65536) ∧
  (LaneDone s c (.iunpack .i8x4 hi o1) D1 false fun l =>
    wrap 16 (sval 8 (byte (x l) 0)) + wrap 16 (sval 8 (byte (x l) 1)) * 65536)

/-- One rounding of a value by a modifier's mode, with its flush (R24, R25). -/
def Sys2Proof.Machine.rounded (f : Fmt) (m : FMod) (v : FVal) : Nat := f.round m.rm m.ftz false 0 v

/-- O16 (R120, R121, R124 to R126). FP32 arithmetic: each result is the exact one, rounded once by the instruction's
mode; the I forms round to nearest even. -/
def Obligations.Fp32Results : Prop :=
  ∀ (s : State) (c : Ctx) (m : FMod) (nc : Bool) (o1 : R1) (o : R2) (o3 : R3) (i : I1),
  let D := o.d.opnd 1
  let a := fun l => rdA fp32 m (c.val 1 o.a l)
  let b := fun l => rdB fp32 m (c.val 1 o.b l)
  let a1 := fun l => rdA fp32 m (c.val 1 o1.a l)
  let a3 := fun l => rdA fp32 m (c.val 1 o3.a l)
  let b3 := fun l => rdB fp32 m (c.val 1 o3.b l)
  let c3 := fun n l => rdC fp32 m n (c.val 1 o3.c l)
  let ai := fun l => fp32.read false (c.val 1 i.a l)
  let k := fp32.decode i.imm.toNat
  let rne := fun v => fp32.round .rne false false 0 v
  (LaneDone s c (.fadd m o) D false fun l => rounded fp32 m ((a l).add m.rm (b l))) ∧
  (LaneDone s c (.fsub m o) D false fun l => rounded fp32 m ((a l).add m.rm (b l).negate)) ∧
  (LaneDone s c (.fmul m o) D false fun l => rounded fp32 m ((a l).mul (b l))) ∧
  (LaneDone s c (.fdiv m o) D false fun l => rounded fp32 m ((a l).div (b l))) ∧
  (LaneDone s c (.fmin m o) D false fun l => rounded fp32 m ((a l).minmax false (b l))) ∧
  (LaneDone s c (.fmax m o) D false fun l => rounded fp32 m ((a l).minmax true (b l))) ∧
  (LaneDone s c (.fcmp m o) D true fun l => wrap 32 (relCode ((a l).rel (b l)))) ∧
  (LaneDone s c (.fldexp m o) D false fun l => rounded fp32 m (scaleV (a l) (sval 32 (c.val 1 o.b l)))) ∧
  (LaneDone s c (.ffma m nc o3) (o3.d.opnd 1) false fun l =>
    rounded fp32 m (((a3 l).mul (b3 l)).add m.rm (c3 nc l))) ∧
  (LaneDone s c (.fclamp m o3) (o3.d.opnd 1) false fun l =>
    rounded fp32 m (((a3 l).minmax true (b3 l)).minmax false (c3 false l))) ∧
  (LaneDone s c (.faddI i) (i.d.opnd 1) false fun l => rne ((ai l).add .rne k)) ∧
  (LaneDone s c (.fmulI i) (i.d.opnd 1) false fun l => rne ((ai l).mul k)) ∧
  (LaneDone s c (.ffmaI i) (i.d.opnd 1) false fun l =>
    rne (((ai l).mul k).add .rne (fp32.read false (c.t.value l (i.d.opnd 1))))) ∧
  (LaneDone s c (.fcmpI i) (i.d.opnd 1) true fun l => wrap 32 (relCode ((ai l).rel k))) ∧
  (LaneDone s c (.fsqrt m o1) (o1.d.opnd 1) false fun l => rounded fp32 m (a1 l).sqrt) ∧
  (LaneDone s c (.ffrc m o1) (o1.d.opnd 1) false fun l => rounded fp32 m (fracV (a1 l))) ∧
  (LaneDone s c (.frnd m o1) (o1.d.opnd 1) false fun l => rounded fp32 m (FVal.integral m.rm (a1 l))) ∧
  (LaneDone s c (.fmant m o1) (o1.d.opnd 1) false fun l => rounded fp32 m (mantV (a1 l))) ∧
  (LaneDone s c (.fexpo m o1) (o1.d.opnd 1) true fun l => wrap 32 (expoV (a1 l)))

/-- O17 (R122, R123). The approximate functions give, in every participating lane, one value of the function of the
model (free within the rule's bounds, log entry 4), flushed where the modifier asks for it. -/
def Obligations.ApproximateResults : Prop :=
  ∀ (s : State) (c : Ctx) (m : FMod) (o : R1),
  let D := o.d.opnd 1
  let a := fun l => rdA fp32 m (c.val 1 o.a l)
  let y := fun f l => flushBits fp32 m.ftz (approxFn f (a l))
  LaneDone s c (.frcp m o) D false (y .frcp) ∧
  LaneDone s c (.frsq m o) D false (y .frsq) ∧
  LaneDone s c (.fex2 m o) D false (y .fex2) ∧
  LaneDone s c (.flg2 m o) D false (y .flg2) ∧
  LaneDone s c (.fsin m o) D false (y .fsin) ∧
  LaneDone s c (.fcos m o) D false (y .fcos) ∧
  LaneDone s c (.ftanh m o) D false (y .ftanh) ∧
  LaneDone s c (.fsigm m o) D false (y .fsigm) ∧
  (LaneDone s c (.fsilu m o) D false fun l => flushBits fp32 m.ftz (siluV (a l)))

/-- (R128). FP64 arithmetic on register pairs, each result rounded once. -/
def Sys2Proof.Machine.Fp64Results : Prop :=
  ∀ (s : State) (c : Ctx) (m : FMod) (nc : Bool) (o1 : R1) (o : R2) (o3 : R3),
  let D := o.d.opnd 2
  let a := fun l => rdA fp64 m (c.val 2 o.a l)
  let b := fun l => rdB fp64 m (c.val 2 o.b l)
  (LaneDone s c (.dadd m o) D false fun l => rounded fp64 m ((a l).add m.rm (b l))) ∧
  (LaneDone s c (.dmul m o) D false fun l => rounded fp64 m ((a l).mul (b l))) ∧
  (LaneDone s c (.ddiv m o) D false fun l => rounded fp64 m ((a l).div (b l))) ∧
  (LaneDone s c (.dfma m nc o3) (o3.d.opnd 2) false fun l => rounded fp64 m
    (((rdA fp64 m (c.val 2 o3.a l)).mul (rdB fp64 m (c.val 2 o3.b l))).add m.rm (rdC fp64 m nc (c.val 2 o3.c l)))) ∧
  (LaneDone s c (.dcmp m o) (o.d.opnd 1) true fun l => wrap 32 (relCode ((a l).rel (b l)))) ∧
  (LaneDone s c (.dsqrt m o1) (o1.d.opnd 2) false fun l => rounded fp64 m (rdA fp64 m (c.val 2 o1.a l)).sqrt)

/-- The two halves of a value put together from a function of their numbers. -/
def Sys2Proof.Machine.halves (f : Nat → Nat) : Nat := f 0 % 2 ^ 16 + f 1 % 2 ^ 16 * 2 ^ 16

/-- (R129, R130). Packed 16-bit arithmetic works half by half; fdot2 rounds C and both products once. -/
def Sys2Proof.Machine.PackedFloatResults : Prop :=
  ∀ (s : State) (c : Ctx) (m : FMod) (bf nc : Bool) (o : R2) (o3 : R3),
  let f := hfmt bf
  let D := o.d.opnd 1
  let a := fun l j => rdA f m (bitsOf (c.val 1 o.a l) (16 * j) 16)
  let b := fun l j => rdB f m (bitsOf (c.val 1 o.b l) (16 * j) 16)
  let a3 := fun l j => rdA f m (bitsOf (c.val 1 o3.a l) (16 * j) 16)
  let b3 := fun l j => rdB f m (bitsOf (c.val 1 o3.b l) (16 * j) 16)
  (LaneDone s c (.hadd2 m bf o) D false fun l => halves fun j => rounded f m ((a l j).add m.rm (b l j))) ∧
  (LaneDone s c (.hmul2 m bf o) D false fun l => halves fun j => rounded f m ((a l j).mul (b l j))) ∧
  (LaneDone s c (.hmin2 m bf o) D false fun l => halves fun j => rounded f m ((a l j).minmax false (b l j))) ∧
  (LaneDone s c (.hmax2 m bf o) D false fun l => halves fun j => rounded f m ((a l j).minmax true (b l j))) ∧
  (LaneDone s c (.hcmp2 m bf o) D false fun l => halves fun j => wrap 16 (relCode ((a l j).rel (b l j)))) ∧
  (LaneDone s c (.hfma2 m bf nc o3) (o3.d.opnd 1) false fun l => halves fun j =>
    rounded f m (((a3 l j).mul (b3 l j)).add m.rm (rdC f m nc (bitsOf (c.val 1 o3.c l) (16 * j) 16)))) ∧
  (LaneDone s c (.fdot2 m bf o3) (o3.d.opnd 1) false fun l => rounded fp32 m
    (exactSum m.rm [rdC fp32 m false (c.val 1 o3.c l), (a3 l 0).mul (b3 l 0), (a3 l 1).mul (b3 l 1)]))

/-- O18 (R128 to R130). FP64 arithmetic on register pairs, and packed 16-bit arithmetic half by half. -/
def Obligations.Fp64AndPackedResults : Prop :=
  Sys2Proof.Machine.Fp64Results ∧ Sys2Proof.Machine.PackedFloatResults

/-- O19 (R131 to R136). Conversions: between formats and to and from integers with one rounding, the byte formats, MX
blocks with their scale, and INT4. -/
def Obligations.ConversionResults : Prop :=
  ∀ (s : State) (c : Ctx) (fs fd : FFmt) (ti : ConvTy) (wf : WideFmt) (ef : MxFmt) (e5m2 neg ab sat hi ftz : Bool)
    (rm : Rounding) (seed : SReg) (pos : Fin 4) (o1 : R1) (o : R2) (o3 : R3),
  (LaneDone s c (.cvtf fs fd neg ab ftz rm o1) (o1.d.opnd fd.regs) false fun l =>
    fd.fmt.round rm ftz false 0 ((fs.fmt.read ftz (c.val fs.regs o1.a l)).mods neg ab)) ∧
  (LaneDone s c (.cvtfi fs ti ftz rm o1) (o1.d.opnd ti.regs) ti.sx fun l =>
    ti.put ((fs.fmt.read ftz (c.val fs.regs o1.a l)).toInt rm ti.signed ti.ew)) ∧
  (LaneDone s c (.cvtif ti fd rm o1) (o1.d.opnd fd.regs) false fun l =>
    fd.fmt.round rm false false 0 (FVal.ofInteger (elemVal ti.signed ti.ew (c.val ti.regs o1.a l)))) ∧
  (LaneDone s c (.cvt8Encode sat e5m2 wf hi ftz rm seed o) (o.d.opnd 1) false fun l =>
    let lane := if o.d.isS then 0 else l
    let r := fun j => if rm = .sr then srRandom (uval 32 (c.t.s seed).toNat) (2 * hi.toNat + j) lane
      else srRandom (uval 32 0) (2 * hi.toNat + j) lane
    let y := fun j x => (fp8 e5m2).round rm false sat (r j) (wf.fmt.read ftz x)
    putBits (c.t.value l (o.d.opnd 1)) (16 * hi.toNat) 16 (y 0 (c.val 1 o.a l) + 256 * y 1 (c.val 1 o.b l))) ∧
  (LaneDone s c (.cvt8Decode e5m2 wf pos ftz o1) (o1.d.opnd 1) false fun l =>
    wf.fmt.round .rne ftz false 0 ((fp8 e5m2).decode (bitsOf (c.val 1 o1.a l) (8 * pos.val) 8))) ∧
  (LaneDone s c (.cvtmxEncode ef ftz rm seed o1) (o1.d.opnd1 (ef.regs + 1) 1) false fun l =>
    let x := c.t.value l (o1.a.opndA 32 1)
    let sd := if rm = .sr then uval 32 (c.t.s seed).toNat else uval 32 0
    let e := mxEncode ef rm (fun e => srRandom sd e l) ((List.range 32).map fun i => fp32.read ftz (bitsOf x (32 * i) 32))
    joinElems (MxW ef) e.1 + e.2 * 2 ^ (32 * ef.regs)) ∧
  (LaneDone s c (.cvtmxDecode ef ftz rm o1) (o1.d.opnd1 32 1) false fun l =>
    let x := c.t.value l (o1.a.opndA (ef.regs + 1) 1)
    joinElems 32 ((List.range 32).map fun i =>
      fp32.round rm ftz false 0 (mxValue ef.fmt (bitsOf x (MxW ef * i) (MxW ef)) (bitsOf x (32 * ef.regs) 8)))) ∧
  (LaneDone s c (.cvt4Pack o1) (o1.d.opnd 1) false fun l =>
    joinElems 4 ((elems 8 32 (c.t.value l (o1.a.opndA 8 1))).map fun v => wrap 4 (clampI (-8) 7 (sval 32 v)))) ∧
  (LaneDone s c (.cvt4Deq o3) (o3.d.opnd1 4 1) false fun l =>
    joinElems 16 ((elems 8 4 (c.val 1 o3.a l)).map fun q =>
      int4Weight q (bitsOf (c.val 1 o3.c l) 0 4) (bitsOf (c.val 1 o3.b l) 0 16)))

/-! Control flow, traps and lanes. -/

/-- (R138 to R142, R75). Transfers: each participating lane of bra, brx, call, callx and ret goes to its target,
and a lane outside the guard to the fall-through; call and callx leave the link address in v188:v189, full, untainted and
unpoisoned; nothing else changes. -/
def Sys2Proof.Machine.TransferResults : Prop :=
  ∀ (s : State) (c : Ctx) (g : Option Guard) (off : BitVec 48) (r : Reg),
  let m := c.guardMask g
  let fixed : VAddr := c.wordAddr + BitVec.ofInt 57 (8 * off.toInt)
  let target : Nat → VAddr := fun l => BitVec.ofNat 57 (c.t.value l (r.opnd 2))
  let fits : Nat → Prop := fun l =>
    c.t.poisoned l (r.opnd 2) = false ∧ c.t.value l (r.opnd 2) % 8 = 0 ∧ c.t.value l (r.opnd 2) < 2 ^ 57
  (s.ctx? = some c → c.guardBad g = 0 →
    Moves s c (.bra g off) (fun t => t = c.t) fun l => some (if m.getLsbD l then fixed else c.fallThrough)) ∧
  (AtIssue s c (.brx g r) m → c.guardBad g = 0 → (∀ l < 64, m.getLsbD l = true → fits l) →
    Moves s c (.brx g r) (fun t => t = c.t) fun l => some (if m.getLsbD l then target l else c.fallThrough)) ∧
  (AtIssue s c (.call off) c.mask → Moves s c (.call off)
    (fun t => VWritten c.t t c.mask 188 2 (fun _ => c.fallThrough.toNat) (fun _ => false) (fun _ => false))
    fun _ => some fixed) ∧
  (AtIssue s c (.callx r) c.mask → (∀ l < 64, c.mask.getLsbD l = true → fits l) → Moves s c (.callx r)
    (fun t => VWritten c.t t c.mask 188 2 (fun _ => c.fallThrough.toNat) (fun _ => false) (fun _ => false))
    fun l => some (target l)) ∧
  (AtIssue s c (.ret r) c.mask → (∀ l < 64, c.mask.getLsbD l = true → fits l) →
    Moves s c (.ret r) (fun t => t = c.t) fun l => some (target l))

/-- (R139). The checks of a register target, in the lanes that take the branch: a poisoned target raises POISON, one
with bits [2:0] or [63:57] set ALIGN with the lowest such target; ALIGN is the lower cause; no lane moves. -/
def Sys2Proof.Machine.TransferTargetTraps : Prop :=
  ∀ (s : State) (c : Ctx) (r : Reg) (i : Instr) (m : LaneMask),
  (i = .callx r ∧ m = c.mask ∨ i = .ret r ∧ m = c.mask ∨
    ∃ g, i = .brx g r ∧ m = c.guardMask g ∧ c.guardBad g = 0) → AtIssue s c i m →
  let target := fun l => c.t.value l (r.opnd 2)
  let poisoned := fun l => c.t.poisoned l (r.opnd 2)
  let wrong := maskOf ((lanes m).filter fun l => !poisoned l && decide (target l % 8 ≠ 0 ∨ 2 ^ 57 ≤ target l))
  let bad := maskOf ((lanes m).filter poisoned)
  (wrong ≠ 0 → ∃ k < 64, wrong.getLsbD k = true ∧ (∀ l < 64, wrong.getLsbD l = true → target k ≤ target l) ∧
    exec i s = .next (s.raise c 0x06 0 (BitVec.ofNat 64 (target k)) wrong)) ∧
  (wrong = 0 → bad ≠ 0 → exec i s = .next (s.raise c 0x0B 0 0 bad))

/-- O20 (R75, R138 to R142). Transfers move the lanes of the path to their targets; a register target that fails its check
raises its cause, and no lane moves. -/
def Obligations.TransferOutcomes : Prop :=
  Sys2Proof.Machine.TransferResults ∧ Sys2Proof.Machine.TransferTargetTraps

/-- O21 (R142 to R144, R176). exit ends the participating lanes; nop goes on with the next instruction; yield and
sleep 0 send the troupe behind the others, and a longer sleep suspends it until its tick. -/
def Obligations.ExitAndPauseResults : Prop :=
  ∀ (s : State) (c : Ctx) (n : W32), s.ctx? = some c →
  Moves s c .exit (fun t => t = { c.t with exited := c.t.exited ||| c.mask }) (fun _ => none) ∧
  exec .nop s = .next (s.advance c c.t) ∧
  Moves s c .yield (fun t => t = { c.t with yielded := true, lastGrant := s.seq }) (fun _ => some c.fallThrough) ∧
  (n = 0 → Moves s c (.sleep n) (fun t => t = { c.t with yielded := true, lastGrant := s.seq })
    fun _ => some c.fallThrough) ∧
  (n ≠ 0 → Moves s c (.sleep n) (fun t => t = { c.t with susp := .sleep (s.tick + n.toNat) })
    fun _ => some c.fallThrough)

/-- (R81 to R84, R143). Taking a trap outside a handler, with a handler's address set: the trap registers take the
cause, the information, the addresses and the lanes, the in-handler flag is set, the frontier becomes the shadow
frontier, and the handler starts at TVEC with every live lane. trap and bkpt put their path at its successor; a trap of
another instruction at the instruction. -/
def Sys2Proof.Machine.TrapEntryResults : Prop :=
  ∀ (s : State) (c : Ctx) (imm : W32) (cause : BitVec 8) (info addr : W64) (m : LaneMask), s.ctx? = some c →
  c.t.trap.inHandler = false → c.t.tvec ≠ 0 →
  let entry := fun (s' : State) (k : BitVec 8) (i a : W64) (ls : LaneMask) (sh : List Path) =>
    ∃ t', s'.troupe? c.key = some t' ∧ SameOutside s s' ∧ s'.current = none ∧
    t'.trap.cause = k ∧ t'.trap.info = i ∧ t'.trap.addr = a ∧ t'.trap.inst = c.wordAddr.setWidth 64 ∧
    t'.trap.mask = ls ∧ t'.trap.inHandler = true ∧ t'.trap.resume = false ∧ t'.trap.shadow = sh ∧
    (∃ p, t'.frontier = [⟨p, c.t.tvec, 0, c.t.live⟩]) ∧ t'.issue = none ∧
    { t' with trap := c.t.trap, frontier := c.t.frontier, issue := c.t.issue } = c.t
  let successor := s.enter c.key.core c.blk.regime c.t.frontier c.fallThrough c.mask
  (∃ s', exec (.trap imm) s = .next s' ∧ entry s' 0x14 (imm.setWidth 64) 0 c.mask successor) ∧
  (∃ s', exec (.bkpt imm) s = .next s' ∧ entry s' 0x15 (imm.setWidth 64) 0 c.mask successor) ∧
  entry (s.raise c cause info addr m) cause info addr m
    (c.t.frontier ++ [⟨c.iss.prio, c.iss.addr, c.iss.idx, c.mask⟩])

/-- (R84, R392). A trap under the in-handler flag, or one for which no handler's address is set, halts the troupe
where it stands: it is suspended with both causes, and an entry of the fault ring reports it. -/
def Sys2Proof.Machine.DoubleTrapHalts : Prop :=
  ∀ (s : State) (c : Ctx) (cause : BitVec 8) (info addr : W64) (m : LaneMask), s.ctx? = some c →
  let halted := fun (first second : BitVec 8) (s' : State) =>
    (∃ t' inst a ls, s'.troupe? c.key = some t' ∧ t'.susp = .doubleTrap first second inst a ls ∧ t'.issue = none) ∧
    s'.homes = s.homes ∧ s'.current = none ∧ ∃ e ∈ s'.pkg.ring, e.words.length = 8 ∧
      (e.ring = if c.blk.regime.priv = .h then Ring.kFault else Ring.vfFault c.blk.regime.vf)
  (c.t.trap.inHandler = true → halted c.t.trap.cause cause (s.raise c cause info addr m)) ∧
  (c.t.trap.inHandler = false → c.t.tvec = 0 → halted cause cause (s.raise c cause info addr m))

/-- O22 (R81 to R84, R143, R392). Taking a trap enters the handler with everything saved; where no handler can be entered the
troupe halts with both causes, and the fault ring reports it. -/
def Obligations.TrapResults : Prop :=
  Sys2Proof.Machine.TrapEntryResults ∧ Sys2Proof.Machine.DoubleTrapHalts

/-- O23 (R85). tret: outside a handler it raises ILLEGAL_INSTRUCTION; with lanes elsewhere it raises CONVERGENCE with
the number of paths; otherwise the shadow frontier is the frontier again, without the lanes that have exited, and the
in-handler flag is clear. -/
def Obligations.TrapReturnResults : Prop :=
  ∀ (s : State) (c : Ctx), s.ctx? = some c →
  (c.t.trap.inHandler = false → exec .tret s = .next (s.raise c 0x01 0 0 c.mask)) ∧
  (c.t.trap.inHandler = true → c.t.frontier ≠ [] →
    exec .tret s = .next (s.raise c 0x03 (BitVec.ofNat 64 (c.t.frontier.length + 1)) 0 c.mask)) ∧
  (c.t.trap.inHandler = true → c.t.frontier = [] →
    Moves s c .tret (fun t => t = { c.t with
        frontier := s.restoreShadow c.key.core c.blk.regime c.t c.t.trap.resume
        trap := { c.t.trap with inHandler := false, shadow := [], resume := false } }) (fun _ => none) ∧
    (c.t.trap.resume = false → ∀ a l, l < 64 →
      (lanesAt (s.restoreShadow c.key.core c.blk.regime c.t c.t.trap.resume) a).getLsbD l =
        ((lanesAt c.t.trap.shadow a).getLsbD l && !c.t.exited.getLsbD l)))

/-- (R145 to R152). Cross-lane operations: a lane of shfl takes the register of the lane its mode and segment give,
0 from an exited lane; votes, matches, reductions and scans over the participating lanes. -/
def Sys2Proof.Machine.CrossLaneResults : Prop :=
  ∀ (s : State) (c : Ctx) (mode : ShflMode) (seg : Fin 7) (w64 inv excl live : Bool) (vm : VoteMode) (q : Pred)
    (op : RedOp) (t : IntTy) (d : Reg) (o : R2) (o1 : R1),
  let n := if w64 then 2 else 1
  let yes := maskOf ((lanes c.mask).filter fun l => c.t.pred q l ≠ inv)
  let k := (lanes yes).length
  let elem := fun l => uval t.ew (c.val t.regs o1.a l)
  let key := fun l => if w64 then c.val n o1.a l else uval 32 (c.val n o1.a l)
  let anyT := fun a => (lanes c.mask).any fun l => c.t.tainted l a
  let anyP := fun a => (lanes c.mask).any fun l => c.t.poisoned l a
  let src := fun l => shflLane mode seg l (uval 32 (c.val 1 o.b l))
  let used := fun l => (lanes c.mask).filter fun m => o1.d.isS || decide (m < l) || (!excl && decide (m = l))
  (s.ctx? = some c → s.ready c [o.b.opnd 1] [o.d.opnd n] c.mask = .go → s.inFlight c.key (o.a.opnd n) = false →
    (∀ l < 64, c.mask.getLsbD l = true → c.t.exited.getLsbD (src l) = true ∨
      (c.t.emptyLanes (o.a.opnd n)).getLsbD (src l) = false) →
    Completes s c (.shfl mode seg w64 o) fun t' => RegWritten c.t t' c.mask (o.d.opnd n) false
      (fun l => if c.t.exited.getLsbD (src l) then 0 else c.val n o.a (src l))
      (fun l => (!c.t.exited.getLsbD (src l) && c.t.tainted (src l) (o.a.opnd n)) || c.t.tainted l (o.b.opnd 1))
      (fun l => (!c.t.exited.getLsbD (src l) && c.t.poisoned (src l) (o.a.opnd n)) || c.t.poisoned l (o.b.opnd 1))) ∧
  (AtIssue s c (.vote vm inv q d) c.mask → Completes s c (.vote vm inv q d) fun t' =>
    RegWritten c.t t' c.mask (d.opnd (if vm = .ballot then 2 else 1)) false
      (fun _ => match vm with
        | .any => if k = 0 then 0 else 1
        | .all => if k = (lanes c.mask).length then 1 else 0
        | .eq => if k = 0 ∨ k = (lanes c.mask).length then 1 else 0
        | .ballot => yes.toNat)
      (fun _ => false) (fun _ => (lanes c.mask).any fun l => c.t.predBad q l)) ∧
  (AtIssue s c (.matchLanes w64 o1) c.mask → Completes s c (.matchLanes w64 o1) fun t' =>
    RegWritten c.t t' c.mask (o1.d.opnd 2) false
      (fun l => (maskOf ((lanes c.mask).filter fun m => decide (key m = key l))).toNat)
      (fun _ => anyT (o1.a.opnd n)) (fun _ => anyP (o1.a.opnd n))) ∧
  (AtIssue s c (.redux op t o1) c.mask → Completes s c (.redux op t o1) fun t' =>
    RegWritten c.t t' c.mask (o1.d.opnd t.regs) t.sx
      (fun _ => ((lanes c.mask).map elem).foldl (redOp op t) (redIdentity op t))
      (fun _ => anyT (o1.a.opnd t.regs)) (fun _ => anyP (o1.a.opnd t.regs))) ∧
  (AtIssue s c (.scan op t excl o1) c.mask → Completes s c (.scan op t excl o1) fun t' =>
    RegWritten c.t t' c.mask (o1.d.opnd t.regs) t.sx
      (fun l => ((used l).map elem).foldl (redOp op t) (redIdentity op t))
      (fun l => (used l).any fun m => c.t.tainted m (o1.a.opnd t.regs))
      (fun l => (used l).any fun m => c.t.poisoned m (o1.a.opnd t.regs))) ∧
  (AtIssue s c (.amask live d) c.mask → Completes s c (.amask live d) fun t' =>
    RegWritten c.t t' c.mask (d.opnd 2) false (fun _ => (if live then ~~~c.t.exited else c.mask).toNat)
      (fun _ => false) (fun _ => false))

/-- (R33, R150). fredux: neighbours meet in pairs, six levels deep, an absent lane dropping out; every participating
lane receives the one result. A sum of two lanes is one rounded addition. -/
def Sys2Proof.Machine.FloatReductionResults : Prop :=
  ∀ (s : State) (c : Ctx) (f64 : Bool) (op : FRedOp) (neg ab ftz : Bool) (rm : Rounding) (o : R1),
  let n := if f64 then 2 else 1
  let f := if f64 then fp64 else fp32
  let leaf := fun l => levelZero f neg ab ftz (c.val n o.a l)
  let result := treeReduce (fredNode f op rm ftz) 6
    (laneList.map fun l => if c.mask.getLsbD l then some (leaf l) else none)
  AtIssue s c (.fredux f64 op neg ab ftz rm o) c.mask →
  (Completes s c (.fredux f64 op neg ab ftz rm o) fun t' => RegWritten c.t t' c.mask (o.d.opnd n) false
    (fun _ => result.getD 0) (fun _ => (lanes c.mask).any fun l => c.t.tainted l (o.a.opnd n))
    (fun _ => (lanes c.mask).any fun l => c.t.poisoned l (o.a.opnd n))) ∧
  (c.mask = 1 → result = some (leaf 0)) ∧
  (op = .add → c.mask = 3 →
    result = some (f.round rm ftz false 0 ((f.decode (leaf 0)).add rm (f.decode (leaf 1)))))

/-- O24 (R33, R145 to R152). Cross-lane operations, with the floating-point reduction by its tree. -/
def Obligations.CrossLaneAndReductionResults : Prop :=
  Sys2Proof.Machine.CrossLaneResults ∧ Sys2Proof.Machine.FloatReductionResults

/-- O25 (R80, R153). movs reads a special register into every participating lane; a write of %trapresume takes bit 0,
and only under the in-handler flag. -/
def Obligations.SpecialRegisterResults : Prop :=
  ∀ (s : State) (c : Ctx) (sr : Special) (d : Reg) (a : SReg),
  (AtIssue s c (.movsRead sr d) c.mask → Completes s c (.movsRead sr d) fun t' =>
    RegWritten c.t t' c.mask (d.opnd sr.regs) false (fun l => match sr with
      | .lane => l
      | .troupe => c.t.index
      | .blockX => c.blk.bx
      | .blockY => c.blk.by_
      | .blockZ => c.blk.bz
      | .gridX => s.gridOf c.blk 0 32
      | .gridY => s.gridOf c.blk 32 16
      | .gridZ => s.gridOf c.blk 48 16
      | .coreX => c.key.core % 16
      | .coreY => c.key.core / 16
      | .slice => c.slice
      | .vf => c.blk.regime.vf
      | .tick => s.tick
      | .clock => s.clocks64 c.slice / 64
      | .trapcause => c.t.trap.cause.toNat
      | .trapinfo => c.t.trap.info.toNat
      | .trapaddr => c.t.trap.addr.toNat
      | .trapinst => c.t.trap.inst.toNat
      | .trapmask => c.t.trap.mask.toNat
      | .trapresume => if c.t.trap.inHandler && c.t.trap.resume then 1 else 0)
      (fun _ => false) (fun _ => false)) ∧
  (AtIssue s c (.movsWrite a) c.mask → Completes s c (.movsWrite a) fun t' =>
    (c.t.trap.inHandler = false → t' = c.t) ∧
    (c.t.trap.inHandler = true → t' = { c.t with trap := { c.t.trap with resume := (c.t.s a).getLsbD 0 } }))

/-! Buffer records and memory. -/

/-- The accesses of the M format (R160, R163 to R167): kind, access code, guard, data, destination, and whether one
access stands for the troupe. -/
def Sys2Proof.Machine.memRequest (i : Instr) : Option MemReq :=
  match i with
  | .ld d m => some ⟨i, m, .load false, 0, none, none, some d, false, [0, 1]⟩
  | .ldc d m => some ⟨i, m, .load true, 1, none, none, some d, false, [0, 1]⟩
  | .st g x m => some ⟨i, m, .store, 2, g, some (x.opnd m.w.regs), none, false, [0, 1]⟩
  | .ldu d m => some ⟨i, m, .load false, 3, none, none, some d, true, [0, 1]⟩
  | .stu g x m => some ⟨i, m, .store, 4, g, some (x.opnd m.w.regs), none, true, [0, 1]⟩
  | .atom g op d m => some ⟨i, m, .atomic op, 5, g, some (d.opnd m.w.regs), some d.reg, false, [0, 1]⟩
  | .atomcas g d m => some ⟨i, m, .cas, 6, g, some (d.opnd (2 * m.w.regs)), some d.reg, false, [0, 1]⟩
  | .red g op x m => some ⟨i, m, .red op, 7, g, some (x.opnd m.w.regs), none, false, [0, 1]⟩
  | _ => none

/-- The cluster accesses (R258). -/
def Sys2Proof.Machine.clusterRequest (i : Instr) : Option MemReq :=
  match i with
  | .ldx d m => some ⟨i, m, .load false, 10, none, none, some d, false, [2]⟩
  | .stx x m => some ⟨i, m, .store, 11, none, some (x.opnd m.w.regs), none, false, [2]⟩
  | .atomx op d m => some ⟨i, m, .atomic op, 12, none, some (d.opnd m.w.regs), some d.reg, false, [2]⟩
  | _ => none

/-- What each participating lane reaches (R156, R161): an aligned address in bounds, or nothing where the record drops
what is out of bounds. -/
def Sys2Proof.Machine.Reaches (r : MemReq) (c : Ctx) (b : BufRec) (limit : Nat) (ls : List Nat) (at_ : Nat → Option Nat) : Prop :=
  ∀ l ∈ ls, c.t.poisoned l (r.m.idx.opnd 1) = false ∧
    match at_ l with
    | some a => b.addressOf (c.t.value l (r.m.idx.opnd 1)) r.m.off.toInt (widthBytes r.m.w) limit = .to a ∧
        a % widthBytes r.m.w = 0
    | none => b.addressOf (c.t.value l (r.m.idx.opnd 1)) r.m.off.toInt (widthBytes r.m.w) limit = .out ∧ b.oobZero = true

/-- O26 (R156). The address of a lane: the index and the offset are split over the record's dimensions, and give the
base plus the strided sum. An index below 0, past 32 bits or outside the extents, or an access that crosses its row, is
out of bounds; a sum past 2^57, or past the block's scratchpad bytes, is bad. -/
def Obligations.AddressResults : Prop :=
  ∀ (r : BufRec) (idx wb limit : Nat) (off : Int),
  let es := 2 ^ r.esize
  let address := r.addressOf idx off wb limit
  let fits := fun b => if r.space = 0 then b + wb ≤ 2 ^ 57 else b + wb ≤ limit
  let reached := fun i0 i1 i2 =>
    let a := r.base + i0 * es + i1 * r.stride1 + i2 * r.stride2
    (r.extent0 * es < i0 * es + wb → address = .out) ∧
    (i0 * es + wb ≤ r.extent0 * es → fits a → address = .to a) ∧
    (i0 * es + wb ≤ r.extent0 * es → ¬ fits a → address = .bad)
  let x : Int := (idx % 2 ^ 32 : Nat) + off
  (x < 0 ∨ (2 ^ 32 : Nat) ≤ x → address = .out) ∧
  ∀ n : Nat, x = n → n < 2 ^ 32 →
    (r.ndims = 1 → (r.extent0 ≤ n → address = .out) ∧ (n < r.extent0 → reached n 0 0)) ∧
    (r.ndims = 2 → (r.extent0 * r.extent1 ≤ n → address = .out) ∧
      ∀ i0 i1, i0 < r.extent0 → i1 < r.extent1 → n = i0 + r.extent0 * i1 → reached i0 i1 0) ∧
    (r.ndims = 3 → (r.extent0 * r.extent1 * r.extent2 ≤ n → address = .out) ∧
      ∀ i0 i1 i2, i0 < r.extent0 → i1 < r.extent1 → i2 < r.extent2 →
        n = i0 + r.extent0 * (i1 + r.extent1 * i2) → reached i0 i1 i2)

/-- O27 (R161 to R167). A memory instruction whose record is good and whose participating lanes all reach an address, or
are dropped, is accepted: in GLOBAL with every page translated, in SCRATCH with no range it waits for. A stu whose guard
is false in the lowest lane does nothing. -/
def Obligations.MemoryAccepted : Prop :=
  ∀ (s : State) (c : Ctx) (i : Instr) (r : MemReq) (at_ : Nat → Option Nat), memRequest i = some r →
  let b := c.record r.m.buf
  let ls := r.lanesOf c
  let live := ls.filterMap fun l => (at_ l).map fun a => (l, a)
  let dropped := ls.filter fun l => (at_ l).isNone
  let pages := toKeys (live.map fun e => e.2 / 4096)
  (s.ctx? = some c → r.uniform = true → ls = [] → r.poisonedGuard c = 0 → exec i s = .next (s.advance c c.t)) ∧
  (AtIssue s c i (maskOf ls) → r.skips c = false → c.t.memFull r.kind = false → r.poisonedGuard c = 0 →
    b.bad [0, 1] r.kind.writes = false → Reaches r c b c.blk.d ls at_ →
    (b.space = 0 →
      let x := s.xlatePages c.slice c.blk.regime r.kind.need pages
      xAgain x.1 = [] → (∀ e ∈ live, ∃ dest, pageResult x.1 e.2 = .ok dest) →
      exec i s = .next (x.2.acceptGlobal c r b live dropped x.1
        (s.writablePages c.slice c.blk.regime r.kind.need pages))) ∧
    (b.space = 1 →
      s.scratchHeld c r.kind.writes (live.flatMap fun e => spBytes c.blk.g0 b.swizzle e.2 (widthBytes r.m.w)) = false →
      exec i s = .next (s.acceptScratch c r b live dropped)))

/-- O28 (R161). A memory instruction that meets a failure in some lane acts in none: a bad record raises SHAPE, and a
lane out of bounds without ZERO raises BOUNDS with exactly those lanes, whatever the others meet; a full counter
stalls, and so does an access of whose translation the home refuses a table entry with RETRY. -/
def Obligations.MemoryTraps : Prop :=
  ∀ (s : State) (c : Ctx) (i : Instr) (r : MemReq), memRequest i = some r →
  let b := c.record r.m.buf
  let ls := r.lanesOf c
  let addr := fun l => b.addressOf (c.t.value l (r.m.idx.opnd 1)) r.m.off.toInt (widthBytes r.m.w) c.blk.d
  let outside := ls.filter fun l => !c.t.poisoned l (r.m.idx.opnd 1) &&
    (decide (addr l = .bad) || (decide (addr l = .out) && !b.oobZero))
  let live := liveAddrs (ls.map fun l => laneAddr r c b c.blk.d l)
  let x := s.xlatePages c.slice c.blk.regime r.kind.need (toKeys (live.map fun e => e.2 / 4096))
  AtIssue s c i (maskOf ls) → r.skips c = false →
  (c.t.memFull r.kind = true → exec i s = .next (s.stall c)) ∧
  (c.t.memFull r.kind = false → r.poisonedGuard c = 0 → b.bad [0, 1] r.kind.writes = false → b.space = 0 → xAgain x.1 ≠ [] →
    ∃ u : State, u.troupes = s.troupes ∧ u.homes.mem = s.homes.mem ∧ exec i s = .next (u.stall c)) ∧
  (c.t.memFull r.kind = false → r.poisonedGuard c ≠ 0 → exec i s = .next (s.raise c 0x0B 0 0 (r.poisonedGuard c))) ∧
  (c.t.memFull r.kind = false → r.poisonedGuard c = 0 → b.bad [0, 1] r.kind.writes = true →
    exec i s = .next (s.raise c 0x0C 0 0 c.mask)) ∧
  (c.t.memFull r.kind = false → r.poisonedGuard c = 0 → b.bad [0, 1] r.kind.writes = false →
    (b.space = 0 → xAgain x.1 = []) → outside ≠ [] → ∃ u, SameOutside { s with pkg := u.pkg } u ∧ u.troupes = s.troupes ∧
      exec i s = .next (u.raise c 0x05 0 0 (if r.uniform then c.mask else maskOf outside)))

/-- O29 (R66, R72, R73, R162). An accepted load, store or atomic operation of GLOBAL lines: the operation is in flight with
one part for each line touched, each lane's access in it; the destination registers of its lanes are empty, or an s
destination pending; and LD or ST counts it. -/
def Obligations.AcceptedOperation : Prop :=
  ∀ (s : State) (c : Ctx) (r : MemReq) (b : BufRec) (live : List (Nat × Nat)) (d : Nat → Nat) (tag : Nat → Nat),
  s.ctx? = some c → live ≠ [] → r.kind ≠ .prefetch →
  let accs := live.map fun e => TaggedAcc.mk e.2 (tag e.2) (accOf r c e.1 (d e.2))
  let parts := partsOf accs
  (∀ p ∈ parts, ∃ e ∈ live, p.line = d e.2 / 64) ∧
  (∀ e ∈ live, ∃ p ∈ parts, p.line = d e.2 / 64 ∧ p.state = .sent ∧ accOf r c e.1 (d e.2) ∈ p.accs) ∧
  (parts.map (·.line)).Nodup ∧
  let t := (c.t.countMem r.kind).emptyDst r.dst r.m.w.regs (maskOf (live.map (·.1)))
  (r.kind.reads = true → t.cnt = { c.t.cnt with ld := c.t.cnt.ld + 1 }) ∧
  (r.kind.reads = false → t.cnt = { c.t.cnt with st := c.t.cnt.st + 1 }) ∧
  (∀ k, r.dst = some (.s k) → t.uni.sPending.getLsbD k.val = true) ∧
  (∀ v : Fin 192, r.dst = some (.v v) → ∀ j < r.m.w.regs, ∀ e ∈ live, e.1 < 64 →
    laneBit t.lane.empty (v.val + j) e.1 = true)

/-- O30 (R164, R184). A store of scratchpad words: byte k of a lane's access is byte k of its data at the array byte that
the swizzle gives; every other byte of the array is as it was, and so is all of memory. One lane stores here; an offset
within a block keeps its own byte under every swizzle. -/
def Obligations.ScratchStoreResults : Prop :=
  ∀ (co : Core) (as : List Nat) (a : LaneAcc) (w : Nat), as.Nodup → as.length = w → w ≤ 16 →
  let co' := (co.accesses .store w [(as, a)]).2
  (∀ k < w, co'.byte (as.getD k 0) = BitVec.ofNat 8 (a.val / 256 ^ k)) ∧
  (∀ x, x ∉ as → co'.byte x = co.byte x) ∧ co'.l1 = co.l1 ∧
  (∀ g0 z o o', z < 7 → spAddr g0 z o = spAddr g0 z o' → o = o')

/-- (R157 to R159). brec.sp loads a record from the block's data, brmk makes one of four s registers, brset replaces
one field: the b register holds the new record, and nothing else of the troupe changes. A poisoned s register or loaded
word raises POISON; an offset out of the block's data BOUNDS, and one that is no multiple of 32 ALIGN. -/
def Sys2Proof.Machine.BufferRecordResults : Prop :=
  ∀ (s : State) (c : Ctx) (b : BReg) (sa : SReg) (f : BField),
  let recordIs := fun (t : Troupe) (x : BitVec 256) => t.uni.bufRec b = x ∧
    (∀ b' : BReg, b' ≠ b → t.uni.bufRec b' = c.t.uni.bufRec b') ∧ { t with uni := { t.uni with b := c.t.uni.b } } = c.t
  let o := (c.t.s sa).toNat
  let co := s.core c.key.core
  let at_ := spBytes c.blk.g0 6 o 32
  let x := (c.t.uni.bufRec b).toNat
  let v := (c.t.s sa).toNat
  let raised := fun (i : Instr) (cause : BitVec 8) (a : W64) => exec i s = .next (s.raise c cause 0 a c.mask)
  (AtIssue s c (.brec true b sa) c.mask →
    (c.t.sBad sa = true → raised (.brec true b sa) 0x0B 0) ∧
    (c.t.sBad sa = false → c.blk.d < o + 32 → raised (.brec true b sa) 0x05 0) ∧
    (c.t.sBad sa = false → o + 32 ≤ c.blk.d → o % 32 ≠ 0 → raised (.brec true b sa) 0x06 (c.t.s sa)) ∧
    (c.t.sBad sa = false → o + 32 ≤ c.blk.d → o % 32 = 0 →
      (s.scratchHeld c false at_ = true → exec (.brec true b sa) s = .next (s.stall c)) ∧
      (s.scratchHeld c false at_ = false → co.badAt at_ = true → raised (.brec true b sa) 0x0B 0) ∧
      (s.scratchHeld c false at_ = false → co.badAt at_ = false →
        Completes s c (.brec true b sa) fun t => recordIs t (BitVec.ofNat 256 (leVal (at_.map co.byte)))))) ∧
  (s.ctx? = some c → sa.val ≤ 60 →
    ((∃ i < 4, c.t.uni.sPending.getLsbD (sa.val + i) = true) → exec (.brmk b sa) s = .next (s.stall c)) ∧
    ((∀ i < 4, c.t.uni.sPending.getLsbD (sa.val + i) = false) →
      (∃ i < 4, c.t.uni.sPoison.getLsbD (sa.val + i) = true) → raised (.brmk b sa) 0x0B 0) ∧
    ((∀ i < 4, c.t.uni.sPending.getLsbD (sa.val + i) = false ∧ c.t.uni.sPoison.getLsbD (sa.val + i) = false) →
    Completes s c (.brmk b sa) fun t => recordIs t
      (c.t.s (Fin.ofNat 64 (sa.val + 3)) ++ c.t.s (Fin.ofNat 64 (sa.val + 2)) ++ c.t.s (Fin.ofNat 64 (sa.val + 1)) ++
        c.t.s sa))) ∧
  (AtIssue s c (.brset f b sa) c.mask →
    (c.t.sBad sa = true → raised (.brset f b sa) 0x0B 0) ∧
    (c.t.sBad sa = false → Completes s c (.brset f b sa) fun t => recordIs t
    (BitVec.ofNat 256 (match f with
      | .base => putBits x 0 57 v
      | .extent0 => putBits x 64 32 v
      | .extent1 => putBits x 96 32 v
      | .extent2 => putBits x 128 32 v
      | .stride1 => putBits x 192 32 v
      | .stride2 => putBits x 224 32 v
      | .adv => putBits x 0 57 (bitsOf x 0 57 + v)))))

/-- (R157). brec from memory reads its record once and stalls until it is back: the read of its four words goes out with
scope GPU and the DEFAULT lease, and when it is complete the b register takes the 32 bytes, or POISON is raised. An address
that is no multiple of 32 raises ALIGN, and one that does not translate its fault. -/
def Sys2Proof.Machine.RecordFromMemory : Prop :=
  ∀ (s : State) (c : Ctx) (b : BReg) (sa : SReg),
  let i := Instr.brec false b sa
  let a := (c.t.s sa).toNat
  let x := s.xlate c.slice c.blk.regime a needR
  AtIssue s c i c.mask →
  (c.t.sBad sa = true → exec i s = .next (s.raise c 0x0B 0 0 c.mask)) ∧
  (c.t.sBad sa = false →
    (s.recordRead? c = none → a % 32 ≠ 0 → exec i s = .next (s.raise c 0x06 0 (c.t.s sa) c.mask)) ∧
    (s.recordRead? c = none → a % 32 = 0 → ∀ f : XFault, x.1 = .error f → f.cause ≠ causeAgain →
      exec i s = .next (x.2.raiseFault c f c.wordAddr a c.mask b.val false 5 8)) ∧
    (s.recordRead? c = none → a % 32 = 0 → ∀ d tag, x.1 = .ok (.mem d tag) →
      let (id, u) := x.2.newId
      ∃ o : MemOp, o.owner = .troupe c.key.num ∧ o.kind = .record ∧ o.width = .b64 ∧ o.dst = none ∧ o.counted = false ∧
        o.regime = c.blk.regime ∧ o.scope = 6 ∧ o.lease = 1 ∧
        o.parts = partsOf ((List.range 4).map fun k => TaggedAcc.mk a tag ⟨k, d + 8 * k, 0, 0, false⟩) ∧
        exec i s = .next ((o.parts.foldl (fun s p => s.sendPart id p.line) (u.setOp id o)).stall c)) ∧
    (∀ id o, s.recordRead? c = some (id, o) →
      let out := o.parts.flatMap (·.out)
      (o.complete = false → exec i s = .next (s.stall c)) ∧
      (o.complete = true → (out.any (·.poison)) = false → exec i s = .next ((s.delOp id).advance c { c.t with
        uni := c.t.uni.setRec b (BitVec.ofNat 256 (leVal (out.flatMap fun x => leBytes 8 x.val))) })) ∧
      (o.complete = true → (out.any (·.poison)) = true → exec i s = .next ((s.delOp id).raise c 0x0B 0 0 c.mask))))

/-- O31 (R157 to R159). The instructions that make buffer records, from the block's data, from registers, field by field, and
from memory. -/
def Obligations.RecordResults : Prop :=
  Sys2Proof.Machine.BufferRecordResults ∧ Sys2Proof.Machine.RecordFromMemory

/-- (R169, R190). prefetch never traps: with a bad record it does nothing, in SCRATCH it only waits for the range as a read
does, and in GLOBAL the lines of the lanes whose page translates are read; the troupe goes on, with no register emptied
and no counter raised. -/
def Sys2Proof.Machine.PrefetchResults : Prop :=
  ∀ (s : State) (c : Ctx) (m : MAddr), s.ctx? = some c → pendingS c.t (m.idx.opnd 1) = false →
  s.inFlight c.key (m.idx.opnd 1) = false →
  (m.idx.trapEmpty = true ∨ c.t.emptyLanes (m.idx.opnd 1) &&& c.mask = 0) →
  let b := c.record m.buf
  let r : MemReq := ⟨.prefetch m, m, .prefetch, 0, none, none, none, false, [0, 1]⟩
  let use := (lanes c.mask).filter fun l => !(m.idx.trapEmpty && (c.t.emptyLanes (m.idx.opnd 1)).getLsbD l)
  let live := liveAddrs (use.map fun l => laneAddr r c b c.blk.d l)
  let pages := toKeys (live.map fun e => e.2 / 4096)
  let x := s.xlatePages c.slice c.blk.regime needR pages
  let good := live.filter fun e => match pageResult x.1 e.2 with | .ok (.mem _ _) => true | _ => false
  let accs := good.filterMap fun e => (xAddr (pageResult x.1 e.2) e.2).map fun y => TaggedAcc.mk e.2 y.2 ⟨e.1, y.1, 0, 0, false⟩
  (b.bad [0, 1] false = true → exec (.prefetch m) s = .next (s.advance c c.t)) ∧
  (b.bad [0, 1] false = false → b.space ≠ 0 → exec (.prefetch m) s = .next
    (if s.scratchHeld c false (live.flatMap fun e => spBytes c.blk.g0 b.swizzle e.2 (widthBytes m.w)) then s.stall c
     else s.advance c c.t)) ∧
  (b.bad [0, 1] false = false → b.space = 0 → xAgain x.1 ≠ [] →
    ∃ u : State, u.troupes = s.troupes ∧ exec (.prefetch m) s = .next (u.stall c)) ∧
  (b.bad [0, 1] false = false → b.space = 0 → xAgain x.1 = [] →
    (good = [] → exec (.prefetch m) s = .next (x.2.advance c c.t)) ∧
    (good ≠ [] →
      let (id, u) := x.2.newId
      ∃ o : MemOp, o.owner = .troupe c.key.num ∧ o.kind = .prefetch ∧ o.dst = none ∧ o.counted = false ∧
        o.hint = m.hint.val ∧ o.parts = markWritable (s.writablePages c.slice c.blk.regime needR pages) (partsOf accs) ∧
        exec (.prefetch m) s =
          .next (o.parts.foldl (fun s p => s.sendPart id p.line) ((u.setOp id o).advance c c.t))))

/-- (R255 to R261). A cluster access that every lane can make is accepted: its request, with each lane's access, leaves for
the core of the target block and reaches its banks 5 ticks later; LD or ST counts it, the destination registers of its lanes
are empty, and a dropped lane receives 0. A target that holds no block raises BOUNDS, a bad record SHAPE; a full counter
stalls. -/
def Sys2Proof.Machine.ClusterAccessResults : Prop :=
  ∀ (s : State) (c : Ctx) (i : Instr) (r : MemReq) (at_ : Nat → Option Nat), clusterRequest i = some r →
  let b := c.record r.m.buf
  let ls := lanes c.mask
  let live := ls.filterMap fun l => (at_ l).map fun a => (l, a)
  let dropped := ls.filter fun l => (at_ l).isNone
  let t1 := c.t.zeroDst r.dst r.m.w false dropped
  AtIssue s c i c.mask →
  (c.t.memFull r.kind = true → exec i s = .next (s.stall c)) ∧
  (c.t.memFull r.kind = false → b.bad [2] r.kind.writes = true → exec i s = .next (s.raise c 0x0C 0 0 c.mask)) ∧
  (c.t.memFull r.kind = false → b.bad [2] r.kind.writes = false →
    (s.targetBlock c b.csel = none → exec i s = .next (s.raise c 0x05 0 0 c.mask)) ∧
    (∀ tb, s.targetBlock c b.csel = some tb → Reaches r c b tb.2.d ls at_ →
      (live = [] → exec i s = .next (s.advance c t1)) ∧
      (live ≠ [] →
        let (id, u) := s.newId
        let t2 := (t1.countMem r.kind).emptyDst r.dst r.m.w.regs (maskOf (live.map (·.1)))
        ∃ o : MemOp, o.owner = .troupe c.key.num ∧ o.kind = r.kind ∧ o.width = r.m.w ∧ o.dst = r.dst ∧ o.counted = true ∧
          o.target = some tb.1 ∧
          o.parts = [⟨b.swizzle, none, 0, live.flatMap fun e => bankAccs r c e.1 e.2, .sent, [], none, false⟩] ∧
          exec i s = .next (((u.setOp id o).advance c t2).at (s.tick + 5) (.xbarRequest id)))))

/-- O32 (R169, R190, R255 to R261). prefetch never traps, and brings lines nearer; a cluster access leaves for the core of its
target block. -/
def Obligations.PrefetchAndClusterResults : Prop :=
  Sys2Proof.Machine.PrefetchResults ∧ Sys2Proof.Machine.ClusterAccessResults

/-! The matrix unit. -/

/-- What a product instruction needs to be accepted (R214, R218, R219): room in the queue, its registers and slots not
waited for, one path, a K in range, enough scales, and every slot held. -/
structure Sys2Proof.Machine.ProductReady (s : State) (c : Ctx) (f : MmaForm) (k : Nat) : Prop where
  room : s.mxFull c = false
  acc : s.accWaits c f.ops.d = false
  settled : c.optPending f.ops.k = false ∧ c.optPending f.count = false
  slots : s.slotsHeld c false f.roles = false
  together : c.t.frontier = []
  shape : k ≤ f.kMax ∧ (f.sparse = true → k % 4 = 0)
  scales : f.scaled = 0 ∨ ceilDiv k f.scaled ≤ c.optVal f.count 0
  held : ∀ r ∈ f.roles, c.holds r.1 = true

/-- The twelve product instructions with their greatest K, the products rounded together, and the positions for which one
scale counts (R206). -/
def Sys2Proof.Machine.productShape (i : Instr) : Option (MmaOps × Nat × Nat × Nat) :=
  match i with
  | .mmaE4m3 o | .mmaE5m2 o | .mmaI8 _ _ o => some (o, 512, 32, 0)
  | .mmaBf16 o | .mmaF16 o => some (o, 256, 16, 0)
  | .mmaF32 o => some (o, 64, 8, 0)
  | .mmaI4 _ _ o => some (o, 1024, 32, 0)
  | .mmaMxf6 _ _ _ _ o => some (o, 512, 32, 32)
  | .mmaMxf4 _ _ o => some (o, 1024, 64, 32)
  | .mmaq .g32 _ _ o => some (o, 256, 16, 32)
  | .mmaq .g64 _ _ o => some (o, 256, 16, 64)
  | .mmaq .g128 _ _ o => some (o, 256, 16, 128)
  | .mmaspE4m3 _ o => some (o, 1024, 32, 0)
  | .mmaspBf16 _ o => some (o, 512, 16, 0)
  | _ => none

/-- (R206, R214, R218). Each of the twelve product instructions has its form, with the K, the chunk and the scale
count of its row; and one that is ready joins the queue of the matrix unit with its K, MX rising. -/
def Sys2Proof.Machine.ProductAccepted : Prop :=
  ∀ (s : State) (c : Ctx) (i : Instr) (o : MmaOps) (kMax chunk scaled : Nat),
  productShape i = some (o, kMax, chunk, scaled) →
  ∃ f, mmaForm i = some f ∧ f.ops = o ∧ f.kMax = kMax ∧ f.chunk = chunk ∧ f.scaled = scaled ∧
    let k := match o.k with
      | some r => uval 11 (c.t.s r).toNat
      | none => kMax
    (s.ctx? = some c → ProductReady s c f k →
      exec i s = .next (s.mxAccept c c.t (.product i k (c.optBad o.k || c.optBad f.count))))

/-- (R79, R214). What stops a product instruction before it is accepted: another path raises CONVERGENCE with the
number of paths, a K out of range SHAPE, too few scales SCALE_COUNT, and a slot that is not held SLOT with the lowest
such. -/
def Sys2Proof.Machine.ProductTraps : Prop :=
  ∀ (s : State) (c : Ctx) (i : Instr) (f : MmaForm), mmaForm i = some f → s.ctx? = some c →
  let k := match f.ops.k with
    | some r => uval 11 (c.t.s r).toNat
    | none => uval 11 f.kMax
  let cnt := c.optVal f.count 0
  let few := f.scaled ≠ 0 ∧ cnt < ceilDiv k f.scaled
  let wrongK := f.kMax < k ∨ (f.sparse = true ∧ k % 4 ≠ 0)
  s.mxFull c = false → s.accWaits c f.ops.d = false → c.optPending f.ops.k = false → c.optPending f.count = false →
  s.slotsHeld c false f.roles = false →
  (c.t.frontier ≠ [] → exec i s = .next (s.raise c 0x03 (BitVec.ofNat 64 (c.t.frontier.length + 1)) 0 c.mask)) ∧
  (c.t.frontier = [] → wrongK → exec i s = .next (s.raise c 0x0C 0 0 c.mask)) ∧
  (c.t.frontier = [] → ¬wrongK → few → exec i s = .next (s.raise c 0x0D 0 0 c.mask)) ∧
  (c.t.frontier = [] → ¬wrongK → ¬few → ∀ sl, (∃ r ∈ f.roles, r.1 = sl) → c.holds sl = false →
    (∀ r ∈ f.roles, r.1 < sl → c.holds r.1 = true) →
    exec i s = .next (s.raise c 0x0E (BitVec.ofNat 64 sl) 0 c.mask))

/-- (R31, R215). An output of a product: the products of one chunk and the accumulator are summed exactly and rounded
once; each further chunk is added to what the chunks before gave; with K 0 the accumulator stays as it is. -/
def Sys2Proof.Machine.ProductOutput : Prop :=
  ∀ (f : MmaForm) (rd : Ref → Nat) (i j k acc n : Nat), 0 < f.chunk →
  let products := fun q0 q1 => (List.range' q0 (q1 - q0)).flatMap fun q => (f.refs rd i j q).map fun rs => f.comb (rs.map rd)
  let sum := fun x ps => fp32.round .rne false false 0 ((fp32.decode x).add .rne (exactSum .rne ps))
  f.output rd i j 0 acc = acc ∧
  (0 < k → k ≤ f.chunk → f.output rd i j k acc = sum acc (products 0 k)) ∧
  (f.chunk * n < k → k ≤ f.chunk * (n + 1) →
    f.output rd i j k acc = sum (f.output rd i j (f.chunk * n) acc) (products (f.chunk * n) k))

/-- O33 (R31, R79, R206, R214, R215, R218). Products: what accepts one, what stops it, and what each of its outputs is. -/
def Obligations.ProductResults : Prop :=
  Sys2Proof.Machine.ProductAccepted ∧ Sys2Proof.Machine.ProductTraps ∧ Sys2Proof.Machine.ProductOutput

/-- O34 (R79, R203 to R205, R220 to R224). The other matrix words: sclaim takes its slots together or names those another
troupe holds; srel gives back slots it holds; MX counts both until a tick later; sfill, sdrain, mmacvt and sxpose, once
ready, join the queue with the values of their lanes. On a split path sfill and mmacvt raise CONVERGENCE also where a
register is empty. -/
def Obligations.SlotInstructionResults : Prop :=
  ∀ (s : State) (c : Ctx) (d : SReg) (mask : W16 ⊕ SReg) (slot dst src : Slot) (cnt : Fin 16) (off : Option SReg) (a : Src)
    (dr : Reg) (es : XposeBits) (rc : Fin 5) (fmt : TileFmt) (sat tr ftz : Bool) (rm : Rounding) (seed : SReg),
  let x := match mask with
    | .inl m => m.toNat
    | .inr r => uval 16 (c.t.s r).toNat
  let bad := match mask with
    | .inl _ => false
    | .inr r => c.t.sBad r
  let settled := match mask with
    | .inl _ => true
    | .inr r => !c.t.uni.sPending.getLsbD r.val
  let ls := (List.range 16).filter fun i => x.testBit i
  let counted := fun (u : State) (t : Troupe) =>
    (u.sendReq c.key.num 0 false .mxEnd 1).2.advance c (t.count fun k => { k with mx := k.mx + 1 })
  let n := cnt.val + 1
  let o := c.optVal off 0
  let w := (tileFmt fmt).width / 8
  let others := ls.filter fun i => match sfind i c.blk.claims with
    | some k => decide (k ≠ c.t.index)
    | none => false
  let free := s.mxFull c = false ∧ c.t.frontier = []
  (AtIssue s c (.sclaim d mask) c.mask → settled = true → c.t.cnt.mx < 63 → c.t.frontier = [] →
    (∀ i ∈ ls, i < c.blk.opslots.length) →
    (others = [] → exec (.sclaim d mask) s = .next (counted (s.setBlock c.t.block { c.blk with
      claims := ls.foldl (fun m i => sset i c.t.index m) c.blk.claims }) (c.t.putS d 0 bad))) ∧
    (others ≠ [] → exec (.sclaim d mask) s = .next (counted s
      (c.t.putS d (BitVec.ofNat 64 (1 + 65536 * (others.map fun i => 2 ^ i).sum)) bad)))) ∧
  (AtIssue s c (.srel mask) c.mask → settled = true → c.t.cnt.mx < 63 → c.t.frontier = [] → (∀ i ∈ ls, c.holds i = true) →
    exec (.srel mask) s = .next (counted (s.setBlock c.t.block { c.blk with
      claims := ls.foldl (fun m i => sdel i m) c.blk.claims }) c.t)) ∧
  (∀ i : Instr, i = .sfill slot cnt off a ∨ i = .mmacvt slot fmt sat tr ftz rm off seed a → ∀ r l, s.ctx? = some c →
    s.ready c i.srcs i.dests c.mask = .empty r l → exec i s = .next
      (if c.t.frontier = [] then s.raise c 0x04 (BitVec.ofNat 64 r) 0 l
       else s.raise c 0x03 (BitVec.ofNat 64 (c.t.frontier.length + 1)) 0 c.mask)) ∧
  (∀ id (q : Request), s.ts? id = none → s.req? id = some q → q.stage = .sent → q.work = some .mxEnd →
    exec (.heldReleaseSend id) s = .next ((s.delReq id).modTroupe (keyOf q.troupe) fun t =>
      t.count fun k => { k with mx := k.mx - 1 })) ∧
  (AtIssue s c (.sfill slot cnt off a) c.mask → free → c.optPending off = false → c.holds slot.val = true →
    s.slotsHeld c true [(slot.val, o, 256 * n)] = false → o % 8 = 0 → o + 256 * n ≤ 32768 →
    exec (.sfill slot cnt off a) s =
      .next (s.mxAccept c c.t (.fill slot n o a.reg (c.fillVals n o (regNum a.reg))))) ∧
  (AtIssue s c (.sdrain slot cnt off dr) c.mask → free → c.optPending off = false → c.holds slot.val = true →
    s.slotsHeld c false [(slot.val, o, 256 * n)] = false → o % 8 = 0 → o + 256 * n ≤ 32768 →
    exec (.sdrain slot cnt off dr) s = .next (s.mxAccept c (c.t.emptyDst (some dr) n c.t.live) (.drain slot n o dr))) ∧
  (AtIssue s c (.sxpose dst src es rc) c.mask → free → c.holds dst.val = true → c.holds src.val = true →
    s.slotsHeld c true [(dst.val, 0, 64 * 2 ^ rc.val * 64 * xposeBits es / 8)] = false →
    s.slotsHeld c false [(src.val, 0, 64 * 2 ^ rc.val * 64 * xposeBits es / 8), (dst.val, 0, 0)] = false →
    exec (.sxpose dst src es rc) s = .next (s.mxAccept c c.t (.xpose dst src es rc))) ∧
  (let i := Instr.mmacvt slot fmt sat tr ftz rm off seed a
   AtIssue s c i c.mask → free → c.optPending off = false → c.holds slot.val = true →
    (rm = .sr → c.t.uni.sPending.getLsbD seed.val = false) → s.slotsHeld c true [(slot.val, o, 4096 * w)] = false →
    o % 256 = 0 → o + 4096 * w ≤ 32768 →
    ∃ vals, exec i s = .next (s.mxAccept c c.t (.convert i o ((c.t.s seed).setWidth 32) vals)) ∧
      (vals.map (·.1)) = (List.range 64).flatMap (fun l => (List.range 64).map fun j => 64 * l + j) ∧
      ∀ v ∈ vals, v.2.1 = if c.t.exited.getLsbD (v.1 / 64) then 0 else c.t.lane.get (v.1 / 64) (regNum a.reg + v.1 % 64))

/-- O35 (R215, R217, R218). The events of the unit: an array operation that may begin is started with its results, its
energy counted, and ends a period later; at its end its registers take the results, MX falls and it leaves the queue. -/
def Obligations.MatrixUnitEvents : Prop :=
  ∀ (s : State) (core n k : Nat) (o : MxOp) (t : Troupe) (b : Block) (i : Instr) (kBad : Bool) (f : MmaForm)
    (slot : Slot) (cnt off : Nat) (r : Reg) (vals : List (Nat × W32 × Bool)),
  let co := s.core core
  let counted := fun (u : State) => (u.countEnergy b.regime.part b.regime.vf .matrix o.work.periods).later (.matrixWriteback core)
  let ended := fun (array : Bool) (s' : State) =>
    (co.mx.zipIdx).find? (fun e => decide (e.1.work.isArray = array) && e.1.started) = some (o, n) →
    s.troupe? (keyOf o.troupe) = some t →
    s'.troupe? (keyOf o.troupe) = some ((t.putResult o.result).count fun x => { x with mx := x.mx - 1 }) ∧
    (s'.core core).mx = co.mx.eraseIdx n ∧ s'.homes = s.homes
  (s.mxNext core true = some (n, o) → s.mxOwner o = some (t, b) → o.work = .product i k kBad → mmaForm i = some f →
    exec (.matrixPeriodStart core) s =
      .next (counted (s.setMx core n { o with started := true, result := f.result co b t k kBad }))) ∧
  (∀ dst src es rc, s.mxNext core true = some (n, o) → s.mxOwner o = some (t, b) → o.work = .xpose dst src es rc →
    exec (.matrixPeriodStart core) s =
      .next (counted ((s.setCore core (co.xpose b dst.val src.val es rc)).setMx core n { o with started := true }))) ∧
  (s.mxNext core false = some (n, o) → s.mxOwner o = some (t, b) → o.work = .fill slot cnt off r vals →
    exec (.slotPortStart core) s = .next (((s.setCore core (co.opStore (vals.map fun (v : Nat × W32 × Bool) =>
      (opAddr b slot.val v.1, leBytes 4 v.2.1.toNat, v.2.2)))).setMx core n { o with started := true }).later
        (.slotPortEnd core))) ∧
  (s.mxNext core false = some (n, o) → s.mxOwner o = some (t, b) → o.work = .drain slot cnt off r →
    exec (.slotPortStart core) s = .next ((s.setMx core n { o with
      started := true, result := co.drained b (sget 0 (regNum r) t.lane.empty) slot.val cnt off r }).later (.slotPortEnd core))) ∧
  (∃ s', exec (.matrixWriteback core) s = .next s' ∧ ended true s') ∧
  (∃ s', exec (.slotPortEnd core) s = .next s' ∧ ended false s')

/-! The copy engine. -/

/-- (R242, R250 to R252). copy with an aligned record, or a poisoned address, starts a chain and answers its number a tick
later, its register pending until then; cpstat is answered with its chain's state, 0 for one not kept; cpabort sets its chains
to abort, but for one that has ended; cbload takes a book store, or is answered 1 where none is free. copy and cbload on a
split path raise CONVERGENCE, and a misaligned address ALIGN. -/
def Sys2Proof.Machine.CopyWordResults : Prop :=
  ∀ (s : State) (c : Ctx) (d sa : SReg) (r : Option SReg) (n : Fin 4),
  let a := (c.t.s sa).toNat
  let split := BitVec.ofNat 64 (c.t.frontier.length + 1)
  let asked := fun (w : HeldWork) =>
    (s.sendReq c.key.num d (c.t.sBad sa) w 1).2.advance c (c.t.pendS d)
  (AtIssue s c (.copy d sa) c.mask →
    (c.t.frontier ≠ [] → exec (.copy d sa) s = .next (s.raise c 0x03 split 0 c.mask)) ∧
    (c.t.frontier = [] → 63 ≤ c.t.cnt.cp → exec (.copy d sa) s = .next (s.stall c)) ∧
    (c.t.frontier = [] → c.t.cnt.cp < 63 →
      (c.t.sBad sa = true → exec (.copy d sa) s = .next (s.startCopy c d 0 true)) ∧
      (c.t.sBad sa = false → a % 128 = 0 → a < 2 ^ 57 → exec (.copy d sa) s = .next (s.startCopy c d a false)) ∧
      (c.t.sBad sa = false → a % 128 ≠ 0 ∨ 2 ^ 57 ≤ a →
        exec (.copy d sa) s = .next (s.raise c 0x06 0 (BitVec.ofNat 64 a) c.mask)))) ∧
  (AtIssue s c (.cpstat d sa) c.mask → exec (.cpstat d sa) s = .next (asked (.cpstat (c.t.s sa)))) ∧
  (∀ id (q : Request) sel, s.ts? id = none → s.req? id = some q → q.stage = .sent → q.work = some (.cpstat sel) →
    (s.findChain q.troupe sel = none → exec (.heldReleaseSend id) s = .next (s.reply id 0)) ∧
    (∀ k x, s.findChain q.troupe sel = some (k, x) → exec (.heldReleaseSend id) s =
      .next (s.reply id (BitVec.ofNat 64 (match x.state with
        | .queued => 2 ^ 58
        | .active => 2 * 2 ^ 58 + bitsOf x.addr 7 50
        | .ended => 3 * 2 ^ 58 + x.endCode.toNat * 2 ^ 50 + bitsOf x.last 7 50))))) ∧
  (∀ id (q : Request) v, s.ts? id = none → s.req? id = some q → q.stage = .sent → q.work = some (.answer v) →
    exec (.heldReleaseSend id) s = .next (s.reply id v)) ∧
  (AtIssue s c (.cpabort r) c.mask →
    let mine := s.flight.chains.filter fun e => decide (e.2.troupe = c.key.num)
    let ids := match r with
      | none => mine.map fun (e : Nat × Chain) => e.1
      | some q => ((s.findChain c.key.num (c.t.s q)).map fun (e : Nat × Chain) => e.1).toList
    exec (.cpabort r) s = .next ((ids.foldl State.abortChain s).advance c c.t)) ∧
  (∀ id x, s.chain? id = some x → (s.abortChain id).chain? id =
    some (if x.state = .ended then x else { x with aborting := true }) ∧
    ∀ k, k ≠ id → (s.abortChain id).chain? k = s.chain? k) ∧
  (AtIssue s c (.cbload n d sa) c.mask →
    (c.t.frontier ≠ [] → exec (.cbload n d sa) s = .next (s.raise c 0x03 split 0 c.mask)) ∧
    (c.t.frontier = [] → a % 64 ≠ 0 → exec (.cbload n d sa) s = .next (s.raise c 0x06 0 (BitVec.ofNat 64 a) c.mask)) ∧
    (c.t.frontier = [] → a % 64 = 0 →
      (s.bookStore c.key.core c.t.block n.val = none → exec (.cbload n d sa) s = .next (asked (.answer 1))) ∧
      (∀ i, s.bookStore c.key.core c.t.block n.val = some i →
        (63 ≤ c.t.cnt.cp → exec (.cbload n d sa) s = .next (s.stall c)) ∧
        (c.t.cnt.cp < 63 → ∃ u : State,
          exec (.cbload n d sa) s = .next ((u.advance c ((c.t.pendS d).count fun k => { k with cp := k.cp + 1 })).later
            (.cbloadEnd s.flight.nextId)) ∧
          sfind s.flight.nextId u.flight.books = some ⟨c.key.num, c.key.core, c.t.block, i, a, d, c.t.sBad sa, none⟩ ∧
          (∃ k, sfind i (u.core c.key.core).books = some k ∧ k.loading = true) ∧
          u.homes = s.homes ∧ u.troupes = s.troupes ∧ u.timers = s.timers)))) ∧
  (∀ i, s.bookStore c.key.core c.t.block n.val = some i →
    (∃ k, (i, k) ∈ (s.core c.key.core).books ∧ k.block = c.t.block ∧ k.num = n.val) ∨
      i < 4 ∧ sfind i (s.core c.key.core).books = none)

/-- (R242, R252). What a chain begins as: sD is pending until the tick after, which brings its number; the next number
is one higher, CP counts it, and it waits for a channel, or, where the address was poisoned, has ended with POISON. -/
def Sys2Proof.Machine.ChainBegins : Prop :=
  ∀ (s : State) (c : Ctx) (d : SReg) (a : Nat) (bad : Bool), s.ctx? = some c →
  let x : Chain := ⟨c.key.num, c.t.block, c.key.core, c.t.chainNo, c.blk.regime, a, 0, if bad then .ended else .queued,
    if bad then .over else .fetch, [], 0, none, if bad then 0x0B else 0, false, false, 0, [], [], 0, 0, true⟩
  let u := s.startCopy c d a bad
  let id := s.flight.nextId
  (∃ t', u.troupe? c.key = some t' ∧ t'.uni.sPending.getLsbD d.val = true ∧
    t'.chainNo = c.t.chainNo + 1 ∧ t'.cnt.cp = c.t.cnt.cp + 1 ∧ t'.lane = c.t.lane) ∧
  sfind id u.flight.reqs = some ⟨c.key.num, d, bad, some (.answer (c.t.chainNo.setWidth 64)), .sent, 0, [], 0⟩ ∧
  (s.tick + 1, Ev.heldReleaseSend id) ∈ u.timers ∧
  sfind (id + 1) u.flight.chains = some x ∧ u.homes = s.homes ∧
  (bad = true → (s.tick + 1, Ev.chainEnd (id + 1)) ∈ u.timers) ∧
  (bad = false → (s.tick + 1, Ev.chainStart c.key.core) ∈ u.timers)

/-- O36 (R242, R250 to R252). The copy words, and what a chain begins as. -/
def Obligations.CopyResults : Prop :=
  Sys2Proof.Machine.CopyWordResults ∧ Sys2Proof.Machine.ChainBegins

/-- (R242 to R252). The walk of a chain: a free channel takes the next chain; a record is read, at its home, and gives the
chain its end where that fails, where a word is poisoned or where it is software's; in aborting mode it is ABORTED; its
predicate is read, and skips it; its checks give its status; after its bytes are written its status is stored, then its
completion add is sent, one at a time; and a walk that has ended with its adds acknowledged lowers CP. A chain that is no
more leaves the state as it is. -/
def Sys2Proof.Machine.ChainEvents : Prop :=
  ∀ (s s1 : State) (id core op : Nat) (x : Chain) (out : List LaneAcc) (loc : TsLoc) (name : Option TsName) (f : XFault),
  let r := XRec.of x.words
  let busy := (s.flight.chains.filter fun e => decide (e.2.core = core) && decide (e.2.state = .active)).length
  let ends := fun (u : State) (y : Chain) (code : BitVec 8) =>
    ((u.setChain id { y with state := .ended, phase := .over, endCode := code }).post (.chainEnd id)).postOnce (.chainStart x.core)
  let status := fun (u : State) (y : Chain) (st : BitVec 8) =>
    ((u.setChain id { y with phase := .write, status := st }).post (.recordMoveEnd id)).countCause st
  let goes := fun (u : State) (y : Chain) =>
    if x.stopAfter = true ∨ r.next = 0 then ends u y y.endCode
    else (u.setChain id { y with phase := .fetch, addr := r.next, ops := [], status := 0 }).post (.recordRead id)
  let scope := if r.scope ≠ 0 then r.scope else match r.done.toNat / 2 ^ 62 with
    | 1 => 3
    | 2 => 4
    | _ => 6
  (busy < 4 → s.nextChain core = some (id, x) → exec (.chainStart core) s =
    .next (((s.setChain id { x with state := .active, served := s.seq }).bump.post (.recordRead id)).postOnce (.chainStart core))) ∧
  (4 ≤ busy → exec (.chainStart core) s = .next s) ∧
  (s.chain? id = some x →
    (x.phase = .fetch → s.parks x = true → exec (.recordRead id) s = .next (s.later (.recordRead id))) ∧
    (x.phase = .fetch → s.parks x = false → x.addr % 128 = 0 → s.engineRead id x x.addr 16 = .ok (op, s1) →
      exec (.recordRead id) s = .next ((s1.setChain id { x with phase := .record op }).later (.recordRead id))) ∧
    (x.phase = .fetch → s.parks x = false → x.addr % 128 = 0 → s.engineRead id x x.addr 16 = .error f → f.cause ≠ causeAgain →
      exec (.recordRead id) s = .next (ends (s.countCause f.cause) x f.cause)) ∧
    (x.phase = .fetch → s.parks x = false → x.addr % 128 ≠ 0 → exec (.recordRead id) s = .next (ends s x 0x06)) ∧
    (x.phase = .record op → s.takeRead op = none → exec (.recordRead id) s = .next (s.later (.recordRead id))) ∧
    (x.phase = .record op → s.takeRead op = some (out, s1) →
      let ws := out.map fun a => BitVec.ofNat 64 a.val
      let x1 := { x with words := ws, last := x.addr }
      exec (.recordRead id) s = .next (if out.any (·.poison) then ends s1 x 0x0B
        else if (XRec.of ws).engine then (s1.setChain id { x1 with phase := .named }).post (.recordRead id)
        else ends s1 x1 x.endCode)) ∧
    (∀ b, x.phase = .named → s.block? x.block = some b → (∀ line, s.name x.block b r.done ≠ .again line) →
      let x1 := { x with done := match s.name x.block b r.done with
        | .to l n => some (l, n)
        | _ => none }
      (x.aborting = true → r.ordered = false → exec (.recordRead id) s = .next (status s x1 0x82)) ∧
      (x.aborting = false → r.skip = false →
        exec (.recordRead id) s = .next ((s.setChain id { x1 with phase := .begin }).post (.recordRead id))) ∧
      (x.aborting = false → r.skip = true → r.paddr % 8 ≠ 0 → exec (.recordRead id) s = .next (status s x1 0x06)) ∧
      (x.aborting = false → r.skip = true → r.paddr % 8 = 0 → s.engineRead id x r.paddr 1 = .ok (op, s1) →
        exec (.recordRead id) s = .next ((s1.setChain id { x1 with phase := .predicate op }).later (.recordRead id))) ∧
      (x.aborting = false → r.skip = true → r.paddr % 8 = 0 → s.engineRead id x r.paddr 1 = .error f → f.cause ≠ causeAgain →
        exec (.recordRead id) s = .next (status s x1 f.cause))) ∧
    (∀ a, x.phase = .predicate op → s.takeRead op = some ([a], s1) →
      exec (.recordRead id) s = .next (if a.poison then status s1 x 0x0B
        else if a.val &&& r.pmask = 0 then status s1 x 0x81
        else (s1.setChain id { x with phase := .begin }).post (.recordRead id))) ∧
    (∀ b, x.phase = .begin → s.block? x.block = some b →
      let k := r.check b (s.name x.block b r.done).cause?
      let sp := s.xlatePages (coreSlice x.core) x.regime needR r.srcPages
      let dp := sp.2.xlatePages (coreSlice x.core) x.regime needW r.dstPages
      let u := dp.2
      let es := r.entries b x.block id
      (k ≠ 0 → exec (.recordRead id) s = .next (status s x k)) ∧
      (k = 0 → xAgain (sp.1 ++ dp.1) = [] → ∀ p e, (p, e) ∈ sp.1 ++ dp.1 → e = .error f →
        ∃ g : XFault, (∃ q, (q, .error g) ∈ sp.1 ++ dp.1) ∧ exec (.recordRead id) s = .next (status u x g.cause)) ∧
      (k = 0 → (∀ e ∈ sp.1 ++ dp.1, ∃ y, e.2 = .ok y) → (u.core x.core).sb.length + es.length ≤ 32 → r.ssp = true ∨ r.empty = true →
        exec (.recordRead id) s = .next (((u.setCore x.core { u.core x.core with sb := (u.core x.core).sb ++ es }).setChain id
          { x with startNo := u.flight.nextId, phase := .move none }).post (.recordMoveEnd id))) ∧
      (k = 0 → (∀ e ∈ sp.1 ++ dp.1, ∃ y, e.2 = .ok y) → (u.core x.core).sb.length + es.length ≤ 32 → r.ssp = false → r.empty = false →
        ∃ (o : MemOp) (s4 : Nat × State), o.kind = .record ∧ o.width = .b8 ∧ (∀ p ∈ o.parts, ∀ a ∈ p.accs, ∃ (e : Nat × Nat) (j tag : Nat),
            e ∈ r.elems ∧ j < r.ebytes ∧ xAddr (pageResult sp.1 (r.src + e.1 + j)) (r.src + e.1 + j) = some (a.addr, tag)) ∧
          (u.setCore x.core { u.core x.core with sb := (u.core x.core).sb ++ es }).engineSend o = s4 ∧
          exec (.recordRead id) s = .next ((s4.2.setChain id
            { x with startNo := u.flight.nextId, phase := .move (some s4.1) }).post (.recordMoveEnd id)))) ∧
    (x.phase = .write → s.written id x = false → exec (.recordMoveEnd id) s = .next (s.later (.recordMoveEnd id))) ∧
    (x.phase = .status → s.written id x = false → exec (.recordMoveEnd id) s = .next (s.later (.recordMoveEnd id))) ∧
    (x.phase = .status → s.written id x = true → x.status = 0x81 ∨ x.done = none →
      exec (.recordMoveEnd id) s = .next (goes s x)) ∧
    (x.phase = .status → s.written id x = true → x.status ≠ 0x81 → x.done ≠ none →
      exec (.recordMoveEnd id) s = .next ((s.setChain id { x with phase := .add }).post (.completionAdd id))) ∧
    (x.phase = .add → x.done = some (loc, name) → x.adds = [] →
      exec (.completionAdd id) s = .next ((goes ((s.newId.2).setTs s.flight.nextId
        ⟨.chain id, .add, loc, name, BitVec.ofNat 64 r.amount, scope, none, .held, 0, [], false, none, x.regime.flowVf,
          x.regime.part⟩) { x with adds := [s.flight.nextId] }).post (.heldReleaseSend s.flight.nextId))) ∧
    (∀ a o, x.phase = .add → x.done = some (loc, name) → x.adds = [a] → s.ts? a = some o → o.acked = false →
      exec (.completionAdd id) s = .next (s.setChain id x)) ∧
    (x.phase = .over → x.adds = [] → x.counted = true → exec (.chainEnd id) s =
      .next ((s.setChain id { x with counted := false }).modTroupe (keyOf x.troupe) fun t =>
        t.count fun k => { k with cp := k.cp - 1 }))) ∧
  (s.chain? id = none → exec (.recordRead id) s = .next s ∧ exec (.recordMoveEnd id) s = .next s ∧
    exec (.completionAdd id) s = .next s ∧ exec (.chainEnd id) s = .next s)

/-- (R244, R246, R247, R252). A record that moves waits for its elements and for earlier accesses; aborted, it ends where it
stands; a book that is not there ends it with NOBOOK; otherwise its next elements, up to the end of a line of the destination,
are transformed and written, and after the last its source is let go. Written, its status replaces the byte of dword 0, with
the owner cleared; a cause code or NOBOOK turns the walk to aborting mode, with the first such code. -/
def Sys2Proof.Machine.RecordMoves : Prop :=
  ∀ (s : State) (id next : Nat) (x : Chain) (b : Block) (op : Option Nat), s.chain? id = some x → s.block? x.block = some b →
  let r := XRec.of x.words
  let ready := s.earlierAccess x r = false ∧ s.bookLoading x r = false ∧ ∀ o, op = some o → s.opDone o = true
  let moves := (x.phase = .move op ∧ next = 0 ∧ ready) ∨ x.phase = .moving op next
  let ended := fun (u : State) (y : Chain) (st : BitVec 8) =>
    let u1 := match op with
      | some o => u.delOp o
      | none => u
    (((u1.freeEntries x.core id false).setChain id { y with phase := .write, status := st }).post (.recordMoveEnd id)).countCause st
  (x.phase = .move op → ¬ ready → exec (.recordMoveEnd id) s = .next (s.later (.recordMoveEnd id))) ∧
  (moves → x.aborting = true → next ≠ 0 ∨ r.ordered = false → exec (.recordMoveEnd id) s = .next (ended s x 0x82)) ∧
  (moves → x.aborting = false → r.xform = 1 → s.bookOf x r = none → exec (.recordMoveEnd id) s = .next (ended s x 0x83)) ∧
  (moves → x.aborting = false → (r.xform ≠ 1 ∨ s.bookOf x r ≠ none) → r.empty = true →
    exec (.recordMoveEnd id) s = .next (ended s x 0x80)) ∧
  (moves → x.aborting = false → (r.xform ≠ 1 ∨ s.bookOf x r ≠ none) → r.empty = false →
    let es : List (Nat × Nat × Bool) := match op with
      | none => s.scratchElems x r b
      | some o => globalElems r (((s.op? o).map fun (m : MemOp) => m.parts.flatMap (·.out)).getD [])
    let last := r.chunkEnd next
    let ps := ((es.take last).drop next).map fun e => let y := r.convert (s.bookOf x r) e.2.1 e.2.2; Piece.mk e.1 y.1 y.2
    let pg := s.xlatePages (coreSlice x.core) x.regime needW (r.piecePages ps)
    xAgain pg.1 = [] → ps ≠ [] →
    ∃ u y, u = pg.2.writePieces id x r b pg.1 ps ∧ u.chain? id = some y ∧ { y with ops := x.ops } = x ∧
      (es.length ≤ last → exec (.recordMoveEnd id) s = .next (ended u y 0x80)) ∧
      (last < es.length → exec (.recordMoveEnd id) s =
        .next ((u.setChain id { y with phase := .moving op last }).later (.recordMoveEnd id)))) ∧
  (∀ (pages : List (Nat × Except XFault XTo)) (ps : List Piece), r.dkind = 1 → s.writePieces id x r b pages ps =
    s.setCore x.core ((s.core x.core).opStore (ps.map fun p =>
      (b.opslots.getD r.slot 16 * 32768 + (r.dstAt + p.off), p.bytes, p.poison)))) ∧
  (x.phase = .write → s.written id x = true →
    let st := if x.aborting && decide (x.status = 0x80) then 0x82 else x.status
    let bad := decide (st ≠ 0 ∧ st.toNat < 0x80) || decide (st = 0x83)
    let code := if bad && decide (x.endCode = 0) then st else x.endCode
    let x1 := { x with phase := .status, status := st, ops := [], aborting := x.aborting || bad, endCode := code }
    let u := s.freeEntries x.core id true
    let y := u.xlate (coreSlice x.core) x.regime x.addr needW
    (∀ d tag, y.1 = .ok (.mem d tag) → ∃ w : W64, w.extractLsb' 48 8 = st ∧ w.getLsbD 63 = false ∧
      (∀ i, i < 48 ∨ 56 ≤ i ∧ i < 63 → w.getLsbD i = (x.words.getD 0 0).getLsbD i) ∧
      let v := y.2.engineSend (engineOp id x .store .b64 1 [⟨x.addr, tag, ⟨0, d, w.toNat, 0, false⟩⟩])
      exec (.recordMoveEnd id) s = .next ((v.2.setChain id { x1 with ops := [v.1] }).later (.recordMoveEnd id))) ∧
    (∀ f : XFault, y.1 = .error f → f.cause ≠ causeAgain → exec (.recordMoveEnd id) s =
      .next ((y.2.setChain id { x1 with stopAfter := true, endCode := if code = 0 then f.cause else code }).post
        (.recordMoveEnd id))))

/-- (R34, R249, R251). An ordered contribution whose key has come is applied at its home as one write of the line, and the
next key is waited for; the last of its count begins the line anew; a later key is held, 65,536 ticks at most, after which the
held ones are applied in the order of their keys. A codebook load waits for the records that read its book, reads 8,192 bytes,
and when they are back fills its book and answers 0. -/
def Sys2Proof.Machine.ContributionAndBookEvents : Prop :=
  ∀ (s s1 : State) (id line : Nat) (k : Contrib) (x : Chain) (l : BookLoad) (op : Nat) (out : List LaneAcc),
  let here := k.part.line
  let o := s.ordering here
  let unheld := s.contrib? id = some k ∧ o.held.contains id = false ∧ s.refusesContrib k = false ∧ s.homeTested here = false ∧
    s.isFrozen here = false ∧ sfind here s.homes.pins = none
  let applied := fun (u : State) =>
    let e : MemOp := ⟨.chain k.chain, .reduce k.fmt, k.width, none, x.core, x.block, x.regime, 6, 1, 3, none, [k.part], false⟩
    let (n, v) := (u.setFlight { u.flight with contribs := sdel id u.flight.contribs }).newId
    ((v.setOp n e).setChain k.chain { x with ops := x.ops ++ [n] }).admitWrite n here e
  let late := fun h => match s.contrib? h with
    | some x => decide (x.since + 65536 ≤ s.tick)
    | none => false
  let held := (s.ordering line).held
  let book := sget ⟨l.block, 0, [], [], true, false⟩ l.store (s.core l.core).books
  let endsWith := fun (u : State) (bk : Book) (code : BitVec 8) =>
    ((u.setBook l.core l.store bk).setFlight { u.flight with books := sdel id u.flight.books }).modTroupe (keyOf l.troupe) fun t =>
      (t.putS l.d (code.setWidth 64) l.poison).count fun n => { n with cp := n.cp - 1 }
  (unheld → s.chain? k.chain = some x → k.part.accs ≠ [] → k.key = o.next → o.held = [] → exec (.reduceContribution id) s =
    .next (let u := (applied s).setOrdering here ⟨o.next + 1, o.applied + 1, []⟩
      if o.applied + 1 = k.count then u.setOrdering here ⟨0, 0, []⟩ else u)) ∧
  (unheld → o.next < k.key → o.held ≠ [] → exec (.reduceContribution id) s = .next (((s.setFlight { s.flight with
    contribs := sset id { k with since := s.tick } s.flight.contribs }).setOrdering here
      { o with held := o.held ++ [id] }).at (s.tick + 65536) (.heldContributionTimeout here))) ∧
  (s.contrib? id = some k → o.held.contains id = false → s.refusesContrib k = true → exec (.reduceContribution id) s =
    .next (s.countRefusal.setFlight { s.flight with contribs := sdel id s.flight.contribs })) ∧
  (held.any late = false → exec (.heldContributionTimeout line) s = .next s) ∧
  (held.any late = true → s.isFrozen line = false → s.homeTested line = false → sfind line s.homes.pins = none →
    exec (.heldContributionTimeout line) s = .next ((s.applyAll line held.length).setOrdering line ⟨0, 0, []⟩)) ∧
  (∀ n h c, h ∈ held → s.contrib? h = some c → (∀ g ∈ held, ∀ e, s.contrib? g = some e → g = h ∨ c.key < e.key) →
    s.applyAll line (n + 1) =
      ((s.applyContrib h c).setOrdering line { s.ordering line with held := held.filter (· ≠ h) }).applyAll line n) ∧
  (sfind id s.flight.books = some l → l.op = none → s.bookInUse id l book.num = true →
    exec (.cbloadEnd id) s = .next (s.later (.cbloadEnd id))) ∧
  (∀ b, sfind id s.flight.books = some l → l.op = none → s.bookInUse id l book.num = false → s.block? l.block = some b →
    let ps := s.xlatePages (coreSlice l.core) b.regime needR (toKeys ((List.range 3).map fun i =>
      (Nat.min (l.addr + 4096 * i) (l.addr + 8191)) / 4096))
    (xAgain ps.1 = [] → (∃ e ∈ ps.1, ∃ f, e.2 = .error f) →
      ∃ f : XFault, (∃ p, (p, .error f) ∈ ps.1) ∧
        exec (.cbloadEnd id) s = .next (endsWith ps.2 { book with loading := false, ok := false } f.cause)) ∧
    ((∀ e ∈ ps.1, ∃ y, e.2 = .ok y) → ∃ (e : MemOp) (v : Nat × State), e.kind = .record ∧ e.width = .b64 ∧
      (∀ i < 1024, ∀ y, xAddr (pageResult ps.1 (l.addr + 8 * i)) (l.addr + 8 * i) = some y →
        ∃ p ∈ e.parts, ⟨i, y.1, 0, 0, false⟩ ∈ p.accs) ∧
      v = ps.2.engineSend e ∧ exec (.cbloadEnd id) s = .next ((v.2.setFlight { v.2.flight with
        books := sset id { l with op := some v.1 } v.2.flight.books }).later (.cbloadEnd id)))) ∧
  (sfind id s.flight.books = some l → l.op = some op → s.takeRead op = none →
    exec (.cbloadEnd id) s = .next (s.later (.cbloadEnd id))) ∧
  (sfind id s.flight.books = some l → l.op = some op → s.takeRead op = some (out, s1) → (out.map (·.lane)).Nodup →
    ∃ bytes bad,
    (∀ a ∈ out, ∀ j < 8, sget 0 (8 * a.lane + j) bytes = BitVec.ofNat 8 (a.val / 256 ^ j)) ∧
    (∀ n, kmem n bad = out.any fun a => a.poison && decide (a.lane / 4 = n)) ∧
    exec (.cbloadEnd id) s =
      .next (endsWith s1 { book with bytes := bytes, poison := bad, loading := false, ok := true } 0))

/-- O37 (R34, R242 to R252). The copy engine's events: chains, the movement of a record, ordered contributions, and codebook
loads. -/
def Obligations.CopyEngineEvents : Prop :=
  Sys2Proof.Machine.ChainEvents ∧ Sys2Proof.Machine.RecordMoves ∧ Sys2Proof.Machine.ContributionAndBookEvents

/-! Turnstiles, waits and fences. -/

/-- (R231 to R234). The five turnstile words: with an operand and a designator that are good, the operation is in flight, AT
counts it and its register is pending; add, fetch and max are releases, sent at once where no earlier access of the troupe is
on its way and nothing is to be written back, and held otherwise; an amount of 2^32 or more raises ARITH, a poisoned operand
POISON, a designator that names nothing its cause; treset of a turnstile of another module raises BOUNDS, and treset outside H
PRIVILEGE; with AT at 63 the word stalls. -/
def Sys2Proof.Machine.TurnstileWordResults : Prop :=
  ∀ (s : State) (c : Ctx) (d sb : SReg) (t : TsRef) (amt : TsAmt) (loc : TsLoc) (name : Option TsName) (k : BitVec 8) (a : Nat),
  let id := s.flight.nextId
  let after := (s.flight.mem.filter fun e =>
    decide (e.2.owner = .troupe c.key.num) && decide (e.2.kind ≠ .prefetch) && !e.2.complete).map (·.1)
  let released := fun (kind : TsKind) => decide (kind = .add) || decide (kind = .fetch) || decide (kind = .max)
  let op := fun (kind : TsKind) (x : W64) (dst : Option SReg) => (⟨.troupe c.key.num, kind, loc, name, x, c.tsScope t, dst,
    if released kind then .held else .sent, 0, after, false, none, c.blk.regime.flowVf, c.blk.regime.part⟩ : TsOp)
  let started := fun (kind : TsKind) (x : W64) (dst : Option SReg) =>
    let o := op kind x dst
    let t1 := c.t.count fun n => { n with atc := n.atc + 1 }
    let u := (s.newId.2.setTs id o).advance c (match dst with
      | some r => t1.pendS r
      | none => t1)
    if released kind then u.sendRelease c id o else u.sendTs id o
  let word := fun (i : Instr) (kind : TsKind) (x : W64 × Bool) (small : Bool) (dst : Option SReg) =>
    AtIssue s c i c.mask → (63 ≤ c.t.cnt.atc → exec i s = .next (s.stall c)) ∧ (c.t.cnt.atc < 63 →
    (c.t.sBad t.sa = false → x.2 = false → s.nameRef c t = .to loc name → (small = true → x.1.toNat < 2 ^ 32) →
      (kind = .set → ∀ p, loc ≠ .peer p) → exec i s = .next (started kind x.1 dst)) ∧
    (c.t.sBad t.sa = true ∨ x.2 = true → exec i s = .next (s.raise c 0x0B 0 0 c.mask)) ∧
    (c.t.sBad t.sa = false → x.2 = false → s.nameRef c t = .bad k a →
      exec i s = .next (s.raise c k 0 (BitVec.ofNat 64 a) c.mask)) ∧
    (c.t.sBad t.sa = false → x.2 = false → s.nameRef c t = .to loc name → small = true → 2 ^ 32 ≤ x.1.toNat →
      exec i s = .next (s.raise c 0x12 0 0 c.mask)) ∧
    (∀ p, c.t.sBad t.sa = false → x.2 = false → s.nameRef c t = .to (.peer p) name → kind = .set →
      exec i s = .next (s.raise c 0x05 0 (BitVec.ofNat 64 (vaOf name)) c.mask)))
  word (.tadd t amt) .add (c.amount amt) true none ∧
  word (.tfetch d t amt) .fetch (c.amount amt) true (some d) ∧
  word (.tmax t sb) .max (c.t.s sb, c.t.sBad sb) false none ∧
  word (.tread d t) .read (0, false) false (some d) ∧
  (c.blk.regime.priv = .h → word (.treset d t sb) .set (c.t.s sb, c.t.sBad sb) false (some d)) ∧
  (c.blk.regime.priv ≠ .h → AtIssue s c (.treset d t sb) c.mask →
    exec (.treset d t sb) s = .next (s.raise c 0x11 0 0 c.mask)) ∧
  (∀ (u : State) (o : TsOp), (o.after ≠ [] → u.sendRelease c id o = u.post (.heldReleaseSend id)) ∧
    (o.after = [] → o.scope < 4 → (∀ p, o.loc ≠ .peer p) → u.sendRelease c id o =
      (u.setTs id { o with stage := .sent, nb := c.t.gwct }).sendTs id { o with stage := .sent, nb := c.t.gwct }))

/-- (R229, R233, R234, R237). What an operation does to its turnstile: add and fetch raise it by their amount, max
takes a later value, a read leaves it, and a reset sets it; fetch and read answer
the value before. Here no waiter is listed and no snapshot copies. -/
def Sys2Proof.Machine.TurnstileValueResults : Prop :=
  ∀ (s : State) (id d : Nat) (o : TsOp), o.loc = .home d → d % 8 = 0 → s.listedAt o.loc = [] →
  (∀ e ∈ s.pkg.parts, e.2.snap.state ≠ .copying) →
  let v := s.tsVal o.loc
  let s' := s.applyTs id o
  v = BitVec.ofNat 64 (memVal s.homes.mem d 8) ∧
  (o.kind = .add ∨ o.kind = .fetch → memVal s'.homes.mem d 8 = (v + o.amt).toNat) ∧
  (o.kind = .max → memVal s'.homes.mem d 8 = (if 0 < (o.amt - v).toInt then o.amt else v).toNat) ∧
  (o.kind = .read → s'.homes.mem = s.homes.mem) ∧
  (o.kind = .set → memVal s'.homes.mem d 8 = o.amt.toNat) ∧
  (∀ a, (a < d ∨ d + 8 ≤ a) → memByte s'.homes.mem a = memByte s.homes.mem a) ∧
  s'.ts? id = some { o with
    stage := .applied
    reply := match o.kind with
      | .fetch | .read => some (v, s.tsBad o.loc (tagOf o.name))
      | .set => some (0, false)
      | .add | .max => none }

/-- O38 (R229, R231 to R234, R237). The turnstile words start their operations or raise a cause, and each operation changes its
turnstile by its rule. -/
def Obligations.TurnstileResults : Prop :=
  Sys2Proof.Machine.TurnstileWordResults ∧ Sys2Proof.Machine.TurnstileValueResults

/-- O39 (R230, R231, R234, R273, R328, R359). The events of an operation: it is applied where its line is there and its NB has
come, and is deferred otherwise, but for a unit that holds all it can, where it comes again at its NB; a frozen home sends it
back, and one that is refused is dropped; an acknowledgement lowers AT once and delivers an applied operation's value. -/
def Obligations.TurnstileEvents : Prop :=
  ∀ (s : State) (id : Nat) (o : TsOp), s.ts? id = some o →
  let free := s.countersAway o.loc = false ∧ s.frozenTs o.loc = false ∧ s.refusesTsOp o = false
  let most := if coreUnitOf o.loc then 64 else 256
  let u := s.tsTouch o.loc
  let lowered := fun (k : Nat) => s.modTroupe (keyOf k) fun t => t.count fun c => { c with atc := c.atc - 1 }
  (o.stage = .sent → free → s.tsTested o.loc = false → s.tsMisses o.loc = none →
    (o.nb ≤ s.tick → exec (.turnstileOpArrival id) s = .next (u.applyTs id o)) ∧
    (s.tick < o.nb → s.deferredAt (s.tsUnit o.loc) < most → exec (.turnstileOpArrival id) s =
      .next (((u.setTs id { o with stage := .deferred }).answerTs id { o with stage := .deferred }).at o.nb (.deferredOpApply id))) ∧
    (s.tick < o.nb → most ≤ s.deferredAt (s.tsUnit o.loc) →
      exec (.turnstileOpArrival id) s = .next (u.at o.nb (.turnstileOpArrival id)))) ∧
  (o.stage = .sent → s.refusesTsOp o = true → exec (.turnstileOpArrival id) s = .next (s.dropTs id o)) ∧
  (o.stage = .sent → s.refusesTsOp o = false → s.frozenTs o.loc = true → exec (.turnstileOpArrival id) s =
    .next ((s.setTs id { o with stage := .refused }).backTs id { o with stage := .refused } (.heldReleaseSend id))) ∧
  (o.stage = .deferred → free → o.nb ≤ s.tick → exec (.deferredOpApply id) s = .next (s.applyTs id o)) ∧
  (o.stage = .deferred → s.refusesTsOp o = true → exec (.deferredOpApply id) s = .next (s.dropTs id o)) ∧
  (o.stage = .deferred → s.refusesTsOp o = false → s.tick < o.nb →
    exec (.deferredOpApply id) s = .next (s.at o.nb (.deferredOpApply id))) ∧
  (∀ k, o.owner = .troupe k → o.acked = false → o.stage = .deferred → exec (.turnstileAcknowledgement id) s =
    .next ((lowered k).setTs id { o with acked := true })) ∧
  (∀ k d r, o.owner = .troupe k → o.acked = false → o.stage = .applied → o.dst = some d → o.reply = some r →
    exec (.turnstileAcknowledgement id) s =
      .next (((lowered k).modTroupe (keyOf k) fun t => t.putS d r.1 r.2).delTs id)) ∧
  (∀ k, o.owner = .troupe k → o.acked = false → o.stage = .applied → o.dst = none →
    exec (.turnstileAcknowledgement id) s = .next ((lowered k).delTs id)) ∧
  (∀ k d r, o.owner = .troupe k → o.acked = true → o.stage = .applied → o.dst = some d → o.reply = some r →
    exec (.turnstileAcknowledgement id) s = .next ((s.modTroupe (keyOf k) fun t => t.putS d r.1 r.2).delTs id)) ∧
  (∀ k, o.owner = .troupe k → o.acked = true → o.stage = .applied → o.dst = none →
    exec (.turnstileAcknowledgement id) s = .next (s.delTs id))

/-- (R235, R239 to R241). wait suspends its troupe with the conditions it names, each to be read at its home, waitout until
its counters are at their limits, fence until its accesses are done and its release is performed; waitout with no counter
acts as yield. A designator that names nothing raises its cause, and one whose translation the home refuses with RETRY
stalls. -/
def Sys2Proof.Machine.WaitWordResults : Prop :=
  ∀ (s : State) (c : Ctx) (d sa : SReg) (n : Fin 4) (all : Bool) (limit : WaitLimit) (l : Limits) (scope : Fin 8)
    (k : BitVec 8) (a : Nat) (w : WaitState),
  let cs := s.nameConds c sa.val (n.val + 1)
  let first := cs.findSome? fun e => match e with | .error x => some x | .ok _ => none
  let tm := c.timeout limit
  let bad := (List.range (n.val + 1)).any fun i => c.t.sBad (Fin.ofNat 64 (sa.val + 2 * i + 1))
  (AtIssue s c (.wait d sa n all limit) c.mask → first = none → exec (.wait d sa n all limit) s =
    .next (s.startWait c ⟨cs.filterMap Except.toOption, all, true, tm.1.map (s.tick + ·), d, tm.2 || bad⟩)) ∧
  (s.ctx? = some c → (∃ t', (s.startWait c w).troupe? c.key = some t' ∧ t'.susp = .wait w ∧ t'.issue = none ∧
      t'.uni = c.t.uni ∧ t'.lane = c.t.lane ∧ t'.cnt = c.t.cnt) ∧ (s.startWait c w).current = none ∧
    (s.startWait c w).homes.mem = s.homes.mem) ∧
  (AtIssue s c (.wait d sa n all limit) c.mask → first = some (k, a) → k ≠ causeAgain →
    exec (.wait d sa n all limit) s = .next (s.raise c k 0 (BitVec.ofNat 64 a) c.mask)) ∧
  (AtIssue s c (.wait d sa n all limit) c.mask → first = some (causeAgain, a) →
    exec (.wait d sa n all limit) s = .next ((s.noteRefusal a).stall c)) ∧
  (s.ctx? = some c → l.mask = 0 →
    Moves s c (.waitout l) (fun t => t = { c.t with yielded := true, lastGrant := s.seq }) fun _ => some c.fallThrough) ∧
  (s.ctx? = some c → l.mask ≠ 0 →
    Moves s c (.waitout l) (fun t => t = { c.t with susp := .waitout l }) fun _ => some c.fallThrough) ∧
  (s.ctx? = some c →
    Moves s c (.fence scope) (fun t => t = { c.t with susp := .fence scope.val none }) fun _ => some c.fallThrough)

/-- (R236, R239). One pass of a wait: a poisoned value ends it first, with the first such condition; then a value out
of range; then a satisfied condition, the first of them for any, all of them for all; then the deadline. -/
def Sys2Proof.Machine.WaitPassResults : Prop :=
  ∀ (w : WaitState) (tick i : Nat) (x : Cond), w.conds[i]? = some x →
  let bad := fun (y : Cond) => y.sat = false ∧ ∃ v, y.val = some (v, true)
  let out := fun (y : Cond) => y.sat = false ∧ ∃ v p, y.val = some (v, p) ∧ outOfRange v y.threshold = true
  let sat := fun (y : Cond) => y.sat = true ∨ ∃ v p, y.val = some (v, p) ∧ satisfied v y.threshold = true
  (bad x → (∀ j y, j < i → w.conds[j]? = some y → ¬ bad y) → w.pass tick = .ends 5 i true) ∧
  ((∀ y ∈ w.conds, ¬ bad y) → out x → (∀ j y, j < i → w.conds[j]? = some y → ¬ out y) → w.pass tick = .ends 3 i false) ∧
  ((∀ y ∈ w.conds, ¬ bad y ∧ ¬ out y) →
    (w.all = false → sat x → (∀ j y, j < i → w.conds[j]? = some y → ¬ sat y) → w.pass tick = .ends 0 i false) ∧
    (w.all = true → (∀ y ∈ w.conds, sat y) → w.pass tick = .ends 0 0 false) ∧
    ((∀ y ∈ w.conds, ¬ sat y) → (∃ d, w.deadline = some d ∧ d ≤ tick) → w.pass tick = .ends 2 0xFF false) ∧
    ((∀ y ∈ w.conds, ¬ sat y) → (∀ d, w.deadline = some d → tick < d) → ∃ w', w.pass tick = .goesOn w' ∧ w'.first = false))

/-- O40 (R235, R236, R239 to R241). wait, waitout and fence suspend their troupe, and one pass over a wait's conditions decides
how it ends. -/
def Obligations.WaitResults : Prop :=
  Sys2Proof.Machine.WaitWordResults ∧ Sys2Proof.Machine.WaitPassResults

/-- O41 (R192, R236 to R241). The events of waiting troupes: a wake or a deadline takes the wait through its tests, and one
that ends answers its status and condition; a poll reads its turnstile; waitout ends when its limits are met, and fence when
its accesses, its write-backs and its tick are. -/
def Obligations.WaitEvents : Prop :=
  ∀ (s : State) (id core slot kn i scope : Nat) (w : Waiter) (t : Troupe) (wt : WaitState) (l : Limits),
  let k : TKey := ⟨core, slot⟩
  let w1 := s.gather (ofTroupe k.num) wt
  (s.waiter? id = some w → w.who = .troupe kn i → s.troupe? (keyOf kn) = some t → s.runningBlock t = true →
    exec (.wakeReceive id) s = .next (s.waitStep (keyOf kn))) ∧
  (s.waiter? id = some w → w.who = .troupe kn i → s.troupe? (keyOf kn) = some t → s.runningBlock t = false →
    exec (.wakeReceive id) s = .next (s.later (.wakeReceive id))) ∧
  (s.troupe? k = some t → t.susp = .wait wt → (∃ d, wt.deadline = some d ∧ d ≤ s.tick) → s.runningBlock t = true →
    exec (.waitTimeout core slot) s = .next (s.waitStep k)) ∧
  (s.troupe? k = some t → t.susp = .wait wt → (∀ d, wt.deadline = some d → s.tick < d) →
    exec (.waitTimeout core slot) s = .next s) ∧
  (s.troupe? k = some t → t.susp = .wait wt →
    (w1.first = true → (∃ x ∈ w1.conds, x.sat = false ∧ x.val = none) → s.waitStep k = s) ∧
    (w1.first = false ∨ (∀ x ∈ w1.conds, x.sat = true ∨ x.val ≠ none) →
      (∀ st n p, w1.pass s.tick = .ends st n p → s.waitStep k = s.endWait k t w1 st n p) ∧
      (∀ w2, w1.pass s.tick = .goesOn w2 → ∃ t', (s.waitStep k).troupe? k = some t' ∧ t'.susp = .wait w2 ∧ t'.uni = t.uni))) ∧
  (∀ st n p, core < 2 ^ 15 → slot < 32 → s.troupe? k = some t →
    ∃ t', (s.endWait k t wt st n p).troupe? k = some t' ∧ t'.susp = .none ∧
      t'.s wt.d = BitVec.ofNat 64 (st + 256 * n) ∧ t'.sBad wt.d = (wt.poison || p) ∧
      t'.uni.sPending.getLsbD wt.d.val = false ∧ t'.lane = t.lane ∧
      ∀ e ∈ (s.endWait k t wt st n p).flight.waiters, ofTroupe k.num e.2.who = none) ∧
  (s.waiter? id = some w → w.listed = none → (∀ p, w.loc ≠ .peer p) → s.refusesTs w.part w.loc = false →
    s.frozenTs w.loc = false → s.countersAway w.loc = false → s.tsTested w.loc = false → s.tsMisses w.loc = none →
    exec (.turnstilePoll id) s = .next ((s.tsTouch w.loc).readCond id w)) ∧
  (let v := s.tsVal w.loc
   let bad := s.tsBad w.loc (tagOf w.name)
   (w.polled = true → s.readCond id w = (s.report id w v bad).at (s.tick + 256) (.turnstilePoll id)) ∧
   (w.polled = false → bad = true ∨ outOfRange v w.threshold = true ∨ satisfied v w.threshold = true →
     s.readCond id w = s.report id w v bad) ∧
   (w.polled = false → bad = false → outOfRange v w.threshold = false → satisfied v w.threshold = false →
     (s.listRoom w.loc = true → s.readCond id w = s.bump.report id { w with listed := some s.seq } v bad) ∧
     (s.listRoom w.loc = false → s.readCond id w =
       (s.report id { w with polled := true } v bad).at (s.tick + 256) (.turnstilePoll id)))) ∧
  (s.waiter? id = some w → w.listed = none → (∀ p, w.loc ≠ .peer p) → s.refusesTs w.part w.loc = true →
    exec (.turnstilePoll id) s = .next (s.countRefusal.report id w 0 true)) ∧
  (∀ p, s.waiter? id = some w → w.listed = none → w.loc = .peer p → exec (.turnstilePoll id) s =
    .next ((s.sendPeer (s.waiterLeaf w / 8) p w.part w.vf (.poll id)).at (s.tick + 256) (.turnstilePoll id))) ∧
  (s.troupe? k = some t → t.susp = .waitout l → limitsMet l t.cnt = true →
    exec (.waitoutComplete core slot) s = .next ((s.setTroupe k { t with susp := .none }).reGrant k)) ∧
  (s.troupe? k = some t → t.susp = .waitout l → limitsMet l t.cnt = false →
    exec (.waitoutComplete core slot) s = .next (s.later (.waitoutComplete core slot))) ∧
  (s.troupe? k = some t → t.susp = .fence scope none → t.cnt.ld ≠ 0 ∨ t.cnt.st ≠ 0 →
    exec (.fenceComplete core slot) s = .next (s.later (.fenceComplete core slot))) ∧
  (s.troupe? k = some t → t.susp = .fence scope none → t.cnt.ld = 0 → t.cnt.st = 0 →
    let u := (s.release (.troupe k.num) core t.block scope).2
    exec (.fenceComplete core slot) s = .next ((u.modTroupe k fun t =>
      { t with susp := .fence scope (some u.flight.nextId) }).post (.fenceComplete core slot))) ∧
  (s.troupe? k = some t → t.susp = .fence scope none → t.cnt.ld = 0 → t.cnt.st = 0 → scope < 4 →
    exec (.fenceComplete core slot) s =
      .next ((s.setTroupe k { t with susp := .fence scope (some s.flight.nextId) }).post (.fenceComplete core slot))) ∧
  (∀ n, s.troupe? k = some t → t.susp = .fence scope (some n) →
    let backs := if 5 ≤ scope then (s.clusterBacks core).filter fun i => decide (i < n) else []
    let g := Nat.max t.gwct (s.latestP backs)
    ((∃ b ∈ backs, s.opDone b = false) → exec (.fenceComplete core slot) s = .next (s.later (.fenceComplete core slot))) ∧
    ((∀ b ∈ backs, s.opDone b = true) → s.tick < g → exec (.fenceComplete core slot) s =
      .next ((s.setTroupe k { t with gwct := g }).at g (.fenceComplete core slot))) ∧
    ((∀ b ∈ backs, s.opDone b = true) → g ≤ s.tick →
      exec (.fenceComplete core slot) s = .next ((s.setTroupe k { t with susp := .none }).reGrant k)))

/-! Launches, messages, calls and system registers. -/

/-- O42 (R352, R353 to R355, R393, R394). The system words. launch of an aligned address, syswr of a register that the
Access column admits, and ecall are requests that leave after the troupe's release; sysrd is a request
that arrives at its target and there answers the register as it reads, and 0, poisoned and counted, where the slice has
left the partition; qstat is a request to the ringmaster, which answers its word, 0 where the queue is hidden; tlbinv and
rdcinv drop what they name and answer later. A register that the unit lacks, or a slice that is not of the partition,
raises BOUNDS, a poisoned operand POISON, and a register that is not admitted PRIVILEGE. -/
def Obligations.SystemWordResults : Prop :=
  ∀ (s : State) (c : Ctx) (d sa sb sc : SReg) (reg : BitVec 12) (what : QstatWhat) (call : W16) (n : Fin 7)
    (tk : TlbKind) (vf : Fin 32) (rk : RdcKind),
  let a := (c.t.s sa).toNat
  let rg := c.blk.regime
  let q := a % 4096
  let sl := a % 16
  let u := a / 16 % 16
  let args := (List.range n.val).map fun i => (Fin.ofNat 64 (sa.val + i) : SReg)
  let req := fun (s : State) (bad : Bool) (w : HeldWork) => (s.newReq c.key.num d bad (some w) []).2
  let drop := fun (w : HeldWork) => (s.holdRequest c d false w).2.advance c (c.t.pendS d)
  (AtIssue s c (.launch d sa) c.mask →
    (c.t.sBad sa = true → exec (.launch d sa) s = .next (s.advance c (c.t.putS d 2 true))) ∧
    (c.t.sBad sa = false → a % 128 = 0 → a < 2 ^ 57 → exec (.launch d sa) s = .next (drop (.launch a)))) ∧
  (AtIssue s c (.qstat d sa what) c.mask → exec (.qstat d sa what) s =
    .next ((s.sendReq c.key.num d (c.t.sBad sa) (.qstat q what) 1).2.advance c (c.t.pendS d))) ∧
  (∀ (id : Nat) (r : Request) (g : Regime), s.ts? id = none → s.req? id = some r → r.stage = .sent →
    r.work = some (.qstat q what) → s.ownerRegime (.troupe r.troupe) = some g →
    let x := (s.queue? g.part q).getD ⟨[], .off, 0, 0, false⟩
    let hidden := g.priv ≠ .h ∧ (x.vf ≠ g.vf ∨ x.priv = .h)
    (hidden → exec (.heldReleaseSend id) s = .next (s.reply id 0)) ∧
    (¬ hidden → exec (.heldReleaseSend id) s = .next (s.reply id (BitVec.ofNat 64 (match what with
      | .ci => x.ci.toNat
      | .state => s.queueWord g.part q x
      | .units => s.unitsWord g.part x.vf))))) ∧
  (AtIssue s c (.sysrd reg d sa) c.mask → c.t.sBad sa = false → rg.priv ≠ .u → (s.smask rg.part).getLsbD sl = true →
    (∀ r, unitReg u reg.toNat = some r → admits r rg.priv rg.vf false = true → exec (.sysrd reg d sa) s =
      .next ((s.readRequest c d sl u reg.toNat).advance c (c.t.pendS d))) ∧
    (unitReg u reg.toNat = none → exec (.sysrd reg d sa) s = .next (s.raise c 0x05 0 0 c.mask)) ∧
    (∀ r, unitReg u reg.toNat = some r → admits r rg.priv rg.vf false = false →
      exec (.sysrd reg d sa) s = .next (s.raise c 0x11 0 0 c.mask))) ∧
  (AtIssue s c (.sysrd reg d sa) c.mask → rg.priv ≠ .u →
    (c.t.sBad sa = true → exec (.sysrd reg d sa) s = .next (s.raise c 0x0B 0 0 c.mask)) ∧
    (c.t.sBad sa = false → (s.smask rg.part).getLsbD sl = false →
      exec (.sysrd reg d sa) s = .next (s.raise c 0x05 0 0 c.mask))) ∧
  (AtIssue s c (.syswr reg d sa sb) c.mask → rg.priv ≠ .u →
    ((c.t.sBad sa || c.t.sBad sb) = true → exec (.syswr reg d sa sb) s = .next (s.raise c 0x0B 0 0 c.mask)) ∧
    (c.t.sBad sa = false → c.t.sBad sb = false → (s.smask rg.part).getLsbD sl = false ∨ unitReg u reg.toNat = none →
      exec (.syswr reg d sa sb) s = .next (s.raise c 0x05 0 0 c.mask))) ∧
  (∀ (id part : Nat) (r : Request) (p : Priv), s.ts? id = none → s.req? id = some r → r.stage = .sent →
    r.work = some (.sysRead part sl u reg.toNat p) → s.writesBefore id r.troupe sl u = false →
    (s.leftSlice id sl = false →
      exec (.heldReleaseSend id) s = .next (s.reply id (BitVec.ofNat 64 (s.readReg part sl u reg.toNat p)))) ∧
    (s.leftSlice id sl = true →
      exec (.heldReleaseSend id) s = .next ((s.countRefusal.setReq id { r with poison := true }).reply id 0))) ∧
  (AtIssue s c (.syswr reg d sa sb) c.mask → c.t.sBad sa = false → c.t.sBad sb = false → rg.priv ≠ .u →
    (s.smask rg.part).getLsbD sl = true →
    (∀ r, unitReg u reg.toNat = some r → admits r rg.priv rg.vf true = true → exec (.syswr reg d sa sb) s =
      .next (drop (.sysWrite sl u reg.toNat (c.t.s sb)))) ∧
    (∀ r, unitReg u reg.toNat = some r → admits r rg.priv rg.vf true = false →
      exec (.syswr reg d sa sb) s = .next (s.raise c 0x11 0 0 c.mask))) ∧
  (rg.priv = .u → (AtIssue s c (.sysrd reg d sa) c.mask → exec (.sysrd reg d sa) s = .next (s.raise c 0x11 0 0 c.mask)) ∧
    (AtIssue s c (.syswr reg d sa sb) c.mask → exec (.syswr reg d sa sb) s = .next (s.raise c 0x11 0 0 c.mask))) ∧
  (AtIssue s c (.ecall call n d sa) c.mask → (args.any c.t.sBad) = false → ∃ id s1, (id, s1) = s.holdRequest c d false
    (.ecall c.slice (if rg.priv = .u then Ring.vfService rg.vf else Ring.kService)
      ([BitVec.ofNat 64 (call.toNat + rg.vf * 2 ^ 16 + privCode rg.priv * 2 ^ 21 + c.key.core * 2 ^ 23 + c.key.slot * 2 ^ 30),
        0] ++ args.map c.t.s ++ List.replicate (6 - n.val) 0)) ∧
    exec (.ecall call n d sa) s =
      .next (s1.endClause c { c.t with susp := .ecall id } [(c.fallThrough, c.mask)])) ∧
  (let forS := tk = .s1all ∨ tk = .s1asid ∨ tk = .s1range
   let v := if rg.priv = .h then vf.val else rg.vf
   let read := match tk with
     | .s1all | .s2all | .all => []
     | .s1asid => [sa]
     | .s1range => [sa, sb, sc]
     | .s2range | .kspace => [sa, sb]
   let may := rg.priv = .h ∨ (rg.priv = .s ∧ forS ∧ vf = 0)
   (AtIssue s c (.tlbinv tk vf d sa sb sc) c.mask → may → read.any c.t.sBad = false →
     let kept := s.pkg.tlb.filter fun e => !tlbDrops tk rg.part v a (c.t.s sb).toNat (c.t.s sc).toNat e
     let s1 := req (s.setPkg { s.pkg with tlb := kept }) false (.tlbinv tk rg.part v)
     exec (.tlbinv tk vf d sa sb sc) s =
       .next ((s1.advance c (c.t.pendS d)).at (s.tick + 8) (.tlbinvComplete s.flight.nextId))) ∧
   (AtIssue s c (.tlbinv tk vf d sa sb sc) c.mask → may → read.any c.t.sBad = true →
     exec (.tlbinv tk vf d sa sb sc) s = .next (s.raise c 0x0B 0 0 c.mask)) ∧
   (AtIssue s c (.tlbinv tk vf d sa sb sc) c.mask →
     rg.priv = .u ∨ (rg.priv = .s ∧ (¬ forS ∨ vf ≠ 0)) →
     exec (.tlbinv tk vf d sa sb sc) s = .next (s.raise c 0x11 0 0 c.mask))) ∧
  (AtIssue s c (.rdcinv rk d sa sb) c.mask → rg.priv = .h →
    let s1 := req (s.dropCopies rg.part (s.rdcMatches rg.part rk a (c.t.s sb).toNat))
      (c.t.sBad sa || (decide (rk = .range) && c.t.sBad sb)) .rdcinv
    exec (.rdcinv rk d sa sb) s =
      .next ((s1.advance c (c.t.pendS d)).at (s.tick + 8) (.rdcinvComplete s.flight.nextId))) ∧
  (AtIssue s c (.rdcinv rk d sa sb) c.mask → rg.priv ≠ .h →
    exec (.rdcinv rk d sa sb) s = .next (s.raise c 0x11 0 0 c.mask))

/-- O43 (R72, R73, R438 to R440). mroute's answer is what the check of its route finds; msend takes its payload from the
lanes of a v register, msend.sp from the block's data. Its sD is pending, and NI counts it until its payload has left:
the message is sent, or the network interface answers why not. With 63 counted it stalls. -/
def Obligations.MessageWordResults : Prop :=
  ∀ (s : State) (c : Ctx) (nw : Fin 4) (gtd t eth : Bool) (v : Fin 192) (len : BitVec 13) (d sa sb sc : SReg),
  let ws := c.routeOf sa (nw.val + 1)
  let o := (c.t.s sc).toNat % 2 ^ 20
  let at_ := spBytes c.blk.g0 6 o len.toNat
  let co := s.core c.key.core
  let i := Instr.msend nw gtd t eth v len d sa sb
  let j := Instr.msendSp nw gtd t eth len d sa sb sc
  let bad := c.routeBad sa (nw.val + 1) || c.t.sBad sb
  let rg := c.blk.regime
  let kernel := decide (rg.priv = .h)
  let ring := (c.t.s sb).toNat % 4096
  let ethIdx := if eth then some (bitsOf (c.t.s sb).toNat 20 8) else none
  let counted := (c.t.pendS d).count fun n => { n with ni := n.ni + 1 }
  let answer := fun (s : State) (p : Bool) (w : W64) => (s.sendReq c.key.num d p (.niAnswer w) 1).2.advance c counted
  let byRegister : SendReq := ⟨nw.val + 1, gtd, t, eth, d, sa, sb, c.t.payload v.val len.toNat, []⟩
  (AtIssue s c (.mroute nw d sa) c.mask →
    (c.t.cnt.ni < 63 → exec (.mroute nw d sa) s =
      .next (answer s (c.routeBad sa (nw.val + 1)) (s.msgRoute c ws false).word)) ∧
    (63 ≤ c.t.cnt.ni → exec (.mroute nw d sa) s = .next (s.stall c))) ∧
  (63 ≤ c.t.cnt.ni → s.msend c byRegister = s.stall c) ∧
  (∀ (id : Nat) (r : Request) (w : W64), s.ts? id = none → s.req? id = some r → r.stage = .sent →
    (r.work = some (.niAnswer w) → exec (.heldReleaseSend id) s = .next ((s.reply id w).modTroupe (keyOf r.troupe) fun t =>
      t.count fun n => { n with ni := n.ni - 1 })) ∧
    (r.work = some .niEnd → exec (.heldReleaseSend id) s = .next ((s.delReq id).modTroupe (keyOf r.troupe) fun t =>
      t.count fun n => { n with ni := n.ni - 1 }))) ∧
  (AtIssue s c i c.mask → c.t.payloadBad v.val len.toNat = 0 → exec i s = .next (s.msend c byRegister)) ∧
  (AtIssue s c i c.mask → c.t.payloadBad v.val len.toNat ≠ 0 →
    exec i s = .next (s.raise c 0x0B 0 0 (c.t.payloadBad v.val len.toNat))) ∧
  (AtIssue s c j c.mask → o % 8 = 0 → o + len.toNat ≤ c.blk.d → s.scratchHeld c false at_ = false → ∃ poisoned,
    exec j s = .next (s.msend c ⟨nw.val + 1, gtd, t, eth, d, sa, sb, at_.map co.byte, poisoned⟩)) ∧
  (AtIssue s c j c.mask → o % 8 = 0 → c.blk.d < o + len.toNat → exec j s = .next (s.raise c 0x05 0 0 c.mask)) ∧
  (AtIssue s c j c.mask → o % 8 = 0 → o + len.toNat ≤ c.blk.d → s.scratchHeld c false at_ = true →
    exec j s = .next (s.stall c)) ∧
  (AtIssue s c j c.mask → o % 8 ≠ 0 → exec j s = .next (s.raise c 0x06 0 (BitVec.ofNat 64 o) c.mask)) ∧
  (c.t.cnt.ni < 63 →
    (∀ w h, s.msgRoute c ws eth = .bad w h →
      s.msend c byRegister = (if t then (s.countRoute c.slice).raise c 0x0F (RouteCheck.bad w h).word 0 c.mask
        else answer (s.countRoute c.slice) bad (RouteCheck.bad w h).word)) ∧
    ((∀ w h, s.msgRoute c ws eth ≠ .bad w h) →
      (gtd = true → s.ownsSlot rg.part rg.vf kernel = false → s.msend c byRegister = answer s bad 7) ∧
      ((gtd = true → s.ownsSlot rg.part rg.vf kernel = true) → ¬ (eth = true ∧ kernel = true ∧ ring = 0xFFF) →
        (s.msgEnd rg.part ws (coreLeaf c.key.core) ethIdx (s.msgRoute c ws eth) = none →
          s.msend c byRegister = answer s bad 4) ∧
        (∀ m sl, s.msgEnd rg.part ws (coreLeaf c.key.core) ethIdx (s.msgRoute c ws eth) = some (m, sl) →
          let x : Message := ⟨c.key.num, d, bad, m, c.key.core, rg.vf, kernel, rg.part, ring, sl, ws, 0, byRegister.bytes, [],
            none, gtd, ethIdx, false⟩
          s.msend c byRegister = (((s.newId.2.setMsg s.newId.1 x).sendReq c.key.num 0 false .niEnd 1).2.advance c
            counted).sendMsg s.newId.1)))) ∧
  (c.t.payload v.val len.toNat).length = len.toNat / 4 * 4

/-- O44 (R296 to R299, R320, R343). A host core that has left reset and awaits no value: its fences wait until its
stores are performed, fence.i drops its fetched words, a store to memory joins the store buffer, cache-block
operations drop the block, loads and atomics go to their homes, operations on a COUNTER page are turnstile operations, and
the translation fences drop what they name. A misaligned access to memory raises its misaligned exception, and one to a
COUNTER page its access fault. A core held in reset does nothing, and one that awaits a value tries its instruction again. -/
def Obligations.HartResults : Prop :=
  ∀ (s s1 : State) (h : Nat) (w64 : Bool) (w : Width) (rd rs1 rs2 : Fin 32) (off : BitVec 12) (op : AtomOp) (d tag : Nat)
    (i : Instr),
  let x := s.hart h
  let va := (x.reg rs1).toNat
  let n := if w64 then 8 else 4
  let w8 := if w64 then Width.b64 else Width.b32
  let ready := x.started = true ∧ x.outstanding = []
  let sent := fun (u : State) (k : MemKind) (acc : HAcc) (w : Width) (v : Nat) =>
    let u1 := u.drainLine h (d / 64)
    u1.hartAwait h (u1.hartOp h (u1.hartRegime h ((u1.hart h).effective acc)) k w (some (Fin.ofNat 64 rd.val)) noLease
      (d / 64) (va / 64 * 64) tag [⟨0, d, v, 0, false⟩])
  (hartOf i = some h → (x.started = false → exec i s = .next s) ∧
    (x.started = true → x.outstanding ≠ [] → exec i s = .next (s.retryHart h i))) ∧
  (ready → s.hartDrained h = true →
    exec (.hartFence h) s = .next (s.setHart h x.next) ∧
    exec (.hartFenceI h) s = .next (s.setHart h ({ x with icache := [] } : Hart).next)) ∧
  (ready → s.hartDrained h = false →
    exec (.hartFence h) s = .next ((s.drainAll h).retryHart h (some (.hartFence h))) ∧
    exec (.hartFenceI h) s = .next ((s.drainAll h).retryHart h (some (.hartFenceI h)))) ∧
  (ready → s.hartXlate h .store va 1 = (.ok (.mem d tag false), s1) → (s1.hart h).entry? (d / 64) = none →
    (x.cboFault 6 1 = none → exec (.cboClean h rs1) s = .next (s1.setHart h (s1.hart h).next) ∧
      exec (.cboFlush h rs1) s = .next (s1.setHart h { (s1.hart h).next with dcache := sdel (d / 64) (s1.hart h).dcache })) ∧
    (x.cboFault 4 2 = none →
      exec (.cboInval h rs1) s = .next (s1.setHart h { (s1.hart h).next with dcache := sdel (d / 64) (s1.hart h).dcache }))) ∧
  (∀ (k : Nat), ready →
    (x.cboFault 6 1 = some k → exec (.cboClean h rs1) s = .next (s.hartTrap h ⟨k, 0, 0⟩) ∧
      exec (.cboFlush h rs1) s = .next (s.hartTrap h ⟨k, 0, 0⟩)) ∧
    (x.cboFault 4 2 = some k → exec (.cboInval h rs1) s = .next (s.hartTrap h ⟨k, 0, 0⟩))) ∧
  (ready → s.hartXlate h .load va n = (.ok (.mem d tag false), s1) →
    (va % n = 0 → exec (.hartLr h w64 rd rs1) s = .next (sent s1 .lr .load w8 0)) ∧
    (va % n ≠ 0 → exec (.hartLr h w64 rd rs1) s = .next (s1.hartTrap h ⟨4, va, 0⟩))) ∧
  (ready → s.hartXlate h .store va n = (.ok (.mem d tag false), s1) →
    (va % n = 0 → exec (.hartSc h w64 rd rs1 rs2) s = .next (sent s1 .sc .store w8 ((x.reg rs2).toNat % 2 ^ (8 * n)))) ∧
    (va % n ≠ 0 → exec (.hartSc h w64 rd rs1 rs2) s = .next (s1.hartTrap h ⟨6, va, 0⟩))) ∧
  (ready → amoOps.contains op = true → s.hartXlate h .amo va n = (.ok (.mem d tag false), s1) →
    (va % n = 0 → exec (.hartAmo h op w64 rd rs1 rs2) s =
      .next (sent s1 (.atomic op) .amo w8 ((x.reg rs2).toNat % 2 ^ (8 * n)))) ∧
    (va % n ≠ 0 → exec (.hartAmo h op w64 rd rs1 rs2) s = .next (s1.hartTrap h ⟨6, va, 0⟩))) ∧
  (ready → s.hartXlate h .amo va 8 = (.ok (.mem d tag true), s1) →
    (va % 8 = 0 → (x.reg rs2).toNat < 2 ^ 32 →
      exec (.hartAmoaddD h rd rs1 rs2) s = .next (s1.hartTs h .fetch (.home d) va tag (x.reg rs2) rd true)) ∧
    (va % 8 = 0 → exec (.hartAmomaxuD h rd rs1 rs2) s = .next (s1.hartTs h .max (.home d) va tag (x.reg rs2) rd true)) ∧
    (va % 8 ≠ 0 ∨ 2 ^ 32 ≤ (x.reg rs2).toNat →
      exec (.hartAmoaddD h rd rs1 rs2) s = .next (s1.hartTrap h ⟨7, va, 0⟩))) ∧
  (let a := (x.reg rs1 + off.signExtend 64).toNat
   (ready → s.hartXlate h .load a 8 = (.ok (.mem d tag true), s1) →
      (a % 8 = 0 → exec (.hartCounterLoad h rd rs1 off) s = .next (s1.hartTs h .read (.home d) a tag 0 rd false)) ∧
      (a % 8 ≠ 0 → exec (.hartCounterLoad h rd rs1 off) s = .next (s1.hartTrap h ⟨5, a, 0⟩))) ∧
   (ready → s.hartXlate h .load a 8 = (.ok (.mem d tag false), s1) →
      (a % 8 = 0 → exec (.hartCounterLoad h rd rs1 off) s = .next (
        let u := s1.drainLine h (d / 64)
        u.hartAwait h (u.hartOp h (u.hartRegime h ((u.hart h).effective .load)) (.load false) .b64
          (some (Fin.ofNat 64 rd.val)) leaseDefault (d / 64) (a / 64 * 64) tag [⟨0, d, 0, 0, false⟩]))) ∧
      (a % 8 ≠ 0 → exec (.hartCounterLoad h rd rs1 off) s = .next (s1.hartTrap h ⟨4, a, 0⟩))) ∧
   (ready → widthBytes w ≤ 8 → s.hartXlate h .store a (widthBytes w) = (.ok (.mem d tag false), s1) →
      (a % widthBytes w = 0 → exec (.hartStore h w rs1 rs2 off) s = .next ((s1.bufferStore h
        (s1.hartRegime h ((s1.hart h).effective .store)) (d / 64) (a / 64 * 64) tag
        (lineBytes d (widthBytes w) ((x.reg rs2).toNat % 2 ^ (8 * widthBytes w)))).hartNext h)) ∧
      (a % widthBytes w ≠ 0 → exec (.hartStore h w rs1 rs2 off) s = .next (s1.hartTrap h ⟨6, a, 0⟩))) ∧
   (ready → widthBytes w ≤ 8 → s.hartXlate h .store a (widthBytes w) = (.ok (.mem d tag true), s1) →
      exec (.hartStore h w rs1 rs2 off) s = .next (s1.hartTrap h ⟨7, a, 0⟩))) ∧
  (ready →
    (x.fenceFault false true = none → exec (.hartSfenceVma h) s = .next (s.setHart h { x.next with
      tlb := x.tlb.filter fun e => if x.mode.guest then !(guestEntry e && decide (e.regime.vf = x.vf)) else guestEntry e })) ∧
    (x.fenceFault true false = none → exec (.hartHfenceVvma h) s = .next (s.setHart h { x.next with
      tlb := x.tlb.filter fun e => !(guestEntry e && decide (e.regime.vf = x.vf)) })) ∧
    (x.fenceFault true true = none → exec (.hartHfenceGvma h) s = .next (s.setHart h { x.next with
      tlb := x.tlb.filter fun e => !guestEntry e }))) ∧
  (∀ (k : Nat), ready →
    (x.fenceFault false true = some k → exec (.hartSfenceVma h) s = .next (s.hartTrap h ⟨k, 0, 0⟩)) ∧
    (x.fenceFault true false = some k → exec (.hartHfenceVvma h) s = .next (s.hartTrap h ⟨k, 0, 0⟩)) ∧
    (x.fenceFault true true = some k → exec (.hartHfenceGvma h) s = .next (s.hartTrap h ⟨k, 0, 0⟩)))

/-- O45 (R296, R297, R300 to R302). The host cores' events: a store buffer entry leaves as one write; CTL of a waiter port
names its turnstiles and arms the wait, or ends it with status 6 at the first that does not translate; CANCEL ends it with
status 8; a wait that ends writes STAT and sends its MSI; the tests of a port's wait; and a timer's pending bit, which
follows the comparison. A hart that runs takes an interrupt that it may take, or its next instruction, once it awaits no
value; an instruction that is not there to be fetched is its exception, one of two bytes stands for one of four, and one
that the architecture reserves is an illegal instruction (log entry 127). -/
def Obligations.HartEvents : Prop :=
  ∀ (s s1 s2 : State) (h line page st i : Nat) (val : W64) (e : SbufEntry) (w w2 : WaitState) (pz virt : Bool) (md : HartMode)
    (exc : HExc) (lo hi word : Nat),
  let x := s.hart h
  let v := val.toNat
  let again := s.later (.hartRun h)
  let pc := x.pc
  let u := s.withdraw (ofPort h page)
  let q : Port := { (u.hart h).port page with
    ctl := BitVec.ofNat 64 (bitsOf v 24 40 * 2 ^ 24 + v % 8), stat := 7, wait := none, vf := (s.regimeOf h .store).flowVf }
  let named := ((u.portNames h q (v % 4 + 1)).zipIdx).map (portCond q)
  let p := x.port page
  let w1 := s.gather (ofPort h page) w
  let time := if virt then (s.tick + x.csr? csrHtimedelta) % 2 ^ 64 else s.tick
  let reg := if virt then csrVstimecmp else csrStimecmp
  (x.entry? line = some e → s.hartOps h line = false → exec (.hartStoreDrain h line) s = .next (s.drainLine h line)) ∧
  (x.entry? line = some e → s.hartOps h line = true →
    exec (.hartStoreDrain h line) s = .next (s.later (.hartStoreDrain h line))) ∧
  (exec (.portCancelWrite h page) s =
    .next ((s.withdraw (ofPort h page)).setPort h page { p with stat := 8, wait := none })) ∧
  (x.entry? line = some e → s.drainLine h line =
    ((s.setHart h { x with sbuf := x.sbuf.filter fun y => decide (y.line ≠ line) }).hartOp h e.regime .store .b8 none noLease
      line e.va e.astag ((e.bytes.zipIdx).map fun b => LaneAcc.mk b.2 (64 * line + b.1.1) b.1.2.toNat 0 false)).2) ∧
  (s.portAgain h page val = some line → exec (.portCtlWrite h page val) s =
    .next ((s.noteRefusal line).later (.portCtlWrite h page val))) ∧
  (s.portAgain h page val = none →
    (∀ b, ((named.zipIdx).find? fun e => e.1.isNone) = some b → exec (.portCtlWrite h page val) s =
      .next ((u.setPort h page q).endPort h page 6 b.2)) ∧
    (named.all Option.isSome = true →
      let limit := bitsOf v 32 32
      let w0 : WaitState :=
        ⟨named.filterMap id, bitN v 2, true, if limit = 2 ^ 32 - 1 then none else some (s.tick + limit), 0, false⟩
      let armed := (u.setPort h page { q with wait := some w0 }).startConds (fun i => .port h page i) w0 q.vf
        ((u.setPort h page q).hartPart h)
      exec (.portCtlWrite h page val) s =
        .next (if limit = 2 ^ 32 - 1 then armed else armed.at (s.tick + limit) (.portWaitEnd h page)))) ∧
  (s.endPort h page st i = (u.setPort h page { p with stat := BitVec.ofNat 64 (st + 256 * i), wait := none }).msi (h / 8) h
    page (bitsOf p.ctl.toNat 24 8)) ∧
  (p.wait = some w → w1.first = true → (w1.conds.any fun c => !c.sat && c.val.isNone) = true →
    exec (.portWaitEnd h page) s = .next s) ∧
  (p.wait = some w → (w1.first && w1.conds.any (fun c => !c.sat && c.val.isNone)) = false → w1.pass s.tick = .goesOn w2 →
    exec (.portWaitEnd h page) s = .next ((s.dropReports (ofPort h page)).setPort h page { p with wait := some w2 })) ∧
  (p.wait = none → exec (.portWaitEnd h page) s = .next s) ∧
  (p.wait = some w → (w1.first && w1.conds.any (fun c => !c.sat && c.val.isNone)) = false → w1.pass s.tick = .ends st i pz →
    exec (.portWaitEnd h page) s = .next (s.endPort h page st i)) ∧
  (exec (.sstcTimer h virt) s = .next (s.setHart h (x.setCsr csrMip
    (putBits (x.csr? csrMip) (if virt then 6 else 5) 1 (if x.csr? reg ≤ time then 1 else 0))))) ∧
  (x.started = false → runEv (.hartRun h) s = .next s) ∧
  (x.started = true → x.outstanding ≠ [] → runEv (.hartRun h) s = .next again) ∧
  (x.started = true → x.outstanding = [] → x.takes = some (md, i) →
    runEv (.hartRun h) s = .next (again.setHart h (x.trapTo md ⟨2 ^ 63 + i, 0, 0⟩))) ∧
  (x.started = true → x.outstanding = [] → x.takes = none → runEv (.hartRun h) s = .next (again.hartStep h)) ∧
  (s.parcel h pc.toNat = (.error exc, s1) → s.hartStep h = s1.hartFault h none exc) ∧
  (s.parcel h pc.toNat = (.ok lo, s1) → lo % 4 ≠ 3 →
    let u := s1.setHart h { s1.hart h with half := true }
    (rvExpand lo = some word → s.hartStep h = u.rvExec h word) ∧
    (rvExpand lo = none → s.hartStep h = u.hartTrap h ⟨2, 0, 0⟩)) ∧
  (s.parcel h pc.toNat = (.ok lo, s1) → lo % 4 = 3 →
    (s1.parcel h (pc + 2).toNat = (.error exc, s2) → s.hartStep h = s2.hartFault h none exc) ∧
    (s1.parcel h (pc + 2).toNat = (.ok hi, s2) →
      s.hartStep h = (s2.setHart h { s2.hart h with half := false }).rvExec h (lo + 2 ^ 16 * hi)))

/-! Caches, anchors, and lines at their homes. -/

/-- O46 (R281 to R286, R290 to R295). cwb and cinv send the held lines home, cinv after dropping the valid copies; icinv,
once the troupe's writes are performed, drops its words; fetchbar goes on; pin's answer is 4 for a bad range and 3 for one
that does not translate, and otherwise it asks every slice of its lines, which reserves or refuses as the request arrives;
unpin's is 4 for a bad range, and otherwise the slices give up the anchors; pinq's is quota and use. The destination of
all three is pending until the answer. -/
def Obligations.CacheWordResults : Prop :=
  ∀ (s : State) (c : Ctx) (range : Option (SReg × SReg)) (d sa sb : SReg),
  let ls := s.named c range
  let co := s.core c.key.core
  let a := (c.t.s sa).toNat
  let n := (c.t.s sb).toNat
  let bad := c.t.sBad sa || c.t.sBad sb
  let wrong := n = 0 ∨ 2 ^ 30 < n ∨ 2 ^ 57 < a + n
  let vf := c.blk.regime.vf
  let sl := a % 16
  let answer := fun (w : HeldWork) (delay : Nat) => (s.sendReq c.key.num d bad w delay).2.advance c (c.t.pendS d)
  let asks := fun (lines : KeySet) (w : HeldWork) (done : Nat → Ev) =>
    let slices := toKeys (lines.map lineSlice)
    let id := s.flight.nextId
    let u := slices.foldl (fun (s : State) sl => s.at (s.tick + latency c.slice sl) (.pinArrive id sl))
      (s.newId.2.setReq id ⟨c.key.num, d, bad, some w, .sent, 0, [], 0⟩)
    (u.at (u.tick + Nat.max 1 (2 * maxList (slices.map fun sl => latency c.slice sl))) (done id)).advance c (c.t.pendS d)
  (AtIssue s c (.cwb range) c.mask → c.t.cnt.st < 63 → s.narrowComing c ls = false →
    exec (.cwb range) s = .next (s.walkBack c ls true)) ∧
  (AtIssue s c (.cinv range) c.mask → c.t.cnt.st < 63 → s.narrowComing c ls = false →
    exec (.cinv range) s = .next ((s.dropValid c.key.core ls).walkBack c ls false)) ∧
  (AtIssue s c (.icinv range) c.mask → c.t.cnt.st = 0 → c.t.gwct ≤ s.tick → exec (.icinv range) s =
    .next ((s.setCore c.key.core { co with ic := co.ic.filter fun e => !inNamed ls (e.1 / 8) }).advance c c.t)) ∧
  (s.ctx? = some c → exec .fetchbar s = .next (s.advance c c.t)) ∧
  (AtIssue s c (.pin d sa sb) c.mask →
    (wrong → exec (.pin d sa sb) s = .next (answer (.answer 4) 1)) ∧
    (¬wrong → s.pinLines c a n = none → exec (.pin d sa sb) s = .next (answer (.answer 3) 1)) ∧
    (∀ lines, ¬wrong → s.pinLines c a n = some lines →
      exec (.pin d sa sb) s = .next (asks lines (.pin vf lines []) .pinComplete))) ∧
  (AtIssue s c (.unpin d sa sb) c.mask →
    (wrong → exec (.unpin d sa sb) s = .next (answer (.answer 4) 1)) ∧
    (¬wrong → let lines := toKeys (s.rangeLines c.slice c.blk.regime needNone a n)
      exec (.unpin d sa sb) s = .next (asks lines (.unpin vf lines) .heldReleaseSend))) ∧
  (AtIssue s c (.pinq d sa) c.mask → exec (.pinq d sa) s =
    .next ((s.sendReq c.key.num d (c.t.sBad sa) (.pinq sl) (latency c.slice sl)).2.advance c (c.t.pendS d))) ∧
  (∀ (id : Nat) (r : Request) (g : Regime), s.ts? id = none → s.req? id = some r → r.stage = .sent →
    (∀ val, r.work = some (.answer val) → exec (.heldReleaseSend id) s = .next (s.reply id val)) ∧
    (∀ w ls, r.work = some (.unpin w ls) → exec (.heldReleaseSend id) s = .next (s.reply id 0)) ∧
    (r.work = some (.pinq sl) → s.ownerRegime (.troupe r.troupe) = some g → exec (.heldReleaseSend id) s =
      .next (s.reply id (if (s.smask g.part).getLsbD sl then
        BitVec.ofNat 64 (s.pinQuota sl g.vf * 2 ^ 32 + s.pinUsed sl g.vf) else 0)))) ∧
  (∀ (id slice w : Nat) (r : Request) (ls : KeySet) (room : List (Nat × Nat)), s.req? id = some r →
    (r.work = some (.pin w ls room) → (s.reserveAt w ls slice).1 = 0 → runEv (.pinArrive id slice) s =
      .next (s.setReq id { r with work := some (.pin w ls (room ++ [(slice, (s.reserveAt w ls slice).2)])) })) ∧
    (r.work = some (.pin w ls room) → (s.reserveAt w ls slice).1 ≠ 0 → r.status = 0 → runEv (.pinArrive id slice) s =
      .next (s.setReq id { r with status := BitVec.ofNat 64 ((s.reserveAt w ls slice).1 + 256 * slice) })) ∧
    (r.work = some (.unpin w ls) → runEv (.pinArrive id slice) s =
      .next ((ls.filter fun l => decide (lineSlice l = slice)).foldl (fun s l => s.unpinLine w l) s)))

/-- O47 (R276, R303, R331). A write whose tick has come takes effect at its home: each byte its lanes write holds what
the last of them wrote, and every other byte of memory is as it was. No snapshot copies here. -/
def Obligations.HomeWriteResults : Prop :=
  ∀ (s : State) (id line pt : Nat) (acked : Bool) (o : MemOp) (p : Part), s.op? id = some o → o.part? line = some p →
  p.state = .fixed pt acked false → pt ≤ s.tick → o.kind.reads = false →
  (∀ e ∈ s.pkg.parts, e.2.snap.state ≠ .copying) →
  let written := (lineAccess o.kind (widthBytes o.width) (memByte s.homes.mem) (s.homes.badRead line p.tag) p.accs).2.1
  ∃ s', exec (.homeWrite id line) s = .next s' ∧
    (∀ a, memByte s'.homes.mem a = match written.reverse.find? fun e => decide (e.1 = a) with
      | some e => e.2
      | none => memByte s.homes.mem a) ∧
    (o.kind = .store → ∀ e ∈ written, ∃ x ∈ p.accs, x.addr ≤ e.1 ∧ e.1 < x.addr + widthBytes o.width ∧
      e.2 = BitVec.ofNat 8 (x.val / 256 ^ (e.1 - x.addr)))

/-- O48 (R162, R183, R186, R187, R265, R276 to R280, R289, R311 to R313, R325). The events of a line: a write its home
admits is given its tick, or held while INF copies of the line are recalled; a write of the block that holds the line waits
for its write-back; a read whose line is in the L2 is answered; a pin is registered; what returns fills its registers or
raises the troupe's GWCT; a refused access is repeated; recalls drop copies, under the numbers the line had before a
migration too, and are acknowledged, and then the held writes are admitted; a channel makes one transfer; and a cluster
access is served by its target's banks. -/
def Obligations.LineEvents : Prop :=
  ∀ (s : State) (id line slice ch k : Nat) (o : MemOp) (p : Part) (l2 : L2Line) (pt : Nat) (f : Bool) (d : Reg) (key : Nat) (x : L1Line),
  let there := s.op? id = some o ∧ o.part? line = some p
  let clear := s.refusesOp o line = false ∧ s.homeTested line = false ∧ s.blocked id line o = false
  let held := s.homes.held ++ [(id, line)]
  let lines := line :: sget [] line s.homes.was
  let settled := (s.homes.waiting.filter fun w => decide (w.line = line) && decide (w.p ≤ s.tick)) = []
  (there → p.state = .sent → clear → s.isFrozen line = false → s.route o line = .home → sfind line s.homes.recalls = none →
    sfind line s.homes.inf = none → exec (.homeWrite id line) s = .next (s.fixWrite id line o)) ∧
  (there → p.state = .sent → clear → s.isFrozen line = false → s.route o line = .home →
    (∀ m, sfind line s.homes.recalls = some m →
      exec (.homeWrite id line) s = .next (s.setHomes { s.homes with held := held })) ∧
    (∀ m, sfind line s.homes.recalls = none → sfind line s.homes.inf = some m → exec (.homeWrite id line) s =
      .next ((s.setHomes { s.homes with held := held }).sendRecalls line m))) ∧
  (there → p.state = .sent → clear → s.isFrozen line = false → s.route o line = .here key →
    ((s.core o.core).blockHeld key = true → exec (.homeWrite id line) s =
      .next ((s.writeBack o.core key (.core o.core) false).2.later (.homeWrite id line))) ∧
    ((s.core o.core).blockHeld key = false → exec (.homeWrite id line) s =
      .next (s.performHere id line o.core key o p.accs))) ∧
  (there → p.state = .sent → clear → s.isFrozen line = false → s.route o line = .refused →
    exec (.homeWrite id line) s = .next (s.refuse id line)) ∧
  (there → settled → p.state = .sent → clear → s.frozenFor o line = false → s.route o line = .home →
    (sfind line s.homes.l2 = some l2 → exec (.homeRead id line) s = .next ((s.setHomes { s.homes with
      l2 := sset line { l2 with used := s.seq } s.homes.l2 }).bump.answerRead id line o p)) ∧
    (sfind line s.homes.l2 = none → exec (.homeRead id line) s =
      .next ((s.chanAsk (chargeVf o.regime.vf) line false).later (.homeRead id line)))) ∧
  (there → settled → p.state = .sent → s.refusesOp o line = true →
    exec (.homeRead id line) s = .next (s.dropAccess id line o)) ∧
  (there → p.state = .sent → s.route o line = .across ch → (s.core ch).l1Find line = some (key, x) →
    exec (.redirectedAccess id line) s = .next (s.performHere id line ch key o p.accs)) ∧
  (there → settled → p.state = .sent → clear → s.frozenFor o line = false → s.route o line = .home →
    s.homes.earliest line = none → sfind line s.homes.recalls = none →
    (s.registerPin o line p.tag p.va).route o line = .here key → exec (.pinRegistration id line) s =
      .next ((s.registerPin o line p.tag p.va).performHere id line o.core key o p.accs)) ∧
  (∀ t l, (s.core k).l1Find line = some (key, l) → l.firstRefusal = some t → l.isPinned = true → t + 65536 ≤ s.tick →
    exec (.pinnedForcedWriteback k line) s = .next (s.writeBack k key (.core k) false).2) ∧
  (there → p.state = .sent → o.isWriteBack = false →
    exec (.retry id line) s = .next ((s.retranslate id line).2.sendPart id (s.retranslate id line).1)) ∧
  (there → p.state = .sampled → o.owner = .troupe k → o.dst = some d →
    let filled := s.modTroupe (keyOf k) fun t => p.out.foldl (fun t a => t.deliverOp o d a) t
    let after_ := fun (u : State) => (u.modPart? id line fun x => { x with state := .done }).settleOp id
    (p.fill = none → exec (.loadDataReturn id line) s = .next (after_ filled)) ∧
    (∀ e, p.fill = some e → exec (.loadDataReturn id line) s = .next (after_ (filled.l1Fill o.core line o.rank e)))) ∧
  (there → p.state = .fixed pt false f → exec (.gwctReceive id line) s =
    .next (((s.takeGwct o pt).modPart? id line fun x => { x with state := .fixed pt true f }).settleOp id)) ∧
  (∃ s', exec (.recall slice line) s = .next s' ∧ s'.homes.mem = s.homes.mem ∧
    (∀ l ∈ lines, sfind (rdcKey slice l) s'.homes.rdc = none) ∧
    (∀ h, h / 8 = slice → ∀ x, sfind h s.harts = some x →
      sfind h s'.harts = some { x with dcache := lines.foldl (fun m l => sdel l m) x.dcache })) ∧
  (∀ m, sfind line s.homes.recalls = some m → m ≠ 0 → exec (.recallAck line) s = .next s) ∧
  (sfind line s.homes.recalls = some 0 → exec (.recallAck line) s =
    .next ((s.homes.held.filter fun e => decide (e.2 = line)).foldl (fun s e => s.homeWrite e.1 line) (s.setHomes { s.homes with
      recalls := sdel line s.homes.recalls
      inf := sdel line s.homes.inf
      was := sdel line s.homes.was
      held := s.homes.held.filter fun e => decide (e.2 ≠ line) }))) ∧
  (sfind (48 * slice + ch) s.homes.channels = none → exec (.channelTransfer slice ch) s = .next s) ∧
  (∀ c r, sfind (48 * slice + ch) s.homes.channels = some c → c.queue = [r] → r.vf = none → c.last.all not = true →
    c.lastVf = 0 → r.write = true → r.ts = false →
    exec (.channelTransfer slice ch) s = .next (s.setHomes { s.homes with
      channels := sset (48 * slice + ch) ⟨[], (c.last ++ [true]).drop ((c.last.length + 1) - 16), 0⟩ s.homes.channels })) ∧
  (∀ tb b, s.op? id = some o → o.parts = [p] → o.target = some tb → p.state = .sent → s.block? tb = some b →
    s.xbarBlocked id o = false → s.underTest (coreSlice b.core) 5 (cluster b.core % 2) = false →
    let n := match o.width with
      | .b128 => 8
      | w => widthBytes w
    let xs := p.accs.map fun a => (spBytes b.g0 p.line a.addr n, a)
    (o.kind.writes && s.bytesRead tb b.g0 (xs.flatMap (·.1))) = false →
    (granulesOf (xs.flatMap (·.1))).any (fun g => b.spill.contains (.granule g)) = false → b.state ≠ .saved →
    let r := (s.core b.core).accesses o.kind n xs
    let done := if o.kind.reads then
        ((s.setCore b.core r.2).modPart? id p.line fun x => { x with out := r.1, state := .sampled }).at (s.tick + 5)
          (.loadDataReturn id p.line)
      else ((s.setCore b.core r.2).modPart? id p.line fun x => { x with state := .fixed s.tick false true }).at (s.tick + 5)
        (.gwctReceive id p.line)
    exec (.xbarRequest id) s = .next done ∧ exec (.xbarSpillRetry id) s = .next done)

/-! Issue, and the life of a block. -/

/-- O49 (R36, R42, R75, R142, R144, R176). The events of issue: a free pipe takes the first ready troupe; the clause of the
selected path is checked and its first word comes to issue, or its failure is raised; a stalled troupe tries again, a
sleeping one wakes at its tick; and a troupe with no lane left, its work done, leaves its core. -/
def Obligations.IssueEvents : Prop :=
  ∀ (s s1 : State) (core slot pipe w : Nat) (t : Troupe) (b : Block) (p : Path) (h : W64) (ws : List W64),
  let k : TKey := ⟨core, slot⟩
  let granted := fun (s : State) => (List.range 8).foldl (fun s p => s.fillPipe core p) s
  let waiting := fun (s : State) => (List.range 32).any fun sl => match s.troupe? ⟨core, sl⟩ with
    | some t => s.selectable t && (s.pipeOf ⟨core, sl⟩).isNone
    | none => false
  exec (.pipeGrant core) s = .next (if waiting (granted s) then (granted s).laterOnce (.pipeGrant core) else granted s) ∧
  (sfind pipe (s.core core).pipes = none → s.grantFor core pipe = some slot →
    s.fillPipe core pipe = ((((s.setCore core { s.core core with pipes := sset pipe slot (s.core core).pipes }).modTroupe k
      fun t => { t with lastGrant := s.seq, yRun := 0, yielded := false }).bump).post (.clauseIssue core slot))) ∧
  (s.current = none → s.troupe? k = some t → s.selectable t = true → (s.pipeOf k).isSome = true → s.block? t.block = some b →
    topPath t.frontier = some p → s.checkClause core b.regime t.nregs p.addr = (.good h ws, s1) → waitMaskOk h t.cnt = true →
    p.idx < ws.length → core < 2 ^ 14 → slot < 32 → ∃ s', exec (.clauseIssue core slot) s = .next s' ∧ s'.current = some k ∧
      s'.troupe? k = some { t with
        frontier := t.frontier.filter fun q => decide (q ≠ p)
        issue := some ⟨p.addr, h, ws, p.idx, p.mask, p.prio⟩ }) ∧
  (∀ cause a, s.current = none → s.troupe? k = some t → s.selectable t = true → (s.pipeOf k).isSome = true →
    s.block? t.block = some b → topPath t.frontier = some p →
    s.checkClause core b.regime t.nregs p.addr = (.trap cause a, s1) → exec (.clauseIssue core slot) s =
      .next (s1.takeTrap ⟨k, { t with frontier := t.frontier.filter fun q => decide (q ≠ p) }, ⟨p.addr, 0, [], p.idx, p.mask, p.prio⟩, b⟩
        ⟨cause, 0, 0, a.setWidth 64, p.mask, .clauseStart p.addr⟩)) ∧
  (s.troupe? k = some t → t.stalled = true → t.issue.isSome = true → s.block? t.block = some b → b.state = .running →
    s.current = none → exec (.stallRelease core slot) s =
      .next { s.setTroupe k { t with stalled := false } with current := some k }) ∧
  (s.troupe? k = some t → t.susp = .sleep w → w ≤ s.tick →
    exec (.sleepWake core slot) s = .next ((s.setTroupe k { t with susp := .none }).reGrant k)) ∧
  (s.troupe? k = some t → t.live = 0 → (t.cnt.none = false ∨ t.written = false) →
    exec (.troupeEnd core slot) s = .next (s.later (.troupeEnd core slot))) ∧
  (s.troupe? k = some t → t.live = 0 → t.cnt.none = true → t.written = true →
    ∃ s', exec (.troupeEnd core slot) s = .next s' ∧ s'.homes = s.homes)

/-- O50 (R178 to R182, R195 to R199, R269, R390, R400). The events of a block: a released unit is zero once its turn is
over, and the units of a walked way join the turn; a block with its units has its ways walked and its troupes in their
slots, and starts once its units are ready, a RESIDENT one with its launch; a launch that runs together starts at its tick;
a block ends once nothing of it is on its way, and its end is reported once its units are zero; a reclaim halts its
victims, or takes back what one that has not started holds; a quiet victim is spilled, a halted block whose units are free
is refilled, and a block is saved whole once nothing of it is in flight. -/
def Obligations.BlockEvents : Prop :=
  ∀ (s : State) (core id tk x d : Nat) (b a : Block) (t : Ticket) (u : CoreUnit) (y : WayWalk) (e : EndedBlock) (r : Reclaim)
    (rs : List Reclaim),
  let c := s.core core
  let now := s.clocks64 (coreSlice core)
  let starts := fun (s : State) (t : Ticket) =>
    (b.slots.zipIdx).foldl (fun s e => s.setTroupe ⟨b.core, e.1⟩ (s.startTroupe id b t e.2)) s
  let cleared := s.clearWays b.core id (s.newUnits id b (rangeOf b.g0 b.grans))
  let clearing := fun (s : State) => (s.modBlock id fun b => { b with state := .clearing }).post (.blockStart id)
  (c.zeroing = [u] → c.walks = [] → c.ended = [] → sfind u.kind c.zeroDue = some d →
    ∃ s', exec (.unitZero core) s = .next s' ∧
      (d ≤ now → (s'.core core).zeroing = [] ∧ (s'.core core).ua = (c.zeroUnit u).ua ∧ (s'.core core).opm = (c.zeroUnit u).opm ∧
        (s'.core core).uaPoison = (c.zeroUnit u).uaPoison ∧ (s'.core core).opmPoison = (c.zeroUnit u).opmPoison) ∧
      (now < d → (s'.core core).zeroing = [u] ∧ (s'.core core).ua = c.ua ∧ (s'.core core).opm = c.opm)) ∧
  (c.zeroing = [] → c.walks = [y] → c.ended = [] → c.zeroDue = [] → y.queued = false → y.ends ≤ now → y.op.all s.opDone = true →
    ∃ s', exec (.unitZero core) s = .next s' ∧ (s'.core core).zeroing = granUnits (8 * y.unit) 8) ∧
  (c.zeroing = [] → c.walks = [] → c.ended = [e] → ∃ s', exec (.unitZero core) s = .next s' ∧ (s'.core core).ended = [] ∧
    s'.pkg = (s.blockDone e.ticket e.gwct).pkg) ∧
  (s.block? id = some b → b.state = .arriving → s.reclaiming id b = false → s.ticket? b.ticket = some t →
    (s.savedOf id = [] → exec (.blockArrival id) s = .next (clearing (starts cleared t))) ∧
    (s.savedOf id ≠ [] → cleared.savedOf id ≠ [] → exec (.blockArrival id) s = .next (clearing cleared))) ∧
  (s.block? id = some b → b.state = .clearing → s.notReady b = true ∨ s.quiesced b.regime.part = true →
    exec (.blockStart id) s = .next (s.laterOnce (.blockStart id))) ∧
  (s.block? id = some b → b.state = .clearing → s.notReady b = false → s.quiesced b.regime.part = false → s.savedOf id = [] →
    s.ticket? b.ticket = some t →
    let s2 := s.modBlock id fun b => { b with ways := [] }
    exec (.blockStart id) s = .next (if t.resident then (s2.modBlock id fun b => { b with state := .gathered }).gangCheck b.ticket
      else s2.runBlock id)) ∧
  (s.ticket? tk = some t → t.startTick = some x → x ≤ s.tick → s.quiesced t.part = false →
    (s.allGathered tk t = true →
      let s1 := s.modPart t.part fun p => if p.gathering = some tk then { p with gathering := none } else p
      exec (.residentGangStart tk) s = .next (((s1.blocksOf tk).filter fun e => decide (e.2.state = .gathered)).foldl
        (fun s e => s.runBlock e.1) s1)) ∧
    (s.allGathered tk t = false → exec (.residentGangStart tk) s = .next (s.setTicket tk { t with startTick := none }))) ∧
  (s.block? id = some b → b.state ≠ .ending → exec (.blockEnd id) s =
    .next (((s.backPins id b).2.modBlock id fun y => { y with state := .ending, ways := (s.backPins id b).1 }).post (.blockEnd id))) ∧
  (s.block? id = some b → b.state = .ending → s.blockBusy id b = true →
    exec (.blockEnd id) s = .next (s.later (.blockEnd id))) ∧
  (s.block? id = some b → b.state = .ending → s.blockBusy id b = false →
    let s1 := s.removeBlock id b
    let c1 := s1.core b.core
    let ended : EndedBlock := ⟨b.ticket, Nat.max b.gwct (s.latestP b.ways),
      c1.zeroing.filter fun u => b.units.contains u || decide (u.kind < 2)⟩
    exec (.blockEnd id) s =
      .next ((s1.setCore b.core { c1 with ended := c1.ended ++ [ended] }).postOnce (.unitZero b.core))) ∧
  (∀ v, s.block? id = some a → (s.core a.core).reclaims = r :: rs → r.arriving = id → r.victims = [v] → s.block? v = some b →
    (b.state = .running ∨ b.state = .halted ∨ (b.state = .gathered ∧ b.haltedAt ≠ 0) →
      exec (.reclaim id) s = .next ((s.haltBlock v).postOnce (.spill v))) ∧
    (b.state = .gathered → b.haltedAt = 0 → exec (.reclaim id) s = .next (s.ungather v b)) ∧
    (b.state = .clearing → ((s.savedOf v).any fun e => decide (e.2.kind = .whole)) = true →
      exec (.reclaim id) s = .next (s.unplace v b)) ∧
    (b.state = .clearing → s.savedOf v = [] → s.residentBlock b = true → b.haltedAt = 0 →
      exec (.reclaim id) s = .next (s.ungather v b)) ∧
    (b.state = .refilling → exec (.reclaim id) s = .next ((s.unrefill v b).postOnce (.spill v)))) ∧
  (s.block? id = some b → (s.core b.core).reclaims = r :: rs → b.state = .halted → r.victims.contains id = true →
    ((s.haltTroupes id).quiet id = true → (s.haltTroupes id).notReady b = false →
      exec (.spill id) s = .next ((s.haltTroupes id).spillBlock id b r)) ∧
    ((s.haltTroupes id).quiet id = false → exec (.spill id) s = .next ((s.haltTroupes id).laterOnce (.spill id)))) ∧
  (s.block? id = some b → b.state = .halted → (s.core b.core).reclaims = [] → s.quiesced b.regime.part = false →
    s.anySaved b.ticket = false → (b.spill.any fun u => (s.heldUnits b.core).contains u) = false → b.ways = [] →
    let gs := b.spill.filterMap fun u => match u with
      | .granule g => some g
      | _ => none
    exec (.refill id) s = .next (((s.clearWays b.core id (s.newUnits id b gs)).setBlock id
      { b with state := .refilling }).post (.refill id))) ∧
  (s.block? id = some b → b.state = .refilling → s.quiesced b.regime.part = false → s.notReady b = false →
    b.spill = [] ∨ s.framesRead (coreSlice b.core) b.regime (b.frames.map fun i => s.poolOf b + 65536 * i) = true →
    exec (.refill id) s = .next (s.refillBlock id b)) ∧
  (s.block? id = some b → b.state = .running → s.ticket? b.ticket = some t → t.resident = false →
    let s1 := s.haltBlock id
    (s1.savable id = false → exec (.wholeBlockSave id) s = .next (s1.laterOnce (.wholeBlockSave id))) ∧
    (∀ b1, s1.savable id = true → s1.block? id = some b1 →
      exec (.wholeBlockSave id) s = .next ((s1.saveBlock id b1).getD s1)))

/-! Requests, system registers, and tables. -/

/-- O51 (R193, R194, R281, R287, R328, R352, R356, R366, R379, R410, R417, R418). A write reaches its target. A register
without checks of its own takes a value that has no other bits than its fields and keeps its value otherwise, and the writer
learns which; the registers with checks of their own take their value exactly where the checks pass; and in a slice that has
left the partition nothing is written, and the refusal is counted (that the writer then learns REFUSED is the model's
choice, log entry 117). -/
def Obligations.RegisterWriteEvents : Prop :=
  ∀ (s : State) (slice unit core vf reg req m p : Nat) (val : W64) (x : Partition),
  let v := val.toNat
  let refused := s.reply req replyRefused
  let mine := s.leftSlice req slice = false
  (s.leftSlice req slice = true → exec (.systemRegisterWrite slice unit reg val req) s =
    .next (s.countRefusal.reply req replyRefused)) ∧
  (mine → plainMask reg = some m →
    (v &&& m = v → exec (.systemRegisterWrite slice 0 reg val req) s =
      .next (((s.putReg slice reg val).markSched slice reg).reply req replyOk)) ∧
    (v &&& m ≠ v → exec (.systemRegisterWrite slice 0 reg val req) s = .next refused)) ∧
  (mine → unit ≠ 0 → exec (.systemRegisterWrite slice unit reg val req) s =
    .next (s.post (.cquotaWrite slice (coreAt slice unit) reg val req))) ∧
  (mine → s.partOf slice = some p → sfind p s.pkg.parts = some x → 2 ^ 16 ≤ v ∨ v % 256 = 0 ∨ 5 < v % 256 →
    exec (.systemRegisterWrite slice 0 0x74 val req) s = .next refused) ∧
  (mine → s.partOf slice = some p → sfind p s.pkg.parts = some x → v < 2 ^ 16 → 1 ≤ v % 256 → v % 256 ≤ 5 →
    s.lowerMailbox p slice = true → exec (.systemRegisterWrite slice 0 0x74 val req) s =
      .next (s.post (.systemRegisterWrite slice 0 0x74 val req))) ∧
  (mine → s.partOf slice = some p → sfind p s.pkg.parts = some x → v < 2 ^ 16 → 1 ≤ v % 256 → v % 256 ≤ 5 →
    s.lowerMailbox p slice = false →
    (x.mailbox.isSome = true → exec (.systemRegisterWrite slice 0 0x74 val req) s = .next (s.reply req replyBusy)) ∧
    (x.mailbox = none → ∃ s' y, exec (.systemRegisterWrite slice 0 0x74 val req) s = .next s' ∧
      sfind p s'.pkg.parts = some y ∧ y.mailbox = some (v % 256, v / 256 % 16))) ∧
  (s.quotaOk core vf val = true →
    let unit := coreUnit core
    let latched := if (s.reg slice unit (quotaWhenReg vf)).toNat = s.tick + 1 then s
      else (s.setReg slice unit (quotaOldReg vf) (s.reg slice unit vf)).setReg slice unit (quotaWhenReg vf)
        (BitVec.ofNat 64 (s.tick + 1))
    exec (.cquotaWrite slice core vf val req) s = .next (latched.writeReg slice unit vf val req)) ∧
  (s.quotaOk core vf val = false → exec (.cquotaWrite slice core vf val req) s = .next refused) ∧
  (let sum := sumNat ((List.range 32).map fun w => if w = vf then v / 2 ^ 44 % 2 ^ 20 else s.pinQuota slice w)
   (v % 2 ^ 24 = 0 → sum ≤ 524288 → ∃ t, exec (.l2pinqWrite slice vf val req) s =
      .next (s.writeReg slice 0 (l2pinqReg vf) (BitVec.ofNat 64 t) req) ∧ t / 2 ^ 44 = v / 2 ^ 44 ∧
      t / 2 ^ 24 % 2 ^ 20 = s.pinUsed slice vf % 2 ^ 20) ∧
   (v % 2 ^ 24 ≠ 0 ∨ 524288 < sum → exec (.l2pinqWrite slice vf val req) s = .next refused)) ∧
  (let rate := fun (w : Nat) =>
     let y := if w = vf then val else s.tokNext slice w
     if y.getLsbD 27 = true then 0 else y.toNat / 2 ^ 46 % 2 ^ 18
   let sum := sumNat ((List.range 32).map rate)
   (v % 2 ^ 9 = 0 → sum ≤ 192000 → exec (.sltokWrite slice vf val req) s =
      .next (((s.setReg slice 0 (tokNextReg vf) val).setReg slice 0 (tokWaitReg vf) 1).reply req replyOk)) ∧
   (v % 2 ^ 9 ≠ 0 ∨ 192000 < sum → exec (.sltokWrite slice vf val req) s = .next refused)) ∧
  (s.partOf slice = some p →
    let share := (s.reg slice 0 0x70).toNat / 2 ^ 16 % 2 ^ 16
    let slices := ((List.range 16).filter fun i => (s.smask p).getLsbD i).length
    (v < 2 ^ 32 → v % 2 ^ 16 ≤ share → 120 * slices ≤ v % 2 ^ 16 → exec (.pwrcapWrite slice val req) s =
      .next ((s.setPartReg p 0x70 (BitVec.ofNat 64 (share * 2 ^ 16 + v % 2 ^ 16))).reply req replyOk)) ∧
    (2 ^ 32 ≤ v ∨ share < v % 2 ^ 16 ∨ v % 2 ^ 16 < 120 * slices → exec (.pwrcapWrite slice val req) s = .next refused)) ∧
  (s.partOf slice = some p →
    let tag := v / 2 ^ 52
    let fields := v / 8 % 32 = 0 ∧ v / 2 ^ 8 % 16 ≤ 4 ∧ v / 2 ^ 12 % 2 ^ 40 % 2 ^ (v / 2 ^ 8 % 16) = 0
    let write := exec (.vfcfgWrite slice vf val req) s
    (s.vfState p vf = 2 → write = .next (s.reply req replyBusy)) ∧
    (s.vfState p vf = 0 → v % 2 = 1 → fields → tag ≠ 0 → s.astagFree p vf tag = true →
      write = .next ((s.setVfcfg p vf (vfValue v 0) (vfValue v 1) (s.tick + 1)).reply req replyOk)) ∧
    (s.vfState p vf = 0 → v % 2 = 1 → ¬ (fields ∧ tag ≠ 0 ∧ s.astagFree p vf tag = true) → write = .next refused) ∧
    (s.vfState p vf = 1 → fields → v % 2 = 1 → tag = s.vfAstag p vf →
      write = .next ((s.setVfcfg p vf (s.vfcfg p vf) (vfValue v 1) (s.tick + 1)).reply req replyOk)) ∧
    (s.vfState p vf = 1 → ¬ (fields ∧ v % 2 = 1 ∧ tag = s.vfAstag p vf) → write = .next refused))

/-- O52 (R231, R283, R353, R354, R366, R367, R375, R425, R443, R444). Requests go on: a release whose accesses are performed
writes back what its scope asks, then is sent, and one that its home refused is sent again through the translation as it
stands; the invalidations answer once no access is left; a pin anchors its lines, or answers why not; tables and the calendar
are loaded where every entry passes its checks; ENABLE and DISABLE of a queue, one in its table or not, end the command that
QCMD began. -/
def Obligations.RequestEvents : Prop :=
  ∀ (s : State) (id slice req p v st : Nat) (val : W64) (o : TsOp) (r : Request) (k : TlbKind) (lines : List Nat)
    (room : List (Nat × Nat)) (ws : List W64) (x : Partition) (d : Nat),
  let refused := s.reply req replyRefused
  (s.ts? id = some o → o.stage = .held → s.covered o.owner o.after = true → exec (.heldReleaseSend id) s =
    .next (((s.releaseOf o.owner o.scope).2.setTs id
      { o with stage := .releasing, after := (s.releaseOf o.owner o.scope).1 }).post (.heldReleaseSend id))) ∧
  (s.ts? id = some o → o.stage = .releasing → o.after.all s.opDone = true → o.scope ≠ 7 → isPeer o.loc = false →
    let o1 := { o with stage := .sent, nb := Nat.max o.nb (Nat.max (s.ownerGwct o.owner) (s.latestP o.after)) }
    exec (.heldReleaseSend id) s = .next ((s.setTs id o1).sendTs id o1)) ∧
  (s.ts? id = some o → o.stage = .refused →
    let w := s.movedTo o.owner (s.ownerLeaf o.owner 0 / 8) o.loc o.name
    let o1 := { o with stage := .sent, loc := w.1, name := w.2 }
    exec (.heldReleaseSend id) s = .next ((s.setTs id o1).sendTs id o1)) ∧
  (s.ts? id = none → s.req? id = some r → r.stage = .held → r.after.all s.opDone = true → exec (.heldReleaseSend id) s =
    .next (((s.releaseOf (.troupe r.troupe) 6).2.setReq id
      { r with stage := .releasing, after := (s.releaseOf (.troupe r.troupe) 6).1 }).post (.heldReleaseSend id))) ∧
  (∀ sl u reg w, s.ts? id = none → s.req? id = some r → r.stage = .sent → r.work = some (.sysWrite sl u reg w) →
    exec (.heldReleaseSend id) s = .next ((s.setReq id { r with work := none }).at
      (Nat.max r.nb (s.tick + latency (coreSlice (keyOf r.troupe).core) sl)) (.systemRegisterWrite sl u reg w id))) ∧
  (s.req? req = some r → r.work = some (.tlbinv k p v) → s.tlbWaits req k p v = false →
    exec (.tlbinvComplete req) s = .next (s.reply req 0)) ∧
  (s.req? req = some r → r.work = some (.tlbinv k p v) → s.tlbWaits req k p v = true →
    exec (.tlbinvComplete req) s = .next (s.later (.tlbinvComplete req))) ∧
  (s.req? req = some r → r.work = some .rdcinv → exec (.rdcinvComplete req) s = .next (s.reply req 0)) ∧
  (s.req? req = some r → r.work = some (.pin v lines room) → r.status ≠ 0 →
    exec (.pinComplete req) s = .next (s.reply req r.status)) ∧
  (s.req? req = some r → r.work = some (.pin v lines room) → r.status = 0 →
    exec (.pinComplete req) s = .next ((lines.foldl (fun (u : State) l =>
      let u1 := if (sfind l u.homes.l2).isSome then u else (u.chanAsk (some v) l false).l2Fill l v
      if u1.homes.anchoredBy l v then u1
      else (u1.anchor l v).setUsed (lineSlice l) v (u1.pinUsed (lineSlice l) v + 1)) s).reply req 0)) ∧
  (s.partOf slice = none → ∀ e ∈ [Instr.nirtLoad slice val req, .xptblLoad slice val req, .peerrtLoad slice val req,
    .calendarLoad slice req, .qcmdEnable slice val req, .qcmdDisable slice val req], exec e s = .next refused) ∧
  (s.partOf slice = some p → s.tableWords p (val.toNat / 2 * 2) 128 = some ws →
    let good := ∀ e ∈ ws.zipIdx, s.routeEntryOk p slice e.2 e.1 = true
    (good → exec (.nirtLoad slice val req) s =
      .next (((s.setFab { s.fab with routes := putTable s.fab.routes (routeKey slice) ws }).recheck p).reply req replyOk)) ∧
    (¬ good → exec (.nirtLoad slice val req) s = .next refused)) ∧
  (s.partOf slice = some p → s.tableWords p (val.toNat / 2 * 2) 128 = some ws →
    let good := ∀ i < 64, exportOk (dword ws (2 * i)) (dword ws (2 * i + 1)) = true
    (good → exec (.xptblLoad slice val req) s =
      .next ((s.modPart p fun x => { x with exports := putTable [] (fun i => i) ws }).reply req replyOk)) ∧
    (¬ good → exec (.xptblLoad slice val req) s = .next refused)) ∧
  (s.partOf slice = some p → s.tableWords p (val.toNat / 2 * 2) 4096 = some ws →
    let good := ∀ m < 1024, s.peerEntryOk p slice ((ws.drop (4 * m)).take 4) = true
    (good → exec (.peerrtLoad slice val req) s = .next (((s.setFab { s.fab with
      peerRoutes := putTable s.fab.peerRoutes (fun i => peerKey slice 0 i) ws }).recheck p).reply req replyOk)) ∧
    (¬ good → exec (.peerrtLoad slice val req) s = .next refused)) ∧
  (s.partOf slice = some p → sfind p s.pkg.parts = some x →
    (x.calNext.isSome = true → exec (.calendarLoad slice req) s = .next (s.reply req replyBusy)) ∧
    (x.calNext = none → s.ppaMem p (s.reg slice 0 0xC2).toNat = some d →
      let bs := memBytes s.homes.mem d 1024
      let good := (∀ i < 16, s.homes.badRead (lineOf d + i) 0 = false) ∧ calendarOk x.calSlots bs = true
      (good → exec (.calendarLoad slice req) s =
        .next ((s.setPart p { x with calNext := some (calendarOf bs) }).reply req replyOk)) ∧
      (¬ good → exec (.calendarLoad slice req) s = .next refused))) ∧
  (let u := s.modPart p fun x => { x with qcmd := false }
   (∀ q es, s.partOf slice = some p → val = BitVec.ofNat 64 (2 ^ 12 + q) → q < 4096 → s.entryRefused p q = [] →
     u.readEntry p q = some es →
     let y : Queue := ⟨es, .active, 0, es.getD 5 0, false⟩
     (u.queue? p q = none → y.bad = false → y.priv = .h ∨ u.vfState p y.vf = 1 → exec (.qcmdEnable slice val req) s =
       .next (((u.writeState p q y).reply req replyOk).post (.ticketFetch p q))) ∧
     (y.bad = true ∨ (y.priv ≠ .h ∧ u.vfState p y.vf ≠ 1) →
       exec (.qcmdEnable slice val req) s = .next (u.reply req replyRefused)) ∧
     (∀ z, u.queue? p q = some z → z.state = .active →
       exec (.qcmdEnable slice val req) s = .next (u.reply req replyRefused))) ∧
   (∀ q, s.partOf slice = some p → val = BitVec.ofNat 64 (2 * 2 ^ 12 + q) → q < 4096 → s.entryRefused p q = [] →
     let ends := fun (s1 : State) => exec (.qcmdDisable slice val req) s = .next (((s1.ticketsOf p q).foldl (fun u e =>
       if e.2.placed = 0 ∧ e.2.status = 0 then u.endTicket e.1 e.2 tkCancelled else u) s1).reply req replyOk)
     (∀ z, u.queue? p q = some z → ends ((u.unlist (.producer p q)).writeState p q { z with state := .off })) ∧
     (∀ es, u.queue? p q = none → u.readEntry p q = some es →
       ends (u.writeState p q ⟨es, .off, bitsOf (dword es 4) 20 4, es.getD 5 0, false⟩))))

/-! Queues, tickets, the calendar, snapshots, and saved troupes. -/

/-- O53 (R366 to R376, R378 to R389). The ringmaster's events: a ticket is fetched where the producer turnstile lies ahead
and room is left, and a queue whose entry, producer or memory cannot be used goes to ERROR; a ticket becomes ready once its
join is satisfied; the candidate that the order chooses is placed, the free units of a launch that is gathered being kept for it; a ticket of which
nothing is left completes, once no home refuses the tables on the way to its turnstile; a slot
begins every 4 ticks and a period every 4,096; a round renews the shares. -/
def Obligations.RingmasterEvents : Prop :=
  ∀ (s s1 : State) (part q id slice : Nat) (x : Queue) (t : Ticket) (p : Partition) (pr : W64) (bad : Bool) (ws : List W64),
  let first := s.firstSlice part
  let rg := x.regime part
  let active := s.queue? part q = some x ∧ x.state = .active
  let ready := active ∧ s.isListed (.producer part q) = true ∧ s.lastReport (.producer part q) = some (pr, bad)
  let ahead := (pr - x.ci).toInt
  let size : Int := ((2 ^ x.lsz : Nat) : Int)
  let a := x.base + 128 * (x.ci.toNat % 2 ^ x.lsz)
  let fetch := exec (.ticketFetch part q) s
  (s.queue? part q = none → fetch = .next s) ∧
  (∀ loc va, active → s.isListed (.producer part q) = false → s.nameIn first rg (x.entry.getD 2 0) = .to loc va →
    fetch = .next (s.addWaiter (.producer part q) loc va rg.flowVf part (x.ci + 1))) ∧
  (∀ k b, active → s.isListed (.producer part q) = false → s.nameIn first rg (x.entry.getD 2 0) = .bad k b →
    fetch = .next (s.queueError part q x 4 0)) ∧
  (ready → bad = true → fetch = .next (s.queueError part q x 3 pr.toNat)) ∧
  (ready → bad = false → size < ahead → fetch = .next (s.queueError part q x 2 pr.toNat)) ∧
  (ready → bad = false → -((2 ^ 62 : Nat) : Int) ≤ ahead → ahead ≤ 0 → fetch = .next s) ∧
  (ready → bad = false → 0 < ahead → ahead ≤ size → s.ticketRoom part q = false → fetch = .next s) ∧
  (ready → bad = false → 0 < ahead → ahead ≤ size → s.ticketRoom part q = true → 2 ^ 57 < x.base + 128 * 2 ^ x.lsz →
    fetch = .next (s.queueError part q x 1 pr.toNat)) ∧
  (ready → bad = false → 0 < ahead → ahead ≤ size → s.ticketRoom part q = true → x.base + 128 * 2 ^ x.lsz ≤ 2 ^ 57 →
    s.read128 first rg a = (.words ws true, s1) → fetch = .next (s1.queueError part q x 3 pr.toNat)) ∧
  (ready → bad = false → 0 < ahead → ahead ≤ size → s.ticketRoom part q = true → x.base + 128 * 2 ^ x.lsz ≤ 2 ^ 57 →
    s.read128 first rg a = (.words ws false, s1) →
    let y := { x with ci := x.ci + 1, entry := x.entry.set 5 (x.ci + 1) }
    fetch = .next (((((s1.unlist (.producer part q)).setQueue part q y).writeEntryWord part q 5 y.ci).newTicket part q a
      ws).post (.ticketFetch part q))) ∧
  (let waits := s.ticket? id = some t ∧ t.state = .waiting ∧ t.status = 0
   let xq := (s.queue? t.part t.queue).getD noQueue
   (waits → t.joined = true ∨ dword t.words 2 = 0 → exec (.ticketReady id) s = .next (s.joined id t)) ∧
   (waits → t.joined = false → dword t.words 2 ≠ 0 → s.isListed (.join id) = true →
     (s.lastReport (.join id) = some (pr, true) → exec (.ticketReady id) s = .next (s.endTicket id t tkPoisoned)) ∧
     (s.lastReport (.join id) = some (pr, false) → outOfRange pr (t.words.getD 3 0) = true →
       exec (.ticketReady id) s = .next (s.endTicket id t tkRange)) ∧
     (s.lastReport (.join id) = some (pr, false) → outOfRange pr (t.words.getD 3 0) = false →
       satisfied pr (t.words.getD 3 0) = true → exec (.ticketReady id) s = .next (s.joined id t)) ∧
     (s.lastReport (.join id) = some (pr, false) → outOfRange pr (t.words.getD 3 0) = false →
       satisfied pr (t.words.getD 3 0) = false → exec (.ticketReady id) s = .next s)) ∧
   (∀ loc va, waits → t.joined = false → dword t.words 2 ≠ 0 → s.isListed (.join id) = false →
     s.nameIn (s.firstSlice t.part) (xq.regime t.part) (t.words.getD 2 0) = .to loc va → exec (.ticketReady id) s =
       .next (s.addWaiter (.join id) loc va (xq.regime t.part).flowVf t.part (t.words.getD 3 0)))) ∧
  (s.ticket? id = some t → t.over = false → exec (.ticketComplete id) s = .next s) ∧
  (s.ticket? id = some t → t.over = true → s.finishAgain t ≠ [] →
    exec (.ticketComplete id) s = .next (s.tryAgain (s.finishAgain t) (.ticketComplete id))) ∧
  (s.ticket? id = some t → t.over = true → s.finishAgain t = [] →
    ∃ s', exec (.ticketComplete id) s = .next s' ∧ s' = s.finish id t ∧ sfind id s'.pkg.tickets = none) ∧
  (s.partOf slice = none → exec (.placement slice) s = .next s) ∧
  (s.partOf slice = some part → sfind part s.pkg.parts = some p → s.quiesced part = false →
    let u := s.keepShares slice part
    let again := if u.awaits slice part then u.laterOnce (.placement slice) else u
    let cs := u.cands slice part
    let p1 := p.gain slice (toKeys (cs.map fun c => procKey c.vf c.proc))
    (p1.choose slice cs = none → exec (.placement slice) s = .next (again.setPart part p1)) ∧
    (∀ c, p1.choose slice cs = some c →
      exec (.placement slice) s = .next ((again.setPart part (p1.served slice c)).place c))) ∧
  (s.tick % 4 ≠ 0 → exec .calendarSlotStart s = .next s) ∧
  (s.tick % 4 = 0 → (s.tick + 4, Ev.calendarSlotStart) ∉ s.timers → ∃ s', exec .calendarSlotStart s = .next s' ∧
    s'.pkg.delivered = [] ∧ s'.homes = s.homes ∧ (s.tick + 4, Ev.calendarSlotStart) ∈ s'.timers) ∧
  (s.tick % 4096 ≠ 0 → exec .calendarPeriodStart s = .next s) ∧
  (s.tick % 4096 = 0 → (s.tick + 4096, Ev.calendarPeriodStart) ∉ s.timers → exec .calendarPeriodStart s =
    .next (((s.pkg.parts.map (·.1)).foldl State.startPeriod s).at (s.tick + 4096) .calendarPeriodStart)) ∧
  (sfind part s.pkg.parts = some p → ∃ s' p', exec (.roundStart part) s = .next s' ∧ sfind part s'.pkg.parts = some p' ∧
    p'.round = (s.reg first 0 0xC8).toNat % 256 ∧
    (∀ v < 32, sget 0 v p'.tu = sat32 (min (sget 0 v p.tu) 0 + (((s.reg first 0 (0xE0 + v)).toNat / 2 ^ 48 : Nat) : Int))) ∧
    (∀ v < 32, sget 0 v p'.eu =
      sat32 (min (sget 0 v p.eu) 0 + (((s.reg first 0 (0xE0 + v)).toNat / 2 ^ 24 % 2 ^ 24 : Nat) : Int))))

/-- O54 (R348 to R350, R389, R392, R395 to R397). Snapshots: START arms where the bands suit, the cut is fixed once every
block is saved, the copy begins at it, and COMPLETE and ABORT return to IDLE. A troupe that faulted is saved once nothing of
it is on its way; a slice delivers one ring entry in a slot; a saved troupe is restored once its turnstile says so, by its
action word as it is read then. -/
def Obligations.SnapshotAndSaveEvents : Prop :=
  ∀ (s : State) (slice part req core slot sid num : Nat) (val : W64) (p : Partition) (t : Troupe) (b : Block) (x : Saved)
    (r : BitVec 256) (toVf : Bool) (e : RingEntry) (v : RingView),
  let w := val.toNat
  let k : TKey := ⟨core, slot⟩
  let known := s.partOf slice = some part ∧ sfind part s.pkg.parts = some p
  let arming := sfind part s.pkg.parts = some p ∧ p.snap.state = .arming
  (known → p.snap.state ≠ .idle → exec (.snapshotStart slice val req) s = .next (s.reply req replyBusy)) ∧
  (known → p.snap.state = .idle → s.snapOk part (w % 16) (w / 16 % 16) = false →
    exec (.snapshotStart slice val req) s = .next (s.reply req replyRefused)) ∧
  (known → p.snap.state = .idle → s.snapOk part (w % 16) (w / 16 % 16) = true → w / 2 ^ 8 % 2 = 0 →
    exec (.snapshotStart slice val req) s = .next ((((s.setPartReg part 0xC4 (BitVec.ofNat 64 (w % 2 ^ 9))).setPart part
      { p with snap := ⟨.arming, 0, [], 0⟩ }).post (.snapshotCut part)).reply req replyOk)) ∧
  (known → p.snap.state = .idle → exec (.snapshotAbort slice req) s = .next (s.reply req replyOk)) ∧
  (known → p.snap.state ≠ .idle →
    exec (.snapshotAbort slice req) s = .next ((s.endSnapshot part 1).reply req replyOk)) ∧
  (arming → p.snap.cut = 0 → s.lacksFrames part = true → exec (.snapshotCut part) s = .next (s.endSnapshot part 2)) ∧
  (arming → p.snap.cut = 0 → s.lacksFrames part = false → s.armed part = true →
    ∃ c, c % 4096 = 0 ∧ s.tick + 64 ≤ c ∧ c < s.tick + 64 + 4096 ∧ exec (.snapshotCut part) s =
      .next ((s.setPart part { p with snap := { p.snap with cut := c } }).at c (.snapshotCut part))) ∧
  (arming → p.snap.cut = 0 → s.lacksFrames part = false → s.armed part = false →
    exec (.snapshotCut part) s = .next (s.laterOnce (.snapshotCut part))) ∧
  (arming → p.snap.cut ≠ 0 → p.snap.cut ≤ s.tick → (s.todo.any fun e => !e.isCut) = true →
    exec (.snapshotCut part) s = .next (s.post (.snapshotCut part))) ∧
  (arming → p.snap.cut ≠ 0 → p.snap.cut ≤ s.tick → (s.todo.any fun e => !e.isCut) = false → exec (.snapshotCut part) s =
    .next (((s.setPart part { p with snap := { p.snap with state := .copying } }).placeAgain part).later
      (.snapshotComplete part))) ∧
  (sfind part s.pkg.parts = some p → p.snap.state = .copying → ∃ s' p', exec (.snapshotComplete part) s = .next s' ∧
    sfind part s'.pkg.parts = some p' ∧ p' = { p with snap := ⟨.idle, 0, [], 0⟩ } ∧
    (∀ sl < 16, p.smask.getLsbD sl = true → s'.reg sl 0 0xC9 = BitVec.ofNat 64 p.snap.cut)) ∧
  (sfind part s.pkg.parts = some p → p.snap.state ≠ .copying → exec (.snapshotComplete part) s = .next s) ∧
  (let faulted := s.troupe? k = some t ∧ t.susp = .pageFault r toVf ∧ s.block? t.block = some b ∧ t.halted = false
   (faulted → s.saving k.num t.block = none → s.mayBegin k.num t = true →
     exec (.contextSave core slot) s = .next (s.startSave k.num t b r toVf)) ∧
   (faulted → s.saving k.num t.block = none → s.mayBegin k.num t = false →
     exec (.contextSave core slot) s = .next (s.later (.contextSave core slot))) ∧
   (faulted → s.saving k.num t.block = some (sid, x) → x.ops.all s.opDone = true →
     exec (.contextSave core slot) s = .next (s.endSave k.num t b sid x r toVf))) ∧
  (kmem slice s.pkg.delivered = true → exec (.ringEntryDelivery slice) s = .next s) ∧
  (kmem slice s.pkg.delivered = false → s.nextEntry slice = none → exec (.ringEntryDelivery slice) s =
    .next (((s.firstEntries slice).flatMap s.ringRefused).foldl State.noteRefusal s)) ∧
  (kmem slice s.pkg.delivered = false → s.nextEntry slice = some e → s.ringView e = some v →
    ∃ s', exec (.ringEntryDelivery slice) s = .next s' ∧ kmem slice s'.pkg.delivered = true ∧
      s' = (s.writeEntry e v).setPkg { (s.writeEntry e v).pkg with
        delivered := kadd slice (s.writeEntry e v).pkg.delivered }) ∧
  (let saved := sfind sid s.pkg.saved = some x ∧ s.block? x.block = some b
   (saved → x.ready = false → x.delivered = false → exec (.troupeRestore sid) s = .next s) ∧
   (saved → x.ready = false → x.delivered = true → s.resumeTest sid x = none →
     exec (.troupeRestore sid) s = .next (s.withdrawResume sid)) ∧
   (saved → x.ready = false → x.delivered = true → s.resumeTest sid x = some false →
     exec (.troupeRestore sid) s = .next s) ∧
   (saved → x.ready = false → x.delivered = true → s.resumeTest sid x = some true →
     (∀ ls, s.actionWord x = .wait ls → exec (.troupeRestore sid) s = .next (s.tryAgain ls (.troupeRestore sid))) ∧
     (s.actionWord x = .fails → exec (.troupeRestore sid) s = .next (s.withdrawResume sid)) ∧
     (∀ w c, s.actionWord x = .action w → x.kind = .fault c false → exec (.troupeRestore sid) s =
       .next (((s.withdrawResume sid).putSaved sid { x with action := w, ready := true }).placeAgain x.part))) ∧
   (saved → x.ready = true → x.kind = .doubleTrap → s.inSlot x = some (num, t) →
     let s1 := s.setPkg { s.pkg with saved := sdel sid s.pkg.saved }
     exec (.troupeRestore sid) s = .next (if x.action = 1 then s1.restartTrap num t b else s1.terminate num t b)) ∧
   (∀ c, saved → x.ready = true → x.kind = .fault c false → x.placed = true →
     exec (.troupeRestore sid) s = .next (s.restoreTroupe sid x b)))

/-! Virtual functions, migration, and the commands of a partition's mailbox. -/

/-- O55 (R357 to R359). VF reset: the value is checked, RESETTING takes the VF's queues, work, translations, waits, flows
and anchors, and once nothing of the VF is on its way it is OFF and the turnstile of VFRST advances. Migration: START asks
what it must of the ranges, each pass copies the marked lines, the cutover hands the homes' state over, END and ABORT. -/
def Obligations.ResetAndMigrationEvents : Prop :=
  ∀ (s : State) (slice part vf chan req a b d : Nat) (val : W64),
  let v := val.toNat
  let go := v / 2 ^ 63 % 2 = 1
  let fields := v / 2 ^ 52 % 2 ^ 11 = 0 ∧ v % 8 = 0
  let refused := s.reply req replyRefused
  let kept := (s.setPartReg part (regVfrst vf) (BitVec.ofNat 64 (v % 2 ^ 52))).reply req replyOk
  let m := s.mig slice chan
  let size := 4096 * (v / 2 ^ 8 % 16 + 1)
  let started := s.granuleTo part (s.reg slice 0 (migReg chan 0)).toNat size = some a ∧
    s.granuleTo part (s.reg slice 0 (migReg chan 1)).toNat size = some b
  (s.partOf slice = some part → ¬ fields → exec (.vfReset slice vf val req) s = .next refused) ∧
  (s.partOf slice = some part → fields → go → s.vfState part vf = 2 →
    exec (.vfReset slice vf val req) s = .next (s.reply req replyBusy)) ∧
  (s.partOf slice = some part → fields → ¬ go → exec (.vfReset slice vf val req) s = .next kept) ∧
  (s.partOf slice = some part → fields → go → s.vfState part vf ≠ 2 →
    let s1 := (kept.setVfcfg part vf (vfValue (kept.vfcfg part vf).toNat 2) 0 0).dropVf part vf
    exec (.vfReset slice vf val req) s = .next (((((s1.dropVfTlb part vf).endVfWaits part vf).resetFlows part vf).dropAbroad
      part vf).later (.vfResetComplete part vf))) ∧
  (s.vfState part vf ≠ 2 → exec (.vfResetComplete part vf) s = .next s) ∧
  (s.vfState part vf = 2 → s.vfBusy part vf = true →
    exec (.vfResetComplete part vf) s = .next (s.laterOnce (.vfResetComplete part vf))) ∧
  (s.vfState part vf = 2 → s.vfBusy part vf = false →
    let s1 := s.setVfcfg part vf (vfValue (s.vfcfg part vf).toNat 0) 0 0
    s1.ppaMem part (s1.reg (s1.firstSlice part) 0 (regVfrst vf)).toNat = some d →
    exec (.vfResetComplete part vf) s = .next (s1.addAfter (s1.firstSlice part) part 32 (.home d) none 1 s1.tick [])) ∧
  (s.partOf slice = some part → m.state ≠ .idle →
    exec (.migStart slice chan val req) s = .next (s.reply req replyBusy)) ∧
  (s.partOf slice = some part → m.state = .idle → started → s.snapCopies part a = true ∨ s.snapCopies part b = true →
    exec (.migStart slice chan val req) s = .next (s.reply req replyBusy)) ∧
  (s.partOf slice = some part → m.state = .idle → started → s.snapCopies part a = false → s.snapCopies part b = false →
    let bad := dpaSlice a ≠ slice ∨ meet a size b size = true ∨ s.migBusyAt a size = true ∨ s.migBusyAt b size = true
    (bad → exec (.migStart slice chan val req) s = .next refused) ∧
    (¬ bad → exec (.migStart slice chan val req) s =
      .next ((((s.setReg slice 0 (migReg chan 3) (BitVec.ofNat 64 (v / 2 ^ 8 % 16 * 256))).setMig slice chan
        ⟨.copy, a, b, size, migLines a size, 0, part⟩).laterOnce (.migrationPass slice chan)).reply req replyOk))) ∧
  (s.partOf slice = some part → m.state = .idle →
    s.granuleTo part (s.reg slice 0 (migReg chan 0)).toNat size = none →
    exec (.migStart slice chan val req) s = .next refused) ∧
  (exec (.migEnd slice chan req) s = .next (match m.state with
    | .idle => s.reply req replyOk
    | .frozen => (s.setMig slice chan Migration.idle).reply req replyOk
    | _ => s.reply req replyBusy)) ∧
  (exec (.migAbort slice chan req) s = .next (match m.state with
    | .idle => s.reply req replyOk
    | .copy | .freezing => (s.setMig slice chan Migration.idle).reply req replyOk
    | .frozen => s.reply req replyBusy)) ∧
  (m.state = .copy → m.marked = [] ∨ 8 ≤ m.passes → exec (.migrationPass slice chan) s =
    .next ((s.setMig slice chan { m with state := .freezing }).post (.migrationPass slice chan))) ∧
  (m.state = .copy → m.marked ≠ [] → m.passes < 8 → exec (.migrationPass slice chan) s =
    .next ((m.marked.foldl (fun u l => u.migLine m l) (s.setMig slice chan
      { m with marked := [], passes := m.passes + 1 })).later (.migrationPass slice chan))) ∧
  (m.state = .freezing → s.migWaits m = true →
    exec (.migrationPass slice chan) s = .next (s.later (.migrationPass slice chan))) ∧
  (m.state = .freezing → s.migWaits m = false →
    let s2 := ((m.marked.foldl (fun u l => u.migLine m l) s).handOver m).setMig slice chan
      { m with marked := [], state := .frozen }
    s2.ppaMem m.part (s2.reg slice 0 (migReg chan 2)).toNat = some d →
    exec (.migrationPass slice chan) s = .next (s2.addAfter slice m.part 32 (.home d) none 1 s2.tick [])) ∧
  (m.state = .idle ∨ m.state = .frozen → exec (.migrationPass slice chan) s = .next s)

/-- O56 (R333, R334, R361, R362, R408, R417). The commands of the mailbox: a slice joins where it is adjacent, free and its
harts' addresses lie in a band, and starts them once the boot block is written; a slice leaves where nothing is left in it
and the rest hangs together; a band is set beside the others or cleared; a report is signed. Each answers OK or REFUSED in
MAILBOX, which is free again. -/
def Obligations.MailboxEvents : Prop :=
  ∀ (s : State) (part sl i d : Nat) (p : Partition) (x y : W64),
  let known := sfind part s.pkg.parts = some p
  let refused := s.mailDone part 2 [] 0
  let a0 := (s.mailArg part 0).toNat
  let a1 := (s.mailArg part 1).toNat
  (known → p.mailbox = some (1, sl) → p.mailOps = [] → s.mayAdd part sl = false → exec (.addslice part) s = .next refused) ∧
  (known → p.mailbox = some (1, sl) → p.mailOps = [] → s.mayAdd part sl = true →
    exec (.addslice part) s = .next (s.joinSlice part sl)) ∧
  (known → p.mailbox = some (1, sl) → p.mailOps ≠ [] → p.mailOps.all s.opDone = false →
    exec (.addslice part) s = .next (s.later (.addslice part))) ∧
  (known → p.mailbox = some (1, sl) → p.mailOps ≠ [] → p.mailOps.all s.opDone = true → exec (.addslice part) s =
    .next ((s.startHarts sl a0 a1).mailDone part 1 p.mailOps (s.latestP p.mailOps))) ∧
  (known → p.mailbox = some (2, sl) → s.mayRemove part sl = false → exec (.remslice part) s = .next refused) ∧
  (known → p.mailbox = some (2, sl) → s.mayRemove part sl = true → exec (.remslice part) s =
    .next ((((s.modPart part fun p => { p with smask := p.smask &&& ~~~(bitM 16 sl) }).clearSlice sl).tmapAdvance
      part).mailDone part 1 [] s.tick)) ∧
  (known → p.mailbox = some (3, i) → s.bandAt part i ≠ none → exec (.setband part) s = .next refused) ∧
  (known → p.mailbox = some (3, i) → s.bandAt part i = none →
    (newBand (s.smask part) (s.bands part) (s.mailArg part 0) (s.mailArg part 1) = none →
      exec (.setband part) s = .next refused) ∧
    (newBand (s.smask part) (s.bands part) (s.mailArg part 0) (s.mailArg part 1) = some (x, y) →
      exec (.setband part) s = .next (((s.setPartReg part (0x50 + 2 * i) x).setPartReg part (0x51 + 2 * i) y).mailDone part 1
        [] s.tick))) ∧
  (known → p.mailbox = some (4, i) → s.bandAt part i = none → exec (.clrband part) s = .next refused) ∧
  (known → p.mailbox = some (4, i) → s.bandAt part i ≠ none → exec (.clrband part) s = .next ((s.setPartReg part
    (0x50 + 2 * i) (s.reg (s.firstSlice part) 0 (0x50 + 2 * i) &&& ~~~1)).mailDone part 1 [] s.tick)) ∧
  (known → p.mailbox = some (5, i) → a0 % 1024 ≠ 0 ∨ s.ppaMem part a0 = none → exec (.attest part) s = .next refused) ∧
  (known → p.mailbox = some (5, i) → a0 % 1024 = 0 → s.ppaMem part a0 = some d →
    let body := reportBody s part p (memBytes s.homes.mem d 64)
    let w := s.grcWrite part d (words64 128 (body ++ leBytes 512 (Config.reportSignature body).toNat))
    exec (.attest part) s = .next (w.2.mailDone part 1 [w.1] 0)) ∧
  (known → ∀ (r : Nat) (ops : List Nat) (nb : Nat), ∃ p', sfind part (s.mailDone part r ops nb).pkg.parts = some p' ∧
    p'.mailbox = none)

/-! Errors, retirement, power, boot, and monitors. -/

/-- O57 (R68, R185, R201, R305 to R309, R398, R414). An uncorrectable error poisons or drops what it is found in, and its
unit is tested; an error found during a test, or again within 1 ms, makes the fault lasting; the test's end is recorded as
transient, or the unit is retired; and a lost slice is retired once. -/
def Obligations.ErrorEvents : Prop :=
  ∀ (s : State) (core slot reg line slice index : Nat) (lanes : LaneMask) (vf : Option Nat) (t : Troupe) (unit : UnitCode)
    (lasting bad : Bool) (r : Retired) (u : UnitTest) (old : Option (Nat × Nat)) (l : L1Line) (k : Nat) (x : L2Line) (a : ErrorAt),
  let key := unitKey slice unit.val index
  let where_ := s.errorUnit a
  (where_.1 < 16 → exec (.uncorrectableError a vf) s =
    .next ((s.errorAt a).startTest where_.1 where_.2.1 where_.2.2.1 where_.2.2.2 vf false)) ∧
  (16 ≤ where_.1 → exec (.uncorrectableError a vf) s = .next s) ∧
  (core < 128 → slot < 32 → reg < 256 → s.troupe? ⟨core, slot⟩ = some t → ∃ s' t',
    exec (.uncorrectableError (.register core slot reg lanes) vf) s = .next s' ∧ s'.troupe? ⟨core, slot⟩ = some t' ∧
    (∀ i < 64, laneBit t'.lane.poison reg i = (laneBit t.lane.poison reg i || lanes.getLsbD i)) ∧
    (∀ q < 256, q ≠ reg → ∀ i < 64, laneBit t'.lane.poison q i = laneBit t.lane.poison q i) ∧ t'.lane.v = t.lane.v ∧
    s'.homes.mem = s.homes.mem) ∧
  ((s.core core).l1Find line = some (k, l) → l.isPinned = false →
    s.errorAt (.l1Line core line) = s.setCore core { s.core core with l1 := sdel k (s.core core).l1 }) ∧
  (sfind line s.homes.l2 = some x → x.dirty = true → kmem line (s.errorAt (.l2Line line bad)).homes.linePoison = true) ∧
  (kmem line (s.errorAt (.memLine line bad)).homes.linePoison = true) ∧
  (sget 0 line (s.errorAt (.leaseTable line)).homes.lease = s.tick + 8192) ∧
  (s.unitRetired slice unit.val index = false →
    (sfind key s.homes.testing = none → s.startTest slice unit.val index (some line) vf bad =
      s.setHomes { s.homes with testing := sset key ⟨s.tick, some line, vf, bad, false⟩ s.homes.testing }) ∧
    (sfind key s.homes.testing = some u → s.startTest slice unit.val index (some line) vf bad =
      s.setHomes { s.homes with testing := sset key { u with again := true } s.homes.testing })) ∧
  (let s1 := s.setHomes { s.homes with testing := sdel key s.homes.testing }
   (sfind key s.homes.testing = some u → lasting = false → u.again = false →
     exec (.unitSelfTest slice unit index lasting r) s = .next (s1.reportError slice unit.val index u transient)) ∧
   (sfind key s.homes.testing = some u → lasting = true ∨ u.again = true →
     exec (.unitSelfTest slice unit index lasting r) s = .next ((s1.reportError slice unit.val index u lastingRetired).retire slice
       (retiredOf unit.val r) u.line))) ∧
  (sfind key s.homes.testing = none → s.tick ≠ 0 → exec (.unitSelfTest slice unit index lasting r) s = .next s) ∧
  (slice < 16 → index < 256 → sfind key s.plat.errors = old → sfind key s.homes.testing = none →
    let n := (old.getD (0, 0)).1 + 1
    let s1 := s.setPlat { s.plat with errors := sset key (n, s.tick) s.plat.errors }
    ((old = none ∨ ∃ e, old = some e ∧ e.2 + 1000000 < s.tick) →
      exec (.correctableError slice unit index) s = .next s1) ∧
    (∀ e, old = some e → s.tick ≤ e.2 + 1000000 →
      exec (.correctableError slice unit index) s = .next (s1.startTest slice unit.val index none none true))) ∧
  (slice < 16 → s.plat.lost.getLsbD slice = false → ∃ s', exec (.sliceLoss slice) s = .next s' ∧
    s' = s.retireSlice slice ∧ s'.plat.flash.retired.contains (slice, Retired.slice) = true) ∧
  (s.plat.lost.getLsbD slice = true → exec (.sliceLoss slice) s = .next s)

/-- O58 (R404 to R406, R410, R412, R413). Without power nothing is kept but the flash; power brings boot with a firmware
whose signature and version are good, or leaves the module in reset; a manifest is taken where it is newer and passes its
checks; a sensor at 105 degrees trips the module; readings show in MONSTAT. That power comes in one event at tick 0, and
the partitions are built a tick later, is the model's (log entries 2 and 81). -/
def Obligations.PlatformEvents : Prop :=
  ∀ (s : State) (slice sensor vcore vmem pcode : Nat) (temps : List Nat) (m old : Manifest) (i : Firmware),
  let f := s.plat.flash
  let on := s.plat.power = true ∧ s.plat.inReset = false
  let off := s.plat.power = false
  (∃ s', exec .powerLoss s = .next s' ∧ s'.plat.flash = f ∧ s'.plat.power = false ∧ s'.homes = Homes.reset ∧
    s'.troupes = [] ∧ s'.regs = [] ∧ s'.harts = [] ∧ s'.pkg = Package.none ∧ s'.flight = Flight.none) ∧
  (on → exec .powerOn s = .next s) ∧
  (off → f.accepts f.image0 = false → f.accepts f.image1 = false → ∃ s', exec .powerOn s = .next s' ∧
    s'.plat.power = true ∧ s'.plat.inReset = true ∧ s'.plat.bootFail = [16] ∧ s'.plat.flash = f) ∧
  (off → (f.accepts f.image0 = true ∧ i = f.image0) ∨ (f.accepts f.image0 = false ∧ f.accepts f.image1 = true ∧ i = f.image1) →
    f.retired = [] → ∃ s', exec .powerOn s = .next s' ∧ s'.plat.power = true ∧ s'.plat.inReset = false ∧
      s'.plat.firmware = i.digest ∧ s'.pkg = Package.none ∧ s'.homes = Homes.reset ∧ (1, Ev.bootBuild) ∈ s'.timers) ∧
  (on → s.pkg.parts = [] → f.manifest = some m → runEv .bootBuild s = .next (if s.manifestOk m then s.build m else s)) ∧
  (f.manifest = none → runEv .bootBuild s = .next s) ∧
  (f.accepts i = true ↔ Config.signatureOk Config.fusedKey i.digest = true ∧ f.antiRollback ≤ i.version) ∧
  (off ∨ s.plat.inReset = true → exec (.manifestReceive m) s = .next s) ∧
  (on → s.manifestOk m = false → exec (.manifestReceive m) s = .next s) ∧
  (on → f.manifest = some old → m.version ≤ old.version → exec (.manifestReceive m) s = .next s) ∧
  (on → s.manifestOk m = true → (f.manifest = none ∨ ∃ y, f.manifest = some y ∧ y.version < m.version) →
    let s1 := s.setPlat { s.plat with flash := { f with manifest := some m } }
    exec (.manifestReceive m) s = .next (if s1.pkg.parts = [] then s1.build m else s1)) ∧
  (s.plat.power = true → slice < 16 → sensor < 16 → ∃ s', exec (.thermalTrip slice sensor) s = .next s' ∧
    s'.plat.power = false ∧ s'.plat.flash.log = f.log ++ [.trip slice sensor s.tick] ∧ s'.homes = Homes.reset) ∧
  (off → exec (.thermalTrip slice sensor) s = .next s) ∧
  (on → slice < 16 → (hottest (temps.take 16)).1 < 105 →
    ∃ s' w, exec (.monitorUpdate slice temps vcore vmem pcode) s = .next s' ∧ s'.reg slice 0 0x72 = BitVec.ofNat 64 w ∧
      w / 2 ^ 56 = (hottest (temps.take 16)).1 ∧ w / 2 ^ 36 % 2 ^ 16 = vcore % 2 ^ 16 ∧
      w / 2 ^ 20 % 2 ^ 16 = vmem % 2 ^ 16 ∧ w % 2 ^ 20 = pcode % 2 ^ 20 ∧
      sget 0 slice s'.plat.temps = (hottest (temps.take 16)).1 ∧ s'.homes = s.homes) ∧
  (on → slice < 16 → 105 ≤ (hottest (temps.take 16)).1 → ∃ s', exec (.monitorUpdate slice temps vcore vmem pcode) s = .next s' ∧
    s'.plat.power = false ∧ s'.plat.flash.log = f.log ++ [.trip slice (hottest (temps.take 16)).2 s.tick]) ∧
  (off → exec (.monitorUpdate slice temps vcore vmem pcode) s = .next s)

/-! The fabric, messages, links, and other modules. -/

/-- O59 (R424, R425, R427, R428, R431 to R437, R440, R448, R449, R453). A packet takes its hop where the link may carry it,
is turned round where the link is DOWN, waits where it is under test, and leaves by an exit hop of its NI; a packet of the
calendar waits for a slot of its owner; a message in its turn is delivered, an early one waits and a late one is returned;
transfers that fail three times, or 16 times in 100 µs, put a link under test; training and the test's end set a link's
state; after an advance of the map the NIs take its mask. -/
def Obligations.FabricEvents : Prop :=
  ∀ (s : State) (id mid part slice link cur pkt i n k : Nat) (p : Packet) (m : Message) (q : Sequence) (s1 : State)
    (words : List W64) (eth lower upper again : Bool) (x : Partition) (peer : PeerLink) (st : W64) (d : Place × Nat),
  let there := s.packet? id = some p
  let quiet := p.held = false ∧ p.returning = false ∧ p.words.isEmpty = false
  let inside := ∀ sl l, p.place ≠ .outside sl l
  let sel := selector p.word p.hop
  let y := if sel = 31 then (s.fab.chooseUp p.place).map fun j => 16 + j else some sel
  let e := sget LinkErr.none link s.fab.links
  (s.packet? id = none → exec (.switchForward id) s = .next s) ∧
  (there → inside → p.held = true → exec (.switchForward id) s = .next s) ∧
  (there → quiet → inside → p.load = .msg mid → p.cls = .gtd → p.slotNo = 0 → s.gtdMay p = false →
    exec (.switchForward id) s = .next s) ∧
  (there → quiet → inside → p.load = .transit pkt → p.cls ≠ .gtd → p.place.isLeaf = false → p.hop < hopCount p.word →
    (y = none → exec (.switchForward id) s = .next (s.turnRound id p)) ∧
    (y = some k → portTo p.place k = some d →
      (s.fab.testing d.2 = true → exec (.switchForward id) s = .next (s.later (.switchForward id))) ∧
      (s.fab.testing d.2 = false → linkOk (s.fab.linkHealth d.2) = false →
        exec (.switchForward id) s = .next (s.turnRound id p)) ∧
      (s.fab.testing d.2 = false → linkOk (s.fab.linkHealth d.2) = true →
        exec (.switchForward id) s = .next (s.hopTo id p k d.1 d.2)))) ∧
  (there → quiet → p.load = .transit pkt → p.cls ≠ .gtd → p.place = .leaf i → p.hop < hopCount p.word → sel < 4 →
    s.fab.testing (externalLink (i / 8) sel) = false → linkOk (s.fab.linkHealth (externalLink (i / 8) sel)) = true →
    exec (.switchForward id) s = .next ((s.delPacket id).out (.through (i / 8) sel pkt))) ∧
  (words.length ≤ cur → exec (.transitCheck slice words cur eth pkt) s = .next s) ∧
  (cur < words.length →
    let check := routePath (fun x => linkOk (s.fab.linkHealth x)) (words.getD cur 0) cur words.length eth (8 * slice + 7)
    ((∃ a b, check = .bad a b) → exec (.transitCheck slice words cur eth pkt) s = .next (s.out (.turned pkt))) ∧
    ((∀ a b, check ≠ .bad a b) →
      let w := s.newPacket ⟨.req, .req, words, cur, 0, words.map fun _ => (0 : W64), .leaf (8 * slice + 7), 0,
        .transit pkt, 8 * slice + 7, 8 * slice + 7, 0, 32, 0, 0, false, false⟩
      exec (.transitCheck slice words cur eth pkt) s = .next (w.2.later (.switchForward w.1)))) ∧
  (let come := there ∧ p.load = .msg mid ∧ s.msg? mid = some m ∧ p.returning = false ∧ p.place = .leaf p.dstLeaf ∧
     s.seqOf m.core m.module m.dstSlice m.ring = (i, q, s1)
   let k := (m.seq + 2 ^ 16 - q.expected) % 2 ^ 16
   (come → 2 ^ 15 ≤ k → exec (.messageDelivery id) s = .next ((s1.delPacket id).answerMsg mid msReturned)) ∧
   (come → 0 < k → k < 2 ^ 15 → (∀ w ∈ q.waiting, w.2.2 ≠ id) → exec (.messageDelivery id) s =
     .next ((s1.putSeq i { q with waiting := q.waiting ++ [(m.seq, s.tick, id)] }).at (s.tick + 4096) (.sequenceSkip i))) ∧
   (come → k = 0 → q.waiting = [] →
     let w := s1.deliverMsg mid (p.dstLeaf / 8) m
     (w.1 = true → exec (.messageDelivery id) s = .next (w.2.later (.messageDelivery id))) ∧
     (w.1 = false → exec (.messageDelivery id) s =
       .next ((w.2.delPacket id).putSeq i { q with expected := (q.expected + 1) % 2 ^ 16, waiting := [] })))) ∧
  (s.msg? mid = some m → m.status = some st →
    let s2 := (s.modTroupe (keyOf m.troupe) fun t => t.putS m.d st m.poison).delMsg mid
    s2.seqOf m.core m.module m.dstSlice m.ring = (i, q, s1) →
    let s3 := s1.putSeq i { q with unanswered := q.unanswered - 1 }
    (s3.nextUnsent q = none → exec (.messageStatusReply mid) s = .next s3) ∧
    (s3.nextUnsent q = some n → exec (.messageStatusReply mid) s = .next (s3.sendMsg n))) ∧
  (s.fab.seqs[n]? = some q → (∀ w ∈ q.waiting, s.tick < w.2.1 + 4096) → exec (.sequenceSkip n) s = .next s) ∧
  (∀ w, s.fab.seqs[n]? = some q → q.waiting = [w] → w.2.1 + 4096 ≤ s.tick → s.arrived q q.expected = false →
    exec (.sequenceSkip n) s = .next ((s.putSeq n { q with expected := w.1, waiting := [] }).post (.messageDelivery w.2.2))) ∧
  (link < 832 → e.testing = false → linkOk (s.fab.linkHealth link) = true →
    let fails := if again then e.fails + 1 else 1
    let replays := (e.replays.filter fun t => decide (s.tick < t + 100000)) ++ [s.tick]
    exec (.linkTransferFail link again) s = .next (s.setFab { s.fab with
      links := sset link ⟨fails, replays, decide (3 ≤ fails ∨ 16 ≤ replays.length)⟩ s.fab.links })) ∧
  (e.testing = false → exec (.linkLaneTest link lower upper) s = .next s) ∧
  (e.testing = true →
    let s2 := s.setFab { s.fab with links := sset link LinkErr.none s.fab.links }
    exec (.linkLaneTest link lower upper) s = .next (s2.setLink link (if lower then (if upper then s.fab.linkHealth link else 1)
      else (if upper then 5 else 2)))) ∧
  (slice < 16 → link < 4 → ∃ s', exec (.linkTraining slice link (some peer)) s = .next s' ∧
    sget 0 (4 * slice + link) s'.fab.peers = BitVec.ofNat 64 (2 ^ 63 + peer.module % 1024 * 2 ^ 53 + peer.slice % 16 * 2 ^ 49 +
      peer.link % 4 * 2 ^ 47) ∧ s'.fab.linkHealth (externalLink slice link) = 0) ∧
  (slice < 16 → link < 4 → ∃ s', exec (.linkTraining slice link none) s = .next s' ∧
    sget 0 (4 * slice + link) s'.fab.peers = 0 ∧ s'.fab.linkHealth (externalLink slice link) = 3) ∧
  (slice < 16 → link < 4 → s.fab.linkHealth (externalLink slice link) ≠ 3 → ∃ s',
    exec (.peerStopsAnswering slice link) s = .next s' ∧ s'.fab.linkHealth (externalLink slice link) = 2) ∧
  (∀ v, sfind part s.pkg.parts = some x → s.ppaMem part (s.reg (s.firstSlice part) 0 0xCB).toNat = some v →
    (s.addPending (.home v) = true → exec (.niMaskRefresh part) s = .next (s.laterOnce (.niMaskRefresh part))) ∧
    (s.addPending (.home v) = false → exec (.niMaskRefresh part) s =
      .next (((s.setPart part { x with health := s.viewOf x }).recheck part).tmapGo part))) ∧
  (there → p.returning = true → p.hop = 0 → p.load = .transit pkt →
    exec (.packetReturn id) s = .next ((s.delPacket id).out (.turned pkt))) ∧
  (there → p.returning = true → p.hop = 0 → p.load = .msg mid → p.flow = 0 →
    exec (.packetReturn id) s = .next ((s.delPacket id).answerMsg mid msReturned)) ∧
  (there → p.returning = false → inside → exec (.packetReturn id) s = .next s)

/-- O60 (R323, R436, R444 to R447, R450). Other modules: a number of a flow is performed once, a duplicate is acknowledged
again, an older epoch and a number too far ahead are dropped; a request that no export admits is refused; FLOW_RESET
empties the receive state and is acknowledged; at the source an acknowledgement ends its packet, which is otherwise sent
again after 16 µs, eight times; whole Ethernet frames enter the ring of ETHCFG. -/
def Obligations.PeerEvents : Prop :=
  ∀ (s : State) (smod flow epoch seq : Nat) (m : PeerMsg) (r : RxFlow) (f : Flow) (c : FlowCopy) (data : List Byte) (poison : Bool)
    (fr : EthFrame),
  (∀ (x : RxFlow) (a b : Nat), olderEpoch a x.epoch = true → x.receive a b = .drop) ∧
  (∀ (x y : RxFlow) (a b : Nat), x.expected < 2 ^ 32 → b < 2 ^ 32 → x.receive a b = .perform y →
    y.receive a b = .duplicate) ∧
  (∀ (x : RxFlow) (b : Nat), x.window = [] → b = x.expected → ∃ y, x.receive x.epoch b = .perform y ∧
    y.expected = (b + 1) % 2 ^ 32) ∧
  ((s.rxOf m).receive m.epoch m.seq = .drop → exec (.peerRequest m) s = .next s) ∧
  ((s.rxOf m).receive m.epoch m.seq = .duplicate → exec (.peerRequest m) s = .next (s.reAck m)) ∧
  ((s.rxOf m).receive m.epoch m.seq = .perform r → exec (.peerRequest m) s = .next ((s.putRx m r).admitPeer m)) ∧
  (s.partOf m.slice = none → s.admitPeer m = s.refusePeer m) ∧
  (∃ s', exec (.flowReset smod flow epoch) s = .next s' ∧ s'.fab.outbox = s.fab.outbox ++ [.resetAck smod flow epoch] ∧
    s'.homes = s.homes ∧ (∀ x ∈ s'.fab.rxFlows, x.smod = smod → x.flow = flow →
      olderEpoch epoch x.epoch = true ∨ (x.epoch = epoch ∧ x.expected = 0 ∧ x.window = []))) ∧
  (s.flow? flow = some f → exec (.flowResetAck flow) s = .next (s.setFlow flow { f with resetSent := false })) ∧
  (s.flow? flow = none → exec (.flowResetAck flow) s = .next s) ∧
  (s.copy? flow seq = some c → exec (.flowAck flow seq data poison) s =
    .next ((s.dropCopy flow seq).endLoad c.pkt.load data poison (data.headD 0).toNat)) ∧
  (s.copy? flow seq = none → exec (.flowAck flow seq data poison) s = .next s) ∧
  (s.flow? flow = some f → s.copy? flow seq = some c → s.tick < c.due → exec (.flowResendTimeout flow seq) s = .next s) ∧
  (s.flow? flow = some f → s.copy? flow seq = some c → c.due ≤ s.tick → 8 ≤ c.sends → s.losesWrite c.pkt.load = false →
    exec (.flowResendTimeout flow seq) s = .next ((s.dropCopy flow seq).endLoad c.pkt.load [] true msTimeout)) ∧
  (s.flow? flow = some f → s.copy? flow seq = some c → c.due ≤ s.tick → c.sends < 8 → s.fab.packets = [] →
    let s1 := (s.setFlow flow { f with copies := sset seq { c with sends := c.sends + 1, due := s.tick + 16000 } f.copies }).at
      (s.tick + 16000) (.flowResendTimeout flow seq)
    exec (.flowResendTimeout flow seq) s = .next ((s1.newPacket c.pkt).2.later (.switchForward (s1.newPacket c.pkt).1))) ∧
  ((s.reg fr.slice 0 0xD0).toNat % 2 = 0 → exec (.ethFrameReceive fr) s = .next s) ∧
  ((s.reg fr.slice 0 0xD0).toNat % 2 = 1 → fr.device = none → s.partOf fr.slice = none →
    exec (.ethFrameReceive fr) s = .next s) ∧
  (∀ part i q s1, (s.reg fr.slice 0 0xD0).toNat % 2 = 1 → fr.device = none → s.partOf fr.slice = some part →
    s.seqOf 127 s.plat.module fr.slice ((s.reg fr.slice 0 0xD0).toNat / 2 ^ 36 % 2 ^ 12) = (i, q, s1) →
    ∃ (s' : State) (k mid : Nat) (p : Packet) (x : Message), exec (.ethFrameReceive fr) s = .next s' ∧
      s'.packet? k = some p ∧ p.load = .msg mid ∧ s'.msg? mid = some x ∧ x.bytes = fr.bytes ∧ x.core = 127 ∧ x.seq = q.nextNo ∧
      x.ring = (s.reg fr.slice 0 0xD0).toNat / 2 ^ 36 % 2 ^ 12 ∧ Ev.messageDelivery k ∈ s'.todo) ∧
  (∀ u core vf ring no bs bp, (s.reg fr.slice 0 0xD0).toNat % 2 = 1 → fr.device = some u →
    u.ask = .msg core vf ring no bs bp → exec (.ethFrameReceive fr) s = exec (.peerRequest { u with slice := fr.slice }) s)
end

