-- ==== Sys2Proof/Laws/Sparse.lean ====
section
/-! SUPPORT. The laws of tables in rising key order: read after write, and that writing keeps the order. -/

namespace Sys2Proof.Machine

variable {V : Type}

/-- Every key of a table lies above a bound. -/
def keysAbove (k : Nat) (l : Sparse V) : Prop := ∀ e ∈ l, k < e.1

theorem sorted_cons (j : Nat) (v : V) (l : Sparse V) : sorted ((j, v) :: l) = true ↔ keysAbove j l ∧ sorted l = true := by
  induction l generalizing j v with
  | nil => simp [sorted, keysAbove]
  | cons e t ih =>
    obtain ⟨k, w⟩ := e
    have h := ih k w
    simp only [sorted, keysAbove, List.mem_cons, Bool.and_eq_true, decide_eq_true_eq, forall_eq_or_imp] at *
    constructor
    · rintro ⟨h1, h2⟩
      exact ⟨⟨h1, fun a ha => Nat.lt_trans h1 ((h.mp h2).1 a ha)⟩, h2⟩
    · rintro ⟨⟨h1, -⟩, h2⟩
      exact ⟨h1, h2⟩

theorem keysAbove_mono {j k : Nat} {l : Sparse V} (h : j ≤ k) (a : keysAbove k l) : keysAbove j l :=
  fun e he => Nat.lt_of_le_of_lt h (a e he)

theorem mem_sset {k : Nat} {v : V} {l : Sparse V} {e : Nat × V} (h : e ∈ sset k v l) : e = (k, v) ∨ e ∈ l := by
  induction l with
  | nil => simp [sset] at h; exact .inl h
  | cons a t ih =>
    simp only [sset] at h
    split at h
    · simpa using h
    · split at h
      · rcases List.mem_cons.mp h with h | h
        · exact .inl h
        · exact .inr (by simp [h])
      · rcases List.mem_cons.mp h with h | h
        · exact .inr (by simp [h])
        · rcases ih h with h | h
          · exact .inl h
          · exact .inr (by simp [h])

theorem mem_sdel {k : Nat} {l : Sparse V} {e : Nat × V} (h : e ∈ sdel k l) : e ∈ l := (List.mem_filter.mp h).1

theorem sorted_sset {k : Nat} {v : V} {l : Sparse V} (h : sorted l = true) : sorted (sset k v l) = true := by
  induction l with
  | nil => rfl
  | cons a t ih =>
    obtain ⟨j, w⟩ := a
    have hs := (sorted_cons j w t).mp h
    simp only [sset]
    split
    · rename_i hk
      refine (sorted_cons _ _ _).mpr ⟨?_, h⟩
      intro e he
      rcases List.mem_cons.mp he with rfl | he
      · exact hk
      · exact Nat.lt_trans hk (hs.1 e he)
    · split
      · rename_i hj
        exact (sorted_cons _ _ _).mpr ⟨hj ▸ hs.1, hs.2⟩
      · refine (sorted_cons _ _ _).mpr ⟨?_, ih hs.2⟩
        intro e he
        rcases mem_sset he with rfl | he
        · show j < k; omega
        · exact hs.1 e he

theorem sorted_filter (p : Nat × V → Bool) {l : Sparse V} (h : sorted l = true) : sorted (l.filter p) = true := by
  induction l with
  | nil => rfl
  | cons a t ih =>
    obtain ⟨j, w⟩ := a
    have hs := (sorted_cons j w t).mp h
    simp only [List.filter_cons]
    split
    · exact (sorted_cons _ _ _).mpr ⟨fun e he => hs.1 e (List.mem_filter.mp he).1, ih hs.2⟩
    · exact ih hs.2

theorem sorted_sdel {k : Nat} {l : Sparse V} (h : sorted l = true) : sorted (sdel k l) = true := sorted_filter _ h

@[simp] theorem sfind_sset_self (k : Nat) (v : V) (l : Sparse V) : sfind k (sset k v l) = some v := by
  induction l with
  | nil => simp [sset, sfind]
  | cons a t ih =>
    obtain ⟨j, w⟩ := a
    simp only [sset]
    split
    · simp [sfind]
    · split
      · simp [sfind]
      · rename_i h2
        simp only [sfind, h2, if_false, ih]

theorem sfind_sset_ne {j k : Nat} (v : V) (l : Sparse V) (h : j ≠ k) : sfind j (sset k v l) = sfind j l := by
  induction l with
  | nil => simp [sset, sfind, Ne.symm h]
  | cons a t ih =>
    obtain ⟨i, w⟩ := a
    simp only [sset]
    split
    · simp only [sfind, Ne.symm h, if_false]
    · split
      · rename_i hik
        subst hik
        simp [sfind, Ne.symm h]
      · simp only [sfind, ih]

@[simp] theorem sfind_sdel_self (k : Nat) (l : Sparse V) : sfind k (sdel k l) = none := by
  induction l with
  | nil => rfl
  | cons a t ih =>
    obtain ⟨j, w⟩ := a
    simp only [sdel, List.filter_cons] at ih ⊢
    split
    · rename_i hj
      simp only [decide_eq_true_eq] at hj
      simpa only [sfind, hj, if_false] using ih
    · exact ih

theorem sfind_sdel_ne {j k : Nat} (l : Sparse V) (h : j ≠ k) : sfind j (sdel k l) = sfind j l := by
  induction l with
  | nil => rfl
  | cons a t ih =>
    obtain ⟨i, w⟩ := a
    simp only [sdel, List.filter_cons] at ih ⊢
    split
    · simp only [sfind, ih]
    · rename_i hi
      have hi : i = k := by simpa using hi
      subst hi
      simp only [sfind, Ne.symm h, if_false, ih]

section
variable [DecidableEq V]

theorem canonical_sput {d v : V} {k : Nat} {l : Sparse V} (h : canonical d l = true) : canonical d (sput d k v l) = true := by
  simp only [canonical, Bool.and_eq_true, List.all_eq_true, decide_eq_true_eq] at h ⊢
  unfold sput
  split
  · exact ⟨sorted_sdel h.1, fun e he => h.2 e (mem_sdel he)⟩
  · refine ⟨sorted_sset h.1, fun e he => ?_⟩
    rcases mem_sset he with rfl | he
    · assumption
    · exact h.2 e he

@[simp] theorem sget_sput_self (d v : V) (k : Nat) (l : Sparse V) : sget d k (sput d k v l) = v := by
  unfold sget sput
  split
  · rename_i hv
    simp [hv]
  · simp

theorem sget_sput_ne {d v : V} {j k : Nat} (l : Sparse V) (hj : j ≠ k) : sget d j (sput d k v l) = sget d j l := by
  unfold sget sput
  split
  · rw [sfind_sdel_ne l hj]
  · rw [sfind_sset_ne v l hj]

theorem sget_sput (d v : V) (j k : Nat) (l : Sparse V) : sget d j (sput d k v l) = if j = k then v else sget d j l := by
  split
  · rename_i h
    rw [h, sget_sput_self]
  · rename_i h
    exact sget_sput_ne l h

theorem sorted_sput {d v : V} {k : Nat} {l : Sparse V} (h : sorted l = true) : sorted (sput d k v l) = true := by
  unfold sput
  split
  · exact sorted_sdel h
  · exact sorted_sset h

end

theorem sorted_of_canonical [DecidableEq V] {d : V} {l : Sparse V} (h : canonical d l = true) : sorted l = true := by
  simp only [canonical, Bool.and_eq_true] at h
  exact h.1

theorem canonical_filter [DecidableEq V] {d : V} (p : Nat × V → Bool) {l : Sparse V} (h : canonical d l = true) :
    canonical d (l.filter p) = true := by
  simp only [canonical, Bool.and_eq_true, List.all_eq_true, decide_eq_true_eq] at h ⊢
  exact ⟨sorted_filter p h.1, fun e he => h.2 e (List.mem_filter.mp he).1⟩

end Sys2Proof.Machine
end

