-- ==== Sys2Proof/Laws/Regs.lean ====
section
/-! SUPPORT. What the writers of a troupe's registers do. -/

namespace Sys2Proof.Machine

/-! Bits of a mask. -/

theorem getLsbD_bitM {l j : Nat} (hj : j < 64) : (bitM 64 l).getLsbD j = decide (j = l) := by
  unfold bitM
  rw [BitVec.getLsbD_ofNat]
  simp [hj, Nat.testBit_two_pow, eq_comm]

theorem getLsbD_setLane {m : LaneMask} {l j : Nat} (b : Bool) (hj : j < 64) :
    (setLane m l b).getLsbD j = if j = l then b else m.getLsbD j := by
  unfold setLane
  cases b
  · rw [if_neg (by decide), BitVec.getLsbD_and, BitVec.getLsbD_not, getLsbD_bitM hj]
    by_cases h : j = l <;> simp only [h, hj, decide_true, decide_false, Bool.not_true, Bool.not_false, Bool.and_false,
      Bool.and_true, if_true, if_false]
  · rw [if_pos rfl, BitVec.getLsbD_or, getLsbD_bitM hj]
    by_cases h : j = l <;> simp only [h, decide_true, decide_false, Bool.or_true, Bool.or_false, if_true, if_false]

theorem laneBit_setLaneBit (m : Sparse LaneMask) (r r' l l' : Nat) (b : Bool) (hl : l' < 64) :
    laneBit (setLaneBit m r l b) r' l' = if r' = r ∧ l' = l then b else laneBit m r' l' := by
  unfold laneBit setLaneBit
  rw [sget_sput]
  by_cases hr : r' = r
  · subst hr
    simp [getLsbD_setLane b hl]
  · simp [hr]

theorem mem_lanes {m : LaneMask} {l : Nat} : l ∈ lanes m ↔ l < 64 ∧ m.getLsbD l = true := by
  simp [lanes, laneList]

/-! One register of one lane. -/

theorem vKey_inj {l l' r r' : Nat} (hr : r < 256) (hr' : r' < 256) (h : vKey l r = vKey l' r') : l = l' ∧ r = r' := by
  unfold vKey at h
  omega

theorem put_get (g : LaneRegs) (l l' r r' : Nat) (x : W32) (t p : Bool) (hr : r < 256) (hr' : r' < 256) :
    (g.put l r x t p).get l' r' = if r' = r ∧ l' = l then x else g.get l' r' := by
  unfold LaneRegs.put LaneRegs.get
  simp only
  rw [sget_sput]
  by_cases h : r' = r ∧ l' = l
  · rw [if_pos h, if_pos (by rw [h.1, h.2])]
  · rw [if_neg h, if_neg]
    intro e
    obtain ⟨a, b⟩ := vKey_inj hr' hr e
    exact h ⟨b, a⟩

/-- What one register of one lane is: its value and its three marks. -/
def LaneRegs.cell (g : LaneRegs) (l r : Nat) : W32 × Bool × Bool × Bool :=
  (g.get l r, laneBit g.empty r l, laneBit g.taint r l, laneBit g.poison r l)

theorem put_cell (g : LaneRegs) (l l' r r' : Nat) (x : W32) (t p : Bool) (hl : l' < 64) (hr : r < 256) (hr' : r' < 256) :
    (g.put l r x t p).cell l' r' = if r' = r ∧ l' = l then (x, false, t, p) else g.cell l' r' := by
  unfold LaneRegs.cell
  rw [put_get g l l' r r' x t p hr hr']
  simp only [LaneRegs.put, laneBit_setLaneBit _ _ _ _ _ _ hl]
  split <;> rfl

theorem put_preds (g : LaneRegs) (l r : Nat) (x : W32) (t p : Bool) :
    (g.put l r x t p).pred = g.pred ∧ (g.put l r x t p).predPoison = g.predPoison := ⟨rfl, rfl⟩

/-! The registers of an operand. -/

theorem zipIdx_range (n b : Nat) : ((List.range n).map fun i => b + i).zipIdx = (List.range n).map fun i => (b + i, i) := by
  apply List.ext_getElem
  · simp
  · intro i h1 h2
    simp

/-- One lane's registers b to b + n - 1 written in turn. -/
theorem putRange_cell (g : LaneRegs) (l b n : Nat) (x : Nat → W32) (t p : Bool) (hb : b + n ≤ 256) (l' r : Nat) (hl : l' < 64)
    (hr : r < 256) :
    ((List.range n).foldl (fun g i => g.put l (b + i) (x i) t p) g).cell l' r =
      if l' = l ∧ b ≤ r ∧ r < b + n then (x (r - b), false, t, p) else g.cell l' r := by
  induction n with
  | zero => rw [if_neg (by omega)]; rfl
  | succ n ih =>
    rw [List.range_succ, List.foldl_append, List.foldl_cons, List.foldl_nil, put_cell _ _ _ _ _ _ _ _ hl (by omega) hr,
      ih (by omega)]
    by_cases h : r = b + n ∧ l' = l
    · rw [if_pos h, if_pos (by omega)]
      congr 2
      omega
    · rw [if_neg h]
      by_cases h2 : l' = l ∧ b ≤ r ∧ r < b + n
      · rw [if_pos h2, if_pos (by omega)]
      · rw [if_neg h2, if_neg (by omega)]

theorem putRange_preds (g : LaneRegs) (l b n : Nat) (x : Nat → W32) (t p : Bool) :
    ((List.range n).foldl (fun g i => g.put l (b + i) (x i) t p) g).pred = g.pred ∧
    ((List.range n).foldl (fun g i => g.put l (b + i) (x i) t p) g).predPoison = g.predPoison := by
  induction n with
  | zero => exact ⟨rfl, rfl⟩
  | succ n ih =>
    rw [List.range_succ, List.foldl_append, List.foldl_cons, List.foldl_nil]
    exact ih

theorem putWords_eq (g : LaneRegs) (l : Nat) (d : Opnd) (r : Fin 192) (h : d.reg = .v r) (x : Nat) (t p : Bool) :
    g.putWords l (vRegs d) x t p =
      (List.range d.n).foldl (fun g i => g.put l (r.val + i) (BitVec.ofNat 32 (x / 2 ^ (32 * i))) t p) g := by
  unfold LaneRegs.putWords vRegs
  rw [h]
  simp only
  rw [zipIdx_range, List.foldl_map]

/-- Lanes written one after another, each with its own registers b to b + n - 1. -/
theorem putLanes_cell (ls : List Nat) (g : LaneRegs) (b n : Nat) (x : Nat → Nat → W32) (t p : Nat → Bool) (hb : b + n ≤ 256)
    (l' r : Nat) (hl : l' < 64) (hr : r < 256) :
    (ls.foldl (fun g l => (List.range n).foldl (fun g i => g.put l (b + i) (x l i) (t l) (p l)) g) g).cell l' r =
      if l' ∈ ls ∧ b ≤ r ∧ r < b + n then (x l' (r - b), false, t l', p l') else g.cell l' r := by
  induction ls generalizing g with
  | nil => simp
  | cons a ls ih =>
    rw [List.foldl_cons, ih, putRange_cell g a b n (x a) (t a) (p a) hb l' r hl hr]
    by_cases h : l' ∈ ls ∧ b ≤ r ∧ r < b + n
    · rw [if_pos h, if_pos ⟨List.mem_cons_of_mem _ h.1, h.2⟩]
    · rw [if_neg h]
      by_cases h2 : l' = a ∧ b ≤ r ∧ r < b + n
      · obtain ⟨rfl, h3⟩ := h2
        rw [if_pos ⟨rfl, h3⟩, if_pos ⟨by simp, h3⟩]
      · rw [if_neg h2, if_neg]
        rintro ⟨h3, h4⟩
        rcases List.mem_cons.mp h3 with h3 | h3
        · exact h2 ⟨h3, h4⟩
        · exact h ⟨h3, h4⟩

theorem putLanes_preds (ls : List Nat) (g : LaneRegs) (b n : Nat) (x : Nat → Nat → W32) (t p : Nat → Bool) :
    (ls.foldl (fun g l => (List.range n).foldl (fun g i => g.put l (b + i) (x l i) (t l) (p l)) g) g).pred = g.pred ∧
    (ls.foldl (fun g l => (List.range n).foldl (fun g i => g.put l (b + i) (x l i) (t l) (p l)) g) g).predPoison =
      g.predPoison := by
  induction ls generalizing g with
  | nil => exact ⟨rfl, rfl⟩
  | cons a ls ih =>
    rw [List.foldl_cons]
    have h := putRange_preds g a b n (x a) (t a) (p a)
    have h2 := ih (g := (List.range n).foldl (fun g i => g.put a (b + i) (x a i) (t a) (p a)) g)
    exact ⟨h2.1.trans h.1, h2.2.trans h.2⟩

/-- What a troupe's writer of v registers does. -/
theorem write_v (t : Troupe) (m : LaneMask) (d : Opnd) (sx : Bool) (f : Nat → Nat × Bool × Bool) (r : Fin 192)
    (h : d.reg = .v r) (hn : r.val + d.n ≤ 256) :
    VWritten t (t.write m d sx f) m r.val d.n (fun l => (f l).1) (fun l => (f l).2.1) (fun l => (f l).2.2) := by
  have hw : (t.write m d sx f).lane = (lanes m).foldl (fun g l => (List.range d.n).foldl
      (fun g i => g.put l (r.val + i) (BitVec.ofNat 32 ((f l).1 / 2 ^ (32 * i))) (f l).2.1 (f l).2.2) g) t.lane := by
    unfold Troupe.write
    rw [h]
    simp only [putWords_eq _ _ d r h]
  have hcell := fun l' q (hl : l' < 64) (hq : q < 256) =>
    putLanes_cell (lanes m) t.lane r.val d.n (fun l i => BitVec.ofNat 32 ((f l).1 / 2 ^ (32 * i))) (fun l => (f l).2.1)
      (fun l => (f l).2.2) hn l' q hl hq
  have hpreds := putLanes_preds (lanes m) t.lane r.val d.n (fun l i => BitVec.ofNat 32 ((f l).1 / 2 ^ (32 * i)))
    (fun l => (f l).2.1) (fun l => (f l).2.2)
  have hin := fun l (hl : l < 64) (hm : m.getLsbD l = true) j (hj : j < d.n) => by
    have := hcell l (r.val + j) hl (by omega)
    rw [if_pos ⟨mem_lanes.mpr ⟨hl, hm⟩, by omega, by omega⟩] at this
    rw [Nat.add_sub_cancel_left] at this
    exact this
  have hout := fun l q (hl : l < 64) (hq : q < 256) (hx : m.getLsbD l = false ∨ q < r.val ∨ r.val + d.n ≤ q) => by
    have := hcell l q hl hq
    rw [if_neg (by rintro ⟨h1, h2⟩; have := (mem_lanes.mp h1).2; rcases hx with hx | hx <;> simp_all <;> omega)] at this
    exact this
  rw [← hw] at hpreds
  simp only [← hw] at hin hout
  refine ⟨?_, ?_, ?_, ?_, ?_, hpreds, ?_⟩
  · intro l hl hm j hj
    exact congrArg (fun e => e.1) (hin l hl hm j hj)
  · intro l hl hm j hj
    exact congrArg (fun e => e.2.1) (hin l hl hm j hj)
  · intro l hl hm j hj
    exact congrArg (fun e => e.2.2.1) (hin l hl hm j hj)
  · intro l hl hm j hj
    exact congrArg (fun e => e.2.2.2) (hin l hl hm j hj)
  · intro l hl q hq hx
    have := hout l q hl hq hx
    exact ⟨congrArg (fun e => e.1) this, congrArg (fun e => e.2.1) this, congrArg (fun e => e.2.2.1) this,
      congrArg (fun e => e.2.2.2) this⟩
  · unfold Troupe.write
    rw [h]

/-- What a write to an s register does. -/
theorem putS_written (t : Troupe) (k : SReg) (x : W64) (p : Bool) : SWritten t (t.putS k x p) k x p := by
  have hk := k.isLt
  refine ⟨?_, ?_, ?_, ?_, rfl, rfl⟩
  · simp [Troupe.s, Troupe.putS, UniRegs.get, UniRegs.put]
  · show (setLane t.uni.sPoison k.val p).getLsbD k.val = p
    rw [getLsbD_setLane _ hk, if_pos rfl]
  · show (setLane t.uni.sPending k.val false).getLsbD k.val = false
    rw [getLsbD_setLane _ hk, if_pos rfl]
  · intro j hj
    have hv : j.val ≠ k.val := fun e => hj (Fin.ext e)
    have hlt := j.isLt
    refine ⟨?_, ?_, ?_⟩
    · simp only [Troupe.s, Troupe.putS, UniRegs.get, UniRegs.put]
      exact sget_sput_ne _ hv
    · show (setLane t.uni.sPoison k.val p).getLsbD j.val = t.uni.sPoison.getLsbD j.val
      rw [getLsbD_setLane _ hlt, if_neg hv]
    · show (setLane t.uni.sPending k.val false).getLsbD j.val = t.uni.sPending.getLsbD j.val
      rw [getLsbD_setLane _ hlt, if_neg hv]

/-- Every writer of a destination does what RegWritten says. -/
theorem write_written (t : Troupe) (m : LaneMask) (d : Opnd) (sx : Bool) (f : Nat → Nat × Bool × Bool)
    (hn : d.n ≤ 64) :
    RegWritten t (t.write m d sx f) m d sx (fun l => (f l).1) (fun l => (f l).2.1) (fun l => (f l).2.2) := by
  unfold RegWritten
  split
  · rename_i r h
    exact write_v t m d sx f r h (by have := r.isLt; omega)
  · rename_i k h
    unfold Troupe.write
    rw [h]
    exact putS_written t k _ _

/-! Predicates. -/

theorem setPred_cell (g : LaneRegs) (l l' : Nat) (p q : Pred) (x b : Bool) (hl : l' < 64) :
    laneBit (g.setPred l p x b).pred q.val l' = (if q = p ∧ l' = l then x else laneBit g.pred q.val l') ∧
    laneBit (g.setPred l p x b).predPoison q.val l' = (if q = p ∧ l' = l then b else laneBit g.predPoison q.val l') := by
  simp only [LaneRegs.setPred, laneBit_setLaneBit _ _ _ _ _ _ hl, Fin.ext_iff]
  exact ⟨trivial, trivial⟩

theorem setPreds_cell (ls : List Nat) (g : LaneRegs) (p : Pred) (f : Nat → Bool × Bool) (l' : Nat) (q : Pred) (hl : l' < 64) :
    laneBit (ls.foldl (fun g l => g.setPred l p (f l).1 (f l).2) g).pred q.val l' =
      (if q = p ∧ l' ∈ ls then (f l').1 else laneBit g.pred q.val l') ∧
    laneBit (ls.foldl (fun g l => g.setPred l p (f l).1 (f l).2) g).predPoison q.val l' =
      (if q = p ∧ l' ∈ ls then (f l').2 else laneBit g.predPoison q.val l') := by
  induction ls generalizing g with
  | nil => simp
  | cons a ls ih =>
    rw [List.foldl_cons]
    obtain ⟨h1, h2⟩ := ih (g := g.setPred a p (f a).1 (f a).2)
    obtain ⟨h3, h4⟩ := setPred_cell g a l' p q (f a).1 (f a).2 hl
    rw [h1, h2, h3, h4]
    by_cases hq : q = p <;> by_cases hm : l' ∈ ls <;> by_cases ha : l' = a <;> simp [hq, hm, ha]

theorem setPreds_regs (ls : List Nat) (g : LaneRegs) (p : Pred) (f : Nat → Bool × Bool) :
    (ls.foldl (fun g l => g.setPred l p (f l).1 (f l).2) g).v = g.v ∧
    (ls.foldl (fun g l => g.setPred l p (f l).1 (f l).2) g).empty = g.empty ∧
    (ls.foldl (fun g l => g.setPred l p (f l).1 (f l).2) g).taint = g.taint ∧
    (ls.foldl (fun g l => g.setPred l p (f l).1 (f l).2) g).poison = g.poison := by
  induction ls generalizing g with
  | nil => exact ⟨rfl, rfl, rfl, rfl⟩
  | cons a ls ih =>
    rw [List.foldl_cons]
    exact ih (g := g.setPred a p (f a).1 (f a).2)

theorem writePred_written (t : Troupe) (m : LaneMask) (p : Pred) (f : Nat → Bool × Bool) :
    PredWritten t (t.writePred m p f) m p (fun l => (f l).1) (fun l => (f l).2) := by
  have hc := fun l' (q : Pred) (hl : l' < 64) => setPreds_cell (lanes m) t.lane p f l' q hl
  refine ⟨?_, ?_, ?_, setPreds_regs (lanes m) t.lane p f, rfl⟩
  · intro l hl hm
    have := (hc l p hl).1
    rw [if_pos ⟨rfl, mem_lanes.mpr ⟨hl, hm⟩⟩] at this
    exact this
  · intro l hl hm
    have := (hc l p hl).2
    rw [if_pos ⟨rfl, mem_lanes.mpr ⟨hl, hm⟩⟩] at this
    exact this
  · intro l hl q hq
    have hx : ¬(q = p ∧ l ∈ lanes m) := by
      rintro ⟨h1, h2⟩
      rcases hq with hq | hq
      · rw [(mem_lanes.mp h2).2] at hq
        cases hq
      · exact hq h1
    have h := hc l q hl
    rw [if_neg hx, if_neg hx] at h
    exact h

end Sys2Proof.Machine
end

