-- ==== Sys2Proof/Laws/State.lean ====
section
/-! SUPPORT. What each update of the state gives in each field. -/

namespace Sys2Proof.Machine

@[simp] theorem State.setHomes_tick (s : State) (x : Homes) : (s.setHomes x).tick = s.tick := rfl
@[simp] theorem State.setHomes_agenda (s : State) (x : Homes) : (s.setHomes x).agenda = s.agenda := rfl
@[simp] theorem State.setHomes_todo (s : State) (x : Homes) : (s.setHomes x).todo = s.todo := rfl
@[simp] theorem State.setHomes_timers (s : State) (x : Homes) : (s.setHomes x).timers = s.timers := rfl
@[simp] theorem State.setHomes_current (s : State) (x : Homes) : (s.setHomes x).current = s.current := rfl
@[simp] theorem State.setHomes_fresh (s : State) (x : Homes) : (s.setHomes x).fresh = s.fresh := rfl
@[simp] theorem State.setHomes_seq (s : State) (x : Homes) : (s.setHomes x).seq = s.seq := rfl
@[simp] theorem State.setHomes_troupes (s : State) (x : Homes) : (s.setHomes x).troupes = s.troupes := rfl
@[simp] theorem State.setHomes_blocks (s : State) (x : Homes) : (s.setHomes x).blocks = s.blocks := rfl
@[simp] theorem State.setHomes_cores (s : State) (x : Homes) : (s.setHomes x).cores = s.cores := rfl
@[simp] theorem State.setHomes_flight (s : State) (x : Homes) : (s.setHomes x).flight = s.flight := rfl
@[simp] theorem State.setHomes_homes (s : State) (x : Homes) : (s.setHomes x).homes = x := rfl
@[simp] theorem State.setHomes_regs (s : State) (x : Homes) : (s.setHomes x).regs = s.regs := rfl
@[simp] theorem State.setHomes_harts (s : State) (x : Homes) : (s.setHomes x).harts = s.harts := rfl
@[simp] theorem State.setHomes_pkg (s : State) (x : Homes) : (s.setHomes x).pkg = s.pkg := rfl
@[simp] theorem State.setHomes_fab (s : State) (x : Homes) : (s.setHomes x).fab = s.fab := rfl
@[simp] theorem State.setHomes_plat (s : State) (x : Homes) : (s.setHomes x).plat = s.plat := rfl

@[simp] theorem State.setFlight_tick (s : State) (x : Flight) : (s.setFlight x).tick = s.tick := rfl
@[simp] theorem State.setFlight_agenda (s : State) (x : Flight) : (s.setFlight x).agenda = s.agenda := rfl
@[simp] theorem State.setFlight_todo (s : State) (x : Flight) : (s.setFlight x).todo = s.todo := rfl
@[simp] theorem State.setFlight_timers (s : State) (x : Flight) : (s.setFlight x).timers = s.timers := rfl
@[simp] theorem State.setFlight_current (s : State) (x : Flight) : (s.setFlight x).current = s.current := rfl
@[simp] theorem State.setFlight_fresh (s : State) (x : Flight) : (s.setFlight x).fresh = s.fresh := rfl
@[simp] theorem State.setFlight_seq (s : State) (x : Flight) : (s.setFlight x).seq = s.seq := rfl
@[simp] theorem State.setFlight_troupes (s : State) (x : Flight) : (s.setFlight x).troupes = s.troupes := rfl
@[simp] theorem State.setFlight_blocks (s : State) (x : Flight) : (s.setFlight x).blocks = s.blocks := rfl
@[simp] theorem State.setFlight_cores (s : State) (x : Flight) : (s.setFlight x).cores = s.cores := rfl
@[simp] theorem State.setFlight_flight (s : State) (x : Flight) : (s.setFlight x).flight = x := rfl
@[simp] theorem State.setFlight_homes (s : State) (x : Flight) : (s.setFlight x).homes = s.homes := rfl
@[simp] theorem State.setFlight_regs (s : State) (x : Flight) : (s.setFlight x).regs = s.regs := rfl
@[simp] theorem State.setFlight_harts (s : State) (x : Flight) : (s.setFlight x).harts = s.harts := rfl
@[simp] theorem State.setFlight_pkg (s : State) (x : Flight) : (s.setFlight x).pkg = s.pkg := rfl
@[simp] theorem State.setFlight_fab (s : State) (x : Flight) : (s.setFlight x).fab = s.fab := rfl
@[simp] theorem State.setFlight_plat (s : State) (x : Flight) : (s.setFlight x).plat = s.plat := rfl

@[simp] theorem State.setPkg_tick (s : State) (x : Package) : (s.setPkg x).tick = s.tick := rfl
@[simp] theorem State.setPkg_agenda (s : State) (x : Package) : (s.setPkg x).agenda = s.agenda := rfl
@[simp] theorem State.setPkg_todo (s : State) (x : Package) : (s.setPkg x).todo = s.todo := rfl
@[simp] theorem State.setPkg_timers (s : State) (x : Package) : (s.setPkg x).timers = s.timers := rfl
@[simp] theorem State.setPkg_current (s : State) (x : Package) : (s.setPkg x).current = s.current := rfl
@[simp] theorem State.setPkg_fresh (s : State) (x : Package) : (s.setPkg x).fresh = s.fresh := rfl
@[simp] theorem State.setPkg_seq (s : State) (x : Package) : (s.setPkg x).seq = s.seq := rfl
@[simp] theorem State.setPkg_troupes (s : State) (x : Package) : (s.setPkg x).troupes = s.troupes := rfl
@[simp] theorem State.setPkg_blocks (s : State) (x : Package) : (s.setPkg x).blocks = s.blocks := rfl
@[simp] theorem State.setPkg_cores (s : State) (x : Package) : (s.setPkg x).cores = s.cores := rfl
@[simp] theorem State.setPkg_flight (s : State) (x : Package) : (s.setPkg x).flight = s.flight := rfl
@[simp] theorem State.setPkg_homes (s : State) (x : Package) : (s.setPkg x).homes = s.homes := rfl
@[simp] theorem State.setPkg_regs (s : State) (x : Package) : (s.setPkg x).regs = s.regs := rfl
@[simp] theorem State.setPkg_harts (s : State) (x : Package) : (s.setPkg x).harts = s.harts := rfl
@[simp] theorem State.setPkg_pkg (s : State) (x : Package) : (s.setPkg x).pkg = x := rfl
@[simp] theorem State.setPkg_fab (s : State) (x : Package) : (s.setPkg x).fab = s.fab := rfl
@[simp] theorem State.setPkg_plat (s : State) (x : Package) : (s.setPkg x).plat = s.plat := rfl

@[simp] theorem State.setFab_tick (s : State) (x : Fabric) : (s.setFab x).tick = s.tick := rfl
@[simp] theorem State.setFab_agenda (s : State) (x : Fabric) : (s.setFab x).agenda = s.agenda := rfl
@[simp] theorem State.setFab_todo (s : State) (x : Fabric) : (s.setFab x).todo = s.todo := rfl
@[simp] theorem State.setFab_timers (s : State) (x : Fabric) : (s.setFab x).timers = s.timers := rfl
@[simp] theorem State.setFab_current (s : State) (x : Fabric) : (s.setFab x).current = s.current := rfl
@[simp] theorem State.setFab_fresh (s : State) (x : Fabric) : (s.setFab x).fresh = s.fresh := rfl
@[simp] theorem State.setFab_seq (s : State) (x : Fabric) : (s.setFab x).seq = s.seq := rfl
@[simp] theorem State.setFab_troupes (s : State) (x : Fabric) : (s.setFab x).troupes = s.troupes := rfl
@[simp] theorem State.setFab_blocks (s : State) (x : Fabric) : (s.setFab x).blocks = s.blocks := rfl
@[simp] theorem State.setFab_cores (s : State) (x : Fabric) : (s.setFab x).cores = s.cores := rfl
@[simp] theorem State.setFab_flight (s : State) (x : Fabric) : (s.setFab x).flight = s.flight := rfl
@[simp] theorem State.setFab_homes (s : State) (x : Fabric) : (s.setFab x).homes = s.homes := rfl
@[simp] theorem State.setFab_regs (s : State) (x : Fabric) : (s.setFab x).regs = s.regs := rfl
@[simp] theorem State.setFab_harts (s : State) (x : Fabric) : (s.setFab x).harts = s.harts := rfl
@[simp] theorem State.setFab_pkg (s : State) (x : Fabric) : (s.setFab x).pkg = s.pkg := rfl
@[simp] theorem State.setFab_fab (s : State) (x : Fabric) : (s.setFab x).fab = x := rfl
@[simp] theorem State.setFab_plat (s : State) (x : Fabric) : (s.setFab x).plat = s.plat := rfl

@[simp] theorem State.setPlat_tick (s : State) (x : Platform) : (s.setPlat x).tick = s.tick := rfl
@[simp] theorem State.setPlat_agenda (s : State) (x : Platform) : (s.setPlat x).agenda = s.agenda := rfl
@[simp] theorem State.setPlat_todo (s : State) (x : Platform) : (s.setPlat x).todo = s.todo := rfl
@[simp] theorem State.setPlat_timers (s : State) (x : Platform) : (s.setPlat x).timers = s.timers := rfl
@[simp] theorem State.setPlat_current (s : State) (x : Platform) : (s.setPlat x).current = s.current := rfl
@[simp] theorem State.setPlat_fresh (s : State) (x : Platform) : (s.setPlat x).fresh = s.fresh := rfl
@[simp] theorem State.setPlat_seq (s : State) (x : Platform) : (s.setPlat x).seq = s.seq := rfl
@[simp] theorem State.setPlat_troupes (s : State) (x : Platform) : (s.setPlat x).troupes = s.troupes := rfl
@[simp] theorem State.setPlat_blocks (s : State) (x : Platform) : (s.setPlat x).blocks = s.blocks := rfl
@[simp] theorem State.setPlat_cores (s : State) (x : Platform) : (s.setPlat x).cores = s.cores := rfl
@[simp] theorem State.setPlat_flight (s : State) (x : Platform) : (s.setPlat x).flight = s.flight := rfl
@[simp] theorem State.setPlat_homes (s : State) (x : Platform) : (s.setPlat x).homes = s.homes := rfl
@[simp] theorem State.setPlat_regs (s : State) (x : Platform) : (s.setPlat x).regs = s.regs := rfl
@[simp] theorem State.setPlat_harts (s : State) (x : Platform) : (s.setPlat x).harts = s.harts := rfl
@[simp] theorem State.setPlat_pkg (s : State) (x : Platform) : (s.setPlat x).pkg = s.pkg := rfl
@[simp] theorem State.setPlat_fab (s : State) (x : Platform) : (s.setPlat x).fab = s.fab := rfl
@[simp] theorem State.setPlat_plat (s : State) (x : Platform) : (s.setPlat x).plat = x := rfl

@[simp] theorem State.setCore_tick (s : State) (c : Nat) (x : Core) : (s.setCore c x).tick = s.tick := rfl
@[simp] theorem State.setCore_agenda (s : State) (c : Nat) (x : Core) : (s.setCore c x).agenda = s.agenda := rfl
@[simp] theorem State.setCore_todo (s : State) (c : Nat) (x : Core) : (s.setCore c x).todo = s.todo := rfl
@[simp] theorem State.setCore_timers (s : State) (c : Nat) (x : Core) : (s.setCore c x).timers = s.timers := rfl
@[simp] theorem State.setCore_current (s : State) (c : Nat) (x : Core) : (s.setCore c x).current = s.current := rfl
@[simp] theorem State.setCore_fresh (s : State) (c : Nat) (x : Core) : (s.setCore c x).fresh = s.fresh := rfl
@[simp] theorem State.setCore_seq (s : State) (c : Nat) (x : Core) : (s.setCore c x).seq = s.seq := rfl
@[simp] theorem State.setCore_troupes (s : State) (c : Nat) (x : Core) : (s.setCore c x).troupes = s.troupes := rfl
@[simp] theorem State.setCore_blocks (s : State) (c : Nat) (x : Core) : (s.setCore c x).blocks = s.blocks := rfl
@[simp] theorem State.setCore_cores (s : State) (c : Nat) (x : Core) : (s.setCore c x).cores = sset c x s.cores := rfl
@[simp] theorem State.setCore_flight (s : State) (c : Nat) (x : Core) : (s.setCore c x).flight = s.flight := rfl
@[simp] theorem State.setCore_homes (s : State) (c : Nat) (x : Core) : (s.setCore c x).homes = s.homes := rfl
@[simp] theorem State.setCore_regs (s : State) (c : Nat) (x : Core) : (s.setCore c x).regs = s.regs := rfl
@[simp] theorem State.setCore_harts (s : State) (c : Nat) (x : Core) : (s.setCore c x).harts = s.harts := rfl
@[simp] theorem State.setCore_pkg (s : State) (c : Nat) (x : Core) : (s.setCore c x).pkg = s.pkg := rfl
@[simp] theorem State.setCore_fab (s : State) (c : Nat) (x : Core) : (s.setCore c x).fab = s.fab := rfl
@[simp] theorem State.setCore_plat (s : State) (c : Nat) (x : Core) : (s.setCore c x).plat = s.plat := rfl

@[simp] theorem State.setBlock_tick (s : State) (b : Nat) (x : Block) : (s.setBlock b x).tick = s.tick := rfl
@[simp] theorem State.setBlock_agenda (s : State) (b : Nat) (x : Block) : (s.setBlock b x).agenda = s.agenda := rfl
@[simp] theorem State.setBlock_todo (s : State) (b : Nat) (x : Block) : (s.setBlock b x).todo = s.todo := rfl
@[simp] theorem State.setBlock_timers (s : State) (b : Nat) (x : Block) : (s.setBlock b x).timers = s.timers := rfl
@[simp] theorem State.setBlock_current (s : State) (b : Nat) (x : Block) : (s.setBlock b x).current = s.current := rfl
@[simp] theorem State.setBlock_fresh (s : State) (b : Nat) (x : Block) : (s.setBlock b x).fresh = s.fresh := rfl
@[simp] theorem State.setBlock_seq (s : State) (b : Nat) (x : Block) : (s.setBlock b x).seq = s.seq := rfl
@[simp] theorem State.setBlock_troupes (s : State) (b : Nat) (x : Block) : (s.setBlock b x).troupes = s.troupes := rfl
@[simp] theorem State.setBlock_blocks (s : State) (b : Nat) (x : Block) : (s.setBlock b x).blocks = sset b x s.blocks := rfl
@[simp] theorem State.setBlock_cores (s : State) (b : Nat) (x : Block) : (s.setBlock b x).cores = s.cores := rfl
@[simp] theorem State.setBlock_flight (s : State) (b : Nat) (x : Block) : (s.setBlock b x).flight = s.flight := rfl
@[simp] theorem State.setBlock_homes (s : State) (b : Nat) (x : Block) : (s.setBlock b x).homes = s.homes := rfl
@[simp] theorem State.setBlock_regs (s : State) (b : Nat) (x : Block) : (s.setBlock b x).regs = s.regs := rfl
@[simp] theorem State.setBlock_harts (s : State) (b : Nat) (x : Block) : (s.setBlock b x).harts = s.harts := rfl
@[simp] theorem State.setBlock_pkg (s : State) (b : Nat) (x : Block) : (s.setBlock b x).pkg = s.pkg := rfl
@[simp] theorem State.setBlock_fab (s : State) (b : Nat) (x : Block) : (s.setBlock b x).fab = s.fab := rfl
@[simp] theorem State.setBlock_plat (s : State) (b : Nat) (x : Block) : (s.setBlock b x).plat = s.plat := rfl

@[simp] theorem State.setHart_tick (s : State) (h : Nat) (x : Hart) : (s.setHart h x).tick = s.tick := rfl
@[simp] theorem State.setHart_agenda (s : State) (h : Nat) (x : Hart) : (s.setHart h x).agenda = s.agenda := rfl
@[simp] theorem State.setHart_todo (s : State) (h : Nat) (x : Hart) : (s.setHart h x).todo = s.todo := rfl
@[simp] theorem State.setHart_timers (s : State) (h : Nat) (x : Hart) : (s.setHart h x).timers = s.timers := rfl
@[simp] theorem State.setHart_current (s : State) (h : Nat) (x : Hart) : (s.setHart h x).current = s.current := rfl
@[simp] theorem State.setHart_fresh (s : State) (h : Nat) (x : Hart) : (s.setHart h x).fresh = s.fresh := rfl
@[simp] theorem State.setHart_seq (s : State) (h : Nat) (x : Hart) : (s.setHart h x).seq = s.seq := rfl
@[simp] theorem State.setHart_troupes (s : State) (h : Nat) (x : Hart) : (s.setHart h x).troupes = s.troupes := rfl
@[simp] theorem State.setHart_blocks (s : State) (h : Nat) (x : Hart) : (s.setHart h x).blocks = s.blocks := rfl
@[simp] theorem State.setHart_cores (s : State) (h : Nat) (x : Hart) : (s.setHart h x).cores = s.cores := rfl
@[simp] theorem State.setHart_flight (s : State) (h : Nat) (x : Hart) : (s.setHart h x).flight = s.flight := rfl
@[simp] theorem State.setHart_homes (s : State) (h : Nat) (x : Hart) : (s.setHart h x).homes = s.homes := rfl
@[simp] theorem State.setHart_regs (s : State) (h : Nat) (x : Hart) : (s.setHart h x).regs = s.regs := rfl
@[simp] theorem State.setHart_harts (s : State) (h : Nat) (x : Hart) : (s.setHart h x).harts = sset h x s.harts := rfl
@[simp] theorem State.setHart_pkg (s : State) (h : Nat) (x : Hart) : (s.setHart h x).pkg = s.pkg := rfl
@[simp] theorem State.setHart_fab (s : State) (h : Nat) (x : Hart) : (s.setHart h x).fab = s.fab := rfl
@[simp] theorem State.setHart_plat (s : State) (h : Nat) (x : Hart) : (s.setHart h x).plat = s.plat := rfl

@[simp] theorem State.setPart_tick (s : State) (p : Nat) (x : Partition) : (s.setPart p x).tick = s.tick := rfl
@[simp] theorem State.setPart_agenda (s : State) (p : Nat) (x : Partition) : (s.setPart p x).agenda = s.agenda := rfl
@[simp] theorem State.setPart_todo (s : State) (p : Nat) (x : Partition) : (s.setPart p x).todo = s.todo := rfl
@[simp] theorem State.setPart_timers (s : State) (p : Nat) (x : Partition) : (s.setPart p x).timers = s.timers := rfl
@[simp] theorem State.setPart_current (s : State) (p : Nat) (x : Partition) : (s.setPart p x).current = s.current := rfl
@[simp] theorem State.setPart_fresh (s : State) (p : Nat) (x : Partition) : (s.setPart p x).fresh = s.fresh := rfl
@[simp] theorem State.setPart_seq (s : State) (p : Nat) (x : Partition) : (s.setPart p x).seq = s.seq := rfl
@[simp] theorem State.setPart_troupes (s : State) (p : Nat) (x : Partition) : (s.setPart p x).troupes = s.troupes := rfl
@[simp] theorem State.setPart_blocks (s : State) (p : Nat) (x : Partition) : (s.setPart p x).blocks = s.blocks := rfl
@[simp] theorem State.setPart_cores (s : State) (p : Nat) (x : Partition) : (s.setPart p x).cores = s.cores := rfl
@[simp] theorem State.setPart_flight (s : State) (p : Nat) (x : Partition) : (s.setPart p x).flight = s.flight := rfl
@[simp] theorem State.setPart_homes (s : State) (p : Nat) (x : Partition) : (s.setPart p x).homes = s.homes := rfl
@[simp] theorem State.setPart_regs (s : State) (p : Nat) (x : Partition) : (s.setPart p x).regs = s.regs := rfl
@[simp] theorem State.setPart_harts (s : State) (p : Nat) (x : Partition) : (s.setPart p x).harts = s.harts := rfl
@[simp] theorem State.setPart_pkg (s : State) (p : Nat) (x : Partition) : (s.setPart p x).pkg = { s.pkg with parts := sset p x s.pkg.parts } := rfl
@[simp] theorem State.setPart_fab (s : State) (p : Nat) (x : Partition) : (s.setPart p x).fab = s.fab := rfl
@[simp] theorem State.setPart_plat (s : State) (p : Nat) (x : Partition) : (s.setPart p x).plat = s.plat := rfl

@[simp] theorem State.setOp_tick (s : State) (id : Nat) (o : MemOp) : (s.setOp id o).tick = s.tick := rfl
@[simp] theorem State.setOp_agenda (s : State) (id : Nat) (o : MemOp) : (s.setOp id o).agenda = s.agenda := rfl
@[simp] theorem State.setOp_todo (s : State) (id : Nat) (o : MemOp) : (s.setOp id o).todo = s.todo := rfl
@[simp] theorem State.setOp_timers (s : State) (id : Nat) (o : MemOp) : (s.setOp id o).timers = s.timers := rfl
@[simp] theorem State.setOp_current (s : State) (id : Nat) (o : MemOp) : (s.setOp id o).current = s.current := rfl
@[simp] theorem State.setOp_fresh (s : State) (id : Nat) (o : MemOp) : (s.setOp id o).fresh = s.fresh := rfl
@[simp] theorem State.setOp_seq (s : State) (id : Nat) (o : MemOp) : (s.setOp id o).seq = s.seq := rfl
@[simp] theorem State.setOp_troupes (s : State) (id : Nat) (o : MemOp) : (s.setOp id o).troupes = s.troupes := rfl
@[simp] theorem State.setOp_blocks (s : State) (id : Nat) (o : MemOp) : (s.setOp id o).blocks = s.blocks := rfl
@[simp] theorem State.setOp_cores (s : State) (id : Nat) (o : MemOp) : (s.setOp id o).cores = s.cores := rfl
@[simp] theorem State.setOp_flight (s : State) (id : Nat) (o : MemOp) : (s.setOp id o).flight = { s.flight with mem := sset id o s.flight.mem } := rfl
@[simp] theorem State.setOp_homes (s : State) (id : Nat) (o : MemOp) : (s.setOp id o).homes = s.homes := rfl
@[simp] theorem State.setOp_regs (s : State) (id : Nat) (o : MemOp) : (s.setOp id o).regs = s.regs := rfl
@[simp] theorem State.setOp_harts (s : State) (id : Nat) (o : MemOp) : (s.setOp id o).harts = s.harts := rfl
@[simp] theorem State.setOp_pkg (s : State) (id : Nat) (o : MemOp) : (s.setOp id o).pkg = s.pkg := rfl
@[simp] theorem State.setOp_fab (s : State) (id : Nat) (o : MemOp) : (s.setOp id o).fab = s.fab := rfl
@[simp] theorem State.setOp_plat (s : State) (id : Nat) (o : MemOp) : (s.setOp id o).plat = s.plat := rfl

@[simp] theorem State.post_tick (s : State) (e : Ev) : (s.post e).tick = s.tick := rfl
@[simp] theorem State.post_agenda (s : State) (e : Ev) : (s.post e).agenda = s.agenda := rfl
@[simp] theorem State.post_todo (s : State) (e : Ev) : (s.post e).todo = s.todo ++ [e] := rfl
@[simp] theorem State.post_timers (s : State) (e : Ev) : (s.post e).timers = s.timers := rfl
@[simp] theorem State.post_current (s : State) (e : Ev) : (s.post e).current = s.current := rfl
@[simp] theorem State.post_fresh (s : State) (e : Ev) : (s.post e).fresh = s.fresh := rfl
@[simp] theorem State.post_seq (s : State) (e : Ev) : (s.post e).seq = s.seq := rfl
@[simp] theorem State.post_troupes (s : State) (e : Ev) : (s.post e).troupes = s.troupes := rfl
@[simp] theorem State.post_blocks (s : State) (e : Ev) : (s.post e).blocks = s.blocks := rfl
@[simp] theorem State.post_cores (s : State) (e : Ev) : (s.post e).cores = s.cores := rfl
@[simp] theorem State.post_flight (s : State) (e : Ev) : (s.post e).flight = s.flight := rfl
@[simp] theorem State.post_homes (s : State) (e : Ev) : (s.post e).homes = s.homes := rfl
@[simp] theorem State.post_regs (s : State) (e : Ev) : (s.post e).regs = s.regs := rfl
@[simp] theorem State.post_harts (s : State) (e : Ev) : (s.post e).harts = s.harts := rfl
@[simp] theorem State.post_pkg (s : State) (e : Ev) : (s.post e).pkg = s.pkg := rfl
@[simp] theorem State.post_fab (s : State) (e : Ev) : (s.post e).fab = s.fab := rfl
@[simp] theorem State.post_plat (s : State) (e : Ev) : (s.post e).plat = s.plat := rfl

@[simp] theorem State.bump_tick (s : State) : (s.bump).tick = s.tick := rfl
@[simp] theorem State.bump_agenda (s : State) : (s.bump).agenda = s.agenda := rfl
@[simp] theorem State.bump_todo (s : State) : (s.bump).todo = s.todo := rfl
@[simp] theorem State.bump_timers (s : State) : (s.bump).timers = s.timers := rfl
@[simp] theorem State.bump_current (s : State) : (s.bump).current = s.current := rfl
@[simp] theorem State.bump_fresh (s : State) : (s.bump).fresh = s.fresh := rfl
@[simp] theorem State.bump_seq (s : State) : (s.bump).seq = s.seq + 1 := rfl
@[simp] theorem State.bump_troupes (s : State) : (s.bump).troupes = s.troupes := rfl
@[simp] theorem State.bump_blocks (s : State) : (s.bump).blocks = s.blocks := rfl
@[simp] theorem State.bump_cores (s : State) : (s.bump).cores = s.cores := rfl
@[simp] theorem State.bump_flight (s : State) : (s.bump).flight = s.flight := rfl
@[simp] theorem State.bump_homes (s : State) : (s.bump).homes = s.homes := rfl
@[simp] theorem State.bump_regs (s : State) : (s.bump).regs = s.regs := rfl
@[simp] theorem State.bump_harts (s : State) : (s.bump).harts = s.harts := rfl
@[simp] theorem State.bump_pkg (s : State) : (s.bump).pkg = s.pkg := rfl
@[simp] theorem State.bump_fab (s : State) : (s.bump).fab = s.fab := rfl
@[simp] theorem State.bump_plat (s : State) : (s.bump).plat = s.plat := rfl

@[simp] theorem State.setReg_tick (s : State) (slice unit reg : Nat) (v : W64) : (s.setReg slice unit reg v).tick = s.tick := rfl
@[simp] theorem State.setReg_agenda (s : State) (slice unit reg : Nat) (v : W64) : (s.setReg slice unit reg v).agenda = s.agenda := rfl
@[simp] theorem State.setReg_todo (s : State) (slice unit reg : Nat) (v : W64) : (s.setReg slice unit reg v).todo = s.todo := rfl
@[simp] theorem State.setReg_timers (s : State) (slice unit reg : Nat) (v : W64) : (s.setReg slice unit reg v).timers = s.timers := rfl
@[simp] theorem State.setReg_current (s : State) (slice unit reg : Nat) (v : W64) : (s.setReg slice unit reg v).current = s.current := rfl
@[simp] theorem State.setReg_fresh (s : State) (slice unit reg : Nat) (v : W64) : (s.setReg slice unit reg v).fresh = s.fresh := rfl
@[simp] theorem State.setReg_seq (s : State) (slice unit reg : Nat) (v : W64) : (s.setReg slice unit reg v).seq = s.seq := rfl
@[simp] theorem State.setReg_troupes (s : State) (slice unit reg : Nat) (v : W64) : (s.setReg slice unit reg v).troupes = s.troupes := rfl
@[simp] theorem State.setReg_blocks (s : State) (slice unit reg : Nat) (v : W64) : (s.setReg slice unit reg v).blocks = s.blocks := rfl
@[simp] theorem State.setReg_cores (s : State) (slice unit reg : Nat) (v : W64) : (s.setReg slice unit reg v).cores = s.cores := rfl
@[simp] theorem State.setReg_flight (s : State) (slice unit reg : Nat) (v : W64) : (s.setReg slice unit reg v).flight = s.flight := rfl
@[simp] theorem State.setReg_homes (s : State) (slice unit reg : Nat) (v : W64) : (s.setReg slice unit reg v).homes = s.homes := rfl
@[simp] theorem State.setReg_regs (s : State) (slice unit reg : Nat) (v : W64) : (s.setReg slice unit reg v).regs = sput (regReset unit reg) (regKey slice unit reg) v s.regs := rfl
@[simp] theorem State.setReg_harts (s : State) (slice unit reg : Nat) (v : W64) : (s.setReg slice unit reg v).harts = s.harts := rfl
@[simp] theorem State.setReg_pkg (s : State) (slice unit reg : Nat) (v : W64) : (s.setReg slice unit reg v).pkg = s.pkg := rfl
@[simp] theorem State.setReg_fab (s : State) (slice unit reg : Nat) (v : W64) : (s.setReg slice unit reg v).fab = s.fab := rfl
@[simp] theorem State.setReg_plat (s : State) (slice unit reg : Nat) (v : W64) : (s.setReg slice unit reg v).plat = s.plat := rfl

end Sys2Proof.Machine
end

