-- ==== Sys2Proof/Laws/Issue.lean ====
section
/-! SUPPORT. What the shared operations of issue do: going on, stalling, taking a trap, and the common shapes of an
instruction that writes one register or one predicate. -/

namespace Sys2Proof.Machine

theorem SameOutside.refl (s : State) : SameOutside s s := ⟨rfl, rfl, rfl, rfl, rfl, rfl, rfl, rfl, rfl, rfl⟩

theorem SameOutside.trans {a b c : State} (h : SameOutside a b) (g : SameOutside b c) : SameOutside a c :=
  ⟨g.homes.trans h.homes, g.flight.trans h.flight, g.regs.trans h.regs, g.harts.trans h.harts, g.pkg.trans h.pkg,
    g.fab.trans h.fab, g.plat.trans h.plat, g.blocks.trans h.blocks, g.tick.trans h.tick, g.agenda.trans h.agenda⟩

theorem setTroupe_outside (s : State) {k : TKey} (t : Troupe) (h : k.num < 2 ^ 20) : SameOutside s (s.setTroupe k t) := by
  unfold State.setTroupe
  rw [if_neg (by omega)]
  exact ⟨rfl, rfl, rfl, rfl, rfl, rfl, rfl, rfl, rfl, rfl⟩

theorem setCore_outside (s : State) (c : Nat) (x : Core) : SameOutside s (s.setCore c x) :=
  ⟨rfl, rfl, rfl, rfl, rfl, rfl, rfl, rfl, rfl, rfl⟩

theorem post_outside (s : State) (e : Ev) : SameOutside s (s.post e) := ⟨rfl, rfl, rfl, rfl, rfl, rfl, rfl, rfl, rfl, rfl⟩

theorem postOnce_outside (s : State) (e : Ev) : SameOutside s (s.postOnce e) := by
  unfold State.postOnce
  split
  · exact .refl s
  · exact post_outside s e

theorem at_outside (s : State) (n : Nat) (e : Ev) : SameOutside s (s.at n e) := by
  unfold State.at
  split
  · exact post_outside s e
  · exact ⟨rfl, rfl, rfl, rfl, rfl, rfl, rfl, rfl, rfl, rfl⟩

theorem later_outside (s : State) (e : Ev) : SameOutside s (s.later e) := at_outside s _ e

theorem laterOnce_outside (s : State) (e : Ev) : SameOutside s (s.laterOnce e) := by
  unfold State.laterOnce
  split
  · exact .refl s
  · exact later_outside s e

theorem current_outside (s : State) (x : Option TKey) : SameOutside s { s with current := x } :=
  ⟨rfl, rfl, rfl, rfl, rfl, rfl, rfl, rfl, rfl, rfl⟩

theorem offPipe_outside (s : State) (k : TKey) : SameOutside s (s.offPipe k) :=
  (setCore_outside s _ _).trans (current_outside _ _)

theorem reGrant_outside (s : State) (k : TKey) : SameOutside s (s.reGrant k) := postOnce_outside s _

theorem leavePipe_outside (s : State) (k : TKey) : SameOutside s (s.leavePipe k) := setCore_outside s _ _

/-- A clause boundary concerns the troupe, its core's pipes and the order of events. -/
theorem boundary_outside (s : State) (k : TKey) (rg : Regime) (t : Troupe) (h : k.num < 2 ^ 20) :
    SameOutside s (s.boundary k rg t) := by
  unfold State.boundary
  split
  · exact (setTroupe_outside s _ h).trans (later_outside _ _)
  · exact ((setTroupe_outside s _ h).trans (leavePipe_outside _ _)).trans (laterOnce_outside _ _)

theorem endClause_outside (s : State) (c : Ctx) (t : Troupe) (next : List (VAddr × LaneMask)) (h : c.key.num < 2 ^ 20) :
    SameOutside s (s.endClause c t next) := by
  unfold State.endClause
  simp only
  split
  · exact ((setTroupe_outside s _ h).trans (offPipe_outside _ _)).trans (post_outside _ _)
  · exact (boundary_outside s c.key c.blk.regime _ h).trans (current_outside _ _)

/-- Going on changes nothing outside the troupe, its core's pipes and the order of events. -/
theorem advance_outside (s : State) (c : Ctx) (t : Troupe) (h : c.key.num < 2 ^ 20) : SameOutside s (s.advance c t) := by
  unfold State.advance
  split
  · exact setTroupe_outside s _ h
  · exact endClause_outside s c t _ h

theorem stall_outside (s : State) (c : Ctx) (h : c.key.num < 2 ^ 20) : SameOutside s (s.stall c) := by
  unfold State.stall
  exact ((setTroupe_outside s _ h).trans (current_outside _ _)).trans (later_outside _ _)

/-- A trap that a handler takes. -/
theorem takeTrap_outside (s : State) (c : Ctx) (ti : TrapInfo) (h : c.key.num < 2 ^ 20) (hh : c.t.trap.inHandler = false)
    (ht : c.t.tvec ≠ 0) : SameOutside s (s.takeTrap c ti) := by
  unfold State.takeTrap
  rw [if_neg (by simp [hh])]
  simp only
  rw [if_neg ht]
  exact ((setTroupe_outside s _ h).trans (offPipe_outside _ _)).trans (laterOnce_outside _ _)

theorem raise_outside (s : State) (c : Ctx) (cause : BitVec 8) (info addr : W64) (m : LaneMask) (h : c.key.num < 2 ^ 20)
    (hh : c.t.trap.inHandler = false) (ht : c.t.tvec ≠ 0) : SameOutside s (s.raise c cause info addr m) :=
  takeTrap_outside s c _ h hh ht

/-! The troupe at issue. -/

theorem ctx_key {s : State} {c : Ctx} (h : s.ctx? = some c) : c.key.num < 2 ^ 20 := by
  unfold State.ctx? at h
  split at h
  · cases h
  · split at h
    · cases h
    · rename_i hk
      split at h
      · cases h
      · split at h
        · cases h
        · split at h
          · cases h
          · cases h
            exact Nat.lt_of_not_le hk

theorem ctx_troupe {s : State} {c : Ctx} (h : s.ctx? = some c) : s.troupe? c.key = some c.t := by
  have hk := ctx_key h
  unfold State.ctx? at h
  split at h
  · cases h
  · split at h
    · cases h
    · split at h
      · cases h
      · split at h
        · cases h
        · split at h
          · cases h
          · cases h
            unfold State.troupe?
            rw [if_neg (Nat.not_le.mpr hk)]
            assumption

theorem onTroupe_some {s : State} {c : Ctx} (h : s.ctx? = some c) (f : Ctx → State) : onTroupe s f = .next (f c) := by
  unfold onTroupe
  rw [h]

theorem onTroupe_next {s u : State} {f : Ctx → State} (h : onTroupe s f = .next u) : ∃ c, s.ctx? = some c ∧ u = f c := by
  unfold onTroupe at h
  split at h
  · rename_i c hc
    cases h
    exact ⟨c, hc, rfl⟩
  · cases h

theorem whenReady_go {s : State} {c : Ctx} {i : Instr} {m : LaneMask} (k : State) (h : s.ready c i.srcs i.dests m = .go) :
    s.whenReady c i m k = k := by
  unfold State.whenReady
  rw [h]

/-- What waiting for registers comes to: the instruction's own effect, a stall, or EMPTY_REGISTER. -/
theorem whenReady_cases (s : State) (c : Ctx) (i : Instr) (m : LaneMask) (k : State) :
    s.whenReady c i m k = k ∨ s.whenReady c i m k = s.stall c ∨
      ∃ r l, s.whenReady c i m k = s.raise c causeEmpty (BitVec.ofNat 64 r) 0 l := by
  unfold State.whenReady
  split
  · exact .inr (.inr ⟨_, _, rfl⟩)
  · exact .inr (.inl rfl)
  · exact .inl rfl

/-! The shapes. -/

theorem compute_written (t : Troupe) (m : LaneMask) (srcs : List Opnd) (d : Opnd) (sx : Bool) (f : Nat → List Nat → Nat)
    (hn : d.n ≤ 64) :
    RegWritten t (t.compute m srcs d sx f) m d sx (fun l => f l (srcs.map fun o => t.value l o)) (fun l => t.srcTaint l srcs)
      (fun l => t.srcPoison l srcs) :=
  write_written t m d sx _ hn

/-- An instruction of the common shape completes with its destination written. -/
theorem laneOp_completes {s : State} {c : Ctx} {i : Instr} {d : Opnd} {sx : Bool} {f : Nat → List Nat → Nat}
    (hi : exec i s = laneOp s i sx f) (hd : i.dests = [d]) (hn : d.n ≤ 64) (h : AtIssue s c i c.mask) :
    Completes s c i fun t => RegWritten c.t t c.mask d sx (fun l => f l (i.srcs.map fun o => c.t.value l o))
      (fun l => c.t.srcTaint l i.srcs) (fun l => c.t.srcPoison l i.srcs) := by
  refine ⟨c.t.compute c.mask i.srcs d sx f, ?_, compute_written _ _ _ _ _ _ hn⟩
  rw [hi]
  unfold laneOp
  rw [onTroupe_some h.1, whenReady_go _ h.2, hd]

theorem predOp_completes {s : State} {c : Ctx} {i : Instr} {p : Pred} {f : List Nat → Bool}
    (hi : exec i s = predOp s i p f) (h : AtIssue s c i c.mask) :
    Completes s c i fun t => PredWritten c.t t c.mask p (fun l => f (i.srcs.map fun o => c.t.value l o))
      (fun l => c.t.srcPoison l i.srcs) := by
  refine ⟨_, ?_, writePred_written c.t c.mask p fun l => (f (i.srcs.map fun o => c.t.value l o), c.t.srcPoison l i.srcs)⟩
  rw [hi]
  unfold predOp
  rw [onTroupe_some h.1, whenReady_go _ h.2]

end Sys2Proof.Machine
end

