-- ==== Sys2Proof/Laws/Control.lean ====
section
/-! SUPPORT. What the end of a clause does with the lanes of a path, and what taking a trap leaves. -/

namespace Sys2Proof.Machine

theorem lanesAt_fold (ps : List Path) (a : VAddr) (m : LaneMask) :
    ps.foldl (fun m p => if p.addr = a then m ||| p.mask else m) m = m ||| lanesAt ps a := by
  induction ps generalizing m with
  | nil => simp [lanesAt]
  | cons p t ih =>
    simp only [lanesAt, List.foldl_cons]
    rw [ih, ih (if p.addr = a then 0 ||| p.mask else 0)]
    split <;> simp [BitVec.or_assoc]

theorem lanesAt_cons (p : Path) (ps : List Path) (a : VAddr) :
    lanesAt (p :: ps) a = (if p.addr = a then p.mask else 0) ||| lanesAt ps a := by
  rw [lanesAt, List.foldl_cons, lanesAt_fold]
  split <;> simp

theorem lanesAt_append (ps qs : List Path) (a : VAddr) : lanesAt (ps ++ qs) a = lanesAt ps a ||| lanesAt qs a := by
  rw [lanesAt, List.foldl_append, lanesAt_fold]
  rfl

/-- Lanes merged into every entry at an address. -/
theorem lanesAt_merge (ps : List Path) (b a : VAddr) (m : LaneMask) (h : ps.any (fun p => p.addr = b) = true) :
    lanesAt (ps.map fun p => if p.addr = b then { p with mask := p.mask ||| m } else p) a =
      lanesAt ps a ||| (if b = a then m else 0) := by
  have key : ∀ ps : List Path, lanesAt (ps.map fun p => if p.addr = b then { p with mask := p.mask ||| m } else p) a =
      lanesAt ps a ||| (if b = a ∧ ps.any (fun p => p.addr = b) = true then m else 0) := by
    intro ps
    induction ps with
    | nil => simp [lanesAt]
    | cons p t ih =>
      rw [List.map_cons, lanesAt_cons, lanesAt_cons, ih]
      by_cases hp : p.addr = b
      · by_cases hb : b = a
        · subst hb
          by_cases ht : t.any (fun p => p.addr = b) = true
          · have : (p :: t).any (fun p => p.addr = b) = true := by simp [hp]
            simp only [hp, if_true, true_and, this, ht]
            ext i; simp; cases p.mask[i] <;> cases m[i] <;> cases (lanesAt t b)[i] <;> rfl
          · have : (p :: t).any (fun p => p.addr = b) = true := by simp [hp]
            simp only [hp, if_true, true_and, this, ht]
            ext i; simp; cases p.mask[i] <;> cases m[i] <;> cases (lanesAt t b)[i] <;> rfl
        · simp [hp, hb]
      · have : (p :: t).any (fun p => p.addr = b) = t.any (fun p => p.addr = b) := by simp [hp]
        simp only [hp, if_false, this]
        rw [BitVec.or_assoc]
  rw [key, h]
  simp

/-- R75: lanes that continue at an address. -/
theorem lanesAt_enter (s : State) (core : Nat) (rg : Regime) (ps : List Path) (b a : VAddr) (m : LaneMask) :
    lanesAt (s.enter core rg ps b m) a = lanesAt ps a ||| (if b = a then m else 0) := by
  unfold State.enter
  split
  · rename_i h; simp [h]
  · split
    · rename_i h; exact lanesAt_merge ps b a m h
    · rw [lanesAt_append, lanesAt_cons]
      simp [lanesAt]

/-- The lanes that a list of continuations puts at an address. -/
def sentTo (next : List (VAddr × LaneMask)) (a : VAddr) : LaneMask :=
  next.foldl (fun m e => m ||| (if e.1 = a then e.2 else 0)) 0

theorem sentTo_fold (next : List (VAddr × LaneMask)) (a : VAddr) (m : LaneMask) :
    next.foldl (fun m e => m ||| (if e.1 = a then e.2 else 0)) m = m ||| sentTo next a := by
  induction next generalizing m with
  | nil => simp [sentTo]
  | cons e t ih =>
    simp only [sentTo, List.foldl_cons]
    rw [ih, ih (0 ||| (if e.1 = a then e.2 else 0))]
    simp [BitVec.or_assoc]

theorem sentTo_cons (e : VAddr × LaneMask) (next : List (VAddr × LaneMask)) (a : VAddr) :
    sentTo (e :: next) a = (if e.1 = a then e.2 else 0) ||| sentTo next a := by
  rw [sentTo, List.foldl_cons, sentTo_fold]
  simp

theorem sentTo_append (x y : List (VAddr × LaneMask)) (a : VAddr) : sentTo (x ++ y) a = sentTo x a ||| sentTo y a := by
  rw [sentTo, List.foldl_append, sentTo_fold]
  rfl

theorem lanesAt_enterAll (s : State) (core : Nat) (rg : Regime) (ps : List Path) (next : List (VAddr × LaneMask))
    (a : VAddr) : lanesAt (s.enterAll core rg ps next) a = lanesAt ps a ||| sentTo next a := by
  unfold State.enterAll
  induction next generalizing ps with
  | nil => simp [sentTo]
  | cons e t ih =>
    rw [List.foldl_cons, ih, lanesAt_enter, sentTo_cons, BitVec.or_assoc]

/-! The troupe after the end of its clause. -/

theorem troupe_setTroupe (s : State) {k : TKey} (t : Troupe) (h : k.num < 2 ^ 20) : (s.setTroupe k t).troupe? k = some t := by
  unfold State.setTroupe State.troupe?
  rw [if_neg (by omega), if_neg (by omega)]
  exact sfind_sset_self ..

theorem troupe_offPipe (s : State) (k j : TKey) : (s.offPipe k).troupe? j = s.troupe? j := rfl
theorem troupe_post (s : State) (e : Ev) (j : TKey) : (s.post e).troupe? j = s.troupe? j := rfl
theorem troupe_current (s : State) (x : Option TKey) (j : TKey) : ({ s with current := x } : State).troupe? j = s.troupe? j :=
  rfl

theorem troupe_postOnce (s : State) (e : Ev) (j : TKey) : (s.postOnce e).troupe? j = s.troupe? j := by
  unfold State.postOnce
  split <;> rfl

theorem troupe_at (s : State) (n : Nat) (e : Ev) (j : TKey) : (s.at n e).troupe? j = s.troupe? j := by
  unfold State.at
  split <;> rfl

theorem troupe_reGrant (s : State) (k j : TKey) : (s.reGrant k).troupe? j = s.troupe? j := troupe_postOnce s _ j

theorem current_postOnce (s : State) (e : Ev) : (s.postOnce e).current = s.current := by
  unfold State.postOnce
  split <;> rfl

theorem current_at (s : State) (n : Nat) (e : Ev) : (s.at n e).current = s.current := by
  unfold State.at
  split <;> rfl

theorem troupe_laterOnce (s : State) (e : Ev) (j : TKey) : (s.laterOnce e).troupe? j = s.troupe? j := by
  unfold State.laterOnce
  split
  · rfl
  · exact troupe_at ..

theorem current_laterOnce (s : State) (e : Ev) : (s.laterOnce e).current = s.current := by
  unfold State.laterOnce
  split
  · rfl
  · exact current_at ..

/-- What a clause boundary leaves of its troupe. -/
theorem boundary_troupe (s : State) (k : TKey) (rg : Regime) (t : Troupe) (h : k.num < 2 ^ 20) :
    ∃ t', (s.boundary k rg t).troupe? k = some t' ∧ { t' with yRun := t.yRun, yielded := t.yielded } = t ∧
      t'.issue = t.issue ∧ t'.frontier = t.frontier := by
  unfold State.boundary
  split
  · exact ⟨_, (troupe_at ..).trans (troupe_setTroupe s _ h), rfl, rfl, rfl⟩
  · exact ⟨_, (troupe_laterOnce ..).trans (troupe_setTroupe s _ h), rfl, rfl, rfl⟩

/-- All that the end of a clause leaves of its troupe. -/
theorem endClause_troupe (s : State) (c : Ctx) (t : Troupe) (next : List (VAddr × LaneMask)) (h : c.key.num < 2 ^ 20) :
    ∃ t', (s.endClause c t next).troupe? c.key = some t' ∧ t'.issue = none ∧
      t'.frontier = s.enterAll c.key.core c.blk.regime t.frontier next ∧
      { t' with issue := t.issue, frontier := t.frontier, yRun := t.yRun, yielded := t.yielded } = t ∧
      (s.endClause c t next).current = none := by
  unfold State.endClause
  simp only
  split
  · exact ⟨_, (troupe_setTroupe s _ h : _), rfl, rfl, rfl, rfl⟩
  · obtain ⟨t', h1, h2, h3, h4⟩ := boundary_troupe s c.key c.blk.regime
      { t with issue := none, frontier := s.enterAll c.key.core c.blk.regime t.frontier next } h
    refine ⟨t', h1, h3, h4, ?_, rfl⟩
    rw [Troupe.mk.injEq] at h2
    simp_all

/-- The end of a clause moves its lanes. -/
theorem endClause_moves {s : State} {c : Ctx} {i : Instr} {P : Troupe → Prop} {dest : Nat → Option VAddr} {t : Troupe}
    {next : List (VAddr × LaneMask)} (u : State) (hu : SameOutside s u) (hi : exec i s = .next (u.endClause c t next))
    (hk : c.key.num < 2 ^ 20) (hP : P t)
    (hd : ∀ a l, l < 64 → (sentTo next a).getLsbD l = (c.mask.getLsbD l && decide (dest l = some a))) :
    Moves s c i P dest := by
  obtain ⟨t', h1, h2, h3, h4, h5⟩ := endClause_troupe u c t next hk
  refine ⟨_, t, t', hi, hP, h1, h2, h5, ?_, h4, hu.trans (endClause_outside u c t next hk)⟩
  intro a l hl
  rw [h3, lanesAt_enterAll, BitVec.getLsbD_or, hd a l hl]

end Sys2Proof.Machine
end

