-- ==== Sys2Proof/Laws/Elems.lean ====
section
/-! SUPPORT. The elements of a packed value, and what element-wise operations give. -/

namespace Sys2Proof.Machine

theorem wrap_lt (w : Nat) (z : Int) : wrap w z < 2 ^ w := by
  unfold wrap
  have h : (0 : Int) < ((2 ^ w : Nat) : Int) := by exact_mod_cast Nat.two_pow_pos w
  have h1 := Int.emod_lt_of_pos z h
  have h2 := Int.emod_nonneg z (Int.ne_of_gt h)
  omega

theorem joinElems_eq (w : Nat) (xs : List Nat) :
    joinElems w xs = (xs.zipIdx).foldl (fun acc e => acc + e.1 % 2 ^ w * 2 ^ (w * e.2)) 0 := rfl

/-- A packed value of one, two or four elements of one width. -/
theorem joinElems_one (w a : Nat) : joinElems w [a] = a % 2 ^ w := by simp [joinElems]

theorem joinElems_two (w a b : Nat) : joinElems w [a, b] = a % 2 ^ w + b % 2 ^ w * 2 ^ w := by simp [joinElems]

theorem joinElems_four (w a b c d : Nat) : joinElems w [a, b, c, d] =
    a % 2 ^ w + b % 2 ^ w * 2 ^ w + c % 2 ^ w * 2 ^ (w * 2) + d % 2 ^ w * 2 ^ (w * 3) := by simp [joinElems]

/-- The elements of a value of an integer type, joined: each is the element it was, wrapped. -/
theorem joined (t : IntTy) (f : Nat → Int) :
    let x := joinElems t.ew ((List.range t.count).map fun j => wrap t.ew (f j))
    x < 2 ^ (t.ew * t.count) ∧ ∀ j < t.count, bitsOf x (t.ew * j) t.ew = wrap t.ew (f j) := by
  have h32 := fun z => wrap_lt 32 z
  have h64 := fun z => wrap_lt 64 z
  have h16 := fun z => wrap_lt 16 z
  have h8 := fun z => wrap_lt 8 z
  have one : ∀ w, (∀ z, wrap w z < 2 ^ w) → joinElems w [wrap w (f 0)] < 2 ^ (w * 1) ∧
      ∀ j < 1, bitsOf (joinElems w [wrap w (f 0)]) (w * j) w = wrap w (f j) := by
    intro w hw
    rw [joinElems_one, Nat.mod_eq_of_lt (hw _)]
    refine ⟨by simpa using hw (f 0), ?_⟩
    intro j hj
    obtain rfl : j = 0 := by omega
    simp [bitsOf, Nat.mod_eq_of_lt (hw (f 0))]
  have two : joinElems 16 [wrap 16 (f 0), wrap 16 (f 1)] < 2 ^ 32 ∧
      ∀ j < 2, bitsOf (joinElems 16 [wrap 16 (f 0), wrap 16 (f 1)]) (16 * j) 16 = wrap 16 (f j) := by
    have a := h16 (f 0)
    have b := h16 (f 1)
    rw [joinElems_two, Nat.mod_eq_of_lt a, Nat.mod_eq_of_lt b]
    refine ⟨by omega, ?_⟩
    intro j hj
    have : j = 0 ∨ j = 1 := by omega
    rcases this with rfl | rfl <;> simp only [bitsOf] <;> omega
  have four : joinElems 8 [wrap 8 (f 0), wrap 8 (f 1), wrap 8 (f 2), wrap 8 (f 3)] < 2 ^ 32 ∧
      ∀ j < 4, bitsOf (joinElems 8 [wrap 8 (f 0), wrap 8 (f 1), wrap 8 (f 2), wrap 8 (f 3)]) (8 * j) 8 = wrap 8 (f j) := by
    have a := h8 (f 0)
    have b := h8 (f 1)
    have c := h8 (f 2)
    have d := h8 (f 3)
    rw [joinElems_four, Nat.mod_eq_of_lt a, Nat.mod_eq_of_lt b, Nat.mod_eq_of_lt c, Nat.mod_eq_of_lt d]
    refine ⟨by omega, ?_⟩
    intro j hj
    have : j = 0 ∨ j = 1 ∨ j = 2 ∨ j = 3 := by omega
    rcases this with rfl | rfl | rfl | rfl <;> simp only [bitsOf] <;> omega
  cases t
  · exact one 32 h32
  · exact one 32 h32
  · exact one 64 h64
  · exact one 64 h64
  all_goals first | exact two | exact four

theorem map1_eq (t : IntTy) (f : Int → Int) (a : Nat) :
    t.map1 f a = joinElems t.ew ((List.range t.count).map fun j => wrap t.ew (f (elemAt t a j))) := by
  unfold IntTy.map1 elems elemAt
  rw [List.map_map]
  rfl

theorem zip_map_range {A B : Type} (n : Nat) (f : Nat → A) (g : Nat → B) :
    ((List.range n).map f).zip ((List.range n).map g) = (List.range n).map fun j => (f j, g j) := by
  rw [List.zip_map']

theorem map2_eq (t : IntTy) (f : Int → Int → Int) (a b : Nat) :
    t.map2 f a b = joinElems t.ew ((List.range t.count).map fun j => wrap t.ew (f (elemAt t a j) (elemAt t b j))) := by
  unfold IntTy.map2 elems elemAt
  rw [zip_map_range, List.map_map]
  rfl

theorem map3_eq (t : IntTy) (f : Int → Int → Int → Int) (a b c : Nat) :
    t.map3 f a b c =
      joinElems t.ew ((List.range t.count).map fun j => wrap t.ew (f (elemAt t a j) (elemAt t b j) (elemAt t c j))) := by
  unfold IntTy.map3 elems elemAt
  rw [zip_map_range, zip_map_range, List.map_map]
  rfl

/-- An instruction of the common shape, with one source, element by element. -/
theorem elem1 {s : State} {c : Ctx} {i : Instr} {t : IntTy} {sx : Bool} {d a : Opnd} {f : Int → Int}
    (hi : exec i s = laneOp s i sx (fn1 (t.map1 f))) (hd : i.dests = [d]) (hs : i.srcs = [a]) (hn : d.n ≤ 64) :
    ElemDone s c i t d sx fun l j => f (elemAt t (c.t.value l a) j) := by
  refine ⟨fun l => t.map1 f (c.t.value l a), fun l => ?_, fun h => ?_⟩
  · simp only [map1_eq]
    exact joined t _
  · have := laneOp_completes hi hd hn h
    rw [hs] at this ⊢
    exact this

theorem elem2 {s : State} {c : Ctx} {i : Instr} {t : IntTy} {sx : Bool} {d a b : Opnd} {f : Int → Int → Int}
    (hi : exec i s = laneOp s i sx (fn2 (t.map2 f))) (hd : i.dests = [d]) (hs : i.srcs = [a, b]) (hn : d.n ≤ 64) :
    ElemDone s c i t d sx fun l j => f (elemAt t (c.t.value l a) j) (elemAt t (c.t.value l b) j) := by
  refine ⟨fun l => t.map2 f (c.t.value l a) (c.t.value l b), fun l => ?_, fun h => ?_⟩
  · simp only [map2_eq]
    exact joined t _
  · have := laneOp_completes hi hd hn h
    rw [hs] at this ⊢
    exact this

theorem elem3 {s : State} {c : Ctx} {i : Instr} {t : IntTy} {sx : Bool} {d a b e : Opnd} {f : Int → Int → Int → Int}
    (hi : exec i s = laneOp s i sx (fn3 (t.map3 f))) (hd : i.dests = [d]) (hs : i.srcs = [a, b, e]) (hn : d.n ≤ 64) :
    ElemDone s c i t d sx fun l j => f (elemAt t (c.t.value l a) j) (elemAt t (c.t.value l b) j) (elemAt t (c.t.value l e) j) := by
  refine ⟨fun l => t.map3 f (c.t.value l a) (c.t.value l b) (c.t.value l e), fun l => ?_, fun h => ?_⟩
  · simp only [map3_eq]
    exact joined t _
  · have := laneOp_completes hi hd hn h
    rw [hs] at this ⊢
    exact this

/-- An instruction of the common shape, given by its result in each lane. -/
theorem lane_done {s : State} {c : Ctx} {i : Instr} {d : Opnd} {sx : Bool} {f : Nat → List Nat → Nat} {x : Nat → Nat}
    (hi : exec i s = laneOp s i sx f) (hd : i.dests = [d]) (hn : d.n ≤ 64)
    (hx : ∀ l, x l = f l (i.srcs.map fun o => c.t.value l o)) : LaneDone s c i d sx x := by
  intro h
  have := laneOp_completes hi hd hn h
  rw [show x = _ from funext hx]
  exact this

theorem pred_done {s : State} {c : Ctx} {i : Instr} {p : Pred} {f : List Nat → Bool} {b : Nat → Bool}
    (hi : exec i s = predOp s i p f) (hb : ∀ l, b l = f (i.srcs.map fun o => c.t.value l o)) : PredDone s c i p b := by
  intro h
  rw [show b = _ from funext hb]
  exact predOp_completes hi h

end Sys2Proof.Machine
end

