-- ==== Sys2Proof/Laws/Encoding.lean ====
section
/-! SUPPORT. What each field of an encoded word is, for each of the formats (R49 to R53), and that every code stands for
what it was made from (R44, R48, and the tables of each instruction's rule). -/

namespace Sys2Proof

@[simp] theorem encR_op (op d a b c : BitVec 8) (fea feb fec : Bool) (g : BitVec 5) (m : BitVec 16) :
    fld (encR op d a b c fea feb fec g m) 56 8 = op := by
  apply BitVec.eq_of_getLsbD_eq
  intro i hi
  simp only [fld, encR, BitVec.getLsbD_extractLsb', hi, decide_true, Bool.true_and, BitVec.getLsbD_append]
  repeat (first | rw [if_pos (by omega)] | rw [if_neg (by omega)])
  congr 1; omega

@[simp] theorem encR_d (op d a b c : BitVec 8) (fea feb fec : Bool) (g : BitVec 5) (m : BitVec 16) :
    fld (encR op d a b c fea feb fec g m) 48 8 = d := by
  apply BitVec.eq_of_getLsbD_eq
  intro i hi
  simp only [fld, encR, BitVec.getLsbD_extractLsb', hi, decide_true, Bool.true_and, BitVec.getLsbD_append]
  repeat (first | rw [if_pos (by omega)] | rw [if_neg (by omega)])
  congr 1; omega

@[simp] theorem encR_a (op d a b c : BitVec 8) (fea feb fec : Bool) (g : BitVec 5) (m : BitVec 16) :
    fld (encR op d a b c fea feb fec g m) 40 8 = a := by
  apply BitVec.eq_of_getLsbD_eq
  intro i hi
  simp only [fld, encR, BitVec.getLsbD_extractLsb', hi, decide_true, Bool.true_and, BitVec.getLsbD_append]
  repeat (first | rw [if_pos (by omega)] | rw [if_neg (by omega)])
  congr 1; omega

@[simp] theorem encR_b (op d a b c : BitVec 8) (fea feb fec : Bool) (g : BitVec 5) (m : BitVec 16) :
    fld (encR op d a b c fea feb fec g m) 32 8 = b := by
  apply BitVec.eq_of_getLsbD_eq
  intro i hi
  simp only [fld, encR, BitVec.getLsbD_extractLsb', hi, decide_true, Bool.true_and, BitVec.getLsbD_append]
  repeat (first | rw [if_pos (by omega)] | rw [if_neg (by omega)])
  congr 1; omega

@[simp] theorem encR_c (op d a b c : BitVec 8) (fea feb fec : Bool) (g : BitVec 5) (m : BitVec 16) :
    fld (encR op d a b c fea feb fec g m) 24 8 = c := by
  apply BitVec.eq_of_getLsbD_eq
  intro i hi
  simp only [fld, encR, BitVec.getLsbD_extractLsb', hi, decide_true, Bool.true_and, BitVec.getLsbD_append]
  repeat (first | rw [if_pos (by omega)] | rw [if_neg (by omega)])
  congr 1; omega

@[simp] theorem encR_fea (op d a b c : BitVec 8) (fea feb fec : Bool) (g : BitVec 5) (m : BitVec 16) : (encR op d a b c fea feb fec g m).getLsbD 23 = fea := by
  simp only [encR, BitVec.getLsbD_append]
  repeat (first | rw [if_pos (by omega)] | rw [if_neg (by omega)])
  simp

@[simp] theorem encR_feb (op d a b c : BitVec 8) (fea feb fec : Bool) (g : BitVec 5) (m : BitVec 16) : (encR op d a b c fea feb fec g m).getLsbD 22 = feb := by
  simp only [encR, BitVec.getLsbD_append]
  repeat (first | rw [if_pos (by omega)] | rw [if_neg (by omega)])
  simp

@[simp] theorem encR_fec (op d a b c : BitVec 8) (fea feb fec : Bool) (g : BitVec 5) (m : BitVec 16) : (encR op d a b c fea feb fec g m).getLsbD 21 = fec := by
  simp only [encR, BitVec.getLsbD_append]
  repeat (first | rw [if_pos (by omega)] | rw [if_neg (by omega)])
  simp

@[simp] theorem encR_g (op d a b c : BitVec 8) (fea feb fec : Bool) (g : BitVec 5) (m : BitVec 16) :
    fld (encR op d a b c fea feb fec g m) 16 5 = g := by
  apply BitVec.eq_of_getLsbD_eq
  intro i hi
  simp only [fld, encR, BitVec.getLsbD_extractLsb', hi, decide_true, Bool.true_and, BitVec.getLsbD_append]
  repeat (first | rw [if_pos (by omega)] | rw [if_neg (by omega)])
  congr 1; omega

@[simp] theorem encR_m (op d a b c : BitVec 8) (fea feb fec : Bool) (g : BitVec 5) (m : BitVec 16) (lo len : Nat) (h : lo + len ≤ 16) :
    fld (encR op d a b c fea feb fec g m) lo len = m.extractLsb' lo len := by
  apply BitVec.eq_of_getLsbD_eq
  intro i hi
  simp only [fld, encR, BitVec.getLsbD_extractLsb', hi, decide_true, Bool.true_and, BitVec.getLsbD_append]
  repeat (first | rw [if_pos (by omega)] | rw [if_neg (by omega)])

@[simp] theorem encR_m_bit (op d a b c : BitVec 8) (fea feb fec : Bool) (g : BitVec 5) (m : BitVec 16) (i : Nat) (h : i < 16) :
    (encR op d a b c fea feb fec g m).getLsbD i = m.getLsbD i := by
  simp only [encR, BitVec.getLsbD_append]
  repeat (first | rw [if_pos (by omega)] | rw [if_neg (by omega)])

@[simp] theorem encI_op (op d a : BitVec 8) (fea : Bool) (imm : W32) :
    fld (encI op d a fea imm) 56 8 = op := by
  apply BitVec.eq_of_getLsbD_eq
  intro i hi
  simp only [fld, encI, BitVec.getLsbD_extractLsb', hi, decide_true, Bool.true_and, BitVec.getLsbD_append]
  repeat (first | rw [if_pos (by omega)] | rw [if_neg (by omega)])
  congr 1; omega

@[simp] theorem encI_d (op d a : BitVec 8) (fea : Bool) (imm : W32) :
    fld (encI op d a fea imm) 48 8 = d := by
  apply BitVec.eq_of_getLsbD_eq
  intro i hi
  simp only [fld, encI, BitVec.getLsbD_extractLsb', hi, decide_true, Bool.true_and, BitVec.getLsbD_append]
  repeat (first | rw [if_pos (by omega)] | rw [if_neg (by omega)])
  congr 1; omega

@[simp] theorem encI_a (op d a : BitVec 8) (fea : Bool) (imm : W32) :
    fld (encI op d a fea imm) 40 8 = a := by
  apply BitVec.eq_of_getLsbD_eq
  intro i hi
  simp only [fld, encI, BitVec.getLsbD_extractLsb', hi, decide_true, Bool.true_and, BitVec.getLsbD_append]
  repeat (first | rw [if_pos (by omega)] | rw [if_neg (by omega)])
  congr 1; omega

@[simp] theorem encI_fea (op d a : BitVec 8) (fea : Bool) (imm : W32) : (encI op d a fea imm).getLsbD 39 = fea := by
  simp only [encI, BitVec.getLsbD_append]
  repeat (first | rw [if_pos (by omega)] | rw [if_neg (by omega)])
  simp

@[simp] theorem encI_imm (op d a : BitVec 8) (fea : Bool) (imm : W32) (lo len : Nat) (h : lo + len ≤ 32) :
    fld (encI op d a fea imm) lo len = imm.extractLsb' lo len := by
  apply BitVec.eq_of_getLsbD_eq
  intro i hi
  simp only [fld, encI, BitVec.getLsbD_extractLsb', hi, decide_true, Bool.true_and, BitVec.getLsbD_append]
  repeat (first | rw [if_pos (by omega)] | rw [if_neg (by omega)])

@[simp] theorem encI_imm_bit (op d a : BitVec 8) (fea : Bool) (imm : W32) (i : Nat) (h : i < 32) :
    (encI op d a fea imm).getLsbD i = imm.getLsbD i := by
  simp only [encI, BitVec.getLsbD_append]
  repeat (first | rw [if_pos (by omega)] | rw [if_neg (by omega)])

@[simp] theorem encX_op (op d : BitVec 8) (sa sb sc : SReg) (m : BitVec 30) :
    fld (encX op d sa sb sc m) 56 8 = op := by
  apply BitVec.eq_of_getLsbD_eq
  intro i hi
  simp only [fld, encX, BitVec.getLsbD_extractLsb', hi, decide_true, Bool.true_and, BitVec.getLsbD_append]
  repeat (first | rw [if_pos (by omega)] | rw [if_neg (by omega)])
  congr 1; omega

@[simp] theorem encX_d (op d : BitVec 8) (sa sb sc : SReg) (m : BitVec 30) :
    fld (encX op d sa sb sc m) 48 8 = d := by
  apply BitVec.eq_of_getLsbD_eq
  intro i hi
  simp only [fld, encX, BitVec.getLsbD_extractLsb', hi, decide_true, Bool.true_and, BitVec.getLsbD_append]
  repeat (first | rw [if_pos (by omega)] | rw [if_neg (by omega)])
  congr 1; omega

@[simp] theorem encX_m (op d : BitVec 8) (sa sb sc : SReg) (m : BitVec 30) (lo len : Nat) (h : lo + len ≤ 30) :
    fld (encX op d sa sb sc m) lo len = m.extractLsb' lo len := by
  apply BitVec.eq_of_getLsbD_eq
  intro i hi
  simp only [fld, encX, BitVec.getLsbD_extractLsb', hi, decide_true, Bool.true_and, BitVec.getLsbD_append]
  repeat (first | rw [if_pos (by omega)] | rw [if_neg (by omega)])

@[simp] theorem encX_m_bit (op d : BitVec 8) (sa sb sc : SReg) (m : BitVec 30) (i : Nat) (h : i < 30) :
    (encX op d sa sb sc m).getLsbD i = m.getLsbD i := by
  simp only [encX, BitVec.getLsbD_append]
  repeat (first | rw [if_pos (by omega)] | rw [if_neg (by omega)])

@[simp] theorem encC_op (op : BitVec 8) (g : BitVec 5) (kind : BitVec 3) (target : BitVec 48) :
    fld (encC op g kind target) 56 8 = op := by
  apply BitVec.eq_of_getLsbD_eq
  intro i hi
  simp only [fld, encC, BitVec.getLsbD_extractLsb', hi, decide_true, Bool.true_and, BitVec.getLsbD_append]
  repeat (first | rw [if_pos (by omega)] | rw [if_neg (by omega)])
  congr 1; omega

@[simp] theorem encC_g (op : BitVec 8) (g : BitVec 5) (kind : BitVec 3) (target : BitVec 48) :
    fld (encC op g kind target) 51 5 = g := by
  apply BitVec.eq_of_getLsbD_eq
  intro i hi
  simp only [fld, encC, BitVec.getLsbD_extractLsb', hi, decide_true, Bool.true_and, BitVec.getLsbD_append]
  repeat (first | rw [if_pos (by omega)] | rw [if_neg (by omega)])
  congr 1; omega

@[simp] theorem encC_kind (op : BitVec 8) (g : BitVec 5) (kind : BitVec 3) (target : BitVec 48) :
    fld (encC op g kind target) 48 3 = kind := by
  apply BitVec.eq_of_getLsbD_eq
  intro i hi
  simp only [fld, encC, BitVec.getLsbD_extractLsb', hi, decide_true, Bool.true_and, BitVec.getLsbD_append]
  repeat (first | rw [if_pos (by omega)] | rw [if_neg (by omega)])
  congr 1; omega

@[simp] theorem encC_target (op : BitVec 8) (g : BitVec 5) (kind : BitVec 3) (target : BitVec 48) (lo len : Nat) (h : lo + len ≤ 48) :
    fld (encC op g kind target) lo len = target.extractLsb' lo len := by
  apply BitVec.eq_of_getLsbD_eq
  intro i hi
  simp only [fld, encC, BitVec.getLsbD_extractLsb', hi, decide_true, Bool.true_and, BitVec.getLsbD_append]
  repeat (first | rw [if_pos (by omega)] | rw [if_neg (by omega)])

@[simp] theorem encC_target_bit (op : BitVec 8) (g : BitVec 5) (kind : BitVec 3) (target : BitVec 48) (i : Nat) (h : i < 48) :
    (encC op g kind target).getLsbD i = target.getLsbD i := by
  simp only [encC, BitVec.getLsbD_append]
  repeat (first | rw [if_pos (by omega)] | rw [if_neg (by omega)])

@[simp] theorem encM_op (op d : BitVec 8) (fed : Bool) (g : BitVec 5) (m : MAddr) (aop : BitVec 6) :
    fld (encM op d fed g m aop) 56 8 = op := by
  apply BitVec.eq_of_getLsbD_eq
  intro i hi
  simp only [fld, encM, BitVec.getLsbD_extractLsb', hi, decide_true, Bool.true_and, BitVec.getLsbD_append]
  repeat (first | rw [if_pos (by omega)] | rw [if_neg (by omega)])
  congr 1; omega

@[simp] theorem encM_d (op d : BitVec 8) (fed : Bool) (g : BitVec 5) (m : MAddr) (aop : BitVec 6) :
    fld (encM op d fed g m aop) 48 8 = d := by
  apply BitVec.eq_of_getLsbD_eq
  intro i hi
  simp only [fld, encM, BitVec.getLsbD_extractLsb', hi, decide_true, Bool.true_and, BitVec.getLsbD_append]
  repeat (first | rw [if_pos (by omega)] | rw [if_neg (by omega)])
  congr 1; omega

@[simp] theorem encM_fed (op d : BitVec 8) (fed : Bool) (g : BitVec 5) (m : MAddr) (aop : BitVec 6) : (encM op d fed g m aop).getLsbD 34 = fed := by
  simp only [encM, BitVec.getLsbD_append]
  repeat (first | rw [if_pos (by omega)] | rw [if_neg (by omega)])
  simp

@[simp] theorem encM_g (op d : BitVec 8) (fed : Bool) (g : BitVec 5) (m : MAddr) (aop : BitVec 6) :
    fld (encM op d fed g m aop) 29 5 = g := by
  apply BitVec.eq_of_getLsbD_eq
  intro i hi
  simp only [fld, encM, BitVec.getLsbD_extractLsb', hi, decide_true, Bool.true_and, BitVec.getLsbD_append]
  repeat (first | rw [if_pos (by omega)] | rw [if_neg (by omega)])
  congr 1; omega

@[simp] theorem encM_aop (op d : BitVec 8) (fed : Bool) (g : BitVec 5) (m : MAddr) (aop : BitVec 6) (lo len : Nat) (h : lo + len ≤ 6) :
    fld (encM op d fed g m aop) lo len = aop.extractLsb' lo len := by
  apply BitVec.eq_of_getLsbD_eq
  intro i hi
  simp only [fld, encM, BitVec.getLsbD_extractLsb', hi, decide_true, Bool.true_and, BitVec.getLsbD_append]
  repeat (first | rw [if_pos (by omega)] | rw [if_neg (by omega)])

@[simp] theorem encM_aop_bit (op d : BitVec 8) (fed : Bool) (g : BitVec 5) (m : MAddr) (aop : BitVec 6) (i : Nat) (h : i < 6) :
    (encM op d fed g m aop).getLsbD i = aop.getLsbD i := by
  simp only [encM, BitVec.getLsbD_append]
  repeat (first | rw [if_pos (by omega)] | rw [if_neg (by omega)])

@[simp] theorem encX_sa (op d : BitVec 8) (sa sb sc : SReg) (m : BitVec 30) :
    fld (encX op d sa sb sc m) 42 6 = (BitVec.ofFin sa : BitVec 6) := by
  apply BitVec.eq_of_getLsbD_eq
  intro i hi
  simp only [fld, encX, BitVec.getLsbD_extractLsb', hi, decide_true, Bool.true_and, BitVec.getLsbD_append]
  repeat (first | rw [if_pos (by omega)] | rw [if_neg (by omega)])
  congr 1; omega

@[simp] theorem encX_sb (op d : BitVec 8) (sa sb sc : SReg) (m : BitVec 30) :
    fld (encX op d sa sb sc m) 36 6 = (BitVec.ofFin sb : BitVec 6) := by
  apply BitVec.eq_of_getLsbD_eq
  intro i hi
  simp only [fld, encX, BitVec.getLsbD_extractLsb', hi, decide_true, Bool.true_and, BitVec.getLsbD_append]
  repeat (first | rw [if_pos (by omega)] | rw [if_neg (by omega)])
  congr 1; omega

@[simp] theorem encX_sc (op d : BitVec 8) (sa sb sc : SReg) (m : BitVec 30) :
    fld (encX op d sa sb sc m) 30 6 = (BitVec.ofFin sc : BitVec 6) := by
  apply BitVec.eq_of_getLsbD_eq
  intro i hi
  simp only [fld, encX, BitVec.getLsbD_extractLsb', hi, decide_true, Bool.true_and, BitVec.getLsbD_append]
  repeat (first | rw [if_pos (by omega)] | rw [if_neg (by omega)])
  congr 1; omega

@[simp] theorem encM_idx (op d : BitVec 8) (fed : Bool) (g : BitVec 5) (m : MAddr) (aop : BitVec 6) :
    fld (encM op d fed g m aop) 40 8 = m.idx.reg.code := by
  apply BitVec.eq_of_getLsbD_eq
  intro i hi
  simp only [fld, encM, BitVec.getLsbD_extractLsb', hi, decide_true, Bool.true_and, BitVec.getLsbD_append]
  repeat (first | rw [if_pos (by omega)] | rw [if_neg (by omega)])
  congr 1; omega

@[simp] theorem encM_buf (op d : BitVec 8) (fed : Bool) (g : BitVec 5) (m : MAddr) (aop : BitVec 6) :
    fld (encM op d fed g m aop) 36 4 = (BitVec.ofFin m.buf : BitVec 4) := by
  apply BitVec.eq_of_getLsbD_eq
  intro i hi
  simp only [fld, encM, BitVec.getLsbD_extractLsb', hi, decide_true, Bool.true_and, BitVec.getLsbD_append]
  repeat (first | rw [if_pos (by omega)] | rw [if_neg (by omega)])
  congr 1; omega

@[simp] theorem encM_off (op d : BitVec 8) (fed : Bool) (g : BitVec 5) (m : MAddr) (aop : BitVec 6) :
    fld (encM op d fed g m aop) 16 13 = m.off := by
  apply BitVec.eq_of_getLsbD_eq
  intro i hi
  simp only [fld, encM, BitVec.getLsbD_extractLsb', hi, decide_true, Bool.true_and, BitVec.getLsbD_append]
  repeat (first | rw [if_pos (by omega)] | rw [if_neg (by omega)])
  congr 1; omega

@[simp] theorem encM_w (op d : BitVec 8) (fed : Bool) (g : BitVec 5) (m : MAddr) (aop : BitVec 6) :
    fld (encM op d fed g m aop) 13 3 = m.w.code := by
  apply BitVec.eq_of_getLsbD_eq
  intro i hi
  simp only [fld, encM, BitVec.getLsbD_extractLsb', hi, decide_true, Bool.true_and, BitVec.getLsbD_append]
  repeat (first | rw [if_pos (by omega)] | rw [if_neg (by omega)])
  congr 1; omega

@[simp] theorem encM_scope (op d : BitVec 8) (fed : Bool) (g : BitVec 5) (m : MAddr) (aop : BitVec 6) :
    fld (encM op d fed g m aop) 10 3 = (BitVec.ofFin m.scope : BitVec 3) := by
  apply BitVec.eq_of_getLsbD_eq
  intro i hi
  simp only [fld, encM, BitVec.getLsbD_extractLsb', hi, decide_true, Bool.true_and, BitVec.getLsbD_append]
  repeat (first | rw [if_pos (by omega)] | rw [if_neg (by omega)])
  congr 1; omega

@[simp] theorem encM_lease (op d : BitVec 8) (fed : Bool) (g : BitVec 5) (m : MAddr) (aop : BitVec 6) :
    fld (encM op d fed g m aop) 8 2 = (BitVec.ofFin m.lease : BitVec 2) := by
  apply BitVec.eq_of_getLsbD_eq
  intro i hi
  simp only [fld, encM, BitVec.getLsbD_extractLsb', hi, decide_true, Bool.true_and, BitVec.getLsbD_append]
  repeat (first | rw [if_pos (by omega)] | rw [if_neg (by omega)])
  congr 1; omega

@[simp] theorem encM_hint (op d : BitVec 8) (fed : Bool) (g : BitVec 5) (m : MAddr) (aop : BitVec 6) :
    fld (encM op d fed g m aop) 6 2 = (BitVec.ofFin m.hint : BitVec 2) := by
  apply BitVec.eq_of_getLsbD_eq
  intro i hi
  simp only [fld, encM, BitVec.getLsbD_extractLsb', hi, decide_true, Bool.true_and, BitVec.getLsbD_append]
  repeat (first | rw [if_pos (by omega)] | rw [if_neg (by omega)])
  congr 1; omega

@[simp] theorem encM_trapEmpty (op d : BitVec 8) (fed : Bool) (g : BitVec 5) (m : MAddr) (aop : BitVec 6) : (encM op d fed g m aop).getLsbD 35 = m.idx.trapEmpty := by
  simp only [encM, BitVec.getLsbD_append]
  repeat (first | rw [if_pos (by omega)] | rw [if_neg (by omega)])
  simp

@[simp] theorem encR_hi (op d a b c : BitVec 8) (fea feb fec : Bool) (g : BitVec 5) (m : BitVec 16) :
    fld (encR op d a b c fea feb fec g m) 60 4 = op.extractLsb' 4 4 := by
  apply BitVec.eq_of_getLsbD_eq
  intro i hi
  simp only [fld, encR, BitVec.getLsbD_extractLsb', hi, decide_true, Bool.true_and, BitVec.getLsbD_append]
  repeat (first | rw [if_pos (by omega)] | rw [if_neg (by omega)])
  congr 1; omega

@[simp] theorem encR_lo (op d a b c : BitVec 8) (fea feb fec : Bool) (g : BitVec 5) (m : BitVec 16) :
    fld (encR op d a b c fea feb fec g m) 56 4 = op.extractLsb' 0 4 := by
  apply BitVec.eq_of_getLsbD_eq
  intro i hi
  simp only [fld, encR, BitVec.getLsbD_extractLsb', hi, decide_true, Bool.true_and, BitVec.getLsbD_append]
  repeat (first | rw [if_pos (by omega)] | rw [if_neg (by omega)])
  congr 1; omega

@[simp] theorem encR_bc (op d a b c : BitVec 8) (fea feb fec : Bool) (g : BitVec 5) (m : BitVec 16) :
    fld (encR op d a b c fea feb fec g m) 24 16 = (b ++ c : BitVec 16) := by
  apply BitVec.eq_of_getLsbD_eq
  intro i hi
  simp only [fld, encR, BitVec.getLsbD_extractLsb', hi, decide_true, Bool.true_and, BitVec.getLsbD_append]
  by_cases h : i < 8
  all_goals repeat (first | rw [if_pos (by omega)] | rw [if_neg (by omega)])
  all_goals (congr 1; omega)

@[simp] theorem encR_bcModes (op d a b c : BitVec 8) (fea feb fec : Bool) (g : BitVec 5) (m : BitVec 16) :
    fld (encR op d a b c fea feb fec g m) 16 7 = (BitVec.ofBool feb ++ BitVec.ofBool fec ++ g : BitVec 7) := by
  apply BitVec.eq_of_getLsbD_eq
  intro i hi
  simp only [fld, encR, BitVec.getLsbD_extractLsb', hi, decide_true, Bool.true_and, BitVec.getLsbD_append]
  by_cases h : i < 5
  · repeat (first | rw [if_pos (by omega)] | rw [if_neg (by omega)])
    congr 1; omega
  by_cases h1 : i < 6
  all_goals repeat (first | rw [if_pos (by omega)] | rw [if_neg (by omega)])
  all_goals (congr 1; omega)

@[simp] theorem encR_cMode (op d a b c : BitVec 8) (fea feb fec : Bool) (g : BitVec 5) (m : BitVec 16) :
    fld (encR op d a b c fea feb fec g m) 16 6 = (BitVec.ofBool fec ++ g : BitVec 6) := by
  apply BitVec.eq_of_getLsbD_eq
  intro i hi
  simp only [fld, encR, BitVec.getLsbD_extractLsb', hi, decide_true, Bool.true_and, BitVec.getLsbD_append]
  by_cases h : i < 5
  all_goals repeat (first | rw [if_pos (by omega)] | rw [if_neg (by omega)])
  all_goals (congr 1; omega)

@[simp] theorem encI_hi (op d a : BitVec 8) (fea : Bool) (imm : W32) :
    fld (encI op d a fea imm) 60 4 = op.extractLsb' 4 4 := by
  apply BitVec.eq_of_getLsbD_eq
  intro i hi
  simp only [fld, encI, BitVec.getLsbD_extractLsb', hi, decide_true, Bool.true_and, BitVec.getLsbD_append]
  repeat (first | rw [if_pos (by omega)] | rw [if_neg (by omega)])
  congr 1; omega

@[simp] theorem encI_lo (op d a : BitVec 8) (fea : Bool) (imm : W32) :
    fld (encI op d a fea imm) 56 4 = op.extractLsb' 0 4 := by
  apply BitVec.eq_of_getLsbD_eq
  intro i hi
  simp only [fld, encI, BitVec.getLsbD_extractLsb', hi, decide_true, Bool.true_and, BitVec.getLsbD_append]
  repeat (first | rw [if_pos (by omega)] | rw [if_neg (by omega)])
  congr 1; omega

@[simp] theorem encI_zero (op d a : BitVec 8) (fea : Bool) (imm : W32) :
    fld (encI op d a fea imm) 32 7 = (0#7 : BitVec 7) := by
  apply BitVec.eq_of_getLsbD_eq
  intro i hi
  simp only [fld, encI, BitVec.getLsbD_extractLsb', hi, decide_true, Bool.true_and, BitVec.getLsbD_append]
  repeat (first | rw [if_pos (by omega)] | rw [if_neg (by omega)])
  simp

@[simp] theorem encX_hi (op d : BitVec 8) (sa sb sc : SReg) (m : BitVec 30) :
    fld (encX op d sa sb sc m) 60 4 = op.extractLsb' 4 4 := by
  apply BitVec.eq_of_getLsbD_eq
  intro i hi
  simp only [fld, encX, BitVec.getLsbD_extractLsb', hi, decide_true, Bool.true_and, BitVec.getLsbD_append]
  repeat (first | rw [if_pos (by omega)] | rw [if_neg (by omega)])
  congr 1; omega

@[simp] theorem encX_lo (op d : BitVec 8) (sa sb sc : SReg) (m : BitVec 30) :
    fld (encX op d sa sb sc m) 56 4 = op.extractLsb' 0 4 := by
  apply BitVec.eq_of_getLsbD_eq
  intro i hi
  simp only [fld, encX, BitVec.getLsbD_extractLsb', hi, decide_true, Bool.true_and, BitVec.getLsbD_append]
  repeat (first | rw [if_pos (by omega)] | rw [if_neg (by omega)])
  congr 1; omega

@[simp] theorem encC_hi (op : BitVec 8) (g : BitVec 5) (kind : BitVec 3) (target : BitVec 48) :
    fld (encC op g kind target) 60 4 = op.extractLsb' 4 4 := by
  apply BitVec.eq_of_getLsbD_eq
  intro i hi
  simp only [fld, encC, BitVec.getLsbD_extractLsb', hi, decide_true, Bool.true_and, BitVec.getLsbD_append]
  repeat (first | rw [if_pos (by omega)] | rw [if_neg (by omega)])
  congr 1; omega

@[simp] theorem encC_lo (op : BitVec 8) (g : BitVec 5) (kind : BitVec 3) (target : BitVec 48) :
    fld (encC op g kind target) 56 4 = op.extractLsb' 0 4 := by
  apply BitVec.eq_of_getLsbD_eq
  intro i hi
  simp only [fld, encC, BitVec.getLsbD_extractLsb', hi, decide_true, Bool.true_and, BitVec.getLsbD_append]
  repeat (first | rw [if_pos (by omega)] | rw [if_neg (by omega)])
  congr 1; omega

@[simp] theorem encM_hi (op d : BitVec 8) (fed : Bool) (g : BitVec 5) (m : MAddr) (aop : BitVec 6) :
    fld (encM op d fed g m aop) 60 4 = op.extractLsb' 4 4 := by
  apply BitVec.eq_of_getLsbD_eq
  intro i hi
  simp only [fld, encM, BitVec.getLsbD_extractLsb', hi, decide_true, Bool.true_and, BitVec.getLsbD_append]
  repeat (first | rw [if_pos (by omega)] | rw [if_neg (by omega)])
  congr 1; omega

@[simp] theorem encM_lo (op d : BitVec 8) (fed : Bool) (g : BitVec 5) (m : MAddr) (aop : BitVec 6) :
    fld (encM op d fed g m aop) 56 4 = op.extractLsb' 0 4 := by
  apply BitVec.eq_of_getLsbD_eq
  intro i hi
  simp only [fld, encM, BitVec.getLsbD_extractLsb', hi, decide_true, Bool.true_and, BitVec.getLsbD_append]
  repeat (first | rw [if_pos (by omega)] | rw [if_neg (by omega)])
  congr 1; omega

/-! Codes. -/

@[simp] theorem IntTy.ofCode_code (x : IntTy) : IntTy.ofCode x.code.toNat = some x := by cases x <;> rfl

@[simp] theorem ConvTy.ofCode_code (x : ConvTy) : ConvTy.ofCode x.code.toNat = some x := by cases x <;> rfl

@[simp] theorem Rounding.ofCode_code (x : Rounding) : Rounding.ofCode x.code.toNat = some x := by cases x <;> rfl

@[simp] theorem FFmt.ofCode_code (x : FFmt) : FFmt.ofCode x.code.toNat = some x := by cases x <;> rfl

@[simp] theorem WideFmt.ofCode_code (x : WideFmt) : WideFmt.ofCode x.code.toNat = some x := by cases x <;> rfl

@[simp] theorem MxFmt.ofCode_code (x : MxFmt) : MxFmt.ofCode x.code.toNat = some x := by cases x <;> rfl

@[simp] theorem TileFmt.ofCode_code (x : TileFmt) : TileFmt.ofCode x.code.toNat = some x := by cases x <;> rfl

@[simp] theorem ICond.ofCode_code (x : ICond) : ICond.ofCode x.code.toNat = some x := by cases x <;> rfl

@[simp] theorem FCond.ofCode_code (x : FCond) : FCond.ofCode x.code.toNat = some x := by cases x <;> rfl

@[simp] theorem ShflMode.ofCode_code (x : ShflMode) : ShflMode.ofCode x.code.toNat = some x := by cases x <;> rfl

@[simp] theorem VoteMode.ofCode_code (x : VoteMode) : VoteMode.ofCode x.code.toNat = some x := by cases x <;> rfl

@[simp] theorem RedOp.ofCode_code (x : RedOp) : RedOp.ofCode x.code.toNat = some x := by cases x <;> rfl

@[simp] theorem FRedOp.ofCode_code (x : FRedOp) : FRedOp.ofCode x.code.toNat = some x := by cases x <;> rfl

@[simp] theorem Special.ofCode_code (x : Special) : Special.ofCode x.code.toNat = some x := by cases x <;> rfl

@[simp] theorem Width.ofCode_code (x : Width) : Width.ofCode x.code.toNat = some x := by cases x <;> rfl

@[simp] theorem AtomOp.ofCode_code (x : AtomOp) : AtomOp.ofCode x.code.toNat = some x := by cases x <;> rfl

@[simp] theorem BField.ofCode_code (x : BField) : BField.ofCode x.code.toNat = some x := by cases x <;> rfl

@[simp] theorem GroupSize.ofCode_code (x : GroupSize) : GroupSize.ofCode x.code.toNat = some x := by cases x <;> rfl

@[simp] theorem XposeBits.ofCode_code (x : XposeBits) : XposeBits.ofCode x.code.toNat = some x := by cases x <;> rfl

@[simp] theorem QstatWhat.ofCode_code (x : QstatWhat) : QstatWhat.ofCode x.code.toNat = some x := by cases x <;> rfl

@[simp] theorem TlbKind.ofCode_code (x : TlbKind) : TlbKind.ofCode x.code.toNat = some x := by cases x <;> rfl

@[simp] theorem RdcKind.ofCode_code (x : RdcKind) : RdcKind.ofCode x.code.toNat = some x := by cases x <;> rfl

@[simp] theorem Reg.ofCode_code (r : Reg) : Reg.ofCode r.code = r := by
  cases r with
  | v n =>
    have h : n.val < 2 ^ 8 := by omega
    have h1 : n.val < 192 := n.isLt
    simp only [Reg.code, Reg.ofCode, BitVec.toNat_ofNat, Nat.mod_eq_of_lt h, h1, dif_pos]
  | s n =>
    have h : 192 + n.val < 2 ^ 8 := by omega
    simp only [Reg.code, Reg.ofCode, BitVec.toNat_ofNat, Nat.mod_eq_of_lt h]
    rw [dif_neg (by omega)]
    simp

@[simp] theorem SReg.ofCode_code (s : SReg) : SReg.ofCode (Reg.s s).code = .ok s := by
  simp [SReg.ofCode]

theorem sr_ne_zero (s : SReg) : sr s ≠ 0 := by
  revert s; decide

@[simp] theorem optSReg_code (s : Option SReg) : optSReg (optSReg.code s) = .ok s := by
  cases s with
  | none => rfl
  | some s =>
    have h : (Reg.s s).code ≠ 0 := sr_ne_zero s
    simp only [optSReg, optSReg.code, if_neg h, SReg.ofCode_code]
    rfl

@[simp] theorem Guard.ofCode_code (g : Option Guard) : Guard.ofCode (Guard.code g) = .ok g := by
  cases g with
  | none => rfl
  | some g =>
    obtain ⟨inv, p⟩ := g
    have h : ∀ (p : Fin 8) (b : Bool), (Guard.code (some ⟨b, p⟩)).getLsbD 4 = true ∧
        (Guard.code (some ⟨b, p⟩)).getLsbD 3 = b ∧ ((Guard.code (some ⟨b, p⟩)).extractLsb' 0 3).toFin = p := by decide
    obtain ⟨h1, h2, h3⟩ := h p inv
    simp only [Guard.ofCode, h1, h2, h3, if_true]

end Sys2Proof
end

