-- ==== Sys2Proof/Laws/Harts.lean ====
section
/-! SUPPORT. The small laws of a hart: where it goes on, what x0 does, and what its registers leave alone. -/

namespace Sys2Proof.Machine

@[simp] theorem Hart.goTo_pc (h : Hart) (a : W64) : (h.goTo a).pc = a := rfl
@[simp] theorem Hart.goTo_mode (h : Hart) (a : W64) : (h.goTo a).mode = h.mode := rfl
@[simp] theorem Hart.goTo_x (h : Hart) (a : W64) : (h.goTo a).x = h.x := rfl
@[simp] theorem Hart.goTo_outstanding (h : Hart) (a : W64) : (h.goTo a).outstanding = [] := rfl
@[simp] theorem Hart.next_pc (h : Hart) : h.next.pc = h.after := rfl
@[simp] theorem Hart.setCsr_x (h : Hart) (n v : Nat) : (h.setCsr n v).x = h.x := rfl
@[simp] theorem Hart.setCsr_pc (h : Hart) (n v : Nat) : (h.setCsr n v).pc = h.pc := rfl
@[simp] theorem Hart.reg_zero (h : Hart) : h.reg 0 = 0 := rfl

/-- x0 discards what is written to it. -/
@[simp] theorem Hart.setReg_zero (h : Hart) (v : W64) : h.setReg 0 v = h := rfl

@[simp] theorem Hart.setReg_pc (h : Hart) (r : Nat) (v : W64) : (h.setReg r v).pc = h.pc := by
  unfold Hart.setReg; split <;> rfl
@[simp] theorem Hart.setReg_csr (h : Hart) (r : Nat) (v : W64) : (h.setReg r v).csr = h.csr := by
  unfold Hart.setReg; split <;> rfl
@[simp] theorem Hart.setReg_half (h : Hart) (r : Nat) (v : W64) : (h.setReg r v).half = h.half := by
  unfold Hart.setReg; split <;> rfl

/-- An instruction that writes a register goes on behind itself. -/
@[simp] theorem Hart.done_pc (h : Hart) (rd : Nat) (v : W64) : (h.done rd v).pc = h.after := by
  simp [Hart.done, Hart.after]

/-- A step of a hart that has not left reset does nothing. -/
theorem hartRun_held {s : State} {h : Nat} (hs : (s.hart h).started = false) : s.hartRun h = s := by
  simp [State.hartRun, hs]

end Sys2Proof.Machine
end

