-- ==== Sys2Proof/Laws/Memory.lean ====
section
/-! SUPPORT. The laws of memory: a read after a write, and that every operation on memory keeps its canonical form. -/

namespace Sys2Proof.Machine

theorem Memory.wf_nil : Memory.wf [] = true := rfl

theorem setByte_wf {m : List Host.Cell} (h : Memory.wf m = true) (a : Nat) (b : Byte) : Memory.wf (setByte m a b) = true :=
  canonical_sput h

theorem setBytes_wf {m : List Host.Cell} (h : Memory.wf m = true) (a : Nat) (bs : List Byte) :
    Memory.wf (setBytes m a bs) = true := by
  induction bs generalizing m a with
  | nil => exact h
  | cons b t ih => exact ih (setByte_wf h a b) (a + 1)

theorem setByteList_wf {m : List Host.Cell} (h : Memory.wf m = true) (bs : List (Nat × Byte)) :
    Memory.wf (bs.foldl (fun m e => setByte m e.1 e.2) m) = true := by
  induction bs generalizing m with
  | nil => exact h
  | cons e t ih => exact ih (setByte_wf h e.1 e.2)

/-- A byte just written reads as it was written. -/
@[simp] theorem memByte_setByte_self (m : List Host.Cell) (a : Nat) (b : Byte) : memByte (setByte m a b) a = b :=
  sget_sput_self _ _ _ _

/-- Every other byte reads as before. -/
theorem memByte_setByte_ne (m : List Host.Cell) {a c : Nat} (b : Byte) (hne : c ≠ a) :
    memByte (setByte m a b) c = memByte m c :=
  sget_sput_ne _ hne

theorem memByte_setBytes_outside (m : List Host.Cell) (a : Nat) (bs : List Byte) {c : Nat}
    (hc : c < a ∨ a + bs.length ≤ c) : memByte (setBytes m a bs) c = memByte m c := by
  induction bs generalizing m a with
  | nil => rfl
  | cons b t ih =>
    simp only [List.length_cons] at hc
    rw [setBytes, ih _ (a + 1) (by omega), memByte_setByte_ne _ b (by omega)]

theorem memByte_setBytes_inside (m : List Host.Cell) (a : Nat) (bs : List Byte) {i : Nat} (hi : i < bs.length) :
    memByte (setBytes m a bs) (a + i) = bs[i] := by
  induction bs generalizing m a i with
  | nil => simp at hi
  | cons b t ih =>
    rw [setBytes]
    cases i with
    | zero => rw [memByte_setBytes_outside _ (a + 1) t (by omega)]; exact memByte_setByte_self m a b
    | succ i =>
      have hi' : i < t.length := by simpa using hi
      have e : a + (i + 1) = a + 1 + i := by omega
      rw [e, ih _ (a + 1) hi']
      rfl

theorem writeLine_wf {h : Homes} (hw : Memory.wf h.mem = true) (line astag : Nat) (bs : List (Nat × Byte))
    (poison full : Bool) : Memory.wf (h.writeLine line astag bs poison full).mem = true :=
  setByteList_wf hw bs

theorem copyLine_wf {h : Homes} (hw : Memory.wf h.mem = true) (a b : Nat) : Memory.wf (h.copyLine a b).mem = true :=
  setBytes_wf hw _ _

theorem clearSlice_wf {h : Homes} (hw : Memory.wf h.mem = true) (slice : Nat) :
    Memory.wf (h.clearSlice slice).mem = true :=
  canonical_filter _ hw

end Sys2Proof.Machine
end

