-- ==== Sys2Proof/Laws/PerInstr.lean ====
section
/-! SUPPORT. Facts about every instruction as syntax, one lemma for each constructor: the opcode that the map of R55
gives it stands in bits [63:56] of its word, and a row of another kind has no word. -/

namespace Sys2Proof.Laws

/-- R55: the opcode of an instruction, from the map; none for an event or an operation of a host core. -/
def opcodeOf : Instr → Option (BitVec 8)
  | .iadd .. => some 0x00
  | .iaddI .. => some 0x01
  | .isub .. => some 0x02
  | .imul .. => some 0x03
  | .imulI .. => some 0x04
  | .imad .. => some 0x05
  | .imadI .. => some 0x06
  | .imuls .. => some 0x07
  | .idiv .. => some 0x08
  | .irem .. => some 0x09
  | .imin .. => some 0x0A
  | .imax .. => some 0x0B
  | .iclamp .. => some 0x0C
  | .iabs .. => some 0x0D
  | .ineg .. => some 0x0E
  | .iadds .. => some 0x0F
  | .isubs .. => some 0x10
  | .iaddc .. => some 0x11
  | .isubb .. => some 0x12
  | .idp4 .. => some 0x13
  | .idp2 .. => some 0x14
  | .isad .. => some 0x15
  | .iscadd .. => some 0x16
  | .and .. => some 0x17
  | .andI .. => some 0x18
  | .or .. => some 0x19
  | .orI .. => some 0x1A
  | .xor .. => some 0x1B
  | .xorI .. => some 0x1C
  | .andn .. => some 0x1D
  | .lmux .. => some 0x1E
  | .shl .. => some 0x1F
  | .shlI .. => some 0x20
  | .shr .. => some 0x21
  | .shrI .. => some 0x22
  | .sra .. => some 0x23
  | .sraI .. => some 0x24
  | .rot .. => some 0x25
  | .fsh .. => some 0x26
  | .popc .. => some 0x27
  | .clz .. => some 0x28
  | .ctz .. => some 0x29
  | .brev .. => some 0x2A
  | .bfe .. => some 0x2B
  | .bfi .. => some 0x2C
  | .bperm .. => some 0x2D
  | .sext .. => some 0x2E
  | .imsk .. => some 0x2F
  | .icmp .. => some 0x30
  | .icmpI .. => some 0x31
  | .iset .. => some 0x32
  | .isetI .. => some 0x33
  | .sel .. => some 0x34
  | .plop .. => some 0x35
  | .pmovToReg .. => some 0x36
  | .pmovToPred .. => some 0x36
  | .mov .. => some 0x37
  | .movi .. => some 0x38
  | .movhi .. => some 0x39
  | .rdlane .. => some 0x3A
  | .wrlane .. => some 0x3B
  | .cvti .. => some 0x3C
  | .ipack .. => some 0x3D
  | .iunpack .. => some 0x3E
  | .fadd .. => some 0x3F
  | .faddI .. => some 0x40
  | .fsub .. => some 0x41
  | .fmul .. => some 0x42
  | .fmulI .. => some 0x43
  | .ffma .. => some 0x44
  | .ffmaI .. => some 0x45
  | .fmin .. => some 0x46
  | .fmax .. => some 0x47
  | .fclamp .. => some 0x48
  | .fcmp .. => some 0x49
  | .fcmpI .. => some 0x4A
  | .fset .. => some 0x4B
  | .frcp .. => some 0x4C
  | .frsq .. => some 0x4D
  | .fsqrt .. => some 0x4E
  | .fdiv .. => some 0x4F
  | .fex2 .. => some 0x50
  | .flg2 .. => some 0x51
  | .fsin .. => some 0x52
  | .fcos .. => some 0x53
  | .ftanh .. => some 0x54
  | .fsigm .. => some 0x55
  | .fsilu .. => some 0x56
  | .ffrc .. => some 0x57
  | .frnd .. => some 0x58
  | .fldexp .. => some 0x59
  | .fmant .. => some 0x5A
  | .fexpo .. => some 0x5B
  | .dadd .. => some 0x5C
  | .dmul .. => some 0x5D
  | .dfma .. => some 0x5E
  | .dcmp .. => some 0x5F
  | .ddiv .. => some 0x60
  | .dsqrt .. => some 0x61
  | .hadd2 .. => some 0x62
  | .hmul2 .. => some 0x63
  | .hfma2 .. => some 0x64
  | .hmin2 .. => some 0x65
  | .hmax2 .. => some 0x66
  | .hcmp2 .. => some 0x67
  | .fdot2 .. => some 0x68
  | .cvtf .. => some 0x69
  | .cvtfi .. => some 0x6A
  | .cvtif .. => some 0x6B
  | .cvt8Encode .. => some 0x6C
  | .cvt8Decode .. => some 0x6C
  | .cvtmxEncode .. => some 0x6D
  | .cvtmxDecode .. => some 0x6D
  | .cvt4Pack .. => some 0x6E
  | .cvt4Deq .. => some 0x6E
  | .bra .. => some 0x6F
  | .brx .. => some 0x70
  | .call .. => some 0x71
  | .callx .. => some 0x72
  | .ret .. => some 0x73
  | .exit .. => some 0x74
  | .trap .. => some 0x75
  | .tret .. => some 0x76
  | .bkpt .. => some 0x77
  | .yield .. => some 0x78
  | .nop .. => some 0x79
  | .sleep .. => some 0x7A
  | .shfl .. => some 0x7B
  | .vote .. => some 0x7C
  | .matchLanes .. => some 0x7D
  | .redux .. => some 0x7E
  | .fredux .. => some 0x7F
  | .scan .. => some 0x80
  | .movsRead .. => some 0x81
  | .movsWrite .. => some 0x81
  | .amask .. => some 0x82
  | .brec .. => some 0x83
  | .brmk .. => some 0x84
  | .brset .. => some 0x85
  | .ld .. => some 0x86
  | .ldc .. => some 0x87
  | .st .. => some 0x88
  | .ldu .. => some 0x89
  | .stu .. => some 0x8A
  | .atom .. => some 0x8B
  | .atomcas .. => some 0x8C
  | .red .. => some 0x8D
  | .prefetch .. => some 0x8E
  | .ldx .. => some 0x8F
  | .stx .. => some 0x90
  | .atomx .. => some 0x91
  | .cwb .. => some 0x92
  | .cinv .. => some 0x93
  | .icinv .. => some 0x94
  | .fetchbar .. => some 0x95
  | .pin .. => some 0x96
  | .unpin .. => some 0x97
  | .pinq .. => some 0x98
  | .mmaE4m3 .. => some 0x99
  | .mmaE5m2 .. => some 0x9A
  | .mmaBf16 .. => some 0x9B
  | .mmaF16 .. => some 0x9C
  | .mmaF32 .. => some 0x9D
  | .mmaI8 .. => some 0x9E
  | .mmaI4 .. => some 0x9F
  | .mmaMxf6 .. => some 0xA0
  | .mmaMxf4 .. => some 0xA1
  | .mmaq .. => some 0xA2
  | .mmaspE4m3 .. => some 0xA3
  | .mmaspBf16 .. => some 0xA4
  | .sclaim .. => some 0xA5
  | .srel .. => some 0xA6
  | .sfill .. => some 0xA7
  | .sdrain .. => some 0xA8
  | .sxpose .. => some 0xA9
  | .mmacvt .. => some 0xAA
  | .copy .. => some 0xAB
  | .cbload .. => some 0xAC
  | .cpstat .. => some 0xAD
  | .cpabort .. => some 0xAE
  | .tadd .. => some 0xAF
  | .tfetch .. => some 0xB0
  | .tmax .. => some 0xB1
  | .tread .. => some 0xB2
  | .treset .. => some 0xB3
  | .wait .. => some 0xB4
  | .waitout .. => some 0xB5
  | .fence .. => some 0xB6
  | .launch .. => some 0xB7
  | .qstat .. => some 0xB8
  | .msend .. => some 0xB9
  | .msendSp .. => some 0xB9
  | .mroute .. => some 0xBA
  | .ecall .. => some 0xBB
  | .sysrd .. => some 0xBC
  | .syswr .. => some 0xBD
  | .tlbinv .. => some 0xBE
  | .rdcinv .. => some 0xBF
  | .hartFence .. | .hartFenceI .. | .cboClean .. | .cboFlush .. | .cboInval .. | .hartCounterLoad ..
  | .hartAmoaddD .. | .hartAmomaxuD .. | .hartLr .. | .hartSc .. | .hartAmo .. | .hartSfenceVma ..
  | .hartHfenceVvma .. | .hartHfenceGvma .. | .clauseIssue .. | .pipeGrant .. | .stallRelease ..
  | .loadDataReturn .. | .gwctReceive .. | .troupeEnd .. | .sleepWake .. | .blockArrival .. | .unitZero ..
  | .blockStart .. | .blockEnd .. | .pinRegistration .. | .pinnedForcedWriteback .. | .retry .. | .reclaim ..
  | .spill .. | .refill .. | .cquotaWrite .. | .turnstilePoll .. | .matrixPeriodStart .. | .matrixWriteback ..
  | .slotPortStart .. | .turnstileOpArrival .. | .deferredOpApply .. | .wakeReceive .. | .waitTimeout ..
  | .heldReleaseSend .. | .fenceComplete .. | .waitoutComplete .. | .chainStart .. | .recordRead ..
  | .recordMoveEnd .. | .completionAdd .. | .chainEnd .. | .cbloadEnd .. | .reduceContribution ..
  | .heldContributionTimeout .. | .xbarRequest .. | .xbarSpillRetry .. | .redirectedAccess ..
  | .residentGangStart .. | .homeWrite .. | .homeRead .. | .recall .. | .recallAck .. | .channelTransfer ..
  | .l2pinqWrite .. | .sltokWrite .. | .hartStoreDrain .. | .portCtlWrite .. | .portCancelWrite ..
  | .portWaitEnd .. | .uncorrectableError .. | .unitSelfTest .. | .contextSave .. | .ringEntryDelivery ..
  | .troupeRestore .. | .vfcfgWrite .. | .vfReset .. | .vfResetComplete .. | .migStart .. | .migEnd ..
  | .migAbort .. | .migrationPass .. | .addslice .. | .remslice .. | .setband .. | .clrband .. | .attest ..
  | .tlbinvComplete .. | .qcmdEnable .. | .qcmdDisable .. | .calendarLoad .. | .ticketFetch .. | .ticketReady ..
  | .placement .. | .ticketComplete .. | .calendarSlotStart .. | .calendarPeriodStart .. | .roundStart ..
  | .wholeBlockSave .. | .snapshotStart .. | .snapshotAbort .. | .snapshotCut .. | .snapshotComplete ..
  | .sliceLoss .. | .powerOn .. | .manifestReceive .. | .powerLoss .. | .thermalTrip .. | .pwrcapWrite ..
  | .monitorUpdate .. | .nirtLoad .. | .xptblLoad .. | .peerrtLoad .. | .switchForward .. | .transitCheck ..
  | .messageDelivery .. | .messageStatusReply .. | .sequenceSkip .. | .linkTransferFail .. | .linkLaneTest ..
  | .niMaskRefresh .. | .packetReturn .. | .flowResendTimeout .. | .flowAck .. | .flowReset .. | .flowResetAck ..
  | .peerRequest .. | .ethFrameReceive .. | .linkTraining .. | .systemRegisterWrite .. | .correctableError ..
  | .slotPortEnd .. | .turnstileAcknowledgement .. | .rdcinvComplete .. | .pinComplete .. | .peerStopsAnswering ..
  | .hartStore .. | .sstcTimer .. => none

def HasOpcode.Statement (i : Instr) : Prop :=
  match opcodeOf i with
  | some op => ∃ w, encode i = some w ∧ fld w 56 8 = op
  | none => encode i = none

theorem HasOpcode.iadd : ∀ (t : IntTy) (o : R2), HasOpcode.Statement (.iadd t o) := by
  intro t o
  exact ⟨_, rfl, encR_op ..⟩
theorem HasOpcode.iaddI : ∀ (o : I1), HasOpcode.Statement (.iaddI o) := by
  intro o
  exact ⟨_, rfl, encI_op ..⟩
theorem HasOpcode.isub : ∀ (t : IntTy) (o : R2), HasOpcode.Statement (.isub t o) := by
  intro t o
  exact ⟨_, rfl, encR_op ..⟩
theorem HasOpcode.imul : ∀ (t : IntTy) (hi : Bool) (o : R2), HasOpcode.Statement (.imul t hi o) := by
  intro t hi o
  exact ⟨_, rfl, encR_op ..⟩
theorem HasOpcode.imulI : ∀ (o : I1), HasOpcode.Statement (.imulI o) := by
  intro o
  exact ⟨_, rfl, encI_op ..⟩
theorem HasOpcode.imad : ∀ (t : IntTy) (o : R3), HasOpcode.Statement (.imad t o) := by
  intro t o
  exact ⟨_, rfl, encR_op ..⟩
theorem HasOpcode.imadI : ∀ (o : I1), HasOpcode.Statement (.imadI o) := by
  intro o
  exact ⟨_, rfl, encI_op ..⟩
theorem HasOpcode.imuls : ∀ (t : IntTy) (o : R2), HasOpcode.Statement (.imuls t o) := by
  intro t o
  exact ⟨_, rfl, encR_op ..⟩
theorem HasOpcode.idiv : ∀ (t : IntTy) (nt : Bool) (o : R2), HasOpcode.Statement (.idiv t nt o) := by
  intro t nt o
  exact ⟨_, rfl, encR_op ..⟩
theorem HasOpcode.irem : ∀ (t : IntTy) (nt : Bool) (o : R2), HasOpcode.Statement (.irem t nt o) := by
  intro t nt o
  exact ⟨_, rfl, encR_op ..⟩
theorem HasOpcode.imin : ∀ (t : IntTy) (o : R2), HasOpcode.Statement (.imin t o) := by
  intro t o
  exact ⟨_, rfl, encR_op ..⟩
theorem HasOpcode.imax : ∀ (t : IntTy) (o : R2), HasOpcode.Statement (.imax t o) := by
  intro t o
  exact ⟨_, rfl, encR_op ..⟩
theorem HasOpcode.iclamp : ∀ (t : IntTy) (o : R3), HasOpcode.Statement (.iclamp t o) := by
  intro t o
  exact ⟨_, rfl, encR_op ..⟩
theorem HasOpcode.iabs : ∀ (t : IntTy) (sat : Bool) (o : R1), HasOpcode.Statement (.iabs t sat o) := by
  intro t sat o
  exact ⟨_, rfl, encR_op ..⟩
theorem HasOpcode.ineg : ∀ (t : IntTy) (sat : Bool) (o : R1), HasOpcode.Statement (.ineg t sat o) := by
  intro t sat o
  exact ⟨_, rfl, encR_op ..⟩
theorem HasOpcode.iadds : ∀ (t : IntTy) (o : R2), HasOpcode.Statement (.iadds t o) := by
  intro t o
  exact ⟨_, rfl, encR_op ..⟩
theorem HasOpcode.isubs : ∀ (t : IntTy) (o : R2), HasOpcode.Statement (.isubs t o) := by
  intro t o
  exact ⟨_, rfl, encR_op ..⟩
theorem HasOpcode.iaddc : ∀ (t : IntTy) (ci : Bool) (c : Pred) (o : R2), HasOpcode.Statement (.iaddc t ci c o) := by
  intro t ci c o
  exact ⟨_, rfl, encR_op ..⟩
theorem HasOpcode.isubb : ∀ (t : IntTy) (ci : Bool) (c : Pred) (o : R2), HasOpcode.Statement (.isubb t ci c o) := by
  intro t ci c o
  exact ⟨_, rfl, encR_op ..⟩
theorem HasOpcode.idp4 : ∀ (t : IntTy) (sa sb sat : Bool) (o : R3), HasOpcode.Statement (.idp4 t sa sb sat o) := by
  intro t sa sb sat o
  exact ⟨_, rfl, encR_op ..⟩
theorem HasOpcode.idp2 : ∀ (t : IntTy) (sa sb sat : Bool) (o : R3), HasOpcode.Statement (.idp2 t sa sb sat o) := by
  intro t sa sb sat o
  exact ⟨_, rfl, encR_op ..⟩
theorem HasOpcode.isad : ∀ (t : IntTy) (o : R3), HasOpcode.Statement (.isad t o) := by
  intro t o
  exact ⟨_, rfl, encR_op ..⟩
theorem HasOpcode.iscadd : ∀ (t : IntTy) (n : BitVec 6) (o : R2), HasOpcode.Statement (.iscadd t n o) := by
  intro t n o
  exact ⟨_, rfl, encR_op ..⟩
theorem HasOpcode.and : ∀ (t : IntTy) (o : R2), HasOpcode.Statement (.and t o) := by
  intro t o
  exact ⟨_, rfl, encR_op ..⟩
theorem HasOpcode.andI : ∀ (o : I1), HasOpcode.Statement (.andI o) := by
  intro o
  exact ⟨_, rfl, encI_op ..⟩
theorem HasOpcode.or : ∀ (t : IntTy) (o : R2), HasOpcode.Statement (.or t o) := by
  intro t o
  exact ⟨_, rfl, encR_op ..⟩
theorem HasOpcode.orI : ∀ (o : I1), HasOpcode.Statement (.orI o) := by
  intro o
  exact ⟨_, rfl, encI_op ..⟩
theorem HasOpcode.xor : ∀ (t : IntTy) (o : R2), HasOpcode.Statement (.xor t o) := by
  intro t o
  exact ⟨_, rfl, encR_op ..⟩
theorem HasOpcode.xorI : ∀ (o : I1), HasOpcode.Statement (.xorI o) := by
  intro o
  exact ⟨_, rfl, encI_op ..⟩
theorem HasOpcode.andn : ∀ (t : IntTy) (o : R2), HasOpcode.Statement (.andn t o) := by
  intro t o
  exact ⟨_, rfl, encR_op ..⟩
theorem HasOpcode.lmux : ∀ (t : IntTy) (f0 f1 : BitVec 4) (o : R3), HasOpcode.Statement (.lmux t f0 f1 o) := by
  intro t f0 f1 o
  exact ⟨_, rfl, encR_op ..⟩
theorem HasOpcode.shl : ∀ (t : IntTy) (o : R2), HasOpcode.Statement (.shl t o) := by
  intro t o
  exact ⟨_, rfl, encR_op ..⟩
theorem HasOpcode.shlI : ∀ (o : I1), HasOpcode.Statement (.shlI o) := by
  intro o
  exact ⟨_, rfl, encI_op ..⟩
theorem HasOpcode.shr : ∀ (t : IntTy) (o : R2), HasOpcode.Statement (.shr t o) := by
  intro t o
  exact ⟨_, rfl, encR_op ..⟩
theorem HasOpcode.shrI : ∀ (o : I1), HasOpcode.Statement (.shrI o) := by
  intro o
  exact ⟨_, rfl, encI_op ..⟩
theorem HasOpcode.sra : ∀ (t : IntTy) (o : R2), HasOpcode.Statement (.sra t o) := by
  intro t o
  exact ⟨_, rfl, encR_op ..⟩
theorem HasOpcode.sraI : ∀ (o : I1), HasOpcode.Statement (.sraI o) := by
  intro o
  exact ⟨_, rfl, encI_op ..⟩
theorem HasOpcode.rot : ∀ (t : IntTy) (right : Bool) (o : R2), HasOpcode.Statement (.rot t right o) := by
  intro t right o
  exact ⟨_, rfl, encR_op ..⟩
theorem HasOpcode.fsh : ∀ (left : Bool) (o : R3), HasOpcode.Statement (.fsh left o) := by
  intro left o
  exact ⟨_, rfl, encR_op ..⟩
theorem HasOpcode.popc : ∀ (t : IntTy) (o : R1), HasOpcode.Statement (.popc t o) := by
  intro t o
  exact ⟨_, rfl, encR_op ..⟩
theorem HasOpcode.clz : ∀ (t : IntTy) (o : R1), HasOpcode.Statement (.clz t o) := by
  intro t o
  exact ⟨_, rfl, encR_op ..⟩
theorem HasOpcode.ctz : ∀ (t : IntTy) (o : R1), HasOpcode.Statement (.ctz t o) := by
  intro t o
  exact ⟨_, rfl, encR_op ..⟩
theorem HasOpcode.brev : ∀ (t : IntTy) (o : R1), HasOpcode.Statement (.brev t o) := by
  intro t o
  exact ⟨_, rfl, encR_op ..⟩
theorem HasOpcode.bfe : ∀ (t : IntTy) (o : R3), HasOpcode.Statement (.bfe t o) := by
  intro t o
  exact ⟨_, rfl, encR_op ..⟩
theorem HasOpcode.bfi : ∀ (t : IntTy) (o : R3), HasOpcode.Statement (.bfi t o) := by
  intro t o
  exact ⟨_, rfl, encR_op ..⟩
theorem HasOpcode.bperm : ∀ (o : R3), HasOpcode.Statement (.bperm o) := by
  intro o
  exact ⟨_, rfl, encR_op ..⟩
theorem HasOpcode.sext : ∀ (t : IntTy) (o : R2), HasOpcode.Statement (.sext t o) := by
  intro t o
  exact ⟨_, rfl, encR_op ..⟩
theorem HasOpcode.imsk : ∀ (t : IntTy) (o : R2), HasOpcode.Statement (.imsk t o) := by
  intro t o
  exact ⟨_, rfl, encR_op ..⟩
theorem HasOpcode.icmp : ∀ (t : IntTy) (o : R2), HasOpcode.Statement (.icmp t o) := by
  intro t o
  exact ⟨_, rfl, encR_op ..⟩
theorem HasOpcode.icmpI : ∀ (o : I1), HasOpcode.Statement (.icmpI o) := by
  intro o
  exact ⟨_, rfl, encI_op ..⟩
theorem HasOpcode.iset : ∀ (t : IntTy) (c : ICond) (pd : Pred) (o : P2), HasOpcode.Statement (.iset t c pd o) := by
  intro t c pd o
  exact ⟨_, rfl, encR_op ..⟩
theorem HasOpcode.isetI : ∀ (c : ICond) (u : Bool) (pd : Pred) (a : Src) (imm : BitVec 25), HasOpcode.Statement (.isetI c u pd a imm) := by
  intro c u pd a imm
  exact ⟨_, rfl, encI_op ..⟩
theorem HasOpcode.sel : ∀ (g : Option Guard) (w64 inv : Bool) (q : Pred) (o : R2), HasOpcode.Statement (.sel g w64 inv q o) := by
  intro g w64 inv q o
  exact ⟨_, rfl, encR_op ..⟩
theorem HasOpcode.plop : ∀ (pd pa pb : Pred) (lut : BitVec 4), HasOpcode.Statement (.plop pd pa pb lut) := by
  intro pd pa pb lut
  exact ⟨_, rfl, encR_op ..⟩
theorem HasOpcode.pmovToReg : ∀ (d : Reg), HasOpcode.Statement (.pmovToReg d) := by
  intro d
  exact ⟨_, rfl, encR_op ..⟩
theorem HasOpcode.pmovToPred : ∀ (a : Src) (mask : BitVec 8), HasOpcode.Statement (.pmovToPred a mask) := by
  intro a mask
  exact ⟨_, rfl, encR_op ..⟩
theorem HasOpcode.mov : ∀ (w64 : Bool) (o : R1), HasOpcode.Statement (.mov w64 o) := by
  intro w64 o
  exact ⟨_, rfl, encR_op ..⟩
theorem HasOpcode.movi : ∀ (d : Reg) (imm : W32), HasOpcode.Statement (.movi d imm) := by
  intro d imm
  exact ⟨_, rfl, encI_op ..⟩
theorem HasOpcode.movhi : ∀ (d : Reg) (imm : W32), HasOpcode.Statement (.movhi d imm) := by
  intro d imm
  exact ⟨_, rfl, encI_op ..⟩
theorem HasOpcode.rdlane : ∀ (d : Reg) (a : Src) (b : SReg), HasOpcode.Statement (.rdlane d a b) := by
  intro d a b
  exact ⟨_, rfl, encR_op ..⟩
theorem HasOpcode.wrlane : ∀ (d : Reg) (a b : SReg), HasOpcode.Statement (.wrlane d a b) := by
  intro d a b
  exact ⟨_, rfl, encR_op ..⟩
theorem HasOpcode.cvti : ∀ (td ts : ConvTy) (o : R1), HasOpcode.Statement (.cvti td ts o) := by
  intro td ts o
  exact ⟨_, rfl, encR_op ..⟩
theorem HasOpcode.ipack : ∀ (t : IntTy) (o : R2), HasOpcode.Statement (.ipack t o) := by
  intro t o
  exact ⟨_, rfl, encR_op ..⟩
theorem HasOpcode.iunpack : ∀ (t : IntTy) (hi : Bool) (o : R1), HasOpcode.Statement (.iunpack t hi o) := by
  intro t hi o
  exact ⟨_, rfl, encR_op ..⟩
theorem HasOpcode.fadd : ∀ (m : FMod) (o : R2), HasOpcode.Statement (.fadd m o) := by
  intro m o
  exact ⟨_, rfl, encR_op ..⟩
theorem HasOpcode.faddI : ∀ (o : I1), HasOpcode.Statement (.faddI o) := by
  intro o
  exact ⟨_, rfl, encI_op ..⟩
theorem HasOpcode.fsub : ∀ (m : FMod) (o : R2), HasOpcode.Statement (.fsub m o) := by
  intro m o
  exact ⟨_, rfl, encR_op ..⟩
theorem HasOpcode.fmul : ∀ (m : FMod) (o : R2), HasOpcode.Statement (.fmul m o) := by
  intro m o
  exact ⟨_, rfl, encR_op ..⟩
theorem HasOpcode.fmulI : ∀ (o : I1), HasOpcode.Statement (.fmulI o) := by
  intro o
  exact ⟨_, rfl, encI_op ..⟩
theorem HasOpcode.ffma : ∀ (m : FMod) (nc : Bool) (o : R3), HasOpcode.Statement (.ffma m nc o) := by
  intro m nc o
  exact ⟨_, rfl, encR_op ..⟩
theorem HasOpcode.ffmaI : ∀ (o : I1), HasOpcode.Statement (.ffmaI o) := by
  intro o
  exact ⟨_, rfl, encI_op ..⟩
theorem HasOpcode.fmin : ∀ (m : FMod) (o : R2), HasOpcode.Statement (.fmin m o) := by
  intro m o
  exact ⟨_, rfl, encR_op ..⟩
theorem HasOpcode.fmax : ∀ (m : FMod) (o : R2), HasOpcode.Statement (.fmax m o) := by
  intro m o
  exact ⟨_, rfl, encR_op ..⟩
theorem HasOpcode.fclamp : ∀ (m : FMod) (o : R3), HasOpcode.Statement (.fclamp m o) := by
  intro m o
  exact ⟨_, rfl, encR_op ..⟩
theorem HasOpcode.fcmp : ∀ (m : FMod) (o : R2), HasOpcode.Statement (.fcmp m o) := by
  intro m o
  exact ⟨_, rfl, encR_op ..⟩
theorem HasOpcode.fcmpI : ∀ (o : I1), HasOpcode.Statement (.fcmpI o) := by
  intro o
  exact ⟨_, rfl, encI_op ..⟩
theorem HasOpcode.fset : ∀ (m : FMod) (c : FCond) (pd : Pred) (o : P2), HasOpcode.Statement (.fset m c pd o) := by
  intro m c pd o
  exact ⟨_, rfl, encR_op ..⟩
theorem HasOpcode.frcp : ∀ (m : FMod) (o : R1), HasOpcode.Statement (.frcp m o) := by
  intro m o
  exact ⟨_, rfl, encR_op ..⟩
theorem HasOpcode.frsq : ∀ (m : FMod) (o : R1), HasOpcode.Statement (.frsq m o) := by
  intro m o
  exact ⟨_, rfl, encR_op ..⟩
theorem HasOpcode.fsqrt : ∀ (m : FMod) (o : R1), HasOpcode.Statement (.fsqrt m o) := by
  intro m o
  exact ⟨_, rfl, encR_op ..⟩
theorem HasOpcode.fdiv : ∀ (m : FMod) (o : R2), HasOpcode.Statement (.fdiv m o) := by
  intro m o
  exact ⟨_, rfl, encR_op ..⟩
theorem HasOpcode.fex2 : ∀ (m : FMod) (o : R1), HasOpcode.Statement (.fex2 m o) := by
  intro m o
  exact ⟨_, rfl, encR_op ..⟩
theorem HasOpcode.flg2 : ∀ (m : FMod) (o : R1), HasOpcode.Statement (.flg2 m o) := by
  intro m o
  exact ⟨_, rfl, encR_op ..⟩
theorem HasOpcode.fsin : ∀ (m : FMod) (o : R1), HasOpcode.Statement (.fsin m o) := by
  intro m o
  exact ⟨_, rfl, encR_op ..⟩
theorem HasOpcode.fcos : ∀ (m : FMod) (o : R1), HasOpcode.Statement (.fcos m o) := by
  intro m o
  exact ⟨_, rfl, encR_op ..⟩
theorem HasOpcode.ftanh : ∀ (m : FMod) (o : R1), HasOpcode.Statement (.ftanh m o) := by
  intro m o
  exact ⟨_, rfl, encR_op ..⟩
theorem HasOpcode.fsigm : ∀ (m : FMod) (o : R1), HasOpcode.Statement (.fsigm m o) := by
  intro m o
  exact ⟨_, rfl, encR_op ..⟩
theorem HasOpcode.fsilu : ∀ (m : FMod) (o : R1), HasOpcode.Statement (.fsilu m o) := by
  intro m o
  exact ⟨_, rfl, encR_op ..⟩
theorem HasOpcode.ffrc : ∀ (m : FMod) (o : R1), HasOpcode.Statement (.ffrc m o) := by
  intro m o
  exact ⟨_, rfl, encR_op ..⟩
theorem HasOpcode.frnd : ∀ (m : FMod) (o : R1), HasOpcode.Statement (.frnd m o) := by
  intro m o
  exact ⟨_, rfl, encR_op ..⟩
theorem HasOpcode.fldexp : ∀ (m : FMod) (o : R2), HasOpcode.Statement (.fldexp m o) := by
  intro m o
  exact ⟨_, rfl, encR_op ..⟩
theorem HasOpcode.fmant : ∀ (m : FMod) (o : R1), HasOpcode.Statement (.fmant m o) := by
  intro m o
  exact ⟨_, rfl, encR_op ..⟩
theorem HasOpcode.fexpo : ∀ (m : FMod) (o : R1), HasOpcode.Statement (.fexpo m o) := by
  intro m o
  exact ⟨_, rfl, encR_op ..⟩
theorem HasOpcode.dadd : ∀ (m : FMod) (o : R2), HasOpcode.Statement (.dadd m o) := by
  intro m o
  exact ⟨_, rfl, encR_op ..⟩
theorem HasOpcode.dmul : ∀ (m : FMod) (o : R2), HasOpcode.Statement (.dmul m o) := by
  intro m o
  exact ⟨_, rfl, encR_op ..⟩
theorem HasOpcode.dfma : ∀ (m : FMod) (nc : Bool) (o : R3), HasOpcode.Statement (.dfma m nc o) := by
  intro m nc o
  exact ⟨_, rfl, encR_op ..⟩
theorem HasOpcode.dcmp : ∀ (m : FMod) (o : R2), HasOpcode.Statement (.dcmp m o) := by
  intro m o
  exact ⟨_, rfl, encR_op ..⟩
theorem HasOpcode.ddiv : ∀ (m : FMod) (o : R2), HasOpcode.Statement (.ddiv m o) := by
  intro m o
  exact ⟨_, rfl, encR_op ..⟩
theorem HasOpcode.dsqrt : ∀ (m : FMod) (o : R1), HasOpcode.Statement (.dsqrt m o) := by
  intro m o
  exact ⟨_, rfl, encR_op ..⟩
theorem HasOpcode.hadd2 : ∀ (m : FMod) (bf : Bool) (o : R2), HasOpcode.Statement (.hadd2 m bf o) := by
  intro m bf o
  exact ⟨_, rfl, encR_op ..⟩
theorem HasOpcode.hmul2 : ∀ (m : FMod) (bf : Bool) (o : R2), HasOpcode.Statement (.hmul2 m bf o) := by
  intro m bf o
  exact ⟨_, rfl, encR_op ..⟩
theorem HasOpcode.hfma2 : ∀ (m : FMod) (bf nc : Bool) (o : R3), HasOpcode.Statement (.hfma2 m bf nc o) := by
  intro m bf nc o
  exact ⟨_, rfl, encR_op ..⟩
theorem HasOpcode.hmin2 : ∀ (m : FMod) (bf : Bool) (o : R2), HasOpcode.Statement (.hmin2 m bf o) := by
  intro m bf o
  exact ⟨_, rfl, encR_op ..⟩
theorem HasOpcode.hmax2 : ∀ (m : FMod) (bf : Bool) (o : R2), HasOpcode.Statement (.hmax2 m bf o) := by
  intro m bf o
  exact ⟨_, rfl, encR_op ..⟩
theorem HasOpcode.hcmp2 : ∀ (m : FMod) (bf : Bool) (o : R2), HasOpcode.Statement (.hcmp2 m bf o) := by
  intro m bf o
  exact ⟨_, rfl, encR_op ..⟩
theorem HasOpcode.fdot2 : ∀ (m : FMod) (bf : Bool) (o : R3), HasOpcode.Statement (.fdot2 m bf o) := by
  intro m bf o
  exact ⟨_, rfl, encR_op ..⟩
theorem HasOpcode.cvtf : ∀ (fs fd : FFmt) (neg abs ftz : Bool) (rm : Rounding) (o : R1), HasOpcode.Statement (.cvtf fs fd neg abs ftz rm o) := by
  intro fs fd neg abs ftz rm o
  exact ⟨_, rfl, encR_op ..⟩
theorem HasOpcode.cvtfi : ∀ (fs : FFmt) (td : ConvTy) (ftz : Bool) (rm : Rounding) (o : R1), HasOpcode.Statement (.cvtfi fs td ftz rm o) := by
  intro fs td ftz rm o
  exact ⟨_, rfl, encR_op ..⟩
theorem HasOpcode.cvtif : ∀ (ts : ConvTy) (fd : FFmt) (rm : Rounding) (o : R1), HasOpcode.Statement (.cvtif ts fd rm o) := by
  intro ts fd rm o
  exact ⟨_, rfl, encR_op ..⟩
theorem HasOpcode.cvt8Encode : ∀ (sat e5m2 : Bool) (wf : WideFmt) (hi : Bool) (ftz : Bool) (rm : Rounding) (seed : SReg) (o : R2), HasOpcode.Statement (.cvt8Encode sat e5m2 wf hi ftz rm seed o) := by
  intro sat e5m2 wf hi ftz rm seed o
  exact ⟨_, rfl, encR_op ..⟩
theorem HasOpcode.cvt8Decode : ∀ (e5m2 : Bool) (wf : WideFmt) (pos : Fin 4) (ftz : Bool) (o : R1), HasOpcode.Statement (.cvt8Decode e5m2 wf pos ftz o) := by
  intro e5m2 wf pos ftz o
  exact ⟨_, rfl, encR_op ..⟩
theorem HasOpcode.cvtmxEncode : ∀ (ef : MxFmt) (ftz : Bool) (rm : Rounding) (seed : SReg) (o : R1), HasOpcode.Statement (.cvtmxEncode ef ftz rm seed o) := by
  intro ef ftz rm seed o
  exact ⟨_, rfl, encR_op ..⟩
theorem HasOpcode.cvtmxDecode : ∀ (ef : MxFmt) (ftz : Bool) (rm : Rounding) (o : R1), HasOpcode.Statement (.cvtmxDecode ef ftz rm o) := by
  intro ef ftz rm o
  exact ⟨_, rfl, encR_op ..⟩
theorem HasOpcode.cvt4Pack : ∀ (o : R1), HasOpcode.Statement (.cvt4Pack o) := by
  intro o
  exact ⟨_, rfl, encR_op ..⟩
theorem HasOpcode.cvt4Deq : ∀ (o : R3), HasOpcode.Statement (.cvt4Deq o) := by
  intro o
  exact ⟨_, rfl, encR_op ..⟩
theorem HasOpcode.bra : ∀ (g : Option Guard) (off : BitVec 48), HasOpcode.Statement (.bra g off) := by
  intro g off
  exact ⟨_, rfl, encC_op ..⟩
theorem HasOpcode.brx : ∀ (g : Option Guard) (r : Reg), HasOpcode.Statement (.brx g r) := by
  intro g r
  exact ⟨_, rfl, encC_op ..⟩
theorem HasOpcode.call : ∀ (off : BitVec 48), HasOpcode.Statement (.call off) := by
  intro off
  exact ⟨_, rfl, encC_op ..⟩
theorem HasOpcode.callx : ∀ (r : Reg), HasOpcode.Statement (.callx r) := by
  intro r
  exact ⟨_, rfl, encC_op ..⟩
theorem HasOpcode.ret : ∀ (r : Reg), HasOpcode.Statement (.ret r) := by
  intro r
  exact ⟨_, rfl, encC_op ..⟩
theorem HasOpcode.exit : HasOpcode.Statement .exit := by
  exact ⟨_, rfl, encC_op ..⟩
theorem HasOpcode.trap : ∀ (imm : W32), HasOpcode.Statement (.trap imm) := by
  intro imm
  exact ⟨_, rfl, encC_op ..⟩
theorem HasOpcode.tret : HasOpcode.Statement .tret := by
  exact ⟨_, rfl, encC_op ..⟩
theorem HasOpcode.bkpt : ∀ (imm : W32), HasOpcode.Statement (.bkpt imm) := by
  intro imm
  exact ⟨_, rfl, encC_op ..⟩
theorem HasOpcode.yield : HasOpcode.Statement .yield := by
  exact ⟨_, rfl, encC_op ..⟩
theorem HasOpcode.nop : HasOpcode.Statement .nop := by
  exact ⟨_, rfl, encC_op ..⟩
theorem HasOpcode.sleep : ∀ (ticks : W32), HasOpcode.Statement (.sleep ticks) := by
  intro ticks
  exact ⟨_, rfl, encC_op ..⟩
theorem HasOpcode.shfl : ∀ (mode : ShflMode) (seg : Fin 7) (w64 : Bool) (o : R2), HasOpcode.Statement (.shfl mode seg w64 o) := by
  intro mode seg w64 o
  exact ⟨_, rfl, encR_op ..⟩
theorem HasOpcode.vote : ∀ (mode : VoteMode) (inv : Bool) (q : Pred) (d : Reg), HasOpcode.Statement (.vote mode inv q d) := by
  intro mode inv q d
  exact ⟨_, rfl, encR_op ..⟩
theorem HasOpcode.matchLanes : ∀ (w64 : Bool) (o : R1), HasOpcode.Statement (.matchLanes w64 o) := by
  intro w64 o
  exact ⟨_, rfl, encR_op ..⟩
theorem HasOpcode.redux : ∀ (op : RedOp) (t : IntTy) (o : R1), HasOpcode.Statement (.redux op t o) := by
  intro op t o
  exact ⟨_, rfl, encR_op ..⟩
theorem HasOpcode.fredux : ∀ (f64 : Bool) (op : FRedOp) (neg abs ftz : Bool) (rm : Rounding) (o : R1), HasOpcode.Statement (.fredux f64 op neg abs ftz rm o) := by
  intro f64 op neg abs ftz rm o
  exact ⟨_, rfl, encR_op ..⟩
theorem HasOpcode.scan : ∀ (op : RedOp) (t : IntTy) (excl : Bool) (o : R1), HasOpcode.Statement (.scan op t excl o) := by
  intro op t excl o
  exact ⟨_, rfl, encR_op ..⟩
theorem HasOpcode.movsRead : ∀ (sel : Special) (d : Reg), HasOpcode.Statement (.movsRead sel d) := by
  intro sel d
  exact ⟨_, rfl, encR_op ..⟩
theorem HasOpcode.movsWrite : ∀ (a : SReg), HasOpcode.Statement (.movsWrite a) := by
  intro a
  exact ⟨_, rfl, encR_op ..⟩
theorem HasOpcode.amask : ∀ (live : Bool) (d : Reg), HasOpcode.Statement (.amask live d) := by
  intro live d
  exact ⟨_, rfl, encR_op ..⟩
theorem HasOpcode.brec : ∀ (sp : Bool) (b : BReg) (sa : SReg), HasOpcode.Statement (.brec sp b sa) := by
  intro sp b sa
  exact ⟨_, rfl, encX_op ..⟩
theorem HasOpcode.brmk : ∀ (b : BReg) (sa : SReg), HasOpcode.Statement (.brmk b sa) := by
  intro b sa
  exact ⟨_, rfl, encX_op ..⟩
theorem HasOpcode.brset : ∀ (f : BField) (b : BReg) (sa : SReg), HasOpcode.Statement (.brset f b sa) := by
  intro f b sa
  exact ⟨_, rfl, encX_op ..⟩
theorem HasOpcode.ld : ∀ (d : Reg) (m : MAddr), HasOpcode.Statement (.ld d m) := by
  intro d m
  exact ⟨_, rfl, encM_op ..⟩
theorem HasOpcode.ldc : ∀ (d : Reg) (m : MAddr), HasOpcode.Statement (.ldc d m) := by
  intro d m
  exact ⟨_, rfl, encM_op ..⟩
theorem HasOpcode.st : ∀ (g : Option Guard) (data : Src) (m : MAddr), HasOpcode.Statement (.st g data m) := by
  intro g data m
  exact ⟨_, rfl, encM_op ..⟩
theorem HasOpcode.ldu : ∀ (d : Reg) (m : MAddr), HasOpcode.Statement (.ldu d m) := by
  intro d m
  exact ⟨_, rfl, encM_op ..⟩
theorem HasOpcode.stu : ∀ (g : Option Guard) (data : Src) (m : MAddr), HasOpcode.Statement (.stu g data m) := by
  intro g data m
  exact ⟨_, rfl, encM_op ..⟩
theorem HasOpcode.atom : ∀ (g : Option Guard) (op : AtomOp) (d : Src) (m : MAddr), HasOpcode.Statement (.atom g op d m) := by
  intro g op d m
  exact ⟨_, rfl, encM_op ..⟩
theorem HasOpcode.atomcas : ∀ (g : Option Guard) (d : Src) (m : MAddr), HasOpcode.Statement (.atomcas g d m) := by
  intro g d m
  exact ⟨_, rfl, encM_op ..⟩
theorem HasOpcode.red : ∀ (g : Option Guard) (op : AtomOp) (data : Src) (m : MAddr), HasOpcode.Statement (.red g op data m) := by
  intro g op data m
  exact ⟨_, rfl, encM_op ..⟩
theorem HasOpcode.prefetch : ∀ (m : MAddr), HasOpcode.Statement (.prefetch m) := by
  intro m
  exact ⟨_, rfl, encM_op ..⟩
theorem HasOpcode.ldx : ∀ (d : Reg) (m : MAddr), HasOpcode.Statement (.ldx d m) := by
  intro d m
  exact ⟨_, rfl, encM_op ..⟩
theorem HasOpcode.stx : ∀ (data : Src) (m : MAddr), HasOpcode.Statement (.stx data m) := by
  intro data m
  exact ⟨_, rfl, encM_op ..⟩
theorem HasOpcode.atomx : ∀ (op : AtomOp) (d : Src) (m : MAddr), HasOpcode.Statement (.atomx op d m) := by
  intro op d m
  exact ⟨_, rfl, encM_op ..⟩
theorem HasOpcode.cwb : ∀ (range : Option (SReg × SReg)), HasOpcode.Statement (.cwb range) := by
  intro range
  cases range <;> exact ⟨_, rfl, encX_op ..⟩
theorem HasOpcode.cinv : ∀ (range : Option (SReg × SReg)), HasOpcode.Statement (.cinv range) := by
  intro range
  cases range <;> exact ⟨_, rfl, encX_op ..⟩
theorem HasOpcode.icinv : ∀ (range : Option (SReg × SReg)), HasOpcode.Statement (.icinv range) := by
  intro range
  cases range <;> exact ⟨_, rfl, encX_op ..⟩
theorem HasOpcode.fetchbar : HasOpcode.Statement .fetchbar := by
  exact ⟨_, rfl, encX_op ..⟩
theorem HasOpcode.pin : ∀ (d sa sb : SReg), HasOpcode.Statement (.pin d sa sb) := by
  intro d sa sb
  exact ⟨_, rfl, encX_op ..⟩
theorem HasOpcode.unpin : ∀ (d sa sb : SReg), HasOpcode.Statement (.unpin d sa sb) := by
  intro d sa sb
  exact ⟨_, rfl, encX_op ..⟩
theorem HasOpcode.pinq : ∀ (d sa : SReg), HasOpcode.Statement (.pinq d sa) := by
  intro d sa
  exact ⟨_, rfl, encX_op ..⟩
theorem HasOpcode.mmaE4m3 : ∀ (o : MmaOps), HasOpcode.Statement (.mmaE4m3 o) := by
  intro o
  exact ⟨_, rfl, encR_op ..⟩
theorem HasOpcode.mmaE5m2 : ∀ (o : MmaOps), HasOpcode.Statement (.mmaE5m2 o) := by
  intro o
  exact ⟨_, rfl, encR_op ..⟩
theorem HasOpcode.mmaBf16 : ∀ (o : MmaOps), HasOpcode.Statement (.mmaBf16 o) := by
  intro o
  exact ⟨_, rfl, encR_op ..⟩
theorem HasOpcode.mmaF16 : ∀ (o : MmaOps), HasOpcode.Statement (.mmaF16 o) := by
  intro o
  exact ⟨_, rfl, encR_op ..⟩
theorem HasOpcode.mmaF32 : ∀ (o : MmaOps), HasOpcode.Statement (.mmaF32 o) := by
  intro o
  exact ⟨_, rfl, encR_op ..⟩
theorem HasOpcode.mmaI8 : ∀ (ua ub : Bool) (o : MmaOps), HasOpcode.Statement (.mmaI8 ua ub o) := by
  intro ua ub o
  exact ⟨_, rfl, encR_op ..⟩
theorem HasOpcode.mmaI4 : ∀ (ua ub : Bool) (o : MmaOps), HasOpcode.Statement (.mmaI4 ua ub o) := by
  intro ua ub o
  exact ⟨_, rfl, encR_op ..⟩
theorem HasOpcode.mmaMxf6 : ∀ (a23 b23 : Bool) (x : XArea) (c : SReg) (o : MmaOps), HasOpcode.Statement (.mmaMxf6 a23 b23 x c o) := by
  intro a23 b23 x c o
  exact ⟨_, rfl, encR_op ..⟩
theorem HasOpcode.mmaMxf4 : ∀ (x : XArea) (c : SReg) (o : MmaOps), HasOpcode.Statement (.mmaMxf4 x c o) := by
  intro x c o
  exact ⟨_, rfl, encR_op ..⟩
theorem HasOpcode.mmaq : ∀ (g : GroupSize) (x : XArea) (c : SReg) (o : MmaOps), HasOpcode.Statement (.mmaq g x c o) := by
  intro g x c o
  exact ⟨_, rfl, encR_op ..⟩
theorem HasOpcode.mmaspE4m3 : ∀ (x : XArea) (o : MmaOps), HasOpcode.Statement (.mmaspE4m3 x o) := by
  intro x o
  exact ⟨_, rfl, encR_op ..⟩
theorem HasOpcode.mmaspBf16 : ∀ (x : XArea) (o : MmaOps), HasOpcode.Statement (.mmaspBf16 x o) := by
  intro x o
  exact ⟨_, rfl, encR_op ..⟩
theorem HasOpcode.sclaim : ∀ (d : SReg) (mask : W16 ⊕ SReg), HasOpcode.Statement (.sclaim d mask) := by
  intro d mask
  cases mask <;> exact ⟨_, rfl, encX_op ..⟩
theorem HasOpcode.srel : ∀ (mask : W16 ⊕ SReg), HasOpcode.Statement (.srel mask) := by
  intro mask
  cases mask <;> exact ⟨_, rfl, encX_op ..⟩
theorem HasOpcode.sfill : ∀ (slot : Slot) (cnt : Fin 16) (off : Option SReg) (a : Src), HasOpcode.Statement (.sfill slot cnt off a) := by
  intro slot cnt off a
  exact ⟨_, rfl, encR_op ..⟩
theorem HasOpcode.sdrain : ∀ (slot : Slot) (cnt : Fin 16) (off : Option SReg) (d : Reg), HasOpcode.Statement (.sdrain slot cnt off d) := by
  intro slot cnt off d
  exact ⟨_, rfl, encR_op ..⟩
theorem HasOpcode.sxpose : ∀ (dst src : Slot) (es : XposeBits) (rc : Fin 5), HasOpcode.Statement (.sxpose dst src es rc) := by
  intro dst src es rc
  exact ⟨_, rfl, encX_op ..⟩
theorem HasOpcode.mmacvt : ∀ (slot : Slot) (fmt : TileFmt) (sat t ftz : Bool) (rm : Rounding) (off : Option SReg) (seed : SReg) (a : Src), HasOpcode.Statement (.mmacvt slot fmt sat t ftz rm off seed a) := by
  intro slot fmt sat t ftz rm off seed a
  exact ⟨_, rfl, encR_op ..⟩
theorem HasOpcode.copy : ∀ (d sa : SReg), HasOpcode.Statement (.copy d sa) := by
  intro d sa
  exact ⟨_, rfl, encX_op ..⟩
theorem HasOpcode.cbload : ∀ (n : Fin 4) (d sa : SReg), HasOpcode.Statement (.cbload n d sa) := by
  intro n d sa
  exact ⟨_, rfl, encX_op ..⟩
theorem HasOpcode.cpstat : ∀ (d sa : SReg), HasOpcode.Statement (.cpstat d sa) := by
  intro d sa
  exact ⟨_, rfl, encX_op ..⟩
theorem HasOpcode.cpabort : ∀ (chain : Option SReg), HasOpcode.Statement (.cpabort chain) := by
  intro chain
  cases chain <;> exact ⟨_, rfl, encX_op ..⟩
theorem HasOpcode.tadd : ∀ (t : TsRef) (amt : TsAmt), HasOpcode.Statement (.tadd t amt) := by
  intro t amt
  cases amt <;> exact ⟨_, rfl, encX_op ..⟩
theorem HasOpcode.tfetch : ∀ (d : SReg) (t : TsRef) (amt : TsAmt), HasOpcode.Statement (.tfetch d t amt) := by
  intro d t amt
  cases amt <;> exact ⟨_, rfl, encX_op ..⟩
theorem HasOpcode.tmax : ∀ (t : TsRef) (sb : SReg), HasOpcode.Statement (.tmax t sb) := by
  intro t sb
  exact ⟨_, rfl, encX_op ..⟩
theorem HasOpcode.tread : ∀ (d : SReg) (t : TsRef), HasOpcode.Statement (.tread d t) := by
  intro d t
  exact ⟨_, rfl, encX_op ..⟩
theorem HasOpcode.treset : ∀ (d : SReg) (t : TsRef) (sb : SReg), HasOpcode.Statement (.treset d t sb) := by
  intro d t sb
  exact ⟨_, rfl, encX_op ..⟩
theorem HasOpcode.wait : ∀ (d sa : SReg) (n : Fin 4) (all : Bool) (limit : WaitLimit), HasOpcode.Statement (.wait d sa n all limit) := by
  intro d sa n all limit
  cases limit <;> exact ⟨_, rfl, encX_op ..⟩
theorem HasOpcode.waitout : ∀ (l : Limits), HasOpcode.Statement (.waitout l) := by
  intro l
  exact ⟨_, rfl, encX_op ..⟩
theorem HasOpcode.fence : ∀ (scope : Fin 8), HasOpcode.Statement (.fence scope) := by
  intro scope
  exact ⟨_, rfl, encX_op ..⟩
theorem HasOpcode.launch : ∀ (d sa : SReg), HasOpcode.Statement (.launch d sa) := by
  intro d sa
  exact ⟨_, rfl, encX_op ..⟩
theorem HasOpcode.qstat : ∀ (d sa : SReg) (what : QstatWhat), HasOpcode.Statement (.qstat d sa what) := by
  intro d sa what
  exact ⟨_, rfl, encX_op ..⟩
theorem HasOpcode.msend : ∀ (nw : Fin 4) (gtd t eth : Bool) (vreg : Fin 192) (len : BitVec 13) (d sa sb : SReg), HasOpcode.Statement (.msend nw gtd t eth vreg len d sa sb) := by
  intro nw gtd t eth vreg len d sa sb
  exact ⟨_, rfl, encX_op ..⟩
theorem HasOpcode.msendSp : ∀ (nw : Fin 4) (gtd t eth : Bool) (len : BitVec 13) (d sa sb sc : SReg), HasOpcode.Statement (.msendSp nw gtd t eth len d sa sb sc) := by
  intro nw gtd t eth len d sa sb sc
  exact ⟨_, rfl, encX_op ..⟩
theorem HasOpcode.mroute : ∀ (nw : Fin 4) (d sa : SReg), HasOpcode.Statement (.mroute nw d sa) := by
  intro nw d sa
  exact ⟨_, rfl, encX_op ..⟩
theorem HasOpcode.ecall : ∀ (call : W16) (n : Fin 7) (d sa : SReg), HasOpcode.Statement (.ecall call n d sa) := by
  intro call n d sa
  exact ⟨_, rfl, encX_op ..⟩
theorem HasOpcode.sysrd : ∀ (reg : BitVec 12) (d sa : SReg), HasOpcode.Statement (.sysrd reg d sa) := by
  intro reg d sa
  exact ⟨_, rfl, encX_op ..⟩
theorem HasOpcode.syswr : ∀ (reg : BitVec 12) (d sa sb : SReg), HasOpcode.Statement (.syswr reg d sa sb) := by
  intro reg d sa sb
  exact ⟨_, rfl, encX_op ..⟩
theorem HasOpcode.tlbinv : ∀ (kind : TlbKind) (vf : Fin 32) (d sa sb sc : SReg), HasOpcode.Statement (.tlbinv kind vf d sa sb sc) := by
  intro kind vf d sa sb sc
  exact ⟨_, rfl, encX_op ..⟩
theorem HasOpcode.rdcinv : ∀ (kind : RdcKind) (d sa sb : SReg), HasOpcode.Statement (.rdcinv kind d sa sb) := by
  intro kind d sa sb
  exact ⟨_, rfl, encX_op ..⟩
theorem HasOpcode.hartFence : ∀ (h : Nat), HasOpcode.Statement (.hartFence h) := fun _ => rfl
theorem HasOpcode.hartFenceI : ∀ (h : Nat), HasOpcode.Statement (.hartFenceI h) := fun _ => rfl
theorem HasOpcode.cboClean : ∀ (h : Nat) (rs1 : Fin 32), HasOpcode.Statement (.cboClean h rs1) := fun _ _ => rfl
theorem HasOpcode.cboFlush : ∀ (h : Nat) (rs1 : Fin 32), HasOpcode.Statement (.cboFlush h rs1) := fun _ _ => rfl
theorem HasOpcode.cboInval : ∀ (h : Nat) (rs1 : Fin 32), HasOpcode.Statement (.cboInval h rs1) := fun _ _ => rfl
theorem HasOpcode.hartCounterLoad : ∀ (h : Nat) (rd rs1 : Fin 32) (off : BitVec 12), HasOpcode.Statement (.hartCounterLoad h rd rs1 off) := fun _ _ _ _ => rfl
theorem HasOpcode.hartAmoaddD : ∀ (h : Nat) (rd rs1 rs2 : Fin 32), HasOpcode.Statement (.hartAmoaddD h rd rs1 rs2) := fun _ _ _ _ => rfl
theorem HasOpcode.hartAmomaxuD : ∀ (h : Nat) (rd rs1 rs2 : Fin 32), HasOpcode.Statement (.hartAmomaxuD h rd rs1 rs2) := fun _ _ _ _ => rfl
theorem HasOpcode.hartLr : ∀ (h : Nat) (w64 : Bool) (rd rs1 : Fin 32), HasOpcode.Statement (.hartLr h w64 rd rs1) := fun _ _ _ _ => rfl
theorem HasOpcode.hartSc : ∀ (h : Nat) (w64 : Bool) (rd rs1 rs2 : Fin 32), HasOpcode.Statement (.hartSc h w64 rd rs1 rs2) := fun _ _ _ _ _ => rfl
theorem HasOpcode.hartAmo : ∀ (h : Nat) (op : AtomOp) (w64 : Bool) (rd rs1 rs2 : Fin 32), HasOpcode.Statement (.hartAmo h op w64 rd rs1 rs2) := fun _ _ _ _ _ _ => rfl
theorem HasOpcode.hartSfenceVma : ∀ (h : Nat), HasOpcode.Statement (.hartSfenceVma h) := fun _ => rfl
theorem HasOpcode.hartHfenceVvma : ∀ (h : Nat), HasOpcode.Statement (.hartHfenceVvma h) := fun _ => rfl
theorem HasOpcode.hartHfenceGvma : ∀ (h : Nat), HasOpcode.Statement (.hartHfenceGvma h) := fun _ => rfl
theorem HasOpcode.clauseIssue : ∀ (core slot : Nat), HasOpcode.Statement (.clauseIssue core slot) := fun _ _ => rfl
theorem HasOpcode.pipeGrant : ∀ (core : Nat), HasOpcode.Statement (.pipeGrant core) := fun _ => rfl
theorem HasOpcode.stallRelease : ∀ (core slot : Nat), HasOpcode.Statement (.stallRelease core slot) := fun _ _ => rfl
theorem HasOpcode.loadDataReturn : ∀ (op line : Nat), HasOpcode.Statement (.loadDataReturn op line) := fun _ _ => rfl
theorem HasOpcode.gwctReceive : ∀ (op line : Nat), HasOpcode.Statement (.gwctReceive op line) := fun _ _ => rfl
theorem HasOpcode.troupeEnd : ∀ (core slot : Nat), HasOpcode.Statement (.troupeEnd core slot) := fun _ _ => rfl
theorem HasOpcode.sleepWake : ∀ (core slot : Nat), HasOpcode.Statement (.sleepWake core slot) := fun _ _ => rfl
theorem HasOpcode.blockArrival : ∀ (block : Nat), HasOpcode.Statement (.blockArrival block) := fun _ => rfl
theorem HasOpcode.unitZero : ∀ (core : Nat), HasOpcode.Statement (.unitZero core) := fun _ => rfl
theorem HasOpcode.blockStart : ∀ (block : Nat), HasOpcode.Statement (.blockStart block) := fun _ => rfl
theorem HasOpcode.blockEnd : ∀ (block : Nat), HasOpcode.Statement (.blockEnd block) := fun _ => rfl
theorem HasOpcode.pinRegistration : ∀ (op line : Nat), HasOpcode.Statement (.pinRegistration op line) := fun _ _ => rfl
theorem HasOpcode.pinnedForcedWriteback : ∀ (core line : Nat), HasOpcode.Statement (.pinnedForcedWriteback core line) := fun _ _ => rfl
theorem HasOpcode.retry : ∀ (op line : Nat), HasOpcode.Statement (.retry op line) := fun _ _ => rfl
theorem HasOpcode.reclaim : ∀ (block : Nat), HasOpcode.Statement (.reclaim block) := fun _ => rfl
theorem HasOpcode.spill : ∀ (block : Nat), HasOpcode.Statement (.spill block) := fun _ => rfl
theorem HasOpcode.refill : ∀ (block : Nat), HasOpcode.Statement (.refill block) := fun _ => rfl
theorem HasOpcode.cquotaWrite : ∀ (slice core vf : Nat) (val : W64) (req : Nat), HasOpcode.Statement (.cquotaWrite slice core vf val req) := fun _ _ _ _ _ => rfl
theorem HasOpcode.turnstilePoll : ∀ (waiter : Nat), HasOpcode.Statement (.turnstilePoll waiter) := fun _ => rfl
theorem HasOpcode.matrixPeriodStart : ∀ (core : Nat), HasOpcode.Statement (.matrixPeriodStart core) := fun _ => rfl
theorem HasOpcode.matrixWriteback : ∀ (core : Nat), HasOpcode.Statement (.matrixWriteback core) := fun _ => rfl
theorem HasOpcode.slotPortStart : ∀ (core : Nat), HasOpcode.Statement (.slotPortStart core) := fun _ => rfl
theorem HasOpcode.turnstileOpArrival : ∀ (op : Nat), HasOpcode.Statement (.turnstileOpArrival op) := fun _ => rfl
theorem HasOpcode.deferredOpApply : ∀ (op : Nat), HasOpcode.Statement (.deferredOpApply op) := fun _ => rfl
theorem HasOpcode.wakeReceive : ∀ (waiter : Nat), HasOpcode.Statement (.wakeReceive waiter) := fun _ => rfl
theorem HasOpcode.waitTimeout : ∀ (core slot : Nat), HasOpcode.Statement (.waitTimeout core slot) := fun _ _ => rfl
theorem HasOpcode.heldReleaseSend : ∀ (op : Nat), HasOpcode.Statement (.heldReleaseSend op) := fun _ => rfl
theorem HasOpcode.fenceComplete : ∀ (core slot : Nat), HasOpcode.Statement (.fenceComplete core slot) := fun _ _ => rfl
theorem HasOpcode.waitoutComplete : ∀ (core slot : Nat), HasOpcode.Statement (.waitoutComplete core slot) := fun _ _ => rfl
theorem HasOpcode.chainStart : ∀ (core : Nat), HasOpcode.Statement (.chainStart core) := fun _ => rfl
theorem HasOpcode.recordRead : ∀ (chain : Nat), HasOpcode.Statement (.recordRead chain) := fun _ => rfl
theorem HasOpcode.recordMoveEnd : ∀ (chain : Nat), HasOpcode.Statement (.recordMoveEnd chain) := fun _ => rfl
theorem HasOpcode.completionAdd : ∀ (chain : Nat), HasOpcode.Statement (.completionAdd chain) := fun _ => rfl
theorem HasOpcode.chainEnd : ∀ (chain : Nat), HasOpcode.Statement (.chainEnd chain) := fun _ => rfl
theorem HasOpcode.cbloadEnd : ∀ (load : Nat), HasOpcode.Statement (.cbloadEnd load) := fun _ => rfl
theorem HasOpcode.reduceContribution : ∀ (contrib : Nat), HasOpcode.Statement (.reduceContribution contrib) := fun _ => rfl
theorem HasOpcode.heldContributionTimeout : ∀ (line : Nat), HasOpcode.Statement (.heldContributionTimeout line) := fun _ => rfl
theorem HasOpcode.xbarRequest : ∀ (op : Nat), HasOpcode.Statement (.xbarRequest op) := fun _ => rfl
theorem HasOpcode.xbarSpillRetry : ∀ (op : Nat), HasOpcode.Statement (.xbarSpillRetry op) := fun _ => rfl
theorem HasOpcode.redirectedAccess : ∀ (op line : Nat), HasOpcode.Statement (.redirectedAccess op line) := fun _ _ => rfl
theorem HasOpcode.residentGangStart : ∀ (ticket : Nat), HasOpcode.Statement (.residentGangStart ticket) := fun _ => rfl
theorem HasOpcode.homeWrite : ∀ (op line : Nat), HasOpcode.Statement (.homeWrite op line) := fun _ _ => rfl
theorem HasOpcode.homeRead : ∀ (op line : Nat), HasOpcode.Statement (.homeRead op line) := fun _ _ => rfl
theorem HasOpcode.recall : ∀ (slice line : Nat), HasOpcode.Statement (.recall slice line) := fun _ _ => rfl
theorem HasOpcode.recallAck : ∀ (line : Nat), HasOpcode.Statement (.recallAck line) := fun _ => rfl
theorem HasOpcode.channelTransfer : ∀ (slice channel : Nat), HasOpcode.Statement (.channelTransfer slice channel) := fun _ _ => rfl
theorem HasOpcode.l2pinqWrite : ∀ (slice vf : Nat) (val : W64) (req : Nat), HasOpcode.Statement (.l2pinqWrite slice vf val req) := fun _ _ _ _ => rfl
theorem HasOpcode.sltokWrite : ∀ (slice vf : Nat) (val : W64) (req : Nat), HasOpcode.Statement (.sltokWrite slice vf val req) := fun _ _ _ _ => rfl
theorem HasOpcode.hartStoreDrain : ∀ (h : Nat) (line : Nat), HasOpcode.Statement (.hartStoreDrain h line) := fun _ _ => rfl
theorem HasOpcode.portCtlWrite : ∀ (h port : Nat) (val : W64), HasOpcode.Statement (.portCtlWrite h port val) := fun _ _ _ => rfl
theorem HasOpcode.portCancelWrite : ∀ (h port : Nat), HasOpcode.Statement (.portCancelWrite h port) := fun _ _ => rfl
theorem HasOpcode.portWaitEnd : ∀ (h port : Nat), HasOpcode.Statement (.portWaitEnd h port) := fun _ _ => rfl
theorem HasOpcode.uncorrectableError : ∀ (at_ : ErrorAt) (vf : Option Nat), HasOpcode.Statement (.uncorrectableError at_ vf) := fun _ _ => rfl
theorem HasOpcode.unitSelfTest : ∀ (slice : Nat) (unit : UnitCode) (index : Nat) (lasting : Bool) (retired : Retired), HasOpcode.Statement (.unitSelfTest slice unit index lasting retired) := fun _ _ _ _ _ => rfl
theorem HasOpcode.contextSave : ∀ (core slot : Nat), HasOpcode.Statement (.contextSave core slot) := fun _ _ => rfl
theorem HasOpcode.ringEntryDelivery : ∀ (slice : Nat), HasOpcode.Statement (.ringEntryDelivery slice) := fun _ => rfl
theorem HasOpcode.troupeRestore : ∀ (saved : Nat), HasOpcode.Statement (.troupeRestore saved) := fun _ => rfl
theorem HasOpcode.vfcfgWrite : ∀ (slice vf : Nat) (val : W64) (req : Nat), HasOpcode.Statement (.vfcfgWrite slice vf val req) := fun _ _ _ _ => rfl
theorem HasOpcode.vfReset : ∀ (slice vf : Nat) (val : W64) (req : Nat), HasOpcode.Statement (.vfReset slice vf val req) := fun _ _ _ _ => rfl
theorem HasOpcode.vfResetComplete : ∀ (part vf : Nat), HasOpcode.Statement (.vfResetComplete part vf) := fun _ _ => rfl
theorem HasOpcode.migStart : ∀ (slice chan : Nat) (val : W64) (req : Nat), HasOpcode.Statement (.migStart slice chan val req) := fun _ _ _ _ => rfl
theorem HasOpcode.migEnd : ∀ (slice chan : Nat) (req : Nat), HasOpcode.Statement (.migEnd slice chan req) := fun _ _ _ => rfl
theorem HasOpcode.migAbort : ∀ (slice chan : Nat) (req : Nat), HasOpcode.Statement (.migAbort slice chan req) := fun _ _ _ => rfl
theorem HasOpcode.migrationPass : ∀ (slice chan : Nat), HasOpcode.Statement (.migrationPass slice chan) := fun _ _ => rfl
theorem HasOpcode.addslice : ∀ (part : Nat), HasOpcode.Statement (.addslice part) := fun _ => rfl
theorem HasOpcode.remslice : ∀ (part : Nat), HasOpcode.Statement (.remslice part) := fun _ => rfl
theorem HasOpcode.setband : ∀ (part : Nat), HasOpcode.Statement (.setband part) := fun _ => rfl
theorem HasOpcode.clrband : ∀ (part : Nat), HasOpcode.Statement (.clrband part) := fun _ => rfl
theorem HasOpcode.attest : ∀ (part : Nat), HasOpcode.Statement (.attest part) := fun _ => rfl
theorem HasOpcode.tlbinvComplete : ∀ (req : Nat), HasOpcode.Statement (.tlbinvComplete req) := fun _ => rfl
theorem HasOpcode.qcmdEnable : ∀ (slice : Nat) (val : W64) (req : Nat), HasOpcode.Statement (.qcmdEnable slice val req) := fun _ _ _ => rfl
theorem HasOpcode.qcmdDisable : ∀ (slice : Nat) (val : W64) (req : Nat), HasOpcode.Statement (.qcmdDisable slice val req) := fun _ _ _ => rfl
theorem HasOpcode.calendarLoad : ∀ (slice : Nat) (req : Nat), HasOpcode.Statement (.calendarLoad slice req) := fun _ _ => rfl
theorem HasOpcode.ticketFetch : ∀ (part queue : Nat), HasOpcode.Statement (.ticketFetch part queue) := fun _ _ => rfl
theorem HasOpcode.ticketReady : ∀ (ticket : Nat), HasOpcode.Statement (.ticketReady ticket) := fun _ => rfl
theorem HasOpcode.placement : ∀ (slice : Nat), HasOpcode.Statement (.placement slice) := fun _ => rfl
theorem HasOpcode.ticketComplete : ∀ (ticket : Nat), HasOpcode.Statement (.ticketComplete ticket) := fun _ => rfl
theorem HasOpcode.calendarSlotStart : HasOpcode.Statement .calendarSlotStart := rfl
theorem HasOpcode.calendarPeriodStart : HasOpcode.Statement .calendarPeriodStart := rfl
theorem HasOpcode.roundStart : ∀ (part : Nat), HasOpcode.Statement (.roundStart part) := fun _ => rfl
theorem HasOpcode.wholeBlockSave : ∀ (block : Nat), HasOpcode.Statement (.wholeBlockSave block) := fun _ => rfl
theorem HasOpcode.snapshotStart : ∀ (slice : Nat) (val : W64) (req : Nat), HasOpcode.Statement (.snapshotStart slice val req) := fun _ _ _ => rfl
theorem HasOpcode.snapshotAbort : ∀ (slice : Nat) (req : Nat), HasOpcode.Statement (.snapshotAbort slice req) := fun _ _ => rfl
theorem HasOpcode.snapshotCut : ∀ (part : Nat), HasOpcode.Statement (.snapshotCut part) := fun _ => rfl
theorem HasOpcode.snapshotComplete : ∀ (part : Nat), HasOpcode.Statement (.snapshotComplete part) := fun _ => rfl
theorem HasOpcode.sliceLoss : ∀ (slice : Nat), HasOpcode.Statement (.sliceLoss slice) := fun _ => rfl
theorem HasOpcode.powerOn : HasOpcode.Statement .powerOn := rfl
theorem HasOpcode.manifestReceive : ∀ (m : Manifest), HasOpcode.Statement (.manifestReceive m) := fun _ => rfl
theorem HasOpcode.powerLoss : HasOpcode.Statement .powerLoss := rfl
theorem HasOpcode.thermalTrip : ∀ (slice sensor : Nat), HasOpcode.Statement (.thermalTrip slice sensor) := fun _ _ => rfl
theorem HasOpcode.pwrcapWrite : ∀ (slice : Nat) (val : W64) (req : Nat), HasOpcode.Statement (.pwrcapWrite slice val req) := fun _ _ _ => rfl
theorem HasOpcode.monitorUpdate : ∀ (slice : Nat) (temps : List Nat) (vcore vmem pcode : Nat), HasOpcode.Statement (.monitorUpdate slice temps vcore vmem pcode) := fun _ _ _ _ _ => rfl
theorem HasOpcode.nirtLoad : ∀ (slice : Nat) (val : W64) (req : Nat), HasOpcode.Statement (.nirtLoad slice val req) := fun _ _ _ => rfl
theorem HasOpcode.xptblLoad : ∀ (slice : Nat) (val : W64) (req : Nat), HasOpcode.Statement (.xptblLoad slice val req) := fun _ _ _ => rfl
theorem HasOpcode.peerrtLoad : ∀ (slice : Nat) (val : W64) (req : Nat), HasOpcode.Statement (.peerrtLoad slice val req) := fun _ _ _ => rfl
theorem HasOpcode.switchForward : ∀ (packet : Nat), HasOpcode.Statement (.switchForward packet) := fun _ => rfl
theorem HasOpcode.transitCheck : ∀ (slice : Nat) (words : List W64) (cur : Nat) (eth : Bool) (pkt : Nat), HasOpcode.Statement (.transitCheck slice words cur eth pkt) := fun _ _ _ _ _ => rfl
theorem HasOpcode.messageDelivery : ∀ (packet : Nat), HasOpcode.Statement (.messageDelivery packet) := fun _ => rfl
theorem HasOpcode.messageStatusReply : ∀ (msg : Nat), HasOpcode.Statement (.messageStatusReply msg) := fun _ => rfl
theorem HasOpcode.sequenceSkip : ∀ (seq : Nat), HasOpcode.Statement (.sequenceSkip seq) := fun _ => rfl
theorem HasOpcode.linkTransferFail : ∀ (link : Nat) (again : Bool), HasOpcode.Statement (.linkTransferFail link again) := fun _ _ => rfl
theorem HasOpcode.linkLaneTest : ∀ (link : Nat) (lowerGood upperGood : Bool), HasOpcode.Statement (.linkLaneTest link lowerGood upperGood) := fun _ _ _ => rfl
theorem HasOpcode.niMaskRefresh : ∀ (part : Nat), HasOpcode.Statement (.niMaskRefresh part) := fun _ => rfl
theorem HasOpcode.packetReturn : ∀ (packet : Nat), HasOpcode.Statement (.packetReturn packet) := fun _ => rfl
theorem HasOpcode.flowResendTimeout : ∀ (flow seq : Nat), HasOpcode.Statement (.flowResendTimeout flow seq) := fun _ _ => rfl
theorem HasOpcode.flowAck : ∀ (flow seq : Nat) (data : List Byte) (poison : Bool), HasOpcode.Statement (.flowAck flow seq data poison) := fun _ _ _ _ => rfl
theorem HasOpcode.flowReset : ∀ (smod flow epoch : Nat), HasOpcode.Statement (.flowReset smod flow epoch) := fun _ _ _ => rfl
theorem HasOpcode.flowResetAck : ∀ (flow : Nat), HasOpcode.Statement (.flowResetAck flow) := fun _ => rfl
theorem HasOpcode.peerRequest : ∀ (m : PeerMsg), HasOpcode.Statement (.peerRequest m) := fun _ => rfl
theorem HasOpcode.ethFrameReceive : ∀ (f : EthFrame), HasOpcode.Statement (.ethFrameReceive f) := fun _ => rfl
theorem HasOpcode.linkTraining : ∀ (slice link : Nat) (peer : Option PeerLink), HasOpcode.Statement (.linkTraining slice link peer) := fun _ _ _ => rfl
theorem HasOpcode.systemRegisterWrite : ∀ (slice unit reg : Nat) (val : W64) (req : Nat), HasOpcode.Statement (.systemRegisterWrite slice unit reg val req) := fun _ _ _ _ _ => rfl
theorem HasOpcode.correctableError : ∀ (slice : Nat) (unit : UnitCode) (index : Nat), HasOpcode.Statement (.correctableError slice unit index) := fun _ _ _ => rfl
theorem HasOpcode.slotPortEnd : ∀ (core : Nat), HasOpcode.Statement (.slotPortEnd core) := fun _ => rfl
theorem HasOpcode.turnstileAcknowledgement : ∀ (op : Nat), HasOpcode.Statement (.turnstileAcknowledgement op) := fun _ => rfl
theorem HasOpcode.rdcinvComplete : ∀ (req : Nat), HasOpcode.Statement (.rdcinvComplete req) := fun _ => rfl
theorem HasOpcode.pinComplete : ∀ (req : Nat), HasOpcode.Statement (.pinComplete req) := fun _ => rfl
theorem HasOpcode.peerStopsAnswering : ∀ (slice link : Nat), HasOpcode.Statement (.peerStopsAnswering slice link) := fun _ _ => rfl
theorem HasOpcode.hartStore : ∀ (h : Nat) (w : Width) (rs1 rs2 : Fin 32) (off : BitVec 12), HasOpcode.Statement (.hartStore h w rs1 rs2 off) := fun _ _ _ _ _ => rfl
theorem HasOpcode.sstcTimer : ∀ (h : Nat) (virt : Bool), HasOpcode.Statement (.sstcTimer h virt) := fun _ _ => rfl

end Sys2Proof.Laws
end

