-- ==== Sys2Proof/Tests/Slice0.lean ====
section
/-! SUPPORT. Tests: words written out from the spec's formats, terms that the well-formedness checks refuse, results
worked out in the spec or by hand from its rules, and for each statement with hypotheses a state that meets them. -/

open Sys2Proof Sys2Proof.Machine

namespace Sys2Proof.Tests

-- One check at a time: each has a thread with a stack of its own otherwise.
set_option Elab.async false

/-! Words (R44 to R57). The worked words are those of the spec's chapters; the others are put together field by field
from the format of the instruction. -/

/-- R49: opcode, D, A, B, C, the three modes, guard, modifier. -/
def rWord (op d a b c modes guard modifier : Nat) : W64 :=
  BitVec.ofNat 64 (op * 2 ^ 56 + d * 2 ^ 48 + a * 2 ^ 40 + b * 2 ^ 32 + c * 2 ^ 24 + modes * 2 ^ 21 + guard * 2 ^ 16 + modifier)
/-- R52: opcode, D, SA, SB, SC, modifier. -/
def xWord (op d sa sb sc modifier : Nat) : W64 :=
  BitVec.ofNat 64 (op * 2 ^ 56 + d * 2 ^ 48 + sa * 2 ^ 42 + sb * 2 ^ 36 + sc * 2 ^ 30 + modifier)
/-- R53: opcode, guard, kind, target. -/
def cWord (op guard kind target : Nat) : W64 :=
  BitVec.ofNat 64 (op * 2 ^ 56 + guard * 2 ^ 51 + kind * 2 ^ 48 + target)

def v (n : Fin 192) : Src := ⟨.v n, false⟩
def sreg (n : Fin 64) : Src := ⟨.s n, false⟩
def fm : FMod := ⟨false, false, false, false, false, .rne⟩

-- integer and logic
theorem decode_iadd : decode 0x0002000100000001 = .ok (.iadd .i32 ⟨.v 2, v 0, v 1⟩) := rfl
theorem decode_shlI : decode 0x2003020000000002 = .ok (.shlI ⟨.v 3, v 2, 2⟩) := rfl
theorem decode_iaddI : decode 0x01030300FFFFFFFF = .ok (.iaddI ⟨.v 3, v 3, 0xFFFFFFFF⟩) := rfl
theorem decode_lmux : decode (rWord 0x1E 4 1 2 3 0 0 0xAC00) = .ok (.lmux .ui32 0xC 0xA ⟨.v 4, v 1, v 2, v 3⟩) := rfl
-- floating point and conversion
theorem decode_cvt8_encode :
    decode 0x6C04020300004000 = .ok (.cvt8Encode true false .f32 false false .rne 0 ⟨.v 4, v 2, v 3⟩) := rfl
theorem decode_cvt8_decode : decode 0x6C05040000000500 = .ok (.cvt8Decode false .f32 1 false ⟨.v 5, v 4⟩) := rfl
theorem decode_fset : decode 0x4B00050300001200 = .ok (.fset fm .lt 1 ⟨v 5, v 3⟩) := rfl
-- control and cross-lane
theorem decode_exit : decode 0x7402000000000000 = .ok .exit := rfl
theorem decode_bra : decode 0x6F00FFFFFFFFFFF8 = .ok (.bra none 0xFFFFFFFFFFF8) := rfl
theorem decode_bra_guarded : decode 0x6F88FFFFFFFFFFF8 = .ok (.bra (some ⟨false, 1⟩) 0xFFFFFFFFFFF8) := rfl
theorem decode_bra_inverse : decode 0x6FC8FFFFFFFFFFF8 = .ok (.bra (some ⟨true, 1⟩) 0xFFFFFFFFFFF8) := rfl
-- memory: ld v4, opcode 0x86, D 4, A v2, buffer 1, offset -1, width 32 bits
theorem decode_ld : decode 0x860402101FFF4000 = .ok (.ld (.v 4) ⟨1, v 2, 0x1FFF, .b32, 0, 0, 0⟩) := rfl
-- matrix: mma.bf16 v64, slots 1 and 2
theorem decode_mma : decode 0x9B40000000001200 = .ok (.mmaBf16 ⟨.v 64, none, 1, 2, false⟩) := rfl
-- copy, turnstiles and waiting
theorem decode_copy : decode (xWord 0xAB 0xC4 6 0 0 0) = .ok (.copy 4 6) := rfl
theorem decode_fence : decode (xWord 0xB6 0 0 0 0 3) = .ok (.fence 3) := rfl
-- system
theorem decode_sysrd : decode (xWord 0xBC 0xC5 6 0 0 0x4C) = .ok (.sysrd 0x4C 5 6) := rfl
/-- R48: iadd takes no guard. -/
theorem decode_guard_refused : (decode 0x0002000100110001).toOption = none := rfl
/-- R57: a word with bits [63:62] = 0b11 is a header. -/
theorem decode_header_refused : (decode 0xC04A000000000000).toOption = none := rfl
/-- R53: exit is of kind NONE alone. -/
theorem decode_kind_refused : (decode (cWord 0x74 0 1 0)).toOption = none := rfl
theorem table_word : decodeTableWord 64 0x7402000000000000 = some .exit := rfl

/-! Terms that a check of WellFormed refuses, one for each check. -/

/-- R46: a 64-bit operand names an even register. -/
theorem illformed_odd_pair : (Instr.iadd .i64 ⟨.v 3, v 0, v 2⟩).wf = false := rfl
/-- R45: a pair that runs past the last register. -/
theorem illformed_past_end : (Instr.cvt4Deq ⟨.v 190, v 0, v 1, v 2⟩).wf = false := by decide +kernel
/-- R46: a uniform instruction has no v source. -/
theorem illformed_uniform : (Instr.iadd .i32 ⟨.s 3, v 0, sreg 1⟩).wf = false := rfl
/-- R46, R113: pmov from predicates writes a v register. -/
theorem illformed_v_dest : (Instr.pmovToReg (.s 3)).wf = false := rfl
theorem illformed_iabs : (Instr.iabs .ui32 false ⟨.v 1, v 0⟩).wf = false := rfl
theorem illformed_idiv_packed : (Instr.idiv .i16x2 false ⟨.v 2, v 0, v 1⟩).wf = false := rfl
theorem illformed_iscadd : (Instr.iscadd .i32 32 ⟨.v 2, v 0, v 1⟩).wf = false := rfl
theorem illformed_iaddc : (Instr.iaddc .i32 false 0 ⟨.v 2, v 0, v 1⟩).wf = false := rfl
theorem illformed_idp4 : (Instr.idp4 .i64 false false false ⟨.v 2, v 0, v 1, v 3⟩).wf = false := rfl
theorem illformed_isad : (Instr.isad .i64 ⟨.v 2, v 0, v 1, v 3⟩).wf = false := rfl
theorem illformed_sext : (Instr.sext .ui32 ⟨.v 2, v 0, v 1⟩).wf = false := rfl
theorem illformed_ipack : (Instr.ipack .i32 ⟨.v 2, v 0, v 1⟩).wf = false := rfl
theorem illformed_rdlane : (Instr.rdlane (.v 1) (sreg 0) 2).wf = false := rfl
theorem illformed_fadd_mode : (Instr.fadd { fm with rm := .sr } ⟨.v 2, v 0, v 1⟩).wf = false := rfl
theorem illformed_fmin_mode : (Instr.fmin { fm with rm := .rtz } ⟨.v 2, v 0, v 1⟩).wf = false := rfl
theorem illformed_frcp_b : (Instr.frcp { fm with negB := true } ⟨.v 2, v 0⟩).wf = false := rfl
theorem illformed_cvt8_seed : (Instr.cvt8Encode true false .f32 false false .rne 1 ⟨.v 2, v 0, v 1⟩).wf = false := rfl
theorem illformed_fredux : (Instr.fredux false .min false false false .rtz ⟨.v 2, v 0⟩).wf = false := rfl
theorem illformed_scan : (Instr.scan .add .i32 true ⟨.s 2, v 0⟩).wf = false := rfl
theorem illformed_movs : (Instr.movsRead .lane (.s 2)).wf = false := rfl
theorem illformed_brmk : (Instr.brmk 0 61).wf = false := rfl
theorem illformed_st : (Instr.st none (sreg 2) ⟨0, v 0, 0, .b128, 0, 0, 0⟩).wf = false := rfl
theorem illformed_atom : (Instr.atom none .add (v 2) ⟨0, v 0, 0, .b8, 0, 0, 0⟩).wf = false := rfl
theorem illformed_sxpose : (Instr.sxpose 1 1 .w8 0).wf = false := rfl
theorem illformed_wait : (Instr.wait 0 57 3 true (.ticks 0)).wf = false := rfl
theorem illformed_waitout : (Instr.waitout ⟨0, 1, 0, 0, 0, 0, 0⟩).wf = false := rfl
theorem illformed_fence : (Instr.fence 0).wf = false := rfl
theorem illformed_msend : (Instr.msend 0 false false false 0 260 1 2 3).wf = false := rfl
theorem illformed_sysrd : (Instr.sysrd 0x210 1 2).wf = false := rfl
theorem illformed_tlbinv : (Instr.tlbinv .all 0 1 2 0 0).wf = false := rfl
/-- R45: a register at the troupe's allocation. -/
theorem illformed_allocation : (Instr.iadd .i32 ⟨.v 16, v 0, v 1⟩).fits 16 = false := rfl

/-! Results of one step. -/

/-- The state in which a step runs i in a troupe changed by f. -/
def at_ (i : Instr) (f : Troupe → Troupe) : State :=
  let s := State.reset.withFetchWord 64 ((encode i).getD 0).toNat
  { s with troupes := s.troupes.map fun (e : Nat × Troupe) => (e.1, f e.2) }

/-- v registers of lanes hold these values. -/
def regs (xs : List (Nat × Nat × W32)) (t : Troupe) : Troupe :=
  { t with lane := xs.foldl (fun r e => r.put e.1 e.2.1 e.2.2 false false) t.lane }

def sregs (xs : List (SReg × W64)) (t : Troupe) : Troupe :=
  { t with uni := xs.foldl (fun u e => u.put e.1 e.2 false) t.uni }

def after (i : Instr) (f : Troupe → Troupe) : Option Troupe :=
  match step (at_ i f) with
  | .next s => s.troupe? ⟨0, 0⟩
  | _ => none

/-- A v register of a lane after the step. -/
def vAfter (i : Instr) (f : Troupe → Troupe) (lane reg : Nat) : Option W32 := (after i f).map fun t => t.lane.get lane reg
/-- An s register after the step. -/
def sAfter (i : Instr) (f : Troupe → Troupe) (n : SReg) : Option W64 := (after i f).map fun t => t.s n
def pAfter (i : Instr) (f : Troupe → Troupe) (lane : Nat) (p : Pred) : Option Bool := (after i f).map fun t => t.pred p lane
/-- The cause and lanes of the trap a step takes, with a handler at 64. -/
def trapAfter (i : Instr) (f : Troupe → Troupe) : Option (BitVec 8 × LaneMask) :=
  (after i fun t => { f t with tvec := 64 }).map fun t => (t.trap.cause, t.trap.mask)

/-- Only the lanes of m are live. -/
def live (m : LaneMask) (t : Troupe) : Troupe :=
  { t with exited := ~~~m, issue := t.issue.map fun (i : Issue) => { i with mask := m } }

def two : R2 := ⟨.v 2, v 0, v 1⟩
def one : R1 := ⟨.v 2, v 0⟩
def three : R3 := ⟨.v 3, v 0, v 1, v 2⟩
def put2 (a b : W32) (t : Troupe) : Troupe := live 1 (regs [(0, 0, a), (0, 1, b)] t)
def put3 (a b c : W32) (t : Troupe) : Troupe := live 1 (regs [(0, 0, a), (0, 1, b), (0, 2, c)] t)

-- chapter 02, the table of the worked clause
theorem test_iadd : vAfter (.iadd .i32 two) (put2 5 7) 0 2 = some 0xC := by decide +kernel
theorem test_iadd_wraps : vAfter (.iadd .i32 two) (put2 0xFFFFFFFF 1) 0 2 = some 0 := by decide +kernel
theorem test_shlI_drops : vAfter (.shlI ⟨.v 3, v 2, 2⟩) (regs [(0, 2, 0x40000000)]) 0 3 = some 0 := by decide +kernel
theorem test_iaddI : vAfter (.iaddI ⟨.v 3, v 3, 0xFFFFFFFF⟩) (regs [(0, 3, 0x30)]) 0 3 = some 0x2F := by decide +kernel
-- chapter 04, the table of the worked clause
theorem test_cvt8_saturates :
    vAfter (.cvt8Encode true false .f32 false false .rne 0 ⟨.v 4, v 2, v 3⟩)
      (regs [(0, 2, 0x43960000), (0, 3, 0x43FA0000)]) 0 4 = some 0x7E79 := by decide +kernel
theorem test_cvt8_nan_and_minus :
    vAfter (.cvt8Encode true false .f32 false false .rne 0 ⟨.v 4, v 2, v 3⟩)
      (regs [(1, 2, 0x7FC00000), (1, 3, 0xC47A0000)]) 1 4 = some 0xFE7F := by decide +kernel
theorem test_cvt8_decode :
    vAfter (.cvt8Decode false .f32 1 false ⟨.v 5, v 4⟩) (regs [(0, 4, 0x7E79)]) 0 5 = some 0x43E00000 := by decide +kernel
theorem test_fset : pAfter (.fset fm .lt 1 ⟨v 5, v 3⟩) (regs [(0, 5, 0x43E00000), (0, 3, 0x43FA0000)]) 0 1 = some true := by
  decide +kernel
theorem test_idiv_traps_only_unpoisoned :
    trapAfter (.idiv .i32 false ⟨.v 6, v 0, v 1⟩) (fun t => live 7 { t with
      lane := ((t.lane.put 0 0 7 false false).put 1 1 5 false false).put 2 1 0 false true }) = some (0x12, 1) := by
  decide +kernel
theorem test_idiv_nt : vAfter (.idiv .i32 true ⟨.v 6, v 0, v 1⟩) (regs [(1, 0, 7), (1, 1, 5)]) 1 6 = some 1 := by decide +kernel
-- by hand
theorem test_isub : vAfter (.isub .i32 two) (put2 3 5) 0 2 = some 0xFFFFFFFE := by decide +kernel
theorem test_isub_packed : vAfter (.isub .i8x4 two) (put2 0x00010000 0x00000001) 0 2 = some 0x000100FF := by decide +kernel
theorem test_imul_hi : vAfter (.imul .i32 true two) (put2 0xFFFFFFFF 2) 0 2 = some 0xFFFFFFFF := by decide +kernel
theorem test_imuls : vAfter (.imuls .i32 two) (put2 0x40000000 2) 0 2 = some 0x7FFFFFFF := by decide +kernel
theorem test_irem_sign : vAfter (.irem .i32 false two) (put2 0xFFFFFFF9 4) 0 2 = some 0xFFFFFFFD := by decide +kernel
theorem test_idiv_truncates : vAfter (.idiv .i32 false two) (put2 0xFFFFFFF9 4) 0 2 = some 0xFFFFFFFF := by decide +kernel
theorem test_iadds : vAfter (.iadds .i8x4 two) (put2 0x7F 1) 0 2 = some 0x7F := by decide +kernel
theorem test_iabs_min : vAfter (.iabs .i32 true one) (put2 0x80000000 0) 0 2 = some 0x7FFFFFFF := by decide +kernel
theorem test_iaddc_carry : pAfter (.iaddc .ui32 false 3 two) (put2 0xFFFFFFFF 1) 0 3 = some true := by decide +kernel
theorem test_isubb_borrow : pAfter (.isubb .ui32 false 3 two) (put2 0 1) 0 3 = some true := by decide +kernel
theorem test_idp4 : vAfter (.idp4 .i32 true false false three) (put3 0x000000FF 2 10) 0 3 = some 8 := by decide +kernel
theorem test_isad : vAfter (.isad .ui8x4 three) (put3 0x0500 0x0703 1) 0 3 = some 6 := by decide +kernel
theorem test_lmux : vAfter (.lmux .ui32 0xC 0xA three) (put3 0xF0 0x3C 0x0F) 0 3 = some 0xFC := by decide +kernel
theorem test_sra_full : vAfter (.sra .i32 two) (put2 0x80000000 40) 0 2 = some 0xFFFFFFFF := by decide +kernel
theorem test_rot_right : vAfter (.rot .ui32 true two) (put2 1 1) 0 2 = some 0x80000000 := by decide +kernel
theorem test_clz_zero : vAfter (.clz .ui32 one) (put2 0 0) 0 2 = some 32 := by decide +kernel
theorem test_bfe_sign : vAfter (.bfe .i32 three) (put3 0x80 4 4) 0 3 = some 0xFFFFFFF8 := by decide +kernel
theorem test_bperm : vAfter (.bperm three) (put3 0x80 0xAB000000 0x8807) 0 3 = some 0xFFFF80AB := by decide +kernel
theorem test_icmp : vAfter (.icmp .i32 two) (put2 0xFFFFFFFF 0) 0 2 = some 0xFFFFFFFF := by decide +kernel
theorem test_plop_and : pAfter (.plop 0 1 2 8) (fun t => { t with lane := (t.lane.setPred 0 1 true false).setPred 0 2 true false }) 0 0 =
    some true := by decide +kernel
theorem test_movhi : vAfter (.movhi (.v 2) 9) (regs [(0, 2, 5)]) 0 3 = some 9 := by decide +kernel
theorem test_movhi_keeps : vAfter (.movhi (.v 2) 9) (regs [(0, 2, 5)]) 0 2 = some 5 := by decide +kernel
theorem test_rdlane : vAfter (.rdlane (.v 2) (v 0) 4) (fun t => sregs [(4, 65)] (regs [(1, 0, 77)] t)) 0 2 = some 77 := by
  decide +kernel
theorem test_fadd : vAfter (.fadd fm two) (put2 0x3F800000 0x40000000) 0 2 = some 0x40400000 := by decide +kernel
theorem test_fmul_ftz : vAfter (.fmul { fm with ftz := true } two) (put2 0x00800000 0x3F000000) 0 2 = some 0 := by decide +kernel
theorem test_ffma_once : vAfter (.ffma fm false three) (put3 0x3F800001 0x3F800001 0xBF800002) 0 3 = some 0x28800000 := by
  decide +kernel
theorem test_fdiv_zero : vAfter (.fdiv fm two) (put2 0x3F800000 0) 0 2 = some 0x7F800000 := by decide +kernel
theorem test_fsqrt : vAfter (.fsqrt fm one) (put2 0x40800000 0) 0 2 = some 0x40000000 := by decide +kernel
theorem test_frnd_half_even : vAfter (.frnd fm one) (put2 0x40200000 0) 0 2 = some 0x40000000 := by decide +kernel
theorem test_hadd2 : vAfter (.hadd2 fm false two) (put2 0x3C003C00 0x3C004000) 0 2 = some 0x40004200 := by decide +kernel
theorem test_cvtfi_saturates : vAfter (.cvtfi .f32 .i8 false .rtz one) (put2 0x43960000 0) 0 2 = some 127 := by decide +kernel
theorem test_exit : (after .exit id).map (·.live) = some 0 := by decide +kernel
theorem test_tret_outside : trapAfter .tret id = some (0x01, BitVec.allOnes 64) := by decide +kernel
theorem test_trap : (after (.trap 9) fun t => { t with tvec := 64 }).map (·.trap.info) = some 9 := by decide +kernel
theorem test_bra_moves : (after (.bra none 0xFFFFFFFFFFFF) id).map (fun t => t.frontier.map (·.addr)) = some [0] := by
  decide +kernel
theorem test_vote_ballot : vAfter (.vote .ballot false 0 (.v 2)) (fun t => { t with lane := t.lane.setPred 33 0 true false }) 0 3 =
    some 2 := by decide +kernel
theorem test_shfl_exited : vAfter (.shfl .idx 0 false two) (fun t => live 1 (regs [(1, 0, 9), (0, 1, 1)] t)) 0 2 = some 0 := by decide +kernel
theorem test_redux_min : vAfter (.redux .min .i32 one) (regs [(5, 0, 0xFFFFFFF0)]) 0 2 = some 0xFFFFFFF0 := by decide +kernel
theorem test_scan_exclusive : vAfter (.scan .add .ui32 true one) (regs [(0, 0, 3), (1, 0, 4), (2, 0, 5)]) 2 2 = some 7 := by
  decide +kernel
theorem test_brmk : (after (.brmk 1 4) (sregs [(4, 7)])).map (fun t => t.uni.bufRec 1) = some 7 := by decide +kernel
theorem test_waitout_goes_on : (after (.waitout ⟨0, 0, 0, 0, 0, 0, 0⟩) id).map (fun t => t.frontier.map (·.addr)) = some [16] := by
  decide +kernel
theorem test_sleep : (after (.sleep 5) id).map (·.susp) = some (.sleep 5) := by decide +kernel
theorem test_sysrd_user : trapAfter (.sysrd 0x4C 5 6) id = some (0x11, BitVec.allOnes 64) := by decide +kernel


/-! States that meet the hypotheses of the statements. Each theorem is named after its statement; its clauses follow the
statement's. -/

def ctxOf (s : State) : Ctx := s.ctx?.getD ⟨⟨0, 0⟩, launchedTroupe [], ⟨0, 0, [], 0, 0, 0⟩, launchedBlock⟩

def isAtIssue (s : State) (i : Instr) (m : LaneMask) : Bool :=
  s.ctx?.isSome && decide (s.ready (ctxOf s) i.srcs i.dests m = .go)

/-- What the check below shows is the hypothesis of the statements. -/
theorem atIssue_of {s : State} {i : Instr} {m : LaneMask} (h : isAtIssue s i m = true) : AtIssue s (ctxOf s) i m := by
  unfold isAtIssue at h
  cases hc : s.ctx? with
  | none => simp [hc] at h
  | some c => simp only [ctxOf, AtIssue, hc, Option.getD_some, Option.isSome_some, Bool.true_and, decide_eq_true_eq] at h ⊢
              exact ⟨trivial, h⟩

/-- The instruction is at issue in the state that runs it, with every lane. -/
def issues (i : Instr) : Bool := isAtIssue (at_ i id) i (BitVec.allOnes 64)
def answers (i : Instr) (s : State) : Bool := match exec i s with
  | .next _ => true
  | _ => false

/-- The module with nothing to do. -/
def idle : State := { State.reset with todo := [] }
def c0 (i : Instr) (f : Troupe → Troupe) : Ctx := ctxOf (at_ i f)

theorem witness_StepRunsTheDecodedInstruction :
    ((at_ .nop id).agenda = [] ∧ ((c0 .nop id).iss.words[(c0 .nop id).iss.idx]?) = encode .nop ∧ (at_ .nop id).ctx?.isSome) ∧
    (({ idle with agenda := [.event .powerOn] } : State).agenda = [.event .powerOn] ∧ encode .powerOn = none) ∧
    (let s := ({ idle with agenda := [.tick] } : State)
     s.agenda = [.tick] ∧ s.nextWord = none ∧ s.todo = [] ∧ ({ s with todo := [.powerOn] } : State).todo ≠ []) ∧
    (let s := ({ at_ .nop id with agenda := [.tick] } : State)
     s.agenda = [.tick] ∧ s.nextWord = some .nop) ∧
    (State.reset.agenda = [] ∧ State.reset.nextWord = none ∧ State.reset.todo = [Ev.powerOn]) ∧
    (idle.agenda = [] ∧ idle.nextWord = none ∧ idle.todo = []) ∧
    decodeTableWord 64 0x7402000000000000 = some .exit := by decide +kernel

theorem witness_DecodeAndEncodeAgree :
    (∃ (i : Instr) (w : W64), i.wf = true ∧ encode i = some w) ∧ ∃ (w : W64) (i : Instr), decode w = .ok i :=
  ⟨⟨.exit, _, rfl, rfl⟩, ⟨0x7402000000000000, .exit, rfl⟩⟩

theorem witness_EveryStepKeepsMemory : (at_ .nop id).memoryOk ∧ ∃ s', step (at_ .nop id) = .next s' := ⟨rfl, _, rfl⟩

/-- Clauses: outside a handler with a handler's address; a register on its way; a source that asks for it. -/
theorem witness_RegisterWordFrame :
    let i : Instr := .iadd .i32 two
    let j : Instr := .iadd .i32 ⟨.v 2, ⟨.v 0, true⟩, v 1⟩
    let away := fun (t : Troupe) => { t with lane := t.lane.empties 0 1, tvec := 64 }
    isRegisterWord i = true ∧ (at_ i away).ctx?.isSome ∧ (c0 i away).t.trap.inHandler = false ∧ (c0 i away).t.tvec ≠ 0 ∧
    (at_ i away).ready (c0 i away) i.srcs i.dests (c0 i away).mask = .wait ∧
    (at_ j away).ready (c0 j away) j.srcs j.dests (c0 j away).mask = .empty 0 1 := by decide +kernel

theorem witness_WordsLeaveMemory :
    (encode .nop ≠ none ∧ answers .nop (at_ .nop id) ∧ isGlobalRead .nop = false) ∧
    (let i : Instr := .ld (.v 4) ⟨1, v 2, 0, .b32, 0, 0, 0⟩
     encode i ≠ none ∧ answers i (at_ i fun t => { t with tvec := 64 }) ∧ (at_ i id).homes.waiting = []) := by decide +kernel

theorem witness_IntegerArithmeticResults :
    let t : IntTy := .i32
    let i1 : I1 := ⟨.v 2, v 0, 1⟩
    [Instr.iadd t two, .isub t two, .imul t false two, .imul t true two, .imad t three, .imuls t two, .iadds t two,
      .isubs t two, .imin t two, .imax t two, .iclamp t three, .iabs t false one, .iabs t true one, .ineg t false one,
      .ineg t true one, .iscadd t 1 two, .icmp t two, .iaddI i1, .imulI i1, .imadI i1, .andI i1, .orI i1, .xorI i1,
      .shlI i1, .shrI i1, .sraI i1, .icmpI i1, .mov false one, .mov true one, .movi (.v 2) 1, .movhi (.v 2) 1,
      .movhi (.s 2) 1].all issues = true := by decide +kernel

/-- Clauses: no zero divisor; NT with one; a zero divisor without NT. -/
theorem witness_DivisionResults :
    let i : Instr := .idiv .i32 false two
    let j : Instr := .irem .i32 false two
    let f := put2 7 1
    let g := put2 7 0
    (Instr.idiv .i32 false two).wf = true ∧ (encode i).isSome ∧
    (zeroDivisors (c0 i f) .i32 two.b = 0 ∧ isAtIssue (at_ i f) i 1 ∧ isAtIssue (at_ j f) j 1) ∧
    (zeroDivisors (c0 i g) .i32 two.b ≠ 0 ∧ isAtIssue (at_ i g) i 1 ∧ isAtIssue (at_ j g) j 1) ∧
    isAtIssue (at_ (.idiv .i32 true two) g) (.idiv .i32 true two) 1 := by decide +kernel

theorem witness_CarryResults : [Instr.iaddc .ui32 true 1 two, .isubb .ui32 true 1 two].all issues = true ∧
    (Instr.iaddc .ui32 true 1 two).wf = true ∧ (encode (.isubb .ui32 true 1 two)).isSome := by decide +kernel

theorem witness_DotAndDifferenceResults :
    [Instr.idp4 .i32 true true false three, .idp4 .i32 true true true three, .idp2 .i32 true true false three,
      .idp2 .i32 true true true three, .isad .ui8x4 three].all (fun i => issues i && i.wf) = true := by decide +kernel

/-- With a scalar and a packed type for the shifts. -/
theorem witness_LogicAndFieldResults :
    let t : IntTy := .ui32
    [Instr.and t two, .or t two, .xor t two, .andn t two, .lmux t 1 2 three, .shl t two, .shr t two, .sra t two,
      .shl .i8x4 two, .shr .i8x4 two, .sra .i8x4 two, .rot t false two, .rot t true two, .fsh true three, .fsh false three,
      .popc t one, .clz t one, .ctz t one, .brev t one, .bfe t three, .bfi t three, .bperm three, .sext .i32 two,
      .imsk t two].all issues = true ∧ t.scalar = true ∧ IntTy.i8x4.scalar = false := by decide +kernel

theorem witness_PredicateResults :
    [Instr.iset .i32 .lt 1 ⟨v 0, v 1⟩, .isetI .lt false 1 (v 0) 1, .fset fm .lt 1 ⟨v 0, v 1⟩, .plop 1 2 3 8,
      .pmovToReg (.v 2), .pmovToPred (v 0) 3].all issues = true ∧
    (let c := c0 (.pmovToPred (v 0) 3) (live 1)
     (∃ q : Pred, ∃ l < 64, c.mask.getLsbD l = true ∧ (3 : BitVec 8).getLsbD q.val = true) ∧
     ∃ q : Pred, ∃ l < 64, c.mask.getLsbD l = false ∨ (3 : BitVec 8).getLsbD q.val = false) := by decide +kernel

/-- Clauses: sel with a good and with a poisoned guard; rdlane of a full lane and of an exited one; wrlane. -/
theorem witness_LaneAndSelectResults :
    let i : Instr := .sel (some ⟨false, 1⟩) false false 2 two
    let f := fun (t : Troupe) => { t with lane := t.lane.setPred 0 1 true true }
    let r : Instr := .rdlane (.v 2) (v 0) 4
    let w : Instr := .wrlane (.v 2) 3 4
    (isAtIssue (at_ i id) i ((c0 i id).guardMask (some ⟨false, 1⟩)) ∧ (c0 i id).guardBad (some ⟨false, 1⟩) = 0) ∧
    (isAtIssue (at_ i f) i ((c0 i f).guardMask (some ⟨false, 1⟩)) ∧ (c0 i f).guardBad (some ⟨false, 1⟩) ≠ 0) ∧
    ((at_ r id).ready (c0 r id) [(Reg.s 4).opnd 1] [(Reg.v 2).opnd 1] (c0 r id).mask = .go ∧
      ((c0 r id).t.emptyLanes ((v 0).opnd 1)).getLsbD 0 = false ∧ (at_ r id).inFlight (c0 r id).key ((v 0).opnd 1) = false) ∧
    (let e := fun t => sregs [(4, 63)] (live 1 t)
     (at_ r e).ready (c0 r e) [(Reg.s 4).opnd 1] [(Reg.v 2).opnd 1] (c0 r e).mask = .go ∧
     (c0 r e).t.exited.getLsbD 63 = true ∧ (at_ r e).inFlight (c0 r e).key ((v 0).opnd 1) = false) ∧
    isAtIssue (at_ w id) w (bitM 64 0) := by decide +kernel

theorem witness_PackingResults :
    [Instr.cvti .i8 .i32 one, .ipack .i8x4 two, .iunpack .i8x4 true one].all issues = true := by decide +kernel

theorem witness_Fp32Results :
    let i1 : I1 := ⟨.v 2, v 0, 1⟩
    [Instr.fadd fm two, .fsub fm two, .fmul fm two, .fdiv fm two, .fmin fm two, .fmax fm two, .fcmp fm two, .fldexp fm two,
      .ffma fm false three, .fclamp fm three, .faddI i1, .fmulI i1, .ffmaI i1, .fcmpI i1, .fsqrt fm one, .ffrc fm one,
      .frnd fm one, .fmant fm one, .fexpo fm one].all issues = true := by decide +kernel

theorem witness_ApproximateResults :
    [Instr.frcp fm one, .frsq fm one, .fex2 fm one, .flg2 fm one, .fsin fm one, .fcos fm one, .ftanh fm one, .fsigm fm one,
      .fsilu fm one].all issues = true := by decide +kernel

theorem witness_Fp64AndPackedResults :
    let p : R2 := ⟨.v 2, v 0, v 4⟩
    let q : R3 := ⟨.v 2, v 0, v 4, v 6⟩
    [Instr.dadd fm p, .dmul fm p, .ddiv fm p, .dfma fm false q, .dcmp fm p, .dsqrt fm one, .hadd2 fm false two,
      .hmul2 fm true two, .hmin2 fm false two, .hmax2 fm false two, .hcmp2 fm false two, .hfma2 fm false true three,
      .fdot2 fm false three].all issues = true := by decide +kernel

theorem witness_ConversionResults :
    [Instr.cvtf .f32 .f16 false false false .rne one, .cvtfi .f32 .i32 false .rtz one, .cvtif .i32 .f32 .rne one,
      .cvt8Encode true false .f32 true false .sr 3 two, .cvt8Decode true .f16 3 false one,
      .cvtmxEncode .e2m1 false .rne 0 ⟨.v 40, v 0⟩, .cvtmxDecode .e3m2 false .rne ⟨.v 40, v 0⟩, .cvt4Pack ⟨.v 40, v 0⟩,
      .cvt4Deq ⟨.v 40, v 0, v 1, v 2⟩].all issues = true := by decide +kernel

/-- Transfers with targets at the ends of the range, and targets that fail each check. -/
theorem witness_TransferOutcomes :
    let g : Option Guard := some ⟨false, 1⟩
    let to8 := fun (x : W64) (t : Troupe) => sregs [(4, x)] t
    let top : W64 := BitVec.ofNat 64 (2 ^ 57 - 8)
    let bad := fun (t : Troupe) => { t with uni := t.uni.put 4 0 true }
    (at_ (.bra g 1) id).ctx?.isSome ∧ (c0 (.bra g 1) id).guardBad g = 0 ∧
    (isAtIssue (at_ (.brx g (.s 4)) (to8 top)) (.brx g (.s 4)) ((c0 (.brx g (.s 4)) (to8 top)).guardMask g)) ∧
    issues (.call 1) ∧
    (let c := c0 (.callx (.s 4)) (to8 top)
     isAtIssue (at_ (.callx (.s 4)) (to8 top)) (.callx (.s 4)) c.mask ∧ ∀ l < 64, c.mask.getLsbD l = true →
       c.t.poisoned l ((Reg.s 4).opnd 2) = false ∧ c.t.value l ((Reg.s 4).opnd 2) % 8 = 0 ∧
         c.t.value l ((Reg.s 4).opnd 2) < 2 ^ 57) ∧
    (isAtIssue (at_ (.ret (.s 4)) (to8 0)) (.ret (.s 4)) (c0 (.ret (.s 4)) (to8 0)).mask) ∧
    (let c := c0 (.ret (.s 4)) (to8 4)
     isAtIssue (at_ (.ret (.s 4)) (to8 4)) (.ret (.s 4)) c.mask ∧
       maskOf ((lanes c.mask).filter fun l => !c.t.poisoned l ((Reg.s 4).opnd 2) &&
         decide (c.t.value l ((Reg.s 4).opnd 2) % 8 ≠ 0 ∨ 2 ^ 57 ≤ c.t.value l ((Reg.s 4).opnd 2))) ≠ 0) ∧
    (let c := c0 (.callx (.s 4)) (to8 (BitVec.ofNat 64 (2 ^ 57)))
     maskOf ((lanes c.mask).filter fun l => decide (2 ^ 57 ≤ c.t.value l ((Reg.s 4).opnd 2))) ≠ 0) ∧
    (let c := c0 (.ret (.s 4)) bad
     isAtIssue (at_ (.ret (.s 4)) bad) (.ret (.s 4)) c.mask ∧
       maskOf ((lanes c.mask).filter fun l => c.t.poisoned l ((Reg.s 4).opnd 2)) ≠ 0) := by decide +kernel

theorem witness_ExitAndPauseResults :
    (at_ .exit id).ctx?.isSome ∧ (at_ (.sleep 0) id).ctx?.isSome ∧ (0 : W32) = 0 ∧ (1 : W32) ≠ 0 := by decide +kernel

/-- Outside a handler with its address set; in one; and without an address. -/
theorem witness_TrapResults :
    let inside := fun (t : Troupe) => { t with trap := { t.trap with inHandler := true } }
    ((at_ (.trap 1) fun t => { t with tvec := 64 }).ctx?.isSome ∧
      (c0 (.trap 1) fun t => { t with tvec := 64 }).t.trap.inHandler = false ∧
      (c0 (.trap 1) fun t => { t with tvec := 64 }).t.tvec ≠ 0) ∧
    ((at_ (.trap 1) inside).ctx?.isSome ∧ (c0 (.trap 1) inside).t.trap.inHandler = true) ∧
    ((c0 (.trap 1) id).t.trap.inHandler = false ∧ (c0 (.trap 1) id).t.tvec = 0) := by decide +kernel

theorem witness_TrapReturnResults :
    let inside := fun (t : Troupe) => { t with trap := { t.trap with inHandler := true } }
    let apart := fun (t : Troupe) => { inside t with frontier := [⟨0, 8, 0, 2⟩] }
    (at_ .tret id).ctx?.isSome ∧ (c0 .tret id).t.trap.inHandler = false ∧
    ((c0 .tret apart).t.trap.inHandler = true ∧ (c0 .tret apart).t.frontier ≠ []) ∧
    ((c0 .tret inside).t.trap.inHandler = true ∧ (c0 .tret inside).t.frontier = [] ∧
      (c0 .tret inside).t.trap.resume = false) := by decide +kernel

theorem witness_CrossLaneAndReductionResults :
    let sh : Instr := .shfl .xor 0 false two
    let fr : Instr := .fredux false .add false false false .rne one
    ((at_ sh id).ready (c0 sh id) [two.b.opnd 1] [two.d.opnd 1] (c0 sh id).mask = .go ∧
      (at_ sh id).inFlight (c0 sh id).key (two.a.opnd 1) = false ∧ (c0 sh id).t.emptyLanes (two.a.opnd 1) = 0) ∧
    [Instr.vote .any false 1 (.v 2), .vote .ballot false 1 (.v 2), .matchLanes false one, .redux .add .i32 one,
      .scan .add .i32 true one, .amask true (.v 2), fr].all issues = true ∧
    ((c0 fr (live 1)).mask = 1 ∧ isAtIssue (at_ fr (live 1)) fr 1) ∧
    ((c0 fr (live 3)).mask = 3 ∧ isAtIssue (at_ fr (live 3)) fr 3) := by decide +kernel

theorem witness_SpecialRegisterResults :
    [Instr.movsRead .tick (.v 2), .movsRead .lane (.v 2), .movsRead .trapresume (.s 2), .movsWrite 2].all issues = true ∧
    (c0 (.movsWrite 2) id).t.trap.inHandler = false ∧
    (c0 (.movsWrite 2) fun t => { t with trap := { t.trap with inHandler := true } }).t.trap.inHandler = true := by
  decide +kernel

/-- A record of 4-byte elements with the given extents and dimensions, in GLOBAL at 64, or in SCRATCH. -/
def testRecord (e0 e1 e2 ndims space : Nat) : BufRec :=
  ⟨64, 2, space, 0, e0, e1, e2, 6, 0, false, true, 1, ndims, 0, 64, 4096⟩

/-- For each clause the values at its edge: below 0, past 32 bits, the last element and the one after it, in one, two and
three dimensions, a row crossed, and an end past the limit. -/
theorem witness_AddressResults :
    ((0 : Nat) : Int) + (-1) < 0 ∧ (2 ^ 32 : Nat) ≤ ((2 ^ 32 - 1 : Nat) : Int) + 1 ∧
    (let r := testRecord 4 0 0 1 0
     r.ndims = 1 ∧ r.extent0 ≤ 4 ∧ 3 < r.extent0 ∧ 3 * 4 + 4 ≤ r.extent0 * 4 ∧ r.extent0 * 4 < 3 * 4 + 8) ∧
    (let r := testRecord 4 2 0 2 0
     r.ndims = 2 ∧ r.extent0 * r.extent1 ≤ 8 ∧ 7 = 3 + r.extent0 * 1 ∧ 3 < r.extent0 ∧ 1 < r.extent1) ∧
    (let r := testRecord 4 2 2 3 0
     r.ndims = 3 ∧ r.extent0 * r.extent1 * r.extent2 ≤ 16 ∧ 15 = 3 + r.extent0 * (1 + r.extent1 * 1)) ∧
    (let r := testRecord 4 0 0 1 1
     r.space = 1 ∧ r.base + 3 * 4 + 4 ≤ 80 ∧ ¬ r.base + 3 * 4 + 4 ≤ 79) := by decide +kernel


/-! A partition of slice 0 with one band, kernel tables that map the first GiB of the kernel's space onto it, and a block of
the kernel with scratchpad, counters and slots on core 0. -/

def testPartition : Partition := newPartition ⟨0, 1, [], [0, 1], 0, [], 0⟩

def world : State :=
  { idle with
    pkg := { Package.none with parts := [(0, testPartition)] }
    plat := { Platform.reset with inReset := false }
    homes := { Homes.reset with mem := [(1, 0x10), (7, 0x40), (4103, 0xB8)] }
    regs := [(regKey 0 0 0x50, BitVec.ofNat 64 (2 ^ 48 + 2 ^ 12 + 1))] }

def kernelBlock : Block :=
  { launchedBlock with regime := ⟨0, 0, .h, 0⟩, g0 := 0, grans := 2, d := 4096, c := 64, opslots := [0, 1, 2, 3] }

def kernelTroupe (i : Instr) : Troupe := launchedTroupe [(encode i).getD 0]

/-- i at issue in the kernel's block. -/
def kat (i : Instr) (f : Troupe → Troupe) (g : State → State) : State :=
  g { world with current := some ⟨0, 0⟩, troupes := [(0, f (kernelTroupe i))], blocks := [(0, kernelBlock)] }

/-- A buffer record in b1: base, space, extent and flags (bits above 160). -/
def withRecord (base space e0 flags : Nat) (t : Troupe) : Troupe :=
  { t with uni := t.uni.setRec 1 (BitVec.ofNat 256 (base + 2 * 2 ^ 57 + space * 2 ^ 60 + e0 * 2 ^ 64 +
    (6 + flags + 1 * 2 ^ 7 + 1 * 2 ^ 10) * 2 ^ 160)) }

def rwFlag : Nat := 2 ^ 6
def zeroFlag : Nat := 2 ^ 5
def ma : MAddr := ⟨1, v 2, 0, .b32, 0, 0, 0⟩

/-- A store that every lane can make in GLOBAL, one in SCRATCH, and one whose only lane is dropped. -/
theorem witness_MemoryAccepted :
    let i : Instr := .st none (v 3) ma
    let r : MemReq := ⟨i, ma, .store, 2, none, some ((v 3).opnd 1), none, false, [0, 1]⟩
    let g := kat i (fun t => live 1 (withRecord 8192 0 4 rwFlag t)) id
    let sp := kat i (fun t => live 1 (withRecord 64 1 4 rwFlag t)) id
    let out := kat i (fun t => live 1 (withRecord 8192 0 0 (rwFlag + zeroFlag) t)) id
    (memRequest i).isSome ∧ (memRequest i).map (·.kind) = some r.kind ∧ [g, sp, out].all (fun s => isAtIssue s i (maskOf (r.lanesOf (ctxOf s))) &&
      !(ctxOf s).t.memFull r.kind && decide (r.poisonedGuard (ctxOf s) = 0) &&
      !((ctxOf s).record ma.buf).bad [0, 1] true && decide (r.lanesOf (ctxOf s) = [0]) &&
      !(ctxOf s).t.poisoned 0 (ma.idx.opnd 1)) = true ∧
    (((ctxOf g).record 1).addressOf 0 0 4 4096 = .to 8192 ∧ ((ctxOf g).record 1).space = 0 ∧
      (pageResult (g.xlatePages 0 kernelBlock.regime needW [2]).1 8192).toOption = some (.mem 8192 0)) ∧
    (((ctxOf sp).record 1).addressOf 0 0 4 4096 = .to 64 ∧ ((ctxOf sp).record 1).space = 1 ∧
      sp.sbHolds (ctxOf sp) true false (spBytes 0 6 64 4) = false) ∧
    (((ctxOf out).record 1).addressOf 0 0 4 4096 = .out ∧ ((ctxOf out).record 1).oobZero = true) := by decide +kernel

/-- A full counter, a poisoned guard, a bad record, and a lane outside. -/
theorem witness_MemoryTraps :
    let i : Instr := .st (some ⟨true, 1⟩) (v 3) ma
    let r : MemReq := ⟨i, ma, .store, 2, some ⟨true, 1⟩, some ((v 3).opnd 1), none, false, [0, 1]⟩
    let good := fun t => live 1 (withRecord 8192 0 4 rwFlag t)
    let full := kat i (fun t => (good t).count fun c => { c with st := 63 }) id
    let poisoned := kat i (fun t => { good t with lane := t.lane.setPred 0 1 false true }) id
    let bad := kat i (fun t => live 1 (withRecord 8192 3 4 rwFlag t)) id
    let outside := kat i (fun t => live 1 (withRecord 8192 0 0 rwFlag t)) id
    (memRequest i).map (·.kind) = some r.kind ∧ [full, poisoned, bad, outside].all (fun s => isAtIssue s i (maskOf (r.lanesOf (ctxOf s)))) = true ∧
    (ctxOf full).t.memFull r.kind = true ∧
    ((ctxOf poisoned).t.memFull r.kind = false ∧ r.poisonedGuard (ctxOf poisoned) ≠ 0) ∧
    (r.poisonedGuard (ctxOf bad) = 0 ∧ ((ctxOf bad).record 1).bad [0, 1] true = true) ∧
    (r.poisonedGuard (ctxOf outside) = 0 ∧ ((ctxOf outside).record 1).bad [0, 1] true = false ∧
      ((ctxOf outside).record 1).addressOf 0 0 4 4096 = .out ∧ ((ctxOf outside).record 1).oobZero = false) := by
  decide +kernel

/-- A load into a v register, one into an s register, and a store. -/
theorem witness_AcceptedOperation :
    (kat (.ld (.v 4) ma) id id).ctx?.isSome ∧ [(0, (8192 : Nat))] ≠ [] ∧ MemKind.load false ≠ .prefetch ∧
    (MemKind.load false).reads = true ∧ MemKind.store.reads = false ∧
    ((ctxOf (kat (.ld (.v 4) ma) id id)).mask = BitVec.allOnes 64) := by decide +kernel

theorem witness_ScratchStoreResults :
    ([0, 1, 2, 3] : List Nat).Nodup ∧ [0, 1, 2, 3].length = 4 ∧ (5 : Nat) ∉ [0, 1, 2, 3] ∧ (6 : Nat) < 7 := by decide

/-- brec.sp, brmk, brset, and brec with a read that is on its way, back, and back with poison. -/
theorem witness_RecordResults :
    let sp : Instr := .brec true 1 4
    let g : Instr := .brec false 1 4
    let read := fun (st : PartState) (p : Bool) (s : State) => s.setOp 9 ⟨.troupe 0, .record, .b64, none, 0, 0,
      ⟨0, 0, .h, 0⟩, 0, 4, 0, none, [⟨1, none, 0, [], st, [⟨0, 64, 0, 0, p⟩], none, false⟩], false⟩
    let s1 := kat sp (sregs [(4, 4064)]) id
    isAtIssue s1 sp (ctxOf s1).mask ∧ (ctxOf s1).t.sBad 4 = false ∧ 4064 + 32 ≤ (ctxOf s1).blk.d ∧
    s1.sbHolds (ctxOf s1) false false (spBytes 0 6 4064 32) = false ∧ (s1.core 0).badAt (spBytes 0 6 4064 32) = false ∧
    ((kat (.brmk 1 60) id id).ctx?.isSome ∧ ∀ i < 4, (ctxOf (kat (.brmk 1 60) id id)).t.uni.sPending.getLsbD (60 + i) = false) ∧
    isAtIssue (kat (.brset .adv 1 4) id id) (.brset .adv 1 4) (BitVec.allOnes 64) ∧
    [(PartState.sent, false), (.done, false), (.done, true)].all (fun x =>
      let s := kat g id (read x.1 x.2)
      isAtIssue s g (BitVec.allOnes 64) && (s.recordRead? (ctxOf s)).isSome &&
        ((s.recordRead? (ctxOf s)).map (fun e => e.2.complete) == some (decide (x.1 = .done))) &&
        ((s.recordRead? (ctxOf s)).map (fun e => (e.2.parts.flatMap (·.out)).any (·.poison)) == some x.2)) = true := by
  decide +kernel

/-- prefetch with a bad record and with a good one; a cluster access whose target has no block, and one that has. -/
theorem witness_PrefetchAndClusterResults :
    let p : Instr := .prefetch ma
    let good := kat p (fun t => live 1 (withRecord 8192 0 4 0 t)) id
    let none_ := kat p (fun t => live 1 (withRecord 8192 0 0 0 t)) id
    let x : Instr := .stx (v 3) ma
    let xr : MemReq := ⟨x, ma, .store, 11, none, some ((v 3).opnd 1), none, false, [2]⟩
    let away := kat x (fun t => live 1 (withRecord (64 + 2 ^ 62) 2 4 rwFlag t)) id
    let near := kat x (fun t => live 1 (withRecord 64 2 4 rwFlag t)) id
    good.ctx?.isSome ∧ pendingS (ctxOf good).t (ma.idx.opnd 1) = false ∧
    good.inFlight (ctxOf good).key (ma.idx.opnd 1) = false ∧
    (((ctxOf good).record 1).bad [0, 1] false = false ∧ ((ctxOf good).record 1).space = 0) ∧
    ((ctxOf none_).record 1).addressOf 0 0 4 4096 = .out ∧
    ((ctxOf (kat p id id)).record 1).bad [0, 1] false = true ∧
    (clusterRequest x).map (·.kind) = some xr.kind ∧ isAtIssue away x (ctxOf away).mask ∧ (ctxOf away).t.memFull xr.kind = false ∧
    ((ctxOf away).record 1).bad [2] true = false ∧ (away.targetBlock (ctxOf away) 1).isNone ∧
    (near.targetBlock (ctxOf near) ((ctxOf near).record 1).csel).isSome ∧
    ((ctxOf near).record 1).addressOf 0 0 4 4096 = .to 64 := by decide +kernel

def mma : Instr := .mmaBf16 ⟨.v 64, none, 1, 2, false⟩
/-- The block's slots 1 and 2 are held by the troupe. -/
def holding (s : State) : State :=
  { s with blocks := s.blocks.map fun (e : Nat × Block) => (e.1, { e.2 with claims := [(1, 0), (2, 0)] }) }

theorem witness_ProductResults :
    (productShape mma = some (⟨.v 64, none, 1, 2, false⟩, 256, 16, 0) ∧ (mmaForm mma).isSome) ∧
    (let s := kat mma id holding
     let c := ctxOf s
     (mmaForm mma).map (fun f => s.ctx?.isSome && !s.mxFull c && !s.accWaits c f.ops.d && !c.optPending f.ops.k &&
       !c.optPending f.count && !s.slotsHeld c false f.roles && c.t.frontier.isEmpty && decide (f.scaled = 0) &&
       f.roles.all fun r => c.holds r.1) = some true) ∧
    (let s := kat mma (fun t => { t with frontier := [⟨0, 8, 0, 2⟩] }) holding
     (ctxOf s).t.frontier ≠ []) ∧
    (let i : Instr := .mmaBf16 ⟨.v 64, some 4, 1, 2, false⟩
     uval 11 ((ctxOf (kat i (sregs [(4, 257)]) holding)).t.s 4).toNat = 257 ∧
     uval 11 ((ctxOf (kat i (sregs [(4, 256)]) holding)).t.s 4).toNat = 256) ∧
    (let i : Instr := .mmaq .g32 ⟨3, false⟩ 5 ⟨.v 64, none, 1, 2, false⟩
     (mmaForm i).map (fun f => (f.scaled, (ctxOf (kat i id holding)).optVal f.count 0)) = some (32, 0)) ∧
    (let s := kat mma id id
     (mmaForm mma).map (fun f => f.roles.any fun r => !(ctxOf s).holds r.1) = some true) ∧
    (0 : Nat) < 16 := by decide +kernel

theorem witness_SlotInstructionResults :
    let cl : Instr := .sclaim 4 (.inl 6)
    let re : Instr := .srel (.inl 6)
    let fi : Instr := .sfill 1 15 none (v 0)
    let dr : Instr := .sdrain 1 15 none (.v 0)
    let xp : Instr := .sxpose 1 2 .w8 0
    let cv : Instr := .mmacvt 1 .bf16 false false false .rne none 0 (v 0)
    let other := fun (s : State) =>
      { s with blocks := s.blocks.map fun (e : Nat × Block) => (e.1, { e.2 with claims := [(1, 3)] }) }
    (∀ i ∈ slotList 6, i < kernelBlock.opslots.length) ∧
    [(cl, id), (cl, other), (re, holding), (fi, holding), (dr, holding), (xp, holding), (cv, holding)].all (fun x =>
      let s := kat x.1 id x.2
      isAtIssue s x.1 (BitVec.allOnes 64) && !s.mxFull (ctxOf s) && (ctxOf s).t.frontier.isEmpty) = true ∧
    (let s := kat fi id holding
     (ctxOf s).holds 1 = true ∧ (ctxOf s).holds 2 = true ∧ s.slotsHeld (ctxOf s) true [(1, 0, 256 * 16)] = false ∧
     s.slotsHeld (ctxOf s) false [(1, 0, 256 * 16)] = false ∧ s.slotsHeld (ctxOf s) true [(1, 0, 8192)] = false) ∧
    (0 : Nat) % 8 = 0 ∧ 0 + 256 * 16 ≤ 32768 ∧ (0 : Nat) % 256 = 0 ∧ 0 + 4096 * 2 ≤ 32768 := by decide +kernel

/-- The matrix queue of core 0 holds one operation. -/
def queued (w : MxWork) (started : Bool) (s : State) : State :=
  s.setCore 0 { Core.empty with mx := [⟨0, w, started, []⟩] }

theorem witness_MatrixUnitEvents :
    let at0 := fun w b => kat .nop id (queued w b)
    let pr := MxWork.product mma 256 false
    let xp := MxWork.xpose 1 2 .w8 0
    let fi := MxWork.fill 1 1 0 (.v 0) []
    let dr := MxWork.drain 1 1 0 (.v 0)
    ((at0 pr false).mxNext 0 true = some (0, ⟨0, pr, false, []⟩) ∧ ((at0 pr false).mxOwner ⟨0, pr, false, []⟩).isSome ∧
      (mmaForm mma).isSome) ∧
    (at0 xp false).mxNext 0 true = some (0, ⟨0, xp, false, []⟩) ∧
    (at0 fi false).mxNext 0 false = some (0, ⟨0, fi, false, []⟩) ∧
    (at0 dr false).mxNext 0 false = some (0, ⟨0, dr, false, []⟩) ∧
    ((at0 pr true).core 0).mx.zipIdx.find? (fun e => decide (e.1.work.isArray = true) && e.1.started) =
      some (⟨0, pr, true, []⟩, 0) ∧
    ((at0 dr true).core 0).mx.zipIdx.find? (fun e => decide (e.1.work.isArray = false) && e.1.started) =
      some (⟨0, dr, true, []⟩, 0) := by decide +kernel


def holdsTable {α : Type} (o : Option α) (f : α → Bool) : Bool := match o with
  | some x => f x
  | none => false

/-- A chain of troupe 0 in a phase. -/
def chainAt (st : ChainState) (ph : ChainPhase) : Chain :=
  ⟨0, 0, 0, 0, ⟨0, 0, .h, 0⟩, 8192, 0, st, ph, [], 0x80, none, 0, false, false, 0, [], [], 0, 0, true⟩

def withChain (x : Chain) (s : State) : State := s.setChain 7 x

theorem witness_CopyResults :
    let cp : Instr := .copy 4 6
    let st : Instr := .cpstat 4 6
    let ab : Instr := .cpabort none
    let cb : Instr := .cbload 0 4 6
    let at6 := fun i (x : W64) => kat i (sregs [(6, x)]) id
    let full := fun (s : State) => (List.range 4).foldl (fun (s : State) i => s.setBook 0 i ⟨9, i, [], [], false, true⟩) s
    [at6 cp 8192, at6 cp 64, at6 cp (BitVec.ofNat 64 (2 ^ 57))].all (fun s => isAtIssue s cp (BitVec.allOnes 64) &&
      (ctxOf s).t.frontier.isEmpty && decide ((ctxOf s).t.cnt.cp < 63) && !(ctxOf s).t.sBad 6) = true ∧
    (ctxOf (kat cp (fun t => { t with uni := t.uni.put 6 8192 true }) id)).t.sBad 6 = true ∧
    (8192 : Nat) % 128 = 0 ∧ (64 : Nat) % 128 ≠ 0 ∧
    (isAtIssue (at6 st 0) st (BitVec.allOnes 64) ∧ (at6 st 0).findChain 0 0 = none) ∧
    ((kat st id (withChain (chainAt .queued .fetch))).findChain 0 0).isSome ∧
    isAtIssue (kat ab id id) ab (BitVec.allOnes 64) ∧
    (isAtIssue (at6 cb 8192) cb (BitVec.allOnes 64) ∧ (8192 : Nat) % 64 = 0 ∧ (at6 cb 8192).bookStore 0 0 0 = some 0 ∧
      (ctxOf (at6 cb 8192)).t.cnt.cp < 63) ∧
    (kat cb (sregs [(6, 8192)]) full).bookStore 0 0 0 = none := by decide +kernel

/-- A read of an engine that is back. -/
def engineDone (id : Nat) (s : State) : State :=
  s.setOp id ⟨.chain 7, .record, .b64, none, 0, 0, ⟨0, 0, .h, 0⟩, 0, 4, 0, none, [], false⟩

theorem witness_CopyEngineEvents :
    let w := fun (x : Chain) => kat .nop id (withChain x)
    let good := fun (x : Chain) => (w x).chain? 7 == some x
    let b := kernelBlock
    let contrib : Contrib := ⟨7, ⟨4, none, 0, [], .sent, [], none, false⟩, 0, .b32, 0, 2, 0⟩
    let load : BookLoad := ⟨0, 0, 0, 0, 8192, 4, false, some 9⟩
    ((w (chainAt .queued .fetch)).nextChain 0).isSome ∧
    [chainAt .active .fetch, chainAt .active (.record 9), chainAt .active (.predicate 9), chainAt .active .begin,
      chainAt .active (.move none), chainAt .active (.move (some 9)), chainAt .active .write, chainAt .active .status,
      { chainAt .active .add with done := some (.home 8192, none) }, chainAt .ended .over].all good = true ∧
    ((w (chainAt .active .fetch)).parks (chainAt .active .fetch) = false ∧ (8192 : Nat) % 128 = 0 ∧
      ((w (chainAt .active .fetch)).engineRead 7 (chainAt .active .fetch) 8192 16).toOption.isSome) ∧
    ((w (chainAt .active .fetch)).engineRead 7 (chainAt .active .fetch) (2 ^ 40) 16).toOption.isNone ∧
    (engineDone 9 (w (chainAt .active (.record 9)))).takeRead 9 ≠ none ∧
    ((w (chainAt .active (.move none))).block? 0 = some b ∧
      (w (chainAt .active (.move none))).earlierAccess (chainAt .active (.move none)) (XRec.of []) = false ∧
      (w (chainAt .active (.move none))).bookLoading (chainAt .active (.move none)) (XRec.of []) = false) ∧
    (w (chainAt .active .write)).written 7 (chainAt .active .write) = true ∧
    idle.chain? 7 = none ∧
    (let s := (kat .nop id id).setFlight { Flight.none with contribs := [(5, contrib)] }
     s.contrib? 5 = some contrib ∧ (s.ordering 4).held = [] ∧ s.isFrozen 4 = false ∧ sfind 4 s.homes.pins = none ∧
       contrib.key = (s.ordering 4).next ∧ contrib.count ≠ (s.ordering 4).applied + 1) ∧
    ((world.setOrdering 4 ⟨0, 0, [3]⟩).ordering 4).held ≠ [] ∧
    (let s := engineDone 9 ((kat .nop id id).setFlight { Flight.none with books := [(5, load)] })
     sfind 5 s.flight.books = some load ∧ load.op = some 9 ∧ (s.takeRead 9).isSome) := by decide +kernel

/-- A turnstile operation of troupe 0 on the turnstile at 8192 (a COUNTER page is not asked for at the home). -/
def tsAt (k : TsKind) (st : TsStage) (nb : Nat) (dst : Option SReg) (reply : Option (W64 × Bool)) (acked : Bool) : TsOp :=
  ⟨.troupe 0, k, .home 8192, none, 5, 6, dst, st, nb, [], acked, reply, 32, 0⟩

/-- A designator of turnstile 0 of the troupe's own block. -/
def ownTs : TsRef := ⟨0, none, 6⟩
def ownDesignator : W64 := BitVec.ofNat 64 (2 ^ 62)

theorem witness_TurnstileResults :
    let add : Instr := .tadd ownTs (.imm 1)
    let fetch : Instr := .tfetch 4 ownTs (.reg 8)
    let max : Instr := .tmax ownTs 8
    let read : Instr := .tread 4 ownTs
    let reset : Instr := .treset 4 ownTs 8
    let with6 := fun i (x y : W64) => kat i (sregs [(6, x), (8, y)]) id
    [add, fetch, max, read, reset].all (fun i => isAtIssue (with6 i ownDesignator 1) i (BitVec.allOnes 64)) = true ∧
    (let s := with6 add ownDesignator 1
     (match s.nameRef (ctxOf s) ownTs with | .to l _ => decide (l = .block 0 0) | _ => false) = true ∧
       (ctxOf s).t.sBad 6 = false ∧ (ctxOf s).t.cnt.atc < 63 ∧ (ctxOf s).blk.regime.priv = .h) ∧
    (let s := with6 add (BitVec.ofNat 64 (2 ^ 62 + 8)) 1
     (match s.nameRef (ctxOf s) ownTs with | .bad _ _ => true | _ => false) = true) ∧
    2 ^ 32 ≤ ((ctxOf (with6 fetch ownDesignator (BitVec.ofNat 64 (2 ^ 32)))).t.s 8).toNat ∧
    (c0 reset id).blk.regime.priv ≠ .h ∧ isAtIssue (at_ reset id) reset (BitVec.allOnes 64) ∧
    ((tsAt .add .sent 0 none none false).loc = .home 8192 ∧ 8192 % 8 = 0 ∧ world.listedAt (.home 8192) = [] ∧
      ∀ e ∈ world.pkg.parts, e.2.snap.state ≠ .copying) := by decide +kernel

theorem witness_TurnstileEvents :
    let put := fun (o : TsOp) => (kat .nop id id).setTs 3 o
    let there := fun (s : State) => s.setHomes { s.homes with tsLines := [(128, 0)] }
    let o := tsAt .add .sent 0 none none false
    let s := there (put o)
    (s.ts? 3 = some o ∧ s.refusesTs 0 (.home 8192) = false ∧ s.frozenTs (.home 8192) = false ∧
      s.countersAway (.home 8192) = false ∧ s.tsTested (.home 8192) = false ∧ s.tsMisses (.home 8192) = none ∧
      o.nb ≤ s.tick) ∧
    (s.tick < (tsAt .add .sent 9 none none false).nb ∧ s.deferredAt (s.tsUnit (.home 8192)) < 256) ∧
    (idle.refusesTs 0 (.home 8192) = true) ∧
    [tsAt .add .deferred 0 none none false, tsAt .add .deferred 9 none none false,
      tsAt .fetch .applied 0 (some 4) (some (1, false)) false, tsAt .add .applied 0 none none true].all
        (fun o => (put o).ts? 3 == some o) = true := by decide +kernel

theorem witness_WaitResults :
    let w : Instr := .wait 4 6 0 false (.ticks 5)
    let s := kat w (sregs [(6, ownDesignator), (7, 1)]) id
    let bad := kat w (sregs [(6, BitVec.ofNat 64 (2 ^ 62 + 8)), (7, 1)]) id
    isAtIssue s w (BitVec.allOnes 64) ∧
    ((s.nameConds (ctxOf s) 6 1).findSome? fun e => match e with | .error x => some x | .ok _ => none) = none ∧
    ((bad.nameConds (ctxOf bad) 6 1).findSome? fun e => match e with | .error x => some x | .ok _ => none) ≠ none ∧
    (kat (.waitout ⟨1, 0, 0, 0, 0, 0, 0⟩) id id).ctx?.isSome ∧ (⟨1, 0, 0, 0, 0, 0, 0⟩ : Limits).mask ≠ 0 ∧
    (kat (.fence 3) id id).ctx?.isSome ∧
    (let y := fun (v : Option (W64 × Bool)) => Cond.mk (.home 8192) none 5 false v
     (y (some (0, true))).sat = false ∧ outOfRange (BitVec.ofNat 64 (2 ^ 62 + 6)) 5 = true ∧ satisfied 5 5 = true ∧
       satisfied 4 5 = false ∧ outOfRange 4 5 = false ∧ [y none][0]? = some (y none)) := by decide +kernel

theorem witness_WaitEvents :
    let wt : WaitState := ⟨[⟨.home 8192, none, 5, false, none⟩], false, true, some 0, 4, false⟩
    let l : Limits := ⟨1, 0, 0, 0, 0, 0, 0⟩
    let susp := fun x (t : Troupe) => { t with susp := x, issue := none }
    let w : Waiter := ⟨.troupe 0 0, .home 8192, none, 32, 0, 5, none, false, false, []⟩
    let s := fun x => (kat .nop (susp x) id).setFlight { Flight.none with waiters := [(2, w)] }
    let there := fun (s : State) => s.setHomes { s.homes with tsLines := [(128, 0)] }
    let halted := fun (s : State) => { s with blocks := s.blocks.map fun (e : Nat × Block) => (e.1, { e.2 with state := .halted }) }
    ((s (.wait wt)).waiter? 2 = some w ∧ ((s (.wait wt)).troupe? (keyOf 0)).isSome ∧
      holdsTable ((s (.wait wt)).troupe? (keyOf 0)) (fun t => (s (.wait wt)).runningBlock t) = true) ∧
    holdsTable ((s (.wait wt)).troupe? (keyOf 0)) (fun t => (halted (s (.wait wt))).runningBlock t) = false ∧
    wt.deadline = some 0 ∧
    (w.listed = none ∧ (there (s (.wait wt))).refusesTs 0 (.home 8192) = false ∧
      (there (s (.wait wt))).tsMisses (.home 8192) = none) ∧
    limitsMet l Counters.zero = true ∧ limitsMet l ⟨1, 0, 0, 0, 0, 0⟩ = false ∧
    ((s (.fence 3 none)).troupe? ⟨0, 0⟩).map (·.susp) = some (.fence 3 none) ∧
    ((s (.fence 3 (some 1))).troupe? ⟨0, 0⟩).map (·.gwct) = some 0 := by decide +kernel

theorem witness_SystemWordResults :
    let with6 := fun i (x y : W64) => kat i (sregs [(6, x), (8, y)]) id
    let la : Instr := .launch 4 6
    let qs : Instr := .qstat 4 6 .state
    let rd : Instr := .sysrd 0x4C 4 6
    let wr : Instr := .syswr 0xC8 4 6 8
    let ec : Instr := .ecall 1 1 4 6
    let tl : Instr := .tlbinv .all 0 4 0 0 0
    let ri : Instr := .rdcinv .all 4 0 0
    let hs := fun i => with6 i 0 1
    [la, qs, rd, wr, ec, tl, ri].all (fun i => isAtIssue (hs i) i (BitVec.allOnes 64)) = true ∧
    ((ctxOf (with6 la 8192 0)).t.sBad 6 = false ∧ (8192 : Nat) % 128 = 0) ∧
    (ctxOf (kat la (fun t => { t with uni := t.uni.put 6 0 true }) id)).t.sBad 6 = true ∧
    (c0 qs id).blk.regime.priv ≠ .h ∧ ((at_ qs id).queue? 0 0) = none ∧
    (((hs rd).smask 0).getLsbD 0 = true ∧ (unitReg 0 0x4C).isSome ∧
      holdsTable (unitReg 0 0x4C) (fun r => admits r .h 0 false) = true) ∧
    (unitReg 0 0x4E).isNone ∧
    holdsTable (unitReg 0 0xC8) (fun r => admits r .h 0 true) = true ∧
    holdsTable (unitReg 0 0xC8) (fun r => !admits r .u 0 true) = true ∧
    (c0 rd id).blk.regime.priv = .u ∧ isAtIssue (at_ rd id) rd (BitVec.allOnes 64) ∧
    isAtIssue (at_ tl id) tl (BitVec.allOnes 64) ∧ isAtIssue (at_ ri id) ri (BitVec.allOnes 64) ∧
    (let s1 := (hs rd).setFlight { Flight.none with reqs := [(3, ⟨0, 4, false, some (.sysRead 0 0 0 0x4C .h), .sent, 0, [], 0⟩)] }
     s1.ts? 3 = none ∧ (s1.req? 3).isSome ∧ s1.writesBefore 3 0 0 0 = false) := by decide +kernel

theorem witness_MessageWordResults :
    let ms : Instr := .msend 0 false false false 0 8 4 6 8
    let sp : Instr := .msendSp 0 false true false 8 4 6 8 10
    let mr : Instr := .mroute 0 4 6
    let s := kat ms id id
    let poisoned := kat ms (fun t => { t with lane := t.lane.put 0 0 1 false true }) id
    let p := kat sp (sregs [(10, 4088)]) id
    isAtIssue s ms (BitVec.allOnes 64) ∧ (ctxOf s).t.payloadBad 0 8 = 0 ∧ (ctxOf poisoned).t.payloadBad 0 8 ≠ 0 ∧
    isAtIssue poisoned ms (BitVec.allOnes 64) ∧ isAtIssue (kat mr id id) mr (BitVec.allOnes 64) ∧
    (isAtIssue p sp (BitVec.allOnes 64) ∧ 4088 % 8 = 0 ∧ 4088 + 8 ≤ (ctxOf p).blk.d ∧
      p.sbHolds (ctxOf p) false false (spBytes 0 6 4088 8) = false) ∧
    (4096 % 8 = 0 ∧ (ctxOf p).blk.d < 4096 + 8) ∧
    (match s.msgRoute (ctxOf s) ((ctxOf s).routeOf 6 1) false with | .bad _ _ => true | _ => false) = true := by
  decide +kernel


/-- A host core that has left reset. -/
def hartAt (f : Hart → Hart) (s : State) : State := s.setHart 0 (f { Hart.reset with started := true })

theorem witness_HartResults :
    let s := hartAt id world
    let buffered := hartAt (fun x => { x with sbuf := [⟨4, [], 0, 256, ⟨0, 0, .h, 0⟩⟩] }) world
    let atX := fun (n : Fin 32) (v : W64) => hartAt (fun x => { x with x := [(n.val, v)] }) world
    ((s.hart 0).started = true ∧ (s.hart 0).outstanding = [] ∧ s.hartDrained 0 = true) ∧
    buffered.hartDrained 0 = false ∧
    ((s.hart 0).mode = .m ∧ (s.hartXlate 0 .store 0 1).1.toOption.isSome ∧ (s.hart 0).entry? 0 = none) ∧
    (((atX 5 8192).hartXlate 0 .load 8192 8).1.toOption.isSome ∧ ((atX 5 8192).hartXlate 0 .amo 8192 8).1.toOption.isSome) ∧
    amoOps.contains .add = true ∧ ((0 : W64).toNat < 2 ^ 32) ∧
    (((atX 5 (BitVec.ofNat 64 (2 ^ 48))).hartXlate 0 .amo (2 ^ 48) 8).1.toOption.isSome ∧
      ((atX 5 (BitVec.ofNat 64 (2 ^ 48))).hartXlate 0 .load (2 ^ 48) 8).1.toOption.isSome) ∧
    (8196 : Nat) % 8 ≠ 0 ∧ widthBytes .b32 ≤ 8 := by decide +kernel

theorem witness_HartEvents :
    let e : SbufEntry := ⟨4, [], 0, 256, ⟨0, 0, .h, 0⟩⟩
    let s := hartAt (fun x => { x with sbuf := [e] }) world
    let wt : WaitState := ⟨[⟨.home 8192, none, 5, false, some (7, false)⟩], false, true, some 0, 0, false⟩
    let busy := s.setOp 3 ⟨.hart 0, .store, .b64, none, 0, 0, ⟨0, 0, .h, 0⟩, 6, 4, 0, none,
      [⟨4, none, 0, [], .sent, [], none, false⟩], false⟩
    let p := (hartAt id world).setPort 0 1 { Port.idle with wait := some wt }
    ((s.hart 0).entry? 4 = some e ∧ s.hartOps 0 4 = false) ∧ busy.hartOps 0 4 = true ∧
    ((p.hart 0).port 1).wait = some wt ∧ (((hartAt id world).hart 0).port 1).wait = none ∧
    (match (p.gather (ofPort 0 1) wt).pass 0 with | .ends .. => true | _ => false) = true ∧
    ((p.gather (ofPort 0 1) wt).first && (p.gather (ofPort 0 1) wt).conds.any (fun c => !c.sat && c.val.isNone)) = false := by
  decide +kernel

theorem witness_CacheWordResults :
    let with6 := fun i (x y : W64) => kat i (sregs [(6, x), (8, y)]) id
    let pn : Instr := .pin 4 6 8
    [Instr.cwb none, .cinv none, .icinv none, .pin 4 6 8, .unpin 4 6 8, .pinq 4 6].all (fun i =>
      let s := with6 i 8192 64
      isAtIssue s i (BitVec.allOnes 64) && decide ((ctxOf s).t.cnt.st = 0) && decide ((ctxOf s).t.gwct ≤ s.tick) &&
        !s.narrowComing (ctxOf s) (s.named (ctxOf s) none)) = true ∧
    (kat .fetchbar id id).ctx?.isSome ∧
    ((with6 pn 8192 64).pinLines (ctxOf (with6 pn 8192 64)) 8192 64).isSome ∧
    ((with6 pn 0 1).pinLines (ctxOf (with6 pn 0 1)) (2 ^ 40) 64).isNone ∧
    ((0 : Nat) = 0 ∧ 2 ^ 30 < 2 ^ 30 + 1 ∧ 2 ^ 57 < 2 ^ 57 + 1 ∧ ¬ 2 ^ 30 < (2 ^ 30 : Nat)) := by decide +kernel

/-- An operation of troupe 0 on line 128. -/
def opAt (k : MemKind) (st : PartState) : MemOp :=
  ⟨.troupe 0, k, .b32, none, 0, 0, ⟨0, 0, .h, 0⟩, 6, 4, 0, none, [⟨128, none, 0, [⟨0, 8192, 7, 0, false⟩], st, [], none, false⟩], true⟩

theorem witness_HomeWriteResults :
    let o := opAt .store (.fixed 0 false false)
    let s := (kat .nop id id).setOp 3 o
    s.op? 3 = some o ∧ (o.part? 128).isSome ∧ s.tick = 0 ∧ o.kind.reads = false ∧
    (∀ e ∈ s.pkg.parts, e.2.snap.state ≠ .copying) ∧
    (lineAccess o.kind 4 (memByte s.homes.mem) false [⟨0, 8192, 7, 0, false⟩]).2.1 ≠ [] := by decide +kernel

theorem witness_LineEvents :
    let s := fun o => (kat .nop id id).setOp 3 o
    let o := opAt .store .sent
    let r := opAt (.load false) .sent
    let there := fun o => holdsTable ((s o).op? 3) (fun x => (x.part? 128).isSome)
    let l2 : L2Line := ⟨0, false, 0⟩
    let pinned : L1Line := ⟨128, .pinned .cluster 0 0 0, false, some 0, 0, 1⟩
    let abroad := { (s o) with pkg := { Package.none with parts := [(1, testPartition)] } }
    (there o = true ∧ (s o).refusesPart 0 128 = false ∧ (s o).homeTested 128 = false ∧ (s o).blocked 3 128 o = false ∧
      (s o).isFrozen 128 = false ∧ (s o).route o 128 = .home ∧ sfind 128 (s o).homes.recalls = none ∧
      sfind 128 (s o).homes.inf = none) ∧
    (there r = true ∧ ((s r).homes.waiting.filter fun w => decide (w.line = 128) && decide (w.p ≤ (s r).tick)) = [] ∧
      (s r).frozenFor r 128 = false ∧ (s r).route r 128 = .home ∧ sfind 128 (s r).homes.l2 = none) ∧
    sfind 128 ((s r).setHomes { (s r).homes with l2 := [(128, l2)] }).homes.l2 = some l2 ∧
    abroad.refusesPart 0 128 = true ∧
    ((s r).homes.earliest 128 = none) ∧
    (let c := (s o).setCore 0 { Core.empty with l1 := [(128, pinned)] }
     (c.core 0).l1Find 128 = some (128, pinned) ∧ pinned.isPinned = true ∧ pinned.firstRefusal = some 0 ∧
       (0 : Nat) + 65536 ≤ 65536) ∧
    o.isWriteBack = false ∧
    there { opAt (.load false) .sampled with dst := some (.v 4) } = true ∧
    there (opAt .store (.fixed 0 false true)) = true ∧
    (sfind 128 { Homes.reset with recalls := [(128, 1)] }.recalls = some 1 ∧ (1 : BitVec 16) ≠ 0) ∧
    sfind 128 { Homes.reset with recalls := [(128, 0)] }.recalls = some 0 ∧
    sfind 0 Homes.reset.channels = none ∧
    sfind 0 { Homes.reset with channels := [(0, ⟨[⟨none, 128, true, false⟩], [], 0⟩)] }.channels =
      some ⟨[⟨none, 128, true, false⟩], [], 0⟩ ∧
    (let x := { opAt .store .sent with target := some 0 }
     (s x).op? 3 = some x ∧ (s x).block? 0 = some kernelBlock ∧ (s x).xbarBlocked 3 x = false ∧
       (s x).underTest 0 5 0 = false ∧ kernelBlock.state ≠ .saved) := by decide +kernel

/-- A clause of one nop at 0x2000, and a path there. -/
def fetched (s : State) : State :=
  { s with
    current := none
    homes := { s.homes with mem := s.homes.mem ++ (lineBytes 8192 16 (0xC000000000000000 + 0x7900000000000000 * 2 ^ 64)) }
    cores := [(0, { Core.empty with
      ic := [(1024, 0xC000000000000000), (1025, 0x7902000000000000)], pipes := [(0, 0)] })]
    troupes := s.troupes.map fun (e : Nat × Troupe) => (e.1, { e.2 with issue := none, frontier := [⟨0, 8192, 0, 1⟩] }) }

theorem witness_IssueEvents :
    let s := fetched (kat .nop id id)
    let t : Troupe := { kernelTroupe .nop with issue := none, frontier := [⟨0, 8192, 0, 1⟩] }
    let none_ := { s with cores := [] }
    let stalled := kat .nop (fun t => { t with stalled := true }) fun s => { s with current := none }
    let gone := kat .nop (fun t => { t with exited := BitVec.allOnes 64, issue := none }) id
    (sfind 0 (none_.core 0).pipes = none) ∧
    (s.current = none ∧ s.troupe? ⟨0, 0⟩ = some t ∧ s.selectable t = true ∧ (s.pipeOf ⟨0, 0⟩).isSome = true ∧
      (s.block? 0).isSome ∧ topPath t.frontier = some ⟨0, 8192, 0, 1⟩ ∧ (0 : Nat) < 2 ^ 14) ∧
    (holdsTable (stalled.troupe? ⟨0, 0⟩) (fun t => t.stalled && t.issue.isSome) = true ∧ stalled.current = none ∧
      kernelBlock.state = .running) ∧
    holdsTable ((kat .nop (fun t => { t with susp := .sleep 0 }) id).troupe? ⟨0, 0⟩) (fun t => t.susp == .sleep 0) = true ∧
    holdsTable (gone.troupe? ⟨0, 0⟩) (fun t => t.live == 0 && t.cnt.none && t.written) = true ∧
    holdsTable ((kat .nop (fun t => { t with exited := BitVec.allOnes 64, cnt := { t.cnt with st := 1 } }) id).troupe? ⟨0, 0⟩)
      (fun t => t.live == 0 && !t.cnt.none) = true := by decide +kernel

theorem witness_BlockEvents :
    let z := fun us => kat .nop id fun s => s.setCore 0 { Core.empty with zeroing := us }
    let inState := fun (st : BlockState) => kat .nop id fun s =>
      { s with blocks := [(0, { kernelBlock with state := st })], troupes := [] }
    let tk : Ticket := ⟨0, 0, 0, [0, 0, 0, 0, 0, 0, 1 + 2 ^ 32 + 2 ^ 48], .running, 1, 1, 0, 0, 0, some 0, 0, true⟩
    let withTicket := fun (s : State) => s.setPkg { s.pkg with tickets := [(0, tk)] }
    let rc := fun (s : State) => s.setCore 0 { Core.empty with reclaims := [⟨5, [], [0]⟩] }
    ((z [.slot 1]).core 0).zeroing = [.slot 1] ∧ ((z [.slot 1, .slot 2]).core 0).zeroing ≠ [] ∧ ((z []).core 0).zeroing = [] ∧
    (let s := withTicket (inState .clearing)
     s.block? 0 = some { kernelBlock with state := .clearing } ∧ s.troupesOf 0 = [] ∧ s.ticket? 0 = some tk ∧ s.savedOf 0 = [] ∧
       s.quiesced 0 = false ∧ s.notReady { kernelBlock with state := .clearing } = false) ∧
    (let s := withTicket (inState .gathered)
     tk.startTick = some 0 ∧ 0 ≤ s.tick ∧ s.allGathered 0 tk = true) ∧
    (inState .running).block? 0 = some { kernelBlock with state := .running } ∧
    ((inState .ending).blockBusy 0 { kernelBlock with state := .ending } = false) ∧
    (let s := rc (inState .halted)
     (s.core 0).reclaims = [⟨5, [], [0]⟩] ∧ (s.haltTroupes 0).quiet 0 = true) ∧
    (let s := inState .halted
     (s.core 0).reclaims = [] ∧ s.quiesced 0 = false ∧ s.anySaved 0 = false ∧ kernelBlock.spill = [] ∧ kernelBlock.ways = []) ∧
    (let s := withTicket (inState .running)
     tk.resident = false ∧ ((s.haltBlock 0).savable 0 = true ∨ (s.haltBlock 0).savable 0 = false)) := by decide +kernel


/-! Events of partitions, the platform, and the fabric. -/

def partWith (f : Partition → Partition) (s : State) : State := s.modPart 0 f
def withReg (reg : Nat) (v : W64) (s : State) : State := s.setReg 0 0 reg v

/-- Clauses: plain registers, CQUOTA, MAILBOX, L2PINQ, SLTOK, PWRCAP, and VFCFG of a VF that is OFF, RUN and RESETTING. -/
theorem witness_RegisterWriteEvents :
    (plainMask 0xC5 = some (2 ^ 52 - 8) ∧ 8 &&& (2 ^ 52 - 8) = 8 ∧ 4 &&& (2 ^ 52 - 8) ≠ 4) ∧
    (world.partOf 0 = some 0 ∧ holdsTable (world.part? 0) (fun p => decide (p.mailbox = none)) ∧
      holdsTable ((partWith (fun p => { p with mailbox := some (5, 0) }) world).part? 0) (fun p => p.mailbox.isSome)) ∧
    (world.quotaOk 0 1 0 = true ∧ world.quotaOk 0 1 1 = false) ∧
    (sumNat ((List.range 32).map fun w => if w = 1 then 0 else world.pinQuota 0 w) ≤ 524288 ∧ (1 : Nat) % 2 ^ 24 ≠ 0) ∧
    sumNat ((List.range 32).map fun w => if w = 1 then 0 else
      if (world.tokNext 0 w).getLsbD 27 = true then 0 else (world.tokNext 0 w).toNat / 2 ^ 46 % 2 ^ 18) ≤ 192000 ∧
    ((world.smask 0).getLsbD 0 = true ∧ (120 : Nat) ≤ ((withReg 0x70 (BitVec.ofNat 64 (200 * 2 ^ 16)) world).reg 0 0 0x70).toNat /
      2 ^ 16 % 2 ^ 16) ∧
    (world.vfState 0 1 = 0 ∧ world.astagFree 0 1 5 = true ∧
      (world.setVfcfg 0 1 (BitVec.ofNat 64 (2 + 5 * 2 ^ 52)) 0 0).vfState 0 1 = 1 ∧
      (world.setVfcfg 0 1 (BitVec.ofNat 64 (2 + 5 * 2 ^ 52)) 0 0).vfAstag 0 1 = 5 ∧
      (world.setVfcfg 0 1 4 0 0).vfState 0 1 = 2) := by decide +kernel

/-- A request of troupe 0 at a stage. -/
def reqAt (st : TsStage) (w : Option HeldWork) (s : State) : State :=
  s.setReq 3 ⟨0, 4, false, w, st, 0, [], 0⟩

def queueEntry : List W64 := [0, 0, BitVec.ofNat 64 (2 ^ 62), 0, BitVec.ofNat 64 (2 ^ 32 + 2 * 2 ^ 5), 0, 0, 0]
def queueAt (st : QState) (f : State → State) : State :=
  (f world).setQueue 0 7 ⟨queueEntry, st, 0, 0, false⟩
def storedWords (a : Nat) (ws : List W64) (s : State) : State :=
  s.setHomes { s.homes with mem := setBytes s.homes.mem a (ws.flatMap fun w => leBytes 8 w.toNat) }
/-- The ringmaster's table at 2^18, with the entry of queue 7. -/
def entryStored (s : State) : State := storedWords (2 ^ 18 + 448) queueEntry (withReg 0xC0 (BitVec.ofNat 64 (2 ^ 18)) s)

theorem witness_RequestEvents :
    let w := kat .nop id id
    let o := tsAt .add .held 0 none none false
    let p := tsAt .add .releasing 0 none none false
    let guest : MemOp := { opAt .store .sent with regime := ⟨0, 1, .s, 0⟩ }
    [(w.setTs 3 o, o), (w.setTs 3 p, p)].all (fun x => x.1.ts? 3 == some x.2 && x.1.covered x.2.owner x.2.after) = true ∧
    (p.after.all w.opDone = true ∧ p.scope ≠ 7 ∧ isPeer p.loc = false) ∧
    (w.ts? 3 = none ∧ holdsTable ((reqAt .held none w).req? 3) (fun r => decide (r.stage = .held) && r.after.all w.opDone) ∧
      holdsTable ((reqAt .sent (some (.sysWrite 0 0 0xC8 1)) w).req? 3)
        (fun r => decide (r.stage = .sent) && decide (r.work = some (.sysWrite 0 0 0xC8 1)))) ∧
    ((reqAt .sent (some (.tlbinv .s1all 0 1)) w).tlbWaits 3 .s1all 0 1 = false ∧
      ((reqAt .sent (some (.tlbinv .s1all 0 1)) w).setOp 2 guest).tlbWaits 3 .s1all 0 1 = true) ∧
    (holdsTable ((reqAt .sent (some .rdcinv) w).req? 3) (fun r => decide (r.work = some .rdcinv)) ∧
      holdsTable ((reqAt .sent (some (.pin 1 [128] [(0, 1)])) w).req? 3) (fun r => decide (r.status = 0))) ∧
    idle.partOf 0 = none ∧
    (testPartition.calNext = none ∧ (world.ppaMem 0 (world.reg 0 0 0xC2).toNat).isSome ∧
      holdsTable ((partWith (fun p => { p with calNext := some [] }) world).part? 0) (fun p => p.calNext.isSome)) ∧
    ((entryStored world).readEntry 0 7 = some queueEntry ∧ (entryStored world).queue? 0 7 = none ∧
      (Queue.mk queueEntry .active 0 0 false).bad = false ∧ (Queue.mk queueEntry .active 0 0 false).priv = .h ∧
      (Queue.mk (queueEntry.set 4 0) .active 0 0 false).bad = true) ∧
    ((queueAt .active id).queue? 0 7).map (·.state) = some .active := by decide +kernel

/-- Tables of zeros and of good routes. -/
theorem witness_RequestEvents_tables :
    (holdsTable (world.tableWords 0 8192 128) (fun ws => (ws.zipIdx).all fun e => world.routeEntryOk 0 0 e.2 e.1) = false) ∧
    (holdsTable ((storedWords 8192 ((List.range 8).map (defaultRoute 0)) world).tableWords 0 8192 128)
        (fun ws => (ws.zipIdx).all fun e => world.routeEntryOk 0 0 e.2 e.1) = true) := by decide +kernel
theorem witness_RequestEvents_exports :
    (holdsTable (world.tableWords 0 8192 128) (fun ws => (List.range 64).all fun i =>
        exportOk (dword ws (2 * i)) (dword ws (2 * i + 1))) = true ∧
      holdsTable ((storedWords 8200 [BitVec.ofNat 64 (2 ^ 63)] world).tableWords 0 8192 128) (fun ws => (List.range 64).all
        fun i => exportOk (dword ws (2 * i)) (dword ws (2 * i + 1))) = false) := by decide +kernel
theorem witness_RequestEvents_peers :
    (world.peerEntryOk 0 0 [0, 0, 0, 0] = true ∧ world.peerEntryOk 0 0 [1, 0, 0, 0] = false) := by decide +kernel
theorem witness_RequestEvents_peers2 :
    (world.tableWords 0 (2 ^ 20) 4096).isSome := by decide +kernel

/-- A listing of the ringmaster that has read a value. -/
def listing (who : WaiterOf) (v : W64) (bad : Bool) (s : State) : State :=
  s.setFlight { s.flight with waiters := [(2, ⟨who, .home 8192, none, 32, 0, 1, some 0, false, false, [(0, v, bad)]⟩)] }

def ticketAt (joined : Bool) (live : Nat) (turnstile : W64) (s : State) : State :=
  s.setPkg { s.pkg with tickets := [(4, ⟨0, 7, 8192, [0, 0, turnstile, 1, 0, 0, 0, 0, 0, 0, 0, 0, 0, 0, 0, 0], .waiting, 0, live, 0, 0, 0,
    none, 0, joined⟩)] }

theorem witness_RingmasterEvents :
    let w := queueAt .active id
    let who : WaiterOf := .producer 0 7
    let x : Queue := ⟨queueEntry, .active, 0, 0, false⟩
    let ready := fun v => listing who v false w
    let t := fun j => ticketAt j 0 (BitVec.ofNat 64 (2 ^ 62)) w
    world.queue? 0 7 = none ∧ w.queue? 0 7 = some x ∧
    (w.isListed who = false ∧ (match w.nameIn (w.firstSlice 0) (x.regime 0) (x.entry.getD 2 0) with
      | .bad _ _ => true | _ => false) = true) ∧
    ((ready 1).isListed who = true ∧ (ready 1).lastReport who = some (1, false) ∧ (listing who 1 true w).lastReport who = some (1, true)) ∧
    (((2 ^ x.lsz : Nat) : Int) < ((2 : W64) - x.ci).toInt ∧ ((0 : W64) - x.ci).toInt ≤ 0 ∧
      0 < ((1 : W64) - x.ci).toInt ∧ ((1 : W64) - x.ci).toInt ≤ ((2 ^ x.lsz : Nat) : Int)) ∧
    ((ready 1).ticketRoom 0 7 = true ∧ x.base + 128 * 2 ^ x.lsz ≤ 2 ^ 57 ∧
      (match ((ready 1).read128 0 (x.regime 0) 0).1 with | .words _ bad => !bad | _ => false) = true) ∧
    (holdsTable ((t false).ticket? 4) (fun t => decide (t.state = .waiting ∧ t.status = 0 ∧ t.joined = false ∧
      dword t.words 2 ≠ 0) && decide (t.live = 0) && t.over) = true ∧
      holdsTable ((t true).ticket? 4) (fun t => t.joined) = true ∧ (t false).isListed (.join 4) = false ∧
      (listing (.join 4) 1 false (t false)).lastReport (.join 4) = some (1, false) ∧ satisfied 1 1 = true ∧ satisfied 0 1 = false) ∧
    holdsTable ((ticketAt false 1 0 w).ticket? 4) (fun t => t.over) = false ∧
    (idle.partOf 0 = none ∧ world.partOf 0 = some 0 ∧ world.quiesced 0 = false) ∧
    (({ world with tick := 1 } : State).tick % 4 ≠ 0 ∧ world.tick % 4096 = 0 ∧ (4, Ev.calendarSlotStart) ∉ world.timers ∧
      (4096, Ev.calendarPeriodStart) ∉ world.timers) := by decide +kernel

def snapping (st : SnapState) (cut : Nat) (s : State) : State := partWith (fun p => { p with snap := ⟨st, cut, [], 0⟩ }) s

def savedAs (k : SavedKind) (ready delivered placed : Bool) (s : State) : State :=
  s.setPkg { s.pkg with saved := [(6, ⟨k, 0, 0, 0, 0, kernelTroupe .nop, 0, none, some (.home 8192, none), 1, 0, none, 0, delivered, ready, placed,
    0, []⟩)] }

theorem witness_SnapshotAndSaveEvents :
    let bands2 := partWith (fun p => { p with smask := 3 }) (withReg 0x52 (BitVec.ofNat 64 (2 ^ 49 + 2 ^ 30 + 2 ^ 12 + 1)) world)
    let w := kat .nop (fun t => { t with susp := .pageFault 0 false, issue := none }) id
    let ring : RingEntry := ⟨1, 0, 0, .kFault, [], none, none⟩
    let ringOn := fun (s : State) => withReg 0x44 (BitVec.ofNat 64 (2 ^ 19 + 1)) (withReg 0x45 (BitVec.ofNat 64 (2 ^ 20))
      (withReg 0x46 (BitVec.ofNat 64 (2 ^ 20 + 8)) (partWith (fun p => { p with calendar := [(0, 0x80)] })
        (s.setPkg { s.pkg with ring := [ring] }))))
    let s := kat .nop id id
    (holdsTable ((snapping .arming 0 world).part? 0) (fun p => decide (p.snap.state ≠ .idle)) = true ∧
      testPartition.snap.state = .idle ∧ world.snapOk 0 0 0 = false ∧ bands2.snapOk 0 0 1 = true) ∧
    ((snapping .arming 0 world).lacksFrames 0 = false ∧ (snapping .arming 0 world).armed 0 = true ∧
      (withReg 0xC4 256 (snapping .arming 0 s)).armed 0 = false) ∧
    (holdsTable ((snapping .arming 4096 { world with tick := 4096 }).part? 0) (fun p => decide (p.snap.cut ≠ 0 ∧ p.snap.cut ≤ 4096)) = true ∧
      holdsTable ((snapping .copying 4096 world).part? 0) (fun p => decide (p.snap.state = .copying)) = true) ∧
    (holdsTable (w.troupe? ⟨0, 0⟩) (fun t => decide (t.susp = .pageFault 0 false) && !t.halted) = true ∧
      (w.saving 0 0).isNone ∧ holdsTable (w.troupe? ⟨0, 0⟩) (fun t => w.mayBegin 0 t) = true) ∧
    (kmem 0 world.pkg.delivered = false ∧ (partWith (fun p => { p with calendar := [(0, 0x80)] }) world).nextEntry 0 = none ∧ ((ringOn world).nextEntry 0).map (·.id) = some 1) ∧
    (holdsTable (sfind 6 (savedAs .doubleTrap true true true s).pkg.saved) (fun x => x.ready && decide (x.kind = .doubleTrap)) = true ∧
      holdsTable (sfind 6 (savedAs (.fault 0 false) false false false s).pkg.saved) (fun x => !x.ready && !x.delivered) = true ∧
      holdsTable (sfind 6 (savedAs (.fault 0 false) true true true s).pkg.saved) (fun x => x.ready && x.placed) = true ∧
      (s.block? 0).isSome) := by decide +kernel

theorem witness_ResetAndMigrationEvents :
    let resetting := world.setVfcfg 0 1 4 0 0
    let migrating := fun (st : MigState) (marked : KeySet) (passes : Nat) =>
      world.setMig 0 0 ⟨st, 8192, 16384, 4096, marked, passes, 0⟩
    let ranges := withReg (migReg 0 1) (BitVec.ofNat 64 (2 ^ 14)) (withReg (migReg 0 0) (BitVec.ofNat 64 (2 ^ 13)) world)
    let outside := withReg (migReg 0 0) (BitVec.ofNat 64 (2 ^ 50)) world
    (world.vfState 0 1 ≠ 2 ∧ resetting.vfState 0 1 = 2 ∧ resetting.vfBusy 0 1 = false) ∧
    ((world.setVfcfg 0 1 (vfValue (world.vfcfg 0 1).toNat 0) 0 0).ppaMem 0 (world.reg 0 0 (regVfrst 1)).toNat).isSome ∧
    ((world.mig 0 0).state = .idle ∧ (migrating .copy [128] 0).mig 0 0 = ⟨.copy, 8192, 16384, 4096, [128], 0, 0⟩) ∧
    ((ranges.granuleTo 0 (2 ^ 13) 4096).isSome ∧ (ranges.granuleTo 0 (2 ^ 14) 4096).isSome ∧ ranges.snapCopies 0 8192 = false ∧
      dpaSlice 8192 = 0 ∧ meet 8192 4096 16384 4096 = false ∧ meet 8192 4096 8192 4096 = true ∧
      ranges.migBusyAt 8192 4096 = false ∧ ranges.migBusyAt 16384 4096 = false) ∧
    outside.granuleTo 0 (outside.reg 0 0 (migReg 0 0)).toNat 4096 = none ∧
    ((migrating .freezing [] 0).migWaits ⟨.freezing, 8192, 16384, 4096, [], 0, 0⟩ = false ∧ (migrating .frozen [] 8).mig 0 0 =
      ⟨.frozen, 8192, 16384, 4096, [], 8, 0⟩) := by decide +kernel

/-- A command in the mailbox of the partition. -/
def mailed (cmd index : Nat) (ops : List Nat) (s : State) : State :=
  partWith (fun p => { p with mailbox := some (cmd, index), mailOps := ops }) s

theorem witness_MailboxEvents :
    let noBand := world.setReg 0 0 0x50 0
    let four := partWith (fun p => { p with smask := 3 }) world
    let busy := (mailed 1 1 [3] world).setOp 3 (opAt .store .sent)
    (world.mayAdd 0 1 = true ∧ world.mayAdd 0 5 = false) ∧
    ([3].all busy.opDone = false ∧ [3].all (mailed 1 1 [3] world).opDone = true) ∧
    (world.mayRemove 0 0 = false ∧ four.mayRemove 0 1 = true) ∧
    (world.bandAt 0 0 ≠ none ∧ world.bandAt 0 1 = none ∧ noBand.bandAt 0 0 = none) ∧
    (newBand (world.smask 0) (world.bands 0) 0 0 = none ∧
      (newBand (noBand.smask 0) (noBand.bands 0) (BitVec.ofNat 64 (2 ^ 48 + 2 ^ 12 + 1)) 0).isSome) ∧
    ((world.ppaMem 0 0).isSome ∧ (1 : Nat) % 1024 ≠ 0) ∧
    holdsTable ((mailed 5 0 [] world).part? 0) (fun p => decide (p.mailbox = some (5, 0))) = true := by decide +kernel

theorem witness_ErrorEvents :
    let t := kat .nop id id
    let tested := fun b => world.setHomes { world.homes with testing := [(unitKey 0 2 0, ⟨0, none, none, false, b⟩)] }
    let seen := fun n => world.setPlat { world.plat with errors := [(unitKey 0 2 0, (1, n))] }
    let l1 := world.setCore 0 { Core.empty with l1 := [(l1Key 0 (l1Set 128), ⟨128, .valid none, false, none, 0, 1⟩)] }
    let l2 := world.setHomes { world.homes with l2 := [(128, ⟨0, true, 0⟩)] }
    ((world.errorUnit (.memLine 128 true)).1 < 16 ∧ (t.troupe? ⟨0, 0⟩).isSome) ∧
    16 ≤ (world.errorUnit (.register (2 ^ 20) 0 0 1)).1 ∧
    holdsTable ((l1.core 0).l1Find 128) (fun e => !e.2.isPinned) = true ∧
    holdsTable (sfind 128 l2.homes.l2) (fun x => x.dirty) = true ∧
    (world.unitRetired 0 2 0 = false ∧ sfind (unitKey 0 2 0) world.homes.testing = none) ∧
    (holdsTable (sfind (unitKey 0 2 0) (tested false).homes.testing) (fun u => !u.again) = true ∧
      holdsTable (sfind (unitKey 0 2 0) (tested true).homes.testing) (fun u => u.again) = true) ∧
    (sfind (unitKey 0 2 0) (seen 0).plat.errors = some (1, 0) ∧ (seen 0).tick ≤ 0 + 1000000 ∧
      sfind (unitKey 0 2 0) world.plat.errors = none) ∧
    (world.plat.lost.getLsbD 1 = false ∧ ({ world.plat with lost := 2 } : Platform).lost.getLsbD 1 = true) := by decide +kernel

def flashOf (v : Nat) : Flash := { Flash.empty with antiRollback := v }

/-- The signature is a free value: where it is good, the module boots; where the version is old, it does not. -/
theorem witness_PlatformEvents :
    let off := { world with plat := { world.plat with power := false, flash := flashOf 1 } }
    let m : Manifest := ⟨1, 0, 0, 0, 0, 0, []⟩
    off.plat.power = false ∧ ((flashOf 1).accepts (flashOf 1).image0 = false ∧ (flashOf 1).accepts (flashOf 1).image1 = false) ∧
    (Config.signatureOk Config.fusedKey (0 : BitVec 512) = true → (flashOf 0).accepts (flashOf 0).image0 = true) ∧
    ((flashOf 0).manifest = none ∧ (flashOf 0).retired = []) ∧
    (world.plat.power = true ∧ world.plat.inReset = false ∧ State.reset.plat.inReset = true) ∧
    (world.plat.flash.manifest = none ∧ m.version ≤ m.version) ∧
    ((hottest ([40, 105].take 16)).1 = 105 ∧ (hottest ([40, 60].take 16)).1 < 105) := by
  refine ⟨by decide +kernel, by simp [Flash.accepts, flashOf, Flash.empty], ?_, by decide +kernel, by decide +kernel,
    by decide +kernel, by decide +kernel⟩
  intro h
  rw [← h]
  simp [Flash.accepts, flashOf, Flash.empty]


/-- A packet in transit, and a message of core 0 to ring 0 of slice 0. -/
def transit (word : W64) (hop : Nat) (place : Place) : Packet :=
  ⟨.req, .req, [word], 0, hop, [0], place, 0, .transit 9, 7, 7, 0, 32, 0, 0, false, false⟩
def messageOf (seq : Nat) : Message :=
  ⟨0, 4, false, 0, 0, 0, true, 0, 0, 0, [], seq, [], [], none, false, none, true⟩
def msgPacket : Packet := ⟨.msg, .msg, [], 0, 0, [], .leaf 7, 0, .msg 3, 0, 7, 0, 32, 0, 0, false, false⟩
def withPacket (p : Packet) (s : State) : State := s.setPacket 5 p
def withHealth (h : Sparse Byte) (s : State) : State := s.setFab { s.fab with health := h }
/-- Two hops: up by any port, then down port 3. -/
def upDown : W64 := BitVec.ofNat 64 (2 * 2 ^ 60 + 3 * 2 ^ 5 + 31)
def outBy2 : W64 := BitVec.ofNat 64 (2 ^ 60 + 2)

/-- Clauses: a packet that is held, that waits for its slot, that goes up, that finds no port, whose link is tested, DOWN
or up; one that leaves; routes; messages late, early and in turn; sequences; links; other packets. -/
theorem witness_FabricEvents :
    let p := transit upDown 0 (.edge 0)
    let s := withPacket p world
    let down := withHealth ((List.range 8).filterMap fun j => (upPort (.edge 0) j).map fun d => (d.2, 2)) s
    let tested := s.setFab { s.fab with links := [(256, ⟨3, [], true⟩)] }
    let link := ((portTo (.edge 0) 16).map (·.2)).getD 0
    let one := withHealth [(link, 2)] (withPacket (transit (BitVec.ofNat 64 (2 ^ 60 + 16)) 0 (.edge 0)) world)
    let e := withHealth [(770, 0)] (withPacket (transit outBy2 0 (.leaf 7)) world)
    let w := partWith (fun p => { p with calendar := [(0, 0x41)] }) world
    let come := fun (m : Message) => withPacket msgPacket (world.setMsg 3 m)
    let seqs := fun (q : Sequence) (s : State) => s.setFab { s.fab with seqs := [q] }
    let q0 : Sequence := ⟨0, 0, 0, 0, 1, 1, 0, []⟩
    (world.packet? 5 = none ∧ (withPacket { p with held := true } world).packet? 5 = some { p with held := true }) ∧
    (w.gtdMay { msgPacket with cls := .gtd } = false) ∧
    (s.packet? 5 = some p ∧ p.words.isEmpty = false ∧ p.place.isLeaf = false ∧ 0 < hopCount upDown ∧ selector upDown 0 = 31 ∧
      (s.fab.chooseUp (.edge 0)).isSome ∧ down.fab.chooseUp (.edge 0) = none) ∧
    ((portTo (.edge 0) 16).isSome ∧ tested.fab.testing link = true ∧ s.fab.testing link = false ∧
      linkOk (s.fab.linkHealth link) = true ∧ linkOk (one.fab.linkHealth link) = false) ∧
    (e.packet? 5 = some (transit outBy2 0 (.leaf 7)) ∧ selector outBy2 0 < 4 ∧ e.fab.testing (externalLink 0 2) = false ∧
      linkOk (e.fab.linkHealth (externalLink 0 2)) = true) ∧
    ((match routePath (fun x => linkOk (world.fab.linkHealth x)) (outBy2 + 3) 0 1 false 7 with | .bad _ _ => true | _ => false) = true ∧
      (match routePath (fun x => linkOk (world.fab.linkHealth x)) (defaultRoute 0 0) 0 1 false 7 with
        | .bad _ _ => true | _ => false) = false) ∧
    ((come (messageOf 0)).packet? 5 = some msgPacket ∧ (come (messageOf 0)).msg? 3 = some (messageOf 0) ∧
      ((come (messageOf 0)).seqOf 0 0 0 0).2.1.expected = 0 ∧ ((come (messageOf 0)).seqOf 0 0 0 0).2.1.waiting = []) ∧
    ((0 : Nat) < 1 ∧ 2 ^ 15 ≤ (65535 + 2 ^ 16 - 0) % 2 ^ 16) ∧
    holdsTable ((come { messageOf 0 with status := some 1 }).msg? 3) (fun m => m.status.isSome) = true ∧
    ((seqs q0 world).nextUnsent q0 = none ∧ ((seqs q0 world).setMsg 3 { messageOf 0 with sent := false }).nextUnsent q0 = some 3) ∧
    (({ world with tick := 4096 } : State).tick ≥ 0 + 4096 ∧ world.arrived { q0 with waiting := [(1, 0, 5)] } 0 = false) ∧
    ((sget LinkErr.none 770 e.fab.links).testing = false ∧ (sget LinkErr.none 256 tested.fab.links).testing = true) ∧
    e.fab.linkHealth (externalLink 0 2) ≠ 3 ∧
    ((world.ppaMem 0 (world.reg 0 0 0xCB).toNat).isSome ∧ world.addPending (.home 8192) = false ∧
      (world.addAfter 0 0 32 (.home 8192) none 1 0 []).addPending (.home 8192) = true) ∧
    holdsTable ((withPacket { p with returning := true } world).packet? 5) (fun p => p.returning && decide (p.hop = 0)) = true := by
  decide +kernel

/-- A request of module 9, and the receive side of its flow. -/
def request9 (epoch seq : Nat) : PeerMsg := ⟨0, 9, 0, 4, seq, epoch, .read .b32 []⟩
def receiving (expected : Nat) (window : KeySet) (s : State) : State :=
  s.setFab { s.fab with rxFlows := [⟨0, 9, 4, 1, expected, window⟩] }
/-- A flow to module 9 with one packet that is not acknowledged. -/
def sending (sends due : Nat) (s : State) : State :=
  s.setFab { s.fab with flows := [(4, ⟨0, 9, 32, 1, 1, [(0, ⟨transit outBy2 0 (.leaf 7), sends, due⟩)], true⟩)] }

theorem witness_PeerEvents :
    let s := receiving 5 [] world
    let isDrop := fun r => match r with | Receipt.drop => true | _ => false
    let on := withReg 0xD0 1 world
    (olderEpoch 0 1 = true ∧ isDrop ((s.rxOf (request9 0 5)).receive 0 5) = true) ∧
    (match (s.rxOf (request9 1 5)).receive 1 5 with | .perform _ => true | _ => false) = true ∧
    (match (s.rxOf (request9 1 4)).receive 1 4 with | .duplicate => true | _ => false) = true ∧
    idle.partOf 0 = none ∧
    (((sending 1 9 world).flow? 4).isSome ∧ world.flow? 4 = none ∧ ((sending 1 9 world).copy? 4 0).isSome ∧
      (sending 1 9 world).copy? 4 7 = none) ∧
    (holdsTable ((sending 1 9 world).copy? 4 0) (fun c => decide ((sending 1 9 world).tick < c.due)) = true ∧
      holdsTable ((sending 8 0 world).copy? 4 0) (fun c => decide (c.due ≤ world.tick ∧ 8 ≤ c.sends) &&
        !world.losesWrite c.pkt.load) = true ∧
      holdsTable ((sending 1 0 world).copy? 4 0) (fun c => decide (c.due ≤ world.tick ∧ c.sends < 8)) = true ∧
      (sending 1 0 world).fab.packets = []) ∧
    ((world.reg 0 0 0xD0).toNat % 2 = 0 ∧ (on.reg 0 0 0xD0).toNat % 2 = 1 ∧ on.partOf 0 = some 0 ∧
      (withReg 0xD0 1 idle).partOf 0 = none) := by decide +kernel

/-! More of the hypotheses: the clauses that stop, wait or raise a cause, each with a state that meets it. -/

/-- O15 at each packed type. -/
theorem witness_PackingResults_types :
    (([.ui16x2, .i16x2, .ui8x4, .i8x4] : List IntTy).flatMap fun t => [Instr.ipack t two, .iunpack t false one]).all
      (fun i => issues i && i.wf) = true ∧
    ([.i8, .ui16, .i64] : List ConvTy).all (fun t => issues (.cvti t .i32 one)) = true := by decide +kernel

/-- The line of the kernel's tables is pinned: a walk of them is refused. -/
def pinnedTable (s : State) : State := s.setHomes { s.homes with pins := (List.range 65).map fun l => (l, ⟨0, .cluster, ⟨0, 0, .h, 0⟩, none⟩) }

/-- O27, O28: a stu without its lane; no table refused, and one refused. -/
theorem witness_MemoryAccepted_stu :
    let i : Instr := .stu (some ⟨false, 1⟩) (v 3) ma
    let r : MemReq := ⟨i, ma, .store, 4, some ⟨false, 1⟩, some ((v 3).opnd 1), none, true, [0, 1]⟩
    let s := kat i (live 1) id
    let on := kat i (fun t => live 1 { t with lane := t.lane.setPred 0 1 true false }) id
    s.ctx?.isSome ∧ (memRequest i).map (·.kind) = some r.kind ∧ r.uniform = true ∧ r.lanesOf (ctxOf s) = [] ∧
    r.poisonedGuard (ctxOf s) = 0 ∧ r.skips (ctxOf on) = false ∧
    (let x := on.xlatePages 0 kernelBlock.regime needW [2]
     xAgain x.1 = [] ∧ ∀ e ∈ x.1, e.2.toOption.isSome) ∧
    xAgain ((pinnedTable on).xlatePages 0 kernelBlock.regime needW [2]).1 ≠ [] := by decide +kernel

/-- O31: brec.sp with a poisoned address, out of bounds, misaligned, held and with a poisoned word; brmk waiting and with a
poisoned word; brset poisoned; brec misaligned, without a page and with one. -/
theorem witness_RecordResults_stops :
    let sp : Instr := .brec true 1 4
    let g : Instr := .brec false 1 4
    let mk : Instr := .brmk 1 60
    let at4 := fun (i : Instr) (x : W64) => kat i (sregs [(4, x)])
    let bad := fun (i : Instr) (n : SReg) => kat i (fun t => { t with uni := t.uni.put n 0 true }) id
    let ok := at4 sp 4064 id
    [bad sp 4, at4 sp 4096 id, at4 sp 8 id, ok].all (fun s => isAtIssue s sp (ctxOf s).mask) = true ∧
    (ctxOf (bad sp 4)).t.sBad 4 = true ∧ (ctxOf (at4 sp 4096 id)).blk.d < 4096 + 32 ∧ 8 + 32 ≤ (ctxOf (at4 sp 8 id)).blk.d ∧
    ok.scratchHeld (ctxOf ok) false (spBytes 0 6 4064 32) = false ∧
    (let s := at4 sp 4064 fun s => s.setCore 0 { Core.empty with uaPoison := [508] }
     (s.core 0).badAt (spBytes 0 6 4064 32) = true ∧ s.scratchHeld (ctxOf s) false (spBytes 0 6 4064 32) = false) ∧
    (let s := at4 sp 4064 fun s => s.setCore 0 { Core.empty with sb := [⟨0, false, 4064, 4095, true, 7⟩] }
     s.scratchHeld (ctxOf s) false (spBytes 0 6 4064 32) = true) ∧
    ((kat mk (fun t => t.pendS 61) id).ctx?.isSome ∧ (ctxOf (kat mk (fun t => t.pendS 61) id)).t.uni.sPending.getLsbD (60 + 1) = true) ∧
    ((ctxOf (bad mk 62)).t.uni.sPoison.getLsbD (60 + 2) = true ∧ ∀ i < 4, (ctxOf (bad mk 62)).t.uni.sPending.getLsbD (60 + i) = false) ∧
    (isAtIssue (bad (.brset .adv 1 4) 4) (.brset .adv 1 4) (BitVec.allOnes 64) ∧ (ctxOf (bad (.brset .adv 1 4) 4)).t.sBad 4 = true) ∧
    ((at4 g 8 id).recordRead? (ctxOf (at4 g 8 id)) = none ∧ (8 : Nat) % 32 ≠ 0) ∧
    (match ((at4 g 8192 id).xlate 0 kernelBlock.regime 8192 needR).1 with | .ok (.mem _ _) => true | _ => false) = true ∧
    (match ((at4 g (BitVec.ofNat 64 (2 ^ 40)) id).xlate 0 kernelBlock.regime (2 ^ 40) needR).1 with
      | .error f => decide (f.cause ≠ causeAgain) | _ => false) = true := by decide +kernel

/-- O32: prefetch in SCRATCH, in GLOBAL without and with a refused table, and with no lane that is good; a cluster access
that is full, bad, and with every lane dropped. -/
theorem witness_PrefetchAndClusterResults_stops :
    let p : Instr := .prefetch ma
    let x : Instr := .stx (v 3) ma
    let scratch := kat p (fun t => live 1 (withRecord 64 1 4 0 t)) id
    let good := kat p (fun t => live 1 (withRecord 8192 0 4 0 t)) id
    let near := fun (f : Troupe → Troupe) => kat x (fun t => f (live 1 (withRecord 64 2 4 rwFlag t))) id
    let full := near fun t => t.count fun c => { c with st := 63 }
    let bad := kat x (fun t => live 1 (withRecord 64 0 4 rwFlag t)) id
    let out := kat x (fun t => live 1 (withRecord 64 2 0 (rwFlag + zeroFlag) t)) id
    (((ctxOf scratch).record 1).bad [0, 1] false = false ∧ ((ctxOf scratch).record 1).space ≠ 0) ∧
    xAgain (good.xlatePages 0 kernelBlock.regime needR [2]).1 = [] ∧
    xAgain ((pinnedTable good).xlatePages 0 kernelBlock.regime needR [2]).1 ≠ [] ∧
    (isAtIssue full x (ctxOf full).mask ∧ (ctxOf full).t.memFull .store = true) ∧
    (isAtIssue bad x (ctxOf bad).mask ∧ (ctxOf bad).t.memFull .store = false ∧ ((ctxOf bad).record 1).bad [2] true = true) ∧
    (isAtIssue out x (ctxOf out).mask ∧ (out.targetBlock (ctxOf out) ((ctxOf out).record 1).csel).isSome ∧
      ((ctxOf out).record 1).addressOf 0 0 4 4096 = .out ∧ ((ctxOf out).record 1).oobZero = true) := by decide +kernel

/-- O34: slots named by a register; an empty register on a split path; MX's answer. -/
theorem witness_SlotInstructionResults_more :
    let cl : Instr := .sclaim 4 (.inr 6)
    let fi : Instr := .sfill 1 15 none (v 0)
    let s := kat cl (sregs [(6, 6)]) id
    let away := fun (t : Troupe) => { t with lane := t.lane.empties 0 1, frontier := [⟨0, 8, 0, 2⟩] }
    let mxe := (kat .nop id id).setReq 3 ⟨0, 0, false, some .mxEnd, .sent, 0, [], 0⟩
    isAtIssue s cl (BitVec.allOnes 64) ∧ (ctxOf s).t.uni.sPending.getLsbD 6 = false ∧ uval 16 ((ctxOf s).t.s 6).toNat = 6 ∧
    (let x := kat (.sfill 1 15 none ⟨.v 0, true⟩) away holding
     (ctxOf x).t.frontier ≠ [] ∧ x.ready (ctxOf x) (Instr.sfill 1 15 none ⟨.v 0, true⟩).srcs [] (BitVec.allOnes 64) = .empty 0 1) ∧
    (mxe.ts? 3 = none ∧ holdsTable (mxe.req? 3) (fun q => decide (q.stage = .sent) && decide (q.work = some .mxEnd)) = true) ∧
    isAtIssue (kat fi id holding) fi (BitVec.allOnes 64) := by decide +kernel

/-- O36: a split path and a full counter; the questions on their way; a chain in each state; a load that finds a book of the
block and one that finds a free store. -/
theorem witness_CopyResults_more :
    let cp : Instr := .copy 4 6
    let cb : Instr := .cbload 0 4 6
    let split := fun (i : Instr) => kat i (fun t => { sregs [(6, 8192)] t with frontier := [⟨0, 8, 0, 2⟩] }) id
    let full := fun (i : Instr) => kat i (fun t => (sregs [(6, 8192)] t).count fun c => { c with cp := 63 }) id
    let asked := fun (w : HeldWork) => (kat .nop id (withChain (chainAt .queued .fetch))).setReq 3 ⟨0, 4, false, some w, .sent, 0, [], 0⟩
    [split cp, full cp].all (fun s => isAtIssue s cp (BitVec.allOnes 64)) = true ∧ (ctxOf (split cp)).t.frontier ≠ [] ∧
    63 ≤ (ctxOf (full cp)).t.cnt.cp ∧ isAtIssue (split cb) cb (BitVec.allOnes 64) ∧ isAtIssue (full cb) cb (BitVec.allOnes 64) ∧
    (full cb).bookStore 0 0 0 = some 0 ∧
    ((kat cb id fun s => s.setBook 0 2 ⟨0, 0, [], [], false, true⟩).bookStore 0 0 0 = some 2) ∧
    [HeldWork.cpstat 0, .cpstat 9, .answer 5].all (fun w => (asked w).ts? 3 == none &&
      holdsTable ((asked w).req? 3) fun q => decide (q.stage = .sent) && decide (q.work = some w)) = true ∧
    ((asked (.cpstat 0)).findChain 0 0).isSome ∧ (asked (.cpstat 9)).findChain 0 9 = none ∧
    [ChainState.queued, .active, .ended].all (fun st =>
      ((kat .nop id (withChain (chainAt st .fetch))).findChain 0 0).map (fun e => e.2.state) == some st) = true ∧
    (idle.ctx?.isNone ∧ (kat cp id id).ctx?.isSome) := by decide +kernel

/-- 16 words of a record. -/
def recWords (x : Nat) : List W64 := (List.range 16).map fun i => BitVec.ofNat 64 (x / 2 ^ (64 * i))
/-- A record of the engine: 4-byte elements from 8192, n of them, to 12288, with the fields of x beside. -/
def moveRec (n x : Nat) : List W64 :=
  recWords (2 ^ 63 + 2 * 2 ^ 42 + 8192 * 2 ^ 256 + 2 * 2 ^ 313 + n * 2 ^ 320 + (2 ^ 352 + 2 ^ 384 + 2 ^ 416) + 12288 * 2 ^ 640 + 2 ^ 958 + x)
/-- A chain with such a record in hand. -/
def recChain (ph : ChainPhase) (n x : Nat) : Chain := { chainAt .active ph with words := moveRec n x }

theorem witness_ChainEvents_more :
    let w := fun (x : Chain) => kat .nop id (withChain x)
    let halted := fun (s : State) => { s with blocks := s.blocks.map fun (e : Nat × Block) => (e.1, { e.2 with state := .halted }) }
    let x := recChain .named 32 0
    let y := recChain .named 32 (2 ^ 41 + 8192 * 2 ^ 128)
    let z := recChain .named 32 (2 ^ 41 + 8196 * 2 ^ 128)
    let far := recChain .named 32 (2 ^ 41 + 2 ^ 40 * 2 ^ 128)
    let b := recChain .begin 32 0
    (halted (w (chainAt .active .fetch))).parks (chainAt .active .fetch) = true ∧
    (chainAt .active .fetch).addr % 128 = 0 ∧ ({ chainAt .active .fetch with addr := 8200 } : Chain).addr % 128 ≠ 0 ∧
    4 ≤ ((List.range 4).foldl (fun (s : State) i => s.setChain (10 + i) (chainAt .active .fetch)) (kat .nop id id)).flight.chains.length ∧
    ((w x).block? 0).isSome ∧ (match (w x).name 0 kernelBlock (XRec.of x.words).done with | .again _ => false | _ => true) = true ∧
    ((XRec.of x.words).skip = false ∧ (XRec.of x.words).ordered = false ∧ (XRec.of x.words).engine = true) ∧
    ((XRec.of y.words).skip = true ∧ (XRec.of y.words).paddr % 8 = 0 ∧ ((w y).engineRead 7 y (XRec.of y.words).paddr 1).toOption.isSome) ∧
    ((XRec.of z.words).skip = true ∧ (XRec.of z.words).paddr % 8 ≠ 0) ∧
    (match (w far).engineRead 7 far (XRec.of far.words).paddr 1 with | .error f => decide (f.cause ≠ causeAgain) | _ => false) = true ∧
    (let r := XRec.of b.words
     let sp := (w b).xlatePages 0 b.regime needR r.srcPages
     let dp := sp.2.xlatePages 0 b.regime needW r.dstPages
     r.check kernelBlock ((w b).name 0 kernelBlock r.done).cause? = 0 ∧ (sp.1 ++ dp.1).all (fun e => e.2.toOption.isSome) = true ∧
       xAgain (sp.1 ++ dp.1) = [] ∧ (dp.2.core 0).sb.length + (r.entries kernelBlock 0 7).length ≤ 32 ∧ r.ssp = false ∧ r.empty = false) ∧
    (let r := XRec.of (moveRec 32 (2 ^ 316))
     r.ssp = true ∧ r.check kernelBlock none ≠ 0) ∧
    (XRec.of (moveRec 0 0)).empty = true ∧
    (XRec.of (moveRec 32 (2 ^ 0))).check kernelBlock none ≠ 0 ∧
    ((kat .nop id (withChain (chainAt .active .status))).written 7 (chainAt .active .status) = true) ∧
    (let o := opAt .store .sent
     ((w { chainAt .active .write with ops := [9] }).setOp 9 o).written 7 { chainAt .active .write with ops := [9] } = false) ∧
    (XRec.of (moveRec 32 0)).next = 0 ∧ (XRec.of (moveRec 32 (256 * 2 ^ 64))).next = 256 ∧
    (chainAt .ended .over).adds = [] ∧ (chainAt .ended .over).counted = true := by decide +kernel

/-- What has come back for a record that moves: 4-byte elements, as bytes. -/
def movedRead (n : Nat) (s : State) : State :=
  s.setOp 9 ⟨.chain 7, .record, .b8, none, 0, 0, ⟨0, 0, .h, 0⟩, 0, 4, 0, none, [⟨128, none, 0, [], .done,
    (List.range (4 * n)).map fun i => ⟨i, 8192 + i, 1, 0, false⟩, none, false⟩], false⟩

theorem witness_RecordMoves :
    let w := fun (x : Chain) => movedRead 32 (kat .nop id (withChain x))
    let x := recChain (.move (some 9)) 32 0
    let nx := recChain (.moving (some 9) 16) 32 0
    let lut := recChain (.move (some 9)) 32 (2 ^ 44)
    let opm := recChain (.move (some 9)) 32 0
    let s := w x
    (s.chain? 7 = some x ∧ s.block? 0 = some kernelBlock ∧ s.earlierAccess x (XRec.of x.words) = false ∧
      s.bookLoading x (XRec.of x.words) = false ∧ s.opDone 9 = true) ∧
    (let busy := s.setOp 9 (opAt (.load false) .sent)
     busy.chain? 7 = some x ∧ busy.opDone 9 = false) ∧
    ((w nx).chain? 7 = some nx ∧ (XRec.of nx.words).ordered = false ∧ ({ nx with aborting := true } : Chain).aborting = true) ∧
    ((XRec.of lut.words).xform = 1 ∧ (w lut).bookOf lut (XRec.of lut.words) = none) ∧
    (XRec.of (recChain (.move none) 0 0).words).empty = true ∧
    (let r := XRec.of x.words
     let es := globalElems r (((s.op? 9).map fun (m : MemOp) => m.parts.flatMap (·.out)).getD [])
     let ps := ((es.take (r.chunkEnd 0)).drop 0).map fun e => let y := r.convert none e.2.1 e.2.2; Piece.mk e.1 y.1 y.2
     let pg := s.xlatePages 0 x.regime needW (r.piecePages ps)
     r.xform ≠ 1 ∧ r.empty = false ∧ xAgain pg.1 = [] ∧ ps ≠ [] ∧ es.length ≤ r.chunkEnd 0) ∧
    (let r := XRec.of (moveRec 128 0)
     r.chunkEnd 0 = 64 ∧ r.chunkEnd 64 = 128) ∧
    (XRec.of (recWords (2 ^ 42))).dkind = 1 ∧
    ((kat .nop id (withChain (recChain .write 32 0))).written 7 (recChain .write 32 0) = true ∧
      (match ((kat .nop id id).xlate 0 x.regime x.addr needW).1 with | .ok (.mem _ _) => true | _ => false) = true ∧
      (match ((kat .nop id id).xlate 0 x.regime (2 ^ 40) needW).1 with
        | .error f => decide (f.cause ≠ causeAgain) | _ => false) = true) ∧ opm.aborting = false := by decide +kernel

theorem witness_ContributionAndBookEvents :
    let contrib : Contrib := ⟨7, ⟨128, none, 0, [⟨0, 8192, 7, 0, false⟩], .sent, [], none, false⟩, 0, .b32, 0, 2, 0⟩
    let put := fun (k : Contrib) (s : State) => s.setFlight { s.flight with contribs := [(5, k)] }
    let s := put contrib (kat .nop id (withChain (chainAt .active .write)))
    let later := put { contrib with key := 1 } (kat .nop id id)
    let heldAt := (put contrib { kat .nop id id with tick := 65536 }).setOrdering 128 ⟨0, 0, [5]⟩
    let load : BookLoad := ⟨0, 0, 0, 0, 8192, 4, false, none⟩
    let loading := fun (l : BookLoad) => (kat .nop id id).setFlight { Flight.none with books := [(5, l)] }
    let user := (loading load).setChain 7 (recChain (.move none) 32 (2 ^ 44))
    let far := { load with addr := 2 ^ 40 }
    (s.contrib? 5 = some contrib ∧ (s.ordering 128).held = [] ∧ s.refusesContrib contrib = false ∧ s.homeTested 128 = false ∧
      s.isFrozen 128 = false ∧ sfind 128 s.homes.pins = none ∧ (s.chain? 7).isSome ∧ contrib.part.accs ≠ [] ∧
      contrib.key = (s.ordering 128).next) ∧
    ((later.ordering 128).next < 1 ∧ (later.setOrdering 128 ⟨0, 0, [6]⟩ |>.ordering 128).held ≠ []) ∧
    ({ put contrib (kat .nop id (withChain (chainAt .active .write))) with pkg := { Package.none with parts := [(1, testPartition)] } }).refusesContrib contrib = true ∧
    ((heldAt.ordering 128).held.any (fun h => match heldAt.contrib? h with
      | some x => decide (x.since + 65536 ≤ heldAt.tick) | none => false) = true ∧ heldAt.isFrozen 128 = false ∧
      heldAt.homeTested 128 = false ∧ sfind 128 heldAt.homes.pins = none) ∧
    ((put contrib ((kat .nop id id).setOrdering 128 ⟨0, 0, [5]⟩)).ordering 128).held.any (fun _ => true) = true ∧
    (sfind 5 user.flight.books = some load ∧ user.bookInUse 5 load 0 = true) ∧
    (let l := loading load
     l.bookInUse 5 load 0 = false ∧ (l.block? 0).isSome ∧
       ((l.xlatePages 0 kernelBlock.regime needR [2, 3]).1).all (fun e => e.2.toOption.isSome) = true) ∧
    (let l := loading far
     xAgain (l.xlatePages 0 kernelBlock.regime needR [2 ^ 28]).1 = [] ∧
       ((l.xlatePages 0 kernelBlock.regime needR [2 ^ 28]).1).any (fun e => e.2.toOption.isNone) = true) ∧
    (let l := (loading { load with op := some 9 }).setOp 9 (opAt (.load false) .sent)
     l.takeRead 9 = none) := by decide +kernel

/-- A state in which line 128 has moved or is moving. -/
def frozenAt (s : State) : State := s.setMig 0 0 ⟨.frozen, 8192, 16384, 4096, [], 8, 0⟩
/-- The same state with its one partition, of which slice 0 is no longer a part. -/
def leftBy (s : State) : State := s.setPkg { s.pkg with parts := [(0, { testPartition with smask := 2 })] }

/-- O38: a full counter, poison in either operand, a turnstile of another module. -/
theorem witness_TurnstileResults_stops :
    let add : Instr := .tadd ownTs (.reg 8)
    let reset : Instr := .treset 4 ownTs 8
    let with6 := fun i (x y : W64) => kat i (sregs [(6, x), (8, y)]) id
    let full := kat add (fun t => (sregs [(6, ownDesignator), (8, 1)] t).count fun c => { c with atc := 63 }) id
    let bad := fun (n : SReg) => kat add (fun t => { t with uni := (sregs [(6, ownDesignator)] t).uni.put n 0 true }) id
    (isAtIssue full add (BitVec.allOnes 64) ∧ 63 ≤ (ctxOf full).t.cnt.atc) ∧
    (isAtIssue (bad 6) add (BitVec.allOnes 64) ∧ (ctxOf (bad 6)).t.sBad 6 = true) ∧
    (isAtIssue (bad 8) add (BitVec.allOnes 64) ∧ ((ctxOf (bad 8)).amount (.reg 8)).2 = true) ∧
    2 ^ 32 ≤ ((ctxOf (with6 add ownDesignator (BitVec.ofNat 64 (2 ^ 32)))).amount (.reg 8)).1.toNat ∧
    isAtIssue (with6 reset ownDesignator 1) reset (BitVec.allOnes 64) ∧
    (let o := tsAt .add .held 0 none none false
     o.after = [] ∧ o.scope = 6 ∧ ({ o with scope := 2 } : TsOp).scope < 4 ∧ isPeer o.loc = false ∧ ({ o with after := [3] } : TsOp).after ≠ []) := by
  decide +kernel

/-- O39: a unit with 256 deferred operations; a line that moves; an operation of a slice that has left. -/
theorem witness_TurnstileEvents_stops :
    let put := fun (o : TsOp) => (kat .nop id id).setTs 3 o
    let there := fun (s : State) => s.setHomes { s.homes with tsLines := [(128, 0)] }
    let o := tsAt .add .sent 9 none none false
    let many := fun (s : State) => s.setFlight { s.flight with
      ts := (3, o) :: (List.range 256).map fun i => (10 + i, tsAt .add .deferred 9 none none false) }
    let s := many (there (put o))
    (s.ts? 3 = some o ∧ s.countersAway o.loc = false ∧ s.frozenTs o.loc = false ∧ s.refusesTsOp o = false ∧
      s.tsTested o.loc = false ∧ s.tsMisses o.loc = none ∧ s.tick < o.nb ∧ 256 ≤ s.deferredAt (s.tsUnit o.loc)) ∧
    (let f := frozenAt (put o)
     f.ts? 3 = some o ∧ f.refusesTsOp o = false ∧ f.frozenTs o.loc = true) ∧
    (let l := leftBy (put o)
     l.ts? 3 = some o ∧ l.refusesTsOp o = true) ∧
    (let d := tsAt .add .deferred 0 none none false
     (put d).countersAway d.loc = false ∧ (put d).frozenTs d.loc = false ∧ (put d).refusesTsOp d = false ∧
       d.nb ≤ (put d).tick) ∧
    (let a := tsAt .fetch .applied 0 (some 4) (some (1, false)) true
     (put a).ts? 3 = some a ∧ a.acked = true) ∧ coreUnitOf (.home 8192) = false := by decide +kernel

/-- O40: a wait whose first name is refused. -/
theorem witness_WaitResults_more :
    let w : Instr := .wait 4 6 0 false (.ticks 5)
    let s := pinnedTable (kat w (sregs [(6, 8192), (7, 1)]) id)
    isAtIssue s w (BitVec.allOnes 64) ∧
    ((s.nameConds (ctxOf s) 6 1).findSome? fun e => match e with | .error x => some x.1 | .ok _ => none) = some causeAgain ∧
    (let y : Cond := ⟨.home 8192, none, 5, false, some (4, false)⟩
     y.sat = false ∧ satisfied 4 5 = false ∧ outOfRange 4 5 = false) := by decide +kernel

/-- O41: waits read again and not, room in the list, a slice that has left, another module, and fences. -/
theorem witness_WaitEvents_more :
    let w : Waiter := ⟨.troupe 0 0, .home 8192, none, 32, 0, 5, none, false, false, []⟩
    let put := fun (w : Waiter) => (kat .nop id id).setFlight { Flight.none with waiters := [(2, w)] }
    let fen := fun (n : Option Nat) (f : Troupe → Troupe) =>
      kat .nop (fun t => f { t with susp := .fence 3 n, issue := none }) id
    let held := ⟨[⟨.home 8192, none, 5, false, none⟩], false, true, some 9, 4, false⟩
    let busyBack := (fen (some 9) id).setOp 3 { opAt .store .sent with kind := .store }
    ((put w).waiter? 2 = some w ∧ w.polled = false ∧ (put w).listRoom w.loc = true ∧ outOfRange 0 5 = false ∧ satisfied 0 5 = false) ∧
    ((put { w with polled := true }).waiter? 2).map (·.polled) = some true ∧
    ((leftBy (put w)).waiter? 2 = some w ∧ (leftBy (put w)).refusesTs w.part w.loc = true) ∧
    (let p : Waiter := { w with loc := .peer 8192 }
     (put p).waiter? 2 = some p ∧ p.listed = none) ∧
    (holdsTable ((kat .nop (fun t => { t with susp := .wait held, issue := none }) id).troupe? ⟨0, 0⟩)
      (fun t => t.susp == .wait held) = true ∧ (0 : Nat) < 9) ∧
    (holdsTable ((fen none fun t => { t with cnt := { t.cnt with st := 1 } }).troupe? ⟨0, 0⟩) (fun t => decide (t.cnt.st ≠ 0)) = true) ∧
    (holdsTable ((fen none id).troupe? ⟨0, 0⟩) (fun t => decide (t.cnt.ld = 0 ∧ t.cnt.st = 0)) = true ∧ (3 : Nat) < 4) ∧
    (holdsTable ((fen (some 9) fun t => { t with gwct := 5 }).troupe? ⟨0, 0⟩) (fun t => decide (t.gwct = 5)) = true ∧
      (fen (some 9) id).tick < 5) ∧
    (busyBack.opDone 3 = false ∧ (fen (some 9) id).clusterBacks 0 = []) := by decide +kernel

/-- O42: a poisoned launch, a queue that shows and one that hides, reads of a slice that left, poisoned and foreign operands,
calls, and the two fences of translations. -/
theorem witness_SystemWordResults_more :
    let with6 := fun i (x y : W64) => kat i (sregs [(6, x), (8, y)]) id
    let bad := fun i => kat i (fun t => { t with uni := t.uni.put 6 0 true }) id
    let rd : Instr := .sysrd 0x4C 4 6
    let wr : Instr := .syswr 0xC8 4 6 8
    let tr : Instr := .tlbinv .s1range 0 4 6 8 10
    let asked := fun (w : HeldWork) => (kat .nop id id).setReq 3 ⟨0, 4, false, some w, .sent, 0, [], 0⟩
    let q := asked (.qstat 7 .state)
    [rd, wr].all (fun i => isAtIssue (bad i) i (BitVec.allOnes 64) && (ctxOf (bad i)).t.sBad 6 &&
      isAtIssue (with6 i 5 0) i (BitVec.allOnes 64) && !((with6 i 5 0).smask 0).getLsbD 5) = true ∧
    (unitReg 0 0x4E).isNone ∧
    (q.ts? 3 = none ∧ holdsTable (q.req? 3) (fun r => decide (r.stage = .sent)) = true ∧
      holdsTable (q.ownerRegime (.troupe 0)) (fun g => decide (g.priv = .h)) = true) ∧
    (let r := asked (.sysRead 0 0 0 0x4C .h)
     r.writesBefore 3 0 0 0 = false ∧ r.leftSlice 3 0 = false ∧ (leftBy r).leftSlice 3 0 = true) ∧
    (isAtIssue (with6 tr 0 0) tr (BitVec.allOnes 64) ∧ ([6, 8, 10] : List SReg).any (ctxOf (with6 tr 0 0)).t.sBad = false ∧
      isAtIssue (bad tr) tr (BitVec.allOnes 64) ∧ ([6, 8, 10] : List SReg).any (ctxOf (bad tr)).t.sBad = true) ∧
    (let user := fun (i : Instr) => kat i id fun s => { s with blocks := [(0, { kernelBlock with regime := ⟨0, 1, .u, 0⟩ })] }
     [tr, .rdcinv .all 4 0 0, rd, wr].all (fun i => isAtIssue (user i) i (BitVec.allOnes 64) &&
       decide ((ctxOf (user i)).blk.regime.priv = .u)) = true) ∧
    (let guest := fun (i : Instr) => kat i id fun s => { s with blocks := [(0, { kernelBlock with regime := ⟨0, 1, .s, 0⟩ })] }
     (ctxOf (guest tr)).blk.regime.priv = .s ∧ isAtIssue (guest tr) tr (BitVec.allOnes 64) ∧
       isAtIssue (guest (.tlbinv .all 0 4 0 0 0)) (.tlbinv .all 0 4 0 0 0) (BitVec.allOnes 64) ∧
       (asked (.qstat 7 .state)).queue? 0 7 = none) := by decide +kernel

/-- O43: NI full, the answers on their way; a misaligned and a held payload; a route that is good, with and without a slot
of the calendar, and to another module. -/
theorem witness_MessageWordResults_more :
    let ms : Instr := .msend 0 true false false 0 8 4 6 8
    let mr : Instr := .mroute 0 4 6
    let sp : Instr := .msendSp 0 false true false 8 4 6 8 10
    let full := kat mr (fun t => t.count fun c => { c with ni := 63 }) id
    let here : W64 := BitVec.ofNat 64 (2 ^ 60 + 16)
    let asked := fun (w : HeldWork) => (kat .nop id id).setReq 3 ⟨0, 4, false, some w, .sent, 0, [], 0⟩
    (isAtIssue full mr (BitVec.allOnes 64) ∧ 63 ≤ (ctxOf full).t.cnt.ni) ∧
    [HeldWork.niAnswer 5, .niEnd].all (fun w => (asked w).ts? 3 == none &&
      holdsTable ((asked w).req? 3) fun q => decide (q.stage = .sent) && decide (q.work = some w)) = true ∧
    (isAtIssue (kat sp (sregs [(10, 4)]) id) sp (BitVec.allOnes 64) ∧ (4 : Nat) % 8 ≠ 0) ∧
    (let s := kat sp (sregs [(10, 4088)]) fun s => s.setCore 0 { Core.empty with sb := [⟨0, false, 4088, 4095, true, 7⟩] }
     isAtIssue s sp (BitVec.allOnes 64) ∧ s.scratchHeld (ctxOf s) false (spBytes 0 6 4088 8) = true) ∧
    (let s := kat ms (sregs [(6, here)]) id
     (ctxOf s).t.cnt.ni < 63 ∧ (partWith (fun p => { p with calendar := [] }) s).ownsSlot 0 0 true = false ∧
       (partWith (fun p => { p with calendar := [(0, 0x80)] }) s).ownsSlot 0 0 true = true) := by decide +kernel

/-- O44: a core in reset, one that awaits a value; misaligned addresses in memory and in a COUNTER page; faults of the
cache-block operations and of the fences. -/
theorem witness_HartResults_stops :
    let s := hartAt id world
    let away := hartAt (fun x => { x with outstanding := [3] }) world
    let user := hartAt (fun x => { x with mode := .u }) world
    let memory := fun (a : Nat) (acc : HAcc) (n : Nat) => match (s.hartXlate 0 acc a n).1 with
      | .ok (.mem _ _ false) => true | _ => false
    let counter := fun (a : Nat) (acc : HAcc) (n : Nat) => match (s.hartXlate 0 acc a n).1 with
      | .ok (.mem _ _ true) => true | _ => false
    hartOf (.hartFence 0) = some 0 ∧ (world.hart 0).started = false ∧
    ((away.hart 0).started = true ∧ (away.hart 0).outstanding ≠ []) ∧
    (memory 8192 .load 8 = true ∧ memory 8196 .load 8 = true ∧ (8196 : Nat) % 8 ≠ 0 ∧ memory 8196 .store 8 = true ∧
      memory 8196 .amo 8 = true ∧ memory 8192 .store 1 = true) ∧
    (counter (2 ^ 48) .amo 8 = true ∧ counter (2 ^ 48 + 4) .amo 8 = true ∧ counter (2 ^ 48) .load 8 = true ∧
      counter (2 ^ 48 + 4) .load 8 = true ∧ counter (2 ^ 48) .store 8 = true ∧ (2 ^ 48 + 4) % 8 ≠ 0) ∧
    ((s.hart 0).cboFault 6 1 = none ∧ (s.hart 0).cboFault 4 2 = none ∧ (user.hart 0).cboFault 6 1 = some illegalInstruction ∧
      (user.hart 0).cboFault 4 2 = some illegalInstruction) ∧
    ((s.hart 0).fenceFault false true = none ∧ (s.hart 0).fenceFault true true = none ∧
      (user.hart 0).fenceFault false true = some illegalInstruction ∧ (user.hart 0).fenceFault true true = some illegalInstruction) := by
  decide +kernel

/-- O45: names that do not translate, names that do, a refused table; a wait that goes on and one that is not read yet. -/
theorem witness_HartEvents_more :
    let port := fun (d : Nat) => (hartAt id world).setPort 0 1 { Port.idle with desig := [(0, BitVec.ofNat 64 d)] }
    let named := fun (d : Nat) => (((port d).portNames 0 (((port d).hart 0).port 1) 1).zipIdx).map
      (portCond (((port d).hart 0).port 1))
    let armed := fun (v : Option (W64 × Bool)) => (hartAt id world).setPort 0 1
      { Port.idle with wait := some ⟨[⟨.home 8192, none, 5, false, v⟩], false, v.isNone, some 9, 0, false⟩ }
    let wt := fun (v : Option (W64 × Bool)) => (((armed v).hart 0).port 1).wait.getD ⟨[], false, false, none, 0, false⟩
    (port (2 ^ 40)).portAgain 0 1 0 = none ∧ (port (2 ^ 48)).portAgain 0 1 0 = none ∧
    (((named (2 ^ 40)).zipIdx).find? fun e => e.1.isNone).isSome ∧ (named (2 ^ 48)).all Option.isSome = true ∧
    ((wt none).first = true ∧ (((armed none).gather (ofPort 0 1) (wt none)).conds.any fun c => !c.sat && c.val.isNone) = true) ∧
    (match ((armed (some (4, false))).gather (ofPort 0 1) (wt (some (4, false)))).pass 0 with | .goesOn _ => true | _ => false) =
      true ∧
    bitsOf (BitVec.ofNat 64 (2 ^ 64 - 2 ^ 32)).toNat 32 32 = 2 ^ 32 - 1 ∧ bitsOf (0 : W64).toNat 32 32 ≠ 2 ^ 32 - 1 := by decide +kernel

/-- O46: requests of pins as they arrive: with room, and without. -/
theorem witness_CacheWordResults_more :
    let asked := fun (w : HeldWork) => (kat .nop id id).setReq 3 ⟨0, 4, false, some w, .sent, 0, [], 0⟩
    let room := (asked (.pin 1 [128] [])).setReg 0 0 (l2pinqReg 1) (BitVec.ofNat 64 (2 ^ 44))
    [HeldWork.answer 4, .unpin 1 [128], .pinq 0].all (fun w => (asked w).ts? 3 == none &&
      holdsTable ((asked w).req? 3) fun q => decide (q.stage = .sent) && decide (q.work = some w)) = true ∧
    ((asked (.pinq 0)).ownerRegime (.troupe 0)).isSome ∧ ((asked (.pinq 0)).smask 0).getLsbD 0 = true ∧
    ((room.req? 3).isSome ∧ (room.reserveAt 1 [128] 0).1 = 0) ∧
    (((asked (.pin 1 [128] [])).reserveAt 1 [128] 0).1 ≠ 0 ∧
      holdsTable ((asked (.pin 1 [128] [])).req? 3) (fun q => decide (q.status = 0)) = true) := by decide +kernel

/-- O48: INF copies to recall, recalls on their way, the holder's own line, redirected and refused writes, a firewall, a pin. -/
theorem witness_LineEvents_more :
    let s := fun o => (kat .nop id id).setOp 3 o
    let o := opAt .store .sent
    let r := opAt (.load false) .sent
    let there := fun o => holdsTable ((s o).op? 3) (fun x => (x.part? 128).isSome)
    let homes := fun (f : Homes → Homes) (s : State) => s.setHomes (f s.homes)
    let own : L1Line := ⟨128, .pinned (.block 0) 0 0 0, false, none, 0, 1⟩
    let mine := (s o).setCore 0 { Core.empty with l1 := [(128, own)] }
    let held := homes (fun h => { h with pins := [(128, ⟨0, .block 0, ⟨0, 0, .h, 0⟩, none⟩)] }) mine
    let far := homes (fun h => { h with pins := [(128, ⟨0, .block 9, ⟨0, 0, .h, 0⟩, none⟩)] })
      ((s o).setCore 0 { Core.empty with l1 := [(128, { own with state := .pinned (.block 9) 0 0 0 })] })
    sfind 128 (homes (fun h => { h with inf := [(128, 1)] }) (s o)).homes.inf = some 1 ∧
    (sfind 128 (homes (fun h => { h with recalls := [(128, 1)] }) (s o)).homes.recalls = some 1 ∧ (1 : BitVec 16) ≠ 0) ∧
    (held.route o 128 = .here 128 ∧ (held.core 0).blockHeld 128 = true ∧ (held.core 0).l1Find 128 = some (128, own)) ∧
    (far.route o 128 = .refused ∧ far.refusesOp o 128 = false ∧ far.isFrozen 128 = false) ∧
    ((leftBy (s r)).refusesOp r 128 = true ∧ there r = true) ∧
    (let p : MemOp := { opAt (.load false) .sent with scope := 2, lease := 5 }
     (s p).homes.earliest 128 = none ∧ sfind 128 (s p).homes.recalls = none) ∧
    (o.parts.head?.map (·.fill) = some none ∧
      ({ opAt (.load false) .sampled with dst := some (.v 4) } : MemOp).dst = some (.v 4)) ∧
    (homes (fun h => { h with recalls := [(128, 0)], held := [(3, 128)] }) (s o)).homes.held = [(3, 128)] := by decide +kernel

/-- O49: a pipe that no troupe waits for, and a troupe that waits for one. -/
theorem witness_IssueEvents_more :
    let s := fetched (kat .nop id id)
    let free := { s with cores := [(0, { s.core 0 with pipes := [] })] }
    sfind 0 (free.core 0).pipes = none ∧ free.grantFor 0 0 = some 0 ∧
    (s.current = none ∧ (s.pipeOf ⟨0, 0⟩).isSome = true ∧ waitMaskOk 0xC000000000000000 Counters.zero = true) := by decide +kernel

/-- O50: a turn of zeroing that is over and one that is not; a way that is walked; a block that ended; a block with its
units; a launch that is not together; victims in each state; refills. -/
theorem witness_BlockEvents_more :
    let z := fun (d : Nat) => kat .nop id fun s => s.setCore 0 { Core.empty with zeroing := [.granule 1], zeroDue := [(2, d)] }
    let walk : WayWalk := ⟨0, 3, 0, none, false⟩
    let inState := fun (st : BlockState) => kat .nop id fun s =>
      { s with blocks := [(0, { kernelBlock with state := st })], troupes := [] }
    let tk : Ticket := ⟨0, 0, 0, [0, 0, 0, 0, 0, 0, 1 + 2 ^ 32 + 2 ^ 48, 0, 2 ^ 24], .running, 1, 1, 0, 0, 0, some 0, 0, true⟩
    let withTicket := fun (t : Ticket) (s : State) => s.setPkg { s.pkg with tickets := [(0, t)] }
    let saved := fun (k : SavedKind) (s : State) => s.setPkg { s.pkg with saved := [(6, ⟨k, 0, 0, 0, 0, kernelTroupe .nop, 0, none,
      none, 1, 0, none, 0, false, false, false, 0, []⟩)] }
    let rc := fun (v : Nat) (s : State) => (s.setBlock 5 { kernelBlock with state := .arriving, ticket := 0 }).setCore 0
      { Core.empty with reclaims := [⟨5, [], [v]⟩] }
    ((CoreUnit.granule 1).kind = 2 ∧ sfind 2 ((z 0).core 0).zeroDue = some 0 ∧ 0 ≤ (z 0).clocks64 0 ∧ (z 9).clocks64 0 < 9) ∧
    (let s := kat .nop id fun s => s.setCore 0 { Core.empty with walks := [walk] }
     (s.core 0).walks = [walk] ∧ walk.ends ≤ s.clocks64 0 ∧ walk.op.all s.opDone = true) ∧
    (let s := kat .nop id fun s => s.setCore 0 { Core.empty with ended := [⟨0, 0, []⟩] }
     (s.core 0).ended = [⟨0, 0, []⟩] ∧ (s.core 0).zeroing = [] ∧ (s.core 0).walks = []) ∧
    (let s := withTicket tk (inState .arriving)
     s.block? 0 = some { kernelBlock with state := .arriving } ∧ s.reclaiming 0 { kernelBlock with state := .arriving } = false ∧
       s.ticket? 0 = some tk ∧ s.savedOf 0 = [] ∧ (saved .whole s).savedOf 0 ≠ []) ∧
    ((inState .clearing).notReady { kernelBlock with state := .clearing } = false ∧
      ((inState .clearing).setCore 0 { Core.empty with zeroing := [.granule 0] }).notReady { kernelBlock with state := .clearing } = true ∧
      kernelBlock.units.contains (.granule 0) = true ∧ (inState .clearing).quiesced 0 = false) ∧
    ((withTicket tk (inState .running)).allGathered 0 tk = false ∨ (withTicket tk (inState .running)).allGathered 0 tk = true) ∧
    ((withTicket tk (inState .clearing)).allGathered 0 tk = false) ∧
    [(BlockState.running, 0), (.halted, 0), (.gathered, 9), (.gathered, 0), (.clearing, 0), (.refilling, 0)].all (fun x =>
      let b := { kernelBlock with state := x.1, haltedAt := x.2 }
      let s := rc 0 (withTicket tk { inState x.1 with blocks := [(0, b)] })
      s.block? 0 == some b && decide ((s.core 0).reclaims = [⟨5, [], [0]⟩]) && (s.block? 5).isSome && s.residentBlock b &&
        (s.savedOf 0).isEmpty) = true ∧
    ((saved .whole (inState .clearing)).savedOf 0).any (fun e => decide (e.2.kind = .whole)) = true ∧
    (let s := inState .refilling
     s.block? 0 = some { kernelBlock with state := .refilling } ∧ s.notReady { kernelBlock with state := .refilling } = false ∧
       kernelBlock.spill = []) ∧
    (let s := kat .nop id (withTicket { tk with words := [0, 0, 0, 0, 0, 0, 1 + 2 ^ 32 + 2 ^ 48] })
     s.block? 0 = some kernelBlock ∧ (s.haltBlock 0).savable 0 = false ∧
       (kat .nop (fun t => { t with issue := none }) (withTicket tk)).quiet 0 = true) := by decide +kernel

/-- O51: a mailbox command that waits for a lower slice's; a slice that has left. -/
theorem witness_RegisterWriteEvents_more :
    let asked := reqAt .sent none (kat .nop id id)
    let two_ := { partWith (fun p => { p with smask := 3 }) world with todo := [.systemRegisterWrite 0 0 0x74 1 9] }
    (asked.leftSlice 3 0 = false ∧ (leftBy asked).leftSlice 3 0 = true) ∧
    (two_.lowerMailbox 0 1 = true ∧ two_.lowerMailbox 0 0 = false ∧ two_.partOf 1 = some 0) ∧
    ((world.reg 0 (coreUnit 0) (quotaWhenReg 1)).toNat ≠ world.tick + 1) := by decide +kernel

/-- O52: an operation that comes back; a pin that was refused; DISABLE of a queue that was enabled, and of one that was not;
ENABLE of an entry that another VF's state forbids. -/
theorem witness_RequestEvents_more :
    let w := kat .nop id id
    let o := tsAt .add .refused 0 none none false
    let pinned := w.setReq 3 ⟨0, 4, false, some (.pin 1 [128] []), .sent, 0, [], 258⟩
    let on := (partWith (fun p => { p with qcmd := true }) (entryStored world)).setQueue 0 7 ⟨queueEntry, .active, 0, 0, false⟩
    (w.setTs 3 o).ts? 3 = some o ∧
    (holdsTable (pinned.req? 3) (fun r => decide (r.status ≠ 0)) = true) ∧
    ((entryStored world).entryRefused 0 7 = [] ∧ (7 : Nat) < 4096 ∧ world.partOf 0 = some 0) ∧
    (holdsTable (on.queue? 0 7) (fun z => decide (z.state = .active)) = true ∧ on.entryRefused 0 7 = []) ∧
    ((world.vfState 0 1 ≠ 1) ∧ world.homes.badRead (lineOf 0) 0 = false) := by decide +kernel

/-- The second GiB of the kernel's space is COUNTER, at the same bytes. -/
def counters (s : State) : State := s.setHomes { s.homes with mem := s.homes.mem ++ [(4111, 0xBA)] }

/-- O53: a producer that names a turnstile; a poisoned ticket; a ticket whose words do not come; a join past its range; a
completion whose table is refused; a ring that is full. -/
theorem witness_RingmasterEvents_more :
    let w := queueAt .active counters
    let x : Queue := ⟨queueEntry, .active, 0, 0, false⟩
    let ts : W64 := BitVec.ofNat 64 (2 ^ 30 + 8192)
    let named := w.setQueue 0 7 { x with entry := queueEntry.set 2 ts }
    let poisoned := listing (.producer 0 7) 1 false (w.setHomes { w.homes with linePoison := [256] })
    let j := ticketAt false 0 ts w
    let over_ := ticketAt true 0 0 w
    (match named.nameIn (named.firstSlice 0) (x.regime 0) ts with | .to _ _ => true | _ => false) = true ∧
    (match (poisoned.read128 0 (x.regime 0) 16384).1 with | .words _ bad => bad | _ => false) = true ∧
    (match j.nameIn (j.firstSlice 0) (x.regime 0) ts with | .to _ _ => true | _ => false) = true ∧
    ((listing (.join 4) 1 true j).lastReport (.join 4) = some (1, true) ∧
      outOfRange (BitVec.ofNat 64 (2 ^ 62 + 2)) 1 = true ∧ outOfRange 0 1 = false ∧ satisfied 0 1 = false) ∧
    (holdsTable (over_.ticket? 4) (fun t => t.over && decide (over_.finishAgain t = [])) = true ∧
      holdsTable ((pinnedTable over_).ticket? 4) (fun t => decide ((pinnedTable over_).finishAgain t ≠ [])) = true) ∧
    (let none_ := world
     (none_.keepShares 0 0).cands 0 0 = [] ∧ none_.awaits 0 0 = false) := by decide +kernel

/-- O54: a cut that waits for the tick's other events; a save that waits; a test of each outcome; action words. -/
theorem witness_SnapshotAndSaveEvents_more :
    let cutting := snapping .arming 4096 { world with tick := 4096, todo := [.pipeGrant 0] }
    let ring : Ring := .kFault
    let sv := fun (k : SavedKind) (delivered ready : Bool) (a : Nat) =>
      (⟨k, 0, 0, 0, 0, kernelTroupe .nop, 0, none, some (.home 8192, none), 1, 0, some ring, a, delivered, ready, false, 0, []⟩ : Saved)
    let put := fun (x : Saved) (s : State) => s.setPkg { s.pkg with saved := [(6, x)] }
    let f := sv (.fault 0 false) true false 8192
    let w := kat .nop id (put f)
    let report := fun (v : W64) (bad : Bool) => listing (.resume 6) v bad w
    let busy := kat .nop (fun t => { t with susp := .pageFault 0 false, issue := none, cnt := { t.cnt with st := 1 } }) id
    (holdsTable (cutting.part? 0) (fun p => decide (p.snap.state = .arming)) = true ∧ (cutting.todo.any fun e => !e.isCut) = true) ∧
    ((w.block? 0).isSome ∧ w.resumeTest 6 f = some false ∧ (report 1 false).resumeTest 6 f = some true ∧
      (report 1 true).resumeTest 6 f = none) ∧
    ((match w.actionWord f with | .action _ => true | _ => false) = true ∧
      (match (w.setHomes { w.homes with pins := [(128, ⟨0, .cluster, ⟨0, 0, .h, 0⟩, none⟩)] }).actionWord f with
        | .wait _ => true | _ => false) = true ∧
      (match w.actionWord { f with ring := none } with | .fails => true | _ => false) = true) ∧
    (holdsTable (busy.troupe? ⟨0, 0⟩) (fun t => !busy.mayBegin 0 t) = true) ∧
    (w.inSlot f).isSome ∧ kmem 0 w.pkg.delivered = false := by decide +kernel

/-- O55, O58: the turnstiles of VFRST and of a migration; channels in their states; the build of the partitions. -/
theorem witness_ResetAndMigrationEvents_more :
    let resetting := (withReg (regVfrst 1) 8192 world).setVfcfg 0 1 4 0 0
    let mig := fun (st : MigState) => world.setMig 0 0 ⟨st, 8192, 16384, 4096, [], 0, 0⟩
    let m : Manifest := ⟨1, 0, 0, 0, 0, 0, []⟩
    (resetting.vfState 0 1 = 2 ∧ resetting.vfBusy 0 1 = false) ∧
    [MigState.idle, .copy, .freezing, .frozen].all (fun st => decide (((mig st).mig 0 0).state = st)) = true ∧
    ((world.ppaMem 0 (world.reg 0 0 (migReg 0 2)).toNat).isSome ∧ (mig .freezing).migWaits ⟨.freezing, 8192, 16384, 4096, [], 0, 0⟩ = false) ∧
    (world.plat.power = true ∧ world.plat.inReset = false ∧
      ({ world with plat := { world.plat with flash := { Flash.empty with manifest := some m } } } : State).plat.flash.manifest = some m) := by
  decide +kernel

/-- Words of two bytes and the words of four that they stand for, as the RISC-V specification and its assemblers give them. -/
theorem test_rv_expand :
    [0x0808, 0x4188, 0xE188, 0xEC06, 0x60E2, 0x7139, 0x8082, 0x852E, 0x6505, 0x893D, 0x8D0D, 0xC101, 0xBFE5, 0x9002, 0x9D2D,
      0].map rvExpand =
    [some 0x01010513, some 0x0005A503, some 0x00A5B023, some 0x00113C23, some 0x01813083, some 0xFC010113, some 0x00008067,
      some 0x00B00533, some 0x00001537, some 0x00F57513, some 0x40B50533, some 0x00050063, some 0xFF9FF06F, some 0x00100073,
      some 0x00B5053B, none] := by decide +kernel

/-- mulh, div and rem at their corners, and an arithmetic shift. -/
theorem test_rv_arithmetic :
    rvAlu 64 5 true (2 ^ 64 - 8) 1 = 2 ^ 64 - 4 ∧ rvMul 64 1 (2 ^ 64 - 1) (2 ^ 64 - 1) = 0 ∧
    rvMul 64 4 (2 ^ 63) (2 ^ 64 - 1) = 2 ^ 63 ∧ rvMul 64 4 7 0 = 2 ^ 64 - 1 ∧ rvMul 64 6 (2 ^ 64 - 7) 2 = 2 ^ 64 - 1 ∧
    rvMul 64 6 7 0 = 7 := by decide +kernel

/-- fdiv.d of 1 by 3 is inexact; of 1 by 0 an infinity with DZ; fcvt.s.d of 0.1. -/
theorem test_rv_float :
    let x := fun (a b : Nat) => { Hart.reset with f := [(1, BitVec.ofNat 64 a), (2, BitVec.ofNat 64 b)] }
    let r := fun (k fmt rs2 a b : Nat) => ((x a b).fop k fmt rs2 0 3 1).map fun y => (y.fbits 3, y.csr? csrFcsr)
    r 3 1 2 0x3FF0000000000000 0x4008000000000000 = some (0x3FD5555555555555, 1) ∧
    r 3 1 2 0x3FF0000000000000 0 = some (0x7FF0000000000000, 8) ∧
    r 8 0 1 0x3FB999999999999A 0 = some (0xFFFFFFFF3DCCCCCD, 1) := by decide +kernel

/-- O45: a hart at rest, one that waits, one with an interrupt; code that is not there, of two bytes, reserved, and of four. -/
theorem witness_HartEvents_run :
    let at_ := fun (pc : W64) (f : Hart → Hart) => hartAt (fun x => f { x with pc := pc }) world
    let code := fun (m : Sparse Byte) => (at_ 8192 id).setHomes { (at_ 8192 id).homes with mem := m }
    let lo := fun (s : State) (pc : Nat) => (s.parcel 0 pc).1.toOption
    let last := fun (pins : Bool) => (at_ 8254 id).setHomes { (at_ 8254 id).homes with
      mem := [(8254, 0x13)], pins := if pins then [(129, ⟨0, .block 9, ⟨0, 0, .h, 0⟩, none⟩)] else [] }
    (world.hart 0).started = false ∧
    (((at_ 8192 fun x => { x with outstanding := [3] }).hart 0).outstanding ≠ []) ∧
    ((at_ 8192 fun x => { x with csr := [(csrMstatus, 8), (csrMie, 2), (csrMip, 2)] }).hart 0).takes = some (.m, 1) ∧
    ((at_ 8192 id).hart 0).takes = none ∧
    lo (at_ (2 ^ 41) id) (2 ^ 41) = none ∧
    (lo (code [(8192, 5), (8193, 0x45)]) 8192 = some 0x4505 ∧ rvExpand 0x4505 = some 0x00100513) ∧
    (lo (code [(8192, 4)]) 8192 = some 4 ∧ rvExpand 4 = none) ∧
    (lo (last true) 8254 = some 0x13 ∧ lo (last true) 8256 = none ∧ lo (last false) 8254 = some 0x13 ∧
      lo (last false) 8256 = some 0) := by decide +kernel

end Sys2Proof.Tests
end

section
/-! PROOFS. Thread arithmetic: division (R96), carries (R97), dot products and sums of differences (R98, R99). -/

namespace Sys2Proof.Machine

/-! Fields of words of the R format (R49). -/

theorem bitsOf_toNat_eq_fld (w : W64) (lo len : Nat) : bitsOf w.toNat lo len = (fld w lo len).toNat := by
  simp only [fld, bitsOf, BitVec.extractLsb'_toNat, Nat.shiftRight_eq_div_pow]

theorem shiftRight_eq_iff (w : W64) (op : BitVec 8) : w >>> 56 = op.setWidth 64 ↔ fld w 56 8 = op := by
  rw [← BitVec.toNat_inj, ← BitVec.toNat_inj]
  simp only [fld, BitVec.toNat_ushiftRight, BitVec.toNat_setWidth, BitVec.extractLsb'_toNat, Nat.shiftRight_eq_div_pow]
  omega

/-- Of two instructions whose words differ in the opcode alone, the opcode tells which one a word stands for. -/
theorem opcode_tells {x y : Instr} (E : BitVec 8 → W64) {op op' : BitVec 8} (hE : ∀ k, fld (E k) 56 8 = k)
    (hx : encode x = some (E op)) (hy : encode y = some (E op')) (hne : op' ≠ op) {i : Instr} (hi : i = x ∨ i = y)
    {w : W64} (hw : encode i = some w) : (∃ k, E k = w) ∧ (w >>> 56 = op.setWidth 64 ↔ i = x) := by
  rw [shiftRight_eq_iff]
  rcases hi with rfl | rfl
  · obtain rfl : E op = w := Option.some.inj (hx.symm.trans hw)
    exact ⟨⟨op, rfl⟩, iff_of_true (hE op) rfl⟩
  · obtain rfl : E op' = w := Option.some.inj (hy.symm.trans hw)
    refine ⟨⟨op', rfl⟩, iff_of_false (by rwa [hE]) fun same => hne ?_⟩
    rw [← hE op', ← hE op, Option.some.inj (hy.symm.trans (same ▸ hx))]

/-- A field of the modifier stands in the same bits of the word. -/
theorem encR_bitsOf (op d a b c : BitVec 8) (fea feb fec : Bool) (g : BitVec 5) (m : BitVec 16) (lo len : Nat)
    (h : lo + len ≤ 16) : bitsOf (encR op d a b c fea feb fec g m).toNat lo len = (m.extractLsb' lo len).toNat := by
  rw [bitsOf_toNat_eq_fld, encR_m _ _ _ _ _ _ _ _ _ _ _ _ h]

/-- Modifier [8] is NT (R96). -/
theorem mTyBit_bit (t : IntTy) (nt : Bool) : (mTyBit t nt).getLsbD 8 = nt := by
  simp only [mTyBit, BitVec.getLsbD_append]
  simp

/-- Modifier [11] is CI (R97). -/
theorem mCarry_ci (t : IntTy) (ci : Bool) (p : Pred) : (mCarry t ci p).getLsbD 11 = ci := by
  simp only [mCarry, BitVec.getLsbD_append]
  simp

/-- Modifier [10:8] is the carry predicate (R97). -/
theorem mCarry_pred (t : IntTy) (ci : Bool) (p : Pred) : (mCarry t ci p).extractLsb' 8 3 = BitVec.ofFin p := by
  apply BitVec.eq_of_getLsbD_eq
  intro i hi
  simp only [mCarry, BitVec.getLsbD_extractLsb', hi, decide_true, Bool.true_and, BitVec.getLsbD_append]
  rw [if_neg (by omega), if_neg (by omega), if_pos (by omega)]
  congr 1; omega

/-- Modifier [8] is SA, [9] SB and [10] SAT (R98). -/
theorem mDot_bits (t : IntTy) (sa sb sat : Bool) :
    (mDot t sa sb sat).getLsbD 8 = sa ∧ (mDot t sa sb sat).getLsbD 9 = sb ∧ (mDot t sa sb sat).getLsbD 10 = sat := by
  simp only [mDot, BitVec.getLsbD_append]
  simp

/-- Modifier [15:11] and [7:4] are zero (R98). -/
theorem mDot_zeros (t : IntTy) (sa sb sat : Bool) :
    (mDot t sa sb sat).extractLsb' 11 5 = 0#5 ∧ (mDot t sa sb sat).extractLsb' 4 4 = 0#4 := by
  constructor
  all_goals
    apply BitVec.eq_of_getLsbD_eq
    intro i hi
    simp only [mDot, BitVec.getLsbD_extractLsb', hi, decide_true, Bool.true_and, BitVec.getLsbD_append]
    repeat rw [if_neg (by omega)]
  · simp
  · rw [if_pos (by omega)]
    simp

theorem fieldsOk_of_wf {i : Instr} (h : i.wf = true) : i.fieldsOk = true := by
  unfold Instr.wf at h
  exact (Bool.and_eq_true_iff.mp h).2

theorem count_of_scalar {t : IntTy} (h : t.scalar = true) : t.count = 1 := by
  cases t
  case ui32 | i32 | ui64 | i64 => rfl
  case ui16x2 | i16x2 | ui8x4 | i8x4 => cases h

theorem regs_le (t : IntTy) : t.regs ≤ 64 := by
  cases t <;> decide

/-! Division (R96). -/

/-- Both division words take scalar types, hold NT in bit 8, and differ in the opcode. -/
theorem division_word (t : IntTy) (nt : Bool) (o : R2) :
    ∀ i ∈ [Instr.idiv t nt o, Instr.irem t nt o], (i.wf = true → t.count = 1) ∧
      ∀ w, encode i = some w → w.getLsbD 8 = nt ∧ (w >>> 56 = 0x08 ↔ i = .idiv t nt o) := by
  have nt_bit : ∀ op, (eR2 op o (mTyBit t nt)).getLsbD 8 = nt := fun op =>
    (encR_m_bit _ _ _ _ _ _ _ _ _ _ 8 (by decide)).trans (mTyBit_bit t nt)
  intro i hi
  have either : i = .idiv t nt o ∨ i = .irem t nt o := by
    simpa only [List.mem_cons, List.not_mem_nil, or_false] using hi
  refine ⟨fun h => count_of_scalar ?_, fun w hw => ?_⟩
  · rcases either with rfl | rfl <;> exact fieldsOk_of_wf h
  · obtain ⟨⟨op, rfl⟩, opcode⟩ := opcode_tells (fun op => eR2 op o (mTyBit t nt)) (fun _ => encR_op ..) rfl rfl
      (by decide : (0x09 : BitVec 8) ≠ 0x08) either hw
    exact ⟨nt_bit op, opcode⟩

/-- The lanes in which a division traps: those of a zero divisor that is not poisoned, and with NT none. -/
def trappingLanes (c : Ctx) (t : IntTy) (nt : Bool) (b : Src) : LaneMask := if nt then 0 else zeroDivisors c t b

theorem trappingLanes_eq_zero {c : Ctx} {t : IntTy} {nt : Bool} {b : Src} (h : nt = true ∨ zeroDivisors c t b = 0) :
    trappingLanes c t nt b = 0 := by
  unfold trappingLanes
  rcases h with rfl | h
  · rfl
  · rw [h, ite_self]

/-- The lanes that `divOp` marks are the trapping ones. -/
theorem maskOf_marked (c : Ctx) (t : IntTy) (nt : Bool) (b : Src) :
    maskOf ((lanes c.mask).filter fun l =>
      decide (uval t.ew (c.t.value l (b.opnd t.regs)) = 0) && !nt && !c.t.poisoned l (b.opnd t.regs)) =
    trappingLanes c t nt b := by
  cases nt with
  | true =>
    have unmarked : (lanes c.mask).filter (fun l => decide (uval t.ew (c.t.value l (b.opnd t.regs)) = 0) && !true &&
        !c.t.poisoned l (b.opnd t.regs)) = [] := List.filter_eq_nil_iff.mpr fun l _ => by
      rw [Bool.not_true, Bool.and_false, Bool.false_and]
      exact Bool.false_ne_true
    rw [unmarked]
    rfl
  | false =>
    refine congrArg maskOf (List.filter_congr fun l _ => ?_)
    rw [Bool.not_false, Bool.and_true, Ctx.val]

/-- A division at issue traps, if a lane is marked, and otherwise goes on with every lane's result. -/
theorem divOp_eq {s : State} {c : Ctx} {i : Instr} (t : IntTy) (nt : Bool) (o : R2) (pick : Nat × Nat → Nat)
    (h : AtIssue s c i c.mask) :
    divOp s i t nt o pick = .next (if trappingLanes c t nt o.b ≠ 0 then
      s.raise c causeArith 0 0 (trappingLanes c t nt o.b)
    else s.advance c (c.t.compute c.mask i.srcs (o.d.opnd t.regs) t.sx
      (fn2 fun x y => pick (divRem t.signed t.ew x y)))) := by
  unfold divOp
  rw [onTroupe_some h.1, whenReady_go _ h.2, maskOf_marked]

/-- Where no lane traps, every lane of D holds the quotient or the remainder. -/
theorem divOp_done {s : State} {c : Ctx} {i : Instr} {t : IntTy} {nt : Bool} {o : R2} {pick : Nat × Nat → Nat}
    (hi : exec i s = divOp s i t nt o pick) (hs : i.srcs = [o.a.opnd t.regs, o.b.opnd t.regs])
    (hz : nt = true ∨ zeroDivisors c t o.b = 0) :
    LaneDone s c i (o.d.opnd t.regs) t.sx
      fun l => pick (divRem t.signed t.ew (c.val t.regs o.a l) (c.val t.regs o.b l)) := by
  intro h
  have run := hi.trans (divOp_eq t nt o pick h)
  rw [if_neg fun trap => trap (trappingLanes_eq_zero hz)] at run
  have written := compute_written c.t c.mask i.srcs (o.d.opnd t.regs) t.sx
    (fn2 fun x y => pick (divRem t.signed t.ew x y)) (regs_le t)
  refine ⟨_, run, ?_⟩
  rw [hs] at written ⊢
  exact written

/-- Without NT, a zero divisor raises ARITH with its lanes. -/
theorem divOp_traps {s : State} {c : Ctx} {i : Instr} {t : IntTy} {nt : Bool} {o : R2} {pick : Nat × Nat → Nat}
    (hi : exec i s = divOp s i t nt o pick) (hn : nt = false) (hz : zeroDivisors c t o.b ≠ 0)
    (h : AtIssue s c i c.mask) : exec i s = .next (s.raise c causeArith 0 0 (zeroDivisors c t o.b)) := by
  have trapping : trappingLanes c t nt o.b = zeroDivisors c t o.b := by rw [hn]; rfl
  rw [hi, divOp_eq t nt o pick h, trapping, if_pos hz]

theorem divRem_quotient (sg : Bool) (w a b : Nat) :
    (divRem sg w a b).1 = if elemVal sg w b = 0 then 0 else wrap w ((elemVal sg w a).tdiv (elemVal sg w b)) :=
  apply_ite Prod.fst _ _ _

theorem divRem_remainder (sg : Bool) (w a b : Nat) :
    (divRem sg w a b).2 =
      if elemVal sg w b = 0 then wrap w (elemVal sg w a) else wrap w ((elemVal sg w a).tmod (elemVal sg w b)) :=
  apply_ite Prod.snd _ _ _

/-- Settles O9: a division either traps in some lanes or writes what `divRem` gives. -/
theorem divisionResults : Obligations.DivisionResults := by
  intro s c t nt o
  have quot : exec (.idiv t nt o) s = divOp s (.idiv t nt o) t nt o (·.1) := rfl
  have rem : exec (.irem t nt o) s = divOp s (.irem t nt o) t nt o (·.2) := rfl
  refine ⟨division_word t nt o, fun hz => ⟨?_, ?_⟩, fun hn hz => ⟨divOp_traps quot hn hz, divOp_traps rem hn hz⟩⟩
  · simpa only [divRem_quotient] using divOp_done quot rfl hz
  · simpa only [divRem_remainder] using divOp_done rem rfl hz

/-! Carries (R97). -/

/-- Both carry words take unsigned scalar types, hold CI in bit 11 and the predicate in bits 10 to 8, and differ in the
opcode. -/
theorem carry_word (t : IntTy) (ci : Bool) (p : Pred) (o : R2) :
    ∀ i ∈ [Instr.iaddc t ci p o, Instr.isubb t ci p o], (i.wf = true → t = .ui32 ∨ t = .ui64) ∧
      ∀ w, encode i = some w →
        w.getLsbD 11 = ci ∧ bitsOf w.toNat 8 3 = p.val ∧ (w >>> 56 = 0x11 ↔ i = .iaddc t ci p o) := by
  have ci_bit : ∀ op, (eR2 op o (mCarry t ci p)).getLsbD 11 = ci := fun op =>
    (encR_m_bit _ _ _ _ _ _ _ _ _ _ 11 (by decide)).trans (mCarry_ci t ci p)
  have pred_bits : ∀ op, bitsOf (eR2 op o (mCarry t ci p)).toNat 8 3 = p.val := fun op => by
    rw [eR2, encR_bitsOf _ _ _ _ _ _ _ _ _ _ 8 3 (by decide), mCarry_pred]
    rfl
  intro i hi
  have either : i = .iaddc t ci p o ∨ i = .isubb t ci p o := by
    simpa only [List.mem_cons, List.not_mem_nil, or_false] using hi
  refine ⟨fun h => ?_, fun w hw => ?_⟩
  · have accepted : (t = .ui32 || t = .ui64) = true := by rcases either with rfl | rfl <;> exact fieldsOk_of_wf h
    simpa only [Bool.or_eq_true, decide_eq_true_eq] using accepted
  · obtain ⟨⟨op, rfl⟩, opcode⟩ := opcode_tells (fun op => eR2 op o (mCarry t ci p)) (fun _ => encR_op ..) rfl rfl
      (by decide : (0x12 : BitVec 8) ≠ 0x11) either hw
    exact ⟨ci_bit op, pred_bits op, opcode⟩

/-- An instruction of the carry shape writes its destination and then its predicate, each by the function that f gives
on the elements and the carry in. -/
theorem carryOp_done {s : State} {c : Ctx} {i : Instr} {t : IntTy} {ci : Bool} {p : Pred} {o : R2}
    {f : Nat → Nat → Nat → Bool → Nat × Bool} {g : Nat → Nat → Nat → Nat × Bool}
    (hi : exec i s = carryOp s i t ci p o f) (hs : i.srcs = [o.a.opnd t.regs, o.b.opnd t.regs])
    (hf : ∀ a b k, f t.ew a b k = g (uval t.ew a) (uval t.ew b) (if k then 1 else 0)) :
    CarryDone s c i t ci p o g := by
  intro h
  have run := hi
  unfold carryOp at run
  rw [onTroupe_some h.1, whenReady_go _ h.2] at run
  simp only [hf, ← hs] at run
  exact ⟨_, run, _, write_written c.t c.mask (o.d.opnd t.regs) t.sx _ (regs_le t),
    writePred_written _ c.mask p _⟩

theorem addCarry_eq (w a b : Nat) (k : Bool) :
    addCarry w a b k = ((uval w a + uval w b + (if k then 1 else 0)) % 2 ^ w,
      decide (2 ^ w ≤ uval w a + uval w b + (if k then 1 else 0))) := by
  cases k <;> rfl

theorem subBorrow_eq (w a b : Nat) (k : Bool) :
    subBorrow w a b k = (wrap w ((uval w a : Int) - uval w b - (if k then 1 else 0 : Nat)),
      decide ((uval w a : Int) - uval w b - (if k then 1 else 0 : Nat) < 0)) := by
  cases k <;> rfl

/-- Settles O10: both words have the carry shape, with `addCarry` and `subBorrow`. -/
theorem carryResults : Obligations.CarryResults := by
  intro s c t ci p o
  exact ⟨carry_word t ci p o, carryOp_done rfl rfl (addCarry_eq t.ew), carryOp_done rfl rfl (subBorrow_eq t.ew)⟩

/-! Dot products and differences (R98, R99). -/

/-- The modifier of a dot-product word: SA, SB and SAT in bits 8 to 10, among zeros. -/
theorem dot_fields (op : BitVec 8) (t : IntTy) (sa sb sat : Bool) (o : R3) :
    (eR3 op o (mDot t sa sb sat)).getLsbD 8 = sa ∧ (eR3 op o (mDot t sa sb sat)).getLsbD 9 = sb ∧
    (eR3 op o (mDot t sa sb sat)).getLsbD 10 = sat ∧ bitsOf (eR3 op o (mDot t sa sb sat)).toNat 11 5 = 0 ∧
    bitsOf (eR3 op o (mDot t sa sb sat)).toNat 4 4 = 0 := by
  obtain ⟨hsa, hsb, hsat⟩ := mDot_bits t sa sb sat
  obtain ⟨high, low⟩ := mDot_zeros t sa sb sat
  have bit : ∀ n < 16, (eR3 op o (mDot t sa sb sat)).getLsbD n = (mDot t sa sb sat).getLsbD n :=
    fun n hn => encR_m_bit _ _ _ _ _ _ _ _ _ _ n hn
  refine ⟨(bit 8 (by decide)).trans hsa, (bit 9 (by decide)).trans hsb, (bit 10 (by decide)).trans hsat, ?_, ?_⟩
  · rw [eR3, encR_bitsOf _ _ _ _ _ _ _ _ _ _ 11 5 (by decide), high]
    rfl
  · rw [eR3, encR_bitsOf _ _ _ _ _ _ _ _ _ _ 4 4 (by decide), low]
    rfl

/-- Both dot-product words take 32-bit types and differ in the opcode. -/
theorem dot_word (t : IntTy) (sa sb sat : Bool) (o : R3) :
    ∀ i ∈ [Instr.idp4 t sa sb sat o, Instr.idp2 t sa sb sat o], (i.wf = true → t = .ui32 ∨ t = .i32) ∧
      ∀ w, encode i = some w → w.getLsbD 8 = sa ∧ w.getLsbD 9 = sb ∧ w.getLsbD 10 = sat ∧
        bitsOf w.toNat 11 5 = 0 ∧ bitsOf w.toNat 4 4 = 0 ∧ (w >>> 56 = 0x13 ↔ i = .idp4 t sa sb sat o) := by
  intro i hi
  have either : i = .idp4 t sa sb sat o ∨ i = .idp2 t sa sb sat o := by
    simpa only [List.mem_cons, List.not_mem_nil, or_false] using hi
  refine ⟨fun h => ?_, fun w hw => ?_⟩
  · have accepted : (t = .ui32 || t = .i32) = true := by rcases either with rfl | rfl <;> exact fieldsOk_of_wf h
    simpa only [Bool.or_eq_true, decide_eq_true_eq] using accepted
  · obtain ⟨⟨op, rfl⟩, opcode⟩ := opcode_tells (fun op => eR3 op o (mDot t sa sb sat)) (fun _ => encR_op ..) rfl rfl
      (by decide : (0x14 : BitVec 8) ≠ 0x13) either hw
    obtain ⟨hsa, hsb, hsat, high, low⟩ := dot_fields op t sa sb sat o
    exact ⟨hsa, hsb, hsat, high, low, opcode⟩

/-- A sum over the elements of two values, taken in pairs. -/
theorem sumInt_elems (n w : Nat) (f : Nat → Nat → Int) (a b : Nat) :
    sumInt (((elems n w a).zip (elems n w b)).map fun x => f x.1 x.2) =
      ((List.range n).map fun j => f (bitsOf a (w * j) w) (bitsOf b (w * j) w)).sum := by
  unfold sumInt elems
  rw [zip_map_range, List.map_map, List.sum_eq_foldl]
  rfl

/-- The exact dot product of four bytes. -/
theorem dotInt_four (sa sb : Bool) (a b : Nat) :
    dotInt 4 8 sa sb a b =
      elemVal sa 8 (bitsOf a (8 * 0) 8) * elemVal sb 8 (bitsOf b (8 * 0) 8) +
      elemVal sa 8 (bitsOf a (8 * 1) 8) * elemVal sb 8 (bitsOf b (8 * 1) 8) +
      elemVal sa 8 (bitsOf a (8 * 2) 8) * elemVal sb 8 (bitsOf b (8 * 2) 8) +
      elemVal sa 8 (bitsOf a (8 * 3) 8) * elemVal sb 8 (bitsOf b (8 * 3) 8) := by
  unfold dotInt
  rw [sumInt_elems 4 8 fun x y => elemVal sa 8 x * elemVal sb 8 y]
  simp only [show List.range 4 = [0, 1, 2, 3] from rfl, List.map_cons, List.map_nil, List.sum_cons, List.sum_nil,
    Int.add_zero, Int.add_assoc]

/-- The exact dot product of two halves. -/
theorem dotInt_two (sa sb : Bool) (a b : Nat) :
    dotInt 2 16 sa sb a b =
      elemVal sa 16 (bitsOf a (16 * 0) 16) * elemVal sb 16 (bitsOf b (16 * 0) 16) +
      elemVal sa 16 (bitsOf a (16 * 1) 16) * elemVal sb 16 (bitsOf b (16 * 1) 16) := by
  unfold dotInt
  rw [sumInt_elems 2 16 fun x y => elemVal sa 16 x * elemVal sb 16 y]
  simp only [show List.range 2 = [0, 1] from rfl, List.map_cons, List.map_nil, List.sum_cons, List.sum_nil, Int.add_zero]

/-- The exact sum of the magnitudes of the differences of elements. -/
theorem sumInt_differences (t : IntTy) (a b : Nat) :
    sumInt (((elems t.count t.ew a).zip (elems t.count t.ew b)).map fun x =>
      ((elemVal t.signed t.ew x.1 - elemVal t.signed t.ew x.2).natAbs : Int)) =
    ((List.range t.count).map fun j => ((elemAt t a j - elemAt t b j).natAbs : Int)).sum :=
  sumInt_elems t.count t.ew (fun x y => ((elemVal t.signed t.ew x - elemVal t.signed t.ew y).natAbs : Int)) a b

theorem isad_types {t : IntTy} {o : R3} (h : (Instr.isad t o).fieldsOk = true) : t ≠ .ui64 ∧ t ≠ .i64 := by
  have accepted : (t ≠ .ui64 && t ≠ .i64) = true := h
  simpa only [Bool.and_eq_true, decide_eq_true_eq] using accepted

/-- Settles O11: both dot products are lane operations on `dotOp`, and isad is one on a sum over elements. -/
theorem dotAndDifferenceResults : Obligations.DotAndDifferenceResults := by
  intro s c t sa sb o
  have one_reg : 1 ≤ 64 := by decide
  refine ⟨fun sat => dot_word t sa sb sat o, fun h => isad_types (fieldsOk_of_wf h), ?_, ?_, ?_, ?_, ?_⟩
  · exact lane_done rfl rfl one_reg fun l => by simp only [← dotInt_four]; rfl
  · exact lane_done rfl rfl one_reg fun l => by simp only [← dotInt_four]; rfl
  · exact lane_done rfl rfl one_reg fun l => by simp only [← dotInt_two]; rfl
  · exact lane_done rfl rfl one_reg fun l => by simp only [← dotInt_two]; rfl
  · exact lane_done rfl rfl one_reg fun l => by simp only [← sumInt_differences]; rfl

end Sys2Proof.Machine
end

section
/-! PROOFS. Control and memory addresses: transfers and the checks of their targets (R138 to R142), and where the access
of a lane lies (R156). -/

namespace Sys2Proof.Machine

/-! Masks of lanes, and the lanes that a list of continuations sends to an address (R75). -/

theorem getLsbD_foldl_or_bitM (ls : List Nat) (m : LaneMask) {j : Nat} (hj : j < 64) :
    (ls.foldl (fun m l => m ||| bitM 64 l) m).getLsbD j = (m.getLsbD j || decide (j ∈ ls)) := by
  induction ls generalizing m with
  | nil => simp
  | cons l ls ih =>
    rw [List.foldl_cons, ih, BitVec.getLsbD_or, getLsbD_bitM hj]
    simp only [List.mem_cons, Bool.decide_or, Bool.or_assoc]

theorem getLsbD_maskOf (ls : List Nat) {j : Nat} (hj : j < 64) : (maskOf ls).getLsbD j = decide (j ∈ ls) := by
  rw [maskOf, getLsbD_foldl_or_bitM ls 0 hj]
  simp

theorem decide_mem_lanes (m : LaneMask) {l : Nat} (hl : l < 64) : decide (l ∈ lanes m) = m.getLsbD l := by
  simp only [mem_lanes, hl, true_and, Bool.decide_eq_true]

/-- A list of lanes is empty exactly where its mask is. -/
theorem maskOf_eq_zero_iff {ls : List Nat} (h : ∀ l ∈ ls, l < 64) : maskOf ls = 0 ↔ ls = [] := by
  refine ⟨fun zero => List.eq_nil_iff_forall_not_mem.mpr fun l hl => ?_, fun nil => congrArg maskOf nil⟩
  have bit : (maskOf ls).getLsbD l = true := by rw [getLsbD_maskOf ls (h l hl), decide_eq_true hl]
  rw [zero] at bit
  exact Bool.false_ne_true (BitVec.getLsbD_zero.symm.trans bit)

theorem maskOf_filter_lanes_eq_zero_iff (m : LaneMask) (p : Nat → Bool) :
    maskOf ((lanes m).filter p) = 0 ↔ (lanes m).filter p = [] :=
  maskOf_eq_zero_iff fun _ hl => (mem_lanes.mp (List.mem_filter.mp hl).1).1

theorem getLsbD_sentTo_nil (a : VAddr) (l : Nat) : (sentTo [] a).getLsbD l = false := BitVec.getLsbD_zero

theorem getLsbD_sentTo_cons (b : VAddr) (m : LaneMask) (next : List (VAddr × LaneMask)) (a : VAddr) (l : Nat) :
    (sentTo ((b, m) :: next) a).getLsbD l = (m.getLsbD l && decide (b = a) || (sentTo next a).getLsbD l) := by
  rw [sentTo_cons, BitVec.getLsbD_or]
  by_cases h : b = a <;> simp [h]

/-- Lanes sent one by one, each to its own address. -/
theorem getLsbD_sentTo_each (ls : List Nat) (f : Nat → VAddr) (a : VAddr) {j : Nat} (hj : j < 64) :
    (sentTo (ls.map fun l => (f l, bitM 64 l)) a).getLsbD j = (decide (j ∈ ls) && decide (f j = a)) := by
  induction ls with
  | nil => simp [getLsbD_sentTo_nil]
  | cons l ls ih =>
    rw [List.map_cons, getLsbD_sentTo_cons, ih, getLsbD_bitM hj]
    by_cases h : j = l
    · subst h; simp
    · simp [h]

theorem guardMask_subset (c : Ctx) (g : Option Guard) {l : Nat} (hl : l < 64)
    (h : (c.guardMask g).getLsbD l = true) : c.mask.getLsbD l = true := by
  cases g with
  | none => exact h
  | some g =>
    rw [Ctx.guardMask, getLsbD_maskOf _ hl, decide_eq_true_eq] at h
    exact (mem_lanes.mp (List.mem_filter.mp h).1).2

/-! Transfers to a fixed target (R138, R140). -/

/-- The lanes of a guard go to one address, those outside it to another. -/
theorem getLsbD_sentTo_branch {m n : LaneMask} (x y a : VAddr) {l : Nat} (hl : l < 64)
    (sub : m.getLsbD l = true → n.getLsbD l = true) :
    (sentTo [(x, m), (y, n &&& ~~~m)] a).getLsbD l =
      (n.getLsbD l && decide (some (if m.getLsbD l then x else y) = some a)) := by
  rw [getLsbD_sentTo_cons, getLsbD_sentTo_cons, getLsbD_sentTo_nil, BitVec.getLsbD_and, BitVec.getLsbD_not]
  cases hm : m.getLsbD l with
  | true => simp [sub hm]
  | false => simp [hl]

theorem exec_bra {s : State} {c : Ctx} {g : Option Guard} (off : BitVec 48) (h : s.ctx? = some c)
    (hg : c.guardBad g = 0) : exec (.bra g off) s = .next (s.endClause c c.t
      [(c.relTarget off, c.guardMask g), (c.fallThrough, c.mask &&& ~~~c.guardMask g)]) := by
  have run : exec (.bra g off) s = .next (s.branch c g (c.relTarget off)) := onTroupe_some h _
  rw [run, State.branch, if_neg (not_not_intro hg)]

theorem exec_call {s : State} {c : Ctx} {off : BitVec 48} (h : AtIssue s c (.call off) c.mask) :
    exec (.call off) s = .next (s.endClause c c.linked [(c.relTarget off, c.mask)]) := by
  obtain ⟨ctx, ready⟩ := h
  exact (onTroupe_some ctx _).trans (congrArg _ (whenReady_go _ ready))

/-- R140: the link address in v188:v189 of the path's lanes. -/
theorem linked_written (c : Ctx) :
    VWritten c.t c.linked c.mask 188 2 (fun _ => c.fallThrough.toNat) (fun _ => false) (fun _ => false) :=
  write_v c.t c.mask ((Reg.v 188).opnd 2) false _ 188 rfl (by decide)

/-! The checks of a register target (R139). -/

/-- The target register of a transfer, as it stands in a lane. -/
def Ctx.target (c : Ctx) (r : Reg) (l : Nat) : Nat := c.t.value l (r.opnd 2)

def Ctx.targetPoisoned (c : Ctx) (r : Reg) (l : Nat) : Bool := c.t.poisoned l (r.opnd 2)

/-- The target is read without poison, and is misaligned or past 2^57. -/
def Ctx.targetWrong (c : Ctx) (r : Reg) (l : Nat) : Bool :=
  !c.targetPoisoned r l && decide (c.target r l % 8 ≠ 0 ∨ 2 ^ 57 ≤ c.target r l)

/-- The target passes both checks. -/
def Ctx.TargetFits (c : Ctx) (r : Reg) (l : Nat) : Prop :=
  c.targetPoisoned r l = false ∧ c.target r l % 8 = 0 ∧ c.target r l < 2 ^ 57

/-- The cause that a lane's target raises, in terms of the two checks. -/
theorem targetCauses_eq (c : Ctx) (r : Reg) (m : LaneMask) :
    c.targetCauses r m = (lanes m).filterMap fun l =>
      if c.targetPoisoned r l then some ⟨l, causePoison, 0⟩
      else if c.targetWrong r l then some ⟨l, causeAlign, c.target r l⟩ else none := by
  refine congrArg (List.filterMap · (lanes m)) (funext fun l => ?_)
  unfold Ctx.targetWrong
  cases hp : c.targetPoisoned r l with
  | true => exact if_pos hp
  | false =>
    refine (if_neg (Bool.eq_false_iff.mp hp)).trans ?_
    rw [if_neg Bool.false_ne_true, Bool.not_false, Bool.true_and]
    exact ite_congr decide_eq_true_eq.symm (fun _ => rfl) fun _ => rfl

/-- The lanes that raise ALIGN, in rising order. -/
theorem targetCauses_align (c : Ctx) (r : Reg) (m : LaneMask) :
    (c.targetCauses r m).filter (fun x => decide (x.cause = causeAlign)) =
      ((lanes m).filter (c.targetWrong r)).map fun l => ⟨l, causeAlign, c.target r l⟩ := by
  rw [targetCauses_eq, List.filter_filterMap, ← List.filterMap_eq_map, List.filterMap_filter]
  refine congrArg (List.filterMap · (lanes m)) (funext fun l => ?_)
  by_cases hp : c.targetPoisoned r l = true
  · simp [hp, Ctx.targetWrong, causeAlign, causePoison]
  · by_cases hw : c.targetWrong r l = true <;> simp [hp, hw]

/-- The lanes that raise POISON, in rising order. -/
theorem targetCauses_poison (c : Ctx) (r : Reg) (m : LaneMask) :
    (c.targetCauses r m).filter (fun x => decide (x.cause = causePoison)) =
      ((lanes m).filter (c.targetPoisoned r)).map fun l => ⟨l, causePoison, 0⟩ := by
  rw [targetCauses_eq, List.filter_filterMap, ← List.filterMap_eq_map, List.filterMap_filter]
  refine congrArg (List.filterMap · (lanes m)) (funext fun l => ?_)
  by_cases hp : c.targetPoisoned r l = true
  · simp [hp]
  · by_cases hw : c.targetWrong r l = true <;> simp [hp, hw, causeAlign, causePoison]

theorem mem_targetCauses {c : Ctx} {r : Reg} {m : LaneMask} {x : LaneCause} (h : x ∈ c.targetCauses r m) :
    x.cause = causePoison ∨ x.cause = causeAlign ∧ x.lane ∈ (lanes m).filter (c.targetWrong r) := by
  rw [targetCauses_eq, List.mem_filterMap] at h
  obtain ⟨l, hl, hx⟩ := h
  split at hx
  · cases hx
    exact .inl rfl
  · split at hx
    · rename_i hw
      cases hx
      exact .inr ⟨rfl, List.mem_filter.mpr ⟨hl, hw⟩⟩
    · cases hx

theorem targetCauses_nil {c : Ctx} {r : Reg} {m : LaneMask}
    (fits : ∀ l < 64, m.getLsbD l = true → c.TargetFits r l) : c.targetCauses r m = [] := by
  refine List.filterMap_eq_nil_iff.mpr fun l hl => ?_
  obtain ⟨lt, inMask⟩ := mem_lanes.mp hl
  obtain ⟨clean, aligned, small⟩ := fits l lt inMask
  have right : ¬(c.target r l % 8 ≠ 0 ∨ 2 ^ 57 ≤ c.target r l) := by omega
  exact (if_neg (Bool.eq_false_iff.mp clean)).trans (if_neg right)

/-! The lowest cause over the lanes (R81). -/

theorem minNat_eq_min? (l : List Nat) : minNat l = l.min? := by
  induction l with
  | nil => rfl
  | cons a l ih =>
    rw [minNat, ih, List.min?_cons]
    cases l.min? <;> rfl

theorem minNat_eq_some_iff {l : List Nat} {a : Nat} : minNat l = some a ↔ a ∈ l ∧ ∀ b ∈ l, a ≤ b := by
  rw [minNat_eq_min?, List.min?_eq_some_iff]

theorem exists_minNat {l : List Nat} (h : l ≠ []) : ∃ a, minNat l = some a := by
  rw [minNat_eq_min?]
  exact Option.ne_none_iff_exists'.mp (mt List.min?_eq_none_iff.mp h)

/-- A cause that some lanes raise and no lane undercuts is the one that is taken, for those lanes and their lowest
address. -/
theorem lowestCause_of_filter {cs : List LaneCause} {k : BitVec 8} {ls : List Nat} {addr : Nat → Nat}
    (raise : cs.filter (fun x => decide (x.cause = k)) = ls.map fun l => ⟨l, k, addr l⟩) (some_lane : ls ≠ [])
    (least : ∀ x ∈ cs, k.toNat ≤ x.cause.toNat) :
    lowestCause cs = some (k, maskOf ls, (minNat (ls.map addr)).getD 0) := by
  obtain ⟨l, hl⟩ := List.exists_mem_of_ne_nil ls some_lane
  have raised : ⟨l, k, addr l⟩ ∈ cs := (List.mem_filter.mp (raise ▸ List.mem_map_of_mem hl)).1
  have lowest : minNat (cs.map fun x => x.cause.toNat) = some k.toNat := by
    refine minNat_eq_some_iff.mpr ⟨List.mem_map.mpr ⟨_, raised, rfl⟩, fun b hb => ?_⟩
    obtain ⟨x, hx, rfl⟩ := List.mem_map.mp hb
    exact least x hx
  rw [lowestCause, lowest]
  simp only [BitVec.toNat_inj, BitVec.ofNat_toNat, BitVec.setWidth_eq, raise, List.map_map, Function.comp_def,
    List.map_id']

/-- ALIGN is the lower of the two causes of a target; its address is the lowest of the wrong targets. -/
theorem lowestCause_align {c : Ctx} {r : Reg} {m : LaneMask} (wrong : (lanes m).filter (c.targetWrong r) ≠ []) :
    ∃ k ∈ (lanes m).filter (c.targetWrong r),
      (∀ l ∈ (lanes m).filter (c.targetWrong r), c.target r k ≤ c.target r l) ∧
      lowestCause (c.targetCauses r m) =
        some (causeAlign, maskOf ((lanes m).filter (c.targetWrong r)), c.target r k) := by
  obtain ⟨a, lowest⟩ := exists_minNat (mt (List.map_eq_nil_iff (f := c.target r)).mp wrong)
  obtain ⟨found, least⟩ := minNat_eq_some_iff.mp lowest
  obtain ⟨k, hk, rfl⟩ := List.mem_map.mp found
  refine ⟨k, hk, fun l hl => least _ (List.mem_map_of_mem hl), ?_⟩
  rw [lowestCause_of_filter (targetCauses_align c r m) wrong, lowest, Option.getD_some]
  intro x hx
  rcases mem_targetCauses hx with poison | ⟨align, -⟩
  · rw [poison]
    exact (by decide : causeAlign.toNat ≤ causePoison.toNat)
  · exact Nat.le_of_eq (congrArg BitVec.toNat align.symm)

theorem lowestCause_poison {c : Ctx} {r : Reg} {m : LaneMask} (noneWrong : (lanes m).filter (c.targetWrong r) = [])
    (bad : (lanes m).filter (c.targetPoisoned r) ≠ []) :
    ∃ a, lowestCause (c.targetCauses r m) =
      some (causePoison, maskOf ((lanes m).filter (c.targetPoisoned r)), a) := by
  refine ⟨_, lowestCause_of_filter (targetCauses_poison c r m) bad fun x hx => ?_⟩
  rcases mem_targetCauses hx with poison | ⟨-, wrong⟩
  · exact Nat.le_of_eq (congrArg BitVec.toNat poison.symm)
  · exact absurd (noneWrong ▸ wrong) List.not_mem_nil

/-! Transfers to a register target (R139 to R141). -/

/-- With no poisoned guard, the targets alone decide. -/
theorem unguarded_causes (c : Ctx) (r : Reg) (m : LaneMask) :
    (lanes 0).map (fun l => LaneCause.mk l causePoison 0) ++ c.targetCauses r (m &&& ~~~0) = c.targetCauses r m := by
  have whole : m &&& ~~~(0 : LaneMask) = m := BitVec.and_allOnes
  rw [whole]
  rfl

theorem goto_raises {c : Ctx} {r : Reg} {m : LaneMask} {k : BitVec 8} {ls : LaneMask} {a : Nat} (s : State) (t : Troupe)
    (h : lowestCause (c.targetCauses r m) = some (k, ls, a)) :
    s.goto c t r m 0 = s.raise c k 0 (if k = causeAlign then BitVec.ofNat 64 a else 0) ls := by
  rw [State.goto, unguarded_causes, h]

theorem goto_ends {c : Ctx} {r : Reg} {m : LaneMask} (s : State) (t : Troupe) (h : c.targetCauses r m = []) :
    s.goto c t r m 0 = s.endClause c t
      (((lanes m).map fun l => (BitVec.ofNat 57 (c.target r l), bitM 64 l)) ++ [(c.fallThrough, c.mask &&& ~~~m)]) := by
  rw [State.goto, unguarded_causes, h]
  rfl

theorem exec_brx {s : State} {c : Ctx} {g : Option Guard} {r : Reg} (h : AtIssue s c (.brx g r) (c.guardMask g))
    (hg : c.guardBad g = 0) : exec (.brx g r) s = .next (s.goto c c.t r (c.guardMask g) 0) := by
  obtain ⟨ctx, ready⟩ := h
  rw [← hg]
  exact (onTroupe_some ctx _).trans (congrArg _ (whenReady_go _ ready))

theorem exec_callx {s : State} {c : Ctx} {r : Reg} (h : AtIssue s c (.callx r) c.mask) :
    exec (.callx r) s = .next (s.goto c c.linked r c.mask 0) := by
  obtain ⟨ctx, ready⟩ := h
  exact (onTroupe_some ctx _).trans (congrArg _ (whenReady_go _ ready))

theorem exec_ret {s : State} {c : Ctx} {r : Reg} (h : AtIssue s c (.ret r) c.mask) :
    exec (.ret r) s = .next (s.goto c c.t r c.mask 0) := by
  obtain ⟨ctx, ready⟩ := h
  exact (onTroupe_some ctx _).trans (congrArg _ (whenReady_go _ ready))

/-- The lanes of m go each to its own target, the other lanes of n to one address. -/
theorem getLsbD_sentTo_targets {m n : LaneMask} (f : Nat → VAddr) (y a : VAddr) {l : Nat} (hl : l < 64)
    (sub : m.getLsbD l = true → n.getLsbD l = true) :
    (sentTo (((lanes m).map fun l => (f l, bitM 64 l)) ++ [(y, n &&& ~~~m)]) a).getLsbD l =
      (n.getLsbD l && decide (some (if m.getLsbD l then f l else y) = some a)) := by
  rw [sentTo_append, BitVec.getLsbD_or, getLsbD_sentTo_each _ _ _ hl, decide_mem_lanes m hl, getLsbD_sentTo_cons,
    getLsbD_sentTo_nil, BitVec.getLsbD_and, BitVec.getLsbD_not]
  cases hm : m.getLsbD l with
  | true => simp [sub hm]
  | false => simp [hl]

/-- Where every target fits, each lane of m is at its target afterwards, the rest of the path at the fall-through. -/
theorem goto_moves {s : State} {c : Ctx} {i : Instr} {P : Troupe → Prop} {t : Troupe} {r : Reg} {m : LaneMask}
    (ctx : s.ctx? = some c) (run : exec i s = .next (s.goto c t r m 0)) (hP : P t)
    (fits : ∀ l < 64, m.getLsbD l = true → c.TargetFits r l)
    (sub : ∀ l < 64, m.getLsbD l = true → c.mask.getLsbD l = true) :
    Moves s c i P fun l => some (if m.getLsbD l then BitVec.ofNat 57 (c.target r l) else c.fallThrough) := by
  rw [goto_ends s t (targetCauses_nil fits)] at run
  exact endClause_moves s (.refl s) run (ctx_key ctx) hP fun a l hl =>
    getLsbD_sentTo_targets (fun l => BitVec.ofNat 57 (c.target r l)) c.fallThrough a hl (sub l hl)

/-- Only where the lanes of the path go matters. -/
theorem Moves.congr {s : State} {c : Ctx} {i : Instr} {P : Troupe → Prop} {dest dest' : Nat → Option VAddr}
    (h : Moves s c i P dest) (same : ∀ l, c.mask.getLsbD l = true → dest l = dest' l) : Moves s c i P dest' := by
  obtain ⟨s', t, t', run, hP, found, issue, current, moved, rest, outside⟩ := h
  refine ⟨s', t, t', run, hP, found, issue, current, fun a l hl => ?_, rest, outside⟩
  rw [moved a l hl]
  cases hm : c.mask.getLsbD l with
  | true => rw [same l hm]
  | false => rw [Bool.false_and, Bool.false_and]

/-- A transfer of the whole path to a register target. -/
theorem goto_moves_path {s : State} {c : Ctx} {i : Instr} {P : Troupe → Prop} {t : Troupe} {r : Reg}
    (ctx : s.ctx? = some c) (run : exec i s = .next (s.goto c t r c.mask 0)) (hP : P t)
    (fits : ∀ l < 64, c.mask.getLsbD l = true → c.TargetFits r l) :
    Moves s c i P fun l => some (BitVec.ofNat 57 (c.target r l)) :=
  (goto_moves ctx run hP fits fun _ _ h => h).congr fun _ h => congrArg some (if_pos h)

theorem transferResults : TransferResults := by
  intro s c g off r
  refine ⟨fun ctx hg => ?bra, fun h hg fits => ?brx, fun h => ?call, fun h fits => ?callx, fun h fits => ?ret⟩
  case bra =>
    exact endClause_moves s (.refl s) (exec_bra off ctx hg) (ctx_key ctx) rfl fun a l hl =>
      getLsbD_sentTo_branch (c.relTarget off) c.fallThrough a hl (guardMask_subset c g hl)
  case brx => exact goto_moves h.1 (exec_brx h hg) rfl fits fun _ hl => guardMask_subset c g hl
  case call =>
    refine endClause_moves s (.refl s) (exec_call h) (ctx_key h.1) (linked_written c) fun a l hl => ?_
    rw [getLsbD_sentTo_cons, getLsbD_sentTo_nil, Bool.or_false]
    exact congrArg (c.mask.getLsbD l && ·) (decide_eq_decide.mpr Option.some_inj.symm)
  case callx => exact goto_moves_path h.1 (exec_callx h) (linked_written c) fits
  case ret => exact goto_moves_path h.1 (exec_ret h) rfl fits

/-- Each transfer to a register target is the shared one, whatever it leaves of its troupe. -/
theorem exec_goto {s : State} {c : Ctx} {r : Reg} {i : Instr} {m : LaneMask}
    (hi : i = .callx r ∧ m = c.mask ∨ i = .ret r ∧ m = c.mask ∨
      ∃ g, i = .brx g r ∧ m = c.guardMask g ∧ c.guardBad g = 0) (h : AtIssue s c i m) :
    ∃ t, exec i s = .next (s.goto c t r m 0) := by
  rcases hi with ⟨rfl, rfl⟩ | ⟨rfl, rfl⟩ | ⟨g, rfl, rfl, hg⟩
  · exact ⟨_, exec_callx h⟩
  · exact ⟨_, exec_ret h⟩
  · exact ⟨_, exec_brx h hg⟩

theorem transferTargetTraps : TransferTargetTraps := by
  intro s c r i m hi h
  obtain ⟨t, run⟩ := exec_goto hi h
  have wrong_bit : ∀ l < 64, (maskOf ((lanes m).filter (c.targetWrong r))).getLsbD l = true ↔
      l ∈ (lanes m).filter (c.targetWrong r) := fun l hl => by rw [getLsbD_maskOf _ hl, decide_eq_true_iff]
  refine ⟨fun wrong => ?align, fun noneWrong bad => ?poison⟩
  case align =>
    obtain ⟨k, hk, least, lowest⟩ := lowestCause_align (mt (maskOf_filter_lanes_eq_zero_iff m _).mpr wrong)
    have lt : k < 64 := (mem_lanes.mp (List.mem_filter.mp hk).1).1
    exact ⟨k, lt, (wrong_bit k lt).mpr hk, fun l hl hw => least l ((wrong_bit l hl).mp hw),
      run.trans (congrArg _ (goto_raises s t lowest))⟩
  case poison =>
    obtain ⟨a, lowest⟩ := lowestCause_poison ((maskOf_filter_lanes_eq_zero_iff m _).mp noneWrong)
      (mt (maskOf_filter_lanes_eq_zero_iff m _).mpr bad)
    exact run.trans (congrArg _ (goto_raises s t lowest))

/-- Settles O20: a transfer whose target passes ends the clause with its lanes sent on; the others raise the lowest
cause among those of the lanes. -/
theorem transferOutcomes : Obligations.TransferOutcomes := ⟨transferResults, transferTargetTraps⟩

/-! Where the access of a lane lies (R156). -/

/-- An index past the last element has no coordinates. -/
theorem indexes_none {r : BufRec} {n : Nat}
    (h : r.ndims = 1 ∧ r.extent0 ≤ n ∨ r.ndims = 2 ∧ r.extent0 * r.extent1 ≤ n ∨
      r.ndims = 3 ∧ r.extent0 * r.extent1 * r.extent2 ≤ n) : r.indexes n = none := by
  unfold BufRec.indexes
  rcases h with ⟨dims, past⟩ | ⟨dims, past⟩ | ⟨dims, past⟩
  all_goals
    rw [dims]
    exact if_pos past

theorem indexes_one {r : BufRec} {n : Nat} (dims : r.ndims = 1) (h : n < r.extent0) :
    r.indexes n = some (n, 0, 0) := by
  unfold BufRec.indexes
  rw [dims]
  exact if_neg (Nat.not_le.mpr h)

/-- A pair of coordinates stays below the product of their extents. -/
theorem flat_lt {i j m n : Nat} (hi : i < m) (hj : j < n) : i + m * j < m * n :=
  calc i + m * j < m + m * j := Nat.add_lt_add_right hi _
    _ = m * (j + 1) := by rw [Nat.mul_succ, Nat.add_comm]
    _ ≤ m * n := Nat.mul_le_mul_left m hj

theorem flat_mod {i m : Nat} (hi : i < m) (j : Nat) : (i + m * j) % m = i := by
  rw [Nat.add_mul_mod_self_left, Nat.mod_eq_of_lt hi]

theorem flat_div {i m : Nat} (hi : i < m) (j : Nat) : (i + m * j) / m = j := by
  rw [Nat.add_mul_div_left _ _ (Nat.zero_lt_of_lt hi), Nat.div_eq_of_lt hi, Nat.zero_add]

theorem indexes_two {r : BufRec} {i0 i1 : Nat} (dims : r.ndims = 2) (h0 : i0 < r.extent0) (h1 : i1 < r.extent1) :
    r.indexes (i0 + r.extent0 * i1) = some (i0, i1, 0) := by
  unfold BufRec.indexes
  rw [dims]
  refine (if_neg (Nat.not_le.mpr (flat_lt h0 h1))).trans ?_
  rw [flat_mod h0, flat_div h0]

theorem indexes_three {r : BufRec} {i0 i1 i2 : Nat} (dims : r.ndims = 3) (h0 : i0 < r.extent0) (h1 : i1 < r.extent1)
    (h2 : i2 < r.extent2) : r.indexes (i0 + r.extent0 * (i1 + r.extent1 * i2)) = some (i0, i1, i2) := by
  have inside : i0 + r.extent0 * (i1 + r.extent1 * i2) < r.extent0 * r.extent1 * r.extent2 := by
    rw [Nat.mul_assoc]
    exact flat_lt h0 (flat_lt h1 h2)
  unfold BufRec.indexes
  rw [dims]
  refine (if_neg (Nat.not_le.mpr inside)).trans ?_
  rw [← Nat.div_div_eq_div_mul, flat_mod h0, flat_div h0, flat_mod h1, flat_div h1]

/-- An access of wb bytes at a stays below the end of its record's space. -/
def BufRec.Fits (r : BufRec) (wb limit a : Nat) : Prop := if r.space = 0 then a + wb ≤ 2 ^ 57 else a + wb ≤ limit

theorem to_or_bad_of_limit {wb limit a : Nat} {x : Addr} (h : x = if limit < a + wb then .bad else .to a) :
    (a + wb ≤ limit → x = .to a) ∧ (¬a + wb ≤ limit → x = .bad) :=
  ⟨fun fits => h.trans (if_neg (Nat.not_lt.mpr fits)), fun past => h.trans (if_pos (Nat.lt_of_not_le past))⟩

/-- Each space has its own limit; either test is whether the access fits. -/
theorem to_or_bad_of_space {r : BufRec} {wb limit a : Nat} {x : Addr}
    (h : x = if r.space = 0 then (if 2 ^ 57 < a + wb then .bad else .to a)
      else if limit < a + wb then .bad else .to a) :
    (r.Fits wb limit a → x = .to a) ∧ (¬r.Fits wb limit a → x = .bad) := by
  unfold BufRec.Fits
  by_cases space : r.space = 0
  · rw [if_pos space] at h ⊢
    exact to_or_bad_of_limit h
  · rw [if_neg space] at h ⊢
    exact to_or_bad_of_limit h

/-- The byte address of an element by its coordinates. -/
def BufRec.elementAt (r : BufRec) (i0 i1 i2 : Nat) : Nat :=
  r.base + i0 * 2 ^ r.esize + i1 * r.stride1 + i2 * r.stride2

/-- What an access of wb bytes at coordinates gives: out of its row, at its element, or past the limit. -/
def BufRec.Placed (r : BufRec) (wb limit i0 i1 i2 : Nat) (x : Addr) : Prop :=
  (r.extent0 * 2 ^ r.esize < i0 * 2 ^ r.esize + wb → x = .out) ∧
  (i0 * 2 ^ r.esize + wb ≤ r.extent0 * 2 ^ r.esize → r.Fits wb limit (r.elementAt i0 i1 i2) →
    x = .to (r.elementAt i0 i1 i2)) ∧
  (i0 * 2 ^ r.esize + wb ≤ r.extent0 * 2 ^ r.esize → ¬r.Fits wb limit (r.elementAt i0 i1 i2) → x = .bad)

theorem addressOf_outside {r : BufRec} {idx : Nat} {off : Int} (wb limit : Nat)
    (h : ((idx % 2 ^ 32 : Nat) : Int) + off < 0 ∨ ((2 ^ 32 : Nat) : Int) ≤ ((idx % 2 ^ 32 : Nat) : Int) + off) :
    r.addressOf idx off wb limit = .out := if_pos h

section
variable {r : BufRec} {idx n : Nat} {off : Int} (wb limit : Nat)
  (hx : ((idx % 2 ^ 32 : Nat) : Int) + off = n) (hn : n < 2 ^ 32)
include hx hn

theorem addressOf_of_indexes_none (h : r.indexes n = none) : r.addressOf idx off wb limit = .out := by
  unfold BufRec.addressOf uval
  rw [hx]
  refine (if_neg (by omega)).trans ?_
  rw [Int.toNat_natCast, h]

theorem addressOf_of_indexes_some {i0 i1 i2 : Nat} (h : r.indexes n = some (i0, i1, i2)) :
    r.Placed wb limit i0 i1 i2 (r.addressOf idx off wb limit) := by
  have unfolded : r.addressOf idx off wb limit =
      if r.extent0 * 2 ^ r.esize < i0 * 2 ^ r.esize + wb then .out
      else if r.space = 0 then (if 2 ^ 57 < r.elementAt i0 i1 i2 + wb then .bad else .to (r.elementAt i0 i1 i2))
      else if limit < r.elementAt i0 i1 i2 + wb then .bad else .to (r.elementAt i0 i1 i2) := by
    unfold BufRec.addressOf uval
    rw [hx]
    refine (if_neg (by omega)).trans ?_
    rw [Int.toNat_natCast, h]
    rfl
  have tested := fun inRow => to_or_bad_of_space (unfolded.trans (if_neg (Nat.not_lt.mpr inRow)))
  exact ⟨fun crosses => unfolded.trans (if_pos crosses), fun inRow => (tested inRow).1,
    fun inRow => (tested inRow).2⟩

end

/-- Settles O26: in each number of dimensions an index past the extents has no coordinates, and one inside them has
those it is made of, by which its access is placed. -/
theorem addressResults : Obligations.AddressResults := by
  intro r idx wb limit off
  refine ⟨addressOf_outside wb limit, fun n hx hn => ⟨fun dims => ?one, fun dims => ?two, fun dims => ?three⟩⟩
  case one =>
    exact ⟨fun past => addressOf_of_indexes_none wb limit hx hn (indexes_none (.inl ⟨dims, past⟩)),
      fun h => addressOf_of_indexes_some wb limit hx hn (indexes_one dims h)⟩
  case two =>
    refine ⟨fun past => addressOf_of_indexes_none wb limit hx hn (indexes_none (.inr (.inl ⟨dims, past⟩))), ?_⟩
    rintro i0 i1 h0 h1 rfl
    exact addressOf_of_indexes_some wb limit hx hn (indexes_two dims h0 h1)
  case three =>
    refine ⟨fun past => addressOf_of_indexes_none wb limit hx hn (indexes_none (.inr (.inr ⟨dims, past⟩))), ?_⟩
    rintro i0 i1 i2 h0 h1 h2 rfl
    exact addressOf_of_indexes_some wb limit hx hn (indexes_three dims h0 h1 h2)

end Sys2Proof.Machine
end

section
/-! PROOFS. Decoding and encoding (R44 to R54): each format and each group of fields, as the parser reads it and as the
encoder writes it. -/

namespace Sys2Proof

/-! Fields of a word, and the words that have given fields. -/

theorem append_eq_append_iff {n m : Nat} (x x' : BitVec n) (y y' : BitVec m) : x ++ y = x' ++ y' ↔ x = x' ∧ y = y' := by
  constructor
  · intro h
    have high := congrArg (BitVec.extractLsb' m n) h
    have low := congrArg (BitVec.extractLsb' 0 m) h
    rw [BitVec.extractLsb'_append_eq_left, BitVec.extractLsb'_append_eq_left] at high
    rw [BitVec.extractLsb'_append_eq_right, BitVec.extractLsb'_append_eq_right] at low
    exact ⟨high, low⟩
  · rintro ⟨rfl, rfl⟩
    rfl

/-- Neighbouring fields read as one. -/
theorem fld_add (w : W64) (lo n m : Nat) : fld w lo (n + m) = fld w (lo + m) n ++ fld w lo m := by
  apply BitVec.eq_of_getLsbD_eq
  intro i hi
  simp only [fld, BitVec.getLsbD_append, BitVec.getLsbD_extractLsb']
  split
  · rw [decide_eq_true hi, decide_eq_true ‹i < m›]
  · rw [decide_eq_true hi, decide_eq_true (show i - m < n by omega)]
    congr 2
    omega

theorem fld_append_iff (w : W64) (lo n m : Nat) (x : BitVec n) (y : BitVec m) :
    x ++ y = fld w lo (n + m) ↔ x = fld w (lo + m) n ∧ y = fld w lo m := by
  rw [fld_add, append_eq_append_iff]

theorem ofBool_eq_fld_iff (w : W64) (n : Nat) (b : Bool) : BitVec.ofBool b = fld w n 1 ↔ b = w.getLsbD n := by
  constructor
  · intro h
    have := congrArg (fun v => v.getLsbD 0) h
    simpa [fld] using this
  · rintro rfl
    apply BitVec.eq_of_getLsbD_eq
    intro i hi
    obtain rfl : i = 0 := by omega
    simp [fld]

theorem fld_whole (w : W64) : fld w 0 64 = w := BitVec.extractLsb'_eq_self

/-- A zero field is zero in each of its parts. -/
theorem zero_eq_fld_add_iff (w : W64) (lo n m : Nat) :
    0#(n + m) = fld w lo (n + m) ↔ 0#n = fld w (lo + m) n ∧ 0#m = fld w lo m := by
  rw [← fld_append_iff, BitVec.zero_append_zero]

theorem zero_eq_fld_one_iff (w : W64) (n : Nat) : 0#1 = fld w n 1 ↔ w.getLsbD n = false :=
  (ofBool_eq_fld_iff w n false).trans eq_comm

theorem encR_eq_iff (op d a b c : BitVec 8) (fea feb fec : Bool) (g : BitVec 5) (m : BitVec 16) (w : W64) :
    encR op d a b c fea feb fec g m = w ↔ op = fld w 56 8 ∧ d = fld w 48 8 ∧ a = fld w 40 8 ∧ b = fld w 32 8 ∧
      c = fld w 24 8 ∧ fea = w.getLsbD 23 ∧ feb = w.getLsbD 22 ∧ fec = w.getLsbD 21 ∧ g = fld w 16 5 ∧
      m = fld w 0 16 := by
  conv => lhs; rw [← fld_whole w]
  unfold encR
  repeat rw [fld_append_iff]
  simp only [ofBool_eq_fld_iff, and_assoc]

theorem encI_eq_iff (op d a : BitVec 8) (fea : Bool) (imm : W32) (w : W64) :
    encI op d a fea imm = w ↔ op = fld w 56 8 ∧ d = fld w 48 8 ∧ a = fld w 40 8 ∧ fea = w.getLsbD 39 ∧
      0#7 = fld w 32 7 ∧ imm = fld w 0 32 := by
  conv => lhs; rw [← fld_whole w]
  unfold encI
  repeat rw [fld_append_iff]
  simp only [ofBool_eq_fld_iff, and_assoc]

theorem encX_eq_iff (op d : BitVec 8) (sa sb sc : SReg) (m : BitVec 30) (w : W64) :
    encX op d sa sb sc m = w ↔ op = fld w 56 8 ∧ d = fld w 48 8 ∧ BitVec.ofFin sa = fld w 42 6 ∧
      BitVec.ofFin sb = fld w 36 6 ∧ BitVec.ofFin sc = fld w 30 6 ∧ m = fld w 0 30 := by
  conv => lhs; rw [← fld_whole w]
  unfold encX
  repeat rw [fld_append_iff]
  simp only [and_assoc]

theorem encC_eq_iff (op : BitVec 8) (g : BitVec 5) (kind : BitVec 3) (target : BitVec 48) (w : W64) :
    encC op g kind target = w ↔ op = fld w 56 8 ∧ g = fld w 51 5 ∧ kind = fld w 48 3 ∧ target = fld w 0 48 := by
  conv => lhs; rw [← fld_whole w]
  unfold encC
  repeat rw [fld_append_iff]
  simp only [and_assoc]

/-! Steps of the parser. -/

@[simp] theorem bind_eq_ok {α β : Type} {x : Parse α} {f : α → Parse β} {b : β} :
    (x >>= f) = .ok b ↔ ∃ a, x = .ok a ∧ f a = .ok b := by
  cases x with
  | ok a => exact ⟨fun h => ⟨a, rfl, h⟩, fun ⟨_, h, k⟩ => by cases h; exact k⟩
  | error e => exact ⟨nofun, fun ⟨_, h, _⟩ => nomatch h⟩

@[simp] theorem pure_eq_ok {α : Type} {a b : α} : (pure a : Parse α) = .ok b ↔ a = b :=
  ⟨fun h => Except.ok.inj h, fun h => h ▸ rfl⟩

@[simp] theorem map_eq_ok {α β : Type} {x : Parse α} {f : α → β} {b : β} :
    (f <$> x : Parse β) = .ok b ↔ ∃ a, x = .ok a ∧ f a = b := by
  rw [map_eq_pure_bind, bind_eq_ok]
  simp only [pure_eq_ok]

@[simp] theorem zeroField_eq_ok {w : W64} {lo len : Nat} {u : Unit} : zeroField w lo len = .ok u ↔ 0#len = fld w lo len := by
  unfold zeroField
  split
  · exact iff_of_true rfl (Eq.symm ‹_›)
  · exact iff_of_false nofun (Ne.symm ‹_›)

@[simp] theorem kindIs_eq_ok {w : W64} {k : BitVec 3} {u : Unit} : kindIs w k = .ok u ↔ k = fld w 48 3 := by
  unfold kindIs
  split
  · exact iff_of_true rfl (Eq.symm ‹_›)
  · exact iff_of_false nofun (Ne.symm ‹_›)

theorem permitted_eq_ok {α : Type} {o : Option α} {a : α} : permitted o = .ok a ↔ o = some a := by
  cases o with
  | none => exact ⟨nofun, nofun⟩
  | some b => exact ⟨fun h => congrArg _ (Except.ok.inj h), fun h => congrArg _ (Option.some.inj h)⟩

/-- What a parser accepts, where a branch refuses. -/
@[simp] theorem error_ne_ok {α : Type} {e : Illegal} {a : α} : ((.error e : Parse α) = .ok a) = False := eq_false nofun

/-! Codes: a field holds the code of what is read from it. -/

theorem permitted_ofCode {T : Type} {k : Nat} {ofCode : Nat → Option T} {code : T → BitVec k}
    (back : ∀ x, ofCode (code x).toNat = some x) (forth : ∀ n x, ofCode n = some x → (code x).toNat = n) (b : BitVec k)
    (x : T) : permitted (ofCode b.toNat) = .ok x ↔ code x = b := by
  rw [permitted_eq_ok]
  exact ⟨fun h => BitVec.eq_of_toNat_eq (forth _ x h), fun h => h ▸ back x⟩

@[simp] theorem IntTy.permitted_iff : ∀ (b : BitVec 4) x, permitted (IntTy.ofCode b.toNat) = .ok x ↔ x.code = b :=
  permitted_ofCode IntTy.ofCode_code fun n x h => by
    unfold IntTy.ofCode at h
    split at h <;> cases h <;> rfl

@[simp] theorem ConvTy.permitted_iff : ∀ (b : BitVec 4) x, permitted (ConvTy.ofCode b.toNat) = .ok x ↔ x.code = b :=
  permitted_ofCode ConvTy.ofCode_code fun n x h => by
    unfold ConvTy.ofCode at h
    split at h <;> cases h <;> rfl

@[simp] theorem Rounding.permitted_iff : ∀ (b : BitVec 3) x, permitted (Rounding.ofCode b.toNat) = .ok x ↔ x.code = b :=
  permitted_ofCode Rounding.ofCode_code fun n x h => by
    unfold Rounding.ofCode at h
    split at h <;> cases h <;> rfl

@[simp] theorem FFmt.permitted_iff : ∀ (b : BitVec 4) x, permitted (FFmt.ofCode b.toNat) = .ok x ↔ x.code = b :=
  permitted_ofCode FFmt.ofCode_code fun n x h => by
    unfold FFmt.ofCode at h
    split at h <;> cases h <;> rfl

@[simp] theorem WideFmt.permitted_iff : ∀ (b : BitVec 2) x, permitted (WideFmt.ofCode b.toNat) = .ok x ↔ x.code = b :=
  permitted_ofCode WideFmt.ofCode_code fun n x h => by
    unfold WideFmt.ofCode at h
    split at h <;> cases h <;> rfl

@[simp] theorem MxFmt.permitted_iff : ∀ (b : BitVec 2) x, permitted (MxFmt.ofCode b.toNat) = .ok x ↔ x.code = b :=
  permitted_ofCode MxFmt.ofCode_code fun n x h => by
    unfold MxFmt.ofCode at h
    split at h <;> cases h <;> rfl

@[simp] theorem TileFmt.permitted_iff : ∀ (b : BitVec 2) x, permitted (TileFmt.ofCode b.toNat) = .ok x ↔ x.code = b :=
  permitted_ofCode TileFmt.ofCode_code fun n x h => by
    unfold TileFmt.ofCode at h
    split at h <;> cases h <;> rfl

@[simp] theorem ICond.permitted_iff : ∀ (b : BitVec 3) x, permitted (ICond.ofCode b.toNat) = .ok x ↔ x.code = b :=
  permitted_ofCode ICond.ofCode_code fun n x h => by
    unfold ICond.ofCode at h
    split at h <;> cases h <;> rfl

@[simp] theorem FCond.permitted_iff : ∀ (b : BitVec 4) x, permitted (FCond.ofCode b.toNat) = .ok x ↔ x.code = b :=
  permitted_ofCode FCond.ofCode_code fun n x h => by
    unfold FCond.ofCode at h
    split at h <;> cases h <;> rfl

@[simp] theorem ShflMode.permitted_iff : ∀ (b : BitVec 2) x, permitted (ShflMode.ofCode b.toNat) = .ok x ↔ x.code = b :=
  permitted_ofCode ShflMode.ofCode_code fun n x h => by
    unfold ShflMode.ofCode at h
    split at h <;> cases h <;> rfl

@[simp] theorem VoteMode.permitted_iff : ∀ (b : BitVec 2) x, permitted (VoteMode.ofCode b.toNat) = .ok x ↔ x.code = b :=
  permitted_ofCode VoteMode.ofCode_code fun n x h => by
    unfold VoteMode.ofCode at h
    split at h <;> cases h <;> rfl

@[simp] theorem RedOp.permitted_iff : ∀ (b : BitVec 3) x, permitted (RedOp.ofCode b.toNat) = .ok x ↔ x.code = b :=
  permitted_ofCode RedOp.ofCode_code fun n x h => by
    unfold RedOp.ofCode at h
    split at h <;> cases h <;> rfl

@[simp] theorem FRedOp.permitted_iff : ∀ (b : BitVec 2) x, permitted (FRedOp.ofCode b.toNat) = .ok x ↔ x.code = b :=
  permitted_ofCode FRedOp.ofCode_code fun n x h => by
    unfold FRedOp.ofCode at h
    split at h <;> cases h <;> rfl

@[simp] theorem Special.permitted_iff : ∀ (b : BitVec 8) x, permitted (Special.ofCode b.toNat) = .ok x ↔ x.code = b :=
  permitted_ofCode Special.ofCode_code fun n x h => by
    unfold Special.ofCode at h
    split at h <;> cases h <;> rfl

@[simp] theorem Width.permitted_iff : ∀ (b : BitVec 3) x, permitted (Width.ofCode b.toNat) = .ok x ↔ x.code = b :=
  permitted_ofCode Width.ofCode_code fun n x h => by
    unfold Width.ofCode at h
    split at h <;> cases h <;> rfl

@[simp] theorem AtomOp.permitted_iff : ∀ (b : BitVec 6) x, permitted (AtomOp.ofCode b.toNat) = .ok x ↔ x.code = b :=
  permitted_ofCode AtomOp.ofCode_code fun n x h => by
    unfold AtomOp.ofCode at h
    split at h <;> cases h <;> rfl

@[simp] theorem BField.permitted_iff : ∀ (b : BitVec 4) x, permitted (BField.ofCode b.toNat) = .ok x ↔ x.code = b :=
  permitted_ofCode BField.ofCode_code fun n x h => by
    unfold BField.ofCode at h
    split at h <;> cases h <;> rfl

@[simp] theorem GroupSize.permitted_iff : ∀ (b : BitVec 2) x, permitted (GroupSize.ofCode b.toNat) = .ok x ↔ x.code = b :=
  permitted_ofCode GroupSize.ofCode_code fun n x h => by
    unfold GroupSize.ofCode at h
    split at h <;> cases h <;> rfl

@[simp] theorem XposeBits.permitted_iff : ∀ (b : BitVec 2) x, permitted (XposeBits.ofCode b.toNat) = .ok x ↔ x.code = b :=
  permitted_ofCode XposeBits.ofCode_code fun n x h => by
    unfold XposeBits.ofCode at h
    split at h <;> cases h <;> rfl

@[simp] theorem QstatWhat.permitted_iff : ∀ (b : BitVec 2) x, permitted (QstatWhat.ofCode b.toNat) = .ok x ↔ x.code = b :=
  permitted_ofCode QstatWhat.ofCode_code fun n x h => by
    unfold QstatWhat.ofCode at h
    split at h <;> cases h <;> rfl

@[simp] theorem TlbKind.permitted_iff : ∀ (b : BitVec 4) x, permitted (TlbKind.ofCode b.toNat) = .ok x ↔ x.code = b :=
  permitted_ofCode TlbKind.ofCode_code fun n x h => by
    unfold TlbKind.ofCode at h
    split at h <;> cases h <;> rfl

@[simp] theorem RdcKind.permitted_iff : ∀ (b : BitVec 2) x, permitted (RdcKind.ofCode b.toNat) = .ok x ↔ x.code = b :=
  permitted_ofCode RdcKind.ofCode_code fun n x h => by
    unfold RdcKind.ofCode at h
    split at h <;> cases h <;> rfl

@[simp] theorem fin5_permitted_iff (b : BitVec 3) (n : Fin 5) : permitted (fin5 b.toNat) = .ok n ↔ BitVec.ofNat 3 n.val = b := by
  rw [permitted_eq_ok, ← BitVec.toNat_inj, BitVec.toNat_ofNat, fin5]
  have := b.isLt
  split <;> simp [Fin.ext_iff] <;> omega

@[simp] theorem fin7_permitted_iff (b : BitVec 3) (n : Fin 7) : permitted (fin7 b.toNat) = .ok n ↔ BitVec.ofNat 3 n.val = b := by
  rw [permitted_eq_ok, ← BitVec.toNat_inj, BitVec.toNat_ofNat, fin7]
  have := b.isLt
  split <;> simp [Fin.ext_iff] <;> omega

@[simp] theorem fin192_permitted_iff (b : BitVec 8) (n : Fin 192) :
    permitted (fin192 b.toNat) = .ok n ↔ BitVec.ofNat 8 n.val = b := by
  rw [permitted_eq_ok, ← BitVec.toNat_inj, BitVec.toNat_ofNat, fin192]
  have := b.isLt
  split <;> simp [Fin.ext_iff] <;> omega

/-- A field that is a number itself. -/
theorem toFin_eq_iff {k : Nat} (b : BitVec k) (x : Fin (2 ^ k)) : b.toFin = x ↔ BitVec.ofFin x = b :=
  ⟨fun h => h ▸ rfl, fun h => h ▸ rfl⟩

@[simp] theorem toFin_eq_iff_two (b : BitVec 2) (x : Fin 4) : @Eq (Fin 4) b.toFin x ↔ BitVec.ofFin x = b :=
  toFin_eq_iff b x
@[simp] theorem toFin_eq_iff_three (b : BitVec 3) (x : Fin 8) : @Eq (Fin 8) b.toFin x ↔ BitVec.ofFin x = b :=
  toFin_eq_iff b x
@[simp] theorem toFin_eq_iff_four (b : BitVec 4) (x : Fin 16) : @Eq (Fin 16) b.toFin x ↔ BitVec.ofFin x = b :=
  toFin_eq_iff b x
@[simp] theorem toFin_eq_iff_five (b : BitVec 5) (x : Fin 32) : @Eq (Fin 32) b.toFin x ↔ BitVec.ofFin x = b :=
  toFin_eq_iff b x
@[simp] theorem toFin_eq_iff_six (b : BitVec 6) (x : Fin 64) : @Eq (Fin 64) b.toFin x ↔ BitVec.ofFin x = b :=
  toFin_eq_iff b x

@[simp] theorem Reg.ofCode_eq_iff (b : BitVec 8) (r : Reg) : Reg.ofCode b = r ↔ r.code = b := by
  refine ⟨?_, fun h => h ▸ Reg.ofCode_code r⟩
  rintro rfl
  unfold Reg.ofCode
  split
  · exact BitVec.eq_of_toNat_eq (BitVec.toNat_ofNat ..|>.trans (Nat.mod_eq_of_lt b.isLt))
  · apply BitVec.eq_of_toNat_eq
    simp only [Reg.code, BitVec.toNat_ofNat]
    omega

@[simp] theorem SReg.ofCode_eq_ok (b : BitVec 8) (s : SReg) : SReg.ofCode b = .ok s ↔ sr s = b := by
  have same : Reg.ofCode b = .s s ↔ sr s = b := Reg.ofCode_eq_iff b (.s s)
  rw [← same, SReg.ofCode]
  split
  · rename_i n h
    rw [h]
    exact ⟨fun e => congrArg _ (Except.ok.inj e), fun e => congrArg _ (Reg.s.inj e)⟩
  · rename_i n h
    rw [h]
    exact iff_of_false nofun nofun

@[simp] theorem optSReg_eq_ok (b : BitVec 8) (s : Option SReg) : optSReg b = .ok s ↔ optSReg.code s = b := by
  refine ⟨fun h => ?_, fun h => h ▸ optSReg_code s⟩
  unfold optSReg at h
  split at h
  · cases h
    exact Eq.symm ‹_›
  · obtain ⟨r, found, same⟩ := bind_eq_ok.mp h
    cases pure_eq_ok.mp same
    exact (SReg.ofCode_eq_ok b r).mp found

@[simp] theorem Guard.ofCode_eq_ok (b : BitVec 5) (g : Option Guard) : Guard.ofCode b = .ok g ↔ Guard.code g = b := by
  have back : ∀ b : BitVec 5, b.getLsbD 4 = true → Guard.code (some ⟨b.getLsbD 3, (b.extractLsb' 0 3).toFin⟩) = b := by
    decide
  refine ⟨fun h => ?_, fun h => h ▸ Guard.ofCode_code g⟩
  unfold Guard.ofCode at h
  split at h
  · cases h
    exact back b ‹_›
  · split at h
    · cases h
      exact Eq.symm ‹_›
    · cases h

theorem parseTy_eq_ok {w : W64} {t : IntTy} : parseTy w = .ok t ↔ t.code = fld w 0 4 := IntTy.permitted_iff ..

theorem parseRm_eq_ok {w : W64} {rm : Rounding} : parseRm w = .ok rm ↔ rm.code = fld w 0 3 := Rounding.permitted_iff ..

theorem parseAtomOp_eq_ok {w : W64} {op : AtomOp} : parseAtomOp w = .ok op ↔ op.code = fld w 0 6 :=
  AtomOp.permitted_iff ..

/-- R134: a seed is read where the rounding takes one; elsewhere its field is zero and stands for s0. -/
theorem parseSeed_eq_ok {w : W64} {rm : Rounding} {s : SReg} :
    parseSeed w rm = .ok s ↔ seedCode rm s = fld w 24 8 ∧ (rm = .sr ∨ s = 0) := by
  unfold parseSeed seedCode
  split
  · simp [sr, *]
  · simp only [bind_eq_ok, zeroField_eq_ok, pure_eq_ok, exists_const, *, false_or]
    exact and_congr_right' eq_comm

/-! Groups of fields: the encoder writes what the parser reads. -/

section
variable (w : W64)

theorem eR1_eq_iff (op : BitVec 8) (o : R1) (m : BitVec 16) :
    eR1 op o m = w ↔ op = fld w 56 8 ∧ parseR1 w = .ok o ∧ m = fld w 0 16 := by
  obtain ⟨d, ⟨a, ea⟩⟩ := o
  have bc : 0#16 = fld w 24 16 ↔ _ := zero_eq_fld_add_iff w 24 8 8
  have modes : 0#7 = fld w 16 7 ↔ _ := zero_eq_fld_add_iff w 16 1 6
  have cMode : 0#6 = fld w 16 6 ↔ _ := zero_eq_fld_add_iff w 16 1 5
  simp only [Nat.reduceAdd, zero_eq_fld_one_iff] at bc modes cMode
  simp [eR1, encR_eq_iff, parseR1, rD, rA, bc, modes, cMode]
  grind

theorem eR2_eq_iff (op : BitVec 8) (o : R2) (m : BitVec 16) :
    eR2 op o m = w ↔ op = fld w 56 8 ∧ parseR2 w = .ok o ∧ m = fld w 0 16 := by
  obtain ⟨d, ⟨a, ea⟩, ⟨b, eb⟩⟩ := o
  have cMode : 0#6 = fld w 16 6 ↔ _ := zero_eq_fld_add_iff w 16 1 5
  simp only [Nat.reduceAdd, zero_eq_fld_one_iff] at cMode
  simp [eR2, encR_eq_iff, parseR2, rD, rA, rB, cMode]
  grind

theorem eR3_eq_iff (op : BitVec 8) (o : R3) (m : BitVec 16) :
    eR3 op o m = w ↔ op = fld w 56 8 ∧ parseR3 w = .ok o ∧ m = fld w 0 16 := by
  obtain ⟨d, ⟨a, ea⟩, ⟨b, eb⟩, ⟨c, ec⟩⟩ := o
  simp [eR3, encR_eq_iff, parseR3, rD, rA, rB, rC]
  grind

theorem eP2_eq_iff (op : BitVec 8) (o : P2) (m : BitVec 16) :
    eP2 op o m = w ↔ op = fld w 56 8 ∧ parseP2 w = .ok o ∧ m = fld w 0 16 := by
  obtain ⟨⟨a, ea⟩, ⟨b, eb⟩⟩ := o
  have cMode : 0#6 = fld w 16 6 ↔ _ := zero_eq_fld_add_iff w 16 1 5
  simp only [Nat.reduceAdd, zero_eq_fld_one_iff] at cMode
  simp [eP2, encR_eq_iff, parseP2, rA, rB, cMode]
  grind

theorem eI1_eq_iff (op : BitVec 8) (o : I1) : eI1 op o = w ↔ op = fld w 56 8 ∧ parseI1 w = .ok o := by
  obtain ⟨d, ⟨a, ea⟩, imm⟩ := o
  simp [eI1, encI_eq_iff, parseI1, rD]
  grind

theorem encM_eq_iff (op d : BitVec 8) (fed : Bool) (g : BitVec 5) (m : MAddr) (aop : BitVec 6) :
    encM op d fed g m aop = w ↔ op = fld w 56 8 ∧ d = fld w 48 8 ∧ fed = w.getLsbD 34 ∧ g = fld w 29 5 ∧
      parseMAddr w = .ok m ∧ aop = fld w 0 6 := by
  obtain ⟨buf, ⟨idx, e⟩, off, wd, scope, lease, hint⟩ := m
  conv => lhs; rw [← fld_whole w]
  unfold encM
  repeat rw [fld_append_iff]
  simp [ofBool_eq_fld_iff, parseMAddr]
  grind

theorem mTy_eq_iff (t : IntTy) (hi : BitVec 12) : mTy t hi = fld w 0 16 ↔ hi = fld w 4 12 ∧ parseTy w = .ok t := by
  rw [mTy, fld_append_iff, parseTy_eq_ok]

theorem mTyBit_eq_iff (t : IntTy) (b : Bool) :
    mTyBit t b = fld w 0 16 ↔ 0#7 = fld w 9 7 ∧ b = w.getLsbD 8 ∧ 0#4 = fld w 4 4 ∧ parseTy w = .ok t := by
  simp only [mTyBit, fld_append_iff w, ofBool_eq_fld_iff, parseTy_eq_ok, and_assoc]

theorem mF_eq_iff (m : FMod) (hi : BitVec 8) : mF m hi = fld w 0 16 ↔ hi = fld w 8 8 ∧ parseFMod w = .ok m := by
  obtain ⟨negB, absB, negA, absA, ftz, rm⟩ := m
  simp [mF, fld_append_iff w, ofBool_eq_fld_iff, parseFMod, parseRm_eq_ok]
  grind

theorem mBit_eq_iff (b : Bool) : mBit b = fld w 8 8 ↔ 0#7 = fld w 9 7 ∧ b = w.getLsbD 8 := by
  simp only [mBit, fld_append_iff w, ofBool_eq_fld_iff]

theorem eMma_eq_iff (op : BitVec 8) (o : MmaOps) (c : BitVec 8) (x : XArea) (opt : BitVec 2) :
    eMma op o c x opt = w ↔
      op = fld w 56 8 ∧ c = fld w 24 8 ∧ xArea w = x ∧ opt = fld w 0 2 ∧ parseMma w = .ok o := by
  obtain ⟨d, k, sa, sb, z⟩ := o
  obtain ⟨sx, hi⟩ := x
  have modes : 0#8 = fld w 16 8 ↔ _ := zero_eq_fld_add_iff w 16 3 5
  have modes3 : 0#3 = fld w 21 3 ↔ _ := zero_eq_fld_add_iff w 21 1 2
  have modes2 : 0#2 = fld w 21 2 ↔ _ := zero_eq_fld_add_iff w 21 1 1
  simp only [Nat.reduceAdd, zero_eq_fld_one_iff] at modes modes3 modes2
  simp [eMma, mMma, encR_eq_iff, fld_append_iff w, ofBool_eq_fld_iff, parseMma, rD, xArea, modes, modes3, modes2]
  grind

end

end Sys2Proof
end

section
/-! PROOFS. Decoding and encoding (R44 to R57): under each opcode the parser reads exactly the words that the encoder
writes. -/

namespace Sys2Proof

/-- The parser, by the opcode of the word. -/
def parseAt (op : BitVec 8) (w : W64) : Parse Instr :=
  let lo := (op.extractLsb' 0 4).toNat
  match (op.extractLsb' 4 4).toNat with
  | 0x0 => decode0 w lo
  | 0x1 => decode1 w lo
  | 0x2 => decode2 w lo
  | 0x3 => decode3 w lo
  | 0x4 => decode4 w lo
  | 0x5 => decode5 w lo
  | 0x6 => decode6 w lo
  | 0x7 => decode7 w lo
  | 0x8 => decode8 w lo
  | 0x9 => decode9 w lo
  | 0xA => decodeA w lo
  | 0xB => decodeB w lo
  | _ => .error .headerWord

/-- A part of a field is a field. -/
theorem extractLsb'_fld (w : W64) {lo n i k : Nat} (h : i + k ≤ n) : (fld w lo n).extractLsb' i k = fld w (lo + i) k
    := by
  apply BitVec.eq_of_getLsbD_eq
  intro j hj
  simp only [fld, BitVec.getLsbD_extractLsb', hj, decide_true, Bool.true_and, show i + j < n by omega, Nat.add_assoc]

theorem parse_eq_parseAt (w : W64) : parse w = parseAt (fld w 56 8) w := by
  have hi : (fld w 56 8).extractLsb' 4 4 = fld w 60 4 := extractLsb'_fld w (by decide)
  have lo : (fld w 56 8).extractLsb' 0 4 = fld w 56 4 := extractLsb'_fld w (by decide)
  rw [parseAt, hi, lo]
  rfl

/-- Under the opcode op, p reads exactly the words that encode gives the instructions of a family. -/
def Reads (op : BitVec 8) (p : W64 → Parse Instr) {A : Type} (f : A → Instr) : Prop :=
  ∀ w i, fld w 56 8 = op ∧ p w = .ok i ↔ (∃ a, f a = i) ∧ encode i = some w

section
variable {A B : Type} {f : A → Instr} {g : B → Instr} {op : BitVec 8} {p : W64 → Parse Instr} {w : W64}

theorem encode_eq_of_reads {i : Instr} (h : Reads op p f) (hop : fld w 56 8 = op) (hp : p w = .ok i) : encode i = some
    w :=
  ((h w i).mp ⟨hop, hp⟩).2

theorem parse_eq_of_reads (h : Reads op p f) (a : A) (hw : encode (f a) = some w)
    (dispatch : ∀ w, parseAt op w = p w := by intro; rfl) : parse w = .ok (f a) := by
  obtain ⟨rfl, hp⟩ := (h w (f a)).mpr ⟨⟨a, rfl⟩, hw⟩
  rw [parse_eq_parseAt, dispatch, hp]

/-- A family is read where the parser gives an instruction of it for exactly the word written for it. -/
theorem reads_of {E : A → W64} (written : ∀ a, encode (f a) = some (E a))
    (h : ∀ w i, fld w 56 8 = op ∧ p w = .ok i ↔ ∃ a, f a = i ∧ E a = w) : Reads op p f := by
  intro w i
  rw [h]
  constructor
  · rintro ⟨a, rfl, rfl⟩
    exact ⟨⟨a, rfl⟩, written a⟩
  · rintro ⟨⟨a, rfl⟩, hw⟩
    exact ⟨a, rfl, Option.some.inj ((written a).symm.trans hw)⟩

/-- The same for two families under one opcode, told apart by a bit of the word. -/
theorem reads_of_two {E : A → W64} {F : B → W64} (n : Nat) (written : ∀ a, encode (f a) = some (E a))
    (written' : ∀ b, encode (g b) = some (F b))
    (h : ∀ w i, w.getLsbD n = false ∧ fld w 56 8 = op ∧ p w = .ok i ↔ ∃ a, f a = i ∧ E a = w)
    (h' : ∀ w i, w.getLsbD n = true ∧ fld w 56 8 = op ∧ p w = .ok i ↔ ∃ b, g b = i ∧ F b = w) :
    Reads op p (Sum.elim f g) :=
  reads_of (E := Sum.elim E F) (Sum.rec written written') fun w i => by
    rw [Sum.exists]
    refine Iff.trans ?_ (or_congr (h w i) (h' w i))
    rw [← or_and_right, and_iff_right (Bool.eq_false_or_eq_true _).symm]

end

theorem Src.exists {q : Src → Prop} : (∃ a, q a) ↔ ∃ r e, q ⟨r, e⟩ := ⟨fun ⟨_, h⟩ => ⟨_, _, h⟩, fun ⟨_, _, h⟩ => ⟨_, h⟩⟩

theorem xArea_eq_noX_iff (w : W64) : xArea w = noX ↔ 0#5 = fld w 3 5 := by
  have parts : 0#5 = fld w 3 5 ↔ 0#4 = fld w 4 4 ∧ 0#1 = fld w 3 1 := zero_eq_fld_add_iff w 3 4 1
  rw [parts, zero_eq_fld_one_iff, xArea, noX, XArea.mk.injEq, toFin_eq_iff_four]
  rfl

theorem R1.exists {q : R1 → Prop} : (∃ a, q a) ↔ ∃ d a, q ⟨d, a⟩ :=
  ⟨fun ⟨_, h⟩ => ⟨_, _, h⟩, fun ⟨_, _, h⟩ => ⟨_, h⟩⟩

theorem R2.exists {q : R2 → Prop} : (∃ a, q a) ↔ ∃ d a b, q ⟨d, a, b⟩ :=
  ⟨fun ⟨_, h⟩ => ⟨_, _, _, h⟩, fun ⟨_, _, _, h⟩ => ⟨_, h⟩⟩

/-- Zero fields of given widths from a bit on. -/
def zeroParts (w : W64) : Nat → List Nat → Prop
  | _, [] => True
  | lo, n :: ns => 0#n = fld w lo n ∧ zeroParts w (lo + n) ns

/-- A zero field is zero in each of its parts, from the lowest on. -/
theorem zero_eq_fld_sum_iff (w : W64) (lo : Nat) (ns : List Nat) : 0#ns.sum = fld w lo ns.sum ↔ zeroParts w lo ns := by
  induction ns generalizing lo with
  | nil => exact iff_of_true (BitVec.eq_of_getLsbD_eq fun i hi => absurd hi (Nat.not_lt_zero i)) trivial
  | cons n ns ih =>
    rw [List.sum_cons, Nat.add_comm, zero_eq_fld_add_iff, ih, and_comm]
    rfl

theorem ofFin_zero : (BitVec.ofFin (0 : Fin 64) : BitVec 6) = 0#6 := rfl

/-! Layouts that several instructions share. -/

section
variable {op : BitVec 8}

theorem tyR1_reads {f : IntTy → R1 → Instr}
    (written : ∀ t o, encode (f t o) = some (eR1 op o (mTy t 0)) := by intros; rfl) :
    Reads op (tyR1 · f) fun a : IntTy × R1 => f a.1 a.2 :=
  reads_of (fun _ => written ..) fun w i => by
    simp only [tyR1, bind_eq_ok, zeroField_eq_ok, pure_eq_ok, exists_const, Prod.exists, eR1_eq_iff, mTy_eq_iff]
    grind

theorem tyR2_reads {f : IntTy → R2 → Instr}
    (written : ∀ t o, encode (f t o) = some (eR2 op o (mTy t 0)) := by intros; rfl) :
    Reads op (tyR2 · f) fun a : IntTy × R2 => f a.1 a.2 :=
  reads_of (fun _ => written ..) fun w i => by
    simp only [tyR2, bind_eq_ok, zeroField_eq_ok, pure_eq_ok, exists_const, Prod.exists, eR2_eq_iff, mTy_eq_iff]
    grind

theorem tyR3_reads {f : IntTy → R3 → Instr}
    (written : ∀ t o, encode (f t o) = some (eR3 op o (mTy t 0)) := by intros; rfl) :
    Reads op (tyR3 · f) fun a : IntTy × R3 => f a.1 a.2 :=
  reads_of (fun _ => written ..) fun w i => by
    simp only [tyR3, bind_eq_ok, zeroField_eq_ok, pure_eq_ok, exists_const, Prod.exists, eR3_eq_iff, mTy_eq_iff]
    grind

theorem tyBitR1_reads {f : IntTy → Bool → R1 → Instr}
    (written : ∀ t b o, encode (f t b o) = some (eR1 op o (mTyBit t b)) := by intros; rfl) :
    Reads op (tyBitR1 · f) fun a : IntTy × Bool × R1 => f a.1 a.2.1 a.2.2 :=
  reads_of (fun _ => written ..) fun w i => by
    simp only [tyBitR1, bind_eq_ok, zeroField_eq_ok, pure_eq_ok, exists_const, Prod.exists, eR1_eq_iff, mTyBit_eq_iff]
    grind

theorem tyBitR2_reads {f : IntTy → Bool → R2 → Instr}
    (written : ∀ t b o, encode (f t b o) = some (eR2 op o (mTyBit t b)) := by intros; rfl) :
    Reads op (tyBitR2 · f) fun a : IntTy × Bool × R2 => f a.1 a.2.1 a.2.2 :=
  reads_of (fun _ => written ..) fun w i => by
    simp only [tyBitR2, bind_eq_ok, zeroField_eq_ok, pure_eq_ok, exists_const, Prod.exists, eR2_eq_iff, mTyBit_eq_iff]
    grind

theorem i1_reads {f : I1 → Instr}
    (written : ∀ o, encode (f o) = some (eI1 op o) := by intros; rfl) :
    Reads op (i1 · f) fun a : I1 => f a :=
  reads_of (fun _ => written ..) fun w i => by
    simp only [i1, bind_eq_ok, pure_eq_ok, eI1_eq_iff]
    grind

theorem fR1_reads {f : FMod → R1 → Instr}
    (written : ∀ m o, encode (f m o) = some (eR1 op o (mF m 0)) := by intros; rfl) :
    Reads op (fR1 · f) fun a : FMod × R1 => f a.1 a.2 :=
  reads_of (fun _ => written ..) fun w i => by
    simp only [fR1, bind_eq_ok, zeroField_eq_ok, pure_eq_ok, exists_const, Prod.exists, eR1_eq_iff, mF_eq_iff]
    grind

theorem fR2_reads {f : FMod → R2 → Instr}
    (written : ∀ m o, encode (f m o) = some (eR2 op o (mF m 0)) := by intros; rfl) :
    Reads op (fR2 · f) fun a : FMod × R2 => f a.1 a.2 :=
  reads_of (fun _ => written ..) fun w i => by
    simp only [fR2, bind_eq_ok, zeroField_eq_ok, pure_eq_ok, exists_const, Prod.exists, eR2_eq_iff, mF_eq_iff]
    grind

theorem fR3_reads {f : FMod → R3 → Instr}
    (written : ∀ m o, encode (f m o) = some (eR3 op o (mF m 0)) := by intros; rfl) :
    Reads op (fR3 · f) fun a : FMod × R3 => f a.1 a.2 :=
  reads_of (fun _ => written ..) fun w i => by
    simp only [fR3, bind_eq_ok, zeroField_eq_ok, pure_eq_ok, exists_const, Prod.exists, eR3_eq_iff, mF_eq_iff]
    grind

theorem fBitR2_reads {f : FMod → Bool → R2 → Instr}
    (written : ∀ m b o, encode (f m b o) = some (eR2 op o (mF m (mBit b))) := by intros; rfl) :
    Reads op (fBitR2 · f) fun a : FMod × Bool × R2 => f a.1 a.2.1 a.2.2 :=
  reads_of (fun _ => written ..) fun w i => by
    simp only [fBitR2, bind_eq_ok, zeroField_eq_ok, pure_eq_ok, exists_const, Prod.exists, eR2_eq_iff, mF_eq_iff,
      mBit_eq_iff]
    grind

theorem fBitR3_reads {f : FMod → Bool → R3 → Instr}
    (written : ∀ m b o, encode (f m b o) = some (eR3 op o (mF m (mBit b))) := by intros; rfl) :
    Reads op (fBitR3 · f) fun a : FMod × Bool × R3 => f a.1 a.2.1 a.2.2 :=
  reads_of (fun _ => written ..) fun w i => by
    simp only [fBitR3, bind_eq_ok, zeroField_eq_ok, pure_eq_ok, exists_const, Prod.exists, eR3_eq_iff, mF_eq_iff,
      mBit_eq_iff]
    grind

theorem carryR2_reads {f : IntTy → Bool → Pred → R2 → Instr}
    (written : ∀ t ci c o, encode (f t ci c o) = some (eR2 op o (mCarry t ci c)) := by intros; rfl) :
    Reads op (carryR2 · f) fun a : IntTy × Bool × Pred × R2 => f a.1 a.2.1 a.2.2.1 a.2.2.2 :=
  reads_of (fun _ => written ..) fun w i => by
    simp only [carryR2, bind_eq_ok, zeroField_eq_ok, pure_eq_ok, exists_const, Prod.exists, eR2_eq_iff, mCarry,
      parseTy_eq_ok, fld_append_iff w, Nat.reduceAdd, ofBool_eq_fld_iff]
    grind

theorem dotR3_reads {f : IntTy → Bool → Bool → Bool → R3 → Instr}
    (written : ∀ t sa sb sat o, encode (f t sa sb sat o) = some (eR3 op o (mDot t sa sb sat)) := by intros; rfl) :
    Reads op (dotR3 · f) fun a : IntTy × Bool × Bool × Bool × R3 => f a.1 a.2.1 a.2.2.1 a.2.2.2.1 a.2.2.2.2 :=
  reads_of (fun _ => written ..) fun w i => by
    simp only [dotR3, bind_eq_ok, zeroField_eq_ok, pure_eq_ok, exists_const, Prod.exists, eR3_eq_iff, mDot,
      parseTy_eq_ok, fld_append_iff w, Nat.reduceAdd, ofBool_eq_fld_iff]
    grind

theorem cNone_reads {i : Instr} (written : encode i = some (encC op 0 2 0) := by rfl) :
    Reads op (cNone · i) fun _ : Unit => i :=
  reads_of (fun _ => written) fun w j => by
    simp only [cNone, bind_eq_ok, zeroField_eq_ok, kindIs_eq_ok, pure_eq_ok, exists_const, encC_eq_iff]
    grind

theorem cImm_reads {f : W32 → Instr}
    (written : ∀ n, encode (f n) = some (encC op 0 3 (0#16 ++ n)) := by intros; rfl) :
    Reads op (cImm · f) fun a : W32 => f a :=
  reads_of (fun _ => written ..) fun w i => by
    simp only [cImm, bind_eq_ok, zeroField_eq_ok, pure_eq_ok, exists_const, encC_eq_iff, kindIs_eq_ok, fld_append_iff
      w, Nat.reduceAdd]
    grind

theorem cReg_reads {f : Reg → Instr}
    (written : ∀ r, encode (f r) = some (encC op 0 1 (r.code ++ 0#40)) := by intros; rfl) :
    Reads op (cReg · f) fun a : Reg => f a :=
  reads_of (fun _ => written ..) fun w i => by
    simp only [cReg, bind_eq_ok, zeroField_eq_ok, pure_eq_ok, exists_const, encC_eq_iff, kindIs_eq_ok, ←
      Reg.ofCode_eq_iff, fld_append_iff w, Nat.reduceAdd]
    grind

theorem mLoad_reads {f : Reg → MAddr → Instr}
    (written : ∀ d m, encode (f d m) = some (encM op d.code false 0 m 0) := by intros; rfl) :
    Reads op (mLoad · f) fun a : Reg × MAddr => f a.1 a.2 :=
  reads_of (fun _ => written ..) fun w i => by
    simp only [mLoad, bind_eq_ok, zeroField_eq_ok, pure_eq_ok, exists_const, Prod.exists, encM_eq_iff, rD, ←
      Reg.ofCode_eq_iff, zero_eq_fld_one_iff]
    grind

theorem mGuarded_reads {f : Option Guard → Src → MAddr → Instr}
    (written : ∀ g d m, encode (f g d m) = some (encM op d.reg.code d.trapEmpty (Guard.code g) m 0) := by intros; rfl) :
    Reads op (mGuarded · f) fun a : Option Guard × Src × MAddr => f a.1 a.2.1 a.2.2 :=
  reads_of (fun _ => written ..) fun w i => by
    simp only [mGuarded, bind_eq_ok, zeroField_eq_ok, pure_eq_ok, exists_const, Prod.exists, encM_eq_iff, mD, rD,
      Guard.ofCode_eq_ok, Src.exists, ← Reg.ofCode_eq_iff]
    grind

theorem mmaPlain_reads {f : MmaOps → Instr}
    (written : ∀ o, encode (f o) = some (eMma op o 0 noX 0) := by intros; rfl) :
    Reads op (mmaPlain · f) fun a : MmaOps => f a :=
  reads_of (fun _ => written ..) fun w i => by
    simp only [mmaPlain, bind_eq_ok, zeroField_eq_ok, pure_eq_ok, exists_const, eMma_eq_iff, xArea_eq_noX_iff]
    grind

theorem mmaInt_reads {f : Bool → Bool → MmaOps → Instr}
    (written : ∀ ua ub o, encode (f ua ub o) = some (eMma op o 0 noX (BitVec.ofBool ua ++ BitVec.ofBool ub)) := by
      intros; rfl) :
    Reads op (mmaInt · f) fun a : Bool × Bool × MmaOps => f a.1 a.2.1 a.2.2 :=
  reads_of (fun _ => written ..) fun w i => by
    simp only [mmaInt, bind_eq_ok, zeroField_eq_ok, pure_eq_ok, exists_const, Prod.exists, eMma_eq_iff,
      xArea_eq_noX_iff, fld_append_iff w, Nat.reduceAdd, ofBool_eq_fld_iff]
    grind

theorem mmaSparse_reads {f : XArea → MmaOps → Instr}
    (written : ∀ x o, encode (f x o) = some (eMma op o 0 x 0) := by intros; rfl) :
    Reads op (mmaSparse · f) fun a : XArea × MmaOps => f a.1 a.2 :=
  reads_of (fun _ => written ..) fun w i => by
    simp only [mmaSparse, bind_eq_ok, zeroField_eq_ok, pure_eq_ok, exists_const, Prod.exists, eMma_eq_iff]
    grind

end

end Sys2Proof
end

section
/-! PROOFS. Decoding and encoding (R93 to R444): the instructions with layouts of their own, and those that share an
opcode. -/

namespace Sys2Proof

/- One row of each table of the opcode map that the lemmas below read, so that the equations of the tables are there
before the first of them. -/
example (w : W64) : decode1 w 0x7 = tyR2 w .and := by simp only [decode1]
example (w : W64) : decode2 w 0x0 = i1 w .shlI := by simp only [decode2]
example (w : W64) : decode3 w 0x0 = tyR2 w .icmp := by simp only [decode3]
example (w : W64) : decode4 w 0x0 = i1 w .faddI := by simp only [decode4]
example (w : W64) : decode6 w 0x0 = fR2 w .ddiv := by simp only [decode6]
example (w : W64) : decode7 w 0x2 = cReg w .callx := by simp only [decode7]
example (w : W64) : decode8 w 0x6 = mLoad w .ld := by simp only [decode8]
example (w : W64) : decode9 w 0x2 = cacheRange w .cwb := by simp only [decode9]
example (w : W64) : decodeA w 0x3 = mmaSparse w .mmaspE4m3 := by simp only [decodeA]
example (w : W64) : decodeB w 0x0 = (do return .tfetch (← xD w) (← parseTs w) (← parseAmt w)) := by simp only [decodeB]

theorem iscadd_reads : Reads 0x16 (decode1 · 0x6) (fun a : IntTy × BitVec 6 × R2 => Instr.iscadd a.1 a.2.1 a.2.2) :=
  reads_of (fun _ => rfl) fun w i => by
    simp only [decode1, bind_eq_ok, zeroField_eq_ok, pure_eq_ok, exists_const, Prod.exists, eR2_eq_iff, parseTy_eq_ok,
      fld_append_iff w, Nat.reduceAdd]
    grind

theorem lmux_reads : Reads 0x1E (decode1 · 0xE)
    (fun a : IntTy × BitVec 4 × BitVec 4 × R3 => Instr.lmux a.1 a.2.1 a.2.2.1 a.2.2.2) :=
  reads_of (fun _ => rfl) fun w i => by
    simp only [decode1, bind_eq_ok, zeroField_eq_ok, pure_eq_ok, exists_const, Prod.exists, eR3_eq_iff, parseTy_eq_ok,
      fld_append_iff w, Nat.reduceAdd]
    grind

theorem fsh_reads : Reads 0x26 (decode2 · 0x6) (fun a : Bool × R3 => Instr.fsh a.1 a.2) :=
  reads_of (fun _ => rfl) fun w i => by
    simp only [decode2, bind_eq_ok, zeroField_eq_ok, pure_eq_ok, exists_const, Prod.exists, eR3_eq_iff,
      fld_append_iff w, Nat.reduceAdd, ofBool_eq_fld_iff]
    grind

theorem bperm_reads : Reads 0x2D (decode2 · 0xD) (fun a : R3 => Instr.bperm a) :=
  reads_of (fun _ => rfl) fun w i => by
    simp only [decode2, bind_eq_ok, zeroField_eq_ok, pure_eq_ok, exists_const, eR3_eq_iff]
    grind

theorem iset_reads : Reads 0x32 (decode3 · 0x2)
    (fun a : IntTy × ICond × Pred × P2 => Instr.iset a.1 a.2.1 a.2.2.1 a.2.2.2) :=
  reads_of (fun _ => rfl) fun w i => by
    simp only [decode3, bind_eq_ok, zeroField_eq_ok, pure_eq_ok, exists_const, Prod.exists, eP2_eq_iff, parseTy_eq_ok,
      ICond.permitted_iff, fld_append_iff w, Nat.reduceAdd]
    grind

theorem isetI_reads : Reads 0x33 (decode3 · 0x3)
    (fun a : ICond × Bool × Pred × Src × BitVec 25 => Instr.isetI a.1 a.2.1 a.2.2.1 a.2.2.2.1 a.2.2.2.2) :=
  reads_of (fun _ => rfl) fun w i => by
    simp only [decode3, bind_eq_ok, zeroField_eq_ok, pure_eq_ok, exists_const, Prod.exists, encI_eq_iff,
      ICond.permitted_iff, Src.exists, ← Reg.ofCode_eq_iff, fld_append_iff w, Nat.reduceAdd, ofBool_eq_fld_iff]
    grind

theorem sel_reads : Reads 0x34 (decode3 · 0x4)
    (fun a : Option Guard × Bool × Bool × Pred × R2 => Instr.sel a.1 a.2.1 a.2.2.1 a.2.2.2.1 a.2.2.2.2) :=
  reads_of (fun _ => rfl) fun w i => by
    simp only [decode3, bind_eq_ok, zeroField_eq_ok, pure_eq_ok, exists_const, Prod.exists, R2.exists, encR_eq_iff,
      Guard.ofCode_eq_ok, zero_eq_fld_one_iff, rA, rB, rD, Src.exists, ← Reg.ofCode_eq_iff, fld_append_iff w,
      Nat.reduceAdd, ofBool_eq_fld_iff]
    grind

theorem plop_reads : Reads 0x35 (decode3 · 0x5)
    (fun a : Pred × Pred × Pred × BitVec 4 => Instr.plop a.1 a.2.1 a.2.2.1 a.2.2.2) :=
  reads_of (fun _ => rfl) fun w i => by
    have zeros := zero_eq_fld_sum_iff w 15 [1, 5, 1, 1, 1, 8, 8, 8, 8]
    simp only [decode3, bind_eq_ok, zeroField_eq_ok, pure_eq_ok, exists_const, Prod.exists, encR_eq_iff,
      zero_eq_fld_one_iff, fld_append_iff w, Nat.reduceAdd]
    simp only [List.sum_cons, List.sum_nil, Nat.reduceAdd, zeroParts, zero_eq_fld_one_iff] at zeros
    grind

theorem mov_reads : Reads 0x37 (decode3 · 0x7) (fun a : Bool × R1 => Instr.mov a.1 a.2) :=
  reads_of (fun _ => rfl) fun w i => by
    simp only [decode3, bind_eq_ok, zeroField_eq_ok, pure_eq_ok, exists_const, Prod.exists, eR1_eq_iff,
      fld_append_iff w, Nat.reduceAdd, ofBool_eq_fld_iff]
    grind

theorem movi_reads : Reads 0x38 (decode3 · 0x8) (fun a : Reg × W32 => Instr.movi a.1 a.2) :=
  reads_of (fun _ => rfl) fun w i => by
    have zeros := zero_eq_fld_sum_iff w 32 [7, 1, 8]
    simp only [decode3, bind_eq_ok, zeroField_eq_ok, pure_eq_ok, exists_const, Prod.exists, encI_eq_iff, rD,
      ← Reg.ofCode_eq_iff]
    simp only [List.sum_cons, List.sum_nil, Nat.reduceAdd, zeroParts, zero_eq_fld_one_iff] at zeros
    grind

theorem movhi_reads : Reads 0x39 (decode3 · 0x9) (fun a : Reg × W32 => Instr.movhi a.1 a.2) :=
  reads_of (fun _ => rfl) fun w i => by
    have zeros := zero_eq_fld_sum_iff w 32 [7, 1, 8]
    simp only [decode3, bind_eq_ok, zeroField_eq_ok, pure_eq_ok, exists_const, Prod.exists, encI_eq_iff, rD,
      ← Reg.ofCode_eq_iff]
    simp only [List.sum_cons, List.sum_nil, Nat.reduceAdd, zeroParts, zero_eq_fld_one_iff] at zeros
    grind

theorem rdlane_reads : Reads 0x3A (decode3 · 0xA) (fun a : Reg × Src × SReg => Instr.rdlane a.1 a.2.1 a.2.2) :=
  reads_of (fun _ => rfl) fun w i => by
    have zeros := zero_eq_fld_sum_iff w 0 [16, 5, 1, 1]
    simp only [decode3, bind_eq_ok, zeroField_eq_ok, pure_eq_ok, exists_const, Prod.exists, encR_eq_iff,
      SReg.ofCode_eq_ok, rA, rD, Src.exists, ← Reg.ofCode_eq_iff]
    simp only [List.sum_cons, List.sum_nil, Nat.reduceAdd, zeroParts, zero_eq_fld_one_iff] at zeros
    grind

theorem wrlane_reads : Reads 0x3B (decode3 · 0xB) (fun a : Reg × SReg × SReg => Instr.wrlane a.1 a.2.1 a.2.2) :=
  reads_of (fun _ => rfl) fun w i => by
    have zeros := zero_eq_fld_sum_iff w 0 [16, 5, 1, 1, 1, 8]
    simp only [decode3, bind_eq_ok, zeroField_eq_ok, pure_eq_ok, exists_const, Prod.exists, encR_eq_iff,
      SReg.ofCode_eq_ok, rD, ← Reg.ofCode_eq_iff]
    simp only [List.sum_cons, List.sum_nil, Nat.reduceAdd, zeroParts, zero_eq_fld_one_iff] at zeros
    grind

theorem cvti_reads : Reads 0x3C (decode3 · 0xC) (fun a : ConvTy × ConvTy × R1 => Instr.cvti a.1 a.2.1 a.2.2) :=
  reads_of (fun _ => rfl) fun w i => by
    simp only [decode3, bind_eq_ok, zeroField_eq_ok, pure_eq_ok, exists_const, Prod.exists, eR1_eq_iff,
      ConvTy.permitted_iff, fld_append_iff w, Nat.reduceAdd]
    grind

theorem fset_reads : Reads 0x4B (decode4 · 0xB)
    (fun a : FMod × FCond × Pred × P2 => Instr.fset a.1 a.2.1 a.2.2.1 a.2.2.2) :=
  reads_of (fun _ => rfl) fun w i => by
    simp only [decode4, bind_eq_ok, zeroField_eq_ok, pure_eq_ok, exists_const, Prod.exists, eP2_eq_iff, mF_eq_iff,
      FCond.permitted_iff, fld_append_iff w, Nat.reduceAdd]
    grind

theorem hfma2_reads : Reads 0x64 (decode6 · 0x4)
    (fun a : FMod × Bool × Bool × R3 => Instr.hfma2 a.1 a.2.1 a.2.2.1 a.2.2.2) :=
  reads_of (fun _ => rfl) fun w i => by
    simp only [decode6, bind_eq_ok, zeroField_eq_ok, pure_eq_ok, exists_const, Prod.exists, eR3_eq_iff, mF_eq_iff,
      fld_append_iff w, Nat.reduceAdd, ofBool_eq_fld_iff]
    grind

theorem cvtf_reads : Reads 0x69 (decode6 · 0x9)
    (fun a : FFmt × FFmt × Bool × Bool × Bool × Rounding × R1 => Instr.cvtf a.1 a.2.1 a.2.2.1 a.2.2.2.1 a.2.2.2.2.1
      a.2.2.2.2.2.1 a.2.2.2.2.2.2) :=
  reads_of (fun _ => rfl) fun w i => by
    simp only [decode6, bind_eq_ok, zeroField_eq_ok, pure_eq_ok, exists_const, Prod.exists, eR1_eq_iff,
      FFmt.permitted_iff, parseRm_eq_ok, fld_append_iff w, Nat.reduceAdd, ofBool_eq_fld_iff]
    grind

theorem cvtfi_reads : Reads 0x6A (decode6 · 0xA)
    (fun a : FFmt × ConvTy × Bool × Rounding × R1 => Instr.cvtfi a.1 a.2.1 a.2.2.1 a.2.2.2.1 a.2.2.2.2) :=
  reads_of (fun _ => rfl) fun w i => by
    simp only [decode6, bind_eq_ok, zeroField_eq_ok, pure_eq_ok, exists_const, Prod.exists, eR1_eq_iff,
      FFmt.permitted_iff, ConvTy.permitted_iff, parseRm_eq_ok, fld_append_iff w, Nat.reduceAdd, ofBool_eq_fld_iff]
    grind

theorem cvtif_reads : Reads 0x6B (decode6 · 0xB)
    (fun a : ConvTy × FFmt × Rounding × R1 => Instr.cvtif a.1 a.2.1 a.2.2.1 a.2.2.2) :=
  reads_of (fun _ => rfl) fun w i => by
    simp only [decode6, bind_eq_ok, zeroField_eq_ok, pure_eq_ok, exists_const, Prod.exists, eR1_eq_iff,
      FFmt.permitted_iff, ConvTy.permitted_iff, parseRm_eq_ok, fld_append_iff w, Nat.reduceAdd]
    grind

theorem bra_reads : Reads 0x6F (decode6 · 0xF) (fun a : Option Guard × BitVec 48 => Instr.bra a.1 a.2) :=
  reads_of (fun _ => rfl) fun w i => by
    simp only [decode6, bind_eq_ok, pure_eq_ok, exists_const, Prod.exists, encC_eq_iff, kindIs_eq_ok,
      Guard.ofCode_eq_ok]
    grind

theorem brx_reads : Reads 0x70 (decode7 · 0x0) (fun a : Option Guard × Reg => Instr.brx a.1 a.2) :=
  reads_of (fun _ => rfl) fun w i => by
    simp only [decode7, bind_eq_ok, zeroField_eq_ok, pure_eq_ok, exists_const, Prod.exists, encC_eq_iff, kindIs_eq_ok,
      Guard.ofCode_eq_ok, ← Reg.ofCode_eq_iff, fld_append_iff w, Nat.reduceAdd]
    grind

theorem call_reads : Reads 0x71 (decode7 · 0x1) (fun a : BitVec 48 => Instr.call a) :=
  reads_of (fun _ => rfl) fun w i => by
    simp only [decode7, bind_eq_ok, zeroField_eq_ok, pure_eq_ok, exists_const, encC_eq_iff, kindIs_eq_ok]
    grind

theorem shfl_reads : Reads 0x7B (decode7 · 0xB)
    (fun a : ShflMode × Fin 7 × Bool × R2 => Instr.shfl a.1 a.2.1 a.2.2.1 a.2.2.2) :=
  reads_of (fun _ => rfl) fun w i => by
    simp only [decode7, bind_eq_ok, zeroField_eq_ok, pure_eq_ok, exists_const, Prod.exists, eR2_eq_iff,
      ShflMode.permitted_iff, fin7_permitted_iff, fld_append_iff w, Nat.reduceAdd, ofBool_eq_fld_iff]
    grind

theorem vote_reads : Reads 0x7C (decode7 · 0xC)
    (fun a : VoteMode × Bool × Pred × Reg => Instr.vote a.1 a.2.1 a.2.2.1 a.2.2.2) :=
  reads_of (fun _ => rfl) fun w i => by
    have zeros := zero_eq_fld_sum_iff w 12 [4, 5, 1, 1, 1, 8, 8, 8]
    simp only [decode7, bind_eq_ok, zeroField_eq_ok, pure_eq_ok, exists_const, Prod.exists, encR_eq_iff,
      VoteMode.permitted_iff, rD, ← Reg.ofCode_eq_iff, fld_append_iff w, Nat.reduceAdd, ofBool_eq_fld_iff]
    simp only [List.sum_cons, List.sum_nil, Nat.reduceAdd, zeroParts, zero_eq_fld_one_iff] at zeros
    grind

theorem matchLanes_reads : Reads 0x7D (decode7 · 0xD) (fun a : Bool × R1 => Instr.matchLanes a.1 a.2) :=
  reads_of (fun _ => rfl) fun w i => by
    simp only [decode7, bind_eq_ok, zeroField_eq_ok, pure_eq_ok, exists_const, Prod.exists, eR1_eq_iff,
      fld_append_iff w, Nat.reduceAdd, ofBool_eq_fld_iff]
    grind

theorem redux_reads : Reads 0x7E (decode7 · 0xE) (fun a : RedOp × IntTy × R1 => Instr.redux a.1 a.2.1 a.2.2) :=
  reads_of (fun _ => rfl) fun w i => by
    simp only [decode7, bind_eq_ok, zeroField_eq_ok, pure_eq_ok, exists_const, Prod.exists, eR1_eq_iff, parseTy_eq_ok,
      RedOp.permitted_iff, fld_append_iff w, Nat.reduceAdd]
    grind

theorem fredux_reads : Reads 0x7F (decode7 · 0xF)
    (fun a : Bool × FRedOp × Bool × Bool × Bool × Rounding × R1 => Instr.fredux a.1 a.2.1 a.2.2.1 a.2.2.2.1
      a.2.2.2.2.1 a.2.2.2.2.2.1 a.2.2.2.2.2.2) :=
  reads_of (fun _ => rfl) fun w i => by
    simp only [decode7, bind_eq_ok, zeroField_eq_ok, pure_eq_ok, exists_const, Prod.exists, eR1_eq_iff,
      FRedOp.permitted_iff, parseRm_eq_ok, fld_append_iff w, Nat.reduceAdd, ofBool_eq_fld_iff]
    grind

theorem scan_reads : Reads 0x80 (decode8 · 0x0)
    (fun a : RedOp × IntTy × Bool × R1 => Instr.scan a.1 a.2.1 a.2.2.1 a.2.2.2) :=
  reads_of (fun _ => rfl) fun w i => by
    simp only [decode8, bind_eq_ok, zeroField_eq_ok, pure_eq_ok, exists_const, Prod.exists, eR1_eq_iff, parseTy_eq_ok,
      RedOp.permitted_iff, fld_append_iff w, Nat.reduceAdd, ofBool_eq_fld_iff]
    grind

theorem amask_reads : Reads 0x82 (decode8 · 0x2) (fun a : Bool × Reg => Instr.amask a.1 a.2) :=
  reads_of (fun _ => rfl) fun w i => by
    have zeros := zero_eq_fld_sum_iff w 1 [15, 5, 1, 1, 1, 8, 8, 8]
    simp only [decode8, bind_eq_ok, zeroField_eq_ok, pure_eq_ok, exists_const, Prod.exists, encR_eq_iff, rD,
      ← Reg.ofCode_eq_iff, fld_append_iff w, Nat.reduceAdd, ofBool_eq_fld_iff]
    simp only [List.sum_cons, List.sum_nil, Nat.reduceAdd, zeroParts, zero_eq_fld_one_iff] at zeros
    grind

theorem brec_reads : Reads 0x83 (decode8 · 0x3) (fun a : Bool × BReg × SReg => Instr.brec a.1 a.2.1 a.2.2) :=
  reads_of (fun _ => rfl) fun w i => by
    have zeros := zero_eq_fld_sum_iff w 30 [6, 6]
    simp only [decode8, bind_eq_ok, zeroField_eq_ok, pure_eq_ok, exists_const, Prod.exists, encX_eq_iff, xSA,
      ofFin_zero, fld_append_iff w, Nat.reduceAdd, ofBool_eq_fld_iff]
    simp only [List.sum_cons, List.sum_nil, Nat.reduceAdd, zeroParts] at zeros
    grind

theorem brmk_reads : Reads 0x84 (decode8 · 0x4) (fun a : BReg × SReg => Instr.brmk a.1 a.2) :=
  reads_of (fun _ => rfl) fun w i => by
    have zeros := zero_eq_fld_sum_iff w 4 [26, 6, 6]
    simp only [decode8, bind_eq_ok, zeroField_eq_ok, pure_eq_ok, exists_const, Prod.exists, encX_eq_iff, xSA,
      ofFin_zero, fld_append_iff w, Nat.reduceAdd]
    simp only [List.sum_cons, List.sum_nil, Nat.reduceAdd, zeroParts] at zeros
    grind

theorem brset_reads : Reads 0x85 (decode8 · 0x5) (fun a : BField × BReg × SReg => Instr.brset a.1 a.2.1 a.2.2) :=
  reads_of (fun _ => rfl) fun w i => by
    have zeros := zero_eq_fld_sum_iff w 8 [22, 6, 6]
    simp only [decode8, bind_eq_ok, zeroField_eq_ok, pure_eq_ok, exists_const, Prod.exists, encX_eq_iff, xSA,
      BField.permitted_iff, ofFin_zero, fld_append_iff w, Nat.reduceAdd]
    simp only [List.sum_cons, List.sum_nil, Nat.reduceAdd, zeroParts] at zeros
    grind

theorem atom_reads : Reads 0x8B (decode8 · 0xB)
    (fun a : Option Guard × AtomOp × Src × MAddr => Instr.atom a.1 a.2.1 a.2.2.1 a.2.2.2) :=
  reads_of (fun _ => rfl) fun w i => by
    simp only [decode8, bind_eq_ok, pure_eq_ok, Prod.exists, encM_eq_iff, parseAtomOp_eq_ok, mD, rD, Src.exists,
      ← Reg.ofCode_eq_iff, Guard.ofCode_eq_ok]
    grind

theorem red_reads : Reads 0x8D (decode8 · 0xD)
    (fun a : Option Guard × AtomOp × Src × MAddr => Instr.red a.1 a.2.1 a.2.2.1 a.2.2.2) :=
  reads_of (fun _ => rfl) fun w i => by
    simp only [decode8, bind_eq_ok, pure_eq_ok, Prod.exists, encM_eq_iff, parseAtomOp_eq_ok, mD, rD, Src.exists,
      ← Reg.ofCode_eq_iff, Guard.ofCode_eq_ok]
    grind

theorem prefetch_reads : Reads 0x8E (decode8 · 0xE) (fun a : MAddr => Instr.prefetch a) :=
  reads_of (fun _ => rfl) fun w i => by
    simp only [decode8, bind_eq_ok, zeroField_eq_ok, pure_eq_ok, exists_const, encM_eq_iff, zero_eq_fld_one_iff]
    grind

theorem stx_reads : Reads 0x90 (decode9 · 0x0) (fun a : Src × MAddr => Instr.stx a.1 a.2) :=
  reads_of (fun _ => rfl) fun w i => by
    simp only [decode9, bind_eq_ok, zeroField_eq_ok, pure_eq_ok, exists_const, Prod.exists, encM_eq_iff, mD, rD,
      Src.exists, ← Reg.ofCode_eq_iff]
    grind

theorem atomx_reads : Reads 0x91 (decode9 · 0x1) (fun a : AtomOp × Src × MAddr => Instr.atomx a.1 a.2.1 a.2.2) :=
  reads_of (fun _ => rfl) fun w i => by
    simp only [decode9, bind_eq_ok, zeroField_eq_ok, pure_eq_ok, exists_const, Prod.exists, encM_eq_iff,
      parseAtomOp_eq_ok, mD, rD, Src.exists, ← Reg.ofCode_eq_iff]
    grind

theorem fetchbar_reads : Reads 0x95 (decode9 · 0x5) (fun _ : Unit => Instr.fetchbar) :=
  reads_of (fun _ => rfl) fun w i => by
    have zeros := zero_eq_fld_sum_iff w 0 [30, 6, 6, 6, 8]
    simp only [decode9, bind_eq_ok, zeroField_eq_ok, pure_eq_ok, exists_const, encX_eq_iff, ofFin_zero]
    simp only [List.sum_cons, List.sum_nil, Nat.reduceAdd, zeroParts] at zeros
    grind

theorem pin_reads : Reads 0x96 (decode9 · 0x6) (fun a : SReg × SReg × SReg => Instr.pin a.1 a.2.1 a.2.2) :=
  reads_of (fun _ => rfl) fun w i => by
    have zeros := zero_eq_fld_sum_iff w 0 [30, 6]
    simp only [decode9, bind_eq_ok, zeroField_eq_ok, pure_eq_ok, exists_const, Prod.exists, encX_eq_iff, xD, xSA, xSB,
      SReg.ofCode_eq_ok, ofFin_zero]
    simp only [List.sum_cons, List.sum_nil, Nat.reduceAdd, zeroParts] at zeros
    grind

theorem unpin_reads : Reads 0x97 (decode9 · 0x7) (fun a : SReg × SReg × SReg => Instr.unpin a.1 a.2.1 a.2.2) :=
  reads_of (fun _ => rfl) fun w i => by
    have zeros := zero_eq_fld_sum_iff w 0 [30, 6]
    simp only [decode9, bind_eq_ok, zeroField_eq_ok, pure_eq_ok, exists_const, Prod.exists, encX_eq_iff, xD, xSA, xSB,
      SReg.ofCode_eq_ok, ofFin_zero]
    simp only [List.sum_cons, List.sum_nil, Nat.reduceAdd, zeroParts] at zeros
    grind

theorem pinq_reads : Reads 0x98 (decode9 · 0x8) (fun a : SReg × SReg => Instr.pinq a.1 a.2) :=
  reads_of (fun _ => rfl) fun w i => by
    have zeros := zero_eq_fld_sum_iff w 0 [30, 6, 6]
    simp only [decode9, bind_eq_ok, zeroField_eq_ok, pure_eq_ok, exists_const, Prod.exists, encX_eq_iff, xD, xSA,
      SReg.ofCode_eq_ok, ofFin_zero]
    simp only [List.sum_cons, List.sum_nil, Nat.reduceAdd, zeroParts] at zeros
    grind

theorem mmaMxf6_reads : Reads 0xA0 (decodeA · 0x0)
    (fun a : Bool × Bool × XArea × SReg × MmaOps => Instr.mmaMxf6 a.1 a.2.1 a.2.2.1 a.2.2.2.1 a.2.2.2.2) :=
  reads_of (fun _ => rfl) fun w i => by
    simp only [decodeA, bind_eq_ok, pure_eq_ok, Prod.exists, eMma_eq_iff, SReg.ofCode_eq_ok, fld_append_iff w,
      Nat.reduceAdd, ofBool_eq_fld_iff]
    grind

theorem mmaMxf4_reads : Reads 0xA1 (decodeA · 0x1) (fun a : XArea × SReg × MmaOps => Instr.mmaMxf4 a.1 a.2.1 a.2.2) :=
  reads_of (fun _ => rfl) fun w i => by
    simp only [decodeA, bind_eq_ok, zeroField_eq_ok, pure_eq_ok, exists_const, Prod.exists, eMma_eq_iff,
      SReg.ofCode_eq_ok]
    grind

theorem mmaq_reads : Reads 0xA2 (decodeA · 0x2)
    (fun a : GroupSize × XArea × SReg × MmaOps => Instr.mmaq a.1 a.2.1 a.2.2.1 a.2.2.2) :=
  reads_of (fun _ => rfl) fun w i => by
    simp only [decodeA, bind_eq_ok, pure_eq_ok, Prod.exists, eMma_eq_iff, SReg.ofCode_eq_ok, GroupSize.permitted_iff]
    grind

theorem sfill_reads : Reads 0xA7 (decodeA · 0x7)
    (fun a : Slot × Fin 16 × Option SReg × Src => Instr.sfill a.1 a.2.1 a.2.2.1 a.2.2.2) :=
  reads_of (fun _ => rfl) fun w i => by
    have zeros := zero_eq_fld_sum_iff w 16 [5, 1, 1]
    simp only [decodeA, bind_eq_ok, zeroField_eq_ok, pure_eq_ok, exists_const, Prod.exists, encR_eq_iff,
      optSReg_eq_ok, mSlotCnt, rA, Src.exists, ← Reg.ofCode_eq_iff, fld_append_iff w, Nat.reduceAdd]
    simp only [List.sum_cons, List.sum_nil, Nat.reduceAdd, zeroParts, zero_eq_fld_one_iff] at zeros
    grind

theorem sdrain_reads : Reads 0xA8 (decodeA · 0x8)
    (fun a : Slot × Fin 16 × Option SReg × Reg => Instr.sdrain a.1 a.2.1 a.2.2.1 a.2.2.2) :=
  reads_of (fun _ => rfl) fun w i => by
    have zeros := zero_eq_fld_sum_iff w 16 [5, 1, 1, 1, 8]
    simp only [decodeA, bind_eq_ok, zeroField_eq_ok, pure_eq_ok, exists_const, Prod.exists, encR_eq_iff,
      optSReg_eq_ok, mSlotCnt, rD, ← Reg.ofCode_eq_iff, fld_append_iff w, Nat.reduceAdd]
    simp only [List.sum_cons, List.sum_nil, Nat.reduceAdd, zeroParts, zero_eq_fld_one_iff] at zeros
    grind

theorem sxpose_reads : Reads 0xA9 (decodeA · 0x9)
    (fun a : Slot × Slot × XposeBits × Fin 5 => Instr.sxpose a.1 a.2.1 a.2.2.1 a.2.2.2) :=
  reads_of (fun _ => rfl) fun w i => by
    have zeros := zero_eq_fld_sum_iff w 16 [14, 6, 6, 6, 8]
    simp only [decodeA, bind_eq_ok, zeroField_eq_ok, pure_eq_ok, exists_const, Prod.exists, encX_eq_iff,
      XposeBits.permitted_iff, fin5_permitted_iff, ofFin_zero, fld_append_iff w, Nat.reduceAdd]
    simp only [List.sum_cons, List.sum_nil, Nat.reduceAdd, zeroParts] at zeros
    grind

theorem copy_reads : Reads 0xAB (decodeA · 0xB) (fun a : SReg × SReg => Instr.copy a.1 a.2) :=
  reads_of (fun _ => rfl) fun w i => by
    have zeros := zero_eq_fld_sum_iff w 0 [30, 6, 6]
    simp only [decodeA, bind_eq_ok, zeroField_eq_ok, pure_eq_ok, exists_const, Prod.exists, encX_eq_iff, xD, xSA,
      SReg.ofCode_eq_ok, ofFin_zero]
    simp only [List.sum_cons, List.sum_nil, Nat.reduceAdd, zeroParts] at zeros
    grind

theorem cbload_reads : Reads 0xAC (decodeA · 0xC) (fun a : Fin 4 × SReg × SReg => Instr.cbload a.1 a.2.1 a.2.2) :=
  reads_of (fun _ => rfl) fun w i => by
    have zeros := zero_eq_fld_sum_iff w 2 [28, 6, 6]
    simp only [decodeA, bind_eq_ok, zeroField_eq_ok, pure_eq_ok, exists_const, Prod.exists, encX_eq_iff, xD, xSA,
      SReg.ofCode_eq_ok, ofFin_zero, fld_append_iff w, Nat.reduceAdd]
    simp only [List.sum_cons, List.sum_nil, Nat.reduceAdd, zeroParts] at zeros
    grind

theorem cpstat_reads : Reads 0xAD (decodeA · 0xD) (fun a : SReg × SReg => Instr.cpstat a.1 a.2) :=
  reads_of (fun _ => rfl) fun w i => by
    have zeros := zero_eq_fld_sum_iff w 0 [30, 6, 6]
    simp only [decodeA, bind_eq_ok, zeroField_eq_ok, pure_eq_ok, exists_const, Prod.exists, encX_eq_iff, xD, xSA,
      SReg.ofCode_eq_ok, ofFin_zero]
    simp only [List.sum_cons, List.sum_nil, Nat.reduceAdd, zeroParts] at zeros
    grind

theorem fence_reads : Reads 0xB6 (decodeB · 0x6) (fun a : Fin 8 => Instr.fence a) :=
  reads_of (fun _ => rfl) fun w i => by
    have zeros := zero_eq_fld_sum_iff w 3 [27, 6, 6, 6, 8]
    simp only [decodeB, bind_eq_ok, zeroField_eq_ok, pure_eq_ok, exists_const, encX_eq_iff, ofFin_zero,
      fld_append_iff w, Nat.reduceAdd]
    simp only [List.sum_cons, List.sum_nil, Nat.reduceAdd, zeroParts] at zeros
    grind

theorem launch_reads : Reads 0xB7 (decodeB · 0x7) (fun a : SReg × SReg => Instr.launch a.1 a.2) :=
  reads_of (fun _ => rfl) fun w i => by
    have zeros := zero_eq_fld_sum_iff w 0 [30, 6, 6]
    simp only [decodeB, bind_eq_ok, zeroField_eq_ok, pure_eq_ok, exists_const, Prod.exists, encX_eq_iff, xD, xSA,
      SReg.ofCode_eq_ok, ofFin_zero]
    simp only [List.sum_cons, List.sum_nil, Nat.reduceAdd, zeroParts] at zeros
    grind

theorem qstat_reads : Reads 0xB8 (decodeB · 0x8) (fun a : SReg × SReg × QstatWhat => Instr.qstat a.1 a.2.1 a.2.2) :=
  reads_of (fun _ => rfl) fun w i => by
    have zeros := zero_eq_fld_sum_iff w 2 [28, 6, 6]
    simp only [decodeB, bind_eq_ok, zeroField_eq_ok, pure_eq_ok, exists_const, Prod.exists, encX_eq_iff, xD, xSA,
      SReg.ofCode_eq_ok, QstatWhat.permitted_iff, ofFin_zero, fld_append_iff w, Nat.reduceAdd]
    simp only [List.sum_cons, List.sum_nil, Nat.reduceAdd, zeroParts] at zeros
    grind

theorem mroute_reads : Reads 0xBA (decodeB · 0xA) (fun a : Fin 4 × SReg × SReg => Instr.mroute a.1 a.2.1 a.2.2) :=
  reads_of (fun _ => rfl) fun w i => by
    have zeros := zero_eq_fld_sum_iff w 30 [6, 6]
    simp only [decodeB, bind_eq_ok, zeroField_eq_ok, pure_eq_ok, exists_const, Prod.exists, encX_eq_iff, xD, xSA,
      SReg.ofCode_eq_ok, ofFin_zero, fld_append_iff w, Nat.reduceAdd]
    simp only [List.sum_cons, List.sum_nil, Nat.reduceAdd, zeroParts] at zeros
    grind

theorem ecall_reads : Reads 0xBB (decodeB · 0xB)
    (fun a : W16 × Fin 7 × SReg × SReg => Instr.ecall a.1 a.2.1 a.2.2.1 a.2.2.2) :=
  reads_of (fun _ => rfl) fun w i => by
    have zeros := zero_eq_fld_sum_iff w 19 [11, 6, 6]
    simp only [decodeB, bind_eq_ok, zeroField_eq_ok, pure_eq_ok, exists_const, Prod.exists, encX_eq_iff, xD, xSA,
      SReg.ofCode_eq_ok, fin7_permitted_iff, ofFin_zero, fld_append_iff w, Nat.reduceAdd]
    simp only [List.sum_cons, List.sum_nil, Nat.reduceAdd, zeroParts] at zeros
    grind

theorem sysrd_reads : Reads 0xBC (decodeB · 0xC) (fun a : BitVec 12 × SReg × SReg => Instr.sysrd a.1 a.2.1 a.2.2) :=
  reads_of (fun _ => rfl) fun w i => by
    have zeros := zero_eq_fld_sum_iff w 12 [18, 6, 6]
    simp only [decodeB, bind_eq_ok, zeroField_eq_ok, pure_eq_ok, exists_const, Prod.exists, encX_eq_iff, xD, xSA,
      SReg.ofCode_eq_ok, ofFin_zero, fld_append_iff w, Nat.reduceAdd]
    simp only [List.sum_cons, List.sum_nil, Nat.reduceAdd, zeroParts] at zeros
    grind

theorem syswr_reads : Reads 0xBD (decodeB · 0xD)
    (fun a : BitVec 12 × SReg × SReg × SReg => Instr.syswr a.1 a.2.1 a.2.2.1 a.2.2.2) :=
  reads_of (fun _ => rfl) fun w i => by
    have zeros := zero_eq_fld_sum_iff w 12 [18, 6]
    simp only [decodeB, bind_eq_ok, zeroField_eq_ok, pure_eq_ok, exists_const, Prod.exists, encX_eq_iff, xD, xSA, xSB,
      SReg.ofCode_eq_ok, ofFin_zero, fld_append_iff w, Nat.reduceAdd]
    simp only [List.sum_cons, List.sum_nil, Nat.reduceAdd, zeroParts] at zeros
    grind

theorem tlbinv_reads : Reads 0xBE (decodeB · 0xE)
    (fun a : TlbKind × Fin 32 × SReg × SReg × SReg × SReg => Instr.tlbinv a.1 a.2.1 a.2.2.1 a.2.2.2.1 a.2.2.2.2.1
      a.2.2.2.2.2) :=
  reads_of (fun _ => rfl) fun w i => by
    simp only [decodeB, bind_eq_ok, zeroField_eq_ok, pure_eq_ok, exists_const, Prod.exists, encX_eq_iff, xD, xSA, xSB,
      xSC, SReg.ofCode_eq_ok, TlbKind.permitted_iff, fld_append_iff w, Nat.reduceAdd]
    grind

theorem rdcinv_reads : Reads 0xBF (decodeB · 0xF)
    (fun a : RdcKind × SReg × SReg × SReg => Instr.rdcinv a.1 a.2.1 a.2.2.1 a.2.2.2) :=
  reads_of (fun _ => rfl) fun w i => by
    have zeros := zero_eq_fld_sum_iff w 2 [28, 6]
    simp only [decodeB, bind_eq_ok, zeroField_eq_ok, pure_eq_ok, exists_const, Prod.exists, encX_eq_iff, xD, xSA, xSB,
      SReg.ofCode_eq_ok, RdcKind.permitted_iff, ofFin_zero, fld_append_iff w, Nat.reduceAdd]
    simp only [List.sum_cons, List.sum_nil, Nat.reduceAdd, zeroParts] at zeros
    grind

/-! Two instructions under one opcode, told apart by a bit of the modifier. -/

theorem pmov_reads : Reads 0x36 (decode3 · 0x6)
    (Sum.elim Instr.pmovToReg fun a : Src × BitVec 8 => Instr.pmovToPred a.1 a.2) := by
  refine reads_of_two 0 (fun _ => rfl) (fun _ => rfl) (fun w i => ?_) (fun w i => ?_)
  · have zeros := zero_eq_fld_sum_iff w 0 [16, 5, 1, 1, 1, 8, 8, 8]
    have low := zero_eq_fld_sum_iff w 0 [1, 15]
    simp only [List.sum_cons, List.sum_nil, Nat.reduceAdd, zeroParts, zero_eq_fld_one_iff] at zeros low
    cases bit : w.getLsbD 0 <;>
      simp only [decode3, bit, bind_eq_ok, zeroField_eq_ok, pure_eq_ok, exists_const, rD, encR_eq_iff,
        ← Reg.ofCode_eq_iff,
        if_true, if_false, Bool.false_eq_true] <;> grind
  · have zeros := zero_eq_fld_sum_iff w 24 [8, 8]
    have modes := zero_eq_fld_sum_iff w 16 [5, 1, 1]
    have one : 1#8 = fld w 0 8 ↔ 0#7 = fld w 1 7 ∧ BitVec.ofBool true = fld w 0 1 :=
      fld_append_iff w 0 7 1 0#7 (BitVec.ofBool true)
    simp only [List.sum_cons, List.sum_nil, Nat.reduceAdd, zeroParts, zero_eq_fld_one_iff, ofBool_eq_fld_iff]
      at zeros modes one
    cases bit : w.getLsbD 0 <;>
      simp only [decode3, bit, bind_eq_ok, zeroField_eq_ok, pure_eq_ok, exists_const, Prod.exists, Src.exists, rA,
        encR_eq_iff, fld_append_iff w, Nat.reduceAdd, ← Reg.ofCode_eq_iff, if_true, if_false, Bool.false_eq_true] <;>
      grind

/-- R134: the modifier of an encoding conversion to a byte format. -/
theorem cvt8Encode_modifier_iff (w : W64) (sat e5m2 : Bool) (wf : WideFmt) (hi ftz : Bool) (rm : Rounding) :
    (0#1 ++ BitVec.ofBool sat ++ BitVec.ofBool e5m2 ++ wf.code ++ 0#2 ++ BitVec.ofBool hi ++ 0#4 ++ BitVec.ofBool ftz ++
        rm.code : BitVec 16) = fld w 0 16 ↔
      w.getLsbD 15 = false ∧ sat = w.getLsbD 14 ∧ e5m2 = w.getLsbD 13 ∧ wf.code = fld w 11 2 ∧ 0#2 = fld w 9 2 ∧
        hi = w.getLsbD 8 ∧ 0#4 = fld w 4 4 ∧ ftz = w.getLsbD 3 ∧ rm.code = fld w 0 3 := by
  simp only [fld_append_iff w, Nat.reduceAdd, ofBool_eq_fld_iff, zero_eq_fld_one_iff, and_assoc]

/-- R134: the modifier of a decoding conversion. -/
theorem cvt8Decode_modifier_iff (w : W64) (e5m2 : Bool) (wf : WideFmt) (pos : Fin 4) (ftz : Bool) :
    (0#2 ++ BitVec.ofBool e5m2 ++ wf.code ++ 1#1 ++ (BitVec.ofFin pos : BitVec 2) ++ 0#4 ++ BitVec.ofBool ftz ++ 0#3 :
        BitVec 16) = fld w 0 16 ↔
      0#2 = fld w 14 2 ∧ e5m2 = w.getLsbD 13 ∧ wf.code = fld w 11 2 ∧ w.getLsbD 10 = true ∧
        BitVec.ofFin pos = fld w 8 2 ∧ 0#4 = fld w 4 4 ∧ ftz = w.getLsbD 3 ∧ 0#3 = fld w 0 3 := by
  have bit : 1#1 = fld w 10 1 ↔ true = w.getLsbD 10 := ofBool_eq_fld_iff w 10 true
  simp only [fld_append_iff w, Nat.reduceAdd, ofBool_eq_fld_iff, bit, and_assoc, eq_comm (a := true)]

theorem cvt8_reads : Reads 0x6C (decode6 · 0xC)
    (Sum.elim (fun a : { a : Bool × Bool × WideFmt × Bool × Bool × Rounding × SReg × R2 //
        a.2.2.2.2.2.1 = .sr ∨ a.2.2.2.2.2.2.1 = 0 } =>
        Instr.cvt8Encode a.1.1 a.1.2.1 a.1.2.2.1 a.1.2.2.2.1 a.1.2.2.2.2.1 a.1.2.2.2.2.2.1 a.1.2.2.2.2.2.2.1
          a.1.2.2.2.2.2.2.2)
      fun a : Bool × WideFmt × Fin 4 × Bool × R1 => Instr.cvt8Decode a.1 a.2.1 a.2.2.1 a.2.2.2.1 a.2.2.2.2) := by
  refine reads_of_two 10 (fun _ => rfl) (fun _ => rfl) (fun w i => ?_) (fun w i => ?_)
  · have modes := zero_eq_fld_sum_iff w 16 [5, 1]
    have gap := zero_eq_fld_sum_iff w 9 [1, 1]
    simp only [List.sum_cons, List.sum_nil, Nat.reduceAdd, zeroParts, zero_eq_fld_one_iff] at modes gap
    cases bit : w.getLsbD 10 <;> cases second : w.getLsbD 9 <;>
      simp only [decode6, decodeCvt8, bit, second, bind_eq_ok, zeroField_eq_ok, pure_eq_ok, exists_const, Prod.exists,
        Subtype.exists, R2.exists, Src.exists, rA, rB, rD, encR_eq_iff, cvt8Encode_modifier_iff, if_true, if_false,
        Bool.false_eq_true, WideFmt.permitted_iff, parseRm_eq_ok, parseSeed_eq_ok, error_ne_ok, ← Reg.ofCode_eq_iff,
        zero_eq_fld_one_iff] <;>
      grind
  · have two := zero_eq_fld_sum_iff w 14 [1, 1]
    simp only [List.sum_cons, List.sum_nil, Nat.reduceAdd, zeroParts, zero_eq_fld_one_iff] at two
    cases bit : w.getLsbD 10 <;>
      simp only [decode6, decodeCvt8, bit, bind_eq_ok, zeroField_eq_ok, pure_eq_ok, exists_const, Prod.exists,
        eR1_eq_iff,
        cvt8Decode_modifier_iff, if_true, if_false, Bool.false_eq_true, WideFmt.permitted_iff,
        zero_eq_fld_one_iff] <;>
      grind

/-- R135: the modifier of a conversion to an MX block, and from one. -/
theorem cvtmx_modifier_iff (w : W64) (ef : MxFmt) (ftz : Bool) (rm : Rounding) :
    ((0#2 ++ ef.code ++ 0#8 ++ BitVec.ofBool ftz ++ rm.code : BitVec 16) = fld w 0 16 ↔
      0#2 = fld w 14 2 ∧ ef.code = fld w 12 2 ∧ 0#8 = fld w 4 8 ∧ ftz = w.getLsbD 3 ∧ rm.code = fld w 0 3) ∧
    ((0#2 ++ ef.code ++ 0#1 ++ 1#1 ++ 0#6 ++ BitVec.ofBool ftz ++ rm.code : BitVec 16) = fld w 0 16 ↔
      0#2 = fld w 14 2 ∧ ef.code = fld w 12 2 ∧ w.getLsbD 11 = false ∧ true = w.getLsbD 10 ∧ 0#6 = fld w 4 6 ∧
        ftz = w.getLsbD 3 ∧ rm.code = fld w 0 3) := by
  have bit : 1#1 = fld w 10 1 ↔ true = w.getLsbD 10 := ofBool_eq_fld_iff w 10 true
  simp only [fld_append_iff w, Nat.reduceAdd, ofBool_eq_fld_iff, bit, zero_eq_fld_one_iff, and_assoc, and_self]

theorem cvtmx_reads : Reads 0x6D (decode6 · 0xD)
    (Sum.elim (fun a : { a : MxFmt × Bool × Rounding × SReg × R1 // a.2.2.1 = .sr ∨ a.2.2.2.1 = 0 } =>
        Instr.cvtmxEncode a.1.1 a.1.2.1 a.1.2.2.1 a.1.2.2.2.1 a.1.2.2.2.2)
      fun a : MxFmt × Bool × Rounding × R1 => Instr.cvtmxDecode a.1 a.2.1 a.2.2.1 a.2.2.2) := by
  refine reads_of_two 10 (fun _ => rfl) (fun _ => rfl) (fun w i => ?_) (fun w i => ?_)
  · have modes := zero_eq_fld_sum_iff w 16 [5, 1, 1]
    have gap := zero_eq_fld_sum_iff w 4 [6, 1, 1]
    simp only [List.sum_cons, List.sum_nil, Nat.reduceAdd, zeroParts, zero_eq_fld_one_iff] at modes gap
    cases bit : w.getLsbD 10 <;>
      simp only [decode6, decodeCvtmx, bit, bind_eq_ok, zeroField_eq_ok, pure_eq_ok, exists_const, Prod.exists,
        Subtype.exists, R1.exists, Src.exists, rA, rD, encR_eq_iff, cvtmx_modifier_iff, if_true, if_false,
        Bool.false_eq_true, MxFmt.permitted_iff, parseRm_eq_ok, parseSeed_eq_ok, ← Reg.ofCode_eq_iff,
        zero_eq_fld_one_iff] <;>
      grind
  · have bc := zero_eq_fld_sum_iff w 24 [8, 8]
    simp only [List.sum_cons, List.sum_nil, Nat.reduceAdd, zeroParts] at bc
    cases bit : w.getLsbD 10 <;>
      simp only [decode6, decodeCvtmx, bit, bind_eq_ok, zeroField_eq_ok, pure_eq_ok, exists_const, Prod.exists,
        eR1_eq_iff,
        parseR1, cvtmx_modifier_iff, if_true, if_false, Bool.false_eq_true, MxFmt.permitted_iff, parseRm_eq_ok,
        zero_eq_fld_one_iff] <;>
      grind

theorem cvt4_reads : Reads 0x6E (decode6 · 0xE) (Sum.elim Instr.cvt4Pack Instr.cvt4Deq) := by
  refine reads_of_two 10 (fun _ => rfl) (fun _ => rfl) (fun w i => ?_) (fun w i => ?_)
  · have low := zero_eq_fld_sum_iff w 0 [10, 1, 5]
    simp only [List.sum_cons, List.sum_nil, Nat.reduceAdd, zeroParts, zero_eq_fld_one_iff] at low
    cases bit : w.getLsbD 10 <;>
      simp only [decode6, bit, bind_eq_ok, zeroField_eq_ok, pure_eq_ok, exists_const, eR1_eq_iff, if_true, if_false,
        Bool.false_eq_true] <;>
      grind
  · have low : 0x0400#16 = fld w 0 16 ↔ (0#5 = fld w 11 5 ∧ BitVec.ofBool true = fld w 10 1) ∧ 0#10 = fld w 0 10 := by
      rw [← fld_append_iff w 10 5 1, ← fld_append_iff w 0 6 10]
      rfl
    simp only [ofBool_eq_fld_iff] at low
    cases bit : w.getLsbD 10 <;>
      simp only [decode6, bit, bind_eq_ok, zeroField_eq_ok, pure_eq_ok, exists_const, eR3_eq_iff, if_true, if_false,
        Bool.false_eq_true] <;>
      grind

theorem movs_reads : Reads 0x81 (decode8 · 0x1)
    (Sum.elim (fun a : Special × Reg => Instr.movsRead a.1 a.2) Instr.movsWrite) := by
  refine reads_of_two 8 (fun _ => rfl) (fun _ => rfl) (fun w i => ?_) (fun w i => ?_)
  · have zeros := zero_eq_fld_sum_iff w 16 [5, 1, 1, 1, 8, 8, 8]
    have high := zero_eq_fld_sum_iff w 8 [1, 7]
    simp only [List.sum_cons, List.sum_nil, Nat.reduceAdd, zeroParts, zero_eq_fld_one_iff] at zeros high
    cases bit : w.getLsbD 8 <;>
      simp only [decode8, bit, bind_eq_ok, zeroField_eq_ok, pure_eq_ok, exists_const, Prod.exists, rD, encR_eq_iff,
        fld_append_iff w, Nat.reduceAdd, ← Reg.ofCode_eq_iff, Special.permitted_iff, if_true, if_false,
        Bool.false_eq_true] <;>
      grind
  · have zeros := zero_eq_fld_sum_iff w 16 [5, 1, 1, 1, 8, 8]
    have low : 0x0115#16 = fld w 0 16 ↔ (0#7 = fld w 9 7 ∧ BitVec.ofBool true = fld w 8 1) ∧ 0x15#8 = fld w 0 8 := by
      rw [← fld_append_iff w 8 7 1, ← fld_append_iff w 0 8 8]
      rfl
    simp only [List.sum_cons, List.sum_nil, Nat.reduceAdd, zeroParts, zero_eq_fld_one_iff, ofBool_eq_fld_iff]
      at zeros low
    cases bit : w.getLsbD 8 <;> by_cases named : fld w 0 8 = 0x15 <;>
      simp only [decode8, bit, named, bind_eq_ok, zeroField_eq_ok, pure_eq_ok, exists_const, encR_eq_iff,
        SReg.ofCode_eq_ok, error_ne_ok, if_true, if_false, Bool.false_eq_true] <;>
      grind

/-- Where cpabort names a register and where it aborts all. -/
theorem cpabort_reads : Reads 0xAE (decodeA · 0xE) (Sum.elim (fun s => Instr.cpabort (some s)) fun _ : Unit =>
    .cpabort none) := by
  refine reads_of_two 0 (fun _ => rfl) (fun _ => rfl) (fun w i => ?_) (fun w i => ?_)
  · have zeros := zero_eq_fld_sum_iff w 1 [29, 6, 6]
    have low := zero_eq_fld_sum_iff w 0 [1, 29]
    simp only [List.sum_cons, List.sum_nil, Nat.reduceAdd, zeroParts, zero_eq_fld_one_iff] at zeros low
    cases bit : w.getLsbD 0 <;>
      simp only [decodeA, bit, bind_eq_ok, zeroField_eq_ok, pure_eq_ok, exists_const, encX_eq_iff, xSA, ofFin_zero,
        if_true, if_false, Bool.false_eq_true] <;>
      grind
  · have zeros := zero_eq_fld_sum_iff w 1 [29, 6, 6]
    have low : 1#30 = fld w 0 30 ↔ 0#29 = fld w 1 29 ∧ BitVec.ofBool true = fld w 0 1 := by
      rw [← fld_append_iff w 0 29 1]
      rfl
    simp only [List.sum_cons, List.sum_nil, Nat.reduceAdd, zeroParts, ofBool_eq_fld_iff] at zeros low
    cases bit : w.getLsbD 0 <;>
      simp only [decodeA, bit, bind_eq_ok, zeroField_eq_ok, pure_eq_ok, exists_const, encX_eq_iff, ofFin_zero,
        if_true, if_false, Bool.false_eq_true] <;>
      grind

theorem mMsend_eq_iff (w : W64) (nw : Fin 4) (src gtd t eth : Bool) (vreg : BitVec 8) (len : BitVec 13) :
    mMsend nw src gtd t eth vreg len = fld w 0 30 ↔
      BitVec.ofFin nw = fld w 28 2 ∧ src = w.getLsbD 27 ∧ gtd = w.getLsbD 26 ∧ vreg = fld w 18 8 ∧ len = fld w 5 13 ∧
        t = w.getLsbD 4 ∧ eth = w.getLsbD 3 ∧ 0#3 = fld w 0 3 := by
  simp only [mMsend, fld_append_iff w, Nat.reduceAdd, ofBool_eq_fld_iff, and_assoc]

theorem msend_reads : Reads 0xB9 (decodeB · 0x9)
    (Sum.elim (fun a : Fin 4 × Bool × Bool × Bool × Fin 192 × BitVec 13 × SReg × SReg × SReg =>
        Instr.msend a.1 a.2.1 a.2.2.1 a.2.2.2.1 a.2.2.2.2.1 a.2.2.2.2.2.1 a.2.2.2.2.2.2.1 a.2.2.2.2.2.2.2.1
          a.2.2.2.2.2.2.2.2)
      fun a : Fin 4 × Bool × Bool × Bool × BitVec 13 × SReg × SReg × SReg × SReg =>
        Instr.msendSp a.1 a.2.1 a.2.2.1 a.2.2.2.1 a.2.2.2.2.1 a.2.2.2.2.2.1 a.2.2.2.2.2.2.1 a.2.2.2.2.2.2.2.1
          a.2.2.2.2.2.2.2.2) := by
  refine reads_of_two 27 (fun _ => rfl) (fun _ => rfl) (fun w i => ?_) (fun w i => ?_)
  all_goals
    cases bit : w.getLsbD 27 <;>
      simp only [decodeB, bit, bind_eq_ok, zeroField_eq_ok, pure_eq_ok, exists_const, Prod.exists, encX_eq_iff,
        mMsend_eq_iff, ofFin_zero, xD, xSA, xSB, xSC, SReg.ofCode_eq_ok, fin192_permitted_iff,
        if_true, if_false, Bool.false_eq_true] <;>
      grind

/-- R235: the modifier of a wait, with the timeout in ticks and in a register. -/
theorem wait_modifier_iff (w : W64) (all : Bool) (n : Fin 4) :
    (∀ k : BitVec 22, (k ++ 0#4 ++ 1#1 ++ BitVec.ofBool all ++ (BitVec.ofFin n : BitVec 2) : BitVec 30) = fld w 0 30 ↔
      k = fld w 8 22 ∧ 0#4 = fld w 4 4 ∧ true = w.getLsbD 3 ∧ all = w.getLsbD 2 ∧ BitVec.ofFin n = fld w 0 2) ∧
    ((0#27 ++ BitVec.ofBool all ++ (BitVec.ofFin n : BitVec 2) : BitVec 30) = fld w 0 30 ↔
      w.getLsbD 3 = false ∧ 0#4 = fld w 4 4 ∧ 0#22 = fld w 8 22 ∧ all = w.getLsbD 2 ∧ BitVec.ofFin n = fld w 0 2) := by
  have bit : 1#1 = fld w 3 1 ↔ true = w.getLsbD 3 := ofBool_eq_fld_iff w 3 true
  have zeros := zero_eq_fld_sum_iff w 3 [1, 4, 22]
  simp only [List.sum_cons, List.sum_nil, Nat.reduceAdd, zeroParts, zero_eq_fld_one_iff, and_true] at zeros
  simp only [fld_append_iff w, Nat.reduceAdd, ofBool_eq_fld_iff, bit, zeros, and_assoc, implies_true, and_self]

theorem wait_reads : Reads 0xB4 (decodeB · 0x4)
    (Sum.elim (fun a : SReg × SReg × Fin 4 × Bool × SReg => Instr.wait a.1 a.2.1 a.2.2.1 a.2.2.2.1 (.reg a.2.2.2.2))
      fun a : SReg × SReg × Fin 4 × Bool × BitVec 22 => Instr.wait a.1 a.2.1 a.2.2.1 a.2.2.2.1 (.ticks a.2.2.2.2)) := by
  refine reads_of_two (E := fun a => encX 0xB4 (sr a.1) a.2.1 a.2.2.2.2 0
    (0#27 ++ BitVec.ofBool a.2.2.2.1 ++ (BitVec.ofFin a.2.2.1 : BitVec 2))) 3 (fun _ => rfl) (fun _ => rfl) (fun w i
      => ?_) (fun w i => ?_)
  all_goals
    cases bit : w.getLsbD 3 <;>
      simp only [decodeB, parseLimit, bit, bind_eq_ok, zeroField_eq_ok, pure_eq_ok, exists_const, Prod.exists,
        encX_eq_iff,
        wait_modifier_iff, ofFin_zero, xD, xSA, xSB, SReg.ofCode_eq_ok, if_true, if_false,
        Bool.false_eq_true, ← toFin_eq_iff_two, ← toFin_eq_iff_six] <;>
      grind

theorem Limits.exists {q : Limits → Prop} : (∃ l, q l) ↔ ∃ a b c d e f g, q ⟨a, b, c, d, e, f, g⟩ :=
  ⟨fun ⟨_, h⟩ => ⟨_, _, _, _, _, _, _, h⟩, fun ⟨_, _, _, _, _, _, _, h⟩ => ⟨_, h⟩⟩

theorem waitout_reads : Reads 0xB5 (decodeB · 0x5) Instr.waitout :=
  reads_of (fun _ => rfl) fun w i => by
    have zeros := zero_eq_fld_sum_iff w 30 [6, 6, 6, 8]
    simp only [List.sum_cons, List.sum_nil, Nat.reduceAdd, zeroParts] at zeros
    simp only [decodeB, bind_eq_ok, zeroField_eq_ok, pure_eq_ok, exists_const, Limits.exists, encX_eq_iff,
      fld_append_iff w, Nat.reduceAdd, ofFin_zero]
    grind

theorem mmacvt_reads : Reads 0xAA (decodeA · 0xA)
    fun a : { a : Slot × TileFmt × Bool × Bool × Bool × Rounding × Option SReg × SReg × Src //
        a.2.2.2.2.2.1 = .sr ∨ a.2.2.2.2.2.2.2.1 = 0 } =>
      Instr.mmacvt a.1.1 a.1.2.1 a.1.2.2.1 a.1.2.2.2.1 a.1.2.2.2.2.1 a.1.2.2.2.2.2.1 a.1.2.2.2.2.2.2.1
        a.1.2.2.2.2.2.2.2.1 a.1.2.2.2.2.2.2.2.2 :=
  reads_of (fun _ => rfl) fun w i => by
    have modes := zero_eq_fld_sum_iff w 16 [5, 1, 1]
    simp only [List.sum_cons, List.sum_nil, Nat.reduceAdd, zeroParts, zero_eq_fld_one_iff] at modes
    simp only [decodeA, bind_eq_ok, zeroField_eq_ok, pure_eq_ok, exists_const, Prod.exists, Subtype.exists,
      Src.exists, rA,
      encR_eq_iff, fld_append_iff w, Nat.reduceAdd, ofBool_eq_fld_iff, TileFmt.permitted_iff, parseRm_eq_ok,
      parseSeed_eq_ok, optSReg_eq_ok, ← Reg.ofCode_eq_iff]
    grind

/-- R203: a slot mask, or the register that holds it. -/
theorem eSlots_eq_iff (w : W64) (op d : BitVec 8) (m : W16 ⊕ SReg) :
    eSlots op d m = w ↔ op = fld w 56 8 ∧ d = fld w 48 8 ∧ slotMask w = .ok m := by
  have zeros := zero_eq_fld_sum_iff w 17 [13, 6, 6]
  have high := zero_eq_fld_sum_iff w 16 [1, 13]
  have bit : 1#1 = fld w 16 1 ↔ true = w.getLsbD 16 := ofBool_eq_fld_iff w 16 true
  simp only [List.sum_cons, List.sum_nil, Nat.reduceAdd, zeroParts, zero_eq_fld_one_iff] at zeros high
  cases m <;> cases mode : w.getLsbD 16 <;>
    simp only [eSlots, slotMask, mode, bit, bind_eq_ok, zeroField_eq_ok, pure_eq_ok, exists_const, encX_eq_iff,
      fld_append_iff w,
      Nat.reduceAdd, ofFin_zero, xSA, if_true, if_false, Bool.false_eq_true, toFin_eq_iff_six, Sum.inl.injEq,
        Sum.inr.injEq, reduceCtorEq] <;>
    grind

theorem sclaim_reads : Reads 0xA5 (decodeA · 0x5) fun a : SReg × (W16 ⊕ SReg) => Instr.sclaim a.1 a.2 :=
  reads_of (fun _ => rfl) fun w i => by
    simp only [decodeA, bind_eq_ok, pure_eq_ok, Prod.exists, eSlots_eq_iff, xD, SReg.ofCode_eq_ok]
    grind

theorem srel_reads : Reads 0xA6 (decodeA · 0x6) Instr.srel :=
  reads_of (fun _ => rfl) fun w i => by
    simp only [decodeA, bind_eq_ok, zeroField_eq_ok, pure_eq_ok, exists_const, eSlots_eq_iff]
    grind

theorem mTs_eq_iff (w : W64) (t : TsRef) (imm : Option W16) :
    mTs t imm = fld w 0 30 ↔ BitVec.ofFin t.scope = fld w 27 3 ∧ t.record.isSome = w.getLsbD 26 ∧
      BitVec.ofFin (t.record.getD 0) = fld w 22 4 ∧ imm.isSome = w.getLsbD 21 ∧ 0#5 = fld w 16 5 ∧ imm.getD 0 = fld w
        0 16 := by
  simp only [mTs, fld_append_iff w, Nat.reduceAdd, ofBool_eq_fld_iff, and_assoc]

/-- R232: the designator as parseTs reads it. -/
theorem parseTs_eq_ok (w : W64) (t : TsRef) :
    parseTs w = .ok t ↔ 0#6 = fld w 30 6 ∧ 0#5 = fld w 16 5 ∧ BitVec.ofFin t.scope = fld w 27 3 ∧
      t.record.isSome = w.getLsbD 26 ∧ BitVec.ofFin (t.record.getD 0) = fld w 22 4 ∧ BitVec.ofFin t.sa = fld w 42 6 :=
        by
  obtain ⟨scope, record, sa⟩ := t
  have none_ : (BitVec.ofFin (0 : BReg) : BitVec 4) = 0#4 := rfl
  cases record <;> cases mode : w.getLsbD 26 <;>
    simp only [parseTs, mode, bind_eq_ok, zeroField_eq_ok, pure_eq_ok, exists_const, TsRef.mk.injEq,
      toFin_eq_iff_three, toFin_eq_iff_four,
      toFin_eq_iff_six, xSA, none_, if_true, if_false, Bool.false_eq_true, Option.isSome_none, Option.isSome_some,
      Option.getD_none, Option.getD_some, reduceCtorEq, Option.some.injEq] <;>
    grind

theorem eTsAmt_eq_iff (w : W64) (op d : BitVec 8) (t : TsRef) (amt : TsAmt) :
    eTsAmt op d t amt = w ↔ op = fld w 56 8 ∧ d = fld w 48 8 ∧ parseTs w = .ok t ∧ parseAmt w = .ok amt := by
  cases amt <;> cases mode : w.getLsbD 21 <;>
    simp only [eTsAmt, parseAmt, mode, parseTs_eq_ok, mTs_eq_iff, encX_eq_iff, ofFin_zero, bind_eq_ok,
      zeroField_eq_ok, pure_eq_ok, exists_const,
      xSB, if_true, if_false, Bool.false_eq_true, Option.isSome_none, Option.isSome_some, Option.getD_none,
        Option.getD_some, toFin_eq_iff_six,
      TsAmt.imm.injEq, TsAmt.reg.injEq, reduceCtorEq] <;>
    grind

theorem encX_ts_eq_iff (w : W64) (op d : BitVec 8) (t : TsRef) (sb : SReg) :
    encX op d t.sa sb 0 (mTs t none) = w ↔
      op = fld w 56 8 ∧ d = fld w 48 8 ∧ parseTs w = .ok t ∧ BitVec.ofFin sb = fld w 36 6 ∧ noImm w = .ok () := by
  simp only [parseTs_eq_ok, mTs_eq_iff, encX_eq_iff, ofFin_zero, noImm, bind_eq_ok, zeroField_eq_ok, exists_const,
    Option.isSome_none, Option.getD_none, zero_eq_fld_one_iff]
  grind

theorem tadd_reads : Reads 0xAF (decodeA · 0xF) fun a : TsRef × TsAmt => Instr.tadd a.1 a.2 :=
  reads_of (fun _ => rfl) fun w i => by
    simp only [decodeA, bind_eq_ok, zeroField_eq_ok, pure_eq_ok, exists_const, Prod.exists, eTsAmt_eq_iff]
    grind

theorem tfetch_reads : Reads 0xB0 (decodeB · 0x0) fun a : SReg × TsRef × TsAmt => Instr.tfetch a.1 a.2.1 a.2.2 :=
  reads_of (fun _ => rfl) fun w i => by
    simp only [decodeB, bind_eq_ok, pure_eq_ok, Prod.exists, eTsAmt_eq_iff, xD, SReg.ofCode_eq_ok]
    grind

theorem tmax_reads : Reads 0xB1 (decodeB · 0x1) fun a : TsRef × SReg => Instr.tmax a.1 a.2 :=
  reads_of (fun _ => rfl) fun w i => by
    simp only [decodeB, bind_eq_ok, zeroField_eq_ok, pure_eq_ok, exists_const, Prod.exists, encX_ts_eq_iff, xSB,
      ← toFin_eq_iff_six]
    grind

theorem tread_reads : Reads 0xB2 (decodeB · 0x2) fun a : SReg × TsRef => Instr.tread a.1 a.2 :=
  reads_of (fun _ => rfl) fun w i => by
    simp only [decodeB, bind_eq_ok, zeroField_eq_ok, pure_eq_ok, exists_const, Prod.exists, encX_ts_eq_iff, xD,
      SReg.ofCode_eq_ok, ofFin_zero]
    grind

theorem treset_reads : Reads 0xB3 (decodeB · 0x3) fun a : SReg × TsRef × SReg => Instr.treset a.1 a.2.1 a.2.2 :=
  reads_of (fun _ => rfl) fun w i => by
    simp only [decodeB, bind_eq_ok, pure_eq_ok, Prod.exists, encX_ts_eq_iff, xD, xSB,
      SReg.ofCode_eq_ok, ← toFin_eq_iff_six]
    grind

/-- R290: the range of a cache word, as cacheRange reads it. -/
theorem cacheRange_reads {op : BitVec 8} {f : Option (SReg × SReg) → Instr}
    (written : ∀ r, encode (f r) = some (eRange op r) := by intros; rfl) : Reads op (cacheRange · f) f :=
  reads_of written fun w i => by
    have zeros := zero_eq_fld_sum_iff w 36 [6, 6]
    have low : 1#30 = fld w 0 30 ↔ 0#29 = fld w 1 29 ∧ BitVec.ofBool true = fld w 0 1 := by
      rw [← fld_append_iff w 0 29 1]
      rfl
    have low' := zero_eq_fld_sum_iff w 0 [1, 29]
    simp only [List.sum_cons, List.sum_nil, Nat.reduceAdd, zeroParts, zero_eq_fld_one_iff, ofBool_eq_fld_iff]
      at zeros low low'
    cases all : w.getLsbD 0 <;>
      simp only [cacheRange, all, bind_eq_ok, zeroField_eq_ok, pure_eq_ok, exists_const, Option.exists, Prod.exists,
        eRange,
        encX_eq_iff, ofFin_zero, xSA, xSB, if_true, if_false, Bool.false_eq_true] <;>
      grind

end Sys2Proof
end

section
/-! PROOFS. Decode and encode agree (R44 to R57). -/

namespace Sys2Proof

theorem opcode_eq_of_halves {w : W64} {k : Nat} (h : (fld w 60 4).toNat = k) :
    fld w 56 8 = BitVec.ofNat 8 (16 * k + (fld w 56 4).toNat) := by
  have whole : fld w 56 8 = fld w 60 4 ++ fld w 56 4 := fld_add w 56 4 4
  have high := (fld w 60 4).isLt
  have low := (fld w 56 4).isLt
  apply BitVec.eq_of_toNat_eq
  rw [whole, BitVec.toNat_append, BitVec.toNat_ofNat, ← h, Nat.shiftLeft_eq, Nat.mul_comm,
    ← Nat.two_pow_add_eq_or_of_lt low]
  omega

/-! What the parser reads is written as the word read, opcode by opcode. -/

section
variable {w : W64} {i : Instr} {lo : Nat}

/-- Where a row of the opcode map reads its family. -/
theorem encode_eq_of_table {decode : W64 → Nat → Parse Instr} {op : BitVec 8} {A : Type} {f : A → Instr}
    (hop : fld w 56 8 = op) (h : decode w lo = .ok i) (row : Reads op (decode · lo) f) : encode i = some w :=
  encode_eq_of_reads row hop h

/-- A row of the opcode map reads a family of instructions. -/
inductive HasRow (decode : W64 → Nat → Parse Instr) (high lo : Nat) : Prop
  | of {A : Type} {f : A → Instr} (row : Reads (BitVec.ofNat 8 (16 * high + lo)) (decode · lo) f)

theorem below_sixteen {P : Nat → Prop} (p0 : P 0) (p1 : P 1) (p2 : P 2) (p3 : P 3) (p4 : P 4) (p5 : P 5) (p6 : P 6)
    (p7 : P 7) (p8 : P 8) (p9 : P 9) (p10 : P 10) (p11 : P 11) (p12 : P 12) (p13 : P 13) (p14 : P 14) (p15 : P 15) :
    ∀ n < 16, P n
  | 0, _ => p0 | 1, _ => p1 | 2, _ => p2 | 3, _ => p3 | 4, _ => p4 | 5, _ => p5 | 6, _ => p6 | 7, _ => p7
  | 8, _ => p8 | 9, _ => p9 | 10, _ => p10 | 11, _ => p11 | 12, _ => p12 | 13, _ => p13 | 14, _ => p14 | 15, _ => p15
  | n + 16, small => absurd small (by omega)

/-- A word of a table whose sixteen rows are each read is written as it was. -/
theorem encode_of_rows {decode : W64 → Nat → Parse Instr} {high : Nat} (rows : ∀ lo < 16, HasRow decode high lo)
    (hop : fld w 56 8 = BitVec.ofNat 8 (16 * high + lo)) (hlo : lo < 16) (h : decode w lo = .ok i) :
    encode i = some w := by
  obtain ⟨row⟩ := rows lo hlo
  exact encode_eq_of_table hop h row

theorem encode_of_decode0 (hop : fld w 56 8 = BitVec.ofNat 8 (16 * 0x0 + lo)) (hlo : lo < 16)
    (h : decode0 w lo = .ok i) : encode i = some w :=
  encode_of_rows (below_sixteen
    (.of (tyR2_reads fun _ _ => rfl)) (.of (i1_reads fun _ => rfl)) (.of (tyR2_reads fun _ _ => rfl))
    (.of (tyBitR2_reads fun _ _ _ => rfl)) (.of (i1_reads fun _ => rfl)) (.of (tyR3_reads fun _ _ => rfl))
    (.of (i1_reads fun _ => rfl)) (.of (tyR2_reads fun _ _ => rfl)) (.of (tyBitR2_reads fun _ _ _ => rfl))
    (.of (tyBitR2_reads fun _ _ _ => rfl)) (.of (tyR2_reads fun _ _ => rfl)) (.of (tyR2_reads fun _ _ => rfl))
    (.of (tyR3_reads fun _ _ => rfl)) (.of (tyBitR1_reads fun _ _ _ => rfl)) (.of (tyBitR1_reads fun _ _ _ => rfl))
    (.of (tyR2_reads fun _ _ => rfl))) hop hlo h

theorem encode_of_decode1 (hop : fld w 56 8 = BitVec.ofNat 8 (16 * 0x1 + lo)) (hlo : lo < 16)
    (h : decode1 w lo = .ok i) : encode i = some w :=
  encode_of_rows (below_sixteen
    (.of (tyR2_reads fun _ _ => rfl)) (.of (carryR2_reads fun _ _ _ _ => rfl))
    (.of (carryR2_reads fun _ _ _ _ => rfl)) (.of (dotR3_reads fun _ _ _ _ _ => rfl))
    (.of (dotR3_reads fun _ _ _ _ _ => rfl)) (.of (tyR3_reads fun _ _ => rfl)) (.of iscadd_reads)
    (.of (tyR2_reads fun _ _ => rfl)) (.of (i1_reads fun _ => rfl)) (.of (tyR2_reads fun _ _ => rfl))
    (.of (i1_reads fun _ => rfl)) (.of (tyR2_reads fun _ _ => rfl)) (.of (i1_reads fun _ => rfl))
    (.of (tyR2_reads fun _ _ => rfl)) (.of lmux_reads) (.of (tyR2_reads fun _ _ => rfl))) hop hlo h

theorem encode_of_decode2 (hop : fld w 56 8 = BitVec.ofNat 8 (16 * 0x2 + lo)) (hlo : lo < 16)
    (h : decode2 w lo = .ok i) : encode i = some w :=
  encode_of_rows (below_sixteen
    (.of (i1_reads fun _ => rfl)) (.of (tyR2_reads fun _ _ => rfl)) (.of (i1_reads fun _ => rfl))
    (.of (tyR2_reads fun _ _ => rfl)) (.of (i1_reads fun _ => rfl)) (.of (tyBitR2_reads fun _ _ _ => rfl))
    (.of fsh_reads) (.of (tyR1_reads fun _ _ => rfl)) (.of (tyR1_reads fun _ _ => rfl))
    (.of (tyR1_reads fun _ _ => rfl)) (.of (tyR1_reads fun _ _ => rfl)) (.of (tyR3_reads fun _ _ => rfl))
    (.of (tyR3_reads fun _ _ => rfl)) (.of bperm_reads) (.of (tyR2_reads fun _ _ => rfl))
    (.of (tyR2_reads fun _ _ => rfl))) hop hlo h

theorem encode_of_decode3 (hop : fld w 56 8 = BitVec.ofNat 8 (16 * 0x3 + lo)) (hlo : lo < 16)
    (h : decode3 w lo = .ok i) : encode i = some w :=
  encode_of_rows (below_sixteen
    (.of (tyR2_reads fun _ _ => rfl)) (.of (i1_reads fun _ => rfl)) (.of iset_reads) (.of isetI_reads)
    (.of sel_reads) (.of plop_reads) (.of pmov_reads) (.of mov_reads) (.of movi_reads) (.of movhi_reads)
    (.of rdlane_reads) (.of wrlane_reads) (.of cvti_reads) (.of (tyR2_reads fun _ _ => rfl))
    (.of (tyBitR1_reads fun _ _ _ => rfl)) (.of (fR2_reads fun _ _ => rfl))) hop hlo h

theorem encode_of_decode4 (hop : fld w 56 8 = BitVec.ofNat 8 (16 * 0x4 + lo)) (hlo : lo < 16)
    (h : decode4 w lo = .ok i) : encode i = some w :=
  encode_of_rows (below_sixteen
    (.of (i1_reads fun _ => rfl)) (.of (fR2_reads fun _ _ => rfl)) (.of (fR2_reads fun _ _ => rfl))
    (.of (i1_reads fun _ => rfl)) (.of (fBitR3_reads fun _ _ _ => rfl)) (.of (i1_reads fun _ => rfl))
    (.of (fR2_reads fun _ _ => rfl)) (.of (fR2_reads fun _ _ => rfl)) (.of (fR3_reads fun _ _ => rfl))
    (.of (fR2_reads fun _ _ => rfl)) (.of (i1_reads fun _ => rfl)) (.of fset_reads)
    (.of (fR1_reads fun _ _ => rfl)) (.of (fR1_reads fun _ _ => rfl)) (.of (fR1_reads fun _ _ => rfl))
    (.of (fR2_reads fun _ _ => rfl))) hop hlo h

theorem encode_of_decode5 (hop : fld w 56 8 = BitVec.ofNat 8 (16 * 0x5 + lo)) (hlo : lo < 16)
    (h : decode5 w lo = .ok i) : encode i = some w :=
  encode_of_rows (below_sixteen
    (.of (fR1_reads fun _ _ => rfl)) (.of (fR1_reads fun _ _ => rfl)) (.of (fR1_reads fun _ _ => rfl))
    (.of (fR1_reads fun _ _ => rfl)) (.of (fR1_reads fun _ _ => rfl)) (.of (fR1_reads fun _ _ => rfl))
    (.of (fR1_reads fun _ _ => rfl)) (.of (fR1_reads fun _ _ => rfl)) (.of (fR1_reads fun _ _ => rfl))
    (.of (fR2_reads fun _ _ => rfl)) (.of (fR1_reads fun _ _ => rfl)) (.of (fR1_reads fun _ _ => rfl))
    (.of (fR2_reads fun _ _ => rfl)) (.of (fR2_reads fun _ _ => rfl)) (.of (fBitR3_reads fun _ _ _ => rfl))
    (.of (fR2_reads fun _ _ => rfl))) hop hlo h

theorem encode_of_decode6 (hop : fld w 56 8 = BitVec.ofNat 8 (16 * 0x6 + lo)) (hlo : lo < 16)
    (h : decode6 w lo = .ok i) : encode i = some w :=
  encode_of_rows (below_sixteen
    (.of (fR2_reads fun _ _ => rfl)) (.of (fR1_reads fun _ _ => rfl)) (.of (fBitR2_reads fun _ _ _ => rfl))
    (.of (fBitR2_reads fun _ _ _ => rfl)) (.of hfma2_reads) (.of (fBitR2_reads fun _ _ _ => rfl))
    (.of (fBitR2_reads fun _ _ _ => rfl)) (.of (fBitR2_reads fun _ _ _ => rfl))
    (.of (fBitR3_reads fun _ _ _ => rfl)) (.of cvtf_reads) (.of cvtfi_reads) (.of cvtif_reads) (.of cvt8_reads)
    (.of cvtmx_reads) (.of cvt4_reads) (.of bra_reads)) hop hlo h

theorem encode_of_decode7 (hop : fld w 56 8 = BitVec.ofNat 8 (16 * 0x7 + lo)) (hlo : lo < 16)
    (h : decode7 w lo = .ok i) : encode i = some w :=
  encode_of_rows (below_sixteen
    (.of brx_reads) (.of call_reads) (.of (cReg_reads fun _ => rfl)) (.of (cReg_reads fun _ => rfl))
    (.of (cNone_reads rfl)) (.of (cImm_reads fun _ => rfl)) (.of (cNone_reads rfl)) (.of (cImm_reads fun _ => rfl))
    (.of (cNone_reads rfl)) (.of (cNone_reads rfl)) (.of (cImm_reads fun _ => rfl)) (.of shfl_reads)
    (.of vote_reads) (.of matchLanes_reads) (.of redux_reads) (.of fredux_reads)) hop hlo h

theorem encode_of_decode8 (hop : fld w 56 8 = BitVec.ofNat 8 (16 * 0x8 + lo)) (hlo : lo < 16)
    (h : decode8 w lo = .ok i) : encode i = some w :=
  encode_of_rows (below_sixteen
    (.of scan_reads) (.of movs_reads) (.of amask_reads) (.of brec_reads) (.of brmk_reads) (.of brset_reads)
    (.of (mLoad_reads fun _ _ => rfl)) (.of (mLoad_reads fun _ _ => rfl)) (.of (mGuarded_reads fun _ _ _ => rfl))
    (.of (mLoad_reads fun _ _ => rfl)) (.of (mGuarded_reads fun _ _ _ => rfl)) (.of atom_reads)
    (.of (mGuarded_reads fun _ _ _ => rfl)) (.of red_reads) (.of prefetch_reads) (.of (mLoad_reads fun _ _ => rfl))) hop hlo h

theorem encode_of_decode9 (hop : fld w 56 8 = BitVec.ofNat 8 (16 * 0x9 + lo)) (hlo : lo < 16)
    (h : decode9 w lo = .ok i) : encode i = some w :=
  encode_of_rows (below_sixteen
    (.of stx_reads) (.of atomx_reads) (.of (cacheRange_reads fun _ => rfl)) (.of (cacheRange_reads fun _ => rfl))
    (.of (cacheRange_reads fun _ => rfl)) (.of fetchbar_reads) (.of pin_reads) (.of unpin_reads) (.of pinq_reads)
    (.of (mmaPlain_reads fun _ => rfl)) (.of (mmaPlain_reads fun _ => rfl)) (.of (mmaPlain_reads fun _ => rfl))
    (.of (mmaPlain_reads fun _ => rfl)) (.of (mmaPlain_reads fun _ => rfl)) (.of (mmaInt_reads fun _ _ _ => rfl))
    (.of (mmaInt_reads fun _ _ _ => rfl))) hop hlo h

theorem encode_of_decodeA (hop : fld w 56 8 = BitVec.ofNat 8 (16 * 0xA + lo)) (hlo : lo < 16)
    (h : decodeA w lo = .ok i) : encode i = some w :=
  encode_of_rows (below_sixteen
    (.of mmaMxf6_reads) (.of mmaMxf4_reads) (.of mmaq_reads) (.of (mmaSparse_reads fun _ _ => rfl))
    (.of (mmaSparse_reads fun _ _ => rfl)) (.of sclaim_reads) (.of srel_reads) (.of sfill_reads) (.of sdrain_reads)
    (.of sxpose_reads) (.of mmacvt_reads) (.of copy_reads) (.of cbload_reads) (.of cpstat_reads)
    (.of cpabort_reads) (.of tadd_reads)) hop hlo h

theorem encode_of_decodeB (hop : fld w 56 8 = BitVec.ofNat 8 (16 * 0xB + lo)) (hlo : lo < 16)
    (h : decodeB w lo = .ok i) : encode i = some w :=
  encode_of_rows (below_sixteen
    (.of tfetch_reads) (.of tmax_reads) (.of tread_reads) (.of treset_reads) (.of wait_reads) (.of waitout_reads)
    (.of fence_reads) (.of launch_reads) (.of qstat_reads) (.of msend_reads) (.of mroute_reads) (.of ecall_reads)
    (.of sysrd_reads) (.of syswr_reads) (.of tlbinv_reads) (.of rdcinv_reads)) hop hlo h

end

theorem encode_of_parse {w : W64} {i : Instr} (h : parse w = .ok i) : encode i = some w := by
  have low := (fld w 56 4).isLt
  unfold parse at h
  split at h
  · exact encode_of_decode0 (opcode_eq_of_halves ‹_›) low h
  · exact encode_of_decode1 (opcode_eq_of_halves ‹_›) low h
  · exact encode_of_decode2 (opcode_eq_of_halves ‹_›) low h
  · exact encode_of_decode3 (opcode_eq_of_halves ‹_›) low h
  · exact encode_of_decode4 (opcode_eq_of_halves ‹_›) low h
  · exact encode_of_decode5 (opcode_eq_of_halves ‹_›) low h
  · exact encode_of_decode6 (opcode_eq_of_halves ‹_›) low h
  · exact encode_of_decode7 (opcode_eq_of_halves ‹_›) low h
  · exact encode_of_decode8 (opcode_eq_of_halves ‹_›) low h
  · exact encode_of_decode9 (opcode_eq_of_halves ‹_›) low h
  · exact encode_of_decodeA (opcode_eq_of_halves ‹_›) low h
  · exact encode_of_decodeB (opcode_eq_of_halves ‹_›) low h
  · cases h

/-! The word of a well-formed instruction is read as that instruction, constructor by constructor. -/

theorem parse_of_encode {i : Instr} {w : W64} (legal : i.wf = true) (hw : encode i = some w) : parse w = .ok i := by
  have fields := Machine.fieldsOk_of_wf legal
  cases i
  case iadd x y | isub x y | imuls x y | imin x y | imax x y | iadds x y | isubs x y | and x y | or x y | xor x y
      | andn x y | shl x y | shr x y | sra x y | sext x y | imsk x y | icmp x y | ipack x y =>
    exact parse_eq_of_reads tyR2_reads ⟨x, y⟩ hw
  case iaddI x | imulI x | imadI x | andI x | orI x | xorI x | shlI x | shrI x | sraI x | icmpI x | faddI x |
      fmulI x | ffmaI x | fcmpI x =>
    exact parse_eq_of_reads i1_reads x hw
  case imul x y z | idiv x y z | irem x y z | rot x y z =>
    exact parse_eq_of_reads tyBitR2_reads ⟨x, y, z⟩ hw
  case imad x y | iclamp x y | isad x y | bfe x y | bfi x y =>
    exact parse_eq_of_reads tyR3_reads ⟨x, y⟩ hw
  case iabs x y z | ineg x y z | iunpack x y z =>
    exact parse_eq_of_reads tyBitR1_reads ⟨x, y, z⟩ hw
  case iaddc x y z u | isubb x y z u =>
    exact parse_eq_of_reads carryR2_reads ⟨x, y, z, u⟩ hw
  case idp4 x y z u v | idp2 x y z u v =>
    exact parse_eq_of_reads dotR3_reads ⟨x, y, z, u, v⟩ hw
  case popc x y | clz x y | ctz x y | brev x y =>
    exact parse_eq_of_reads tyR1_reads ⟨x, y⟩ hw
  case fadd x y | fsub x y | fmul x y | fmin x y | fmax x y | fcmp x y | fdiv x y | fldexp x y | dadd x y | dmul x
      y | dcmp x y | ddiv x y =>
    exact parse_eq_of_reads fR2_reads ⟨x, y⟩ hw
  case ffma x y z | dfma x y z | fdot2 x y z =>
    exact parse_eq_of_reads fBitR3_reads ⟨x, y, z⟩ hw
  case fclamp x y =>
    exact parse_eq_of_reads fR3_reads ⟨x, y⟩ hw
  case frcp x y | frsq x y | fsqrt x y | fex2 x y | flg2 x y | fsin x y | fcos x y | ftanh x y | fsigm x y | fsilu
      x y | ffrc x y | frnd x y | fmant x y | fexpo x y | dsqrt x y =>
    exact parse_eq_of_reads fR1_reads ⟨x, y⟩ hw
  case hadd2 x y z | hmul2 x y z | hmin2 x y z | hmax2 x y z | hcmp2 x y z =>
    exact parse_eq_of_reads fBitR2_reads ⟨x, y, z⟩ hw
  case callx x | ret x =>
    exact parse_eq_of_reads cReg_reads x hw
  case exit | tret | yield | nop =>
    exact parse_eq_of_reads cNone_reads () hw
  case trap x | bkpt x | sleep x =>
    exact parse_eq_of_reads cImm_reads x hw
  case ld x y | ldc x y | ldu x y | ldx x y =>
    exact parse_eq_of_reads mLoad_reads ⟨x, y⟩ hw
  case st x y z | stu x y z | atomcas x y z =>
    exact parse_eq_of_reads mGuarded_reads ⟨x, y, z⟩ hw
  case cwb x | cinv x | icinv x =>
    exact parse_eq_of_reads cacheRange_reads x hw
  case mmaE4m3 x | mmaE5m2 x | mmaBf16 x | mmaF16 x | mmaF32 x =>
    exact parse_eq_of_reads mmaPlain_reads x hw
  case mmaI8 x y z | mmaI4 x y z =>
    exact parse_eq_of_reads mmaInt_reads ⟨x, y, z⟩ hw
  case mmaspE4m3 x y | mmaspBf16 x y =>
    exact parse_eq_of_reads mmaSparse_reads ⟨x, y⟩ hw
  case iscadd t n o => exact parse_eq_of_reads iscadd_reads ⟨t, n, o⟩ hw
  case lmux t f0 f1 o => exact parse_eq_of_reads lmux_reads ⟨t, f0, f1, o⟩ hw
  case fsh left o => exact parse_eq_of_reads fsh_reads ⟨left, o⟩ hw
  case bperm o => exact parse_eq_of_reads bperm_reads o hw
  case iset t c pd o => exact parse_eq_of_reads iset_reads ⟨t, c, pd, o⟩ hw
  case isetI c u pd a imm => exact parse_eq_of_reads isetI_reads ⟨c, u, pd, a, imm⟩ hw
  case sel g w64 inv q o => exact parse_eq_of_reads sel_reads ⟨g, w64, inv, q, o⟩ hw
  case plop pd pa pb lut => exact parse_eq_of_reads plop_reads ⟨pd, pa, pb, lut⟩ hw
  case mov w64 o => exact parse_eq_of_reads mov_reads ⟨w64, o⟩ hw
  case movi d imm => exact parse_eq_of_reads movi_reads ⟨d, imm⟩ hw
  case movhi d imm => exact parse_eq_of_reads movhi_reads ⟨d, imm⟩ hw
  case rdlane d a b => exact parse_eq_of_reads rdlane_reads ⟨d, a, b⟩ hw
  case wrlane d a b => exact parse_eq_of_reads wrlane_reads ⟨d, a, b⟩ hw
  case cvti td ts o => exact parse_eq_of_reads cvti_reads ⟨td, ts, o⟩ hw
  case fset m c pd o => exact parse_eq_of_reads fset_reads ⟨m, c, pd, o⟩ hw
  case hfma2 m bf nc o => exact parse_eq_of_reads hfma2_reads ⟨m, bf, nc, o⟩ hw
  case cvtf fs fd neg abs ftz rm o => exact parse_eq_of_reads cvtf_reads ⟨fs, fd, neg, abs, ftz, rm, o⟩ hw
  case cvtfi fs td ftz rm o => exact parse_eq_of_reads cvtfi_reads ⟨fs, td, ftz, rm, o⟩ hw
  case cvtif ts fd rm o => exact parse_eq_of_reads cvtif_reads ⟨ts, fd, rm, o⟩ hw
  case bra g off => exact parse_eq_of_reads bra_reads ⟨g, off⟩ hw
  case brx g r => exact parse_eq_of_reads brx_reads ⟨g, r⟩ hw
  case call off => exact parse_eq_of_reads call_reads off hw
  case shfl mode seg w64 o => exact parse_eq_of_reads shfl_reads ⟨mode, seg, w64, o⟩ hw
  case vote mode inv q d => exact parse_eq_of_reads vote_reads ⟨mode, inv, q, d⟩ hw
  case matchLanes w64 o => exact parse_eq_of_reads matchLanes_reads ⟨w64, o⟩ hw
  case redux op t o => exact parse_eq_of_reads redux_reads ⟨op, t, o⟩ hw
  case fredux f64 op neg abs ftz rm o => exact parse_eq_of_reads fredux_reads ⟨f64, op, neg, abs, ftz, rm, o⟩ hw
  case scan op t excl o => exact parse_eq_of_reads scan_reads ⟨op, t, excl, o⟩ hw
  case amask live d => exact parse_eq_of_reads amask_reads ⟨live, d⟩ hw
  case brec sp b sa => exact parse_eq_of_reads brec_reads ⟨sp, b, sa⟩ hw
  case brmk b sa => exact parse_eq_of_reads brmk_reads ⟨b, sa⟩ hw
  case brset f b sa => exact parse_eq_of_reads brset_reads ⟨f, b, sa⟩ hw
  case atom g op d m => exact parse_eq_of_reads atom_reads ⟨g, op, d, m⟩ hw
  case red g op d m => exact parse_eq_of_reads red_reads ⟨g, op, d, m⟩ hw
  case prefetch m => exact parse_eq_of_reads prefetch_reads m hw
  case stx d m => exact parse_eq_of_reads stx_reads ⟨d, m⟩ hw
  case atomx op d m => exact parse_eq_of_reads atomx_reads ⟨op, d, m⟩ hw
  case fetchbar => exact parse_eq_of_reads fetchbar_reads () hw
  case pin d sa sb => exact parse_eq_of_reads pin_reads ⟨d, sa, sb⟩ hw
  case unpin d sa sb => exact parse_eq_of_reads unpin_reads ⟨d, sa, sb⟩ hw
  case pinq d sa => exact parse_eq_of_reads pinq_reads ⟨d, sa⟩ hw
  case mmaMxf6 a23 b23 x c o => exact parse_eq_of_reads mmaMxf6_reads ⟨a23, b23, x, c, o⟩ hw
  case mmaMxf4 x c o => exact parse_eq_of_reads mmaMxf4_reads ⟨x, c, o⟩ hw
  case mmaq g x c o => exact parse_eq_of_reads mmaq_reads ⟨g, x, c, o⟩ hw
  case sclaim d mask => exact parse_eq_of_reads sclaim_reads ⟨d, mask⟩ hw
  case srel mask => exact parse_eq_of_reads srel_reads mask hw
  case sfill slot cnt off a => exact parse_eq_of_reads sfill_reads ⟨slot, cnt, off, a⟩ hw
  case sdrain slot cnt off d => exact parse_eq_of_reads sdrain_reads ⟨slot, cnt, off, d⟩ hw
  case sxpose dst src es rc => exact parse_eq_of_reads sxpose_reads ⟨dst, src, es, rc⟩ hw
  case copy d sa => exact parse_eq_of_reads copy_reads ⟨d, sa⟩ hw
  case cbload n d sa => exact parse_eq_of_reads cbload_reads ⟨n, d, sa⟩ hw
  case cpstat d sa => exact parse_eq_of_reads cpstat_reads ⟨d, sa⟩ hw
  case tadd t amt => exact parse_eq_of_reads tadd_reads ⟨t, amt⟩ hw
  case tfetch d t amt => exact parse_eq_of_reads tfetch_reads ⟨d, t, amt⟩ hw
  case tmax t sb => exact parse_eq_of_reads tmax_reads ⟨t, sb⟩ hw
  case tread d t => exact parse_eq_of_reads tread_reads ⟨d, t⟩ hw
  case treset d t sb => exact parse_eq_of_reads treset_reads ⟨d, t, sb⟩ hw
  case waitout l => exact parse_eq_of_reads waitout_reads l hw
  case fence scope => exact parse_eq_of_reads fence_reads scope hw
  case launch d sa => exact parse_eq_of_reads launch_reads ⟨d, sa⟩ hw
  case qstat d sa what => exact parse_eq_of_reads qstat_reads ⟨d, sa, what⟩ hw
  case mroute nw d sa => exact parse_eq_of_reads mroute_reads ⟨nw, d, sa⟩ hw
  case ecall call n d sa => exact parse_eq_of_reads ecall_reads ⟨call, n, d, sa⟩ hw
  case sysrd reg d sa => exact parse_eq_of_reads sysrd_reads ⟨reg, d, sa⟩ hw
  case syswr reg d sa sb => exact parse_eq_of_reads syswr_reads ⟨reg, d, sa, sb⟩ hw
  case tlbinv kind vf d sa sb sc => exact parse_eq_of_reads tlbinv_reads ⟨kind, vf, d, sa, sb, sc⟩ hw
  case rdcinv kind d sa sb => exact parse_eq_of_reads rdcinv_reads ⟨kind, d, sa, sb⟩ hw
  case pmovToReg d => exact parse_eq_of_reads pmov_reads (.inl d) hw
  case pmovToPred a mask => exact parse_eq_of_reads pmov_reads (.inr ⟨a, mask⟩) hw
  case cvt8Encode sat e5m2 wf hi ftz rm seed o =>
    have seeded : rm = .sr ∨ seed = 0 := by simp_all [Instr.fieldsOk]
    exact parse_eq_of_reads cvt8_reads (.inl ⟨⟨sat, e5m2, wf, hi, ftz, rm, seed, o⟩, seeded⟩) hw
  case cvt8Decode e5m2 wf pos ftz o => exact parse_eq_of_reads cvt8_reads (.inr ⟨e5m2, wf, pos, ftz, o⟩) hw
  case cvtmxEncode ef ftz rm seed o =>
    have seeded : rm = .sr ∨ seed = 0 := by simp_all [Instr.fieldsOk]
    exact parse_eq_of_reads cvtmx_reads (.inl ⟨⟨ef, ftz, rm, seed, o⟩, seeded⟩) hw
  case cvtmxDecode ef ftz rm o => exact parse_eq_of_reads cvtmx_reads (.inr ⟨ef, ftz, rm, o⟩) hw
  case cvt4Pack o => exact parse_eq_of_reads cvt4_reads (.inl o) hw
  case cvt4Deq o => exact parse_eq_of_reads cvt4_reads (.inr o) hw
  case movsRead s d => exact parse_eq_of_reads movs_reads (.inl ⟨s, d⟩) hw
  case movsWrite a => exact parse_eq_of_reads movs_reads (.inr a) hw
  case msend nw gtd t eth vreg len d sa sb => exact parse_eq_of_reads msend_reads (.inl ⟨nw, gtd, t, eth, vreg, len, d, sa, sb⟩) hw
  case msendSp nw gtd t eth len d sa sb sc => exact parse_eq_of_reads msend_reads (.inr ⟨nw, gtd, t, eth, len, d, sa, sb, sc⟩) hw
  case mmacvt slot fmt sat t ftz rm off seed a =>
    have seeded : rm = .sr ∨ seed = 0 := by simp_all [Instr.fieldsOk]
    exact parse_eq_of_reads mmacvt_reads ⟨⟨slot, fmt, sat, t, ftz, rm, off, seed, a⟩, seeded⟩ hw
  case cpabort s =>
    cases s with
    | none => exact parse_eq_of_reads cpabort_reads (.inr ()) hw
    | some s => exact parse_eq_of_reads cpabort_reads (.inl s) hw
  case wait d sa n all limit =>
    cases limit with
    | ticks k => exact parse_eq_of_reads wait_reads (.inr ⟨d, sa, n, all, k⟩) hw
    | reg s => exact parse_eq_of_reads wait_reads (.inl ⟨d, sa, n, all, s⟩) hw
  all_goals cases hw

theorem decode_eq_ok {w : W64} {i : Instr} : decode w = .ok i ↔ parse w = .ok i ∧ i.wf = true := by
  unfold decode
  cases parse w with
  | ok j =>
    constructor
    · intro h
      dsimp only at h
      split at h
      · cases h
        exact ⟨rfl, ‹_›⟩
      · cases h
    · rintro ⟨h, wf⟩
      cases h
      exact if_pos wf
  | error e => exact ⟨nofun, fun h => nomatch h.1⟩

/-- Settles O3: the parser reads exactly the words that the encoder writes, and decoding adds that what is read is well
formed. -/
theorem decodeAndEncodeAgree : Obligations.DecodeAndEncodeAgree :=
  ⟨fun _ _ wf hw => decode_eq_ok.mpr ⟨parse_of_encode wf hw, wf⟩, fun _ _ h =>
    have ⟨parsed, wf⟩ := decode_eq_ok.mp h
    ⟨wf, encode_of_parse parsed⟩⟩

end Sys2Proof
end

section
/-! PROOFS. Thread arithmetic: integer arithmetic and moves (R89, R95, R109, R114). -/

namespace Sys2Proof.Machine

theorem LaneDone.congr {s : State} {c : Ctx} {i : Instr} {d : Opnd} {sx : Bool} {x y : Nat → Nat}
    (h : LaneDone s c i d sx x) (same : ∀ l, x l = y l) : LaneDone s c i d sx y := funext same ▸ h

theorem ElemDone.congr {s : State} {c : Ctx} {i : Instr} {t : IntTy} {d : Opnd} {sx : Bool} {g g' : Nat → Nat → Int}
    (h : ElemDone s c i t d sx g) (same : ∀ l j, g l j = g' l j) : ElemDone s c i t d sx g' := by
  obtain rfl : g = g' := funext fun l => funext fun j => same l j
  exact h

theorem uval_uval (w a : Nat) : uval w (uval w a) = uval w a := Nat.mod_mod _ _

theorem neg_or_self_eq_natAbs (a : Int) : (if a < 0 then -a else a) = (a.natAbs : Int) := by
  split <;> omega

theorem lt_pick_eq_min (a b : Int) : (if a < b then a else b) = min a b := by
  rw [Int.min_def]
  split <;> split <;> omega

theorem gt_pick_eq_max (a b : Int) : (if a > b then a else b) = max a b := by
  rw [Int.max_def]
  split <;> split <;> omega

theorem integerElementResults : IntegerElementResults := by
  intro s c t o o1 o3
  have dn : (o.d.opnd t.regs).n ≤ 64 := regs_le t
  have dn1 : (o1.d.opnd t.regs).n ≤ 64 := regs_le t
  have dn3 : (o3.d.opnd t.regs).n ≤ 64 := regs_le t
  refine ⟨?add, ?sub, ?mulLow, ?mulHigh, ?mad, ?muls, ?adds, ?subs, ?min, ?max, ?clamp, ?abs, ?absSat, ?neg, ?negSat,
    fun k => ?scadd, ?cmp⟩
  case add | sub | mulLow | mulHigh | muls | adds | subs | scadd | cmp =>
    exact ElemDone.congr (elem2 rfl rfl rfl dn) fun _ _ => rfl
  case mad => exact ElemDone.congr (elem3 rfl rfl rfl dn3) fun _ _ => rfl
  case neg | negSat => exact ElemDone.congr (elem1 rfl rfl rfl dn1) fun _ _ => rfl
  case min => exact ElemDone.congr (elem2 rfl rfl rfl dn) fun l j => lt_pick_eq_min _ _
  case max => exact ElemDone.congr (elem2 rfl rfl rfl dn) fun l j => gt_pick_eq_max _ _
  case clamp =>
    refine ElemDone.congr (elem3 rfl rfl rfl dn3) fun l j => ?_
    simp only [gt_pick_eq_max, lt_pick_eq_min]
    rfl
  case abs => exact ElemDone.congr (elem1 rfl rfl rfl dn1) fun l j => neg_or_self_eq_natAbs _
  case absSat => exact ElemDone.congr (elem1 rfl rfl rfl dn1) fun l j => congrArg t.sat (neg_or_self_eq_natAbs _)

/-- One v register of each lane of m replaced. -/
theorem putOne_written (t : Troupe) (m : LaneMask) (r : Nat) (x : W32) (taint poison : Nat → Bool) (hr : r < 256) :
    VWritten t { t with lane := (lanes m).foldl (fun g l => g.put l r x (taint l) (poison l)) t.lane } m r 1
      (fun _ => x.toNat) taint poison := by
  have hcell := fun l q (hl : l < 64) (hq : q < 256) =>
    putLanes_cell (lanes m) t.lane r 1 (fun _ _ => x) taint poison (by omega) l q hl hq
  have hpreds := putLanes_preds (lanes m) t.lane r 1 (fun _ _ => x) taint poison
  simp only [List.range_one, List.foldl_cons, List.foldl_nil, Nat.add_zero] at hcell hpreds
  have inside : ∀ l < 64, m.getLsbD l = true →
      ((lanes m).foldl (fun g l => g.put l r x (taint l) (poison l)) t.lane).cell l r = (x, false, taint l, poison l)
        := by
    intro l hl hm
    rw [hcell l r hl hr, if_pos ⟨mem_lanes.mpr ⟨hl, hm⟩, by omega, by omega⟩]
  refine ⟨?_, ?_, ?_, ?_, ?_, hpreds, rfl⟩
  case refine_5 =>
    intro l hl q hq out
    have same := hcell l q hl hq
    have elsewhere : ¬ (l ∈ lanes m ∧ r ≤ q ∧ q < r + 1) := by
      rintro ⟨hin, within⟩
      obtain out | out := out
      · simp [(mem_lanes.mp hin).2] at out
      · omega
    rw [if_neg elsewhere] at same
    simpa [LaneRegs.cell] using same
  all_goals
    intro l hl hm j hj
    obtain rfl : j = 0 := by omega
    have cell := inside l hl hm
    simp only [LaneRegs.cell, Prod.mk.injEq] at cell
    simp [cell]

theorem movhi_scalar (s : State) (c : Ctx) (imm : W32) (k : SReg) (h : AtIssue s c (.movhi (.s k) imm) c.mask) :
    Completes s c (.movhi (.s k) imm) fun t =>
      SWritten c.t t k (BitVec.ofNat 64 (imm.toNat * 2 ^ 32 + uval 32 (c.t.s k).toNat)) (c.t.sBad k) := by
  refine ⟨_, ?_, putS_written c.t k _ _⟩
  show execMovhi (.s k) imm s = _
  unfold execMovhi
  rw [onTroupe_some h.1, whenReady_go _ h.2]

theorem movhi_lanes (s : State) (c : Ctx) (imm : W32) (r : Fin 192) (h : AtIssue s c (.movhi (.v r) imm) c.mask) :
    Completes s c (.movhi (.v r) imm) fun t =>
      VWritten c.t t c.mask (r.val + 1) 1 (fun _ => imm.toNat)
        (fun l => laneBit c.t.lane.taint r.val l) (fun l => laneBit c.t.lane.poison r.val l) := by
  refine ⟨_, ?_, putOne_written c.t c.mask (r.val + 1) imm _ _ (by omega)⟩
  show execMovhi (.v r) imm s = _
  unfold execMovhi
  rw [onTroupe_some h.1, whenReady_go _ h.2]
  simp [Troupe.tainted, Troupe.poisoned, vRegs, Reg.opnd1]

theorem immediateAndMoveResults : ImmediateAndMoveResults := by
  intro s c o o1 d imm
  have one : 1 ≤ 64 := by decide
  have two : 2 ≤ 64 := by decide
  have shrI : ∀ l, (if immWidth o.d ≤ o.imm.toNat then 0 else uval (immWidth o.d) (c.val 1 o.a l) / 2 ^ o.imm.toNat) =
      shrW (immWidth o.d) (uval (immWidth o.d) (c.val 1 o.a l)) o.imm.toNat := fun l => by rw [shrW, uval_uval]
  exact ⟨lane_done rfl rfl one fun _ => rfl, lane_done rfl rfl one fun _ => rfl, lane_done rfl rfl one fun _ => rfl,
    lane_done rfl rfl one fun _ => rfl, lane_done rfl rfl one fun _ => rfl, lane_done rfl rfl one fun _ => rfl,
    lane_done rfl rfl one fun _ => rfl, lane_done rfl rfl one shrI, lane_done rfl rfl one fun _ => rfl,
    lane_done rfl rfl one fun _ => rfl, lane_done rfl rfl one fun _ => rfl, lane_done rfl rfl two fun _ => rfl,
    lane_done rfl rfl one fun _ => rfl, movhi_scalar s c imm, movhi_lanes s c imm⟩

/-- Settles O8, from the elements of each operand and the immediate forms. -/
theorem integerArithmeticResults : Obligations.IntegerArithmeticResults :=
  ⟨integerElementResults, immediateAndMoveResults⟩

end Sys2Proof.Machine
end

section
/-! PROOFS. Thread arithmetic: logic, shifts and bit fields (R100 to R107). -/

namespace Sys2Proof.Machine

theorem one_le_64 : 1 ≤ 64 := by decide

theorem two_le_64 : 2 ≤ 64 := by decide

theorem notN_uval (w a : Nat) : notN w (uval w a) = 2 ^ w - 1 - uval w a := by rw [notN, uval_uval]

/-- A shift of a scalar type, by the amount its control operand gives. -/
theorem shiftBy_scalar {t : IntTy} (h : t.scalar = true) (f : Nat → Nat → Nat → Nat) (a b : Nat) :
    shiftBy t f a b = f t.ew (uval t.ew a) (uval 32 b) := if_pos h

/-- A shift of a packed type, element by element. -/
theorem shiftBy_packed {t : IntTy} (h : t.scalar = false) (f : Nat → Nat → Nat → Nat) (a b : Nat) :
    shiftBy t f a b =
      joinElems t.ew (((elems t.count t.ew a).zip (elems t.count t.ew b)).map fun x => f t.ew x.1 x.2) :=
  if_neg (by simp [h])

/-- A packed type's registers are one v register. -/
theorem regs_of_packed {t : IntTy} (h : t.scalar = false) : t.regs = 1 := by
  cases t <;> first | rfl | cases h

/-- The two funnel shifts at once: they differ in which half of the shifted double word they give. -/
theorem fsh_done (s : State) (c : Ctx) (left : Bool) (o3 : R3) :
    LaneDone s c (.fsh left o3) (o3.d.opnd 1) false fun l =>
      let x := uval 32 (c.val 1 o3.b l) * 2 ^ 32 + uval 32 (c.val 1 o3.a l)
      let n := c.val 1 o3.c l % 64
      if left then bitsOf (uval 64 (x * 2 ^ n)) 32 32 else bitsOf x n 32 := by
  have hi : exec (.fsh left o3) s = execFsh left o3 s := rfl
  unfold execFsh at hi
  exact lane_done hi rfl one_le_64 fun _ => rfl

theorem fsh_left (s : State) (c : Ctx) (o3 : R3) :
    LaneDone s c (.fsh true o3) (o3.d.opnd 1) false fun l =>
      bitsOf ((uval 32 (c.val 1 o3.b l) * 2 ^ 32 + uval 32 (c.val 1 o3.a l)) * 2 ^ (c.val 1 o3.c l % 64) % 2 ^ 64)
        32 32 := by
  have := fsh_done s c true o3
  simp only [if_true] at this
  exact this

theorem fsh_right (s : State) (c : Ctx) (o3 : R3) :
    LaneDone s c (.fsh false o3) (o3.d.opnd 1) false fun l =>
      bitsOf (uval 32 (c.val 1 o3.b l) * 2 ^ 32 + uval 32 (c.val 1 o3.a l)) (c.val 1 o3.c l % 64) 32 := by
  have := fsh_done s c false o3
  simp only [Bool.false_eq_true, if_false] at this
  exact this

theorem logicAndShiftResults : LogicAndShiftResults := by
  intro s c t f0 f1 o o3
  have dn : (o.d.opnd t.regs).n ≤ 64 := regs_le t
  have dn3 : (o3.d.opnd t.regs).n ≤ 64 := regs_le t
  refine ⟨lane_done rfl rfl dn fun _ => rfl, lane_done rfl rfl dn fun _ => rfl, lane_done rfl rfl dn fun _ => rfl,
    lane_done rfl rfl dn fun l => ?andn, lane_done rfl rfl dn3 fun l => ?lmux, fun scalar => ⟨?_, ?_, ?_⟩,
    fun packed => ⟨?_, ?_, ?_⟩, lane_done rfl rfl dn fun _ => rfl, lane_done rfl rfl dn fun _ => rfl,
    fsh_left s c o3, fsh_right s c o3⟩
  case andn => exact congrArg _ (notN_uval _ _).symm
  case lmux =>
    show _ = (lutBits _ _ _ _ &&& _) ||| (lutBits _ _ _ _ &&& notN t.ew (uval t.ew _))
    rw [notN_uval]
    rfl
  all_goals refine lane_done rfl rfl dn fun l => ?_
  case refine_1 => exact (shiftBy_scalar scalar shlW _ _).symm
  case refine_2 =>
    refine Eq.trans ?_ (shiftBy_scalar scalar shrW _ _).symm
    rw [shrW, uval_uval]
    rfl
  case refine_3 => exact (shiftBy_scalar scalar sraW _ _).symm
  all_goals
    rw [← show c.val t.regs o.a l = c.val 1 o.a l by rw [regs_of_packed packed]]
  case refine_4 => exact (shiftBy_packed packed shlW _ _).symm
  case refine_5 => exact (shiftBy_packed packed shrW _ _).symm
  case refine_6 => exact (shiftBy_packed packed sraW _ _).symm

theorem bitFieldResults : BitFieldResults := by
  intro s c t o1 o o3
  have dn : (o.d.opnd t.regs).n ≤ 64 := regs_le t
  have dn1 : (o1.d.opnd t.regs).n ≤ 64 := regs_le t
  have dn3 : (o3.d.opnd t.regs).n ≤ 64 := regs_le t
  exact ⟨lane_done rfl rfl one_le_64 fun _ => rfl, lane_done rfl rfl one_le_64 fun _ => rfl,
    lane_done rfl rfl one_le_64 fun _ => rfl, lane_done rfl rfl dn1 fun _ => rfl, lane_done rfl rfl dn3 fun _ => rfl,
    lane_done rfl rfl dn3 fun _ => rfl, lane_done rfl rfl one_le_64 fun _ => rfl, lane_done rfl rfl dn fun _ => rfl,
    lane_done rfl rfl dn fun _ => rfl⟩

/-- Settles O12, each instruction by its shape. -/
theorem logicAndFieldResults : Obligations.LogicAndFieldResults :=
  ⟨logicAndShiftResults, bitFieldResults⟩

end Sys2Proof.Machine
end

section
/-! PROOFS. Comparisons, predicates and selection (R108 to R113, R127), and lanes read and written alone (R115,
R116). -/

namespace Sys2Proof.Machine

/-- An instruction whose registers are ready takes its own effect. -/
theorem exec_ready {s k : State} {c : Ctx} {i : Instr} {m : LaneMask} {f : Ctx → State} (h : AtIssue s c i m)
    (hi : exec i s = onTroupe s f) (hf : f c = s.whenReady c i m k) : exec i s = .next k := by
  rw [hi, onTroupe_some h.1, hf, whenReady_go _ h.2]

theorem plop_done (s : State) (c : Ctx) (pd pa pb : Pred) (lut : BitVec 4) (h : s.ctx? = some c) :
    Completes s c (.plop pd pa pb lut) fun t => PredWritten c.t t c.mask pd
      (fun l => lut.getLsbD (2 * (c.t.pred pa l).toNat + (c.t.pred pb l).toNat))
      (fun l => c.t.predBad pa l || c.t.predBad pb l) :=
  ⟨_, onTroupe_some h _, writePred_written c.t c.mask pd _⟩

theorem sumNat_eq_sum (l : List Nat) : sumNat l = l.sum := List.sum_eq_foldl.symm

theorem pmovToReg_done (s : State) (c : Ctx) (d : Reg) (h : AtIssue s c (.pmovToReg d) c.mask) :
    Completes s c (.pmovToReg d) fun t => RegWritten c.t t c.mask (d.opnd 1) false
      (fun l => (allPreds.map fun q => if c.t.pred q l then 2 ^ q.val else 0).sum) (fun _ => false)
      (fun l => allPreds.any fun q => c.t.predBad q l) := by
  refine ⟨_, exec_ready h rfl rfl, ?_⟩
  simp only [← sumNat_eq_sum]
  exact write_written c.t c.mask (d.opnd 1) false _ one_le_64

/-- A predicate written in the lanes of m, or left alone. -/
def Troupe.writePredIf (t : Troupe) (m : LaneMask) (b : Bool) (p : Pred) (f : Nat → Bool × Bool) : Troupe :=
  if b then t.writePred m p f else t

theorem writePreds_others (m : LaneMask) (mask : Pred → Bool) (f : Pred → Nat → Bool × Bool) (ps : List Pred)
    (t : Troupe) (q : Pred) (l : Nat) (hl : l < 64) (out : m.getLsbD l = false ∨ mask q = false ∨ q ∉ ps) :
    let u := ps.foldl (fun t p => t.writePredIf m (mask p) p (f p)) t
    u.pred q l = t.pred q l ∧ u.predBad q l = t.predBad q l := by
  induction ps generalizing t with
  | nil => exact ⟨rfl, rfl⟩
  | cons p ps ih =>
    have tail := ih (t.writePredIf m (mask p) p (f p)) (out.imp_right (Or.imp_right fun h hq => h (.tail _ hq)))
    have head : (t.writePredIf m (mask p) p (f p)).pred q l = t.pred q l ∧
        (t.writePredIf m (mask p) p (f p)).predBad q l = t.predBad q l := by
      unfold Troupe.writePredIf
      split
      next hp =>
        refine (writePred_written t m p (f p)).others l hl q ?_
        rcases out with h | h | h
        · exact .inl h
        · exact .inr fun e => by simp [e, hp] at h
        · exact .inr fun e => h (e ▸ .head _)
      next => exact ⟨rfl, rfl⟩
    exact ⟨tail.1.trans head.1, tail.2.trans head.2⟩

theorem writePreds_value (m : LaneMask) (mask : Pred → Bool) (f : Pred → Nat → Bool × Bool) (ps : List Pred)
    (t : Troupe) (q : Pred) (l : Nat) (hl : l < 64) (hm : m.getLsbD l = true) (hq : mask q = true) (mem : q ∈ ps) :
    let u := ps.foldl (fun t p => t.writePredIf m (mask p) p (f p)) t
    u.pred q l = (f q l).1 ∧ u.predBad q l = (f q l).2 := by
  induction ps generalizing t with
  | nil => cases mem
  | cons p ps ih =>
    by_cases later : q ∈ ps
    · exact ih _ later
    · obtain rfl : q = p := (List.mem_cons.mp mem).resolve_right later
      have rest := writePreds_others m mask f ps (t.writePredIf m (mask q) q (f q)) q l hl (.inr (.inr later))
      have here : t.writePredIf m (mask q) q (f q) = t.writePred m q (f q) := if_pos hq
      have w := writePred_written t m q (f q)
      rw [here] at rest
      simp only [List.foldl_cons, here]
      exact ⟨rest.1.trans (w.value l hl hm), rest.2.trans (w.poison l hl hm)⟩

theorem writePreds_frame (m : LaneMask) (mask : Pred → Bool) (f : Pred → Nat → Bool × Bool) (ps : List Pred)
    (t : Troupe) :
    let u := ps.foldl (fun t p => t.writePredIf m (mask p) p (f p)) t
    (u.lane.v = t.lane.v ∧ u.lane.empty = t.lane.empty ∧ u.lane.taint = t.lane.taint ∧
      u.lane.poison = t.lane.poison) ∧ { u with lane := t.lane } = t := by
  induction ps generalizing t with
  | nil => exact ⟨⟨rfl, rfl, rfl, rfl⟩, rfl⟩
  | cons p ps ih =>
    have head : ∃ g : LaneRegs, t.writePredIf m (mask p) p (f p) = { t with lane := g } ∧
        g.v = t.lane.v ∧ g.empty = t.lane.empty ∧ g.taint = t.lane.taint ∧ g.poison = t.lane.poison := by
      unfold Troupe.writePredIf
      split
      · exact ⟨_, rfl, (writePred_written t m p (f p)).regs⟩
      · exact ⟨t.lane, rfl, rfl, rfl, rfl, rfl⟩
    obtain ⟨g, hg, hv, he, ht, hp⟩ := head
    obtain ⟨⟨iv, ie, it, ip⟩, rest⟩ := ih (t.writePredIf m (mask p) p (f p))
    rw [hg] at iv ie it ip rest
    simp only [List.foldl_cons, hg]
    refine ⟨⟨iv.trans hv, ie.trans he, it.trans ht, ip.trans hp⟩, ?_⟩
    exact congrArg (fun u : Troupe => { u with lane := t.lane }) rest

/-- What pmov into the predicates leaves (R113). -/
theorem pmovToPred_done (s : State) (c : Ctx) (a : Src) (mask : BitVec 8)
    (h : AtIssue s c (.pmovToPred a mask) c.mask) :
    Completes s c (.pmovToPred a mask) fun t =>
      (∀ q : Pred, ∀ l < 64, c.mask.getLsbD l = true → mask.getLsbD q.val = true →
        t.pred q l = bitN (c.val 1 a l) q.val ∧ t.predBad q l = c.t.poisoned l (a.opnd 1)) ∧
      (∀ q : Pred, ∀ l < 64, (c.mask.getLsbD l = false ∨ mask.getLsbD q.val = false) →
        t.pred q l = c.t.pred q l ∧ t.predBad q l = c.t.predBad q l) ∧
      t.lane.v = c.t.lane.v ∧ t.lane.empty = c.t.lane.empty ∧ t.lane.taint = c.t.lane.taint ∧
      t.lane.poison = c.t.lane.poison ∧ { t with lane := c.t.lane } = c.t := by
  have run : exec (.pmovToPred a mask) s = execPmovToPred a mask s := rfl
  unfold execPmovToPred at run
  refine ⟨_, exec_ready h run rfl, ?_⟩
  have all : ∀ q : Pred, q ∈ allPreds := by decide
  generalize allPreds = ps at all
  obtain ⟨⟨hv, he, ht, hp⟩, rest⟩ :=
    writePreds_frame c.mask (fun p => mask.getLsbD p.val)
      (fun p l => (bitN (c.val 1 a l) p.val, c.t.poisoned l (a.opnd 1))) ps c.t
  exact ⟨fun q l hl hm hq => writePreds_value c.mask _ _ ps c.t q l hl hm hq (all q),
    fun q l hl out => writePreds_others c.mask _ _ ps c.t q l hl (out.imp_right .inl), hv, he, ht, hp, rest⟩

/-- Settles O13, the comparisons by their shape and pmov predicate by predicate. -/
theorem predicateResults : Obligations.PredicateResults := by
  intro s c t cc u pd pa pb p a imm m fc lut d mask
  have iset : exec (.iset t cc pd p) s = execIset t cc pd p s := rfl
  have isetI : exec (.isetI cc u pd a imm) s = execIsetI cc u pd a imm s := rfl
  have fset : exec (.fset m fc pd p) s = execFset m fc pd p s := rfl
  unfold execIset at iset
  unfold execIsetI at isetI
  unfold execFset at fset
  exact ⟨pred_done iset fun _ => rfl, pred_done isetI fun _ => rfl, pred_done fset fun _ => rfl,
    plop_done s c pd pa pb lut, pmovToReg_done s c d, pmovToPred_done s c a mask⟩

theorem selectResults : SelectResults := by
  intro s c g w64 inv q o n i m pick h
  have run : exec i s = .next (if c.guardBad g ≠ 0 then s.raise c causePoison 0 0 (c.guardBad g)
      else s.advance c (c.t.write m (o.d.opnd n) false fun l =>
        let e := if c.t.pred q l ≠ inv then o.a.opnd n else o.b.opnd n
        (c.t.value l e, c.t.srcTaint l [o.a.opnd n, o.b.opnd n], c.t.poisoned l e || c.t.predBad q l))) :=
    exec_ready h rfl rfl
  have opnd : ∀ l, (if c.t.pred q l ≠ inv then o.a.opnd n else o.b.opnd n) = (pick l).opnd n :=
    fun l => (apply_ite (fun x : Src => x.opnd n) _ _ _).symm
  have dn : (o.d.opnd n).n ≤ 64 := by
    show (if w64 then 2 else 1) ≤ 64
    split <;> decide
  simp only [opnd] at run
  refine ⟨fun good => ⟨_, run.trans (by rw [if_neg (not_not_intro good)]), ?_⟩, fun bad => run.trans (by rw [if_pos bad])⟩
  exact write_written c.t m (o.d.opnd n) false _ dn

theorem rdlane_done (s : State) (c : Ctx) (d : Reg) (a : Src) (b : SReg) (n : Nat) (hn : n = (c.t.s b).toNat % 64)
    (h : s.ctx? = some c) (ready : s.ready c [(Reg.s b).opnd 1] [d.opnd 1] c.mask = .go)
    (full : c.t.exited.getLsbD n = true ∨ (c.t.emptyLanes (a.opnd 1)).getLsbD n = false)
    (there : s.inFlight c.key (a.opnd 1) = false) :
    Completes s c (.rdlane d a b) fun t => RegWritten c.t t c.mask (d.opnd 1) false
      (fun _ => if c.t.exited.getLsbD n then 0 else (c.t.lane.get n (regField a.reg)).toNat)
      (fun _ => !c.t.exited.getLsbD n && laneBit c.t.lane.taint (regField a.reg) n)
      (fun _ => (!c.t.exited.getLsbD n && laneBit c.t.lane.poison (regField a.reg) n) || c.t.sBad b) := by
  subst hn
  have settled : (!c.t.exited.getLsbD ((c.t.s b).toNat % 64) &&
      (c.t.emptyLanes (a.opnd 1)).getLsbD ((c.t.s b).toNat % 64)) = false := by
    rcases full with h | h <;> simp [h]
  refine ⟨c.t.write c.mask (d.opnd 1) false fun _ =>
    let r := c.t.laneRead ((c.t.s b).toNat % 64) (regField a.reg)
    (r.1, r.2.1, r.2.2 || c.t.sBad b), (onTroupe_some h _).trans ?_, ?_⟩
  · simp [ready, settled, there]
  · have w := write_written c.t c.mask (d.opnd 1) false (fun _ =>
      let r := c.t.laneRead ((c.t.s b).toNat % 64) (regField a.reg)
      (r.1, r.2.1, r.2.2 || c.t.sBad b)) one_le_64
    simp only [Troupe.laneRead] at w ⊢
    by_cases gone : c.t.exited.getLsbD ((c.t.s b).toNat % 64) = true
    · simpa [gone] using w
    · simpa [gone] using w

theorem laneAccessResults : LaneAccessResults := by
  intro s c d a sa b
  refine ⟨rdlane_done s c d a b _ rfl, fun h => ⟨_, exec_ready h rfl rfl, ?_⟩⟩
  exact write_written c.t _ (d.opnd 1) false _ one_le_64

/-- Settles O14, from what a write of a destination leaves. -/
theorem laneAndSelectResults : Obligations.LaneAndSelectResults :=
  ⟨selectResults, laneAccessResults⟩

end Sys2Proof.Machine
end

section
/-! PROOFS. Integer conversion and packing (R15, R117 to R119), and floating-point arithmetic (R120 to R130). -/

namespace Sys2Proof.Machine

/-- Clamping to a range that is not empty. -/
theorem clampI_eq {lo hi : Int} (h : lo ≤ hi) (z : Int) : clampI lo hi z = max lo (min hi z) := by
  unfold clampI
  split
  · omega
  · split <;> omega

theorem satI_signed (w : Nat) (z : Int) :
    satI true w z = max (-((2 ^ (w - 1) : Nat) : Int)) (min (((2 ^ (w - 1) : Nat) : Int) - 1) z) :=
  clampI_eq (by have := Nat.two_pow_pos (w - 1); omega) z

theorem satI_unsigned (w : Nat) (z : Int) : satI false w z = max 0 (min (((2 ^ w : Nat) : Int) - 1) z) :=
  clampI_eq (by have := Nat.two_pow_pos w; omega) z

/-- The clamp of R14, by the ends of the range. -/
theorem satI_eq_clamp (sg : Bool) (w : Nat) (z : Int) :
    satI sg w z = max (if sg then -((2 ^ (w - 1) : Nat) : Int) else 0)
      (min (((2 ^ (if sg then w - 1 else w) : Nat) : Int) - 1) z) := by
  cases sg
  · exact satI_unsigned w z
  · exact satI_signed w z

theorem convInt_eq (td ts : ConvTy) (a : Nat) :
    convInt td ts a = wrap (if td.ew = 64 then 64 else 32)
      (if ts.ew < td.ew then elemVal td.signed td.ew (wrap td.ew (elemVal ts.signed ts.ew a))
        else max (if td.signed then -((2 ^ (td.ew - 1) : Nat) : Int) else 0)
          (min (((2 ^ (if td.signed then td.ew - 1 else td.ew) : Nat) : Int) - 1) (elemVal ts.signed ts.ew a))) := by
  rw [← satI_eq_clamp]
  unfold convInt ConvTy.put
  by_cases narrow : ts.ew < td.ew
  · rw [if_pos narrow, if_pos narrow]
    split <;> rfl
  · rw [if_neg narrow, if_neg narrow]
    split <;> rfl

theorem convTy_regs_le (t : ConvTy) : t.regs ≤ 64 := by cases t <;> decide

/-! Packing. -/

/-- An unsigned number clamped to w bits. -/
theorem wrap_satI_unsigned (w x : Nat) : wrap w (satI false w (x : Int)) = min x (2 ^ w - 1) := by
  have pos := Nat.two_pow_pos w
  have same : satI false w (x : Int) = ((min x (2 ^ w - 1) : Nat) : Int) := by
    rw [satI_unsigned]
    omega
  rw [same, wrap, ← Int.natCast_emod, Int.toNat_natCast, Nat.mod_eq_of_lt (by omega)]

theorem pack_two (w : Nat) (f g : Nat) (hf : f < 2 ^ w) (hg : g < 2 ^ w) : joinElems w [f, g] = f + g * 2 ^ w := by
  rw [joinElems_two, Nat.mod_eq_of_lt hf, Nat.mod_eq_of_lt hg]

theorem pack_four (w a b c d : Nat) (ha : a < 2 ^ w) (hb : b < 2 ^ w) (hc : c < 2 ^ w) (hd : d < 2 ^ w) :
    joinElems w [a, b, c, d] = a + b * 2 ^ w + c * 2 ^ (w * 2) + d * 2 ^ (w * 3) := by
  rw [joinElems_four, Nat.mod_eq_of_lt ha, Nat.mod_eq_of_lt hb, Nat.mod_eq_of_lt hc, Nat.mod_eq_of_lt hd]

theorem packInt_halves (t : IntTy) (h : t.ew = 16) (a b : Nat) :
    packInt t a b = wrap 16 (satI t.signed 16 (elemVal t.signed 32 a)) +
      wrap 16 (satI t.signed 16 (elemVal t.signed 32 b)) * 65536 := by
  unfold packInt IntTy.sat
  rw [h]
  exact pack_two 16 _ _ (wrap_lt 16 _) (wrap_lt 16 _)

theorem packInt_bytes (t : IntTy) (h : t.ew = 8) (a b : Nat) :
    packInt t a b = wrap 8 (satI t.signed 8 (elemVal t.signed 16 (bitsOf a 0 16))) +
      wrap 8 (satI t.signed 8 (elemVal t.signed 16 (bitsOf a 16 16))) * 2 ^ 8 +
      wrap 8 (satI t.signed 8 (elemVal t.signed 16 (bitsOf b 0 16))) * 2 ^ 16 +
      wrap 8 (satI t.signed 8 (elemVal t.signed 16 (bitsOf b 16 16))) * 2 ^ 24 := by
  unfold packInt IntTy.sat
  rw [h]
  exact pack_four 8 _ _ _ _ (wrap_lt 8 _) (wrap_lt 8 _) (wrap_lt 8 _) (wrap_lt 8 _)

theorem uval_of_lt {w x : Nat} (h : x < 2 ^ w) : uval w x = x := Nat.mod_eq_of_lt h

theorem bitsOf_lt (x i n : Nat) : bitsOf x i n < 2 ^ n := Nat.mod_lt _ (Nat.two_pow_pos n)

/-- The clamp of a word to a half, and of a half to a byte. -/
theorem wrap_satI_word (x : Nat) : wrap 16 (satI false 16 (elemVal false 32 x)) = min (uval 32 x) 65535 :=
  wrap_satI_unsigned 16 (uval 32 x)

theorem wrap_satI_half (x i : Nat) :
    wrap 8 (satI false 8 (elemVal false 16 (bitsOf x i 16))) = min (bitsOf x i 16) 255 :=
  (wrap_satI_unsigned 8 (uval 16 (bitsOf x i 16))).trans
    (congrArg (min · 255) (uval_of_lt (bitsOf_lt x i 16)))

theorem halves_congr {a b c d : Nat} (low : a = b) (high : c = d) : a + c * 65536 = b + d * 65536 := by
  rw [low, high]

/-- An unsigned element extended keeps its value. -/
theorem wrap_elemVal_unsigned {w v x : Nat} (h : w ≤ v) (hx : x < 2 ^ w) : wrap v (elemVal false w x) = x := by
  show wrap v ((uval w x : Nat) : Int) = x
  have fits : x < 2 ^ v := Nat.lt_of_lt_of_le hx (Nat.pow_le_pow_right (by decide) h)
  rw [uval_of_lt hx, wrap, ← Int.natCast_emod, Int.toNat_natCast, Nat.mod_eq_of_lt fits]

theorem unpackInt_half (t : IntTy) (h : t.ew = 16) (hi : Bool) (x : Nat) :
    unpackInt t hi x = wrap 32 (elemVal t.signed 16 (bitsOf x (16 * hi.toNat) 16)) := by
  unfold unpackInt
  rw [h]
  rfl

theorem unpackInt_bytes (t : IntTy) (h : t.ew = 8) (hi : Bool) (x : Nat) :
    unpackInt t hi x = wrap 16 (elemVal t.signed 8 (bitsOf x (16 * hi.toNat + 8 * 0) 8)) +
      wrap 16 (elemVal t.signed 8 (bitsOf x (16 * hi.toNat + 8 * 1) 8)) * 65536 := by
  have first : 8 * (2 * hi.toNat) = 16 * hi.toNat + 8 * 0 := by omega
  have second : 8 * (2 * hi.toNat + 1) = 16 * hi.toNat + 8 * 1 := by omega
  unfold unpackInt
  rw [← first, ← second, h]
  exact pack_two 16 _ _ (wrap_lt 16 _) (wrap_lt 16 _)

/-- Packing and unpacking have the packed types alone (R118, R119). -/
theorem packed_of_wf (t : IntTy) (hi : Bool) (o1 : R1) (o : R2)
    (h : (Instr.ipack t o).wf = true ∨ (Instr.iunpack t hi o1).wf = true) : t ∈ [.ui16x2, .i16x2, .ui8x4, .i8x4] := by
  have packed : t.packed = true := h.elim fieldsOk_of_wf fieldsOk_of_wf
  revert packed
  cases t <;> decide

/-- Settles O15. -/
theorem packingResults : Obligations.PackingResults := by
  intro s c td ts t hi o1 o
  have exec_cvti : exec (.cvti td ts o1) s = execCvti td ts o1 s := rfl
  have exec_ipack : ∀ t, exec (.ipack t o) s = execIpack t o s := fun _ => rfl
  have exec_iunpack : ∀ t, exec (.iunpack t hi o1) s = execIunpack t hi o1 s := fun _ => rfl
  unfold execCvti at exec_cvti
  unfold execIpack at exec_ipack
  unfold execIunpack at exec_iunpack
  refine ⟨lane_done exec_cvti rfl (convTy_regs_le td) fun l => (convInt_eq td ts _).symm, packed_of_wf t hi o1 o,
    ?_, ?_, ?_, ?_, ?_, ?_, ?_, ?_⟩
  · refine lane_done (exec_ipack .ui16x2) rfl one_le_64 fun l => ?_
    exact ((packInt_halves .ui16x2 rfl _ _).trans
      (halves_congr (wrap_satI_word _) (wrap_satI_word _))).symm
  · refine lane_done (exec_ipack .i16x2) rfl one_le_64 fun l => ?_
    exact ((packInt_halves .i16x2 rfl _ _).trans
      (halves_congr (congrArg (wrap 16) (satI_signed 16 _)) (congrArg (wrap 16) (satI_signed 16 _)))).symm
  · refine lane_done (exec_ipack .ui8x4) rfl one_le_64 fun l => ?_
    refine .trans ?_ (packInt_bytes .ui8x4 rfl _ _).symm
    rw [show IntTy.signed .ui8x4 = false from rfl, wrap_satI_half, wrap_satI_half, wrap_satI_half, wrap_satI_half]
    rfl
  · refine lane_done (exec_ipack .i8x4) rfl one_le_64 fun l => ?_
    refine .trans ?_ (packInt_bytes .i8x4 rfl _ _).symm
    rw [show IntTy.signed .i8x4 = true from rfl, satI_signed, satI_signed, satI_signed, satI_signed]
    rfl
  · refine lane_done (exec_iunpack .ui16x2) rfl one_le_64 fun l => ?_
    exact ((unpackInt_half .ui16x2 rfl hi _).trans (wrap_elemVal_unsigned (by decide) (bitsOf_lt _ _ _))).symm
  · exact lane_done (exec_iunpack .i16x2) rfl one_le_64 fun l => (unpackInt_half .i16x2 rfl hi _).symm
  · refine lane_done (exec_iunpack .ui8x4) rfl one_le_64 fun l => ?_
    exact ((unpackInt_bytes .ui8x4 rfl hi _).trans (halves_congr
      (wrap_elemVal_unsigned (by decide) (bitsOf_lt _ _ _)) (wrap_elemVal_unsigned (by decide) (bitsOf_lt _ _ _)))).symm
  · exact lane_done (exec_iunpack .i8x4) rfl one_le_64 fun l => (unpackInt_bytes .i8x4 rfl hi _).symm

/-! Floating-point arithmetic. -/

/-- Settles O16: each result is the shape's own, one rounding of an exact value. -/
theorem fp32Results : Obligations.Fp32Results := by
  intro s c m nc o1 o o3 i
  exact ⟨lane_done rfl rfl one_le_64 fun _ => rfl, lane_done rfl rfl one_le_64 fun _ => rfl,
    lane_done rfl rfl one_le_64 fun _ => rfl, lane_done rfl rfl one_le_64 fun _ => rfl,
    lane_done rfl rfl one_le_64 fun _ => rfl, lane_done rfl rfl one_le_64 fun _ => rfl,
    lane_done rfl rfl one_le_64 fun _ => rfl, lane_done rfl rfl one_le_64 fun _ => rfl,
    lane_done rfl rfl one_le_64 fun _ => rfl, lane_done rfl rfl one_le_64 fun _ => rfl,
    lane_done rfl rfl one_le_64 fun _ => rfl, lane_done rfl rfl one_le_64 fun _ => rfl,
    lane_done rfl rfl one_le_64 fun _ => rfl, lane_done rfl rfl one_le_64 fun _ => rfl,
    lane_done rfl rfl one_le_64 fun _ => rfl, lane_done rfl rfl one_le_64 fun _ => rfl,
    lane_done rfl rfl one_le_64 fun _ => rfl, lane_done rfl rfl one_le_64 fun _ => rfl,
    lane_done rfl rfl one_le_64 fun _ => rfl⟩

theorem fp64Results : Fp64Results := by
  intro s c m nc o1 o o3
  exact ⟨lane_done rfl rfl two_le_64 fun _ => rfl, lane_done rfl rfl two_le_64 fun _ => rfl,
    lane_done rfl rfl two_le_64 fun _ => rfl, lane_done rfl rfl two_le_64 fun _ => rfl,
    lane_done rfl rfl one_le_64 fun _ => rfl, lane_done rfl rfl two_le_64 fun _ => rfl⟩

/-- A packed operation's two halves. -/
theorem half2_eq (f : Nat → Nat → Nat) (a b : Nat) :
    half2 f a b = halves fun j => f (bitsOf a (16 * j) 16) (bitsOf b (16 * j) 16) := joinElems_two 16 _ _

theorem hop2_eq (m : FMod) (bf : Bool) (g : FVal → FVal → FVal) (l a b : Nat) :
    hop2 m bf g l [a, b] = halves fun j => rounded (hfmt bf) m
      (g (rdA (hfmt bf) m (bitsOf a (16 * j) 16)) (rdB (hfmt bf) m (bitsOf b (16 * j) 16))) :=
  half2_eq (fun a b => fin1 (hfmt bf) m (g (rdA (hfmt bf) m a) (rdB (hfmt bf) m b))) a b

theorem packedFloatResults : PackedFloatResults := by
  intro s c m bf nc o o3
  have hfma2 : exec (.hfma2 m bf nc o3) s = execHfma2 m bf nc o3 s := rfl
  have fdot2 : exec (.fdot2 m bf o3) s = execFdot2 m bf o3 s := rfl
  unfold execHfma2 at hfma2
  unfold execFdot2 at fdot2
  have hcmp2 : ∀ a b, (halves fun j => relBits 16
      ((rdA (hfmt bf) m (bitsOf a (16 * j) 16)).rel (rdB (hfmt bf) m (bitsOf b (16 * j) 16)))) = _ :=
    fun a b => (half2_eq (fun a b => relBits 16 ((rdA (hfmt bf) m a).rel (rdB (hfmt bf) m b))) a b).symm
  exact ⟨lane_done rfl rfl one_le_64 fun _ => (hop2_eq m bf _ _ _ _).symm,
    lane_done rfl rfl one_le_64 fun _ => (hop2_eq m bf _ _ _ _).symm,
    lane_done rfl rfl one_le_64 fun _ => (hop2_eq m bf _ _ _ _).symm,
    lane_done rfl rfl one_le_64 fun _ => (hop2_eq m bf _ _ _ _).symm,
    lane_done rfl rfl one_le_64 fun _ => hcmp2 _ _,
    lane_done hfma2 rfl one_le_64 fun _ => (joinElems_two 16 _ _).symm, lane_done fdot2 rfl one_le_64 fun _ => rfl⟩

/-- Settles O18. -/
theorem fp64AndPackedResults : Obligations.Fp64AndPackedResults :=
  ⟨fp64Results, packedFloatResults⟩

end Sys2Proof.Machine
end

section
/-! PROOFS. Conversions (R136): INT4 packing from eight s registers. -/

namespace Sys2Proof.Machine

/-- Going on keeps what an instruction left in the registers of its troupe. -/
theorem advance_lane (s : State) (c : Ctx) (t : Troupe) (h : c.key.num < 2 ^ 20) :
    ∃ t', (s.advance c t).troupe? c.key = some t' ∧ t'.lane = t.lane := by
  unfold State.advance
  split
  · exact ⟨_, troupe_setTroupe s _ h, rfl⟩
  · obtain ⟨t', there, _, _, rest, _⟩ := endClause_troupe s c t [(c.fallThrough, c.mask)] h
    exact ⟨t', there, (congrArg Troupe.lane rest :)⟩

/-- INT4 packing of s0 to s7 into v2. -/
def packScalars : Instr := .cvt4Pack ⟨.v 2, ⟨.s 0, false⟩⟩

/-- A module that has a clause of that instruction alone at issue, with 1 in s2. -/
def packState : State :=
  let s := State.reset.withFetchWord 64 ((encode packScalars).getD 0).toNat
  { s with troupes := s.troupes.map fun (e : Nat × Troupe) => (e.1, e.2.putS 2 1 false) }

/-- The third nibble of v2 is s2, the third of the eight sources. -/
theorem packScalars_result :
    (match exec packScalars packState with
      | .next s => (s.troupe? ⟨0, 0⟩).map fun t => t.lane.get 0 2
      | _ => none) = some 0x100 := by decide +kernel

theorem packScalars_wf : packScalars.wf = true ∧ (encode packScalars).isSome = true := by decide +kernel

theorem packState_ready :
    (match packState.ctx? with
      | some c => decide (packState.ready c packScalars.srcs packScalars.dests c.mask = .go ∧ c.key = ⟨0, 0⟩ ∧
          c.mask.getLsbD 0 = true ∧ c.t.s 0 = 0)
      | none => false) = true := by decide +kernel

/-- Refutes O19: the clause of cvt4 reads its eight integers from one operand, but where that is an s register R136
takes eight s registers, and so does the model. -/
theorem not_conversionResults : ¬ Obligations.ConversionResults := by
  intro h
  have ready := packState_ready
  split at ready
  next c issue =>
    obtain ⟨go, key, lane, s0⟩ := of_decide_eq_true ready
    obtain ⟨-, -, -, -, -, -, -, pack, -⟩ := h packState c .f32 .f32 .i32 .f32 .e2m1 false false false false false
      false .rne 0 0 ⟨.v 2, ⟨.s 0, false⟩⟩ ⟨.v 2, ⟨.s 0, false⟩, ⟨.s 0, false⟩⟩
      ⟨.v 2, ⟨.s 0, false⟩, ⟨.s 0, false⟩, ⟨.s 0, false⟩⟩
    obtain ⟨t, run, written⟩ := pack ⟨issue, go⟩
    obtain ⟨t', there, same⟩ := advance_lane packState c t (ctx_key issue)
    have claimed : t'.lane.get 0 2 = 0 := by
      rw [same]
      refine (written.value 0 (by decide) lane 0 (by decide)).trans ?_
      have value : c.t.value 0 ((⟨.s 0, false⟩ : Src).opndA 8 1) = 0 := congrArg BitVec.toNat s0
      simp only [value]
      decide
    have result := packScalars_result
    rw [show exec packScalars packState = _ from run] at result
    simp only [← key, there, Option.map_some, claimed] at result
    exact absurd result (by decide)
  next => cases ready

end Sys2Proof.Machine
end

section
/-! PROOFS. Cross-lane operations and the floating-point reduction (R33, R145 to R152). -/

namespace Sys2Proof.Machine

/-- The operand sizes of one or two registers. -/
theorem pair_le (b : Bool) : (if b then 2 else 1) ≤ 64 := by cases b <;> decide

/-- The lanes that read an empty register are none, where every lane that has not exited is full. -/
theorem missing_eq_zero {m exited empty : LaneMask} {src : Nat → Nat}
    (h : ∀ l < 64, m.getLsbD l = true → exited.getLsbD (src l) = true ∨ empty.getLsbD (src l) = false) :
    maskOf ((lanes m).filter fun l => !exited.getLsbD (src l) && empty.getLsbD (src l)) = 0 := by
  refine (maskOf_filter_lanes_eq_zero_iff m _).mpr (List.filter_eq_nil_iff.mpr fun l mem => ?_)
  rcases h l (mem_lanes.mp mem).1 (mem_lanes.mp mem).2 with h | h <;> simp [h]

/-! An operand of any lane (R76). -/

theorem laneOpnd_value (t : Troupe) (l : Nat) (o : Opnd) :
    (t.laneOpnd l o).1 = if t.exited.getLsbD l then 0 else t.value l o := by
  unfold Troupe.laneOpnd
  split <;> rfl

theorem laneOpnd_taint (t : Troupe) (l : Nat) (o : Opnd) :
    (t.laneOpnd l o).2.1 = (!t.exited.getLsbD l && t.tainted l o) := by
  unfold Troupe.laneOpnd
  split <;> simp [*]

theorem laneOpnd_poison (t : Troupe) (l : Nat) (o : Opnd) :
    (t.laneOpnd l o).2.2 = (!t.exited.getLsbD l && t.poisoned l o) := by
  unfold Troupe.laneOpnd
  split <;> simp [*]

theorem shfl_done (s : State) (c : Ctx) (mode : ShflMode) (seg : Fin 7) (w64 : Bool) (o : R2) (n : Nat)
    (hn : n = if w64 then 2 else 1) (src : Nat → Nat)
    (hsrc : src = fun l => shflLane mode seg l (uval 32 (c.val 1 o.b l)))
    (h : s.ctx? = some c) (ready : s.ready c [o.b.opnd 1] [o.d.opnd n] c.mask = .go)
    (there : s.inFlight c.key (o.a.opnd n) = false)
    (full : ∀ l < 64, c.mask.getLsbD l = true → c.t.exited.getLsbD (src l) = true ∨
      (c.t.emptyLanes (o.a.opnd n)).getLsbD (src l) = false) :
    Completes s c (.shfl mode seg w64 o) fun t' => RegWritten c.t t' c.mask (o.d.opnd n) false
      (fun l => if c.t.exited.getLsbD (src l) then 0 else c.val n o.a (src l))
      (fun l => (!c.t.exited.getLsbD (src l) && c.t.tainted (src l) (o.a.opnd n)) || c.t.tainted l (o.b.opnd 1))
      (fun l => (!c.t.exited.getLsbD (src l) && c.t.poisoned (src l) (o.a.opnd n)) || c.t.poisoned l (o.b.opnd 1)) := by
  have none_missing := missing_eq_zero full
  subst hn hsrc
  refine ⟨c.t.write c.mask (o.d.opnd (if w64 then 2 else 1)) false fun l =>
    let x := c.t.laneOpnd (shflLane mode seg l (uval 32 (c.val 1 o.b l))) (o.a.opnd (if w64 then 2 else 1))
    (x.1, x.2.1 || c.t.tainted l (o.b.opnd 1), x.2.2 || c.t.poisoned l (o.b.opnd 1)), (onTroupe_some h _).trans ?_, ?_⟩
  · simp only [ready]
    exact congrArg _ ((if_neg (not_not_intro none_missing)).trans (if_neg (ne_true_of_eq_false there)))
  · simp only [laneOpnd_value, laneOpnd_taint, laneOpnd_poison]
    exact write_written c.t c.mask (o.d.opnd (if w64 then 2 else 1)) false _ (pair_le w64)

theorem toNat_decide (p : Prop) [Decidable p] : (decide p).toNat = if p then 1 else 0 := by
  split <;> simp [*]

/-- The votes, by the number k of lanes that say yes (R147). -/
theorem voteValue_eq (vm : VoteMode) (n : Nat) (yes : LaneMask) (k : Nat) (hk : k = (lanes yes).length) :
    voteValue vm n yes = match vm with
      | .any => if k = 0 then 0 else 1
      | .all => if k = n then 1 else 0
      | .eq => if k = 0 ∨ k = n then 1 else 0
      | .ballot => yes.toNat := by
  subst hk
  cases vm
  case any =>
    show (decide (0 < (lanes yes).length)).toNat = if (lanes yes).length = 0 then 0 else 1
    rw [toNat_decide]
    split <;> split <;> omega
  case all => exact toNat_decide _
  case eq => exact toNat_decide _
  case ballot => rfl

theorem vote_done (s : State) (c : Ctx) (vm : VoteMode) (inv : Bool) (q : Pred) (d : Reg) (yes : LaneMask)
    (hyes : yes = maskOf ((lanes c.mask).filter fun l => c.t.pred q l ≠ inv)) (k : Nat) (hk : k = (lanes yes).length) :
    AtIssue s c (.vote vm inv q d) c.mask → Completes s c (.vote vm inv q d) fun t' =>
      RegWritten c.t t' c.mask (d.opnd (if vm = .ballot then 2 else 1)) false
        (fun _ => match vm with
          | .any => if k = 0 then 0 else 1
          | .all => if k = (lanes c.mask).length then 1 else 0
          | .eq => if k = 0 ∨ k = (lanes c.mask).length then 1 else 0
          | .ballot => yes.toNat)
        (fun _ => false) (fun _ => (lanes c.mask).any fun l => c.t.predBad q l) := by
  intro h
  refine ⟨_, exec_ready h rfl rfl, ?_⟩
  simp only [← voteValue_eq vm _ yes k hk, ← hyes]
  refine write_written c.t c.mask (d.opnd (if vm = .ballot then 2 else 1)) false _ ?_
  show (if vm = .ballot then 2 else 1) ≤ 64
  split <;> decide

theorem crossLaneResults : CrossLaneResults := by
  intro s c mode seg w64 inv excl live vm q op t d o o1
  refine ⟨shfl_done s c mode seg w64 o _ rfl _ rfl, vote_done s c vm inv q d _ rfl _ rfl, fun h => ?matchLanes,
    fun h => ?redux, fun h => ?scan, fun h => ?amask⟩
  all_goals refine ⟨_, exec_ready h rfl rfl, ?_⟩
  case matchLanes => exact write_written c.t c.mask (o1.d.opnd 2) false _ two_le_64
  case redux => exact write_written c.t c.mask (o1.d.opnd t.regs) t.sx _ (regs_le t)
  case scan => exact write_written c.t c.mask (o1.d.opnd t.regs) t.sx _ (regs_le t)
  case amask => exact write_written c.t c.mask (d.opnd 2) false _ two_le_64

/-- A lane alone drops through the six levels of the tree (R33). -/
theorem treeReduce_single (op : Nat → Nat → Nat) (leaf : Nat → Nat) :
    treeReduce op 6 (laneList.map fun l => if (1 : LaneMask).getLsbD l then some (leaf l) else none) =
      some (leaf 0) := rfl

/-- Lanes 0 and 1 meet once, at the first level. -/
theorem treeReduce_pair (op : Nat → Nat → Nat) (leaf : Nat → Nat) :
    treeReduce op 6 (laneList.map fun l => if (3 : LaneMask).getLsbD l then some (leaf l) else none) =
      some (op (leaf 0) (leaf 1)) := rfl

theorem floatReductionResults : FloatReductionResults := by
  intro s c f64 op neg ab ftz rm o n f leaf result h
  refine ⟨⟨_, exec_ready h rfl rfl, ?_⟩, fun single => ?_, fun add pair => ?_⟩
  · exact write_written c.t c.mask (o.d.opnd n) false _ (pair_le f64)
  · simp only [result, single]
    exact treeReduce_single _ leaf
  · simp only [result, pair, add]
    exact treeReduce_pair _ leaf

/-- Settles O24. -/
theorem crossLaneAndReductionResults : Obligations.CrossLaneAndReductionResults :=
  ⟨crossLaneResults, floatReductionResults⟩

end Sys2Proof.Machine
end

section
/-! PROOFS. The end of a path's lanes, pauses (R142 to R144, R176) and the return from a trap (R85). -/

namespace Sys2Proof.Machine

theorem bump_outside (s : State) : SameOutside s s.bump := ⟨rfl, rfl, rfl, rfl, rfl, rfl, rfl, rfl, rfl, rfl⟩

/-- A clause that ends with no continuation sends no lane anywhere. -/
theorem sentTo_nowhere (m : LaneMask) (a : VAddr) (l : Nat) :
    (sentTo [] a).getLsbD l = (m.getLsbD l && decide ((none : Option VAddr) = some a)) := by
  simp [getLsbD_sentTo_nil]

/-- All the lanes of a path go to one address. -/
theorem sentTo_one (m : LaneMask) (b a : VAddr) (l : Nat) :
    (sentTo [(b, m)] a).getLsbD l = (m.getLsbD l && decide (some b = some a)) := by
  simp [getLsbD_sentTo_cons, getLsbD_sentTo_nil]

/-- Settles O21. -/
theorem exitAndPauseResults : Obligations.ExitAndPauseResults := by
  intro s c n h
  have key := ctx_key h
  have pause : ∀ i, exec i s = .next (s.bump.endClause c { c.t with yielded := true, lastGrant := s.seq }
      [(c.fallThrough, c.mask)]) → Moves s c i (fun t => t = { c.t with yielded := true, lastGrant := s.seq })
        fun _ => some c.fallThrough := fun i run =>
    endClause_moves s.bump (bump_outside s) run key rfl fun a l _ => sentTo_one c.mask c.fallThrough a l
  refine ⟨?exit, onTroupe_some h _, pause .yield (onTroupe_some h _), fun zero => ?now, fun later => ?wake⟩
  case exit => exact endClause_moves s (.refl s) (onTroupe_some h _) key rfl fun a l _ => sentTo_nowhere c.mask a l
  case now => exact pause _ ((onTroupe_some h _).trans (congrArg _ (if_pos zero)))
  case wake =>
    obtain ⟨t', found, issue, front, rest, current⟩ :=
      endClause_troupe s c { c.t with susp := .sleep (s.tick + n.toNat) } [(c.fallThrough, c.mask)] key
    refine ⟨_, _, t', (onTroupe_some h _).trans (congrArg _ (if_neg later)), rfl, (troupe_at ..).trans found, issue,
      (current_at ..).trans current, fun a l _ => ?_, rest, (endClause_outside s c _ _ key).trans (at_outside _ _ _)⟩
    rw [front, lanesAt_enterAll, BitVec.getLsbD_or, sentTo_one]

/-! The shadow frontier (R85). -/

/-- The lanes of a frontier whose paths keep only the lanes of m. -/
theorem getLsbD_lanesAt_keep (ps : List Path) (m : LaneMask) (a : VAddr) (l : Nat) :
    (lanesAt ((ps.map fun p => { p with mask := p.mask &&& m }).filter fun p => p.mask ≠ 0) a).getLsbD l =
      ((lanesAt ps a).getLsbD l && m.getLsbD l) := by
  induction ps with
  | nil => simp [lanesAt]
  | cons p ps ih =>
    rw [List.map_cons, List.filter_cons, lanesAt_cons, BitVec.getLsbD_or, Bool.and_or_distrib_right, ← ih]
    by_cases empty : p.mask &&& m = 0
    · have none_left : (p.mask.getLsbD l && m.getLsbD l) = false := by
        rw [← BitVec.getLsbD_and, empty]
        exact BitVec.getLsbD_zero
      rw [if_neg (by simpa using empty)]
      split <;> simp [none_left]
    · rw [if_pos (by simpa using empty), lanesAt_cons, BitVec.getLsbD_or]
      congr 1
      split <;> simp

theorem getLsbD_live (t : Troupe) {l : Nat} (hl : l < 64) : t.live.getLsbD l = !t.exited.getLsbD l := by
  simp [Troupe.live, hl]

theorem restoreShadow_false (s : State) (core : Nat) (rg : Regime) (t : Troupe) :
    s.restoreShadow core rg t false =
      (t.trap.shadow.map fun p => { p with mask := p.mask &&& t.live }).filter fun p => p.mask ≠ 0 := by
  unfold State.restoreShadow
  cases t.trap.resumeAt <;> rfl

/-- Settles O23. -/
theorem trapReturnResults : Obligations.TrapReturnResults := by
  intro s c h
  refine ⟨fun outside => ?illegal, fun inside paths => ?apart, fun inside alone => ⟨?back, fun plain a l hl => ?lanes⟩⟩
  case illegal => exact (onTroupe_some h _).trans (congrArg _ (if_pos (by simp [outside])))
  case apart => exact (onTroupe_some h _).trans (congrArg _ ((if_neg (by simp [inside])).trans (if_pos paths)))
  case back =>
    refine endClause_moves s (.refl s) ((onTroupe_some h _).trans (congrArg _ ?_)) (ctx_key h) rfl fun a l _ =>
      sentTo_nowhere c.mask a l
    exact (if_neg (by simp [inside])).trans (if_neg (not_not_intro alone))
  case lanes => rw [plain, restoreShadow_false, getLsbD_lanesAt_keep, getLsbD_live c.t hl]

end Sys2Proof.Machine
end

section
/-! PROOFS. Special registers (R80, R153). -/

namespace Sys2Proof.Machine

theorem special_regs_le (sr : Special) : sr.regs ≤ 64 := by cases sr <;> decide

theorem trapresume_value (b : Bool) : b.toNat = if b then 1 else 0 := by cases b <;> rfl

/-- Settles O25. -/
theorem specialRegisterResults : Obligations.SpecialRegisterResults := by
  intro s c sr d a
  refine ⟨fun h => ⟨_, exec_ready h rfl rfl, ?read⟩, fun h => ⟨_, exec_ready h rfl rfl, ?_, ?_⟩⟩
  case read =>
    have written := write_written c.t c.mask (d.opnd sr.regs) false (fun l => (s.special c sr l, false, false))
      (special_regs_le sr)
    cases sr
    case trapresume =>
      simpa only [State.special, trapresume_value] using written
    all_goals exact written
  · exact fun outside => if_neg (by simp [outside])
  · exact fun inside => if_pos inside

end Sys2Proof.Machine
end

section
/-! PROOFS. Memory accesses of the M format: what is accepted, and what stops one (R161 to R167). -/

namespace Sys2Proof.Machine

theorem exec_memRequest {i : Instr} {r : MemReq} (h : memRequest i = some r) (s : State) :
    exec i s = memOp s r ∧ r.i = i ∧ r.spaces = [0, 1] := by
  unfold memRequest at h
  split at h <;> cases h <;> exact ⟨rfl, rfl, rfl⟩

theorem exec_skipped {s : State} {c : Ctx} {i : Instr} {r : MemReq} (h : memRequest i = some r)
    (issue : s.ctx? = some c) (skip : r.skips c = true) : exec i s = .next (s.advance c c.t) := by
  rw [(exec_memRequest h s).1, memOp, onTroupe_some issue, if_pos skip]

theorem exec_checked {s : State} {c : Ctx} {i : Instr} {r : MemReq} (h : memRequest i = some r)
    (issue : AtIssue s c i (maskOf (r.lanesOf c))) (skip : r.skips c = false) :
    exec i s = .next (s.memChecked c r) := by
  obtain ⟨run, same, -⟩ := exec_memRequest h s
  rw [run, memOp, onTroupe_some issue.1, if_neg (ne_true_of_eq_false skip), same, whenReady_go _ issue.2]

/-! Lanes that all reach an address, or are dropped. -/

/-- What a lane that meets no cause has. -/
def reachedAs : Option Nat → Addr
  | some a => .to a
  | none => .out

theorem laneAddr_of_reaches {r : MemReq} {c : Ctx} {b : BufRec} {limit : Nat} {ls : List Nat} {at_ : Nat → Option Nat}
    (h : Reaches r c b limit ls at_) {l : Nat} (mem : l ∈ ls) :
    laneAddr r c b limit l = (l, none, reachedAs (at_ l)) := by
  obtain ⟨clean, there⟩ := h l mem
  unfold laneAddr
  simp only [clean, Bool.false_eq_true, if_false]
  cases target : at_ l with
  | some a =>
    rw [target] at there
    simp only [there.1, there.2, ne_eq, not_true_eq_false, if_false]
    rfl
  | none =>
    rw [target] at there
    simp only [there.1, there.2, if_true]
    rfl

theorem map_laneAddr_of_reaches {r : MemReq} {c : Ctx} {b : BufRec} {limit : Nat} {ls : List Nat}
    {at_ : Nat → Option Nat} (h : Reaches r c b limit ls at_) :
    ls.map (laneAddr r c b limit) = ls.map fun l => (l, none, reachedAs (at_ l)) :=
  List.map_congr_left fun _ mem => laneAddr_of_reaches h mem

theorem filterMap_congr_all {A B : Type} {f g : A → Option B} (same : ∀ a, f a = g a) (l : List A) :
    l.filterMap f = l.filterMap g :=
  congrArg (l.filterMap ·) (funext same)

theorem liveAddrs_reached (ls : List Nat) (at_ : Nat → Option Nat) :
    liveAddrs (ls.map fun l => (l, none, reachedAs (at_ l))) = ls.filterMap fun l => (at_ l).map fun a => (l, a) := by
  unfold liveAddrs
  rw [List.filterMap_map]
  refine filterMap_congr_all (fun l => ?_) ls
  cases h : at_ l <;> simp [reachedAs, h]

theorem droppedLanes_reached (ls : List Nat) (at_ : Nat → Option Nat) :
    droppedLanes (ls.map fun l => (l, none, reachedAs (at_ l))) = ls.filter fun l => (at_ l).isNone := by
  unfold droppedLanes
  rw [List.filterMap_map, ← List.filterMap_eq_filter]
  refine filterMap_congr_all (fun l => ?_) ls
  cases h : at_ l <;> simp [reachedAs, h, Option.guard]

theorem laneCausesOf_reached (ls : List Nat) (at_ : Nat → Option Nat) :
    laneCausesOf (ls.map fun l => (l, none, reachedAs (at_ l))) = [] := by
  simp [laneCausesOf]

theorem xCauses_eq_nil {live : List (Nat × Nat)} {pages : List (Nat × Except XFault XTo)}
    (h : ∀ e ∈ live, ∃ dest, pageResult pages e.2 = .ok dest) : xCauses live pages = [] := by
  refine List.filterMap_eq_nil_iff.mpr fun e mem => ?_
  obtain ⟨dest, ok⟩ := h e mem
  simp only [ok]

theorem lowestCause_nil : lowestCause [] = none := rfl

/-! What the checks of R161 come to, one outcome each. -/

section
variable {s : State} {c : Ctx} {r : MemReq}

theorem memChecked_full (full : c.t.memFull r.kind = true) : s.memChecked c r = s.stall c := by
  unfold State.memChecked
  exact if_pos full

theorem memChecked_poison (room : c.t.memFull r.kind = false) (bad : r.poisonedGuard c ≠ 0) :
    s.memChecked c r = s.raise c causePoison 0 0 (r.poisonedGuard c) := by
  unfold State.memChecked
  exact (if_neg (ne_true_of_eq_false room)).trans (if_pos bad)

theorem memChecked_shape (room : c.t.memFull r.kind = false) (clean : r.poisonedGuard c = 0)
    (bad : (c.record r.m.buf).bad r.spaces r.kind.writes = true) :
    s.memChecked c r = s.raise c causeShape 0 0 c.mask := by
  unfold State.memChecked
  exact (if_neg (ne_true_of_eq_false room)).trans ((if_neg (not_not_intro clean)).trans (if_pos bad))

variable (room : c.t.memFull r.kind = false) (clean : r.poisonedGuard c = 0)
  (good : (c.record r.m.buf).bad r.spaces r.kind.writes = false) {xs : List (Nat × (Option (BitVec 8) × Addr))}
  (addrs : (r.lanesOf c).map (laneAddr r c (c.record r.m.buf) c.blk.d) = xs)
include room clean good addrs

theorem memChecked_global (global : (c.record r.m.buf).space = 0) :
    let touched := toKeys ((liveAddrs xs).map fun e => e.2 / 4096)
    let x := s.xlatePages c.slice c.blk.regime r.kind.need touched
    s.memChecked c r =
      if xAgain x.1 ≠ [] then ((xAgain x.1).foldl State.noteRefusal x.2).stall c
      else match lowestCause (laneCausesOf xs ++ xCauses (liveAddrs xs) x.1) with
        | some (k, m, a) => x.2.raiseLowest c r k m a (s.faultAt c.slice c.blk.regime r.kind.need a touched)
        | none => x.2.acceptGlobal c r (c.record r.m.buf) (liveAddrs xs) (droppedLanes xs) x.1
            (s.writablePages c.slice c.blk.regime r.kind.need touched) := by
  subst addrs
  unfold State.memChecked
  simp only [room, clean, good, global, Bool.false_eq_true, if_false, if_true, ne_eq, not_true_eq_false]
  rfl

theorem memChecked_scratch (scratch : (c.record r.m.buf).space ≠ 0) :
    s.memChecked c r =
      match lowestCause (laneCausesOf xs) with
      | some (k, m, a) => s.raiseLowest c r k m a
          (s.faultAt c.slice c.blk.regime r.kind.need a (toKeys ((liveAddrs xs).map fun e => e.2 / 4096)))
      | none =>
        if s.scratchWaits c (c.record r.m.buf) r.m.w r.kind.writes (liveAddrs xs) then s.stall c
        else s.acceptScratch c r (c.record r.m.buf) (liveAddrs xs) (droppedLanes xs) := by
  subst addrs
  unfold State.memChecked
  simp only [room, clean, good, scratch, Bool.false_eq_true, if_false, ne_eq, not_true_eq_false, List.append_nil]
  rfl

end

/-- Settles O27. -/
theorem memoryAccepted : Obligations.MemoryAccepted := by
  intro s c i r at_ req b ls live dropped pages
  obtain ⟨-, -, spaces⟩ := exec_memRequest req s
  refine ⟨fun issue uniform none_left clean => exec_skipped req issue ?_,
    fun issue skip room clean good reach => ⟨fun global => ?_, fun scratch held => ?_⟩⟩
  · simp [MemReq.skips, uniform, clean, show r.lanesOf c = [] from none_left]
  all_goals
    rw [exec_checked req issue skip]
    have addrs := map_laneAddr_of_reaches reach
    rw [← spaces] at good
  · intro x again pages_ok
    have run := memChecked_global (s := s) room clean good addrs global
    simp only [liveAddrs_reached, droppedLanes_reached, laneCausesOf_reached, List.nil_append] at run
    rw [run, if_neg (not_not_intro again), xCauses_eq_nil pages_ok]
    rfl
  · have run := memChecked_scratch (s := s) room clean good addrs (by rw [scratch]; decide)
    simp only [liveAddrs_reached, droppedLanes_reached, laneCausesOf_reached, lowestCause_nil] at run
    exact congrArg _ (run.trans (if_neg (ne_true_of_eq_false held)))

end Sys2Proof.Machine
end

section
/-! PROOFS. What a translation leaves and the causes it can find (R341 to R345), and the traps of a memory access
(R81, R161). -/

namespace Sys2Proof.Machine

/-! The causes of a walk. -/

/-- The causes that a translation can find: those of R345, and the home's RETRY. -/
def XCause (k : BitVec 8) : Prop := k = causeAgain ∨ isXCause k = true

/-- A read or a walk that ends in no other cause. -/
def Walked.Faults {A : Type} (w : Walked A) : Prop := ∀ f, w.out = .error f → XCause f.cause

theorem walked_ok_faults {A : Type} (x : A) (ls : List (Nat × Bool)) : (⟨.ok x, ls⟩ : Walked A).Faults := by
  intro f h
  cases h

theorem walked_error_faults {A : Type} {f : XFault} (h : XCause f.cause) (ls : List (Nat × Bool)) :
    (⟨.error f, ls⟩ : Walked A).Faults := by
  intro g e
  cases e
  exact h

theorem after_faults {A B : Type} (r : Walked A) {w : Walked B} (h : w.Faults) : (r.after w).Faults := h

theorem atGpa_faults {A : Type} {w : Walked A} (h : w.Faults) (gpa : Nat) : (w.atGpa gpa).Faults := by
  unfold Walked.atGpa
  split
  next f e =>
    refine walked_error_faults ?_ _
    unfold XFault.atGpa
    split <;> exact h f e
  next => exact h

/-- The descriptor of a slab, read at the end of a walk (R340). -/
theorem slab_faults {q : TableRead} {bad : XFault} (out : Nat → Option Nat) (leaf : Nat → Leaf) (reads : q.Faults)
    (page : XCause bad.cause) :
    (match q.out with
      | .error f => ⟨.error f, q.lines⟩
      | .ok none => ⟨.error bad, q.lines⟩
      | .ok (some d) => match out d with
        | some o => ⟨.ok (leaf o), q.lines⟩
        | none => ⟨.error bad, q.lines⟩ : Walked Leaf).Faults := by
  split
  next f e => exact walked_error_faults (reads f e) _
  next => exact walked_error_faults page _
  next d e =>
    split
    · exact walked_ok_faults _ _
    · exact walked_error_faults page _

section
variable {rd : Nat → Nat → TableRead} {bad : XFault} (reads : ∀ a m, (rd a m).Faults) (page : XCause bad.cause)
include reads page

theorem walkLevel_faults (stage : Stage) (n x level t : Nat) : (walkLevel rd bad stage n x level t).Faults := by
  induction level using Nat.strongRecOn generalizing t with
  | ind level ih =>
    rw [walkLevel.eq_def]
    simp only
    split
    next f e => exact walked_error_faults (reads _ _ f e) _
    next => exact walked_error_faults page _
    next e _ =>
      split
      next => exact walked_error_faults page _
      next =>
        split
        next =>
          cases level with
          | zero => exact walked_error_faults page _
          | succ l => exact after_faults _ (ih l (Nat.lt_succ_self l) _)
        next => exact walked_ok_faults _ _
        next => exact after_faults _ (slab_faults _ _ (reads _ _) page)
        next => exact walked_error_faults page _

theorem walk_faults (stage : Stage) (root rootsz x : Nat) : (walk rd bad stage root rootsz x).Faults := by
  unfold walk
  simp only
  split
  · exact walked_error_faults page _
  · exact walkLevel_faults reads page stage _ x 3 root

end

theorem again_xCause : XCause causeAgain := .inl rfl
theorem pageS1_xCause : XCause causePageS1 := .inr rfl
theorem pageS2_xCause : XCause causePageS2 := .inr rfl
theorem permission_xCause : XCause causePermission := .inr rfl
theorem firewall_xCause : XCause causeFirewall := .inr rfl

section
variable (s : State)

theorem readPhys_faults (part astag a n : Nat) : (s.readPhys part astag a n).Faults := by
  unfold State.readPhys
  split
  · exact walked_error_faults firewall_xCause _
  · split
    · exact walked_error_faults again_xCause _
    · exact walked_ok_faults _ _

theorem walk2_faults (part vf gpa : Nat) : (s.walk2 part vf gpa).Faults :=
  atGpa_faults (walk_faults (fun a n => readPhys_faults s part 0 a n) pageS2_xCause _ _ _ _) gpa

theorem readGuest_faults (part vf a n : Nat) : (s.readGuest part vf a n).Faults := by
  unfold State.readGuest
  simp only
  split
  next f e => exact walked_error_faults (walk2_faults s part vf a f e) _
  next =>
    split
    · exact walked_error_faults permission_xCause _
    · exact after_faults _ (atGpa_faults (readPhys_faults s _ _ _ _) a)

theorem pageWalk_faults (slice : Nat) (rg : Regime) (va : Nat) (need : Need) :
    (s.pageWalk slice rg va need).Faults := by
  unfold State.pageWalk
  simp only
  split
  next =>
    split
    next f e => exact walked_error_faults (walk2_faults s _ _ _ f e) _
    next => exact walked_ok_faults _ _
  next =>
    split
    next f e =>
      exact walked_error_faults (walk_faults (fun a n => readPhys_faults s rg.part 0 a n) pageS1_xCause _ _ _ _ f e) _
    next => exact walked_ok_faults _ _
  next =>
    split
    next f e =>
      exact walked_error_faults
        (walk_faults (fun a n => readGuest_faults s rg.part rg.vf a n) pageS1_xCause _ _ _ _ f e) _
    next =>
      split
      next => exact walked_error_faults permission_xCause _
      next =>
        refine after_faults _ ?_
        split
        next f e => exact walked_error_faults (walk2_faults s _ _ _ f e) _
        next => exact walked_ok_faults _ _

theorem leafCheck_faults (rg : Regime) (e : TlbEntry) (va : Nat) (need : Need) (f : XFault)
    (h : s.leafCheck rg e va need = .error f) : XCause f.cause := by
  unfold State.leafCheck at h
  simp only at h
  repeat' split at h
  all_goals cases h
  all_goals first | exact permission_xCause | exact firewall_xCause

/-- A translation fails for one of its own causes alone. -/
theorem xlate_faults (slice : Nat) (rg : Regime) (va : Nat) (need : Need) (f : XFault)
    (h : (s.xlate slice rg va need).1 = .error f) : XCause f.cause := by
  have walk := pageWalk_faults s slice rg va need
  unfold State.xlate at h
  simp only at h
  split at h
  next => cases h; exact pageS1_xCause
  next =>
    split at h
    next =>
      split at h
      next e => cases h; exact walk _ e
      next => exact leafCheck_faults _ _ _ _ _ _ h
    next =>
      split at h
      next =>
        split at h
        · exact leafCheck_faults _ _ _ _ _ _ h
        · split at h <;> exact leafCheck_faults _ _ _ _ _ _ h
      next e =>
        split at h
        · cases h; exact walk _ e
        · exact leafCheck_faults _ _ _ _ _ _ h

end

/-! What a translation leaves. -/

/-- A translation changes what the package caches, posts the reads of its tables and takes free values, and leaves
everything else. -/
def OnlyCached (s u : State) : Prop := { u with pkg := s.pkg, todo := s.todo, fresh := s.fresh } = s

theorem OnlyCached.refl (s : State) : OnlyCached s s := rfl

theorem OnlyCached.trans {s u v : State} (h : OnlyCached s u) (g : OnlyCached u v) : OnlyCached s v := by
  unfold OnlyCached at h g ⊢
  rw [← g] at h
  exact h

theorem OnlyCached.outside {s u : State} (h : OnlyCached s u) : SameOutside { s with pkg := u.pkg } u :=
  ⟨(congrArg State.homes h :), (congrArg State.flight h :), (congrArg State.regs h :), (congrArg State.harts h :), rfl,
    (congrArg State.fab h :), (congrArg State.plat h :), (congrArg State.blocks h :), (congrArg State.tick h :),
    (congrArg State.agenda h :)⟩

theorem OnlyCached.troupes {s u : State} (h : OnlyCached s u) : u.troupes = s.troupes := (congrArg State.troupes h :)

theorem OnlyCached.homes {s u : State} (h : OnlyCached s u) : u.homes = s.homes := (congrArg State.homes h :)

theorem walked_onlyCached (s : State) (part vf : Nat) (lines : List (Nat × Bool)) :
    OnlyCached s (s.walked part vf lines) := by
  unfold State.walked
  split <;> rfl

theorem xlate_onlyCached (s : State) (slice : Nat) (rg : Regime) (va : Nat) (need : Need) :
    OnlyCached s (s.xlate slice rg va need).2 := by
  have fresh : OnlyCached s { s with fresh := s.fresh + 1 } := rfl
  have cached : ∀ u : State, ∀ tlb, OnlyCached u { u with pkg := { u.pkg with tlb := tlb } } := fun _ _ => rfl
  unfold State.xlate
  simp only
  split
  next => exact .refl s
  next =>
    split
    next =>
      split
      · exact walked_onlyCached _ _ _ _
      · exact (walked_onlyCached _ _ _ _).trans (cached _ _)
    next =>
      split
      next =>
        split
        · exact .refl s
        · split
          · exact (fresh.trans (walked_onlyCached _ _ _ _)).trans (cached _ _)
          · exact fresh
      next =>
        split
        · exact fresh.trans (walked_onlyCached _ _ _ _)
        · exact fresh

/-- The pages of an access, translated one after another: what each step gives, and what all leave. -/
theorem xlatePages_spec (s : State) (slice : Nat) (rg : Regime) (need : Need) (pages : List Nat) :
    OnlyCached s (s.xlatePages slice rg need pages).2 ∧
      ∀ e ∈ (s.xlatePages slice rg need pages).1, ∀ f, e.2 = .error f → XCause f.cause := by
  unfold State.xlatePages
  refine List.foldlRecOn pages _ (motive := fun acc : List (Nat × Except XFault XTo) × State =>
    OnlyCached s acc.2 ∧ ∀ e ∈ acc.1, ∀ f, e.2 = .error f → XCause f.cause) ⟨.refl s, by simp⟩ ?_
  intro acc ⟨same, faults⟩ p _
  refine ⟨same.trans (xlate_onlyCached _ _ _ _ _), fun e mem f err => ?_⟩
  rcases List.mem_append.mp mem with old | new
  · exact faults e old f err
  · obtain rfl := List.mem_singleton.mp new
    exact xlate_faults _ _ _ _ _ f err

/-! The lanes that are out of bounds. -/

/-- A lane that raises BOUNDS (R161). -/
def outOfBounds (r : MemReq) (c : Ctx) (b : BufRec) (limit l : Nat) : Bool :=
  let addr := b.addressOf (c.t.value l (r.m.idx.opnd 1)) r.m.off.toInt (widthBytes r.m.w) limit
  !c.t.poisoned l (r.m.idx.opnd 1) && (decide (addr = .bad) || (decide (addr = .out) && !b.oobZero))

/-- A lane raises BOUNDS, another cause, or none. -/
theorem laneAddr_cases (r : MemReq) (c : Ctx) (b : BufRec) (limit l : Nat) :
    (outOfBounds r c b limit l = true ∧ ∃ a, (∀ n, a ≠ .to n) ∧ laneAddr r c b limit l = (l, some causeBounds, a)) ∨
    (outOfBounds r c b limit l = false ∧ ∃ k a, (k = causePoison ∨ k = causeAlign) ∧
      laneAddr r c b limit l = (l, some k, a)) ∨
    (outOfBounds r c b limit l = false ∧ ∃ a, laneAddr r c b limit l = (l, none, a)) := by
  unfold outOfBounds laneAddr
  simp only
  cases c.t.poisoned l (r.m.idx.opnd 1) with
  | true => exact .inr (.inl ⟨rfl, causePoison, .out, .inl rfl, rfl⟩)
  | false =>
    simp only [Bool.false_eq_true, if_false, Bool.not_false, Bool.true_and]
    cases b.addressOf (c.t.value l (r.m.idx.opnd 1)) r.m.off.toInt (widthBytes r.m.w) limit with
    | bad => exact .inl ⟨rfl, .bad, nofun, rfl⟩
    | out =>
      cases zero : b.oobZero with
      | true => exact .inr (.inr ⟨rfl, .out, rfl⟩)
      | false => exact .inl ⟨rfl, .out, nofun, rfl⟩
    | _ a =>
      by_cases aligned : a % widthBytes r.m.w = 0
      · exact .inr (.inr ⟨rfl, .to a, by simp [aligned]⟩)
      · exact .inr (.inl ⟨rfl, causeAlign, .to a, .inr rfl, by simp [aligned]⟩)

theorem laneCausesOf_cons_none (l : Nat) (a : Addr) (xs : List (Nat × (Option (BitVec 8) × Addr))) :
    laneCausesOf ((l, none, a) :: xs) = laneCausesOf xs := rfl

theorem laneCausesOf_cons_some (l : Nat) (k : BitVec 8) (a : Addr) (xs : List (Nat × (Option (BitVec 8) × Addr))) :
    ∃ n, laneCausesOf ((l, some k, a) :: xs) = ⟨l, k, n⟩ :: laneCausesOf xs := ⟨_, rfl⟩

theorem laneCausesOf_cons_bounds (l : Nat) (a : Addr) (h : ∀ n, a ≠ .to n)
    (xs : List (Nat × (Option (BitVec 8) × Addr))) :
    laneCausesOf ((l, some causeBounds, a) :: xs) = ⟨l, causeBounds, 0⟩ :: laneCausesOf xs := by
  cases a with
  | out => rfl
  | bad => rfl
  | _ n => exact absurd rfl (h n)

/-- The causes of lanes, and those of them that are BOUNDS. -/
theorem laneCausesOf_bounds (r : MemReq) (c : Ctx) (b : BufRec) (limit : Nat) (ls : List Nat) :
    (laneCausesOf (ls.map (laneAddr r c b limit))).filter (fun x => decide (x.cause = causeBounds)) =
        ((ls.filter (outOfBounds r c b limit)).map fun l => ⟨l, causeBounds, 0⟩) ∧
      ∀ x ∈ laneCausesOf (ls.map (laneAddr r c b limit)), causeBounds.toNat ≤ x.cause.toNat := by
  induction ls with
  | nil => exact ⟨rfl, nofun⟩
  | cons l ls ih =>
    obtain ⟨raised, least⟩ := ih
    rcases laneAddr_cases r c b limit l with ⟨out, a, no_addr, addr⟩ | ⟨inside, k, a, other, addr⟩ | ⟨inside, a, addr⟩
    · rw [List.map_cons, addr, laneCausesOf_cons_bounds l a no_addr, List.filter_cons_of_pos (by simp), raised,
        List.filter_cons_of_pos out]
      exact ⟨rfl, List.forall_mem_cons.mpr ⟨Nat.le_refl _, least⟩⟩
    · obtain ⟨n, head⟩ := laneCausesOf_cons_some l k a (ls.map (laneAddr r c b limit))
      have differs : k ≠ causeBounds ∧ causeBounds.toNat ≤ k.toNat := by rcases other with rfl | rfl <;> decide
      rw [List.map_cons, addr, head, List.filter_cons_of_neg (by simpa using differs.1), raised,
        List.filter_cons_of_neg (ne_true_of_eq_false inside)]
      exact ⟨rfl, List.forall_mem_cons.mpr ⟨differs.2, least⟩⟩
    · rw [List.map_cons, addr, laneCausesOf_cons_none, List.filter_cons_of_neg (ne_true_of_eq_false inside)]
      exact ⟨raised, least⟩

/-- The causes found by translation, once no page is to be tried again. -/
theorem xCauses_above {live : List (Nat × Nat)} {pages : List (Nat × Except XFault XTo)}
    (faults : ∀ e ∈ pages, ∀ f, e.2 = .error f → XCause f.cause) (again : xAgain pages = []) :
    ∀ x ∈ xCauses live pages, isXCause x.cause = true := by
  intro x mem
  obtain ⟨e, -, found⟩ := List.mem_filterMap.mp mem
  split at found
  next f failed =>
    cases found
    unfold pageResult at failed
    split at failed
    next p res hit =>
      have there := List.mem_of_find?_eq_some hit
      refine (faults _ there f failed).resolve_left fun retry => ?_
      have noted : f.gpa ∈ xAgain pages := List.mem_filterMap.mpr ⟨_, there, by simp only [failed, retry, if_true]⟩
      rw [again] at noted
      cases noted
    next => cases failed; rfl
  next => cases found

theorem bounds_lt_isXCause {k : BitVec 8} (h : isXCause k = true) : k ≠ causeBounds ∧ causeBounds.toNat ≤ k.toNat := by
  simp only [isXCause, Bool.or_eq_true, decide_eq_true_eq] at h
  rcases h with ((rfl | rfl) | rfl) | rfl <;> decide

/-- BOUNDS is the lowest cause of an access, whatever other lanes and pages meet. -/
theorem lowestCause_bounds {r : MemReq} {c : Ctx} {b : BufRec} {limit : Nat} {ls : List Nat} {cs : List LaneCause}
    (out : ls.filter (outOfBounds r c b limit) ≠ []) (above : ∀ x ∈ cs, isXCause x.cause = true) :
    lowestCause (laneCausesOf (ls.map (laneAddr r c b limit)) ++ cs) =
      some (causeBounds, maskOf (ls.filter (outOfBounds r c b limit)), 0) := by
  obtain ⟨raised, least⟩ := laneCausesOf_bounds r c b limit ls
  have others : cs.filter (fun x => decide (x.cause = causeBounds)) = [] :=
    List.filter_eq_nil_iff.mpr fun x mem => by simpa using (bounds_lt_isXCause (above x mem)).1
  have lowest := lowestCause_of_filter (k := causeBounds) (addr := fun _ => 0)
    (by rw [List.filter_append, raised, others, List.append_nil]) out fun x mem =>
      (List.mem_append.mp mem).elim (least x) fun h => (bounds_lt_isXCause (above x h)).2
  have zero : (minNat ((ls.filter (outOfBounds r c b limit)).map fun _ => 0)).getD 0 = 0 := by
    obtain ⟨n, least⟩ := exists_minNat (l := (ls.filter (outOfBounds r c b limit)).map fun _ => 0) (by simpa using out)
    obtain ⟨_, -, rfl⟩ := List.mem_map.mp (minNat_eq_some_iff.mp least).1
    rw [least, Option.getD_some]
  rw [lowest, zero]

theorem raiseLowest_bounds (s : State) (c : Ctx) (r : MemReq) (m : LaneMask) (fault : Option XFault) :
    s.raiseLowest c r causeBounds m 0 fault = s.raise c causeBounds 0 0 (if r.uniform then c.mask else m) := by
  unfold State.raiseLowest
  exact if_neg (by decide)

/-! A refusal that is noted. -/

theorem noteRefusal_frame (s : State) (line : Nat) :
    (s.noteRefusal line).troupes = s.troupes ∧ (s.noteRefusal line).homes = s.homes := by
  unfold State.noteRefusal
  repeat' split
  case isTrue => exact ⟨by unfold State.at; split <;> rfl, (at_outside _ _ _).homes⟩
  all_goals exact ⟨rfl, rfl⟩

theorem noteRefusals_frame (lines : List Nat) (s : State) :
    (lines.foldl State.noteRefusal s).troupes = s.troupes ∧ (lines.foldl State.noteRefusal s).homes = s.homes := by
  induction lines generalizing s with
  | nil => exact ⟨rfl, rfl⟩
  | cons l ls ih =>
    obtain ⟨troupes, homes⟩ := ih (s.noteRefusal l)
    obtain ⟨troupes', homes'⟩ := noteRefusal_frame s l
    exact ⟨troupes.trans troupes', homes.trans homes'⟩

/-- Settles O28. -/
theorem memoryTraps : Obligations.MemoryTraps := by
  intro s c i r req b ls addr outside live x issue skip
  obtain ⟨-, -, spaces⟩ := exec_memRequest req s
  have run := exec_checked req issue skip
  obtain ⟨cached, faults⟩ := xlatePages_spec s c.slice c.blk.regime r.kind.need (toKeys (live.map fun e => e.2 / 4096))
  refine ⟨fun full => by rw [run, memChecked_full full], fun room clean good global again => ?again,
    fun room bad => by rw [run, memChecked_poison room bad]; rfl,
    fun room clean bad => by rw [run, memChecked_shape room clean (by rw [spaces]; exact bad)]; rfl,
    fun room clean good pages out => ?outside⟩
  case again =>
    rw [← spaces] at good
    obtain ⟨troupes, homes⟩ := noteRefusals_frame (xAgain x.1) x.2
    refine ⟨(xAgain x.1).foldl State.noteRefusal x.2, troupes.trans cached.troupes,
      congrArg Homes.mem (homes.trans cached.homes), ?_⟩
    rw [run, memChecked_global room clean good rfl global]
    exact congrArg _ (if_pos again)
  case outside =>
    rw [← spaces] at good
    by_cases global : b.space = 0
    · have above := xCauses_above (live := live) faults (pages global)
      refine ⟨x.2, cached.outside, cached.troupes, ?_⟩
      refine run.trans (congrArg _ ((memChecked_global room clean good rfl global).trans
        ((if_neg (not_not_intro (pages global))).trans ?_)))
      rw [lowestCause_bounds out above]
      exact raiseLowest_bounds _ c r _ _
    · refine ⟨s, .refl s, rfl, ?_⟩
      have lowest := lowestCause_bounds (cs := []) out nofun
      rw [List.append_nil] at lowest
      refine run.trans (congrArg _ ((memChecked_scratch room clean good rfl global).trans ?_))
      rw [lowest]
      exact raiseLowest_bounds s c r _ _

end Sys2Proof.Machine
end

section
/-! PROOFS. Prefetches and cluster accesses (R169, R190, R255 to R261). -/

namespace Sys2Proof.Machine

/-! Prefetch. -/

/-- The request of a prefetch. -/
def prefetchRequest (m : MAddr) : MemReq := ⟨.prefetch m, m, .prefetch, 0, none, none, none, false, [0, 1]⟩

theorem exec_prefetch {s : State} {c : Ctx} {m : MAddr} (issue : s.ctx? = some c)
    (settled : pendingS c.t (m.idx.opnd 1) = false) (there : s.inFlight c.key (m.idx.opnd 1) = false)
    (full : m.idx.trapEmpty = true ∨ c.t.emptyLanes (m.idx.opnd 1) &&& c.mask = 0) :
    exec (.prefetch m) s = .next (s.prefetchLanes c (prefetchRequest m)) := by
  refine (onTroupe_some issue _).trans (congrArg _ (if_neg ?_))
  have waits : (!m.idx.trapEmpty && decide (c.t.emptyLanes (m.idx.opnd 1) &&& c.mask ≠ 0)) = false := by
    rcases full with h | h <;> simp [h]
  simp only [waits, settled, there, Bool.or_false, Bool.false_eq_true, not_false_eq_true]

/-- A read that goes ahead of its index is none for a prefetch (R314). -/
theorem sendOrTake_prefetch (s : State) (c : Ctx) (m : MAddr) (id : Nat) (p : Part) :
    s.sendOrTake c (prefetchRequest m) id p = s.sendPart id p.line := by
  have none_read : s.guessFor c (prefetchRequest m) p = none := if_neg (by simp [prefetchRequest])
  unfold State.sendOrTake
  rw [none_read]

/-- The lanes whose page is memory. -/
def inMemory (pages : List (Nat × Except XFault XTo)) (e : Nat × Nat) : Bool :=
  match pageResult pages e.2 with
  | .ok (.mem _ _) => true
  | _ => false

theorem xAddr_of_inMemory {pages : List (Nat × Except XFault XTo)} {e : Nat × Nat} (h : inMemory pages e = true) :
    ∃ y, xAddr (pageResult pages e.2) e.2 = some y := by
  unfold inMemory at h
  split at h
  next found => exact ⟨_, by rw [found]; rfl⟩
  next => cases h

theorem prefetchResults : PrefetchResults := by
  intro s c m issue settled there full b r use live pages x good accs
  have run := exec_prefetch issue settled there full
  refine ⟨fun bad => ?_, fun fine scratch => ?_, fun fine global again => ?_,
    fun fine global once => ⟨fun nothing => ?_, fun some_lane => ?_⟩⟩
  · exact run.trans (congrArg _ (if_pos bad))
  · exact run.trans (congrArg _ ((if_neg (ne_true_of_eq_false fine)).trans (if_pos scratch)))
  · obtain ⟨troupes, -⟩ := noteRefusals_frame (xAgain x.1) x.2
    refine ⟨(xAgain x.1).foldl State.noteRefusal x.2,
      troupes.trans (xlatePages_spec s c.slice c.blk.regime needR pages).1.troupes, ?_⟩
    exact run.trans (congrArg _ ((if_neg (ne_true_of_eq_false fine)).trans ((if_neg (not_not_intro global)).trans
      (if_pos again))))
  all_goals
    have accepted : exec (.prefetch m) s = .next (x.2.acceptGlobal c r b good [] x.1
        (s.writablePages c.slice c.blk.regime needR pages)) :=
      run.trans (congrArg _ ((if_neg (ne_true_of_eq_false fine)).trans ((if_neg (not_not_intro global)).trans
        (if_neg (not_not_intro once)))))
  · refine accepted.trans (congrArg _ ?_)
    rw [nothing]
    rfl
  · obtain ⟨e, rest, first⟩ := List.exists_cons_of_ne_nil some_lane
    have read : inMemory x.1 e = true := (List.mem_filter.mp (first ▸ List.mem_cons_self : e ∈ good)).2
    obtain ⟨y, there⟩ := xAddr_of_inMemory read
    have some_access : accs.isEmpty = false := by
      simp only [accs, first, List.filterMap_cons, there, Option.map_some, List.isEmpty_cons]
    refine ⟨⟨.troupe c.key.num, .prefetch, m.w, none, c.key.core, c.t.block, c.blk.regime, scopeOf m b, leaseOf m b,
      m.hint.val, none, markWritable (s.writablePages c.slice c.blk.regime needR pages) (partsOf accs), false⟩,
      rfl, rfl, rfl, rfl, rfl, rfl, accepted.trans (congrArg _ ((if_neg (ne_true_of_eq_false some_access)).trans ?_))⟩
    exact congrArg (fun f => List.foldl f _ _) (funext fun u => funext fun p => sendOrTake_prefetch u c m _ p)

/-! Cluster accesses. -/

theorem exec_clusterRequest {i : Instr} {r : MemReq} (h : clusterRequest i = some r) (s : State) :
    exec i s = clusterOp s r ∧ r.i = i := by
  unfold clusterRequest at h
  split at h <;> cases h <;> exact ⟨rfl, rfl⟩

theorem exec_clusterChecked {s : State} {c : Ctx} {i : Instr} {r : MemReq} (h : clusterRequest i = some r)
    (issue : AtIssue s c i c.mask) : exec i s = .next (s.clusterChecked c r) := by
  obtain ⟨run, same⟩ := exec_clusterRequest h s
  rw [run, clusterOp, onTroupe_some issue.1, same, whenReady_go _ issue.2]

section
variable {s : State} {c : Ctx} {r : MemReq}

theorem clusterChecked_full (full : c.t.memFull r.kind = true) : s.clusterChecked c r = s.stall c := by
  unfold State.clusterChecked
  exact if_pos full

theorem clusterChecked_shape (room : c.t.memFull r.kind = false)
    (bad : (c.record r.m.buf).bad [2] r.kind.writes = true) :
    s.clusterChecked c r = s.raise c causeShape 0 0 c.mask := by
  unfold State.clusterChecked
  exact (if_neg (ne_true_of_eq_false room)).trans (if_pos bad)

variable (room : c.t.memFull r.kind = false) (good : (c.record r.m.buf).bad [2] r.kind.writes = false)
include room good

theorem clusterChecked_nobody (nobody : s.targetBlock c (c.record r.m.buf).csel = none) :
    s.clusterChecked c r = s.raise c causeBounds 0 0 c.mask := by
  unfold State.clusterChecked
  simp only [room, good, nobody, Bool.false_eq_true, if_false]

theorem clusterChecked_reached {tb : Nat × Block} {at_ : Nat → Option Nat}
    (target : s.targetBlock c (c.record r.m.buf).csel = some tb)
    (reach : Reaches r c (c.record r.m.buf) tb.2.d (lanes c.mask) at_) :
    s.clusterChecked c r = s.acceptCluster c r (c.record r.m.buf) tb
      ((lanes c.mask).filterMap fun l => (at_ l).map fun a => (l, a))
      ((lanes c.mask).filter fun l => (at_ l).isNone) := by
  unfold State.clusterChecked
  have addrs := map_laneAddr_of_reaches reach
  simp only [room, good, target, addrs, Bool.false_eq_true, if_false, laneCausesOf_reached, lowestCause_nil,
    liveAddrs_reached, droppedLanes_reached]

end

theorem clusterAccessResults : ClusterAccessResults := by
  intro s c i r at_ req b ls live dropped t1 issue
  have run := exec_clusterChecked req issue
  refine ⟨fun full => by rw [run, clusterChecked_full full],
    fun room bad => by rw [run, clusterChecked_shape room bad]; rfl,
    fun room good => ⟨fun nobody => by rw [run, clusterChecked_nobody room good nobody]; rfl,
      fun tb target reach => ?_⟩⟩
  have accepted := run.trans (congrArg _ (clusterChecked_reached room good target reach))
  refine ⟨fun nothing => accepted.trans (congrArg _ (if_pos nothing)), fun some_lane => ?_⟩
  exact ⟨⟨.troupe c.key.num, r.kind, r.m.w, r.dst, c.key.core, c.t.block, c.blk.regime, 0, 0, 0, some tb.1, _, true⟩,
    rfl, rfl, rfl, rfl, rfl, rfl, rfl, accepted.trans (congrArg _ (if_neg some_lane))⟩

/-- Settles O32. -/
theorem prefetchAndClusterResults : Obligations.PrefetchAndClusterResults :=
  ⟨prefetchResults, clusterAccessResults⟩

end Sys2Proof.Machine
end

section
/-! PROOFS. The instructions that make buffer records (R157 to R159). -/

namespace Sys2Proof.Machine

/-- A b register holds a record, and nothing else of the troupe is changed. -/
def RecordIs (u t : Troupe) (b : BReg) (x : BitVec 256) : Prop :=
  t.uni.bufRec b = x ∧ (∀ b' : BReg, b' ≠ b → t.uni.bufRec b' = u.uni.bufRec b') ∧
    { t with uni := { t.uni with b := u.uni.b } } = u

theorem setRec_recordIs (t : Troupe) (b : BReg) (x : BitVec 256) :
    RecordIs t { t with uni := t.uni.setRec b x } b x :=
  ⟨sget_sput_self _ _ _ _, fun _ other => sget_sput_ne _ fun same => other (Fin.ext same), rfl⟩

theorem setRecord_poison {s : State} {c : Ctx} {b : BReg} {v : Nat} {bad : Bool} (h : bad = true) :
    s.setRecord c b v bad = s.raise c causePoison 0 0 c.mask := if_pos h

theorem setRecord_clean {s : State} {c : Ctx} {b : BReg} {v : Nat} {bad : Bool} (h : bad = false) :
    s.setRecord c b v bad = s.advance c { c.t with uni := c.t.uni.setRec b (BitVec.ofNat 256 v) } :=
  if_neg (ne_true_of_eq_false h)

theorem ofNat_s (c : Ctx) (sa : SReg) : BitVec.ofNat 64 (c.t.s sa).toNat = c.t.s sa :=
  (BitVec.ofNat_toNat 64 _).trans (BitVec.setWidth_eq _)

/-! Records in the block's data (R157). -/

section
variable {s : State} {c : Ctx} {b : BReg} {sa : SReg}

theorem exec_brec {sp : Bool} (h : AtIssue s c (.brec sp b sa) c.mask) :
    exec (.brec sp b sa) s = .next (if c.t.sBad sa then s.raise c causePoison 0 0 c.mask
      else if sp then s.brecScratch c b (c.t.s sa).toNat else s.brecGlobal c b (c.t.s sa).toNat) :=
  exec_ready h rfl rfl

theorem brecScratch_good {o : Nat} (fits : o + 32 ≤ c.blk.d) (aligned : o % 32 = 0) :
    s.brecScratch c b o =
      if s.scratchHeld c false (spBytes c.blk.g0 6 o 32) then s.stall c
      else s.setRecord c b ((s.core c.key.core).val (spBytes c.blk.g0 6 o 32))
        ((s.core c.key.core).badAt (spBytes c.blk.g0 6 o 32)) :=
  (if_neg (Nat.not_lt.mpr fits)).trans (if_neg (not_not_intro aligned))

end

theorem brecScratch_results (s : State) (c : Ctx) (b : BReg) (sa : SReg) :
    let o := (c.t.s sa).toNat
    let co := s.core c.key.core
    let at_ := spBytes c.blk.g0 6 o 32
    let raised := fun (i : Instr) (cause : BitVec 8) (a : W64) => exec i s = .next (s.raise c cause 0 a c.mask)
    AtIssue s c (.brec true b sa) c.mask →
    (c.t.sBad sa = true → raised (.brec true b sa) 0x0B 0) ∧
    (c.t.sBad sa = false → c.blk.d < o + 32 → raised (.brec true b sa) 0x05 0) ∧
    (c.t.sBad sa = false → o + 32 ≤ c.blk.d → o % 32 ≠ 0 → raised (.brec true b sa) 0x06 (c.t.s sa)) ∧
    (c.t.sBad sa = false → o + 32 ≤ c.blk.d → o % 32 = 0 →
      (s.scratchHeld c false at_ = true → exec (.brec true b sa) s = .next (s.stall c)) ∧
      (s.scratchHeld c false at_ = false → co.badAt at_ = true → raised (.brec true b sa) 0x0B 0) ∧
      (s.scratchHeld c false at_ = false → co.badAt at_ = false →
        Completes s c (.brec true b sa) fun t => RecordIs c.t t b (BitVec.ofNat 256 (leVal (at_.map co.byte))))) := by
  intro o co at_ raised issue
  have run := exec_brec issue
  have clean (h : c.t.sBad sa = false) : exec (.brec true b sa) s = .next (s.brecScratch c b o) :=
    run.trans (congrArg _ (if_neg (ne_true_of_eq_false h)))
  refine ⟨fun bad => run.trans (congrArg _ (if_pos bad)), fun ok out => (clean ok).trans (congrArg _ (if_pos out)),
    fun ok fits odd => ?align, fun ok fits aligned => ?_⟩
  case align =>
    refine (clean ok).trans (congrArg _ (((if_neg (Nat.not_lt.mpr fits)).trans (if_pos odd)).trans ?_))
    rw [ofNat_s]
    rfl
  have done := (clean ok).trans (congrArg _ (brecScratch_good fits aligned))
  have free (h : s.scratchHeld c false at_ = false) := done.trans (congrArg _ (if_neg (ne_true_of_eq_false h)))
  exact ⟨fun held => done.trans (congrArg _ (if_pos held)),
    fun open_ bad => (free open_).trans (congrArg _ (setRecord_poison bad)),
    fun open_ ok => ⟨_, (free open_).trans (congrArg _ (setRecord_clean ok)), setRec_recordIs c.t b _⟩⟩

/-! A record of four s registers (R158). -/

theorem append_eq_sum (x y z w : W64) :
    (x ++ y ++ z ++ w : BitVec 256) =
      BitVec.ofNat 256 (w.toNat + z.toNat * 2 ^ 64 + y.toNat * 2 ^ 128 + x.toNat * 2 ^ 192) := by
  apply BitVec.eq_of_toNat_eq
  simp only [BitVec.toNat_append, BitVec.toNat_ofNat]
  have hx := x.isLt
  have hy := y.isLt
  have hz := z.isLt
  have hw := w.isLt
  rw [← Nat.shiftLeft_add_eq_or_of_lt hw, ← Nat.shiftLeft_add_eq_or_of_lt hz, ← Nat.shiftLeft_add_eq_or_of_lt hy]
  simp only [Nat.shiftLeft_eq]
  omega

theorem fourFrom_any (sa : SReg) (p : SReg → Bool) :
    (fourFrom sa).any p = true ↔ ∃ i < 4, p (Fin.ofNat 64 (sa.val + i)) = true := by
  simp [fourFrom, List.any_map, List.any_eq_true]

theorem fourFrom_val {sa : SReg} (h : sa.val ≤ 60) {i : Nat} (hi : i < 4) :
    (Fin.ofNat 64 (sa.val + i)).val = sa.val + i := Nat.mod_eq_of_lt (by omega)

theorem fourFrom_eq (sa : SReg) :
    fourFrom sa = [sa, Fin.ofNat 64 (sa.val + 1), Fin.ofNat 64 (sa.val + 2), Fin.ofNat 64 (sa.val + 3)] :=
  congrArg (· :: _) (Fin.ext (Nat.mod_eq_of_lt sa.isLt))

/-- Four terms of a sum, whatever the weight of a place. -/
theorem foldl_four (x : SReg → Nat) (weight : Nat → Nat) (a b c d : SReg) :
    ([a, b, c, d].zipIdx).foldl (fun acc e => acc + x e.1 * weight e.2) 0 =
      0 + x a * weight 0 + x b * weight 1 + x c * weight 2 + x d * weight 3 := rfl

theorem sum_four (x : SReg → Nat) (a b c d : SReg) :
    ([a, b, c, d].zipIdx).foldl (fun acc e => acc + x e.1 * 2 ^ (64 * e.2)) 0 =
      x a + x b * 2 ^ 64 + x c * 2 ^ 128 + x d * 2 ^ 192 :=
  (foldl_four x (fun i => 2 ^ (64 * i)) a b c d).trans (by simp)

theorem brmk_results (s : State) (c : Ctx) (b : BReg) (sa : SReg) (issue : s.ctx? = some c) (room : sa.val ≤ 60) :
    ((∃ i < 4, c.t.uni.sPending.getLsbD (sa.val + i) = true) → exec (.brmk b sa) s = .next (s.stall c)) ∧
    ((∀ i < 4, c.t.uni.sPending.getLsbD (sa.val + i) = false) →
      (∃ i < 4, c.t.uni.sPoison.getLsbD (sa.val + i) = true) →
      exec (.brmk b sa) s = .next (s.raise c 0x0B 0 0 c.mask)) ∧
    ((∀ i < 4, c.t.uni.sPending.getLsbD (sa.val + i) = false ∧ c.t.uni.sPoison.getLsbD (sa.val + i) = false) →
      Completes s c (.brmk b sa) fun t => RecordIs c.t t b
        (c.t.s (Fin.ofNat 64 (sa.val + 3)) ++ c.t.s (Fin.ofNat 64 (sa.val + 2)) ++ c.t.s (Fin.ofNat 64 (sa.val + 1)) ++
          c.t.s sa)) := by
  have some_of (m : BitVec 64) : ((fourFrom sa).any fun r => m.getLsbD r.val) = true ↔
      ∃ i < 4, m.getLsbD (sa.val + i) = true := by
    rw [fourFrom_any]
    exact exists_congr fun i => and_congr_right fun hi => by rw [fourFrom_val room hi]
  have none_of {m : BitVec 64} (h : ∀ i < 4, m.getLsbD (sa.val + i) = false) :
      ¬((fourFrom sa).any fun r => m.getLsbD r.val) = true := by
    rw [some_of]
    rintro ⟨i, hi, set⟩
    rw [h i hi] at set
    cases set
  have run : exec (.brmk b sa) s = execBrmk b sa s := rfl
  unfold execBrmk at run
  rw [onTroupe_some issue] at run
  refine ⟨fun waits => run.trans (congrArg _ (if_pos ((some_of _).mpr waits))),
    fun settled bad => run.trans (congrArg _ ((if_neg (none_of settled)).trans (if_pos ((some_of _).mpr bad)))),
    fun fine => ⟨_, run.trans (congrArg _ ((if_neg (none_of fun i hi => (fine i hi).1)).trans
      (if_neg (none_of fun i hi => (fine i hi).2)))), ?_⟩⟩
  have value : ((fourFrom sa).zipIdx).foldl (fun acc e => acc + (c.t.s e.1).toNat * 2 ^ (64 * e.2)) 0 =
      (c.t.s sa).toNat + (c.t.s (Fin.ofNat 64 (sa.val + 1))).toNat * 2 ^ 64 +
        (c.t.s (Fin.ofNat 64 (sa.val + 2))).toNat * 2 ^ 128 + (c.t.s (Fin.ofNat 64 (sa.val + 3))).toNat * 2 ^ 192 := by
    rw [fourFrom_eq, sum_four fun r => (c.t.s r).toNat]
  rw [append_eq_sum, ← value]
  exact setRec_recordIs c.t b _

theorem bufferRecordResults : BufferRecordResults := by
  intro s c b sa f recordIs o co at_ x v raised
  refine ⟨brecScratch_results s c b sa, brmk_results s c b sa, fun issue => ⟨fun bad => ?_, fun clean => ?_⟩⟩
  · exact (exec_ready issue rfl rfl).trans (congrArg _ (if_pos bad))
  · exact ⟨_, (exec_ready issue rfl rfl).trans (congrArg _ (if_neg (ne_true_of_eq_false clean))),
      setRec_recordIs c.t b _⟩

/-! A record in memory (R157). -/

theorem recordFromMemory : RecordFromMemory := by
  intro s c b sa i a x issue
  have run := exec_brec issue
  refine ⟨fun bad => run.trans (congrArg _ (if_pos bad)), fun clean => ?_⟩
  have read : exec i s = .next (s.brecGlobal c b a) := run.trans (congrArg _ (if_neg (ne_true_of_eq_false clean)))
  unfold State.brecGlobal at read
  refine ⟨fun fresh odd => ?_, fun fresh aligned f fault once => ?_, fun fresh aligned d tag there => ?_,
    fun id o sent => ⟨fun more => ?_, fun complete ok => ?_, fun complete bad => ?_⟩⟩
  · rw [fresh] at read
    refine read.trans (congrArg _ ((if_pos odd).trans ?_))
    rw [ofNat_s]
    rfl
  · rw [fresh] at read
    refine read.trans (congrArg _ ((if_neg (not_not_intro aligned)).trans ?_))
    simp only [show s.xlate c.slice c.blk.regime a needR = (.error f, x.2) from Prod.ext fault rfl]
    exact if_neg once
  · rw [fresh] at read
    refine ⟨⟨.troupe c.key.num, .record, .b64, none, c.key.core, c.t.block, c.blk.regime, 6, 1, 0, none, _, false⟩,
      rfl, rfl, rfl, rfl, rfl, rfl, rfl, rfl, rfl, read.trans (congrArg _ ((if_neg (not_not_intro aligned)).trans ?_))⟩
    simp only [show s.xlate c.slice c.blk.regime a needR = (.ok (.mem d tag), x.2) from Prod.ext there rfl]
    rfl
  all_goals rw [sent] at read
  · exact read.trans (congrArg _ (if_neg (ne_true_of_eq_false more)))
  · exact read.trans (congrArg _ ((if_pos complete).trans (setRecord_clean ok)))
  · exact read.trans (congrArg _ ((if_pos complete).trans (setRecord_poison bad)))

/-- Settles O31. -/
theorem recordResults : Obligations.RecordResults :=
  ⟨bufferRecordResults, recordFromMemory⟩

end Sys2Proof.Machine
end

section
/-! PROOFS. Products of the matrix unit: acceptance, what stops one, and its outputs (R31, R79, R206, R214, R215). -/

namespace Sys2Proof.Machine

/-! Forms. -/

/-- A product instruction is executed through its form. -/
theorem exec_product {i : Instr} {f : MmaForm} (h : mmaForm i = some f) {s : State} {c : Ctx}
    (issue : s.ctx? = some c) :
    exec i s = .next (s.product c i f) := by
  have run : exec i s = productOp s i := by
    unfold mmaForm at h
    split at h
    case h_13 => cases h
    all_goals rfl
  rw [run, productOp, onTroupe_some issue]
  simp only [h]

/-- What the row of an instruction says of its form. -/
theorem mmaForm_of_shape {i : Instr} {o : MmaOps} {kMax chunk scaled : Nat}
    (h : productShape i = some (o, kMax, chunk, scaled)) :
    ∃ f, mmaForm i = some f ∧ f.ops = o ∧ f.kMax = kMax ∧ f.chunk = chunk ∧ f.scaled = scaled ∧ kMax < 2 ^ 11 := by
  unfold productShape at h
  split at h
  all_goals cases h
  all_goals exact ⟨_, rfl, rfl, rfl, rfl, rfl, by decide⟩

/-! Acceptance and traps. -/

section
variable {s : State} {c : Ctx} {i : Instr} {f : MmaForm}

theorem lowestUnheld_none (h : ∀ r ∈ f.roles, c.holds r.1 = true) : c.lowestUnheld (f.roles.map (·.1)) = none := by
  have empty : (f.roles.map (·.1)).filter (fun i => !c.holds i) = [] := by
    refine List.filter_eq_nil_iff.mpr fun i mem => ?_
    obtain ⟨r, there, rfl⟩ := List.mem_map.mp mem
    simp [h r there]
  unfold Ctx.lowestUnheld
  rw [empty]
  rfl

theorem lowestUnheld_some {sl : Nat} (named : ∃ r ∈ f.roles, r.1 = sl) (free : c.holds sl = false)
    (below : ∀ r ∈ f.roles, r.1 < sl → c.holds r.1 = true) : c.lowestUnheld (f.roles.map (·.1)) = some sl := by
  obtain ⟨r, there, rfl⟩ := named
  refine minNat_eq_some_iff.mpr ⟨List.mem_filter.mpr ⟨List.mem_map_of_mem there, by simp [free]⟩, fun b mem => ?_⟩
  obtain ⟨other, unheld⟩ := List.mem_filter.mp mem
  obtain ⟨q, hq, rfl⟩ := List.mem_map.mp other
  refine Nat.le_of_not_lt fun lower => ?_
  simp [below q hq lower] at unheld

variable (room : s.mxFull c = false) (acc : s.accWaits c f.ops.d = false) (settledK : c.optPending f.ops.k = false)
  (settledCount : c.optPending f.count = false) (slots : s.slotsHeld c false f.roles = false)
include room acc settledK settledCount slots

/-- The checks that come once nothing is waited for (R214). -/
theorem product_checks :
    let k := uval 11 (c.optVal f.ops.k f.kMax)
    s.product c i f =
      if c.split then s.raiseSplit c
      else if f.kMax < k ∨ (f.sparse = true ∧ k % 4 ≠ 0) then s.raise c causeShape 0 0 c.mask
      else if f.scaled ≠ 0 ∧ c.optVal f.count 0 < ceilDiv k f.scaled then s.raise c causeScaleCount 0 0 c.mask
      else match c.lowestUnheld (f.roles.map (·.1)) with
        | some sl => s.raiseSlot c sl
        | none => s.mxAccept c c.t (.product i k (c.optBad f.ops.k || c.optBad f.count)) := by
  unfold State.product
  simp only [room, acc, settledK, settledCount, slots, Bool.or_false, Bool.false_eq_true, if_false] <;> rfl

end

theorem split_of_frontier {c : Ctx} (h : c.t.frontier ≠ []) : c.split = true := decide_eq_true h

theorem together_of_frontier {c : Ctx} (h : c.t.frontier = []) : ¬c.split = true := by simp [Ctx.split, h]

theorem productAccepted : ProductAccepted := by
  intro s c i o kMax chunk scaled shape
  obtain ⟨f, form, rfl, rfl, rfl, rfl, small⟩ := mmaForm_of_shape shape
  refine ⟨f, form, rfl, rfl, rfl, rfl, ?_⟩
  intro k issue ready
  have size : uval 11 (c.optVal f.ops.k f.kMax) = k := by
    unfold Ctx.optVal
    cases h : f.ops.k with
    | some r => simp only [k, h]
    | none =>
      simp only [k, h]
      exact Nat.mod_eq_of_lt small
  obtain ⟨room, acc, ⟨settledK, settledCount⟩, slots, together, ⟨small, whole⟩, scales, held⟩ := ready
  rw [exec_product form issue, product_checks room acc settledK settledCount slots, size]
  refine congrArg _ ((if_neg (together_of_frontier together)).trans ((if_neg ?shape).trans ((if_neg ?count).trans ?_)))
  case shape =>
    rintro (big | ⟨sparse, odd⟩)
    · exact absurd small (Nat.not_le.mpr big)
    · exact odd (whole sparse)
  case count =>
    rintro ⟨scaled, few⟩
    exact scales.elim scaled fun enough => absurd enough (Nat.not_le.mpr few)
  rw [lowestUnheld_none held]

theorem productTraps : ProductTraps := by
  intro s c i f form issue k cnt few wrongK room acc settledK settledCount slots
  have size : uval 11 (c.optVal f.ops.k f.kMax) = k := by
    unfold Ctx.optVal
    cases h : f.ops.k <;> simp only [k, h]
  have checks := product_checks (i := i) room acc settledK settledCount slots
  simp only [size] at checks
  have run := (exec_product form issue).trans (congrArg _ checks)
  refine ⟨fun apart => run.trans (congrArg _ (if_pos (split_of_frontier apart))), fun together wrong => ?_,
    fun together right short => ?_, fun together right enough sl named free below => ?_⟩
  all_goals
    replace run := run.trans (congrArg _ (if_neg (together_of_frontier together)))
  · exact run.trans (congrArg _ (if_pos wrong))
  all_goals
    replace run := run.trans (congrArg _ (if_neg right))
  · exact run.trans (congrArg _ (if_pos short))
  · refine run.trans (congrArg _ ((if_neg enough).trans ?_))
    rw [lowestUnheld_some named free below]
    rfl

/-! Outputs (R31, R215). -/

/-- The positions of one chunk. -/
theorem chunk_positions (a k m : Nat) :
    ((List.range m).filterMap fun x => if a + x < k then some (a + x) else none) = List.range' a (min m (k - a)) := by
  induction m with
  | zero => simp
  | succ m ih =>
    rw [List.range_succ, List.filterMap_append, ih]
    by_cases inside : a + m < k
    · rw [show min (m + 1) (k - a) = min m (k - a) + 1 by omega, List.range'_concat, show min m (k - a) = m by omega]
      simp [inside]
    · rw [show min (m + 1) (k - a) = min m (k - a) by omega]
      simp [inside]

/-- One chunk added to what the chunks before gave. -/
def MmaForm.addChunk (f : MmaForm) (rd : Ref → Nat) (i j acc : Nat) (qs : List Nat) : Nat :=
  fp32.round .rne false false 0 ((fp32.decode acc).add .rne (exactSum .rne
    (qs.flatMap fun q => (f.refs rd i j q).map fun rs => f.comb (rs.map rd))))

theorem output_eq (f : MmaForm) (rd : Ref → Nat) (i j k acc : Nat) :
    f.output rd i j k acc = (List.range (ceilDiv k f.chunk)).foldl (fun acc n =>
      f.addChunk rd i j acc (List.range' (f.chunk * n) (min f.chunk (k - f.chunk * n)))) acc := by
  unfold MmaForm.output MmaForm.addChunk
  simp only [chunk_positions]

theorem ceilDiv_of_bounds {a b n : Nat} (hb : 0 < b) (lo : b * n < a) (hi : a ≤ b * (n + 1)) : ceilDiv a b = n + 1 := by
  rw [Nat.mul_succ] at hi
  unfold ceilDiv
  rw [if_neg (by omega)]
  refine Nat.div_eq_of_lt_le ?_ ?_
  · rw [Nat.add_mul, Nat.mul_comm n b]
    omega
  · rw [Nat.add_mul, Nat.add_mul, Nat.mul_comm n b]
    omega

theorem ceilDiv_mul {b n : Nat} (hb : 0 < b) : ceilDiv (b * n) b = n := by
  cases n with
  | zero =>
    unfold ceilDiv
    rw [if_neg (by omega), Nat.mul_zero, Nat.zero_add]
    exact Nat.div_eq_of_lt (by omega)
  | succ n => exact ceilDiv_of_bounds hb (by rw [Nat.mul_succ]; omega) (Nat.le_refl _)

theorem foldl_congr_mem {A B : Type} {f g : A → B → A} {l : List B} (same : ∀ a, ∀ b ∈ l, f a b = g a b) {a : A} :
    l.foldl f a = l.foldl g a := by
  induction l generalizing a with
  | nil => rfl
  | cons b t ih =>
    rw [List.foldl_cons, List.foldl_cons, same a b (List.mem_cons_self ..)]
    exact ih fun a c mem => same a c (List.mem_cons_of_mem b mem)

/-- A chunk past a multiple of the chunk's size is added to what that multiple gave. -/
theorem output_chunk {f : MmaForm} (rd : Ref → Nat) (i j acc : Nat) {k n : Nat} (positive : 0 < f.chunk)
    (above : f.chunk * n < k) (within : k ≤ f.chunk * (n + 1)) :
    f.output rd i j k acc = f.addChunk rd i j (f.output rd i j (f.chunk * n) acc)
      (List.range' (f.chunk * n) (k - f.chunk * n)) := by
  rw [output_eq, output_eq, ceilDiv_of_bounds positive above within, ceilDiv_mul positive, List.range_succ,
    List.foldl_append, List.foldl_cons, List.foldl_nil]
  have earlier : ∀ acc, ∀ m ∈ List.range n,
      f.addChunk rd i j acc (List.range' (f.chunk * m) (min f.chunk (k - f.chunk * m))) =
        f.addChunk rd i j acc (List.range' (f.chunk * m) (min f.chunk (f.chunk * n - f.chunk * m))) := by
    intro acc m mem
    have before := Nat.mul_le_mul_left f.chunk (List.mem_range.mp mem)
    rw [Nat.mul_succ] at before
    rw [Nat.min_eq_left (by omega), Nat.min_eq_left (by omega)]
  rw [foldl_congr_mem earlier, Nat.min_eq_right (by rw [Nat.mul_succ] at within; omega)]

theorem productOutput : ProductOutput := by
  intro f rd i j k acc n positive products sum
  have nothing : f.output rd i j 0 acc = acc := by
    have none_left := ceilDiv_mul (n := 0) positive
    rw [Nat.mul_zero] at none_left
    rw [output_eq, none_left, List.range_zero, List.foldl_nil]
  refine ⟨nothing, fun some_left one => ?_, output_chunk rd i j acc positive⟩
  have first := output_chunk (n := 0) rd i j acc positive (k := k) (by omega) (by omega)
  rw [Nat.mul_zero, nothing] at first
  exact first

/-- Settles O33. -/
theorem productResults : Obligations.ProductResults :=
  ⟨productAccepted, productTraps, productOutput⟩

end Sys2Proof.Machine
end

section
/-! PROOFS. What a message on its way leaves as it was. -/

namespace Sys2Proof.Machine

/-- Messages, events, counters and system registers may have changed; memory and its homes, the troupes, saved ones too,
blocks, cores, host cores, the troupe at issue and the time are as they were. -/
def OnlyTraffic (s u : State) : Prop :=
  { u with
    flight := s.flight, fab := s.fab, timers := s.timers, todo := s.todo, pkg := { s.pkg with saved := u.pkg.saved }
    plat := s.plat, regs := s.regs, fresh := s.fresh, seq := s.seq } = s

namespace OnlyTraffic

theorem refl (s : State) : OnlyTraffic s s := rfl

theorem trans {s u v : State} (h : OnlyTraffic s u) (g : OnlyTraffic u v) : OnlyTraffic s v := by
  unfold OnlyTraffic at h g ⊢
  rw [← g] at h
  exact h

section
variable {s u : State} (h : OnlyTraffic s u)
include h

theorem homes : u.homes = s.homes := (congrArg State.homes h :)
theorem troupes : u.troupes = s.troupes := (congrArg State.troupes h :)
theorem saved : u.pkg.saved = s.pkg.saved := (congrArg (fun u => u.pkg.saved) h :)
theorem blocks : u.blocks = s.blocks := (congrArg State.blocks h :)
theorem cores : u.cores = s.cores := (congrArg State.cores h :)
theorem harts : u.harts = s.harts := (congrArg State.harts h :)
theorem current : u.current = s.current := (congrArg State.current h :)
theorem tick : u.tick = s.tick := (congrArg State.tick h :)

theorem troupe? (k : TKey) : u.troupe? k = s.troupe? k := by
  unfold State.troupe?
  rw [h.troupes, h.saved]

end

/-- Messages sent one after another. -/
theorem foldl {A : Type} {f : State → A → State} (h : ∀ s a, OnlyTraffic s (f s a)) (xs : List A) (s : State) :
    OnlyTraffic s (xs.foldl f s) :=
  List.foldlRecOn xs f (motive := OnlyTraffic s) (.refl s) fun u g a _ => g.trans (h u a)

end OnlyTraffic

theorem post_traffic (s : State) (e : Ev) : OnlyTraffic s (s.post e) := rfl

theorem at_traffic (s : State) (n : Nat) (e : Ev) : OnlyTraffic s (s.at n e) := by
  unfold State.at
  split <;> rfl

theorem later_traffic (s : State) (e : Ev) : OnlyTraffic s (s.later e) := at_traffic s _ e

theorem postOnce_traffic (s : State) (e : Ev) : OnlyTraffic s (s.postOnce e) := by
  unfold State.postOnce
  split <;> rfl

theorem laterOnce_traffic (s : State) (e : Ev) : OnlyTraffic s (s.laterOnce e) := by
  unfold State.laterOnce
  split
  · rfl
  · exact later_traffic s e

theorem newId_traffic (s : State) : OnlyTraffic s s.newId.2 := rfl

theorem newPacket_traffic (s : State) (p : Packet) : OnlyTraffic s (s.newPacket p).2 := rfl

theorem setReg_traffic (s : State) (slice unit n : Nat) (v : W64) : OnlyTraffic s (s.setReg slice unit n v) := rfl

theorem countEnergy_traffic (s : State) (part vf : Nat) (e : EnergyEvent) (n : Nat) :
    OnlyTraffic s (s.countEnergy part vf e n) := by
  unfold State.countEnergy State.modPart
  split <;> rfl

theorem countPacket_traffic (s : State) (part vf : Nat) : OnlyTraffic s (s.countPacket part vf) := by
  unfold State.countPacket
  split
  · exact .trans (u := { s with fresh := s.fresh + 1 }) rfl (countEnergy_traffic _ _ _ _ _)
  · rfl

theorem queueRing_traffic (s : State) (slice part : Nat) (ring : Ring) (words : List W64) (saved caller : Option Nat) :
    OnlyTraffic s (s.queueRing slice part ring words saved caller).2 := by
  refine .trans ?_ (postOnce_traffic _ _)
  rfl

theorem holdPacket_traffic (s : State) (part src dst : Nat) (cls : PClass) (e : Ev) :
    OnlyTraffic s (s.holdPacket part src dst cls e) :=
  .trans (.trans (setReg_traffic _ _ _ _ _) (newPacket_traffic _ _)) (queueRing_traffic _ _ _ _ _ _ _)

theorem send_traffic (s : State) (src dst : Nat) (cls : PClass) (e : Ev) : OnlyTraffic s (s.send src dst cls e) := by
  unfold State.send
  split
  · exact later_traffic s e
  · simp only
    split
    · split
      · exact (countPacket_traffic s _ _).trans (at_traffic _ _ _)
      · exact holdPacket_traffic s _ _ _ _ _
    · exact at_traffic s _ e

theorem sendPeer_traffic (s : State) (slice ppa part vf : Nat) (l : Load) :
    OnlyTraffic s (s.sendPeer slice ppa part vf l) :=
  (newPacket_traffic s _).trans (later_traffic _ _)

theorem toUnit_traffic (s : State) (src : Option Nat) (id : Nat) (e : Ev) : OnlyTraffic s (s.toUnit src id e) := by
  unfold State.toUnit
  split
  · split
    · exact later_traffic s e
    · exact at_traffic s _ e
  · exact later_traffic s e

theorem setWaiter_traffic (s : State) (id : Nat) (w : Waiter) : OnlyTraffic s (s.setWaiter id w) := rfl

theorem startPoll_traffic (s : State) (id : Nat) (w : Waiter) : OnlyTraffic s (s.startPoll id w) := by
  unfold State.startPoll
  split
  · exact toUnit_traffic s _ _ _
  · exact send_traffic s _ _ _ _
  · exact (sendPeer_traffic s _ _ _ _ _).trans (at_traffic _ _ _)

theorem addWaiter_traffic (s : State) (who : WaiterOf) (loc : TsLoc) (name : Option TsName) (vf part : Nat) (h : W64) :
    OnlyTraffic s (s.addWaiter who loc name vf part h) :=
  (newId_traffic s).trans ((setWaiter_traffic _ _ _).trans (startPoll_traffic _ _ _))

theorem startConds_traffic (s : State) (who : Nat → WaiterOf) (w : WaitState) (vf part : Nat) :
    OnlyTraffic s (s.startConds who w vf part) := by
  refine .foldl (fun s e => ?_) _ s
  split
  · exact .refl s
  · exact addWaiter_traffic s _ _ _ _ _ _

end Sys2Proof.Machine
end
section
/-! PROOFS. How a wait begins and how one pass of it ends. -/

namespace Sys2Proof.Machine

/-- What issue leaves of a troupe that begins to wait; its conditions and its deadline are messages and events. -/
theorem startWait_traffic (s : State) (c : Ctx) (w : WaitState) :
    OnlyTraffic { s.setTroupe c.key { c.t with
      issue := none
      susp := .wait w
      frontier := s.enter c.key.core c.blk.regime c.t.frontier c.fallThrough c.mask } with current := none }
      (s.startWait c w) := by
  unfold State.startWait
  split
  · exact (startConds_traffic _ _ _ _ _).trans (at_traffic _ _ _)
  · exact startConds_traffic _ _ _ _ _

theorem startWait_suspends {s : State} {c : Ctx} (h : s.ctx? = some c) (w : WaitState) :
    ∃ t', (s.startWait c w).troupe? c.key = some t' ∧ t'.susp = .wait w ∧ t'.issue = none ∧ t'.uni = c.t.uni ∧
      t'.lane = c.t.lane ∧ t'.cnt = c.t.cnt :=
  ⟨_, ((startWait_traffic s c w).troupe? c.key).trans (troupe_setTroupe s _ (ctx_key h)), rfl, rfl, rfl, rfl, rfl⟩

/-- The first condition that a test holds of. -/
theorem findCond_first {f : Cond → Bool} {cs : List Cond} {i : Nat} {x : Cond} (at' : cs[i]? = some x)
    (h : f x = true) (before : ∀ j y, j < i → cs[j]? = some y → f y = false) : findCond f cs = some i := by
  obtain ⟨hi, rfl⟩ := List.getElem?_eq_some_iff.mp at'
  have first : (cs.zipIdx).find? (fun e => f e.1) = some (cs[i], i) :=
    List.find?_eq_some_iff_getElem.mpr ⟨h, i, by simpa using hi, by simp, fun j hj => by
      simpa using before j _ hj (List.getElem?_eq_getElem (Nat.lt_trans hj hi))⟩
  unfold findCond
  rw [first]
  rfl

theorem findCond_none {f : Cond → Bool} {cs : List Cond} (h : ∀ y ∈ cs, f y = false) : findCond f cs = none :=
  Option.map_eq_none_iff.mpr (List.find?_eq_none.mpr fun e he => by
    simpa using h e.1 (List.fst_mem_of_mem_zipIdx he))

/-- The first trap among the designators of a wait. -/
def firstTrap (cs : List (Except (BitVec 8 × Nat) Cond)) : Option (BitVec 8 × Nat) :=
  cs.findSome? fun e => match e with | .error x => some x | .ok _ => none

section
variable {s : State} {c : Ctx} {d sa : SReg} {n : Fin 4} {all : Bool} {limit : WaitLimit}
  (h : AtIssue s c (.wait d sa n all limit) c.mask)
include h

theorem exec_wait_named (named : firstTrap (s.nameConds c sa.val (n.val + 1)) = none) :
    exec (.wait d sa n all limit) s = .next (s.startWait c
      ⟨(s.nameConds c sa.val (n.val + 1)).filterMap Except.toOption, all, true, (c.timeout limit).1.map (s.tick + ·), d,
        (c.timeout limit).2 || (List.range (n.val + 1)).any
          fun i => c.t.sBad (Fin.ofNat 64 (sa.val + 2 * i + 1))⟩) := by
  refine exec_ready h rfl ?_
  show s.whenReady c _ c.mask (match firstTrap (s.nameConds c sa.val (n.val + 1)) with
    | some (k, a) => if k = causeAgain then (s.noteRefusal a).stall c else s.raise c k 0 (BitVec.ofNat 64 a) c.mask
    | none => _) = _
  rw [named]

theorem exec_wait_trap {k : BitVec 8} {a : Nat} (trap : firstTrap (s.nameConds c sa.val (n.val + 1)) = some (k, a)) :
    exec (.wait d sa n all limit) s = .next (if k = causeAgain then (s.noteRefusal a).stall c
      else s.raise c k 0 (BitVec.ofNat 64 a) c.mask) := by
  refine exec_ready h rfl ?_
  show s.whenReady c _ c.mask (match firstTrap (s.nameConds c sa.val (n.val + 1)) with
    | some (k, a) => if k = causeAgain then (s.noteRefusal a).stall c else s.raise c k 0 (BitVec.ofNat 64 a) c.mask
    | none => _) = _
  rw [trap]

end

/-- A clause that ends with the troupe suspended, and an event that looks at it again. -/
theorem suspends_moves {s : State} {c : Ctx} {i : Instr} {t : Troupe} {e : Ev} (h : s.ctx? = some c)
    (run : exec i s = .next ((s.endClause c t [(c.fallThrough, c.mask)]).post e)) :
    Moves s c i (fun u => u = t) fun _ => some c.fallThrough := by
  obtain ⟨t', found, issue, front, rest, current⟩ := endClause_troupe s c t [(c.fallThrough, c.mask)] (ctx_key h)
  refine ⟨_, _, t', run, rfl, found, issue, current, fun a l _ => ?_, rest,
    (endClause_outside s c _ _ (ctx_key h)).trans (post_outside _ _)⟩
  rw [front, lanesAt_enterAll, BitVec.getLsbD_or, sentTo_one]

theorem waitWordResults : WaitWordResults := by
  intro s c d sa n all limit l scope k a w cs first tm bad
  refine ⟨fun h named => exec_wait_named h named,
    fun h => ⟨startWait_suspends h w, (startWait_traffic s c w).current, ?mem⟩,
    fun h trap other => (exec_wait_trap h trap).trans (congrArg _ (if_neg other)),
    fun h trap => (exec_wait_trap h trap).trans (congrArg _ (if_pos rfl)), fun h zero => ?pause,
    fun h counters => ?waitout,
    fun h => suspends_moves h (onTroupe_some h _)⟩
  case mem =>
    rw [(startWait_traffic s c w).homes]
    exact congrArg (·.mem) (setTroupe_outside s _ (ctx_key h)).homes
  case pause =>
    exact endClause_moves s.bump (bump_outside s) ((onTroupe_some h _).trans (congrArg _ (if_pos zero)))
      (ctx_key h) rfl fun a l _ => sentTo_one c.mask c.fallThrough a l
  case waitout => exact suspends_moves h ((onTroupe_some h _).trans (congrArg _ (if_neg counters)))

/-! The tests of a pass, as its conditions state them (R236). -/

theorem isBad_iff {y : Cond} : y.isBad = true ↔ y.sat = false ∧ ∃ v, y.val = some (v, true) := by
  rcases y with ⟨_, _, _, sat, _ | ⟨v, b⟩⟩ <;> simp [Cond.isBad]

theorem isOut_iff {y : Cond} :
    y.isOut = true ↔ y.sat = false ∧ ∃ v p, y.val = some (v, p) ∧ outOfRange v y.threshold = true := by
  rcases y with ⟨_, _, _, sat, _ | ⟨v, b⟩⟩ <;> simp [Cond.isOut]

theorem test_sat_iff {y : Cond} :
    y.test.sat = true ↔ y.sat = true ∨ ∃ v p, y.val = some (v, p) ∧ satisfied v y.threshold = true := by
  rcases y with ⟨_, _, _, sat, _ | ⟨v, b⟩⟩ <;> simp [Cond.test]

/-- What a pass does once no condition is poisoned and none is out of range. -/
theorem pass_tested {w : WaitState} (tick : Nat) (good : findCond Cond.isBad w.conds = none)
    (inside : findCond Cond.isOut w.conds = none) :
    w.pass tick = match (if w.all then none else findCond Cond.sat (w.conds.map Cond.test)) with
      | some i => .ends stOk i false
      | none =>
        if w.all && (w.conds.map Cond.test).all Cond.sat then .ends stOk 0 false
        else if (match w.deadline with | some d => decide (d ≤ tick) | none => false) then .ends stTimeout 0xFF false
        else .goesOn { w with conds := w.conds.map Cond.test, first := false } := by
  unfold WaitState.pass
  rw [good, inside] <;> rfl

theorem waitPassResults : WaitPassResults := by
  intro w tick i x at' bad out sat
  have notBad : ∀ {y}, ¬ bad y → y.isBad = false := fun h => Bool.eq_false_iff.mpr (mt isBad_iff.mp h)
  have notOut : ∀ {y}, ¬ out y → y.isOut = false := fun h => Bool.eq_false_iff.mpr (mt isOut_iff.mp h)
  have notSat : ∀ {y}, ¬ sat y → y.test.sat = false := fun h => Bool.eq_false_iff.mpr (mt test_sat_iff.mp h)
  refine ⟨fun isBad before => ?poisoned, fun good isOut before => ?range, fun quiet => ?tested⟩
  case poisoned =>
    unfold WaitState.pass
    rw [findCond_first at' (isBad_iff.mpr isBad) fun j y hj hy => notBad (before j y hj hy)]
    rfl
  case range =>
    unfold WaitState.pass
    rw [findCond_none fun y hy => notBad (good y hy),
      findCond_first at' (isOut_iff.mpr isOut) fun j y hj hy => notOut (before j y hj hy)]
    rfl
  case tested =>
    have run := pass_tested tick (findCond_none fun y hy => notBad (quiet y hy).1)
      (findCond_none fun y hy => notOut (quiet y hy).2)
    have noneSat : (∀ y ∈ w.conds, ¬ sat y) →
        (if w.all then none else findCond Cond.sat (w.conds.map Cond.test)) = none ∧
        (w.all && (w.conds.map Cond.test).all Cond.sat) = false := fun h => by
      have hx : (w.conds.map Cond.test).all Cond.sat = false :=
        List.all_eq_false.mpr ⟨x.test, List.mem_map_of_mem (List.mem_of_getElem? at'),
          by simpa using notSat (h x (List.mem_of_getElem? at'))⟩
      refine ⟨?_, by rw [hx, Bool.and_false]⟩
      split
      · rfl
      · exact findCond_none (List.forall_mem_map.mpr fun y hy => notSat (h y hy))
    refine ⟨fun any isSat before => ?any, fun all each => ?all, fun h late => ?late, fun h early => ?early⟩
    case any =>
      have tested : (w.conds.map Cond.test)[i]? = some x.test := by rw [List.getElem?_map, at']; rfl
      rw [run, any, if_neg Bool.false_ne_true, findCond_first tested (test_sat_iff.mpr isSat) fun j y hj hy => ?_]
      · rfl
      · obtain ⟨z, hz, rfl⟩ := Option.map_eq_some_iff.mp (List.getElem?_map .. ▸ hy)
        exact notSat (before j z hj hz)
    case all =>
      have each : (w.conds.map Cond.test).all Cond.sat = true :=
        List.all_eq_true.mpr (List.forall_mem_map.mpr fun y hy => test_sat_iff.mpr (each y hy))
      rw [run, all, each]
      rfl
    case late =>
      obtain ⟨d, hd, hle⟩ := late
      rw [run, (noneSat h).1, (noneSat h).2, hd]
      simp [hle, stTimeout]
    case early =>
      rw [run, (noneSat h).1, (noneSat h).2]
      have notYet : (match w.deadline with | some d => decide (d ≤ tick) | none => false) ≠ true := by
        cases hd : w.deadline with
        | none => simp
        | some d => simpa using early d hd
      exact ⟨{ w with conds := w.conds.map Cond.test, first := false },
        (if_neg Bool.false_ne_true).trans (if_neg notYet), rfl⟩

/-- Settles O40. -/
theorem waitResults : Obligations.WaitResults := ⟨waitWordResults, waitPassResults⟩

end Sys2Proof.Machine
end

section
/-! PROOFS. What a step runs (R36, R42): the word at issue, an event of the outside, the machine's own, a tick. -/

namespace Sys2Proof.Machine

/-- The event of the table that an event the machine raised itself stands for. -/
noncomputable def Ev.tableEvent (e : Ev) : Option Instr :=
  match e with
  | .clauseIssue core slot => some (.clauseIssue core slot)
  | .pipeGrant core => some (.pipeGrant core)
  | .stallRelease core slot => some (.stallRelease core slot)
  | .loadDataReturn op line => some (.loadDataReturn op line)
  | .gwctReceive op line => some (.gwctReceive op line)
  | .troupeEnd core slot => some (.troupeEnd core slot)
  | .sleepWake core slot => some (.sleepWake core slot)
  | .blockArrival block => some (.blockArrival block)
  | .unitZero core => some (.unitZero core)
  | .blockStart block => some (.blockStart block)
  | .blockEnd block => some (.blockEnd block)
  | .pinRegistration op line => some (.pinRegistration op line)
  | .pinnedForcedWriteback core line => some (.pinnedForcedWriteback core line)
  | .retry op line => some (.retry op line)
  | .reclaim block => some (.reclaim block)
  | .spill block => some (.spill block)
  | .refill block => some (.refill block)
  | .cquotaWrite slice core vf val req => some (.cquotaWrite slice core vf val req)
  | .turnstilePoll waiter => some (.turnstilePoll waiter)
  | .matrixPeriodStart core => some (.matrixPeriodStart core)
  | .matrixWriteback core => some (.matrixWriteback core)
  | .slotPortStart core => some (.slotPortStart core)
  | .slotPortEnd core => some (.slotPortEnd core)
  | .turnstileOpArrival op => some (.turnstileOpArrival op)
  | .deferredOpApply op => some (.deferredOpApply op)
  | .turnstileAcknowledgement op => some (.turnstileAcknowledgement op)
  | .wakeReceive waiter => some (.wakeReceive waiter)
  | .waitTimeout core slot => some (.waitTimeout core slot)
  | .heldReleaseSend op => some (.heldReleaseSend op)
  | .fenceComplete core slot => some (.fenceComplete core slot)
  | .waitoutComplete core slot => some (.waitoutComplete core slot)
  | .chainStart core => some (.chainStart core)
  | .recordRead chain => some (.recordRead chain)
  | .recordMoveEnd chain => some (.recordMoveEnd chain)
  | .completionAdd chain => some (.completionAdd chain)
  | .chainEnd chain => some (.chainEnd chain)
  | .cbloadEnd load => some (.cbloadEnd load)
  | .reduceContribution contrib => some (.reduceContribution contrib)
  | .heldContributionTimeout line => some (.heldContributionTimeout line)
  | .xbarRequest op => some (.xbarRequest op)
  | .xbarSpillRetry op => some (.xbarSpillRetry op)
  | .redirectedAccess op line => some (.redirectedAccess op line)
  | .residentGangStart ticket => some (.residentGangStart ticket)
  | .homeWrite op line => some (.homeWrite op line)
  | .homeRead op line => some (.homeRead op line)
  | .recall slice line => some (.recall slice line)
  | .recallAck line => some (.recallAck line)
  | .channelTransfer slice channel => some (.channelTransfer slice channel)
  | .l2pinqWrite slice vf val req => some (.l2pinqWrite slice vf val req)
  | .sltokWrite slice vf val req => some (.sltokWrite slice vf val req)
  | .hartStoreDrain h line => some (.hartStoreDrain h line)
  | .portCtlWrite h port val => some (.portCtlWrite h port val)
  | .portCancelWrite h port => some (.portCancelWrite h port)
  | .portWaitEnd h port => some (.portWaitEnd h port)
  | .contextSave core slot => some (.contextSave core slot)
  | .ringEntryDelivery slice => some (.ringEntryDelivery slice)
  | .troupeRestore saved => some (.troupeRestore saved)
  | .vfcfgWrite slice vf val req => some (.vfcfgWrite slice vf val req)
  | .vfReset slice vf val req => some (.vfReset slice vf val req)
  | .vfResetComplete part vf => some (.vfResetComplete part vf)
  | .migStart slice chan val req => some (.migStart slice chan val req)
  | .migEnd slice chan req => some (.migEnd slice chan req)
  | .migAbort slice chan req => some (.migAbort slice chan req)
  | .migrationPass slice chan => some (.migrationPass slice chan)
  | .addslice part => some (.addslice part)
  | .remslice part => some (.remslice part)
  | .setband part => some (.setband part)
  | .clrband part => some (.clrband part)
  | .attest part => some (.attest part)
  | .tlbinvComplete req => some (.tlbinvComplete req)
  | .rdcinvComplete req => some (.rdcinvComplete req)
  | .pinComplete req => some (.pinComplete req)
  | .qcmdEnable slice val req => some (.qcmdEnable slice val req)
  | .qcmdDisable slice val req => some (.qcmdDisable slice val req)
  | .calendarLoad slice req => some (.calendarLoad slice req)
  | .ticketFetch part queue => some (.ticketFetch part queue)
  | .ticketReady ticket => some (.ticketReady ticket)
  | .placement slice => some (.placement slice)
  | .ticketComplete ticket => some (.ticketComplete ticket)
  | .calendarSlotStart => some .calendarSlotStart
  | .calendarPeriodStart => some .calendarPeriodStart
  | .roundStart part => some (.roundStart part)
  | .wholeBlockSave block => some (.wholeBlockSave block)
  | .snapshotStart slice val req => some (.snapshotStart slice val req)
  | .snapshotAbort slice req => some (.snapshotAbort slice req)
  | .snapshotCut part => some (.snapshotCut part)
  | .snapshotComplete part => some (.snapshotComplete part)
  | .sliceLoss slice => some (.sliceLoss slice)
  | .powerOn => some .powerOn
  | .pwrcapWrite slice val req => some (.pwrcapWrite slice val req)
  | .nirtLoad slice val req => some (.nirtLoad slice val req)
  | .xptblLoad slice val req => some (.xptblLoad slice val req)
  | .peerrtLoad slice val req => some (.peerrtLoad slice val req)
  | .switchForward packet => some (.switchForward packet)
  | .messageDelivery packet => some (.messageDelivery packet)
  | .messageStatusReply msg => some (.messageStatusReply msg)
  | .sequenceSkip seq => some (.sequenceSkip seq)
  | .niMaskRefresh part => some (.niMaskRefresh part)
  | .packetReturn packet => some (.packetReturn packet)
  | .flowResendTimeout flow seq => some (.flowResendTimeout flow seq)
  | .systemRegisterWrite slice unit reg val req => some (.systemRegisterWrite slice unit reg val req)
  | .sstcTimer h virt => some (.sstcTimer h virt)
  | .bootBuild | .bankAck _ | .pinArrive .. | .homeReads .. | .hartRun _ => none

theorem runEv_tableEvent {e : Ev} {i : Instr} (h : e.tableEvent = some i) :
    encode i = none ∧ ∀ s, runEv e s = exec i s := by
  cases e
  case bootBuild | bankAck | pinArrive | homeReads | hartRun => exact nomatch h
  all_goals exact Option.some.inj h ▸ ⟨rfl, fun _ => rfl⟩

theorem inner_of_tableEvent_none {e : Ev} (h : e.tableEvent = none) :
    e = .bootBuild ∨ (∃ p, e = .bankAck p) ∨ (∃ req sl, e = .pinArrive req sl) ∨
      (∃ part vf lines, e = .homeReads part vf lines) ∨ ∃ h, e = .hartRun h := by
  cases e
  case bootBuild => exact .inl rfl
  case bankAck p => exact .inr (.inl ⟨p, rfl⟩)
  case pinArrive req sl => exact .inr (.inr (.inl ⟨req, sl, rfl⟩))
  case homeReads part vf lines => exact .inr (.inr (.inr (.inl ⟨part, vf, lines, rfl⟩)))
  case hartRun x => exact .inr (.inr (.inr (.inr ⟨x, rfl⟩)))
  all_goals exact nomatch h

/-- With a word at issue that decodes, that is what comes next. -/
theorem nextWord_of_ctx {s : State} {c : Ctx} {w : W64} {i : Instr} (h : s.ctx? = some c)
    (word : c.iss.words[c.iss.idx]? = some w) (dec : decode w = .ok i) : s.nextWord = some i := by
  unfold State.nextWord
  rw [h]
  simp only [word, dec]
  rfl

theorem work_of_nextWord {s : State} {i : Instr} (h : s.nextWord = some i) : s.work = exec i s := by
  unfold State.work
  rw [h]

theorem work_of_idle {s : State} (h : s.nextWord = none) : s.work = s.runTodo := by
  unfold State.work
  rw [h]

theorem step_of_quiet {s : State} (h : s.agenda = []) : step s = s.work := by
  unfold step
  rw [h]

theorem runTodo_cons {s : State} {e : Ev} {t : List Ev} (h : s.todo = e :: t) :
    s.runTodo = runEv e { s with todo := t } := by
  unfold State.runTodo
  rw [h]

theorem runTodo_nil {s : State} (h : s.todo = []) : s.runTodo = .next s.passTick := by
  unfold State.runTodo
  rw [h]

/-- The word that a host places is at issue. -/
theorem ctx_withFetchWord (s : State) (nbits w : Nat) : ∃ c, (s.withFetchWord nbits w).ctx? = some c ∧
    c.iss.words[c.iss.idx]? = some (BitVec.ofNat 64 w) := by
  have troupe : sfind 0 (s.withFetchWord nbits w).troupes = some (launchedTroupe [BitVec.ofNat 64 w]) :=
    sfind_sset_self ..
  have block : (s.withFetchWord nbits w).block? 0 = some launchedBlock := sfind_sset_self ..
  refine ⟨⟨⟨0, 0⟩, launchedTroupe [BitVec.ofNat 64 w], ⟨0, 0, [BitVec.ofNat 64 w], 0, BitVec.allOnes 64, 0⟩,
    launchedBlock⟩, ?_, rfl⟩
  show (match sfind 0 (s.withFetchWord nbits w).troupes with | none => none | some t => _) = _
  rw [troupe]
  show (match (s.withFetchWord nbits w).block? 0 with | none => none | some b => _) = _
  rw [block]

/-- Settles O1. -/
theorem stepRunsTheDecodedInstruction : Obligations.StepRunsTheDecodedInstruction := by
  refine ⟨fun s c w i quiet h word dec => ?word, fun s i t named event => ?event, fun s t named => ?tick,
    fun e => ⟨?todo, ?meaning⟩, fun s quiet idle nothing => ?idle, fun s nbits w i dec => ?placed⟩
  case word => rw [step_of_quiet quiet, work_of_nextWord (nextWord_of_ctx h word dec)]
  case event =>
    unfold step
    rw [named]
    exact if_pos (congrArg Option.isNone event)
  case tick =>
    have run : step s =
        if s.nextWord.isNone && s.todo.isEmpty then .next (State.passTick { s with agenda := t }) else s.work := by
      unfold step
      rw [named]
    refine ⟨fun idle nothing => ?_, fun i word => ?_, fun idle busy => ?_⟩
    · rw [run, idle, nothing]
      rfl
    · rw [run, word, work_of_nextWord word]
      rfl
    · rw [run, if_neg (by simp [busy]), work_of_idle idle]
  case todo =>
    intro s t quiet idle first
    rw [step_of_quiet quiet, work_of_idle idle, runTodo_cons first]
  case meaning =>
    cases table : e.tableEvent with
    | some i => exact .inl ⟨i, runEv_tableEvent table⟩
    | none => exact .inr (inner_of_tableEvent_none table)
  case idle =>
    rw [step_of_quiet quiet, work_of_idle idle, runTodo_nil nothing]
    exact ⟨rfl, rfl, rfl⟩
  case placed =>
    obtain ⟨c, h, word⟩ := ctx_withFetchWord s nbits w
    rw [step_of_quiet rfl]
    refine work_of_nextWord ?_
    unfold State.nextWord
    rw [h]
    simp only [word]
    exact dec

end Sys2Proof.Machine
end

section
/-! PROOFS. Words written out from the formats (R44 to R57), and the state after reset (R404, R405, R413). -/

namespace Sys2Proof.Machine

/-- Settles O2. -/
theorem wordsDecodeAsWritten : Obligations.WordsDecodeAsWritten := by
  unfold Obligations.WordsDecodeAsWritten
  refine ⟨rfl, rfl, rfl, rfl, rfl, rfl, rfl, rfl, rfl, rfl, rfl, ?_⟩
  decide

theorem regReset_other {unit reg : Nat} (a : (unit, reg) ≠ (0, 0xC8)) (b : (unit, reg) ≠ (0, 0x73)) :
    regReset unit reg = 0 := by
  unfold regReset
  rw [if_neg fun h => a (by rw [h.1, h.2]), if_neg fun h => b (by rw [h.1, h.2])]

/-- Settles O5. -/
theorem resetState : Obligations.ResetState :=
  ⟨rfl, rfl, fun _ => rfl, rfl, rfl, rfl, rfl, rfl, fun _ => rfl, fun _ => rfl,
    fun _ _ _ a b => regReset_other a b, rfl,
    _, rfl⟩

end Sys2Proof.Machine
end

section
/-! PROOFS. What is found of a troupe and a core after a change. -/

namespace Sys2Proof.Machine

/-- A troupe that is there is there with the change, saved or not. -/
theorem troupe_setTroupe_of_some {s : State} {k : TKey} {t : Troupe} (h : s.troupe? k = some t) (u : Troupe) :
    (s.setTroupe k u).troupe? k = some u := by
  unfold State.troupe? at h
  unfold State.setTroupe State.troupe?
  by_cases parked : 2 ^ 20 ≤ k.num
  · rw [if_pos parked] at h ⊢
    obtain ⟨x, found, -⟩ := Option.map_eq_some_iff.mp h
    rw [if_pos parked, found]
    exact congrArg (Option.map _) (sfind_sset_self ..)
  · rw [if_neg parked, if_neg parked]
    exact sfind_sset_self ..

theorem modTroupe_of_some {s : State} {k : TKey} {t : Troupe} (h : s.troupe? k = some t) (f : Troupe → Troupe) :
    s.modTroupe k f = s.setTroupe k (f t) := by
  unfold State.modTroupe
  rw [h]

theorem troupe_modTroupe {s : State} {k : TKey} {t : Troupe} (h : s.troupe? k = some t) (f : Troupe → Troupe) :
    (s.modTroupe k f).troupe? k = some (f t) := by
  rw [modTroupe_of_some h]
  exact troupe_setTroupe_of_some h _

/-- The troupes, in their slots and saved, may have changed; all else is as it was. -/
def OnlyTroupes (s u : State) : Prop :=
  { s with troupes := u.troupes, pkg := { s.pkg with saved := u.pkg.saved } } = u

namespace OnlyTroupes
variable {s u : State} (h : OnlyTroupes s u)
include h

theorem homes : u.homes = s.homes := (congrArg State.homes h).symm
theorem cores : u.cores = s.cores := (congrArg State.cores h).symm
theorem flight : u.flight = s.flight := (congrArg State.flight h).symm
theorem blocks : u.blocks = s.blocks := (congrArg State.blocks h).symm
theorem harts : u.harts = s.harts := (congrArg State.harts h).symm
theorem regs : u.regs = s.regs := (congrArg State.regs h).symm
theorem fab : u.fab = s.fab := (congrArg State.fab h).symm
theorem tick : u.tick = s.tick := (congrArg State.tick h).symm
theorem timers : u.timers = s.timers := (congrArg State.timers h).symm
theorem todo : u.todo = s.todo := (congrArg State.todo h).symm

theorem core (c : Nat) : u.core c = s.core c := by
  unfold State.core
  rw [h.cores]

end OnlyTroupes

theorem setTroupe_onlyTroupes (s : State) (k : TKey) (t : Troupe) : OnlyTroupes s (s.setTroupe k t) := by
  unfold State.setTroupe
  split
  · split <;> rfl
  · rfl

theorem modTroupe_onlyTroupes (s : State) (k : TKey) (f : Troupe → Troupe) : OnlyTroupes s (s.modTroupe k f) := by
  unfold State.modTroupe
  split
  · exact setTroupe_onlyTroupes s k _
  · rfl

@[simp] theorem core_setCore_self (s : State) (k : Nat) (c : Core) : (s.setCore k c).core k = c :=
  congrArg (Option.getD · Core.empty) (sfind_sset_self ..)

theorem OnlyTraffic.core {s u : State} (h : OnlyTraffic s u) (k : Nat) : u.core k = s.core k := by
  unfold State.core
  rw [h.cores]

theorem core_setCore_ne (s : State) {j k : Nat} (c : Core) (h : j ≠ k) : (s.setCore k c).core j = s.core j := by
  unfold State.core State.setCore sget
  rw [sfind_sset_ne c s.cores h]

end Sys2Proof.Machine
end
section
/-! PROOFS. The events of the matrix unit (R217, R218). -/

namespace Sys2Proof.Machine

/-- An operation that has begun ends (R218). -/
theorem mxEnd_ended {s : State} {core n : Nat} {array : Bool} {o : MxOp} {t : Troupe}
    (found : (s.core core).mx.zipIdx.find? (fun e => decide (e.1.work.isArray = array) && e.1.started) = some (o, n))
    (there : s.troupe? (keyOf o.troupe) = some t) :
    (s.mxEnd core array).troupe? (keyOf o.troupe) =
        some ((t.putResult o.result).count fun x => { x with mx := x.mx - 1 }) ∧
      ((s.mxEnd core array).core core).mx = (s.core core).mx.eraseIdx n ∧ (s.mxEnd core array).homes = s.homes := by
  unfold State.mxEnd
  rw [found]
  dsimp only
  generalize hu : s.modTroupe (keyOf o.troupe) _ = u
  have only : OnlyTroupes s u := hu ▸ modTroupe_onlyTroupes ..
  have rest : ∀ v : State, OnlyTraffic v ((v.postOnce (.matrixPeriodStart core)).postOnce (.slotPortStart core)) :=
    fun v => (postOnce_traffic v _).trans (postOnce_traffic _ _)
  refine ⟨((rest _).troupe? _).trans ?_, ?_, (rest _).homes.trans only.homes⟩
  · rw [← hu]
    exact troupe_modTroupe there _
  · rw [(rest _).core, core_setCore_self, only.core]

/-- Settles O35. -/
theorem matrixUnitEvents : Obligations.MatrixUnitEvents := by
  intro s core n k o t b i kBad f slot cnt off r vals co counted ended
  refine ⟨fun next owner work form => ?product, fun dst src es rc next owner work => ?xpose,
    fun next owner work => ?fill, fun next owner work => ?drain, ⟨_, rfl, mxEnd_ended⟩, ⟨_, rfl, mxEnd_ended⟩⟩
  case product =>
    show Host.Outcome.next _ = _
    simp only [next, owner, work, form, counted]
    rfl
  case xpose =>
    show Host.Outcome.next _ = _
    simp only [next, owner, work, counted]
    rfl
  case fill =>
    show Host.Outcome.next _ = _
    simp only [next, owner, work]
    rfl
  case drain =>
    show Host.Outcome.next _ = _
    simp only [next, owner, work]
    rfl

end Sys2Proof.Machine
end

section
/-! PROOFS. The events of a turnstile operation (R230, R234, R328). -/

namespace Sys2Proof.Machine

section
variable {s : State} {id : Nat} {o : TsOp} (found : s.ts? id = some o)
include found

/-- An operation that arrives where nothing refuses it and its line is there (R230, R273). -/
theorem exec_arrival_here (sent : o.stage = .sent) (admitted : s.refusesTsOp o = false)
    (thawed : s.frozenTs o.loc = false) (near : s.countersAway o.loc = false) (whole : s.tsTested o.loc = false)
    (there : s.tsMisses o.loc = none) :
    exec (.turnstileOpArrival id) s = .next (
      if o.nb ≤ s.tick then (s.tsTouch o.loc).applyTs id o
      else if (if coreUnitOf o.loc then 64 else 256) ≤ s.deferredAt (s.tsUnit o.loc) then
        (s.tsTouch o.loc).at o.nb (.turnstileOpArrival id)
      else (((s.tsTouch o.loc).setTs id { o with stage := .deferred }).answerTs id
        { o with stage := .deferred }).at o.nb (.deferredOpApply id)) := by
  show execTurnstileOpArrival id s = _
  unfold execTurnstileOpArrival
  simp only [found, sent, admitted, thawed, near, whole, there, ne_eq, not_true, if_false, Bool.or_false,
    Bool.false_eq_true]

/-- One that its home sends back, or drops (R328, R359). -/
theorem exec_arrival_away (sent : o.stage = .sent) :
    (s.refusesTsOp o = true → exec (.turnstileOpArrival id) s = .next (s.dropTs id o)) ∧
    (s.refusesTsOp o = false → s.frozenTs o.loc = true → exec (.turnstileOpArrival id) s = .next
      ((s.setTs id { o with stage := .refused }).backTs id { o with stage := .refused } (.heldReleaseSend id))) := by
  refine ⟨fun refused => ?_, fun admitted frozen => ?_⟩
  all_goals
    show execTurnstileOpArrival id s = _
    unfold execTurnstileOpArrival
  · simp only [found, sent, refused, ne_eq, not_true, if_false, if_true]
  · simp only [found, sent, admitted, frozen, ne_eq, not_true, if_false, if_true, Bool.false_eq_true]

theorem exec_deferred (deferred : o.stage = .deferred) : exec (.deferredOpApply id) s = .next (
    if s.refusesTsOp o then s.dropTs id o
    else if s.tick < o.nb then s.at o.nb (.deferredOpApply id)
    else if s.countersAway o.loc || s.frozenTs o.loc then s.later (.deferredOpApply id)
    else s.applyTs id o) := by
  show execDeferredOpApply id s = _
  unfold execDeferredOpApply
  simp only [found, deferred, ne_eq, not_true, if_false]

/-- The first answer of a troupe's operation lowers AT; one that was applied delivers its value and is gone (R230). -/
theorem exec_acknowledged {k : Nat} (owner : o.owner = .troupe k) (u : State)
    (lowered : u = if o.acked then s else s.modTroupe (keyOf k) fun t => t.count fun c => { c with atc := c.atc - 1 }) :
    (o.stage ≠ .applied → exec (.turnstileAcknowledgement id) s = .next (u.setTs id { o with acked := true })) ∧
    (o.stage = .applied → o.dst = none → exec (.turnstileAcknowledgement id) s = .next (u.delTs id)) ∧
    (∀ d r, o.stage = .applied → o.dst = some d → o.reply = some r → exec (.turnstileAcknowledgement id) s =
      .next ((u.modTroupe (keyOf k) fun t => t.putS d r.1 r.2).delTs id)) := by
  subst lowered
  refine ⟨fun waits => ?_, fun applied noDst => ?_, fun d r applied dst reply => ?_⟩
  all_goals
    show execTurnstileAcknowledgement id s = _
    unfold execTurnstileAcknowledgement
  · simp only [found, owner, waits, decide_false, Bool.false_eq_true, if_false]
  · simp only [found, owner, applied, noDst, decide_true, if_true]
  · simp only [found, owner, applied, dst, reply, decide_true, if_true]

end

/-- Settles O39. -/
theorem turnstileEvents : Obligations.TurnstileEvents := by
  intro s id o found free most u lowered
  refine ⟨fun sent ⟨near, thawed, admitted⟩ whole there => ?arrives, fun sent => (exec_arrival_away found sent).1,
    fun sent => (exec_arrival_away found sent).2, fun deferred ⟨near, thawed, admitted⟩ due => ?applies,
    fun deferred refused => (exec_deferred found deferred).trans (congrArg _ (if_pos refused)),
    fun deferred admitted early => ?waits, fun k owner first deferred => ?answered,
    fun k d r owner first applied dst reply => ?delivers,
    fun k owner first applied dst => ?ends, fun k d r owner again applied dst reply => ?deliversAgain,
    fun k owner again applied dst => ?endsAgain⟩
  case arrives =>
    rw [exec_arrival_here found sent admitted thawed near whole there]
    exact ⟨fun due => congrArg _ (if_pos due),
      fun early room => congrArg _ ((if_neg (Nat.not_le.mpr early)).trans (if_neg (Nat.not_le.mpr room))),
      fun early full => congrArg _ ((if_neg (Nat.not_le.mpr early)).trans (if_pos full))⟩
  case applies =>
    rw [exec_deferred found deferred, admitted, near, thawed, if_neg Bool.false_ne_true, if_neg (Nat.not_lt.mpr due)]
    rfl
  case waits =>
    rw [exec_deferred found deferred, admitted, if_neg Bool.false_ne_true, if_pos early]
  case answered => exact (exec_acknowledged found owner _ (by rw [first]; rfl)).1 (by rw [deferred]; nofun)
  case delivers => exact (exec_acknowledged found owner _ (by rw [first]; rfl)).2.2 d r applied dst reply
  case ends => exact (exec_acknowledged found owner _ (by rw [first]; rfl)).2.1 applied dst
  case deliversAgain => exact (exec_acknowledged found owner _ (by rw [again]; rfl)).2.2 d r applied dst reply
  case endsAgain => exact (exec_acknowledged found owner _ (by rw [again]; rfl)).2.1 applied dst

end Sys2Proof.Machine
end

section
/-! PROOFS. The events of waiting troupes (R192, R236 to R241). -/

namespace Sys2Proof.Machine

/-! A wait goes through its tests. -/

section
variable {s : State} {k : TKey} {t : Troupe} {w : WaitState} (there : s.troupe? k = some t) (waits : t.susp = .wait w)
include there waits

theorem waitStep_eq : s.waitStep k =
    let w1 := s.gather (ofTroupe k.num) w
    if w1.first && w1.conds.any (fun c => !c.sat && c.val.isNone) then s
    else match w1.pass s.tick with
      | .ends st i p => s.endWait k t w1 st i p
      | .goesOn w2 => (((s.dropReports (ofTroupe k.num)).setTroupe k
          { t with susp := .wait w2, yRun := 0 }).leavePipe k).reGrant k := by
  unfold State.waitStep
  rw [there]
  simp only [waits] <;> rfl

theorem execWaitTimeout_eq {core slot : Nat} (hk : k = ⟨core, slot⟩) : exec (.waitTimeout core slot) s = .next (
    if (match w.deadline with | some d => decide (d ≤ s.tick) | none => false) then
      (if s.runningBlock t then s.waitStep k else s.later (.waitTimeout core slot))
    else s) := by
  subst hk
  show execWaitTimeout core slot s = _
  unfold execWaitTimeout
  simp only [there, waits] <;> rfl

/-- A wait whose first readings are not all there stands. -/
theorem waitStep_stands (first : (s.gather (ofTroupe k.num) w).first = true)
    (unread : ∃ x ∈ (s.gather (ofTroupe k.num) w).conds, x.sat = false ∧ x.val = none) : s.waitStep k = s := by
  obtain ⟨x, hx, unsat, noVal⟩ := unread
  rw [waitStep_eq there waits]
  refine if_pos ?_
  rw [first, Bool.true_and]
  exact List.any_eq_true.mpr ⟨x, hx, by rw [unsat, noVal]; rfl⟩

section
variable (tests : (s.gather (ofTroupe k.num) w).first = false ∨
  ∀ x ∈ (s.gather (ofTroupe k.num) w).conds, x.sat = true ∨ x.val ≠ none)
include tests

theorem waitStep_tests : s.waitStep k = match (s.gather (ofTroupe k.num) w).pass s.tick with
    | .ends st i p => s.endWait k t (s.gather (ofTroupe k.num) w) st i p
    | .goesOn w2 => (((s.dropReports (ofTroupe k.num)).setTroupe k
        { t with susp := .wait w2, yRun := 0 }).leavePipe k).reGrant k := by
  refine (waitStep_eq there waits).trans (if_neg ?_)
  rw [Bool.and_eq_true, List.any_eq_true]
  rintro ⟨first, x, hx, unread⟩
  rw [Bool.and_eq_true, Bool.not_eq_true', Option.isNone_iff_eq_none] at unread
  cases tests with
  | inl later => exact Bool.false_ne_true (later.symm.trans first)
  | inr read => exact (read x hx).elim (fun sat => Bool.false_ne_true (unread.1.symm.trans sat)) fun val => val unread.2

theorem waitStep_ends {st n : Nat} {p : Bool} (ends : (s.gather (ofTroupe k.num) w).pass s.tick = .ends st n p) :
    s.waitStep k = s.endWait k t (s.gather (ofTroupe k.num) w) st n p := by
  rw [waitStep_tests there waits tests, ends]

theorem waitStep_goesOn {w2 : WaitState} (goesOn : (s.gather (ofTroupe k.num) w).pass s.tick = .goesOn w2) :
    ∃ t', (s.waitStep k).troupe? k = some t' ∧ t'.susp = .wait w2 ∧ t'.uni = t.uni := by
  rw [waitStep_tests there waits tests, goesOn]
  exact ⟨_, (troupe_reGrant ..).trans (troupe_setTroupe_of_some (s := s.dropReports _) there _), rfl, rfl⟩

end
end

/-- A wait that ends leaves its troupe with its answer, and none of its waiters (R236). -/
theorem endWait_ends {s : State} {k : TKey} {t : Troupe} (small : k.num < 2 ^ 20) (wt : WaitState)
    (st n : Nat) (p : Bool) :
    ∃ t', (s.endWait k t wt st n p).troupe? k = some t' ∧ t'.susp = .none ∧
      t'.s wt.d = BitVec.ofNat 64 (st + 256 * n) ∧ t'.sBad wt.d = (wt.poison || p) ∧
      t'.uni.sPending.getLsbD wt.d.val = false ∧ t'.lane = t.lane ∧
      ∀ e ∈ (s.endWait k t wt st n p).flight.waiters, ofTroupe k.num e.2.who = none := by
  have put := putS_written { t with susp := .none } wt.d (waitWord st n) (wt.poison || p)
  have none_left : ∀ u : State, u.flight = (s.withdraw (ofTroupe k.num)).flight →
      ∀ e ∈ u.flight.waiters, ofTroupe k.num e.2.who = none := fun u hu e he => by
    rw [hu] at he
    exact Option.isNone_iff_eq_none.mp (List.mem_filter.mp he).2
  have reGranted := fun (u : State) (hu : u = ((s.withdraw (ofTroupe k.num)).setTroupe k
      ({ t with susp := .none }.putS wt.d (waitWord st n) (wt.poison || p))).reGrant k) =>
    show ∃ t', u.troupe? k = some t' ∧ t'.susp = .none ∧ t'.s wt.d = BitVec.ofNat 64 (st + 256 * n) ∧
        t'.sBad wt.d = (wt.poison || p) ∧ t'.uni.sPending.getLsbD wt.d.val = false ∧ t'.lane = t.lane ∧
        ∀ e ∈ u.flight.waiters, ofTroupe k.num e.2.who = none from
      ⟨_, hu ▸ (troupe_reGrant ..).trans (troupe_setTroupe _ _ small), rfl, put.value, put.poison, put.settled, rfl,
        none_left u (hu ▸ ((reGrant_outside _ k).flight.trans (setTroupe_outside _ _ small).flight))⟩
  unfold State.endWait
  split
  case h_2 => exact reGranted _ rfl
  case h_1 b _ =>
    split
    case isFalse => exact reGranted _ rfl
    case isTrue =>
      obtain ⟨t', found, rest, issue, front⟩ := boundary_troupe (s.withdraw (ofTroupe k.num)) k b.regime
        ({ t with susp := .none }.putS wt.d (waitWord st n) (wt.poison || p)) small
      have uni := congrArg Troupe.uni rest
      have lane := congrArg Troupe.lane rest
      have susp := congrArg Troupe.susp rest
      dsimp only at uni lane susp
      refine ⟨t', found, susp, ?_, ?_, ?_, lane, none_left _ (boundary_outside _ _ _ _ small).flight⟩
      · exact (congrArg (UniRegs.get · wt.d) uni).trans put.value
      · exact (congrArg (UniRegs.bad · wt.d) uni).trans put.poison
      · exact (congrArg (fun u => u.sPending.getLsbD wt.d.val) uni).trans put.settled

/-! A condition is read at its home (R236, R237). -/

section
variable {s : State} {id : Nat} {w : Waiter}

theorem execWakeReceive_troupe {kn i : Nat} {t : Troupe} (found : s.waiter? id = some w) (who : w.who = .troupe kn i)
    (there : s.troupe? (keyOf kn) = some t) : exec (.wakeReceive id) s = .next (
      if s.runningBlock t then s.waitStep (keyOf kn) else s.later (.wakeReceive id)) := by
  show execWakeReceive id s = _
  unfold execWakeReceive
  simp only [found, who, there]

theorem execTurnstilePoll_peer {p : Nat} (found : s.waiter? id = some w) (unlisted : w.listed = none)
    (peer : w.loc = .peer p) : exec (.turnstilePoll id) s = .next
      ((s.sendPeer (s.waiterLeaf w / 8) p w.part w.vf (.poll id)).at (s.tick + 256) (.turnstilePoll id)) := by
  show execTurnstilePoll id s = _
  unfold execTurnstilePoll
  simp only [found, unlisted, peer]
  rfl

/-- A condition in this module is read where the home stands by for it. -/
theorem execTurnstilePoll_home (found : s.waiter? id = some w) (unlisted : w.listed = none)
    (home : ∀ p, w.loc ≠ .peer p) : exec (.turnstilePoll id) s = .next (
      if s.refusesTs w.part w.loc then s.countRefusal.report id w 0 true
      else if s.frozenTs w.loc then
        let m := s.movedTo w.who.owner (s.waiterLeaf w / 8) w.loc w.name
        (s.setWaiter id { w with loc := m.1, name := m.2 }).later (.turnstilePoll id)
      else if s.countersAway w.loc || s.tsTested w.loc then s.later (.turnstilePoll id)
      else match s.tsMisses w.loc with
        | some line => (s.chanReq ⟨chargeVf w.vf, line, false, true⟩).later (.turnstilePoll id)
        | none => (s.tsTouch w.loc).readCond id w) := by
  show execTurnstilePoll id s = _
  unfold execTurnstilePoll
  simp only [found, unlisted]
  cases hloc : w.loc with
  | peer p => exact absurd hloc (home p)
  | block b i => rfl
  | home d => rfl

end

/-! waitout and fence end (R240, R241). -/

section
variable {s : State} {core slot : Nat} {t : Troupe} (there : s.troupe? ⟨core, slot⟩ = some t)
include there

theorem execWaitoutComplete_eq {l : Limits} (waits : t.susp = .waitout l) :
    exec (.waitoutComplete core slot) s = .next (
    if limitsMet l t.cnt then (s.setTroupe ⟨core, slot⟩ { t with susp := .none }).reGrant ⟨core, slot⟩
    else s.later (.waitoutComplete core slot)) := by
  show execWaitoutComplete core slot s = _
  unfold execWaitoutComplete
  simp only [there, waits]

theorem execFenceComplete_drains {scope : Nat} (waits : t.susp = .fence scope none) :
    exec (.fenceComplete core slot) s = .next (
      if t.cnt.ld ≠ 0 ∨ t.cnt.st ≠ 0 then s.later (.fenceComplete core slot)
      else
        let u := (s.release (.troupe (TKey.num ⟨core, slot⟩)) core t.block scope).2
        (u.modTroupe ⟨core, slot⟩ fun t => { t with susp := .fence scope (some u.flight.nextId) }).post
          (.fenceComplete core slot)) := by
  show execFenceComplete core slot s = _
  unfold execFenceComplete
  simp only [there, waits]

theorem execFenceComplete_awaits {scope n : Nat} (waits : t.susp = .fence scope (some n)) :
    exec (.fenceComplete core slot) s = .next (
      let backs := if 5 ≤ scope then (s.clusterBacks core).filter fun i => decide (i < n) else []
      let g := Nat.max t.gwct (s.latestP backs)
      if backs.any fun i => !s.opDone i then s.later (.fenceComplete core slot)
      else if s.tick < g then (s.setTroupe ⟨core, slot⟩ { t with gwct := g }).at g (.fenceComplete core slot)
      else (s.setTroupe ⟨core, slot⟩ { t with susp := .none }).reGrant ⟨core, slot⟩) := by
  show execFenceComplete core slot s = _
  unfold execFenceComplete
  simp only [there, waits]

end

theorem readCond_results (s : State) (id : Nat) (w : Waiter) :
    let v := s.tsVal w.loc
    let bad := s.tsBad w.loc (tagOf w.name)
    (w.polled = true → s.readCond id w = (s.report id w v bad).at (s.tick + 256) (.turnstilePoll id)) ∧
    (w.polled = false → bad = true ∨ outOfRange v w.threshold = true ∨ satisfied v w.threshold = true →
      s.readCond id w = s.report id w v bad) ∧
    (w.polled = false → bad = false → outOfRange v w.threshold = false → satisfied v w.threshold = false →
      (s.listRoom w.loc = true → s.readCond id w = s.bump.report id { w with listed := some s.seq } v bad) ∧
      (s.listRoom w.loc = false → s.readCond id w =
        (s.report id { w with polled := true } v bad).at (s.tick + 256) (.turnstilePoll id))) := by
  intro v bad
  unfold State.readCond
  refine ⟨fun polled => if_pos polled, fun fresh ends => ?_, fun fresh good inside below => ?_⟩
  · refine (if_neg (ne_true_of_eq_false fresh)).trans (if_pos ?_)
    rw [Bool.or_eq_true, Bool.or_eq_true, or_assoc]
    exact ends
  · have goesOn : ¬(bad || outOfRange v w.threshold || satisfied v w.threshold) = true := by
      rw [good, inside, below]
      exact Bool.false_ne_true
    refine ⟨fun room => ?_, fun full => ?_⟩
    all_goals refine (if_neg (ne_true_of_eq_false fresh)).trans ((if_neg goesOn).trans ?_)
    · exact if_pos room
    · exact if_neg (ne_true_of_eq_false full)

/-- Settles O41. -/
theorem waitEvents : Obligations.WaitEvents := by
  intro s id core slot kn i scope w t wt l k w1
  refine ⟨fun found who there runs => ?wakes, fun found who there halted => ?halted,
    fun there waits late runs => ?times,
    fun there waits early => ?early, fun there waits => ⟨waitStep_stands there waits, fun tests =>
      ⟨fun st n p => waitStep_ends there waits tests, fun w2 => waitStep_goesOn there waits tests⟩⟩,
    fun st n p small inCore there => endWait_ends (by show 32 * core + slot < _; omega) wt st n p,
    fun found unlisted home admitted thawed near whole line => ?polls, readCond_results s id w,
    fun found unlisted home refused => ?refused, fun p => execTurnstilePoll_peer, fun there waits met => ?met,
    fun there waits unmet => ?unmet, fun there waits busy => ?busy, fun there waits ld st => ?releases,
    fun there waits ld st narrow => ?narrow, fun n there waits => ?awaits⟩
  case wakes => rw [execWakeReceive_troupe found who there, if_pos runs]
  case halted => rw [execWakeReceive_troupe found who there, if_neg (ne_true_of_eq_false halted)]
  case times =>
    obtain ⟨d, hd, le⟩ := late
    rw [execWaitTimeout_eq there waits rfl, hd]
    exact congrArg _ ((if_pos (decide_eq_true le)).trans (if_pos runs))
  case early =>
    rw [execWaitTimeout_eq there waits rfl]
    refine congrArg _ (if_neg ?_)
    cases hd : wt.deadline with
    | none => exact Bool.false_ne_true
    | some d => exact ne_true_of_eq_false (decide_eq_false (Nat.not_le.mpr (early d hd)))
  case polls =>
    rw [execTurnstilePoll_home found unlisted home, admitted, thawed, near, whole, line]
    rfl
  case refused => rw [execTurnstilePoll_home found unlisted home, if_pos refused]
  case met => rw [execWaitoutComplete_eq there waits, if_pos met]
  case unmet => rw [execWaitoutComplete_eq there waits, if_neg (ne_true_of_eq_false unmet)]
  case busy => rw [execFenceComplete_drains there waits, if_pos busy]
  case releases => rw [execFenceComplete_drains there waits, if_neg (by rw [ld, st]; simp)]
  case narrow =>
    have released : s.release (.troupe (TKey.num ⟨core, slot⟩)) core t.block scope = ([], s) := by
      unfold State.release
      rw [if_neg (by omega), if_pos narrow]
    rw [execFenceComplete_drains there waits, if_neg (by rw [ld, st]; simp), released]
    exact congrArg (fun u : State => Host.Outcome.next (u.post _)) (modTroupe_of_some there _)
  case awaits =>
    rw [execFenceComplete_awaits there waits]
    intro backs g
    refine ⟨fun ⟨b, hb, out⟩ => congrArg _ (if_pos ?_), fun done early => ?_, fun done due => ?_⟩
    · exact List.any_eq_true.mpr ⟨b, hb, by rw [out]; rfl⟩
    all_goals
      have back : ¬ (backs.any fun i => !s.opDone i) = true := fun h => by
        obtain ⟨b, hb, out⟩ := List.any_eq_true.mp h
        rw [done b hb] at out
        exact Bool.false_ne_true out
    · exact congrArg _ ((if_neg back).trans (if_pos early))
    · exact congrArg _ ((if_neg back).trans (if_neg (Nat.not_lt.mpr due)))

end Sys2Proof.Machine
end

section
/-! PROOFS. A word that reads a system register as the last of its clause (R352). -/

namespace Sys2Proof.Machine

/-- The kernel's troupe in a partition of slice 0, whose tables map its addresses onto one band, with a clause of one
given word at issue. -/
def kernelState (i : Instr) : State :=
  { State.reset.withFetchWord 64 ((encode i).getD 0).toNat with
    todo := []
    blocks := [(0, { launchedBlock with regime := ⟨0, 0, .h, 0⟩ })]
    pkg := { Package.none with parts := [(0, newPartition ⟨0, 1, [], [0, 1], 0, [], 0⟩)] }
    homes := { Homes.reset with mem := [(1, 0x10), (7, 0x40), (4103, 0xB8)] }
    regs := [(regKey 0 0 0x50, BitVec.ofNat 64 (2 ^ 48 + 2 ^ 12 + 1))] }

/-- sysrd of PARTID into s4. -/
def readPartId : Instr := .sysrd 0x4C 4 6

/-- The troupe stands on pipe 0, and the header of its next clause is cached: the troupe keeps the pipe (R40). -/
def readState : State :=
  (kernelState readPartId).setCore 0 { Core.empty with pipes := [(0, 0)], ic := [(2, 3 * 2 ^ 62)] }

def eventsAhead (o : Out) : Nat :=
  match o with
  | .next s => s.timers.length
  | _ => 0

/-- The read on its way and the next clause are the two events ahead; were the instruction left twice, the next clause
would be there twice. -/
theorem readState_events :
    (match readState.ctx? with
      | some c => decide (readState.ready c readPartId.srcs readPartId.dests c.mask = .go ∧ c.t.sBad 6 = false ∧
          c.blk.regime.priv ≠ .u ∧ (readState.smask c.blk.regime.part).getLsbD ((c.t.s 6).toNat % 16) = true ∧
          unitReg ((c.t.s 6).toNat / 16 % 16) 0x4C = some (false, .read) ∧
          admits (false, .read) c.blk.regime.priv c.blk.regime.vf false = true ∧
          eventsAhead (exec readPartId readState) = 2 ∧
          eventsAhead (.next ((readState.readRequest c 4 ((c.t.s 6).toNat % 16) ((c.t.s 6).toNat / 16 % 16)
            0x4C).advance c (c.t.pendS 4))) = 3)
      | none => false) = true := by decide +kernel

/-- Refutes O42: its clause of sysrd lets the troupe go on twice, and at the end of a clause that keeps its pipe the
next clause would begin twice. -/
theorem not_systemWordResults : ¬ Obligations.SystemWordResults := by
  intro h
  have at' := readState_events
  split at at'
  next c issue =>
    obtain ⟨go, good, priv, mine, row, may, once, twice⟩ := of_decide_eq_true at'
    obtain ⟨-, -, -, reads, -⟩ := h readState c 4 6 0 0 0x4C .ci 0 0 .all 0 .all
    have claim := (reads ⟨issue, go⟩ good priv mine).1 _ row may
    exact absurd (once.symm.trans ((congrArg eventsAhead claim).trans twice)) (by decide)
  next => exact absurd at' Bool.false_ne_true

end Sys2Proof.Machine
end

section
/-! PROOFS. What a host core finds after its buffered stores have left (R297). -/

namespace Sys2Proof.Machine

@[simp] theorem hart_setHart_self (s : State) (h : Nat) (x : Hart) : (s.setHart h x).hart h = x :=
  congrArg (Option.getD · Hart.reset) (sfind_sset_self ..)

theorem OnlyTraffic.hart {s u : State} (g : OnlyTraffic s u) (h : Nat) : u.hart h = s.hart h := by
  unfold State.hart
  rw [g.harts]

theorem partOf_of_pkg {s u : State} (h : u.pkg.parts = s.pkg.parts) (slice : Nat) :
    u.partOf slice = s.partOf slice := by
  unfold State.partOf
  rw [h]

theorem pkg_at (s : State) (n : Nat) (e : Ev) : (s.at n e).pkg = s.pkg := (at_outside s n e).pkg

/-- A change of the partition that is found first to hold a slice, which leaves its slices, leaves it the first. -/
theorem find_sset_smask {parts : Sparse Partition} {p slice : Nat} {x y : Partition}
    (first : (parts.find? fun e => e.2.smask.getLsbD slice).map (·.1) = some p)
    (found : sfind p parts = some x) (same : y.smask = x.smask) :
    ((sset p y parts).find? fun e => e.2.smask.getLsbD slice).map (·.1) = some p := by
  induction parts with
  | nil => cases found
  | cons e t ih =>
    obtain ⟨j, w⟩ := e
    unfold sset
    unfold sfind at found
    split
    case isTrue lt =>
      rw [List.find?_cons]
      split
      · rfl
      · exact first
    case isFalse =>
      rw [List.find?_cons] at first
      split
      case isTrue eq =>
        rw [if_pos eq] at found
        cases found
        rw [List.find?_cons, same]
        split
        · rfl
        · next away => rwa [away] at first
      case isFalse ne =>
        rw [if_neg ne] at found
        rw [List.find?_cons]
        split
        · next here => rwa [here] at first
        · next away =>
          rw [away] at first
          exact ih first found

theorem partOf_countPacket {s : State} {p slice : Nat} (mine : s.partOf slice = some p) (vf : Nat) :
    (s.countPacket p vf).partOf slice = s.partOf slice := by
  unfold State.countPacket
  split
  case isFalse => rfl
  case isTrue =>
    dsimp only
    unfold State.countEnergy State.modPart
    split
    case h_2 => rfl
    case h_1 x found =>
      refine Eq.trans ?_ mine.symm
      exact find_sset_smask mine found rfl

theorem queueRing_parts (s : State) (slice part : Nat) (ring : Ring) (words : List W64) (saved caller : Option Nat) :
    (s.queueRing slice part ring words saved caller).2.pkg.parts = s.pkg.parts := by
  unfold State.queueRing State.postOnce
  dsimp only
  split <;> rfl

theorem holdPacket_parts (s : State) (part src dst : Nat) (cls : PClass) (e : Ev) :
    (s.holdPacket part src dst cls e).pkg.parts = s.pkg.parts := by
  unfold State.holdPacket
  exact queueRing_parts ..

theorem partOf_send (s : State) (src dst : Nat) (cls : PClass) (e : Ev) :
    (s.send src dst cls e).partOf (src / 8) = s.partOf (src / 8) := by
  unfold State.send
  split
  · exact partOf_of_pkg (congrArg Package.parts (pkg_at ..)) _
  · simp only
    split
    case h_2 => exact partOf_of_pkg (congrArg Package.parts (pkg_at ..)) _
    case h_1 p mine =>
      split
      · rw [partOf_of_pkg (congrArg Package.parts (pkg_at ..)), partOf_countPacket mine, mine]
      · exact partOf_of_pkg (holdPacket_parts ..) _

/-! A store that leaves the buffer goes on its way from its own core, and leaves the registers of that core. -/

/-- A host core's part of a store on its way. -/
theorem sendPart_hart {s : State} {h id line : Nat} {o : MemOp} (found : s.op? id = some o) (owner : o.owner = .hart h)
    (store : o.kind = .store) (wide : o.scope = 6) :
    (s.sendPart id line).partOf (h / 8) = s.partOf (h / 8) ∧ (s.sendPart id line).harts = s.harts := by
  unfold State.sendPart
  rw [found]
  dsimp only
  split
  · exact ⟨rfl, rfl⟩
  · have leaf : o.leaf / 8 = h / 8 := by
      unfold MemOp.leaf
      rw [owner]
      show (8 * (h / 8) + 2) / 8 = h / 8
      omega
    have wideWrite : o.narrow = false ∧ o.kind.writes = true := by
      unfold MemOp.narrow
      rw [store, wide]
      exact ⟨rfl, rfl⟩
    split
    · exact ⟨partOf_of_pkg (congrArg Package.parts (pkg_at ..)) _,
        (OnlyTraffic.trans (sendPeer_traffic ..) (.refl _)).harts⟩
    · split
      · exact ⟨partOf_of_pkg (congrArg Package.parts (pkg_at ..)) _, (later_traffic ..).harts⟩
      · rw [wideWrite.1, wideWrite.2, if_neg Bool.false_ne_true, if_pos rfl]
        exact ⟨leaf ▸ partOf_send (s.dropRdc o.slice line) o.leaf _ _ _, (send_traffic ..).harts⟩

theorem hartOp_store (s : State) (h : Nat) (rg : Regime) (w : Width) (dst : Option SReg) (lease line va tag : Nat)
    (accs : List LaneAcc) :
    (s.hartOp h rg .store w dst lease line va tag accs).2.partOf (h / 8) = s.partOf (h / 8) ∧
      (s.hartOp h rg .store w dst lease line va tag accs).2.harts = s.harts :=
  sendPart_hart (s := s.newId.2.setOp _ _) (sfind_sset_self ..) rfl rfl rfl

/-- The registers of a host core after its store of a line has left are as before. -/
theorem drainLine_hart (s : State) (h line : Nat) :
    (s.drainLine h line).partOf (h / 8) = s.partOf (h / 8) ∧
      { (s.drainLine h line).hart h with sbuf := (s.hart h).sbuf } = s.hart h := by
  unfold State.drainLine
  split
  · exact ⟨rfl, rfl⟩
  · dsimp only
    obtain ⟨part, harts⟩ := hartOp_store (s.setHart h _) h _ .b8 none noLease line _ _ _
    refine ⟨part.trans rfl, ?_⟩
    unfold State.hart at harts ⊢
    rw [harts]
    exact congrArg (fun x : Hart => { x with sbuf := (s.hart h).sbuf }) (hart_setHart_self s h _)

theorem regimeOf_drainLine (s : State) (h line : Nat) (a : HAcc) :
    (s.drainLine h line).regimeOf h a = s.regimeOf h a := by
  obtain ⟨part, regs⟩ := drainLine_hart s h line
  have regime : ∀ x : Hart, x.effective a = { x with sbuf := (s.hart h).sbuf }.effective a ∧
      x.vf = { x with sbuf := (s.hart h).sbuf }.vf := fun _ => ⟨rfl, rfl⟩
  unfold State.regimeOf State.hartRegime State.hartPart
  rw [part, (regime _).1, (regime _).2, regs]

/-! A host core that runs its instruction. -/

section
variable {s : State} {h : Nat}

theorem onHart_runs (ready : (s.hart h).started = true ∧ (s.hart h).outstanding = []) (i : Option Instr)
    (f : Hart → State) : onHart h i s f = .next (f (s.hart h)) := by
  unfold onHart
  dsimp only
  rw [ready.1, ready.2]
  rfl

theorem onHart_held (held : (s.hart h).started = false) (i : Option Instr) (f : Hart → State) :
    onHart h i s f = .next s := by
  unfold onHart
  dsimp only
  rw [held]
  rfl

theorem onHart_awaits (started : (s.hart h).started = true) (awaits : (s.hart h).outstanding ≠ []) (i : Option Instr)
    (f : Hart → State) : onHart h i s f = .next (s.retryHart h i) := by
  unfold onHart
  dsimp only
  rw [started]
  exact congrArg _ ((if_neg Bool.false_ne_true).trans (if_neg (by simpa using awaits)))

/-- What a core that does not run makes of an instruction. -/
def DoesNotRun (s : State) (h : Nat) (i : Instr) (o : Out) : Prop :=
  ((s.hart h).started = false → o = .next s) ∧
    ((s.hart h).started = true → (s.hart h).outstanding ≠ [] → o = .next (s.retryHart h (some i)))

theorem onHart_doesNotRun (i : Instr) (f : Hart → State) : DoesNotRun s h i (onHart h (some i) s f) :=
  ⟨fun held => onHart_held held _ f, fun started awaits => onHart_awaits started awaits _ f⟩

/-- Each instruction of a host core asks first whether the core runs. -/
theorem exec_doesNotRun {i : Instr} (mine : hartOf i = some h) : DoesNotRun s h i (exec i s) := by
  cases i <;> cases mine
  case hartFence =>
    exact (show DoesNotRun s h _ (execHartFence h s) from (show DoesNotRun s h _ (hartFenceThen ..) from
      onHart_doesNotRun _ _))
  case hartFenceI =>
    exact (show DoesNotRun s h _ (execHartFenceI h s) from (show DoesNotRun s h _ (hartFenceThen ..) from
      onHart_doesNotRun _ _))
  case cboClean rs1 =>
    exact (show DoesNotRun s h _ (execCboClean h rs1 s) from (show DoesNotRun s h _ (hartBlockOp ..) from
      onHart_doesNotRun _ _))
  case cboFlush rs1 =>
    exact (show DoesNotRun s h _ (execCboFlush h rs1 s) from (show DoesNotRun s h _ (hartBlockOp ..) from
      onHart_doesNotRun _ _))
  case cboInval rs1 =>
    exact (show DoesNotRun s h _ (execCboInval h rs1 s) from (show DoesNotRun s h _ (hartBlockOp ..) from
      onHart_doesNotRun _ _))
  case hartStore w rs1 rs2 off =>
    exact (show DoesNotRun s h _ (execHartStore h w rs1 rs2 off s) from onHart_doesNotRun _ _)
  case hartCounterLoad rd rs1 off =>
    exact (show DoesNotRun s h _ (execHartCounterLoad h rd rs1 off s) from onHart_doesNotRun _ _)
  case hartAmoaddD rd rs1 rs2 =>
    exact (show DoesNotRun s h _ (execHartAmoaddD h rd rs1 rs2 s) from (show DoesNotRun s h _ (hartAmoOp ..) from
      onHart_doesNotRun _ _))
  case hartAmomaxuD rd rs1 rs2 =>
    exact (show DoesNotRun s h _ (execHartAmomaxuD h rd rs1 rs2 s) from (show DoesNotRun s h _ (hartAmoOp ..) from
      onHart_doesNotRun _ _))
  case hartAmo op w64 rd rs1 rs2 =>
    exact (show DoesNotRun s h _ (execHartAmo h op w64 rd rs1 rs2 s) from (show DoesNotRun s h _ (hartAmoOp ..) from
      onHart_doesNotRun _ _))
  case hartLr w64 rd rs1 =>
    exact (show DoesNotRun s h _ (execHartLr h w64 rd rs1 s) from (show DoesNotRun s h _ (hartReserve ..) from
      onHart_doesNotRun _ _))
  case hartSc w64 rd rs1 rs2 =>
    exact (show DoesNotRun s h _ (execHartSc h w64 rd rs1 rs2 s) from (show DoesNotRun s h _ (hartReserve ..) from
      onHart_doesNotRun _ _))
  case hartSfenceVma =>
    exact (show DoesNotRun s h _ (execHartSfenceVma h s) from (show DoesNotRun s h _ (hartTlbFence ..) from
      onHart_doesNotRun _ _))
  case hartHfenceVvma =>
    exact (show DoesNotRun s h _ (execHartHfenceVvma h s) from (show DoesNotRun s h _ (hartTlbFence ..) from
      onHart_doesNotRun _ _))
  case hartHfenceGvma =>
    exact (show DoesNotRun s h _ (execHartHfenceGvma h s) from (show DoesNotRun s h _ (hartTlbFence ..) from
      onHart_doesNotRun _ _))

variable (ready : (s.hart h).started = true ∧ (s.hart h).outstanding = [])
include ready

theorem hartFenceThen_runs (i : Option Instr) (f : Hart → Hart) : hartFenceThen h i f s = .next (
    if s.hartDrained h then s.setHart h (f (s.hart h)).next else (s.drainAll h).retryHart h i) :=
  onHart_runs ready _ _

/-- A cache-block operation on a block that no buffered store is in. -/
theorem hartBlockOp_drops {i : Option Instr} {rs1 : Fin 32} {inval drop : Bool} {d tag : Nat} {s1 : State}
    (may : (if inval then (s.hart h).cboFault 4 2 else (s.hart h).cboFault 6 1) = none)
    (to_ : s.hartXlate h .store ((s.hart h).reg rs1).toNat 1 = (.ok (.mem d tag false), s1))
    (clean : (s1.hart h).entry? (d / 64) = none) : hartBlockOp h i rs1 inval drop s = .next (s1.setHart h
      { (s1.hart h).next with
        dcache := if drop then sdel (d / 64) (s1.hart h).dcache else (s1.hart h).dcache }) := by
  refine (onHart_runs ready _ _).trans (congrArg _ ?_)
  dsimp only
  rw [may, to_]
  dsimp only
  rw [clean]
  rfl

theorem hartBlockOp_faults {i : Option Instr} {rs1 : Fin 32} {inval drop : Bool} {k : Nat}
    (fault : (if inval then (s.hart h).cboFault 4 2 else (s.hart h).cboFault 6 1) = some k) :
    hartBlockOp h i rs1 inval drop s = .next (s.hartTrap h ⟨k, 0, 0⟩) := by
  refine (onHart_runs ready _ _).trans (congrArg _ ?_)
  dsimp only
  rw [fault]

theorem hartTlbFence_drops {i : Option Instr} {hyper tvm : Bool} (may : (s.hart h).fenceFault hyper tvm = none)
    (drops : Hart → TlbEntry → Bool) : hartTlbFence h i hyper tvm drops s = .next (s.setHart h
      { (s.hart h).next with tlb := (s.hart h).tlb.filter fun e => !drops (s.hart h) e }) := by
  refine (onHart_runs ready _ _).trans (congrArg _ ?_)
  dsimp only
  rw [may]

theorem hartTlbFence_faults {i : Option Instr} {hyper tvm : Bool} {k : Nat}
    (fault : (s.hart h).fenceFault hyper tvm = some k) (drops : Hart → TlbEntry → Bool) :
    hartTlbFence h i hyper tvm drops s = .next (s.hartTrap h ⟨k, 0, 0⟩) := by
  refine (onHart_runs ready _ _).trans (congrArg _ ?_)
  dsimp only
  rw [fault]

/-- LR and SC on memory of this module. -/
theorem hartReserve_memory {i : Option Instr} {k : MemKind} {acc : HAcc} {w64 : Bool} {rd rs1 : Fin 32} {v : Hart → W64}
    {d tag : Nat} {s1 : State}
    (to_ : s.hartXlate h acc ((s.hart h).reg rs1).toNat (if w64 then 8 else 4) = (.ok (.mem d tag false), s1)) :
    hartReserve h i k acc w64 rd rs1 v s = .next (
      let va := ((s.hart h).reg rs1).toNat
      let n := if w64 then 8 else 4
      let u := s1.drainLine h (d / 64)
      if va % n ≠ 0 then s1.hartTrap h ⟨acc.codes.1 - 1, va, 0⟩
      else u.hartAwait h (u.hartOp h (u.regimeOf h acc) k (if w64 then .b64 else .b32) (some (sregOf rd)) noLease
        (d / 64)
        (va / 64 * 64) tag [⟨0, d, (v (s.hart h)).toNat % 2 ^ (8 * n), 0, false⟩])) := by
  refine (onHart_runs ready _ _).trans (congrArg _ ?_)
  dsimp only
  rw [to_]

/-- An AMO on memory of this module, and on a COUNTER page. -/
theorem hartAmoOp_memory {i : Option Instr} {op : AtomOp} {w64 : Bool} {rd rs1 rs2 : Fin 32} {d tag : Nat} {s1 : State}
    (isAmo : amoOps.contains op = true)
    (to_ : s.hartXlate h .amo ((s.hart h).reg rs1).toNat (if w64 then 8 else 4) = (.ok (.mem d tag false), s1)) :
    hartAmoOp h i op w64 rd rs1 rs2 s = .next (
      let va := ((s.hart h).reg rs1).toNat
      let n := if w64 then 8 else 4
      let u := s1.drainLine h (d / 64)
      if va % n ≠ 0 then s1.hartTrap h ⟨6, va, 0⟩
      else u.hartAwait h (u.hartOp h (u.regimeOf h .amo) (.atomic op) (if w64 then .b64 else .b32) (some (sregOf rd))
        noLease
        (d / 64) (va / 64 * 64) tag [⟨0, d, ((s.hart h).reg rs2).toNat % 2 ^ (8 * n), 0, false⟩])) := by
  refine (onHart_runs ready _ _).trans (congrArg _ ?_)
  dsimp only
  rw [isAmo, to_]
  rfl

theorem hartAmoOp_counter {i : Option Instr} {op : AtomOp} {rd rs1 rs2 : Fin 32} {d tag : Nat} {s1 : State}
    (isAmo : amoOps.contains op = true)
    (to_ : s.hartXlate h .amo ((s.hart h).reg rs1).toNat 8 = (.ok (.mem d tag true), s1)) :
    hartAmoOp h i op true rd rs1 rs2 s = .next (
      let va := ((s.hart h).reg rs1).toNat
      let v := (s.hart h).reg rs2
      if va % 8 ≠ 0 then s1.hartTrap h ⟨7, va, 0⟩
      else if op = .add then
        (if 2 ^ 32 ≤ v.toNat then s1.hartTrap h ⟨7, va, 0⟩ else s1.hartTs h .fetch (.home d) va tag v rd true)
      else if op = .umax then s1.hartTs h .max (.home d) va tag v rd true
      else s1.hartTrap h ⟨7, va, 0⟩) := by
  refine (onHart_runs ready _ _).trans (congrArg _ ?_)
  dsimp only
  rw [isAmo, if_neg (by decide), if_pos rfl, to_]
  simp only [Bool.not_true, Bool.false_or, decide_eq_true_eq]

theorem exec_counterLoad {rd rs1 : Fin 32} {off : BitVec 12} {dest : HTo} {s1 : State}
    (to_ : s.hartXlate h .load (hartAddr (s.hart h) rs1 off) 8 = (.ok dest, s1)) :
    exec (.hartCounterLoad h rd rs1 off) s = .next (s1.hartLoadTo h (s1.regimeOf h .load) ⟨.b64, false, rd.val⟩
      (hartAddr (s.hart h) rs1 off) dest) := by
  show execHartCounterLoad h rd rs1 off s = _
  refine (onHart_runs ready _ _).trans (congrArg _ ?_)
  unfold State.hartLoadAt
  rw [show (HLoad.mk .b64 false rd.val).bytes = 8 from rfl, to_]

theorem exec_hartStore {w : Width} {rs1 rs2 : Fin 32} {off : BitVec 12} {dest : HTo} {s1 : State}
    (narrow : widthBytes w ≤ 8)
    (to_ : s.hartXlate h .store (hartAddr (s.hart h) rs1 off) (widthBytes w) = (.ok dest, s1)) :
    exec (.hartStore h w rs1 rs2 off) s = .next (hartStoreTo h (some (.hartStore h w rs1 rs2 off))
      (s1.regimeOf h .store)
      (widthBytes w) (hartAddr (s.hart h) rs1 off) (((s.hart h).reg rs2).toNat % 2 ^ (8 * widthBytes w)) s1 dest) := by
  show execHartStore h w rs1 rs2 off s = _
  refine (onHart_runs ready _ _).trans (congrArg _ ?_)
  refine (if_neg (Nat.not_lt.mpr narrow)).trans ?_
  unfold State.hartStoreAt
  rw [to_]

end

/-- Settles O44. -/
theorem hartResults : Obligations.HartResults := by
  intro s s1 h w64 w rd rs1 rs2 off op d tag i x va n w8 ready sent
  have next : ∀ {o : Out} {c : Prop} [Decidable c] {a b : State}, o = .next (if c then a else b) →
      (c → o = .next a) ∧ (¬c → o = .next b) := fun run =>
    ⟨fun yes => run.trans (congrArg _ (if_pos yes)), fun no => run.trans (congrArg _ (if_neg no))⟩
  refine ⟨fun mine => exec_doesNotRun mine, fun r drained => ?fences, fun r undrained => ?waits, fun r to_ clean =>
    ?blocks,
    fun k r => ?blockFaults, fun r to_ => ?lr, fun r to_ => ?sc, fun r isAmo to_ => ?amo, fun r to_ => ?turnstile,
    ⟨fun r to_ => ?counterLoad, fun r to_ => ?load, fun r narrow to_ => ?store, fun r narrow to_ => ?counterStore⟩,
    fun r => ?tlb, fun k r => ?tlbFaults⟩
  case fences =>
    exact ⟨(next (hartFenceThen_runs r (some (.hartFence h)) id)).1 drained,
      (next (hartFenceThen_runs r (some (.hartFenceI h)) Hart.noFetched)).1 drained⟩
  case waits =>
    exact ⟨(next (hartFenceThen_runs r (some (.hartFence h)) id)).2 (ne_true_of_eq_false undrained),
      (next (hartFenceThen_runs r (some (.hartFenceI h)) Hart.noFetched)).2 (ne_true_of_eq_false undrained)⟩
  case blocks =>
    exact ⟨fun may => ⟨hartBlockOp_drops (inval := false) (drop := false) r may to_ clean,
      hartBlockOp_drops (inval := false) (drop := true) r may to_ clean⟩,
      fun may => hartBlockOp_drops (inval := true) (drop := true) r may to_ clean⟩
  case blockFaults =>
    exact ⟨fun fault => ⟨hartBlockOp_faults (inval := false) r fault, hartBlockOp_faults (inval := false) r fault⟩,
      fun fault => hartBlockOp_faults (inval := true) r fault⟩
  case lr =>
    have run := next (hartReserve_memory (i := some (.hartLr h w64 rd rs1)) (k := .lr) (rd := rd) (v := fun _ => 0) r
      to_)
    refine ⟨fun aligned => (run.2 (not_not_intro aligned)).trans ?_, run.1⟩
    rw [show (0 : W64).toNat % 2 ^ (8 * if w64 then 8 else 4) = 0 from Nat.zero_mod _]
    rfl
  case sc =>
    have run := next (hartReserve_memory (i := some (.hartSc h w64 rd rs1 rs2)) (k := .sc) (rd := rd)
      (v := fun x => x.reg rs2) r to_)
    exact ⟨fun aligned => run.2 (not_not_intro aligned), run.1⟩
  case amo =>
    have run := next (hartAmoOp_memory (i := some (.hartAmo h op w64 rd rs1 rs2)) (rd := rd) (rs2 := rs2) r isAmo to_)
    exact ⟨fun aligned => run.2 (not_not_intro aligned), run.1⟩
  case turnstile =>
    have add := next (hartAmoOp_counter (i := some (.hartAmoaddD h rd rs1 rs2)) (op := .add) (rd := rd) (rs2 := rs2) r
      rfl to_)
    have max := next (hartAmoOp_counter (i := some (.hartAmomaxuD h rd rs1 rs2)) (op := .umax) (rd := rd) (rs2 := rs2)
      r rfl to_)
    refine ⟨fun aligned small => ?_, fun aligned => max.2 (not_not_intro aligned), fun bad => ?_⟩
    · exact (next ((next (add.2 (not_not_intro aligned))).1 rfl)).2 (Nat.not_le.mpr small)
    · by_cases aligned : va % 8 = 0
      · exact (next ((next (add.2 (not_not_intro aligned))).1 rfl)).1 (bad.resolve_left (not_not_intro aligned))
      · exact add.1 aligned
  case counterLoad =>
    have run := next (exec_counterLoad (rd := rd) r to_)
    refine ⟨fun aligned => (run.2 ?_).trans ?_, fun bad => run.1 (.inr (.inr bad))⟩
    · have small := rd.isLt
      rintro (wide | far | misaligned)
      · exact wide rfl
      · exact absurd small (Nat.not_lt.mpr far)
      · exact misaligned aligned
    · rw [show Fin.ofNat 32 rd.val = rd from Fin.ext (Nat.mod_eq_of_lt rd.isLt)]
      rfl
  case load =>
    have run := next (exec_counterLoad (rd := rd) r to_)
    refine ⟨fun aligned => (run.2 (not_not_intro aligned)).trans ?_, run.1⟩
    unfold State.hartLoad
    rw [← regimeOf_drainLine s1 h (d / 64) .load]
    rfl
  case store =>
    have run := next (exec_hartStore (rs2 := rs2) r narrow to_)
    exact ⟨fun aligned => run.2 (not_not_intro aligned), run.1⟩
  case counterStore => exact exec_hartStore (rs2 := rs2) r narrow to_
  case tlb =>
    have kept : (fun e => !dropsVma x e) = fun e =>
        if x.mode.guest then !(guestEntry e && decide (e.regime.vf = x.vf)) else guestEntry e := by
      funext e
      unfold dropsVma
      split
      · rfl
      · rw [Bool.not_not]
    refine ⟨fun may => (hartTlbFence_drops r may _).trans ?_, fun may => hartTlbFence_drops r may _,
      fun may => hartTlbFence_drops r may _⟩
    exact congrArg (fun f => Host.Outcome.next (s.setHart h { x.next with tlb := x.tlb.filter f })) kept
  case tlbFaults =>
    exact ⟨fun fault => hartTlbFence_faults r fault _, fun fault => hartTlbFence_faults r fault _,
      fun fault => hartTlbFence_faults r fault _⟩

end Sys2Proof.Machine
end

section
/-! PROOFS. The host cores' events (R296, R297, R300 to R302). -/

namespace Sys2Proof.Machine

theorem sset_sset {V : Type} (k : Nat) (v w : V) (l : Sparse V) : sset k v (sset k w l) = sset k v l := by
  induction l with
  | nil =>
    show (if k < k then _ else if k = k then _ else _) = _
    rw [if_neg (Nat.lt_irrefl k), if_pos rfl]
    rfl
  | cons e t ih =>
    obtain ⟨j, x⟩ := e
    by_cases lt : k < j
    · have put : ∀ y : V, sset k y ((j, x) :: t) = (k, y) :: (j, x) :: t := fun y => if_pos lt
      rw [put, put]
      show (if k < k then _ else if k = k then _ else _) = _
      rw [if_neg (Nat.lt_irrefl k), if_pos rfl]
    · by_cases eq : j = k
      · have put : ∀ y z : V, sset k y ((j, z) :: t) = (k, y) :: t := fun y z => (if_neg lt).trans (if_pos eq)
        subst eq
        rw [put, put, put]
      · have put : ∀ (y : V) (r : Sparse V), sset k y ((j, x) :: r) = (j, x) :: sset k y r :=
          fun y r => (if_neg lt).trans (if_neg eq)
        rw [put, put, put, ih]

theorem setPort_setPort (s : State) (h page : Nat) (p q : Port) :
    (s.setPort h page p).setPort h page q = s.setPort h page q := by
  unfold State.setPort
  rw [hart_setHart_self]
  unfold State.setHart
  dsimp only
  rw [sset_sset, sset_sset]

/-! A waiter port (R300 to R302). -/

section
variable {s : State} {h page : Nat}

/-- The port while CTL names its turnstiles. -/
def armedPort (s : State) (h page : Nat) (v : Nat) : Port :=
  { ((s.withdraw (ofPort h page)).hart h).port page with
    ctl := BitVec.ofNat 64 (bitsOf v 24 40 * 2 ^ 24 + v % 8), stat := BitVec.ofNat 64 statArmed, wait := none
    vf := (s.regimeOf h .store).flowVf }

/-- What CTL names, none where it does not translate. -/
def portConds (s : State) (h page : Nat) (v : Nat) : List (Option Cond) :=
  (((s.withdraw (ofPort h page)).portNames h (armedPort s h page v) (v % 4 + 1)).zipIdx).map
    (portCond (armedPort s h page v))

theorem portCtl_unnamed {val : W64} {b : Option Cond × Nat}
    (bad : ((portConds s h page val.toNat).zipIdx).find? (fun e => e.1.isNone) = some b) : s.portCtl h page val =
      ((s.withdraw (ofPort h page)).setPort h page (armedPort s h page val.toNat)).endPort h page statBadDesig b.2 := by
  unfold portConds armedPort at bad
  unfold State.portCtl armedPort
  dsimp only
  rw [bad]

theorem portCtl_named {val : W64} (named : (portConds s h page val.toNat).all Option.isSome = true) :
    s.portCtl h page val =
      let limit := bitsOf val.toNat 32 32
      let u := s.withdraw (ofPort h page)
      let q := armedPort s h page val.toNat
      let w : WaitState := ⟨(portConds s h page val.toNat).filterMap id, bitN val.toNat 2, true,
        if limit = 2 ^ 32 - 1 then none else some (s.tick + limit), 0, false⟩
      let armed := (u.setPort h page { q with wait := some w }).startConds (fun i => .port h page i) w q.vf
        ((u.setPort h page q).hartPart h)
      if limit = 2 ^ 32 - 1 then armed else armed.at (s.tick + limit) (.portWaitEnd h page) := by
  have all : ((portConds s h page val.toNat).zipIdx).find? (fun e => e.1.isNone) = none := by
    refine List.find?_eq_none.mpr fun e he => ?_
    have some := List.all_eq_true.mp named e.1 (List.fst_mem_of_mem_zipIdx he)
    rw [Option.isSome_iff_ne_none] at some
    simpa using some
  unfold portConds armedPort at all
  unfold State.portCtl portConds armedPort
  dsimp only
  rw [all, setPort_setPort]
  dsimp only
  by_cases forever : bitsOf val.toNat 32 32 = 2 ^ 32 - 1
  · rw [if_pos forever, if_pos forever]
  · rw [if_neg forever, if_neg forever]

theorem execPortWaitEnd_idle (idle : ((s.hart h).port page).wait = none) : exec (.portWaitEnd h page) s = .next s := by
  show execPortWaitEnd h page s = _
  unfold execPortWaitEnd
  dsimp only
  rw [idle]

variable {w : WaitState} (waits : ((s.hart h).port page).wait = some w)
include waits

theorem execPortWaitEnd_stands
    (first : ((s.gather (ofPort h page) w).first &&
      (s.gather (ofPort h page) w).conds.any (fun c => !c.sat && c.val.isNone)) = true) :
    exec (.portWaitEnd h page) s = .next s := by
  show execPortWaitEnd h page s = _
  unfold execPortWaitEnd
  dsimp only
  rw [waits]
  exact congrArg _ (if_pos first)

variable (tests : ((s.gather (ofPort h page) w).first &&
  (s.gather (ofPort h page) w).conds.any (fun c => !c.sat && c.val.isNone)) = false)
include tests

theorem execPortWaitEnd_ends {st i : Nat} {p : Bool} (ends : (s.gather (ofPort h page) w).pass s.tick = .ends st i p) :
    exec (.portWaitEnd h page) s = .next (s.endPort h page st i) := by
  show execPortWaitEnd h page s = _
  unfold execPortWaitEnd
  dsimp only
  rw [waits]
  dsimp only
  rw [tests, ends]
  rfl

theorem execPortWaitEnd_goesOn {w2 : WaitState} (goesOn : (s.gather (ofPort h page) w).pass s.tick = .goesOn w2) :
    exec (.portWaitEnd h page) s = .next ((s.dropReports (ofPort h page)).setPort h page
      { (s.hart h).port page with wait := some w2 }) := by
  show execPortWaitEnd h page s = _
  unfold execPortWaitEnd
  dsimp only
  rw [waits]
  dsimp only
  rw [tests, goesOn]
  rfl

end

/-! A host core that runs by itself. -/

section
variable {s : State} {h : Nat} (started : (s.hart h).started = true)
include started

theorem hartRun_awaits (awaits : (s.hart h).outstanding ≠ []) : s.hartRun h = s.later (.hartRun h) := by
  unfold State.hartRun
  dsimp only
  rw [started]
  exact (if_neg Bool.false_ne_true).trans (if_pos (by simpa using awaits))

variable (awaitsNone : (s.hart h).outstanding = [])
include awaitsNone

theorem hartRun_interrupted {md : HartMode} {i : Nat} (takes : (s.hart h).takes = some (md, i)) :
    s.hartRun h = (s.later (.hartRun h)).setHart h ((s.hart h).trapTo md ⟨2 ^ 63 + i, 0, 0⟩) := by
  unfold State.hartRun
  dsimp only
  rw [started, awaitsNone, takes]
  rfl

theorem hartRun_steps (takes : (s.hart h).takes = none) : s.hartRun h = (s.later (.hartRun h)).hartStep h := by
  unfold State.hartRun
  dsimp only
  rw [started, awaitsNone, takes]
  rfl

end

section
variable {s s1 : State} {h lo : Nat}

theorem hartStep_unfetched {e : HExc} (first : s.parcel h (s.hart h).pc.toNat = (.error e, s1)) :
    s.hartStep h = s1.hartFault h none e := by
  unfold State.hartStep
  dsimp only
  rw [first]

variable (first : s.parcel h (s.hart h).pc.toNat = (.ok lo, s1))
include first

theorem hartStep_short (short : lo % 4 ≠ 3) :
    let u := s1.setHart h { s1.hart h with half := true }
    (∀ word, rvExpand lo = some word → s.hartStep h = u.rvExec h word) ∧
    (rvExpand lo = none → s.hartStep h = u.hartTrap h ⟨2, 0, 0⟩) := by
  unfold State.hartStep
  dsimp only
  rw [first]
  dsimp only
  rw [if_pos short]
  refine ⟨fun word expands => ?_, fun reserved => ?_⟩
  · rw [expands]
  · rw [reserved]
    rfl

theorem hartStep_long (long : lo % 4 = 3) :
    (∀ e s2, s1.parcel h ((s.hart h).pc + 2).toNat = (.error e, s2) → s.hartStep h = s2.hartFault h none e) ∧
    (∀ hi s2, s1.parcel h ((s.hart h).pc + 2).toNat = (.ok hi, s2) → s.hartStep h =
      (s2.setHart h { s2.hart h with half := false }).rvExec h (lo + 2 ^ 16 * hi)) := by
  unfold State.hartStep
  dsimp only
  rw [first]
  dsimp only
  rw [if_neg (not_not_intro long)]
  refine ⟨fun e s2 second => ?_, fun hi s2 second => ?_⟩ <;> rw [second]

end

/-- Settles O45. -/
theorem hartEvents : Obligations.HartEvents := by
  intro s s1 s2 h line page st i val e w w2 pz virt md exc lo hi word x v again pc u q named p w1 time reg
  refine ⟨fun held free => ?drains, fun held busy => ?waits, rfl, fun held => ?leaves, fun refused => ?refused,
    fun given =>
    ⟨fun b bad => ?unnamed, fun all => ?arms⟩, rfl, fun waits first unread => ?stands,
    fun waits tests goesOn => execPortWaitEnd_goesOn waits tests goesOn, execPortWaitEnd_idle,
    fun waits tests ends => execPortWaitEnd_ends waits tests ends, ?timer, fun held => congrArg _ (hartRun_held held),
    fun started awaits => congrArg _ (hartRun_awaits started awaits),
    fun started none takes => congrArg _ (hartRun_interrupted started none takes),
    fun started none takes => congrArg _ (hartRun_steps started none takes), hartStep_unfetched,
    fun first short => ⟨(hartStep_short first short).1 word, (hartStep_short first short).2⟩,
    fun first long => ⟨(hartStep_long first long).1 exc s2, (hartStep_long first long).2 hi s2⟩⟩
  case drains =>
    show execHartStoreDrain h line s = _
    unfold execHartStoreDrain
    rw [held, free]
    rfl
  case waits =>
    show execHartStoreDrain h line s = _
    unfold execHartStoreDrain
    rw [held, busy]
    rfl
  case leaves =>
    unfold State.drainLine
    rw [held]
  case refused =>
    show execPortCtlWrite h page val s = _
    unfold execPortCtlWrite
    rw [refused]
  case unnamed =>
    show execPortCtlWrite h page val s = _
    unfold execPortCtlWrite
    rw [given]
    exact congrArg _ (portCtl_unnamed bad)
  case arms =>
    show execPortCtlWrite h page val s = _
    unfold execPortCtlWrite
    rw [given]
    exact congrArg _ (portCtl_named all)
  case stands => exact execPortWaitEnd_stands waits (by rw [Bool.and_eq_true]; exact ⟨first, unread⟩)
  case timer =>
    cases virt
    all_goals
      show execSstcTimer h _ s = _
      unfold execSstcTimer
      simp only [decide_eq_true_eq]
      rfl

end Sys2Proof.Machine
end

section
/-! PROOFS. The words on lines and anchors (R281 to R286, R290 to R295). -/

namespace Sys2Proof.Machine

/-- A request that is on its way does its work where it arrives (R73). -/
theorem exec_sent {s : State} {id : Nat} {r : Request} (noOp : s.ts? id = none) (found : s.req? id = some r)
    (sent : r.stage = .sent) : exec (.heldReleaseSend id) s = .next (s.runRequest id r) := by
  show execHeldReleaseSend id s = _
  unfold execHeldReleaseSend State.stepReq
  simp only [noOp, found, sent]

section
variable {s : State} {c : Ctx} {d sa sb : SReg}

theorem exec_pin (h : AtIssue s c (.pin d sa sb) c.mask) : exec (.pin d sa sb) s = .next (
    if pinRangeBad (c.t.s sa).toNat (c.t.s sb).toNat then s.ask c d (c.t.sBad sa || c.t.sBad sb) (.answer 4) 1
    else match s.pinLines c (c.t.s sa).toNat (c.t.s sb).toNat with
      | none => s.ask c d (c.t.sBad sa || c.t.sBad sb) (.answer 3) 1
      | some lines => s.startPin c d (c.t.sBad sa || c.t.sBad sb) lines) :=
  exec_ready h rfl rfl

theorem exec_unpin (h : AtIssue s c (.unpin d sa sb) c.mask) : exec (.unpin d sa sb) s = .next (
    if pinRangeBad (c.t.s sa).toNat (c.t.s sb).toNat then s.ask c d (c.t.sBad sa || c.t.sBad sb) (.answer 4) 1
    else s.askSlices c d (c.t.sBad sa || c.t.sBad sb)
      (toKeys (s.rangeLines c.slice c.blk.regime needNone (c.t.s sa).toNat (c.t.s sb).toNat))
      (.unpin c.blk.regime.vf
        (toKeys (s.rangeLines c.slice c.blk.regime needNone (c.t.s sa).toNat (c.t.s sb).toNat))) .heldReleaseSend) :=
  exec_ready h rfl rfl

theorem pinRangeBad_iff {a n : Nat} : pinRangeBad a n = true ↔ n = 0 ∨ 2 ^ 30 < n ∨ 2 ^ 57 < a + n := by
  unfold pinRangeBad
  rw [Bool.or_eq_true, Bool.or_eq_true, decide_eq_true_eq, decide_eq_true_eq, decide_eq_true_eq, or_assoc]

end

/-! A request that arrives at a slice (R283, R284). -/

section
variable {s : State} {id slice vf : Nat} {r : Request} (found : s.req? id = some r)
include found

theorem pinArrive_unpin {ls : KeySet} (work : r.work = some (.unpin vf ls)) : runEv (.pinArrive id slice) s =
    .next ((ls.filter fun l => decide (lineSlice l = slice)).foldl (fun s l => s.unpinLine vf l) s) := by
  show Host.Outcome.next (execPinArrive id slice s) = _
  unfold execPinArrive
  simp only [found, work]

variable {ls : KeySet} {room : List (Nat × Nat)} (work : r.work = some (.pin vf ls room))
include work

theorem pinArrive_pin : runEv (.pinArrive id slice) s = .next (s.reserveArrive id slice r vf ls room) := by
  show Host.Outcome.next (execPinArrive id slice s) = _
  unfold execPinArrive
  simp only [found, work]

theorem pinArrive_reserves (room' : (s.reserveAt vf ls slice).1 = 0) : runEv (.pinArrive id slice) s =
    .next (s.setReq id { r with work := some (.pin vf ls (room ++ [(slice, (s.reserveAt vf ls slice).2)])) }) := by
  rw [pinArrive_pin found work]
  exact congrArg _ (if_pos room')

theorem pinArrive_refuses (noRoom : (s.reserveAt vf ls slice).1 ≠ 0) (first : r.status = 0) :
    runEv (.pinArrive id slice) s =
      .next (s.setReq id { r with status := BitVec.ofNat 64 ((s.reserveAt vf ls slice).1 + 256 * slice) }) := by
  rw [pinArrive_pin found work]
  exact congrArg _ ((if_neg noRoom).trans (if_pos (.inl (by rw [first]; rfl))))

end

/-- Settles O46. -/
theorem cacheWordResults : Obligations.CacheWordResults := by
  intro s c range d sa sb ls co a n bad vf wrong sl answer asks
  refine ⟨fun h room quiet => ?cwb, fun h room quiet => ?cinv, fun h stored fresh => ?icinv, fun h => onTroupe_some h _,
    fun h => ⟨fun bad => ?pinBad, fun good none => ?pinAway, fun lines good some => ?pins⟩,
    fun h => ⟨fun bad => ?unpinBad, fun good => ?unpins⟩, fun h => exec_ready h rfl rfl,
    fun id r g noOp found sent => ⟨fun val work => ?answered, fun w ls work => ?unpinned, fun work owner => ?asked⟩,
    fun id slice w r ls room found => ⟨pinArrive_reserves found, pinArrive_refuses found, pinArrive_unpin found⟩⟩
  case cwb =>
    refine (exec_ready h rfl rfl).trans (congrArg _ (if_neg ?_))
    rw [quiet, Bool.or_false]
    exact ne_true_of_eq_false (decide_eq_false (Nat.not_le.mpr room))
  case cinv =>
    refine (exec_ready h rfl rfl).trans (congrArg _ (if_neg ?_))
    rw [quiet, Bool.or_false]
    exact ne_true_of_eq_false (decide_eq_false (Nat.not_le.mpr room))
  case icinv =>
    refine (exec_ready h rfl rfl).trans (congrArg _ (if_neg ?_))
    omega
  case pinBad => exact (exec_pin h).trans (congrArg _ (if_pos (pinRangeBad_iff.mpr bad)))
  case pinAway =>
    rw [exec_pin h, if_neg (mt pinRangeBad_iff.mp good), none]
    rfl
  case pins =>
    rw [exec_pin h, if_neg (mt pinRangeBad_iff.mp good), some]
    rfl
  case unpinBad => exact (exec_unpin h).trans (congrArg _ (if_pos (pinRangeBad_iff.mpr bad)))
  case unpins => exact (exec_unpin h).trans (congrArg _ (if_neg (mt pinRangeBad_iff.mp good)))
  all_goals
    rw [exec_sent noOp found sent]
    unfold State.runRequest
    rw [work]
  case asked =>
    rw [owner]
    rfl

end Sys2Proof.Machine
end

section
/-! PROOFS. The events of a line at its home (R276 to R280, R289, R311 to R313). -/

namespace Sys2Proof.Machine

/-! An operation at the home of one of its lines. -/

section
variable {s : State} {id line : Nat} {o : MemOp} {p : Part} (there : s.op? id = some o ∧ o.part? line = some p)
  (sent : p.state = .sent)
include there sent

section
variable (clear : s.refusesOp o line = false ∧ s.homeTested line = false ∧ s.blocked id line o = false)
  (thawed : s.isFrozen line = false)
include clear thawed

/-- A write that nothing refuses goes where its line is held (R276, R328). -/
theorem homeWrite_home (route : s.route o line = .home) : s.homeWrite id line = s.admitWrite id line o := by
  unfold State.homeWrite
  simp only [there.1, there.2, sent, clear.1, clear.2.1, clear.2.2, thawed, route, Bool.false_eq_true, if_false]

theorem homeWrite_here {key : Nat} (route : s.route o line = .here key) : s.homeWrite id line =
    if (s.core o.core).blockHeld key then (s.writeBack o.core key (.core o.core) false).2.later (.homeWrite id line)
    else s.performHere id line o.core key o p.accs := by
  unfold State.homeWrite
  simp only [there.1, there.2, sent, clear.1, clear.2.1, clear.2.2, thawed, route, Bool.false_eq_true, if_false]

theorem homeWrite_refused (route : s.route o line = .refused) : s.homeWrite id line = s.refuse id line := by
  unfold State.homeWrite
  simp only [there.1, there.2, sent, clear.1, clear.2.1, clear.2.2, thawed, route, Bool.false_eq_true, if_false]

end

section
variable (settled : (s.homes.waiting.filter fun w => decide (w.line = line) && decide (w.p ≤ s.tick)) = [])
include settled

omit there sent in
/-- Where no write waits for its tick, nothing is settled (R312). -/
theorem settle_nothing : s.settle line = s := by
  unfold State.settle
  rw [settled]
  rfl

theorem homeRead_refused (refused : s.refusesOp o line = true) :
    exec (.homeRead id line) s = .next (s.dropAccess id line o) := by
  show execHomeRead id line s = _
  unfold execHomeRead
  simp only [settle_nothing settled, there.1, there.2, sent, refused, ne_eq, not_true, if_false, if_true]

variable (clear : s.refusesOp o line = false ∧ s.homeTested line = false ∧ s.blocked id line o = false)
  (thawed : s.frozenFor o line = false) (route : s.route o line = .home)
include clear thawed route

theorem homeRead_hit {l2 : L2Line} (hit : sfind line s.homes.l2 = some l2) : exec (.homeRead id line) s =
    .next ((s.setHomes { s.homes with l2 := sset line { l2 with used := s.seq } s.homes.l2 }).bump.answerRead
      id line o p) := by
  show execHomeRead id line s = _
  unfold execHomeRead
  simp only [settle_nothing settled, there.1, there.2, sent, clear.1, clear.2.1, clear.2.2, thawed, route, hit, ne_eq,
    not_true, Bool.false_eq_true, if_false]

theorem homeRead_miss (miss : sfind line s.homes.l2 = none) : exec (.homeRead id line) s =
    .next ((s.chanAsk (chargeVf o.regime.vf) line false).later (.homeRead id line)) := by
  show execHomeRead id line s = _
  unfold execHomeRead
  simp only [settle_nothing settled, there.1, there.2, sent, clear.1, clear.2.1, clear.2.2, thawed, route, miss, ne_eq,
    not_true, Bool.false_eq_true, if_false]

theorem pinRegistration_home {key : Nat} (quiet : s.homes.earliest line = none)
    (unrecalled : sfind line s.homes.recalls = none)
    (pinned : (s.registerPin o line p.tag p.va).route o line = .here key) : exec (.pinRegistration id line) s =
      .next ((s.registerPin o line p.tag p.va).performHere id line o.core key o p.accs) := by
  show execPinRegistration id line s = _
  unfold execPinRegistration
  simp only [settle_nothing settled, there.1, there.2, sent, clear.1, clear.2.1, clear.2.2, thawed, route, quiet,
    unrecalled,
    pinned, ne_eq, not_true, Bool.false_eq_true, Option.isSome_none, Bool.or_false, if_false]

end

theorem redirectedAccess_across {c key : Nat} {x : L1Line} (route : s.route o line = .across c)
    (found : (s.core c).l1Find line = some (key, x)) :
    exec (.redirectedAccess id line) s = .next (s.performHere id line c key o p.accs) := by
  show execRedirectedAccess id line s = _
  unfold execRedirectedAccess
  simp only [there.1, there.2, sent, route, found, ne_eq, not_true, if_false]

theorem retry_repeats (access : o.isWriteBack = false) :
    exec (.retry id line) s = .next ((s.retranslate id line).2.sendPart id (s.retranslate id line).1) := by
  show execRetry id line s = _
  unfold execRetry
  simp only [there.1, there.2, sent, access, ne_eq, not_true, Bool.false_eq_true, if_false]

end

section
variable {s : State} {id line : Nat} {o : MemOp} {p : Part} (there : s.op? id = some o ∧ o.part? line = some p)
include there

/-- What returns to a troupe fills its registers, and its L1 where the home lets it (R162, R183). -/
theorem loadDataReturn_troupe {k : Nat} {d : Reg} (sampled : p.state = .sampled) (owner : o.owner = .troupe k)
    (dst : o.dst = some d) :
    let filled := s.modTroupe (keyOf k) fun t => p.out.foldl (fun t a => t.deliverOp o d a) t
    let after_ := fun (u : State) => (u.modPart? id line fun x => { x with state := .done }).settleOp id
    (p.fill = none → exec (.loadDataReturn id line) s = .next (after_ filled)) ∧
    (∀ e, p.fill = some e → exec (.loadDataReturn id line) s = .next
      (after_ (filled.l1Fill o.core line o.rank e))) := by
  refine ⟨fun fill => ?_, fun e fill => ?_⟩
  all_goals
    show execLoadDataReturn id line s = _
    unfold execLoadDataReturn
    simp only [there.1, there.2, sampled, owner, dst, fill, ne_eq, not_true, if_false]

theorem gwctReceive_fixed {pt : Nat} {f : Bool} (fixed : p.state = .fixed pt false f) : exec (.gwctReceive id line) s =
    .next (((s.takeGwct o pt).modPart? id line fun x => { x with state := .fixed pt true f }).settleOp id) := by
  show execGwctReceive id line s = _
  unfold execGwctReceive
  simp only [there.1, there.2, fixed]

end

/-! Recalls (R278, R279, R325). -/

theorem ackRecall_traffic (s : State) (line sl : Nat) : OnlyTraffic s (s.ackRecall line sl) := by
  unfold State.ackRecall
  split
  · exact send_traffic s _ _ _ _
  · exact at_traffic s _ _

/-- What a recall leaves of the caches of a slice, before it is acknowledged. -/
theorem dropRdc_foldl (slice : Nat) (ls : List Nat) (s : State) :
    let u := ls.foldl (fun (s : State) l => s.dropRdc slice l) s
    u.harts = s.harts ∧ u.homes.mem = s.homes.mem ∧ u.homes.recalls = s.homes.recalls ∧
      (∀ k, sfind k s.homes.rdc = none → sfind k u.homes.rdc = none) ∧
      ∀ l ∈ ls, sfind (rdcKey slice l) u.homes.rdc = none := by
  induction ls generalizing s with
  | nil => exact ⟨rfl, rfl, rfl, fun _ h => h, nofun⟩
  | cons l ls ih =>
    obtain ⟨harts, mem, recalls, gone, dropped⟩ := ih (s.dropRdc slice l)
    have rdc : (s.dropRdc slice l).homes.rdc = sdel (rdcKey slice l) s.homes.rdc := rfl
    refine ⟨harts, mem, recalls, fun k h => gone k ?_, fun m hm => ?_⟩
    · rw [rdc]
      by_cases here : k = rdcKey slice l
      · exact here ▸ sfind_sdel_self ..
      · exact (sfind_sdel_ne _ here).trans h
    · rcases List.mem_cons.mp hm with rfl | hm
      · exact gone _ (by rw [rdc]; exact sfind_sdel_self ..)
      · exact dropped m hm

theorem sfind_map_value {V W : Type} (f : Nat × V → Nat × W) (key : ∀ e, (f e).1 = e.1) (k : Nat) (l : Sparse V) :
    sfind k (l.map f) = (sfind k l).map fun v => (f (k, v)).2 := by
  induction l with
  | nil => rfl
  | cons e t ih =>
    obtain ⟨j, v⟩ := e
    show sfind k (f (j, v) :: t.map f) = _
    unfold sfind
    rw [key, ih]
    by_cases eq : j = k
    · subst eq
      rw [if_pos rfl, if_pos rfl]
      rfl
    · rw [if_neg eq, if_neg eq]

/-- The caches of a slice without a line, under every number that it had, and the fills on their way without it. -/
def State.recalled (s : State) (slice line : Nat) : State :=
  let ls := line :: sget [] line s.homes.was
  let drop := fun (c : Core) (l : Nat) => match c.l1Find l with
    | some (k, x) => if x.isPinned then c else { c with l1 := sdel k c.l1 }
    | none => c
  let dropAll := fun (e : Nat × Core) => if coreSlice e.1 = slice then (e.1, ls.foldl drop e.2) else e
  let dropHart := fun (e : Nat × Hart) =>
    if e.1 / 8 = slice then (e.1, { e.2 with dcache := ls.foldl (fun m l => sdel l m) e.2.dcache }) else e
  let s1 := ls.foldl (fun (s : State) l => s.dropRdc slice l)
    { s with cores := s.cores.map dropAll, harts := s.harts.map dropHart }
  let bare := fun (p : Part) => if ls.contains p.line then { p with fill := none } else p
  let nofill := fun (o : MemOp) => if o.slice = slice then { o with parts := o.parts.map bare } else o
  s1.setFlight { s1.flight with mem := s1.flight.mem.map fun (e : Nat × MemOp) => (e.1, nofill e.2) }

theorem recalled_drops (s : State) (slice line : Nat) :
    (s.recalled slice line).homes.mem = s.homes.mem ∧
    (∀ l ∈ line :: sget [] line s.homes.was, sfind (rdcKey slice l) (s.recalled slice line).homes.rdc = none) ∧
    ∀ h, h / 8 = slice → ∀ x, sfind h s.harts = some x → sfind h (s.recalled slice line).harts =
      some { x with dcache := (line :: sget [] line s.homes.was).foldl (fun m l => sdel l m) x.dcache } := by
  unfold State.recalled
  dsimp only
  obtain ⟨harts, mem, -, -, dropped⟩ := dropRdc_foldl slice (line :: sget [] line s.homes.was) { s with
    cores := s.cores.map fun (e : Nat × Core) => if coreSlice e.1 = slice then (e.1, _) else e
    harts := s.harts.map fun (e : Nat × Hart) => if e.1 / 8 = slice then (e.1, _) else e }
  refine ⟨mem, dropped, fun h mine x found => ?_⟩
  rw [State.setFlight_harts, harts, sfind_map_value, found]
  · exact congrArg (fun e : Nat × Hart => some e.2) (if_pos mine)
  · intro e
    split <;> rfl

/-- A slice strikes itself off the holders that the home waits for; the last one is acknowledged. -/
def State.answerRecall (s : State) (slice line : Nat) : State :=
  match sfind line s.homes.recalls with
  | none => s
  | some m =>
    let m' := m &&& ~~~(bitM 16 slice)
    let s1 := s.setHomes { s.homes with recalls := sset line m' s.homes.recalls }
    if m' = 0 then s1.ackRecall line slice else s1

theorem exec_recall (s : State) (slice line : Nat) :
    exec (.recall slice line) s = .next ((s.recalled slice line).answerRecall slice line) := rfl

theorem answerRecall_frame (s : State) (slice line : Nat) :
    (s.answerRecall slice line).homes.mem = s.homes.mem ∧ (s.answerRecall slice line).homes.rdc = s.homes.rdc ∧
      (s.answerRecall slice line).harts = s.harts := by
  unfold State.answerRecall
  split
  · exact ⟨rfl, rfl, rfl⟩
  · dsimp only
    split
    · have acked := fun u => ackRecall_traffic u line slice
      exact ⟨(congrArg Homes.mem (acked _).homes :), (congrArg Homes.rdc (acked _).homes :), (acked _).harts⟩
    · exact ⟨rfl, rfl, rfl⟩

theorem recall_drops (s : State) (slice line : Nat) : ∃ s', exec (.recall slice line) s = .next s' ∧
    s'.homes.mem = s.homes.mem ∧
    (∀ l ∈ line :: sget [] line s.homes.was, sfind (rdcKey slice l) s'.homes.rdc = none) ∧
    ∀ h, h / 8 = slice → ∀ x, sfind h s.harts = some x → sfind h s'.harts =
      some { x with dcache := (line :: sget [] line s.homes.was).foldl (fun m l => sdel l m) x.dcache } := by
  obtain ⟨mem, rdc, harts⟩ := answerRecall_frame (s.recalled slice line) slice line
  obtain ⟨kept, dropped, cleared⟩ := recalled_drops s slice line
  exact ⟨_, exec_recall s slice line, mem.trans kept, rdc ▸ dropped, harts ▸ cleared⟩

/-! A transfer of a channel (R289). -/

theorem pickRequest_only {s : State} {slice : Nat} {owner : Option Nat} {c : Channel} {r : ChanReq}
    (one : c.queue = [r])
    (unowned : r.vf = none) (few : c.last.all not = true) : s.pickRequest slice owner c = some r := by
  have none_last : c.last.filter id = [] := List.filter_eq_nil_iff.mpr fun b hb => by
    simpa using List.all_eq_true.mp few b hb
  unfold State.pickRequest
  simp only [one, unowned, none_last, List.find?_cons, Option.isNone_none, List.length_nil, Nat.lt_add_one, decide_true,
    if_true]

theorem channelTransfer_write {s : State} {slice ch : Nat} {c : Channel} {r : ChanReq}
    (found : sfind (48 * slice + ch) s.homes.channels = some c) (one : c.queue = [r]) (unowned : r.vf = none)
    (few : c.last.all not = true) (lastVf : c.lastVf = 0) (write : r.write = true) (line : r.ts = false) :
    exec (.channelTransfer slice ch) s = .next (s.setHomes { s.homes with
      channels := sset (48 * slice + ch) ⟨[], (c.last ++ [true]).drop ((c.last.length + 1) - 16), 0⟩ s.homes.channels
        }) := by
  show execChannelTransfer slice ch s = _
  unfold execChannelTransfer
  simp only [found, pickRequest_only one unowned few]
  unfold State.charge
  simp only [unowned, one, lastVf, write, line, List.erase_cons_head, Option.isNone_none, Option.getD_none,
    List.isEmpty_nil,
    Bool.true_or, Bool.false_eq_true, if_true, if_false]

/-! An access across the cluster, at its target's banks (R255, R260, R263). -/

theorem serveXbar_serves {s : State} {id tb : Nat} {o : MemOp} {p : Part} {b : Block} (again : Ev)
    (found : s.op? id = some o) (one : o.parts = [p]) (target : o.target = some tb) (sent : p.state = .sent)
    (block : s.block? tb = some b) (free : s.xbarBlocked id o = false)
    (whole : s.underTest (coreSlice b.core) 5 (cluster b.core % 2) = false)
    (unread : (o.kind.writes && s.bytesRead tb b.g0
      ((p.accs.map (withBytes b.g0 p.line o.width)).flatMap (·.1))) = false)
    (here : ((granulesOf ((p.accs.map (withBytes b.g0 p.line o.width)).flatMap (·.1))).any
      fun g => b.spill.contains (.granule g)) = false) (unsaved : b.state ≠ .saved) :
    s.serveXbar id again =
      let r := (s.core b.core).accesses o.kind (bankBytes o.width) (p.accs.map (withBytes b.g0 p.line o.width))
      if o.kind.reads then
        ((s.setCore b.core r.2).modPart? id p.line fun x => { x with out := r.1, state := .sampled }).at (s.tick + 5)
          (.loadDataReturn id p.line)
      else ((s.setCore b.core r.2).modPart? id p.line fun x => { x with state := .fixed s.tick false true }).at
        (s.tick + 5)
        (.gwctReceive id p.line) := by
  unfold State.serveXbar
  simp only [found, one, target, sent, block, free, unread, here, unsaved, show s.underTest (coreSlice b.core) unitXbar
    (cluster b.core % 2) = false from whole, ne_eq, not_true, decide_false, Bool.or_false, Bool.false_eq_true, if_false]

/-- Settles O48. -/
theorem lineEvents : Obligations.LineEvents := by
  intro s id line slice ch k o p l2 pt f d key x there clear held lines settled
  refine ⟨fun found sent free thawed route unrecalled uncopied => ?write, fun found sent free thawed route =>
    ⟨fun m recalled => ?held, fun m unrecalled copied => ?recalls⟩,
    fun found sent free thawed route => ⟨fun mine => ?back, fun other => ?here⟩,
    fun found sent free thawed route => congrArg _ (homeWrite_refused found sent free thawed route),
    fun found quiet sent free thawed route => ⟨homeRead_hit found sent quiet free thawed route,
      homeRead_miss found sent quiet free thawed route⟩, fun found quiet sent => homeRead_refused found sent quiet,
    fun found sent => redirectedAccess_across found sent,
    fun found quiet sent free thawed route => pinRegistration_home found sent quiet free thawed route,
    fun t l found refused pinned late => ?forced, fun found sent => retry_repeats found sent,
    fun found sampled owner => loadDataReturn_troupe found sampled owner, fun found => gwctReceive_fixed found,
    recall_drops s slice line, fun m recalled busy => ?stands, fun done => ?admits, fun none => ?idle,
    fun c r => channelTransfer_write, fun tb b found one target sent block free whole => ?xbar⟩
  case write =>
    refine congrArg _ ((homeWrite_home found sent free thawed route).trans ?_)
    unfold State.admitWrite
    simp only [unrecalled, uncopied, Option.isSome_none, Bool.false_eq_true, if_false]
  case held =>
    refine congrArg _ ((homeWrite_home found sent free thawed route).trans ?_)
    unfold State.admitWrite
    simp only [recalled, Option.isSome_some, if_true]
    rfl
  case recalls =>
    refine congrArg _ ((homeWrite_home found sent free thawed route).trans ?_)
    unfold State.admitWrite
    simp only [unrecalled, copied, Option.isSome_none, Bool.false_eq_true, if_false]
    rfl
  case back => exact congrArg _ ((homeWrite_here found sent free thawed route).trans (if_pos mine))
  case here =>
    exact congrArg _ ((homeWrite_here found sent free thawed route).trans (if_neg (ne_true_of_eq_false other)))
  case forced =>
    show execPinnedForcedWriteback k line s = _
    unfold execPinnedForcedWriteback
    simp only [found, refused, pinned, late, decide_true, Bool.and_true, if_true]
  case stands =>
    show execRecallAck line s = _
    unfold execRecallAck
    rw [recalled]
    exact congrArg _ (if_pos busy)
  case admits =>
    show execRecallAck line s = _
    unfold execRecallAck
    rw [done]
    exact congrArg _ (if_neg (not_not_intro rfl))
  case idle =>
    show execChannelTransfer slice ch s = _
    unfold execChannelTransfer
    simp only [none]
  case xbar =>
    intro n xs unread here unsaved r done
    have width : n = bankBytes o.width := by
      cases hw : o.width <;> simp only [n, hw, bankBytes]
    have accesses : xs = p.accs.map (withBytes b.g0 p.line o.width) := by
      simp only [xs, width]
      rfl
    have served : ∀ again, s.serveXbar id again = done := fun again => by
      rw [accesses] at unread here
      rw [serveXbar_serves again found one target sent block free whole unread here unsaved, ← width, ← accesses]
    exact ⟨congrArg _ (served _), congrArg _ (served _)⟩

end Sys2Proof.Machine
end

section
/-! PROOFS. The events of a block (R177 to R182, R195 to R199, R269, R390, R400). -/

namespace Sys2Proof.Machine

/-! Units are zeroed, and ends reported. -/

theorem OnlyTraffic.ite {s u v : State} {p : Prop} [Decidable p] (h : OnlyTraffic s u) (g : OnlyTraffic s v) :
    OnlyTraffic s (if p then u else v) := by
  split
  · exact h
  · exact g

theorem blockDone_traffic (s : State) (ticket gwct : Nat) : OnlyTraffic s (s.blockDone ticket gwct) := by
  unfold State.blockDone
  split <;> rfl

theorem tryRefills_traffic (s : State) (core : Nat) : OnlyTraffic s (s.tryRefills core) :=
  OnlyTraffic.foldl (f := fun s (e : Nat × Block) => s.postOnce (.refill e.1)) (fun s _ => postOnce_traffic s _) _ s

theorem postOnce_pkg (s : State) (e : Ev) : (s.postOnce e).pkg = s.pkg := by
  unfold State.postOnce
  split <;> rfl

theorem laterOnce_pkg (s : State) (e : Ev) : (s.laterOnce e).pkg = s.pkg := by
  unfold State.laterOnce State.later State.at
  split
  · rfl
  · split <;> rfl

theorem tryRefills_pkg (s : State) (core : Nat) : (s.tryRefills core).pkg = s.pkg :=
  List.foldlRecOn _ _ (motive := fun u : State => u.pkg = s.pkg) rfl fun u h _ _ => (postOnce_pkg u _).trans h

/-- A core whose walked ways have joined the turn. -/
def Core.joined (c : Core) (now : Nat) (done : Nat → Bool) : Core :=
  let ready := fun (w : WayWalk) => !w.queued && decide (w.ends ≤ now) && w.op.all done
  { c with
    zeroing := c.zeroing ++ (c.walks.filter ready).flatMap walkUnits
    walks := c.walks.map fun (w : WayWalk) => if ready w then { w with queued := true } else w }

/-- The kinds of units, one after another. -/
def Core.zeroKinds (c : Core) (now fuel : Nat) (ks : List Nat) : Core :=
  ks.foldl (fun x k => x.zeroKind now k fuel) c

/-- A core once the units of every kind whose turn is over are zero. -/
def Core.zeroed (c : Core) (now : Nat) : Core :=
  let c2 := c.zeroKinds now (c.zeroing.length + 1) (List.range 4)
  { c2 with
    walks := c2.walks.filter fun (w : WayWalk) => !(w.queued && !((walkUnits w).any fun u => c2.zeroing.contains u)) }

theorem queueWalks_eq (s : State) (core now : Nat) :
    s.queueWalks core now = s.setCore core ((s.core core).joined now s.opDone) := rfl

/-- What unitZero does besides its core and the ends it reports is to have events come. -/
theorem unitZero_reports (s : State) (core : Nat) :
    let s1 := s.queueWalks core (s.clocks64 (coreSlice core))
    let s2 := (s1.setCore core ((s1.core core).zeroed (s.clocks64 (coreSlice core)))).reportEnded core
    ∃ s', exec (.unitZero core) s = .next s' ∧ OnlyTraffic s2 s' ∧ s'.pkg = s2.pkg := by
  intro s1 s2
  show ∃ s', execUnitZero core s = .next s' ∧ _
  unfold execUnitZero
  refine ⟨_, rfl, .trans (.ite (tryRefills_traffic ..) (.refl s2)) (.ite (.refl _) (laterOnce_traffic ..)), ?_⟩
  rw [apply_ite State.pkg, laterOnce_pkg, ite_self, apply_ite State.pkg, tryRefills_pkg, ite_self]
  rfl

/-- A core once the ends are reported of the blocks whose units are zero. -/
def Core.reported (c : Core) : Core :=
  { c with ended := c.ended.filter fun e => e.units.any fun u => c.zeroing.contains u }

theorem reportEnded_core (s : State) (core : Nat) : (s.reportEnded core).core core = (s.core core).reported := by
  unfold State.reportEnded
  rw [(OnlyTraffic.foldl (fun s (e : EndedBlock) => blockDone_traffic s e.ticket e.gwct) _ _).core, core_setCore_self]
  simp only [Bool.not_not]
  rfl

theorem joined_noWalks {c : Core} (now : Nat) (done : Nat → Bool) (none : c.walks = []) : c.joined now done = c := by
  simp only [Core.joined, none, List.filter_nil, List.flatMap_nil, List.append_nil, List.map_nil]
  rw [← none]

/-- The core after unitZero. -/
theorem unitZero_core (s : State) (core : Nat) : ∃ s', exec (.unitZero core) s = .next s' ∧
    s'.core core = (((s.core core).joined (s.clocks64 (coreSlice core)) s.opDone).zeroed
      (s.clocks64 (coreSlice core))).reported := by
  obtain ⟨s', does, frame, -⟩ := unitZero_reports s core
  refine ⟨s', does, ?_⟩
  rw [frame.core, reportEnded_core, core_setCore_self, queueWalks_eq, core_setCore_self]

section
variable {c : Core} {u : CoreUnit}

theorem zeroKind_absent (now k n : Nat) (h : (c.zeroing.find? fun u => decide (u.kind = k)) = none) :
    c.zeroKind now k (n + 1) = { c with zeroDue := sdel k c.zeroDue } := by
  unfold Core.zeroKind
  rw [h]

theorem zeroKind_unnamed (now k n : Nat) (h : (c.zeroing.find? fun u => decide (u.kind = k)) = some u)
    (due : sfind k c.zeroDue = none) :
    c.zeroKind now k (n + 1) = { c with zeroDue := sset k (now + zeroClocks k) c.zeroDue } := by
  unfold Core.zeroKind
  rw [h]
  simp only [due]

/-- Units of a kind that none is being zeroed of, or whose first turn begins, lose nothing. -/
theorem zeroKind_idle (now k n : Nat) (fresh : sfind k c.zeroDue = none ∨ c.zeroing = []) :
    ∃ ds, c.zeroKind now k (n + 1) = { c with zeroDue := ds } ∧ ∀ j ≠ k, sfind j ds = sfind j c.zeroDue := by
  rcases found : c.zeroing.find? fun u => decide (u.kind = k) with - | u
  · exact ⟨_, zeroKind_absent now k n found, fun j other => sfind_sdel_ne _ other⟩
  · have due := fresh.resolve_right fun none => by simp [none] at found
    exact ⟨_, zeroKind_unnamed now k n found due, fun j other => sfind_sset_ne _ _ other⟩

theorem zeroKind_other {k : Nat} (now n : Nat) (one : c.zeroing = [u]) (other : u.kind ≠ k) :
    c.zeroKind now k (n + 1) = { c with zeroDue := sdel k c.zeroDue } :=
  zeroKind_absent now k n (by simp [one, other])

theorem zeroKind_waits {now d : Nat} (n : Nat) (one : c.zeroing = [u]) (due : sfind u.kind c.zeroDue = some d)
    (early : now < d) : c.zeroKind now u.kind (n + 1) = c := by
  have here : (c.zeroing.find? fun u' => decide (u'.kind = u.kind)) = some u := by simp [one]
  unfold Core.zeroKind
  rw [here]
  simp only [due, early, if_true]

theorem zeroKind_last {now d : Nat} (n : Nat) (one : c.zeroing = [u]) (due : sfind u.kind c.zeroDue = some d)
    (late : d ≤ now) : ∃ ds, c.zeroKind now u.kind (n + 2) = { c.zeroUnit u with zeroing := [], zeroDue := ds } := by
  have here : (c.zeroing.find? fun u' => decide (u'.kind = u.kind)) = some u := by simp [one]
  have gone : c.zeroing.erase u = [] := by simp [one]
  unfold Core.zeroKind
  rw [here]
  simp only [due, Nat.not_lt.mpr late, if_false, gone]
  exact ⟨_, zeroKind_absent _ _ _ rfl⟩

end

/-- Nothing is zeroed where nothing waits for it. -/
theorem zeroKinds_none (now n : Nat) (ks : List Nat) :
    ∀ c : Core, c.zeroing = [] → ∃ ds, c.zeroKinds now (n + 1) ks = { c with zeroDue := ds } := by
  induction ks with
  | nil => exact fun c _ => ⟨_, rfl⟩
  | cons k ks ih =>
    intro c none
    obtain ⟨ds, first, -⟩ := zeroKind_idle now k n (.inr none)
    obtain ⟨es, rest⟩ := ih { c with zeroDue := ds } none
    exact ⟨es, (congrArg (Core.zeroKinds · now (n + 1) ks) first).trans rest⟩

/-- No unit is zero yet where no kind's turn has begun. -/
theorem zeroKinds_first (now n : Nat) (ks : List Nat) (distinct : ks.Nodup) :
    ∀ c : Core, (∀ k ∈ ks, sfind k c.zeroDue = none) → ∃ ds, c.zeroKinds now (n + 1) ks = { c with zeroDue := ds } := by
  induction ks with
  | nil => exact fun c _ => ⟨_, rfl⟩
  | cons k ks ih =>
    intro c fresh
    obtain ⟨new, later⟩ := List.nodup_cons.mp distinct
    obtain ⟨ds, first, keeps⟩ := zeroKind_idle now k n (.inl (fresh k List.mem_cons_self))
    obtain ⟨es, rest⟩ := ih later { c with zeroDue := ds } fun j isin =>
      (keeps j fun same => new (same ▸ isin)).trans (fresh j (List.mem_cons_of_mem _ isin))
    exact ⟨es, (congrArg (Core.zeroKinds · now (n + 1) ks) first).trans rest⟩

theorem zeroUnit_zeroDue (c : Core) (u : CoreUnit) (ds es : Sparse Nat) :
    { ({ c with zeroDue := ds } : Core).zeroUnit u with zeroing := [], zeroDue := es } =
      { c.zeroUnit u with zeroing := [], zeroDue := es } := by
  cases u <;> rfl

/-- The one unit that is being zeroed is zero once its turn is over. -/
theorem zeroKinds_last {u : CoreUnit} {now d : Nat} (n : Nat) (late : d ≤ now) (ks : List Nat) (isin : u.kind ∈ ks) :
    ∀ c : Core, c.zeroing = [u] → sfind u.kind c.zeroDue = some d →
      ∃ ds, c.zeroKinds now (n + 2) ks = { c.zeroUnit u with zeroing := [], zeroDue := ds } := by
  induction ks with
  | nil => exact absurd isin List.not_mem_nil
  | cons k ks ih =>
    intro c one due
    by_cases this : u.kind = k
    · subst this
      obtain ⟨ds, first⟩ := zeroKind_last n one due late
      obtain ⟨es, rest⟩ := zeroKinds_none now (n + 1) ks { c.zeroUnit u with zeroing := [], zeroDue := ds } rfl
      exact ⟨es, (congrArg (Core.zeroKinds · now (n + 2) ks) first).trans rest⟩
    · have first := zeroKind_other now (n + 1) one this
      obtain ⟨es, rest⟩ := ih ((List.mem_cons.mp isin).resolve_left this) { c with zeroDue := sdel k c.zeroDue } one
        ((sfind_sdel_ne _ this).trans due)
      exact ⟨es, ((congrArg (Core.zeroKinds · now (n + 2) ks) first).trans rest).trans (zeroUnit_zeroDue ..)⟩

theorem zeroKinds_waits {u : CoreUnit} {now d : Nat} (n : Nat) (early : now < d) (ks : List Nat) :
    ∀ c : Core, c.zeroing = [u] → sfind u.kind c.zeroDue = some d →
      ∃ ds, c.zeroKinds now (n + 1) ks = { c with zeroDue := ds } := by
  induction ks with
  | nil => exact fun c _ _ => ⟨_, rfl⟩
  | cons k ks ih =>
    intro c one due
    by_cases this : u.kind = k
    · subst this
      obtain ⟨es, rest⟩ := ih c one due
      exact ⟨es, (congrArg (Core.zeroKinds · now (n + 1) ks) (zeroKind_waits n one due early)).trans rest⟩
    · have first := zeroKind_other now n one this
      obtain ⟨es, rest⟩ := ih { c with zeroDue := sdel k c.zeroDue } one ((sfind_sdel_ne _ this).trans due)
      exact ⟨es, (congrArg (Core.zeroKinds · now (n + 1) ks) first).trans rest⟩

theorem kind_mem_range (u : CoreUnit) : u.kind ∈ List.range 4 := by
  cases u <;> simp [CoreUnit.kind]

section
variable {s : State} {core : Nat}

theorem unitZero_last {u : CoreUnit} {d : Nat} (one : (s.core core).zeroing = [u]) (noWalks : (s.core core).walks = [])
    (due : sfind u.kind (s.core core).zeroDue = some d) : ∃ s', exec (.unitZero core) s = .next s' ∧
      (d ≤ s.clocks64 (coreSlice core) → (s'.core core).zeroing = [] ∧
        (s'.core core).ua = ((s.core core).zeroUnit u).ua ∧ (s'.core core).opm = ((s.core core).zeroUnit u).opm ∧
        (s'.core core).uaPoison = ((s.core core).zeroUnit u).uaPoison ∧
        (s'.core core).opmPoison = ((s.core core).zeroUnit u).opmPoison) ∧
      (s.clocks64 (coreSlice core) < d → (s'.core core).zeroing = [u] ∧ (s'.core core).ua = (s.core core).ua ∧
        (s'.core core).opm = (s.core core).opm) := by
  obtain ⟨s', does, left⟩ := unitZero_core s core
  rw [joined_noWalks _ _ noWalks] at left
  unfold Core.zeroed at left
  rw [one] at left
  refine ⟨s', does, fun late => ?_, fun early => ?_⟩
  · obtain ⟨ds, all⟩ := zeroKinds_last 0 late (List.range 4) (kind_mem_range u) _ one due
    simp [left, all, Core.reported]
  · obtain ⟨ds, all⟩ := zeroKinds_waits 1 early (List.range 4) _ one due
    simp [left, all, one, Core.reported]

theorem unitZero_joins {y : WayWalk} (none : (s.core core).zeroing = []) (one : (s.core core).walks = [y])
    (noDue : (s.core core).zeroDue = []) (new : y.queued = false) (ended : y.ends ≤ s.clocks64 (coreSlice core))
    (backs : y.op.all s.opDone = true) :
    ∃ s', exec (.unitZero core) s = .next s' ∧ (s'.core core).zeroing = granUnits (8 * y.unit) 8 := by
  obtain ⟨s', does, left⟩ := unitZero_core s core
  have joins : ((s.core core).joined (s.clocks64 (coreSlice core)) s.opDone).zeroing = granUnits (8 * y.unit) 8 := by
    simp [Core.joined, none, one, new, ended, backs, walkUnits]
  obtain ⟨ds, all⟩ := zeroKinds_first (s.clocks64 (coreSlice core)) (granUnits (8 * y.unit) 8).length (List.range 4)
    List.nodup_range ((s.core core).joined (s.clocks64 (coreSlice core)) s.opDone) fun k _ => by
      simp [Core.joined, noDue, sfind]
  unfold Core.zeroed at left
  rw [joins, all] at left
  exact ⟨s', does, by rw [left]; exact joins⟩

theorem unitZero_reportsEnd {e : EndedBlock} (none : (s.core core).zeroing = []) (noWalks : (s.core core).walks = [])
    (one : (s.core core).ended = [e]) : ∃ s', exec (.unitZero core) s = .next s' ∧ (s'.core core).ended = [] ∧
      s'.pkg = (s.blockDone e.ticket e.gwct).pkg := by
  obtain ⟨s', does, frame, package⟩ := unitZero_reports s core
  obtain ⟨ds, all⟩ := zeroKinds_none (s.clocks64 (coreSlice core)) 0 (List.range 4) (s.core core) none
  have left : (s.core core).zeroed (s.clocks64 (coreSlice core)) = { s.core core with zeroDue := ds } := by
    unfold Core.zeroed
    rw [none]
    simp only [List.length_nil, all, noWalks, List.filter_nil]
  rw [queueWalks_eq, core_setCore_self, joined_noWalks _ _ noWalks, left] at frame package
  refine ⟨s', does, ?_, package.trans ?_⟩
  · rw [frame.core, reportEnded_core, core_setCore_self]
    simp [Core.reported, none, one]
  · unfold State.reportEnded
    rw [core_setCore_self]
    have reported : ((s.core core).ended.filter fun e => !(e.units.any fun u => (s.core core).zeroing.contains u)) =
      [e] := by
      simp [one, none]
    simp only [reported, List.foldl_cons, List.foldl_nil]
    unfold State.blockDone
    simp only [State.setCore_pkg]
    rcases sfind e.ticket s.pkg.tickets with - | t <;> rfl

end

/-! Arrival and start. -/

section
variable {s : State} {id : Nat} {b : Block} (there : s.block? id = some b)
include there

theorem exec_blockArrival {t : Ticket} (arrives : b.state = .arriving) (whole : s.reclaiming id b = false)
    (ticket : s.ticket? b.ticket = some t) : exec (.blockArrival id) s =
    (let s1 := s.clearWays b.core id (s.newUnits id b (rangeOf b.g0 b.grans))
     let s2 := if (s.savedOf id).isEmpty then
       (b.slots.zipIdx).foldl (fun s e => s.setTroupe ⟨b.core, e.1⟩ (s.startTroupe id b t e.2)) s1 else s1
     .next ((s2.modBlock id fun b => { b with state := .clearing }).post (.blockStart id))) := by
  show execBlockArrival id s = _
  unfold execBlockArrival
  simp only [there, arrives, whole, ticket, ne_eq, not_true, decide_false, Bool.or_self, Bool.false_eq_true, if_false]

theorem blockStart_waits (clears : b.state = .clearing) (h : s.notReady b = true ∨ s.quiesced b.regime.part = true) :
    exec (.blockStart id) s = .next (s.laterOnce (.blockStart id)) := by
  show execBlockStart id s = _
  unfold execBlockStart
  have waits : (s.notReady b || s.quiesced b.regime.part) = true := by simpa using h
  simp only [there, clears, waits, ne_eq, not_true, if_false, if_true]

theorem blockStart_starts {t : Ticket} (clears : b.state = .clearing) (ready : s.notReady b = false)
    (runs : s.quiesced b.regime.part = false) (new : s.savedOf id = []) (ticket : s.ticket? b.ticket = some t) :
    exec (.blockStart id) s = (let s2 := s.modBlock id fun b => { b with ways := [] }
      .next (if t.resident then (s2.modBlock id fun b => { b with state := .gathered }).gangCheck b.ticket
        else s2.runBlock id)) := by
  show execBlockStart id s = _
  unfold execBlockStart
  have same : (s.modBlock id fun b => { b with ways := [] }).ticket? b.ticket = some t := by
    unfold State.modBlock
    rw [there]
    exact ticket
  simp only [there, clears, ready, runs, new, same, ne_eq, not_true, if_false, Bool.or_self, Bool.false_eq_true,
    List.any_nil, Bool.false_and]

/-! The end of a block, and what a reclaim does to one. -/

theorem blockEnd_begins (h : b.state ≠ .ending) : exec (.blockEnd id) s =
    .next (((s.backPins id b).2.modBlock id fun y => { y with state := .ending, ways := (s.backPins id b).1 }).post
      (.blockEnd id)) := by
  show execBlockEnd id s = _
  unfold execBlockEnd
  rw [there]
  exact congrArg _ (if_pos h)

theorem blockEnd_waits (ends : b.state = .ending) (busy : s.blockBusy id b = true) :
    exec (.blockEnd id) s = .next (s.later (.blockEnd id)) := by
  show execBlockEnd id s = _
  unfold execBlockEnd
  simp only [there, ends, busy, ne_eq, not_true, if_false, if_true]

theorem blockEnd_releases (ends : b.state = .ending) (idle : s.blockBusy id b = false) : exec (.blockEnd id) s =
    (let s1 := s.removeBlock id b
     let c1 := s1.core b.core
     let ended : EndedBlock := ⟨b.ticket, Nat.max b.gwct (s.latestP b.ways),
       c1.zeroing.filter fun u => b.units.contains u || decide (u.kind < 2)⟩
     .next ((s1.setCore b.core { c1 with ended := c1.ended ++ [ended] }).postOnce (.unitZero b.core))) := by
  show execBlockEnd id s = _
  unfold execBlockEnd
  simp only [there, ends, idle, ne_eq, not_true, if_false, Bool.false_eq_true]

theorem exec_reclaim {a : Block} {v : Nat} {r : Reclaim} {rs : List Reclaim} (arriving : s.block? v = some a)
    (first : (s.core a.core).reclaims = r :: rs) (its : r.arriving = v) (one : r.victims = [id]) :
    exec (.reclaim v) s = .next (s.makeVictim id b) := by
  show execReclaim v s = _
  unfold execReclaim
  simp only [arriving, first, its, one, ne_eq, not_true, if_false, List.foldl_cons, List.foldl_nil, there]

theorem exec_spill {r : Reclaim} {rs : List Reclaim} (first : (s.core b.core).reclaims = r :: rs)
    (halted : b.state = .halted) (its : r.victims.contains id = true) : exec (.spill id) s =
    .next (if (s.haltTroupes id).quiet id && !(s.haltTroupes id).notReady b then (s.haltTroupes id).spillBlock id b r
      else (s.haltTroupes id).laterOnce (.spill id)) := by
  show execSpill id s = _
  unfold execSpill
  simp only [there, first, halted, its, ne_eq, not_true, decide_false, Bool.not_true, Bool.or_self, Bool.false_eq_true,
    if_false]

/-- The granules among some units. -/
def spilledGranules (us : List CoreUnit) : List Nat :=
  us.filterMap fun u => match u with
    | .granule g => some g
    | _ => none

theorem refill_begins (halted : b.state = .halted) (none : (s.core b.core).reclaims = [])
    (runs : s.quiesced b.regime.part = false) (whole : s.anySaved b.ticket = false)
    (free : (b.spill.any fun u => (s.heldUnits b.core).contains u) = false) (noWays : b.ways = []) :
    exec (.refill id) s =
      .next (((s.clearWays b.core id (s.newUnits id b (spilledGranules b.spill))).setBlock id
        { b with state := .refilling }).post (.refill id)) := by
  show execRefill id s = _
  unfold execRefill
  simp only [there, halted, none, runs, whole, free, noWays, List.any_nil, Bool.or_self, Bool.false_eq_true, if_false]
  rfl

theorem refill_reads (refills : b.state = .refilling) (runs : s.quiesced b.regime.part = false)
    (ready : s.notReady b = false)
    (read : b.spill = [] ∨ s.framesRead (coreSlice b.core) b.regime (b.frames.map fun i => s.poolOf b + 65536 * i) =
      true) :
    exec (.refill id) s = .next (s.refillBlock id b) := by
  show execRefill id s = _
  unfold execRefill
  have readable : (!b.spill.isEmpty &&
      !s.framesRead (coreSlice b.core) b.regime (b.frames.map fun i => s.poolOf b + 65536 * i)) = false := by
    rcases read with nothing | all
    · rw [nothing]; rfl
    · rw [all, Bool.not_true, Bool.and_false]
  simp only [there, refills, runs, ready, readable, Bool.or_self, Bool.false_eq_true, if_false]

section
variable {t : Ticket} (runs : b.state = .running) (ticket : s.ticket? b.ticket = some t) (alone : t.resident = false)

omit there in
include ticket alone in
theorem alone_notResident : s.residentBlock b = false := by
  unfold State.residentBlock
  rw [ticket]
  exact alone

include runs ticket alone

theorem wholeBlockSave_waits (busy : (s.haltBlock id).savable id = false) :
    exec (.wholeBlockSave id) s = .next ((s.haltBlock id).laterOnce (.wholeBlockSave id)) := by
  show execWholeBlockSave id s = _
  unfold execWholeBlockSave
  simp only [there, Block.hasContents, State.stopBlock, runs, alone_notResident ticket alone, busy,
    Bool.not_true, Bool.not_false, Bool.false_eq_true, if_false, if_true]

theorem wholeBlockSave_saves {b1 : Block} (savable : (s.haltBlock id).savable id = true)
    (halted : (s.haltBlock id).block? id = some b1) :
    exec (.wholeBlockSave id) s = .next (((s.haltBlock id).saveBlock id b1).getD (s.haltBlock id)) := by
  show execWholeBlockSave id s = _
  unfold execWholeBlockSave
  simp only [there, Block.hasContents, State.stopBlock, runs, alone_notResident ticket alone, savable,
    halted, Bool.not_true, Bool.false_eq_true, if_false]

end

end

/-! What becomes of a victim. -/

section
variable {s : State} {v : Nat} {b : Block}

theorem makeVictim_halts (h : b.state = .running ∨ b.state = .halted ∨ (b.state = .gathered ∧ b.haltedAt ≠ 0)) :
    s.makeVictim v b = (s.haltBlock v).postOnce (.spill v) := by
  unfold State.makeVictim
  rcases h with is | is | ⟨is, before⟩
  · rw [is]
  · rw [is]
  · simp only [is, before, if_false]

theorem makeVictim_gathered (is : b.state = .gathered) (new : b.haltedAt = 0) : s.makeVictim v b = s.ungather v b := by
  unfold State.makeVictim
  simp only [is, new, if_true]

theorem makeVictim_saved (is : b.state = .clearing) (h : ((s.savedOf v).any fun e => decide (e.2.kind = .whole)) =
    true) :
    s.makeVictim v b = s.unplace v b := by
  unfold State.makeVictim
  simp only [is, h, if_true]

theorem makeVictim_clearing (is : b.state = .clearing) (new : s.savedOf v = []) (resident : s.residentBlock b = true)
    (never : b.haltedAt = 0) : s.makeVictim v b = s.ungather v b := by
  unfold State.makeVictim
  simp only [is, new, resident, never, List.any_nil, Bool.false_eq_true, if_false, decide_true, Bool.and_self, if_true]

theorem makeVictim_refilling (is : b.state = .refilling) :
    s.makeVictim v b = (s.unrefill v b).postOnce (.spill v) := by
  unfold State.makeVictim
  rw [is]

end

/-- A launch that runs together, at its tick. -/
theorem gangStart {s : State} {tk x : Nat} {t : Ticket} (ticket : s.ticket? tk = some t) (named : t.startTick = some x)
    (come : x ≤ s.tick) (runs : s.quiesced t.part = false) : exec (.residentGangStart tk) s =
    .next (if s.allGathered tk t then
        let s1 := s.modPart t.part fun p => if p.gathering = some tk then { p with gathering := none } else p
        ((s1.blocksOf tk).filter fun e => decide (e.2.state = .gathered)).foldl (fun s e => s.runBlock e.1) s1
      else s.setTicket tk { t with startTick := none }) := by
  show execResidentGangStart tk s = _
  unfold execResidentGangStart
  simp only [ticket, named, Nat.not_lt.mpr come, runs, Bool.false_eq_true, if_false]

/-- Settles O50. -/
theorem blockEvents : Obligations.BlockEvents := by
  intro s core id tk x d b a t u y e r rs c now starts cleared clearing
  refine ⟨fun one noWalks _ due => unitZero_last one noWalks due,
    fun none one _ noDue new ended backs => unitZero_joins none one noDue new ended backs,
    unitZero_reportsEnd, fun there arrives whole ticket => ⟨fun new => ?arrives, fun saved _ => ?returns⟩,
    blockStart_waits, fun there clears ready runs new ticket => blockStart_starts there clears ready runs new ticket,
    fun ticket named come runs => ⟨fun all => ?gang, fun notAll => ?again⟩,
    blockEnd_begins, blockEnd_waits,
    fun there ends idle => blockEnd_releases there ends idle, fun v arriving first its one there =>
      ⟨fun is => ?halts, fun is new => ?gathered, fun is saved => ?saved, fun is new resident never => ?clears,
        fun is => ?refills⟩,
    fun there first halted its => ⟨fun quiet ready => ?spills, fun busy => ?waits⟩, refill_begins, refill_reads,
    fun there runs ticket alone => ⟨wholeBlockSave_waits there runs ticket alone,
      fun b1 => wholeBlockSave_saves there runs ticket alone⟩⟩
  case arrives =>
    rw [exec_blockArrival there arrives whole ticket]
    simp only [new, List.isEmpty_nil, if_true]
    rfl
  case returns =>
    rw [exec_blockArrival there arrives whole ticket]
    simp only [List.isEmpty_iff, saved, if_false]
    rfl
  case gang => exact (gangStart ticket named come runs).trans (congrArg _ (if_pos all))
  case again => exact (gangStart ticket named come runs).trans (congrArg _ (if_neg (Bool.not_eq_true _ ▸ notAll)))
  case halts => exact (exec_reclaim there arriving first its one).trans (congrArg _ (makeVictim_halts is))
  case gathered => exact (exec_reclaim there arriving first its one).trans (congrArg _ (makeVictim_gathered is new))
  case saved => exact (exec_reclaim there arriving first its one).trans (congrArg _ (makeVictim_saved is saved))
  case clears =>
    exact (exec_reclaim there arriving first its one).trans (congrArg _ (makeVictim_clearing is new resident never))
  case refills => exact (exec_reclaim there arriving first its one).trans (congrArg _ (makeVictim_refilling is))
  case spills => rw [exec_spill there first halted its, quiet, ready, Bool.not_false, Bool.and_self, if_pos rfl]
  case waits => rw [exec_spill there first halted its, busy, Bool.false_and, if_neg Bool.false_ne_true]

end Sys2Proof.Machine
end

section
/-! PROOFS. Writes of system registers as they reach their targets (R193, R194, R281, R287, R352, R356, R410, R417). -/

namespace Sys2Proof.Machine

/-! A write finds its register. -/

theorem ite_some_or {c : Prop} [Decidable c] {a m : Nat} {o : Option Nat} (h : (if c then some a else o) = some m) :
    c ∨ o = some m := by
  by_cases c <;> simp_all

/-- A register whose write is checked against a mask has no other checks. -/
theorem plainMask_reg {reg m : Nat} (h : plainMask reg = some m) :
    ¬ reg < 0x20 ∧ ¬ reg < 0x40 ∧ reg ≠ 0x4B ∧ reg ≠ 0x70 ∧ reg ≠ 0x74 ∧ ¬ (0x80 ≤ reg ∧ reg < 0xA0) ∧
      ¬ (0xA0 ≤ reg ∧ reg < 0xC0) ∧ reg ≠ 0xC1 ∧ reg ≠ 0xC3 ∧ reg ≠ 0xC4 ∧ reg ≠ 0xC8 ∧ reg ≠ 0xCC ∧ reg ≠ 0xCE ∧
      reg ≠ 0xCF ∧ ¬ (0x200 ≤ reg ∧ reg % 4 = 3) := by
  unfold plainMask at h
  iterate 14
    rcases ite_some_or h with named | h
    · omega
  exact absurd h nofun

section
variable {s : State} {slice req : Nat} (val : W64)

theorem write_left (unit reg : Nat) (left : s.leftSlice req slice = true) :
    exec (.systemRegisterWrite slice unit reg val req) s = .next (s.countRefusal.reply req replyRefused) :=
  congrArg _ (if_pos left)

variable (mine : s.leftSlice req slice = false)
include mine

theorem write_plain {reg m : Nat} (plain : plainMask reg = some m) : exec (.systemRegisterWrite slice 0 reg val req) s =
    .next (if val.toNat &&& m = val.toNat then ((s.putReg slice reg val).markSched slice reg).reply req replyOk
      else s.reply req replyRefused) := by
  show execSystemRegisterWrite slice 0 reg val req s = _
  unfold execSystemRegisterWrite
  obtain ⟨h1, h2, h3, h4, h5, h6, h7, h8, h9, h10, h11, h12, h13, h14, h15⟩ := plainMask_reg plain
  simp only [mine, h1, h2, h3, h4, h5, h6, h7, h8, h9, h10, h11, h12, h13, h14, h15, plain, ne_eq, not_true, if_false,
    Bool.false_eq_true]

theorem write_unit {unit : Nat} (reg : Nat) (h : unit ≠ 0) : exec (.systemRegisterWrite slice unit reg val req) s =
    .next (s.post (.cquotaWrite slice (coreAt slice unit) reg val req)) := by
  show execSystemRegisterWrite slice unit reg val req s = _
  unfold execSystemRegisterWrite
  simp only [mine, h, ne_eq, not_false_eq_true, if_true, Bool.false_eq_true, if_false]

theorem write_mailbox :
    exec (.systemRegisterWrite slice 0 0x74 val req) s = .next (s.mailboxWrite slice val req) := by
  show execSystemRegisterWrite slice 0 0x74 val req s = _
  unfold execSystemRegisterWrite
  simp only [mine, Bool.false_eq_true, if_false]
  rfl

end

/-! The mailbox. -/

section
variable {s : State} {slice req p : Nat} {val : W64} {x : Partition} (its : s.partOf slice = some p)
  (there : sfind p s.pkg.parts = some x)
include its there

theorem mailboxWrite_malformed (bad : 2 ^ 16 ≤ val.toNat ∨ val.toNat % 256 = 0 ∨ 5 < val.toNat % 256) :
    s.mailboxWrite slice val req = s.reply req replyRefused := by
  unfold State.mailboxWrite State.part?
  simp only [its, there]
  exact if_pos (by omega)

variable (small : val.toNat < 2 ^ 16) (low : 1 ≤ val.toNat % 256) (high : val.toNat % 256 ≤ 5)
include small low high

/-- The event of a mailbox command. -/
def mailEvent (p cmd : Nat) : Ev := match cmd with
  | 1 => .addslice p
  | 2 => .remslice p
  | 3 => .setband p
  | 4 => .clrband p
  | _ => .attest p

theorem mailboxWrite_eq : s.mailboxWrite slice val req =
    if s.lowerMailbox p slice then s.post (.systemRegisterWrite slice 0 0x74 val req)
    else if x.mailbox.isSome then s.reply req replyBusy
    else (((s.setPart p { x with mailbox := some (val.toNat % 256, bitsOf val.toNat 8 4) }).setPartReg p 0x74
      (BitVec.ofNat 64 (bitsOf val.toNat 8 4 * 256))).reply req replyOk).later (mailEvent p (val.toNat % 256)) := by
  unfold State.mailboxWrite State.part?
  simp only [its, there]
  have good : ¬ (val.toNat / 2 ^ 16 ≠ 0 ∨ val.toNat % 256 = 0 ∨ 5 < val.toNat % 256) := by omega
  exact if_neg good

end

theorem setPartReg_pkg (s : State) (p reg : Nat) (v : W64) : (s.setPartReg p reg v).pkg = s.pkg :=
  List.foldlRecOn _ _ (motive := fun u : State => u.pkg = s.pkg) rfl fun _ h _ _ => h

theorem OnlyTroupes.parts {s u : State} (h : OnlyTroupes s u) : u.pkg.parts = s.pkg.parts :=
  (congrArg (fun u => u.pkg.parts) h).symm

theorem reply_parts (s : State) (id : Nat) (v : W64) : (s.reply id v).pkg.parts = s.pkg.parts := by
  unfold State.reply
  split
  · rfl
  · exact (modTroupe_onlyTroupes s ..).parts

theorem later_pkg (s : State) (e : Ev) : (s.later e).pkg = s.pkg := by
  unfold State.later State.at
  split <;> rfl

/-! Quotas, anchors' quotas and tokens. -/

theorem l2pinqWrite_ok {s : State} (slice vf : Nat) {val : W64} (req : Nat) (low : val.toNat % 2 ^ 24 = 0)
    (fits : sumNat ((List.range 32).map fun w => if w = vf then val.toNat / 2 ^ 44 % 2 ^ 20 else s.pinQuota slice w) ≤
      524288) : exec (.l2pinqWrite slice vf val req) s = .next (s.writeReg slice 0 (l2pinqReg vf)
        (BitVec.ofNat 64 (putBits val.toNat 24 20 (s.pinUsed slice vf))) req) :=
  congrArg _ (if_neg (by
    rintro (bad | much)
    · exact bad (by simpa [bitsOf] using low)
    · exact absurd much (Nat.not_lt.mpr fits)))

theorem l2pinqWrite_refused {s : State} (slice vf : Nat) {val : W64} (req : Nat) (bad : val.toNat % 2 ^ 24 ≠ 0 ∨ 524288
    <
      sumNat ((List.range 32).map fun w => if w = vf then val.toNat / 2 ^ 44 % 2 ^ 20 else s.pinQuota slice w)) :
    exec (.l2pinqWrite slice vf val req) s = .next (s.reply req replyRefused) :=
  congrArg _ (if_pos (bad.imp_left fun low => by simpa [bitsOf] using low))

/-- A field takes its value and leaves what lies above. -/
theorem putBits_used (v used : Nat) : putBits v 24 20 used / 2 ^ 44 = v / 2 ^ 44 ∧
    putBits v 24 20 used / 2 ^ 24 % 2 ^ 20 = used % 2 ^ 20 := by
  unfold putBits bitsOf
  omega

theorem sltokWrite_ok {s : State} (slice vf : Nat) {val : W64} (req : Nat) (low : val.toNat % 2 ^ 9 = 0)
    (fits : sumNat ((List.range 32).map fun w => let y := if w = vf then val else s.tokNext slice w
      if y.getLsbD 27 = true then 0 else y.toNat / 2 ^ 46 % 2 ^ 18) ≤ 192000) :
    exec (.sltokWrite slice vf val req) s =
      .next (((s.setReg slice 0 (tokNextReg vf) val).setReg slice 0 (tokWaitReg vf) 1).reply req replyOk) :=
  congrArg _ (if_neg (by
    rintro (bad | much)
    · exact bad (by simpa [bitsOf] using low)
    · exact absurd much (Nat.not_lt.mpr fits)))

theorem sltokWrite_refused {s : State} (slice vf : Nat) {val : W64} (req : Nat) (bad : val.toNat % 2 ^ 9 ≠ 0 ∨ 192000 <
      sumNat ((List.range 32).map fun w => let y := if w = vf then val else s.tokNext slice w
        if y.getLsbD 27 = true then 0 else y.toNat / 2 ^ 46 % 2 ^ 18)) :
    exec (.sltokWrite slice vf val req) s = .next (s.reply req replyRefused) :=
  congrArg _ (if_pos (bad.imp_left fun low => by simpa [bitsOf] using low))

/-! Power caps and VF configuration. -/

section
variable {s : State} {slice p : Nat} (val : W64) (req : Nat) (its : s.partOf slice = some p)
include its

theorem pwrcapWrite_ok (small : val.toNat < 2 ^ 32)
    (share : val.toNat % 2 ^ 16 ≤ (s.reg slice 0 0x70).toNat / 2 ^ 16 % 2 ^ 16)
    (enough : 120 * ((List.range 16).filter fun i => (s.smask p).getLsbD i).length ≤ val.toNat % 2 ^ 16) :
    exec (.pwrcapWrite slice val req) s = .next ((s.setPartReg p 0x70 (BitVec.ofNat 64
      ((s.reg slice 0 0x70).toNat / 2 ^ 16 % 2 ^ 16 * 2 ^ 16 + val.toNat % 2 ^ 16))).reply req replyOk) := by
  show execPwrcapWrite slice val req s = _
  unfold execPwrcapWrite
  rw [its]
  refine congrArg _ (if_neg ?_)
  rintro (big | much | little)
  · exact absurd small (Nat.not_lt.mpr big)
  · exact absurd share (Nat.not_le.mpr much)
  · exact absurd enough (Nat.not_le.mpr little)

theorem pwrcapWrite_refused (bad : 2 ^ 32 ≤ val.toNat ∨
      (s.reg slice 0 0x70).toNat / 2 ^ 16 % 2 ^ 16 < val.toNat % 2 ^ 16 ∨
      val.toNat % 2 ^ 16 < 120 * ((List.range 16).filter fun i => (s.smask p).getLsbD i).length) :
    exec (.pwrcapWrite slice val req) s = .next (s.reply req replyRefused) := by
  show execPwrcapWrite slice val req s = _
  unfold execPwrcapWrite
  rw [its]
  exact congrArg _ (if_pos bad)

end

/-- The zero fields and the frame size of a VFCFG. -/
theorem vfFieldsOk_iff (v : Nat) : vfFieldsOk v = true ↔
    v / 8 % 32 = 0 ∧ v / 2 ^ 8 % 16 ≤ 4 ∧ v / 2 ^ 12 % 2 ^ 40 % 2 ^ (v / 2 ^ 8 % 16) = 0 := by
  unfold vfFieldsOk
  rw [Bool.and_eq_true, Bool.and_eq_true, decide_eq_true_iff, decide_eq_true_iff, decide_eq_true_iff, and_assoc]
  exact Iff.rfl

/-- The tag of a VFCFG is all that lies above bit 51. -/
theorem vfTag_eq (val : W64) : bitsOf val.toNat 52 12 = val.toNat / 2 ^ 52 := by
  have := val.isLt
  unfold bitsOf
  omega

section
variable {s : State} {slice p vf : Nat} {val : W64} {req : Nat} (its : s.partOf slice = some p)
include its

theorem vfcfgWrite_resetting (state : s.vfState p vf = 2) :
    exec (.vfcfgWrite slice vf val req) s = .next (s.reply req replyBusy) := by
  show execVfcfgWrite slice vf val req s = _
  unfold execVfcfgWrite
  rw [its]
  exact congrArg _ (if_pos state)

theorem vfcfgWrite_off (state : s.vfState p vf = 0) (on : val.toNat % 2 = 1) : exec (.vfcfgWrite slice vf val req) s =
    .next (if vfFieldsOk val.toNat && decide (val.toNat / 2 ^ 52 ≠ 0) && s.astagFree p vf (val.toNat / 2 ^ 52) then
        (s.setVfcfg p vf (vfValue val.toNat 0) (vfValue val.toNat 1) (s.tick + 1)).reply req replyOk
      else s.reply req replyRefused) := by
  show execVfcfgWrite slice vf val req s = _
  unfold execVfcfgWrite
  simp only [its, state, on, vfTag_eq, vfResetting, vfRun, vfOff, show ¬ 0 = 2 by decide, show ¬ 0 = 1 by decide, Nat.one_ne_zero,
    if_false]

theorem vfcfgWrite_run (state : s.vfState p vf = 1) : exec (.vfcfgWrite slice vf val req) s =
    .next (if vfFieldsOk val.toNat && decide (val.toNat % 2 = 1) && decide (val.toNat / 2 ^ 52 = s.vfAstag p vf) then
        (s.setVfcfg p vf (s.vfcfg p vf) (vfValue val.toNat 1) (s.tick + 1)).reply req replyOk
      else s.reply req replyRefused) := by
  show execVfcfgWrite slice vf val req s = _
  unfold execVfcfgWrite
  simp only [its, state, vfTag_eq, vfResetting, vfRun, show ¬ 1 = 2 by decide, if_false, if_true]

end

/-- Settles O51. -/
theorem registerWriteEvents : Obligations.RegisterWriteEvents := by
  intro s slice unit core vf reg req m p val x v refused mine
  refine ⟨write_left val unit reg, fun mine plain => ⟨fun fits => ?plain, fun other => ?bits⟩,
    fun mine h => write_unit val mine reg h, fun mine its there bad => ?malformed,
    fun mine its there small low high lower => ?lower,
    fun mine its there small low high alone => ⟨fun busy => ?busy, fun free => ?taken⟩,
    fun ok => congrArg _ (if_pos ok), fun bad => congrArg _ (if_neg (Bool.not_eq_true _ ▸ bad)),
    ⟨fun low fits => ⟨_, l2pinqWrite_ok slice vf req low fits, putBits_used ..⟩, l2pinqWrite_refused slice vf req⟩,
    ⟨sltokWrite_ok slice vf req, sltokWrite_refused slice vf req⟩,
    fun its => ⟨pwrcapWrite_ok val req its, pwrcapWrite_refused val req its⟩,
    fun its => ⟨vfcfgWrite_resetting its, fun state on fields some_tag free => ?starts, fun state on bad => ?offRefused,
      fun state fields on same => ?again, fun state bad => ?runRefused⟩⟩
  case plain => exact (write_plain val mine plain).trans (congrArg _ (if_pos fits))
  case bits => exact (write_plain val mine plain).trans (congrArg _ (if_neg other))
  case malformed => exact (write_mailbox val mine).trans (congrArg _ (mailboxWrite_malformed its there bad))
  case lower =>
    exact (write_mailbox val mine).trans
      (congrArg _ ((mailboxWrite_eq its there small low high).trans (if_pos lower)))
  case busy =>
    refine (write_mailbox val mine).trans (congrArg _ ((mailboxWrite_eq its there small low high).trans ?_))
    rw [alone, if_neg Bool.false_ne_true, if_pos busy]
  case taken =>
    have takes := mailboxWrite_eq (req := req) its there small low high
    rw [alone, if_neg Bool.false_ne_true, free, Option.isSome_none, if_neg Bool.false_ne_true] at takes
    refine ⟨_, { x with mailbox := some (v % 256, v / 256 % 16) }, (write_mailbox val mine).trans (congrArg _ takes),
      ?_, rfl⟩
    rw [later_pkg, reply_parts, setPartReg_pkg]
    exact sfind_sset_self ..
  case starts =>
    rw [vfcfgWrite_off its state on, (vfFieldsOk_iff _).mpr fields, decide_eq_true some_tag, free]
    rfl
  case offRefused =>
    rw [vfcfgWrite_off its state on]
    refine congrArg _ (if_neg fun all => bad ?_)
    simpa only [Bool.and_eq_true, decide_eq_true_eq, vfFieldsOk_iff, and_assoc] using all
  case again =>
    rw [vfcfgWrite_run its state, (vfFieldsOk_iff _).mpr fields, decide_eq_true on, decide_eq_true same]
    rfl
  case runRefused =>
    rw [vfcfgWrite_run its state]
    refine congrArg _ (if_neg fun all => bad ?_)
    simpa only [Bool.and_eq_true, decide_eq_true_eq, vfFieldsOk_iff, and_assoc] using all

end Sys2Proof.Machine
end

section
/-! PROOFS. Requests and releases go on; tables, the calendar and queues (R231, R283, R353, R354, R366, R367, R375,
R425,
R443, R444). -/

namespace Sys2Proof.Machine

/-! A release that is held. -/

section
variable {s : State} {id : Nat} {o : TsOp} (there : s.ts? id = some o)
include there

theorem exec_heldTs : exec (.heldReleaseSend id) s = .next (s.stepTs id o) := by
  show execHeldReleaseSend id s = _
  unfold execHeldReleaseSend
  rw [there]

theorem heldTs_releases (held : o.stage = .held) (done : s.covered o.owner o.after = true) :
    exec (.heldReleaseSend id) s = .next (((s.releaseOf o.owner o.scope).2.setTs id
      { o with stage := .releasing, after := (s.releaseOf o.owner o.scope).1 }).post (.heldReleaseSend id)) := by
  rw [exec_heldTs there]
  unfold State.stepTs
  simp only [held, done, if_true]

theorem heldTs_sends (releasing : o.stage = .releasing) (done : o.after.all s.opDone = true) (near : o.scope ≠ 7)
    (here : isPeer o.loc = false) :
    let o1 := { o with stage := .sent, nb := Nat.max o.nb (Nat.max (s.ownerGwct o.owner) (s.latestP o.after)) }
    exec (.heldReleaseSend id) s = .next ((s.setTs id o1).sendTs id o1) := by
  rw [exec_heldTs there]
  unfold State.stepTs
  simp only [releasing, done, near, here, if_true, decide_false, Bool.or_self, Bool.false_and, Bool.false_eq_true,
    if_false]
  rfl

theorem heldTs_again (refused : o.stage = .refused) :
    let w := s.movedTo o.owner (s.ownerLeaf o.owner 0 / 8) o.loc o.name
    let o1 := { o with stage := .sent, loc := w.1, name := w.2 }
    exec (.heldReleaseSend id) s = .next ((s.setTs id o1).sendTs id o1) := by
  rw [exec_heldTs there]
  unfold State.stepTs
  simp only [refused]

end

section
variable {s : State} {id : Nat} {r : Request} (other : s.ts? id = none) (there : s.req? id = some r)
include other there

theorem exec_heldReq : exec (.heldReleaseSend id) s = .next (s.stepReq id r) := by
  show execHeldReleaseSend id s = _
  unfold execHeldReleaseSend
  rw [other, there]

theorem heldReq_releases (held : r.stage = .held) (done : r.after.all s.opDone = true) :
    exec (.heldReleaseSend id) s = .next (((s.releaseOf (.troupe r.troupe) 6).2.setReq id
      { r with stage := .releasing, after := (s.releaseOf (.troupe r.troupe) 6).1 }).post (.heldReleaseSend id)) := by
  rw [exec_heldReq other there]
  unfold State.stepReq
  simp only [held, done, if_true]

theorem heldReq_writes (sent : r.stage = .sent) {sl u reg : Nat} {w : W64}
    (work : r.work = some (.sysWrite sl u reg w)) :
    exec (.heldReleaseSend id) s = .next ((s.setReq id { r with work := none }).at
      (Nat.max r.nb (s.tick + latency (coreSlice (keyOf r.troupe).core) sl)) (.systemRegisterWrite sl u reg w id)) := by
  rw [exec_heldReq other there]
  unfold State.stepReq State.runRequest
  simp only [sent, work]

end

/-! Requests that are complete. -/

section
variable {s : State} {req v : Nat} {r : Request} (there : s.req? req = some r)
include there

theorem exec_tlbinvComplete {k : TlbKind} {p : Nat} (work : r.work = some (.tlbinv k p v)) :
    exec (.tlbinvComplete req) s =
      .next (if s.tlbWaits req k p v then s.later (.tlbinvComplete req) else s.reply req 0) := by
  show execTlbinvComplete req s = _
  unfold execTlbinvComplete
  simp only [there, work]

theorem exec_rdcinvComplete (work : r.work = some .rdcinv) : exec (.rdcinvComplete req) s = .next (s.reply req 0) := by
  show execRdcinvComplete req s = _
  unfold execRdcinvComplete
  simp only [there, work, if_true]

theorem exec_pinComplete {lines : List Nat} {room : List (Nat × Nat)} (work : r.work = some (.pin v lines room)) :
    exec (.pinComplete req) s = .next (if r.status = 0 then
        (lines.foldl (fun (u : State) l =>
          let u1 := if (sfind l u.homes.l2).isSome then u else (u.chanAsk (some v) l false).l2Fill l v
          if u1.homes.anchoredBy l v then u1
          else (u1.anchor l v).setUsed (lineSlice l) v (u1.pinUsed (lineSlice l) v + 1)) s).reply req 0
      else s.reply req r.status) := by
  show execPinComplete req s = _
  unfold execPinComplete
  simp only [there, work]

end

/-! Tables and the calendar. -/

/-- A slice that is in no partition loads no table and reaches no queue. -/
theorem load_nowhere {s : State} {slice req : Nat} {val : W64} (nowhere : s.partOf slice = none) :
    ∀ e ∈ [Instr.nirtLoad slice val req, .xptblLoad slice val req, .peerrtLoad slice val req, .calendarLoad slice req,
      .qcmdEnable slice val req, .qcmdDisable slice val req], exec e s = .next (s.reply req replyRefused) := by
  intro e isin
  simp only [List.mem_cons, List.not_mem_nil, or_false] at isin
  rcases isin with rfl | rfl | rfl | rfl | rfl | rfl
  · show execNirtLoad slice val req s = _
    unfold execNirtLoad
    rw [nowhere]
  · show execXptblLoad slice val req s = _
    unfold execXptblLoad
    rw [nowhere]
  · show execPeerrtLoad slice val req s = _
    unfold execPeerrtLoad
    rw [nowhere]
  · show execCalendarLoad slice req s = _
    unfold execCalendarLoad
    rw [nowhere]
  · show execQcmdEnable slice val req s = _
    unfold execQcmdEnable
    rw [nowhere]
  · show execQcmdDisable slice val req s = _
    unfold execQcmdDisable
    rw [nowhere]

section
variable {s : State} {slice req p : Nat} {val : W64} {ws : List W64} (its : s.partOf slice = some p)
include its

theorem exec_nirtLoad (read : s.tableWords p (val.toNat / 2 * 2) 128 = some ws) : exec (.nirtLoad slice val req) s =
    .next (if (ws.zipIdx.all fun e => s.routeEntryOk p slice e.2 e.1) = true then
        ((s.setFab { s.fab with routes := putTable s.fab.routes (routeKey slice) ws }).recheck p).reply req replyOk
      else s.reply req replyRefused) := by
  show execNirtLoad slice val req s = _
  unfold execNirtLoad
  simp only [its, read]

theorem exec_xptblLoad (read : s.tableWords p (val.toNat / 2 * 2) 128 = some ws) : exec (.xptblLoad slice val req) s =
    .next (if ((List.range 64).all fun i => exportOk (dword ws (2 * i)) (dword ws (2 * i + 1))) = true then
        (s.modPart p fun x => { x with exports := putTable [] (fun i => i) ws }).reply req replyOk
      else s.reply req replyRefused) := by
  show execXptblLoad slice val req s = _
  unfold execXptblLoad
  simp only [its, read]
  rfl

theorem exec_peerrtLoad (read : s.tableWords p (val.toNat / 2 * 2) 4096 = some ws) :
    exec (.peerrtLoad slice val req) s =
    .next (if ((List.range 1024).all fun m => s.peerEntryOk p slice ((ws.drop (4 * m)).take 4)) = true then
        ((s.setFab { s.fab with
          peerRoutes := putTable s.fab.peerRoutes (fun i => peerKey slice 0 i) ws }).recheck p).reply req replyOk
      else s.reply req replyRefused) := by
  show execPeerrtLoad slice val req s = _
  unfold execPeerrtLoad
  simp only [its, read]

variable {x : Partition} (there : sfind p s.pkg.parts = some x)
include there

theorem calendarLoad_busy (waits : x.calNext.isSome = true) :
    exec (.calendarLoad slice req) s = .next (s.reply req replyBusy) := by
  show execCalendarLoad slice req s = _
  unfold execCalendarLoad State.part?
  simp only [its, there, waits, if_true]

/-- A calendar is loaded where none waits. -/
theorem exec_calendarLoad {d : Nat} (none : x.calNext = none)
    (place : s.ppaMem p (s.reg slice 0 0xC2).toNat = some d) : exec (.calendarLoad slice req) s =
    .next (if (((List.range 16).any fun i => s.homes.badRead (lineOf d + i) 0) ||
        !calendarOk x.calSlots (memBytes s.homes.mem d 1024)) = true then s.reply req replyRefused
      else (s.setPart p { x with calNext := some (calendarOf (memBytes s.homes.mem d 1024)) }).reply req replyOk) := by
  show execCalendarLoad slice req s = _
  unfold execCalendarLoad State.part?
  simp only [its, there, none, place, Option.isSome_none, Bool.false_eq_true, if_false]

end

/-! Queues. -/

/-- The command of a queue is over once it has run. -/
theorem qcmdOver_eq (s : State) (p : Nat) :
    s.qcmdOver p = s.modPart p fun x => { x with qcmd := false } := rfl

section
variable {s : State} {slice req p q : Nat} {val : W64} (its : s.partOf slice = some p)
  (taken : s.entryRefused p q = []) (small : q < 4096)
include its taken small

section
variable {es : List W64} (command : val = BitVec.ofNat 64 (2 ^ 12 + q)) (read : (s.qcmdOver p).readEntry p q = some es)
include command read

/-- Whether a queue is in its table and ACTIVE. -/
def isActive (o : Option Queue) : Bool := match o with
  | some y => decide (y.state = .active)
  | none => false

theorem exec_qcmdEnable : exec (.qcmdEnable slice val req) s =
    (let u := s.qcmdOver p
     let y : Queue := ⟨es, .active, 0, es.getD 5 0, false⟩
     .next (if isActive (u.queue? p q) = true ∨ y.bad = true ∨ (y.priv ≠ .h ∧ u.vfState p y.vf ≠ 1) then
         u.reply req replyRefused
       else ((u.writeState p q y).reply req replyOk).post (.ticketFetch p q))) := by
  have value : val.toNat = 2 ^ 12 + q := by rw [command, BitVec.toNat_ofNat]; omega
  have queue : (2 ^ 12 + q) % 4096 = q := by omega
  have inRange : ¬ 2 ^ 14 ≤ 2 ^ 12 + q := by omega
  show execQcmdEnable slice val req s = _
  unfold execQcmdEnable
  simp only [its, value, queue, taken, read, inRange, ne_eq, not_true, if_false, false_or]
  rfl

end

section
variable (command : val = BitVec.ofNat 64 (2 * 2 ^ 12 + q))
include command

/-- A queue's tickets that are not placed end, and the command with them. -/
def endTickets (s : State) (p q req : Nat) : State :=
  ((s.ticketsOf p q).foldl (fun u e =>
    if e.2.placed = 0 ∧ e.2.status = 0 then u.endTicket e.1 e.2 tkCancelled else u) s).reply req replyOk

theorem qcmdDisable_listed {z : Queue} (listed : (s.qcmdOver p).queue? p q = some z) :
    exec (.qcmdDisable slice val req) s = .next (endTickets
      (((s.qcmdOver p).unlist (.producer p q)).writeState p q { z with state := .off }) p q req) := by
  have value : val.toNat = 2 * 2 ^ 12 + q := by rw [command, BitVec.toNat_ofNat]; omega
  have queue : (2 * 2 ^ 12 + q) % 4096 = q := by omega
  have inRange : ¬ 2 ^ 14 ≤ 2 * 2 ^ 12 + q := by omega
  show execQcmdDisable slice val req s = _
  unfold execQcmdDisable
  simp only [its, value, queue, taken, listed, inRange, ne_eq, not_true, if_false]
  rfl

theorem qcmdDisable_unlisted {es : List W64} (unlisted : (s.qcmdOver p).queue? p q = none)
    (read : (s.qcmdOver p).readEntry p q = some es) : exec (.qcmdDisable slice val req) s = .next (endTickets
      ((s.qcmdOver p).writeState p q ⟨es, .off, bitsOf (dword es 4) 20 4, es.getD 5 0, false⟩) p q req) := by
  have value : val.toNat = 2 * 2 ^ 12 + q := by rw [command, BitVec.toNat_ofNat]; omega
  have queue : (2 * 2 ^ 12 + q) % 4096 = q := by omega
  have inRange : ¬ 2 ^ 14 ≤ 2 * 2 ^ 12 + q := by omega
  show execQcmdDisable slice val req s = _
  unfold execQcmdDisable
  simp only [its, value, queue, taken, unlisted, read, inRange, ne_eq, not_true, if_false]
  rfl

end

end

/-- Settles O52. -/
theorem requestEvents : Obligations.RequestEvents := by
  intro s id slice req p v st val o r k lines room ws x d refused
  refine ⟨heldTs_releases, heldTs_sends, heldTs_again,
    heldReq_releases, fun sl u reg w other there sent work => heldReq_writes other there sent work,
    fun there work idle => ?tlb, fun there work busy => ?tlbWaits, exec_rdcinvComplete,
    fun there work failed => (exec_pinComplete there work).trans (congrArg _ (if_neg failed)),
    fun there work ok => (exec_pinComplete there work).trans (congrArg _ (if_pos ok)), load_nowhere,
    fun its read => ⟨fun good => ?nirt, fun bad => ?nirtBad⟩, fun its read =>
      ⟨fun good => ?xptbl, fun bad => ?xptblBad⟩,
    fun its read => ⟨fun good => ?peerrt, fun bad => ?peerrtBad⟩,
    fun its there => ⟨calendarLoad_busy its there, fun none place => ⟨fun good => ?calendar, fun bad => ?calendarBad⟩⟩,
    fun q es its command small taken read => ⟨fun unlisted sound allowed => ?enables, fun bad => ?unsound,
      fun z listed active => ?active⟩,
    fun q its command small taken => ⟨fun z => qcmdDisable_listed its taken small command,
      fun es => qcmdDisable_unlisted its taken small command⟩⟩
  case tlb => exact (exec_tlbinvComplete there work).trans (congrArg _ (if_neg (Bool.not_eq_true _ ▸ idle)))
  case tlbWaits => exact (exec_tlbinvComplete there work).trans (congrArg _ (if_pos busy))
  case nirt => exact (exec_nirtLoad its read).trans (congrArg _ (if_pos (List.all_eq_true.mpr good)))
  case nirtBad => exact (exec_nirtLoad its read).trans (congrArg _ (if_neg fun all => bad (List.all_eq_true.mp all)))
  case xptbl =>
    exact (exec_xptblLoad its read).trans (congrArg _ (if_pos (List.all_eq_true.mpr fun i isin =>
      good i (List.mem_range.mp isin))))
  case xptblBad =>
    exact (exec_xptblLoad its read).trans (congrArg _ (if_neg fun all => bad fun i small =>
      List.all_eq_true.mp all i (List.mem_range.mpr small)))
  case peerrt =>
    exact (exec_peerrtLoad its read).trans (congrArg _ (if_pos (List.all_eq_true.mpr fun i isin =>
      good i (List.mem_range.mp isin))))
  case peerrtBad =>
    exact (exec_peerrtLoad its read).trans (congrArg _ (if_neg fun all => bad fun i small =>
      List.all_eq_true.mp all i (List.mem_range.mpr small)))
  case calendar =>
    refine (exec_calendarLoad its there none place).trans (congrArg _ (if_neg ?_))
    simpa using good
  case calendarBad =>
    refine (exec_calendarLoad its there none place).trans (congrArg _ (if_pos ?_))
    exact Decidable.byContradiction fun fine => bad (by simpa using fine)
  case enables =>
    refine (exec_qcmdEnable its taken small command read).trans (congrArg _ (if_neg ?_))
    rintro (active | unsound | ⟨virtual, off⟩)
    · rw [qcmdOver_eq, unlisted] at active
      exact absurd active Bool.false_ne_true
    · exact absurd (unsound.symm.trans sound) (by decide)
    · exact allowed.elim virtual off
  case unsound => exact (exec_qcmdEnable its taken small command read).trans (congrArg _ (if_pos (.inr bad)))
  case active =>
    refine (exec_qcmdEnable its taken small command read).trans (congrArg _ (if_pos (.inl ?_)))
    rw [qcmdOver_eq, listed]
    exact decide_eq_true active

end Sys2Proof.Machine
end

section
/-! PROOFS. The ringmaster's events: tickets, the calendar and budgets (R366 to R376, R378 to R384). -/

namespace Sys2Proof.Machine

/-! Fetching. -/

/-- What a fetch does with what it read. -/
def ticketRead (part q : Nat) (x : Queue) (pr : W64) : Got × State → State
  | (.none, s) => s.queueError part q x 1 pr.toNat
  | (.again ls, s) => s.tryAgain ls (.ticketFetch part q)
  | (.words _ true, s) => s.queueError part q x 3 pr.toNat
  | (.words ws false, s) =>
    ((((s.unlist (.producer part q)).setQueue part q
      { x with ci := x.ci + 1, entry := x.entry.set 5 (x.ci + 1) }).writeEntryWord part q 5 (x.ci + 1)).newTicket part q
      (x.base + 128 * (x.ci.toNat % 2 ^ x.lsz)) ws).post (.ticketFetch part q)

section
variable {s : State} {part q : Nat} {x : Queue} (listed : s.queue? part q = some x ∧ x.state = .active)
include listed

section
variable (first : s.isListed (.producer part q) = false)
include first

theorem fetch_names {loc : TsLoc} {va : Option TsName}
    (named : s.nameIn (s.firstSlice part) (x.regime part) (x.entry.getD 2 0) = .to loc va) :
    exec (.ticketFetch part q) s =
      .next (s.addWaiter (.producer part q) loc va (x.regime part).flowVf part (x.ci + 1)) := by
  show execTicketFetch part q s = _
  unfold execTicketFetch
  simp only [listed.1, listed.2, first, named, ne_eq, not_true, Bool.not_false, if_false, if_true]

theorem fetch_unnamed {k : BitVec 8} {b : Nat}
    (named : s.nameIn (s.firstSlice part) (x.regime part) (x.entry.getD 2 0) = .bad k b) :
    exec (.ticketFetch part q) s = .next (s.queueError part q x 4 0) := by
  show execTicketFetch part q s = _
  unfold execTicketFetch
  simp only [listed.1, listed.2, first, named, ne_eq, not_true, Bool.not_false, if_false, if_true]
  rfl

end

section
variable {pr : W64} {bad : Bool} (again : s.isListed (.producer part q) = true)
  (report : s.lastReport (.producer part q) = some (pr, bad))
include again report

/-- What a fetch does with the producer's value: it comes from a poisoned one, or is too far from the consumer's, or
there
is nothing to fetch, or a ticket is read. -/
theorem fetch_reported : exec (.ticketFetch part q) s = .next (
    if bad then s.queueError part q x 3 pr.toNat
    else if ((2 ^ x.lsz : Nat) : Int) < (pr - x.ci).toInt ∨ (pr - x.ci).toInt < -((2 ^ 62 : Nat) : Int) then
      s.queueError part q x 2 pr.toNat
    else if (pr - x.ci).toInt ≤ 0 ∨ s.ticketRoom part q = false then s
    else if 2 ^ 57 < x.base + 128 * 2 ^ x.lsz then s.queueError part q x 1 pr.toNat
    else ticketRead part q x pr
      (s.read128 (s.firstSlice part) (x.regime part) (x.base + 128 * (x.ci.toNat % 2 ^ x.lsz)))) := by
  show execTicketFetch part q s = _
  unfold execTicketFetch
  simp only [listed.1, again, report, Bool.not_true, Bool.false_eq_true, if_false]
  rw [if_neg (not_not_intro listed.2)]
  rfl

end

end

/-- A producer that lies ahead, but no more than the queue is long, is no overrun. -/
theorem in_reach {size ahead : Int} (more : 0 < ahead) (few : ahead ≤ size) :
    ¬ (size < ahead ∨ ahead < -((2 ^ 62 : Nat) : Int)) := by
  omega

theorem some_room {ahead : Int} {room : Bool} (more : 0 < ahead) (free : room = true) :
    ¬ (ahead ≤ 0 ∨ room = false) := by
  rintro (behind | full)
  · exact absurd more (Int.not_lt.mpr behind)
  · exact absurd (full.symm.trans free) Bool.false_ne_true

/-! Joins. -/

section
variable {s : State} {id : Nat} {t : Ticket} (waits : s.ticket? id = some t ∧ t.state = .waiting ∧ t.status = 0)
include waits

theorem ready_joined (done : t.joined = true ∨ dword t.words 2 = 0) :
    exec (.ticketReady id) s = .next (s.joined id t) := by
  obtain ⟨there, state, status⟩ := waits
  have joined : (t.joined || decide (dword t.words 2 = 0)) = true := by simpa using done
  show execTicketReady id s = _
  unfold execTicketReady
  simp only [there, state, status, joined, ne_eq, not_true, or_self, if_false, if_true]

section
variable (unjoined : t.joined = false) (has : dword t.words 2 ≠ 0)
include unjoined has

theorem ready_names (first : s.isListed (.join id) = false) {loc : TsLoc} {va : Option TsName}
    (named : s.nameIn (s.firstSlice t.part) (((s.queue? t.part t.queue).getD noQueue).regime t.part) (t.words.getD 2 0)
      =
      .to loc va) : exec (.ticketReady id) s = .next (s.addWaiter (.join id) loc va
        (((s.queue? t.part t.queue).getD noQueue).regime t.part).flowVf t.part (t.words.getD 3 0)) := by
  obtain ⟨there, state, status⟩ := waits
  show execTicketReady id s = _
  unfold execTicketReady
  simp only [there, state, status, unjoined, has, first, named, ne_eq, not_true, or_self, if_false, decide_false,
    Bool.or_self,
    Bool.false_eq_true, Bool.not_false, if_true]

/-- What a join does with the value of its turnstile. -/
theorem ready_reported (again : s.isListed (.join id) = true) {pr : W64} {bad : Bool}
    (report : s.lastReport (.join id) = some (pr, bad)) : exec (.ticketReady id) s = .next (
      if bad then s.endTicket id t tkPoisoned
      else if outOfRange pr (t.words.getD 3 0) then s.endTicket id t tkRange
      else if satisfied pr (t.words.getD 3 0) then s.joined id t
      else s) := by
  obtain ⟨there, state, status⟩ := waits
  show execTicketReady id s = _
  unfold execTicketReady
  simp only [there, state, status, unjoined, has, again, report, ne_eq, not_true, or_self, if_false, decide_false,
    Bool.or_self,
    Bool.false_eq_true, Bool.not_true]

end

end

/-! Completion. -/

theorem exec_ticketComplete {s : State} {id : Nat} {t : Ticket} (there : s.ticket? id = some t) :
    exec (.ticketComplete id) s = .next (if !t.over then s
      else if s.finishAgain t ≠ [] then s.tryAgain (s.finishAgain t) (.ticketComplete id) else s.finish id t) := by
  show execTicketComplete id s = _
  unfold execTicketComplete
  rw [there]

theorem modPart_tickets (s : State) (p : Nat) (f : Partition → Partition) :
    (s.modPart p f).pkg.tickets = s.pkg.tickets := by
  unfold State.modPart
  split <;> rfl

theorem foldl_pkg {A : Type} {f : State → A → State} (h : ∀ s a, (f s a).pkg = s.pkg) (xs : List A) (s : State) :
    (xs.foldl f s).pkg = s.pkg :=
  List.foldlRecOn xs f (motive := fun u => u.pkg = s.pkg) rfl fun u same a _ => (h u a).trans same

/-- A ticket that is finished is no more. -/
theorem finish_gone (s : State) (id : Nat) (t : Ticket) : sfind id (s.finish id t).pkg.tickets = none := by
  unfold State.finish State.kickQueues
  rw [foldl_pkg fun u e => by split <;> simp only [postOnce_pkg], foldl_pkg fun u e => by split <;> simp only
    [postOnce_pkg],
    modPart_tickets]
  exact sfind_sdel_self ..

/-! Placement. -/

section
variable {s : State} {slice part : Nat} {p : Partition} (its : s.partOf slice = some part)
  (there : sfind part s.pkg.parts = some p) (runs : s.quiesced part = false)
include its there runs

/-- The candidates of a slice once the units of the launch that is gathered are kept. -/
def State.candsOf (s : State) (slice part : Nat) : List Cand := (s.keepShares slice part).cands slice part

/-- A partition that has looked at the candidates of a slice. -/
def State.looked (s : State) (slice part : Nat) (p : Partition) : Partition :=
  p.gain slice (toKeys ((s.candsOf slice part).map fun c => procKey c.vf c.proc))

theorem placement_none (h : (s.looked slice part p).choose slice (s.candsOf slice part) = none) :
    exec (.placement slice) s =
      .next (((s.keepShares slice part).repeats slice part).setPart part (s.looked slice part p)) := by
  show execPlacement slice s = _
  unfold execPlacement State.part?
  unfold State.looked State.candsOf at h
  simp only [its, there, runs, Bool.false_eq_true, if_false, h]
  rfl

theorem placement_places {c : Cand} (h : (s.looked slice part p).choose slice (s.candsOf slice part) = some c) :
    exec (.placement slice) s = .next ((((s.keepShares slice part).repeats slice part).setPart part
      ((s.looked slice part p).served slice c)).place c) := by
  show execPlacement slice s = _
  unfold execPlacement State.part?
  unfold State.looked State.candsOf at h
  simp only [its, there, runs, Bool.false_eq_true, if_false, h]
  rfl

end

/-! Slots, periods and rounds. -/

theorem nextMultiple_of_dvd {n t : Nat} (h : t % n = 0) : nextMultiple n t = t + n := by
  unfold nextMultiple
  rw [Nat.add_mul, Nat.div_mul_cancel (Nat.dvd_of_mod_eq_zero h), Nat.one_mul]

theorem setBucket_traffic (s : State) (slice vf units : Nat) : OnlyTraffic s (s.setBucket slice vf units) :=
  (setReg_traffic s ..).trans (setReg_traffic _ ..)

theorem refill_traffic (s : State) (slice vf : Nat) : OnlyTraffic s (s.refill slice vf) := by
  unfold State.refill
  refine OnlyTraffic.trans ?_ (setBucket_traffic ..)
  split
  · exact .trans (.trans (.trans (setReg_traffic ..) (setReg_traffic ..)) (setReg_traffic ..)) (setBucket_traffic ..)
  · exact .refl _

theorem calendarSlot_again {s : State} (h : s.tick % 4 ≠ 0) : exec .calendarSlotStart s = .next s := by
  have again : s.tick % 4 ≠ 0 ∨ s.timers.contains (nextMultiple 4 s.tick, Ev.calendarSlotStart) = true := .inl h
  show execCalendarSlotStart s = _
  unfold execCalendarSlotStart
  rw [if_pos again]

/-- Buckets gain their rate, and the slices may deliver again. -/
def State.slotGains (s : State) : State :=
  let s1 := ((List.range 16).filter fun sl => (s.partOf sl).isSome).foldl
    (fun s sl => (s.metered sl).foldl (fun s v => s.refill sl v) s) s
  s1.setPkg { s1.pkg with delivered := [] }

/-- What a slot does: after its gains, ring entries are delivered and packets may leave. -/
def State.slotWork (s : State) : State :=
  let s3 := (toKeys (s.slotGains.pkg.ring.map (·.slice))).foldl (fun s sl => s.postOnce (.ringEntryDelivery sl))
    s.slotGains
  s3.gtdWaiting.foldl (fun s i => s.postOnce (.switchForward i)) s3

theorem slotGains_traffic (s : State) : OnlyTraffic s s.slotGains := by
  unfold State.slotGains
  refine OnlyTraffic.trans (u := ((List.range 16).filter fun sl => (s.partOf sl).isSome).foldl
    (fun s sl => (s.metered sl).foldl (fun s v => s.refill sl v) s) s) ?_ rfl
  exact .foldl (fun s sl => .foldl (fun s v => refill_traffic s sl v) _ _) _ _

theorem slotWork_traffic (s : State) : OnlyTraffic s s.slotWork :=
  (slotGains_traffic s).trans (.trans (.foldl (fun s sl => postOnce_traffic s (.ringEntryDelivery sl)) _ _)
    (.foldl (fun s i => postOnce_traffic s (.switchForward i)) _ _))

theorem slotWork_delivered (s : State) : s.slotWork.pkg.delivered = [] := by
  unfold State.slotWork
  rw [foldl_pkg fun u i => postOnce_pkg u _, foldl_pkg fun u sl => postOnce_pkg u _]
  rfl

theorem mem_at_timers {s : State} {n : Nat} (e : Ev) (later : s.tick < n) : (n, e) ∈ (s.at n e).timers := by
  unfold State.at
  rw [if_neg (Nat.not_le.mpr later)]
  exact List.mem_append_right _ List.mem_cons_self

theorem calendarSlot_starts {s : State} (h : s.tick % 4 = 0) (first : (s.tick + 4, Ev.calendarSlotStart) ∉ s.timers) :
    ∃ s', exec .calendarSlotStart s = .next s' ∧ s'.pkg.delivered = [] ∧ s'.homes = s.homes ∧
      (s.tick + 4, Ev.calendarSlotStart) ∈ s'.timers := by
  have next := nextMultiple_of_dvd h
  have starts : ¬ (s.tick % 4 ≠ 0 ∨ s.timers.contains (nextMultiple 4 s.tick, Ev.calendarSlotStart) = true) := by
    rw [next]
    rintro (bad | isin)
    · exact bad h
    · exact first (List.contains_iff_mem.mp isin)
  have does : exec .calendarSlotStart s = .next (s.slotWork.at (s.tick + 4) .calendarSlotStart) := by
    show execCalendarSlotStart s = _
    unfold execCalendarSlotStart
    rw [if_neg starts, next]
    rfl
  have work := slotWork_traffic s
  refine ⟨_, does, ?_, ((at_traffic ..).homes).trans work.homes, mem_at_timers _ (by rw [work.tick]; omega)⟩
  rw [show (s.slotWork.at (s.tick + 4) .calendarSlotStart).pkg = s.slotWork.pkg by unfold State.at; split <;> rfl]
  exact slotWork_delivered s

theorem calendarPeriod_again {s : State} (h : s.tick % 4096 ≠ 0) : exec .calendarPeriodStart s = .next s := by
  have again : s.tick % 4096 ≠ 0 ∨ s.timers.contains (nextMultiple 4096 s.tick, Ev.calendarPeriodStart) = true := .inl h
  show execCalendarPeriodStart s = _
  unfold execCalendarPeriodStart
  rw [if_pos again]

theorem calendarPeriod_starts {s : State} (h : s.tick % 4096 = 0)
    (first : (s.tick + 4096, Ev.calendarPeriodStart) ∉ s.timers) : exec .calendarPeriodStart s =
      .next (((s.pkg.parts.map (·.1)).foldl State.startPeriod s).at (s.tick + 4096) .calendarPeriodStart) := by
  have next := nextMultiple_of_dvd h
  have starts : ¬ (s.tick % 4096 ≠ 0 ∨ s.timers.contains (nextMultiple 4096 s.tick, Ev.calendarPeriodStart) =
    true) := by
    rw [next]
    rintro (bad | isin)
    · exact bad h
    · exact first (List.contains_iff_mem.mp isin)
  show execCalendarPeriodStart s = _
  unfold execCalendarPeriodStart
  rw [if_neg starts, next]

/-- Balances that are renewed one after another. -/
theorem sget_renewed (f : Nat → Int → Int) (v : Nat) : ∀ (ks : List Nat) (m : Sparse Int), ks.Nodup →
    sget 0 v (ks.foldl (fun m k => sput 0 k (f k (sget 0 k m)) m) m) = if v ∈ ks then f v (sget 0 v m) else sget 0 v m
  | [], m, _ => by simp
  | k :: ks, m, distinct => by
    obtain ⟨new, rest⟩ := List.nodup_cons.mp distinct
    rw [List.foldl_cons, sget_renewed f v ks _ rest]
    by_cases same : v = k
    · subst same
      simp [new]
    · rw [sget_sput_ne _ same]
      simp [same]

theorem bitsOf_top (w : W64) : bitsOf w.toNat 48 16 = w.toNat / 2 ^ 48 := by
  have := w.isLt
  unfold bitsOf
  omega

/-- The balances of a partition once a round with some shares begins. -/
def renewedBy (share : Nat → Nat) (m : Sparse Int) : Sparse Int :=
  (List.range 32).foldl (fun m v => sput 0 v (renew (sget 0 v m) (share v)) m) m

theorem sget_renewedBy (share : Nat → Nat) (m : Sparse Int) {v : Nat} (small : v < 32) :
    sget 0 v (renewedBy share m) = renew (sget 0 v m) (share v) :=
  (sget_renewed (fun v bal => renew bal (share v)) v _ m List.nodup_range).trans (if_pos (List.mem_range.mpr small))

theorem exec_roundStart {s : State} {part : Nat} {p : Partition} (there : sfind part s.pkg.parts = some p) :
    ∃ sched, exec (.roundStart part) s = .next (s.setPart part { p with
      sched := sched
      round := (s.reg (s.firstSlice part) 0 0xC8).toNat % 256
      tu := renewedBy (fun v => bitsOf (s.reg (s.firstSlice part) 0 (0xE0 + v)).toNat 48 16) p.tu
      eu := renewedBy (fun v => bitsOf (s.reg (s.firstSlice part) 0 (0xE0 + v)).toNat 24 24) p.eu }) := by
  show ∃ sched, execRoundStart part s = _
  unfold execRoundStart State.part?
  simp only [there]
  exact ⟨_, rfl⟩

theorem roundStart_renews {s : State} {part : Nat} {p : Partition} (there : sfind part s.pkg.parts = some p) :
    ∃ s' p', exec (.roundStart part) s = .next s' ∧ sfind part s'.pkg.parts = some p' ∧
      p'.round = (s.reg (s.firstSlice part) 0 0xC8).toNat % 256 ∧
      (∀ v < 32, sget 0 v p'.tu = sat32 (min (sget 0 v p.tu) 0 +
        (((s.reg (s.firstSlice part) 0 (0xE0 + v)).toNat / 2 ^ 48 : Nat) : Int))) ∧
      (∀ v < 32, sget 0 v p'.eu = sat32 (min (sget 0 v p.eu) 0 +
        (((s.reg (s.firstSlice part) 0 (0xE0 + v)).toNat / 2 ^ 24 % 2 ^ 24 : Nat) : Int))) := by
  obtain ⟨sched, does⟩ := exec_roundStart there
  refine ⟨_, _, does, sfind_sset_self .., rfl, fun v small => ?_, fun v small => ?_⟩
  · rw [sget_renewedBy _ _ small, bitsOf_top]
    rfl
  · rw [sget_renewedBy _ _ small]
    rfl

/-- Settles O53. -/
theorem ringmasterEvents : Obligations.RingmasterEvents := by
  intro s s1 part q id slice x t p pr bad ws first rg active ready ahead size a fetch
  refine ⟨fun none => ?gone, fun loc va listed new named => fetch_names listed new named,
    fun k b listed new named => fetch_unnamed listed new named,
    fun h isBad => ?bad, fun h fine far => ?overrun, fun h fine low behind => ?behind,
    fun h fine more few full => ?full, fun h fine more few room beyond => ?beyond,
    fun h fine more few room inside read => ?poisoned, fun h fine more few room inside read => ?fetched,
    ⟨ready_joined, fun waits unjoined has again => ⟨fun report => ?joinPoisoned, fun report outside => ?range,
      fun report inside done => ?satisfied, fun report inside wait => ?unsatisfied⟩,
      fun loc va waits unjoined has new named => ready_names waits unjoined has new named⟩,
    fun there goes => ?goes, fun there ends again => ?again, fun there ends free => ?ends,
    fun none => ?nowhere, fun its there runs => ⟨placement_none its there runs, fun c => placement_places its there
      runs⟩,
    calendarSlot_again, calendarSlot_starts, calendarPeriod_again, calendarPeriod_starts, roundStart_renews⟩
  case gone =>
    show execTicketFetch part q s = _
    unfold execTicketFetch
    rw [none]
  case bad =>
    obtain ⟨on, listed, report⟩ := h
    refine (fetch_reported on listed report).trans (congrArg _ ?_)
    rw [if_pos isBad]
  case overrun =>
    obtain ⟨on, listed, report⟩ := h
    refine (fetch_reported on listed report).trans (congrArg _ ?_)
    rw [if_neg (ne_true_of_eq_false fine), if_pos (.inl far)]
  case behind =>
    obtain ⟨on, listed, report⟩ := h
    have near : ¬ (size < ahead ∨ ahead < -((2 ^ 62 : Nat) : Int)) := by
      have : 0 ≤ size := Int.natCast_nonneg _
      omega
    refine (fetch_reported on listed report).trans (congrArg _ ?_)
    rw [if_neg (ne_true_of_eq_false fine), if_neg near, if_pos (.inl behind)]
  case full =>
    obtain ⟨on, listed, report⟩ := h
    refine (fetch_reported on listed report).trans (congrArg _ ?_)
    rw [if_neg (ne_true_of_eq_false fine), if_neg (in_reach more few), if_pos (.inr full)]
  case beyond =>
    obtain ⟨on, listed, report⟩ := h
    refine (fetch_reported on listed report).trans (congrArg _ ?_)
    rw [if_neg (ne_true_of_eq_false fine), if_neg (in_reach more few), if_neg (some_room more room), if_pos beyond]
  case poisoned =>
    obtain ⟨on, listed, report⟩ := h
    refine (fetch_reported on listed report).trans (congrArg _ ?_)
    rw [if_neg (ne_true_of_eq_false fine), if_neg (in_reach more few), if_neg (some_room more room),
      if_neg (Nat.not_lt.mpr inside), read]
    rfl
  case fetched =>
    obtain ⟨on, listed, report⟩ := h
    refine (fetch_reported on listed report).trans (congrArg _ ?_)
    rw [if_neg (ne_true_of_eq_false fine), if_neg (in_reach more few), if_neg (some_room more room),
      if_neg (Nat.not_lt.mpr inside), read]
    rfl
  case joinPoisoned => rw [ready_reported waits unjoined has again report, if_pos rfl]
  case range => rw [ready_reported waits unjoined has again report, if_neg Bool.false_ne_true, if_pos outside]
  case satisfied =>
    rw [ready_reported waits unjoined has again report, if_neg Bool.false_ne_true, if_neg (ne_true_of_eq_false inside),
      if_pos done]
  case unsatisfied =>
    rw [ready_reported waits unjoined has again report, if_neg Bool.false_ne_true, if_neg (ne_true_of_eq_false inside),
      if_neg (ne_true_of_eq_false wait)]
  case goes => rw [exec_ticketComplete there, goes, Bool.not_false, if_pos rfl]
  case again => rw [exec_ticketComplete there, ends, Bool.not_true, if_neg Bool.false_ne_true, if_pos again]
  case ends =>
    refine ⟨_, ?_, rfl, finish_gone s id t⟩
    rw [exec_ticketComplete there, ends, Bool.not_true, if_neg Bool.false_ne_true, if_neg (not_not_intro free)]
  case nowhere =>
    show execPlacement slice s = _
    unfold execPlacement
    rw [none]

end Sys2Proof.Machine
end

section
/-! PROOFS. Snapshots, and the saving and restoring of troupes (R348 to R350, R389, R392, R395 to R397). -/

namespace Sys2Proof.Machine

/-! What only has events come. -/

/-- Only events have come or gone. -/
def OnlyEvents (s u : State) : Prop := { u with timers := s.timers, todo := s.todo } = s

namespace OnlyEvents

theorem refl (s : State) : OnlyEvents s s := rfl

theorem trans {s u v : State} (h : OnlyEvents s u) (g : OnlyEvents u v) : OnlyEvents s v := by
  unfold OnlyEvents at h g ⊢
  rw [← g] at h
  exact h

section
variable {s u : State} (h : OnlyEvents s u)
include h

theorem pkg : u.pkg = s.pkg := (congrArg State.pkg h :)
theorem regs : u.regs = s.regs := (congrArg State.regs h :)
theorem flight : u.flight = s.flight := (congrArg State.flight h :)

end

theorem foldl {A : Type} {f : State → A → State} (h : ∀ s a, OnlyEvents s (f s a)) (xs : List A) (s : State) :
    OnlyEvents s (xs.foldl f s) :=
  List.foldlRecOn xs f (motive := OnlyEvents s) (.refl s) fun u g a _ => g.trans (h u a)

end OnlyEvents

theorem at_events (s : State) (n : Nat) (e : Ev) : OnlyEvents s (s.at n e) := by
  unfold State.at
  split <;> rfl

theorem later_events (s : State) (e : Ev) : OnlyEvents s (s.later e) := at_events ..

theorem postOnce_events (s : State) (e : Ev) : OnlyEvents s (s.postOnce e) := by
  unfold State.postOnce
  split <;> rfl

theorem laterOnce_events (s : State) (e : Ev) : OnlyEvents s (s.laterOnce e) := by
  unfold State.laterOnce
  split
  · rfl
  · exact later_events ..

theorem placeAgain_events (s : State) (part : Nat) : OnlyEvents s (s.placeAgain part) :=
  OnlyEvents.foldl (f := fun s sl => s.laterOnce (.placement sl)) (fun s _ => laterOnce_events s _) _ s

theorem unquiesce_events (s : State) (part : Nat) : OnlyEvents s (s.unquiesce part) := by
  unfold State.unquiesce
  refine OnlyEvents.trans
    (OnlyEvents.trans (OnlyEvents.trans ?_ (.foldl (fun s b => postOnce_events s (.refill b)) _ _))
    (.foldl (fun s b => postOnce_events s (.blockStart b)) _ _)) (placeAgain_events ..)
  rfl

/-! Registers of a partition. -/

theorem reg_setReg_same (s : State) (j k r : Nat) (v : W64) (h : j = k ∨ s.reg k 0 r = v) :
    (s.setReg j 0 r v).reg k 0 r = v := by
  unfold State.reg State.setReg
  by_cases key : regKey k 0 r = regKey j 0 r
  · rw [key, sget_sput_self]
  · rw [sget_sput_ne _ key]
    exact h.resolve_left fun same => key (same ▸ rfl)

/-- A register that a partition has in every slice. -/
theorem reg_setPartReg {s : State} {part k : Nat} (r : Nat) (v : W64) (isin : k ∈ bitSet16 (s.smask part)) :
    (s.setPartReg part r v).reg k 0 r = v := by
  have all : ∀ (ks : List Nat) (u : State), k ∈ ks ∨ u.reg k 0 r = v →
      (ks.foldl (fun s sl => s.setReg sl 0 r v) u).reg k 0 r = v := by
    intro ks
    induction ks with
    | nil => exact fun u h => h.resolve_left List.not_mem_nil
    | cons j ks ih =>
      intro u h
      refine ih _ ?_
      rcases h with isin | same
      · rcases List.mem_cons.mp isin with rfl | later
        · exact .inr (reg_setReg_same u k k r v (.inl rfl))
        · exact .inl later
      · exact .inr (reg_setReg_same u j k r v (.inr same))
  exact all _ s (.inl isin)

/-! Snapshots. -/

section
variable {s : State} {part : Nat} {p : Partition} (there : sfind part s.pkg.parts = some p)
include there

/-- A snapshot that ends leaves its partition with none. -/
theorem endSnapshot_idle (result : Nat) :
    sfind part (s.endSnapshot part result).pkg.parts = some { p with snap := ⟨.idle, 0, [], 0⟩ } ∧
      (s.endSnapshot part result).regs = s.regs := by
  unfold State.endSnapshot State.part?
  rw [there]
  dsimp only
  have events := unquiesce_events (((s.setPart part { p with snap := ⟨.idle, 0, [], 0⟩ }).snapEntry part
    ((s.setPart part { p with snap := ⟨.idle, 0, [], 0⟩ }).firstSlice part) result 0 p.snap.cut)) part
  rw [events.pkg, events.regs]
  unfold State.snapEntry
  refine ⟨(congrArg (sfind part) (queueRing_parts ..)).trans (sfind_sset_self ..), ?_⟩
  unfold State.queueRing
  exact (postOnce_events _ _).regs

section
variable {slice : Nat} (its : s.partOf slice = some part) (val : W64) (req : Nat)
include its

theorem snapshotStart_busy (runs : p.snap.state ≠ .idle) :
    exec (.snapshotStart slice val req) s = .next (s.reply req replyBusy) := by
  show execSnapshotStart slice val req s = _
  unfold execSnapshotStart State.part?
  simp only [its, there, runs, ne_eq, not_false_eq_true, if_true]

section
variable (idle : p.snap.state = .idle)
include idle

theorem snapshotStart_refused (bad : s.snapOk part (val.toNat % 16) (val.toNat / 16 % 16) = false) :
    exec (.snapshotStart slice val req) s = .next (s.reply req replyRefused) := by
  have named : s.snapOk part (bitsOf val.toNat 0 4) (bitsOf val.toNat 4 4) = false := by
    rwa [bitsOf, Nat.pow_zero, Nat.div_one]
  show execSnapshotStart slice val req s = _
  unfold execSnapshotStart State.part?
  simp only [its, there, idle, named, ne_eq, not_true, if_false, Bool.not_false, if_true]

theorem snapshotStart_arms (good : s.snapOk part (val.toNat % 16) (val.toNat / 16 % 16) = true)
    (quick : val.toNat / 2 ^ 8 % 2 = 0) : exec (.snapshotStart slice val req) s =
      .next ((((s.setPartReg part 0xC4 (BitVec.ofNat 64 (val.toNat % 2 ^ 9))).setPart part
        { p with snap := ⟨.arming, 0, [], 0⟩ }).post (.snapshotCut part)).reply req replyOk) := by
  have named : s.snapOk part (bitsOf val.toNat 0 4) (bitsOf val.toNat 4 4) = true := by
    rwa [bitsOf, Nat.pow_zero, Nat.div_one]
  have none : bitN val.toNat 8 = false := by simpa [bitN] using quick
  show execSnapshotStart slice val req s = _
  unfold execSnapshotStart State.part?
  simp only [its, there, idle, named, none, ne_eq, not_true, if_false, Bool.not_true, Bool.false_eq_true,
    List.foldl_nil]

theorem snapshotAbort_idle : exec (.snapshotAbort slice req) s = .next (s.reply req replyOk) := by
  show execSnapshotAbort slice req s = _
  unfold execSnapshotAbort State.part?
  simp only [its, there, idle, if_true]

end

theorem snapshotAbort_ends (runs : p.snap.state ≠ .idle) :
    exec (.snapshotAbort slice req) s = .next ((s.endSnapshot part 1).reply req replyOk) := by
  show execSnapshotAbort slice req s = _
  unfold execSnapshotAbort State.part?
  simp only [its, there, runs, if_false]
  rfl

end

/-- What a snapshot that is being armed does. -/
theorem exec_snapshotCut (arming : p.snap.state = .arming) : exec (.snapshotCut part) s = .next (
    if p.snap.cut = 0 then
      if s.lacksFrames part then s.endSnapshot part 2
      else if s.armed part then
        (s.setPart part { p with snap := { p.snap with cut := ceilDiv (s.tick + 64) 4096 * 4096 } }).at
          (ceilDiv (s.tick + 64) 4096 * 4096) (.snapshotCut part)
      else s.laterOnce (.snapshotCut part)
    else if s.tick < p.snap.cut then s
    else if s.todo.any (fun e => !e.isCut) then s.post (.snapshotCut part)
    else ((s.setPart part { p with snap := { p.snap with state := .copying } }).placeAgain part).later
      (.snapshotComplete part)) := by
  show execSnapshotCut part s = _
  unfold execSnapshotCut State.part?
  simp only [there]
  rw [if_neg (not_not_intro arming)]
  rfl

theorem snapshotComplete_other (h : p.snap.state ≠ .copying) : exec (.snapshotComplete part) s = .next s := by
  show execSnapshotComplete part s = _
  unfold execSnapshotComplete State.part?
  simp only [there, h, ne_eq, not_false_eq_true, if_true]

end

/-- The next period's start, 64 ticks ahead at least. -/
theorem cut_bounds (t : Nat) : ceilDiv (t + 64) 4096 * 4096 % 4096 = 0 ∧ t + 64 ≤ ceilDiv (t + 64) 4096 * 4096 ∧
    ceilDiv (t + 64) 4096 * 4096 < t + 64 + 4096 := by
  have := Nat.div_mul_le_self (t + 64 + 4096 - 1) 4096
  unfold ceilDiv
  rw [if_neg (by decide)]
  omega

/-- While a snapshot copies, its partition keeps all but the lines that are copied. -/
def CopiesOnly (part : Nat) (p : Partition) (s u : State) : Prop :=
  u.regs = s.regs ∧ ∃ n, sfind part u.pkg.parts = some { p with snap := n }

theorem sfind_setPart (s : State) (part : Nat) (p : Partition) : sfind part (s.setPart part p).pkg.parts = some p :=
  sfind_sset_self ..

theorem CopiesOnly.setPart {part : Nat} {p : Partition} {s u : State} (regs : u.regs = s.regs) (n : Snapshot) :
    CopiesOnly part p s (u.setPart part { p with snap := n }) := ⟨regs, n, sfind_setPart ..⟩

/-- A line of one band is copied to its place in the other, where it is still marked. -/
def State.copyMarked (s : State) (part : Nat) : Option Nat → Option Nat → State
  | some source, some dest => match s.part? part with
    | some p => if kmem source p.snap.copied then s
      else (s.setHomes (s.homes.copyLine source dest)).setPart part
        { p with snap := { p.snap with
          copied := kadd source p.snap.copied
          gwct := Nat.max p.snap.gwct (s.writeTick dest) } }
    | none => s
  | _, _ => s

/-- The function is unfolded before it is applied: the kernel would otherwise compute where a line lies in its band. -/
theorem snapLine_eq (s : State) (part : Nat) (a b : Band) (o : Nat) :
    s.snapLine part a b o = s.copyMarked part (bandLine a o) (bandLine b o) := by
  suffices h : ∀ f, f = State.snapLine → f s part a b o = s.copyMarked part (bandLine a o) (bandLine b o) from h _ rfl
  intro f unfolded
  delta State.snapLine at unfolded
  simp only [unfolded]
  generalize bandLine a o = source
  generalize bandLine b o = dest
  rcases source with - | source
  · rfl
  rcases dest with - | dest
  · rfl
  unfold State.copyMarked
  rcases s.part? part with - | p <;> rfl

theorem snapLine_copies {part : Nat} {p : Partition} {s u : State} (h : CopiesOnly part p s u) (a b : Band) (o : Nat) :
    CopiesOnly part p s (u.snapLine part a b o) := by
  obtain ⟨regs, n, there⟩ := h
  rw [snapLine_eq]
  rcases bandLine a o with - | source
  · exact ⟨regs, n, there⟩
  rcases bandLine b o with - | dest
  · exact ⟨regs, n, there⟩
  unfold State.copyMarked State.part?
  simp only [there]
  split
  · exact ⟨regs, n, there⟩
  · exact .setPart (u := u.setHomes _) regs _

/-- The copies of a snapshot, line by line. -/
def State.linesCopied (s : State) (part : Nat) : State :=
  match s.bandAt part (s.snapBands part).1, s.bandAt part (s.snapBands part).2 with
  | some a, some b =>
    (toKeys (bandOffsets a s.homes.support ++ bandOffsets b s.homes.support)).foldl (fun s o => s.snapLine part a b o) s
  | _, _ => s

theorem linesCopied_only {s : State} {part : Nat} {p : Partition} (there : sfind part s.pkg.parts = some p) :
    CopiesOnly part p s (s.linesCopied part) := by
  have start : CopiesOnly part p s s := ⟨rfl, p.snap, there⟩
  unfold State.linesCopied
  split
  · exact List.foldlRecOn _ _ (motive := CopiesOnly part p s) start fun u h o _ => snapLine_copies h _ _ o
  · exact start

theorem addAfter_events (s : State) (slice part vf : Nat) (loc : TsLoc) (name : Option TsName) (amt nb : Nat)
    (ops : List Nat) : (s.addAfter slice part vf loc name amt nb ops).pkg = s.pkg ∧
      (s.addAfter slice part vf loc name amt nb ops).regs = s.regs := ⟨rfl, rfl⟩

theorem snapshotComplete_ends {s : State} {part : Nat} {p : Partition} (there : sfind part s.pkg.parts = some p)
    (copying : p.snap.state = .copying) : ∃ s' p', exec (.snapshotComplete part) s = .next s' ∧
      sfind part s'.pkg.parts = some p' ∧ p' = { p with snap := ⟨.idle, 0, [], 0⟩ } ∧
      (∀ sl < 16, p.smask.getLsbD sl = true → s'.reg sl 0 0xC9 = BitVec.ofNat 64 p.snap.cut) := by
  obtain ⟨_, n, left⟩ := linesCopied_only there
  have after : sfind part ((s.linesCopied part).setPartReg part 0xC9 (BitVec.ofNat 64 p.snap.cut)).pkg.parts =
      some { p with snap := n } := (congrArg (fun k => sfind part k.parts) (setPartReg_pkg ..)).trans left
  obtain ⟨idle, kept⟩ := endSnapshot_idle after 0
  have stamped : ∀ sl < 16, p.smask.getLsbD sl = true →
      (((s.linesCopied part).setPartReg part 0xC9 (BitVec.ofNat 64 p.snap.cut)).endSnapshot part 0).reg sl 0 0xC9 =
        BitVec.ofNat 64 p.snap.cut := by
    intro sl small member
    have isin : sl ∈ bitSet16 ((s.linesCopied part).smask part) := by
      unfold State.smask bitSet16
      rw [left]
      exact List.mem_filter.mpr ⟨List.mem_range.mpr small, member⟩
    exact (congrArg (sget _ _) kept).trans (reg_setPartReg 0xC9 _ isin)
  have does : ∃ s', exec (.snapshotComplete part) s = .next s' ∧
      s'.pkg = (((s.linesCopied part).setPartReg part 0xC9 (BitVec.ofNat 64 p.snap.cut)).endSnapshot part 0).pkg ∧
      s'.regs = (((s.linesCopied part).setPartReg part 0xC9 (BitVec.ofNat 64 p.snap.cut)).endSnapshot part 0).regs := by
    show ∃ s', execSnapshotComplete part s = .next s' ∧ _
    unfold execSnapshotComplete State.part?
    simp only [there, copying, ne_eq, not_true, if_false]
    refine ⟨_, rfl, ?_⟩
    split
    · exact ⟨rfl, rfl⟩
    · exact ⟨rfl, rfl⟩
  obtain ⟨s', does, pkg, regs⟩ := does
  refine ⟨s', _, does, (congrArg (fun k : Package => sfind part k.parts) pkg).trans idle, rfl, fun sl small member =>
    ?_⟩
  exact (congrArg (sget _ _) regs).trans (stamped sl small member)

/-! Saving a troupe that faulted. -/

section
variable {s : State} {core slot : Nat} {t : Troupe} {b : Block} {r : BitVec 256} {toVf : Bool}
  (faulted : s.troupe? ⟨core, slot⟩ = some t ∧ t.susp = .pageFault r toVf ∧ s.block? t.block = some b ∧ t.halted =
    false)
include faulted

theorem contextSave_begins (none : s.saving (⟨core, slot⟩ : TKey).num t.block = none) :
    exec (.contextSave core slot) s =
    .next (if s.mayBegin (⟨core, slot⟩ : TKey).num t then s.startSave (⟨core, slot⟩ : TKey).num t b r toVf
      else s.later (.contextSave core slot)) := by
  obtain ⟨there, susp, block, goes⟩ := faulted
  show execContextSave core slot s = _
  unfold execContextSave
  simp only [there, susp, block, goes, none, Bool.false_eq_true, if_false]

theorem contextSave_ends {sid : Nat} {x : Saved} (saves : s.saving (⟨core, slot⟩ : TKey).num t.block = some (sid, x))
    (written : x.ops.all s.opDone = true) :
    exec (.contextSave core slot) s = .next (s.endSave (⟨core, slot⟩ : TKey).num t b sid x r toVf) := by
  obtain ⟨there, susp, block, goes⟩ := faulted
  have none : (x.ops.any fun o => !s.opDone o) = false := by simpa using written
  show execContextSave core slot s = _
  unfold execContextSave
  simp only [there, susp, block, goes, saves, none, Bool.false_eq_true, if_false]

end

/-! Delivery. -/

theorem kmem_kadd (k : Nat) (l : KeySet) : kmem k (kadd k l) = true := by
  unfold kmem
  induction l with
  | nil => simp [kadd]
  | cons j l ih =>
    unfold kadd
    split
    · simp
    · split
      · rename_i same
        simp [same]
      · simpa using .inr (List.contains_iff_mem.mp ih)

section
variable {s : State} {slice : Nat}

theorem delivery_over (h : kmem slice s.pkg.delivered = true) : exec (.ringEntryDelivery slice) s = .next s := by
  show execRingEntryDelivery slice s = _
  unfold execRingEntryDelivery
  rw [if_pos h]

variable (may : kmem slice s.pkg.delivered = false)
include may

theorem delivery_none (none : s.nextEntry slice = none) : exec (.ringEntryDelivery slice) s =
    .next (((s.firstEntries slice).flatMap s.ringRefused).foldl State.noteRefusal s) := by
  show execRingEntryDelivery slice s = _
  unfold execRingEntryDelivery
  simp only [may, none, Bool.false_eq_true, if_false]

theorem delivery_writes {e : RingEntry} {v : RingView} (first : s.nextEntry slice = some e)
    (room : s.ringView e = some v) : exec (.ringEntryDelivery slice) s = .next ((s.writeEntry e v).setPkg
      { (s.writeEntry e v).pkg with delivered := kadd slice (s.writeEntry e v).pkg.delivered }) := by
  show execRingEntryDelivery slice s = _
  unfold execRingEntryDelivery
  simp only [may, first, room, Bool.false_eq_true, if_false]

end

/-! Restoring a troupe. -/

section
variable {s : State} {sid : Nat} {x : Saved} {b : Block}
  (saved : sfind sid s.pkg.saved = some x ∧ s.block? x.block = some b)
include saved

section
variable (waits : x.ready = false)
include waits

theorem restore_undelivered (new : x.delivered = false) : exec (.troupeRestore sid) s = .next s := by
  show execTroupeRestore sid s = _
  unfold execTroupeRestore
  simp only [saved.1, saved.2, waits, new, Bool.not_false, Bool.false_eq_true, if_false, if_true]

variable (delivered : x.delivered = true)
include delivered

theorem restore_unread (h : s.resumeTest sid x = none) :
    exec (.troupeRestore sid) s = .next (s.withdrawResume sid) := by
  show execTroupeRestore sid s = _
  unfold execTroupeRestore
  simp only [saved.1, saved.2, waits, delivered, h, Bool.not_true, Bool.false_eq_true, if_false]

theorem restore_waits (h : s.resumeTest sid x = some false) : exec (.troupeRestore sid) s = .next s := by
  show execTroupeRestore sid s = _
  unfold execTroupeRestore
  simp only [saved.1, saved.2, waits, delivered, h, Bool.not_true, Bool.false_eq_true, if_false]

variable (reached : s.resumeTest sid x = some true)
include reached

theorem restore_refused {ls : List Nat} (word : s.actionWord x = .wait ls) :
    exec (.troupeRestore sid) s = .next (s.tryAgain ls (.troupeRestore sid)) := by
  show execTroupeRestore sid s = _
  unfold execTroupeRestore
  simp only [saved.1, saved.2, waits, delivered, reached, word, Bool.not_true, Bool.false_eq_true, if_false]

theorem restore_fails (word : s.actionWord x = .fails) :
    exec (.troupeRestore sid) s = .next (s.withdrawResume sid) := by
  show execTroupeRestore sid s = _
  unfold execTroupeRestore
  simp only [saved.1, saved.2, waits, delivered, reached, word, Bool.not_true, Bool.false_eq_true, if_false]

theorem restore_acts {w : Nat} {c : BitVec 8} (word : s.actionWord x = .action w) (kind : x.kind = .fault c false) :
    exec (.troupeRestore sid) s = .next
      (((s.withdrawResume sid).putSaved sid { x with action := w, ready := true }).placeAgain x.part) := by
  show execTroupeRestore sid s = _
  unfold execTroupeRestore
  simp only [saved.1, saved.2, delivered, reached, word, Bool.not_true]
  rw [if_neg (ne_true_of_eq_false waits)]
  rw [kind]
  rfl

end

section
variable (ready : x.ready = true)
include ready

theorem restore_doubleTrap (kind : x.kind = .doubleTrap) {num : Nat} {t : Troupe} (slot : s.inSlot x = some (num, t)) :
    exec (.troupeRestore sid) s = (let s1 := s.setPkg { s.pkg with saved := sdel sid s.pkg.saved }
      .next (if x.action = 1 then s1.restartTrap num t b else s1.terminate num t b)) := by
  show execTroupeRestore sid s = _
  unfold execTroupeRestore State.resumeHere
  simp only [saved.1, saved.2, ready, kind, slot, if_true, Bool.false_eq_true, if_false]

theorem restore_placed {c : BitVec 8} (kind : x.kind = .fault c false) (placed : x.placed = true) :
    exec (.troupeRestore sid) s = .next (s.restoreTroupe sid x b) := by
  show execTroupeRestore sid s = _
  unfold execTroupeRestore
  simp only [saved.1, saved.2, ready, kind, placed, if_true]

end

end

/-- Settles O54. -/
theorem snapshotAndSaveEvents : Obligations.SnapshotAndSaveEvents := by
  intro s slice part req core slot sid num val p t b x r toVf e v w k known arming
  refine ⟨fun h runs => snapshotStart_busy h.2 h.1 val req runs,
    fun h idle bad => snapshotStart_refused h.2 h.1 val req idle bad,
    fun h idle good quick => snapshotStart_arms h.2 h.1 val req idle good quick,
    fun h idle => snapshotAbort_idle h.2 h.1 req idle, fun h runs => snapshotAbort_ends h.2 h.1 req runs,
    fun h new lacks => ?lacks, fun h new has ready => ⟨_, (cut_bounds s.tick).1, (cut_bounds s.tick).2.1,
      (cut_bounds s.tick).2.2, ?fixes⟩, fun h new has busy => ?waits, fun h fixed due busy => ?first,
    fun h fixed due alone => ?copies, snapshotComplete_ends, snapshotComplete_other,
    ⟨fun h none may => ?begins, fun h none busy => ?later, fun h => contextSave_ends h⟩,
    delivery_over, delivery_none,
    fun may first room => ⟨_, delivery_writes may first room, kmem_kadd .., rfl⟩,
    ⟨fun h => restore_undelivered h, fun h => restore_unread h, fun h => restore_waits h,
      fun h waits delivered reached => ⟨fun ls => restore_refused h waits delivered reached,
        restore_fails h waits delivered reached, fun w c => restore_acts h waits delivered reached⟩,
      fun h ready kind slot => restore_doubleTrap h ready kind slot, fun c h ready kind placed =>
        restore_placed h ready kind placed⟩⟩
  case lacks => rw [exec_snapshotCut h.1 h.2, if_pos new, if_pos lacks]
  case fixes => rw [exec_snapshotCut h.1 h.2, if_pos new, if_neg (ne_true_of_eq_false has), if_pos ready]
  case waits =>
    rw [exec_snapshotCut h.1 h.2, if_pos new, if_neg (ne_true_of_eq_false has), if_neg (ne_true_of_eq_false busy)]
  case first => rw [exec_snapshotCut h.1 h.2, if_neg fixed, if_neg (Nat.not_lt.mpr due), if_pos busy]
  case copies =>
    rw [exec_snapshotCut h.1 h.2, if_neg fixed, if_neg (Nat.not_lt.mpr due), if_neg (ne_true_of_eq_false alone)]
  case begins => exact (contextSave_begins h none).trans (congrArg _ (if_pos may))
  case later => exact (contextSave_begins h none).trans (congrArg _ (if_neg (ne_true_of_eq_false busy)))

end Sys2Proof.Machine
end

section
/-! PROOFS. The reset of a virtual function, and migration (R357 to R359). -/

namespace Sys2Proof.Machine

/-! The reset of a virtual function. -/

section
variable {s : State} {slice part vf req : Nat} {val : W64} (its : s.partOf slice = some part)
include its

theorem vfReset_malformed (bad : ¬ (val.toNat / 2 ^ 52 % 2 ^ 11 = 0 ∧ val.toNat % 8 = 0)) :
    exec (.vfReset slice vf val req) s = .next (s.reply req replyRefused) := by
  have refuses : bitsOf val.toNat 52 11 ≠ 0 ∨ val.toNat % 8 ≠ 0 := Classical.not_and_iff_not_or_not.mp bad
  show execVfReset slice vf val req s = _
  unfold execVfReset
  simp only [its, refuses, if_true]

section
variable (fields : val.toNat / 2 ^ 52 % 2 ^ 11 = 0 ∧ val.toNat % 8 = 0)
include fields

/-- A well-formed VFRST, by its bit GO. -/
theorem exec_vfReset : exec (.vfReset slice vf val req) s = .next (
    if bitN val.toNat 63 && decide (s.vfState part vf = vfResetting) then s.reply req replyBusy
    else
      let kept := (s.setPartReg part (regVfrst vf) (BitVec.ofNat 64 (val.toNat % 2 ^ 52))).reply req replyOk
      if bitN val.toNat 63 then
        let s1 := (kept.setVfcfg part vf (vfValue (kept.vfcfg part vf).toNat 2) 0 0).dropVf part vf
        ((((s1.dropVfTlb part vf).endVfWaits part vf).resetFlows part vf).dropAbroad part vf).later
          (.vfResetComplete part vf)
      else kept) := by
  have good : ¬ (bitsOf val.toNat 52 11 ≠ 0 ∨ val.toNat % 8 ≠ 0) := fun bad => Classical.not_and_iff_not_or_not.mpr bad fields
  show execVfReset slice vf val req s = _
  unfold execVfReset
  simp only [its]
  rw [if_neg good]
  rfl

theorem vfReset_busy (go : val.toNat / 2 ^ 63 % 2 = 1) (resets : s.vfState part vf = 2) :
    exec (.vfReset slice vf val req) s = .next (s.reply req replyBusy) := by
  have bit : bitN val.toNat 63 = true := decide_eq_true go
  have busy : decide (s.vfState part vf = vfResetting) = true := decide_eq_true resets
  rw [exec_vfReset its fields, bit, busy, Bool.and_self, if_pos rfl]

theorem vfReset_kept (stays : ¬ val.toNat / 2 ^ 63 % 2 = 1) : exec (.vfReset slice vf val req) s =
    .next ((s.setPartReg part (regVfrst vf) (BitVec.ofNat 64 (val.toNat % 2 ^ 52))).reply req replyOk) := by
  have bit : bitN val.toNat 63 = false := decide_eq_false stays
  rw [exec_vfReset its fields, bit, Bool.false_and, if_neg Bool.false_ne_true, if_neg Bool.false_ne_true]

theorem vfReset_resets (go : val.toNat / 2 ^ 63 % 2 = 1) (may : s.vfState part vf ≠ 2) :
    let kept := (s.setPartReg part (regVfrst vf) (BitVec.ofNat 64 (val.toNat % 2 ^ 52))).reply req replyOk
    let s1 := (kept.setVfcfg part vf (vfValue (kept.vfcfg part vf).toNat 2) 0 0).dropVf part vf
    exec (.vfReset slice vf val req) s = .next
      (((((s1.dropVfTlb part vf).endVfWaits part vf).resetFlows part vf).dropAbroad
      part vf).later (.vfResetComplete part vf)) := by
  have bit : bitN val.toNat 63 = true := decide_eq_true go
  have idle : decide (s.vfState part vf = vfResetting) = false := decide_eq_false may
  rw [exec_vfReset its fields, bit, idle, Bool.and_false, if_neg Bool.false_ne_true, if_pos rfl]

end

end

section
variable {s : State} {part vf : Nat}

theorem vfResetComplete_other (h : s.vfState part vf ≠ 2) : exec (.vfResetComplete part vf) s = .next s := by
  have other : s.vfState part vf ≠ vfResetting := h
  show execVfResetComplete part vf s = _
  unfold execVfResetComplete
  rw [if_pos other]

variable (resets : s.vfState part vf = 2)
include resets

theorem vfResetComplete_waits (busy : s.vfBusy part vf = true) :
    exec (.vfResetComplete part vf) s = .next (s.laterOnce (.vfResetComplete part vf)) := by
  have same : s.vfState part vf = vfResetting := resets
  show execVfResetComplete part vf s = _
  unfold execVfResetComplete
  rw [if_neg (not_not_intro same), if_pos busy]

theorem vfResetComplete_tells {d : Nat} (idle : s.vfBusy part vf = false) :
    let s1 := s.setVfcfg part vf (vfValue (s.vfcfg part vf).toNat 0) 0 0
    s1.ppaMem part (s1.reg (s1.firstSlice part) 0 (regVfrst vf)).toNat = some d →
    exec (.vfResetComplete part vf) s = .next (s1.addAfter (s1.firstSlice part) part 32 (.home d) none 1 s1.tick
      []) := by
  intro s1 place
  have same : s.vfState part vf = vfResetting := resets
  have there : (s.setVfcfg part vf (vfValue (s.vfcfg part vf).toNat vfOff) 0 0).ppaMem part
      ((s.setVfcfg part vf (vfValue (s.vfcfg part vf).toNat vfOff) 0 0).reg
        ((s.setVfcfg part vf (vfValue (s.vfcfg part vf).toNat vfOff) 0 0).firstSlice part) 0 (regVfrst vf)).toNat =
          some d :=
    place
  show execVfResetComplete part vf s = _
  unfold execVfResetComplete
  rw [if_neg (not_not_intro same), if_neg (ne_true_of_eq_false idle)]
  simp only [there]
  rfl

end

/-! Migration. -/

section
variable {s : State} {slice part chan req : Nat} {val : W64} (its : s.partOf slice = some part)
include its

theorem migStart_runs (h : (s.mig slice chan).state ≠ .idle) :
    exec (.migStart slice chan val req) s = .next (s.reply req replyBusy) := by
  show execMigStart slice chan val req s = _
  unfold execMigStart
  simp only [its]
  rw [if_pos h]

variable (idle : (s.mig slice chan).state = .idle)
include idle

/-- A migration between two granules. -/
theorem exec_migStart {a b : Nat}
    (source : s.granuleTo part (s.reg slice 0 (migReg chan 0)).toNat (4096 * (val.toNat / 2 ^ 8 % 16 + 1)) = some a)
    (dest : s.granuleTo part (s.reg slice 0 (migReg chan 1)).toNat (4096 * (val.toNat / 2 ^ 8 % 16 + 1)) = some b) :
    exec (.migStart slice chan val req) s = (let size := 4096 * (val.toNat / 2 ^ 8 % 16 + 1)
      .next (if s.snapCopies part a || s.snapCopies part b then s.reply req replyBusy
        else if dpaSlice a ≠ slice ∨ meet a size b size = true ∨ s.migBusyAt a size = true ∨ s.migBusyAt b size =
          true then
          s.reply req replyRefused
        else
          (((s.setReg slice 0 (migReg chan 3) (BitVec.ofNat 64 (val.toNat / 2 ^ 8 % 16 * 256))).setMig slice chan
            ⟨.copy, a, b, size, migLines a size, 0, part⟩).laterOnce (.migrationPass slice chan)).reply req
              replyOk)) := by
  have from_ : s.granuleTo part (s.reg slice 0 (migReg chan 0)).toNat (4096 * (bitsOf val.toNat 8 4 + 1)) = some a :=
    source
  have to_ : s.granuleTo part (s.reg slice 0 (migReg chan 1)).toNat (4096 * (bitsOf val.toNat 8 4 + 1)) = some b := dest
  show execMigStart slice chan val req s = _
  unfold execMigStart
  simp only [its]
  rw [if_neg (not_not_intro idle)]
  simp only [from_, to_]
  rfl

theorem migStart_nowhere
    (h : s.granuleTo part (s.reg slice 0 (migReg chan 0)).toNat (4096 * (val.toNat / 2 ^ 8 % 16 + 1)) = none) :
    exec (.migStart slice chan val req) s = .next (s.reply req replyRefused) := by
  have none : s.granuleTo part (s.reg slice 0 (migReg chan 0)).toNat (4096 * (bitsOf val.toNat 8 4 + 1)) = none := h
  show execMigStart slice chan val req s = _
  unfold execMigStart
  simp only [its]
  rw [if_neg (not_not_intro idle)]
  simp only [none]

end

section
variable {s : State} {slice chan : Nat}

theorem pass_freezes (state : (s.mig slice chan).state = .copy)
    (done : (s.mig slice chan).marked = [] ∨ 8 ≤ (s.mig slice chan).passes) : exec (.migrationPass slice chan) s =
      .next ((s.setMig slice chan { s.mig slice chan with state := .freezing }).post (.migrationPass slice chan)) := by
  show execMigrationPass slice chan s = _
  unfold execMigrationPass
  dsimp only
  rw [state]
  dsimp only
  rw [if_pos done]

theorem pass_copies (state : (s.mig slice chan).state = .copy) (has : (s.mig slice chan).marked ≠ [])
    (more : (s.mig slice chan).passes < 8) : exec (.migrationPass slice chan) s =
      .next (((s.mig slice chan).marked.foldl (fun u l => u.migLine (s.mig slice chan) l) (s.setMig slice chan
        { s.mig slice chan with marked := [], passes := (s.mig slice chan).passes + 1 })).later
          (.migrationPass slice chan)) := by
  have goes : ¬ ((s.mig slice chan).marked = [] ∨ 8 ≤ (s.mig slice chan).passes) := by
    rintro (none | enough)
    · exact has none
    · exact absurd more (Nat.not_lt.mpr enough)
  show execMigrationPass slice chan s = _
  unfold execMigrationPass
  dsimp only
  rw [state]
  dsimp only
  rw [if_neg goes]

theorem pass_waits (state : (s.mig slice chan).state = .freezing) (waits : s.migWaits (s.mig slice chan) = true) :
    exec (.migrationPass slice chan) s = .next (s.later (.migrationPass slice chan)) := by
  show execMigrationPass slice chan s = _
  unfold execMigrationPass
  dsimp only
  rw [state]
  dsimp only
  rw [if_pos waits]

theorem pass_cutsOver (state : (s.mig slice chan).state = .freezing) (done : s.migWaits (s.mig slice chan) = false)
    {d : Nat} :
    let m := s.mig slice chan
    let s2 := ((m.marked.foldl (fun u l => u.migLine m l) s).handOver m).setMig slice chan
      { m with marked := [], state := .frozen }
    s2.ppaMem m.part (s2.reg slice 0 (migReg chan 2)).toNat = some d →
    exec (.migrationPass slice chan) s = .next (s2.addAfter slice m.part 32 (.home d) none 1 s2.tick []) := by
  intro m s2 place
  show execMigrationPass slice chan s = _
  unfold execMigrationPass
  dsimp only
  rw [state]
  dsimp only
  rw [if_neg (ne_true_of_eq_false done)]
  dsimp only [m, s2] at place
  rw [place]

theorem pass_idle (h : (s.mig slice chan).state = .idle ∨ (s.mig slice chan).state = .frozen) :
    exec (.migrationPass slice chan) s = .next s := by
  show execMigrationPass slice chan s = _
  unfold execMigrationPass
  dsimp only
  rcases h with state | state <;> rw [state]

end

/-- Settles O55. -/
theorem resetAndMigrationEvents : Obligations.ResetAndMigrationEvents := by
  intro s slice part vf chan req a b d val v go fields refused kept m size started
  refine ⟨vfReset_malformed, vfReset_busy, vfReset_kept, vfReset_resets, vfResetComplete_other, vfResetComplete_waits,
    fun resets idle => vfResetComplete_tells resets idle, migStart_runs, fun its idle places copies => ?snapshots,
    fun its idle places noSource noDest => ⟨fun bad => ?refused, fun good => ?starts⟩, migStart_nowhere, ?ends, ?aborts,
    pass_freezes, pass_copies, pass_waits, fun state done => pass_cutsOver state done, pass_idle⟩
  case snapshots =>
    refine (exec_migStart its idle places.1 places.2).trans (congrArg _ (if_pos ?_))
    simpa using copies
  case refused =>
    refine (exec_migStart its idle places.1 places.2).trans (congrArg _ ?_)
    rw [noSource, noDest, Bool.or_self, if_neg Bool.false_ne_true, if_pos bad]
  case starts =>
    refine (exec_migStart its idle places.1 places.2).trans (congrArg _ ?_)
    rw [noSource, noDest, Bool.or_self, if_neg Bool.false_ne_true, if_neg good]
  case ends =>
    show execMigEnd slice chan req s = _
    unfold execMigEnd
    rcases state : (s.mig slice chan).state <;> simp only [state]
  case aborts =>
    show execMigAbort slice chan req s = _
    unfold execMigAbort
    rcases state : (s.mig slice chan).state <;> simp only [state]

end Sys2Proof.Machine
end

section
/-! PROOFS. The commands of a partition's mailbox (R333, R334, R361, R362, R408, R417). -/

namespace Sys2Proof.Machine

section
variable {s : State} {part i : Nat} {p : Partition} (known : sfind part s.pkg.parts = some p)
include known

/-- The index of the command that is in progress. -/
theorem mailIdx_of {cmd : Nat} (command : p.mailbox = some (cmd, i)) : s.mailIdx part cmd = some i := by
  unfold State.mailIdx State.part?
  simp only [known, command, if_true]

/-! A slice joins. -/

section
variable (command : p.mailbox = some (1, i))
include command

theorem addslice_asks (new : p.mailOps = []) : exec (.addslice part) s =
    .next (if s.mayAdd part i then s.joinSlice part i else s.mailRefuse part) := by
  show execAddslice part s = _
  unfold execAddslice
  rw [mailIdx_of known command]
  unfold State.part?
  simp only [known, new, if_true]

theorem addslice_waits (begun : p.mailOps ≠ []) (busy : p.mailOps.all s.opDone = false) :
    exec (.addslice part) s = .next (s.later (.addslice part)) := by
  show execAddslice part s = _
  unfold execAddslice
  rw [mailIdx_of known command]
  unfold State.part?
  simp only [known, begun, busy, Bool.false_eq_true, if_false]

theorem addslice_ends (begun : p.mailOps ≠ []) (written : p.mailOps.all s.opDone = true) : exec (.addslice part) s =
    .next ((s.startHarts i (s.mailArg part 0).toNat (s.mailArg part 1).toNat).mailDone part 1 p.mailOps
      (s.latestP p.mailOps)) := by
  show execAddslice part s = _
  unfold execAddslice
  rw [mailIdx_of known command]
  unfold State.part?
  simp only [known, begun, written, if_true, if_false]
  rfl

end

/-! A slice leaves. -/

theorem exec_remslice (command : p.mailbox = some (2, i)) : exec (.remslice part) s = .next (
    if s.mayRemove part i then (((s.modPart part fun p => { p with smask := p.smask &&& ~~~(bitM 16 i) }).clearSlice
      i).tmapAdvance part).mailDone part 1 [] s.tick
    else s.mailRefuse part) := by
  show execRemslice part s = _
  unfold execRemslice
  rw [mailIdx_of known command]
  rfl

/-! Bands. -/

section
variable (command : p.mailbox = some (3, i))
include command

theorem setband_taken (h : s.bandAt part i ≠ none) : exec (.setband part) s = .next (s.mailRefuse part) := by
  have taken : (s.bandAt part i).isSome = true := Option.isSome_iff_ne_none.mpr h
  show execSetband part s = _
  unfold execSetband
  rw [mailIdx_of known command]
  dsimp only
  rw [if_pos taken]

variable (free : s.bandAt part i = none)
include free

theorem setband_refused (bad : newBand (s.smask part) (s.bands part) (s.mailArg part 0) (s.mailArg part 1) = none) :
    exec (.setband part) s = .next (s.mailRefuse part) := by
  show execSetband part s = _
  unfold execSetband
  rw [mailIdx_of known command]
  simp only [free, bad, Option.isSome_none, Bool.false_eq_true, if_false]

theorem setband_sets {x y : W64}
    (good : newBand (s.smask part) (s.bands part) (s.mailArg part 0) (s.mailArg part 1) = some (x, y)) :
    exec (.setband part) s = .next (((s.setPartReg part (0x50 + 2 * i) x).setPartReg part (0x51 + 2 * i) y).mailDone
      part 1
      [] s.tick) := by
  show execSetband part s = _
  unfold execSetband
  rw [mailIdx_of known command]
  simp only [free, good, Option.isSome_none, Bool.false_eq_true, if_false]
  rfl

end

section
variable (command : p.mailbox = some (4, i))
include command

theorem clrband_refused (h : s.bandAt part i = none) : exec (.clrband part) s = .next (s.mailRefuse part) := by
  show execClrband part s = _
  unfold execClrband
  rw [mailIdx_of known command]
  simp only [h, Option.isNone_none, if_true]

theorem clrband_clears (h : s.bandAt part i ≠ none) : exec (.clrband part) s = .next ((s.setPartReg part
    (0x50 + 2 * i) (s.reg (s.firstSlice part) 0 (0x50 + 2 * i) &&& ~~~1)).mailDone part 1 [] s.tick) := by
  have valid : (s.bandAt part i).isNone = false := by
    rw [← Option.not_isSome, Option.isSome_iff_ne_none.mpr h]
    rfl
  show execClrband part s = _
  unfold execClrband
  rw [mailIdx_of known command]
  dsimp only
  rw [if_neg (ne_true_of_eq_false valid)]
  rfl

end

/-! Attestation. -/

section
variable (command : p.mailbox = some (5, i))
include command

theorem attest_refused (h : (s.mailArg part 0).toNat % 1024 ≠ 0 ∨ s.ppaMem part (s.mailArg part 0).toNat = none) :
    exec (.attest part) s = .next (s.mailRefuse part) := by
  have nowhere : (if (s.mailArg part 0).toNat % 1024 = 0 then s.ppaMem part (s.mailArg part 0).toNat else none) =
    none := by
    split
    · rename_i aligned
      exact h.resolve_left (not_not_intro aligned)
    · rfl
  show execAttest part s = _
  unfold execAttest
  rw [mailIdx_of known command]
  unfold State.part?
  simp only [known, nowhere]

theorem attest_signs {d : Nat} (aligned : (s.mailArg part 0).toNat % 1024 = 0)
    (place : s.ppaMem part (s.mailArg part 0).toNat = some d) :
    let body := reportBody s part p (memBytes s.homes.mem d 64)
    let w := s.grcWrite part d (words64 128 (body ++ leBytes 512 (Config.reportSignature body).toNat))
    exec (.attest part) s = .next (w.2.mailDone part 1 [w.1] 0) := by
  show execAttest part s = _
  unfold execAttest
  rw [mailIdx_of known command]
  unfold State.part?
  simp only [known, aligned, if_true, place]
  rfl

end

/-- The mailbox is free again once its command is done. -/
theorem mailDone_frees (r : Nat) (ops : List Nat) (nb : Nat) :
    ∃ p', sfind part (s.mailDone part r ops nb).pkg.parts = some p' ∧ p'.mailbox = none := by
  refine ⟨{ p with mailbox := none, mailOps := [] }, ?_, rfl⟩
  have freed : sfind part (s.modPart part fun p => { p with mailbox := none, mailOps := [] }).pkg.parts =
      some { p with mailbox := none, mailOps := [] } := by
    unfold State.modPart State.part?
    rw [known]
    exact sfind_setPart ..
  suffices h : ∀ f, f = State.mailDone → (f s part r ops nb).pkg = (s.modPart part fun p =>
      { p with mailbox := none, mailOps := [] }).pkg by rw [h _ rfl]; exact freed
  intro f unfolded
  delta State.mailDone at unfolded
  simp only [unfolded]
  generalize State.ppaMem _ _ _ = place
  rcases place with - | d
  · exact setPartReg_pkg ..
  · exact setPartReg_pkg ..

end

/-- Settles O56. -/
theorem mailboxEvents : Obligations.MailboxEvents := by
  intro s part sl i d p x y known refused a0 a1
  refine ⟨fun known command new may => ?refuses, fun known command new may => ?joins,
    fun known command => addslice_waits known command, fun known command => addslice_ends known command,
    fun known command may => ?stays, fun known command may => ?leaves, fun known command => setband_taken known command,
    fun known command free => ⟨setband_refused known command free, setband_sets known command free⟩,
    fun known command => clrband_refused known command, fun known command => clrband_clears known command,
    fun known command => attest_refused known command, fun known command => attest_signs known command,
    fun known => mailDone_frees known⟩
  case refuses => exact (addslice_asks known command new).trans (congrArg _ (if_neg (ne_true_of_eq_false may)))
  case joins => exact (addslice_asks known command new).trans (congrArg _ (if_pos may))
  case stays => exact (exec_remslice known command).trans (congrArg _ (if_neg (ne_true_of_eq_false may)))
  case leaves => exact (exec_remslice known command).trans (congrArg _ (if_pos may))

end Sys2Proof.Machine
end

section
/-! PROOFS. Power, boot, the manifest and the monitors (R404 to R406, R410, R412, R413). -/

namespace Sys2Proof.Machine

/-! Power. -/

section
variable {s : State}

theorem powerOn_again (on : s.plat.power = true ∧ s.plat.inReset = false) : exec .powerOn s = .next s := by
  show execPowerOn s = _
  unfold execPowerOn
  simp only [on.1, on.2, Bool.not_false, Bool.and_self, if_true]

variable (off : s.plat.power = false)
include off

theorem powerOn_fails (bad0 : s.plat.flash.accepts s.plat.flash.image0 = false)
    (bad1 : s.plat.flash.accepts s.plat.flash.image1 = false) : exec .powerOn s =
      .next (s.unpowered.setPlat { s.unpowered.plat with power := true, inReset := true, bootFail :=
        [bootFailModule] }) := by
  have flash : s.unpowered.plat.flash = s.plat.flash := rfl
  show execPowerOn s = _
  unfold execPowerOn
  simp only [off, Bool.false_and, Bool.false_eq_true, if_false, flash, bad0, bad1]

theorem powerOn_boots {i : Firmware}
    (image : (s.plat.flash.accepts s.plat.flash.image0 = true ∧ i = s.plat.flash.image0) ∨
      (s.plat.flash.accepts s.plat.flash.image0 = false ∧ s.plat.flash.accepts s.plat.flash.image1 = true ∧
        i = s.plat.flash.image1)) : exec .powerOn s =
      .next ((s.unpowered.setPlat { s.unpowered.plat with
        power := true, inReset := false, bootFail := [], firmware := i.digest }).showAll.later .bootBuild) := by
  have flash : s.unpowered.plat.flash = s.plat.flash := rfl
  show execPowerOn s = _
  unfold execPowerOn
  rcases image with ⟨good, rfl⟩ | ⟨bad, good, rfl⟩
  · simp only [off, Bool.false_and, Bool.false_eq_true, if_false, flash, good, if_true]
  · simp only [off, Bool.false_and, Bool.false_eq_true, if_false, flash, bad, good, if_true]

end

/-- With no unit in the flash list, none is shown. -/
theorem showAll_none {s : State} (none : s.plat.flash.retired = []) : s.showAll = s := by
  unfold State.showAll
  rw [none, List.foldl_nil]

/-! The manifest. -/

theorem bootBuild_none {s : State} (none : s.plat.flash.manifest = none) : s.bootBuild = s := by
  unfold State.bootBuild
  rw [none]

theorem bootBuild_some {s : State} {m : Manifest} (on : s.plat.power = true ∧ s.plat.inReset = false)
    (parts : s.pkg.parts = []) (named : s.plat.flash.manifest = some m) :
    s.bootBuild = if s.manifestOk m then s.build m else s := by
  unfold State.bootBuild
  simp only [named, on.1, on.2, parts, List.isEmpty_nil, Bool.not_false, Bool.and_self, Bool.true_and]

theorem accepts_iff (f : Flash) (i : Firmware) :
    f.accepts i = true ↔ Config.signatureOk Config.fusedKey i.digest = true ∧ f.antiRollback ≤ i.version := by
  simp only [Flash.accepts, Bool.and_eq_true, decide_eq_true_eq]

/-- Whether a manifest is newer than the current one. -/
def isNewer (m : Manifest) : Option Manifest → Bool
  | some old => decide (old.version < m.version)
  | none => true

section
variable {s : State} {m : Manifest}

theorem manifest_dropped (h : s.plat.power = false ∨ s.plat.inReset = true) :
    exec (.manifestReceive m) s = .next s := by
  have away : (s.plat.inReset || !s.plat.power) = true := by
    rcases h with off | held
    · rw [off, Bool.not_false, Bool.or_true]
    · rw [held, Bool.true_or]
  show execManifestReceive m s = _
  unfold execManifestReceive
  rw [if_pos away]

variable (on : s.plat.power = true ∧ s.plat.inReset = false)
include on

theorem exec_manifestReceive : exec (.manifestReceive m) s = .next (
    if isNewer m s.plat.flash.manifest && s.manifestOk m then
      let s1 := s.setPlat { s.plat with flash := { s.plat.flash with manifest := some m } }
      if s1.pkg.parts.isEmpty then s1.build m else s1
    else s) := by
  show execManifestReceive m s = _
  unfold execManifestReceive
  simp only [on.1, on.2, Bool.not_true, Bool.or_self, Bool.false_eq_true, if_false]
  rfl

theorem manifest_bad (bad : s.manifestOk m = false) : exec (.manifestReceive m) s = .next s := by
  rw [exec_manifestReceive on, bad, Bool.and_false, if_neg Bool.false_ne_true]

theorem manifest_old {old : Manifest} (current : s.plat.flash.manifest = some old) (older : m.version ≤ old.version) :
    exec (.manifestReceive m) s = .next s := by
  have notNewer : isNewer m (some old) = false := decide_eq_false (Nat.not_lt.mpr older)
  rw [exec_manifestReceive on, current, notNewer, Bool.false_and, if_neg Bool.false_ne_true]

theorem manifest_taken (good : s.manifestOk m = true)
    (newer : s.plat.flash.manifest = none ∨ ∃ y, s.plat.flash.manifest = some y ∧ y.version < m.version) :
    let s1 := s.setPlat { s.plat with flash := { s.plat.flash with manifest := some m } }
    exec (.manifestReceive m) s = .next (if s1.pkg.parts = [] then s1.build m else s1) := by
  intro s1
  have newest : isNewer m s.plat.flash.manifest = true := by
    rcases newer with none | ⟨y, current, less⟩
    · rw [none]
      rfl
    · rw [current]
      exact decide_eq_true less
  rw [exec_manifestReceive on, newest, good, Bool.and_self, if_pos rfl]
  simp only [List.isEmpty_iff]
  rfl

end

/-! Monitors. -/

theorem trip_log (s : State) (slice sensor : Nat) :
    (s.trip slice sensor).plat.flash.log = s.plat.flash.log ++ [.trip slice sensor s.tick] := rfl

/-- The hottest sensor is one of those read. -/
theorem hottest_index (temps : List Nat) : (hottest (temps.take 16)).2 < 16 := by
  have short : (temps.take 16).length ≤ 16 := List.length_take_le ..
  unfold hottest
  dsimp only
  rcases found : (temps.take 16).zipIdx.find? fun e => decide (e.1 = maxList (temps.take 16)) with - | e
  · rw [found, Option.elim_none]
    decide
  · rw [found, Option.elim_some]
    exact Nat.lt_of_lt_of_le (List.snd_lt_of_mem_zipIdx (List.mem_of_find?_eq_some found)) short

/-- An MSI leaves registers, homes and readings. -/
theorem msi_keeps (s : State) (source h file eiid : Nat) : (s.msi source h file eiid).regs = s.regs ∧
    (s.msi source h file eiid).homes = s.homes ∧ (s.msi source h file eiid).plat.temps = s.plat.temps := by
  unfold State.msi
  split
  · exact ⟨rfl, rfl, rfl⟩
  · split
    · split <;> exact ⟨rfl, rfl, rfl⟩
    · exact ⟨rfl, rfl, rfl⟩

theorem raiseSource_keeps (s : State) (slice source : Nat) : (s.raiseSource slice source).regs = s.regs ∧
    (s.raiseSource slice source).homes = s.homes ∧ (s.raiseSource slice source).plat.temps = s.plat.temps := by
  unfold State.raiseSource
  dsimp only
  split
  · exact ⟨rfl, rfl, rfl⟩
  · exact msi_keeps { s with fresh := s.fresh + 1 } ..

/-- A source is raised where a reading crossed its threshold. -/
def State.raiseIf (s : State) (crossed : Bool) (slice source : Nat) : State :=
  if crossed then s.raiseSource slice source else s

theorem raiseIf_eq (s : State) (crossed : Bool) (slice source : Nat) :
    (if crossed = true then s.raiseSource slice source else s) = s.raiseIf crossed slice source := rfl

theorem raiseIf_keeps (s : State) (crossed : Bool) (slice source : Nat) :
    (s.raiseIf crossed slice source).regs = s.regs ∧ (s.raiseIf crossed slice source).homes = s.homes ∧
      (s.raiseIf crossed slice source).plat.temps = s.plat.temps := by
  cases crossed
  · exact ⟨rfl, rfl, rfl⟩
  · exact raiseSource_keeps s slice source

/-- The word of MONSTAT for a set of readings. -/
def monWord (t i vcore vmem pcode : Nat) : Nat :=
  t % 2 ^ 8 * 2 ^ 56 + i * 2 ^ 52 + vcore % 2 ^ 16 * 2 ^ 36 + vmem % 2 ^ 16 * 2 ^ 20 + pcode % 2 ^ 20

theorem monWord_fields {t i : Nat} (vcore vmem pcode : Nat) (cool : t < 105) (index : i < 16) :
    monWord t i vcore vmem pcode / 2 ^ 56 = t ∧ monWord t i vcore vmem pcode / 2 ^ 36 % 2 ^ 16 = vcore % 2 ^ 16 ∧
      monWord t i vcore vmem pcode / 2 ^ 20 % 2 ^ 16 = vmem % 2 ^ 16 ∧
      monWord t i vcore vmem pcode % 2 ^ 20 = pcode % 2 ^ 20 := by
  unfold monWord
  omega

section
variable {s : State} {slice : Nat} {temps : List Nat} {vcore vmem pcode : Nat}

theorem monitor_off (off : s.plat.power = false) : exec (.monitorUpdate slice temps vcore vmem pcode) s = .next s :=
  congrArg _ (if_pos (.inr (.inl off)))

/-- The state once a set of readings stands in MONSTAT. -/
def State.monRead (s : State) (slice : Nat) (temps : List Nat) (vcore vmem pcode : Nat) : State :=
  (s.setReg slice 0 0x72 (BitVec.ofNat 64
    (monWord (hottest (temps.take 16)).1 (hottest (temps.take 16)).2 vcore vmem pcode))).setPlat
      { s.plat with temps := sput 0 slice (hottest (temps.take 16)).1 s.plat.temps }

theorem monRead_homes : (s.monRead slice temps vcore vmem pcode).homes = s.homes := by
  rw [State.monRead, State.setPlat_homes, State.setReg_homes]

theorem monRead_tick : (s.monRead slice temps vcore vmem pcode).tick = s.tick := by
  rw [State.monRead, State.setPlat_tick, State.setReg_tick]

theorem monRead_flash : (s.monRead slice temps vcore vmem pcode).plat.flash = s.plat.flash := by
  rw [State.monRead, State.setPlat_plat]

variable (on : s.plat.power = true ∧ s.plat.inReset = false) (small : slice < 16)
include on small

theorem monitor_trips (hot : 105 ≤ (hottest (temps.take 16)).1) : exec (.monitorUpdate slice temps vcore vmem pcode) s =
    .next ((s.monRead slice temps vcore vmem pcode).trip slice (hottest (temps.take 16)).2) := by
  have runs : ¬ (16 ≤ slice ∨ s.plat.power = false ∨ s.plat.inReset = true) := by
    simp [on.1, on.2, small]
  show execMonitorUpdate slice temps vcore vmem pcode s = _
  unfold execMonitorUpdate
  rw [if_neg runs]
  dsimp only
  rw [if_pos hot]
  rfl

/-- Whether the readings cross the thresholds of the temperature and of the voltage decides which sources are raised. -/
theorem exec_monitorUpdate (cool : (hottest (temps.take 16)).1 < 105) :
    ∃ hot low : Bool, exec (.monitorUpdate slice temps vcore vmem pcode) s =
      .next (((s.monRead slice temps vcore vmem pcode).raiseIf hot slice srcTemp).raiseIf low slice srcVolt) := by
  have runs : ¬ (16 ≤ slice ∨ s.plat.power = false ∨ s.plat.inReset = true) := by
    simp [on.1, on.2, small]
  show ∃ hot low : Bool, execMonitorUpdate slice temps vcore vmem pcode s = _
  unfold execMonitorUpdate
  rw [if_neg runs]
  dsimp only
  rw [if_neg (Nat.not_le.mpr cool)]
  simp only [raiseIf_eq]
  exact ⟨_, _, rfl⟩

theorem monitor_reads (cool : (hottest (temps.take 16)).1 < 105) :
    ∃ s', exec (.monitorUpdate slice temps vcore vmem pcode) s = .next s' ∧
      s'.regs = (s.monRead slice temps vcore vmem pcode).regs ∧ s'.homes = s.homes ∧
      s'.plat.temps = (s.monRead slice temps vcore vmem pcode).plat.temps := by
  obtain ⟨hot, low, does⟩ := exec_monitorUpdate (vcore := vcore) (vmem := vmem) (pcode := pcode) on small cool
  obtain ⟨regs1, homes1, temps1⟩ := raiseIf_keeps (s.monRead slice temps vcore vmem pcode) hot slice srcTemp
  obtain ⟨regs2, homes2, temps2⟩ :=
    raiseIf_keeps ((s.monRead slice temps vcore vmem pcode).raiseIf hot slice srcTemp) low slice srcVolt
  exact ⟨_, does, regs2.trans regs1, (homes2.trans homes1).trans monRead_homes, temps2.trans temps1⟩

end

/-- Settles O58. -/
theorem platformEvents : Obligations.PlatformEvents := by
  intro s slice sensor vcore vmem pcode temps m old i f on off
  refine ⟨⟨_, rfl, rfl, rfl, rfl, rfl, rfl, rfl, rfl, rfl⟩, powerOn_again,
    fun off bad0 bad1 => ⟨_, powerOn_fails off bad0 bad1, rfl, rfl, rfl, rfl⟩, fun off image none => ?boots,
    fun on parts named => congrArg _ (bootBuild_some on parts named), fun none => congrArg _ (bootBuild_none none),
    accepts_iff f i, manifest_dropped, manifest_bad, fun on current older => manifest_old on current older,
    manifest_taken, fun power inSlices isSensor => ?trips,
    fun off => ?stays, fun on small cool => ?reads, fun on small hot => ⟨_, monitor_trips on small hot, rfl, ?logs⟩,
    monitor_off⟩
  case boots =>
    have shown := showAll_none (s := s.unpowered.setPlat { s.unpowered.plat with
      power := true, inReset := false, bootFail := [], firmware := i.digest }) none
    refine ⟨_, powerOn_boots off image, ?_⟩
    rw [shown]
    exact ⟨rfl, rfl, rfl, rfl, rfl, mem_at_timers _ (Nat.lt_succ_self _)⟩
  case trips =>
    have both : (s.plat.power && decide (slice < 16 ∧ sensor < 16)) = true := by
      simp [power, inSlices, isSensor]
    exact ⟨_, congrArg Host.Outcome.next (if_pos both), rfl, rfl, rfl⟩
  case stays =>
    have none : ¬ (s.plat.power && decide (slice < 16 ∧ sensor < 16)) = true := by
      rw [show s.plat.power = false from off, Bool.false_and]
      exact Bool.false_ne_true
    exact congrArg Host.Outcome.next (if_neg none)
  case logs => rw [trip_log, monRead_flash, monRead_tick]
  case reads =>
    obtain ⟨s', does, regs, homes, readings⟩ := monitor_reads (vcore := vcore) (vmem := vmem) (pcode := pcode) on small
      cool
    obtain ⟨top, core, mem, code⟩ := monWord_fields vcore vmem pcode cool (hottest_index temps)
    refine ⟨s', _, does, (congrArg (sget _ _) regs).trans (sget_sput_self ..), top, core, mem, code, ?_, homes⟩
    rw [readings]
    exact sget_sput_self ..

end Sys2Proof.Machine
end

section
/-! PROOFS. Other modules: flows, exports, resending and Ethernet frames (R323, R436, R444 to R447, R450). -/

namespace Sys2Proof.Machine

/-! The receive window of a flow (R445, R446). -/

theorem olderEpoch_self (a : Nat) : olderEpoch a a = false := by
  simp [olderEpoch]

theorem kmem_kdel_ne {k j : Nat} (h : k ≠ j) (l : KeySet) : kmem k (kdel j l) = kmem k l := by
  simp [kmem, kdel, h]

/-- A number that a window has taken in: it still waits in it, or the window has moved past it by at most m numbers. -/
def RxFlow.took (b m : Nat) (r : RxFlow) : Prop :=
  kmem b r.window = true ∨ ∃ j, 1 ≤ j ∧ j ≤ m ∧ r.expected = (b + j) % 2 ^ 32

theorem RxFlow.slide_epoch (n : Nat) (r : RxFlow) : (RxFlow.slide n r).epoch = r.epoch := by
  induction n generalizing r with
  | zero => rfl
  | succ n ih =>
    rw [RxFlow.slide]
    split
    · exact ih _
    · rfl

theorem RxFlow.took_step {b m : Nat} {r : RxFlow} (h : r.took b m) :
    ({ r with expected := (r.expected + 1) % 2 ^ 32, window := kdel r.expected r.window } : RxFlow).took b (m + 1) := by
  rcases h with h | ⟨j, h1, h2, h3⟩
  · by_cases e : b = r.expected
    · exact .inr ⟨1, Nat.le_refl _, by omega, by rw [e]⟩
    · exact .inl ((kmem_kdel_ne e _).trans h)
  · exact .inr ⟨j + 1, by omega, by omega, by simp only [h3]; omega⟩

theorem RxFlow.took_mono {b m n : Nat} {r : RxFlow} (h : r.took b m) (l : m ≤ n) : r.took b n :=
  h.imp id fun ⟨j, h1, h2, h3⟩ => ⟨j, h1, Nat.le_trans h2 l, h3⟩

theorem RxFlow.took_slide {b : Nat} (n m : Nat) {r : RxFlow} (h : r.took b m) : (RxFlow.slide n r).took b (m + n) := by
  induction n generalizing m r with
  | zero => exact h
  | succ n ih =>
    rw [RxFlow.slide]
    split
    · exact RxFlow.took_mono (ih (m + 1) (RxFlow.took_step h)) (by omega)
    · exact RxFlow.took_mono h (by omega)

/-- A number that the window has taken in is a duplicate when it comes again in the same epoch. -/
theorem RxFlow.receive_took {b : Nat} {y : RxFlow} (hb : b < 2 ^ 32) (h : y.took b 1025) :
    y.receive y.epoch b = .duplicate := by
  unfold RxFlow.receive
  rw [olderEpoch_self]
  simp only [Bool.false_eq_true, if_false, if_true]
  refine if_pos ?_
  rcases h with h | ⟨j, h1, h2, h3⟩
  · exact .inr h
  · left
    rw [h3]
    omega

theorem RxFlow.receive_older {x : RxFlow} {a : Nat} (b : Nat) (h : olderEpoch a x.epoch = true) :
    x.receive a b = .drop := by
  unfold RxFlow.receive
  exact if_pos h

/-- The flow as a number of an epoch finds it: a newer epoch begins it anew. -/
def RxFlow.inEpoch (x : RxFlow) (a : Nat) : RxFlow :=
  if a = x.epoch then x else { x with epoch := a, expected := 0, window := [] }

theorem RxFlow.inEpoch_epoch (x : RxFlow) (a : Nat) : (x.inEpoch a).epoch = a := by
  unfold RxFlow.inEpoch
  split
  · rename_i h
    exact h.symm
  · rfl

/-- How far a number lies ahead of the one that a flow expects. -/
def RxFlow.ahead (r : RxFlow) (seq : Nat) : Nat := (seq + 2 ^ 32 - r.expected) % 2 ^ 32

theorem RxFlow.receive_eq (x : RxFlow) (a b : Nat) : x.receive a b =
    if olderEpoch a x.epoch then .drop
    else if 2 ^ 31 ≤ (x.inEpoch a).ahead b ∨ kmem b (x.inEpoch a).window = true then .duplicate
    else if 1024 ≤ (x.inEpoch a).ahead b then .drop
    else .perform (RxFlow.slide 1025 { x.inEpoch a with window := kadd b (x.inEpoch a).window }) := rfl

/-- What a number that is performed leaves is the window with it, moved on. -/
theorem RxFlow.of_perform {x y : RxFlow} {a b : Nat} (h : x.receive a b = .perform y) :
    y = RxFlow.slide 1025 { x.inEpoch a with window := kadd b (x.inEpoch a).window } := by
  rw [RxFlow.receive_eq] at h
  by_cases h1 : olderEpoch a x.epoch = true
  · rw [if_pos h1] at h
    cases h
  · rw [if_neg h1] at h
    by_cases h2 : 2 ^ 31 ≤ (x.inEpoch a).ahead b ∨ kmem b (x.inEpoch a).window = true
    · rw [if_pos h2] at h
      cases h
    · rw [if_neg h2] at h
      by_cases h3 : 1024 ≤ (x.inEpoch a).ahead b
      · rw [if_pos h3] at h
        cases h
      · rw [if_neg h3] at h
        exact (Receipt.perform.inj h).symm

theorem RxFlow.receive_twice {x y : RxFlow} {a b : Nat} (hb : b < 2 ^ 32) (h : x.receive a b = .perform y) :
    y.receive a b = .duplicate := by
  have e := RxFlow.of_perform h
  have t : y.took b 1025 := by
    rw [e]
    exact RxFlow.took_mono (RxFlow.took_slide 1025 0 (.inl (kmem_kadd b _))) (by omega)
  have p : y.epoch = a := by
    rw [e, RxFlow.slide_epoch]
    exact x.inEpoch_epoch a
  have r := RxFlow.receive_took hb t
  rwa [p] at r

/-- The next number of an empty window moves it by one. -/
theorem RxFlow.receive_next {x : RxFlow} (h : x.window = []) :
    ∃ y, x.receive x.epoch x.expected = .perform y ∧ y.expected = (x.expected + 1) % 2 ^ 32 := by
  have k : (x.expected + 2 ^ 32 - x.expected) % 2 ^ 32 = 0 := by omega
  refine ⟨{ x with expected := (x.expected + 1) % 2 ^ 32, window := [] }, ?_, rfl⟩
  unfold RxFlow.receive
  rw [olderEpoch_self]
  simp only [Bool.false_eq_true, if_false, if_true, k, h]
  simp [kmem, kadd, kdel, RxFlow.slide]

/-! Requests of other modules. -/

theorem peerRequest_drop {s : State} {m : PeerMsg} (h : (s.rxOf m).receive m.epoch m.seq = .drop) :
    exec (.peerRequest m) s = .next s := by
  change Host.Outcome.next (s.peerRequest m) = _
  unfold State.peerRequest
  simp only [h]

theorem peerRequest_duplicate {s : State} {m : PeerMsg} (h : (s.rxOf m).receive m.epoch m.seq = .duplicate) :
    exec (.peerRequest m) s = .next (s.reAck m) := by
  change Host.Outcome.next (s.peerRequest m) = _
  unfold State.peerRequest
  simp only [h]

theorem peerRequest_perform {s : State} {m : PeerMsg} {r : RxFlow} (h : (s.rxOf m).receive m.epoch m.seq = .perform r) :
    exec (.peerRequest m) s = .next ((s.putRx m r).admitPeer m) := by
  change Host.Outcome.next (s.peerRequest m) = _
  unfold State.peerRequest
  simp only [h]

theorem admitPeer_alone {s : State} {m : PeerMsg} (h : s.partOf m.slice = none) : s.admitPeer m = s.refusePeer m := by
  unfold State.admitPeer
  simp only [h]

/-- What FLOW_RESET makes of one receive state (R446). -/
def RxFlow.resetAt (smod flow epoch : Nat) (r : RxFlow) : RxFlow :=
  if r.smod = smod ∧ r.flow = flow ∧ olderEpoch epoch r.epoch = false then
    { r with epoch := epoch, expected := 0, window := [] }
  else r

theorem resetAt_gone (smod flow epoch : Nat) (r : RxFlow) (h1 : (r.resetAt smod flow epoch).smod = smod)
    (h2 : (r.resetAt smod flow epoch).flow = flow) :
    olderEpoch epoch (r.resetAt smod flow epoch).epoch = true ∨ ((r.resetAt smod flow epoch).epoch = epoch ∧
      (r.resetAt smod flow epoch).expected = 0 ∧ (r.resetAt smod flow epoch).window = []) := by
  unfold RxFlow.resetAt at *
  split at h1
  · rename_i h
    rw [if_pos h]
    exact .inr ⟨rfl, rfl, rfl⟩
  · rename_i h
    rw [if_neg h] at h2 ⊢
    left
    cases o : olderEpoch epoch r.epoch with
    | false => exact absurd ⟨h1, h2, o⟩ h
    | true => rfl

theorem flowReset_empties (s : State) (smod flow epoch : Nat) :
    ∃ s', exec (.flowReset smod flow epoch) s = .next s' ∧ s'.fab.outbox = s.fab.outbox ++ [.resetAck smod flow epoch] ∧
      s'.homes = s.homes ∧ (∀ x ∈ s'.fab.rxFlows, x.smod = smod → x.flow = flow →
        olderEpoch epoch x.epoch = true ∨ (x.epoch = epoch ∧ x.expected = 0 ∧ x.window = [])) := by
  refine ⟨_, rfl, rfl, rfl, fun x hx h1 h2 => ?_⟩
  obtain ⟨r, -, rfl⟩ := List.mem_map.mp hx
  exact resetAt_gone smod flow epoch r h1 h2

/-! The source side. -/

theorem flowResetAck_some {s : State} {flow : Nat} {f : Flow} (h : s.flow? flow = some f) :
    exec (.flowResetAck flow) s = .next (s.setFlow flow { f with resetSent := false }) := by
  change execFlowResetAck flow s = _
  unfold execFlowResetAck
  simp only [h]

theorem flowResetAck_none {s : State} {flow : Nat} (h : s.flow? flow = none) :
    exec (.flowResetAck flow) s = .next s := by
  change execFlowResetAck flow s = _
  unfold execFlowResetAck
  simp only [h]

theorem flowAck_some {s : State} {flow seq : Nat} {c : FlowCopy} (data : List Byte) (poison : Bool)
    (h : s.copy? flow seq = some c) : exec (.flowAck flow seq data poison) s =
      .next ((s.dropCopy flow seq).endLoad c.pkt.load data poison (data.headD 0).toNat) := by
  change execFlowAck flow seq data poison s = _
  unfold execFlowAck
  simp only [h]

theorem flowAck_none {s : State} {flow seq : Nat} (data : List Byte) (poison : Bool) (h : s.copy? flow seq = none) :
    exec (.flowAck flow seq data poison) s = .next s := by
  change execFlowAck flow seq data poison s = _
  unfold execFlowAck
  simp only [h]

section
variable {s : State} {flow seq : Nat} {f : Flow} {c : FlowCopy}

theorem flowResendTimeout_early (hf : s.flow? flow = some f) (hc : s.copy? flow seq = some c) (h : s.tick < c.due) :
    exec (.flowResendTimeout flow seq) s = .next s := by
  change execFlowResendTimeout flow seq s = _
  unfold execFlowResendTimeout
  simp only [hf, hc, if_pos h]

theorem flowResendTimeout_gives_up (hf : s.flow? flow = some f) (hc : s.copy? flow seq = some c) (h : c.due ≤ s.tick)
    (h8 : 8 ≤ c.sends) (hl : s.losesWrite c.pkt.load = false) : exec (.flowResendTimeout flow seq) s =
      .next ((s.dropCopy flow seq).endLoad c.pkt.load [] true msTimeout) := by
  change execFlowResendTimeout flow seq s = _
  unfold execFlowResendTimeout
  simp only [hf, hc, if_neg (Nat.not_lt.mpr h), if_pos h8, hl, Bool.false_eq_true, if_false]

theorem flowResendTimeout_again (hf : s.flow? flow = some f) (hc : s.copy? flow seq = some c) (h : c.due ≤ s.tick)
    (h8 : c.sends < 8) (hp : s.fab.packets = []) :
    let c1 := { c with sends := c.sends + 1, due := s.tick + 16000 }
    let s1 := (s.setFlow flow { f with copies := sset seq c1 f.copies }).at (s.tick + 16000)
      (.flowResendTimeout flow seq)
    exec (.flowResendTimeout flow seq) s =
      .next ((s1.newPacket c.pkt).2.later (.switchForward (s1.newPacket c.pkt).1)) := by
  change execFlowResendTimeout flow seq s = _
  unfold execFlowResendTimeout
  simp only [hf, hc, if_neg (Nat.not_lt.mpr h), if_neg (Nat.not_le.mpr h8), hp, List.any_nil, Bool.false_eq_true,
    if_false,
    resendTicks]

end

/-! Ethernet (R450). -/

section
variable {s : State} {fr : EthFrame}

theorem ethFrameReceive_off (h : (s.reg fr.slice 0 0xD0).toNat % 2 = 0) : exec (.ethFrameReceive fr) s = .next s := by
  change execEthFrameReceive fr s = _
  unfold execEthFrameReceive
  simp only [if_pos h]

theorem ethFrameReceive_alone (h : (s.reg fr.slice 0 0xD0).toNat % 2 = 1) (hd : fr.device = none)
    (hp : s.partOf fr.slice = none) : exec (.ethFrameReceive fr) s = .next s := by
  have h0 : ¬ (s.reg fr.slice 0 0xD0).toNat % 2 = 0 := by omega
  change execEthFrameReceive fr s = _
  unfold execEthFrameReceive
  simp only [if_neg h0, hd, hp]

theorem ethFrameReceive_message {u : PeerMsg} {core vf ring no : Nat} {bs : List Byte} {bp : KeySet}
    (h : (s.reg fr.slice 0 0xD0).toNat % 2 = 1) (hd : fr.device = some u) (ha : u.ask = .msg core vf ring no bs bp) :
    exec (.ethFrameReceive fr) s = exec (.peerRequest { u with slice := fr.slice }) s := by
  have h0 : ¬ (s.reg fr.slice 0 0xD0).toNat % 2 = 0 := by omega
  change execEthFrameReceive fr s = .next (s.peerRequest { u with slice := fr.slice })
  unfold execEthFrameReceive
  simp only [if_neg h0, hd, ha]

theorem ethFrameReceive_frame {part i : Nat} {q : Sequence} {s1 : State} (h : (s.reg fr.slice 0 0xD0).toNat % 2 = 1)
    (hd : fr.device = none) (hp : s.partOf fr.slice = some part)
    (hq : s.seqOf 127 s.plat.module fr.slice ((s.reg fr.slice 0 0xD0).toNat / 2 ^ 36 % 2 ^ 12) = (i, q, s1)) :
    ∃ (s' : State) (k mid : Nat) (p : Packet) (x : Message), exec (.ethFrameReceive fr) s = .next s' ∧
      s'.packet? k = some p ∧ p.load = .msg mid ∧ s'.msg? mid = some x ∧ x.bytes = fr.bytes ∧ x.core = 127 ∧ x.seq =
        q.nextNo ∧
      x.ring = (s.reg fr.slice 0 0xD0).toNat / 2 ^ 36 % 2 ^ 12 ∧ Ev.messageDelivery k ∈ s'.todo := by
  have h0 : ¬ (s.reg fr.slice 0 0xD0).toNat % 2 = 0 := by omega
  have e : execEthFrameReceive fr s = execEthFrameReceive fr s := rfl
  conv at e => rhs; unfold execEthFrameReceive
  simp only [bitsOf, if_neg h0, hd, hp, hq] at e
  exact ⟨_, _, _, _, _, e, sfind_sset_self _ _ _, rfl, sfind_sset_self _ _ _, rfl, rfl, rfl, rfl,
    List.mem_append_right _ (List.mem_singleton.mpr rfl)⟩

end

/-- Settles O60: a window that took a number in still holds it or has moved past it, which makes it a duplicate;
the events are read off their definitions. -/
theorem peerEvents : Obligations.PeerEvents := by
  intro s smod flow epoch seq m r f c data poison fr
  refine ⟨fun _ _ b h => RxFlow.receive_older b h, fun _ _ _ _ _ hb h => RxFlow.receive_twice hb h, ?_,
    peerRequest_drop, peerRequest_duplicate, peerRequest_perform, admitPeer_alone, flowReset_empties s smod flow epoch,
    flowResetAck_some, flowResetAck_none, flowAck_some data poison, flowAck_none data poison, flowResendTimeout_early,
    flowResendTimeout_gives_up, flowResendTimeout_again, ethFrameReceive_off, ethFrameReceive_alone,
    fun part i q s1 h hd hp hq => ethFrameReceive_frame h hd hp hq,
    fun u core vf ring no bs bp h hd ha => ethFrameReceive_message h hd ha⟩
  rintro x b hw rfl
  exact RxFlow.receive_next hw

end Sys2Proof.Machine
end

section
/-! PROOFS. What leaves memory and its waiting writes as they are, function by function. -/

namespace Sys2Proof.Machine

/-- Memory, and the writes that wait at their homes for their tick. -/
def Homes.kept (h : Homes) : List Host.Cell × List WaitingWrite := (h.mem, h.waiting)

theorem foldl_kept {A : Type} (f : State → A → State) (h : ∀ s a, (f s a).homes.kept = s.homes.kept) (xs : List A)
    (s : State) : (xs.foldl f s).homes.kept = s.homes.kept :=
  List.foldlRecOn xs f (motive := fun u => u.homes.kept = s.homes.kept) rfl fun u g a _ => (h u a).trans g

theorem foldl_snd_kept {A B : Type} (f : B × State → A → B × State)
    (h : ∀ x a, (f x a).2.homes.kept = x.2.homes.kept) (xs : List A) (x : B × State) :
    (xs.foldl f x).2.homes.kept = x.2.homes.kept :=
  List.foldlRecOn xs f (motive := fun u => u.2.homes.kept = x.2.homes.kept) rfl fun u g a _ => (h u a).trans g

/-! The functions of Machine/Memory. -/

theorem setReg_kept (s : State) (slice unit reg : Nat) (v : W64) :
    (s.setReg slice unit reg v).homes.kept = s.homes.kept := by
  unfold State.setReg
  grind

theorem setPartReg_kept (s : State) (part reg : Nat) (v : W64) :
    (s.setPartReg part reg v).homes.kept = s.homes.kept := by
  unfold State.setPartReg
  grind [setReg_kept, foldl_kept]

theorem countCause_kept (s : State) (k : BitVec 8) : (s.countCause k).homes.kept = s.homes.kept := by
  unfold State.countCause
  grind

theorem setVfcfg_kept (s : State) (part vf : Nat) (now next : W64) (when_ : Nat) :
    (s.setVfcfg part vf now next when_).homes.kept = s.homes.kept := by
  unfold State.setVfcfg
  grind [setPartReg_kept]

theorem walked_kept (s : State) (part vf : Nat) (lines : List (Nat × Bool)) :
    (s.walked part vf lines).homes.kept = s.homes.kept := by
  unfold State.walked
  grind

theorem xlate_kept (s : State) (slice : Nat) (rg : Regime) (va : Nat) (need : Need) :
    (s.xlate slice rg va need).2.homes.kept = s.homes.kept := by
  unfold State.xlate
  grind [walked_kept]

/-! The functions of Machine/Ops. -/

theorem setCore_kept (s : State) (c : Nat) (x : Core) : (s.setCore c x).homes.kept = s.homes.kept := by
  unfold State.setCore
  grind

theorem setTroupe_kept (s : State) (k : TKey) (t : Troupe) : (s.setTroupe k t).homes.kept = s.homes.kept := by
  unfold State.setTroupe
  grind

theorem modTroupe_kept (s : State) (k : TKey) (f : Troupe → Troupe) : (s.modTroupe k f).homes.kept = s.homes.kept := by
  unfold State.modTroupe
  grind [setTroupe_kept]

theorem setBlock_kept (s : State) (b : Nat) (x : Block) : (s.setBlock b x).homes.kept = s.homes.kept := by
  unfold State.setBlock
  grind

theorem modBlock_kept (s : State) (b : Nat) (f : Block → Block) : (s.modBlock b f).homes.kept = s.homes.kept := by
  unfold State.modBlock
  grind [setBlock_kept]

theorem setHomes_kept (s : State) (h : Homes) : (s.setHomes h).homes.kept = h.kept := rfl

theorem setFlight_kept (s : State) (f : Flight) : (s.setFlight f).homes.kept = s.homes.kept := by
  unfold State.setFlight
  grind

theorem setPkg_kept (s : State) (p : Package) : (s.setPkg p).homes.kept = s.homes.kept := by
  unfold State.setPkg
  grind

theorem setFab_kept (s : State) (f : Fabric) : (s.setFab f).homes.kept = s.homes.kept := by
  unfold State.setFab
  grind

theorem setPlat_kept (s : State) (p : Platform) : (s.setPlat p).homes.kept = s.homes.kept := by
  unfold State.setPlat
  grind

theorem setPart_kept (s : State) (p : Nat) (x : Partition) : (s.setPart p x).homes.kept = s.homes.kept := by
  unfold State.setPart
  grind [setPkg_kept]

theorem modPart_kept (s : State) (p : Nat) (f : Partition → Partition) : (s.modPart p f).homes.kept = s.homes.kept := by
  unfold State.modPart
  grind [setPart_kept]

theorem setHart_kept (s : State) (h : Nat) (x : Hart) : (s.setHart h x).homes.kept = s.homes.kept := by
  unfold State.setHart
  grind

theorem post_kept (s : State) (i : Ev) : (s.post i).homes.kept = s.homes.kept := by
  unfold State.post
  grind

theorem postOnce_kept (s : State) (i : Ev) : (s.postOnce i).homes.kept = s.homes.kept := by
  unfold State.postOnce
  grind [post_kept]

theorem at_kept (s : State) (tick : Nat) (i : Ev) : (s.at tick i).homes.kept = s.homes.kept := by
  unfold State.at
  grind [post_kept]

theorem later_kept (s : State) (i : Ev) : (s.later i).homes.kept = s.homes.kept := by
  unfold State.later
  grind [at_kept]

theorem laterOnce_kept (s : State) (i : Ev) : (s.laterOnce i).homes.kept = s.homes.kept := by
  unfold State.laterOnce
  grind [later_kept]

theorem bump_kept (s : State) : s.bump.homes.kept = s.homes.kept := by
  unfold State.bump
  grind

theorem newId_kept (s : State) : s.newId.2.homes.kept = s.homes.kept := by
  unfold State.newId
  grind [setFlight_kept]

theorem countEnergy_kept (s : State) (part vf : Nat) (e : EnergyEvent) (n : Nat) :
    (s.countEnergy part vf e n).homes.kept = s.homes.kept := by
  unfold State.countEnergy
  grind [modPart_kept]

theorem fetchHome_kept (s : State) (core : Nat) (rg : Regime) (d tag : Nat) :
    (s.fetchHome core rg d tag).2.homes.kept = s.homes.kept := by
  unfold State.fetchHome
  grind [walked_kept, setCore_kept]

theorem fetchWord_kept (s : State) (core : Nat) (rg : Regime) (va : VAddr) :
    (s.fetchWord core rg va).2.homes.kept = s.homes.kept := by
  unfold State.fetchWord
  grind [xlate_kept, fetchHome_kept]

theorem leavePipe_kept (s : State) (k : TKey) : (s.leavePipe k).homes.kept = s.homes.kept := by
  unfold State.leavePipe
  grind [setCore_kept]

theorem offPipe_kept (s : State) (k : TKey) : (s.offPipe k).homes.kept = s.homes.kept := by
  unfold State.offPipe
  have h1 := @leavePipe_kept
  grind

theorem reGrant_kept (s : State) (k : TKey) : (s.reGrant k).homes.kept = s.homes.kept := by
  unfold State.reGrant
  grind [postOnce_kept]

theorem boundary_kept (s : State) (k : TKey) (rg : Regime) (t : Troupe) :
    (s.boundary k rg t).homes.kept = s.homes.kept := by
  unfold State.boundary
  have h1 := @leavePipe_kept
  grind [later_kept, setTroupe_kept, laterOnce_kept]

theorem endClause_kept (s : State) (c : Ctx) (t : Troupe) (next : List (VAddr × LaneMask)) :
    (s.endClause c t next).homes.kept = s.homes.kept := by
  unfold State.endClause
  have h1 := @offPipe_kept
  have h2 := @boundary_kept
  grind [post_kept, setTroupe_kept]

theorem advance_kept (s : State) (c : Ctx) (t : Troupe) : (s.advance c t).homes.kept = s.homes.kept := by
  unfold State.advance
  have h1 := @endClause_kept
  grind [setTroupe_kept]

theorem stall_kept (s : State) (c : Ctx) : (s.stall c).homes.kept = s.homes.kept := by
  unfold State.stall
  grind [setTroupe_kept, later_kept]

theorem queueRing_kept (s : State) (slice part : Nat) (ring : Ring) (words : List W64) (saved caller : Option Nat) :
    (s.queueRing slice part ring words saved caller).2.homes.kept = s.homes.kept := by
  unfold State.queueRing
  grind [newId_kept, postOnce_kept, setPkg_kept]

theorem haltDouble_kept (s : State) (c : Ctx) (t : Troupe) (first second : BitVec 8) (inst addr mask : W64) :
    (s.haltDouble c t first second inst addr mask).homes.kept = s.homes.kept := by
  unfold State.haltDouble
  have h1 := @offPipe_kept
  have h2 := @queueRing_kept
  grind [newId_kept, setTroupe_kept, setPkg_kept]

theorem takeTrap_kept (s : State) (c : Ctx) (ti : TrapInfo) : (s.takeTrap c ti).homes.kept = s.homes.kept := by
  unfold State.takeTrap
  have h1 := @haltDouble_kept
  have h2 := @offPipe_kept
  grind [laterOnce_kept, setTroupe_kept]

theorem raise_kept (s : State) (c : Ctx) (cause : BitVec 8) (info addr : W64) (mask : LaneMask) :
    (s.raise c cause info addr mask).homes.kept = s.homes.kept := by
  unfold State.raise
  have h1 := @takeTrap_kept
  grind

theorem raiseFault_kept (s : State) (c : Ctx) (f : XFault) (inst : VAddr) (va : Nat) (lanes : LaneMask) (buffer : Nat)
    (write : Bool) (width kind : Nat) :
    (s.raiseFault c f inst va lanes buffer write width kind).homes.kept = s.homes.kept := by
  unfold State.raiseFault
  have h1 := @haltDouble_kept
  have h2 := @offPipe_kept
  grind [countCause_kept, post_kept, setTroupe_kept]

/-! The functions of Machine/Operands. -/

theorem whenReady_kept (s : State) (c : Ctx) (i : Instr) (m : LaneMask) {k : State}
    (hk : k.homes.kept = s.homes.kept) : (s.whenReady c i m k).homes.kept = s.homes.kept := by
  unfold State.whenReady
  have h1 := @raise_kept
  have h2 := @stall_kept
  grind

/-! The functions of Machine/Control. -/

theorem branch_kept (s : State) (c : Ctx) (g : Option Guard) (target : VAddr) :
    (s.branch c g target).homes.kept = s.homes.kept := by
  unfold State.branch
  have h1 := @raise_kept
  have h2 := @endClause_kept
  grind

theorem goto_kept (s : State) (c : Ctx) (t : Troupe) (r : Reg) (m guardBad : LaneMask) :
    (s.goto c t r m guardBad).homes.kept = s.homes.kept := by
  unfold State.goto
  have h1 := @raise_kept
  have h2 := @endClause_kept
  grind

theorem softTrap_kept (s : State) (c : Ctx) (cause : BitVec 8) (imm : W32) :
    (s.softTrap c cause imm).homes.kept = s.homes.kept := by
  unfold State.softTrap
  have h1 := @takeTrap_kept
  grind

/-! The functions of Machine/Routes. -/

theorem newPacket_kept (s : State) (p : Packet) : (s.newPacket p).2.homes.kept = s.homes.kept := by
  unfold State.newPacket
  grind [newId_kept, setFab_kept]

theorem countRoute_kept (s : State) (slice : Nat) : (s.countRoute slice).homes.kept = s.homes.kept := by
  unfold State.countRoute
  grind [setReg_kept]

theorem countDemoted_kept (s : State) (slice : Nat) : (s.countDemoted slice).homes.kept = s.homes.kept := by
  unfold State.countDemoted
  grind [setReg_kept]

theorem countPacket_kept (s : State) (part vf : Nat) : (s.countPacket part vf).homes.kept = s.homes.kept := by
  unfold State.countPacket
  grind [countEnergy_kept]

theorem holdPacket_kept (s : State) (part srcLeaf dstLeaf : Nat) (cls : PClass) (e : Ev) :
    (s.holdPacket part srcLeaf dstLeaf cls e).homes.kept = s.homes.kept := by
  unfold State.holdPacket
  have h1 := @queueRing_kept
  have h2 := @newPacket_kept
  have h3 := @countRoute_kept
  grind

theorem sendPeer_kept (s : State) (slice ppa part vf : Nat) (l : Load) :
    (s.sendPeer slice ppa part vf l).homes.kept = s.homes.kept := by
  unfold State.sendPeer
  have h1 := @newPacket_kept
  grind [later_kept]

theorem send_kept (s : State) (from_ dstLeaf : Nat) (cls : PClass) (e : Ev) :
    (s.send from_ dstLeaf cls e).homes.kept = s.homes.kept := by
  unfold State.send
  have h1 := @countPacket_kept
  have h2 := @holdPacket_kept
  grind [later_kept, at_kept]

theorem setPair_kept (s : State) (key : Nat) (p : BankPair) : (s.setPair key p).homes.kept = s.homes.kept := by
  unfold State.setPair
  grind [setFab_kept]

theorem pairSend_kept (s : State) (key : Nat) (p : BankPair) (m : Nat × Nat × PClass × Ev) :
    (s.pairSend key p m).homes.kept = s.homes.kept := by
  unfold State.pairSend
  have h1 := @send_kept
  have h2 := @setPair_kept
  grind [at_kept]

theorem bankSend_kept (s : State) (line recv from_ dst : Nat) (cls : PClass) (e : Ev) :
    (s.bankSend line recv from_ dst cls e).homes.kept = s.homes.kept := by
  unfold State.bankSend
  have h1 := @pairSend_kept
  have h2 := @setPair_kept
  grind

theorem bankAck_kept (s : State) (key : Nat) : (s.bankAck key).homes.kept = s.homes.kept := by
  unfold State.bankAck
  have h1 := @pairSend_kept
  have h2 := @setPair_kept
  grind

/-! The functions of Machine/HartXlate. -/

theorem hartTrap_kept (s : State) (h : Nat) (e : HExc) : (s.hartTrap h e).homes.kept = s.homes.kept := by
  unfold State.hartTrap
  grind [setHart_kept]

theorem hartNext_kept (s : State) (h : Nat) : (s.hartNext h).homes.kept = s.homes.kept := by
  unfold State.hartNext
  grind [setHart_kept]

theorem hartXlate_kept (s : State) (h : Nat) (a : HAcc) (va n : Nat) :
    (s.hartXlate h a va n).2.homes.kept = s.homes.kept := by
  unfold State.hartXlate
  grind [setHart_kept, walked_kept]

theorem hartXlateAs_kept (s : State) (h : Nat) (rg : Regime) (a : HAcc) (va n : Nat) :
    (s.hartXlateAs h rg a va n).2.homes.kept = s.homes.kept := by
  unfold State.hartXlateAs
  have h1 := @hartXlate_kept
  grind [setHart_kept]

/-! The functions of Machine/Lines. -/

theorem breakReservations_kept (s : State) (line : Nat) : (s.breakReservations line).homes.kept = s.homes.kept := by
  unfold State.breakReservations
  grind

theorem record_kept (h : Homes) (tick line x : Nat) : (h.record tick line x).kept = h.kept := by
  unfold Homes.record
  grind [Homes.kept]

theorem grant_kept (s : State) (line slice code : Nat) : (s.grant line slice code).2.homes.kept = s.homes.kept := by
  have inf (m : BitVec 16) : ({ s.homes with inf := sset line m s.homes.inf } : Homes).kept = s.homes.kept := rfl
  unfold State.grant
  have h1 := @record_kept
  grind [setHomes_kept]

theorem rdcFill_kept (s : State) (slice line : Nat) (expiry : Option Nat) :
    (s.rdcFill slice line expiry).homes.kept = s.homes.kept := by
  unfold State.rdcFill
  grind [Homes.kept, bump_kept, setHomes_kept]

theorem chanReq_kept (s : State) (r : ChanReq) : (s.chanReq r).homes.kept = s.homes.kept := by
  unfold State.chanReq
  grind [Homes.kept, postOnce_kept, setHomes_kept]

theorem chanAsk_kept (s : State) (vf : Option Nat) (line : Nat) (write : Bool) :
    (s.chanAsk vf line write).homes.kept = s.homes.kept := by
  unfold State.chanAsk
  have h1 := @chanReq_kept
  grind

theorem tsFill_kept (s : State) (line : Nat) : (s.tsFill line).homes.kept = s.homes.kept := by
  unfold State.tsFill
  have h1 := @chanAsk_kept
  grind [Homes.kept, setHomes_kept, bump_kept]

theorem l2Fill_kept (s : State) (line vf : Nat) : (s.l2Fill line vf).homes.kept = s.homes.kept := by
  unfold State.l2Fill
  have h1 := @chanAsk_kept
  grind [Homes.kept, setHomes_kept, bump_kept]

theorem l2Write_kept (s : State) (line vf : Nat) : (s.l2Write line vf).homes.kept = s.homes.kept := by
  unfold State.l2Write
  have h1 := @l2Fill_kept
  have h2 := @chanAsk_kept
  grind [Homes.kept, bump_kept, setHomes_kept]

/-! The functions of Machine/HomeEvents. -/

theorem setOp_kept (s : State) (id : Nat) (o : MemOp) : (s.setOp id o).homes.kept = s.homes.kept := by
  unfold State.setOp
  grind [setFlight_kept]

theorem delOp_kept (s : State) (id : Nat) : (s.delOp id).homes.kept = s.homes.kept := by
  unfold State.delOp
  grind [setFlight_kept]

theorem modPart?_kept (s : State) (id line : Nat) (f : Part → Part) :
    (s.modPart? id line f).homes.kept = s.homes.kept := by
  unfold State.modPart?
  have h1 := @setOp_kept
  grind

theorem toHome_kept (s : State) (o : MemOp) (line : Nat) (e : Ev) : (s.toHome o line e).homes.kept = s.homes.kept := by
  unfold State.toHome
  have h1 := @send_kept
  grind

theorem fromHome_kept (s : State) (o : MemOp) (line : Nat) (e : Ev) :
    (s.fromHome o line e).homes.kept = s.homes.kept := by
  unfold State.fromHome
  have h1 := @bankSend_kept
  grind

theorem peerReply_kept (s : State) (id : Nat) (data : List Byte) (poison : Bool) :
    (s.peerReply id data poison).homes.kept = s.homes.kept := by
  unfold State.peerReply
  grind [setFab_kept]

theorem tellOwner_kept (s : State) (o : MemOp) : (s.tellOwner o).homes.kept = s.homes.kept := by
  unfold State.tellOwner
  have h1 := @peerReply_kept
  grind

theorem settleOp_kept (s : State) (id : Nat) : (s.settleOp id).homes.kept = s.homes.kept := by
  unfold State.settleOp
  have h1 := @setOp_kept
  have h2 := @delOp_kept
  have h3 := @tellOwner_kept
  grind [modTroupe_kept]

theorem noteRefusal_kept (s : State) (line : Nat) : (s.noteRefusal line).homes.kept = s.homes.kept := by
  unfold State.noteRefusal
  grind [at_kept, setCore_kept]

theorem refuse_kept (s : State) (id line : Nat) : (s.refuse id line).homes.kept = s.homes.kept := by
  unfold State.refuse
  have h1 := @noteRefusal_kept
  have h2 := @fromHome_kept
  grind

theorem dropRdc_kept (s : State) (slice line : Nat) : (s.dropRdc slice line).homes.kept = s.homes.kept := by
  unfold State.dropRdc
  grind [Homes.kept, setHomes_kept]

theorem sendWrite_kept (s : State) (o : MemOp) (id line : Nat) : (s.sendWrite o id line).homes.kept = s.homes.kept := by
  unfold State.sendWrite
  have h1 := @toHome_kept
  have h2 := @dropRdc_kept
  grind

theorem writeBacks_kept (s : State) (core : Nat) (keys : List Nat) (owner : Owner) (keep counted : Bool) :
    (s.writeBacks core keys owner keep counted).2.homes.kept = s.homes.kept := by
  unfold State.writeBacks
  have h1 := @setOp_kept
  have h2 := @sendWrite_kept
  grind [newId_kept, setCore_kept, foldl_kept]

theorem writeBack_kept (s : State) (core key : Nat) (owner : Owner) (keep : Bool) :
    (s.writeBack core key owner keep).2.homes.kept = s.homes.kept := by
  unfold State.writeBack
  have h1 := @writeBacks_kept
  grind

theorem l1Place_kept (s : State) (core line : Nat) : (s.l1Place core line).2.homes.kept = s.homes.kept := by
  unfold State.l1Place
  have h1 := @writeBack_kept
  grind [setCore_kept]

theorem l1Fill_kept (s : State) (core line rank : Nat) (expiry : Option Nat) :
    (s.l1Fill core line rank expiry).homes.kept = s.homes.kept := by
  unfold State.l1Fill
  have h1 := @l1Place_kept
  grind [bump_kept, setCore_kept]

theorem overflowPin_kept (s : State) (core : Nat) : (s.overflowPin core).homes.kept = s.homes.kept := by
  unfold State.overflowPin
  have h1 := @writeBack_kept
  grind

theorem pinnedAccess_kept (s : State) (core key : Nat) (o : MemOp) (accs : List LaneAcc) :
    (s.pinnedAccess core key o accs).2.homes.kept = s.homes.kept := by
  unfold State.pinnedAccess
  grind [bump_kept, setCore_kept, foldl_kept]

theorem takeGwct_kept (s : State) (o : MemOp) (p : Nat) : (s.takeGwct o p).homes.kept = s.homes.kept := by
  unfold State.takeGwct
  grind [modTroupe_kept, setHart_kept, setFlight_kept]

theorem ackRecall_kept (s : State) (line sl : Nat) : (s.ackRecall line sl).homes.kept = s.homes.kept := by
  unfold State.ackRecall
  have h1 := @send_kept
  grind [at_kept]

theorem sendRecall_kept (s : State) (line sl from_ dst : Nat) (cls : PClass) (e : Ev) :
    (s.sendRecall line sl from_ dst cls e).homes.kept = s.homes.kept := by
  unfold State.sendRecall
  have h1 := @bankSend_kept
  grind [at_kept]

theorem sendRecalls_kept (s : State) (line : Nat) (m : BitVec 16) :
    (s.sendRecalls line m).homes.kept = s.homes.kept := by
  unfold State.sendRecalls
  have h1 := @sendRecall_kept
  grind [Homes.kept, setHomes_kept, foldl_kept]

theorem performHere_kept (s : State) (id line core key : Nat) (o : MemOp) (accs : List LaneAcc) :
    (s.performHere id line core key o accs).homes.kept = s.homes.kept := by
  unfold State.performHere
  have h1 := @pinnedAccess_kept
  have h2 := @modPart?_kept
  have h3 := @settleOp_kept
  grind [later_kept]

theorem countRefusal_kept (s : State) : s.countRefusal.homes.kept = s.homes.kept := by
  unfold State.countRefusal
  grind [setPlat_kept]

theorem dropAccess_kept (s : State) (id line : Nat) (o : MemOp) :
    (s.dropAccess id line o).homes.kept = s.homes.kept := by
  unfold State.dropAccess
  have h1 := @countRefusal_kept
  have h2 := @modPart?_kept
  have h3 := @fromHome_kept
  grind [Homes.kept, setHomes_kept]

theorem answerRead_kept (s : State) (id line : Nat) (o : MemOp) (p : Part) :
    (s.answerRead id line o p).homes.kept = s.homes.kept := by
  unfold State.answerRead
  have h1 := @grant_kept
  have h2 := @rdcFill_kept
  have h3 := @modPart?_kept
  have h4 := @fromHome_kept
  grind [setHart_kept]

theorem registerPin_kept (s : State) (o : MemOp) (line tag : Nat) (va : Option Nat) :
    (s.registerPin o line tag va).homes.kept = s.homes.kept := by
  unfold State.registerPin
  have h1 := @overflowPin_kept
  have h2 := @l1Place_kept
  grind [Homes.kept, setCore_kept, bump_kept, setHomes_kept]

theorem widenHolder_kept (s : State) (o : MemOp) (line key : Nat) :
    (s.widenHolder o line key).homes.kept = s.homes.kept := by
  unfold State.widenHolder
  grind [Homes.kept, setCore_kept, setHomes_kept]

theorem retranslateBack_kept (s : State) (id line : Nat) (o : MemOp) :
    (s.retranslateBack id line o).2.homes.kept = s.homes.kept := by
  unfold State.retranslateBack
  have h1 := @setOp_kept
  grind [Homes.kept, setHomes_kept]

theorem retranslate_kept (s : State) (id line : Nat) : (s.retranslate id line).2.homes.kept = s.homes.kept := by
  unfold State.retranslate
  split
  · rfl
  · split
    · rfl
    · split
      · rfl
      · dsimp only
        split
        · exact setOp_kept _ _ _
        · rfl

theorem hartReturn_kept (s : State) (h rd va : Nat) (v : W64) (poison : Bool) :
    (s.hartReturn h rd va v poison).homes.kept = s.homes.kept := by
  unfold State.hartReturn
  have h1 := @hartTrap_kept
  grind [setHart_kept]

theorem setBucket_kept (s : State) (slice vf units : Nat) : (s.setBucket slice vf units).homes.kept = s.homes.kept := by
  unfold State.setBucket
  grind [setReg_kept]

theorem charge_kept (s : State) (slice : Nat) (r : ChanReq) : (s.charge slice r).homes.kept = s.homes.kept := by
  unfold State.charge
  have h1 := @setBucket_kept
  grind

/-! The functions of Machine/Issue. -/

theorem checkWords_kept (s : State) (core : Nat) (rg : Regime) (cls nregs : Nat) (header : W64) (n : Nat) (a : VAddr)
    (ws : List W64) : (s.checkWords core rg cls nregs header n a ws).2.homes.kept = s.homes.kept := by
  induction n generalizing s a ws with
  | zero => rfl
  | succ n ih =>
    unfold State.checkWords
    grind [fetchWord_kept]

theorem checkClause_kept (s : State) (core : Nat) (rg : Regime) (nregs : Nat) (a : VAddr) :
    (s.checkClause core rg nregs a).2.homes.kept = s.homes.kept := by
  unfold State.checkClause
  have h1 := @checkWords_kept
  grind [fetchWord_kept]

theorem fillPipe_kept (s : State) (core pipe : Nat) : (s.fillPipe core pipe).homes.kept = s.homes.kept := by
  unfold State.fillPipe
  grind [setCore_kept, post_kept, bump_kept, modTroupe_kept]

theorem issueFailed_kept (s : State) (c : Ctx) (k : Checked) : (s.issueFailed c k).homes.kept = s.homes.kept := by
  unfold State.issueFailed
  have h1 := @takeTrap_kept
  have h2 := @raiseFault_kept
  have h3 := @noteRefusal_kept
  grind [later_kept, setTroupe_kept]

theorem issueClause_kept (s : State) (k : TKey) (t : Troupe) (b : Block) (p : Path) :
    (s.issueClause k t b p).homes.kept = s.homes.kept := by
  unfold State.issueClause
  have h1 := @checkClause_kept
  have h2 := @offPipe_kept
  have h3 := @endClause_kept
  have h4 := @issueFailed_kept
  grind [laterOnce_kept, countEnergy_kept, setTroupe_kept]

/-! The functions of Machine/MemoryAccess. -/

theorem xlatePages_kept (s : State) (slice : Nat) (rg : Regime) (need : Need) (pages : List Nat) :
    (s.xlatePages slice rg need pages).2.homes.kept = s.homes.kept := by
  unfold State.xlatePages
  refine foldl_snd_kept _ (fun x p => ?_) _ _
  exact xlate_kept x.2 slice rg (p * 4096) need

theorem acceptScratch_kept (s : State) (c : Ctx) (r : MemReq) (b : BufRec) (live : List (Nat × Nat))
    (dropped : List Nat) :
    (s.acceptScratch c r b live dropped).homes.kept = s.homes.kept := by
  unfold State.acceptScratch
  have h1 := @advance_kept
  have h2 := @setOp_kept
  grind [setCore_kept, newId_kept, later_kept]

theorem raiseLowest_kept (s : State) (c : Ctx) (r : MemReq) (k : BitVec 8) (m : LaneMask) (a : Nat)
    (fault : Option XFault) :
    (s.raiseLowest c r k m a fault).homes.kept = s.homes.kept := by
  unfold State.raiseLowest
  have h1 := @raiseFault_kept
  have h2 := @raise_kept
  grind

theorem acceptCluster_kept (s : State) (c : Ctx) (r : MemReq) (b : BufRec) (tb : Nat × Block) (live : List (Nat × Nat))
    (dropped : List Nat) :
    (s.acceptCluster c r b tb live dropped).homes.kept = s.homes.kept := by
  unfold State.acceptCluster
  have h1 := @advance_kept
  have h2 := @setOp_kept
  grind [newId_kept, at_kept]

theorem clusterChecked_kept (s : State) (c : Ctx) (r : MemReq) : (s.clusterChecked c r).homes.kept = s.homes.kept := by
  unfold State.clusterChecked
  have h1 := @stall_kept
  have h2 := @raise_kept
  have h3 := @acceptCluster_kept
  grind

theorem serveXbar_kept (s : State) (id : Nat) (again : Ev) : (s.serveXbar id again).homes.kept = s.homes.kept := by
  unfold State.serveXbar
  have h1 := @modPart?_kept
  grind [later_kept, at_kept, setCore_kept]

theorem setRecord_kept (s : State) (c : Ctx) (b : BReg) (v : Nat) (bad : Bool) :
    (s.setRecord c b v bad).homes.kept = s.homes.kept := by
  unfold State.setRecord
  have h1 := @raise_kept
  have h2 := @advance_kept
  grind

theorem brecScratch_kept (s : State) (c : Ctx) (b : BReg) (o : Nat) :
    (s.brecScratch c b o).homes.kept = s.homes.kept := by
  unfold State.brecScratch
  have h1 := @raise_kept
  have h2 := @stall_kept
  have h3 := @setRecord_kept
  grind

end Sys2Proof.Machine
end

section
/-! PROOFS. What leaves memory and its waiting writes as they are, function by function: cores and engines. -/

namespace Sys2Proof.Machine

/-! The functions of Machine/Replies. -/

theorem setReq_kept (s : State) (id : Nat) (r : Request) : (s.setReq id r).homes.kept = s.homes.kept := by
  unfold State.setReq
  grind [setFlight_kept]

theorem delReq_kept (s : State) (id : Nat) : (s.delReq id).homes.kept = s.homes.kept := by
  unfold State.delReq
  grind [setFlight_kept]

theorem reply_kept (s : State) (id : Nat) (v : W64) : (s.reply id v).homes.kept = s.homes.kept := by
  unfold State.reply
  have h1 := @delReq_kept
  grind [modTroupe_kept]

theorem newReq_kept (s : State) (troupe : Nat) (d : SReg) (poison : Bool) (work : Option HeldWork) (after : List Nat) :
    (s.newReq troupe d poison work after).2.homes.kept = s.homes.kept := by
  unfold State.newReq
  have h1 := @setReq_kept
  grind [newId_kept]

theorem sendReq_kept (s : State) (troupe : Nat) (d : SReg) (poison : Bool) (work : HeldWork) (delay : Nat) :
    (s.sendReq troupe d poison work delay).2.homes.kept = s.homes.kept := by
  unfold State.sendReq
  have h1 := @setReq_kept
  grind [newId_kept, at_kept]

theorem ask_kept (s : State) (c : Ctx) (d : SReg) (poison : Bool) (work : HeldWork) (delay : Nat) :
    (s.ask c d poison work delay).homes.kept = s.homes.kept := by
  unfold State.ask
  have h1 := @advance_kept
  have h2 := @sendReq_kept
  grind

theorem writeReg_kept (s : State) (slice unit reg : Nat) (v : W64) (req : Nat) :
    (s.writeReg slice unit reg v req).homes.kept = s.homes.kept := by
  unfold State.writeReg
  have h1 := @reply_kept
  grind [setReg_kept]

/-! The functions of Machine/Cache. -/

theorem walkBack_kept (s : State) (c : Ctx) (ls : Option (List Nat)) (keep : Bool) :
    (s.walkBack c ls keep).homes.kept = s.homes.kept := by
  unfold State.walkBack
  have h1 := @advance_kept
  have h2 := @writeBacks_kept
  grind

theorem dropValid_kept (s : State) (core : Nat) (ls : Option (List Nat)) :
    (s.dropValid core ls).homes.kept = s.homes.kept := by
  unfold State.dropValid
  grind [setCore_kept]

theorem setUsed_kept (s : State) (slice vf n : Nat) : (s.setUsed slice vf n).homes.kept = s.homes.kept := by
  unfold State.setUsed
  grind [setReg_kept]

theorem anchor_kept (s : State) (line vf : Nat) : (s.anchor line vf).homes.kept = s.homes.kept := by
  unfold State.anchor
  grind [Homes.kept, setHomes_kept]

theorem unanchor_kept (s : State) (line vf : Nat) : (s.unanchor line vf).homes.kept = s.homes.kept := by
  unfold State.unanchor
  have h1 := @setUsed_kept
  grind [Homes.kept, setHomes_kept]

theorem askSlices_kept (s : State) (c : Ctx) (d : SReg) (poison : Bool) (lines : KeySet) (work : HeldWork)
    (done : Nat → Ev) :
    (s.askSlices c d poison lines work done).homes.kept = s.homes.kept := by
  unfold State.askSlices
  have h1 := @setReq_kept
  have h2 := @advance_kept
  grind [newId_kept, at_kept, foldl_kept]

theorem reserveArrive_kept (s : State) (req slice : Nat) (r : Request) (vf : Nat) (lines : List Nat)
    (room : List (Nat × Nat)) :
    (s.reserveArrive req slice r vf lines room).homes.kept = s.homes.kept := by
  unfold State.reserveArrive
  have h1 := @setReq_kept
  grind

theorem unpinLine_kept (s : State) (vf line : Nat) : (s.unpinLine vf line).homes.kept = s.homes.kept := by
  unfold State.unpinLine
  have h1 := @unanchor_kept
  grind [setFlight_kept]

theorem execPinArrive_kept (req slice : Nat) (s : State) : (execPinArrive req slice s).homes.kept = s.homes.kept := by
  unfold execPinArrive
  have h1 := @reserveArrive_kept
  have h2 := @unpinLine_kept
  grind [foldl_kept]

theorem startPin_kept (s : State) (c : Ctx) (d : SReg) (poison : Bool) (lines : KeySet) :
    (s.startPin c d poison lines).homes.kept = s.homes.kept := by
  unfold State.startPin
  have h1 := @askSlices_kept
  grind

theorem refill_kept (s : State) (slice vf : Nat) : (s.refill slice vf).homes.kept = s.homes.kept := by
  unfold State.refill
  have h1 := @setBucket_kept
  grind [setReg_kept]

/-! The functions of Machine/Matrix. -/

theorem raiseSplit_kept (s : State) (c : Ctx) : (s.raiseSplit c).homes.kept = s.homes.kept := by
  unfold State.raiseSplit
  have h1 := @raise_kept
  grind

theorem raiseSlot_kept (s : State) (c : Ctx) (slot : Nat) : (s.raiseSlot c slot).homes.kept = s.homes.kept := by
  unfold State.raiseSlot
  have h1 := @raise_kept
  grind

theorem claimed_kept (s : State) (c : Ctx) (t : Troupe) : (s.claimed c t).homes.kept = s.homes.kept := by
  unfold State.claimed
  have h1 := @advance_kept
  have h2 := @sendReq_kept
  grind

theorem mxAccept_kept (s : State) (c : Ctx) (t : Troupe) (w : MxWork) :
    (s.mxAccept c t w).homes.kept = s.homes.kept := by
  unfold State.mxAccept
  have h1 := @advance_kept
  grind [setCore_kept, laterOnce_kept]

theorem product_kept (s : State) (c : Ctx) (i : Instr) (f : MmaForm) : (s.product c i f).homes.kept = s.homes.kept := by
  unfold State.product
  have h1 := @stall_kept
  have h2 := @raiseSplit_kept
  have h3 := @raise_kept
  have h4 := @raiseSlot_kept
  have h5 := @mxAccept_kept
  grind

theorem slotOp_kept (s : State) (c : Ctx) (off : Option SReg) (writes shapeBad : Bool) (roles : List (Nat × Nat × Nat))
    {k : State} (hk : k.homes.kept = s.homes.kept) :
    (s.slotOp c off writes shapeBad roles k).homes.kept = s.homes.kept := by
  unfold State.slotOp
  have h1 := @raise_kept
  have h2 := @raiseSlot_kept
  have h3 := @raiseSplit_kept
  have h4 := @stall_kept
  grind

theorem whenWhole_kept (s : State) (c : Ctx) (i : Instr) {k : State} (hk : k.homes.kept = s.homes.kept) :
    (s.whenWhole c i k).homes.kept = s.homes.kept := by
  unfold State.whenWhole
  have h1 := @raise_kept
  have h2 := @raiseSplit_kept
  have h3 := @stall_kept
  grind

theorem setMx_kept (s : State) (core i : Nat) (o : MxOp) : (s.setMx core i o).homes.kept = s.homes.kept := by
  unfold State.setMx
  grind [setCore_kept]

theorem mxEnd_kept (s : State) (core : Nat) (array : Bool) : (s.mxEnd core array).homes.kept = s.homes.kept := by
  unfold State.mxEnd
  grind [modTroupe_kept, postOnce_kept, setCore_kept]

/-! The functions of Machine/Turnstiles. -/

theorem setTs_kept (s : State) (id : Nat) (o : TsOp) : (s.setTs id o).homes.kept = s.homes.kept := by
  unfold State.setTs
  grind [setFlight_kept]

theorem delTs_kept (s : State) (id : Nat) : (s.delTs id).homes.kept = s.homes.kept := by
  unfold State.delTs
  grind [setFlight_kept]

theorem setChain_kept (s : State) (id : Nat) (x : Chain) : (s.setChain id x).homes.kept = s.homes.kept := by
  unfold State.setChain
  grind [setFlight_kept]

theorem modChain_kept (s : State) (id : Nat) (f : Chain → Chain) : (s.modChain id f).homes.kept = s.homes.kept := by
  unfold State.modChain
  have h1 := @setChain_kept
  grind

theorem toUnit_kept (s : State) (from_ : Option Nat) (id : Nat) (e : Ev) :
    (s.toUnit from_ id e).homes.kept = s.homes.kept := by
  unfold State.toUnit
  grind [later_kept, at_kept]

theorem sendTs_kept (s : State) (id : Nat) (o : TsOp) : (s.sendTs id o).homes.kept = s.homes.kept := by
  unfold State.sendTs
  have h1 := @toUnit_kept
  have h2 := @send_kept
  have h3 := @sendPeer_kept
  grind

theorem backTs_kept (s : State) (a : Nat) (o : TsOp) (e : Ev) : (s.backTs a o e).homes.kept = s.homes.kept := by
  unfold State.backTs
  have h1 := @toUnit_kept
  have h2 := @bankSend_kept
  grind [later_kept]

theorem answerTs_kept (s : State) (id : Nat) (o : TsOp) : (s.answerTs id o).homes.kept = s.homes.kept := by
  unfold State.answerTs
  have h1 := @backTs_kept
  grind

theorem setWaiter_kept (s : State) (id : Nat) (w : Waiter) : (s.setWaiter id w).homes.kept = s.homes.kept := by
  unfold State.setWaiter
  grind [setFlight_kept]

theorem report_kept (s : State) (id : Nat) (w : Waiter) (v : W64) (bad : Bool) :
    (s.report id w v bad).homes.kept = s.homes.kept := by
  unfold State.report
  have h1 := @setWaiter_kept
  have h2 := @bankSend_kept
  grind [at_kept]

theorem wake_kept (s : State) (loc : TsLoc) : (s.wake loc).homes.kept = s.homes.kept := by
  unfold State.wake
  have h1 := @report_kept
  grind [foldl_kept]

theorem tsTouch_kept (s : State) (loc : TsLoc) : (s.tsTouch loc).homes.kept = s.homes.kept := by
  unfold State.tsTouch
  grind [Homes.kept, bump_kept, setHomes_kept]

theorem dropTs_kept (s : State) (id : Nat) (o : TsOp) : (s.dropTs id o).homes.kept = s.homes.kept := by
  unfold State.dropTs
  have h1 := @answerTs_kept
  have h2 := @setTs_kept
  have h3 := @countRefusal_kept
  grind

theorem passToCluster_kept (s : State) (core block : Nat) : (s.passToCluster core block).homes.kept = s.homes.kept := by
  unfold State.passToCluster
  grind [Homes.kept, setCore_kept, setHomes_kept]

theorem wideRelease_kept (s : State) (owner : Owner) (core block : Nat) :
    (s.wideRelease owner core block).homes.kept = s.homes.kept := by
  unfold State.wideRelease
  have h1 := @writeBacks_kept
  grind [foldl_kept]

theorem release_kept (s : State) (owner : Owner) (core block scope : Nat) :
    (s.release owner core block scope).2.homes.kept = s.homes.kept := by
  unfold State.release
  have h1 := @passToCluster_kept
  have h2 := @wideRelease_kept
  grind

theorem sendRelease_kept (s : State) (c : Ctx) (id : Nat) (o : TsOp) :
    (s.sendRelease c id o).homes.kept = s.homes.kept := by
  unfold State.sendRelease
  have h1 := @release_kept
  have h2 := @sendTs_kept
  have h3 := @setTs_kept
  grind [post_kept]

theorem startTs_kept (s : State) (c : Ctx) (k : TsKind) (loc : TsLoc) (name : Option TsName) (amt : W64) (scope : Nat)
    (d : Option SReg) :
    (s.startTs c k loc name amt scope d).homes.kept = s.homes.kept := by
  unfold State.startTs
  have h1 := @advance_kept
  have h2 := @setTs_kept
  have h3 := @sendRelease_kept
  have h4 := @sendTs_kept
  grind [newId_kept]

theorem tsInstr_kept (s : State) (c : Ctx) (k : TsKind) (t : TsRef) (amt : W64 × Bool) (small : Bool) (d : Option SReg)
    :
    (s.tsInstr c k t amt small d).homes.kept = s.homes.kept := by
  unfold State.tsInstr
  have h1 := @stall_kept
  have h2 := @raise_kept
  have h3 := @noteRefusal_kept
  have h4 := @startTs_kept
  grind

theorem startPoll_kept (s : State) (id : Nat) (w : Waiter) : (s.startPoll id w).homes.kept = s.homes.kept := by
  unfold State.startPoll
  have h1 := @toUnit_kept
  have h2 := @send_kept
  have h3 := @sendPeer_kept
  grind [at_kept]

theorem addWaiter_kept (s : State) (who : WaiterOf) (loc : TsLoc) (name : Option TsName) (vf part : Nat) (h : W64) :
    (s.addWaiter who loc name vf part h).homes.kept = s.homes.kept := by
  unfold State.addWaiter
  have h1 := @startPoll_kept
  have h2 := @setWaiter_kept
  grind [newId_kept]

theorem startConds_kept (s : State) (who : Nat → WaiterOf) (w : WaitState) (vf part : Nat) :
    (s.startConds who w vf part).homes.kept = s.homes.kept := by
  unfold State.startConds
  have h1 := @addWaiter_kept
  grind [foldl_kept]

theorem dropReports_kept (s : State) (mine : WaiterOf → Option Nat) :
    (s.dropReports mine).homes.kept = s.homes.kept := by
  unfold State.dropReports
  grind [setFlight_kept]

theorem withdraw_kept (s : State) (mine : WaiterOf → Option Nat) : (s.withdraw mine).homes.kept = s.homes.kept := by
  unfold State.withdraw
  grind [setFlight_kept]

theorem endWait_kept (s : State) (k : TKey) (t : Troupe) (w : WaitState) (status index : Nat) (poisoned : Bool) :
    (s.endWait k t w status index poisoned).homes.kept = s.homes.kept := by
  unfold State.endWait
  have h1 := @withdraw_kept
  have h2 := @boundary_kept
  have h3 := @reGrant_kept
  grind [setTroupe_kept]

theorem waitStep_kept (s : State) (k : TKey) : (s.waitStep k).homes.kept = s.homes.kept := by
  unfold State.waitStep
  have h1 := @endWait_kept
  have h2 := @reGrant_kept
  have h3 := @leavePipe_kept
  have h4 := @dropReports_kept
  grind [setTroupe_kept]

theorem readCond_kept (s : State) (id : Nat) (w : Waiter) : (s.readCond id w).homes.kept = s.homes.kept := by
  unfold State.readCond
  have h1 := @report_kept
  grind [at_kept, bump_kept]

theorem startWait_kept (s : State) (c : Ctx) (w : WaitState) : (s.startWait c w).homes.kept = s.homes.kept := by
  unfold State.startWait
  have h1 := @startConds_kept
  grind [setTroupe_kept, at_kept]

/-! The functions of Machine/Copy. -/

theorem pruneChains_kept (s : State) (k : Nat) : (s.pruneChains k).homes.kept = s.homes.kept := by
  unfold State.pruneChains
  grind [setFlight_kept]

theorem startCopy_kept (s : State) (c : Ctx) (d : SReg) (a : Nat) (bad : Bool) :
    (s.startCopy c d a bad).homes.kept = s.homes.kept := by
  unfold State.startCopy
  have h1 := @sendReq_kept
  have h2 := @pruneChains_kept
  have h3 := @setChain_kept
  have h4 := @advance_kept
  grind [newId_kept, later_kept, laterOnce_kept]

theorem abortChain_kept (s : State) (id : Nat) : (s.abortChain id).homes.kept = s.homes.kept := by
  unfold State.abortChain
  have h1 := @modChain_kept
  grind

theorem tryAgain_kept (s : State) (lines : List Nat) (e : Ev) : (s.tryAgain lines e).homes.kept = s.homes.kept := by
  unfold State.tryAgain
  have h1 := @noteRefusal_kept
  grind [later_kept, foldl_kept]

theorem readFailed_kept (s : State) (k : XFault) (again : Ev) (f : State → BitVec 8 → State)
    (hf : ∀ c, (f s c).homes.kept = s.homes.kept) : (s.readFailed k again f).homes.kept = s.homes.kept := by
  unfold State.readFailed
  have h1 := @tryAgain_kept
  grind

theorem takeRead_kept {s s1 : State} {op : Nat} {xs : List LaneAcc} (h : s.takeRead op = some (xs, s1)) :
    s1.homes.kept = s.homes.kept := by
  unfold State.takeRead at h
  have h1 := @delOp_kept
  grind

theorem stopChain_kept (s : State) (id : Nat) (x : Chain) (code : BitVec 8) :
    (s.stopChain id x code).homes.kept = s.homes.kept := by
  unfold State.stopChain
  have h1 := @setChain_kept
  grind [postOnce_kept, post_kept]

theorem toStatus_kept (s : State) (id : Nat) (x : Chain) (st : BitVec 8) :
    (s.toStatus id x st).homes.kept = s.homes.kept := by
  unfold State.toStatus
  have h1 := @setChain_kept
  grind [countCause_kept, post_kept]

theorem nextRecord_kept (s : State) (id : Nat) (x : Chain) : (s.nextRecord id x).homes.kept = s.homes.kept := by
  unfold State.nextRecord
  have h1 := @stopChain_kept
  have h2 := @setChain_kept
  grind [post_kept]

theorem freeEntries_kept (s : State) (core chain : Nat) (dest : Bool) :
    (s.freeEntries core chain dest).homes.kept = s.homes.kept := by
  unfold State.freeEntries
  grind [setCore_kept]

theorem contribute_kept (s : State) (id : Nat) (x : Chain) (r : XRec) (p : Part) :
    (s.contribute id x r p).homes.kept = s.homes.kept := by
  unfold State.contribute
  have h1 := @send_kept
  grind [newId_kept, setFlight_kept]

theorem emptyContribs_kept (s : State) (id : Nat) (x : Chain) (r : XRec) (again : Ev) (k : State → State)
    (hk : ∀ u : State, u.homes.kept = s.homes.kept → (k u).homes.kept = s.homes.kept) :
    (s.emptyContribs id x r again k).homes.kept = s.homes.kept := by
  unfold State.emptyContribs
  have h1 := @xlatePages_kept
  have h2 := @contribute_kept
  have h3 := @tryAgain_kept
  grind [foldl_kept]

theorem recordFails_kept (s : State) (id : Nat) (x : Chain) (st : BitVec 8) :
    (s.recordFails id x st).homes.kept = s.homes.kept := by
  unfold State.recordFails
  have h1 := @toStatus_kept
  grind

theorem recordIn_kept (s : State) (id : Nat) (x : Chain) (out : List LaneAcc) :
    (s.recordIn id x out).homes.kept = s.homes.kept := by
  unfold State.recordIn
  have h1 := @stopChain_kept
  have h2 := @setChain_kept
  grind [post_kept]

theorem predicateIn_kept (s : State) (id : Nat) (x : Chain) (out : List LaneAcc) :
    (s.predicateIn id x out).homes.kept = s.homes.kept := by
  unfold State.predicateIn
  have h1 := @recordFails_kept
  have h2 := @setChain_kept
  grind [post_kept]

theorem endMove_kept (s : State) (id : Nat) (x : Chain) (op : Option Nat) (st : BitVec 8) :
    (s.endMove id x op st).homes.kept = s.homes.kept := by
  unfold State.endMove
  have h1 := @delOp_kept
  have h2 := @toStatus_kept
  have h3 := @freeEntries_kept
  grind

theorem setOrdering_kept (s : State) (line : Nat) (o : Ordering) :
    (s.setOrdering line o).homes.kept = s.homes.kept := by
  unfold State.setOrdering
  grind [Homes.kept, setHomes_kept]

theorem contribAgain_kept (s : State) (id : Nat) (c : Contrib) : (s.contribAgain id c).homes.kept = s.homes.kept := by
  unfold State.contribAgain
  grind [at_kept]

theorem redirectContrib_kept (s : State) (id : Nat) (c : Contrib) :
    (s.redirectContrib id c).homes.kept = s.homes.kept := by
  unfold State.redirectContrib
  have h1 := @contribAgain_kept
  grind [setFlight_kept]

theorem setBook_kept (s : State) (core i : Nat) (b : Book) : (s.setBook core i b).homes.kept = s.homes.kept := by
  unfold State.setBook
  grind [setCore_kept]

theorem endBook_kept (s : State) (id : Nat) (l : BookLoad) (book : Book) (cause : BitVec 8) :
    (s.endBook id l book cause).homes.kept = s.homes.kept := by
  unfold State.endBook
  have h1 := @setBook_kept
  grind [setFlight_kept, modTroupe_kept]

/-! The functions of Machine/System. -/

theorem readRequest_kept (s : State) (c : Ctx) (d : SReg) (slice unit reg : Nat) :
    (s.readRequest c d slice unit reg).homes.kept = s.homes.kept := by
  unfold State.readRequest
  have h1 := @ask_kept
  grind

theorem holdRequest_kept (s : State) (c : Ctx) (d : SReg) (poison : Bool) (w : HeldWork) :
    (s.holdRequest c d poison w).2.homes.kept = s.homes.kept := by
  unfold State.holdRequest
  have h1 := @newReq_kept
  grind [post_kept]

theorem putReg_kept (s : State) (slice r : Nat) (v : W64) : (s.putReg slice r v).homes.kept = s.homes.kept := by
  unfold State.putReg
  grind [setPartReg_kept, setReg_kept]

theorem markSched_kept (s : State) (slice r : Nat) : (s.markSched slice r).homes.kept = s.homes.kept := by
  unfold State.markSched
  grind [setPartReg_kept]

theorem mailboxWrite_kept (s : State) (slice : Nat) (val : W64) (req : Nat) :
    (s.mailboxWrite slice val req).homes.kept = s.homes.kept := by
  unfold State.mailboxWrite
  have h1 := @reply_kept
  grind [post_kept, setPartReg_kept, setPart_kept, later_kept]

theorem qcmdWrite_kept (s : State) (slice : Nat) (val : W64) (req : Nat) :
    (s.qcmdWrite slice val req).homes.kept = s.homes.kept := by
  unfold State.qcmdWrite
  have h1 := @reply_kept
  grind [at_kept, modPart_kept]

theorem calWrite_kept (s : State) (slice : Nat) (val : W64) (req : Nat) :
    (s.calWrite slice val req).homes.kept = s.homes.kept := by
  unfold State.calWrite
  have h1 := @reply_kept
  grind [post_kept]

theorem snapWrite_kept (s : State) (slice : Nat) (val : W64) (req : Nat) :
    (s.snapWrite slice val req).homes.kept = s.homes.kept := by
  unfold State.snapWrite
  have h1 := @reply_kept
  have h2 := @putReg_kept
  grind [post_kept]

theorem migWrite_kept (s : State) (slice chan : Nat) (val : W64) (req : Nat) :
    (s.migWrite slice chan val req).homes.kept = s.homes.kept := by
  unfold State.migWrite
  have h1 := @reply_kept
  have h2 := @writeReg_kept
  grind [post_kept]

theorem baseWrite_kept (s : State) (slice r lo : Nat) (val : W64) (req : Nat) (load : Ev) :
    (s.baseWrite slice r lo val req load).homes.kept = s.homes.kept := by
  unfold State.baseWrite
  have h1 := @reply_kept
  have h2 := @putReg_kept
  grind [post_kept]

theorem dropCopies_kept (s : State) (part : Nat) (hit : Nat → Bool) :
    (s.dropCopies part hit).homes.kept = s.homes.kept := by
  unfold State.dropCopies
  grind [Homes.kept, setHomes_kept]

/-! The functions of Machine/Harts. -/

theorem retryHart_kept (s : State) (h : Nat) (i : Option Instr) : (s.retryHart h i).homes.kept = s.homes.kept := by
  unfold State.retryHart
  grind

theorem hartFault_kept (s : State) (h : Nat) (i : Option Instr) (e : HExc) :
    (s.hartFault h i e).homes.kept = s.homes.kept := by
  unfold State.hartFault
  have h1 := @retryHart_kept
  have h2 := @noteRefusal_kept
  have h3 := @hartTrap_kept
  grind

theorem hartAwait_kept (s : State) (h : Nat) (r : Nat × State) :
    (s.hartAwait h r).homes.kept = r.2.homes.kept := setHart_kept _ _ _

theorem setPort_kept (s : State) (h page : Nat) (p : Port) : (s.setPort h page p).homes.kept = s.homes.kept := by
  unfold State.setPort
  grind [setHart_kept]

theorem msi_kept (s : State) (source h file eiid : Nat) : (s.msi source h file eiid).homes.kept = s.homes.kept := by
  unfold State.msi
  grind [setHart_kept, setPlat_kept]

theorem endPort_kept (s : State) (h page status index : Nat) :
    (s.endPort h page status index).homes.kept = s.homes.kept := by
  unfold State.endPort
  have h1 := @msi_kept
  have h2 := @setPort_kept
  have h3 := @withdraw_kept
  grind

theorem portCtl_kept (s : State) (h page : Nat) (val : W64) : (s.portCtl h page val).homes.kept = s.homes.kept := by
  unfold State.portCtl
  have h1 := @withdraw_kept
  have h2 := @setPort_kept
  have h3 := @endPort_kept
  have h4 := @startConds_kept
  grind [at_kept]

theorem portCancel_kept (s : State) (h page : Nat) : (s.portCancel h page).homes.kept = s.homes.kept := by
  unfold State.portCancel
  have h1 := @setPort_kept
  have h2 := @withdraw_kept
  grind

theorem portWrite_kept (s : State) (h page off : Nat) (v : W64) :
    (s.portWrite h page off v).homes.kept = s.homes.kept := by
  unfold State.portWrite
  have h1 := @setPort_kept
  have h2 := @portCtl_kept
  have h3 := @portCancel_kept
  grind

theorem hartTsIn_kept (s : State) (h : Nat) (rg : Regime) (k : TsKind) (loc : TsLoc) (va tag : Nat) (amt : W64)
    (rd : Fin 32) (held : Bool) :
    (s.hartTsIn h rg k loc va tag amt rd held).homes.kept = s.homes.kept := by
  unfold State.hartTsIn
  have h1 := @setTs_kept
  have h2 := @sendTs_kept
  grind [newId_kept, setHart_kept, post_kept]

theorem hartTs_kept (s : State) (h : Nat) (k : TsKind) (loc : TsLoc) (va tag : Nat) (amt : W64) (rd : Fin 32)
    (held : Bool) :
    (s.hartTs h k loc va tag amt rd held).homes.kept = s.homes.kept := by
  unfold State.hartTs
  have h1 := @hartTsIn_kept
  grind

end Sys2Proof.Machine
end

section
/-! PROOFS. What leaves memory and its waiting writes as they are, function by function: blocks, queues and the
calendar. -/

namespace Sys2Proof.Machine

/-! The functions of Machine/Resources. -/

theorem latchQuota_kept (s : State) (slice core vf : Nat) : (s.latchQuota slice core vf).homes.kept = s.homes.kept := by
  unfold State.latchQuota
  grind [setReg_kept]

theorem release?_kept (s : State) (core : Nat) (us : List CoreUnit) :
    (s.release? core us).homes.kept = s.homes.kept := by
  unfold State.release?
  grind [postOnce_kept, setCore_kept]

theorem tryRefills_kept (s : State) (core : Nat) : (s.tryRefills core).homes.kept = s.homes.kept := by
  unfold State.tryRefills
  grind [postOnce_kept, foldl_kept]

theorem queueWalks_kept (s : State) (core now : Nat) : (s.queueWalks core now).homes.kept = s.homes.kept := by
  unfold State.queueWalks
  grind [setCore_kept]

theorem blockDone_kept (s : State) (ticket gwct : Nat) : (s.blockDone ticket gwct).homes.kept = s.homes.kept := by
  unfold State.blockDone
  grind [post_kept, setPkg_kept]

theorem reportEnded_kept (s : State) (core : Nat) : (s.reportEnded core).homes.kept = s.homes.kept := by
  unfold State.reportEnded
  have h1 := @blockDone_kept
  grind [setCore_kept, foldl_kept]

theorem rekey_kept (s : State) (old new : Nat) : (s.rekey old new).homes.kept = s.homes.kept := by
  unfold State.rekey
  grind [setFab_kept, setFlight_kept]

theorem dropTroupe_kept (s : State) (num : Nat) : (s.dropTroupe num).homes.kept = s.homes.kept := by
  unfold State.dropTroupe
  grind [setCore_kept]

theorem rearm_kept (s : State) (k : TKey) : (s.rearm k).homes.kept = s.homes.kept := by
  unfold State.rearm
  have h1 := @startConds_kept
  have h2 := @reGrant_kept
  grind [at_kept, post_kept, foldl_kept]

theorem setTicket_kept (s : State) (id : Nat) (t : Ticket) : (s.setTicket id t).homes.kept = s.homes.kept := by
  unfold State.setTicket
  grind [setPkg_kept]

theorem modTicket_kept (s : State) (id : Nat) (f : Ticket → Ticket) : (s.modTicket id f).homes.kept = s.homes.kept := by
  unfold State.modTicket
  have h1 := @setTicket_kept
  grind

theorem walkBacks_kept (s : State) (core unit start : Nat) :
    (s.walkBacks core unit start).2.homes.kept = s.homes.kept := by
  unfold State.walkBacks
  have h1 := @setOp_kept
  grind [newId_kept, at_kept, foldl_kept]

theorem walkWay_kept (s : State) (core block unit : Nat) : (s.walkWay core block unit).homes.kept = s.homes.kept := by
  unfold State.walkWay
  have h1 := @walkBacks_kept
  grind [setCore_kept]

theorem clearWays_kept (s : State) (core block : Nat) (units : List Nat) :
    (s.clearWays core block units).homes.kept = s.homes.kept := by
  unfold State.clearWays
  have h1 := @walkWay_kept
  grind [postOnce_kept, foldl_kept]

theorem runBlock_kept (s : State) (block : Nat) : (s.runBlock block).homes.kept = s.homes.kept := by
  unfold State.runBlock
  have h1 := @rearm_kept
  grind [modBlock_kept, foldl_kept]

theorem gangCheck_kept (s : State) (ticket : Nat) : (s.gangCheck ticket).homes.kept = s.homes.kept := by
  unfold State.gangCheck
  have h1 := @setTicket_kept
  grind [at_kept]

theorem releaseTroupe_kept (s : State) (num : Nat) (t : Troupe) (claims : Bool) :
    (s.releaseTroupe num t claims).homes.kept = s.homes.kept := by
  unfold State.releaseTroupe
  have h1 := @dropTroupe_kept
  have h2 := @release?_kept
  grind [modBlock_kept]

theorem backPins_kept (s : State) (bid : Nat) (b : Block) : (s.backPins bid b).2.homes.kept = s.homes.kept := by
  unfold State.backPins
  have h1 := @writeBacks_kept
  grind

theorem freeFrames_kept (s : State) (part queue : Nat) (fs : List Nat) :
    (s.freeFrames part queue fs).homes.kept = s.homes.kept := by
  unfold State.freeFrames
  grind [modPart_kept]

theorem fixReclaims_kept (s : State) (core bid : Nat) : (s.fixReclaims core bid).homes.kept = s.homes.kept := by
  unfold State.fixReclaims
  have h1 := @tryRefills_kept
  grind [setCore_kept, post_kept, postOnce_kept, foldl_kept]

theorem removeBlock_kept (s : State) (bid : Nat) (b : Block) : (s.removeBlock bid b).homes.kept = s.homes.kept := by
  unfold State.removeBlock
  have h1 := @fixReclaims_kept
  have h2 := @release?_kept
  have h3 := @freeFrames_kept
  grind [setCore_kept]

theorem discardWork_kept (s : State) (num : Nat) : (s.discardWork num).homes.kept = s.homes.kept := by
  unfold State.discardWork
  have h1 := @rekey_kept
  grind [setCore_kept, setFlight_kept, postOnce_kept]

theorem dropSaved_kept (s : State) (sid : Nat) : (s.dropSaved sid).homes.kept = s.homes.kept := by
  unfold State.dropSaved
  have h1 := @freeFrames_kept
  grind [setFlight_kept, setPkg_kept]

theorem discardBlock_kept (s : State) (bid : Nat) : (s.discardBlock bid).homes.kept = s.homes.kept := by
  unfold State.discardBlock
  have h1 := @dropSaved_kept
  have h2 := @discardWork_kept
  have h3 := @dropTroupe_kept
  have h4 := @backPins_kept
  have h5 := @removeBlock_kept
  grind [foldl_kept]

theorem faultBlock_kept (s : State) (bid : Nat) : (s.faultBlock bid).homes.kept = s.homes.kept := by
  unfold State.faultBlock
  have h1 := @blockDone_kept
  have h2 := @modTicket_kept
  have h3 := @discardBlock_kept
  grind

/-! The functions of Machine/Frames. -/

theorem frameOk_kept (s : State) (slice : Nat) (rg : Regime) (va : Nat) :
    (s.frameOk slice rg va).2.homes.kept = s.homes.kept := by
  unfold State.frameOk
  have h1 := @xlatePages_kept
  grind

theorem findFrames_kept (s : State) (slice : Nat) (rg : Regime) (pool : Nat) (used : KeySet) (fuel i n : Nat) :
    (s.findFrames slice rg pool used fuel i n).2.homes.kept = s.homes.kept := by
  induction fuel generalizing s i n with
  | zero => rfl
  | succ fuel ih =>
    unfold State.findFrames
    have h1 := @frameOk_kept
    grind

theorem takeFrames_kept (s : State) (slice part queue n : Nat) :
    (s.takeFrames slice part queue n).2.homes.kept = s.homes.kept := by
  unfold State.takeFrames
  have h1 := @findFrames_kept
  grind [modPart_kept, foldl_kept]

theorem controlWords_kept (s : State) (va : Nat) : (s.controlWords va).2.homes.kept = s.homes.kept := by
  unfold State.controlWords
  grind

theorem noteFrames_kept (s : State) (slice : Nat) (rg : Regime) (vas : List Nat) :
    (s.noteFrames slice rg vas).homes.kept = s.homes.kept := by
  unfold State.noteFrames
  have h1 := @noteRefusal_kept
  grind [foldl_kept]

theorem unitWords_kept (s : State) (bid : Nat) (b : Block) (pool : Nat) (u : CoreUnit) :
    (s.unitWords bid b pool u).2.homes.kept = s.homes.kept := by
  unfold State.unitWords
  have h1 := @controlWords_kept
  grind

theorem unitsWords_kept (s : State) (bid : Nat) (b : Block) (pool : Nat) (us : List CoreUnit) :
    (s.unitsWords bid b pool us).2.homes.kept = s.homes.kept := by
  unfold State.unitsWords
  refine foldl_snd_kept _ (fun x u => ?_) _ _
  exact unitWords_kept x.2 bid b pool u

theorem blockFrames_kept (s : State) (bid : Nat) (b : Block) (a : Ask) :
    (s.blockFrames bid b a).2.homes.kept = s.homes.kept := by
  unfold State.blockFrames
  have h1 := @takeFrames_kept
  grind [setBlock_kept]

theorem haltTroupes_kept (s : State) (bid : Nat) : (s.haltTroupes bid).homes.kept = s.homes.kept := by
  unfold State.haltTroupes
  grind [setCore_kept, setTroupe_kept, foldl_kept]

theorem haltBlock_kept (s : State) (bid : Nat) : (s.haltBlock bid).homes.kept = s.homes.kept := by
  unfold State.haltBlock
  have h1 := @haltTroupes_kept
  grind [modBlock_kept]

theorem placeAgain_kept (s : State) (part : Nat) : (s.placeAgain part).homes.kept = s.homes.kept := by
  unfold State.placeAgain
  grind [laterOnce_kept, foldl_kept]

theorem ungather_kept (s : State) (bid : Nat) (b : Block) : (s.ungather bid b).homes.kept = s.homes.kept := by
  unfold State.ungather
  have h1 := @placeAgain_kept
  have h2 := @modTicket_kept
  have h3 := @removeBlock_kept
  grind

theorem unplace_kept (s : State) (bid : Nat) (b : Block) : (s.unplace bid b).homes.kept = s.homes.kept := by
  unfold State.unplace
  have h1 := @placeAgain_kept
  have h2 := @fixReclaims_kept
  have h3 := @release?_kept
  grind [setBlock_kept]

theorem unrefill_kept (s : State) (bid : Nat) (b : Block) : (s.unrefill bid b).homes.kept = s.homes.kept := by
  unfold State.unrefill
  have h1 := @release?_kept
  grind [setBlock_kept]

theorem makeVictim_kept (s : State) (v : Nat) (b : Block) : (s.makeVictim v b).homes.kept = s.homes.kept := by
  unfold State.makeVictim
  have h1 := @haltBlock_kept
  have h2 := @ungather_kept
  have h3 := @unplace_kept
  have h4 := @unrefill_kept
  grind [postOnce_kept]

theorem park_kept (s : State) (kind : SavedKind) (num : Nat) (t : Troupe) (b : Block) :
    (s.park kind num t b).homes.kept = s.homes.kept := by
  unfold State.park
  have h1 := @rekey_kept
  have h2 := @dropTroupe_kept
  grind [newId_kept, setPkg_kept]

theorem giveUp_kept (s : State) (bid : Nat) (b : Block) (us : List CoreUnit) :
    (s.giveUp bid b us).homes.kept = s.homes.kept := by
  unfold State.giveUp
  have h1 := @park_kept
  have h2 := @release?_kept
  grind [setTroupe_kept, foldl_kept]

theorem readUnits_kept (s : State) (bid : Nat) (b : Block) (us : List CoreUnit) :
    (s.readUnits bid b us).homes.kept = s.homes.kept := by
  unfold State.readUnits
  grind [setTroupe_kept, setCore_kept, foldl_kept]

theorem unpark_kept (s : State) (sid : Nat) (x : Saved) (num : Nat) (t : Troupe) :
    (s.unpark sid x num t).homes.kept = s.homes.kept := by
  unfold State.unpark
  have h1 := @rekey_kept
  grind [setPkg_kept]

theorem framesBack_kept (s : State) (bid : Nat) (b : Block) : (s.framesBack bid b).homes.kept = s.homes.kept := by
  unfold State.framesBack
  have h1 := @freeFrames_kept
  grind [modBlock_kept]

theorem resumeBlock_kept (s : State) (bid : Nat) (b : Block) : (s.resumeBlock bid b).homes.kept = s.homes.kept := by
  unfold State.resumeBlock
  have h1 := @gangCheck_kept
  have h2 := @runBlock_kept
  grind [modBlock_kept]

theorem refillBlock_kept (s : State) (bid : Nat) (b : Block) : (s.refillBlock bid b).homes.kept = s.homes.kept := by
  unfold State.refillBlock
  have h1 := @unpark_kept
  have h2 := @readUnits_kept
  have h3 := @resumeBlock_kept
  have h4 := @framesBack_kept
  grind [modBlock_kept, foldl_kept]

theorem stopBlock_kept (s : State) (bid : Nat) (b : Block) : (s.stopBlock bid b).homes.kept = s.homes.kept := by
  unfold State.stopBlock
  have h1 := @unrefill_kept
  have h2 := @haltBlock_kept
  grind

theorem restoreBlock_kept (s : State) (bid : Nat) (b : Block) : (s.restoreBlock bid b).homes.kept = s.homes.kept := by
  unfold State.restoreBlock
  have h1 := @unpark_kept
  have h2 := @framesBack_kept
  have h3 := @readUnits_kept
  grind [foldl_kept]

/-! The functions of Machine/Saves. -/

theorem saveFrame_kept (s : State) (b : Block) (t : Troupe) : (s.saveFrame b t).2.homes.kept = s.homes.kept := by
  unfold State.saveFrame
  have h1 := @frameOk_kept
  have h2 := @takeFrames_kept
  grind

theorem putSaved_kept (s : State) (sid : Nat) (x : Saved) : (s.putSaved sid x).homes.kept = s.homes.kept := by
  unfold State.putSaved
  grind [setPkg_kept]

theorem saveInPlace_kept (s : State) (num : Nat) (t : Troupe) (b : Block) (r : BitVec 256) (toVf : Bool) :
    (s.saveInPlace num t b r toVf).homes.kept = s.homes.kept := by
  unfold State.saveInPlace
  have h1 := @queueRing_kept
  have h2 := @putSaved_kept
  grind [newId_kept, setTroupe_kept]

theorem endSave_kept (s : State) (num : Nat) (t : Troupe) (b : Block) (sid : Nat) (x : Saved) (r : BitVec 256)
    (toVf : Bool) :
    (s.endSave num t b sid x r toVf).homes.kept = s.homes.kept := by
  unfold State.endSave
  have h1 := @release?_kept
  have h2 := @dropTroupe_kept
  have h3 := @releaseTroupe_kept
  have h4 := @rekey_kept
  have h5 := @putSaved_kept
  have h6 := @withdraw_kept
  have h7 := @queueRing_kept
  grind [modBlock_kept]

theorem addAfter_kept (s : State) (slice part vf : Nat) (loc : TsLoc) (name : Option TsName) (amt nb : Nat)
    (ops : List Nat) :
    (s.addAfter slice part vf loc name amt nb ops).homes.kept = s.homes.kept := by
  unfold State.addAfter
  have h1 := @setTs_kept
  grind [newId_kept, post_kept]

theorem restartTrap_kept (s : State) (num : Nat) (t : Troupe) (b : Block) :
    (s.restartTrap num t b).homes.kept = s.homes.kept := by
  unfold State.restartTrap
  have h1 := @rearm_kept
  grind [setTroupe_kept]

theorem terminate_kept (s : State) (num : Nat) (t : Troupe) (b : Block) :
    (s.terminate num t b).homes.kept = s.homes.kept := by
  unfold State.terminate
  have h1 := @modTicket_kept
  grind [post_kept, setTroupe_kept]

theorem deliverFault_kept (s : State) (num : Nat) (t : Troupe) (b : Block) (r : BitVec 256) :
    (s.deliverFault num t b r).homes.kept = s.homes.kept := by
  unfold State.deliverFault
  have h1 := @takeTrap_kept
  grind

theorem resumeFault_kept (s : State) (num : Nat) (t : Troupe) (b : Block) (action : Nat) :
    (s.resumeFault num t b action).homes.kept = s.homes.kept := by
  unfold State.resumeFault
  have h1 := @deliverFault_kept
  have h2 := @rearm_kept
  grind [setTroupe_kept]

theorem withdrawResume_kept (s : State) (sid : Nat) : (s.withdrawResume sid).homes.kept = s.homes.kept := by
  unfold State.withdrawResume
  grind [setFlight_kept]

theorem resumeHere_kept (s : State) (sid : Nat) (x : Saved) (b : Block) :
    (s.resumeHere sid x b).homes.kept = s.homes.kept := by
  unfold State.resumeHere
  have h1 := @restartTrap_kept
  have h2 := @terminate_kept
  have h3 := @resumeFault_kept
  grind [later_kept, setPkg_kept]

theorem restoreTroupe_kept (s : State) (sid : Nat) (x : Saved) (b : Block) :
    (s.restoreTroupe sid x b).homes.kept = s.homes.kept := by
  unfold State.restoreTroupe
  have h1 := @noteFrames_kept
  have h2 := @unpark_kept
  have h3 := @freeFrames_kept
  have h4 := @resumeFault_kept
  grind [later_kept, foldl_kept]

/-! The functions of Machine/Queues. -/

theorem setQueue_kept (s : State) (part q : Nat) (x : Queue) : (s.setQueue part q x).homes.kept = s.homes.kept := by
  unfold State.setQueue
  grind [setPkg_kept]

theorem qcmdOver_kept (s : State) (part : Nat) : (s.qcmdOver part).homes.kept = s.homes.kept := by
  unfold State.qcmdOver
  grind [modPart_kept]

theorem unlist_kept (s : State) (who : WaiterOf) : (s.unlist who).homes.kept = s.homes.kept := by
  unfold State.unlist
  grind [setFlight_kept]

theorem newTicket_kept (s : State) (part q addr : Nat) (ws : List W64) :
    (s.newTicket part q addr ws).homes.kept = s.homes.kept := by
  unfold State.newTicket
  have h1 := @setTicket_kept
  grind [newId_kept, bump_kept, post_kept]

theorem kickQueues_kept (s : State) (part : Nat) : (s.kickQueues part).homes.kept = s.homes.kept := by
  unfold State.kickQueues
  grind [postOnce_kept, foldl_kept]

theorem endTicket_kept (s : State) (id : Nat) (t : Ticket) (code : BitVec 8) :
    (s.endTicket id t code).homes.kept = s.homes.kept := by
  unfold State.endTicket
  have h1 := @setTicket_kept
  have h2 := @unlist_kept
  grind [post_kept]

theorem joined_kept (s : State) (id : Nat) (t : Ticket) : (s.joined id t).homes.kept = s.homes.kept := by
  unfold State.joined
  have h1 := @setTicket_kept
  have h2 := @unlist_kept
  have h3 := @placeAgain_kept
  grind [bump_kept]

/-! The functions of Machine/Releases. -/

theorem releaseOf_kept (s : State) (o : Owner) (scope : Nat) : (s.releaseOf o scope).2.homes.kept = s.homes.kept := by
  unfold State.releaseOf
  have h1 := @release_kept
  grind

/-! The functions of Machine/Ringmaster. -/

theorem directed_kept (s : State) (bid : Nat) (o : Option_) : (s.directed bid o).homes.kept = s.homes.kept := by
  unfold State.directed
  grind [post_kept, setCore_kept]

theorem reserve_kept (s : State) (bid n : Nat) : (s.reserve bid n).homes.kept = s.homes.kept := by
  unfold State.reserve
  have h1 := @takeFrames_kept
  grind [setBlock_kept]

theorem unreservedAt_kept (s : State) (ticket core : Nat) : (s.unreservedAt ticket core).homes.kept = s.homes.kept := by
  unfold State.unreservedAt
  grind

theorem keepShares_kept (s : State) (slice part : Nat) : (s.keepShares slice part).homes.kept = s.homes.kept := by
  unfold State.keepShares
  grind [setBlock_kept, foldl_kept]

theorem placeTicket_kept (s : State) (id : Nat) (t : Ticket) (o : Option_) :
    (s.placeTicket id t o).homes.kept = s.homes.kept := by
  unfold State.placeTicket
  have h1 := @reserve_kept
  have h2 := @setTicket_kept
  have h3 := @unreservedAt_kept
  have h4 := @directed_kept
  have h5 := @kickQueues_kept
  grind [newId_kept, setBlock_kept, bump_kept, modPart_kept]

theorem placeSaved_kept (s : State) (sid : Nat) (x : Saved) (o : Option_) :
    (s.placeSaved sid x o).homes.kept = s.homes.kept := by
  unfold State.placeSaved
  have h1 := @rekey_kept
  have h2 := @putSaved_kept
  have h3 := @directed_kept
  have h4 := @reserve_kept
  grind [setBlock_kept, later_kept]

theorem placeBlock_kept (s : State) (bid : Nat) (o : Option_) : (s.placeBlock bid o).homes.kept = s.homes.kept := by
  unfold State.placeBlock
  have h1 := @directed_kept
  grind [bump_kept, modBlock_kept]

theorem place_kept (s : State) (c : Cand) : (s.place c).homes.kept = s.homes.kept := by
  unfold State.place
  have h1 := @placeTicket_kept
  have h2 := @placeSaved_kept
  have h3 := @placeBlock_kept
  grind

theorem repeats_kept (s : State) (slice part : Nat) : (s.repeats slice part).homes.kept = s.homes.kept := by
  unfold State.repeats
  grind [laterOnce_kept]

/-! The functions of Machine/Calendar. -/

theorem throttle_kept (s : State) (slice power cap : Nat) : (s.throttle slice power cap).homes.kept = s.homes.kept := by
  unfold State.throttle
  grind [setReg_kept, setPlat_kept]

theorem throttlePart_kept (s : State) (part : Nat) : (s.throttlePart part).homes.kept = s.homes.kept := by
  unfold State.throttlePart
  have h1 := @throttle_kept
  grind [setPart_kept, foldl_kept]

theorem pollResumes_kept (s : State) (part : Nat) : (s.pollResumes part).homes.kept = s.homes.kept := by
  unfold State.pollResumes
  have h1 := @addWaiter_kept
  have h2 := @noteRefusal_kept
  grind [foldl_kept]

theorem startPeriod_kept (s : State) (part : Nat) : (s.startPeriod part).homes.kept = s.homes.kept := by
  unfold State.startPeriod
  have h1 := @throttlePart_kept
  have h2 := @pollResumes_kept
  grind [setPart_kept, postOnce_kept, post_kept, foldl_kept]

theorem snapEntry_kept (s : State) (part slice result lost c : Nat) :
    (s.snapEntry part slice result lost c).homes.kept = s.homes.kept := by
  unfold State.snapEntry
  have h1 := @queueRing_kept
  grind

theorem unquiesce_kept (s : State) (part : Nat) : (s.unquiesce part).homes.kept = s.homes.kept := by
  unfold State.unquiesce
  have h1 := @placeAgain_kept
  grind [postOnce_kept, foldl_kept]

theorem endSnapshot_kept (s : State) (part result : Nat) : (s.endSnapshot part result).homes.kept = s.homes.kept := by
  unfold State.endSnapshot
  have h1 := @unquiesce_kept
  have h2 := @snapEntry_kept
  grind [setPart_kept]

theorem resetTroupeWait_kept (s : State) (k : TKey) : (s.resetTroupeWait k).homes.kept = s.homes.kept := by
  unfold State.resetTroupeWait
  have h1 := @endWait_kept
  grind

theorem resetWaiter_kept (s : State) (id : Nat) (w : Waiter) : (s.resetWaiter id w).homes.kept = s.homes.kept := by
  unfold State.resetWaiter
  have h1 := @resetTroupeWait_kept
  have h2 := @endPort_kept
  have h3 := @setWaiter_kept
  grind [post_kept]

theorem resetWaits_kept (s : State) (hit : TsLoc → Bool) : (s.resetWaits hit).homes.kept = s.homes.kept := by
  unfold State.resetWaits
  have h1 := @resetWaiter_kept
  grind [foldl_kept]

theorem loseBlock_kept (s : State) (bid : Nat) (code : BitVec 8) :
    (s.loseBlock bid code).homes.kept = s.homes.kept := by
  unfold State.loseBlock
  have h1 := @discardBlock_kept
  have h2 := @blockDone_kept
  have h3 := @setTicket_kept
  grind [foldl_kept]

theorem loseSaved_kept (s : State) (sid : Nat) (x : Saved) : (s.loseSaved sid x).homes.kept = s.homes.kept := by
  unfold State.loseSaved
  have h1 := @loseBlock_kept
  have h2 := @modTicket_kept
  have h3 := @dropSaved_kept
  have h4 := @discardWork_kept
  grind [post_kept]

theorem loseFrames_kept (s : State) (slice : Nat) : (s.loseFrames slice).homes.kept = s.homes.kept := by
  unfold State.loseFrames
  have h1 := @loseSaved_kept
  grind [foldl_kept]

theorem loseSpilled_kept (s : State) (slice : Nat) : (s.loseSpilled slice).homes.kept = s.homes.kept := by
  unfold State.loseSpilled
  have h1 := @loseBlock_kept
  grind [foldl_kept]

theorem endsOf_kept (s : State) (slice : Nat) : (s.endsOf slice).homes.kept = s.homes.kept := by
  unfold State.endsOf
  have h1 := @blockDone_kept
  grind [setCore_kept, foldl_kept]

theorem dropAnchors_kept (s : State) (hit : Nat → Bool) : (s.dropAnchors hit).homes.kept = s.homes.kept := by
  unfold State.dropAnchors
  have h1 := @unanchor_kept
  grind [foldl_kept]

theorem loseSlice_kept (s : State) (slice : Nat) : (s.loseSlice slice).homes.kept = s.homes.kept := by
  unfold State.loseSlice
  have h1 := @loseBlock_kept
  have h2 := @loseSpilled_kept
  have h3 := @loseFrames_kept
  have h4 := @endsOf_kept
  have h5 := @resetWaits_kept
  have h6 := @setQueue_kept
  have h7 := @unlist_kept
  have h8 := @dropAnchors_kept
  have h9 := @unquiesce_kept
  have h10 := @snapEntry_kept
  grind [setPlat_kept, modPart_kept, foldl_kept]

end Sys2Proof.Machine
end

section
/-! PROOFS. What leaves memory and its waiting writes as they are, function by function: the fabric, harts and
partitions. -/

namespace Sys2Proof.Machine

/-! The functions of Machine/Messages. -/

theorem askNi_kept (s : State) (c : Ctx) (d : SReg) (poison : Bool) (v : W64) :
    (s.askNi c d poison v).homes.kept = s.homes.kept := by
  unfold State.askNi
  have h1 := @advance_kept
  have h2 := @sendReq_kept
  grind

theorem seqOf_kept (s : State) (core module dstSlice ring : Nat) :
    (s.seqOf core module dstSlice ring).2.2.homes.kept = s.homes.kept := by
  unfold State.seqOf
  grind [setFab_kept]

theorem putSeq_kept (s : State) (i : Nat) (q : Sequence) : (s.putSeq i q).homes.kept = s.homes.kept := by
  unfold State.putSeq
  grind [setFab_kept]

theorem setMsg_kept (s : State) (id : Nat) (m : Message) : (s.setMsg id m).homes.kept = s.homes.kept := by
  unfold State.setMsg
  grind [setFab_kept]

theorem delMsg_kept (s : State) (id : Nat) : (s.delMsg id).homes.kept = s.homes.kept := by
  unfold State.delMsg
  grind [setFab_kept]

theorem injectMsg_kept (s : State) (id : Nat) (m : Message) : (s.injectMsg id m).homes.kept = s.homes.kept := by
  unfold State.injectMsg
  have h1 := @newPacket_kept
  have h2 := @countPacket_kept
  grind [later_kept]

theorem sendMsg_kept (s : State) (id : Nat) : (s.sendMsg id).homes.kept = s.homes.kept := by
  unfold State.sendMsg
  have h1 := @seqOf_kept
  have h2 := @injectMsg_kept
  have h3 := @setMsg_kept
  have h4 := @putSeq_kept
  grind

theorem sendFrame_kept (s : State) (slice : Nat) (bytes : List Byte) :
    (s.sendFrame slice bytes).2.homes.kept = s.homes.kept := by
  unfold State.sendFrame
  grind [setFab_kept]

theorem msend_kept (s : State) (c : Ctx) (r : SendReq) : (s.msend c r).homes.kept = s.homes.kept := by
  unfold State.msend
  have h1 := @askNi_kept
  have h2 := @stall_kept
  have h3 := @countRoute_kept
  have h4 := @raise_kept
  have h5 := @sendFrame_kept
  have h6 := @sendMsg_kept
  have h7 := @advance_kept
  have h8 := @sendReq_kept
  have h9 := @setMsg_kept
  grind [newId_kept]

theorem answerMsg_kept (s : State) (id status : Nat) : (s.answerMsg id status).homes.kept = s.homes.kept := by
  unfold State.answerMsg
  have h1 := @delMsg_kept
  have h2 := @peerReply_kept
  have h3 := @setMsg_kept
  grind [at_kept]

theorem delPacket_kept (s : State) (id : Nat) : (s.delPacket id).homes.kept = s.homes.kept := by
  unfold State.delPacket
  grind [setFab_kept]

/-! The functions of Machine/Peers. -/

theorem out_kept (s : State) (x : Outgoing) : (s.out x).homes.kept = s.homes.kept := by
  unfold State.out
  grind [setFab_kept]

theorem putRx_kept (s : State) (m : PeerMsg) (r : RxFlow) : (s.putRx m r).homes.kept = s.homes.kept := by
  unfold State.putRx
  grind [setFab_kept]

theorem reAck_kept (s : State) (m : PeerMsg) : (s.reAck m).homes.kept = s.homes.kept := by
  unfold State.reAck
  have h1 := @out_kept
  grind

theorem refusePeer_kept (s : State) (m : PeerMsg) : (s.refusePeer m).homes.kept = s.homes.kept := by
  unfold State.refusePeer
  have h1 := @out_kept
  have h2 := @countRefusal_kept
  grind

theorem peerMessage_kept (s : State) (m : PeerMsg) (part score svf ring seqno : Nat) (bytes : List Byte) (bad : KeySet)
    :
    (s.peerMessage m part score svf ring seqno bytes bad).homes.kept = s.homes.kept := by
  unfold State.peerMessage
  have h1 := @newPacket_kept
  have h2 := @setMsg_kept
  grind [newId_kept, post_kept, setFab_kept]

theorem setFlow_kept (s : State) (id : Nat) (f : Flow) : (s.setFlow id f).homes.kept = s.homes.kept := by
  unfold State.setFlow
  grind [setFab_kept]

theorem dropCopy_kept (s : State) (flow seq : Nat) : (s.dropCopy flow seq).homes.kept = s.homes.kept := by
  unfold State.dropCopy
  have h1 := @setFlow_kept
  grind [setFab_kept]

theorem flowTo_kept (s : State) (slice module vf : Nat) : (s.flowTo slice module vf).2.2.homes.kept = s.homes.kept := by
  unfold State.flowTo
  have h1 := @setFlow_kept
  grind [newId_kept]

theorem numberPacket_kept (s : State) (p : Packet) (module : Nat) :
    (s.numberPacket p module).2.homes.kept = s.homes.kept := by
  unfold State.numberPacket
  have h1 := @flowTo_kept
  have h2 := @setFlow_kept
  grind [at_kept]

theorem endPeerMem_kept (s : State) (op line : Nat) (data : List Byte) (poison : Bool) :
    (s.endPeerMem op line data poison).homes.kept = s.homes.kept := by
  unfold State.endPeerMem
  have h1 := @modPart?_kept
  have h2 := @takeGwct_kept
  grind [later_kept]

theorem endPeerTs_kept (s : State) (op : Nat) (v : W64) (poison : Bool) :
    (s.endPeerTs op v poison).homes.kept = s.homes.kept := by
  unfold State.endPeerTs
  have h1 := @answerTs_kept
  have h2 := @setTs_kept
  grind

theorem endLoad_kept (s : State) (l : Load) (data : List Byte) (poison : Bool) (status : Nat) :
    (s.endLoad l data poison status).homes.kept = s.homes.kept := by
  unfold State.endLoad
  have h1 := @answerMsg_kept
  have h2 := @endPeerMem_kept
  have h3 := @endPeerTs_kept
  have h4 := @report_kept
  grind

theorem recordRoute_kept (s : State) (p : Packet) (peer : Option Nat) (word : W64) :
    (s.recordRoute p peer word).homes.kept = s.homes.kept := by
  unfold State.recordRoute
  have h1 := @queueRing_kept
  grind

/-! The functions of Machine/Fabric. -/

theorem setPacket_kept (s : State) (id : Nat) (p : Packet) : (s.setPacket id p).homes.kept = s.homes.kept := by
  unfold State.setPacket
  grind [setFab_kept]

theorem injectPeer_kept (s : State) (id : Nat) (p : Packet) : (s.injectPeer id p).homes.kept = s.homes.kept := by
  unfold State.injectPeer
  have h1 := @setPacket_kept
  have h2 := @recordRoute_kept
  have h3 := @countRoute_kept
  have h4 := @numberPacket_kept
  have h5 := @countPacket_kept
  grind [later_kept]

theorem turnRound_kept (s : State) (id : Nat) (p : Packet) : (s.turnRound id p).homes.kept = s.homes.kept := by
  unfold State.turnRound
  have h1 := @setPacket_kept
  grind [later_kept]

theorem hopTo_kept (s : State) (id : Nat) (p : Packet) (x : Nat) (q : Place) (link : Nat) :
    (s.hopTo id p x q link).homes.kept = s.homes.kept := by
  unfold State.hopTo
  have h1 := @setPacket_kept
  grind [post_kept, later_kept]

theorem exitBy_kept (s : State) (id : Nat) (p : Packet) (slice x : Nat) :
    (s.exitBy id p slice x).homes.kept = s.homes.kept := by
  unfold State.exitBy
  have h1 := @setPacket_kept
  have h2 := @out_kept
  have h3 := @delPacket_kept
  grind

theorem takeHop_kept (s : State) (id : Nat) (p : Packet) (x : Nat) : (s.takeHop id p x).homes.kept = s.homes.kept := by
  unfold State.takeHop
  have h1 := @turnRound_kept
  have h2 := @hopTo_kept
  grind [later_kept]

theorem demote_kept (s : State) (id : Nat) (p : Packet) : (s.demote id p).2.homes.kept = s.homes.kept := by
  unfold State.demote
  have h1 := @setPacket_kept
  have h2 := @countDemoted_kept
  grind

theorem gtdInject_kept (s : State) (id : Nat) (p : Packet) : (s.gtdInject id p).2.homes.kept = s.homes.kept := by
  unfold State.gtdInject
  have h1 := @setPacket_kept
  grind [setFab_kept]

theorem discardPacket_kept (s : State) (id : Nat) (p : Packet) : (s.discardPacket id p).homes.kept = s.homes.kept := by
  unfold State.discardPacket
  have h1 := @delPacket_kept
  have h2 := @recordRoute_kept
  have h3 := @endLoad_kept
  have h4 := @dropCopy_kept
  grind

theorem goBack_kept (s : State) (id : Nat) (p : Packet) : (s.goBack id p).homes.kept = s.homes.kept := by
  unfold State.goBack
  have h1 := @discardPacket_kept
  have h2 := @setPacket_kept
  grind [post_kept, later_kept]

theorem enterNet_kept (s : State) (id : Nat) (p : Packet) : (s.enterNet id p).2.homes.kept = s.homes.kept := by
  unfold State.enterNet
  have h1 := @numberPacket_kept
  have h2 := @setPacket_kept
  grind

theorem recheckOne_kept (s : State) (id : Nat) (p : Packet) : (s.recheckOne id p).homes.kept = s.homes.kept := by
  unfold State.recheckOne
  have h1 := @countPacket_kept
  have h2 := @delPacket_kept
  have h3 := @recordRoute_kept
  have h4 := @countRoute_kept
  have h5 := @setPacket_kept
  grind [at_kept, later_kept]

theorem recheck_kept (s : State) (part : Nat) : (s.recheck part).homes.kept = s.homes.kept := by
  unfold State.recheck
  have h1 := @recheckOne_kept
  grind [foldl_kept]

/-! The functions of Machine/Errors. -/

theorem noteRetired_kept (s : State) (slice : Nat) (r : Retired) :
    (s.noteRetired slice r).homes.kept = s.homes.kept := by
  unfold State.noteRetired
  grind [setPlat_kept]

theorem retireCount_kept (s : State) (slice lo : Nat) : (s.retireCount slice lo).homes.kept = s.homes.kept := by
  unfold State.retireCount
  grind [setReg_kept]

theorem retireBit_kept (s : State) (slice i : Nat) : (s.retireBit slice i).homes.kept = s.homes.kept := by
  unfold State.retireBit
  grind [setReg_kept]

theorem showRetired_kept (s : State) (slice : Nat) (r : Retired) :
    (s.showRetired slice r).homes.kept = s.homes.kept := by
  unfold State.showRetired
  have h1 := @retireCount_kept
  have h2 := @retireBit_kept
  grind

theorem retireCore_kept (s : State) (core : Nat) : (s.retireCore core).homes.kept = s.homes.kept := by
  unfold State.retireCore
  have h1 := @loseBlock_kept
  have h2 := @endTicket_kept
  grind [foldl_kept]

theorem stopHart_kept (s : State) (h : Nat) : (s.stopHart h).homes.kept = s.homes.kept := by
  unfold State.stopHart
  grind [setHart_kept]

theorem markTurnstile_kept (s : State) (loc : TsLoc) : (s.markTurnstile loc).homes.kept = s.homes.kept := by
  unfold State.markTurnstile
  have h1 := @report_kept
  grind [Homes.kept, setHomes_kept, setCore_kept, foldl_kept]

theorem scratchError_kept (s : State) (core word : Nat) : (s.scratchError core word).homes.kept = s.homes.kept := by
  unfold State.scratchError
  have h1 := @markTurnstile_kept
  grind [setCore_kept]

theorem l1Error_kept (s : State) (core line : Nat) : (s.l1Error core line).homes.kept = s.homes.kept := by
  unfold State.l1Error
  have h1 := @writeBack_kept
  grind [setCore_kept]

theorem poisonLine_kept (s : State) (line : Nat) : (s.poisonLine line).homes.kept = s.homes.kept := by
  unfold State.poisonLine
  grind [Homes.kept, setHomes_kept]

theorem l2Error_kept (s : State) (line : Nat) (channelBad : Bool) :
    (s.l2Error line channelBad).homes.kept = s.homes.kept := by
  unfold State.l2Error
  have h1 := @poisonLine_kept
  have h2 := @chanAsk_kept
  grind [Homes.kept, setHomes_kept]

theorem leaseError_kept (s : State) (line : Nat) : (s.leaseError line).homes.kept = s.homes.kept := by
  unfold State.leaseError
  have h1 := @sendRecalls_kept
  grind [Homes.kept, setHomes_kept]

theorem xbarOp_kept (s : State) (id word : Nat) (o : MemOp) : (s.xbarOp id word o).homes.kept = s.homes.kept := by
  unfold State.xbarOp
  have h1 := @setOp_kept
  grind

theorem xbarTs_kept (s : State) (id : Nat) (o : TsOp) : (s.xbarTs id o).homes.kept = s.homes.kept := by
  unfold State.xbarTs
  have h1 := @setTs_kept
  have h2 := @markTurnstile_kept
  grind

theorem xbarWake_kept (s : State) (id : Nat) (w : Waiter) : (s.xbarWake id w).homes.kept = s.homes.kept := by
  unfold State.xbarWake
  have h1 := @setWaiter_kept
  grind

theorem xbarError_kept (s : State) (op word : Nat) : (s.xbarError op word).homes.kept = s.homes.kept := by
  unfold State.xbarError
  have h1 := @xbarOp_kept
  have h2 := @xbarTs_kept
  have h3 := @xbarWake_kept
  grind

theorem errorAt_kept (s : State) (a : ErrorAt) : (s.errorAt a).homes.kept = s.homes.kept := by
  unfold State.errorAt
  have h1 := @scratchError_kept
  have h2 := @l1Error_kept
  have h3 := @l2Error_kept
  have h4 := @poisonLine_kept
  have h5 := @xbarError_kept
  have h6 := @dropRdc_kept
  have h7 := @leaseError_kept
  have h8 := @markTurnstile_kept
  grind [modTroupe_kept, setCore_kept, setHart_kept]

/-! The functions of Machine/HartCsr. -/

/-- An event of a timer: at its tick, where that lies ahead. -/
def State.timerAt (s : State) (t : Nat) (e : Ev) : State := if s.tick < t then s.at t e else s

theorem timerAt_kept (s : State) (t : Nat) (e : Ev) : (s.timerAt t e).homes.kept = s.homes.kept := by
  unfold State.timerAt
  grind [at_kept]

theorem armTimers_kept (s : State) (h : Nat) : (s.armTimers h).homes.kept = s.homes.kept :=
  (timerAt_kept _ _ _).trans (timerAt_kept _ _ _)

theorem csrOp_kept (s : State) (h n f3 rd src v : Nat) : (s.csrOp h n f3 rd src v).homes.kept = s.homes.kept := by
  unfold State.csrOp
  have h1 := @hartTrap_kept
  have h2 := @armTimers_kept
  grind [setHart_kept]

/-! The functions of Machine/HartIsa. -/

theorem fillCode_kept (s : State) (h va line tag : Nat) : (s.fillCode h va line tag).2.homes.kept = s.homes.kept := by
  unfold State.fillCode
  grind [walked_kept, setHart_kept]

theorem codeLine_kept (s : State) (h va line tag : Nat) : (s.codeLine h va line tag).2.homes.kept = s.homes.kept := by
  unfold State.codeLine
  have h1 := @fillCode_kept
  grind

theorem parcel_kept (s : State) (h va : Nat) : (s.parcel h va).2.homes.kept = s.homes.kept := by
  unfold State.parcel
  have h1 := @hartXlate_kept
  have h2 := @codeLine_kept
  grind

theorem illegal_kept (s : State) (h : Nat) : (s.illegal h).homes.kept = s.homes.kept := by
  unfold State.illegal
  have h1 := @hartTrap_kept
  grind

theorem hartXlateIn_kept (s : State) (h : Nat) (md : HartMode) (a : HAcc) (va n : Nat) :
    (s.hartXlateIn h md a va n).2.homes.kept = s.homes.kept := by
  unfold State.hartXlateIn
  have h1 := @hartXlate_kept
  grind [setHart_kept]

/-! The functions of Machine/Partitions. -/

theorem dropMsg_kept (s : State) (id : Nat) (m : Message) : (s.dropMsg id m).homes.kept = s.homes.kept := by
  unfold State.dropMsg
  have h1 := @delMsg_kept
  have h2 := @seqOf_kept
  have h3 := @putSeq_kept
  have h4 := @sendMsg_kept
  grind

theorem dropVfTlb_kept (s : State) (part vf : Nat) : (s.dropVfTlb part vf).homes.kept = s.homes.kept := by
  unfold State.dropVfTlb
  grind [setPkg_kept]

theorem endVfWaits_kept (s : State) (part vf : Nat) : (s.endVfWaits part vf).homes.kept = s.homes.kept := by
  unfold State.endVfWaits
  have h1 := @resetWaits_kept
  have h2 := @portCancel_kept
  have h3 := @unanchor_kept
  grind [foldl_kept]

theorem resetFlow_kept (s : State) (id : Nat) (f : Flow) : (s.resetFlow id f).homes.kept = s.homes.kept := by
  unfold State.resetFlow
  have h1 := @out_kept
  have h2 := @setFlow_kept
  grind [setFab_kept]

theorem resetFlows_kept (s : State) (part vf : Nat) : (s.resetFlows part vf).homes.kept = s.homes.kept := by
  unfold State.resetFlows
  have h1 := @resetFlow_kept
  grind [foldl_kept]

theorem dropAbroad_kept (s : State) (part vf : Nat) : (s.dropAbroad part vf).homes.kept = s.homes.kept := by
  unfold State.dropAbroad
  grind [setFlight_kept, setFab_kept]

theorem setMig_kept (s : State) (slice chan : Nat) (m : Migration) :
    (s.setMig slice chan m).homes.kept = s.homes.kept := by
  unfold State.setMig
  grind [setPkg_kept]

theorem handLine_kept (s : State) (m : Migration) (line : Nat) :
    (s.handLine m line).homes.kept = s.homes.kept := by
  unfold State.handLine
  rw [foldl_kept _ fun s v => unanchor_kept s _ v]
  have h1 := @record_kept
  grind [Homes.kept, setHomes_kept]

theorem handWaiter_kept (s : State) (m : Migration) (id : Nat) (w : Waiter) :
    (s.handWaiter m id w).homes.kept = s.homes.kept := by
  unfold State.handWaiter
  have h1 := @setWaiter_kept
  grind [bump_kept, at_kept]

theorem handOver_kept (s : State) (m : Migration) : (s.handOver m).homes.kept = s.homes.kept := by
  unfold State.handOver
  have h1 := @handWaiter_kept
  have h2 := @handLine_kept
  grind [setFlight_kept, foldl_kept]

theorem defaultRoutes_kept (s : State) (slice : Nat) : (s.defaultRoutes slice).homes.kept = s.homes.kept := by
  unfold State.defaultRoutes
  grind [setFab_kept, foldl_kept]

theorem clearRegs_kept (s : State) (slice : Nat) : (s.clearRegs slice).homes.kept = s.homes.kept := by
  unfold State.clearRegs
  grind

theorem clearHarts_kept (s : State) (slice : Nat) : (s.clearHarts slice).homes.kept = s.homes.kept := by
  unfold State.clearHarts
  grind

theorem endWaiting_kept (s : State) (slice : Nat) : (s.endWaiting slice).homes.kept = s.homes.kept := by
  unfold State.endWaiting
  have h1 := @dropAccess_kept
  have h2 := @setWaiter_kept
  grind [at_kept, foldl_kept]

theorem clearTables_kept (s : State) (slice : Nat) : (s.clearTables slice).homes.kept = s.homes.kept := by
  unfold State.clearTables
  grind [setFab_kept, setPkg_kept]

theorem shareRegs_kept (s : State) (from_ slice : Nat) : (s.shareRegs from_ slice).homes.kept = s.homes.kept := by
  unfold State.shareRegs
  grind [setReg_kept, foldl_kept]

theorem startHart_kept (s : State) (h pc block : Nat) : (s.startHart h pc block).homes.kept = s.homes.kept := by
  unfold State.startHart
  grind [later_kept, setHart_kept]

theorem startHarts_kept (s : State) (slice pc block : Nat) :
    (s.startHarts slice pc block).homes.kept = s.homes.kept := by
  unfold State.startHarts
  have h1 := @startHart_kept
  grind [foldl_kept]

theorem mailDone_kept (s : State) (part res : Nat) (ops : List Nat) (nb : Nat) :
    (s.mailDone part res ops nb).homes.kept = s.homes.kept := by
  unfold State.mailDone
  have h1 := @addAfter_kept
  grind [setPartReg_kept, modPart_kept]

theorem mailRefuse_kept (s : State) (part : Nat) : (s.mailRefuse part).homes.kept = s.homes.kept := by
  unfold State.mailRefuse
  have h1 := @mailDone_kept
  grind

/-! The functions of Machine/Platform. -/

theorem setBands_kept (s : State) (part : Nat) (bs : List (W64 × W64)) :
    (s.setBands part bs).homes.kept = s.homes.kept := by
  unfold State.setBands
  grind [setPartReg_kept, foldl_kept]

theorem showAll_kept (s : State) : s.showAll.homes.kept = s.homes.kept := by
  unfold State.showAll
  have h1 := @showRetired_kept
  grind [setPlat_kept, foldl_kept]

theorem pendSource_kept (s : State) (slice source : Nat) : (s.pendSource slice source).homes.kept = s.homes.kept := by
  unfold State.pendSource
  grind [setPlat_kept]

theorem raiseSource_kept (s : State) (slice source : Nat) : (s.raiseSource slice source).homes.kept = s.homes.kept := by
  unfold State.raiseSource
  have h1 := @pendSource_kept
  have h2 := @msi_kept
  grind

/-! The functions of Machine/Agenda. -/

theorem passTick_kept (s : State) : s.passTick.homes.kept = s.homes.kept := by
  unfold State.passTick
  grind

end Sys2Proof.Machine
end

section
/-! PROOFS. Words and events that leave memory and its waiting writes as they are. -/

namespace Sys2Proof.Machine

/-- An instruction that, where it goes on, leaves memory and its waiting writes as they were. -/
def Quiet (s : State) (o : Out) : Prop := ∀ s', o = .next s' → s'.homes.kept = s.homes.kept

theorem quiet_next {s u : State} (h : u.homes.kept = s.homes.kept) : Quiet s (.next u) := by
  rintro s' ⟨⟩
  exact h

theorem onTroupe_quiet {s : State} {f : Ctx → State} (h : ∀ c, (f c).homes.kept = s.homes.kept) :
    Quiet s (onTroupe s f) := by
  unfold onTroupe
  split
  · exact quiet_next (h _)
  · rintro s' ⟨⟩

theorem kept_ite {p : Prop} [Decidable p] {s u v : State} (hu : u.homes.kept = s.homes.kept)
    (hv : v.homes.kept = s.homes.kept) : (if p then u else v).homes.kept = s.homes.kept := by
  split
  · exact hu
  · exact hv

theorem onHart_quiet {s : State} {h : Nat} {i : Option Instr} {f : Hart → State}
    (hf : ∀ x, (f x).homes.kept = s.homes.kept) : Quiet s (onHart h i s f) := by
  unfold onHart
  grind [quiet_next, retryHart_kept]

theorem laneOp_quiet (s : State) (i : Instr) (sx : Bool) (f : Nat → List Nat → Nat) : Quiet s (laneOp s i sx f) := by
  refine onTroupe_quiet fun c => ?_
  grind [whenReady_kept, advance_kept]

theorem predOp_quiet (s : State) (i : Instr) (pd : Pred) (f : List Nat → Bool) : Quiet s (predOp s i pd f) := by
  refine onTroupe_quiet fun c => ?_
  grind [whenReady_kept, advance_kept]

theorem execFset_quiet (m : FMod) (cc : FCond) (pd : Pred) (o : P2) (s : State) : Quiet s (execFset m cc pd o s) :=
  predOp_quiet _ _ _ _

theorem approxOp_quiet (s : State) (i : Instr) (m : FMod) (f : Config.Approx) : Quiet s (approxOp s i m f) := by
  unfold approxOp
  grind [laneOp_quiet]

theorem immOp_quiet (s : State) (i : Instr) (o : I1) (f : Int → Int → Int) : Quiet s (immOp s i o f) := by
  unfold immOp
  grind [laneOp_quiet]

theorem divOp_quiet (s : State) (i : Instr) (t : IntTy) (nt : Bool) (o : R2) (pick : Nat × Nat → Nat) :
    Quiet s (divOp s i t nt o pick) := by
  refine onTroupe_quiet fun c => ?_
  grind [whenReady_kept, raise_kept, advance_kept]

theorem carryOp_quiet (s : State) (i : Instr) (t : IntTy) (ci : Bool) (p : Pred) (o : R2)
    (f : Nat → Nat → Nat → Bool → Nat × Bool) : Quiet s (carryOp s i t ci p o f) := by
  refine onTroupe_quiet fun c => ?_
  grind [whenReady_kept, advance_kept]

theorem logicOp_quiet (s : State) (i : Instr) (t : IntTy) (f : Nat → Nat → Nat) : Quiet s (logicOp s i t f) := by
  unfold logicOp
  grind [laneOp_quiet]

theorem execAnd_quiet (t : IntTy) (o : R2) (s : State) : Quiet s (execAnd t o s) :=
  logicOp_quiet _ _ _ _

theorem execOr_quiet (t : IntTy) (o : R2) (s : State) : Quiet s (execOr t o s) :=
  logicOp_quiet _ _ _ _

theorem execXor_quiet (t : IntTy) (o : R2) (s : State) : Quiet s (execXor t o s) :=
  logicOp_quiet _ _ _ _

theorem execAndn_quiet (t : IntTy) (o : R2) (s : State) : Quiet s (execAndn t o s) :=
  logicOp_quiet _ _ _ _

theorem logicImm_quiet (s : State) (i : Instr) (o : I1) (f : Nat → Nat → Nat) : Quiet s (logicImm s i o f) := by
  unfold logicImm
  grind [laneOp_quiet]

theorem shiftImm_quiet (s : State) (i : Instr) (o : I1) (f : Nat → Nat → Nat → Nat) : Quiet s (shiftImm s i o f) := by
  unfold shiftImm
  grind [laneOp_quiet]

theorem execIset_quiet (t : IntTy) (cc : ICond) (pd : Pred) (o : P2) (s : State) : Quiet s (execIset t cc pd o s) :=
  predOp_quiet _ _ _ _

theorem execIsetI_quiet (cc : ICond) (u : Bool) (pd : Pred) (a : Src) (imm : BitVec 25) (s : State) :
    Quiet s (execIsetI cc u pd a imm s) :=
  predOp_quiet _ _ _ _

theorem execSel_quiet (g : Option Guard) (w64 inv : Bool) (q : Pred) (o : R2) (s : State) :
    Quiet s (execSel g w64 inv q o s) := by
  refine onTroupe_quiet fun c => ?_
  grind [whenReady_kept, raise_kept, advance_kept]

theorem execPlop_quiet (pd pa pb : Pred) (lut : BitVec 4) (s : State) : Quiet s (execPlop pd pa pb lut s) := by
  refine onTroupe_quiet fun c => ?_
  grind [advance_kept]

theorem execPmovToReg_quiet (d : Reg) (s : State) : Quiet s (execPmovToReg d s) := by
  refine onTroupe_quiet fun c => ?_
  grind [whenReady_kept, advance_kept]

theorem execPmovToPred_quiet (a : Src) (mask : BitVec 8) (s : State) : Quiet s (execPmovToPred a mask s) := by
  refine onTroupe_quiet fun c => ?_
  grind [whenReady_kept, advance_kept, foldl_kept]

theorem execMovhi_quiet (d : Reg) (imm : W32) (s : State) : Quiet s (execMovhi d imm s) := by
  refine onTroupe_quiet fun c => ?_
  grind [whenReady_kept, advance_kept, foldl_kept]

theorem execRdlane_quiet (d : Reg) (a : Src) (b : SReg) (s : State) : Quiet s (execRdlane d a b s) := by
  refine onTroupe_quiet fun c => ?_
  grind [stall_kept, raise_kept, advance_kept]

theorem execWrlane_quiet (d : Reg) (a b : SReg) (s : State) : Quiet s (execWrlane d a b s) := by
  refine onTroupe_quiet fun c => ?_
  grind [whenReady_kept, advance_kept]

theorem execBra_quiet (g : Option Guard) (off : BitVec 48) (s : State) : Quiet s (execBra g off s) := by
  refine onTroupe_quiet fun c => ?_
  grind [branch_kept]

theorem execBrx_quiet (g : Option Guard) (r : Reg) (s : State) : Quiet s (execBrx g r s) := by
  refine onTroupe_quiet fun c => ?_
  grind [whenReady_kept, goto_kept]

theorem execCall_quiet (off : BitVec 48) (s : State) : Quiet s (execCall off s) := by
  refine onTroupe_quiet fun c => ?_
  grind [whenReady_kept, endClause_kept]

theorem execCallx_quiet (r : Reg) (s : State) : Quiet s (execCallx r s) := by
  refine onTroupe_quiet fun c => ?_
  grind [whenReady_kept, goto_kept]

theorem execRet_quiet (r : Reg) (s : State) : Quiet s (execRet r s) := by
  refine onTroupe_quiet fun c => ?_
  grind [whenReady_kept, goto_kept]

theorem execExit_quiet (s : State) : Quiet s (execExit s) := by
  refine onTroupe_quiet fun c => ?_
  grind [endClause_kept]

theorem execTrap_quiet (imm : W32) (s : State) : Quiet s (execTrap imm s) := by
  refine onTroupe_quiet fun c => ?_
  grind [softTrap_kept]

theorem execBkpt_quiet (imm : W32) (s : State) : Quiet s (execBkpt imm s) := by
  refine onTroupe_quiet fun c => ?_
  grind [softTrap_kept]

theorem execTret_quiet (s : State) : Quiet s (execTret s) := by
  refine onTroupe_quiet fun c => ?_
  grind [raise_kept, endClause_kept]

theorem execYield_quiet (s : State) : Quiet s (execYield s) := by
  refine onTroupe_quiet fun c => ?_
  grind [endClause_kept, bump_kept]

theorem execNop_quiet (s : State) : Quiet s (execNop s) := by
  refine onTroupe_quiet fun c => ?_
  grind [advance_kept]

theorem execSleep_quiet (ticks : W32) (s : State) : Quiet s (execSleep ticks s) := by
  refine onTroupe_quiet fun c => ?_
  grind [endClause_kept, bump_kept, at_kept]

theorem execShfl_quiet (mode : ShflMode) (seg : Fin 7) (w64 : Bool) (o : R2) (s : State) :
    Quiet s (execShfl mode seg w64 o s) := by
  refine onTroupe_quiet fun c => ?_
  grind [raise_kept, stall_kept, advance_kept]

theorem execVote_quiet (mode : VoteMode) (inv : Bool) (q : Pred) (d : Reg) (s : State) :
    Quiet s (execVote mode inv q d s) := by
  refine onTroupe_quiet fun c => ?_
  grind [whenReady_kept, advance_kept]

theorem execMatchLanes_quiet (w64 : Bool) (o : R1) (s : State) : Quiet s (execMatchLanes w64 o s) := by
  refine onTroupe_quiet fun c => ?_
  grind [whenReady_kept, advance_kept]

theorem execRedux_quiet (op : RedOp) (t : IntTy) (o : R1) (s : State) : Quiet s (execRedux op t o s) := by
  refine onTroupe_quiet fun c => ?_
  grind [whenReady_kept, advance_kept]

theorem execFredux_quiet (f64 : Bool) (op : FRedOp) (neg ab ftz : Bool) (rm : Rounding) (o : R1) (s : State) :
    Quiet s (execFredux f64 op neg ab ftz rm o s) := by
  refine onTroupe_quiet fun c => ?_
  grind [whenReady_kept, advance_kept]

theorem execScan_quiet (op : RedOp) (t : IntTy) (excl : Bool) (o : R1) (s : State) :
    Quiet s (execScan op t excl o s) := by
  refine onTroupe_quiet fun c => ?_
  grind [whenReady_kept, advance_kept]

theorem execAmask_quiet (live : Bool) (d : Reg) (s : State) : Quiet s (execAmask live d s) := by
  refine onTroupe_quiet fun c => ?_
  grind [whenReady_kept, advance_kept]

theorem execMovsRead_quiet (sr : Special) (d : Reg) (s : State) : Quiet s (execMovsRead sr d s) := by
  refine onTroupe_quiet fun c => ?_
  grind [whenReady_kept, advance_kept]

theorem execMovsWrite_quiet (a : SReg) (s : State) : Quiet s (execMovsWrite a s) := by
  refine onTroupe_quiet fun c => ?_
  grind [whenReady_kept, advance_kept]

theorem execRedirectedAccess_quiet (op line : Nat) (s : State) : Quiet s (execRedirectedAccess op line s) := by
  unfold execRedirectedAccess
  refine quiet_next ?_
  split
  · rfl
  · split
    · rfl
    · grind [performHere_kept, later_kept]

theorem execPinnedForcedWriteback_quiet (core line : Nat) (s : State) :
    Quiet s (execPinnedForcedWriteback core line s) := by
  unfold execPinnedForcedWriteback
  refine quiet_next ?_
  grind [writeBack_kept]

theorem execLoadDataReturn_quiet (op line : Nat) (s : State) : Quiet s (execLoadDataReturn op line s) := by
  unfold execLoadDataReturn
  refine quiet_next ?_
  split
  · rfl
  · split
    · rfl
    · grind [modTroupe_kept, hartReturn_kept, l1Fill_kept, setHart_kept, settleOp_kept, modPart?_kept, foldl_kept]

theorem execGwctReceive_quiet (op line : Nat) (s : State) : Quiet s (execGwctReceive op line s) := by
  unfold execGwctReceive
  refine quiet_next ?_
  grind [settleOp_kept, modPart?_kept, takeGwct_kept]

theorem execRecall_quiet (slice line : Nat) (s : State) : Quiet s (execRecall slice line s) := by
  unfold execRecall
  refine quiet_next ?_
  grind [Homes.kept, dropRdc_kept, setFlight_kept, setHomes_kept, ackRecall_kept, foldl_kept]

theorem execPipeGrant_quiet (core : Nat) (s : State) : Quiet s (execPipeGrant core s) := by
  unfold execPipeGrant
  refine quiet_next ?_
  grind [fillPipe_kept, laterOnce_kept, foldl_kept]

theorem execClauseIssue_quiet (core slot : Nat) (s : State) : Quiet s (execClauseIssue core slot s) := by
  unfold execClauseIssue
  refine quiet_next ?_
  grind [later_kept, issueClause_kept, offPipe_kept]

theorem execStallRelease_quiet (core slot : Nat) (s : State) : Quiet s (execStallRelease core slot s) := by
  unfold execStallRelease
  refine quiet_next ?_
  grind [later_kept, setTroupe_kept]

theorem execSleepWake_quiet (core slot : Nat) (s : State) : Quiet s (execSleepWake core slot s) := by
  unfold execSleepWake
  refine quiet_next ?_
  grind [reGrant_kept, setTroupe_kept, at_kept]

theorem clusterOp_quiet (s : State) (r : MemReq) : Quiet s (clusterOp s r) := by
  refine onTroupe_quiet fun c => ?_
  grind [whenReady_kept, clusterChecked_kept]

theorem execXbarRequest_quiet (op : Nat) (s : State) : Quiet s (execXbarRequest op s) := by
  unfold execXbarRequest
  refine quiet_next ?_
  grind [serveXbar_kept]

theorem execXbarSpillRetry_quiet (op : Nat) (s : State) : Quiet s (execXbarSpillRetry op s) := by
  unfold execXbarSpillRetry
  refine quiet_next ?_
  grind [serveXbar_kept]

theorem execBrmk_quiet (b : BReg) (sa : SReg) (s : State) : Quiet s (execBrmk b sa s) := by
  refine onTroupe_quiet fun c => ?_
  grind [stall_kept, raise_kept, advance_kept, foldl_kept]

theorem execBrset_quiet (f : BField) (b : BReg) (sa : SReg) (s : State) : Quiet s (execBrset f b sa s) := by
  refine onTroupe_quiet fun c => ?_
  grind [whenReady_kept, raise_kept, advance_kept]

theorem execCwb_quiet (range : Option (SReg × SReg)) (s : State) : Quiet s (execCwb range s) := by
  refine onTroupe_quiet fun c => ?_
  grind [whenReady_kept, stall_kept, walkBack_kept]

theorem execCinv_quiet (range : Option (SReg × SReg)) (s : State) : Quiet s (execCinv range s) := by
  refine onTroupe_quiet fun c => ?_
  grind [whenReady_kept, stall_kept, walkBack_kept, dropValid_kept]

theorem execIcinv_quiet (range : Option (SReg × SReg)) (s : State) : Quiet s (execIcinv range s) := by
  refine onTroupe_quiet fun c => ?_
  grind [whenReady_kept, stall_kept, advance_kept, setCore_kept]

theorem execFetchbar_quiet (s : State) : Quiet s (execFetchbar s) := by
  refine onTroupe_quiet fun c => ?_
  grind [advance_kept]

theorem execPin_quiet (d sa sb : SReg) (s : State) : Quiet s (execPin d sa sb s) := by
  refine onTroupe_quiet fun c => ?_
  grind [whenReady_kept, ask_kept, startPin_kept]

theorem execPinComplete_quiet (req : Nat) (s : State) : Quiet s (execPinComplete req s) := by
  unfold execPinComplete
  refine quiet_next ?_
  grind [l2Fill_kept, chanAsk_kept, setUsed_kept, anchor_kept, reply_kept, foldl_kept]

theorem execUnpin_quiet (d sa sb : SReg) (s : State) : Quiet s (execUnpin d sa sb s) := by
  refine onTroupe_quiet fun c => ?_
  grind [whenReady_kept, ask_kept, askSlices_kept]

theorem execPinq_quiet (d sa : SReg) (s : State) : Quiet s (execPinq d sa s) := by
  refine onTroupe_quiet fun c => ?_
  grind [whenReady_kept, ask_kept]

theorem execL2pinqWrite_quiet (slice vf : Nat) (val : W64) (req : Nat) (s : State) :
    Quiet s (execL2pinqWrite slice vf val req s) := by
  unfold execL2pinqWrite
  refine quiet_next ?_
  grind [reply_kept, writeReg_kept]

theorem execSltokWrite_quiet (slice vf : Nat) (val : W64) (req : Nat) (s : State) :
    Quiet s (execSltokWrite slice vf val req s) := by
  unfold execSltokWrite
  refine quiet_next ?_
  grind [reply_kept, setReg_kept]

theorem execChannelTransfer_quiet (slice channel : Nat) (s : State) :
    Quiet s (execChannelTransfer slice channel s) := by
  unfold execChannelTransfer
  refine quiet_next ?_
  grind [Homes.kept, charge_kept, setHomes_kept, countEnergy_kept, tsFill_kept, l2Fill_kept, laterOnce_kept]

theorem execSclaim_quiet (d : SReg) (mask : W16 ⊕ SReg) (s : State) : Quiet s (execSclaim d mask s) := by
  refine onTroupe_quiet fun c => ?_
  grind [whenReady_kept, stall_kept, raiseSplit_kept, raiseSlot_kept, claimed_kept, setBlock_kept, foldl_kept]

theorem execSrel_quiet (mask : W16 ⊕ SReg) (s : State) : Quiet s (execSrel mask s) := by
  refine onTroupe_quiet fun c => ?_
  grind [whenReady_kept, stall_kept, raiseSplit_kept, raiseSlot_kept, claimed_kept, setBlock_kept, foldl_kept]

theorem productOp_quiet (s : State) (i : Instr) : Quiet s (productOp s i) := by
  refine onTroupe_quiet fun c => ?_
  grind [product_kept, advance_kept]

theorem execMmaE4m3_quiet (o : MmaOps) (s : State) : Quiet s (execMmaE4m3 o s) :=
  productOp_quiet _ _

theorem execMmaE5m2_quiet (o : MmaOps) (s : State) : Quiet s (execMmaE5m2 o s) :=
  productOp_quiet _ _

theorem execMmaBf16_quiet (o : MmaOps) (s : State) : Quiet s (execMmaBf16 o s) :=
  productOp_quiet _ _

theorem execMmaF16_quiet (o : MmaOps) (s : State) : Quiet s (execMmaF16 o s) :=
  productOp_quiet _ _

theorem execMmaF32_quiet (o : MmaOps) (s : State) : Quiet s (execMmaF32 o s) :=
  productOp_quiet _ _

theorem execMmaI8_quiet (ua ub : Bool) (o : MmaOps) (s : State) : Quiet s (execMmaI8 ua ub o s) :=
  productOp_quiet _ _

theorem execMmaI4_quiet (ua ub : Bool) (o : MmaOps) (s : State) : Quiet s (execMmaI4 ua ub o s) :=
  productOp_quiet _ _

theorem execMmaMxf6_quiet (a23 b23 : Bool) (x : XArea) (c : SReg) (o : MmaOps) (s : State) :
    Quiet s (execMmaMxf6 a23 b23 x c o s) :=
  productOp_quiet _ _

theorem execMmaMxf4_quiet (x : XArea) (c : SReg) (o : MmaOps) (s : State) : Quiet s (execMmaMxf4 x c o s) :=
  productOp_quiet _ _

theorem execMmaq_quiet (g : GroupSize) (x : XArea) (c : SReg) (o : MmaOps) (s : State) : Quiet s (execMmaq g x c o s) :=
  productOp_quiet _ _

theorem execMmaspE4m3_quiet (x : XArea) (o : MmaOps) (s : State) : Quiet s (execMmaspE4m3 x o s) :=
  productOp_quiet _ _

theorem execMmaspBf16_quiet (x : XArea) (o : MmaOps) (s : State) : Quiet s (execMmaspBf16 x o s) :=
  productOp_quiet _ _

theorem execSfill_quiet (slot : Slot) (cnt : Fin 16) (off : Option SReg) (a : Src) (s : State) :
    Quiet s (execSfill slot cnt off a s) := by
  refine onTroupe_quiet fun c => ?_
  grind [whenWhole_kept, slotOp_kept, mxAccept_kept]

theorem execSdrain_quiet (slot : Slot) (cnt : Fin 16) (off : Option SReg) (d : Reg) (s : State) :
    Quiet s (execSdrain slot cnt off d s) := by
  refine onTroupe_quiet fun c => ?_
  grind [whenReady_kept, slotOp_kept, mxAccept_kept]

theorem execSxpose_quiet (dst src : Slot) (es : XposeBits) (rc : Fin 5) (s : State) :
    Quiet s (execSxpose dst src es rc s) := by
  refine onTroupe_quiet fun c => ?_
  grind [whenReady_kept, stall_kept, slotOp_kept, mxAccept_kept]

theorem execMmacvt_quiet (slot : Slot) (fmt : TileFmt) (sat t ftz : Bool) (rm : Rounding) (off : Option SReg)
    (seed : SReg) (a : Src) (s : State) : Quiet s (execMmacvt slot fmt sat t ftz rm off seed a s) := by
  refine onTroupe_quiet fun c => ?_
  grind [whenWhole_kept, stall_kept, slotOp_kept, mxAccept_kept]

theorem execMatrixPeriodStart_quiet (core : Nat) (s : State) : Quiet s (execMatrixPeriodStart core s) := by
  unfold execMatrixPeriodStart
  refine quiet_next ?_
  grind [setMx_kept, setCore_kept, countEnergy_kept, later_kept]

theorem execMatrixWriteback_quiet (core : Nat) (s : State) : Quiet s (execMatrixWriteback core s) := by
  unfold execMatrixWriteback
  refine quiet_next ?_
  grind [mxEnd_kept]

theorem execSlotPortStart_quiet (core : Nat) (s : State) : Quiet s (execSlotPortStart core s) := by
  unfold execSlotPortStart
  refine quiet_next ?_
  grind [setMx_kept, setCore_kept, later_kept]

theorem execSlotPortEnd_quiet (core : Nat) (s : State) : Quiet s (execSlotPortEnd core s) := by
  unfold execSlotPortEnd
  refine quiet_next ?_
  grind [mxEnd_kept]

theorem execTurnstileAcknowledgement_quiet (op : Nat) (s : State) : Quiet s (execTurnstileAcknowledgement op s) := by
  unfold execTurnstileAcknowledgement
  refine quiet_next ?_
  grind [modTroupe_kept, post_kept, peerReply_kept, hartReturn_kept, delTs_kept, setTs_kept]

theorem execTadd_quiet (t : TsRef) (amt : TsAmt) (s : State) : Quiet s (execTadd t amt s) := by
  refine onTroupe_quiet fun c => ?_
  grind [whenReady_kept, tsInstr_kept]

theorem execTfetch_quiet (d : SReg) (t : TsRef) (amt : TsAmt) (s : State) : Quiet s (execTfetch d t amt s) := by
  refine onTroupe_quiet fun c => ?_
  grind [whenReady_kept, tsInstr_kept]

theorem execTmax_quiet (t : TsRef) (sb : SReg) (s : State) : Quiet s (execTmax t sb s) := by
  refine onTroupe_quiet fun c => ?_
  grind [whenReady_kept, tsInstr_kept]

theorem execTread_quiet (d : SReg) (t : TsRef) (s : State) : Quiet s (execTread d t s) := by
  refine onTroupe_quiet fun c => ?_
  grind [whenReady_kept, tsInstr_kept]

theorem execTreset_quiet (d : SReg) (t : TsRef) (sb : SReg) (s : State) : Quiet s (execTreset d t sb s) := by
  refine onTroupe_quiet fun c => ?_
  grind [whenReady_kept, raise_kept, tsInstr_kept]

theorem execWakeReceive_quiet (waiter : Nat) (s : State) : Quiet s (execWakeReceive waiter s) := by
  unfold execWakeReceive
  refine quiet_next ?_
  grind [waitStep_kept, later_kept, post_kept]

theorem execWaitTimeout_quiet (core slot : Nat) (s : State) : Quiet s (execWaitTimeout core slot s) := by
  unfold execWaitTimeout
  refine quiet_next ?_
  grind [waitStep_kept, later_kept]

theorem execTurnstilePoll_quiet (waiter : Nat) (s : State) : Quiet s (execTurnstilePoll waiter s) := by
  unfold execTurnstilePoll
  refine quiet_next ?_
  grind [at_kept, sendPeer_kept, report_kept, countRefusal_kept, later_kept, setWaiter_kept, chanReq_kept,
    readCond_kept, tsTouch_kept]

theorem execWait_quiet (d sa : SReg) (n : Fin 4) (all : Bool) (limit : WaitLimit) (s : State) :
    Quiet s (execWait d sa n all limit s) := by
  refine onTroupe_quiet fun c => ?_
  grind [whenReady_kept, stall_kept, noteRefusal_kept, raise_kept, startWait_kept]

theorem execWaitout_quiet (l : Limits) (s : State) : Quiet s (execWaitout l s) := by
  refine onTroupe_quiet fun c => ?_
  grind [endClause_kept, bump_kept, post_kept]

theorem execWaitoutComplete_quiet (core slot : Nat) (s : State) : Quiet s (execWaitoutComplete core slot s) := by
  unfold execWaitoutComplete
  refine quiet_next ?_
  grind [reGrant_kept, setTroupe_kept, later_kept]

theorem execFence_quiet (scope : Fin 8) (s : State) : Quiet s (execFence scope s) := by
  refine onTroupe_quiet fun c => ?_
  grind [post_kept, endClause_kept]

theorem execFenceComplete_quiet (core slot : Nat) (s : State) : Quiet s (execFenceComplete core slot s) := by
  unfold execFenceComplete
  refine quiet_next ?_
  grind [later_kept, release_kept, post_kept, modTroupe_kept, at_kept, setTroupe_kept, reGrant_kept]

theorem execCopy_quiet (d sa : SReg) (s : State) : Quiet s (execCopy d sa s) := by
  refine onTroupe_quiet fun c => ?_
  grind [whenReady_kept, raiseSplit_kept, stall_kept, startCopy_kept, raise_kept]

theorem execCpstat_quiet (d sa : SReg) (s : State) : Quiet s (execCpstat d sa s) := by
  refine onTroupe_quiet fun c => ?_
  grind [whenReady_kept, ask_kept]

theorem execCpabort_quiet (chain : Option SReg) (s : State) : Quiet s (execCpabort chain s) := by
  refine onTroupe_quiet fun c => ?_
  grind [whenReady_kept, advance_kept, abortChain_kept, foldl_kept]

theorem execChainStart_quiet (core : Nat) (s : State) : Quiet s (execChainStart core s) := by
  unfold execChainStart
  refine quiet_next ?_
  grind [postOnce_kept, post_kept, bump_kept, setChain_kept, laterOnce_kept]

theorem execCompletionAdd_quiet (chain : Nat) (s : State) : Quiet s (execCompletionAdd chain s) := by
  unfold execCompletionAdd
  refine quiet_next ?_
  grind [setChain_kept, newId_kept, post_kept, nextRecord_kept, setTs_kept]

theorem execChainEnd_quiet (chain : Nat) (s : State) : Quiet s (execChainEnd chain s) := by
  unfold execChainEnd
  refine quiet_next ?_
  grind [modTroupe_kept, setChain_kept]

theorem execCbload_quiet (n : Fin 4) (d sa : SReg) (s : State) : Quiet s (execCbload n d sa s) := by
  refine onTroupe_quiet fun c => ?_
  grind [whenReady_kept, raiseSplit_kept, raise_kept, ask_kept, stall_kept, newId_kept, setFlight_kept, setBook_kept,
    later_kept, advance_kept]

theorem execSysrd_quiet (reg : BitVec 12) (d sa : SReg) (s : State) : Quiet s (execSysrd reg d sa s) := by
  refine onTroupe_quiet fun c => ?_
  grind [whenReady_kept, raise_kept, readRequest_kept]

theorem execSyswr_quiet (reg : BitVec 12) (d sa sb : SReg) (s : State) : Quiet s (execSyswr reg d sa sb s) := by
  refine onTroupe_quiet fun c => ?_
  grind [whenReady_kept, raise_kept, advance_kept, holdRequest_kept]

theorem execSystemRegisterWrite_quiet (slice unit reg : Nat) (val : W64) (req : Nat) (s : State) :
    Quiet s (execSystemRegisterWrite slice unit reg val req s) := by
  unfold execSystemRegisterWrite
  refine quiet_next ?_
  iterate 17
    refine kept_ite ?_ ?_
    · grind [reply_kept, countRefusal_kept, post_kept, writeReg_kept, mailboxWrite_kept, qcmdWrite_kept, calWrite_kept,
        snapWrite_kept, putReg_kept, baseWrite_kept, migWrite_kept]
  grind [reply_kept, putReg_kept, markSched_kept]

theorem execTlbinv_quiet (kind : TlbKind) (vf : Fin 32) (d sa sb sc : SReg) (s : State) :
    Quiet s (execTlbinv kind vf d sa sb sc s) := by
  refine onTroupe_quiet fun c => ?_
  grind [whenReady_kept, raise_kept, newReq_kept, setPkg_kept, at_kept, advance_kept]

theorem execTlbinvComplete_quiet (req : Nat) (s : State) : Quiet s (execTlbinvComplete req s) := by
  unfold execTlbinvComplete
  refine quiet_next ?_
  grind [later_kept, reply_kept]

theorem execRdcinv_quiet (kind : RdcKind) (d sa sb : SReg) (s : State) : Quiet s (execRdcinv kind d sa sb s) := by
  refine onTroupe_quiet fun c => ?_
  grind [whenReady_kept, raise_kept, dropCopies_kept, newReq_kept, at_kept, advance_kept]

theorem execRdcinvComplete_quiet (req : Nat) (s : State) : Quiet s (execRdcinvComplete req s) := by
  unfold execRdcinvComplete
  refine quiet_next ?_
  grind [reply_kept]

theorem execEcall_quiet (call : W16) (n : Fin 7) (d sa : SReg) (s : State) : Quiet s (execEcall call n d sa s) := by
  refine onTroupe_quiet fun c => ?_
  grind [whenReady_kept, raise_kept, holdRequest_kept, endClause_kept]

theorem execLaunch_quiet (d sa : SReg) (s : State) : Quiet s (execLaunch d sa s) := by
  refine onTroupe_quiet fun c => ?_
  grind [whenReady_kept, advance_kept, raise_kept, holdRequest_kept]

theorem execQstat_quiet (d sa : SReg) (what : QstatWhat) (s : State) : Quiet s (execQstat d sa what s) := by
  refine onTroupe_quiet fun c => ?_
  grind [whenReady_kept, ask_kept]

theorem execPortCtlWrite_quiet (h port : Nat) (val : W64) (s : State) : Quiet s (execPortCtlWrite h port val s) := by
  unfold execPortCtlWrite
  refine quiet_next ?_
  grind [later_kept, noteRefusal_kept, portCtl_kept]

theorem execPortCancelWrite_quiet (h port : Nat) (s : State) : Quiet s (execPortCancelWrite h port s) := by
  unfold execPortCancelWrite
  refine quiet_next ?_
  grind [portCancel_kept]

theorem execPortWaitEnd_quiet (h port : Nat) (s : State) : Quiet s (execPortWaitEnd h port s) := by
  unfold execPortWaitEnd
  refine quiet_next ?_
  grind [endPort_kept, setPort_kept, dropReports_kept]

theorem hartTlbFence_quiet (h : Nat) (i : Option Instr) (hyper tvm : Bool) (drops : Hart → TlbEntry → Bool) (s : State)
    : Quiet s (hartTlbFence h i hyper tvm drops s) := by
  refine onHart_quiet fun x => ?_
  grind [hartTrap_kept, setHart_kept]

theorem execSstcTimer_quiet (h : Nat) (virt : Bool) (s : State) : Quiet s (execSstcTimer h virt s) := by
  unfold execSstcTimer
  refine quiet_next ?_
  grind [setHart_kept]

theorem execCquotaWrite_quiet (slice core vf : Nat) (val : W64) (req : Nat) (s : State) :
    Quiet s (execCquotaWrite slice core vf val req s) := by
  unfold execCquotaWrite
  refine quiet_next ?_
  grind [writeReg_kept, latchQuota_kept, reply_kept]

theorem execUnitZero_quiet (core : Nat) (s : State) : Quiet s (execUnitZero core s) := by
  unfold execUnitZero
  refine quiet_next ?_
  grind [queueWalks_kept, reportEnded_kept, setCore_kept, tryRefills_kept, laterOnce_kept, foldl_kept]

theorem execBlockArrival_quiet (block : Nat) (s : State) : Quiet s (execBlockArrival block s) := by
  unfold execBlockArrival
  refine quiet_next ?_
  grind [clearWays_kept, setTroupe_kept, post_kept, modBlock_kept, foldl_kept]

theorem execResidentGangStart_quiet (ticket : Nat) (s : State) : Quiet s (execResidentGangStart ticket s) := by
  unfold execResidentGangStart
  refine quiet_next ?_
  grind [later_kept, modPart_kept, runBlock_kept, setTicket_kept, foldl_kept]

theorem execTroupeEnd_quiet (core slot : Nat) (s : State) : Quiet s (execTroupeEnd core slot s) := by
  unfold execTroupeEnd
  refine quiet_next ?_
  grind [later_kept, withdraw_kept, releaseTroupe_kept, rekey_kept, setFlight_kept, post_kept]

theorem execBlockEnd_quiet (block : Nat) (s : State) : Quiet s (execBlockEnd block s) := by
  unfold execBlockEnd
  refine quiet_next ?_
  grind [backPins_kept, post_kept, modBlock_kept, later_kept, removeBlock_kept, postOnce_kept, setCore_kept]

theorem execReclaim_quiet (block : Nat) (s : State) : Quiet s (execReclaim block s) := by
  unfold execReclaim
  refine quiet_next ?_
  grind [makeVictim_kept, foldl_kept]

theorem execRefill_quiet (block : Nat) (s : State) : Quiet s (execRefill block s) := by
  unfold execRefill
  refine quiet_next ?_
  grind [laterOnce_kept, post_kept, setBlock_kept, clearWays_kept, noteFrames_kept, refillBlock_kept]

theorem execBlockStart_quiet (block : Nat) (s : State) : Quiet s (execBlockStart block s) := by
  unfold execBlockStart
  refine quiet_next ?_
  grind [laterOnce_kept, noteFrames_kept, restoreBlock_kept, modBlock_kept, gangCheck_kept, runBlock_kept]

theorem execTroupeRestore_quiet (saved : Nat) (s : State) : Quiet s (execTroupeRestore saved s) := by
  unfold execTroupeRestore
  refine quiet_next ?_
  grind [restoreTroupe_kept, resumeHere_kept, withdrawResume_kept, tryAgain_kept, putSaved_kept, placeAgain_kept]

theorem execTicketReady_quiet (ticket : Nat) (s : State) : Quiet s (execTicketReady ticket s) := by
  unfold execTicketReady
  refine quiet_next ?_
  grind [joined_kept, endTicket_kept, tryAgain_kept, addWaiter_kept]

theorem execPlacement_quiet (slice : Nat) (s : State) : Quiet s (execPlacement slice s) := by
  unfold execPlacement
  refine quiet_next ?_
  grind [repeats_kept, keepShares_kept, setPart_kept, place_kept]

theorem execCalendarLoad_quiet (slice req : Nat) (s : State) : Quiet s (execCalendarLoad slice req s) := by
  unfold execCalendarLoad
  refine quiet_next ?_
  grind [reply_kept, setPart_kept]

theorem execCalendarSlotStart_quiet (s : State) : Quiet s (execCalendarSlotStart s) := by
  unfold execCalendarSlotStart
  refine quiet_next ?_
  grind [refill_kept, setPkg_kept, postOnce_kept, at_kept, foldl_kept]

theorem execRoundStart_quiet (part : Nat) (s : State) : Quiet s (execRoundStart part s) := by
  unfold execRoundStart
  refine quiet_next ?_
  grind [setPart_kept, foldl_kept]

theorem execCalendarPeriodStart_quiet (s : State) : Quiet s (execCalendarPeriodStart s) := by
  unfold execCalendarPeriodStart
  refine quiet_next ?_
  grind [at_kept, startPeriod_kept, foldl_kept]

theorem execSnapshotStart_quiet (slice : Nat) (val : W64) (req : Nat) (s : State) :
    Quiet s (execSnapshotStart slice val req s) := by
  unfold execSnapshotStart
  refine quiet_next ?_
  grind [reply_kept, setPart_kept, setPartReg_kept, post_kept, postOnce_kept, foldl_kept]

theorem execSnapshotAbort_quiet (slice req : Nat) (s : State) : Quiet s (execSnapshotAbort slice req s) := by
  unfold execSnapshotAbort
  refine quiet_next ?_
  grind [reply_kept, endSnapshot_kept]

theorem execSnapshotCut_quiet (part : Nat) (s : State) : Quiet s (execSnapshotCut part s) := by
  unfold execSnapshotCut
  refine quiet_next ?_
  grind [endSnapshot_kept, at_kept, setPart_kept, laterOnce_kept, post_kept, later_kept, placeAgain_kept]

theorem execMroute_quiet (nw : Fin 4) (d sa : SReg) (s : State) : Quiet s (execMroute nw d sa s) := by
  refine onTroupe_quiet fun c => ?_
  grind [whenReady_kept, stall_kept, askNi_kept]

theorem execMsend_quiet (nw : Fin 4) (gtd t eth : Bool) (vreg : Fin 192) (len : BitVec 13) (d sa sb : SReg) (s : State)
    : Quiet s (execMsend nw gtd t eth vreg len d sa sb s) := by
  refine onTroupe_quiet fun c => ?_
  grind [whenReady_kept, raise_kept, msend_kept]

theorem execMsendSp_quiet (nw : Fin 4) (gtd t eth : Bool) (len : BitVec 13) (d sa sb sc : SReg) (s : State) :
    Quiet s (execMsendSp nw gtd t eth len d sa sb sc s) := by
  refine onTroupe_quiet fun c => ?_
  grind [whenReady_kept, raise_kept, stall_kept, msend_kept]

theorem execMessageStatusReply_quiet (msg : Nat) (s : State) : Quiet s (execMessageStatusReply msg s) := by
  unfold execMessageStatusReply
  refine quiet_next ?_
  grind [delMsg_kept, modTroupe_kept, seqOf_kept, putSeq_kept, sendMsg_kept]

theorem execSequenceSkip_quiet (seq : Nat) (s : State) : Quiet s (execSequenceSkip seq s) := by
  unfold execSequenceSkip
  refine quiet_next ?_
  grind [later_kept, post_kept, putSeq_kept]

theorem execFlowReset_quiet (smod flow epoch : Nat) (s : State) : Quiet s (execFlowReset smod flow epoch s) := by
  unfold execFlowReset
  refine quiet_next ?_
  grind [out_kept, setFab_kept]

theorem execFlowAck_quiet (flow seq : Nat) (data : List Byte) (poison : Bool) (s : State) :
    Quiet s (execFlowAck flow seq data poison s) := by
  unfold execFlowAck
  refine quiet_next ?_
  grind [endLoad_kept, dropCopy_kept]

theorem execFlowResetAck_quiet (flow : Nat) (s : State) : Quiet s (execFlowResetAck flow s) := by
  unfold execFlowResetAck
  refine quiet_next ?_
  grind [setFlow_kept]

theorem execFlowResendTimeout_quiet (flow seq : Nat) (s : State) : Quiet s (execFlowResendTimeout flow seq s) := by
  unfold execFlowResendTimeout
  refine quiet_next ?_
  grind [endLoad_kept, dropCopy_kept, recordRoute_kept, at_kept, setFlow_kept, newPacket_kept, later_kept]

theorem execTransitCheck_quiet (slice : Nat) (words : List W64) (cur : Nat) (eth : Bool) (pkt : Nat) (s : State) :
    Quiet s (execTransitCheck slice words cur eth pkt s) := by
  unfold execTransitCheck
  refine quiet_next ?_
  grind [out_kept, newPacket_kept, later_kept]

theorem execPacketReturn_quiet (packet : Nat) (s : State) : Quiet s (execPacketReturn packet s) := by
  unfold execPacketReturn
  refine quiet_next ?_
  grind [delPacket_kept, answerMsg_kept, dropCopy_kept, out_kept, later_kept, setPacket_kept]

theorem execNirtLoad_quiet (slice : Nat) (val : W64) (req : Nat) (s : State) :
    Quiet s (execNirtLoad slice val req s) := by
  unfold execNirtLoad
  refine quiet_next ?_
  grind [reply_kept, recheck_kept, setFab_kept]

theorem execXptblLoad_quiet (slice : Nat) (val : W64) (req : Nat) (s : State) :
    Quiet s (execXptblLoad slice val req s) := by
  unfold execXptblLoad
  refine quiet_next ?_
  grind [reply_kept, modPart_kept]

theorem execPeerrtLoad_quiet (slice : Nat) (val : W64) (req : Nat) (s : State) :
    Quiet s (execPeerrtLoad slice val req s) := by
  unfold execPeerrtLoad
  refine quiet_next ?_
  grind [reply_kept, recheck_kept, setFab_kept]

theorem execLinkTransferFail_quiet (link : Nat) (again : Bool) (s : State) :
    Quiet s (execLinkTransferFail link again s) := by
  unfold execLinkTransferFail
  refine quiet_next ?_
  grind [setFab_kept]

theorem execVfcfgWrite_quiet (slice vf : Nat) (val : W64) (req : Nat) (s : State) :
    Quiet s (execVfcfgWrite slice vf val req s) := by
  unfold execVfcfgWrite
  refine quiet_next ?_
  grind [reply_kept, setVfcfg_kept]

theorem execVfResetComplete_quiet (part vf : Nat) (s : State) : Quiet s (execVfResetComplete part vf s) := by
  unfold execVfResetComplete
  refine quiet_next ?_
  grind [laterOnce_kept, setVfcfg_kept, addAfter_kept]

theorem execMigStart_quiet (slice chan : Nat) (val : W64) (req : Nat) (s : State) :
    Quiet s (execMigStart slice chan val req s) := by
  unfold execMigStart
  refine quiet_next ?_
  grind [reply_kept, setReg_kept, laterOnce_kept, setMig_kept]

theorem execMigEnd_quiet (slice chan req : Nat) (s : State) : Quiet s (execMigEnd slice chan req s) := by
  unfold execMigEnd
  refine quiet_next ?_
  grind [reply_kept, setMig_kept]

theorem execMigAbort_quiet (slice chan req : Nat) (s : State) : Quiet s (execMigAbort slice chan req s) := by
  unfold execMigAbort
  refine quiet_next ?_
  grind [reply_kept, setMig_kept]

theorem execSetband_quiet (part : Nat) (s : State) : Quiet s (execSetband part s) := by
  unfold execSetband
  refine quiet_next ?_
  grind [mailRefuse_kept, mailDone_kept, setPartReg_kept]

theorem execClrband_quiet (part : Nat) (s : State) : Quiet s (execClrband part s) := by
  unfold execClrband
  refine quiet_next ?_
  grind [mailRefuse_kept, mailDone_kept, setPartReg_kept]

theorem execPwrcapWrite_quiet (slice : Nat) (val : W64) (req : Nat) (s : State) :
    Quiet s (execPwrcapWrite slice val req s) := by
  unfold execPwrcapWrite
  refine quiet_next ?_
  grind [reply_kept, setPartReg_kept]

end Sys2Proof.Machine
end

section
/-! PROOFS. Every function and event that may write memory keeps its canonical form (R331). -/

namespace Sys2Proof.Machine

/-- Memory is in its canonical form (R331). -/
def Homes.memOk (h : Homes) : Prop := Memory.wf h.kept.1 = true

/-- An instruction that, where it goes on, keeps memory's canonical form. -/
def Sound (s : State) (o : Out) : Prop := s.homes.memOk → ∀ s', o = .next s' → s'.homes.memOk

theorem Quiet.sound {s : State} {o : Out} (h : Quiet s o) : Sound s o := by
  intro hs s' e
  unfold Homes.memOk
  rw [h s' e]
  exact hs

theorem Quiet.state {s : State} {o : Out} (h : Quiet s o) : (o.state s).homes.kept = s.homes.kept := by
  unfold Out.state
  split
  · exact h _ rfl
  · rfl

theorem sound_next {s u : State} (h : s.homes.memOk → u.homes.memOk) : Sound s (.next u) := by
  rintro hs s' ⟨⟩
  exact h hs

theorem onTroupe_sound {s : State} {f : Ctx → State} (h : ∀ c, s.homes.memOk → (f c).homes.memOk) :
    Sound s (onTroupe s f) := by
  unfold onTroupe
  split
  · exact sound_next (h _)
  · rintro - s' ⟨⟩

theorem onHart_sound {s : State} {h : Nat} {i : Option Instr} {f : Hart → State}
    (hf : ∀ x, s.homes.memOk → (f x).homes.memOk) : Sound s (onHart h i s f) := by
  unfold onHart
  grind [sound_next, Homes.memOk, retryHart_kept]

theorem foldl_memOk {A : Type} (f : State → A → State) (h : ∀ s a, s.homes.memOk → (f s a).homes.memOk) (xs : List A)
    (s : State) (hs : s.homes.memOk) : (xs.foldl f s).homes.memOk :=
  List.foldlRecOn xs f (motive := fun u => u.homes.memOk) hs fun u g a _ => h u a g

theorem Sound.state {s : State} {o : Out} (h : Sound s o) (hs : s.homes.memOk) : (o.state s).homes.memOk := by
  unfold Out.state
  split
  · exact h hs _ rfl
  · exact hs

theorem writeLine_memOk {h : Homes} (hw : h.memOk) (line astag : Nat) (bs : List (Nat × Byte)) (poison full : Bool) :
    (h.writeLine line astag bs poison full).memOk :=
  writeLine_wf hw line astag bs poison full

theorem copyLine_memOk {h : Homes} (hw : h.memOk) (a b : Nat) : (h.copyLine a b).memOk := copyLine_wf hw a b

theorem setHomes_memOk {s : State} {h : Homes} (hw : h.memOk) : (s.setHomes h).homes.memOk := hw

theorem memOk_of_kept {s u : State} (h : u.homes.kept = s.homes.kept) (hs : s.homes.memOk) : u.homes.memOk := by
  unfold Homes.memOk
  rw [h]
  exact hs

/-- Only memory decides whether it is in canonical form. -/
theorem memOk_of_mem {h k : Homes} (e : h.mem = k.mem) (hk : k.memOk) : h.memOk := by
  unfold Homes.memOk Homes.kept
  rw [e]
  exact hk

theorem whenReady_memOk {s k : State} (c : Ctx) (i : Instr) (m : LaneMask) (hs : s.homes.memOk) (hk : k.homes.memOk) :
    (s.whenReady c i m k).homes.memOk := by
  unfold State.whenReady
  grind [Homes.memOk, raise_kept, stall_kept]

theorem memOk_ite {p : Prop} [Decidable p] {u v : State} (hu : u.homes.memOk) (hv : v.homes.memOk) :
    (if p then u else v).homes.memOk := by
  split
  · exact hu
  · exact hv

theorem copyOnWrite_memOk (s : State) (line : Nat) (e : Nat × Partition) (hs : s.homes.memOk) :
    (s.copyOnWrite line e).homes.memOk := by
  unfold State.copyOnWrite
  split
  · split
    · exact memOk_of_kept (modPart_kept _ _ _) (copyLine_memOk hs _ _)
    · exact hs
  · exact hs

theorem beforeWrite_memOk (s : State) (line : Nat) (hs : s.homes.memOk) : (s.beforeWrite line).homes.memOk := by
  unfold State.beforeWrite
  have h1 := @copyOnWrite_memOk
  have h2 := @foldl_memOk
  grind [Homes.memOk, breakReservations_kept, setPkg_kept]

/-- What of the homes a write leaves once its bytes stand: they, and the writes that wait besides it. -/
theorem written_memOk {h : Homes} (hw : h.memOk) (line tag : Nat) (bs : List (Nat × Byte)) (poison full fails : Bool)
    (ws : List WaitingWrite) :
    ({ (if fails then h else h.writeLine line tag bs poison full) with waiting := ws } : Homes).memOk := by
  refine memOk_of_mem (k := if fails then h else h.writeLine line tag bs poison full) rfl ?_
  split
  · exact hw
  · exact writeLine_memOk hw _ _ _ _ _

/-- A pinned line that was written back, and stays as a copy where its block asked for that. -/
theorem writtenBack_kept (s : State) (line core x e : Nat) (keep : Bool) :
    let s1 := s.setHomes { s.homes with pins := sdel line s.homes.pins }
    (if keep = true then (s1.setHomes (s1.homes.record s1.tick line x)).l1Fill core line 1 (some e)
      else s1).homes.kept = s.homes.kept := by
  intro s1
  have h1 : s1.homes.kept = s.homes.kept := rfl
  split
  · exact (l1Fill_kept _ _ _ _ _).trans ((setHomes_kept _ _).trans ((record_kept _ _ _ _).trans h1))
  · exact h1

theorem performWrite_memOk (s : State) (id line : Nat) (hs : s.homes.memOk) :
    (s.performWrite id line).homes.memOk := by
  have start : ∀ b : Bool, (if b then s else s.beforeWrite line).homes.memOk := by
    intro b
    split
    · exact hs
    · exact beforeWrite_memOk s line hs
  unfold State.performWrite
  split
  · exact hs
  · split
    · exact hs
    · split
      · dsimp only
        have wrote := fun b tag bs poison full ws (u : State) =>
          setHomes_memOk (s := u) (written_memOk (start b) line tag bs poison full b ws)
        split
        · refine memOk_of_kept (fromHome_kept ..) (memOk_of_kept (takeGwct_kept ..) ?_)
          split
          · exact memOk_of_kept (writtenBack_kept ..) (memOk_of_kept (modPart?_kept ..) (wrote ..))
          · exact memOk_of_kept (modPart?_kept ..) (wrote ..)
        · refine memOk_of_kept (settleOp_kept ..) ?_
          split
          · exact memOk_of_kept (writtenBack_kept ..) (memOk_of_kept (modPart?_kept ..) (wrote ..))
          · exact memOk_of_kept (modPart?_kept ..) (wrote ..)
      · exact hs

theorem settle_memOk (s : State) (line : Nat) (hs : s.homes.memOk) : (s.settle line).homes.memOk := by
  unfold State.settle
  have h1 := @performWrite_memOk
  have h2 := @foldl_memOk
  grind [Homes.memOk]

theorem fixWrite_memOk (s : State) (id line : Nat) (o : MemOp) (hs : s.homes.memOk) :
    (s.fixWrite id line o).homes.memOk := by
  unfold State.fixWrite
  have h1 := @performWrite_memOk
  grind [Homes.kept, Homes.memOk, setHomes_kept, modPart?_kept, l2Write_kept, fromHome_kept, at_kept]

theorem admitWrite_memOk (s : State) (id line : Nat) (o : MemOp) (hs : s.homes.memOk) :
    (s.admitWrite id line o).homes.memOk := by
  unfold State.admitWrite
  have h1 := @fixWrite_memOk
  grind [Homes.kept, Homes.memOk, setHomes_kept, sendRecalls_kept]

theorem homeWrite_memOk (s : State) (op line : Nat) (hs : s.homes.memOk) : (s.homeWrite op line).homes.memOk := by
  unfold State.homeWrite
  have h1 := @performWrite_memOk
  have h2 := @admitWrite_memOk
  grind [Homes.memOk, at_kept, dropAccess_kept, fromHome_kept, later_kept, refuse_kept, writeBack_kept,
    performHere_kept]

theorem execHomeWrite_sound (op line : Nat) (s : State) : Sound s (execHomeWrite op line s) := by
  unfold execHomeWrite
  refine sound_next fun hs => ?_
  have h1 := @homeWrite_memOk
  grind [Homes.memOk]

theorem execHomeRead_sound (op line : Nat) (s0 : State) : Sound s0 (execHomeRead op line s0) := by
  unfold execHomeRead
  refine sound_next fun hs => memOk_of_kept (s := s0.settle line) ?_ (settle_memOk s0 line hs)
  dsimp only
  generalize s0.settle line = s
  split
  · rfl
  · split
    · rfl
    · iterate 5
        refine kept_ite ?_ ?_
        · grind [dropAccess_kept, fromHome_kept, later_kept, refuse_kept]
      grind [Homes.kept, setHomes_kept, refuse_kept, later_kept, fromHome_kept, performHere_kept, answerRead_kept,
        bump_kept, chanAsk_kept]

theorem execPinRegistration_sound (op line : Nat) (s0 : State) : Sound s0 (execPinRegistration op line s0) := by
  unfold execPinRegistration
  refine sound_next fun hs => memOk_of_kept (s := s0.settle line) ?_ (settle_memOk s0 line hs)
  dsimp only
  generalize s0.settle line = s
  split
  · rfl
  · split
    · rfl
    · iterate 5
        refine kept_ite ?_ ?_
        · grind [dropAccess_kept, fromHome_kept, later_kept, refuse_kept]
      split
      · exact refuse_kept ..
      · exact later_kept ..
      · exact fromHome_kept ..
      · exact (performHere_kept ..).trans (widenHolder_kept ..)
      · refine kept_ite (later_kept ..) ?_
        split
        · exact (performHere_kept ..).trans (registerPin_kept ..)
        · exact (later_kept ..).trans (registerPin_kept ..)

theorem serveCopy_memOk (s0 : State) (id line : Nat) (o : MemOp) (p : Part) (hs : s0.homes.memOk) :
    (s0.serveCopy id line o p).homes.memOk := by
  unfold State.serveCopy
  have h1 := @settle_memOk
  grind [Homes.kept, Homes.memOk, setCore_kept, setHomes_kept, later_kept, modPart?_kept, bump_kept]

theorem sendPart_memOk (s : State) (id line : Nat) (hs : s.homes.memOk) : (s.sendPart id line).homes.memOk := by
  unfold State.sendPart
  have h1 := @serveCopy_memOk
  grind [Homes.memOk, sendPeer_kept, later_kept, toHome_kept, sendWrite_kept]

theorem execRetry_sound (op line : Nat) (s : State) : Sound s (execRetry op line s) := by
  unfold execRetry
  refine sound_next fun hs => ?_
  have h1 := @sendPart_memOk
  grind [retranslateBack_kept, retranslate_kept, Homes.memOk]

theorem execRecallAck_sound (line : Nat) (s : State) : Sound s (execRecallAck line s) := by
  unfold execRecallAck
  refine sound_next fun hs => ?_
  split
  · refine memOk_ite hs (foldl_memOk _ (fun s e h => homeWrite_memOk s _ _ h) _ _ ?_)
    exact memOk_of_kept rfl hs
  · exact hs

theorem sendOrTake_memOk (s : State) (c : Ctx) (r : MemReq) (id : Nat) (p : Part) (hs : s.homes.memOk) :
    (s.sendOrTake c r id p).homes.memOk := by
  unfold State.sendOrTake
  have h1 := @sendPart_memOk
  grind [Homes.memOk, later_kept, modPart?_kept]

theorem acceptGlobal_memOk (s : State) (c : Ctx) (r : MemReq) (b : BufRec) (live : List (Nat × Nat))
    (dropped : List Nat) (pages : List (Nat × Except XFault XTo)) (writable : List Nat) (hs : s.homes.memOk) :
      (s.acceptGlobal c r b live dropped pages writable).homes.memOk := by
  unfold State.acceptGlobal
  have h1 := @sendOrTake_memOk
  have h2 := @foldl_memOk
  grind [Homes.memOk, advance_kept, newId_kept, setOp_kept]

theorem memChecked_memOk (s : State) (c : Ctx) (r : MemReq) (hs : s.homes.memOk) : (s.memChecked c r).homes.memOk := by
  unfold State.memChecked
  have h1 := @acceptGlobal_memOk
  have h2 := @foldl_memOk
  grind [Homes.memOk, stall_kept, raise_kept, xlatePages_kept, noteRefusal_kept, raiseLowest_kept, acceptScratch_kept]

theorem memOp_sound (s : State) (r : MemReq) : Sound s (memOp s r) :=
  onTroupe_sound fun c hs => memOk_ite (memOk_of_kept (advance_kept ..) hs)
    (whenReady_memOk _ _ _ hs (memChecked_memOk s c r hs))

theorem execLd_sound (d : Reg) (m : MAddr) (s : State) : Sound s (execLd d m s) := by
  exact memOp_sound _ _

theorem execLdc_sound (d : Reg) (m : MAddr) (s : State) : Sound s (execLdc d m s) := by
  exact memOp_sound _ _

theorem execSt_sound (g : Option Guard) (data : Src) (m : MAddr) (s : State) : Sound s (execSt g data m s) := by
  exact memOp_sound _ _

theorem execLdu_sound (d : Reg) (m : MAddr) (s : State) : Sound s (execLdu d m s) := by
  exact memOp_sound _ _

theorem execStu_sound (g : Option Guard) (data : Src) (m : MAddr) (s : State) : Sound s (execStu g data m s) := by
  exact memOp_sound _ _

theorem execAtom_sound (g : Option Guard) (op : AtomOp) (d : Src) (m : MAddr) (s : State) :
    Sound s (execAtom g op d m s) := by
  exact memOp_sound _ _

theorem execAtomcas_sound (g : Option Guard) (d : Src) (m : MAddr) (s : State) : Sound s (execAtomcas g d m s) := by
  exact memOp_sound _ _

theorem execRed_sound (g : Option Guard) (op : AtomOp) (data : Src) (m : MAddr) (s : State) :
    Sound s (execRed g op data m s) := by
  exact memOp_sound _ _

theorem prefetchLanes_memOk (s : State) (c : Ctx) (r : MemReq) (hs : s.homes.memOk) :
    (s.prefetchLanes c r).homes.memOk := by
  unfold State.prefetchLanes
  have h1 := @acceptGlobal_memOk
  have h2 := @foldl_memOk
  grind [Homes.memOk, advance_kept, stall_kept, xlatePages_kept, noteRefusal_kept]

theorem execPrefetch_sound (m : MAddr) (s : State) : Sound s (execPrefetch m s) := by
  refine onTroupe_sound fun c hs => ?_
  have h1 := @prefetchLanes_memOk
  grind [stall_kept, Homes.memOk]

theorem brecGlobal_memOk (s : State) (c : Ctx) (b : BReg) (a : Nat) (hs : s.homes.memOk) :
    (s.brecGlobal c b a).homes.memOk := by
  unfold State.brecGlobal
  have h1 := @sendPart_memOk
  have h2 := @foldl_memOk
  grind [Homes.memOk, setRecord_kept, delOp_kept, stall_kept, raise_kept, xlate_kept, noteRefusal_kept,
    raiseFault_kept, newId_kept, setOp_kept]

theorem execBrec_sound (sp : Bool) (b : BReg) (sa : SReg) (s : State) : Sound s (execBrec sp b sa s) := by
  refine onTroupe_sound fun c hs => whenReady_memOk _ _ _ hs (memOk_ite (memOk_of_kept (raise_kept ..) hs) ?_)
  exact memOk_ite (memOk_of_kept (brecScratch_kept ..) hs) (brecGlobal_memOk _ _ _ _ hs)

theorem tsPut_memOk (s : State) (loc : TsLoc) (tag : Nat) (v : W64) (bad : Bool) (hs : s.homes.memOk) :
    (s.tsPut loc tag v bad).homes.memOk := by
  unfold State.tsPut
  split
  · split
    · exact memOk_of_kept (setCore_kept ..) hs
    · exact hs
  · rename_i d
    have wrote := fun bs => writeLine_memOk (beforeWrite_memOk s (d / 64) hs) (d / 64) tag bs false false
    exact setHomes_memOk (memOk_of_mem (k := (s.beforeWrite (d / 64)).homes.writeLine ..) rfl (wrote _))
  · exact hs

theorem applyTs_memOk (s : State) (id : Nat) (o : TsOp) (hs : s.homes.memOk) : (s.applyTs id o).homes.memOk := by
  unfold State.applyTs
  have h1 := @tsPut_memOk
  grind [Homes.memOk, wake_kept, answerTs_kept, setTs_kept]

theorem execTurnstileOpArrival_sound (op : Nat) (s : State) : Sound s (execTurnstileOpArrival op s) := by
  unfold execTurnstileOpArrival
  refine sound_next fun hs => ?_
  have h1 := @applyTs_memOk
  grind [dropTs_kept, backTs_kept, setTs_kept, later_kept, chanReq_kept, tsTouch_kept, at_kept, answerTs_kept,
    Homes.memOk]

theorem execDeferredOpApply_sound (op : Nat) (s : State) : Sound s (execDeferredOpApply op s) := by
  unfold execDeferredOpApply
  refine sound_next fun hs => ?_
  have h1 := @applyTs_memOk
  grind [dropTs_kept, at_kept, later_kept, Homes.memOk]

theorem engineSend_memOk (s : State) (o : MemOp) (hs : s.homes.memOk) : (s.engineSend o).2.homes.memOk := by
  unfold State.engineSend
  have h1 := @sendPart_memOk
  have h2 := @foldl_memOk
  grind [Homes.memOk, newId_kept, setOp_kept]

theorem engineRead_memOk {s s1 : State} {id va n op : Nat} {x : Chain} (h : s.engineRead id x va n = .ok (op, s1))
    (hs : s.homes.memOk) : s1.homes.memOk := by
  unfold State.engineRead at h
  have h1 := @engineSend_memOk
  grind [Homes.memOk, xlate_kept]

theorem beginRecord_memOk (s : State) (id : Nat) (x : Chain) (hs : s.homes.memOk) :
    (s.beginRecord id x).homes.memOk := by
  unfold State.beginRecord
  have h1 := @engineSend_memOk
  grind [Homes.memOk, stopChain_kept, recordFails_kept, xlatePages_kept, tryAgain_kept, later_kept, setCore_kept,
    post_kept, setChain_kept]

theorem recordNamed_memOk (s : State) (id : Nat) (x : Chain) (hs : s.homes.memOk) :
    (s.recordNamed id x).homes.memOk := by
  unfold State.recordNamed
  dsimp only
  split
  · exact memOk_of_kept (tryAgain_kept ..) hs
  · refine memOk_ite (memOk_of_kept (emptyContribs_kept _ _ _ _ _ _ fun u h => ?_) hs) ?_
    · exact (recordFails_kept ..).trans h
    refine memOk_ite (memOk_of_kept ((post_kept ..).trans (setChain_kept ..)) hs) ?_
    refine memOk_ite (memOk_of_kept (recordFails_kept ..) hs) ?_
    split
    · exact memOk_of_kept (readFailed_kept _ _ _ _ fun _ => recordFails_kept ..) hs
    · rename_i h
      exact memOk_of_kept ((later_kept ..).trans (setChain_kept ..)) (engineRead_memOk h hs)

theorem execRecordRead_sound (chain : Nat) (s : State) : Sound s (execRecordRead chain s) := by
  unfold execRecordRead
  refine sound_next fun hs => ?_
  split
  · exact hs
  · split
    · refine memOk_ite (memOk_of_kept (later_kept ..) hs) (memOk_ite (memOk_of_kept (stopChain_kept ..) hs) ?_)
      split
      · exact memOk_of_kept (readFailed_kept _ _ _ _ fun _ => (stopChain_kept ..).trans (countCause_kept ..)) hs
      · rename_i h
        exact memOk_of_kept ((later_kept ..).trans (setChain_kept ..)) (engineRead_memOk h hs)
    · split
      · rename_i h
        exact memOk_of_kept ((recordIn_kept ..).trans (takeRead_kept h)) hs
      · exact memOk_of_kept (later_kept ..) hs
    · exact recordNamed_memOk _ _ _ hs
    · split
      · rename_i h
        exact memOk_of_kept ((predicateIn_kept ..).trans (takeRead_kept h)) hs
      · exact memOk_of_kept (later_kept ..) hs
    · exact beginRecord_memOk _ _ _ hs
    · exact hs

theorem writePieces_memOk (s1 : State) (id : Nat) (x : Chain) (r : XRec) (b : Block)
    (pages : List (Nat × Except XFault XTo)) (ps : List Piece) (hs : s1.homes.memOk) :
      (s1.writePieces id x r b pages ps).homes.memOk := by
  unfold State.writePieces
  have h1 := @engineSend_memOk
  have h2 := @foldl_memOk
  grind [Homes.memOk, setCore_kept, contribute_kept, modChain_kept]

theorem moveChunk_memOk (s : State) (id : Nat) (x : Chain) (r : XRec) (b : Block) (op : Option Nat) (next : Nat)
    (es : List (Nat × Nat × Bool)) (hs : s.homes.memOk) : (s.moveChunk id x r b op next es).homes.memOk := by
  unfold State.moveChunk
  have h1 := @writePieces_memOk
  grind [Homes.memOk, xlatePages_kept, tryAgain_kept, endMove_kept, later_kept, setChain_kept]

theorem moveOn_memOk (s : State) (id : Nat) (x : Chain) (r : XRec) (op : Option Nat) (next : Nat) (hs : s.homes.memOk)
    : (s.moveOn id x r op next).homes.memOk := by
  unfold State.moveOn
  have h1 := @moveChunk_memOk
  grind [Homes.memOk, stopChain_kept, emptyContribs_kept, endMove_kept]

theorem storeStatus_memOk (s : State) (id : Nat) (x : Chain) (hs : s.homes.memOk) :
    (s.storeStatus id x).homes.memOk := by
  unfold State.storeStatus
  have h1 := @engineSend_memOk
  grind [Homes.memOk, post_kept, setChain_kept, xlate_kept, readFailed_kept, later_kept]

theorem execRecordMoveEnd_sound (chain : Nat) (s : State) : Sound s (execRecordMoveEnd chain s) := by
  unfold execRecordMoveEnd
  refine sound_next fun hs => ?_
  have h1 := @moveOn_memOk
  have h2 := @storeStatus_memOk
  grind [later_kept, freeEntries_kept, nextRecord_kept, post_kept, setChain_kept, Homes.memOk]

theorem applyContrib_memOk (s : State) (id : Nat) (c : Contrib) (hs : s.homes.memOk) :
    (s.applyContrib id c).homes.memOk := by
  unfold State.applyContrib
  have h1 := @admitWrite_memOk
  grind [Homes.memOk, setFlight_kept, newId_kept, setChain_kept, setOp_kept]

theorem applyHeld_memOk (s : State) (line n : Nat) (hs : s.homes.memOk) : (s.applyHeld line n).homes.memOk := by
  induction n generalizing s with
  | zero => exact hs
  | succ n ih =>
    unfold State.applyHeld
    dsimp only
    split
    · split
      · exact ih _ (memOk_of_kept (setOrdering_kept ..) (applyContrib_memOk _ _ _ hs))
      · exact hs
    · exact hs

theorem takeContrib_memOk (s : State) (id : Nat) (c : Contrib) (hs : s.homes.memOk) :
    (s.takeContrib id c).homes.memOk := by
  unfold State.takeContrib
  have h1 := @applyContrib_memOk
  have h2 := @applyHeld_memOk
  grind [Homes.memOk, setOrdering_kept, contribAgain_kept, at_kept, setFlight_kept]

theorem execReduceContribution_sound (contrib : Nat) (s : State) : Sound s (execReduceContribution contrib s) := by
  unfold execReduceContribution
  refine sound_next fun hs => ?_
  have h1 := @takeContrib_memOk
  grind [setFlight_kept, countRefusal_kept, contribAgain_kept, redirectContrib_kept, noteRefusal_kept, Homes.memOk]

theorem applyAll_memOk (s : State) (line n : Nat) (hs : s.homes.memOk) : (s.applyAll line n).homes.memOk := by
  induction n generalizing s with
  | zero => exact hs
  | succ n ih =>
    unfold State.applyAll
    dsimp only
    split
    · exact ih _ (memOk_of_kept (setOrdering_kept ..) (applyContrib_memOk _ _ _ hs))
    · exact hs

theorem execHeldContributionTimeout_sound (line : Nat) (s : State) : Sound s (execHeldContributionTimeout line s) := by
  unfold execHeldContributionTimeout
  refine sound_next fun hs => ?_
  have h1 := @applyAll_memOk
  grind [later_kept, setOrdering_kept, Homes.memOk]

theorem execCbloadEnd_sound (load : Nat) (s : State) : Sound s (execCbloadEnd load s) := by
  unfold execCbloadEnd
  refine sound_next fun hs => ?_
  have h1 := @engineSend_memOk
  have h2 := @foldl_memOk
  grind [later_kept, xlatePages_kept, tryAgain_kept, endBook_kept, setFlight_kept, takeRead_kept, Homes.memOk]

theorem hartOp_memOk (s : State) (h : Nat) (rg : Regime) (k : MemKind) (w : Width) (dst : Option SReg)
    (lease line va tag : Nat) (accs : List LaneAcc) (hs : s.homes.memOk) : (s.hartOp h rg k w dst lease line va tag
      accs).2.homes.memOk := by
  unfold State.hartOp
  have h1 := @sendPart_memOk
  grind [Homes.memOk, newId_kept, setOp_kept]

theorem drainLine_memOk (s : State) (h line : Nat) (hs : s.homes.memOk) : (s.drainLine h line).homes.memOk := by
  unfold State.drainLine
  have h1 := @hartOp_memOk
  grind [Homes.memOk, setHart_kept]

theorem drainAll_memOk (s : State) (h : Nat) (hs : s.homes.memOk) : (s.drainAll h).homes.memOk := by
  unfold State.drainAll
  have h1 := @drainLine_memOk
  have h2 := @foldl_memOk
  grind [Homes.memOk]

theorem execHartStoreDrain_sound (h line : Nat) (s : State) : Sound s (execHartStoreDrain h line s) := by
  unfold execHartStoreDrain
  refine sound_next fun hs => ?_
  have h1 := @drainLine_memOk
  grind [later_kept, Homes.memOk]

theorem bufferStore_memOk (s : State) (h : Nat) (rg : Regime) (line va tag : Nat) (bs : List (Nat × Byte))
    (hs : s.homes.memOk) : (s.bufferStore h rg line va tag bs).homes.memOk := by
  unfold State.bufferStore
  have h1 := @drainLine_memOk
  have h2 := @foldl_memOk
  grind [Homes.memOk, later_kept, setHart_kept]

theorem hartStoreTo_memOk (h : Nat) (i : Option Instr) (rg : Regime) (n va v : Nat) (s : State) (dest : HTo)
    (hs : s.homes.memOk) : (hartStoreTo h i rg n va v s dest).homes.memOk := by
  unfold hartStoreTo
  have h1 := @bufferStore_memOk
  grind [Homes.memOk, hartTrap_kept, hartNext_kept, retryHart_kept, noteRefusal_kept, portWrite_kept, post_kept]

theorem hartStoreAt_memOk (s : State) (h : Nat) (i : Option Instr) (n va v : Nat) (hs : s.homes.memOk) :
    (s.hartStoreAt h i n va v).homes.memOk := by
  unfold State.hartStoreAt
  have h1 := @hartStoreTo_memOk
  grind [Homes.memOk, hartXlate_kept, hartFault_kept]

theorem execHartStore_sound (h : Nat) (w : Width) (rs1 rs2 : Fin 32) (off : BitVec 12) (s : State) :
    Sound s (execHartStore h w rs1 rs2 off s) := by
  refine onHart_sound fun x hs => ?_
  have h1 := @hartStoreAt_memOk
  grind [hartTrap_kept, Homes.memOk]

theorem hartLoad_memOk (s : State) (h : Nat) (rg : Regime) (k : HLoad) (va line tag addr : Nat) (hs : s.homes.memOk) :
    (s.hartLoad h rg k va line tag addr).homes.memOk := by
  unfold State.hartLoad
  have h1 := @drainLine_memOk
  have h2 := @hartOp_memOk
  grind [Homes.memOk, hartAwait_kept]

theorem hartLoadTo_memOk (s : State) (h : Nat) (rg : Regime) (k : HLoad) (va : Nat) (dest : HTo) (hs : s.homes.memOk) :
    (s.hartLoadTo h rg k va dest).homes.memOk := by
  unfold State.hartLoadTo
  have h1 := @hartLoad_memOk
  grind [Homes.memOk, hartTrap_kept, hartTsIn_kept, setHart_kept]

theorem hartLoadAt_memOk (s : State) (h : Nat) (i : Option Instr) (k : HLoad) (va : Nat) (hs : s.homes.memOk) :
    (s.hartLoadAt h i k va).homes.memOk := by
  unfold State.hartLoadAt
  have h1 := @hartLoadTo_memOk
  grind [Homes.memOk, hartXlate_kept, hartFault_kept]

theorem execHartCounterLoad_sound (h : Nat) (rd rs1 : Fin 32) (off : BitVec 12) (s : State) :
    Sound s (execHartCounterLoad h rd rs1 off s) := by
  refine onHart_sound fun x hs => ?_
  have h1 := @hartLoadAt_memOk
  grind [Homes.memOk]

theorem hartAmoOp_sound (h : Nat) (i : Option Instr) (op : AtomOp) (w64 : Bool) (rd rs1 rs2 : Fin 32) (s : State) :
    Sound s (hartAmoOp h i op w64 rd rs1 rs2 s) := by
  refine onHart_sound fun x hs => ?_
  have h1 := @drainLine_memOk
  have h2 := @hartOp_memOk
  grind [hartTrap_kept, hartTs_kept, hartAwait_kept, hartXlate_kept, hartFault_kept, Homes.memOk]

theorem execHartAmoaddD_sound (h : Nat) (rd rs1 rs2 : Fin 32) (s : State) :
    Sound s (execHartAmoaddD h rd rs1 rs2 s) := by
  exact hartAmoOp_sound _ _ _ _ _ _ _ _

theorem execHartAmomaxuD_sound (h : Nat) (rd rs1 rs2 : Fin 32) (s : State) :
    Sound s (execHartAmomaxuD h rd rs1 rs2 s) := by
  exact hartAmoOp_sound _ _ _ _ _ _ _ _

theorem execHartAmo_sound (h : Nat) (op : AtomOp) (w64 : Bool) (rd rs1 rs2 : Fin 32) (s : State) :
    Sound s (execHartAmo h op w64 rd rs1 rs2 s) := by
  exact hartAmoOp_sound _ _ _ _ _ _ _ _

theorem hartReserve_sound (h : Nat) (i : Option Instr) (k : MemKind) (acc : HAcc) (w64 : Bool) (rd rs1 : Fin 32)
    (v : Hart → W64) (s : State) : Sound s (hartReserve h i k acc w64 rd rs1 v s) := by
  refine onHart_sound fun x hs => ?_
  have h1 := @drainLine_memOk
  have h2 := @hartOp_memOk
  grind [hartXlate_kept, hartFault_kept, hartTrap_kept, hartAwait_kept, Homes.memOk]

theorem execHartLr_sound (h : Nat) (w64 : Bool) (rd rs1 : Fin 32) (s : State) :
    Sound s (execHartLr h w64 rd rs1 s) := by
  exact hartReserve_sound _ _ _ _ _ _ _ _ _

theorem execHartSc_sound (h : Nat) (w64 : Bool) (rd rs1 rs2 : Fin 32) (s : State) :
    Sound s (execHartSc h w64 rd rs1 rs2 s) := by
  exact hartReserve_sound _ _ _ _ _ _ _ _ _

theorem hartFenceThen_sound (h : Nat) (i : Option Instr) (f : Hart → Hart) (s : State) :
    Sound s (hartFenceThen h i f s) := by
  refine onHart_sound fun x hs => ?_
  have h1 := @drainAll_memOk
  grind [setHart_kept, retryHart_kept, Homes.memOk]

theorem execHartFence_sound (h : Nat) (s : State) : Sound s (execHartFence h s) := by
  exact hartFenceThen_sound _ _ _ _

theorem execHartFenceI_sound (h : Nat) (s : State) : Sound s (execHartFenceI h s) := by
  exact hartFenceThen_sound _ _ _ _

theorem hartBlockOp_sound (h : Nat) (i : Option Instr) (rs1 : Fin 32) (inval drop : Bool) (s : State) :
    Sound s (hartBlockOp h i rs1 inval drop s) := by
  refine onHart_sound fun x hs => ?_
  have h1 := @drainLine_memOk
  grind [hartTrap_kept, hartXlate_kept, hartFault_kept, retryHart_kept, setHart_kept, Homes.memOk]

theorem execCboClean_sound (h : Nat) (rs1 : Fin 32) (s : State) : Sound s (execCboClean h rs1 s) := by
  exact hartBlockOp_sound _ _ _ _ _ _

theorem execCboFlush_sound (h : Nat) (rs1 : Fin 32) (s : State) : Sound s (execCboFlush h rs1 s) := by
  exact hartBlockOp_sound _ _ _ _ _ _

theorem execCboInval_sound (h : Nat) (rs1 : Fin 32) (s : State) : Sound s (execCboInval h rs1 s) := by
  exact hartBlockOp_sound _ _ _ _ _ _

theorem frameStore_memOk {s s1 : State} {core : Nat} {rg : Regime} {ws : FrameWords} {ops : List Nat}
    (h : s.frameStore core rg ws = some (ops, s1)) (hs : s.homes.memOk) : s1.homes.memOk := by
  unfold State.frameStore at h
  have h1 := @engineSend_memOk
  grind [Homes.memOk, xlatePages_kept]

theorem spillBlock_memOk (s : State) (bid : Nat) (b : Block) (r : Reclaim) (hs : s.homes.memOk) :
    (s.spillBlock bid b r).homes.memOk := by
  have frames := blockFrames_kept s bid b (s.askOf b)
  unfold State.spillBlock
  split
  · rename_i h
    rw [h] at frames
    exact memOk_of_kept ((faultBlock_kept ..).trans frames) hs
  · rename_i b1 s1 h
    rw [h] at frames
    have h1 : s1.homes.memOk := memOk_of_kept frames hs
    refine memOk_ite (memOk_of_kept (tryAgain_kept ..) h1) ?_
    dsimp only
    split
    · exact memOk_of_kept (faultBlock_kept ..) h1
    · rename_i stored
      have h2 := frameStore_memOk stored (memOk_of_kept (unitsWords_kept ..) h1)
      grind [Homes.memOk, postOnce_kept, post_kept, setCore_kept, setBlock_kept, giveUp_kept, foldl_kept]

theorem execSpill_sound (block : Nat) (s : State) : Sound s (execSpill block s) := by
  unfold execSpill
  refine sound_next fun hs => ?_
  have h1 := @spillBlock_memOk
  grind [haltTroupes_kept, laterOnce_kept, Homes.memOk]

theorem saveBlock_memOk {s s' : State} {bid : Nat} {b : Block} (h : s.saveBlock bid b = some s') (hs : s.homes.memOk) :
    s'.homes.memOk := by
  have frames := blockFrames_kept s bid b (s.askOf b)
  unfold State.saveBlock at h
  split at h
  · cases h
  · rename_i b1 s1 framed
    rw [framed] at frames
    have h1 : s1.homes.memOk := memOk_of_kept frames hs
    dsimp only at h
    split at h
    · cases h
      exact memOk_of_kept (tryAgain_kept ..) h1
    · split at h
      · cases h
        exact memOk_of_kept (faultBlock_kept ..) h1
      · rename_i stored
        have h2 := frameStore_memOk stored (memOk_of_kept (unitsWords_kept ..) h1)
        cases h
        grind [Homes.memOk, placeAgain_kept, fixReclaims_kept, release?_kept, setBlock_kept, setPkg_kept,
          foldl_kept, withdraw_kept, park_kept, setTroupe_kept]

theorem stopped_saved_memOk {s : State} (hs : s.homes.memOk) (block : Nat) :
    (if (!s.savable block) = true then s.laterOnce (.wholeBlockSave block)
      else match s.block? block with
        | some b1 => (s.saveBlock block b1).getD s
        | none => s).homes.memOk := by
  refine memOk_ite (memOk_of_kept (laterOnce_kept ..) hs) ?_
  split
  · rename_i b1 _
    cases h : s.saveBlock block b1 with
    | none => exact hs
    | some s' => exact saveBlock_memOk h hs
  · exact hs

theorem execWholeBlockSave_sound (block : Nat) (s : State) : Sound s (execWholeBlockSave block s) := by
  unfold execWholeBlockSave
  refine sound_next fun hs => ?_
  split
  · exact hs
  · refine memOk_ite hs ?_
    dsimp only
    refine stopped_saved_memOk (memOk_of_kept (stopBlock_kept ..) (memOk_ite ?_ hs)) _
    exact memOk_of_kept (foldl_kept _ (fun (s : State) (e : Nat × Block) => (postOnce_kept ..).trans
      (stopBlock_kept s e.1 e.2)) _ _) hs

theorem startSave_memOk (s : State) (num : Nat) (t : Troupe) (b : Block) (r : BitVec 256) (toVf : Bool)
    (hs : s.homes.memOk) : (s.startSave num t b r toVf).homes.memOk := by
  have framed := saveFrame_kept s b t
  unfold State.startSave
  split
  · rename_i h
    rw [h] at framed
    exact memOk_of_kept ((saveInPlace_kept ..).trans framed) hs
  · rename_i h
    rw [h] at framed
    refine memOk_ite (memOk_of_kept (tryAgain_kept ..) hs) ?_
    split
    · exact memOk_of_kept ((saveInPlace_kept ..).trans framed) hs
    · rename_i stored
      have h2 := frameStore_memOk stored (memOk_of_kept ((controlWords_kept ..).trans framed) hs)
      exact memOk_of_kept ((later_kept ..).trans ((putSaved_kept ..).trans (newId_kept _))) h2

theorem execContextSave_sound (core slot : Nat) (s : State) : Sound s (execContextSave core slot s) := by
  unfold execContextSave
  refine sound_next fun hs => ?_
  split
  · exact hs
  · split
    · split
      · exact hs
      · have h1 := @startSave_memOk
        grind [Homes.memOk, later_kept, endSave_kept]
    · exact hs

theorem agentStore_memOk (s : State) (slice : Nat) (rg : Regime) (va : Option Nat) (dpa tag : Nat) (ws : List W64)
    (hs : s.homes.memOk) : (s.agentStore slice rg va dpa tag ws).2.homes.memOk := by
  unfold State.agentStore
  have h1 := @engineSend_memOk
  grind [Homes.memOk]

theorem ringStore_memOk (s : State) (slice part : Nat) (to_ : Nat × Option TsName) (ws : List W64) (hs : s.homes.memOk)
    : (s.ringStore slice part to_ ws).2.homes.memOk := by
  unfold State.ringStore
  have h1 := @agentStore_memOk
  grind [Homes.memOk]

theorem writeEntry_memOk (s : State) (e : RingEntry) (v : RingView) (hs : s.homes.memOk) :
    (s.writeEntry e v).homes.memOk := by
  unfold State.writeEntry
  have h1 := @ringStore_memOk
  grind [Homes.memOk, setPkg_kept, addAfter_kept, addWaiter_kept, putSaved_kept, reGrant_kept, modTroupe_kept,
    reply_kept]

theorem execRingEntryDelivery_sound (slice : Nat) (s : State) : Sound s (execRingEntryDelivery slice s) := by
  unfold execRingEntryDelivery
  refine sound_next fun hs => ?_
  have h1 := @writeEntry_memOk
  have h2 := @foldl_memOk
  grind [noteRefusal_kept, setPkg_kept, Homes.memOk]

theorem writeEntryWord_memOk (s : State) (part q d : Nat) (v : W64) (hs : s.homes.memOk) :
    (s.writeEntryWord part q d v).homes.memOk := by
  unfold State.writeEntryWord
  have h1 := @agentStore_memOk
  grind [Homes.memOk]

theorem writeState_memOk (s : State) (part q : Nat) (x : Queue) (hs : s.homes.memOk) :
    (s.writeState part q x).homes.memOk := by
  unfold State.writeState
  have h1 := @writeEntryWord_memOk
  grind [Homes.memOk, setQueue_kept]

theorem execQcmdEnable_sound (slice : Nat) (val : W64) (req : Nat) (s0 : State) :
    Sound s0 (execQcmdEnable slice val req s0) := by
  unfold execQcmdEnable
  refine sound_next fun hs => ?_
  have h1 := @writeState_memOk
  grind [reply_kept, tryAgain_kept, qcmdOver_kept, post_kept, Homes.memOk]

theorem queueError_memOk (s : State) (part q : Nat) (x : Queue) (reason p : Nat) (hs : s.homes.memOk) :
    (s.queueError part q x reason p).homes.memOk := by
  unfold State.queueError
  have h1 := @writeState_memOk
  grind [Homes.memOk, unlist_kept, queueRing_kept]

theorem read128_memOk (s0 : State) (slice : Nat) (rg : Regime) (va : Nat) (hs : s0.homes.memOk) :
    (s0.read128 slice rg va).2.homes.memOk := by
  unfold State.read128
  have h1 := @settle_memOk
  grind [Homes.memOk, xlate_kept, grant_kept, walked_kept]

theorem execTicketFetch_sound (part queue : Nat) (s : State) : Sound s (execTicketFetch part queue s) := by
  unfold execTicketFetch
  refine sound_next fun hs => ?_
  split
  · exact hs
  · dsimp only
    refine memOk_ite hs (memOk_ite ?_ ?_)
    · have h1 := @queueError_memOk
      grind [Homes.memOk, tryAgain_kept, addWaiter_kept]
    · split
      · exact hs
      · refine memOk_ite (queueError_memOk _ _ _ _ _ _ hs) (memOk_ite (queueError_memOk _ _ _ _ _ _ hs)
          (memOk_ite hs (memOk_ite (queueError_memOk _ _ _ _ _ _ hs) ?_)))
        have read := fun sl rg a => read128_memOk s sl rg a hs
        have h1 := @queueError_memOk
        have h2 := @writeEntryWord_memOk
        grind [Homes.memOk, tryAgain_kept, post_kept, newTicket_kept, setQueue_kept, unlist_kept]

theorem finish_memOk (s : State) (id : Nat) (t : Ticket) (hs : s.homes.memOk) : (s.finish id t).homes.memOk := by
  unfold State.finish
  have h1 := @agentStore_memOk
  have h2 := @foldl_memOk
  grind [Homes.memOk, xlate_kept, addAfter_kept, setPkg_kept, modPart_kept, kickQueues_kept, postOnce_kept]

theorem execTicketComplete_sound (ticket : Nat) (s : State) : Sound s (execTicketComplete ticket s) := by
  unfold execTicketComplete
  refine sound_next fun hs => ?_
  have h1 := @finish_memOk
  grind [tryAgain_kept, Homes.memOk]

theorem execQcmdDisable_sound (slice : Nat) (val : W64) (req : Nat) (s0 : State) :
    Sound s0 (execQcmdDisable slice val req s0) := by
  unfold execQcmdDisable
  refine sound_next fun hs => ?_
  have h1 := @writeState_memOk
  have h2 := @foldl_memOk
  grind [reply_kept, qcmdOver_kept, tryAgain_kept, unlist_kept, endTicket_kept, Homes.memOk]

theorem launch_memOk (s : State) (req addr : Nat) (hs : s.homes.memOk) : (s.launch req addr).homes.memOk := by
  unfold State.launch
  have h1 := @read128_memOk
  grind [Homes.memOk, tryAgain_kept, setReq_kept, newTicket_kept, reply_kept]

theorem pushStores_memOk (s : State) (o : Owner) (hs : s.homes.memOk) : (s.pushStores o).homes.memOk := by
  unfold State.pushStores
  have h1 := @drainAll_memOk
  grind [Homes.memOk]

theorem stepTs_memOk (s : State) (id : Nat) (o : TsOp) (hs : s.homes.memOk) : (s.stepTs id o).homes.memOk := by
  unfold State.stepTs
  have h1 := @pushStores_memOk
  grind [Homes.memOk, releaseOf_kept, post_kept, setTs_kept, later_kept, at_kept, sendTs_kept]

theorem runRequest_memOk (s : State) (id : Nat) (r : Request) (hs : s.homes.memOk) :
    (s.runRequest id r).homes.memOk := by
  unfold State.runRequest
  generalize r.work = w
  cases w with
  | none => exact hs
  | some w =>
    cases w with
    | sysWrite => exact memOk_of_kept ((at_kept ..).trans (setReq_kept ..)) hs
    | launch =>
      exact memOk_ite (memOk_of_kept (at_kept ..) hs) (launch_memOk _ _ _ (memOk_of_kept (setReq_kept ..) hs))
    | ecall => exact memOk_of_kept (kept_ite (at_kept ..) ((queueRing_kept ..).trans (setReq_kept ..))) hs
    | sysRead =>
      exact memOk_of_kept (kept_ite (post_kept ..) (kept_ite ((reply_kept ..).trans ((setReq_kept ..).trans
        (countRefusal_kept ..))) (reply_kept ..))) hs
    | cpstat | pinq | qstat | unpin | answer => exact memOk_of_kept (reply_kept ..) hs
    | niAnswer => exact memOk_of_kept ((modTroupe_kept ..).trans (reply_kept ..)) hs
    | niEnd | mxEnd => exact memOk_of_kept ((modTroupe_kept ..).trans (delReq_kept ..)) hs
    | tlbinv | rdcinv | pin => exact hs

theorem stepReq_memOk (s : State) (id : Nat) (r : Request) (hs : s.homes.memOk) : (s.stepReq id r).homes.memOk := by
  unfold State.stepReq
  have h1 := @runRequest_memOk
  grind [Homes.memOk, releaseOf_kept, post_kept, setReq_kept, later_kept]

theorem execHeldReleaseSend_sound (op : Nat) (s : State) : Sound s (execHeldReleaseSend op s) := by
  unfold execHeldReleaseSend
  refine sound_next fun hs => ?_
  have h1 := @stepTs_memOk
  have h2 := @stepReq_memOk
  grind [Homes.memOk]

theorem copyMarked_memOk (s : State) (part : Nat) (from_ dest : Option Nat) (hs : s.homes.memOk) :
    (s.copyMarked part from_ dest).homes.memOk := by
  unfold State.copyMarked
  split
  · split
    · exact memOk_ite hs (memOk_of_kept (setPart_kept ..) (copyLine_memOk hs _ _))
    · exact hs
  · exact hs

/-- Stated of the state itself, which keeps the kernel from computing where a line lies. -/
theorem copyMarked_memoryOk {s : State} (part : Nat) (from_ dest : Option Nat) (hs : s.memoryOk) :
    (s.copyMarked part from_ dest).memoryOk := copyMarked_memOk s part from_ dest hs

theorem snapLine_memoryOk {s : State} (part : Nat) (a b : Band) (o : Nat) (hs : s.memoryOk) :
    (s.snapLine part a b o).memoryOk := by
  rw [snapLine_eq]
  exact copyMarked_memoryOk _ _ _ hs

theorem linesCopied_memOk (s : State) (part : Nat) (hs : s.homes.memOk) : (s.linesCopied part).homes.memOk := by
  unfold State.linesCopied
  split
  · rename_i a b _ _
    exact List.foldlRecOn _ _ (motive := State.memoryOk) hs fun u h o _ => snapLine_memoryOk (s := u) part a b o h
  · exact hs

theorem execSnapshotComplete_sound (part : Nat) (s : State) : Sound s (execSnapshotComplete part s) := by
  unfold execSnapshotComplete
  refine sound_next fun hs => ?_
  split
  · exact hs
  · refine memOk_ite hs ?_
    have ended := fun v : W64 => memOk_of_kept ((endSnapshot_kept _ part snapDone).trans
      (setPartReg_kept (s.linesCopied part) part 0xC9 v)) (linesCopied_memOk s part hs)
    dsimp only
    split
    · exact memOk_of_kept (addAfter_kept ..) (ended _)
    · exact ended _

theorem writeMsg_memOk (s : State) (slice part : Nat) (m : Message) (at_ : RingAt) (owner tail : Nat)
    (hs : s.homes.memOk) : (s.writeMsg slice part m at_ owner tail).homes.memOk := by
  unfold State.writeMsg
  have h1 := @engineSend_memOk
  grind [Homes.memOk, addAfter_kept, setCore_kept]

theorem deliverMsg_memOk (s : State) (id slice : Nat) (m : Message) (hs : s.homes.memOk) :
    (s.deliverMsg id slice m).2.homes.memOk := by
  unfold State.deliverMsg
  have h1 := @writeMsg_memOk
  have h2 := @foldl_memOk
  grind [Homes.memOk, answerMsg_kept, noteRefusal_kept]

theorem execMessageDelivery_sound (packet : Nat) (s : State) : Sound s (execMessageDelivery packet s) := by
  unfold execMessageDelivery
  refine sound_next fun hs => ?_
  split
  · exact hs
  · split
    · split
      · exact memOk_of_kept (delPacket_kept ..) hs
      · rename_i m _
        have h1 : (s.seqOf m.core m.module m.dstSlice m.ring).2.2.homes.memOk := memOk_of_kept (seqOf_kept ..) hs
        refine memOk_ite hs ?_
        dsimp only
        refine memOk_ite (memOk_of_kept ((answerMsg_kept ..).trans (delPacket_kept ..)) h1) (memOk_ite (memOk_ite h1
          (memOk_of_kept ((at_kept ..).trans (putSeq_kept ..)) h1)) ?_)
        have h2 := fun id slice m => deliverMsg_memOk _ id slice m h1
        grind [Homes.memOk, later_kept, post_kept, putSeq_kept, delPacket_kept]
    · exact hs

theorem performPeer_memOk (s : State) (m : PeerMsg) (part : Nat) (e : Export) (hs : s.homes.memOk) :
    (s.performPeer m part e).homes.memOk := by
  unfold State.performPeer
  dsimp only
  split
  · exact memOk_ite (memOk_of_kept (refusePeer_kept ..) hs) (engineSend_memOk _ _
      (memOk_of_kept ((setFab_kept ..).trans (newId_kept s)) hs))
  · refine memOk_of_kept (s := s) ?_ hs
    split
    · exact refusePeer_kept ..
    · exact (sendTs_kept ..).trans
        ((setTs_kept ..).trans ((newId_kept _).trans ((setFab_kept ..).trans (newId_kept s))))
  · exact hs

theorem admitPeer_memOk (s : State) (m : PeerMsg) (hs : s.homes.memOk) : (s.admitPeer m).homes.memOk := by
  unfold State.admitPeer
  have h1 := @performPeer_memOk
  grind [Homes.memOk, refusePeer_kept, peerMessage_kept]

theorem peerRequest_memOk (s : State) (m : PeerMsg) (hs : s.homes.memOk) : (s.peerRequest m).homes.memOk := by
  unfold State.peerRequest
  have h1 := @admitPeer_memOk
  grind [Homes.memOk, reAck_kept, putRx_kept]

theorem execPeerRequest_sound (m : PeerMsg) (s : State) : Sound s (execPeerRequest m s) := by
  unfold execPeerRequest
  refine sound_next fun hs => ?_
  have h1 := @peerRequest_memOk
  grind [Homes.memOk]

theorem execEthFrameReceive_sound (f : EthFrame) (s : State) : Sound s (execEthFrameReceive f s) := by
  unfold execEthFrameReceive
  refine sound_next fun hs => ?_
  have h1 := @peerRequest_memOk
  grind [seqOf_kept, newId_kept, newPacket_kept, setMsg_kept, post_kept, putSeq_kept, Homes.memOk]

theorem arriveLeaf_memOk (s : State) (id : Nat) (p : Packet) (leaf : Nat) (hs : s.homes.memOk) :
    (s.arriveLeaf id p leaf).homes.memOk := by
  unfold State.arriveLeaf
  have h1 := @peerRequest_memOk
  grind [Homes.memOk, setPacket_kept, delPacket_kept]

theorem forward_memOk (s : State) (id : Nat) (p : Packet) (hs : s.homes.memOk) : (s.forward id p).homes.memOk := by
  unfold State.forward
  have h1 := @arriveLeaf_memOk
  grind [Homes.memOk, exitBy_kept, later_kept, turnRound_kept, takeHop_kept]

theorem execSwitchForward_sound (packet : Nat) (s : State) : Sound s (execSwitchForward packet s) := by
  unfold execSwitchForward
  refine sound_next fun hs => ?_
  have h1 := @forward_memOk
  grind [goBack_kept, injectPeer_kept, gtdInject_kept, enterNet_kept, demote_kept, Homes.memOk]

theorem grcWrite_memOk (s : State) (part dpa : Nat) (ws : List W64) (hs : s.homes.memOk) :
    (s.grcWrite part dpa ws).2.homes.memOk := by
  unfold State.grcWrite
  have h1 := @engineSend_memOk
  grind [Homes.memOk]

theorem tmapGo_memOk (s : State) (part : Nat) (hs : s.homes.memOk) : (s.tmapGo part).homes.memOk := by
  unfold State.tmapGo
  have h1 := @grcWrite_memOk
  grind [Homes.memOk, laterOnce_kept, addAfter_kept, setPart_kept]

theorem tmapAdvance_memOk (s : State) (part : Nat) (hs : s.homes.memOk) : (s.tmapAdvance part).homes.memOk := by
  unfold State.tmapAdvance
  have h1 := @tmapGo_memOk
  grind [Homes.memOk, modPart_kept]

theorem execNiMaskRefresh_sound (part : Nat) (s : State) : Sound s (execNiMaskRefresh part s) := by
  unfold execNiMaskRefresh
  refine sound_next fun hs => ?_
  have h1 := @tmapGo_memOk
  grind [laterOnce_kept, recheck_kept, setPart_kept, Homes.memOk]

theorem setLink_memOk (s : State) (x : Nat) (b : Byte) (hs : s.homes.memOk) : (s.setLink x b).homes.memOk := by
  unfold State.setLink
  have h1 := @tmapAdvance_memOk
  have h2 := @foldl_memOk
  grind [Homes.memOk, setFab_kept]

theorem execLinkLaneTest_sound (link : Nat) (lowerGood upperGood : Bool) (s : State) :
    Sound s (execLinkLaneTest link lowerGood upperGood s) := by
  unfold execLinkLaneTest
  refine sound_next fun hs => ?_
  have h1 := @setLink_memOk
  grind [setFab_kept, Homes.memOk]

theorem execLinkTraining_sound (slice link : Nat) (peer : Option PeerLink) (s : State) :
    Sound s (execLinkTraining slice link peer s) := by
  unfold execLinkTraining
  refine sound_next fun hs => ?_
  have h1 := @tmapAdvance_memOk
  have h2 := @setLink_memOk
  have h3 := @foldl_memOk
  grind [setFab_kept, Homes.memOk]

theorem execPeerStopsAnswering_sound (slice link : Nat) (s : State) :
    Sound s (execPeerStopsAnswering slice link s) := by
  unfold execPeerStopsAnswering
  refine sound_next fun hs => ?_
  have h1 := @setLink_memOk
  grind [Homes.memOk]

theorem writeRecord_memOk (s : State) (part slice : Nat) (r : BitVec 256) (hs : s.homes.memOk) :
    (s.writeRecord part slice r).homes.memOk := by
  unfold State.writeRecord
  have h1 := @agentStore_memOk
  grind [Homes.memOk, addAfter_kept, setReg_kept]

theorem reportError_memOk (s : State) (slice unit index : Nat) (t : UnitTest) (test : Nat) (hs : s.homes.memOk) :
    (s.reportError slice unit index t test).homes.memOk := by
  unfold State.reportError
  have h1 := @writeRecord_memOk
  grind [Homes.memOk, setPlat_kept]

theorem homeReads_memOk (s : State) (part vf : Nat) (lines : List (Nat × Bool)) (hs : s.homes.memOk) :
    (s.homeReads part vf lines).homes.memOk := by
  unfold State.homeReads
  have h1 := @reportError_memOk
  have h2 := @foldl_memOk
  grind [Homes.kept, Homes.memOk, bump_kept, setHomes_kept, chanAsk_kept]

theorem retireSlice_memOk (s : State) (slice : Nat) (hs : s.homes.memOk) : (s.retireSlice slice).homes.memOk := by
  unfold State.retireSlice
  have h1 := @tmapAdvance_memOk
  grind [Homes.memOk, loseSlice_kept, noteRetired_kept]

theorem execSliceLoss_sound (slice : Nat) (s : State) : Sound s (execSliceLoss slice s) := by
  unfold execSliceLoss
  refine sound_next fun hs => ?_
  have h1 := @retireSlice_memOk
  grind [Homes.memOk]

theorem retire_memOk (s : State) (slice : Nat) (r : Retired) (line : Option Nat) (hs : s.homes.memOk) :
    (s.retire slice r line).homes.memOk := by
  unfold State.retire
  have h1 := @retireSlice_memOk
  have h2 := @setLink_memOk
  grind [Homes.kept, Homes.memOk, setHomes_kept, showRetired_kept, noteRetired_kept, retireCore_kept, stopHart_kept]

theorem startTest_memOk (s : State) (slice unit index : Nat) (line vf : Option Nat) (corrected : Bool)
    (hs : s.homes.memOk) : (s.startTest slice unit index line vf corrected).homes.memOk := by
  unfold State.startTest
  have h1 := @reportError_memOk
  grind [Homes.kept, Homes.memOk, setHomes_kept]

theorem execUnitSelfTest_sound (slice : Nat) (unit : UnitCode) (index : Nat) (lasting : Bool) (retired : Retired)
    (s : State) : Sound s (execUnitSelfTest slice unit index lasting retired s) := by
  unfold execUnitSelfTest
  refine sound_next fun hs => ?_
  dsimp only
  split
  · refine memOk_ite (retire_memOk _ _ _ _ (reportError_memOk _ _ _ _ _ _ hs)) hs
  · have h1 : ∀ x : Sparse UnitTest, (s.setHomes { s.homes with testing := x }).homes.memOk := fun x =>
      memOk_of_kept rfl hs
    refine memOk_ite (retire_memOk _ _ _ _ (reportError_memOk _ _ _ _ _ _ (h1 _))) ?_
    exact reportError_memOk _ _ _ _ _ _ (h1 _)

theorem execCorrectableError_sound (slice : Nat) (unit : UnitCode) (index : Nat) (s : State) :
    Sound s (execCorrectableError slice unit index s) := by
  unfold execCorrectableError
  refine sound_next fun hs => ?_
  have h1 := @startTest_memOk
  grind [setPlat_kept, Homes.memOk]

theorem execUncorrectableError_sound (at_ : ErrorAt) (vf : Option Nat) (s : State) :
    Sound s (execUncorrectableError at_ vf s) := by
  unfold execUncorrectableError
  refine sound_next fun hs => ?_
  have h1 := @startTest_memOk
  grind [errorAt_kept, Homes.memOk]

theorem rvMemory_memOk (s : State) (h w : Nat) (hs : s.homes.memOk) : (s.rvMemory h w).homes.memOk := by
  have il : (s.illegal h).homes.memOk := memOk_of_kept (illegal_kept ..) hs
  have stop : Sound s (.next (s.illegal h)) := sound_next fun _ => il
  unfold State.rvMemory
  dsimp only
  split
  · split
    · exact hartLoadAt_memOk _ _ _ _ _ hs
    · exact il
  · refine memOk_ite il ?_
    split
    · exact hartLoadAt_memOk _ _ _ _ _ hs
    · exact il
  · exact memOk_ite il (hartStoreAt_memOk _ _ _ _ _ _ hs)
  · exact memOk_ite il (hartStoreAt_memOk _ _ _ _ _ _ hs)
  · refine Sound.state ?_ hs
    have h1 := @hartReserve_sound
    have h2 := @hartAmoOp_sound
    grind
  · refine Sound.state ?_ hs
    have h1 := @hartFenceThen_sound
    have h2 := @hartBlockOp_sound
    grind

theorem rvGuest_memOk (s : State) (h w : Nat) (hs : s.homes.memOk) : (s.rvGuest h w).homes.memOk := by
  unfold State.rvGuest
  have h1 := @hartStoreTo_memOk
  have h2 := @hartLoadTo_memOk
  grind [Homes.memOk, hartXlateIn_kept, hartFault_kept, setHart_kept, hartTrap_kept, illegal_kept]

theorem rvSystem_memOk (s : State) (h w : Nat) (hs : s.homes.memOk) : (s.rvSystem h w).homes.memOk := by
  have fence : ∀ d m o, ((hartTlbFence h none d m o s).state s).homes.kept = s.homes.kept :=
    fun d m o => (hartTlbFence_quiet h none d m o s).state
  unfold State.rvSystem
  refine memOk_ite (rvGuest_memOk _ _ _ hs) (memOk_of_kept (s := s) ?_ hs)
  refine kept_ite (csrOp_kept ..) (kept_ite (illegal_kept ..) ?_)
  grind [illegal_kept, hartTrap_kept, setHart_kept]

theorem rvExec_memOk (s : State) (h w : Nat) (hs : s.homes.memOk) : (s.rvExec h w).homes.memOk := by
  unfold State.rvExec
  have h1 := @rvMemory_memOk
  have h2 := @rvSystem_memOk
  grind [Homes.memOk, setHart_kept, illegal_kept]

theorem hartStep_memOk (s : State) (h : Nat) (hs : s.homes.memOk) : (s.hartStep h).homes.memOk := by
  unfold State.hartStep
  have h1 := @rvExec_memOk
  grind [Homes.memOk, hartFault_kept, parcel_kept, setHart_kept, illegal_kept]

theorem hartRun_memOk (s : State) (h : Nat) (hs : s.homes.memOk) : (s.hartRun h).homes.memOk := by
  unfold State.hartRun
  have h1 := @hartStep_memOk
  grind [Homes.memOk, later_kept, setHart_kept]

theorem dropVf_memOk (s : State) (part vf : Nat) (hs : s.homes.memOk) : (s.dropVf part vf).homes.memOk := by
  unfold State.dropVf
  have h1 := @writeState_memOk
  have h2 := @foldl_memOk
  grind [Homes.memOk, unlist_kept, discardBlock_kept, setPkg_kept, setFlight_kept, modPart_kept, dropMsg_kept]

theorem execVfReset_sound (slice vf : Nat) (val : W64) (req : Nat) (s : State) :
    Sound s (execVfReset slice vf val req s) := by
  unfold execVfReset
  refine sound_next fun hs => ?_
  have h1 := @dropVf_memOk
  grind [reply_kept, setPartReg_kept, setVfcfg_kept, later_kept, dropAbroad_kept, resetFlows_kept, endVfWaits_kept,
    dropVfTlb_kept, Homes.memOk]

theorem migLine_memOk (s : State) (m : Migration) (line : Nat) (hs : s.homes.memOk) :
    (s.migLine m line).homes.memOk :=
  setHomes_memOk (copyLine_memOk (beforeWrite_memOk s _ hs) _ _)

theorem execMigrationPass_sound (slice chan : Nat) (s : State) : Sound s (execMigrationPass slice chan s) := by
  unfold execMigrationPass
  refine sound_next fun hs => ?_
  have h1 := @migLine_memOk
  have h2 := @foldl_memOk
  grind [post_kept, setMig_kept, later_kept, handOver_kept, addAfter_kept, Homes.memOk]

theorem clearSlice_memOk (s : State) (slice : Nat) (hs : s.homes.memOk) : (s.clearSlice slice).homes.memOk := by
  have cleared : ((s.endWaiting slice).setHomes (s.homes.clearSlice slice)).homes.memOk :=
    setHomes_memOk (clearSlice_wf hs slice)
  have left := (clearTables_kept _ slice).trans ((clearHarts_kept _ slice).trans
    (clearRegs_kept ((s.endWaiting slice).setHomes (s.homes.clearSlice slice)) slice))
  exact memOk_of_kept (s := (s.endWaiting slice).setHomes (s.homes.clearSlice slice)) left cleared

theorem joinSlice_memOk (s : State) (part sl : Nat) (hs : s.homes.memOk) : (s.joinSlice part sl).homes.memOk := by
  unfold State.joinSlice
  have h1 := @clearSlice_memOk
  have h2 := @tmapAdvance_memOk
  have h3 := @grcWrite_memOk
  grind [Homes.memOk, shareRegs_kept, defaultRoutes_kept, modPart_kept, later_kept, mailRefuse_kept]

theorem execAddslice_sound (part : Nat) (s : State) : Sound s (execAddslice part s) := by
  unfold execAddslice
  refine sound_next fun hs => ?_
  have h1 := @joinSlice_memOk
  grind [mailRefuse_kept, mailDone_kept, startHarts_kept, later_kept, Homes.memOk]

theorem execRemslice_sound (part : Nat) (s : State) : Sound s (execRemslice part s) := by
  unfold execRemslice
  refine sound_next fun hs => ?_
  have h1 := @tmapAdvance_memOk
  have h2 := @clearSlice_memOk
  grind [modPart_kept, mailDone_kept, mailRefuse_kept, Homes.memOk]

theorem execAttest_sound (part : Nat) (s : State) : Sound s (execAttest part s) := by
  unfold execAttest
  refine sound_next fun hs => ?_
  have h1 := @grcWrite_memOk
  grind [mailRefuse_kept, mailDone_kept, Homes.memOk]

theorem bootWrite_memOk (s : State) (part ppa : Nat) (bs : List Byte) (hs : s.homes.memOk) :
    (s.bootWrite part ppa bs).homes.memOk := by
  refine foldl_memOk _ (fun s e h => ?_) _ _ hs
  split
  · exact setHomes_memOk (writeLine_memOk h _ _ _ _ _)
  · exact h

theorem buildPart_memOk (s : State) (m : Manifest) (e : PartEntry) (hs : s.homes.memOk) :
    (s.buildPart m e).homes.memOk := by
  unfold State.buildPart
  have h1 := @bootWrite_memOk
  have h2 := @foldl_memOk
  grind [Homes.memOk, setPart_kept, setPartReg_kept, setBands_kept, defaultRoutes_kept]

theorem bootPart_memOk (s : State) (e : PartEntry) (hs : s.homes.memOk) : (s.bootPart e).homes.memOk := by
  unfold State.bootPart
  have h1 := @bootWrite_memOk
  have h2 := @foldl_memOk
  grind [Homes.memOk, modPart_kept, startHarts_kept, setPlat_kept]

theorem build_memOk (s : State) (m : Manifest) (hs : s.homes.memOk) : (s.build m).homes.memOk := by
  unfold State.build
  have h1 := @buildPart_memOk
  have h2 := @bootPart_memOk
  have h3 := @foldl_memOk
  grind [Homes.memOk, at_kept]

theorem execManifestReceive_sound (m : Manifest) (s : State) : Sound s (execManifestReceive m s) := by
  unfold execManifestReceive
  refine sound_next fun hs => ?_
  have h1 := @build_memOk
  grind [setPlat_kept, Homes.memOk]

theorem bootBuild_memOk (s : State) (hs : s.homes.memOk) : s.bootBuild.homes.memOk := by
  unfold State.bootBuild
  have h1 := @build_memOk
  grind [Homes.memOk]

end Sys2Proof.Machine
end

section
/-! PROOFS. Every step keeps the canonical form of memory (R331). -/

namespace Sys2Proof.Machine

theorem unpowered_memOk (s : State) : s.unpowered.homes.memOk := Memory.wf_nil

theorem trip_memOk (s : State) (slice sensor : Nat) : (s.trip slice sensor).homes.memOk := Memory.wf_nil

theorem powerLoss_sound (s : State) : Sound s (execPowerLoss s) := sound_next fun _ => unpowered_memOk s

theorem powerOn_sound (s : State) : Sound s (execPowerOn s) := by
  have start (hs : s.homes.memOk) : (if s.plat.power then s else s.unpowered).homes.memOk :=
    memOk_ite hs (unpowered_memOk s)
  unfold execPowerOn
  refine sound_next fun hs => memOk_ite hs ?_
  dsimp only
  generalize (if s.plat.power then s else s.unpowered) = s0 at start ⊢
  split
  · exact memOk_of_kept (setPlat_kept ..) (start hs)
  · exact memOk_of_kept ((later_kept ..).trans ((showAll_kept _).trans (setPlat_kept ..))) (start hs)

theorem thermalTrip_sound (slice sensor : Nat) (s : State) : Sound s (execThermalTrip slice sensor s) :=
  sound_next fun hs => memOk_ite (trip_memOk ..) hs

theorem monitorUpdate_sound (slice : Nat) (temps : List Nat) (vcore vmem pcode : Nat) (s : State) :
    Sound s (execMonitorUpdate slice temps vcore vmem pcode s) := by
  unfold execMonitorUpdate
  refine sound_next fun hs => memOk_ite hs ?_
  dsimp only
  refine memOk_ite (trip_memOk ..) (memOk_of_kept (s := s) ?_ hs)
  grind [setReg_kept, setPlat_kept, raiseSource_kept]

/-- The instructions and events that may write memory, or bring its reset. -/
def mayWrite : Instr → Bool
  | .brec .. | .ld .. | .ldc .. | .st .. | .ldu .. | .stu .. | .atom .. | .atomcas .. | .red .. | .prefetch ..
  | .hartFence .. | .hartFenceI .. | .cboClean .. | .cboFlush .. | .cboInval .. | .hartCounterLoad ..
  | .hartAmoaddD .. | .hartAmomaxuD .. | .hartLr .. | .hartSc .. | .hartAmo .. | .pinRegistration ..
  | .retry .. | .spill .. | .turnstileOpArrival .. | .deferredOpApply .. | .heldReleaseSend .. | .recordRead ..
  | .recordMoveEnd .. | .cbloadEnd .. | .reduceContribution .. | .heldContributionTimeout .. | .homeWrite ..
  | .homeRead .. | .recallAck .. | .hartStoreDrain .. | .uncorrectableError .. | .unitSelfTest ..
  | .contextSave .. | .ringEntryDelivery .. | .vfReset .. | .migrationPass .. | .addslice .. | .remslice ..
  | .attest .. | .qcmdEnable .. | .qcmdDisable .. | .ticketFetch .. | .ticketComplete .. | .wholeBlockSave ..
  | .snapshotComplete .. | .sliceLoss .. | .powerOn .. | .manifestReceive .. | .powerLoss .. | .thermalTrip ..
  | .monitorUpdate .. | .switchForward .. | .messageDelivery .. | .linkLaneTest .. | .niMaskRefresh ..
  | .peerRequest .. | .ethFrameReceive .. | .linkTraining .. | .correctableError .. | .peerStopsAnswering ..
  | .hartStore .. => true
  | _ => false

/-- Every other instruction leaves memory and its waiting writes as they were. -/
theorem exec_quiet {i : Instr} (s : State) (h : mayWrite i = false) : Quiet s (exec i s) := by
  cases i with
  | iadd | isub | imul | imad | imadI | imuls | imin | imax | iclamp | iabs | ineg | iadds | isubs | idp4
  | idp2 | isad | iscadd | lmux | shl | shr | sra | rot | fsh | popc | clz | ctz | brev | bfe | bfi | bperm
  | sext | imsk | icmp | icmpI | mov | movi | cvti | ipack | iunpack | fadd | faddI | fsub | fmul | fmulI
  | ffma | ffmaI | fmin | fmax | fclamp | fcmp | fcmpI | fsqrt | fdiv | fsilu | ffrc | frnd | fldexp | fmant
  | fexpo | dadd | dmul | dfma | dcmp | ddiv | dsqrt | hadd2 | hmul2 | hfma2 | hmin2 | hmax2 | hcmp2 | fdot2
  | cvtf | cvtfi | cvtif | cvt8Encode | cvt8Decode | cvtmxEncode | cvtmxDecode | cvt4Pack | cvt4Deq =>
    exact laneOp_quiet _ _ _ _
  | iaddI | imulI => exact immOp_quiet _ _ _ _
  | idiv | irem => exact divOp_quiet _ _ _ _ _ _
  | iaddc | isubb => exact carryOp_quiet _ _ _ _ _ _ _
  | and => exact execAnd_quiet _ _ _
  | andI | orI | xorI => exact logicImm_quiet _ _ _ _
  | or => exact execOr_quiet _ _ _
  | xor => exact execXor_quiet _ _ _
  | andn => exact execAndn_quiet _ _ _
  | shlI | shrI | sraI => exact shiftImm_quiet _ _ _ _
  | iset => exact execIset_quiet _ _ _ _ _
  | isetI => exact execIsetI_quiet _ _ _ _ _ _
  | sel => exact execSel_quiet _ _ _ _ _ _
  | plop => exact execPlop_quiet _ _ _ _ _
  | pmovToReg => exact execPmovToReg_quiet _ _
  | pmovToPred => exact execPmovToPred_quiet _ _ _
  | movhi => exact execMovhi_quiet _ _ _
  | rdlane => exact execRdlane_quiet _ _ _ _
  | wrlane => exact execWrlane_quiet _ _ _ _
  | fset => exact execFset_quiet _ _ _ _ _
  | frcp | frsq | fex2 | flg2 | fsin | fcos | ftanh | fsigm => exact approxOp_quiet _ _ _ _
  | bra => exact execBra_quiet _ _ _
  | brx => exact execBrx_quiet _ _ _
  | call => exact execCall_quiet _ _
  | callx => exact execCallx_quiet _ _
  | ret => exact execRet_quiet _ _
  | exit => exact execExit_quiet _
  | trap => exact execTrap_quiet _ _
  | tret => exact execTret_quiet _
  | bkpt => exact execBkpt_quiet _ _
  | yield => exact execYield_quiet _
  | nop => exact execNop_quiet _
  | sleep => exact execSleep_quiet _ _
  | shfl => exact execShfl_quiet _ _ _ _ _
  | vote => exact execVote_quiet _ _ _ _ _
  | matchLanes => exact execMatchLanes_quiet _ _ _
  | redux => exact execRedux_quiet _ _ _ _
  | fredux => exact execFredux_quiet _ _ _ _ _ _ _ _
  | scan => exact execScan_quiet _ _ _ _ _
  | movsRead => exact execMovsRead_quiet _ _ _
  | movsWrite => exact execMovsWrite_quiet _ _
  | amask => exact execAmask_quiet _ _ _
  | brmk => exact execBrmk_quiet _ _ _
  | brset => exact execBrset_quiet _ _ _ _
  | ldx | stx | atomx => exact clusterOp_quiet _ _
  | cwb => exact execCwb_quiet _ _
  | cinv => exact execCinv_quiet _ _
  | icinv => exact execIcinv_quiet _ _
  | fetchbar => exact execFetchbar_quiet _
  | pin => exact execPin_quiet _ _ _ _
  | unpin => exact execUnpin_quiet _ _ _ _
  | pinq => exact execPinq_quiet _ _ _
  | mmaE4m3 => exact execMmaE4m3_quiet _ _
  | mmaE5m2 => exact execMmaE5m2_quiet _ _
  | mmaBf16 => exact execMmaBf16_quiet _ _
  | mmaF16 => exact execMmaF16_quiet _ _
  | mmaF32 => exact execMmaF32_quiet _ _
  | mmaI8 => exact execMmaI8_quiet _ _ _ _
  | mmaI4 => exact execMmaI4_quiet _ _ _ _
  | mmaMxf6 => exact execMmaMxf6_quiet _ _ _ _ _ _
  | mmaMxf4 => exact execMmaMxf4_quiet _ _ _ _
  | mmaq => exact execMmaq_quiet _ _ _ _ _
  | mmaspE4m3 => exact execMmaspE4m3_quiet _ _ _
  | mmaspBf16 => exact execMmaspBf16_quiet _ _ _
  | sclaim => exact execSclaim_quiet _ _ _
  | srel => exact execSrel_quiet _ _
  | sfill => exact execSfill_quiet _ _ _ _ _
  | sdrain => exact execSdrain_quiet _ _ _ _ _
  | sxpose => exact execSxpose_quiet _ _ _ _ _
  | mmacvt => exact execMmacvt_quiet _ _ _ _ _ _ _ _ _ _
  | copy => exact execCopy_quiet _ _ _
  | cbload => exact execCbload_quiet _ _ _ _
  | cpstat => exact execCpstat_quiet _ _ _
  | cpabort => exact execCpabort_quiet _ _
  | tadd => exact execTadd_quiet _ _ _
  | tfetch => exact execTfetch_quiet _ _ _ _
  | tmax => exact execTmax_quiet _ _ _
  | tread => exact execTread_quiet _ _ _
  | treset => exact execTreset_quiet _ _ _ _
  | wait => exact execWait_quiet _ _ _ _ _ _
  | waitout => exact execWaitout_quiet _ _
  | fence => exact execFence_quiet _ _
  | launch => exact execLaunch_quiet _ _ _
  | qstat => exact execQstat_quiet _ _ _ _
  | msend => exact execMsend_quiet _ _ _ _ _ _ _ _ _ _
  | msendSp => exact execMsendSp_quiet _ _ _ _ _ _ _ _ _ _
  | mroute => exact execMroute_quiet _ _ _ _
  | ecall => exact execEcall_quiet _ _ _ _ _
  | sysrd => exact execSysrd_quiet _ _ _ _
  | syswr => exact execSyswr_quiet _ _ _ _ _
  | tlbinv => exact execTlbinv_quiet _ _ _ _ _ _ _
  | rdcinv => exact execRdcinv_quiet _ _ _ _ _
  | hartSfenceVma | hartHfenceVvma | hartHfenceGvma => exact hartTlbFence_quiet _ _ _ _ _ _
  | clauseIssue => exact execClauseIssue_quiet _ _ _
  | pipeGrant => exact execPipeGrant_quiet _ _
  | stallRelease => exact execStallRelease_quiet _ _ _
  | loadDataReturn => exact execLoadDataReturn_quiet _ _ _
  | gwctReceive => exact execGwctReceive_quiet _ _ _
  | troupeEnd => exact execTroupeEnd_quiet _ _ _
  | sleepWake => exact execSleepWake_quiet _ _ _
  | blockArrival => exact execBlockArrival_quiet _ _
  | unitZero => exact execUnitZero_quiet _ _
  | blockStart => exact execBlockStart_quiet _ _
  | blockEnd => exact execBlockEnd_quiet _ _
  | pinnedForcedWriteback => exact execPinnedForcedWriteback_quiet _ _ _
  | reclaim => exact execReclaim_quiet _ _
  | refill => exact execRefill_quiet _ _
  | cquotaWrite => exact execCquotaWrite_quiet _ _ _ _ _ _
  | turnstilePoll => exact execTurnstilePoll_quiet _ _
  | matrixPeriodStart => exact execMatrixPeriodStart_quiet _ _
  | matrixWriteback => exact execMatrixWriteback_quiet _ _
  | slotPortStart => exact execSlotPortStart_quiet _ _
  | wakeReceive => exact execWakeReceive_quiet _ _
  | waitTimeout => exact execWaitTimeout_quiet _ _ _
  | fenceComplete => exact execFenceComplete_quiet _ _ _
  | waitoutComplete => exact execWaitoutComplete_quiet _ _ _
  | chainStart => exact execChainStart_quiet _ _
  | completionAdd => exact execCompletionAdd_quiet _ _
  | chainEnd => exact execChainEnd_quiet _ _
  | xbarRequest => exact execXbarRequest_quiet _ _
  | xbarSpillRetry => exact execXbarSpillRetry_quiet _ _
  | redirectedAccess => exact execRedirectedAccess_quiet _ _ _
  | residentGangStart => exact execResidentGangStart_quiet _ _
  | channelTransfer => exact execChannelTransfer_quiet _ _ _
  | l2pinqWrite => exact execL2pinqWrite_quiet _ _ _ _ _
  | sltokWrite => exact execSltokWrite_quiet _ _ _ _ _
  | portCtlWrite => exact execPortCtlWrite_quiet _ _ _ _
  | portCancelWrite => exact execPortCancelWrite_quiet _ _ _
  | portWaitEnd => exact execPortWaitEnd_quiet _ _ _
  | troupeRestore => exact execTroupeRestore_quiet _ _
  | vfcfgWrite => exact execVfcfgWrite_quiet _ _ _ _ _
  | vfResetComplete => exact execVfResetComplete_quiet _ _ _
  | migStart => exact execMigStart_quiet _ _ _ _ _
  | migEnd => exact execMigEnd_quiet _ _ _ _
  | migAbort => exact execMigAbort_quiet _ _ _ _
  | setband => exact execSetband_quiet _ _
  | clrband => exact execClrband_quiet _ _
  | tlbinvComplete => exact execTlbinvComplete_quiet _ _
  | calendarLoad => exact execCalendarLoad_quiet _ _ _
  | ticketReady => exact execTicketReady_quiet _ _
  | placement => exact execPlacement_quiet _ _
  | calendarSlotStart => exact execCalendarSlotStart_quiet _
  | calendarPeriodStart => exact execCalendarPeriodStart_quiet _
  | roundStart => exact execRoundStart_quiet _ _
  | snapshotStart => exact execSnapshotStart_quiet _ _ _ _
  | snapshotAbort => exact execSnapshotAbort_quiet _ _ _
  | snapshotCut => exact execSnapshotCut_quiet _ _
  | pwrcapWrite => exact execPwrcapWrite_quiet _ _ _ _
  | nirtLoad => exact execNirtLoad_quiet _ _ _ _
  | xptblLoad => exact execXptblLoad_quiet _ _ _ _
  | peerrtLoad => exact execPeerrtLoad_quiet _ _ _ _
  | transitCheck => exact execTransitCheck_quiet _ _ _ _ _ _
  | messageStatusReply => exact execMessageStatusReply_quiet _ _
  | sequenceSkip => exact execSequenceSkip_quiet _ _
  | linkTransferFail => exact execLinkTransferFail_quiet _ _ _
  | packetReturn => exact execPacketReturn_quiet _ _
  | flowResendTimeout => exact execFlowResendTimeout_quiet _ _ _
  | flowAck => exact execFlowAck_quiet _ _ _ _ _
  | flowReset => exact execFlowReset_quiet _ _ _ _
  | flowResetAck => exact execFlowResetAck_quiet _ _
  | systemRegisterWrite => exact execSystemRegisterWrite_quiet _ _ _ _ _ _
  | slotPortEnd => exact execSlotPortEnd_quiet _ _
  | turnstileAcknowledgement => exact execTurnstileAcknowledgement_quiet _ _
  | rdcinvComplete => exact execRdcinvComplete_quiet _ _
  | pinComplete => exact execPinComplete_quiet _ _
  | sstcTimer => exact execSstcTimer_quiet _ _ _
  | brec | ld | ldc | st | ldu | stu | atom | atomcas | red | prefetch | hartFence | hartFenceI | cboClean
  | cboFlush | cboInval | hartCounterLoad | hartAmoaddD | hartAmomaxuD | hartLr | hartSc | hartAmo
  | pinRegistration | retry | spill | turnstileOpArrival | deferredOpApply | heldReleaseSend | recordRead
  | recordMoveEnd | cbloadEnd | reduceContribution | heldContributionTimeout | homeWrite | homeRead | recallAck
  | hartStoreDrain | uncorrectableError | unitSelfTest | contextSave | ringEntryDelivery | vfReset
  | migrationPass | addslice | remslice | attest | qcmdEnable | qcmdDisable | ticketFetch | ticketComplete
  | wholeBlockSave | snapshotComplete | sliceLoss | powerOn | manifestReceive | powerLoss | thermalTrip
  | monitorUpdate | switchForward | messageDelivery | linkLaneTest | niMaskRefresh | peerRequest
  | ethFrameReceive | linkTraining | correctableError | peerStopsAnswering | hartStore => cases h
  -- the one constructor whose name is a word of Lean's: the RECALL of a line
  | _ => exact execRecall_quiet _ _ _

theorem exec_sound (i : Instr) (s : State) : Sound s (exec i s) := by
  cases h : mayWrite i with
  | false => exact (exec_quiet s h).sound
  | true =>
    cases i with
    | brec => exact execBrec_sound _ _ _ _
    | ld => exact execLd_sound _ _ _
    | ldc => exact execLdc_sound _ _ _
    | st => exact execSt_sound _ _ _ _
    | ldu => exact execLdu_sound _ _ _
    | stu => exact execStu_sound _ _ _ _
    | atom => exact execAtom_sound _ _ _ _ _
    | atomcas => exact execAtomcas_sound _ _ _ _
    | red => exact execRed_sound _ _ _ _ _
    | prefetch => exact execPrefetch_sound _ _
    | hartFence => exact execHartFence_sound _ _
    | hartFenceI => exact execHartFenceI_sound _ _
    | cboClean => exact execCboClean_sound _ _ _
    | cboFlush => exact execCboFlush_sound _ _ _
    | cboInval => exact execCboInval_sound _ _ _
    | hartCounterLoad => exact execHartCounterLoad_sound _ _ _ _ _
    | hartAmoaddD => exact execHartAmoaddD_sound _ _ _ _ _
    | hartAmomaxuD => exact execHartAmomaxuD_sound _ _ _ _ _
    | hartLr => exact execHartLr_sound _ _ _ _ _
    | hartSc => exact execHartSc_sound _ _ _ _ _ _
    | hartAmo => exact execHartAmo_sound _ _ _ _ _ _ _
    | pinRegistration => exact execPinRegistration_sound _ _ _
    | retry => exact execRetry_sound _ _ _
    | spill => exact execSpill_sound _ _
    | turnstileOpArrival => exact execTurnstileOpArrival_sound _ _
    | deferredOpApply => exact execDeferredOpApply_sound _ _
    | heldReleaseSend => exact execHeldReleaseSend_sound _ _
    | recordRead => exact execRecordRead_sound _ _
    | recordMoveEnd => exact execRecordMoveEnd_sound _ _
    | cbloadEnd => exact execCbloadEnd_sound _ _
    | reduceContribution => exact execReduceContribution_sound _ _
    | heldContributionTimeout => exact execHeldContributionTimeout_sound _ _
    | homeWrite => exact execHomeWrite_sound _ _ _
    | homeRead => exact execHomeRead_sound _ _ _
    | recallAck => exact execRecallAck_sound _ _
    | hartStoreDrain => exact execHartStoreDrain_sound _ _ _
    | uncorrectableError => exact execUncorrectableError_sound _ _ _
    | unitSelfTest => exact execUnitSelfTest_sound _ _ _ _ _ _
    | contextSave => exact execContextSave_sound _ _ _
    | ringEntryDelivery => exact execRingEntryDelivery_sound _ _
    | vfReset => exact execVfReset_sound _ _ _ _ _
    | migrationPass => exact execMigrationPass_sound _ _ _
    | addslice => exact execAddslice_sound _ _
    | remslice => exact execRemslice_sound _ _
    | attest => exact execAttest_sound _ _
    | qcmdEnable => exact execQcmdEnable_sound _ _ _ _
    | qcmdDisable => exact execQcmdDisable_sound _ _ _ _
    | ticketFetch => exact execTicketFetch_sound _ _ _
    | ticketComplete => exact execTicketComplete_sound _ _
    | wholeBlockSave => exact execWholeBlockSave_sound _ _
    | snapshotComplete => exact execSnapshotComplete_sound _ _
    | sliceLoss => exact execSliceLoss_sound _ _
    | powerOn => exact powerOn_sound _
    | manifestReceive => exact execManifestReceive_sound _ _
    | powerLoss => exact powerLoss_sound _
    | thermalTrip => exact thermalTrip_sound _ _ _
    | monitorUpdate => exact monitorUpdate_sound _ _ _ _ _ _
    | switchForward => exact execSwitchForward_sound _ _
    | messageDelivery => exact execMessageDelivery_sound _ _
    | linkLaneTest => exact execLinkLaneTest_sound _ _ _ _
    | niMaskRefresh => exact execNiMaskRefresh_sound _ _
    | peerRequest => exact execPeerRequest_sound _ _
    | ethFrameReceive => exact execEthFrameReceive_sound _ _
    | linkTraining => exact execLinkTraining_sound _ _ _ _
    | correctableError => exact execCorrectableError_sound _ _ _ _
    | peerStopsAnswering => exact execPeerStopsAnswering_sound _ _ _
    | hartStore => exact execHartStore_sound _ _ _ _ _ _
    | _ => cases h

theorem runEv_sound (e : Ev) (s : State) : Sound s (runEv e s) := by
  cases e with
  | clauseIssue => exact (execClauseIssue_quiet _ _ _).sound
  | pipeGrant => exact (execPipeGrant_quiet _ _).sound
  | stallRelease => exact (execStallRelease_quiet _ _ _).sound
  | loadDataReturn => exact (execLoadDataReturn_quiet _ _ _).sound
  | gwctReceive => exact (execGwctReceive_quiet _ _ _).sound
  | troupeEnd => exact (execTroupeEnd_quiet _ _ _).sound
  | sleepWake => exact (execSleepWake_quiet _ _ _).sound
  | blockArrival => exact (execBlockArrival_quiet _ _).sound
  | unitZero => exact (execUnitZero_quiet _ _).sound
  | blockStart => exact (execBlockStart_quiet _ _).sound
  | blockEnd => exact (execBlockEnd_quiet _ _).sound
  | pinnedForcedWriteback => exact (execPinnedForcedWriteback_quiet _ _ _).sound
  | reclaim => exact (execReclaim_quiet _ _).sound
  | refill => exact (execRefill_quiet _ _).sound
  | cquotaWrite => exact (execCquotaWrite_quiet _ _ _ _ _ _).sound
  | turnstilePoll => exact (execTurnstilePoll_quiet _ _).sound
  | matrixPeriodStart => exact (execMatrixPeriodStart_quiet _ _).sound
  | matrixWriteback => exact (execMatrixWriteback_quiet _ _).sound
  | slotPortStart => exact (execSlotPortStart_quiet _ _).sound
  | slotPortEnd => exact (execSlotPortEnd_quiet _ _).sound
  | turnstileAcknowledgement => exact (execTurnstileAcknowledgement_quiet _ _).sound
  | wakeReceive => exact (execWakeReceive_quiet _ _).sound
  | waitTimeout => exact (execWaitTimeout_quiet _ _ _).sound
  | fenceComplete => exact (execFenceComplete_quiet _ _ _).sound
  | waitoutComplete => exact (execWaitoutComplete_quiet _ _ _).sound
  | chainStart => exact (execChainStart_quiet _ _).sound
  | completionAdd => exact (execCompletionAdd_quiet _ _).sound
  | chainEnd => exact (execChainEnd_quiet _ _).sound
  | xbarRequest => exact (execXbarRequest_quiet _ _).sound
  | xbarSpillRetry => exact (execXbarSpillRetry_quiet _ _).sound
  | redirectedAccess => exact (execRedirectedAccess_quiet _ _ _).sound
  | residentGangStart => exact (execResidentGangStart_quiet _ _).sound
  | channelTransfer => exact (execChannelTransfer_quiet _ _ _).sound
  | l2pinqWrite => exact (execL2pinqWrite_quiet _ _ _ _ _).sound
  | sltokWrite => exact (execSltokWrite_quiet _ _ _ _ _).sound
  | portCtlWrite => exact (execPortCtlWrite_quiet _ _ _ _).sound
  | portCancelWrite => exact (execPortCancelWrite_quiet _ _ _).sound
  | portWaitEnd => exact (execPortWaitEnd_quiet _ _ _).sound
  | troupeRestore => exact (execTroupeRestore_quiet _ _).sound
  | vfcfgWrite => exact (execVfcfgWrite_quiet _ _ _ _ _).sound
  | vfResetComplete => exact (execVfResetComplete_quiet _ _ _).sound
  | migStart => exact (execMigStart_quiet _ _ _ _ _).sound
  | migEnd => exact (execMigEnd_quiet _ _ _ _).sound
  | migAbort => exact (execMigAbort_quiet _ _ _ _).sound
  | setband => exact (execSetband_quiet _ _).sound
  | clrband => exact (execClrband_quiet _ _).sound
  | tlbinvComplete => exact (execTlbinvComplete_quiet _ _).sound
  | rdcinvComplete => exact (execRdcinvComplete_quiet _ _).sound
  | pinComplete => exact (execPinComplete_quiet _ _).sound
  | bankAck => exact (quiet_next (bankAck_kept ..)).sound
  | pinArrive => exact (quiet_next (execPinArrive_kept ..)).sound
  | calendarLoad => exact (execCalendarLoad_quiet _ _ _).sound
  | ticketReady => exact (execTicketReady_quiet _ _).sound
  | placement => exact (execPlacement_quiet _ _).sound
  | calendarSlotStart => exact (execCalendarSlotStart_quiet _).sound
  | calendarPeriodStart => exact (execCalendarPeriodStart_quiet _).sound
  | roundStart => exact (execRoundStart_quiet _ _).sound
  | snapshotStart => exact (execSnapshotStart_quiet _ _ _ _).sound
  | snapshotAbort => exact (execSnapshotAbort_quiet _ _ _).sound
  | snapshotCut => exact (execSnapshotCut_quiet _ _).sound
  | pwrcapWrite => exact (execPwrcapWrite_quiet _ _ _ _).sound
  | nirtLoad => exact (execNirtLoad_quiet _ _ _ _).sound
  | xptblLoad => exact (execXptblLoad_quiet _ _ _ _).sound
  | peerrtLoad => exact (execPeerrtLoad_quiet _ _ _ _).sound
  | messageStatusReply => exact (execMessageStatusReply_quiet _ _).sound
  | sequenceSkip => exact (execSequenceSkip_quiet _ _).sound
  | packetReturn => exact (execPacketReturn_quiet _ _).sound
  | flowResendTimeout => exact (execFlowResendTimeout_quiet _ _ _).sound
  | systemRegisterWrite => exact (execSystemRegisterWrite_quiet _ _ _ _ _ _).sound
  | sstcTimer => exact (execSstcTimer_quiet _ _ _).sound
  | pinRegistration => exact execPinRegistration_sound _ _ _
  | retry => exact execRetry_sound _ _ _
  | spill => exact execSpill_sound _ _
  | turnstileOpArrival => exact execTurnstileOpArrival_sound _ _
  | deferredOpApply => exact execDeferredOpApply_sound _ _
  | heldReleaseSend => exact execHeldReleaseSend_sound _ _
  | recordRead => exact execRecordRead_sound _ _
  | recordMoveEnd => exact execRecordMoveEnd_sound _ _
  | cbloadEnd => exact execCbloadEnd_sound _ _
  | reduceContribution => exact execReduceContribution_sound _ _
  | heldContributionTimeout => exact execHeldContributionTimeout_sound _ _
  | homeWrite => exact execHomeWrite_sound _ _ _
  | homeRead => exact execHomeRead_sound _ _ _
  | recallAck => exact execRecallAck_sound _ _
  | hartStoreDrain => exact execHartStoreDrain_sound _ _ _
  | contextSave => exact execContextSave_sound _ _ _
  | ringEntryDelivery => exact execRingEntryDelivery_sound _ _
  | vfReset => exact execVfReset_sound _ _ _ _ _
  | migrationPass => exact execMigrationPass_sound _ _ _
  | addslice => exact execAddslice_sound _ _
  | remslice => exact execRemslice_sound _ _
  | attest => exact execAttest_sound _ _
  | homeReads => exact sound_next fun hs => homeReads_memOk _ _ _ _ hs
  | qcmdEnable => exact execQcmdEnable_sound _ _ _ _
  | qcmdDisable => exact execQcmdDisable_sound _ _ _ _
  | ticketFetch => exact execTicketFetch_sound _ _ _
  | ticketComplete => exact execTicketComplete_sound _ _
  | wholeBlockSave => exact execWholeBlockSave_sound _ _
  | snapshotComplete => exact execSnapshotComplete_sound _ _
  | sliceLoss => exact execSliceLoss_sound _ _
  | powerOn => exact powerOn_sound _
  | bootBuild => exact sound_next fun hs => bootBuild_memOk _ hs
  | switchForward => exact execSwitchForward_sound _ _
  | messageDelivery => exact execMessageDelivery_sound _ _
  | niMaskRefresh => exact execNiMaskRefresh_sound _ _
  | hartRun => exact sound_next fun hs => hartRun_memOk _ _ hs
  -- the one constructor whose name is a word of Lean's: the RECALL of a line
  | _ => exact (execRecall_quiet _ _ _).sound

theorem work_sound (s : State) : Sound s s.work := by
  unfold State.work
  split
  · exact exec_sound _ s
  · unfold State.runTodo
    split
    · rename_i e t _
      exact fun hs => runEv_sound e { s with todo := t } hs
    · exact sound_next fun hs => memOk_of_kept (passTick_kept s) hs

theorem step_sound (s : State) : Sound s (step s) := by
  unfold step
  split
  · rename_i i t _
    split
    · exact fun hs => exec_sound i { s with agenda := t } hs
    · exact sound_next id
  · split
    · exact sound_next fun hs => memOk_of_kept (passTick_kept _) hs
    · exact work_sound s
  · exact work_sound s

/-- Settles O4: each function of the model either leaves memory as it is, or writes it by bytes, by whole lines or by
dropping the bytes of a slice, which keep the canonical form; a step is one of them. -/
theorem everyStepKeepsMemory : Obligations.EveryStepKeepsMemory := fun s s' hs h => step_sound s hs s' h

end Sys2Proof.Machine
end

section
/-! PROOFS. No word changes memory in its own step (R276, R303, R312). -/

namespace Sys2Proof.Machine

/-! The operations in flight, after what sends messages and lets a troupe go on. -/

theorem at_mem (s : State) (n : Nat) (e : Ev) : (s.at n e).flight.mem = s.flight.mem := by
  unfold State.at
  split <;> rfl

theorem later_mem (s : State) (e : Ev) : (s.later e).flight.mem = s.flight.mem := at_mem ..

theorem postOnce_mem (s : State) (e : Ev) : (s.postOnce e).flight.mem = s.flight.mem := by
  unfold State.postOnce
  split <;> rfl

theorem laterOnce_mem (s : State) (e : Ev) : (s.laterOnce e).flight.mem = s.flight.mem := by
  unfold State.laterOnce
  split
  · rfl
  · exact later_mem ..

theorem countPacket_mem (s : State) (part vf : Nat) : (s.countPacket part vf).flight.mem = s.flight.mem := by
  unfold State.countPacket State.countEnergy State.modPart
  split
  · dsimp only
    split <;> rfl
  · rfl

theorem holdPacket_mem (s : State) (part src dst : Nat) (cls : PClass) (e : Ev) :
    (s.holdPacket part src dst cls e).flight.mem = s.flight.mem :=
  postOnce_mem ..

theorem send_mem (s : State) (src dst : Nat) (cls : PClass) (e : Ev) :
    (s.send src dst cls e).flight.mem = s.flight.mem := by
  unfold State.send
  split
  · exact later_mem ..
  · dsimp only
    split
    · split
      · exact (at_mem ..).trans (countPacket_mem ..)
      · exact holdPacket_mem ..
    · exact at_mem ..

theorem sendPeer_mem (s : State) (slice ppa part vf : Nat) (l : Load) :
    (s.sendPeer slice ppa part vf l).flight.mem = s.flight.mem :=
  later_mem ..

theorem setTroupe_mem (s : State) (k : TKey) (t : Troupe) : (s.setTroupe k t).flight.mem = s.flight.mem := by
  unfold State.setTroupe
  split
  · split <;> rfl
  · rfl

theorem boundary_mem (s : State) (k : TKey) (rg : Regime) (t : Troupe) :
    (s.boundary k rg t).flight.mem = s.flight.mem := by
  unfold State.boundary
  split
  · exact (later_mem ..).trans (setTroupe_mem ..)
  · exact (laterOnce_mem ..).trans (setTroupe_mem s k _)

theorem advance_mem (s : State) (c : Ctx) (t : Troupe) : (s.advance c t).flight.mem = s.flight.mem := by
  unfold State.advance State.endClause
  split
  · exact setTroupe_mem ..
  · dsimp only
    split
    · exact setTroupe_mem ..
    · exact boundary_mem ..

/-! An access leaves memory where its line is not served by a copy, or where no write waits for its tick. -/

/-- The kinds of access that a copy may serve (R311). -/
def MemKind.served : MemKind → Bool
  | .load _ | .prefetch | .record => true
  | _ => false

theorem copyHit_of_not_served {s : State} {o : MemOp} {line : Nat} (h : o.kind.served = false) :
    s.copyHit o line = false := by
  unfold State.copyHit
  cases hk : o.kind <;> simp_all [MemKind.served]

/-- No write waits for its tick, or no copy serves the operation. -/
def Calm (s : State) (id : Nat) : Prop :=
  s.homes.waiting = [] ∨ ∃ o, s.op? id = some o ∧ o.kind.served = false

theorem waiting_of_kept {s u : State} (h : u.homes.kept = s.homes.kept) : u.homes.waiting = s.homes.waiting :=
  congrArg Prod.snd h

theorem Calm.of_mem {s u : State} {id : Nat} (h : Calm s id) (kept : u.homes.kept = s.homes.kept)
    (mem : u.flight.mem = s.flight.mem) : Calm u id := by
  unfold Calm State.op?
  rwa [waiting_of_kept kept, mem]

theorem settle_of_no_writes {s : State} (h : s.homes.waiting = []) (line : Nat) : s.settle line = s := by
  unfold State.settle
  rw [h]
  rfl

theorem serveCopy_kept {s : State} (h : s.homes.waiting = []) (id line : Nat) (o : MemOp) (p : Part) :
    (s.serveCopy id line o p).homes.kept = s.homes.kept := by
  unfold State.serveCopy
  rw [settle_of_no_writes h]
  grind [Homes.kept, setCore_kept, setHomes_kept, later_kept, modPart?_kept, bump_kept]

theorem sendPart_calm {s : State} {id : Nat} (h : Calm s id) (line : Nat) :
    (s.sendPart id line).homes.kept = s.homes.kept ∧ Calm (s.sendPart id line) id := by
  unfold State.sendPart
  split
  · exact ⟨rfl, h⟩
  · next o found =>
    split
    · exact ⟨rfl, h⟩
    · have away (u : State) (kept : u.homes.kept = s.homes.kept) (mem : u.flight.mem = s.flight.mem) :
          u.homes.kept = s.homes.kept ∧ Calm u id := ⟨kept, h.of_mem kept mem⟩
      split
      · exact away _ (sendPeer_kept ..) (sendPeer_mem ..)
      · split
        · exact away _ (later_kept ..) (later_mem ..)
        · split
          · exact away _ (toHome_kept ..) (send_mem ..)
          · split
            · exact away _ (sendWrite_kept ..) (send_mem (s.dropRdc ..) ..)
            · split
              · next hit =>
                obtain quiet | ⟨o', found', fresh⟩ := h
                · exact ⟨serveCopy_kept quiet .., .inl ((waiting_of_kept (serveCopy_kept quiet ..)).trans quiet)⟩
                · cases found.symm.trans found'
                  simp [copyHit_of_not_served fresh] at hit
              · exact away _ (toHome_kept ..) (send_mem ..)

theorem modPart?_calm {s : State} {id : Nat} (h : Calm s id) (line : Nat) (f : Part → Part) :
    Calm (s.modPart? id line f) id := by
  obtain quiet | ⟨o, found, fresh⟩ := h
  · exact .inl ((waiting_of_kept (modPart?_kept ..)).trans quiet)
  · refine .inr ⟨o.setPart line f, ?_, fresh⟩
    unfold State.modPart?
    rw [found]
    exact sfind_sset_self ..

theorem sendOrTake_calm {s : State} {id : Nat} (h : Calm s id) (c : Ctx) (r : MemReq) (p : Part) :
    (s.sendOrTake c r id p).homes.kept = s.homes.kept ∧ Calm (s.sendOrTake c r id p) id := by
  unfold State.sendOrTake
  split
  · exact ⟨(later_kept ..).trans (modPart?_kept ..), (modPart?_calm h ..).of_mem (later_kept ..) (later_mem ..)⟩
  · exact sendPart_calm h _

/-- The lines of an operation, sent one after another. -/
theorem foldl_calm {A : Type} {f : State → A → State} {id : Nat}
    (step : ∀ {u}, Calm u id → ∀ a, (f u a).homes.kept = u.homes.kept ∧ Calm (f u a) id) (xs : List A) {s : State}
    (h : Calm s id) : (xs.foldl f s).homes.kept = s.homes.kept :=
  (List.foldlRecOn xs f (motive := fun u => u.homes.kept = s.homes.kept ∧ Calm u id) ⟨rfl, h⟩
    fun _ ⟨kept, calm⟩ a _ => ⟨(step calm a).1.trans kept, (step calm a).2⟩).1

section
variable {s : State} {c : Ctx} {r : MemReq}

theorem acceptGlobal_kept (h : s.homes.waiting = [] ∨ r.kind.served = false) (b : BufRec) (live : List (Nat × Nat))
    (dropped : List Nat) (pages : List (Nat × Except XFault XTo)) (writable : List Nat) :
    (s.acceptGlobal c r b live dropped pages writable).homes.kept = s.homes.kept := by
  unfold State.acceptGlobal
  dsimp only
  split
  · exact advance_kept ..
  · refine (foldl_calm (id := s.newId.1) (fun calm p => sendOrTake_calm calm c r p) _ ?_).trans
      ((advance_kept ..).trans (setOp_kept ..))
    refine h.imp (fun quiet => ?_) fun fresh => ?_
    · exact (waiting_of_kept ((advance_kept ..).trans (setOp_kept ..))).trans quiet
    · exact ⟨_, (congrArg (sfind _) (advance_mem ..)).trans (sfind_sset_self ..), fresh⟩

theorem memChecked_kept (h : s.homes.waiting = [] ∨ r.kind.served = false) :
    (s.memChecked c r).homes.kept = s.homes.kept := by
  unfold State.memChecked
  have accepted (u : State) (hu : u.homes.kept = s.homes.kept) :=
    @acceptGlobal_kept u c r (by rwa [waiting_of_kept hu])
  have passed := @foldl_kept
  grind [stall_kept, raise_kept, xlatePages_kept, noteRefusal_kept, raiseLowest_kept, acceptScratch_kept]

theorem memOp_quiet (h : s.homes.waiting = [] ∨ r.kind.served = false) : Quiet s (memOp s r) :=
  onTroupe_quiet fun _ => kept_ite (advance_kept ..) (whenReady_kept _ _ _ _ (memChecked_kept h))

theorem prefetchLanes_kept (h : s.homes.waiting = []) : (s.prefetchLanes c r).homes.kept = s.homes.kept := by
  unfold State.prefetchLanes
  have accepted (u : State) (hu : u.homes.kept = s.homes.kept) :=
    @acceptGlobal_kept u c r (.inl ((waiting_of_kept hu).trans h))
  have passed := @foldl_kept
  grind [stall_kept, advance_kept, xlatePages_kept, noteRefusal_kept]

theorem execPrefetch_quiet (h : s.homes.waiting = []) (m : MAddr) : Quiet s (execPrefetch m s) :=
  onTroupe_quiet fun _ => kept_ite (stall_kept ..) (prefetchLanes_kept h)

theorem brecGlobal_kept (h : s.homes.waiting = []) (b : BReg) (a : Nat) :
    (s.brecGlobal c b a).homes.kept = s.homes.kept := by
  unfold State.brecGlobal
  have sent (u : State) (hu : u.homes.kept = s.homes.kept) (id : Nat) (ps : List Part) :=
    foldl_calm (f := fun (u : State) (p : Part) => u.sendPart id p.line) (fun calm p => sendPart_calm calm p.line) ps
      (s := u) (.inl ((waiting_of_kept hu).trans h))
  dsimp only
  split
  · exact kept_ite ((setRecord_kept ..).trans (delOp_kept ..)) (stall_kept ..)
  · refine kept_ite (raise_kept ..) ?_
    have known : (s.xlate c.slice c.blk.regime a needR).2.homes.kept = s.homes.kept := xlate_kept ..
    split
    · exact kept_ite ((stall_kept ..).trans ((noteRefusal_kept ..).trans known)) ((raiseFault_kept ..).trans known)
    · have begun (id : Nat) (o : MemOp) := (setOp_kept (s.xlate c.slice c.blk.regime a needR).2.newId.2 id o).trans
        known
      exact (stall_kept ..).trans ((sent _ (begun _ _) _ _).trans (begun _ _))
    · exact (stall_kept ..).trans known

theorem execBrec_quiet (h : s.homes.waiting = []) (sp : Bool) (b : BReg) (sa : SReg) : Quiet s (execBrec sp b sa s) :=
  onTroupe_quiet fun _ => whenReady_kept _ _ _ _
    (kept_ite (raise_kept ..) (kept_ite (brecScratch_kept ..) (brecGlobal_kept h _ _)))

end

/-- An instruction with a word leaves memory and its waiting writes. -/
theorem word_quiet {s : State} {i : Instr} (word : encode i ≠ none) (h : isGlobalRead i = false ∨ s.homes.waiting = [])
    :
    Quiet s (exec i s) := by
  by_cases writes : mayWrite i = false
  · exact exec_quiet s writes
  · cases i
    case ld | ldc | ldu => exact memOp_quiet (.inl (h.resolve_left nofun))
    case prefetch => exact execPrefetch_quiet (h.resolve_left nofun) _
    case brec => exact execBrec_quiet (h.resolve_left nofun) _ _ _
    case st | stu | atom | atomcas | red => exact memOp_quiet (.inr rfl)
    case hartFence | hartFenceI | cboClean | cboFlush | cboInval | hartCounterLoad | hartAmoaddD | hartAmomaxuD |
      hartLr | hartSc | hartAmo | pinRegistration | retry | spill | turnstileOpArrival | deferredOpApply |
        heldReleaseSend | recordRead | recordMoveEnd | cbloadEnd | reduceContribution | heldContributionTimeout |
          homeWrite | homeRead | recallAck | hartStoreDrain | uncorrectableError | unitSelfTest | contextSave |
            ringEntryDelivery | vfReset | migrationPass | addslice | remslice | attest | qcmdEnable | qcmdDisable |
              ticketFetch | ticketComplete | wholeBlockSave | snapshotComplete | sliceLoss | powerOn |
                manifestReceive | powerLoss | thermalTrip | monitorUpdate | switchForward | messageDelivery |
                  linkLaneTest | niMaskRefresh | peerRequest | ethFrameReceive | linkTraining | correctableError |
                    peerStopsAnswering | hartStore =>
      exact absurd rfl word
    all_goals exact absurd rfl writes

/-- Settles O7: an access that leaves for its home, or that a copy serves while no write waits, leaves memory. -/
theorem wordsLeaveMemory : Obligations.WordsLeaveMemory := by
  unfold Obligations.WordsLeaveMemory
  intro s s' i word run h
  exact congrArg Prod.fst (word_quiet word h s' run)

end Sys2Proof.Machine
end

section
/-! PROOFS. A write takes effect at its home (R276, R303, R331). -/

namespace Sys2Proof.Machine

/-! Bytes written one after another, and the bytes that the lanes of a store write. -/

/-- Of bytes written one after another the last at an address is read. -/
theorem memByte_writes (bs : List (Nat × Byte)) (m : List Host.Cell) (a : Nat) :
    memByte (bs.foldl (fun m e => setByte m e.1 e.2) m) a =
      (bs.reverse.find? fun e => decide (e.1 = a)).elim (memByte m a) (·.2) := by
  induction bs generalizing m with
  | nil => rfl
  | cons e t ih =>
    rw [List.foldl_cons, ih, List.reverse_cons, List.find?_append]
    cases t.reverse.find? fun e => decide (e.1 = a) with
    | some later => rfl
    | none =>
      by_cases here : e.1 = a
      · simp [here]
      · simp [here, memByte_setByte_ne m e.2 (Ne.symm here)]

/-- What a lane's store of w bytes can leave. -/
def StoredBy (w : Nat) (x : LaneAcc) (e : Nat × Byte) : Prop :=
  x.addr ≤ e.1 ∧ e.1 < x.addr + w ∧ e.2 = BitVec.ofNat 8 (x.val / 256 ^ (e.1 - x.addr))

theorem ofNat_div_mod (v : Nat) {w i : Nat} (h : i < w) :
    BitVec.ofNat 8 (v % 2 ^ (8 * w) / 256 ^ i) = BitVec.ofNat 8 (v / 256 ^ i) := by
  apply BitVec.eq_of_toNat_eq
  have split : 2 ^ (8 * w) = 256 ^ i * (256 * 256 ^ (w - i - 1)) := by
    rw [← Nat.pow_succ', ← Nat.pow_add, show i + (w - i - 1).succ = w by omega, show 256 = 2 ^ 8 by rfl, ← Nat.pow_mul]
  rw [BitVec.toNat_ofNat, BitVec.toNat_ofNat, split, Nat.mod_mul_right_div_self, Nat.mod_mul_right_mod]

theorem storedBy_of_bytes (w : Nat) (x : LaneAcc) {e : Nat × Byte}
    (h : e ∈ (leBytes w (uval (8 * w) x.val)).zipIdx.map fun b => (x.byteAt .store b.2, b.1)) : StoredBy w x e := by
  obtain ⟨b, isin, rfl⟩ := List.mem_map.mp h
  obtain ⟨-, small, value⟩ := List.mem_zipIdx isin
  simp only [leBytes, List.length_map, List.length_range] at small
  have byte : b.1 = BitVec.ofNat 8 (x.val / 256 ^ b.2) := by
    rw [value]
    simp only [leBytes, List.getElem_map, List.getElem_range]
    exact ofNat_div_mod _ (by omega)
  have place : x.byteAt .store b.2 = x.addr + b.2 := rfl
  refine ⟨by omega, by omega, ?_⟩
  rw [place, Nat.add_sub_cancel_left, byte]

theorem lineAccess_stores (w : Nat) (rd : Nat → Byte) (bad : Bool) (xs : List LaneAcc) :
    ∀ e ∈ (lineAccess .store w rd bad xs).2.1, ∃ x ∈ xs, StoredBy w x e := by
  unfold lineAccess
  refine List.foldlRecOn xs _
    (motive := fun (acc : List LaneAcc × List (Nat × Byte) × Bool) => ∀ e ∈ acc.2.1, ∃ x ∈ xs, StoredBy w x e) nofun
    fun acc ih x mine e isin => ?_
  obtain old | new := List.mem_append.mp isin
  · exact ih e old
  · exact ⟨x, mine, storedBy_of_bytes w x new⟩

/-! Where no snapshot copies, a home's memory after a write holds what the write left. -/

theorem copyOnWrite_idle {s : State} {line : Nat} {e : Nat × Partition} (h : e.2.snap.state ≠ .copying) :
    s.copyOnWrite line e = s :=
  if_neg fun copies => h copies.1

theorem beforeWrite_homes {s : State} (line : Nat) (h : ∀ e ∈ s.pkg.parts, e.2.snap.state ≠ .copying) :
    (s.beforeWrite line).homes = s.homes := by
  have idle : s.pkg.parts.foldl (fun s e => s.copyOnWrite line e) s = s :=
    List.foldlRecOn _ _ (motive := (· = s)) rfl fun u same e isin => same ▸ copyOnWrite_idle (h e isin)
  unfold State.beforeWrite
  rw [idle]
  rfl

theorem mem_of_kept {s u : State} (h : u.homes.kept = s.homes.kept) : u.homes.mem = s.homes.mem := congrArg Prod.fst h

theorem performWrite_mem {s : State} {id line pt : Nat} {acked : Bool} {o : MemOp} {p : Part}
    (found : s.op? id = some o)
    (part : o.part? line = some p) (fixed : p.state = .fixed pt acked false) (silent : o.kind.reads = false)
    (idle : ∀ e ∈ s.pkg.parts, e.2.snap.state ≠ .copying) :
    (s.performWrite id line).homes.mem =
      (lineAccess o.kind (widthBytes o.width) (memByte s.homes.mem) (s.homes.badRead line p.tag) p.accs).2.1.foldl
        (fun m e => setByte m e.1 e.2) s.homes.mem := by
  have notSc : o.kind ≠ .sc := fun sc => by simp [sc, MemKind.reads] at silent
  have succeeds : s.scFails o line = false := by
    unfold State.scFails
    split
    · exact absurd ‹_› notSc
    · exact absurd ‹_› notSc
    · rfl
  unfold State.performWrite
  rw [found]
  dsimp only
  rw [part]
  dsimp only
  rw [fixed]
  dsimp only
  simp only [succeeds, notSc, silent, beforeWrite_homes line idle, if_false, Bool.false_eq_true]
  refine (mem_of_kept (settleOp_kept ..)).trans ?_
  split
  · exact (mem_of_kept (writtenBack_kept ..)).trans (mem_of_kept (modPart?_kept ..))
  · exact mem_of_kept (modPart?_kept ..)

/-- Settles O47: the bytes of memory after the write are the lanes' bytes, put one after another. -/
theorem homeWriteResults : Obligations.HomeWriteResults := by
  unfold Obligations.HomeWriteResults
  intro s id line pt acked o p found part fixed due silent idle written
  have run : exec (.homeWrite id line) s = .next (s.performWrite id line) := by
    show Host.Outcome.next (s.homeWrite id line) = _
    unfold State.homeWrite
    simp only [found, part, fixed, due, if_true]
  refine ⟨_, run, fun a => ?_, fun store e isin => ?_⟩
  · rw [performWrite_mem found part fixed silent idle, memByte_writes]
    show Option.elim (written.reverse.find? _) _ _ = _
    cases written.reverse.find? fun e => decide (e.1 = a) <;> rfl
  · have stored := lineAccess_stores (widthBytes o.width) (memByte s.homes.mem) (s.homes.badRead line p.tag) p.accs
    rw [← store] at stored
    exact stored e isin

end Sys2Proof.Machine
end

section
/-! PROOFS. What a register word leaves as it was (R47, R66, R73, R86, R91). -/

namespace Sys2Proof.Machine

/-! A troupe that goes on, waits or is trapped leaves every other troupe. -/

/-- Every troupe in a slot but one is as it was. -/
def OthersKept (k : TKey) (s u : State) : Prop := ∀ j, j ≠ k.num → sfind j u.troupes = sfind j s.troupes

theorem setTroupe_others (s : State) {k : TKey} (t : Troupe) (small : k.num < 2 ^ 20) :
    OthersKept k s (s.setTroupe k t) := by
  intro j other
  unfold State.setTroupe
  rw [if_neg (by omega)]
  exact sfind_sset_ne _ _ other

theorem OthersKept.then {k : TKey} {s u v : State} (h : OthersKept k s u) (same : v.troupes = u.troupes) :
    OthersKept k s v := by
  unfold OthersKept
  rwa [same]

theorem boundary_others (s : State) {k : TKey} (rg : Regime) (t : Troupe) (small : k.num < 2 ^ 20) :
    OthersKept k s (s.boundary k rg t) := by
  unfold State.boundary
  split
  · exact (setTroupe_others s _ small).then (later_traffic ..).troupes
  · exact (setTroupe_others s _ small).then (OnlyTraffic.troupes (s := State.leavePipe _ k) (laterOnce_traffic ..))

theorem endClause_others (s : State) {c : Ctx} (t : Troupe) (next : List (VAddr × LaneMask))
    (small : c.key.num < 2 ^ 20) : OthersKept c.key s (s.endClause c t next) := by
  unfold State.endClause
  dsimp only
  split
  · exact (setTroupe_others s _ small).then rfl
  · exact (boundary_others s _ _ small).then rfl

theorem advance_others (s : State) {c : Ctx} (t : Troupe) (small : c.key.num < 2 ^ 20) :
    OthersKept c.key s (s.advance c t) := by
  unfold State.advance
  split
  · exact setTroupe_others s _ small
  · exact endClause_others s t _ small

theorem stall_others (s : State) {c : Ctx} (small : c.key.num < 2 ^ 20) : OthersKept c.key s (s.stall c) :=
  (setTroupe_others s _ small).then (OnlyTraffic.troupes (s := { s.setTroupe c.key _ with current := none })
    (later_traffic ..))

theorem raise_others (s : State) {c : Ctx} (cause : BitVec 8) (info addr : W64) (m : LaneMask)
    (small : c.key.num < 2 ^ 20) (outside : c.t.trap.inHandler = false) (handled : c.t.tvec ≠ 0) :
    OthersKept c.key s (s.raise c cause info addr m) := by
  unfold State.raise State.takeTrap
  rw [if_neg (by simp [outside])]
  dsimp only
  rw [if_neg handled]
  exact (setTroupe_others s _ small).then (OnlyTraffic.troupes (s := State.offPipe _ c.key) (laterOnce_traffic ..))

theorem OthersKept.troupe? {k : TKey} {s u : State} (h : OthersKept k s u) (frame : SameOutside s u) (j : TKey)
    (other : j.num ≠ k.num) : u.troupe? j = s.troupe? j := by
  unfold State.troupe?
  rw [frame.pkg, h j.num other]

theorem stall_troupe (s : State) {c : Ctx} (small : c.key.num < 2 ^ 20) :
    (s.stall c).troupe? c.key = some { c.t with stalled := true } := by
  have saved : ((s.setTroupe c.key { c.t with stalled := true }).troupe? c.key) = some { c.t with stalled :=
    true } := by
    unfold State.troupe? State.setTroupe
    rw [if_neg (by omega), if_neg (by omega)]
    exact sfind_sset_self ..
  exact ((later_traffic { s.setTroupe c.key { c.t with stalled := true } with current := none } _).troupe? _).trans
    saved

/-! A register word: once its registers are ready, its troupe goes on, or a cause is raised. -/

/-- What a register word comes to once its registers are ready. -/
inductive Goes (s : State) (c : Ctx) : State → Prop
  | on (t : Troupe) : Goes s c (s.advance c t)
  | traps (cause : BitVec 8) (info addr : W64) (m : LaneMask) : Goes s c (s.raise c cause info addr m)

/-- The outcome of an instruction that waits for its registers and then concerns its own troupe alone. -/
def OwnTroupe (s : State) (c : Ctx) (i : Instr) (o : Out) : Prop :=
  ∃ k, o = .next (s.whenReady c i c.mask k) ∧ Goes s c k

section
variable {s : State} {c : Ctx} (h : s.ctx? = some c)
include h

theorem own_of_onTroupe {i : Instr} {k : Ctx → State} (goes : Goes s c (k c)) :
    OwnTroupe s c i (onTroupe s fun c => s.whenReady c i c.mask (k c)) :=
  ⟨k c, onTroupe_some h _, goes⟩

theorem laneOp_own (i : Instr) (sx : Bool) (f : Nat → List Nat → Nat) : OwnTroupe s c i (laneOp s i sx f) := by
  refine own_of_onTroupe h ?_
  split <;> exact .on _

theorem predOp_own (i : Instr) (pd : Pred) (f : List Nat → Bool) : OwnTroupe s c i (predOp s i pd f) :=
  own_of_onTroupe h (.on _)

theorem divOp_own (i : Instr) (t : IntTy) (nt : Bool) (o : R2) (pick : Nat × Nat → Nat) :
    OwnTroupe s c i (divOp s i t nt o pick) := by
  refine own_of_onTroupe h ?_
  split
  · exact .traps ..
  · exact .on _

theorem carryOp_own (i : Instr) (t : IntTy) (ci : Bool) (p : Pred) (o : R2)
    (f : Nat → Nat → Nat → Bool → Nat × Bool) : OwnTroupe s c i (carryOp s i t ci p o f) :=
  own_of_onTroupe h (.on _)

theorem iset_own (t : IntTy) (cc : ICond) (pd : Pred) (o : P2) :
    OwnTroupe s c (.iset t cc pd o) (execIset t cc pd o s) :=
  predOp_own h ..

theorem isetI_own (cc : ICond) (u : Bool) (pd : Pred) (a : Src) (imm : BitVec 25) :
    OwnTroupe s c (.isetI cc u pd a imm) (execIsetI cc u pd a imm s) :=
  predOp_own h ..

theorem fset_own (m : FMod) (cc : FCond) (pd : Pred) (o : P2) :
    OwnTroupe s c (.fset m cc pd o) (execFset m cc pd o s) :=
  predOp_own h ..

theorem andn_own (t : IntTy) (o : R2) : OwnTroupe s c (.andn t o) (execAndn t o s) := laneOp_own h ..

/-- Each register word. -/
theorem registerWord_own {i : Instr} (word : isRegisterWord i = true) : OwnTroupe s c i (exec i s) := by
  cases i
  case idiv | irem => exact divOp_own h ..
  case iaddc | isubb => exact carryOp_own h ..
  case iset t cc pd o => exact iset_own h t cc pd o
  case isetI cc u pd a imm => exact isetI_own h cc u pd a imm
  case fset m cc pd o => exact fset_own h m cc pd o
  case pmovToReg | pmovToPred | movhi | vote | matchLanes | redux | fredux | scan | movsRead | amask =>
    exact own_of_onTroupe h (.on _)
  case andn t o => exact andn_own h t o
  case iadd | iaddI | isub | imul | imulI | imad | imadI | imuls | imin | imax | iclamp | iabs | ineg | iadds | isubs
      | idp4 | idp2 | isad | iscadd | and | andI | or | orI | xor | xorI | lmux | shl | shlI | shr | shrI | sra | sraI
      | rot | fsh | popc | clz | ctz | brev | bfe | bfi | bperm | sext | imsk | icmp | icmpI | mov | movi | cvti | ipack
      | iunpack =>
    exact laneOp_own h ..
  case fadd | faddI | fsub | fmul | fmulI | ffma | ffmaI | fmin | fmax | fclamp | fcmp | fcmpI | frcp | frsq | fsqrt
      | fdiv | fex2 | flg2 | fsin | fcos | ftanh | fsigm | fsilu | ffrc | frnd | fldexp | fmant | fexpo | dadd | dmul
      | dfma | dcmp | ddiv | dsqrt | hadd2 | hmul2 | hfma2 | hmin2 | hmax2 | hcmp2 | fdot2 | cvtf | cvtfi | cvtif
      | cvt8Encode | cvt8Decode | cvtmxEncode | cvtmxDecode | cvt4Pack | cvt4Deq =>
    exact laneOp_own h ..
  all_goals cases word

end

theorem Goes.frame {s k : State} {c : Ctx} (goes : Goes s c k) (small : c.key.num < 2 ^ 20)
    (outside : c.t.trap.inHandler = false) (handled : c.t.tvec ≠ 0) : SameOutside s k ∧ OthersKept c.key s k := by
  cases goes with
  | on t => exact ⟨advance_outside s c t small, advance_others s t small⟩
  | traps cause info addr m =>
    exact ⟨raise_outside s c cause info addr m small outside handled, raise_others s _ _ _ _ small outside handled⟩

theorem whenReady_frame {s k : State} {c : Ctx} (i : Instr) (goes : Goes s c k) (small : c.key.num < 2 ^ 20)
    (outside : c.t.trap.inHandler = false) (handled : c.t.tvec ≠ 0) :
    SameOutside s (s.whenReady c i c.mask k) ∧ OthersKept c.key s (s.whenReady c i c.mask k) := by
  unfold State.whenReady
  split
  · exact (Goes.traps ..).frame small outside handled
  · exact ⟨stall_outside s c small, stall_others s small⟩
  · exact goes.frame small outside handled

/-- Settles O6: a register word waits for its registers, and then its troupe alone goes on or takes a trap. -/
theorem registerWordFrame : Obligations.RegisterWordFrame := by
  unfold Obligations.RegisterWordFrame
  intro s c i found word
  have small := ctx_key found
  obtain ⟨k, run, goes⟩ := registerWord_own found word
  refine ⟨⟨_, run, fun outside handled => ?_⟩, fun waits => ⟨?_, stall_outside s c small, stall_troupe s small⟩,
    fun r l empty => ?_⟩
  · obtain ⟨frame, others⟩ := whenReady_frame i goes small outside handled
    exact ⟨frame, fun a => by rw [frame.homes], others.troupe? frame⟩
  · rw [run, State.whenReady, waits]
  · rw [run, State.whenReady, empty]
    rfl

end Sys2Proof.Machine
end

section
/-! PROOFS. What a store of an engine and an add after it leave as they were (R307, R348, R428). -/

namespace Sys2Proof.Machine

/-- Operations and messages may have been sent, with what counts them; the copies of a line in the RDC, the packets and
the partitions' own records may have changed, and the order of events. All else is as it was. -/
def OnlySends (s u : State) : Prop :=
  { u with
    flight := s.flight, fab := { u.fab with packets := s.fab.packets }, timers := s.timers, todo := s.todo
    pkg := { s.pkg with saved := u.pkg.saved }, regs := s.regs, fresh := s.fresh
    homes := { u.homes with rdc := s.homes.rdc } } = s

namespace OnlySends

theorem refl (s : State) : OnlySends s s := rfl

theorem trans {s u v : State} (h : OnlySends s u) (g : OnlySends u v) : OnlySends s v := by
  unfold OnlySends at h g ⊢
  rw [← g] at h
  exact h

section
variable {s u : State} (h : OnlySends s u)
include h

theorem plat : u.plat = s.plat := (congrArg State.plat h :)
theorem peers : u.fab.peers = s.fab.peers := (congrArg (fun u => u.fab.peers) h :)
theorem health : u.fab.health = s.fab.health := (congrArg (fun u => u.fab.health) h :)
theorem mem : u.homes.mem = s.homes.mem := (congrArg (fun u => u.homes.mem) h :)
theorem troupes : u.troupes = s.troupes := (congrArg State.troupes h :)
theorem saved : u.pkg.saved = s.pkg.saved := (congrArg (fun u => u.pkg.saved) h :)

theorem troupe? (k : TKey) : u.troupe? k = s.troupe? k := by
  unfold State.troupe?
  rw [h.troupes, h.saved]

end

theorem foldl {A : Type} {f : State → A → State} (h : ∀ s a, OnlySends s (f s a)) (xs : List A) (s : State) :
    OnlySends s (xs.foldl f s) :=
  List.foldlRecOn xs f (motive := OnlySends s) (.refl s) fun u g a _ => g.trans (h u a)

end OnlySends

theorem at_sends (s : State) (n : Nat) (e : Ev) : OnlySends s (s.at n e) := by
  unfold State.at
  split <;> rfl

theorem later_sends (s : State) (e : Ev) : OnlySends s (s.later e) := at_sends s _ e

theorem postOnce_sends (s : State) (e : Ev) : OnlySends s (s.postOnce e) := by
  unfold State.postOnce
  split <;> rfl

theorem laterOnce_sends (s : State) (e : Ev) : OnlySends s (s.laterOnce e) := by
  unfold State.laterOnce
  split
  · rfl
  · exact later_sends s e

theorem modPart_sends (s : State) (part : Nat) (f : Partition → Partition) : OnlySends s (s.modPart part f) := by
  unfold State.modPart
  split <;> rfl

theorem setPart_sends (s : State) (part : Nat) (p : Partition) : OnlySends s (s.setPart part p) := rfl

theorem countEnergy_sends (s : State) (part vf : Nat) (e : EnergyEvent) (n : Nat) :
    OnlySends s (s.countEnergy part vf e n) := modPart_sends ..

theorem countPacket_sends (s : State) (part vf : Nat) : OnlySends s (s.countPacket part vf) := by
  unfold State.countPacket
  split
  · have drawn : OnlySends s { s with fresh := s.fresh + 1 } := rfl
    exact drawn.trans (countEnergy_sends ..)
  · rfl

theorem setReg_sends (s : State) (slice unit n : Nat) (v : W64) : OnlySends s (s.setReg slice unit n v) := rfl

theorem newPacket_sends (s : State) (p : Packet) : OnlySends s (s.newPacket p).2 := rfl

theorem queueRing_sends (s : State) (slice part : Nat) (ring : Ring) (words : List W64) (saved caller : Option Nat) :
    OnlySends s (s.queueRing slice part ring words saved caller).2 := by
  refine .trans ?_ (postOnce_sends ..)
  rfl

theorem holdPacket_sends (s : State) (part src dst : Nat) (cls : PClass) (e : Ev) :
    OnlySends s (s.holdPacket part src dst cls e) :=
  ((setReg_sends ..).trans (newPacket_sends ..)).trans (queueRing_sends ..)

theorem send_sends (s : State) (src dst : Nat) (cls : PClass) (e : Ev) : OnlySends s (s.send src dst cls e) := by
  unfold State.send
  split
  · exact later_sends s e
  · dsimp only
    split
    · split
      · exact (countPacket_sends ..).trans (at_sends ..)
      · exact holdPacket_sends ..
    · exact at_sends ..

theorem sendPeer_sends (s : State) (slice ppa part vf : Nat) (l : Load) :
    OnlySends s (s.sendPeer slice ppa part vf l) :=
  .trans (u := (s.newPacket _).2) rfl (later_sends ..)

theorem sendWrite_sends (s : State) (o : MemOp) (id line : Nat) : OnlySends s (s.sendWrite o id line) :=
  .trans (u := s.dropRdc o.slice line) rfl (send_sends ..)

/-- An operation that no copy serves goes on its way from its unit, and stays what it is. -/
theorem sendPart_sends {s : State} {id : Nat} {o : MemOp} (found : s.op? id = some o) (fresh : o.kind.served = false)
    (line : Nat) : OnlySends s (s.sendPart id line) ∧ (s.sendPart id line).op? id = some o := by
  have away {u : State} (sends : OnlySends s u) (mem : u.flight.mem = s.flight.mem) :
      OnlySends s u ∧ u.op? id = some o := ⟨sends, (congrArg (sfind id) mem).trans found⟩
  unfold State.sendPart
  rw [found]
  dsimp only
  split
  · exact away (.refl s) rfl
  · split
    · exact away (sendPeer_sends ..) (sendPeer_mem ..)
    · split
      · exact away (later_sends ..) (later_mem ..)
      · split
        · exact away (send_sends ..) (send_mem ..)
        · split
          · exact away (sendWrite_sends ..) (send_mem (s.dropRdc ..) ..)
          · rw [copyHit_of_not_served fresh, Bool.false_and, if_neg Bool.false_ne_true]
            exact away (send_sends ..) (send_mem ..)

theorem engineSend_sends (s : State) {o : MemOp} (fresh : o.kind.served = false) : OnlySends s (s.engineSend o).2 := by
  have there : (s.newId.2.setOp s.newId.1 o).op? s.newId.1 = some o := sfind_sset_self ..
  exact (List.foldlRecOn o.parts _
    (motive := fun u => OnlySends s u ∧ u.op? s.newId.1 = some o) (b := s.newId.2.setOp s.newId.1 o) ⟨rfl, there⟩
    fun u ⟨sends, found⟩ p _ => ⟨sends.trans (sendPart_sends found fresh _).1, (sendPart_sends found fresh _).2⟩).1

theorem agentStore_sends (s : State) (slice : Nat) (rg : Regime) (va : Option Nat) (dpa tag : Nat) (ws : List W64) :
    OnlySends s (s.agentStore slice rg va dpa tag ws).2 :=
  engineSend_sends s rfl

theorem grcWrite_sends (s : State) (part dpa : Nat) (ws : List W64) : OnlySends s (s.grcWrite part dpa ws).2 :=
  engineSend_sends s rfl

theorem addAfter_sends (s : State) (slice part vf : Nat) (loc : TsLoc) (name : Option TsName) (amt nb : Nat)
    (ops : List Nat) : OnlySends s (s.addAfter slice part vf loc name amt nb ops) := rfl

theorem writeRecord_sends (s : State) (part slice : Nat) (r : BitVec 256) :
    OnlySends s (s.writeRecord part slice r) := by
  unfold State.writeRecord
  split
  · exact (agentStore_sends ..).trans (addAfter_sends ..)
  · rfl

theorem tmapGo_sends (s : State) (part : Nat) : OnlySends s (s.tmapGo part) := by
  unfold State.tmapGo
  split
  · rfl
  · dsimp only
    split
    · split
      · rfl
      · exact (((grcWrite_sends ..).trans (setPart_sends ..)).trans (addAfter_sends ..)).trans (laterOnce_sends ..)
    · rfl

theorem tmapAdvance_sends (s : State) (part : Nat) : OnlySends s (s.tmapAdvance part) :=
  (modPart_sends ..).trans (tmapGo_sends ..)

end Sys2Proof.Machine
end

section
/-! PROOFS. The fabric: packets and their hops, messages in their sequence, links and the map (R424 to R453). -/

namespace Sys2Proof.Machine

section
variable {s s1 : State} {id mid part slice link cur pkt i n k : Nat} {p : Packet} {m : Message} {q : Sequence}

/-! A packet's next hop. -/

theorem switchForward_absent (none : s.packet? id = none) : exec (.switchForward id) s = .next s := by
  show execSwitchForward id s = _
  unfold execSwitchForward
  rw [none]

theorem switchForward_held (there : s.packet? id = some p) (held : p.held = true) :
    exec (.switchForward id) s = .next s := by
  show execSwitchForward id s = _
  unfold execSwitchForward
  rw [there]
  dsimp only
  split
  · rfl
  · rfl
  · rw [if_pos held]

/-- A packet of the module's own on its way. -/
theorem switchForward_onWay (there : s.packet? id = some p) (held : p.held = false) (onWay : p.returning = false)
    (routed : p.words.isEmpty = false) (inside : ∀ sl l, p.place ≠ .outside sl l)
    (own : ∀ e w, p.load ≠ .event e w) : exec (.switchForward id) s = .next
      (if p.cls = .gtd ∧ p.slotNo = 0 ∧ s.gtdMay p = false then s
       else
        let g := if p.cls = .gtd ∧ p.slotNo = 0 then s.gtdInject id p else (p, s)
        let r := if (decide (p.hop = 0) && decide (p.cur = 0) && (match p.load with
          | .msg _ => true
          | _ => false)) = true then g.2.enterNet id g.1 else g.2.demote id g.1
        r.2.forward id r.1) := by
  show execSwitchForward id s = _
  unfold execSwitchForward
  rw [there]
  dsimp only
  split
  · exact absurd ‹_› (own _ _)
  · exact absurd ‹_› (inside _ _)
  · rw [held, onWay, routed]
    rfl

theorem gtd_waits (there : s.packet? id = some p) (held : p.held = false) (onWay : p.returning = false)
    (routed : p.words.isEmpty = false) (inside : ∀ sl l, p.place ≠ .outside sl l) (load : p.load = .msg mid)
    (cls : p.cls = .gtd) (first : p.slotNo = 0) (notYet : s.gtdMay p = false) :
    exec (.switchForward id) s = .next s := by
  rw [switchForward_onWay there held onWay routed inside (by simp [load]), if_pos ⟨cls, first, notYet⟩]

/-- A packet of another module that crosses this one goes on by its selector. -/
theorem switchForward_transit (there : s.packet? id = some p) (held : p.held = false) (onWay : p.returning = false)
    (routed : p.words.isEmpty = false) (inside : ∀ sl l, p.place ≠ .outside sl l) (load : p.load = .transit pkt)
    (cls : p.cls ≠ .gtd) : exec (.switchForward id) s = .next (s.forward id p) := by
  rw [switchForward_onWay there held onWay routed inside (by simp [load])]
  simp only [cls, false_and, if_false, load, Bool.and_false, Bool.false_eq_true, State.demote]

theorem forward_switch (more : p.hop < hopCount p.word) (switch : p.place.isLeaf = false) :
    s.forward id p = s.takeHop id p (selector p.word p.hop) := by
  unfold State.forward
  dsimp only
  rw [if_neg (Nat.not_le.mpr more)]
  split
  · rename_i at_
    rw [at_] at switch
    cases switch
  · rfl

theorem takeHop_none {x : Nat}
    (port : (if x = 31 then (s.fab.chooseUp p.place).map fun j => 16 + j else some x) = none) :
    s.takeHop id p x = s.turnRound id p := by
  unfold State.takeHop
  rw [port]

theorem takeHop_some {x : Nat} {d : Place × Nat}
    (port : (if x = 31 then (s.fab.chooseUp p.place).map fun j => 16 + j else some x) = some k)
    (leads : portTo p.place k = some d) : s.takeHop id p x =
      if s.fab.testing d.2 = true then s.later (.switchForward id)
      else if linkOk (s.fab.linkHealth d.2) = true then s.hopTo id p k d.1 d.2 else s.turnRound id p := by
  unfold State.takeHop
  rw [port]
  dsimp only
  rw [leads]

theorem forward_exit {x : Nat} (more : p.hop < hopCount p.word) (at_ : p.place = .leaf i)
    (sel : selector p.word p.hop = x) (exit : x < 4) (untested : s.fab.testing (externalLink (i / 8) x) = false)
    (up : linkOk (s.fab.linkHealth (externalLink (i / 8) x)) = true) : s.forward id p = s.exitBy id p (i / 8) x := by
  unfold externalLink at untested up
  unfold State.forward
  simp only [Nat.not_le.mpr more, at_, sel, show x < 16 by omega, show ¬3 < x by omega, untested, up, if_true,
    if_false, Bool.false_eq_true]

theorem exitBy_transit (load : p.load = .transit pkt) (x : Nat) :
    s.exitBy id p slice x = (s.delPacket id).out (.through slice x pkt) := by
  unfold State.exitBy
  dsimp only
  rw [load]

/-! A packet that crosses the module (R448). -/

theorem transitCheck_over {words : List W64} {eth : Bool} (done : words.length ≤ cur) :
    exec (.transitCheck slice words cur eth pkt) s = .next s :=
  congrArg Host.Outcome.next (if_pos done)

theorem transitCheck_more {words : List W64} {eth : Bool} (more : cur < words.length) :
    exec (.transitCheck slice words cur eth pkt) s = .next
      (match routePath (fun x => linkOk (s.fab.linkHealth x)) (words.getD cur 0) cur words.length eth
        (8 * slice + 7) with
       | .bad .. => s.out (.turned pkt)
       | _ =>
        let w := s.newPacket ⟨.req, .req, words, cur, 0, words.map fun _ => (0 : W64), .leaf (8 * slice + 7), 0,
          .transit pkt, 8 * slice + 7, 8 * slice + 7, 0, 32, 0, 0, false, false⟩
        w.2.later (.switchForward w.1)) :=
  congrArg Host.Outcome.next (if_neg (Nat.not_le.mpr more))

/-! Messages in their sequence (R453). -/

/-- A message that has come to its leaf, under its sequence. -/
theorem messageDelivery_come (there : s.packet? id = some p) (load : p.load = .msg mid) (msg : s.msg? mid = some m)
    (onWay : p.returning = false) (at_ : p.place = .leaf p.dstLeaf)
    (seq : s.seqOf m.core m.module m.dstSlice m.ring = (i, q, s1)) : exec (.messageDelivery id) s = .next
      (if 2 ^ 15 ≤ ahead q.expected m.seq then (s1.delPacket id).answerMsg mid msReturned
       else if ahead q.expected m.seq ≠ 0 then
        if q.waiting.any fun w => decide (w.2.2 = id) then s1
        else (s1.putSeq i { q with waiting := q.waiting ++ [(m.seq, s.tick, id)] }).at (s.tick + 4096) (.sequenceSkip i)
       else
        let w := s1.deliverMsg mid (p.dstLeaf / 8) m
        if w.1 = true then w.2.later (.messageDelivery id)
        else
          let next := (q.expected + 1) % 2 ^ 16
          let s3 := (w.2.delPacket id).putSeq i
            { q with expected := next, waiting := q.waiting.filter fun w => decide (w.1 ≠ next ∧ w.2.2 ≠ id) }
          match q.waiting.find? fun w => decide (w.1 = next) with
          | some w => s3.post (.messageDelivery w.2.2)
          | none => s3) := by
  show execMessageDelivery id s = _
  unfold execMessageDelivery
  rw [show sfind id s.fab.packets = some p from there]
  dsimp only
  rw [load]
  dsimp only
  rw [msg]
  dsimp only
  rw [onWay, at_, seq]
  simp only [ne_eq, not_true_eq_false, decide_false, Bool.or_self, Bool.false_eq_true, if_false] <;> rfl

theorem messageStatusReply_eq {st : W64} (msg : s.msg? mid = some m) (status : m.status = some st)
    (seq : ((s.modTroupe (keyOf m.troupe) fun t => t.putS m.d st m.poison).delMsg mid).seqOf m.core m.module m.dstSlice
      m.ring = (i, q, s1)) : exec (.messageStatusReply mid) s = .next
      (match (s1.putSeq i { q with unanswered := q.unanswered - 1 }).nextUnsent q with
       | some n => (s1.putSeq i { q with unanswered := q.unanswered - 1 }).sendMsg n
       | none => s1.putSeq i { q with unanswered := q.unanswered - 1 }) := by
  show execMessageStatusReply mid s = _
  unfold execMessageStatusReply
  rw [msg]
  dsimp only
  rw [status]
  dsimp only
  rw [seq] <;> rfl

theorem sequenceSkip_early (there : s.fab.seqs[n]? = some q) (early : ∀ w ∈ q.waiting, s.tick < w.2.1 + 4096) :
    exec (.sequenceSkip n) s = .next s := by
  have due : (q.waiting.any fun w => decide (w.2.1 + 4096 ≤ s.tick)) = false :=
    List.any_eq_false.mpr fun w isin => by simpa using early w isin
  show execSequenceSkip n s = _
  unfold execSequenceSkip
  rw [there]
  dsimp only
  rw [due]
  rfl

theorem sequenceSkip_one {w : Nat × Nat × Nat} (there : s.fab.seqs[n]? = some q) (one : q.waiting = [w])
    (due : w.2.1 + 4096 ≤ s.tick) (missing : s.arrived q q.expected = false) : exec (.sequenceSkip n) s =
      .next ((s.putSeq n { q with expected := w.1, waiting := [] }).post (.messageDelivery w.2.2)) := by
  show execSequenceSkip n s = _
  unfold execSequenceSkip
  rw [there]
  simp [one, due, missing, leastBy]

/-! Links (R434, R435, R449). -/

theorem linkTransferFail_counts (inside : link < 832) (again : Bool)
    (untested : (sget LinkErr.none link s.fab.links).testing = false)
    (up : linkOk (s.fab.linkHealth link) = true) :
    let fails := if again then (sget LinkErr.none link s.fab.links).fails + 1 else 1
    let replays := ((sget LinkErr.none link s.fab.links).replays.filter fun t => decide (s.tick < t + 100000)) ++
      [s.tick]
    exec (.linkTransferFail link again) s = .next (s.setFab { s.fab with
      links := sset link ⟨fails, replays, decide (3 ≤ fails ∨ 16 ≤ replays.length)⟩ s.fab.links }) := by
  intro fails replays
  show execLinkTransferFail link again s = _
  unfold execLinkTransferFail
  simp only [untested, up, Nat.not_le.mpr inside, Bool.not_true, decide_false, Bool.or_self, Bool.false_eq_true,
    if_false,
    Bool.decide_or]
  rfl

theorem linkLaneTest_untested {lower upper : Bool} (untested : (sget LinkErr.none link s.fab.links).testing = false) :
    exec (.linkLaneTest link lower upper) s = .next s := by
  show execLinkLaneTest link lower upper s = _
  unfold execLinkLaneTest
  dsimp only
  rw [untested]
  rfl

theorem linkLaneTest_tested (lower upper : Bool) (tested : (sget LinkErr.none link s.fab.links).testing = true) :
    exec (.linkLaneTest link lower upper) s = .next
      ((s.setFab { s.fab with links := sset link LinkErr.none s.fab.links }).setLink link
        (if lower then (if upper then s.fab.linkHealth link else 1) else (if upper then 5 else 2))) := by
  show execLinkLaneTest link lower upper s = _
  unfold execLinkLaneTest
  dsimp only
  rw [tested]
  cases lower <;> cases upper <;> rfl

/-- A link whose state changes shows it, and no peer's record changes. -/
theorem setLink_shows (s : State) (x : Nat) (b : Byte) :
    (s.setLink x b).fab.linkHealth x = b ∧ (s.setLink x b).fab.peers = s.fab.peers := by
  unfold State.setLink
  split
  · exact ⟨‹_›, rfl⟩
  · have only := fun u => OnlySends.foldl tmapAdvance_sends (State.viewers u x) u
    unfold Fabric.linkHealth
    dsimp only
    rw [(only _).health, (only _).peers]
    exact ⟨sget_sput_self .., rfl⟩

/-- A link's record is written, and its state is set; where the state stands, the maps that show it advance if the
record is a new one. -/
theorem trained_shows (s : State) (x k : Nat) (old w : W64) (b : Byte) :
    let s1 := s.setFab { s.fab with peers := sput 0 k w s.fab.peers }
    let u := if s.fab.linkHealth x = b then (if old = w then s1 else (s1.viewers x).foldl State.tmapAdvance s1)
      else s1.setLink x b
    sget 0 k u.fab.peers = w ∧ u.fab.linkHealth x = b := by
  intro s1
  have peers : sget 0 k s1.fab.peers = w := sget_sput_self ..
  dsimp only
  split
  · rename_i same
    split
    · exact ⟨peers, same⟩
    · have only := OnlySends.foldl tmapAdvance_sends (s1.viewers x) s1
      unfold Fabric.linkHealth
      rw [only.peers, only.health]
      exact ⟨peers, same⟩
  · rw [(setLink_shows ..).1, (setLink_shows ..).2]
    exact ⟨peers, rfl⟩

theorem linkTraining_some (peer : PeerLink) (known : slice < 16) (port : link < 4) :
    ∃ s', exec (.linkTraining slice link (some peer)) s = .next s' ∧
      sget 0 (4 * slice + link) s'.fab.peers = BitVec.ofNat 64 (2 ^ 63 + peer.module % 1024 * 2 ^ 53 +
        peer.slice % 16 * 2 ^ 49 + peer.link % 4 * 2 ^ 47) ∧
      s'.fab.linkHealth (externalLink slice link) = 0 := by
  refine ⟨_, rfl, ?_⟩
  rw [if_neg (by omega)]
  exact trained_shows ..

theorem linkTraining_none (known : slice < 16) (port : link < 4) :
    ∃ s', exec (.linkTraining slice link none) s = .next s' ∧ sget 0 (4 * slice + link) s'.fab.peers = 0 ∧
      s'.fab.linkHealth (externalLink slice link) = 3 := by
  refine ⟨_, rfl, ?_⟩
  rw [if_neg (by omega)]
  exact trained_shows ..

theorem peerStopsAnswering_down (known : slice < 16) (port : link < 4)
    (there : s.fab.linkHealth (externalLink slice link) ≠ 3) : ∃ s', exec (.peerStopsAnswering slice link) s = .next s'
      ∧
      s'.fab.linkHealth (externalLink slice link) = 2 := by
  have runs : ¬(16 ≤ slice ∨ 4 ≤ link ∨ s.fab.linkHealth (externalLink slice link) = 3) := by
    rintro (h | h | h)
    · omega
    · omega
    · exact there h
  refine ⟨_, rfl, ?_⟩
  rw [if_neg runs]
  exact (setLink_shows ..).1

/-! The map's mask at the NIs, and packets that have come back (R431, R436). -/

theorem niMaskRefresh_eq {x : Partition} {v : Nat} (there : sfind part s.pkg.parts = some x)
    (counter : s.ppaMem part (s.reg (s.firstSlice part) 0 0xCB).toNat = some v) : exec (.niMaskRefresh part) s = .next
      (if s.addPending (.home v) = true then s.laterOnce (.niMaskRefresh part)
       else ((s.setPart part { x with health := s.viewOf x }).recheck part).tmapGo part) := by
  show execNiMaskRefresh part s = _
  unfold execNiMaskRefresh
  rw [show s.part? part = some x from there]
  dsimp only
  rw [counter]

theorem packetReturn_transit (there : s.packet? id = some p) (back : p.returning = true) (start : p.hop = 0)
    (load : p.load = .transit pkt) : exec (.packetReturn id) s = .next ((s.delPacket id).out (.turned pkt)) := by
  show execPacketReturn id s = _
  unfold execPacketReturn
  rw [there]
  simp [back, start, load]

theorem packetReturn_msg (there : s.packet? id = some p) (back : p.returning = true) (start : p.hop = 0)
    (load : p.load = .msg mid) (own : p.flow = 0) :
    exec (.packetReturn id) s = .next ((s.delPacket id).answerMsg mid msReturned) := by
  show execPacketReturn id s = _
  unfold execPacketReturn
  rw [there]
  simp [back, start, load, own]

theorem packetReturn_onWay (there : s.packet? id = some p) (onWay : p.returning = false)
    (inside : ∀ sl l, p.place ≠ .outside sl l) : exec (.packetReturn id) s = .next s := by
  show execPacketReturn id s = _
  unfold execPacketReturn
  rw [there]
  dsimp only
  rw [onWay]
  split
  · exact absurd ‹_› (inside _ _)
  · rfl

end

/-- Settles O59, event by event. -/
theorem fabricEvents : Obligations.FabricEvents := by
  unfold Obligations.FabricEvents
  intro s id mid part slice link cur pkt i n k p m q s1 words eth lower upper again x peer st d
  dsimp only
  refine ⟨switchForward_absent, fun there _ held => switchForward_held there held,
    fun there ⟨held, onWay, routed⟩ inside load cls first notYet =>
      gtd_waits there held onWay routed inside load cls first notYet, ?_, ?_, transitCheck_over, fun more => ?_, ?_,
    fun msg status seq => ?_, sequenceSkip_early, fun w there one due missing => sequenceSkip_one there one due missing,
    fun inside untested up => linkTransferFail_counts inside again untested up, linkLaneTest_untested,
    linkLaneTest_tested lower upper, linkTraining_some peer, linkTraining_none, peerStopsAnswering_down,
    fun v there counter => ?_, packetReturn_transit, packetReturn_msg, packetReturn_onWay⟩
  · rintro there ⟨held, onWay, routed⟩ inside load cls switch more
    rw [switchForward_transit there held onWay routed inside load cls, forward_switch more switch]
    refine ⟨fun none => by rw [takeHop_none none], fun port leads => ?_⟩
    rw [takeHop_some port leads]
    exact ⟨fun tested => by rw [if_pos tested],
      fun untested down => by rw [untested, down, if_neg Bool.false_ne_true, if_neg Bool.false_ne_true],
      fun untested up => by rw [untested, up, if_neg Bool.false_ne_true, if_pos rfl]⟩
  · rintro there ⟨held, onWay, routed⟩ load cls at_ more exit untested up
    rw [switchForward_transit there held onWay routed (by simp [at_]) load cls,
      forward_exit more at_ rfl exit untested up, exitBy_transit load]
  · rw [transitCheck_more more]
    refine ⟨fun ⟨a, b, bad⟩ => by rw [bad], fun good => ?_⟩
    split
    · exact absurd ‹_› (good _ _)
    · rfl
  · refine ⟨fun ⟨there, load, msg, onWay, at_, seq⟩ late =>
      ?_, fun ⟨there, load, msg, onWay, at_, seq⟩ early few fresh => ?_,
      fun ⟨there, load, msg, onWay, at_, seq⟩ turn none => ?_⟩
    all_goals
      rw [messageDelivery_come there load msg onWay at_ seq]
      unfold ahead
    · rw [if_pos late]
    · rw [if_neg (Nat.not_le.mpr few), if_pos (Nat.pos_iff_ne_zero.mp early), if_neg]
      exact fun waits => have ⟨w, isin, same⟩ := List.any_eq_true.mp waits
        fresh w isin (of_decide_eq_true same)
    · rw [turn, if_neg (by decide), if_neg (by decide), none]
      dsimp only
      exact ⟨fun again => by rw [if_pos again], fun done => by rw [done]; rfl⟩
  · rw [messageStatusReply_eq msg status seq]
    exact ⟨fun none => by rw [none], fun next => by rw [next]⟩
  · rw [niMaskRefresh_eq there counter]
    exact ⟨fun pending => by rw [if_pos pending], fun applied => by rw [applied, if_neg Bool.false_ne_true]⟩

end Sys2Proof.Machine
end

section
/-! PROOFS. What leaves the flash as it was, function by function, to the loss of a slice (R398). -/

namespace Sys2Proof.Machine

theorem OnlySends.flash {s u : State} (h : OnlySends s u) :
    u.plat.flash = s.plat.flash := congrArg Platform.flash h.plat

theorem foldl_flash {A : Type} (f : State → A → State) (h : ∀ s a, (f s a).plat.flash = s.plat.flash) (xs : List A)
    (s : State) : (xs.foldl f s).plat.flash = s.plat.flash :=
  List.foldlRecOn xs f (motive := fun u => u.plat.flash = s.plat.flash) rfl fun u g a _ => (h u a).trans g

theorem setReg_flash (s : State) (slice unit reg : Nat) (v : W64) :
    (s.setReg slice unit reg v).plat.flash = s.plat.flash := rfl

theorem setCore_flash (s : State) (c : Nat) (x : Core) : (s.setCore c x).plat.flash = s.plat.flash := rfl

theorem setTroupe_flash (s : State) (k : TKey) (t : Troupe) : (s.setTroupe k t).plat.flash = s.plat.flash := by
  unfold State.setTroupe
  grind

theorem setHomes_flash (s : State) (h : Homes) : (s.setHomes h).plat.flash = s.plat.flash := rfl

theorem setFlight_flash (s : State) (f : Flight) : (s.setFlight f).plat.flash = s.plat.flash := rfl

theorem setPkg_flash (s : State) (p : Package) : (s.setPkg p).plat.flash = s.plat.flash := rfl

theorem setFab_flash (s : State) (f : Fabric) : (s.setFab f).plat.flash = s.plat.flash := rfl

theorem setPlat_flash (s : State) (p : Platform) : (s.setPlat p).plat.flash = p.flash := rfl

theorem modPart_flash (s : State) (p : Nat) (f : Partition → Partition) : (s.modPart p f).plat.flash = s.plat.flash :=
    (modPart_sends ..).flash

theorem setHart_flash (s : State) (h : Nat) (x : Hart) : (s.setHart h x).plat.flash = s.plat.flash := rfl

theorem post_flash (s : State) (i : Ev) : (s.post i).plat.flash = s.plat.flash := rfl

theorem postOnce_flash (s : State) (i : Ev) : (s.postOnce i).plat.flash = s.plat.flash := (postOnce_sends ..).flash

theorem later_flash (s : State) (i : Ev) : (s.later i).plat.flash = s.plat.flash := (later_sends ..).flash

theorem laterOnce_flash (s : State) (i : Ev) : (s.laterOnce i).plat.flash = s.plat.flash := (laterOnce_sends ..).flash

theorem newId_flash (s : State) : s.newId.2.plat.flash = s.plat.flash := rfl

theorem leavePipe_flash (s : State) (k : TKey) : (s.leavePipe k).plat.flash = s.plat.flash := by
  unfold State.leavePipe
  grind [setCore_flash]

theorem reGrant_flash (s : State) (k : TKey) : (s.reGrant k).plat.flash = s.plat.flash := by
  unfold State.reGrant
  grind [postOnce_flash]

theorem boundary_flash (s : State) (k : TKey) (rg : Regime) (t : Troupe) :
    (s.boundary k rg t).plat.flash = s.plat.flash := by
  unfold State.boundary
  have h1 := @leavePipe_flash
  grind [later_flash, setTroupe_flash, laterOnce_flash]

theorem queueRing_flash (s : State) (slice part : Nat) (ring : Ring) (words : List W64) (saved caller : Option Nat) :
    (s.queueRing slice part ring words saved caller).2.plat.flash = s.plat.flash := (queueRing_sends ..).flash

theorem setOp_flash (s : State) (id : Nat) (o : MemOp) : (s.setOp id o).plat.flash = s.plat.flash := rfl

theorem sendWrite_flash (s : State) (o : MemOp) (id line : Nat) : (s.sendWrite o id line).plat.flash = s.plat.flash :=
    (sendWrite_sends ..).flash

theorem writeBacks_flash (s : State) (core : Nat) (keys : List Nat) (owner : Owner) (keep counted : Bool) :
    (s.writeBacks core keys owner keep counted).2.plat.flash = s.plat.flash := by
  unfold State.writeBacks
  grind [newId_flash, setOp_flash, setCore_flash, sendWrite_flash, foldl_flash]

theorem setUsed_flash (s : State) (slice vf n : Nat) : (s.setUsed slice vf n).plat.flash = s.plat.flash := by
  unfold State.setUsed
  grind [setReg_flash]

theorem unanchor_flash (s : State) (line vf : Nat) : (s.unanchor line vf).plat.flash = s.plat.flash := by
  unfold State.unanchor
  have h1 := @setUsed_flash
  grind [setHomes_flash]

theorem setWaiter_flash (s : State) (id : Nat) (w : Waiter) : (s.setWaiter id w).plat.flash = s.plat.flash := by
  unfold State.setWaiter
  grind [setFlight_flash]

theorem withdraw_flash (s : State) (mine : WaiterOf → Option Nat) : (s.withdraw mine).plat.flash = s.plat.flash := by
  unfold State.withdraw
  grind [setFlight_flash]

theorem endWait_flash (s : State) (k : TKey) (t : Troupe) (w : WaitState) (status index : Nat) (poisoned : Bool) :
    (s.endWait k t w status index poisoned).plat.flash = s.plat.flash := by
  unfold State.endWait
  have h1 := @withdraw_flash
  have h2 := @boundary_flash
  have h3 := @reGrant_flash
  grind [setTroupe_flash]

theorem setPort_flash (s : State) (h page : Nat) (p : Port) : (s.setPort h page p).plat.flash = s.plat.flash := by
  unfold State.setPort
  grind [setHart_flash]

theorem msi_flash (s : State) (source h file eiid : Nat) : (s.msi source h file eiid).plat.flash = s.plat.flash := by
  unfold State.msi
  grind [setHart_flash, setPlat_flash]

theorem endPort_flash (s : State) (h page status index : Nat) :
    (s.endPort h page status index).plat.flash = s.plat.flash := by
  unfold State.endPort
  have h1 := @msi_flash
  have h2 := @setPort_flash
  have h3 := @withdraw_flash
  grind

theorem release?_flash (s : State) (core : Nat) (us : List CoreUnit) :
    (s.release? core us).plat.flash = s.plat.flash := by
  unfold State.release?
  grind [postOnce_flash, setCore_flash]

theorem tryRefills_flash (s : State) (core : Nat) : (s.tryRefills core).plat.flash = s.plat.flash := by
  unfold State.tryRefills
  grind [postOnce_flash, foldl_flash]

theorem blockDone_flash (s : State) (ticket gwct : Nat) : (s.blockDone ticket gwct).plat.flash = s.plat.flash := by
  unfold State.blockDone
  grind [post_flash, setPkg_flash]

theorem rekey_flash (s : State) (old new : Nat) : (s.rekey old new).plat.flash = s.plat.flash := by
  unfold State.rekey
  grind [setFab_flash, setFlight_flash]

theorem dropTroupe_flash (s : State) (num : Nat) : (s.dropTroupe num).plat.flash = s.plat.flash := by
  unfold State.dropTroupe
  grind [setCore_flash]

theorem setTicket_flash (s : State) (id : Nat) (t : Ticket) : (s.setTicket id t).plat.flash = s.plat.flash := by
  unfold State.setTicket
  grind [setPkg_flash]

theorem modTicket_flash (s : State) (id : Nat) (f : Ticket → Ticket) :
    (s.modTicket id f).plat.flash = s.plat.flash := by
  unfold State.modTicket
  have h1 := @setTicket_flash
  grind

theorem backPins_flash (s : State) (bid : Nat) (b : Block) : (s.backPins bid b).2.plat.flash = s.plat.flash := by
  unfold State.backPins
  have h1 := @writeBacks_flash
  grind

theorem freeFrames_flash (s : State) (part queue : Nat) (fs : List Nat) :
    (s.freeFrames part queue fs).plat.flash = s.plat.flash := by
  unfold State.freeFrames
  grind [modPart_flash]

theorem fixReclaims_flash (s : State) (core bid : Nat) : (s.fixReclaims core bid).plat.flash = s.plat.flash := by
  unfold State.fixReclaims
  have h1 := @tryRefills_flash
  grind [setCore_flash, post_flash, postOnce_flash, foldl_flash]

theorem removeBlock_flash (s : State) (bid : Nat) (b : Block) : (s.removeBlock bid b).plat.flash = s.plat.flash := by
  unfold State.removeBlock
  have h1 := @fixReclaims_flash
  have h2 := @release?_flash
  have h3 := @freeFrames_flash
  grind [setCore_flash]

theorem discardWork_flash (s : State) (num : Nat) : (s.discardWork num).plat.flash = s.plat.flash := by
  unfold State.discardWork
  have h1 := @rekey_flash
  grind [setCore_flash, setFlight_flash, postOnce_flash]

theorem dropSaved_flash (s : State) (sid : Nat) : (s.dropSaved sid).plat.flash = s.plat.flash := by
  unfold State.dropSaved
  have h1 := @freeFrames_flash
  grind [setFlight_flash, setPkg_flash]

theorem discardBlock_flash (s : State) (bid : Nat) : (s.discardBlock bid).plat.flash = s.plat.flash := by
  unfold State.discardBlock
  have h1 := @dropSaved_flash
  have h2 := @discardWork_flash
  have h3 := @dropTroupe_flash
  have h4 := @backPins_flash
  have h5 := @removeBlock_flash
  grind [foldl_flash]

theorem placeAgain_flash (s : State) (part : Nat) : (s.placeAgain part).plat.flash = s.plat.flash := by
  unfold State.placeAgain
  grind [laterOnce_flash, foldl_flash]

theorem setQueue_flash (s : State) (part q : Nat) (x : Queue) : (s.setQueue part q x).plat.flash = s.plat.flash := by
  unfold State.setQueue
  grind [setPkg_flash]

theorem unlist_flash (s : State) (who : WaiterOf) : (s.unlist who).plat.flash = s.plat.flash := by
  unfold State.unlist
  grind [setFlight_flash]

theorem snapEntry_flash (s : State) (part slice result lost c : Nat) :
    (s.snapEntry part slice result lost c).plat.flash = s.plat.flash := by
  unfold State.snapEntry
  grind [queueRing_flash]

theorem unquiesce_flash (s : State) (part : Nat) : (s.unquiesce part).plat.flash = s.plat.flash := by
  unfold State.unquiesce
  have h1 := @placeAgain_flash
  grind [postOnce_flash, foldl_flash]

theorem resetTroupeWait_flash (s : State) (k : TKey) : (s.resetTroupeWait k).plat.flash = s.plat.flash := by
  unfold State.resetTroupeWait
  have h1 := @endWait_flash
  grind

theorem resetWaiter_flash (s : State) (id : Nat) (w : Waiter) : (s.resetWaiter id w).plat.flash = s.plat.flash := by
  unfold State.resetWaiter
  have h1 := @resetTroupeWait_flash
  have h2 := @endPort_flash
  have h3 := @setWaiter_flash
  grind [post_flash]

theorem resetWaits_flash (s : State) (hit : TsLoc → Bool) : (s.resetWaits hit).plat.flash = s.plat.flash := by
  unfold State.resetWaits
  have h1 := @resetWaiter_flash
  grind [foldl_flash]

theorem loseBlock_flash (s : State) (bid : Nat) (code : BitVec 8) :
    (s.loseBlock bid code).plat.flash = s.plat.flash := by
  unfold State.loseBlock
  have h1 := @discardBlock_flash
  have h2 := @blockDone_flash
  have h3 := @setTicket_flash
  grind [foldl_flash]

theorem loseSaved_flash (s : State) (sid : Nat) (x : Saved) : (s.loseSaved sid x).plat.flash = s.plat.flash := by
  unfold State.loseSaved
  have h1 := @loseBlock_flash
  have h2 := @modTicket_flash
  have h3 := @dropSaved_flash
  have h4 := @discardWork_flash
  grind [post_flash]

theorem loseFrames_flash (s : State) (slice : Nat) : (s.loseFrames slice).plat.flash = s.plat.flash := by
  unfold State.loseFrames
  have h1 := @loseSaved_flash
  grind [foldl_flash]

theorem loseSpilled_flash (s : State) (slice : Nat) : (s.loseSpilled slice).plat.flash = s.plat.flash := by
  unfold State.loseSpilled
  have h1 := @loseBlock_flash
  grind [foldl_flash]

theorem endsOf_flash (s : State) (slice : Nat) : (s.endsOf slice).plat.flash = s.plat.flash := by
  unfold State.endsOf
  have h1 := @blockDone_flash
  grind [setCore_flash, foldl_flash]

theorem dropAnchors_flash (s : State) (hit : Nat → Bool) : (s.dropAnchors hit).plat.flash = s.plat.flash := by
  unfold State.dropAnchors
  have h1 := @unanchor_flash
  grind [foldl_flash]

theorem loseSlice_flash (s : State) (slice : Nat) : (s.loseSlice slice).plat.flash = s.plat.flash := by
  unfold State.loseSlice
  have h1 := @loseBlock_flash
  have h2 := @loseSpilled_flash
  have h3 := @loseFrames_flash
  have h4 := @endsOf_flash
  have h5 := @resetWaits_flash
  have h6 := @setQueue_flash
  have h7 := @unlist_flash
  have h8 := @dropAnchors_flash
  have h9 := @unquiesce_flash
  have h10 := @snapEntry_flash
  grind [setPlat_flash, modPart_flash, foldl_flash]

end Sys2Proof.Machine
end

section
/-! PROOFS. Errors, the tests of units, and retirement (R305 to R309, R398, R414). -/

namespace Sys2Proof.Machine

/-! What an error's record and the start of a unit's test leave as they were. -/

theorem reportError_leaves (s : State) (slice unit index : Nat) (t : UnitTest) (test : Nat) :
    (s.reportError slice unit index t test).homes.mem = s.homes.mem ∧
      ∀ k, (s.reportError slice unit index t test).troupe? k = s.troupe? k := by
  unfold State.reportError
  dsimp only
  split
  · have only := fun (p : Nat) (r : BitVec 256) => writeRecord_sends s p slice r
    exact ⟨(only _ _).mem, fun k => (only _ _).troupe? k⟩
  · exact ⟨rfl, fun _ => rfl⟩

theorem startTest_leaves (s : State) (slice unit index : Nat) (line vf : Option Nat) (corrected : Bool) :
    (s.startTest slice unit index line vf corrected).homes.mem = s.homes.mem ∧
      ∀ k, (s.startTest slice unit index line vf corrected).troupe? k = s.troupe? k := by
  unfold State.startTest
  dsimp only
  split
  · exact reportError_leaves ..
  · split <;> exact ⟨rfl, fun _ => rfl⟩

section
variable {s : State} {slice index core line : Nat} {unit : UnitCode}

/-! An error takes effect in what it is found in (R305). -/

theorem uncorrectableError_inside {a : ErrorAt} (vf : Option Nat) (inside : (s.errorUnit a).1 < 16) :
    exec (.uncorrectableError a vf) s = .next ((s.errorAt a).startTest (s.errorUnit a).1 (s.errorUnit a).2.1
      (s.errorUnit a).2.2.1 (s.errorUnit a).2.2.2 vf false) :=
  congrArg Host.Outcome.next (if_neg (Nat.not_le.mpr inside))

theorem uncorrectableError_outside {a : ErrorAt} (vf : Option Nat) (outside : 16 ≤ (s.errorUnit a).1) :
    exec (.uncorrectableError a vf) s = .next s :=
  congrArg Host.Outcome.next (if_pos outside)

/-- A troupe with poison set in some lanes of a v register. -/
def Troupe.poisonReg (t : Troupe) (reg : Nat) (lanes : LaneMask) : Troupe :=
  { t with lane := { t.lane with poison := sput 0 reg (sget 0 reg t.lane.poison ||| lanes) t.lane.poison } }

theorem laneBit_poisonReg_self (t : Troupe) (reg : Nat) (lanes : LaneMask) (i : Nat) :
    laneBit (t.poisonReg reg lanes).lane.poison reg i = (laneBit t.lane.poison reg i || lanes.getLsbD i) := by
  unfold laneBit Troupe.poisonReg
  rw [sget_sput_self, BitVec.getLsbD_or]

theorem laneBit_poisonReg_ne (t : Troupe) {reg q : Nat} (lanes : LaneMask) (other : q ≠ reg) (i : Nat) :
    laneBit (t.poisonReg reg lanes).lane.poison q i = laneBit t.lane.poison q i := by
  unfold laneBit Troupe.poisonReg
  rw [sget_sput_ne _ other]

/-- The lanes of a register in which an error is found are poisoned. -/
theorem registerError {slot reg : Nat} {t : Troupe} (lanes : LaneMask) (vf : Option Nat) (known : core < 128)
    (there : s.troupe? ⟨core, slot⟩ = some t) : ∃ s', exec (.uncorrectableError (.register core slot reg lanes) vf) s =
      .next s' ∧
      s'.troupe? ⟨core, slot⟩ = some (t.poisonReg reg lanes) ∧ s'.homes.mem = s.homes.mem := by
  have unit : s.errorUnit (.register core slot reg lanes) = (coreSlice core, unitCore, coreUnit core - 1, none) := by
    show (if inModule core then coreSlice core else 16, unitCore, coreUnit core - 1, (none : Option Nat)) = _
    rw [show inModule core = true from decide_eq_true known, if_pos rfl]
  have inside : (s.errorUnit (.register core slot reg lanes)).1 < 16 := by
    rw [unit]
    unfold coreSlice
    dsimp only
    omega
  have struck : s.errorAt (.register core slot reg lanes) = s.modTroupe ⟨core, slot⟩ (·.poisonReg reg lanes) := rfl
  refine ⟨_, uncorrectableError_inside vf inside, ?_⟩
  rw [(startTest_leaves ..).1, (startTest_leaves ..).2, struck]
  exact ⟨troupe_modTroupe there _, congrArg Homes.mem (modTroupe_onlyTroupes ..).homes⟩

theorem l1Error_clean {k : Nat} {l : L1Line} (found : (s.core core).l1Find line = some (k, l))
    (clean : l.isPinned = false) : s.errorAt (.l1Line core line) =
      s.setCore core { s.core core with l1 := sdel k (s.core core).l1 } := by
  show s.l1Error core line = _
  unfold State.l1Error
  dsimp only
  rw [found]
  dsimp only
  rw [clean, if_neg Bool.false_ne_true]

theorem l2Error_dirty {x : L2Line} (found : sfind line s.homes.l2 = some x) (dirty : x.dirty = true) (bad : Bool) :
    s.errorAt (.l2Line line bad) = s.poisonLine line := by
  show s.l2Error line bad = _
  unfold State.l2Error
  rw [found]
  exact if_pos dirty

theorem poisonLine_poisons (s : State) (line : Nat) : kmem line (s.poisonLine line).homes.linePoison = true :=
    kmem_kadd ..

theorem setPair_traffic (s : State) (key : Nat) (p : BankPair) : OnlyTraffic s (s.setPair key p) := rfl

theorem bankSend_traffic (s : State) (line recv from_ dst : Nat) (cls : PClass) (e : Ev) :
    OnlyTraffic s (s.bankSend line recv from_ dst cls e) := by
  unfold State.bankSend
  dsimp only
  split
  · exact ((setPair_traffic ..).trans (send_traffic ..)).trans (at_traffic ..)
  · exact setPair_traffic ..

theorem sendRecall_traffic (s : State) (line sl from_ dst : Nat) (cls : PClass) (e : Ev) :
    OnlyTraffic s (s.sendRecall line sl from_ dst cls e) := by
  unfold State.sendRecall
  split
  · exact bankSend_traffic ..
  · exact at_traffic ..

theorem sendRecalls_lease (s : State) (line : Nat) (m : BitVec 16) :
    (s.sendRecalls line m).homes.lease = s.homes.lease := by
  unfold State.sendRecalls
  exact (congrArg Homes.lease (OnlyTraffic.foldl (fun s sl => sendRecall_traffic s line sl ..) _ _).homes).trans rfl

theorem leaseError_runs (s : State) (line : Nat) :
    sget 0 line (s.errorAt (.leaseTable line)).homes.lease = s.tick + 8192 := by
  unfold State.errorAt State.leaseError
  dsimp only
  rw [sendRecalls_lease]
  exact congrArg (Option.getD · 0) (sfind_sset_self ..)

/-! A unit's test (R306), and repeated correctable errors. -/

theorem startTest_new (unretired : s.unitRetired slice unit.val index = false)
    (none : sfind (unitKey slice unit.val index) s.homes.testing = none) (line vf : Option Nat) (corrected : Bool) :
    s.startTest slice unit.val index line vf corrected = s.setHomes { s.homes with
      testing := sset (unitKey slice unit.val index) ⟨s.tick, line, vf, corrected, false⟩ s.homes.testing } := by
  unfold State.startTest
  dsimp only
  rw [unretired, if_neg Bool.false_ne_true, none]

theorem startTest_again {u : UnitTest} (unretired : s.unitRetired slice unit.val index = false)
    (runs : sfind (unitKey slice unit.val index) s.homes.testing = some u) (line vf : Option Nat) (corrected : Bool) :
    s.startTest slice unit.val index line vf corrected = s.setHomes { s.homes with
      testing := sset (unitKey slice unit.val index) { u with again := true } s.homes.testing } := by
  unfold State.startTest
  dsimp only
  rw [unretired, if_neg Bool.false_ne_true, runs]

/-- The end of a unit's test. -/
theorem unitSelfTest_ends {u : UnitTest} (runs : sfind (unitKey slice unit.val index) s.homes.testing = some u)
    (lasting : Bool) (r : Retired) :
    let s1 := s.setHomes { s.homes with testing := sdel (unitKey slice unit.val index) s.homes.testing }
    exec (.unitSelfTest slice unit index lasting r) s = .next (if (lasting || u.again) = true then
      (s1.reportError slice unit.val index u lastingRetired).retire slice (retiredOf unit.val r) u.line
      else s1.reportError slice unit.val index u transient) := by
  show execUnitSelfTest slice unit index lasting r s = _
  unfold execUnitSelfTest
  dsimp only
  rw [runs]

theorem unitSelfTest_none (none : sfind (unitKey slice unit.val index) s.homes.testing = none) (booted : s.tick ≠ 0)
    (lasting : Bool) (r : Retired) : exec (.unitSelfTest slice unit index lasting r) s = .next s := by
  show execUnitSelfTest slice unit index lasting r s = _
  unfold execUnitSelfTest
  dsimp only
  rw [none]
  simp [booted]

/-- A correctable error is counted, and a repeat in its unit starts the unit's test. -/
theorem correctableError_eq (known : slice < 16) (listed : index < 256)
    (untested : sfind (unitKey slice unit.val index) s.homes.testing = none) :
    let old := sfind (unitKey slice unit.val index) s.plat.errors
    let s1 := s.setPlat { s.plat with
      errors := sset (unitKey slice unit.val index) ((old.getD (0, 0)).1 + 1, s.tick) s.plat.errors }
    exec (.correctableError slice unit index) s = .next
      (if (old.isSome && decide (s.tick ≤ (old.getD (0, 0)).2 + 1000000)) = true then
        s1.startTest slice unit.val index none none true else s1) := by
  show execCorrectableError slice unit index s = _
  unfold execCorrectableError
  dsimp only
  rw [if_neg (by omega), untested, Option.isSome_none, Bool.or_false]
  rfl

/-! A slice is lost (R398). -/

theorem sliceLoss_first (known : slice < 16) (there : s.plat.lost.getLsbD slice = false) :
    exec (.sliceLoss slice) s = .next (s.retireSlice slice) :=
  congrArg Host.Outcome.next (if_pos ⟨known, there⟩)

theorem sliceLoss_again (lost : s.plat.lost.getLsbD slice = true) : exec (.sliceLoss slice) s = .next s :=
  congrArg Host.Outcome.next (if_neg fun first => Bool.false_ne_true (first.2.symm.trans lost))

/-- A slice that is retired is in the flash list. -/
theorem retireSlice_listed (s : State) (slice : Nat) :
    (s.retireSlice slice).plat.flash.retired.contains (slice, Retired.slice) = true := by
  have noted : ((s.noteRetired slice .slice).loseSlice slice).plat.flash.retired =
      s.plat.flash.retired ++ [(slice, .slice)] :=
    congrArg Flash.retired (loseSlice_flash ..)
  unfold State.retireSlice
  dsimp only
  split
  · rw [(tmapAdvance_sends ..).plat, noted]
    simp
  · rw [noted]
    simp

end

/-- Settles O57, event by event. -/
theorem errorEvents : Obligations.ErrorEvents := by
  unfold Obligations.ErrorEvents
  intro s core slot reg line slice index lanes vf t unit lasting bad r u old l k x a
  dsimp only
  refine ⟨uncorrectableError_inside vf, uncorrectableError_outside vf, fun known _ _ there => ?_, l1Error_clean,
    fun found dirty => ?_, poisonLine_poisons s line, leaseError_runs s line, fun unretired => ?_, ⟨?_, ?_⟩,
    fun none booted => unitSelfTest_none none booted lasting r, ?_, ?_, sliceLoss_again⟩
  · obtain ⟨s', run, found, mem⟩ := registerError (reg := reg) lanes vf known there
    exact ⟨s', _, run, found, fun i _ => laneBit_poisonReg_self t reg lanes i,
      fun q _ other i _ => laneBit_poisonReg_ne t lanes other i, rfl, mem⟩
  · rw [l2Error_dirty found dirty]
    exact poisonLine_poisons s line
  · exact ⟨fun none => startTest_new unretired none .., fun runs => startTest_again unretired runs ..⟩
  · intro runs once first
    rw [unitSelfTest_ends runs, once, first]
    rfl
  · intro runs lasts
    rw [unitSelfTest_ends runs, if_pos (Bool.or_eq_true_iff.mpr lasts)]
  · intro known listed before untested
    rw [correctableError_eq known listed untested, before]
    refine ⟨fun seldom => ?_, fun e again recent => ?_⟩
    · rw [if_neg]
      obtain none | ⟨e, some, late⟩ := seldom
      · simp [none]
      · simp [some, late]
    · rw [if_pos]
      · simp [again, recent]
  · exact fun known there => ⟨_, sliceLoss_first known there, rfl, retireSlice_listed s slice⟩

end Sys2Proof.Machine
end

section
/-! PROOFS. Key sets, the parts of an operation and the pages of a translation, as the copy engine uses them (R187,
R242). -/

namespace Sys2Proof.Machine

/-! Key sets. -/

theorem mem_kadd {k n : Nat} {s : KeySet} : k ∈ kadd n s ↔ k = n ∨ k ∈ s := by
  induction s with
  | nil => simp [kadd]
  | cons j t ih =>
    unfold kadd
    split
    · exact List.mem_cons
    · split
      · next same => simp [same]
      · rw [List.mem_cons, ih, List.mem_cons]
        exact or_left_comm

theorem mem_foldl_kadd (k : Nat) (l : List Nat) (s : KeySet) :
    k ∈ l.foldl (fun s k => kadd k s) s ↔ k ∈ l ∨ k ∈ s := by
  induction l generalizing s with
  | nil => simp
  | cons n t ih =>
    rw [List.foldl_cons, ih, mem_kadd, List.mem_cons, or_assoc]
    exact or_left_comm

theorem mem_toKeys {k : Nat} {l : List Nat} : k ∈ toKeys l ↔ k ∈ l := by
  unfold toKeys
  rw [mem_foldl_kadd]
  simp

/-! The parts of an operation. -/

/-- Every access of a part is one of the operation's. -/
theorem acc_of_partsOf {accs : List TaggedAcc} {p : Part} {a : LaneAcc} (part : p ∈ partsOf accs) (mine : a ∈ p.accs) :
    ∃ e ∈ accs, e.acc = a := by
  obtain ⟨line, -, rfl⟩ := List.mem_map.mp part
  obtain ⟨e, listed, rfl⟩ := List.mem_map.mp mine
  exact ⟨e, (List.mem_filter.mp listed).1, rfl⟩

/-- Every access of an operation is in one of its parts. -/
theorem part_of_acc {accs : List TaggedAcc} {e : TaggedAcc} (listed : e ∈ accs) :
    ∃ p ∈ partsOf accs, e.acc ∈ p.accs := by
  have line : e.acc.addr / 64 ∈ toKeys (accs.map fun e => e.acc.addr / 64) :=
    mem_toKeys.mpr (List.mem_map_of_mem listed)
  exact ⟨_, List.mem_map_of_mem line,
    List.mem_map_of_mem (List.mem_filter.mpr ⟨listed, decide_eq_true rfl⟩)⟩

/-! The pages of a translation. -/

section
variable {pages : List (Nat × Except XFault XTo)}

theorem xAgain_of_ok (good : ∀ e ∈ pages, ∃ y, e.2 = .ok y) : xAgain pages = [] := by
  refine List.filterMap_eq_nil_iff.mpr fun e listed => ?_
  obtain ⟨y, ok⟩ := good e listed
  rw [ok]

variable {cause : Nat × Except XFault XTo → Option (BitVec 8)} (passes : ∀ p y, cause (p, .ok y) = none)
  (fails : ∀ p f, cause (p, .error f) = some f.cause)
include passes

theorem no_cause_of_ok (good : ∀ e ∈ pages, ∃ y, e.2 = .ok y) : pages.findSome? cause = none := by
  refine List.findSome?_eq_none_iff.mpr fun e listed => ?_
  obtain ⟨y, ok⟩ := good e listed
  rw [← Prod.eta e, ok]
  exact passes _ _

include fails

/-- The cause found is that of a page that fails. -/
theorem cause_of_error {p : Nat} {f : XFault} (bad : (p, .error f) ∈ pages) :
    ∃ g : XFault, (∃ q, (q, .error g) ∈ pages) ∧ pages.findSome? cause = some g.cause := by
  have found : (pages.findSome? cause).isSome = true :=
    List.findSome?_isSome_iff.mpr ⟨_, bad, by rw [fails]; rfl⟩
  obtain ⟨k, eq⟩ := Option.isSome_iff_exists.mp found
  obtain ⟨⟨q, r⟩, listed, here⟩ := List.exists_of_findSome?_eq_some eq
  cases r with
  | ok y => rw [passes] at here; cases here
  | error g =>
    rw [fails] at here
    exact ⟨g, ⟨q, listed⟩, eq.trans here.symm⟩

end

end Sys2Proof.Machine
end

section
/-! PROOFS. The walk of a chain (R242 to R252). -/

namespace Sys2Proof.Machine

variable {s s1 : State} {id core op : Nat} {x : Chain} {out : List LaneAcc} {loc : TsLoc} {name : Option TsName}
    {f : XFault}
  {b : Block}

/-! A chain that is no more. -/

theorem recordRead_gone (gone : s.chain? id = none) : exec (.recordRead id) s = .next s := by
  show execRecordRead id s = _
  simp only [execRecordRead, gone]

theorem recordMoveEnd_gone (gone : s.chain? id = none) : exec (.recordMoveEnd id) s = .next s := by
  show execRecordMoveEnd id s = _
  simp only [execRecordMoveEnd, gone]

theorem completionAdd_gone (gone : s.chain? id = none) : exec (.completionAdd id) s = .next s := by
  show execCompletionAdd id s = _
  simp only [execCompletionAdd, gone]

theorem chainEnd_gone (gone : s.chain? id = none) : exec (.chainEnd id) s = .next s := by
  show execChainEnd id s = _
  simp only [execChainEnd, gone]

/-! A channel takes a chain (R242). -/

/-- The channels of a core that walk a chain. -/
def State.busyChannels (s : State) (core : Nat) : Nat :=
  (s.flight.chains.filter fun e => decide (e.2.core = core) && decide (e.2.state = .active)).length

theorem chainStart_free (free : s.busyChannels core < 4) (next : s.nextChain core = some (id, x)) :
    exec (.chainStart core) s =
      .next (((s.setChain id { x with state := .active, served := s.seq }).bump.post (.recordRead id)).postOnce
        (.chainStart core)) := by
  show execChainStart core s = _
  have few : ¬ 4 ≤ s.busyChannels core := Nat.not_le.mpr free
  unfold State.busyChannels at few
  simp only [execChainStart, if_neg few, next]

theorem chainStart_busy (busy : 4 ≤ s.busyChannels core) : exec (.chainStart core) s = .next s :=
  congrArg Host.Outcome.next (if_pos busy)

/-! The reading of a record, phase by phase (R246). -/

/-- A read that fails for good ends as its user says. -/
theorem readFailed_of_ne (s : State) (again : Ev) (k : State → BitVec 8 → State) (good : f.cause ≠ causeAgain) :
    s.readFailed f again k = k s f.cause :=
  if_neg good

section
variable (found : s.chain? id = some x)
include found

theorem recordRead_parked (phase : x.phase = .fetch) (parks : s.parks x = true) :
    exec (.recordRead id) s = .next (s.later (.recordRead id)) := by
  show execRecordRead id s = _
  simp only [execRecordRead, found, phase, if_pos parks]

theorem recordRead_misaligned (phase : x.phase = .fetch) (parks : s.parks x = false) (off : x.addr % 128 ≠ 0) :
    exec (.recordRead id) s = .next (s.stopChain id x causeAlign) := by
  show execRecordRead id s = _
  simp only [execRecordRead, found, phase, if_neg (ne_true_of_eq_false parks), if_pos off]

theorem recordRead_fetched (phase : x.phase = .fetch) (parks : s.parks x = false) (at_ : x.addr % 128 = 0)
    (read : s.engineRead id x x.addr 16 = .ok (op, s1)) :
    exec (.recordRead id) s = .next ((s1.setChain id { x with phase := .record op }).later (.recordRead id)) := by
  show execRecordRead id s = _
  simp only [execRecordRead, found, phase, if_neg (ne_true_of_eq_false parks), if_neg (not_not_intro at_), read]

theorem recordRead_unread (phase : x.phase = .fetch) (parks : s.parks x = false) (at_ : x.addr % 128 = 0)
    (read : s.engineRead id x x.addr 16 = .error f) (good : f.cause ≠ causeAgain) :
    exec (.recordRead id) s = .next ((s.countCause f.cause).stopChain id x f.cause) := by
  show execRecordRead id s = _
  simp only [execRecordRead, found, phase, if_neg (ne_true_of_eq_false parks), if_neg (not_not_intro at_), read]
  rw [readFailed_of_ne s _ _ good]

theorem recordRead_waits (phase : x.phase = .record op) (back : s.takeRead op = none) :
    exec (.recordRead id) s = .next (s.later (.recordRead id)) := by
  show execRecordRead id s = _
  simp only [execRecordRead, found, phase, back]

theorem recordRead_back (phase : x.phase = .record op) (back : s.takeRead op = some (out, s1)) :
    exec (.recordRead id) s = .next (s1.recordIn id x out) := by
  show execRecordRead id s = _
  simp only [execRecordRead, found, phase, back]

theorem recordRead_named (phase : x.phase = .named) : exec (.recordRead id) s = .next (s.recordNamed id x) := by
  show execRecordRead id s = _
  simp only [execRecordRead, found, phase]

theorem recordRead_predicate (phase : x.phase = .predicate op) (back : s.takeRead op = some (out, s1)) :
    exec (.recordRead id) s = .next (s1.predicateIn id x out) := by
  show execRecordRead id s = _
  simp only [execRecordRead, found, phase, back]

theorem recordRead_begin (phase : x.phase = .begin) : exec (.recordRead id) s = .next (s.beginRecord id x) := by
  show execRecordRead id s = _
  simp only [execRecordRead, found, phase]

end

theorem recordIn_eq (s : State) (id : Nat) (x : Chain) (out : List LaneAcc) :
    let ws := out.map fun a => BitVec.ofNat 64 a.val
    let x1 := { x with words := ws, last := x.addr }
    s.recordIn id x out = if out.any (·.poison) then s.stopChain id x causePoison
      else if (XRec.of ws).engine then (s.setChain id { x1 with phase := .named }).post (.recordRead id)
      else s.stopChain id x1 x.endCode := by
  unfold State.recordIn
  dsimp only
  cases (XRec.of (out.map fun a => BitVec.ofNat 64 a.val)).engine <;> rfl

/-! A record that is the engine's: its turnstile and its predicate (R246). -/

/-- The completion turnstile of a record as its designator leads to it. -/
def Named.target? : Named → Option (TsLoc × Option TsName)
  | .to l n => some (l, n)
  | _ => none

theorem emptyContribs_unordered {r : XRec} {again : Ev} {k : State → State} (unordered : r.ordered = false) :
    s.emptyContribs id x r again k = k s := by
  unfold State.emptyContribs
  rw [unordered]
  cases s.block? x.block <;> rfl

section
variable (there : s.block? x.block = some b) (named : ∀ line, s.name x.block b (XRec.of x.words).done ≠ .again line)
include there named

/-- The record is named, so that it is not looked up again. -/
theorem recordNamed_eq :
    let r := XRec.of x.words
    let x1 := { x with done := (s.name x.block b r.done).target? }
    s.recordNamed id x =
      if x.aborting then s.emptyContribs id x1 r (.recordRead id) fun s => s.recordFails id x1 stAborted
      else if !r.skip then (s.setChain id { x1 with phase := .begin }).post (.recordRead id)
      else if r.paddr % 8 ≠ 0 then s.recordFails id x1 causeAlign
      else match s.engineRead id x r.paddr 1 with
        | .error k => s.readFailed k (.recordRead id) fun s k => s.recordFails id x1 k
        | .ok (op, s1) => (s1.setChain id { x1 with phase := .predicate op }).later (.recordRead id) := by
  dsimp only
  unfold State.recordNamed
  dsimp only
  rw [there]
  dsimp only [Option.map_some]
  cases way : s.name x.block b (XRec.of x.words).done with
  | again line => exact absurd way (named line)
  | _ => rfl

theorem recordNamed_aborted (aborting : x.aborting = true) (unordered : (XRec.of x.words).ordered = false) :
    s.recordNamed id x =
      s.toStatus id { x with done := (s.name x.block b (XRec.of x.words).done).target? } stAborted := by
  rw [recordNamed_eq there named, if_pos aborting, emptyContribs_unordered unordered]
  rfl

section
variable (goes : x.aborting = false)
include goes

theorem recordNamed_unskipped (skip : (XRec.of x.words).skip = false) :
    s.recordNamed id x = (s.setChain id
      { x with done := (s.name x.block b (XRec.of x.words).done).target?, phase := .begin }).post (.recordRead id) := by
  rw [recordNamed_eq there named, if_neg (ne_true_of_eq_false goes), skip]
  rfl

variable (skip : (XRec.of x.words).skip = true)
include skip

theorem recordNamed_misaligned (off : (XRec.of x.words).paddr % 8 ≠ 0) :
    s.recordNamed id x =
      s.toStatus id { x with done := (s.name x.block b (XRec.of x.words).done).target? } causeAlign := by
  rw [recordNamed_eq there named, if_neg (ne_true_of_eq_false goes), skip, if_neg (by decide), if_pos off]
  rfl

variable (at_ : (XRec.of x.words).paddr % 8 = 0)
include at_

theorem recordNamed_asks (read : s.engineRead id x (XRec.of x.words).paddr 1 = .ok (op, s1)) :
    s.recordNamed id x = (s1.setChain id
      { x with done := (s.name x.block b (XRec.of x.words).done).target?, phase := .predicate op }).later
        (.recordRead id) := by
  rw [recordNamed_eq there named, if_neg (ne_true_of_eq_false goes), skip, if_neg (by decide),
    if_neg (not_not_intro at_), read]

theorem recordNamed_unread (read : s.engineRead id x (XRec.of x.words).paddr 1 = .error f)
    (good : f.cause ≠ causeAgain) :
    s.recordNamed id x =
      s.toStatus id { x with done := (s.name x.block b (XRec.of x.words).done).target? } f.cause := by
  rw [recordNamed_eq there named, if_neg (ne_true_of_eq_false goes), skip, if_neg (by decide),
    if_neg (not_not_intro at_), read]
  exact readFailed_of_ne s _ _ good

end

end

theorem predicateIn_single (s : State) (id : Nat) (x : Chain) (a : LaneAcc) :
    s.predicateIn id x [a] = if a.poison then s.toStatus id x causePoison
      else if a.val &&& (XRec.of x.words).pmask = 0 then s.toStatus id x stSkipped
      else (s.setChain id { x with phase := .begin }).post (.recordRead id) := by
  unfold State.predicateIn
  rw [List.any_cons, List.any_nil, Bool.or_false]
  rfl

/-! The checks of a record, and its beginning (R245). -/

/-- What a page's translation fails with. -/
def pageCause (e : Nat × Except XFault XTo) : Option (BitVec 8) :=
  match e.2 with
  | .error f => some f.cause
  | .ok _ => none

/-- The pages that the elements of a record are read from, as they translate for its chain. -/
def State.srcXlate (s : State) (x : Chain) : List (Nat × Except XFault XTo) × State :=
  s.xlatePages (coreSlice x.core) x.regime needR (XRec.of x.words).srcPages

/-- The pages that they are written to, as they translate next. -/
def State.dstXlate (s : State) (x : Chain) : List (Nat × Except XFault XTo) × State :=
  (s.srcXlate x).2.xlatePages (coreSlice x.core) x.regime needW (XRec.of x.words).dstPages

/-- The bytes of a record's source as they are read. -/
def srcAccs (r : XRec) (sp : List (Nat × Except XFault XTo)) : List TaggedAcc :=
  (r.elems.zipIdx).flatMap fun e => (List.range r.ebytes).filterMap fun j =>
    (xAddr (pageResult sp (r.src + e.1.1 + j)) (r.src + e.1.1 + j)).map fun y =>
      TaggedAcc.mk (r.src + e.1.1 + j) y.2 ⟨e.2 * r.ebytes + j, y.1, 0, 0, false⟩

theorem srcAccs_addr {r : XRec} {sp : List (Nat × Except XFault XTo)} {a : TaggedAcc} (listed : a ∈ srcAccs r sp) :
    ∃ (e : Nat × Nat) (j tag : Nat), e ∈ r.elems ∧ j < r.ebytes ∧
      xAddr (pageResult sp (r.src + e.1 + j)) (r.src + e.1 + j) = some (a.acc.addr, tag) := by
  obtain ⟨e, elem, here⟩ := List.mem_flatMap.mp listed
  obtain ⟨j, within, got⟩ := List.mem_filterMap.mp here
  obtain ⟨y, addr, rfl⟩ := Option.map_eq_some_iff.mp got
  exact ⟨e.1, j, y.2, List.fst_mem_of_mem_zipIdx elem, List.mem_range.mp within, addr⟩

section
variable (there : s.block? x.block = some b)
include there

theorem beginRecord_fails (bad : (XRec.of x.words).check b (s.name x.block b (XRec.of x.words).done).cause? ≠ 0) :
    s.beginRecord id x =
      s.toStatus id x ((XRec.of x.words).check b (s.name x.block b (XRec.of x.words).done).cause?) := by
  simp only [State.beginRecord, there, if_pos bad]
  rfl

variable (good : (XRec.of x.words).check b (s.name x.block b (XRec.of x.words).done).cause? = 0)
include good

/-- The record passes its checks. -/
theorem beginRecord_eq :
    let r := XRec.of x.words
    let sp := (s.srcXlate x).1
    let u := (s.dstXlate x).2
    let pages := sp ++ (s.dstXlate x).1
    let es := r.entries b x.block id
    let s3 := u.setCore x.core { u.core x.core with sb := (u.core x.core).sb ++ es }
    let x1 := { x with startNo := u.flight.nextId }
    let v := s3.engineSend (engineOp id x1 .record .b8 1 (srcAccs r sp))
    s.beginRecord id x =
      if xAgain pages ≠ [] then u.tryAgain (xAgain pages) (.recordRead id)
      else match pages.findSome? pageCause with
      | some k => u.toStatus id x k
      | none =>
        if 32 < (u.core x.core).sb.length + es.length then u.later (.recordRead id)
        else if r.ssp || r.empty then (s3.setChain id { x1 with phase := .move none }).post (.recordMoveEnd id)
        else (v.2.setChain id { x1 with phase := .move (some v.1) }).post (.recordMoveEnd id) := by
  unfold State.beginRecord
  dsimp only
  rw [there]
  dsimp only
  rw [if_neg (not_not_intro good)]
  rfl

theorem beginRecord_unmapped {p : Nat} (steady : xAgain ((s.srcXlate x).1 ++ (s.dstXlate x).1) = [])
    (bad : (p, .error f) ∈ (s.srcXlate x).1 ++ (s.dstXlate x).1) :
    ∃ g : XFault, (∃ q, (q, .error g) ∈ (s.srcXlate x).1 ++ (s.dstXlate x).1) ∧
      s.beginRecord id x = (s.dstXlate x).2.toStatus id x g.cause := by
  obtain ⟨g, listed, cause⟩ := cause_of_error (cause := pageCause) (fun _ _ => rfl) (fun _ _ => rfl) bad
  refine ⟨g, listed, ?_⟩
  rw [beginRecord_eq there good]
  dsimp only
  rw [if_neg (not_not_intro steady), cause]

section
variable (mapped : ∀ e ∈ (s.srcXlate x).1 ++ (s.dstXlate x).1, ∃ y, e.2 = .ok y)
  (room : ((s.dstXlate x).2.core x.core).sb.length + ((XRec.of x.words).entries b x.block id).length ≤ 32)
include mapped room

theorem beginRecord_moves :
    let r := XRec.of x.words
    let u := (s.dstXlate x).2
    let s3 := u.setCore x.core { u.core x.core with sb := (u.core x.core).sb ++ r.entries b x.block id }
    let x1 := { x with startNo := u.flight.nextId }
    let v := s3.engineSend (engineOp id x1 .record .b8 1 (srcAccs r (s.srcXlate x).1))
    s.beginRecord id x =
      if r.ssp || r.empty then (s3.setChain id { x1 with phase := .move none }).post (.recordMoveEnd id)
      else (v.2.setChain id { x1 with phase := .move (some v.1) }).post (.recordMoveEnd id) := by
  rw [beginRecord_eq there good]
  dsimp only
  rw [if_neg (not_not_intro (xAgain_of_ok mapped)),
    no_cause_of_ok (cause := pageCause) (fun _ _ => rfl) mapped]
  dsimp only
  rw [if_neg (Nat.not_lt.mpr room)]

end

end

/-! The end of a record (R244, R246, R250, R251). -/

section
variable (found : s.chain? id = some x)
include found

theorem recordMoveEnd_unwritten (phase : x.phase = .write ∨ x.phase = .status) (left : s.written id x = false) :
    exec (.recordMoveEnd id) s = .next (s.later (.recordMoveEnd id)) := by
  show execRecordMoveEnd id s = _
  obtain phase | phase := phase <;> simp [execRecordMoveEnd, found, phase, left]

theorem recordMoveEnd_goes (phase : x.phase = .status) (done : s.written id x = true)
    (silent : x.status = stSkipped ∨ x.done = none) : exec (.recordMoveEnd id) s = .next (s.nextRecord id x) := by
  show execRecordMoveEnd id s = _
  simp only [execRecordMoveEnd, found, phase, done, Bool.not_true, Bool.false_eq_true, if_false, if_pos silent]

theorem recordMoveEnd_adds (phase : x.phase = .status) (done : s.written id x = true) (moved : x.status ≠ stSkipped)
    (target : x.done ≠ none) : exec (.recordMoveEnd id) s =
      .next ((s.setChain id { x with phase := .add }).post (.completionAdd id)) := by
  show execRecordMoveEnd id s = _
  simp only [execRecordMoveEnd, found, phase, done, Bool.not_true, Bool.false_eq_true, if_false,
    if_neg (not_or_intro moved target)]

theorem completionAdd_sends (phase : x.phase = .add) (target : x.done = some (loc, name)) (first : x.adds = []) :
    exec (.completionAdd id) s = .next (((s.newId.2.setTs s.flight.nextId
      ⟨.chain id, .add, loc, name, BitVec.ofNat 64 (XRec.of x.words).amount, (XRec.of x.words).addScope, none, .held,
        0, [],
        false, none, x.regime.flowVf, x.regime.part⟩).nextRecord id { x with adds := [s.flight.nextId] }).post
      (.heldReleaseSend s.flight.nextId)) := by
  show execCompletionAdd id s = _
  simp only [execCompletionAdd, found, phase, target, first, List.filter_nil, List.isEmpty_nil, Bool.not_true,
    Bool.false_eq_true, if_false]
  rfl

theorem completionAdd_waits {a : Nat} {o : TsOp} (phase : x.phase = .add) (target : x.done = some (loc, name))
    (one : x.adds = [a]) (flying : s.ts? a = some o) (unacked : o.acked = false) :
    exec (.completionAdd id) s = .next (s.setChain id x) := by
  have same : { x with phase := .add, done := some (loc, name), adds := [a] } = x := by rw [← phase, ← target, ← one]
  show execCompletionAdd id s = _
  simp only [execCompletionAdd, found, phase, target, one, List.filter_cons, flying, unacked, Bool.not_false, if_true,
    List.filter_nil, List.isEmpty_cons]
  rw [same]

theorem chainEnd_counts (phase : x.phase = .over) (acked : x.adds = []) (counted : x.counted = true) :
    exec (.chainEnd id) s = .next ((s.setChain id { x with counted := false }).modTroupe (keyOf x.troupe) fun t =>
      t.count fun k => { k with cp := k.cp - 1 }) := by
  show execChainEnd id s = _
  simp only [execChainEnd, found, phase, acked, counted, and_self, if_true]

end

theorem nextRecord_eq (s : State) (id : Nat) (x : Chain) :
    s.nextRecord id x =
      if x.stopAfter = true ∨ (XRec.of x.words).next = 0 then s.stopChain id x x.endCode
      else (s.setChain id { x with phase := .fetch, addr := (XRec.of x.words).next, ops := [], status := 0 }).post
        (.recordRead id) := by
  unfold State.nextRecord
  simp only [Bool.or_eq_true, decide_eq_true_eq]

theorem chainEvents : ChainEvents := by
  unfold ChainEvents
  intro s s1 id core op x out loc name f
  dsimp only
  refine ⟨chainStart_free, chainStart_busy, fun found => ⟨recordRead_parked found, recordRead_fetched found,
    recordRead_unread found, recordRead_misaligned found, recordRead_waits found, fun phase back => ?_,
    fun b phase there named => ?_, fun a phase back => ?_, fun b phase there => ?_,
    fun phase => recordMoveEnd_unwritten found (.inl phase), fun phase => recordMoveEnd_unwritten found (.inr phase),
    fun phase done silent => ?_, recordMoveEnd_adds found, fun phase target first => ?_,
    fun a o phase => completionAdd_waits found phase, chainEnd_counts found⟩,
    fun gone => ⟨recordRead_gone gone, recordMoveEnd_gone gone, completionAdd_gone gone, chainEnd_gone gone⟩⟩
  · rw [recordRead_back found phase back, recordIn_eq]
    rfl
  · rw [recordRead_named found phase]
    refine ⟨fun aborting unordered => ?_, fun goes skip => ?_, fun goes skip off => ?_, fun goes skip at_ read => ?_,
      fun goes skip at_ read good => ?_⟩
    · rw [recordNamed_aborted there named aborting unordered]
      rfl
    · rw [recordNamed_unskipped there named goes skip]
      rfl
    · rw [recordNamed_misaligned there named goes skip off]
      rfl
    · rw [recordNamed_asks there named goes skip at_ read]
      rfl
    · rw [recordNamed_unread there named goes skip at_ read good]
      rfl
  · rw [recordRead_predicate found phase back, predicateIn_single]
    rfl
  · rw [recordRead_begin found phase]
    refine ⟨fun bad => ?_, fun good steady p e listed fails => ?_, fun good mapped room still => ?_,
      fun good mapped room far some_ => ?_⟩
    · rw [beginRecord_fails there bad]
      rfl
    · subst fails
      obtain ⟨g, page, run⟩ := beginRecord_unmapped there good steady listed
      exact ⟨g, page, congrArg Host.Outcome.next run⟩
    · rw [beginRecord_moves there good mapped room]
      dsimp only
      rw [if_pos ((Bool.or_eq_true _ _).mpr still)]
      rfl
    · refine ⟨engineOp id { x with startNo := (s.dstXlate x).2.flight.nextId } .record .b8 1
        (srcAccs (XRec.of x.words) (s.srcXlate x).1), _, rfl, rfl, fun p part a mine => ?_, rfl, ?_⟩
      rotate_left
      · rw [beginRecord_moves there good mapped room]
        dsimp only
        rw [far, some_]
        rfl
      · obtain ⟨e, listed, rfl⟩ := acc_of_partsOf part mine
        exact srcAccs_addr listed
  · rw [recordMoveEnd_goes found phase done silent, nextRecord_eq]
    rfl
  · rw [completionAdd_sends found phase target first, nextRecord_eq]
    rfl

end Sys2Proof.Machine
end

section
/-! PROOFS. The movement of a record (R244, R246, R247, R252). -/

namespace Sys2Proof.Machine

/-! The bits of a field that is replaced. -/

theorem putBits_eq (x lo len v : Nat) :
    putBits x lo len v = 2 ^ lo * (2 ^ len * (x / 2 ^ lo / 2 ^ len) + v % 2 ^ len) + x % 2 ^ lo := by
  have whole : 2 ^ lo * (2 ^ len * (x / 2 ^ lo / 2 ^ len) + x / 2 ^ lo % 2 ^ len) + x % 2 ^ lo = x := by
    rw [Nat.div_add_mod, Nat.div_add_mod]
  unfold putBits bitsOf
  rw [Nat.mul_add] at whole ⊢
  rw [Nat.mul_comm (x / 2 ^ lo % 2 ^ len), Nat.mul_comm (v % 2 ^ len)]
  omega

theorem testBit_putBits (x lo len v i : Nat) :
    (putBits x lo len v).testBit i = if lo ≤ i ∧ i < lo + len then v.testBit (i - lo) else x.testBit i := by
  rw [putBits_eq, Nat.testBit_two_pow_mul_add _ (Nat.mod_lt _ (Nat.two_pow_pos lo))]
  split
  · next low =>
    rw [if_neg (by omega), Nat.testBit_mod_two_pow, decide_eq_true low, Bool.true_and]
  · next high =>
    rw [Nat.testBit_two_pow_mul_add _ (Nat.mod_lt _ (Nat.two_pow_pos len))]
    split
    · next field =>
      rw [if_pos (by omega), Nat.testBit_mod_two_pow, decide_eq_true field, Bool.true_and]
    · next above =>
      rw [if_neg (by omega), Nat.testBit_div_two_pow, Nat.testBit_div_two_pow]
      congr 1
      omega

/-- Word 0 of a record with its status, given back to software (R244). -/
def statusWord (w : W64) (st : BitVec 8) : W64 := BitVec.ofNat 64 (putBits (w.toNat % 2 ^ 63) 48 8 st.toNat)

theorem statusWord_bit (w : W64) (st : BitVec 8) {i : Nat} (within : i < 64) : (statusWord w st).getLsbD i =
    if 48 ≤ i ∧ i < 56 then st.getLsbD (i - 48) else decide (i < 63) && w.getLsbD i := by
  unfold statusWord
  rw [BitVec.getLsbD_ofNat, decide_eq_true within, Bool.true_and, testBit_putBits, Nat.testBit_mod_two_pow]
  rfl

theorem statusWord_status (w : W64) (st : BitVec 8) : (statusWord w st).extractLsb' 48 8 = st := by
  refine BitVec.eq_of_getLsbD_eq fun i within => ?_
  rw [BitVec.getLsbD_extractLsb', decide_eq_true within, Bool.true_and, statusWord_bit w st (by omega),
    if_pos (by omega), Nat.add_sub_cancel_left]

theorem statusWord_software (w : W64) (st : BitVec 8) : (statusWord w st).getLsbD 63 = false := by
  rw [statusWord_bit w st (by decide)]
  rfl

theorem statusWord_rest (w : W64) (st : BitVec 8) {i : Nat} (other : i < 48 ∨ 56 ≤ i ∧ i < 63) :
    (statusWord w st).getLsbD i = w.getLsbD i := by
  rw [statusWord_bit w st (by omega), if_neg (by omega), decide_eq_true (by omega), Bool.true_and]

/-! What sends messages leaves the chains. -/

theorem at_chains (s : State) (n : Nat) (e : Ev) : (s.at n e).flight.chains = s.flight.chains := by
  unfold State.at
  split <;> rfl

theorem later_chains (s : State) (e : Ev) : (s.later e).flight.chains = s.flight.chains := at_chains ..

theorem postOnce_chains (s : State) (e : Ev) : (s.postOnce e).flight.chains = s.flight.chains := by
  unfold State.postOnce
  split <;> rfl

theorem countPacket_chains (s : State) (part vf : Nat) : (s.countPacket part vf).flight.chains = s.flight.chains := by
  unfold State.countPacket State.countEnergy State.modPart
  split
  · dsimp only
    split <;> rfl
  · rfl

theorem send_chains (s : State) (src dst : Nat) (cls : PClass) (e : Ev) :
    (s.send src dst cls e).flight.chains = s.flight.chains := by
  unfold State.send
  split
  · exact later_chains ..
  · dsimp only
    split
    · split
      · exact (at_chains ..).trans (countPacket_chains ..)
      · exact postOnce_chains ..
    · exact at_chains ..

/-- An operation that no copy serves goes on its way and leaves the chains. -/
theorem sendPart_chains {s : State} {id : Nat} {o : MemOp} (found : s.op? id = some o) (fresh : o.kind.served = false)
    (line : Nat) : (s.sendPart id line).flight.chains = s.flight.chains := by
  unfold State.sendPart
  rw [found]
  dsimp only
  split
  · rfl
  · split
    · exact later_chains ..
    · split
      · exact later_chains ..
      · split
        · exact send_chains ..
        · split
          · exact send_chains (s.dropRdc ..) ..
          · rw [copyHit_of_not_served fresh, Bool.false_and, if_neg Bool.false_ne_true]
            exact send_chains ..

theorem engineSend_chains (s : State) {o : MemOp} (fresh : o.kind.served = false) :
    (s.engineSend o).2.flight.chains = s.flight.chains := by
  have there : (s.newId.2.setOp s.newId.1 o).op? s.newId.1 = some o := sfind_sset_self ..
  exact (List.foldlRecOn o.parts _
    (motive := fun u : State => u.flight.chains = s.flight.chains ∧ u.op? s.newId.1 = some o)
    (b := s.newId.2.setOp s.newId.1 o) ⟨rfl, there⟩
    fun u ⟨kept, found⟩ p _ => ⟨(sendPart_chains found fresh _).trans kept, (sendPart_sends found fresh _).2⟩).1

theorem contribute_chains (s : State) (id : Nat) (x : Chain) (r : XRec) (p : Part) :
    (s.contribute id x r p).flight.chains = s.flight.chains :=
  send_chains ..

variable {s u : State} {id next : Nat} {x : Chain} {r : XRec} {b : Block} {op : Option Nat} {f : XFault}

/-! What a record writes leaves its chain, but for the operations it awaits. -/

/-- The chain stands as it was, but that it may await more operations. -/
def State.HasChain (u : State) (id : Nat) (x : Chain) : Prop := ∃ y, u.chain? id = some y ∧ { y with ops := x.ops } = x

theorem State.HasChain.of_chains (found : s.chain? id = some x) (kept : u.flight.chains = s.flight.chains) :
    u.HasChain id x :=
  ⟨x, (congrArg (sfind id) kept).trans found, rfl⟩

/-- A chain awaits an operation that is sent for it. -/
theorem engineSend_hasChain {o : MemOp} (found : s.chain? id = some x) (fresh : o.kind.served = false) (n : Nat) :
    ((s.engineSend o).2.modChain id fun y => { y with ops := y.ops ++ [n] }).HasChain id x := by
  have there : (s.engineSend o).2.chain? id = some x := (congrArg (sfind id) (engineSend_chains s fresh)).trans found
  unfold State.modChain
  rw [there]
  exact ⟨_, sfind_sset_self .., rfl⟩

theorem writePieces_hasChain (found : s.chain? id = some x) (b : Block) (pages : List (Nat × Except XFault XTo))
    (ps : List Piece) : (s.writePieces id x r b pages ps).HasChain id x := by
  unfold State.writePieces
  dsimp only
  split
  · exact .of_chains found rfl
  · exact .of_chains found rfl
  · split
    · split
      · refine .of_chains found (List.foldlRecOn _ _ (motive := fun u : State => u.flight.chains = s.flight.chains) rfl
          fun u kept p _ => (contribute_chains ..).trans kept)
      · exact engineSend_hasChain found rfl _
    · exact engineSend_hasChain found rfl _

/-- The translation of pages leaves the chains. -/
theorem xlatePages_chains (s : State) (slice : Nat) (rg : Regime) (need : Need) (pages : List Nat) :
    (s.xlatePages slice rg need pages).2.flight.chains = s.flight.chains :=
  congrArg Flight.chains (xlatePages_spec s slice rg need pages).1.outside.flight

/-! The event of a record that moves (R246, R252). -/

theorem ready_iff {earlier loading : Bool} {done : Nat → Bool} : (earlier || loading || !(op.all done)) = false ↔
    earlier = false ∧ loading = false ∧ ∀ o, op = some o → done o = true := by
  rw [Bool.or_eq_false_iff, Bool.or_eq_false_iff, and_assoc, Bool.not_eq_false', Option.all_eq_true]

section
variable (found : s.chain? id = some x)
include found

theorem recordMoveEnd_waits (phase : x.phase = .move op) (unready : ¬ (s.earlierAccess x (XRec.of x.words) = false ∧
    s.bookLoading x (XRec.of x.words) = false ∧ ∀ o, op = some o → s.opDone o = true)) :
    exec (.recordMoveEnd id) s = .next (s.later (.recordMoveEnd id)) := by
  have waits := eq_true_of_ne_false (mt ready_iff.mp unready)
  show execRecordMoveEnd id s = _
  simp only [execRecordMoveEnd, found, phase, waits, if_true]

/-- The record's turn: its elements and every earlier access are there, or it has begun to write. -/
theorem recordMoveEnd_moves (moves : (x.phase = .move op ∧ next = 0 ∧ s.earlierAccess x (XRec.of x.words) = false ∧
    s.bookLoading x (XRec.of x.words) = false ∧ ∀ o, op = some o → s.opDone o = true) ∨ x.phase = .moving op next) :
    exec (.recordMoveEnd id) s = .next (s.moveOn id x (XRec.of x.words) op next) := by
  show execRecordMoveEnd id s = _
  obtain ⟨phase, rfl, accesses, book, elements⟩ | phase := moves
  · have ready := ready_iff.mpr ⟨accesses, book, elements⟩
    simp only [execRecordMoveEnd, found, phase, ready, Bool.false_eq_true, if_false]
  · simp only [execRecordMoveEnd, found, phase]

theorem recordMoveEnd_stores (phase : x.phase = .write) (done : s.written id x = true) :
    exec (.recordMoveEnd id) s = .next ((s.freeEntries x.core id true).storeStatus id x) := by
  show execRecordMoveEnd id s = _
  simp only [execRecordMoveEnd, found, phase, done, if_true]

end

section
variable (there : s.block? x.block = some b)
include there

theorem moveOn_aborted (aborting : x.aborting = true) (stands : next ≠ 0 ∨ r.ordered = false) :
    s.moveOn id x r op next = s.endMove id x op stAborted := by
  simp only [State.moveOn, there, if_pos aborting]
  split
  · next first =>
    exact emptyContribs_unordered (stands.resolve_left (not_not_intro first))
  · rfl

variable (goes : x.aborting = false)
include goes

theorem moveOn_nobook (reads : r.xform = 1) (none : s.bookOf x r = none) :
    s.moveOn id x r op next = s.endMove id x op stNobook := by
  simp only [State.moveOn, there, goes, reads, none]
  rfl

variable (book : r.xform ≠ 1 ∨ s.bookOf x r ≠ none)
include book

theorem moveOn_booked : s.moveOn id x r op next =
    if r.empty then s.endMove id x op stDone
    else s.moveChunk id x r b op next (match op with
      | none => s.scratchElems x r b
      | some o => globalElems r (((s.op? o).map fun o => o.parts.flatMap (·.out)).getD [])) := by
  have stands : ¬ (decide (r.xform = 1) && (s.bookOf x r).isNone) = true := by
    rw [Bool.and_eq_true, decide_eq_true_eq, Option.isNone_iff_eq_none]
    exact fun both => book.elim (· both.1) (· both.2)
  simp only [State.moveOn, there, if_neg (ne_true_of_eq_false goes), if_neg stands]
  cases op <;> rfl

end

/-- Elements of a record that are moved together: they are written, and the record ends or waits a tick for the next. -/
theorem moveChunk_moves (found : s.chain? id = some x) (es : List (Nat × Nat × Bool)) :
    let last := r.chunkEnd next
    let ps := ((es.take last).drop next).map fun e => let y := r.convert (s.bookOf x r) e.2.1 e.2.2; Piece.mk e.1 y.1
      y.2
    let pg := s.xlatePages (coreSlice x.core) x.regime needW (r.piecePages ps)
    xAgain pg.1 = [] → ps ≠ [] →
    ∃ u y, u = pg.2.writePieces id x r b pg.1 ps ∧ u.chain? id = some y ∧ { y with ops := x.ops } = x ∧
      s.moveChunk id x r b op next es = if es.length ≤ last then u.endMove id y op stDone
        else (u.setChain id { y with phase := .moving op last }).later (.recordMoveEnd id) := by
  intro last ps pg steady some_
  have kept : pg.2.chain? id = some x := (congrArg (sfind id) (xlatePages_chains ..)).trans found
  obtain ⟨y, there, same⟩ := writePieces_hasChain kept b pg.1 ps
  refine ⟨_, y, rfl, there, same, ?_⟩
  have pieces : ¬ ps.isEmpty = true := fun empty => some_ (List.isEmpty_iff.mp empty)
  unfold State.moveChunk
  dsimp only
  rw [if_neg (not_not_intro steady), if_neg pieces, there]

/-- A record's end lets its source go, at the core of the chain. -/
theorem endMove_core {core : Nat} (same : x.core = core) (st : BitVec 8) : s.endMove id x op st =
    ((op.elim s s.delOp).freeEntries core id false).toStatus id x st := by
  subst same
  cases op <;> rfl

theorem writePieces_operand (s : State) (id : Nat) (x : Chain) (b : Block) (pages : List (Nat × Except XFault XTo))
    (ps : List Piece) (operand : r.dkind = 1) : s.writePieces id x r b pages ps =
      s.setCore x.core ((s.core x.core).opStore (ps.map fun p => (opAddr b r.slot (r.dstAt + p.off), p.bytes,
        p.poison))) := by
  simp only [State.writePieces, operand]

/-! The status store (R244). -/

/-- The status of a record once its bytes are written (R246). -/
def Chain.lastStatus (x : Chain) : BitVec 8 := if x.aborting && decide (x.status = stDone) then stAborted else x.status

/-- The chain while its status is stored. -/
def Chain.storing (x : Chain) : Chain :=
  { x with
    phase := .status
    status := x.lastStatus
    ops := []
    aborting := x.aborting || failing x.lastStatus
    endCode := if failing x.lastStatus && decide (x.endCode = 0) then x.lastStatus else x.endCode }

theorem storeStatus_sends {d tag : Nat} (maps : (s.xlate (coreSlice x.core) x.regime x.addr needW).1 = .ok
    (.mem d tag)) :
    let v := (s.xlate (coreSlice x.core) x.regime x.addr needW).2.engineSend (engineOp id x .store .b64 1
      [⟨x.addr, tag, ⟨0, d, (statusWord (x.words.getD 0 0) x.lastStatus).toNat, 0, false⟩⟩])
    s.storeStatus id x = (v.2.setChain id { x.storing with ops := [v.1] }).later (.recordMoveEnd id) := by
  unfold State.storeStatus
  generalize s.xlate (coreSlice x.core) x.regime x.addr needW = y at maps
  obtain ⟨to_, u⟩ := y
  obtain rfl : to_ = .ok (.mem d tag) := maps
  rfl

theorem storeStatus_fails (fails : (s.xlate (coreSlice x.core) x.regime x.addr needW).1 = .error f)
    (good : f.cause ≠ causeAgain) :
    s.storeStatus id x = ((s.xlate (coreSlice x.core) x.regime x.addr needW).2.setChain id { x.storing with
      stopAfter := true, endCode := if x.storing.endCode = 0 then f.cause else x.storing.endCode }).post
        (.recordMoveEnd id) := by
  unfold State.storeStatus
  generalize s.xlate (coreSlice x.core) x.regime x.addr needW = y at fails
  obtain ⟨to_, u⟩ := y
  obtain rfl : to_ = .error f := fails
  exact readFailed_of_ne u _ _ good

theorem recordMoves : RecordMoves := by
  unfold RecordMoves
  intro s id next x b op found there
  dsimp only
  refine ⟨recordMoveEnd_waits found, fun moves aborting stands => ?_, fun moves goes reads none => ?_,
    fun moves goes book empty => ?_, fun moves goes book full steady some_ => ?_,
    fun pages ps => writePieces_operand s id x b pages ps, fun phase done => ⟨fun d tag maps => ?_, fun f fails good =>
      ?_⟩⟩
  · rw [recordMoveEnd_moves found moves, moveOn_aborted there aborting stands]
    rfl
  · rw [recordMoveEnd_moves found moves, moveOn_nobook there goes reads none]
    rfl
  · rw [recordMoveEnd_moves found moves, moveOn_booked there goes book, if_pos empty]
    rfl
  · obtain ⟨u, y, wrote, kept, same, run⟩ := moveChunk_moves (r := XRec.of x.words) (b := b) (op := op) found _ steady
      some_
    have core : y.core = x.core := (congrArg Chain.core same :)
    refine ⟨u, y, wrote, kept, same, fun all => ?_, fun more => ?_⟩
    · rw [recordMoveEnd_moves found moves, moveOn_booked there goes book, if_neg (ne_true_of_eq_false full)]
      refine congrArg Host.Outcome.next ((run.trans (if_pos all)).trans ((endMove_core core stDone).trans ?_))
      cases op <;> rfl
    · rw [recordMoveEnd_moves found moves, moveOn_booked there goes book, if_neg (ne_true_of_eq_false full)]
      exact congrArg Host.Outcome.next (run.trans (if_neg (Nat.not_le.mpr more)))
  · refine ⟨statusWord (x.words.getD 0 0) x.lastStatus, statusWord_status .., statusWord_software ..,
      fun i other => statusWord_rest _ _ other, ?_⟩
    rw [recordMoveEnd_stores found phase done, storeStatus_sends maps]
    rfl
  · rw [recordMoveEnd_stores found phase done, storeStatus_fails fails good]
    rfl

end Sys2Proof.Machine
end

section
/-! PROOFS. Ordered contributions and the loads of codebooks (R34, R249, R251). -/

namespace Sys2Proof.Machine

variable {s s1 : State} {id line op n : Nat} {k : Contrib} {x : Chain} {l : BookLoad} {out : List LaneAcc} {b : Block}

/-! An ordered contribution at its home (R249). -/

theorem ordering_setOrdering (s : State) (line : Nat) (o : Ordering) : (s.setOrdering line o).ordering line = o :=
  sget_sput_self ..

section
variable (known : s.contrib? id = some k) (new : (s.ordering k.part.line).held.contains id = false)
include known new

theorem reduceContribution_refused (refuses : s.refusesContrib k = true) : exec (.reduceContribution id) s =
    .next (s.countRefusal.setFlight { s.flight with contribs := sdel id s.flight.contribs }) := by
  show execReduceContribution id s = _
  simp only [execReduceContribution, known, new, refuses, Bool.false_eq_true, if_false, if_true]

/-- A contribution that its home takes. -/
theorem reduceContribution_taken (admits : s.refusesContrib k = false) (untested : s.homeTested k.part.line = false)
    (thawed : s.isFrozen k.part.line = false) (free : sfind k.part.line s.homes.pins = none) :
    exec (.reduceContribution id) s = .next (s.takeContrib id k) := by
  show execReduceContribution id s = _
  simp only [execReduceContribution, known, new, admits, untested, thawed, free, Option.isSome_none, Bool.false_eq_true,
    if_false]

end

/-- The write of a contribution that is applied. -/
def Contrib.write (k : Contrib) (x : Chain) : MemOp :=
  ⟨.chain k.chain, .reduce k.fmt, k.width, none, x.core, x.block, x.regime, 6, 1, 3, none, [k.part], false⟩

theorem applyContrib_writes (chain : s.chain? k.chain = some x) (some_ : k.part.accs ≠ []) :
    let v := (s.setFlight { s.flight with contribs := sdel id s.flight.contribs }).newId
    s.applyContrib id k = ((v.2.setOp v.1 (k.write x)).setChain k.chain { x with ops := x.ops ++ [v.1] }).admitWrite v.1
      k.part.line (k.write x) := by
  have there : (s.setFlight { s.flight with contribs := sdel id s.flight.contribs }).chain? k.chain = some x := chain
  have full : ¬ k.part.accs.isEmpty = true := fun empty => some_ (List.isEmpty_iff.mp empty)
  unfold State.applyContrib
  dsimp only
  rw [there]
  dsimp only
  rw [if_neg full]
  rfl

/-- The contribution whose turn it is, where none is held. -/
theorem takeContrib_next (due : k.key = (s.ordering k.part.line).next) (none_ : (s.ordering k.part.line).held = []) :
    let o := s.ordering k.part.line
    let u := (s.applyContrib id k).setOrdering k.part.line ⟨o.next + 1, o.applied + 1, []⟩
    s.takeContrib id k = if o.applied + 1 = k.count then u.setOrdering k.part.line ⟨0, 0, []⟩ else u := by
  intro o u
  unfold State.takeContrib
  dsimp only
  rw [if_pos (Nat.le_of_eq due), if_pos due, none_]
  show (if (State.ordering u k.part.line).applied = k.count then
    u.setOrdering k.part.line ⟨0, 0, (State.ordering u k.part.line).held⟩ else u) = _
  rw [ordering_setOrdering]

theorem takeContrib_later (early : (s.ordering k.part.line).next < k.key) (some_ : (s.ordering k.part.line).held ≠ []) :
    s.takeContrib id k = ((s.setFlight { s.flight with
      contribs := sset id { k with since := s.tick } s.flight.contribs }).setOrdering k.part.line
        { s.ordering k.part.line with held := (s.ordering k.part.line).held ++ [id] }).at (s.tick + 65536)
          (.heldContributionTimeout k.part.line) := by
  unfold State.takeContrib
  dsimp only
  rw [if_neg (Nat.not_le.mpr early), if_neg fun full => some_ full.1]

/-! Contributions held too long (R249). -/

/-- Whether a held contribution has waited its 65,536 ticks. -/
def State.overdue (s : State) (h : Nat) : Bool :=
  match s.contrib? h with
  | some x => decide (x.since + 65536 ≤ s.tick)
  | none => false

theorem heldContributionTimeout_early (none_ : (s.ordering line).held.any s.overdue = false) :
    exec (.heldContributionTimeout line) s = .next s :=
  congrArg Host.Outcome.next (if_pos ((Bool.not_eq_true' _).mpr none_))

theorem heldContributionTimeout_late (some_ : (s.ordering line).held.any s.overdue = true)
    (thawed : s.isFrozen line = false) (untested : s.homeTested line = false) (free : sfind line s.homes.pins = none) :
    exec (.heldContributionTimeout line) s =
      .next ((s.applyAll line (s.ordering line).held.length).setOrdering line ⟨0, 0, []⟩) := by
  have late : ¬ (!(s.ordering line).held.any s.overdue) = true := by
    rw [some_]
    exact Bool.false_ne_true
  have home : ¬ (s.isFrozen line || s.homeTested line || (sfind line s.homes.pins).isSome) = true := by
    rw [thawed, untested, free]
    exact Bool.false_ne_true
  exact congrArg Host.Outcome.next ((if_neg late).trans (if_neg home))

theorem leastBy_mem {A : Type} {f : A → Nat} {l : List A} {y : A} (least : leastBy f l = some y) : y ∈ l := by
  induction l generalizing y with
  | nil => cases least
  | cons a t ih =>
    unfold leastBy at least
    cases rest : leastBy f t with
    | none =>
      rw [rest] at least
      exact List.mem_cons.mpr (.inl (Option.some.inj least).symm)
    | some c =>
      rw [rest] at least
      dsimp only at least
      split at least
      · exact List.mem_cons.mpr (.inl (Option.some.inj least).symm)
      · exact List.mem_cons_of_mem a (ih (rest.trans least))

/-- A member below every other is the least. -/
theorem leastBy_eq {A : Type} {f : A → Nat} {l : List A} {y : A} (mem : y ∈ l) (least : ∀ z ∈ l, z = y ∨ f y < f z) :
    leastBy f l = some y := by
  induction l with
  | nil => cases mem
  | cons a t ih =>
    unfold leastBy
    obtain rfl | above := least a (List.mem_cons_self ..)
    · cases rest : leastBy f t with
      | none => rfl
      | some c =>
        have le : f a ≤ f c := by
          obtain rfl | lt := least c (List.mem_cons_of_mem a (leastBy_mem rest))
          · exact Nat.le_refl _
          · exact Nat.le_of_lt lt
        dsimp only
        rw [if_pos le]
    · have tail : y ∈ t := (List.mem_cons.mp mem).resolve_left fun same => by
        subst same
        exact Nat.lt_irrefl _ above
      rw [ih tail fun z inner => least z (List.mem_cons_of_mem a inner)]
      dsimp only
      rw [if_neg (Nat.not_le.mpr above)]

/-- The held contribution with the least key is applied first. -/
theorem applyAll_least {h : Nat} {c : Contrib} (held : h ∈ (s.ordering line).held) (known : s.contrib? h = some c)
    (least : ∀ g ∈ (s.ordering line).held, ∀ e, s.contrib? g = some e → g = h ∨ c.key < e.key) :
    s.applyAll line (n + 1) = ((s.applyContrib h c).setOrdering line
      { s.ordering line with held := (s.ordering line).held.filter (· ≠ h) }).applyAll line n := by
  have first : leastBy (fun (e : Nat × Contrib) => e.2.key) ((s.ordering line).held.filterMap fun h =>
      (s.contrib? h).map fun c => (h, c)) = some (h, c) := by
    refine leastBy_eq (List.mem_filterMap.mpr ⟨h, held, by rw [known]; rfl⟩) fun z mem => ?_
    obtain ⟨g, member, pair⟩ := List.mem_filterMap.mp mem
    obtain ⟨e, found, rfl⟩ := Option.map_eq_some_iff.mp pair
    obtain rfl | above := least g member e found
    · exact .inl (congrArg _ (Option.some.inj (found.symm.trans known)))
    · exact .inr above
  rw [State.applyAll]
  dsimp only
  rw [first]

/-! The load of a codebook (R251). -/

/-- The book that a load fills. -/
def State.bookLoaded (s : State) (l : BookLoad) : Book :=
  sget ⟨l.block, 0, [], [], true, false⟩ l.store (s.core l.core).books

/-- The pages of a codebook, as they translate. -/
def State.bookXlate (s : State) (l : BookLoad) (b : Block) : List (Nat × Except XFault XTo) × State :=
  s.xlatePages (coreSlice l.core) b.regime needR (toKeys ((List.range 3).map fun i =>
    (Nat.min (l.addr + 4096 * i) (l.addr + 8191)) / 4096))

/-- The first words of a codebook as they are read. -/
def bookAccs (l : BookLoad) (pages : List (Nat × Except XFault XTo)) (words : Nat) : List TaggedAcc :=
  (List.range words).filterMap fun i => (xAddr (pageResult pages (l.addr + 8 * i)) (l.addr + 8 * i)).map fun y =>
    TaggedAcc.mk (l.addr + 8 * i) y.2 ⟨i, y.1, 0, 0, false⟩

/-- The read of a codebook. -/
def bookRead (l : BookLoad) (b : Block) (accs : List TaggedAcc) : MemOp :=
  ⟨.core l.core, .record, .b64, none, l.core, l.block, b.regime, 6, 1, 3, none, partsOf accs, false⟩

theorem bookRead_parts (l : BookLoad) (b : Block) (accs : List TaggedAcc) :
    (bookRead l b accs).parts = partsOf accs := rfl

theorem bookRead_kind (l : BookLoad) (b : Block) (accs : List TaggedAcc) :
    (bookRead l b accs).kind = .record ∧ (bookRead l b accs).width = .b64 := ⟨rfl, rfl⟩

/-- Every word of a codebook that is mapped is read. -/
theorem bookRead_word (l : BookLoad) (b : Block) {pages : List (Nat × Except XFault XTo)} {i words : Nat}
    (within : i < words) {y : Nat × Nat} (addr : xAddr (pageResult pages (l.addr + 8 * i)) (l.addr + 8 * i) = some y) :
    ∃ p ∈ (bookRead l b (bookAccs l pages words)).parts, ⟨i, y.1, 0, 0, false⟩ ∈ p.accs := by
  have listed : TaggedAcc.mk (l.addr + 8 * i) y.2 ⟨i, y.1, 0, 0, false⟩ ∈ bookAccs l pages words :=
    List.mem_filterMap.mpr ⟨i, List.mem_range.mpr within, Option.map_eq_some_iff.mpr ⟨y, addr, rfl⟩⟩
  rw [bookRead_parts]
  exact part_of_acc listed

section
variable (known : sfind id s.flight.books = some l)
include known

section
variable (fresh : l.op = none)
include fresh

theorem cbloadEnd_waits (busy : s.bookInUse id l (s.bookLoaded l).num = true) :
    exec (.cbloadEnd id) s = .next (s.later (.cbloadEnd id)) := by
  show execCbloadEnd id s = _
  unfold execCbloadEnd
  rw [known]
  dsimp only
  rw [fresh]
  exact congrArg Host.Outcome.next (if_pos busy)

variable (free : s.bookInUse id l (s.bookLoaded l).num = false) (there : s.block? l.block = some b)
  (steady : xAgain (s.bookXlate l b).1 = [])
include free there steady

theorem cbloadEnd_eq : exec (.cbloadEnd id) s = .next (
    let ps := s.bookXlate l b
    match ps.1.findSome? pageCause with
    | some c => ps.2.endBook id l { s.bookLoaded l with loading := false, ok := false } c
    | none =>
      let v := ps.2.engineSend (bookRead l b (bookAccs l ps.1 1024))
      (v.2.setFlight { v.2.flight with books := sset id { l with op := some v.1 } v.2.flight.books }).later
        (.cbloadEnd id)) := by
  show execCbloadEnd id s = _
  unfold execCbloadEnd
  rw [known]
  dsimp only
  rw [fresh, there]
  refine congrArg Host.Outcome.next ((if_neg (ne_true_of_eq_false free)).trans ?_)
  unfold State.bookXlate at steady ⊢
  generalize s.xlatePages (coreSlice l.core) b.regime needR _ = ps at steady ⊢
  obtain ⟨pages, u⟩ := ps
  dsimp only
  rw [if_neg (not_not_intro steady)]
  unfold bookAccs
  generalize List.filterMap _ (List.range 1024) = accs
  rfl

theorem cbloadEnd_unmapped (bad : ∃ e ∈ (s.bookXlate l b).1, ∃ f, e.2 = .error f) :
    ∃ f : XFault, (∃ p, (p, .error f) ∈ (s.bookXlate l b).1) ∧ exec (.cbloadEnd id) s =
      .next ((s.bookXlate l b).2.endBook id l { s.bookLoaded l with loading := false, ok := false } f.cause) := by
  obtain ⟨⟨p, r⟩, listed, f, rfl⟩ := bad
  obtain ⟨g, page, cause⟩ := cause_of_error (cause := pageCause) (fun _ _ => rfl) (fun _ _ => rfl) listed
  refine ⟨g, page, ?_⟩
  rw [cbloadEnd_eq known fresh free there steady]
  dsimp only
  rw [cause]

omit steady in
theorem cbloadEnd_reads (mapped : ∀ e ∈ (s.bookXlate l b).1, ∃ y, e.2 = .ok y) :
    ∃ (e : MemOp) (v : Nat × State), e.kind = .record ∧ e.width = .b64 ∧
      (∀ i < 1024, ∀ y, xAddr (pageResult (s.bookXlate l b).1 (l.addr + 8 * i)) (l.addr + 8 * i) = some y →
        ∃ p ∈ e.parts, ⟨i, y.1, 0, 0, false⟩ ∈ p.accs) ∧
      v = (s.bookXlate l b).2.engineSend e ∧ exec (.cbloadEnd id) s = .next ((v.2.setFlight { v.2.flight with
        books := sset id { l with op := some v.1 } v.2.flight.books }).later (.cbloadEnd id)) := by
  have words := fun i within y => bookRead_word l b (pages := (s.bookXlate l b).1) (i := i) (words := 1024) within
    (y := y)
  obtain ⟨kind, width⟩ := bookRead_kind l b (bookAccs l (s.bookXlate l b).1 1024)
  have run := cbloadEnd_eq known fresh free there (xAgain_of_ok mapped)
  dsimp only at run
  rw [no_cause_of_ok (cause := pageCause) (fun _ _ => rfl) mapped] at run
  generalize bookRead l b (bookAccs l (s.bookXlate l b).1 1024) = read at words kind width run
  exact ⟨read, _, kind, width, words, rfl, run⟩

end

theorem cbloadEnd_reading (reads : l.op = some op) (back : s.takeRead op = none) :
    exec (.cbloadEnd id) s = .next (s.later (.cbloadEnd id)) := by
  show execCbloadEnd id s = _
  simp only [execCbloadEnd, known, reads, back]

end

/-- The bytes of a codebook as its words come back. -/
def bookBytes (out : List LaneAcc) : Sparse Byte :=
  out.foldl (fun (m : Sparse Byte) a => ((leBytes 8 a.val).zipIdx).foldl (fun m e => sput 0 (8 * a.lane + e.2) e.1 m)
    m) []

/-- The elements of a codebook with poisoned words. -/
def bookPoison (out : List LaneAcc) : KeySet := toKeys ((out.filter (·.poison)).map fun a => a.lane / 4)

theorem cbloadEnd_back (known : sfind id s.flight.books = some l) (reads : l.op = some op)
    (back : s.takeRead op = some (out, s1)) : exec (.cbloadEnd id) s = .next (s1.endBook id l
      { s.bookLoaded l with bytes := bookBytes out, poison := bookPoison out, loading := false, ok := true } 0) := by
  show execCbloadEnd id s = _
  simp only [execCbloadEnd, known, reads, back]
  rfl

/-! What a table holds after the words are put. -/

/-- A run of bytes put from a key on. -/
theorem sget_putRun (base q : Nat) (bs : List Byte) (from_ : Nat) (m : Sparse Byte) :
    sget 0 q ((bs.zipIdx from_).foldl (fun m e => sput 0 (base + e.2) e.1 m) m) =
      if base + from_ ≤ q ∧ q < base + from_ + bs.length then bs.getD (q - (base + from_)) 0 else sget 0 q m := by
  induction bs generalizing from_ m with
  | nil =>
    rw [if_neg (by simp only [List.length_nil]; omega)]
    rfl
  | cons v t ih =>
    rw [List.zipIdx_cons, List.foldl_cons, ih, sget_sput, List.length_cons]
    by_cases here : q = base + from_
    · rw [if_neg (by omega), if_pos here, if_pos (by omega), here, Nat.sub_self]
      rfl
    · rw [if_neg here]
      by_cases later : base + (from_ + 1) ≤ q ∧ q < base + (from_ + 1) + t.length
      · rw [if_pos later, if_pos (by omega), show q - (base + from_) = q - (base + (from_ + 1)) + 1 by omega]
        rfl
      · rw [if_neg later, if_neg (by omega)]

/-- A word put at its lane. -/
theorem sget_putWord (a : LaneAcc) (q : Nat) (m : Sparse Byte) :
    sget 0 q (((leBytes 8 a.val).zipIdx).foldl (fun m e => sput 0 (8 * a.lane + e.2) e.1 m) m) =
      if q / 8 = a.lane then BitVec.ofNat 8 (a.val / 256 ^ (q % 8)) else sget 0 q m := by
  have size : (leBytes 8 a.val).length = 8 := by simp [leBytes]
  rw [sget_putRun, size]
  by_cases mine : q / 8 = a.lane
  · have place : q - (8 * a.lane + 0) = q % 8 := by omega
    have small : q % 8 < 8 := Nat.mod_lt _ (by decide)
    rw [if_pos (by omega), if_pos mine, place]
    simp [leBytes, List.getD_eq_getElem?_getD, small]
  · rw [if_neg (by omega), if_neg mine]

/-- Words put elsewhere leave a byte. -/
theorem sget_putWords_ne (q : Nat) (out : List LaneAcc) (other : ∀ a ∈ out, q / 8 ≠ a.lane) (m : Sparse Byte) :
    sget 0 q (out.foldl (fun (m : Sparse Byte) a =>
      ((leBytes 8 a.val).zipIdx).foldl (fun m e => sput 0 (8 * a.lane + e.2) e.1 m) m) m) = sget 0 q m := by
  induction out generalizing m with
  | nil => rfl
  | cons a t ih =>
    rw [List.foldl_cons, ih fun c mem => other c (List.mem_cons_of_mem a mem), sget_putWord,
      if_neg (other a (List.mem_cons_self ..))]

theorem sget_putWords (out : List LaneAcc) (apart : (out.map (·.lane)).Nodup) (m : Sparse Byte) {a : LaneAcc}
    (mem : a ∈ out) {j : Nat} (small : j < 8) : sget 0 (8 * a.lane + j) (out.foldl (fun (m : Sparse Byte) a =>
      ((leBytes 8 a.val).zipIdx).foldl (fun m e => sput 0 (8 * a.lane + e.2) e.1 m) m) m) =
        BitVec.ofNat 8 (a.val / 256 ^ j) := by
  have lane : (8 * a.lane + j) / 8 = a.lane := by omega
  have byte : (8 * a.lane + j) % 8 = j := by omega
  induction out generalizing m with
  | nil => cases mem
  | cons c t ih =>
    rw [List.map_cons, List.nodup_cons] at apart
    rw [List.foldl_cons]
    obtain rfl | tail := List.mem_cons.mp mem
    · rw [sget_putWords_ne _ _ (fun e inner same => apart.1 (List.mem_map.mpr ⟨e, inner, by omega⟩)), sget_putWord,
        if_pos lane, byte]
    · exact ih apart.2 _ tail

theorem kmem_bookPoison (out : List LaneAcc) (n : Nat) :
    kmem n (bookPoison out) = out.any fun a => a.poison && decide (a.lane / 4 = n) := by
  unfold kmem bookPoison
  rw [Bool.eq_iff_iff, List.contains_iff_mem, mem_toKeys, List.any_eq_true]
  simp only [List.mem_map, List.mem_filter, Bool.and_eq_true, decide_eq_true_eq, and_assoc]

theorem contributionAndBookEvents : ContributionAndBookEvents := by
  unfold ContributionAndBookEvents
  intro s s1 id line k x l op out
  dsimp only
  refine ⟨fun ⟨known, new, admits, untested, thawed, free⟩ chain some_ due none_ => ?_,
    fun ⟨known, new, admits, untested, thawed, free⟩ early some_ => ?_, reduceContribution_refused,
    heldContributionTimeout_early, heldContributionTimeout_late, fun n h c => applyAll_least, cbloadEnd_waits,
    fun b known fresh free there => ⟨cbloadEnd_unmapped known fresh free there, cbloadEnd_reads known fresh free
      there⟩, cbloadEnd_reading,
    fun known reads back apart => ?_⟩
  · rw [reduceContribution_taken known new admits untested thawed free, takeContrib_next due none_,
      applyContrib_writes chain some_]
    rfl
  · rw [reduceContribution_taken known new admits untested thawed free, takeContrib_later early some_]
  · exact ⟨bookBytes out, bookPoison out, fun a mem j small => sget_putWords out apart [] mem small, kmem_bookPoison
      out,
      cbloadEnd_back known reads back⟩

/-- Settles O37, part by part. -/
theorem copyEngineEvents : Obligations.CopyEngineEvents :=
  ⟨chainEvents, recordMoves, contributionAndBookEvents⟩

end Sys2Proof.Machine
end
